-- ==== Sys2Proof/Word.lean ====
section
/-! DEFINITION. The word types of the PV8450 (R5, R6, R7). -/

namespace Sys2Proof

/-- One byte; byte 0 of a multi-byte quantity holds bits [7:0] (R6). -/
abbrev Byte := BitVec 8

/-- One 32-bit register (R7). -/
abbrev Word := BitVec 32

/-- Cadence time: bits [63:24] the beat number, bits [23:0] the phase (R11). -/
abbrev CTime := BitVec 64

end Sys2Proof
end

