-- ==== Sys2Proof/Syntax.lean ====
section
/-! DEFINITION. The commands of the block: `Instr` has one constructor per row of spec/opcode_table.json, in the table's
order, with the operands that the row's rule gives it. A measured quantity (a level, a sample, a detector's report, the bytes
of a message or of a descriptor) is an operand; everything the rules compute from it is computed by the machine. -/

namespace Sys2Proof

/-- The two register access paths of R480. -/
inductive Path where
  | pcie
  | twoWire
  deriving DecidableEq, Repr

/-- A ring by type and number (Table 9.2); the type codes of R464 are 0 command, 1 completion, 2 event, 3 telemetry. -/
inductive RingId where
  | cmd (k : Fin 16)
  | cpl (k : Fin 16)
  | evt (k : Fin 4)
  | tlm (k : Fin 8)
  deriving DecidableEq, Repr

/-- Rate and width of the PCI Express link (Table 9.1). -/
inductive LinkRate where
  | gt2_5
  | gt5
  | gt8
  | gt16
  deriving DecidableEq, Repr

inductive LinkWidth where
  | x1
  | x2
  | x4
  deriving DecidableEq, Repr

/-- How the link trained: rate, width, lane reversal, and the lanes whose polarity is inverted (Table 9.1). -/
structure LinkForm where
  rate : LinkRate
  width : LinkWidth
  reversed : Bool
  inverted : BitVec 4
  deriving DecidableEq, Repr

/-- Settings of the function other than its enables (Table 9.1): maximum payload size of 128, 256 or 512 bytes, maximum read request
of 128 to 4,096 bytes, each as a power of two over 128, and ASPM L1. -/
structure PcieCtl where
  payload : Fin 3
  readReq : Fin 6
  aspmL1 : Bool
  deriving DecidableEq, Repr

/-- The cadence trees A and B (R245). -/
inductive Tree where
  | a
  | b
  deriving DecidableEq, Repr

/-- The converters that keep a rotating spare (R76, R152, R211). -/
inductive ConvId where
  | lineAdc (n : Fin 8)
  | dac (n : Fin 8)
  | hostAdc (n : Fin 16)
  deriving DecidableEq, Repr

/-- A lane named by a command that aims at a line or a host lane. -/
inductive LaneId where
  | line (n : Fin 8)
  | host (n : Fin 16)
  deriving DecidableEq, Repr

/-- The reset sources that assert for a fixed time or a state of a pin (Table 15.3), and the lane resets of R423. -/
inductive ResetSrc where
  | por
  | resetPin
  | vio
  | perst
  | hostWarm
  | planeData
  | planeControl
  | planeMgmt
  | watchdog
  | lockstep
  | escalation
  | trip
  | cadence
  | brownOut
  | testPort
  | fwReq
  | lineReset (n : Fin 8)
  | hostReset (n : Fin 16)
  deriving DecidableEq, Repr

/-- A command descriptor after its OPCODE and PHASE (Table 9.9): the opcode is the constructor of `Instr` that carries it. -/
structure Desc where
  /-- the command ring it was posted on -/
  ring : Fin 16
  /-- its sequence number (R284) -/
  seq : Word
  /-- FLAGS: [0] PHASE, [1] TIMED, [2] FENCE, [3] QUIET, [7:4] 0 -/
  flags : Byte
  /-- TARGET, a code of Table 8.8 -/
  target : BitVec 16
  tag : Word
  /-- TIME, bytes 8–15 -/
  time : BitVec 64
  /-- PARAM, bytes 16–59: 44 bytes; a byte that the list does not hold reads 0 -/
  param : List Byte
  deriving DecidableEq, Repr

/-- The eight strap pins as levels (R486): MODE[2:0], CADROLE[1:0], ATTACH, ADDR[1:0]. -/
structure Pins where
  mode : BitVec 3
  cadRole : BitVec 2
  attach : Bool
  addr : BitVec 2
  deriving DecidableEq, Repr

/-- The values of one calibration set as a session measured them: offset in 1/16 LSB, gain in 0.01 %, timing in fs. -/
structure CalVals where
  offset : Int
  gain : Int
  timing : Int
  deriving DecidableEq, Repr

/-- What a reed session measured (R315, R327, R328): its result, and for a self-check the three checks. -/
structure SessionResult where
  vals : CalVals
  bandgapOk : Bool
  secondOk : Bool
  timingOk : Bool
  deriving DecidableEq, Repr

/-- What a spare swap's parallel run measured over its 256 pairs (R79, R154): the sum of the magnitudes of the differences
and the largest of them, in units of 1/16 LSB. -/
structure ParallelRun where
  sumAbs : Nat
  maxAbs : Nat
  deriving DecidableEq, Repr

/-- One on-die sensor as a housekeeping round read it: the temperature in 2⁻¹⁶ °C and whether its bias check passed (R371). -/
structure SensorReading where
  temp : Int
  biasOk : Bool
  deriving DecidableEq, Repr

/-- A patch or key image as the verification of R454 and R456 finds it: whether each signature
verifies, and its SHA-256 digest. -/
structure ImageCheck where
  vendorOk : Bool
  ownerOk : Bool
  digest : List Byte
  deriving DecidableEq, Repr

/-- What a memory word's SECDED check found (R409). -/
inductive EccOutcome where
  | single
  | double
  /-- the words are good, but the check of the record that they hold does not match (R414) -/
  | check
  deriving DecidableEq, Repr

/-- How a check-engine scan ended (R407, R408): all bytes read, or an early end. -/
inductive ScanEnd where
  | complete (bytes : List Byte)
  | hostReadFailed (done : Nat) (status : Nat)
  | uncorrectable (done : Nat) (addr : Nat)
  deriving DecidableEq, Repr

/-- A symbol as the detector hands it to the inner decoder (R115, R117): the hard decision, and the internal log-likelihoods of b1
and b0 in 1/8 nat. -/
structure SoftSym where
  sym : Fin 4
  l1 : Int
  l0 : Int
  deriving DecidableEq, Repr

/-- A command of the block: one constructor per row of spec/opcode_table.json. Operands that are not plain: `loopUpdate … xs
cdr` and `hostLoopUpdate`: the calibrated ADC samples of the block in order of arrival, and for each code of CDR_BW what a loop
of that bandwidth answers: the rotator steps and the frequency integrator after the block; `qualityWindowEnd … skews`: the
magnitudes of the monitor's slice skew estimates in fs; `selfTestGroupDone … first`: the first calibration results, per
converter slice by slice; `frameHeaderReceived … hdr skewHalfNs`: the 200 header bits, bit i of R179 at bit 199 − i, and the
lane's skew in units of 0.5 ns; `innerCodeword … rest`: the symbols of the codeword in order, which stand for those that the
detector has not handed over before; `outerCodeword … cw fix`: the 544 symbols received and the corrections that the outer
decoder finds, none where it fails; `beatInEdge`: sub-ticks of 0.8 ns since the chanter's last beat instant, while acquiring
since the last edge; `probeEcho … roundTrip`: units of 0.1 ns; `spreadCorrection`: sub-ticks; `taps` of a housekeeping round:
the twelve taps in µV. -/
inductive Instr where
  -- register accesses
  | registerWrite (path : Path) (off size : Nat) (v : Word)
  | lowerWordRead (path : Path) (off : Nat)
  | setupLock (path : Path) (v : Word)
  | ringEnable (path : Path) (r : RingId) (v : Word)
  | ringDisable (path : Path) (r : RingId) (v : Word)
  | lineCoefCapture (n : Fin 8)
  | hostCoefCapture (n : Fin 16)
  | bufRdataRead (path : Path) (k : Fin 2)
  -- doorbells and the descriptor fetch
  | cmdDb (k : Fin 16) (v : Word)
  | cplDb (k : Fin 16) (v : Word)
  | evtDb (k : Fin 4) (v : Word)
  | tlmCons (k : Fin 8) (v : Word)
  | tlmAck (k : Fin 8) (v : Word)
  | descriptorFetch (k : Fin 16) (bytes : List Byte)
  -- the opcodes of Table 9.13
  | nop (d : Desc)
  | queryCmd (d : Desc)
  | telemRefetch (d : Desc)
  | bankWrite (d : Desc)
  | bankCopy (d : Desc)
  | bankRead (d : Desc)
  | coefLoad (d : Desc)
  | bankSwap (d : Desc)
  | setMode (d : Desc)
  | schedInstall (d : Desc)
  | schedFree (d : Desc)
  | domSchedule (d : Desc)
  | domCancel (d : Desc)
  | enumerate (d : Desc)
  | laneAcquire (d : Desc)
  | trainStart (d : Desc)
  | latMeasure (d : Desc)
  | hostMsg (d : Desc)
  | ocpXfer (d : Desc)
  | power (d : Desc)
  | reset (d : Desc)
  | freeze (d : Desc)
  | counterClear (d : Desc)
  | counterSelect (d : Desc)
  | capture (d : Desc)
  | eventMask (d : Desc)
  | eventLogRead (d : Desc)
  | monConfig (d : Desc)
  | monSync (d : Desc)
  | monThreshold (d : Desc)
  | thermConfig (d : Desc)
  | shedOrder (d : Desc)
  | calConfig (d : Desc)
  | calRequest (d : Desc)
  | checkRun (d : Desc)
  | selftest (d : Desc)
  | patchStage (d : Desc) (img : ImageCheck)
  | patchActivate (d : Desc)
  | attest (d : Desc)
  | ownerKey (d : Desc) (sigOk : Bool)
  -- records, vectors and the attachment
  | completionRecordWrite (c : Fin 16)
  | eventRecordWrite (e : Fin 4)
  | telemetryRecordWrite (t : Fin 8)
  | vectorSignal (r : RingId)
  | ringAccessError (r : RingId) (status : Nat)
  | twoWireWrite (addr : Nat) (data : List Byte)
  | twoWireRead (addr len : Nat)
  | pcieLinkLoss
  -- reset, power and sleep
  | resetNAssert (lowNs : Nat)
  | resetNRelease
  | resetNLongHold
  | wakeTimer
  | perstNAssert (lowNs : Nat)
  | perstNRelease
  | por
  | porRelease
  | brownOut
  | brownOutRelease
  | vinLow (vin10mV : Nat)
  | vioLoss
  | vioReturn
  | resetSourceRelease (src : ResetSrc)
  | trimLoadAttempt (crcOk : Bool) (pins : Pins)
  | pllLock
  | selfTestGroupDone (sig : BitVec 64) (failed : List (ConvId × Nat)) (first : List (ConvId × CalVals))
  | firmwareBootDone (patchOk : Bool)
  | domainTransitionDone
  | domainFailed
  | watchdogExpiry
  | lockstepMismatch
  | shadowCompare (upset : Option (Nat × BitVec 32))
  | testPortReset
  | scanEnable
  | testPortAccess (ir : Nat)
  -- clocks
  | refclkLost
  | refclkRestored
  | housekeepingOscillatorLoss
  -- line receive
  | signalLoss (n : Fin 8)
  | light (n : Fin 8)
  | gainDone (n : Fin 8)
  | timingDone (n : Fin 8)
  | acquisitionRetry (n : Fin 8)
  | relockFallback (n : Fin 8)
  | lockLost (n : Fin 8)
  | portSquelched (n : Fin 8)
  | portResume (p : Fin 8)
  | outageEnd (n : Fin 8)
  | vgaLoopStep (n : Fin 8) (rms : Nat)
  | loopUpdate (n : Fin 8) (xs : List Int) (cdr : List (Int × Int))
  | qualityWindowEnd (n : Fin 8) (skews : List Nat)
  | blindTimeout (n : Fin 8)
  | trackingEntry (n : Fin 8)
  | coefficientSaturated (n : Fin 8) (loop : Fin 4)
  | floatingGroupSweepBlock (n : Fin 8)
  | storedBankSave (n : Fin 8)
  | sliceFailed (lane : LaneId) (slice : Nat)
  | dacSegmentFailed (n : Fin 8) (seg : Nat)
  | tiaLimitHold (n : Fin 8)
  | ocpTransactionDone (miso : List Byte)
  | vgaTiaStep (n : Fin 8)
  -- the reed and the spare swaps
  | reedSessionStart
  | reedSessionDone (r : SessionResult)
  | swapParallelRunDone (c : ConvId) (run : ParallelRun)
  | segmentDone (r : SessionResult)
  | reedIdle
  | calRequestTimeout (t : Fin 49)
  | scrubBlockDone (ecc : Option EccOutcome) (addr : Nat)
  | scrubOverdue
  -- line transmit and training
  | txDisableRelease (n : Fin 8)
  | dacIdle (n : Fin 8)
  | transmitClipping (n : Fin 8)
  | skewStep (n : Fin 8)
  | request (n : Fin 8) (m : BitVec 64)
  | trainingApply (n : Fin 8)
  | response (n : Fin 8) (m : BitVec 64)
  | done (n : Fin 8) (m : BitVec 64)
  | requestRetransmit (n : Fin 8)
  | trainingSilent (n : Fin 8)
  | trainingProbe (n : Fin 8)
  -- frames, side channel and codes
  | frameStart (n : Fin 8)
  | frameHeaderReceived (n : Fin 8) (hdr : BitVec 200) (skewHalfNs : Nat)
  | idleStatus (n : Fin 8) (m : BitVec 64)
  | echo (n : Fin 8) (m : BitVec 64)
  | echoDrop (n : Fin 8)
  | latMeasureDone (p : Fin 8)
  | hostFragment (n : Fin 8) (m : BitVec 64)
  | hostAcknowledgement (n : Fin 8) (m : BitVec 64)
  | hostMsgRetransmit (n : Fin 8)
  | hostMsgAbandon (n : Fin 8)
  | innerCodeword (n : Fin 8) (rest : List SoftSym)
  | innerUncorrectable (n : Fin 8)
  | outerCodeword (p : Fin 8) (g : Fin 2) (cw : List (BitVec 10)) (fix : Option (List (Fin 544 × BitVec 10)))
  | outerUncorrectable (p : Fin 8)
  | serWindowEnd (p : Fin 8)
  -- host lanes
  | hostSignalLoss (n : Fin 16)
  | hostSignal (n : Fin 16)
  | hostTimingDone (n : Fin 16)
  | ctleTrialDone (n : Fin 16)
  | hostQualityWindowEnd (n : Fin 16)
  | hostLockLost (n : Fin 16)
  | hostAcquisitionRetry (n : Fin 16)
  | dcgLoopStep (n : Fin 16) (rms : Nat)
  | hostLoopUpdate (n : Fin 16) (xs : List Int) (cdr : List (Int × Int))
  | prbsCheckerLock (n : Fin 16)
  | prbsCheckerLockLoss (n : Fin 16)
  | loopbackSlip (n : Fin 16)
  -- cadence; of a message of a tree link (R248) `msg` is the payload and `crc` the CRC-16 that came with it; `viol` counts the code
  -- violations since the last keep-alive (R247)
  | beatInEdge (subTicks : Nat)
  | chanterOwnMark
  | variableBeatHoldover
  | freeBeat
  | acquiringTimeout
  | mark (t : Tree)
  | beat (t : Tree) (msg : List Byte) (crc : BitVec 16)
  | markMissing (t : Tree)
  | spreadCorrection (subTicks : Int)
  | probeInterval (k : Fin 10)
  | probe (t : Tree)
  | probeEcho (k : Fin 10) (roundTrip : Nat)
  | probeTurn (k : Fin 10) (msg : List Byte) (crc : BitVec 16)
  | linkDelay (t : Tree) (msg : List Byte) (crc : BitVec 16)
  | keepAlive (k : Fin 10) (data : Byte) (viol : Fin 101)
  | keepAliveMissing (k : Fin 10)
  | commaAlignment (k : Fin 10)
  | abort (k : Fin 10)
  | enumerationStart
  | enumOrder (t : Tree) (msg : List Byte) (crc : BitVec 16)
  | enumReport (k : Fin 10) (msg : List Byte) (crc : BitVec 16)
  | enumReportTimeout (t : Tree)
  | enumAssign (t : Tree) (msg : List Byte) (crc : BitVec 16)
  | joinReq (k : Fin 10) (msg : List Byte) (crc : BitVec 16)
  | joinGrant (t : Tree) (msg : List Byte) (crc : BitVec 16)
  | domEntry (t : Tree) (msg : List Byte) (crc : BitVec 16)
  | domCancelMessage (t : Tree) (msg : List Byte) (crc : BitVec 16)
  | summary (k : Fin 10) (msg : List Byte) (crc : BitVec 16)
  | extraSummary
  -- the scheduler
  | windowOpen (slot : Fin 256)
  | windowClose (slot : Fin 256)
  | pointAction (slot : Fin 256)
  | deferralDropped (slot : Fin 256)
  -- monitor converters and thermal policy
  | monitorOutput (k : Fin 2) (value : Int) (ovr : Bool)
  | recTimeExpiry (k : Fin 2)
  | scanPassStart (k : Fin 2)
  | scanConversionDone (k : Fin 2) (value : Int) (ovr : Bool)
  | comparatorCrossing (xs : List (Fin 32 × Bool))
  | housekeepingRound
  | housekeepingRoundEnd (readings : List SensorReading) (taps : List Int)
  | graceExpiry
  | shedDwellExpiry
  | muteHoldExpiry
  | liftGapExpiry
  | tripEvaluation (readings : List SensorReading)
  -- captures, checks and tests
  | captureDone (samples : List Int)
  | eyeScanDone (lane : LaneId) (bins : List Nat)
  | checkScanDone (ch : Fin 4) (r : ScanEnd)
  | onDemandTestDone (sig : BitVec 64)
  | alignmentMarkerLock (p : Fin 8) (g : Fin 2)
  | codewordLock (n : Fin 8)
  | codewordLockLost (n : Fin 8)
  | headerCheckErrors (n : Fin 8)
  | hardwareScrub (mem : Nat) (addr : Nat) (ecc : Option EccOutcome)
  | calibrationStoreRefresh (ecc : Option EccOutcome) (addr : Nat)
  | pcieConfigWrite (busMaster memSpace d3hot : Bool) (ctl : PcieCtl) (aerClear : BitVec 32)
  | pcieLinkUp (form : LinkForm)
  | latencyBufferResetDone (p : Fin 8)
  | linkAlignmentLost (k : Fin 10)
  | housekeepingOscillatorRestored
  | controlPlaneLeavesReset
  deriving DecidableEq, Repr

end Sys2Proof
end

