-- ==== Sys2Proof/Config.lean ====
section
/-! DEFINITION. What the part's OTP and silicon fix (constants without a value), and the free values: what the spec leaves
open. Nothing can be proved of a value of these, so a statement holds whatever they are. -/

namespace Sys2Proof.Config

/-- A value that the spec leaves open, numbered by the draw that asks for it (`State.free` counts the draws). -/
opaque freeValue : Nat → Nat

/-- The compensation sets in OTP (R381): of the line PLL, the host PLL, the housekeeping oscillator and the bandgap (kinds 0 to 3) a
temperature, 2⁻¹⁶ °C, and a trim, ppm, at 8 temperatures; the range of each trim; the coarse band that a PLL takes at a temperature, and the
trim for which a band stands. -/
opaque trimSet : Nat → Nat → Int × Int
opaque trimRange : Nat → Int × Int
opaque pllBand : Nat → Int → Nat
opaque bandTrim : Nat → Nat → Int

/-- How far a scan of host memory, by its place in the order of acceptance, has come at a tick (R406, log entry 79). -/
opaque hostScanned : Nat → Nat → Nat

/-- σ² of R115 before a quality window has measured an MSE above 0. -/
opaque openSigma2 : Rat

/-- The bin of an eye histogram into which a value of z falls at a level, and the value, in units of 0.25 detector unit, that stands
for a bin (R132: 256 bins per level, their edges open). -/
opaque eyeBin : Nat → Rat → Nat
opaque eyeValue : Nat → Nat → Int

/-- Whether the PMD that a mode-4 CODE selects specifies precoding on the line (R60, R117). -/
opaque pmdPrecoding : Nat → Bool

/-- The inner code that IEEE 802.3 specifies for its 200 Gb/s-per-lane PMDs (Table 2.4), which the spec names without defining:
its encoder, and its decoder's outcome for the log-likelihoods of a codeword: whether it was correctable, the codeword, and its
data. -/
opaque ieeeEncode : List Bool → List Bool
opaque ieeeDecode : List (BitVec 6) → Bool × List Bool × List Bool

/-- How the PCS of a clause deals the symbols of an outer codeword to the host positions of its group (R201, Table 6.5): the bits
of each position, for the number of positions and the codeword. -/
opaque pcsDeal : Nat → List (BitVec 10) → List (List Bool)

/-- SSPRQ as IEEE 802.3 defines it: its symbols from the seed on (R228). -/
opaque ssprq : Nat → Fin 4

/-- The grade bit of GLB.REV, from OTP (R4, Table 18.6). -/
opaque extendedGrade : Bool

/-- GLB.SUBSYS, subsystem identity from OTP (Table 18.7). -/
opaque subsys : Word

/-- GLB.UID, the serial number from OTP (R484). -/
opaque uid : BitVec 64

/-- GLB.BOARD.PCIE_CLK, from the OTP board configuration (R488). -/
opaque sris : Bool

/-- MAJOR and MINOR of GLB.FW_VER for the ROM firmware (R485). -/
opaque romVersion : BitVec 16

/-- Whether the OTP patch region holds a patch that firmware verifies at boot (R46, R454), and how many KiB it fills at
manufacture. -/
opaque otpPatchKib : Nat

/-- The SHA-256 digest of that patch: 32 bytes. -/
opaque otpPatchDigest : List Byte

/-- The expected signature of power-up group g in OTP (R448). -/
opaque groupSignature : Nat → BitVec 64

/-- The expected signature of an on-demand test of a target code with the kinds selected, in OTP (R452). -/
opaque blockSignature : BitVec 16 → Nat → BitVec 64

/-- SHA-256 of the firmware ROM, and of the OTP board configuration and trim images (Table 16.4): 32 bytes each. -/
opaque romHash : List Byte
opaque otpHash : List Byte

/-- The public key of the identity key: X, then Y, 32 bytes each (Table 16.4). -/
opaque identityPublicKey : List Byte

/-- The ECDSA P-256 signature by the identity key over the bytes given (R457): 64 bytes. -/
opaque identitySign : List Byte → List Byte

/-- The owner key slots programmed in OTP at manufacture: each a 32-byte hash, oldest first (Table 16.3). -/
opaque otpOwnerSlots : List (List Byte)

end Sys2Proof.Config
end

