-- ==== Sys2Proof/Machine/StateLane.lean ====
section
/-! DEFINITION. State of the data plane: converters, line lanes, host lanes and ports, as plain data. -/

namespace Sys2Proof.Machine

/-- The role of a physical slice or segment (R76): a logical phase, spare, or failed. -/
inductive SliceRole where
  | phase (l : Nat)
  | spare
  | failed
  deriving DecidableEq, Repr

/-- One calibration set (R324), tagged with the region temperature (2⁻¹⁶ °C) at which it was taken and with its age order. -/
structure CalSet where
  temp : Int
  vals : CalVals
  seq : Nat
  deriving DecidableEq, Repr

/-- The calibration of one slice or segment (R319, R324): its sets, the temperature of its last session, and the values
last applied. -/
structure SliceCal where
  sets : List CalSet
  tCal : Int
  applied : CalVals
  deriving DecidableEq, Repr

/-- A spare swap that has reached its settling step (R78 step 2): it runs to its end (R81). Failures declared meanwhile are
acted on at its end (R85). -/
structure SwapRun where
  phase : Nat
  out : Nat
  spare : Nat
  failures : List Nat
  deriving DecidableEq, Repr

/-- A converter with a rotating spare (R76, R152, R211). -/
structure Converter where
  roles : List SliceRole
  cal : List SliceCal
  /-- completed swaps, saturating at 4,095 -/
  swapCnt : Nat
  /-- consecutive aborted swaps with the present spare -/
  abortCnt : Nat
  /-- a swap in its steps 2 to 4 -/
  run : Option SwapRun
  /-- copies of the stored map that are invalid while the domain is off (R414), and sessions owed to a map that was lost -/
  mapBad : Nat := 0
  owed : Nat := 0
  deriving DecidableEq, Repr

/-- LINE_n.ACQ_STS.STATE (Table 3.4). -/
inductive AcqState where
  | off
  | dark
  | gain
  | timing
  | train
  | frame
  | up
  | relock
  deriving DecidableEq, Repr

/-- Line receive front end (chapter 3). -/
structure LineRx where
  st : AcqState
  coldCnt : Nat
  relockCnt : Nat
  fallback : Bool
  sigDet : Bool
  inFrame : Bool
  /-- consecutive matching and non-matching headers (R98) -/
  goodHdr : Nat
  badHdr : Nat
  rms : Nat
  vga : Nat
  tiaCode : Nat
  /-- GAIN: the TIA code is still to be picked from the first level measured (R91) -/
  tiaPick : Bool
  /-- no further TIA writes until the next bank swap of the lane (R92) -/
  tiaStopped : Bool
  /-- a TIA code change waits for its maintenance window: the new code (R91) -/
  tiaWanted : Option Nat
  /-- the VGA step, in codes, that follows the TIA write in flight (R91) -/
  vgaStepDue : Option Int
  /-- learned frequency offset, 0.125 ppm -/
  freq : Int
  /-- the integrator stands at ±3,500 ppm (R96) -/
  freqAtLimit : Bool
  cdrLock : Bool
  rot : Nat
  /-- the skew estimates of the slices held, in fs (R84, R87), and the quality windows since they were refreshed -/
  skews : List Nat
  skewWins : Nat
  adc : Converter
  /-- reference-tick instant of the entry into DARK, and whether REFCLK loss caused it (R39, R101) -/
  darkSince : Nat
  darkByRefclk : Bool
  /-- instant from which the UP-reached time counts, and whether a relock began it (R105) -/
  acqStart : Nat
  /-- the lane's outage runs (R103), ticks spent outside UP before the present spell, start of the present spell outside UP -/
  outage : Bool
  outTicks : Nat
  outSince : Nat
  /-- the outage has passed its 2 ms point -/
  past2ms : Bool
  /-- this lane holds its port squelched (ACQ_STS.SQUELCH) -/
  squelch : Bool
  /-- present receive pipeline delay beyond the mode's nominal, units of 10 ps (R64, R65) -/
  rxDelay : Nat
  /-- present transmit delay beyond the mode's nominal, units of 10 ps -/
  txDelay : Nat
  /-- the lane is under an on-demand test (R451) -/
  inTest : Bool
  deriving DecidableEq, Repr

/-- The adapted values of a line lane's equaliser, compensator and detector (R110, R114, R115). The loops accumulate exactly,
as R119 gives the update p ← p − μ·G; what acts on the samples is the value in the coefficient's own units
(`EqCoefs.applied`). -/
structure EqCoefs where
  main : List Rat
  fg : List Rat
  nl : List Rat
  h1 : Rat
  h2 : Rat
  lvl1 : Rat
  lvl2 : Rat
  ofs : Rat
  /-- positions of the four floating groups; none: not in use -/
  pos : List (Option Int)
  deriving DecidableEq, Repr

/-- The stored coefficient bank (R127). -/
structure StoredBank where
  coefs : EqCoefs
  vga : Nat
  tia : Nat
  freq : Int
  deriving DecidableEq, Repr

/-- The floating-group sweep (R113): blocks done, and their correlations in sweep order; the 64 correlators of the block under way, and
the correlation at the main cursor over it. -/
structure FgSweep where
  blocks : Nat
  corr : List Rat
  cur : List Rat
  main : Rat
  deriving DecidableEq, Repr

/-- One detector input that waits for its decision: y[k], the share of the main-span taps that the mute overlay would zero, and
the compensator's output (R107, R140). -/
structure DetIn where
  y : Rat
  cut : Rat
  nl : Rat
  deriving DecidableEq, Repr

/-- The trellis of the sequence detector (R115): the inputs without a final decision, oldest first; the path metrics before the
oldest of them, of the states (a[k−1], a[k−2]) in order; the last two tentative and the last two final decisions, newest
first. -/
structure Trellis where
  ins : List DetIn
  metric : List Rat
  tent : List (Fin 4)
  fin : List (Fin 4)
  deriving DecidableEq, Repr

/-- What a quality window has gathered (R130 to R133, R140): symbols with final decisions and their squared errors, the same with
tentative decisions, the sum over bits of 1 / (1 + e^|Λ|) in units of 2⁻⁹⁶, for the three outputs of R140 their sums and sums of
squares, and the eye histogram of each level. -/
structure QualAcc where
  n : Nat
  sse : Rat
  tn : Nat
  tsse : Rat
  bits : Nat
  d : List (Rat × Rat)
  hist : List (List Nat)
  deriving DecidableEq, Repr

/-- Line equaliser and detector (chapter 4). -/
structure LineEq where
  /-- adaptation phase of Table 4.2 -/
  phase : Nat
  /-- phase 2 in TRAIN began with the restart of a loop: it lasts 200 µs (Table 4.2) -/
  again : Bool
  /-- the last ADC samples, newest first -/
  xs : List Int
  trellis : Trellis
  acc : QualAcc
  conv : Bool
  sat : Bool
  muted : Bool
  /-- coefficients and h2 held under the overlay (R138): main span, compensator, h2 -/
  heldMain : List Rat
  heldNl : List Rat
  heldH2 : Rat
  live : EqCoefs
  stored : Option StoredBank
  /-- voided loop parts of the stored bank (R128): main, groups, compensator, target -/
  voided : List Bool
  bankAge : Nat
  sweep : Option FgSweep
  /-- placement complete, or stopped part-way (R121) -/
  placed : Bool
  cap : EqCoefs
  capValid : Bool
  /-- the tick at which coefficients changed last, and those applied before that tick, as a capture latches them (R129) -/
  prior : Option (Nat × EqCoefs)
  snr : Int
  eye : Int
  preFec : Nat
  corr : Nat
  margin : Int
  mutePen : Nat
  /-- P_s / MSE of the last windows, newest first (R121) -/
  snrHist : List Rat
  /-- windows in a row below MARGIN_LOW, and at least 0.5 dB above it; the event waits for a rise (R137) -/
  lowRun : Nat
  highRun : Nat
  lowRaised : Bool
  /-- MSE of the last window: σ² of R115; none: no window has measured one -/
  mse : Option Rat
  /-- bits corrected and coded bits decoded in the present CORR interval (R134) -/
  corrBits : Nat
  codedBits : Nat
  deriving DecidableEq, Repr

/-- The transmitter's state (R156). -/
inductive TxState where
  | off
  | idle
  | run
  deriving DecidableEq, Repr

/-- A transmit live set or last-good bank: the 15 taps and the 64 table entries (R163). -/
structure TxSet where
  fir : List Int
  nl : List Int
  deriving DecidableEq, Repr

/-- A ring command with its opcode, as the command engine holds it (R292). -/
structure Cmd where
  op : Nat
  d : Desc
  /-- how many control-plane resets went before its acceptance: its records go with a later one (R20) -/
  era : Nat
  /-- PATCH_STAGE and OWNER_KEY: what the verification of the image or of the request finds -/
  img : ImageCheck
  /-- a timed command that the arbiter deferred: the cadence time at which it finally acted (R308) -/
  acted : Option CTime := none
  deriving DecidableEq, Repr

/-- Where the requester's procedure of R167 stands. -/
inductive TrnStep where
  /-- a REQUEST has been sent; its answer is awaited -/
  | asked
  /-- an applied step waits for its frame and two whole windows: frame seen, windows left -/
  | judging (fc : BitVec 16) (seen : Bool) (windows : Nat) (sum : Int)
  /-- an undo has been sent -/
  | undoing
  /-- two windows of the base margin are being taken -/
  | base (windows : Nat) (sum : Int)
  /-- the windows of the present context of the nonlinear stage, the one under way at its start and 16 whole ones: windows left, sum
  and number of the errors of its symbols, and the error of the last symbol decided -/
  | context (windows : Nat) (sum : Rat) (cnt : Nat) (last : Option Rat)
  deriving DecidableEq, Repr

/-- The requester of R167: the position in its loops, the step it waits in, and the figures it compares. -/
structure Requester where
  /-- index into [−1, +1, −2, +2, …, −7, +7] -/
  offIdx : Nat
  /-- the direction tried: false increase, true decrease -/
  decrease : Bool
  improved : Bool
  base : Int
  applied : Nat
  step : TrnStep
  /-- the table entry of the nonlinear stage -/
  ctx : Nat
  /-- the REQUEST outstanding -/
  msg : BitVec 64
  /-- an answer of BUSY: the request goes again after 64 frames -/
  busy : Bool
  deriving DecidableEq, Repr

/-- Line transmit and training (chapter 5). -/
structure LineTx where
  st : TxState
  txDis : Bool
  /-- the set with which the DAC shapes its last frames after the registers of the live set were cleared (R158) -/
  drain : Option TxSet
  /-- the DAC sends frames (R158), also for 10 µs after the transmitter has left RUN -/
  dacOn : Bool
  /-- clipped symbols of the present 1 ms interval (R148) -/
  clips : Nat
  /-- the PRBS31 of the two positions that the lane carries (R185); none: its phase has not been asked for -/
  fill : List (Option Nat)
  /-- the tick at which the last frame or, in mode 4, frame interval began -/
  sentAt : Option Nat
  /-- precoder state of the PMD in mode 4 (R60) -/
  pre : Fin 4
  /-- the start sequence waits for the driver write -/
  waitDriver : Bool
  live : TxSet
  lastGood : Option TxSet
  dac : Converter
  /-- present output delay in quarter-UI steps (R150) -/
  skew : Nat
  /-- TX_STS.TRN_STATE -/
  trnState : Nat
  reqCnt : Nat
  retryCnt : Nat
  mismatch : Bool
  /-- the mismatch event was raised in this exchange (R160) -/
  mismatchRaised : Bool
  trnSeq : Byte
  proc : Option Requester
  marginAtStart : Int
  /-- an exchange was abandoned by DARK and restarts at UP (R169) -/
  restartAtUp : Bool
  /-- responder: last RESPONSE sent and its SEQ (R164) -/
  lastAnswer : Option (Byte × BitVec 64)
  /-- responder: an accepted REQUEST and the frame count of its application -/
  accepted : Option (BitVec 64 × BitVec 16)
  /-- the next RESPONSE carries status RESET (R166) -/
  answerReset : Bool
  /-- TRAIN_START commands that wait for the exchange to begin -/
  trainCmds : List Cmd
  /-- the last 28 symbols sent, newest last: level numbers; none before the DAC sent any -/
  tail : List (Option (Fin 4))
  deriving DecidableEq, Repr

/-- A host-to-host message in flight (R198). -/
structure HmSend where
  cmd : Cmd
  msg : Nat
  data : List Byte
  /-- index of the next fragment to send; past the last: awaiting the acknowledgement -/
  next : Nat
  /-- transmissions begun -/
  tries : Nat
  deriving DecidableEq, Repr

/-- A message partly reassembled (R198). -/
structure HmPart where
  msg : Nat
  next : Nat
  data : List Byte
  deriving DecidableEq, Repr

/-- A received message in the lane's buffer (R198, R199). -/
structure HmRecv where
  msg : Nat
  data : List Byte
  time : CTime
  deriving DecidableEq, Repr

/-- Line frame, side channel and inner code (chapter 6). -/
structure LineFrame where
  txFc : BitVec 16
  /-- codewords received since the last header (R182) -/
  rxCw : Nat
  /-- symbols that the detector has handed over and the inner decoder has not taken, oldest first (R107) -/
  soft : List SoftSym
  rxFc : BitVec 16
  rxId : Word
  idValid : Bool
  idMismatch : Bool
  skew : Nat
  farMargin : BitVec 16
  farState : Nat
  farMuted : Bool
  farSquelch : Bool
  /-- units of 1,024 frames since the last IDLE, and frames within the unit -/
  farAge : Nat
  farFrames : Nat
  hchkErr : Nat
  scErr : Nat
  /-- failures in the present 1 ms interval (R205) -/
  hchkInt : Nat
  scInt : Nat
  innerUnc : BitVec 64
  innerInt : Nat
  /-- side-channel messages waiting, in order of queueing (R193) -/
  out : List (BitVec 64)
  /-- the last frame carried a HOST fragment (R193: at most every second frame) -/
  lastWasFrag : Bool
  /-- departure stamps of the last 512 marked frames (R194) -/
  departs : List (BitVec 16 × CTime)
  /-- echoes returned to the present measurement: one-way values in ps (R69) -/
  echoes : List Int
  echoHold : Bool
  echoForeign : Bool
  send : Option HmSend
  waiting : List (Cmd × List Byte)
  nextMsg : Nat
  part : Option HmPart
  lastMsg : Option Nat
  recv : List HmRecv
  deriving DecidableEq, Repr

/-- The active or shadow bank of a line lane: its bank registers (R106, R143, R176) and its initial tables (R125), with the
register offsets whose word in the bank store is uncorrectable (R412). -/
structure LineBank where
  rxfe : Word
  tia : Word
  eqCtl : Word
  eqMu : Word
  fgPos0 : Word
  fgPos1 : Word
  qual : Word
  txCfg : Word
  trnCfg : Word
  drv : Word
  fir : List Word
  nlpd : List Word
  initMain : List (BitVec 16)
  initFg : List (BitVec 16)
  initNl : List (BitVec 16)
  initTgt : List (BitVec 16)
  bad : List Nat
  deriving DecidableEq, Repr

/-- A line lane. -/
structure Line where
  act : LineBank
  shd : LineBank
  rx : LineRx
  eq : LineEq
  tx : LineTx
  fr : LineFrame
  deriving DecidableEq, Repr

/-- HOST_n.RX_STS.STATE (Table 7.1). -/
inductive HostState where
  | off
  | idle
  | timing
  | ctle
  | adapt
  | up
  | resume
  deriving DecidableEq, Repr

/-- The active or shadow bank of a host lane (R234). -/
structure HostBank where
  rxCfg : Word
  eqCfg : Word
  txCfg : Word
  firLo : Word
  firHi : Word
  test : Word
  bad : List Nat
  deriving DecidableEq, Repr

/-- The coefficients of a host lane's FFE and DFE (R213); they accumulate exactly, and act in their own units. -/
structure HostCoefs where
  ffe : List Rat
  d1 : Rat
  deriving DecidableEq, Repr

/-- Held coefficients (R221). -/
structure HostHeld where
  peak : Nat
  dcg : Nat
  coefs : HostCoefs
  freq : Int
  deriving DecidableEq, Repr

/-- The peaking search of R209: codes still to try in this stage, whether the stage is the fine one, (code, MSE) of the trials
run, and the symbols that the present trial has taken. -/
structure CtleSearch where
  todo : List Nat
  fine : Bool
  tried : List (Nat × Rat)
  syms : Nat
  deriving DecidableEq, Repr

/-- What a host quality window or a trial has gathered (R209, R215): symbols, their squared errors, the eye histogram of each
level. -/
structure HostAcc where
  n : Nat
  sse : Rat
  hist : List (List Nat)
  deriving DecidableEq, Repr

/-- The PRBS checker (R229): the last bits of the sequence that it predicts from, newest first, which are those received until it
locks and its own from then on; consecutive symbols that matched; which of the last 4,096 symbols were in error, newest first. -/
structure Checker where
  ref : List Bool
  run : Nat
  errs : List Bool
  deriving DecidableEq, Repr

/-- The symbols of a host lane on their way (R51, R208, R226 to R231): the ADC samples its FFE reaches, newest first; the last
decision; the precoder states of both directions; decided symbols that wait for the line, symbols that the line has delivered for the
far-end loopback, and decisions on their way through the near-end loopback, oldest first; the last five symbols that entered the
transmit FIR, oldest first, none before the transmitter ran; the generator: its register, newest bit first, and the symbols sent. -/
structure HostPath where
  xs : List Int
  prev : Fin 4
  preRx : Fin 4
  preTx : Fin 4
  toLine : List (Fin 4)
  far : List (Fin 4)
  near : List (Fin 4)
  tail : List (Option (Fin 4))
  gen : List Bool
  genCount : Nat
  deriving DecidableEq, Repr

/-- A host lane (chapter 7). -/
structure HostLane where
  act : HostBank
  shd : HostBank
  st : HostState
  coldCnt : Nat
  resumeCnt : Nat
  /-- PEAK_AUTO as the last cold start took it (R223) -/
  auto : Bool
  sigDet : Bool
  peak : Nat
  dcg : Nat
  freq : Int
  lock : Bool
  snr : Int
  eye : Int
  /-- 5,120 / MSE of the last windows, newest first -/
  snrHist : List Rat
  coefs : HostCoefs
  cap : HostCoefs
  capValid : Bool
  heldCoefs : Option HostHeld
  search : CtleSearch
  acc : HostAcc
  /-- rotator position, 1/64 UI (R216) -/
  rot : Nat
  path : HostPath
  chk : Checker
  adc : Converter
  idleSince : Nat
  acqStart : Nat
  acqResume : Bool
  /-- end, on the tick clock, of the 200 µs of acquire steps in UP after a PEAK change (R223) -/
  acqUntil : Nat
  slipCnt : Nat
  /-- instants of the slips of the last 1 ms, newest first (R233) -/
  slips : List Nat
  lockLoss : Nat
  chkLock : Bool
  testErr : Nat
  inTest : Bool
  deriving DecidableEq, Repr

/-- The active or shadow bank of a port (Tables 2.7, 2.8, 6.12). -/
structure PortBank where
  cfg : Word
  mapLo : Word
  mapHi : Word
  fec : Word
  bad : List Nat
  deriving DecidableEq, Repr

/-- A latency measurement that runs (R69, R70). -/
structure LatRun where
  cmd : Cmd
  n : Nat
  /-- this end has been in holdover or on the free beat during it (R71) -/
  hold : Bool
  deriving DecidableEq, Repr

/-- A port (chapters 2 and 6). -/
structure Port where
  act : PortBank
  shd : PortBank
  /-- present latencies, units of 10 ps (R68) -/
  latTx : Nat
  latRx : Nat
  owlMean : Int
  owlCount : Nat
  owlForeign : Bool
  owlHold : Bool
  owlSpread : Nat
  meas : Option LatRun
  ser : Nat
  degraded : Bool
  amLock0 : Bool
  amLock1 : Bool
  fecUnc : BitVec 64
  /-- histogram bins 0 to 16: 48-bit count and sticky overflow (R202) -/
  hist : List (Nat × Bool)
  /-- symbols received in the outer codeword under way, by position, that wait for its end (R203) -/
  raw : List (List (Fin 4))
  /-- increments of the bins in the present SER window, per group (R204) -/
  winBins0 : List Nat
  winBins1 : List Nat
  /-- uncorrectable codewords of the present 1 ms interval (R203) -/
  uncInt : Nat
  /-- uncorrectable codewords in a row, per group -/
  bad0 : Nat
  bad1 : Nat
  /-- the port is squelched by deskew (R53); its lanes hold the squelch of R103 -/
  sqDeskew : Bool
  /-- by an identity mismatch (R184) -/
  sqIdentity : Bool
  /-- while its latency buffers are re-set (R67) -/
  sqBuffers : Bool
  inTest : Bool
  deriving DecidableEq, Repr

end Sys2Proof.Machine
end

