-- ==== Sys2Proof/Machine/StateCad.lean ====
section
/-! DEFINITION. State of the cadence unit: time, trees, links, enumeration, scheduler, summaries (chapter 8). -/

namespace Sys2Proof.Machine

/-- A tree time of R255 f.: what a device keeps of one tree of which it is a member. -/
structure TreeTime where
  /-- marks have arrived since the exit -/
  seen : Bool
  /-- HOLD and VAR of the last BEAT message (Table 8.4) -/
  hold : Bool
  var : Bool
  enumDone : Bool
  /-- the sender's depth -/
  parentDepth : Nat
  domain : Word
  beat : BitVec 40
  /-- sub-ticks since the tree's last beat instant -/
  elapsed : Nat
  period : Nat
  /-- the last four beat intervals, newest first (R240) -/
  intervals : List Nat
  /-- consecutive missing marks (R257) -/
  missing : Nat
  /-- a MARK has arrived and its BEAT is awaited: sub-ticks since its arrival -/
  marked : Option Nat
  /-- consecutive beats on which the tree was usable (R259) -/
  good : Nat
  deriving DecidableEq, Repr

/-- State of a cadence link (Table 8.3). -/
inductive LinkState where
  | down
  | align
  | up
  | disabled
  deriving DecidableEq, Repr

/-- A SUMMARY payload (Table 8.9). -/
structure Summary where
  beat : BitVec 40
  dev : Nat
  alt : Nat
  hold : Nat
  miss : Nat
  info : Nat
  warn : Nat
  fault : Nat
  firstValid : Bool
  firstFault : Bool
  firstIdx : Nat
  firstSrc : Nat
  firstTime : BitVec 32
  tmax : Int
  preFec : BitVec 16
  deriving DecidableEq, Repr

/-- What the device has had to report since its last SUMMARY upstream, and at a chanter since CAD.SUM_k was last refreshed (R273,
R276). -/
structure OwnCounts where
  up : Summary
  root : Summary
  deriving DecidableEq, Repr

/-- A cadence port (R247, Table 8.17). -/
structure Link where
  st : LinkState
  holdRx : Bool
  err : Nat
  /-- consecutive good keep-alives and probes done in ALIGN -/
  keep : Nat
  probes : Nat
  /-- instants, on the tick clock, of the errors of the last 1 ms, newest first (R247) -/
  viol : List Nat
  /-- downstream: a probe is out; the round trip of its echo, units of 0.1 ns, until the turnaround comes -/
  probeOut : Bool
  roundTrip : Option Nat
  /-- the last 16 one-way delays, newest first, units of 0.1 ns (R244) -/
  delays : List Nat
  /-- one-way delay in use, units of 0.1 ns -/
  delay : Nat
  /-- the child's last SUMMARY -/
  child : Option Summary
  /-- DEV of the last summary of a lost child, added to MISS (R274) -/
  lostDev : Nat
  /-- the child of this port reported in the running enumeration: its CNT[0..6] and claim map -/
  report : Option (List Nat × List Nat)
  deriving DecidableEq, Repr

/-- An enumeration as a node sees it (R251): its epoch and round, the claim, the ports whose reports are awaited, and the
counts, claims and duplicates gathered so far. -/
structure EnumRun where
  epoch : Byte
  round : Nat
  claim : Option Nat
  await : List (Fin 10)
  cnt : List Nat
  map : List Nat
  dup : List Nat
  /-- the ENUMERATE commands that wait for its end -/
  cmds : List Cmd
  /-- a join's collection (R254) on this port rather than an enumeration -/
  join : Option (Fin 10)
  /-- the assignment has been applied: a join's collection may take its place -/
  assigned : Bool
  deriving DecidableEq, Repr

/-- Who installed a slot (R269, R305). -/
inductive SlotSrc where
  | default
  | install
  | timed
  | domain
  deriving DecidableEq, Repr

/-- A point action refused by the arbiter or held for firmware (R17, R333 rule 4). -/
structure Deferral where
  /-- beats counted since the refusal -/
  beats : Nat
  /-- not yet presented: held while firmware does not run -/
  held : Bool
  /-- the tick, by its cadence time, of the refusal, the last presentation, or the holding -/
  last : CTime
  deriving DecidableEq, Repr

/-- A scheduler slot (Table 8.6) with what belongs to its present occurrence. -/
structure Slot where
  valid : Bool
  dom : Bool
  action : Nat
  classes : Byte
  target : BitVec 16
  start : BitVec 64
  duration : BitVec 32
  rep : BitVec 32
  stride : BitVec 32
  count : BitVec 16
  stagMod : BitVec 13
  tag : Word
  src : SlotSrc
  /-- the parameters that the installing command gave the action -/
  param : List Byte
  /-- the TIMED command that installed it: answered at its execution (R307) -/
  cmd : Option Cmd
  /-- number and time of the armed occurrence (R264) -/
  m : Nat
  armed : CTime
  /-- its window is open: the end of the occurrence -/
  openEnd : Option CTime
  deferral : Option Deferral
  deriving DecidableEq, Repr

/-- Cadence state. -/
structure Cad where
  /-- CADROLE as sampled -/
  role : BitVec 2
  /-- CAD.STS.STATE: 0 free beat, 1 acquiring, 2 locked, 3 inherited holdover, 4 origin holdover -/
  st : Nat
  /-- the standalone free beat has started (R237) -/
  started : Bool
  beat : BitVec 40
  /-- sub-ticks since the last beat instant -/
  elapsed : Nat
  period : Nat
  intervals : List Nat
  /-- sub-ticks for which the phase is held back (R261) -/
  holdBack : Nat
  /-- offset still to be slewed out, sub-ticks (R258, R261) -/
  slew : Int
  /-- CAD.CFG as it acts from the last beat (R278) -/
  cfg : Word
  domain : Word
  follow : Tree
  treeA : TreeTime
  treeB : TreeTime
  /-- tree-A time less tree-B time at the last beats, sub-ticks, newest first (R256) -/
  offsets : List Int
  /-- a switch of the followed tree waits for the first mark of this tree: whether it raises the event, and its cause -/
  switchTo : Option (Tree × Option Nat)
  /-- why the device is in origin holdover (Table 8.10); none: not entered or announced -/
  holdCause : Option Nat
  /-- chanter: sub-ticks from the last edge to the last beat instant (negative: the edge came after it), and the intervals of
  consecutive edges while acquiring, newest first -/
  edgeAge : Int
  edgeSeen : Bool
  acqIntervals : List Nat
  /-- the intervals between the last edges outside the window, newest first, as long as they agree (none: the last edge was
  accepted), and the ignored edges counted (R236) -/
  offEdges : Option (List Nat)
  irregular : Nat
  acqWarned : Bool
  links : Vector Link 10
  idx : Nat
  idxValid : Bool
  /-- index held from each tree -/
  idxA : Option Nat
  idxB : Option Nat
  enumDone : Bool
  /-- the chanter has begun its first enumeration (R251) -/
  enumBegun : Bool
  /-- EPOCH of the last enumeration of tree A, and of tree B -/
  epoch : Byte
  epochB : Byte
  run : Option EnumRun
  /-- second tree's enumeration as a member -/
  runB : Option EnumRun
  slots : Vector Slot 256
  skip : Nat
  late : Nat
  /-- at the chanter: the merged summary of CAD.SUM_k -/
  sum : Summary
  sumSince : Nat
  /-- own contribution since the previous SUMMARY: events per class and the first reporter -/
  own : OwnCounts
  /-- at the chanter: the merged summary that was judged last (R276) -/
  sumPrev : Summary
  extraSent : Bool
  /-- the window-skipped event was raised in this beat (R268) -/
  skipRaised : Bool
  /-- TAGs of the domain entries installed, with the tree they came from (R271) -/
  domTags : List (Word × Tree)
  /-- at a chanter: indices in use, and those reserved per parent index and port (R255) -/
  used : List Nat
  resv : List ((Nat × Nat) × List Nat)
  /-- the port through which a JOIN_REQ for this parent index went up (R254) -/
  joinVia : List (Nat × Fin 10)
  /-- downstream ports whose new subtrees wait for their collection (R252, R254) -/
  joinWait : List (Fin 10)
  deriving DecidableEq, Repr

end Sys2Proof.Machine
end

