-- ==== Sys2Proof/Machine/StateRings.lean ====
section
/-! DEFINITION. State of the control and management planes: rings, events, telemetry, counters, monitor converters, thermal
policy, calibration and arbiter, check engine, self-test and secure store, reset and power, optics control port. -/

namespace Sys2Proof.Machine

/-- What times a host transmitter's symbols: the recovered clock of a line lane, its own receiver's, or REFCLK (R55, R230). -/
inductive HostClock where
  | line (n : Fin 8)
  | own
  | refclk
  deriving DecidableEq, Repr

/-- A character of a cadence message (Table 8.2). -/
inductive LinkChar where
  | som
  | eom
  | data (b : Byte)
  deriving DecidableEq, Repr

/-- What the part puts out: memory writes, interrupts, answers, characters on links, frames, serial transactions. -/
inductive Out where
  /-- a read over a path answered this word -/
  | read (path : Path) (v : Word)
  /-- a two-wire read answered these bytes -/
  | readBytes (b : List Byte)
  /-- a memory write request to the host (R285) -/
  | hostWrite (addr : Nat) (b : List Byte)
  /-- an MSI-X message (R287) -/
  | msix (v : Nat) (addr : Nat) (data : Word)
  /-- a frame header and its side-channel message sent on a line lane (R179) -/
  | frame (n : Fin 8) (hdr : BitVec 200)
  /-- DAC codes of a line lane, in order (R146), and the differential output in mV that they stand for (R151) -/
  | dac (n : Fin 8) (codes : List Int) (mV : List Rat)
  /-- a MARK, a PROBE, a PROBE_ECHO on a cadence port (R246) -/
  | mark (k : Fin 10)
  | probe (k : Fin 10)
  | probeEcho (k : Fin 10)
  /-- a keep-alive with its HOLD bit, and a message: its characters from SOM to EOM (R246, R248) -/
  | keepAlive (k : Fin 10) (hold : Bool)
  | message (k : Fin 10) (chars : List LinkChar)
  /-- an optics control port transaction on a chip select (R173) -/
  | spi (cs : Nat) (b : List Byte)
  /-- a pulse on BEAT_OUT of this many reference ticks (R263) -/
  | beatOut (width : Nat)
  /-- the line detector's hard decisions and log-likelihoods, b1 first, go on to the inner decoder (R107, R117) -/
  | detected (n : Fin 8) (syms : List (Fin 4)) (llr : List (List Int))
  /-- the data of a decoded inner codeword go on toward the outer code; one outer codeword goes toward the host (R61) -/
  | inner (n : Fin 8) (data : BitVec 128)
  | outer (p : Fin 8) (g : Fin 2) (cw : List (BitVec 10))
  /-- the differential output of a host transmitter in mV, symbol by symbol, and the clock that times it (R55, R224, R230) -/
  | hostSymbols (h : Fin 16) (src : HostClock) (mV : List Rat)
  deriving DecidableEq, Repr

/-- Counts and condition of a ring (R284, Table 9.6). -/
structure Ring where
  /-- the host's producer count (command rings) or the device's -/
  prod : Word
  /-- the consumer count: fetched (command rings) or accepted from the host -/
  cons : Word
  /-- command rings: the last count accepted at the doorbell (R288) -/
  db : Word
  err : Bool
  chkFail : Nat
  /-- entries not yet signalled, the tick of the first of them, and that of the last entry written (R287) -/
  unsig : Nat
  first : Nat
  latest : Nat
  /-- telemetry: records given a RECORD_ID, records written, records acknowledged -/
  formed : Nat
  written : Nat
  acked : Nat
  deriving DecidableEq, Repr

/-- A completion record that waits to be written (Table 9.10). -/
structure CplRec where
  cpl : Fin 16
  ring : Fin 16
  op : Nat
  seq : Word
  tag : Word
  status : Byte
  final : Bool
  time : BitVec 64
  result : BitVec 64
  deriving DecidableEq, Repr

/-- One outcome that QUERY_CMD reads (R297). -/
structure CmdOutcome where
  ring : Fin 16
  seq : Word
  status : Byte
  final : Bool
  result : BitVec 32
  deriving DecidableEq, Repr

/-- An event latch (R29). -/
structure Latch where
  src : Nat
  count : Nat
  payload : Word
  time : CTime
  route : Nat
  deriving DecidableEq, Repr

/-- An event log entry (Table 17.3). -/
structure LogEntry where
  seq : Word
  src : Nat
  masked : Bool
  payload : Word
  time : CTime
  deriving DecidableEq, Repr

/-- Event fabric. -/
structure Evt where
  latches : List Latch
  log : List LogEntry
  logSeq : Word
  masks : BitVec 512
  routes : BitVec 1024
  /-- source, and the tick-clock instant at which its holdoff ends (R470) -/
  holdoff : List (Nat × Nat)
  /-- rate-limited source with its instance, and the tick-clock instant of its last raising -/
  rate : List (Nat × Nat × Nat)
  /-- the same for masked log entries (R465) -/
  logRate : List (Nat × Nat)
  deriving DecidableEq, Repr

/-- A retained telemetry record (R303): header fields of Table 9.14 and the body from byte 24. -/
structure TlmRec where
  typ : Nat
  units : Nat
  more : Bool
  frag : Nat
  origin : BitVec 16
  time : CTime
  body : List Byte
  /-- ring and RECORD_ID, once it has them -/
  ring : Option (Fin 8)
  id : Nat
  /-- it has been offered on a ring before -/
  refetch : Bool
  /-- it waits to be written -/
  due : Bool
  /-- it has been written to a ring once (R198) -/
  wrote : Bool := false
  deriving DecidableEq, Repr

/-- What a freeze copies of a counter set (R386): the fixed counter, eight programmable counters, selections, sticky bits, and
whether a clear came since the previous freeze (R34). -/
structure CtrVals where
  fix : BitVec 64
  fixOvf : Bool
  cnt : Vector (BitVec 48) 8
  sel : Vector Nat 8
  ovf : BitVec 8
  cleared : Bool
  deriving DecidableEq, Repr

/-- What one reference tick has brought to a counter set, so that its actions take effect in the order of R391 (the model's own). -/
structure CtrTick where
  /-- the tick -/
  clk : Nat
  /-- the counters at its beginning, which a freeze copies, and with the clears and selections of the tick -/
  was : CtrVals
  base : CtrVals
  /-- the block's further counters (R386) with their overflow bits, at its beginning and with its clears -/
  more : List (Nat × Bool)
  moreBase : List (Nat × Bool)
  /-- its increments so far, by selector; its changes of selection: masks and selectors; a clear was among its actions -/
  adds : List (Nat × Nat)
  sels : List (Nat × Nat)
  wiped : Bool
  deriving DecidableEq, Repr

/-- A counter set (R386): its values, the remainders below 64 of the selectors in units of 64, and the tick that last changed it. -/
structure Ctr extends CtrVals where
  fixRem : Nat
  txRem : Nat
  lvlRem : Vector Nat 4
  tick : Option CtrTick
  deriving DecidableEq, Repr

/-- A monitor sample entry (Table 11.6). -/
structure Sample where
  value : BitVec 24
  flags : Byte
  channel : Nat
  conv : Nat
  seq : BitVec 16
  time : CTime
  deriving DecidableEq, Repr

/-- Settings of a monitor converter (Table 11.7). -/
structure MonCfg where
  mode : Nat
  resp : Nat
  beatLock : Bool
  hkOut : Bool
  avg : Nat
  shift : Nat
  chan : Nat
  rate : Nat
  k : Nat
  scanR : Nat
  list : List Nat
  recN : Nat
  recTime : Nat
  deriving DecidableEq, Repr

/-- What a monitor converter is doing. -/
inductive MonBusy where
  | idle
  /-- a host scan conversion of the list entry given -/
  | scan (i : Nat)
  /-- an urgent burst: input, conversions left, rate code -/
  | burst (input left : Nat) (r : Nat)
  /-- a housekeeping round -/
  | round
  /-- a reed segment of kind 3 -/
  | segment
  deriving DecidableEq, Repr

/-- A monitor converter (chapter 11). -/
structure Mon where
  cfg : MonCfg
  staged : Option MonCfg
  busy : MonBusy
  drop : Nat
  overrun : Nat
  ovr : Bool
  /-- represented instants before this carry SETTLING (R348): REFCLK time in units of 0.4 ns -/
  settleTo : Nat
  /-- the anchor t0, in cadence time and in sub-ticks of REFCLK time, and the number of the next output or pass of the grid (R342) -/
  anchor : CTime
  refAt : Nat
  next : Nat
  /-- the instant at which the converter stopped converting, in REFCLK time and in cadence time, until it restarts (R347) -/
  stop : Option (Nat × CTime)
  gap : Bool
  /-- the running averaging block: values so far, time of its first and last output, void (R343) -/
  block : List Int
  blockFirst : CTime
  blockVoid : Bool
  /-- next entry of the scan pass; equal to the list's length: pass ended -/
  passAt : Nat
  seq : BitVec 16
  /-- entries gathering into a record (R359) -/
  gather : List Sample
  /-- the circular buffer of 1,024 entries (R360): those held, oldest first; position written next; wraps -/
  buf : List Sample
  wptr : Nat
  wraps : Nat
  /-- the last of the 1,024 places has been written; the buffer is being drained, so many entries standing in a record to be written -/
  lapped : Bool
  drain : Bool
  drainN : Nat
  /-- outputs of the beat grid that are not produced, as half-open ranges of their numbers (R349) -/
  skips : List (Nat × Nat)
  rateWarned : Bool
  inTest : Bool
  /-- a housekeeping round waits for a burst's end (R353) -/
  roundDue : Bool
  deriving DecidableEq, Repr

/-- A comparator of R354. -/
structure Comp where
  en : Bool
  dir : Bool
  urgEn : Bool
  assign : Nat
  urgR : Nat
  urgN : Nat
  hys : Nat
  thr : Nat
  level : Bool
  deriving DecidableEq, Repr

/-- Output thresholds of a channel (R357). -/
structure OutThr where
  hiEn : Bool
  loEn : Bool
  hi : BitVec 24
  lo : BitVec 24
  hyst : BitVec 24
  high : Bool
  low : Bool
  deriving DecidableEq, Repr

/-- An on-die sensor (chapter 12). Temperatures in units of 2⁻¹⁶ °C. -/
structure Sensor where
  temp : Int
  warn : Int
  advise : Int
  mute : Int
  broken : Bool
  cause : Nat
  /-- crossings held: WARN, ADVISE, MUTE, rate -/
  warnX : Bool
  advX : Bool
  muteX : Bool
  rateX : Bool
  /-- consecutive rounds beyond, and below, each of the four -/
  up : Vector Nat 4
  dn : Vector Nat 4
  rangeRun : Nat
  diffRun : Nat
  /-- the last 8 readings, newest first (R370) -/
  hist : List Int
  /-- its rate of rise, units of 0.5 °C/s -/
  rate : Int
  /-- thresholds WARN, ADVISE, MUTE that take effect at the next round -/
  pend : Option (Int × Int × Int)
  deriving DecidableEq, Repr

/-- Settings of THERM_CONFIG KIND 0 (Table 12.5). -/
structure ThermCfg where
  round : Nat
  grace : Nat
  rateLim : Nat
  muteHold : Nat
  shedDwell : Nat
  liftGap : Nat
  deriving DecidableEq, Repr

/-- Thermal policy. -/
structure Therm where
  cfg : ThermCfg
  /-- settings that take effect at the next round -/
  pend : Option ThermCfg
  ideal0 : Nat
  ideal1 : Nat
  /-- ideality factors that take effect at the next round -/
  pend0 : Option Nat
  pend1 : Option Nat
  /-- trims in ppm of the line PLL, the host PLL, the housekeeping oscillator and the bandgap, and the coarse bands of the PLLs (R381) -/
  trims : Vector Int 4
  bands : Vector Nat 2
  sens : Vector Sensor 14
  stage : Nat
  /-- GRACE_LEFT, units of 0.1 s, from the tick instant at which the grace ends -/
  graceEnd : Nat
  tmax : Int
  /-- shed order, entries now shed (oldest first) with the domains switched off, exhausted -/
  order : List (BitVec 16)
  shed : List (BitVec 16 × List (Fin 50))
  exhausted : Bool
  /-- an entry waits for its self-test to end -/
  shedWait : List (BitVec 16)
  tripSensor : Nat
  tripCorr : Nat
  tripCount : Nat
  tripped : Bool
  /-- trip evaluations in a row with a vote, and with every unmasked sensor below TRIP − 10 °C (R379, R380); the vote that began the
  run: its sensor and its corroborating neighbour -/
  votes : Nat
  cool : Nat
  firstVote : Option (Nat × Option Nat)
  /-- trip record to be announced at boot -/
  tripNote : Bool
  /-- timers that ran out while firmware did not run: 0 grace, 1 dwell, 2 mute hold, 3 lift gap (R378) -/
  overdue : List Nat
  /-- the tick on which the last round began (R353) -/
  roundAt : Nat
  /-- rounds done, rounds delayed by a burst -/
  rounds : Nat
  late : Nat
  deriving DecidableEq, Repr

/-- Progress of a reed session of kind 3 or 4 (R317): segments completed, and the request that it answers. -/
structure SegRun where
  target : Fin 49
  done : Nat
  cmd : Option Cmd
  deriving DecidableEq, Repr

/-- The session or segment that the reed runs: its target, the physical slice that it calibrates (kinds 0 to 2), and the request
that it answers. -/
structure Session where
  target : Fin 49
  slice : Nat
  cmd : Option Cmd
  /-- the places in the queue that it came from, to which an abandoned session returns (R18): forced, due with its urgency, again -/
  forced : Bool
  due : Option Nat
  again : Bool
  deriving DecidableEq, Repr

/-- Calibration controller and reed (chapter 10). -/
structure Cal where
  dt : Nat
  marginW : Bool
  pendCfg : Option (Nat × Bool)
  reedOk : Bool
  frozen : Bool
  busy : Option Session
  lastTarget : Nat
  sess : BitVec 64
  since : Nat
  reject : Nat
  fail : Nat
  /-- consecutive rejected sessions on different targets: the targets -/
  rejRun : List (Fin 49)
  failRun : Nat
  checkDue : Bool
  /-- the reed-restored event follows the next passing self-check (R329) -/
  restoreNote : Bool
  forced : List (Fin 49)
  requests : List (Fin 49 × Cmd)
  /-- due targets with W × drift, in descending urgency -/
  due : List (Fin 49 × Nat)
  /-- targets whose swap was aborted: queued again (R79) -/
  again : List (Fin 49)
  begun : List SegRun
  starve : Vector Nat 49
  /-- calibration of MON_A, MON_B (indices 32, 33) and of the sensors: sets and T_cal -/
  single : Vector SliceCal 16
  /-- the reed-idle event has been raised since the last session; due targets, the one due longest first (R322) -/
  idleRaised : Bool
  dueSince : List (Fin 49)
  setSeq : Nat
  deriving DecidableEq, Repr

/-- Activities of class M4 of two kinds act on one tick without conflict (R138): a bank swap, and the mute overlay's entry or exit. -/
inductive ArbKind where
  | plain
  | swap
  | mute
  deriving DecidableEq, Repr

/-- An admitted activity (R330): class, target code of Table 8.8 or one of the model's own codes for reed and sensors. -/
structure Activity where
  cls : Nat
  target : BitVec 16
  kind : ArbKind := .plain
  deriving DecidableEq, Repr

/-- Maintenance arbiter. -/
structure Arb where
  admitted : List Activity
  conflict : Nat
  defer : Nat
  deriving DecidableEq, Repr

/-- A CHECK_RUN (Table 14.2). -/
structure ChkJob where
  cmd : Cmd
  chan : Nat
  flags : Byte
  w : Nat
  space : Nat
  len : Nat
  start : Nat
  poly : BitVec 64
  init : BitVec 64
  ctx : BitVec 64
  expect : BitVec 64
  /-- its place in the order of acceptance, and the tick on which its scan began (the model's own) -/
  ord : Nat
  began : Nat
  deriving DecidableEq, Repr

/-- A check-engine channel. -/
structure ChkCh where
  job : Option ChkJob
  wait : List ChkJob
  mismatch : Bool
  err : Bool
  res : BitVec 64
  done : Nat
  deriving DecidableEq, Repr

/-- Check engine and integrity logic (chapter 14). -/
structure Chk where
  ch : Vector ChkCh 4
  anyWait : List ChkJob
  calPasses : BitVec 16
  overdue : Nat
  calBlock : Nat
  corr : Nat
  unc : Nat
  lastMem : Nat
  upsets : Nat
  lastWord : Nat
  /-- tick instants of the last management-plane resets (R413) -/
  mgmtResets : List Nat
  /-- abandoned jobs to be answered when firmware runs again (R407) -/
  abandoned : List Cmd
  /-- commands accepted so far (the model's own) -/
  seq : Nat
  /-- a block of the calibration store is being scrubbed; the tick on which the pass began; its overdue event is raised (R410) -/
  scrub : Bool
  passAt : Nat
  late : Bool
  deriving DecidableEq, Repr

/-- On-demand test that runs (R450). -/
structure BlkTest where
  target : BitVec 16
  kinds : Nat
  cmd : Option Cmd
  until_ : CTime
  deriving DecidableEq, Repr

/-- A staged patch (R454). -/
structure Patch where
  digest : List Byte
  len : Nat
  deriving DecidableEq, Repr

/-- Self-test and secure store (chapter 16). -/
structure Tst where
  done : Bool
  skipped : BitVec 6
  fail : BitVec 6
  sig : Vector (BitVec 64) 6
  /-- group under test during step 3 -/
  group : Nat
  blk : Option BlkTest
  waitTests : List BlkTest
  lastTarget : BitVec 16
  lastKinds : Nat
  lastFail : Bool
  blkEnd : CTime
  scanFlag : Bool
  idKeyOk : Bool
  owner : Option (List Byte)
  /-- the OTP owner slots programmed, oldest first -/
  otpSlots : List (List Byte)
  staged : Option Patch
  active : Option Patch
  otpKib : Nat
  otpPatch : Option Patch
  /-- the boot to come was asked for by PATCH_ACTIVATE -/
  bootPatch : Bool
  deriving DecidableEq, Repr

/-- A queued or running domain transition (R36, R434). -/
structure Transition where
  dom : Fin 50
  on : Bool
  cmd : Option Cmd
  deriving DecidableEq, Repr

/-- Reset levels and planes of an episode or an exit (Table 15.1). -/
structure Reach where
  level : Nat
  data : Bool
  control : Bool
  mgmt : Bool
  /-- the PCI Express link and configuration space -/
  link : Bool
  lanes : List LaneId
  deriving DecidableEq, Repr

/-- What takes effect only at the end of a converter's swap (R81): a reset's reach, a domain's switching off, or sleep entry. -/
inductive Late where
  | reach (r : Reach)
  | dom (k : Fin 50)
  | sleep
  deriving DecidableEq, Repr

/-- A reset episode (R426). -/
structure Episode where
  sources : List ResetSrc
  reach : Reach
  first : Nat
  deriving DecidableEq, Repr

/-- Where an exit sequence stands (R428, R430). -/
inductive ExitStep where
  /-- cold step 1: attempts made so far -/
  | trim (attempts : Nat)
  /-- cold step 2 -/
  | pll
  /-- cold step 3: the group under test -/
  | selfTest (g : Nat)
  /-- step 4, or the boot of a warm exit -/
  | boot
  deriving DecidableEq, Repr

/-- A running exit: its step, whether it is a cold exit, a POR exit, a wake. -/
structure Exit where
  step : ExitStep
  cold : Bool
  por : Bool
  wake : Bool
  /-- the reach that it releases -/
  reach : Reach
  deriving DecidableEq, Repr

/-- Sleep (R438 to R441). -/
inductive Sleep where
  | awake
  /-- entry has completed; the RESET_N assertion that entered is still low, or a later one is; RESET_N has been
  low for more than 1 s -/
  | asleep (entryLow pulseLow long : Bool)
  deriving DecidableEq, Repr

/-- Reset, power and sleep (chapter 15). -/
structure Rst where
  cause : BitVec 13
  count : Nat
  first : Nat
  level : Nat
  episodes : List Episode
  exits : List Exit
  /-- pins as filtered, supplies -/
  resetLow : Bool
  perstLow : Bool
  vioLow : Bool
  on : Vector Bool 50
  cur : Option Transition
  queue : List Transition
  seqDir : Bool
  seqDom : Nat
  failed : Nat
  trimValid : Bool
  trimSafe : Bool
  trimAttempts : Nat
  trimRestarts : Nat
  /-- the trim-load failure to be announced at boot: attempts and copy -/
  trimNote : Bool
  sleep : Sleep
  woke : Bool
  wakeCause : Nat
  sleptS : Nat
  sleepSince : Nat
  /-- the boot raises the wake event -/
  wakeNote : Bool
  mgmtRun : Bool
  /-- the control plane is in reset -/
  ctrlReset : Bool
  /-- a reset that a host command or a patch asked for waits for its OK record: descriptor key and the source -/
  afterRecord : List (Fin 16 × Word × ResetSrc)
  deriving DecidableEq, Repr

/-- A transaction of the optics control port (R173): who asked and what is sent. -/
inductive OcpWhat where
  /-- TIA code write of lane n, and its readback -/
  | tiaWrite (n : Fin 8) (code : Nat) (tries : Nat)
  | tiaRead (n : Fin 8) (code : Nat) (tries : Nat)
  /-- driver gain write of lane n, and its readback -/
  | drvWrite (n : Fin 8) (code : Nat) (tries : Nat)
  | drvRead (n : Fin 8) (code : Nat) (tries : Nat)
  | xfer (cmd : Cmd)
  /-- a transaction under way whose outcome nobody awaits any more -/
  | void
  deriving DecidableEq, Repr

/-- One queued transaction: chip select, register address, bytes sent, bytes read back. -/
structure OcpTrans where
  what : OcpWhat
  cs : Nat
  addr : Nat
  send : List Byte
  rd : Nat
  deriving DecidableEq, Repr

/-- A capture or eye scan (R398 to R401). -/
structure CapRun where
  cmd : Option Cmd
  target : BitVec 16
  kind : Nat
  len : Nat
  dwell : Nat
  phase : Nat
  time : CTime
  subst : BitVec 32
  trunc : Bool
  /-- a word of the capture that is replaced by zeros (Table 14.4) -/
  lost : Option Nat := none
  deriving DecidableEq, Repr

end Sys2Proof.Machine
end

