-- ==== Sys2Proof/Machine/State.lean ====
section
/-! DEFINITION. The state of the PV8450 and its state after power-on reset. -/

namespace Sys2Proof.Machine

/-- No command of this block stops the machine: the spec gives every one an effect, a discard or an answer. -/
inductive Fault where
  deriving DecidableEq, Repr

/-- Refusals. -/
inductive Refusal where
  /-- raised by the dispatcher for a row without a meaning; safe: the machine stops. No row is left without one. -/
  | notModelled (mnemonic : String)
  deriving DecidableEq, Repr

/-- Straps as last sampled (R486, Table 18.9): pins, effective values, an override in force. -/
structure Straps where
  pins : Pins
  eff : Pins
  ovrUsed : Bool
  deriving DecidableEq, Repr

/-- What sleep entry saves in PD_00 (R438): the active banks and the monitor settings. -/
structure Saved where
  lines : Vector LineBank 8
  hosts : Vector HostBank 16
  ports : Vector PortBank 8
  mon : Vector MonCfg 2
  comp : Vector Comp 32
  thr : Vector OutThr 64
  deriving DecidableEq, Repr

/-- PCI Express side (R279, R280, Table 9.7): link up, bus mastering, memory space, D3hot, MSI-X pending bits. -/
structure Pcie where
  link : Bool
  bme : Bool
  mse : Bool
  d3hot : Bool
  refOk : Bool
  pend : BitVec 32
  /-- how the link trained last -/
  form : LinkForm
  /-- payload and read-request sizes, ASPM L1 -/
  ctl : PcieCtl
  /-- advanced error reporting: the uncorrectable-error status of the base specification (R279, R296, R407) -/
  aer : BitVec 32
  deriving DecidableEq, Repr

/-- The rings (Table 9.2). -/
structure Rings where
  cmd : Vector Ring 16
  cpl : Vector Ring 16
  evt : Vector Ring 4
  tlm : Vector Ring 8
  /-- accepted commands without a written final record, in order of acceptance -/
  opened : List (Fin 16 × Word)
  /-- commands that wait for their turn: a FENCE, or firmware (R292) -/
  held : List Cmd
  /-- completion records that wait, in the order in which the commands finished -/
  wait : List CplRec
  /-- the last outcomes per command ring, newest first -/
  outcomes : List CmdOutcome
  /-- rings whose CFG.EN was written 1 during G0: enabled at its end (R449) -/
  enWait : List RingId
  /-- the command ring that was served last (R290) -/
  turn : Fin 16
  /-- control-plane resets so far (the model's own) -/
  era : Nat
  deriving DecidableEq, Repr

/-- Retained telemetry (R303, R395). -/
structure Tlm where
  recs : List TlmRec
  serial : Word
  snapTime : CTime
  snapClk : Option Nat
  deriving DecidableEq, Repr

/-- The machine. -/
structure State where
  /-- commands that wait, first in, first out (the model's own) -/
  pending : List Instr
  /-- draws of free values so far (the model's own) -/
  free : Nat
  /-- reference ticks of 6.4 ns since reset (the model's own clock) -/
  clk : Nat
  /-- sub-ticks of 0.8 ns since that tick: 0 to 7 -/
  sub : Nat
  out : List Out
  /-- RW and RWL registers away from their reset values, and their shadow copies (R415) -/
  setup : List (Nat × Word)
  shadow : List (Nat × Word)
  viol : Nat
  /-- upper-word latches of the two access paths (R7, R480): offset of the upper register and the word latched -/
  hiPcie : List (Nat × Word)
  hiWire : List (Nat × Word)
  straps : Straps
  pcie : Pcie
  refOk : Bool
  hkoOk : Bool
  refLostAt : Nat
  /-- the tick on which the line PLL last locked: the start of the reference-tick count of R179 -/
  pllAt : Nat
  rings : Rings
  evt : Evt
  tlm : Tlm
  lmem : List Host.Cell
  cad : Cad
  lines : Vector Line 8
  hosts : Vector HostLane 16
  ports : Vector Port 8
  lineCtr : Vector Ctr 8
  hostCtr : Vector Ctr 16
  portCtr : Vector Ctr 8
  pmc : Ctr
  mon : Vector Mon 2
  comp : Vector Comp 32
  thr : Vector OutThr 64
  therm : Therm
  cal : Cal
  arb : Arb
  chk : Chk
  tst : Tst
  rst : Rst
  saved : Option Saved
  ocp : List OcpTrans
  /-- resets and switchings-off that wait for the end of a swap's settling and parallel run (R81) -/
  late : List Late
  /-- the capture that holds the capture area, and the eye scans that run -/
  cap : Option CapRun
  scans : List CapRun
  deriving DecidableEq, Repr

/-! ### Reset values -/

/-- A calibration set of zeros: what a slice holds before its first session. -/
def CalVals.zero : CalVals := ⟨0, 0, 0⟩

def SliceCal.none : SliceCal := { sets := [], tCal := 0, applied := CalVals.zero }

/-- A converter of `n + 1` slices at POR: slice l serves phase l, the last is the spare (R77, R152). -/
def Converter.por (n : Nat) : Converter :=
  { roles := (List.range n).map SliceRole.phase ++ [SliceRole.spare]
    cal := List.replicate (n + 1) SliceCal.none
    swapCnt := 0, abortCnt := 0, run := none }

def LineBank.default : LineBank :=
  { rxfe := 0x10500814, tia := 0, eqCtl := 0x0044100F, eqMu := 0x01737362, fgPos0 := 0, fgPos1 := 0, qual := 0x00000A1E
    txCfg := 0x00807270, trnCfg := 0x04004002, drv := 0
    fir := [0, 0x1FF, 0, 0, 0, 0, 0, 0], nlpd := List.replicate 16 0
    initMain := List.replicate 64 0, initFg := List.replicate 16 0, initNl := List.replicate 15 0
    initTgt := List.replicate 3 0, bad := [] }

def HostBank.default : HostBank :=
  { rxCfg := 0x0001CC10, eqCfg := 0x00662084, txCfg := 0x00000A00, firLo := 0x3AFA0000, firHi := 0, test := 0, bad := [] }

/-- Host lanes and line lanes per port, and the number of ports, of each mode (Table 2.1). -/
def modeHostCnt : Nat → Nat
  | 0 => 2 | 1 => 4 | 2 => 8 | 3 => 16 | 4 => 1 | 5 => 2 | 6 => 2 | _ => 0
def modeLineCnt : Nat → Nat
  | 0 => 1 | 1 => 2 | 2 => 4 | 3 => 8 | 4 => 1 | 5 => 1 | 6 => 1 | _ => 0
def modePorts : Nat → Nat
  | 0 => 8 | 1 => 4 | 2 => 2 | 3 => 1 | 4 => 8 | 5 => 8 | 6 => 8 | _ => 0

/-- Word of eight four-bit positions from position `lo`: the default crossbar of a port (Table 2.2). -/
def hostMapWord (cnt p lo : Nat) : Word :=
  (List.range 8).foldl (fun w k => if lo + k < cnt then w ||| BitVec.ofNat 32 ((cnt * p + lo + k) % 16 * 16 ^ k) else w) 0

/-- The default bank of PORT_p in a mode (Tables 2.2, 2.4, 2.7, 2.8). An idle port keeps MODE and FIXED_LAT (R57) under an
ENABLED of 0. -/
def PortBank.default (mode : Nat) (fixed : Bool) (code : Nat) (p : Nat) : PortBank :=
  let used := p < modePorts mode
  let c := if mode = 4 then code else if mode = 5 then 1 else 0
  let fx := fixed || mode == 6
  { cfg := BitVec.ofNat 32 (mode + (if fx then 8 else 0) +
      (if used then c * 16 + 0x80 + modeLineCnt mode * p * 0x1000 + modeLineCnt mode * 0x10000 + modeHostCnt mode * 0x100000
       else 0))
    mapLo := if used then hostMapWord (modeHostCnt mode) p 0 else 0
    mapHi := if used then hostMapWord (modeHostCnt mode) p 8 else 0
    fec := 0x37471801
    bad := [] }

/-- No coefficient, and the levels at their nominal values: what DET_LVL reads at reset (Table 4.22). -/
def EqCoefs.zero : EqCoefs :=
  { main := List.replicate 64 0, fg := List.replicate 16 0, nl := List.replicate 15 0, h1 := 0, h2 := 0
    lvl1 := -32, lvl2 := 32, ofs := 0, pos := [none, none, none, none] }

def LineRx.reset (adc : Converter) : LineRx :=
  { st := .off, coldCnt := 0, relockCnt := 0, fallback := false, sigDet := false, inFrame := false, goodHdr := 0, badHdr := 0
    rms := 0, vga := 0, tiaCode := 0, tiaPick := false, tiaStopped := false, tiaWanted := none, vgaStepDue := none, freq := 0
    freqAtLimit := false, cdrLock := false, rot := 0, skews := [], skewWins := 0, adc := adc, darkSince := 0
    darkByRefclk := false, acqStart := 0, outage := false, outTicks := 0, outSince := 0
    past2ms := false, squelch := false, rxDelay := 0, txDelay := 0
    inTest := false }

/-- Metrics of a trellis that starts anywhere. -/
def Trellis.reset : Trellis := { ins := [], metric := List.replicate 16 0, tent := [], fin := [] }

/-- An eye histogram (R132): the row of a level holds its 256 bins once a symbol has fallen into one. -/
def noHist : List (List Nat) := List.replicate 4 []

def QualAcc.reset : QualAcc :=
  { n := 0, sse := 0, tn := 0, tsse := 0, bits := 0, d := List.replicate 3 (0, 0), hist := noHist }

def LineEq.reset : LineEq :=
  { phase := 0, again := false, xs := [], trellis := Trellis.reset, acc := QualAcc.reset, conv := false, sat := false
    muted := false, heldMain := [], heldNl := [], heldH2 := 0
    live := EqCoefs.zero, stored := none, voided := [], bankAge := 0, sweep := none, placed := false
    cap := EqCoefs.zero, capValid := true, prior := none, snr := 0, eye := 0, preFec := 0, corr := 0, margin := 0, mutePen := 0
    snrHist := [], lowRun := 0, highRun := 0, lowRaised := false, mse := none, corrBits := 0, codedBits := 0 }

def TxSet.zero : TxSet := { fir := [0, 0, 511, 0, 0, 0, 0, 0, 0, 0, 0, 0, 0, 0, 0], nl := List.replicate 64 0 }

def LineTx.reset (dac : Converter) : LineTx :=
  { st := .off, txDis := true, drain := none, dacOn := false, clips := 0, fill := [none, none], sentAt := none, pre := 0
    waitDriver := false, live := TxSet.zero, lastGood := none, dac := dac
    skew := 0, trnState := 0, reqCnt := 0, retryCnt := 0, mismatch := false, mismatchRaised := false, trnSeq := 0
    proc := none, marginAtStart := 0, restartAtUp := false, lastAnswer := none, accepted := none, answerReset := false
    trainCmds := [], tail := List.replicate 28 none }

def LineFrame.reset : LineFrame :=
  { txFc := 0, rxCw := 0, soft := [], rxFc := 0, rxId := 0, idValid := false, idMismatch := false, skew := 0, farMargin := 0, farState := 0
    farMuted := false, farSquelch := false, farAge := 255, farFrames := 0, hchkErr := 0, scErr := 0, hchkInt := 0
    scInt := 0, innerUnc := 0, innerInt := 0, out := [], lastWasFrag := false, departs := [], echoes := []
    echoHold := false, echoForeign := false, send := none, waiting := [], nextMsg := 0, part := none, lastMsg := none
    recv := [] }

def Line.reset (adc dac : Converter) : Line :=
  { act := LineBank.default, shd := LineBank.default, rx := LineRx.reset adc, eq := LineEq.reset, tx := LineTx.reset dac
    fr := LineFrame.reset }

def HostCoefs.zero : HostCoefs := { ffe := List.replicate 24 0, d1 := 0 }

def HostAcc.reset : HostAcc := { n := 0, sse := 0, hist := noHist }
def Checker.reset : Checker := { ref := [], run := 0, errs := [] }
def HostPath.reset : HostPath :=
  { xs := [], prev := 0, preRx := 0, preTx := 0, toLine := [], far := [], near := [], tail := List.replicate 5 none, gen := [], genCount := 0 }

def HostLane.reset (adc : Converter) : HostLane :=
  { act := HostBank.default, shd := HostBank.default, st := .off, coldCnt := 0, resumeCnt := 0, auto := true, sigDet := false
    peak := 0, dcg := 0, freq := 0, lock := false, snr := 0, eye := 0, snrHist := [], coefs := HostCoefs.zero
    cap := HostCoefs.zero, capValid := true, heldCoefs := none, search := { todo := [], fine := false, tried := [], syms := 0 }
    acc := HostAcc.reset, rot := 0, path := HostPath.reset, chk := Checker.reset, adc := adc
    idleSince := 0, acqStart := 0, acqResume := false, acqUntil := 0, slipCnt := 0, slips := []
    lockLoss := 0, chkLock := false, testErr := 0, inTest := false }

def Port.reset (mode p : Nat) : Port :=
  { act := PortBank.default mode false 2 p, shd := PortBank.default mode false 2 p, latTx := 0, latRx := 0, owlMean := 0
    owlCount := 0, owlForeign := false, owlHold := false, owlSpread := 0, meas := none, ser := 0, degraded := false
    amLock0 := false, amLock1 := false, fecUnc := 0, hist := List.replicate 17 (0, false), raw := List.replicate 16 []
    winBins0 := List.replicate 17 0, winBins1 := List.replicate 17 0, uncInt := 0, bad0 := 0, bad1 := 0
    sqDeskew := false, sqIdentity := false, sqBuffers := false, inTest := false }

def Ctr.reset (lo hi : Word) : Ctr :=
  { fix := 0, fixOvf := false, cnt := Vector.replicate 8 0
    sel := Vector.ofFn fun k => if k.val < 4 then lo.toNat / 256 ^ k.val % 256 else hi.toNat / 256 ^ (k.val - 4) % 256
    ovf := 0, fixRem := 0, txRem := 0, lvlRem := Vector.replicate 4 0, cleared := false, tick := none }

def Ctr.line : Ctr := Ctr.reset 0x23222120 0x2B290024
def Ctr.host : Ctr := Ctr.reset 0x09080B0A 0x0C0D0100
def Ctr.port : Ctr := Ctr.reset 0x43424140 0x47464544
def Ctr.pmc : Ctr := Ctr.reset 0x83828180 0x87868584

/-- The endpoint after a reset of its configuration space: sizes as the base specification resets them (log entry 77); `ref`: the
reference clock is good. -/
def Pcie.reset (ref : Bool) : Pcie :=
  { link := false, bme := false, mse := false, d3hot := false, refOk := ref, pend := 0
    form := { rate := .gt2_5, width := .x1, reversed := false, inverted := 0 }
    ctl := { payload := 0, readReq := 2, aspmL1 := false }, aer := 0 }

def Ring.reset : Ring :=
  { prod := 0, cons := 0, db := 0, err := false, chkFail := 0, unsig := 0, first := 0, latest := 0, formed := 0, written := 0, acked := 0 }

def Rings.reset : Rings :=
  { cmd := Vector.replicate 16 Ring.reset, cpl := Vector.replicate 16 Ring.reset, evt := Vector.replicate 4 Ring.reset
    tlm := Vector.replicate 8 Ring.reset, opened := [], held := [], wait := [], outcomes := []
    enWait := [], era := 0, turn := 15 }

/-- EVT.MASK_k after a cold reset (Table 17.6). -/
def evtMaskWord (k : Nat) : Word :=
  if k = 0 then 0x0010002A else if k = 1 then 0x00260010 else if k < 10 then 0x0441A20C
  else if k < 14 then 0x62626262 else if k = 14 then 0x00009022 else 0xAD016000

def evtMaskReset : BitVec 512 :=
  (List.range 16).foldl (fun m k => m ||| ((evtMaskWord k).setWidth 512 <<< (32 * k))) 0

def Evt.reset : Evt :=
  { latches := [], log := [], logSeq := 0, masks := evtMaskReset, routes := 0, holdoff := [], rate := [], logRate := [] }

def TreeTime.reset : TreeTime :=
  { seen := false, hold := false, var := false, enumDone := false, parentDepth := 7, domain := 0, beat := 0, elapsed := 0
    period := 1250000, intervals := [], missing := 3, marked := none, good := 0 }

def Summary.zero : Summary :=
  { beat := 0, dev := 0, alt := 0, hold := 0, miss := 0, info := 0, warn := 0, fault := 0, firstValid := false
    firstFault := false, firstIdx := 0, firstSrc := 0, firstTime := 0, tmax := 0, preFec := 0 }

def Link.reset (disabled : Bool) : Link :=
  { st := if disabled then .disabled else .down, holdRx := false, err := 0, keep := 0, probes := 0, viol := []
    probeOut := false, roundTrip := none, delays := [], delay := 0, child := none, lostDev := 0
    report := none }

def Slot.empty : Slot :=
  { valid := false, dom := false, action := 0, classes := 0, target := 0, start := 0, duration := 0, rep := 0, stride := 0
    count := 0, stagMod := 0, tag := 0, src := .install, param := [], cmd := none, m := 0, armed := 0, openEnd := none
    deferral := none }

/-- The cadence unit before its first beat (R235, R237): a chanter or drone is acquiring; a standalone device waits for its
line PLL. -/
def Cad.reset (role : BitVec 2) : Cad :=
  let alone := role == 0
  { role := role, st := if alone then 0 else 1, started := false, beat := 0, elapsed := 0, period := 1250000
    intervals := [], holdBack := 0, slew := 0, cfg := 0, domain := 0
    follow := if role == 3 then .b else .a
    treeA := TreeTime.reset, treeB := TreeTime.reset, offsets := [], switchTo := none, holdCause := none, edgeAge := 0
    edgeSeen := false, acqIntervals := [], offEdges := none, irregular := 0, acqWarned := false
    links := Vector.replicate 10 (Link.reset alone), idx := 0, idxValid := alone, idxA := none, idxB := none
    enumDone := false, enumBegun := false, epoch := 0, epochB := 0, run := none, runB := none, slots := Vector.replicate 256 Slot.empty, skip := 0
    late := 0, sum := Summary.zero, sumSince := 0, own := { up := Summary.zero, root := Summary.zero }
    sumPrev := Summary.zero, extraSent := false, skipRaised := false
    domTags := [], used := [], resv := [], joinVia := [], joinWait := [] }

/-- Settings of MON_A and MON_B after a cold reset (Tables 11.10, 11.11, 11.15). -/
def MonCfg.default (k : Nat) : MonCfg :=
  { mode := if k = 0 then 2 else 0, resp := 5, beatLock := false, hkOut := false, avg := 0, shift := 0, chan := 0
    rate := if k = 0 then 100 else 1000, k := 1, scanR := if k = 0 then 1 else 0
    list := if k = 0 then List.range 24 else [], recN := 60, recTime := 10 }

def Mon.reset (c : MonCfg) : Mon :=
  { cfg := c, staged := none, busy := .idle, drop := 0, overrun := 0, ovr := false, settleTo := 0, anchor := 0, refAt := 0, next := 0, stop := none
    gap := false, block := [], blockFirst := 0, blockVoid := false, passAt := 32, seq := 0, gather := [], buf := []
    wptr := 0, wraps := 0, lapped := false, drain := false, drainN := 0, skips := [], rateWarned := false, inTest := false
    roundDue := false }

def Comp.reset (i : Nat) : Comp :=
  { en := decide (i < 8), dir := false, urgEn := false, assign := 0, urgR := 0, urgN := 1, hys := 4, thr := 16
    level := false }

def OutThr.reset : OutThr := { hiEn := false, loEn := false, hi := 0, lo := 0, hyst := 0, high := false, low := false }

def Sensor.reset : Sensor :=
  { temp := 0, warn := 100, advise := 105, mute := 115, broken := false, cause := 0, warnX := false, advX := false
    muteX := false, rateX := false, up := Vector.replicate 4 0, dn := Vector.replicate 4 0, rangeRun := 0, diffRun := 0
    hist := [], rate := 0, pend := none }

def ThermCfg.default : ThermCfg :=
  { round := 10, grace := 5, rateLim := 5, muteHold := 30, shedDwell := 20, liftGap := 10 }

def Therm.reset : Therm :=
  { cfg := ThermCfg.default, pend := none, ideal0 := 0x4083, ideal1 := 0x4083, pend0 := none, pend1 := none, trims := Vector.replicate 4 0
    bands := Vector.replicate 2 0, sens := Vector.replicate 14 Sensor.reset
    stage := 0, graceEnd := 0, tmax := 0
    order := [0x3007, 0x3006, 0x3005, 0x3004, 0x3003, 0x3002, 0x3001, 0x3000]
    shed := [], exhausted := false, shedWait := [], tripSensor := 0, tripCorr := 0, tripCount := 0
    tripped := false, tripNote := false, votes := 0, cool := 0, firstVote := none, overdue := [], roundAt := 0, rounds := 0, late := 0 }

def Cal.reset : Cal :=
  { dt := 4, marginW := true, pendCfg := none, reedOk := false, frozen := false, busy := none, lastTarget := 0, sess := 0
    since := 0, reject := 0, fail := 0, rejRun := [], failRun := 0, checkDue := false, restoreNote := false, forced := []
    requests := [], due := [], again := [], begun := [], starve := Vector.replicate 49 0, single := Vector.replicate 16 SliceCal.none
    idleRaised := false, dueSince := [], setSeq := 0 }

def ChkCh.reset : ChkCh := { job := none, wait := [], mismatch := false, err := false, res := 0, done := 0 }

def Chk.reset : Chk :=
  { ch := Vector.replicate 4 ChkCh.reset, anyWait := [], calPasses := 0, overdue := 0, calBlock := 0, corr := 0, unc := 0
    lastMem := 0, upsets := 0, lastWord := 0, mgmtResets := [], abandoned := [], seq := 0, scrub := false, passAt := 0, late := false }

def Tst.reset : Tst :=
  { done := false, skipped := 0, fail := 0, sig := Vector.replicate 6 0, group := 0, blk := none, waitTests := []
    lastTarget := 0, lastKinds := 0, lastFail := false, blkEnd := 0, scanFlag := false, idKeyOk := false, owner := none
    otpSlots := Config.otpOwnerSlots.take 4, staged := none, active := none, otpKib := min 64 Config.otpPatchKib
    otpPatch := if Config.otpPatchKib = 0 then none else some { digest := Config.otpPatchDigest, len := 1024 * Config.otpPatchKib }
    bootPatch := false }

/-- The domains that are on while a cold exit runs its first step: PD_00 to PD_07, PD_10 and PD_11 (R428, R435). -/
def domBase (k : Nat) : Bool := decide (k < 8) || k == 10 || k == 11

def Reach.all : Reach := { level := 4, data := true, control := true, mgmt := true, link := true, lanes := [] }

/-- Just released from POR: cause bit 0, LEVEL 4, the cold exit about to make its first trim-load attempt. -/
def Rst.reset : Rst :=
  { cause := 1, count := 0, first := 0, level := 4, episodes := []
    exits := [{ step := .trim 0, cold := true, por := true, wake := false, reach := Reach.all }]
    resetLow := false, perstLow := false, vioLow := false
    on := Vector.ofFn fun k => domBase k.val
    cur := none, queue := [], seqDir := false, seqDom := 0, failed := 0, trimValid := false, trimSafe := false
    trimAttempts := 0, trimRestarts := 0, trimNote := false, sleep := .awake, woke := false, wakeCause := 0, sleptS := 0
    sleepSince := 0, wakeNote := false, mgmtRun := false
    ctrlReset := true, afterRecord := [] }

def Pins.low : Pins := { mode := 0, cadRole := 0, attach := false, addr := 0 }

/-- The machine when POR has just been released. -/
def State.reset : State :=
  { pending := [], free := 0, clk := 0, sub := 0, out := [], setup := [], shadow := [], viol := 0, hiPcie := [], hiWire := []
    straps := { pins := Pins.low, eff := Pins.low, ovrUsed := false }
    pcie := Pcie.reset false
    refOk := false, hkoOk := true, refLostAt := 0, pllAt := 0
    rings := Rings.reset, evt := Evt.reset
    tlm := { recs := [], serial := 0, snapTime := 0, snapClk := none }
    lmem := [], cad := Cad.reset 0
    lines := Vector.replicate 8 (Line.reset (Converter.por 64) (Converter.por 32))
    hosts := Vector.replicate 16 (HostLane.reset (Converter.por 32))
    ports := Vector.ofFn fun p => Port.reset 0 p.val
    lineCtr := Vector.replicate 8 Ctr.line, hostCtr := Vector.replicate 16 Ctr.host, portCtr := Vector.replicate 8 Ctr.port
    pmc := Ctr.pmc
    mon := Vector.ofFn fun k => Mon.reset (MonCfg.default k.val)
    comp := Vector.ofFn fun i => Comp.reset i.val
    thr := Vector.replicate 64 OutThr.reset
    therm := Therm.reset, cal := Cal.reset, arb := { admitted := [], conflict := 0, defer := 0 }
    chk := Chk.reset, tst := Tst.reset, rst := Rst.reset, saved := none, ocp := [], late := [], cap := none, scans := [] }

end Sys2Proof.Machine
end

