-- ==== Sys2Proof/Machine/Bits.lean ====
section
/-! DEFINITION. Bit fields, byte order, signed fields, saturation, CRCs, association lists. -/

namespace Sys2Proof.Machine

/-- Bits [lo + len − 1 : lo] as a number. -/
def bits {w : Nat} (v : BitVec w) (lo len : Nat) : Nat := v.toNat / 2 ^ lo % 2 ^ len

def bit {w : Nat} (v : BitVec w) (i : Nat) : Bool := v.getLsbD i

/-- A register word from its fields (value, lowest bit, width); each value is cut to its width. -/
def pack (fs : List (Nat × Nat × Nat)) : Word :=
  fs.foldl (fun w f => w ||| BitVec.ofNat 32 (f.1 % 2 ^ f.2.2 * 2 ^ f.2.1)) 0

def b2n (b : Bool) : Nat := if b then 1 else 0

/-- Saturating to n bits, unsigned and signed (R464). -/
def satU (n v : Nat) : Nat := min v (2 ^ n - 1)

def satS (n : Nat) (v : Int) : Int := max (-(2 ^ (n - 1) : Nat)) (min v ((2 ^ (n - 1) : Nat) - 1))

/-- A signed value as the bits of a field of n bits. -/
def toField (n : Nat) (v : Int) : Nat := (v % (2 ^ n : Nat)).toNat

/-- An unsigned value of n bits read as two's complement. -/
def ofField (n v : Nat) : Int := if v < 2 ^ (n - 1) then (v : Int) else (v : Int) - (2 ^ n : Nat)

/-- k bytes of a number, byte 0 first (R6). -/
def bytesLE : Nat → Nat → List Byte
  | 0, _ => []
  | k + 1, v => BitVec.ofNat 8 v :: bytesLE k (v / 256)

def ofBytesLE : List Byte → Nat
  | [] => 0
  | b :: t => b.toNat + 256 * ofBytesLE t

/-- Byte i of a list; a byte that the list does not hold reads 0. -/
def byteAt (l : List Byte) (i : Nat) : Nat := (l.getD i 0).toNat

/-- The k bytes from i as a little-endian number. -/
def leAt (l : List Byte) (i k : Nat) : Nat := ofBytesLE ((List.range k).map fun j => l.getD (i + j) 0)

/-- Exactly n bytes: cut, or filled with zeros. -/
def fit (n : Nat) (l : List Byte) : List Byte := (List.range n).map fun i => l.getD i 0

def zeros (n : Nat) : List Byte := List.replicate n 0

def allZero (l : List Byte) (lo hi : Nat) : Bool := (List.range (hi - lo)).all fun i => l.getD (lo + i) 0 == 0

/-! ### CRC (R403) -/

/-- One bit into a W-bit register, most significant first, polynomial in normal form. -/
def crcBit (w poly reg : Nat) (b : Bool) : Nat :=
  let top := (decide (reg / 2 ^ (w - 1) % 2 = 1)).xor b
  let sh := reg * 2 % 2 ^ w
  if top then sh ^^^ poly else sh

/-- One byte: most significant bit first, or least significant bit first with REFIN. -/
def crcByte (w poly : Nat) (refin : Bool) (reg : Nat) (b : Byte) : Nat :=
  (List.range 8).foldl (fun r i => crcBit w poly r (if refin then b.getLsbD i else b.getLsbD (7 - i))) reg

def reflect (w v : Nat) : Nat := (List.range w).foldl (fun r i => r * 2 + v / 2 ^ i % 2) 0

/-- The check value of R403 over the bytes given, context bytes first where there are any. -/
def crc (w poly init : Nat) (refin refout finv : Bool) (bs : List Byte) : Nat :=
  let r := bs.foldl (crcByte w poly refin) init
  let r := if refout then reflect w r else r
  if finv then 2 ^ w - 1 - r else r

/-- The ring check of R298: an 8-byte context, then the entry. -/
def crc32c (ctx : Nat) (bs : List Byte) : Nat :=
  crc 32 0x1EDC6F41 0xFFFFFFFF true true true (bytesLE 8 ctx ++ bs)

/-- SCCRC and the cadence message CRC (Table 14.1). -/
def crc16 (bs : List Byte) : Nat := crc 16 0x1021 0xFFFF false false false bs

/-- HCHK (Table 14.1). -/
def crc8 (bs : List Byte) : Nat := crc 8 0x07 0 false false false bs

/-! ### Association lists -/

def assocGet (l : List (Nat × α)) (k : Nat) : Option α := (l.find? fun e => e.1 == k).map (·.2)

def assocSet (l : List (Nat × α)) (k : Nat) (v : α) : List (Nat × α) := (k, v) :: l.filter fun e => e.1 != k

def assocDel (l : List (Nat × α)) (k : Nat) : List (Nat × α) := l.filter fun e => e.1 != k

/-- Element i of a vector changed. -/
def upd (v : Vector α n) (i : Fin n) (f : α → α) : Vector α n := v.set i (f v[i])

/-! ### Local ring memory (R309): canonical cells, an unlisted byte reads 0 -/

/-- Addresses strictly rising, and no cell that equals what an unlisted address reads. -/
def Memory.wf : List Host.Cell → Bool
  | [] => true
  | [c] => c.2 != 0
  | c :: d :: t => c.2 != 0 && decide (c.1 < d.1) && Memory.wf (d :: t)

def Memory.get : List Host.Cell → Nat → Byte
  | [], _ => 0
  | c :: t, a => if c.1 = a then c.2 else Memory.get t a

/-- Write one byte; 0 removes the cell. -/
def Memory.set : List Host.Cell → Nat → Byte → List Host.Cell
  | [], a, b => if b = 0 then [] else [(a, b)]
  | c :: t, a, b =>
    if a < c.1 then (if b = 0 then c :: t else (a, b) :: c :: t)
    else if a = c.1 then (if b = 0 then t else (a, b) :: t)
    else c :: Memory.set t a b

def Memory.write (m : List Host.Cell) (a : Nat) : List Byte → List Host.Cell
  | [] => m
  | b :: t => Memory.write (Memory.set m a b) (a + 1) t

def Memory.read (m : List Host.Cell) (a n : Nat) : List Byte := (List.range n).map fun i => Memory.get m (a + i)

end Sys2Proof.Machine
end

