-- ==== Sys2Proof/Machine/Ops.lean ====
section
/-! DEFINITION. The shared operations over the state: outputs, free values, set-up registers, cadence time, power domains,
counters, events, retained telemetry, completion records. -/

namespace Sys2Proof.Machine

/-- Put one output out. -/
def emit (o : Out) (s : State) : State := { s with out := s.out ++ [o] }

/-- A free value: the next draw, and the state after it. -/
def draw (s : State) : Nat × State := (Config.freeValue s.free, { s with free := s.free + 1 })

def modLine (n : Fin 8) (f : Line → Line) (s : State) : State := { s with lines := upd s.lines n f }
def modHost (n : Fin 16) (f : HostLane → HostLane) (s : State) : State := { s with hosts := upd s.hosts n f }
def modPort (p : Fin 8) (f : Port → Port) (s : State) : State := { s with ports := upd s.ports p f }
def modMon (k : Fin 2) (f : Mon → Mon) (s : State) : State := { s with mon := upd s.mon k f }
def modRx (n : Fin 8) (f : LineRx → LineRx) (s : State) : State := modLine n (fun l => { l with rx := f l.rx }) s
def modEq (n : Fin 8) (f : LineEq → LineEq) (s : State) : State := modLine n (fun l => { l with eq := f l.eq }) s
def modTx (n : Fin 8) (f : LineTx → LineTx) (s : State) : State := modLine n (fun l => { l with tx := f l.tx }) s
def modFr (n : Fin 8) (f : LineFrame → LineFrame) (s : State) : State := modLine n (fun l => { l with fr := f l.fr }) s
def modCad (f : Cad → Cad) (s : State) : State := { s with cad := f s.cad }
def modRst (f : Rst → Rst) (s : State) : State := { s with rst := f s.rst }
def modTst (f : Tst → Tst) (s : State) : State := { s with tst := f s.tst }
def modCal (f : Cal → Cal) (s : State) : State := { s with cal := f s.cal }
def modChk (f : Chk → Chk) (s : State) : State := { s with chk := f s.chk }
def modTherm (f : Therm → Therm) (s : State) : State := { s with therm := f s.therm }
def modRings (f : Rings → Rings) (s : State) : State := { s with rings := f s.rings }
def modLink (k : Fin 10) (f : Link → Link) (s : State) : State := modCad (fun c => { c with links := upd c.links k f }) s
def modSlot (i : Fin 256) (f : Slot → Slot) (s : State) : State := modCad (fun c => { c with slots := upd c.slots i f }) s
def modSens (i : Fin 14) (f : Sensor → Sensor) (s : State) : State :=
  modTherm (fun t => { t with sens := upd t.sens i f }) s

/-- Every instance in turn. -/
def forFin (n : Nat) (f : Fin n → State → State) (s : State) : State := (List.finRange n).foldl (fun s i => f i s) s

/-! ### Set-up registers (R492, Table 18.14) -/

/-- The register sets of the rings (Table 9.3): ring and register index 0 to 3. -/
def ringAt (off : Nat) : Option (RingId × Nat) :=
  let r := off % 16 / 4
  if 0x2100 ≤ off ∧ off < 0x2200 then some (.cmd (Fin.ofNat 16 ((off - 0x2100) / 16)), r)
  else if 0x2200 ≤ off ∧ off < 0x2300 then some (.cpl (Fin.ofNat 16 ((off - 0x2200) / 16)), r)
  else if 0x2300 ≤ off ∧ off < 0x2340 then some (.evt (Fin.ofNat 4 ((off - 0x2300) / 16)), r)
  else if 0x2340 ≤ off ∧ off < 0x23C0 then some (.tlm (Fin.ofNat 8 ((off - 0x2340) / 16)), r)
  else none

def ringBase : RingId → Nat
  | .cmd k => 0x2100 + 16 * k.val
  | .cpl k => 0x2200 + 16 * k.val
  | .evt k => 0x2300 + 16 * k.val
  | .tlm k => 0x2340 + 16 * k.val

/-- The ring as event payloads name it (R464): type in [7:4], number in [3:0]. -/
def ringCode : RingId → Nat
  | .cmd k => k.val
  | .cpl k => 0x10 + k.val
  | .evt k => 0x20 + k.val
  | .tlm k => 0x30 + k.val

/-- Reset value of RING.xxx_k.CFG (Table 9.5). -/
def ringCfgReset : RingId → Word
  | .cmd k => BitVec.ofNat 32 ((if k.val < 4 then 0x40000000 else 0) + k.val * 0x1000)
  | .cpl k => BitVec.ofNat 32 (1 + k.val * 0x10000)
  | .evt k => BitVec.ofNat 32 (0x00100001 + k.val * 0x10000)
  | .tlm k => BitVec.ofNat 32 (0x00140001 + k.val * 0x10000)

/-- RW and RWL masks of a set-up register and its reset value; none: not a set-up register. -/
def setupSpec (off : Nat) : Option (Word × Word × Word) :=
  if off % 4 ≠ 0 then none
  else if off = 0x24 then some (0, 0x00000FFF, 0)
  else if off = 0x30 then some (0, 1, 0)
  else if off = 0x50 then some (0xFFFFFFFF, 0, 0)
  else if off = 0x1020 then some (0x8000FFFF, 0, 0)
  else if off = 0x3000 then some (0, 0x9F00FFFF, 0x1F000A0A)
  else if off = 0x4000 then some (0, 0x1F00FFFF, 0)
  else if off = 0x4014 then some (0, 0xFFFFFFFF, 0)
  else if off = 0x4018 then some (0, 0x80000FFF, 0)
  else if off = 0x401C then some (0x800000FF, 0, 8)
  else if off = 0x4024 then some (0xFF, 0, 0)
  else if off = 0x5014 ∨ off = 0x5094 then some (0x3FFC, 0, 0)
  else if off = 0x5190 then some (0x3F, 0, 0)
  else if off = 0x7080 then some (0, 0xE000FFFF, 0xE0000064)
  else if off = 0x8070 then some (0, 0x77777777, 0)
  else if off = 0x8074 then some (0, 1, 0)
  else if 0xA000 ≤ off ∧ off < 0xA010 then some (0, 0xFFFFFF0F, 0x03021204)
  else if 0x2800 ≤ off ∧ off < 0x2A00 then
    (if off % 16 = 0 then some (0xFFFFFFFC, 0, 0) else if off % 16 = 12 then some (1, 0, 1) else some (0xFFFFFFFF, 0, 0))
  else match ringAt off with
    | some (_, 0) => some (0, 0xFFFFFFC0, 0)
    | some (_, 1) => some (0, 0xFFFFFFFF, 0)
    | some (.cmd k, 2) => some (0x80000000, 0x4F00FF00, ringCfgReset (.cmd k))
    | some (r, 2) => some (0x80000000, 0x0F1F0FFF, ringCfgReset r)
    | _ => none

def setupReset (off : Nat) : Word := match setupSpec off with
  | some (_, _, r) => r
  | none => 0

/-- A set-up register's present value, and its shadow's. -/
def reg (s : State) (off : Nat) : Word := (assocGet s.setup off).getD (setupReset off)
def shadowReg (s : State) (off : Nat) : Word := (assocGet s.shadow off).getD (setupReset off)

/-- A write of a set-up register and of its shadow on the same cycle (R415); the value equal to the reset value is not
listed. -/
def regSet (off : Nat) (v : Word) (s : State) : State :=
  if v = setupReset off then { s with setup := assocDel s.setup off, shadow := assocDel s.shadow off }
  else { s with setup := assocSet s.setup off v, shadow := assocSet s.shadow off v }

def locked (s : State) : Bool := bit (reg s 0x30) 0

/-- RING.xxx_k.CFG and its fields (Table 9.5). -/
def ringCfg (s : State) (r : RingId) : Word := reg s (ringBase r + 8)
def ringEn (s : State) (r : RingId) : Bool := bit (ringCfg s r) 31
def ringPriv (s : State) (k : Fin 16) : Bool := bit (ringCfg s (.cmd k)) 30
def ringN (s : State) (r : RingId) : Nat := 2 ^ (6 + bits (ringCfg s r) 24 4)
def ringVec (s : State) (r : RingId) : Nat := bits (ringCfg s r) 16 5
def ringCpl (s : State) (k : Fin 16) : Fin 16 := Fin.ofNat 16 (bits (ringCfg s (.cmd k)) 12 4)
def ringAddr (s : State) (r : RingId) : Nat := (reg s (ringBase r)).toNat + 2 ^ 32 * (reg s (ringBase r + 4)).toNat

def getRing (s : State) : RingId → Ring
  | .cmd k => s.rings.cmd[k]
  | .cpl k => s.rings.cpl[k]
  | .evt k => s.rings.evt[k]
  | .tlm k => s.rings.tlm[k]

def modRing (r : RingId) (f : Ring → Ring) (s : State) : State :=
  match r with
  | .cmd k => modRings (fun x => { x with cmd := upd x.cmd k f }) s
  | .cpl k => modRings (fun x => { x with cpl := upd x.cpl k f }) s
  | .evt k => modRings (fun x => { x with evt := upd x.evt k f }) s
  | .tlm k => modRings (fun x => { x with tlm := upd x.tlm k f }) s

/-- Local ring mode (R309): the ATTACH strap selects the sideband. -/
def localMode (s : State) : Bool := s.straps.eff.attach

/-- The device may issue memory requests (R280); in local ring mode the rings are on the die. -/
def busOk (s : State) : Bool := localMode s || (s.pcie.link && s.pcie.bme && !s.pcie.d3hot)

/-! ### Cadence time (R237 to R241) -/

/-- Sub-ticks in one beat-phase unit are P / 2²⁴: the phase of R240, stopped at 0xFF_FFFF. -/
def phaseOf (elapsed period : Nat) : Nat := if period = 0 then 0 else min (elapsed * 2 ^ 24 / period) 0xFFFFFF

/-- Cadence time now. While acquiring, and before a standalone device's free beat, it stays at ⟨0, 0⟩ (R237). -/
def now (s : State) : CTime :=
  BitVec.ofNat 64 (s.cad.beat.toNat * 2 ^ 24 + phaseOf s.cad.elapsed s.cad.period)

/-- a is earlier than b (R239). -/
def earlier (a b : CTime) : Bool := let d := (b - a).toNat; decide (1 ≤ d) && decide (d < 2 ^ 63)

/-- The time t has come: now is not earlier than t. -/
def reached (s : State) (t : CTime) : Bool := !earlier (now s) t

/-- Sub-ticks as a length in phase units at the present period. -/
def phaseUnits (s : State) (subTicks : Nat) : Nat := subTicks * 2 ^ 24 / max s.cad.period 1

/-- The cadence time that lies so many sub-ticks after now. -/
def after (s : State) (subTicks : Nat) : CTime := now s + BitVec.ofNat 64 (phaseUnits s subTicks)

/-- Microseconds in sub-ticks of 0.8 ns and in reference ticks of 6.4 ns. -/
def usSub (us : Nat) : Nat := us * 1250
def usTicks (us : Nat) : Nat := us * 625 / 4
def oneSecond : Nat := 156250000

/-- The device reports itself in holdover or on the free beat (R71, R235, R237, R260). -/
def onFreeBeat (s : State) : Bool := s.cad.st != 2

/-! ### Power domains and mode -/

def domOn (s : State) (k : Nat) : Bool := if h : k < 50 then s.rst.on[k] else false

/-- MODE_ACTIVE and FIXED_LAT of the active banks (R41, R49). -/
def modeOf (s : State) : Nat := bits s.ports[0].act.cfg 0 3
def fixedLat (s : State) : Bool := bit s.ports[0].act.cfg 3

def portEnabled (s : State) (p : Fin 8) : Bool := bit s.ports[p].act.cfg 7

/-- Line lanes per port in a mode, the port of a line lane, and the lanes of a port (Table 2.2). -/
def portOfLine (mode : Nat) (n : Fin 8) : Option (Fin 8) :=
  if modeLineCnt mode = 0 then none else some (Fin.ofNat 8 (n.val / modeLineCnt mode))

def linesOfPort (mode : Nat) (p : Fin 8) : List (Fin 8) := (List.finRange 8).filter fun n => portOfLine mode n == some p

/-- Host lane at a position of a port bank. -/
def mapPos (b : PortBank) (k : Nat) : Fin 16 :=
  Fin.ofNat 16 (if k < 8 then bits b.mapLo (4 * k) 4 else bits b.mapHi (4 * (k - 8)) 4)

def hostCnt (b : PortBank) : Nat := if bit b.cfg 7 then bits b.cfg 20 5 else 0

def hostsOfPort (b : PortBank) : List (Fin 16) := (List.range (hostCnt b)).map (mapPos b)

/-- Port and position of a host lane in the active banks. -/
def posOfHost (s : State) (h : Fin 16) : Option (Fin 8 × Nat) :=
  (List.finRange 8).findSome? fun p =>
    ((List.range (hostCnt s.ports[p].act)).find? fun k => mapPos s.ports[p].act k == h).map fun k => (p, k)

/-- The mode uses the lane (R48). -/
def lineUsed (mode : Nat) : Bool := decide (modeLineCnt mode ≠ 0)
def hostUsed (mode : Nat) (h : Fin 16) : Bool := if mode = 4 then decide (h.val < 8) else decide (mode ≠ 7)

/-- Whether the mode uses domain k (R44, R48, R435). -/
def modeDom (mode k : Nat) : Bool :=
  if mode = 7 then false
  else if 28 ≤ k ∧ k < 44 then (mode != 4) || decide (k < 36)
  else decide (12 ≤ k) && decide (k ≤ 48)

/-- Line code of a lane: CODE of its port's active bank (Table 2.4). -/
def lineCode (s : State) (n : Fin 8) : Nat := match portOfLine (modeOf s) n with
  | some p => bits s.ports[p].act.cfg 4 2
  | none => 0

/-! ### Counters (R386 to R390) -/

/-- Adds k occurrences of a selector to every counter that counts it; wraps and sets OVF. -/
def CtrVals.add (sel k : Nat) (c : CtrVals) : CtrVals :=
  (List.finRange 8).foldl (fun (c : CtrVals) (i : Fin 8) =>
    if c.sel[i] = sel then
      let v := c.cnt[i].toNat + k
      { c with cnt := c.cnt.set i (BitVec.ofNat 48 v)
               ovf := if v < 2 ^ 48 then c.ovf else c.ovf ||| BitVec.ofNat 8 (2 ^ i.val) }
    else c) c

def CtrVals.addFix (k : Nat) (c : CtrVals) : CtrVals :=
  let v := c.fix.toNat + k
  { c with fix := BitVec.ofNat 64 v, fixOvf := c.fixOvf || decide (2 ^ 64 ≤ v) }

/-- The model's own number for the fixed counter among the selectors of Table 13.2. -/
def fixSel : Nat := 256

def CtrVals.bump (e : Nat × Nat) (c : CtrVals) : CtrVals := if e.1 = fixSel then c.addFix e.2 else c.add e.1 e.2

/-- A change of selection of the counters of a mask. -/
def CtrVals.pick (mask sel : Nat) (c : CtrVals) : CtrVals :=
  { c with sel := Vector.ofFn fun k => if mask / 2 ^ k.val % 2 = 1 then sel else c.sel[k] }

/-- The set as the present tick finds it; `more`: the block's further counters now. -/
def Ctr.begin (clk : Nat) (more : List (Nat × Bool)) (c : Ctr) : Ctr × CtrTick :=
  let new : CtrTick :=
    { clk := clk, was := c.toCtrVals, base := c.toCtrVals, more := more, moreBase := more, adds := [], sels := [], wiped := false }
  match c.tick with
  | some t => (c, if t.clk = clk then t else new)
  | none => (c, new)

/-- The values that follow from the tick's actions in the order of R391: clears, then selections, then increments. -/
def CtrTick.vals (t : CtrTick) : CtrVals :=
  t.adds.foldl (fun c e => c.bump e) (t.sels.foldl (fun c e => c.pick e.1 e.2) t.base)

/-- Increments on the present tick. -/
def Ctr.count (clk : Nat) (more : List (Nat × Bool)) (sel k : Nat) (c : Ctr) : Ctr :=
  let t := (c.begin clk more).2
  { c with toCtrVals := c.toCtrVals.bump (sel, k), tick := some { t with adds := t.adds ++ [(sel, k)] } }

/-- The tick's beginning is noted before one of the further counters counts. -/
def Ctr.note (clk : Nat) (more : List (Nat × Bool)) (c : Ctr) : Ctr := { c with tick := some (c.begin clk more).2 }

/-- A block counts while a domain of it is on and it is not under test (R388, R451). -/
def lineCounts (s : State) (n : Fin 8) : Bool := (domOn s (12 + n.val) || domOn s (20 + n.val)) && !s.lines[n].rx.inTest
def hostCounts (s : State) (n : Fin 16) : Bool := domOn s (28 + n.val) && !s.hosts[n].inTest
def portCounts (s : State) (p : Fin 8) : Bool := portEnabled s p && domOn s 48 && !s.ports[p].inTest

/-- The device block counts while the management plane's domains are on, which they are but for sleep (R388, R439). -/
def devCounts (s : State) : Bool := domOn s 1

/-- The further counters of a block, which a freeze copies as well (R386). -/
def lineMore (s : State) (n : Fin 8) : List (Nat × Bool) := [(s.lines[n].fr.innerUnc.toNat, false)]
def portMore (s : State) (p : Fin 8) : List (Nat × Bool) := s.ports[p].hist ++ [(s.ports[p].fecUnc.toNat, false)]

def countLine (n : Fin 8) (sel k : Nat) (s : State) : State :=
  if lineCounts s n then { s with lineCtr := upd s.lineCtr n (Ctr.count s.clk (lineMore s n) sel k) } else s
def countHost (n : Fin 16) (sel k : Nat) (s : State) : State :=
  if hostCounts s n then { s with hostCtr := upd s.hostCtr n (Ctr.count s.clk [] sel k) } else s
def countPort (p : Fin 8) (sel k : Nat) (s : State) : State :=
  if portCounts s p then { s with portCtr := upd s.portCtr p (Ctr.count s.clk (portMore s p) sel k) } else s
def countDev (sel k : Nat) (s : State) : State := if devCounts s then { s with pmc := Ctr.count s.clk [] sel k s.pmc } else s

/-- A further counter of a line lane, or of a port, is about to count. -/
def noteLine (n : Fin 8) (s : State) : State := { s with lineCtr := upd s.lineCtr n (Ctr.note s.clk (lineMore s n)) }
def notePort (p : Fin 8) (s : State) : State := { s with portCtr := upd s.portCtr p (Ctr.note s.clk (portMore s p)) }

/-! ### Events (R29, R388, R462 to R471) -/

/-- Class of a source: 0 info, 1 warning, 2 fault; none: not raised (Tables 17.1, 17.2 and those of the chapters). -/
def lineEvtClass (o : Nat) : Option Nat :=
  if o ∈ [0x02, 0x03, 0x09, 0x0D, 0x0F, 0x10, 0x16, 0x1A, 0x1B] then some 0
  else if o ∈ [0x07, 0x08, 0x14, 0x15] then some 2
  else if o < 0x20 then some 1 else none

def hostEvtClass (o : Nat) : Option Nat :=
  if o ∈ [1, 5, 6] then some 0 else if o ∈ [3, 4] then some 2 else if o < 8 then some 1 else none

def evtClass (src : Nat) : Option Nat :=
  if src < 0x40 then
    (if src ∈ [0x001, 0x003, 0x005, 0x010, 0x014, 0x015, 0x024, 0x031, 0x032, 0x035] then some 0
     else if src ∈ [0x000, 0x011, 0x013, 0x022, 0x030] then some 2
     else if src ∈ [0x002, 0x004, 0x012, 0x020, 0x021, 0x023, 0x025, 0x026, 0x027, 0x033, 0x034] then some 1 else none)
  else if src < 0x140 then lineEvtClass ((src - 0x40) % 0x20)
  else if src < 0x1C0 then hostEvtClass ((src - 0x140) % 8)
  else if src < 0x1D0 then
    (if src - 0x1C0 ∈ [0x01, 0x05, 0x07, 0x0C, 0x0F] then some 0 else some 1)
  else if src < 0x1E0 then none
  else if src < 0x200 then
    (if src ∈ [0x1ED, 0x1EE, 0x1F0, 0x1F8, 0x1FA, 0x1FB, 0x1FD, 0x1FF] then some 0
     else if src ∈ [0x1E4, 0x1E5, 0x1E6, 0x1F1, 0x1F2, 0x1F5, 0x1F7, 0x1FC, 0x1FE] then some 2 else some 1)
  else none

def lineSrc (n : Fin 8) (o : Nat) : Nat := 0x40 + 0x20 * n.val + o
def hostSrc (n : Fin 16) (o : Nat) : Nat := 0x140 + 8 * n.val + o

/-- PAYLOAD of one, two or three fields (R464); the caller saturates quantities. -/
def pay1 (a : Nat) : Word := BitVec.ofNat 32 a
def pay2 (a b : Nat) : Word := BitVec.ofNat 32 (a % 65536 * 65536 + b % 65536)
def pay3 (a b c : Nat) : Word := BitVec.ofNat 32 (a % 256 * 2 ^ 24 + b % 256 * 65536 + c % 65536)

def masked (s : State) (src : Nat) : Bool := s.evt.masks.getLsbD src
def routeOf (s : State) (src : Nat) : Nat := bits s.evt.routes (2 * src) 2

/-- The last n elements of a list. -/
def lastN (n : Nat) (l : List α) : List α := (l.reverse.take n).reverse

/-- One log entry; the log keeps the last 1,024 (R471). -/
def logEvent (src : Nat) (m : Bool) (p : Word) (s : State) : State :=
  let e : LogEntry := { seq := s.evt.logSeq, src := src, masked := m, payload := p, time := now s }
  { s with evt := { s.evt with log := lastN 1024 (s.evt.log ++ [e]), logSeq := s.evt.logSeq + 1 } }

/-- The event selectors that count the source (Table 13.2). -/
def countSource (src : Nat) (s : State) : State :=
  if src < 0x40 then countDev src 1 s
  else if src < 0x140 then countLine (Fin.ofNat 8 ((src - 0x40) / 0x20)) ((src - 0x40) % 0x20) 1 s
  else if src < 0x1C0 then countHost (Fin.ofNat 16 ((src - 0x140) / 8)) ((src - 0x140) % 8) 1 s
  else countDev (src - 0x180) 1 s

/-- An event joins a share of a SUMMARY (Table 8.9). -/
def Summary.note (src cls idx : Nat) (t : CTime) (o : Summary) : Summary :=
    let o := if cls = 0 then { o with info := 1 } else if cls = 1 then { o with warn := 1 } else { o with fault := 1 }
    let first := cls != 0 && (!o.firstValid || (cls == 2 && !o.firstFault))
    if first then { o with firstValid := true, firstFault := cls == 2, firstIdx := idx, firstSrc := src
                           firstTime := BitVec.ofNat 32 t.toNat } else o

/-- The device's own share of the next SUMMARY, and of the chanter's own summary. -/
def noteOwn (src cls : Nat) (s : State) : State :=
  let t := now s
  modCad (fun c => { c with own := { up := c.own.up.note src cls c.idx t, root := c.own.root.note src cls c.idx t } }) s

/-- Raises an event: counted, noted for the summary, latched with its first occurrence's time and payload or counted into its
latch, and logged (R29, R465, R471). -/
def raise (src : Nat) (p : Word) (s : State) : State :=
  match evtClass src with
  | none => s
  | some cls =>
    let s := noteOwn src cls (countSource src s)
    if masked s src then
      let due := match assocGet s.evt.logRate src with
        | some t => decide (t + oneSecond ≤ s.clk)
        | none => true
      if due then
        let s := logEvent src true p s
        { s with evt := { s.evt with logRate := assocSet s.evt.logRate src s.clk } }
      else s
    else if s.evt.latches.any (fun l => l.src == src) then
      { s with evt := { s.evt with latches := s.evt.latches.map fun l =>
          if l.src = src then { l with count := satU 16 (l.count + 1) } else l } }
    else
      let l : Latch := { src := src, count := 1, payload := p, time := now s, route := routeOf s src }
      logEvent src false p { s with evt := { s.evt with latches := s.evt.latches ++ [l] } }

/-- Raises a source limited to once per second per instance. -/
def raiseLimited (src inst : Nat) (p : Word) (s : State) : State :=
  let due := match s.evt.rate.find? (fun e => e.1 == src && e.2.1 == inst) with
    | some e => decide (e.2.2 + oneSecond ≤ s.clk)
    | none => true
  if due then
    let s := { s with evt := { s.evt with
      rate := (src, inst, s.clk) :: s.evt.rate.filter fun e => !(e.1 == src && e.2.1 == inst) } }
    raise src p s
  else s

/-! ### Retained telemetry (R301, R303, R395, R396) -/

/-- The telemetry ring of a record type (Table 13.11); 0 for a type without a route. -/
def routeOfType (s : State) (typ : Nat) : Fin 8 :=
  if typ = 0 ∨ typ > 8 then 0 else Fin.ofNat 8 (bits (reg s 0x8070) (4 * (typ - 1)) 3)

/-- Units of the telemetry share, 3 MiB of 64-byte units (R395). -/
def tlmShare : Nat := 49152

def tlmUnits (l : List TlmRec) : Nat := l.foldl (fun a r => a + r.units) 0

/-- How many of the oldest records go so that the rest fits. -/
def tlmExcess : List TlmRec → Nat
  | [] => 0
  | r :: t => if tlmUnits (r :: t) ≤ tlmShare then 0 else 1 + tlmExcess t

/-- Discards the oldest records while the share is over-full, and says so (R303). -/
def tlmTrim (s : State) : State :=
  let k := tlmExcess s.tlm.recs
  if k = 0 then s
  else
    let ring := match s.tlm.recs.head? with
      | some r => match r.ring with | some x => x.val | none => (routeOfType s r.typ).val
      | none => 0
    raise 0x027 (pay2 ring (satU 16 k)) { s with tlm := { s.tlm with recs := s.tlm.recs.drop k } }

/-- Forms a record: it takes the next RECORD_ID of its routed ring when that ring is enabled, and waits otherwise. With PD_10
off it is discarded (R395). The second component is its RECORD_ID. -/
def tlmForm (typ units : Nat) (more : Bool) (frag : Nat) (origin : BitVec 16) (time : CTime) (body : List Byte) (s : State) :
    State × Nat :=
  let r := routeOfType s typ
  if !domOn s 10 then (raise 0x027 (pay2 r.val 1) s, 0)
  else
    let en := ringEn s (.tlm r)
    let id := (getRing s (.tlm r)).formed
    let x : TlmRec := { typ := typ, units := units, more := more, frag := frag, origin := origin, time := time, body := body
                        ring := if en then some r else none, id := if en then id else 0, refetch := false, due := true }
    let s := { s with tlm := { s.tlm with recs := s.tlm.recs ++ [x] } }
    let s := if en then modRing (.tlm r) (fun g => { g with formed := g.formed + 1 }) s else s
    (tlmTrim s, id)

/-! ### Completion records (R292 to R294, R297) -/

/-- The instant's stamp that a final record carries. -/
def outcome (ring : Fin 16) (seq : Word) (st : Byte) (fin : Bool) (res : Nat) (s : State) : State :=
  let o : CmdOutcome := { ring := ring, seq := seq, status := st, final := fin, result := BitVec.ofNat 32 res }
  let mine := (s.rings.outcomes.filter fun x => x.ring == ring && x.seq != seq).take 255
  let others := s.rings.outcomes.filter fun x => x.ring != ring
  modRings (fun r => { r with outcomes := o :: mine ++ others }) s

/-- A final record that finds its completion ring full. -/
def cplBlocked (s : State) (r : CplRec) : Bool :=
  let g := getRing s (.cpl r.cpl)
  r.final && ringEn s (.cpl r.cpl) && decide (ringN s (.cpl r.cpl) ≤ (g.prod - g.cons).toNat)

/-- Of the final records that find their ring full, drops the oldest beyond 1,024 (R297). -/
def cplLimit (s : State) : State :=
  if (s.rings.wait.filter (cplBlocked s)).length ≤ 1024 then s
  else match s.rings.wait.find? (cplBlocked s) with
    | none => s
    | some r =>
      let s := modRings (fun x => { x with wait := x.wait.erase r, opened := x.opened.filter fun o => o != (r.ring, r.seq) }) s
      raise 0x023 (pay2 r.ring.val r.seq.toNat) s

/-- Forms a completion record; none for a command that a control-plane reset has left behind (R20). With QUIET, a final record with
status OK is not written (R293). -/
def answer (c : Cmd) (st : Byte) (fin : Bool) (time : CTime) (res : Nat) (s : State) : State :=
  if c.era ≠ s.rings.era then s else
  let s := outcome c.d.ring c.d.seq st fin (res % 2 ^ 32) s
  if fin && st == 0 && bit c.d.flags 3 then
    modRings (fun r => { r with opened := r.opened.filter fun o => o != (c.d.ring, c.d.seq) }) s
  else
    let rec_ : CplRec := { cpl := ringCpl s c.d.ring, ring := c.d.ring, op := c.op, seq := c.d.seq, tag := c.d.tag
                           status := st, final := fin, time := time, result := BitVec.ofNat 64 res }
    cplLimit (modRings (fun r => { r with wait := r.wait ++ [rec_] }) s)

/-- The time of a final record: its own stamp, or that at which a deferred command finally acted (R308, Table 9.10). -/
def finalTime (c : Cmd) (s : State) : CTime := c.acted.getD (now s)

/-- Final answers: OK with a result, or a status. -/
def done (c : Cmd) (res : Nat) (s : State) : State := answer c 0x00 true (finalTime c s) res s
def refuse (c : Cmd) (st : Byte) (s : State) : State := answer c st true (finalTime c s) 0 s

/-- A request of the PV8450 to the host failed: the bit of its completion status in the uncorrectable-error status of the base
specification (log entry 77): unsupported request, completer abort, or completion timeout. -/
def aerNote (status : Nat) (s : State) : State :=
  let i := if status = 1 then 20 else if status = 4 then 15 else 14
  { s with pcie := { s.pcie with aer := s.pcie.aer ||| BitVec.ofNat 32 (2 ^ i) } }

/-- Status codes of Table 9.12. -/
abbrev stDeferred : Byte := 0x01
abbrev stCheckFail : Byte := 0x10
abbrev stBadOpcode : Byte := 0x11
abbrev stBadTarget : Byte := 0x12
abbrev stBadParam : Byte := 0x13
abbrev stInTest : Byte := 0x20
abbrev stMaint : Byte := 0x21
abbrev stPoweredOff : Byte := 0x22
abbrev stSchedFull : Byte := 0x30
abbrev stPassed : Byte := 0x31
abbrev stInternal : Byte := 0x40

end Sys2Proof.Machine
end

