-- ==== Sys2Proof/Machine/Operands.lean ====
section
/-! DEFINITION. Operand forms: target codes (Table 8.8), parameter bytes of a descriptor, and which targets meet or cover each
other (R265, R331). -/

namespace Sys2Proof.Machine

/-- A target. `none` stands for instance 0xFF; sensors and the reed have no code of Table 8.8 (R331). -/
inductive Tgt where
  | device
  | line (n : Option (Fin 8))
  | host (n : Option (Fin 16))
  | port (p : Option (Fin 8))
  | mon (k : Option (Fin 2))
  | sensor (i : Fin 14)
  | reed
  deriving DecidableEq, Repr

/-- An instance number below n, or 0xFF for every instance. -/
def tgtInst (n : Nat) (i : Nat) : Option (Option (Fin n)) :=
  if h : i < n then some (some ⟨i, h⟩) else if i = 0xFF then some none else none

/-- A target code of Table 8.8; none: invalid. -/
def Tgt.ofCode (w : BitVec 16) : Option Tgt :=
  if bits w 8 4 ≠ 0 then none
  else match bits w 12 4 with
    | 0 => some .device
    | 1 => (tgtInst 8 (bits w 0 8)).map .line
    | 2 => (tgtInst 16 (bits w 0 8)).map .host
    | 3 => (tgtInst 8 (bits w 0 8)).map .port
    | 4 => (tgtInst 2 (bits w 0 8)).map .mon
    | _ => none

def instCode : Option (Fin n) → Nat
  | some i => i.val
  | none => 0xFF

/-- The code of a target; 0x5000 + s and 0x6000 are the model's own codes for sensors and the reed. -/
def Tgt.code : Tgt → BitVec 16
  | .device => 0
  | .line n => BitVec.ofNat 16 (0x1000 + instCode n)
  | .host n => BitVec.ofNat 16 (0x2000 + instCode n)
  | .port n => BitVec.ofNat 16 (0x3000 + instCode n)
  | .mon n => BitVec.ofNat 16 (0x4000 + instCode n)
  | .sensor i => BitVec.ofNat 16 (0x5000 + i.val)
  | .reed => 0x6000

/-- The target that an arbiter entry stands for. -/
def Tgt.ofArb (w : BitVec 16) : Tgt :=
  match bits w 12 4 with
  | 5 => .sensor (Fin.ofNat 14 (bits w 0 8))
  | 6 => .reed
  | _ => (Tgt.ofCode w).getD .device

/-- Parameter bytes of a command. -/
def Cmd.p (c : Cmd) (i : Nat) : Nat := byteAt c.d.param i
def Cmd.le (c : Cmd) (i k : Nat) : Nat := leAt c.d.param i k
def Cmd.clear (c : Cmd) (lo hi : Nat) : Bool := allZero c.d.param lo hi
def Cmd.timed (c : Cmd) : Bool := bit c.d.flags 1
def Cmd.fence (c : Cmd) : Bool := bit c.d.flags 2
def Cmd.tgt (c : Cmd) : Option Tgt := Tgt.ofCode c.d.target

/-- Port of a host lane in the active banks. -/
def portOfHost (s : State) (h : Fin 16) : Option (Fin 8) := (posOfHost s h).map (·.1)

def optMeets [BEq α] (a b : Option α) : Bool := a.isNone || b.isNone || a == b

/-- Two targets are the same target under R331. -/
def Tgt.meets (s : State) : Tgt → Tgt → Bool
  | .device, _ => true
  | _, .device => true
  | .line a, .line b => optMeets a b
  | .host a, .host b => optMeets a b
  | .port a, .port b => optMeets a b
  | .mon a, .mon b => optMeets a b
  | .sensor a, .sensor b => a == b
  | .reed, .reed => true
  | .port p, .line n => match n with
    | none => true
    | some n => match portOfLine (modeOf s) n with | some q => optMeets p (some q) | none => false
  | .line n, .port p => match n with
    | none => true
    | some n => match portOfLine (modeOf s) n with | some q => optMeets p (some q) | none => false
  | .port p, .host n => match n with
    | none => true
    | some n => match portOfHost s n with | some q => optMeets p (some q) | none => false
  | .host n, .port p => match n with
    | none => true
    | some n => match portOfHost s n with | some q => optMeets p (some q) | none => false
  | _, _ => false

/-- A window's TARGET covers a target (R265). -/
def Tgt.covers (s : State) : Tgt → Tgt → Bool
  | .device, _ => true
  | .line a, .line b => a.isNone || (b.isSome && a == b)
  | .host a, .host b => a.isNone || (b.isSome && a == b)
  | .port a, .port b => a.isNone || (b.isSome && a == b)
  | .mon a, .mon b => a.isNone || (b.isSome && a == b)
  | .port p, .line (some n) => match portOfLine (modeOf s) n with | some q => p.isNone || p == some q | none => false
  | .port p, .host (some n) => match portOfHost s n with | some q => p.isNone || p == some q | none => false
  | .port p, .line none => (List.finRange 8).all fun n => (portOfLine (modeOf s) n).isSome && (p.isNone || p == portOfLine (modeOf s) n)
  | .port p, .host none => (List.finRange 16).all fun n => (portOfHost s n).isSome && (p.isNone || p == portOfHost s n)
  | _, _ => false

/-! ### The maintenance arbiter (R330 to R333) -/

/-- Table 10.4: 0 compatible, 1 exclusive on the same target, 2 exclusive device-wide. Classes 1 to 8. -/
def exclusion (a b : Nat) : Nat :=
  (([[2, 1, 2, 0, 0, 2, 2, 0],
     [1, 1, 1, 0, 0, 0, 0, 0],
     [2, 1, 1, 1, 0, 2, 1, 1],
     [0, 0, 1, 1, 0, 0, 0, 1],
     [0, 0, 0, 0, 0, 0, 0, 0],
     [2, 0, 2, 0, 0, 2, 2, 0],
     [2, 0, 1, 0, 0, 2, 2, 0],
     [0, 0, 1, 1, 0, 0, 0, 1]] : List (List Nat)).getD (a - 1) []).getD (b - 1) 0

/-- A bank swap and a mute entry or exit take effect on one tick together (R138). -/
def arbTogether : ArbKind → ArbKind → Bool
  | .swap, .mute => true
  | .mute, .swap => true
  | _, _ => false

/-- The admitted activity that excludes an activity of this kind and class on this target. -/
def arbHolderOf (k : ArbKind) (s : State) (cls : Nat) (t : Tgt) : Option Activity :=
  s.arb.admitted.find? fun a =>
    let e := exclusion cls a.cls
    !arbTogether k a.kind && (e == 2 || (e == 1 && Tgt.meets s t (Tgt.ofArb a.target)))

def arbHolder (s : State) (cls : Nat) (t : Tgt) : Option Activity := arbHolderOf .plain s cls t

/-- A refusal is counted and reported (R333). -/
def arbRefuse (cls holder : Nat) (s : State) : State :=
  let s := { s with arb := { s.arb with conflict := satU 16 (s.arb.conflict + 1) } }
  raiseLimited 0x035 0 (pay2 cls holder) (countDev 0x83 1 s)

/-- Admits an activity and holds it until its end; those of classes M4 and M5 end with the tick (R330). -/
def arbAdmitOf (k : ArbKind) (cls : Nat) (t : Tgt) (s : State) : State :=
  { s with arb := { s.arb with admitted := s.arb.admitted ++ [{ cls := cls, target := t.code, kind := k }] } }

def arbAdmit (cls : Nat) (t : Tgt) (s : State) : State := arbAdmitOf .plain cls t s

/-- A reference tick ends, and with it the activities of classes M4 and M5. -/
def arbTick (s : State) : State :=
  { s with arb := { s.arb with admitted := s.arb.admitted.filter fun a => a.cls != 4 && a.cls != 5 } }

/-- Presents an activity: admitted, or refused. -/
def arbPresentOf (k : ArbKind) (cls : Nat) (t : Tgt) (s : State) : State × Bool :=
  match arbHolderOf k s cls t with
  | some a => (arbRefuse cls a.cls s, false)
  | none => (arbAdmitOf k cls t s, true)

def arbPresent (cls : Nat) (t : Tgt) (s : State) : State × Bool := arbPresentOf .plain cls t s

/-- The device belongs to no domain (R235). -/
def standalone (s : State) : Bool := s.cad.role == 0

/-- Cadence time runs: no occurrence executes before (R237). -/
def cadRuns (s : State) : Bool := if standalone s then s.cad.started else s.cad.st != 1

/-- The armed occurrence of a slot has come. -/
def slotDue (i : Fin 256) (s : State) : Bool :=
  s.cad.slots[i].valid && s.cad.slots[i].openEnd.isNone && s.cad.slots[i].deferral.isNone && cadRuns s &&
  reached s s.cad.slots[i].armed

/-- Class of a scheduler action (Table 8.7); 0: none. -/
def actionClass : Nat → Nat
  | 0x01 => 4
  | 0x02 => 5
  | 0x03 => 2
  | 0x04 => 3
  | 0x06 => 8
  | 0x07 => 6
  | _ => 0

/-- Firmware executes the action (R17): CAPTURE, SELFTEST, TRAIN, PATCH, RESET. -/
def actionFirmware (a : Nat) : Bool := a ∈ [0x03, 0x04, 0x06, 0x07, 0x08]

/-- The class of a point action that is due on this tick, not yet presented, and excludes an activity (R333 rule 2): of conflicting
activities the lower class wins; `strict`: another slot's action of the same class does not go first. -/
def slotClaim (s : State) (cls : Nat) (strict : Bool) (t : Tgt) : Option Nat :=
  (List.finRange 256).findSome? fun i =>
    let x := s.cad.slots[i]
    let c := actionClass x.action
    let e := exclusion cls c
    if slotDue i s && c != 0 && (!actionFirmware x.action || s.rst.mgmtRun) && (if strict then decide (c < cls) else decide (c ≤ cls)) &&
        (e == 2 || (e == 1 && Tgt.meets s t ((Tgt.ofCode x.target).getD .device))) then some c else none

/-- Presents an activity that is no slot's: slot actions of the same tick go first (R333 rule 2). -/
def arbOffer (k : ArbKind) (cls : Nat) (t : Tgt) (s : State) : State × Bool :=
  match slotClaim s cls false t with
  | some c => (arbRefuse cls c s, false)
  | none => arbPresentOf k cls t s

/-- The end of an activity. -/
def arbEnd (cls : Nat) (t : Tgt) (s : State) : State :=
  { s with arb := { s.arb with admitted := s.arb.admitted.erase { cls := cls, target := t.code } } }

/-! ### Windows (R265) -/

/-- End of the latest open window that admits a class and covers a target. -/
def windowEnd (s : State) (cls : Nat) (t : Tgt) : Option CTime :=
  s.cad.slots.toList.foldl (fun best x =>
    match x.openEnd with
    | some e =>
      if x.valid && x.action == 0 && bit x.classes (cls - 1) && Tgt.covers s ((Tgt.ofCode x.target).getD .device) t then
        (match best with | some b => if earlier b e then some e else some b | none => some e)
      else best
    | none => best) none

/-- End of the latest open window that admits a class, whatever its TARGET (R320: reed self-check, sensors, MON_B). -/
def windowAny (s : State) (cls : Nat) : Option CTime :=
  s.cad.slots.toList.foldl (fun best x =>
    match x.openEnd with
    | some e =>
      if x.valid && x.action == 0 && bit x.classes (cls - 1) then
        (match best with | some b => if earlier b e then some e else some b | none => some e)
      else best
    | none => best) none

/-- An activity of so many µs fits before the end of a window. -/
def fits (s : State) (e : Option CTime) (us : Nat) : Bool := match e with
  | some e => !earlier e (after s (usSub us))
  | none => false

end Sys2Proof.Machine
end

