-- ==== Sys2Proof/Machine/Flags.lean ====
section
/-! DEFINITION. Status computed from the state: plane status (Table 1.4), pins EVENT_N and FAULT_N (R31, R311, R474), ring
status, SETTLING, and the conditions on targets of R291 step 5. -/

namespace Sys2Proof.Machine

def anyEvtRing (s : State) : Bool := (List.finRange 4).any fun k => ringEn s (.evt k)

/-- AUTONOMOUS (Table 1.4): no event ring set up, or PCI Express attachment selected and the link down. -/
def autonomous (s : State) : Bool := !anyEvtRing s || (!localMode s && !s.pcie.link)

def dataUp (s : State) : Bool := (List.finRange 8).any fun n => s.lines[n].rx.st == .up

/-- GLB.PLANE_STS (Table 1.4). -/
def planeSts (s : State) : Word :=
  pack [(b2n (fixedLat s), 11, 1), (modeOf s, 8, 3), (b2n s.pcie.refOk, 5, 1), (b2n s.hkoOk, 4, 1), (b2n s.refOk, 3, 1),
        (b2n (autonomous s), 2, 1), (b2n s.rst.mgmtRun, 1, 1), (b2n (dataUp s), 0, 1)]

/-- A cold exit stands at a step up to the one given: 1 trim load, 2 PLL lock, 3 self-test, 4 boot. -/
def ExitStep.num : ExitStep → Nat
  | .trim _ => 1
  | .pll => 2
  | .selfTest _ => 3
  | .boot => 4

def coldAt (s : State) (upTo : Nat) : Bool := s.rst.exits.any fun x => x.cold && decide (x.step.num ≤ upTo)

/-- A cold reset or POR is asserted. -/
def coldHeld (s : State) : Bool := s.rst.episodes.any fun e => decide (3 ≤ e.reach.level)

/-- In local ring mode: some enabled completion, event or telemetry ring holds entries not consumed (R311). -/
def ringsWaiting (s : State) : Bool :=
  ((List.finRange 16).any fun k => ringEn s (.cpl k) && s.rings.cpl[k].prod != s.rings.cpl[k].cons) ||
  ((List.finRange 4).any fun k => ringEn s (.evt k) && s.rings.evt[k].prod != s.rings.evt[k].cons) ||
  ((List.finRange 8).any fun k => ringEn s (.tlm k) && s.rings.tlm[k].prod != s.rings.tlm[k].cons)

/-- EVENT_N is driven low (R31, R311, R474). -/
def eventPin (s : State) : Bool :=
  !s.rst.vioLow && !coldAt s 2 && !coldHeld s &&
  ((autonomous s && s.evt.latches.any fun l => !masked s l.src) || (localMode s && ringsWaiting s))

/-- FAULT_N is driven low (R31, R474). -/
def faultPin (s : State) : Bool :=
  !s.rst.vioLow && (s.therm.tripped || (!coldAt s 1 && s.evt.latches.any fun l => evtClass l.src == some 2))

/-- PHASE of entry k in a ring of n entries (R284). -/
def phaseBit (k n : Nat) : Bool := decide (k / n % 2 = 0)

/-- A ring without room for a further entry: STALL (Table 9.6). -/
def ringFull (s : State) (r : RingId) : Bool :=
  match r with
  | .cmd k => let c := RingId.cpl (ringCpl s k); decide (ringN s c ≤ ((getRing s c).prod - (getRing s c).cons).toNat)
  | r => decide (ringN s r ≤ ((getRing s r).prod - (getRing s r).cons).toNat)

/-- The device's index of a ring, and the failed checks of a command ring (Table 9.6). -/
def ringIdx (s : State) : RingId → Nat
  | .cmd k => (getRing s (.cmd k)).cons.toNat
  | r => (getRing s r).prod.toNat

def ringFails (s : State) : RingId → Nat
  | .cmd k => (getRing s (.cmd k)).chkFail
  | _ => 0

/-- RING.xxx_k.STS (Table 9.6). -/
def ringSts (s : State) (r : RingId) : Word :=
  let g := getRing s r
  pack [(b2n g.err, 31, 1), (b2n (ringFull s r), 30, 1), (b2n (phaseBit (ringIdx s r) (ringN s r)), 29, 1),
        (ringFails s r, 16, 8), (ringIdx s r, 0, 16)]

/-! ### Targets: presence, power, test (R291 step 5, R295) -/

/-- A port that the active or the shadow bank uses (R295). -/
def portKnown (s : State) (p : Fin 8) : Bool := portEnabled s p || bit s.ports[p].shd.cfg 7

/-- The block of a target is under an on-demand test (R451). -/
def underTest (s : State) : Tgt → Bool
  | .line (some n) => s.lines[n].rx.inTest
  | .line none => (List.finRange 8).any fun n => s.lines[n].rx.inTest
  | .host (some n) => s.hosts[n].inTest
  | .host none => (List.finRange 16).any fun n => s.hosts[n].inTest
  | .port (some p) => s.ports[p].inTest
  | .port none => (List.finRange 8).any fun p => s.ports[p].inTest
  | .mon (some k) => s.mon[k].inTest
  | .mon none => s.mon[0].inTest || s.mon[1].inTest
  | _ => false

/-- Firmware executes the opcode (Table 9.13, Exec). -/
def opFirmware (op : Nat) : Bool :=
  op ∈ [0x31, 0x34, 0x40, 0x41, 0x53, 0x61, 0x70, 0x72, 0x78, 0x79, 0x80, 0x81, 0x91, 0xA0, 0xA1, 0xA2, 0xA3]

/-- The opcodes of Table 9.13. -/
def opKnown (op : Nat) : Bool :=
  op ∈ [0x00, 0x01, 0x02, 0x10, 0x11, 0x12, 0x13, 0x14, 0x15, 0x20, 0x21, 0x22, 0x23, 0x24, 0x30, 0x31, 0x32, 0x33, 0x34,
        0x40, 0x41, 0x50, 0x51, 0x52, 0x53, 0x60, 0x61, 0x70, 0x71, 0x72, 0x78, 0x79, 0x80, 0x81, 0x90, 0x91, 0xA0, 0xA1,
        0xA2, 0xA3]

/-- Allowed on an unprivileged ring (R306); QUERY_CMD only for its own ring. -/
def opUnpriv (op : Nat) : Bool := op ∈ [0x00, 0x01, 0x12, 0x32, 0x33, 0x50, 0x53]

/-- The scheduler action that TIMED installs (Table 9.13, Timed). RESET only at level 2. -/
def opTimed (c : Cmd) : Option Nat :=
  match c.op with
  | 0x14 => some 0x01
  | 0x31 => some 0x06
  | 0x41 => if c.p 0 = 2 then some 0x08 else none
  | 0x50 => some 0x02
  | 0x53 => some 0x03
  | 0x71 => some 0x05
  | 0x91 => some 0x04
  | 0xA1 => some 0x07
  | _ => none

end Sys2Proof.Machine
end

