-- ==== Sys2Proof/Machine/Rings.lean ====
section
/-! DEFINITION. Rings (chapter 9): enabling and disabling, doorbells, the writing of event and telemetry records, vectors. -/

namespace Sys2Proof.Machine

/-- Ring engines and doorbell logic are under test (R449). -/
def inG0 (s : State) : Bool := s.rst.exits.any fun x => x.cold && x.step == .selfTest 0

/-- Bytes of one entry or unit (Table 9.2). -/
def entrySize : RingId → Nat
  | .cmd _ => 64
  | .cpl _ => 32
  | .evt _ => 16
  | .tlm _ => 64

/-- What makes a ring's set-up invalid: 0 base, 1 size, 2 overlap with local memory end (R286, R309, Table 9.15). -/
def ringFault (s : State) (r : RingId) : Option Nat :=
  let lo := reg s (ringBase r)
  let hi := reg s (ringBase r + 4)
  if bits (ringCfg s r) 24 4 > 10 then some 1
  else if localMode s then
    (if hi ≠ 0 then some 0 else if 65536 < lo.toNat + ringN s r * entrySize r then some 2 else none)
  else if bits lo 6 6 ≠ 0 then some 0 else none

/-- Gives every retained record without a ring the next RECORD_ID of the ring that its type's route names, where that ring is
enabled (R303, R396). -/
def tlmOffer (s : State) : State :=
  s.tlm.recs.foldl (fun (s : State) (x : TlmRec) =>
    let r := routeOfType s x.typ
    if x.ring.isNone && ringEn s (.tlm r) then
      let y := { x with ring := some r, id := (getRing s (.tlm r)).formed, due := true }
      modRing (.tlm r) (fun g => { g with formed := g.formed + 1 })
        { s with tlm := { s.tlm with recs := s.tlm.recs ++ [y] } }
    else { s with tlm := { s.tlm with recs := s.tlm.recs ++ [x] } })
    { s with tlm := { s.tlm with recs := [] } }

/-- Converter k's buffer is being drained no longer: the record formed from its oldest entries, which still stand in it, is withdrawn
(R360). -/
def drainStop (k : Fin 2) (s : State) : State :=
  let m := s.mon[k]
  let mine (x : TlmRec) : Bool := x.typ == 5 && x.origin == Tgt.code (.mon (some k)) && x.due && !x.wrote
  let s := if m.drainN = 0 then s else { s with tlm := { s.tlm with recs := s.tlm.recs.filter fun x => !mine x } }
  modMon k (fun m => { m with drain := false, drainN := 0 }) s

/-- Both buffers that hold entries are drained. -/
def drainAll (s : State) : State := { s with mon := s.mon.map fun m => { m with drain := !m.buf.isEmpty } }

/-- CFG.EN set: counts to 0 and set-up validated (R284, R286). A telemetry ring takes up what is retained for it, and a ring
that takes monitor records starts the drain of the on-chip buffers (R303, R360). -/
def ringStart (r : RingId) (s : State) : State :=
  match ringFault s r with
  | some f => raise 0x021 (pay2 (ringCode r) f) s
  | none =>
    let s := regSet (ringBase r + 8) (ringCfg s r ||| 0x80000000) s
    let s := modRing r (fun g => { g with prod := 0, cons := 0, db := 0, err := false, unsig := 0, formed := 0, written := 0, acked := 0 }) s
    match r with
    | .tlm k =>
      let s := tlmOffer s
      if routeOfType s 5 = k && domOn s 10 then drainAll s else s
    | _ => s

/-- CFG.EN cleared: the ring stops; descriptors not fetched are discarded; unacknowledged telemetry is offered again (R286,
R303). -/
def ringStop (r : RingId) (s : State) : State :=
  let s := regSet (ringBase r + 8) (ringCfg s r &&& 0x7FFFFFFF) s
  match r with
  | .cmd k => modRing (.cmd k) (fun g => { g with prod := g.cons }) s
  | .tlm k =>
    let s := if routeOfType s 5 = k then drainStop 1 (drainStop 0 s) else s
    tlmOffer { s with tlm := { s.tlm with recs := (s.tlm.recs.map fun (x : TlmRec) =>
      if x.ring = some k then { x with ring := none, due := true, refetch := true } else x) } }
  | _ => s

/-- The set-up-lock violation event, counted in VIOL (R9, R489). -/
def violation (off : Nat) (s : State) : State :=
  raise 0x025 (pay1 off) { s with viol := satU 8 (s.viol + 1) }

/-- A write under the access codes of a set-up register (R9): RW fields take it; RWL fields take it unless the lock is set, and
a locked write that would change one raises the violation event once. -/
def writeSetup (off : Nat) (v : Word) (s : State) : State :=
  match setupSpec off with
  | none => s
  | some (rw, rwl, _) =>
    let old := reg s off
    if locked s && ((old ^^^ v) &&& rwl) != 0 then
      violation off (regSet off ((old &&& ~~~rw) ||| (v &&& rw)) s)
    else
      regSet off ((old &&& ~~~(rw ||| rwl)) ||| (v &&& (rw ||| rwl))) s

/-- A write of RING.xxx_k.CFG (R286): while EN is 1 only EN is taken; otherwise the fields, then EN. In G0 a write of EN = 1
takes effect at its end (R449). -/
def writeRingCfg (r : RingId) (v : Word) (s : State) : State :=
  if ringEn s r then (if bit v 31 then s else ringStop r s)
  else
    let s := writeSetup (ringBase r + 8) (v &&& 0x7FFFFFFF) s
    if !bit v 31 then modRings (fun x => { x with enWait := x.enWait.filter fun y => y != r }) s
    else if inG0 s then modRings (fun x => { x with enWait := (x.enWait.filter fun y => y != r) ++ [r] }) s
    else ringStart r s

/-! ### Doorbells (R288, R289) -/

/-- Doorbell writes reach the ring engines: not while the control plane is in reset, the link down or memory space disabled,
nor in G0 (R280, R289, R449). -/
def doorbellOk (s : State) : Bool :=
  !s.rst.ctrlReset && !inG0 s && (localMode s || (s.pcie.link && s.pcie.mse))

def doorbellBad (r : RingId) (v : Word) (s : State) : State := raise 0x020 (pay2 (ringCode r) v.toNat) s

/-- A producer count for a command ring: from 0 to N ahead of the fetch count. -/
def ringCmdDb (k : Fin 16) (v : Word) (s : State) : State :=
  let g := s.rings.cmd[k]
  if !doorbellOk s then s
  else if ringEn s (.cmd k) && decide ((v - g.cons).toNat ≤ ringN s (.cmd k)) then
    countDev 0x89 1 (modRing (.cmd k) (fun g => { g with prod := v, db := v }) s)
  else doorbellBad (.cmd k) v s

/-- A consumer count: from 0 to N ahead of the last one, and not past the producer count. -/
def ringConsDb (r : RingId) (v : Word) (s : State) : State :=
  let g := getRing s r
  if !doorbellOk s then s
  else if ringEn s r && decide ((v - g.cons).toNat ≤ ringN s r) && decide ((v - g.cons).toNat ≤ (g.prod - g.cons).toNat) then
    countDev 0x89 1 (modRing r (fun g => { g with cons := v }) s)
  else doorbellBad r v s

/-- What an acknowledgement count, taken modulo 2³², says of a ring: so many records acknowledged. -/
def ackCount (g : Ring) (v : Word) : Nat := g.acked + (v - BitVec.ofNat 32 g.acked).toNat

/-- An acknowledgement count: not backward, not past the records written; it frees every record below it (R303). -/
def ringTlmAck (k : Fin 8) (v : Word) (s : State) : State :=
  let g := s.rings.tlm[k]
  let n := ackCount g v
  if !doorbellOk s then s
  else if ringEn s (.tlm k) && decide (n ≤ g.written) then
    let s := modRing (.tlm k) (fun g => { g with acked := n }) s
    countDev 0x89 1 { s with tlm := { s.tlm with recs := (s.tlm.recs.filter fun (x : TlmRec) =>
      !(x.ring == some k && decide (x.id < n))) } }
  else doorbellBad (.tlm k) v s

/-- The doorbell at a BAR2 offset (Table 9.8): ring, and whether it is a TLM_ACK. -/
def doorbellAt (off : Nat) : Option (RingId × Bool) :=
  let p := off / 0x1000
  let o := off % 0x1000
  if off % 4 ≠ 0 ∨ 4 ≤ p then none
  else if o < 0x100 ∧ o % 0x40 = 0 then some (.cmd (Fin.ofNat 16 (4 * p + o / 0x40)), false)
  else if o < 0x100 ∧ o % 0x40 = 0x20 then some (.cpl (Fin.ofNat 16 (4 * p + o / 0x40)), false)
  else if p = 0 ∧ 0x800 ≤ o ∧ o < 0x840 ∧ o % 0x10 = 0 then some (.evt (Fin.ofNat 4 ((o - 0x800) / 16)), false)
  else if p = 0 ∧ 0x900 ≤ o ∧ o < 0x980 ∧ o % 0x10 = 0 then some (.tlm (Fin.ofNat 8 ((o - 0x900) / 16)), false)
  else if p = 0 ∧ 0x900 ≤ o ∧ o < 0x980 ∧ o % 0x10 = 4 then some (.tlm (Fin.ofNat 8 ((o - 0x900) / 16)), true)
  else none

def doorbellWrite (off : Nat) (v : Word) (s : State) : State :=
  match doorbellAt off with
  | some (.cmd k, _) => ringCmdDb k v s
  | some (.tlm k, true) => ringTlmAck k v s
  | some (r, _) => ringConsDb r v s
  | none => s

/-- A read returns the last count accepted (R288). -/
def doorbellRead (s : State) (off : Nat) : Word :=
  match doorbellAt off with
  | some (.cmd k, _) => s.rings.cmd[k].db
  | some (.tlm k, true) => BitVec.ofNat 32 s.rings.tlm[k].acked
  | some (r, _) => (getRing s r).cons
  | none => 0

def execCmdDb (k : Fin 16) (v : Word) (s : State) : Host.Outcome State Fault Refusal := .next (ringCmdDb k v s)
def execCplDb (k : Fin 16) (v : Word) (s : State) : Host.Outcome State Fault Refusal := .next (ringConsDb (.cpl k) v s)
def execEvtDb (k : Fin 4) (v : Word) (s : State) : Host.Outcome State Fault Refusal := .next (ringConsDb (.evt k) v s)
def execTlmCons (k : Fin 8) (v : Word) (s : State) : Host.Outcome State Fault Refusal := .next (ringConsDb (.tlm k) v s)
def execTlmAck (k : Fin 8) (v : Word) (s : State) : Host.Outcome State Fault Refusal := .next (ringTlmAck k v s)

/-! ### Writing records (R285, R293, R300, R301) -/

/-- A write into a ring's area at a byte offset: host memory, or the local ring memory (R309). -/
def ringWrite (r : RingId) (off : Nat) (b : List Byte) (s : State) : State :=
  if localMode s then { s with lmem := Memory.write s.lmem (ringAddr s r + off) b }
  else emit (.hostWrite (ringAddr s r + off) b) s

/-- A ring can take a record: enabled, not stopped, the bus usable, the control plane running. -/
def ringReady (s : State) (r : RingId) : Bool :=
  ringEn s r && !(getRing s r).err && busOk s && !s.rst.ctrlReset && !inG0 s

/-- An MSI-X message, or its pending bit while the vector is masked or the bus not usable (R287, R491); none in local ring
mode. -/
def msix (v : Nat) (s : State) : State :=
  if localMode s then s
  else if bit (reg s (0x280C + 16 * v)) 0 || !busOk s then
    { s with pcie := { s.pcie with pend := s.pcie.pend ||| BitVec.ofNat 32 (2 ^ v) } }
  else
    emit (.msix v ((reg s (0x2800 + 16 * v)).toNat + 2 ^ 32 * (reg s (0x2804 + 16 * v)).toNat) (reg s (0x2808 + 16 * v))) s

/-- Pending vectors that are unmasked are sent. -/
def msixFlush (s : State) : State :=
  (List.range 32).foldl (fun (s : State) (v : Nat) =>
    if bit s.pcie.pend v && !bit (reg s (0x280C + 16 * v)) 0 && busOk s && !localMode s then
      msix v { s with pcie := { s.pcie with pend := s.pcie.pend &&& ~~~(BitVec.ofNat 32 (2 ^ v)) } }
    else s) s

/-- A completion, event or telemetry ring signals its vector (R287). -/
def ringSignal (r : RingId) (s : State) : State :=
  match r with
  | .cmd _ => s
  | r => if (getRing s r).unsig = 0 ∨ !ringEn s r then s
         else msix (ringVec s r) (modRing r (fun g => { g with unsig := 0 }) s)

/-- Entries after which a ring signals: MOD_CNT, 0 taken as 1 (Table 9.5). -/
def ringMod (s : State) (r : RingId) : Nat := max 1 (bits (ringCfg s r) 0 8)

/-- An entry has been written: with MOD_CNT of them since its last signal the ring signals at once (R287). -/
def ringTally (r : RingId) (s : State) : State := if ringMod s r ≤ (getRing s r).unsig then ringSignal r s else s

/-- An entry of `n` places is written and not yet signalled (R284, R287). -/
def ringEntry (r : RingId) (n : Nat) (s : State) : State :=
  modRing r (fun g => { g with
    prod := g.prod + BitVec.ofNat 32 n, unsig := g.unsig + 1
    first := if g.unsig = 0 then s.clk else g.first, latest := s.clk }) s

/-- The time conditions of R287, in ticks of 6.4 ns: MOD_TIME has elapsed since the first unsignalled entry, or no entry has come for
10 µs (log entry 78). -/
def ringDue (s : State) (r : RingId) : Bool :=
  let g := getRing s r
  let t := bits (ringCfg s r) 8 4
  (t != 0 && decide (625 * 2 ^ t ≤ 4 * (s.clk - g.first))) || decide (6250 ≤ 4 * (s.clk - g.latest))

/-- One of a ring's two timers expires. -/
def ringTimer (r : RingId) (s : State) : State := if ringDue s r then ringSignal r s else s

/-- Bytes of a completion record (Table 9.10) written as entry `cnt` of its ring. -/
def cplBytes (s : State) (r : CplRec) (cnt : Nat) : List Byte :=
  let b := [r.status, BitVec.ofNat 8 (b2n (phaseBit cnt (ringN s (.cpl r.cpl))) + 2 * b2n r.final),
            BitVec.ofNat 8 r.ring.val, BitVec.ofNat 8 r.op] ++ bytesLE 4 r.seq.toNat ++ bytesLE 4 r.tag.toNat ++
           bytesLE 8 r.time.toNat ++ bytesLE 8 r.result.toNat
  b ++ bytesLE 4 (crc32c (cnt * 2 ^ 32 + 0x02000000 + r.cpl.val * 65536) b)

/-- Writes the oldest waiting record of completion ring c (R293). Answers it, or none where nothing can be written. -/
def cplWrite (c : Fin 16) (s : State) : State × Option CplRec :=
  match s.rings.wait.find? fun x => x.cpl == c with
  | none => (s, none)
  | some r =>
    if ringReady s (.cpl c) && !ringFull s (.cpl c) then
      let cnt := s.rings.cpl[c].prod.toNat
      let s := ringWrite (.cpl c) (32 * (cnt % ringN s (.cpl c))) (cplBytes s r cnt) s
      let s := modRings (fun x => { x with
        wait := x.wait.erase r
        opened := if r.final then x.opened.filter fun o => o != (r.ring, r.seq) else x.opened }) s
      (ringTally (.cpl c) (countDev 0x85 1 (ringEntry (.cpl c) 1 s)), some r)
    else (s, none)

/-- The event ring on which a latch is delivered (R467). -/
def latchRing (s : State) (l : Latch) : Option (Fin 4) :=
  let r := Fin.ofNat 4 l.route
  if ringEn s (.evt r) then some r else (List.finRange 4).find? fun k => ringEn s (.evt k)

/-- Ready for delivery: its holdoff has ended (R470). -/
def latchReady (s : State) (l : Latch) : Bool := match assocGet s.evt.holdoff l.src with
  | some t => decide (t ≤ s.clk)
  | none => true

/-- The next latch of a ring: earliest first occurrence, then lowest source (R300, R468). -/
def latchNext (s : State) (e : Fin 4) : Option Latch :=
  (s.evt.latches.filter fun l => latchRing s l == some e && latchReady s l).foldl (fun best l =>
    match best with
    | none => some l
    | some b => if earlier l.time b.time || (l.time == b.time && decide (l.src < b.src)) then some l else some b) none

/-- Bytes of an event record (Table 9.11). -/
def evtBytes (s : State) (e : Fin 4) (l : Latch) (cnt : Nat) : List Byte :=
  let old := decide (128 * 2 ^ 24 ≤ (now s - l.time).toNat)
  let src := b2n (phaseBit cnt (ringN s (.evt e))) * 2 ^ 15 + b2n old * 2 ^ 14 + (evtClass l.src).getD 0 * 2 ^ 12 + l.src
  let b := bytesLE 2 src ++ bytesLE 2 l.count ++ bytesLE 4 l.payload.toNat ++ bytesLE 4 (l.time.toNat % 2 ^ 32)
  b ++ bytesLE 4 (crc32c (cnt * 2 ^ 32 + 0x03000000 + e.val * 65536) b)

/-- Holdoff of a class in ticks (R470). -/
def holdoffTicks (s : State) (cls : Nat) : Nat :=
  156250 * (if cls = 0 then bits (reg s 0x3000) 0 8 else if cls = 1 then bits (reg s 0x3000) 8 8 else 0)

/-- Writes one event record: the source is unlatched, its holdoff starts, a fault record may signal FAULT_VEC (R300, R469). -/
def evtWrite (e : Fin 4) (s : State) : State :=
  match latchNext s e with
  | none => s
  | some l =>
    if ringReady s (.evt e) && !ringFull s (.evt e) then
      let cnt := s.rings.evt[e].prod.toNat
      let cls := (evtClass l.src).getD 0
      let s := ringWrite (.evt e) (16 * (cnt % ringN s (.evt e))) (evtBytes s e l cnt) s
      let s := { s with evt := { s.evt with latches := s.evt.latches.erase l
                                            holdoff := assocSet s.evt.holdoff l.src (s.clk + holdoffTicks s cls) } }
      let s := ringTally (.evt e) (countDev 0x86 1 (ringEntry (.evt e) 1 s))
      if cls = 2 ∧ bit (reg s 0x3000) 31 then msix (bits (reg s 0x3000) 24 5) s else s
    else s

/-- Bytes of a telemetry record (Table 9.14) for its place; the check context is the destination address. -/
def tlmBytes (s : State) (t : Fin 8) (x : TlmRec) (id pos : Nat) : List Byte :=
  let n := ringN s (.tlm t)
  let b := bytesLE 2 x.typ ++ bytesLE 2 x.units ++
    [BitVec.ofNat 8 (b2n (phaseBit pos n) + 2 * b2n x.refetch + 4 * b2n x.more), 0] ++ bytesLE 2 x.frag ++ bytesLE 4 id ++
    bytesLE 4 x.origin.toNat ++ bytesLE 8 x.time.toNat ++ fit (64 * x.units - 28) x.body
  b ++ bytesLE 4 (crc32c (ringAddr s (.tlm t) + 64 * (pos % n)) b)

/-- Puts the bytes of one record into the ring: the rest first, header bytes 0 to 15 last (R285). -/
def tlmPut (t : Fin 8) (x : TlmRec) (id : Nat) (s : State) : State :=
  let pos := s.rings.tlm[t].prod.toNat
  let off := 64 * (pos % ringN s (.tlm t))
  let b := tlmBytes s t x id pos
  let s := ringWrite (.tlm t) (off + 16) (b.drop 16) s
  let s := ringWrite (.tlm t) off (b.take 16) s
  countDev 0x87 x.units (ringEntry (.tlm t) x.units s)

def tlmRoom (s : State) (t : Fin 8) : Nat :=
  ringN s (.tlm t) - (s.rings.tlm[t].prod - s.rings.tlm[t].cons).toNat

/-- A PAD record over the units left before the ring's end (R301). -/
def padRec (s : State) (units : Nat) : TlmRec :=
  { typ := 0, units := units, more := false, frag := 0, origin := 0, time := now s, body := [], ring := none, id := 0
    refetch := false, due := false }

/-- Entry bytes of a monitor sample (Table 11.6). -/
def sampleBytes (x : Sample) : List Byte :=
  bytesLE 3 x.value.toNat ++ [x.flags, BitVec.ofNat 8 x.channel, BitVec.ofNat 8 x.conv] ++ bytesLE 2 x.seq.toNat ++
  bytesLE 8 x.time.toNat

/-- Forms a monitor-sample record (R359). -/
def monRecord (k : Fin 2) (l : List Sample) (s : State) : State :=
  match l with
  | [] => s
  | x :: _ =>
    (tlmForm 5 ((36 + 16 * l.length + 63) / 64) false 0 (Tgt.code (.mon (some k))) x.time
      (bytesLE 2 l.length ++ [BitVec.ofNat 8 k.val] ++ zeros 5 ++ l.flatMap sampleBytes) s).1

/-- A record of converter k waits to be written for the first time. -/
def drainWaits (k : Fin 2) (s : State) : Bool :=
  s.tlm.recs.any fun x => x.typ == 5 && x.origin == Tgt.code (.mon (some k)) && x.due && !x.wrote

/-- One step of the drain of a converter's buffer (R360): its oldest entries form a record, and stay in the buffer until that is
written. -/
def drainStep (k : Fin 2) (s : State) : State :=
  let m := s.mon[k]
  if m.drain && ringEn s (.tlm (routeOfType s 5)) && domOn s 10 && !drainWaits k s then
    let n := min m.cfg.recN m.buf.length
    monRecord k (m.buf.take n) (modMon k (fun m => { m with drainN := n }) s)
  else s

/-- A record has been written: where it is that of a drain, its entries leave the buffer (R360). -/
def drainDone (x : TlmRec) (s : State) : State :=
  if x.typ ≠ 5 then s
  else forFin 2 (fun k s =>
    if x.origin = Tgt.code (.mon (some k)) then
      modMon k (fun m => { m with buf := m.buf.drop m.drainN, drain := m.drain && !(m.buf.drop m.drainN).isEmpty, drainN := 0 }) s
    else s) s

/-- Forms the host-message record of a received message (R198, Table 13.6). -/
def msgForm (n : Fin 8) (m : HmRecv) (s : State) : State :=
  (tlmForm 6 2 false 0 (Tgt.code (.line (some n))) m.time
    ([BitVec.ofNat 8 m.msg, BitVec.ofNat 8 m.data.length, 0, 0] ++ fit 48 m.data) s).1

/-- Messages that stayed in the receive buffers become records (R199, R395). -/
def msgDrain (s : State) : State :=
  if !domOn s 10 then s
  else forFin 8 (fun n s => s.lines[n].fr.recv.foldl (fun s m => msgForm n m s) (modFr n (fun f => { f with recv := [] }) s)) s

/-- What the device still holds for telemetry ring t becomes records: the samples of its buffers and the messages of the receive buffers
(R199, R360, R395). -/
def tlmGather (t : Fin 8) (s : State) : State :=
  let s := if routeOfType s 5 = t then drainStep 1 (drainStep 0 s) else s
  if routeOfType s 6 = t ∧ ringEn s (.tlm t) then msgDrain s else s

/-- Writes the next due record of telemetry ring t, a PAD record first where it would wrap (R301, R302). -/
def tlmWrite (t : Fin 8) (s : State) : State :=
  let s := tlmGather t s
  match s.tlm.recs.find? fun x => x.ring == some t && x.due with
  | none => s
  | some x =>
    if !ringReady s (.tlm t) then s
    else
      let n := ringN s (.tlm t)
      let left := n - s.rings.tlm[t].prod.toNat % n
      let s := if left < x.units ∧ left ≤ tlmRoom s t then ringTally (.tlm t) (tlmPut t (padRec s left) x.id s) else s
      let left := n - s.rings.tlm[t].prod.toNat % n
      if x.units ≤ left ∧ x.units ≤ tlmRoom s t then
        let s := ringTally (.tlm t) (tlmPut t x x.id s)
        let s := modRing (.tlm t) (fun g => { g with written := max g.written (x.id + 1) }) s
        drainDone x
          { s with tlm := { s.tlm with recs := s.tlm.recs.map fun y => if y = x then { y with due := false, wrote := true } else y } }
      else s

def execEventRecordWrite (e : Fin 4) (s : State) : Host.Outcome State Fault Refusal := .next (evtWrite e s)
def execTelemetryRecordWrite (t : Fin 8) (s : State) : Host.Outcome State Fault Refusal := .next (tlmWrite t s)

/-- A host memory access of a ring failed: the ring stops, and AER reports it (R296). What was to be written stays in the device. -/
def ringAccessFail (r : RingId) (status : Nat) (s : State) : State :=
  if ringEn s r && !localMode s then
    aerNote status (raise 0x022 (pay2 (ringCode r) status) (modRing r (fun g => { g with err := true }) s))
  else s

def execVectorSignal (r : RingId) (s : State) : Host.Outcome State Fault Refusal := .next (ringTimer r s)
def execRingAccessError (r : RingId) (status : Nat) (s : State) : Host.Outcome State Fault Refusal :=
  .next (ringAccessFail r status s)

end Sys2Proof.Machine
end

