-- ==== Sys2Proof/Machine/Monitor.lean ====
section
/-! DEFINITION. The monitor converters and their filter chain (chapter 11). -/

namespace Sys2Proof.Machine

/-- Table 11.2: GD and T_fill in units of 10 ns, and the largest R_out in S/s. -/
def respGd (r : Nat) : Nat :=
  ([22793, 51231, 108106, 221856, 449356, 904356, 7168, 14981, 30606, 61856, 124356, 249356, 2264356, 1944356, 2824356,
    12793] : List Nat).getD r 0
def respFill (r : Nat) : Nat :=
  ([45625, 102500, 217500, 445000, 900000, 1820000, 45625, 102500, 217500, 445000, 900000, 1820000, 4540000, 3900000,
    5660000, 25625] : List Nat).getD r 0
def respMax (r : Nat) : Nat :=
  ([40000, 40000, 40000, 20000, 10000, 5000, 40000, 40000, 40000, 20000, 10000, 5000, 5000, 5000, 1000, 40000]
    : List Nat).getD r 0

def ceilDiv (a b : Nat) : Nat := (a + b - 1) / b

/-- N_fill of R344; on the beat grid R_out is K divided by the present beat period. -/
def nFill (s : State) (c : MonCfg) : Nat :=
  if c.mode ≠ 1 then 0
  else
    let d := respFill c.resp - respGd c.resp
    if c.beatLock then ceilDiv (d * 25 * c.k) (2 * max s.cad.period 1) else ceilDiv (d * c.rate) 100000000

/-- Delivered group delay of R344 in units of 10 µs, rounded to nearest. -/
def monGd (s : State) (c : MonCfg) : Nat :=
  if c.mode ≠ 1 then 0
  else
    let a := 2 ^ c.avg
    let half := if c.beatLock then (a - 1) * s.cad.period * 2 / (2 * 25 * max c.k 1) else (a - 1) * 100000000 / (2 * max c.rate 1)
    (respGd c.resp + half + 500) / 1000

/-- Conversion time of a scan conversion in µs (Table 11.4): 5 µs and 4 R_s modulator cycles. -/
def scanUs (r : Nat) : Nat := 5 + 25 * 2 ^ r

/-- Conversion code of a housekeeping round of this period, ms (Table 11.5). -/
def roundCode (ms : Nat) : Nat := if ms ≤ 1 then 0 else if ms ≤ 3 then 1 else if ms ≤ 6 then 2 else if ms ≤ 13 then 3 else 4

/-- A remote diode takes two conversion times (R339, R350). -/
def isDiode (ch : Nat) : Bool := ch == 28 || ch == 30

/-- REFCLK time in sub-ticks; the length of a difference of cadence times by the present period; a cadence time in REFCLK time. -/
def refNow (s : State) : Nat := 8 * s.clk + s.sub
def unitsSub (s : State) (d : CTime) : Nat := d.toNat * s.cad.period / 2 ^ 24
def refOf (s : State) (t : CTime) : Nat :=
  if earlier (now s) t then refNow s + unitsSub s (t - now s) else refNow s - unitsSub s (now s - t)

/-- Represented instant of output i of the free grid, sub-ticks of REFCLK time (R342). -/
def freeRef (m : Mon) (i : Nat) : Nat := m.refAt + i * 1250000000 / max m.cfg.rate 1

/-- Represented instant of output i of the grid (R342). -/
def gridTime (s : State) (m : Mon) (i : Nat) : CTime :=
  if m.cfg.beatLock then
    let j := ceilDiv (m.anchor.toNat % 2 ^ 24 * m.cfg.k) (2 ^ 24) + i
    BitVec.ofNat 64 ((m.anchor.toNat / 2 ^ 24 + j / max m.cfg.k 1) * 2 ^ 24 + j % max m.cfg.k 1 * 2 ^ 24 / max m.cfg.k 1)
  else
    let r := freeRef m i
    if refNow s < r then now s + BitVec.ofNat 64 (phaseUnits s (r - refNow s)) else now s - BitVec.ofNat 64 (phaseUnits s (refNow s - r))

/-- The same instant in REFCLK time. -/
def gridRef (s : State) (m : Mon) (i : Nat) : Nat := if m.cfg.beatLock then refOf s (gridTime s m i) else freeRef m i

/-- The first output of the grid at or after a time, given in REFCLK time and in cadence time. -/
def gridIndex (m : Mon) (ref : Nat) (t : CTime) : Nat :=
  if m.cfg.beatLock then
    ceilDiv (t.toNat % 2 ^ 24 * m.cfg.k) (2 ^ 24) + (t.toNat / 2 ^ 24 - m.anchor.toNat / 2 ^ 24) * m.cfg.k -
      ceilDiv (m.anchor.toNat % 2 ^ 24 * m.cfg.k) (2 ^ 24)
  else ceilDiv ((ref - m.refAt) * m.cfg.rate) 1250000000

/-- A ring that takes monitor-sample records is enabled and their memory is on (R359, R360, R395). -/
def monRing (s : State) : Bool := ringEn s (.tlm (routeOfType s 5)) && domOn s 10

/-- An entry into the circular buffer of 1,024 (R360). -/
def bufPut (k : Fin 2) (x : Sample) (s : State) : State :=
  let m := s.mon[k]
  let wrap := m.lapped && m.wptr == 0
  let s := modMon k (fun m => { m with buf := (if m.buf.length = 1024 then m.buf.drop 1 else m.buf) ++ [x]
                                       drainN := if m.buf.length = 1024 then m.drainN - 1 else m.drainN
                                       wptr := (m.wptr + 1) % 1024, lapped := m.lapped || m.wptr == 1023
                                       wraps := if wrap then satU 8 (m.wraps + 1) else m.wraps }) s
  if wrap then raiseLimited 0x1ED k.val (pay1 k.val) s else s

/-- Output thresholds (R357). -/
def thrCompare (ch : Fin 64) (v : BitVec 24) (s : State) : State :=
  let t := s.thr[ch]
  let x := v.toInt
  let pay := pay2 ch.val (v.toNat / 256)
  let high := if t.high then !(decide (x < t.hi.toInt - t.hyst.toInt)) else t.hiEn && decide (t.hi.toInt < x)
  let low := if t.low then !(decide (t.lo.toInt + t.hyst.toInt < x)) else t.loEn && decide (x < t.lo.toInt)
  let s := { s with thr := upd s.thr ch fun t => { t with high := high, low := low } }
  let s := if high && !t.high then raise 0x1E9 pay s else s
  if low && !t.low then raise 0x1EA pay s else s

/-- Delivers one output: counted, compared, gathered into a record or buffered (R357 to R360). -/
def deliver (k : Fin 2) (ch : Nat) (v : Int) (settling ovr urgent scan : Bool) (t : CTime) (s : State) : State :=
  let m := s.mon[k]
  let x : Sample :=
    { value := BitVec.ofInt 24 (satS 24 v)
      flags := BitVec.ofNat 8 (b2n settling + 2 * b2n ovr + 4 * b2n urgent + 8 * b2n scan + 16 * b2n m.gap +
        32 * b2n (onFreeBeat s))
      channel := ch, conv := k.val, seq := m.seq, time := t }
  let s := modMon k (fun m => { m with seq := m.seq + 1, gap := false, ovr := ovr }) s
  let s := if ovr && !settling then raiseLimited 0x1EB k.val (pay2 k.val ch) s else s
  let s := if settling then s else thrCompare (Fin.ofNat 64 ch) x.value s
  if monRing s && !m.drain then
    let g := m.gather ++ [x]
    if m.cfg.recN ≤ g.length then monRecord k g (modMon k (fun m => { m with gather := [] }) s)
    else modMon k (fun m => { m with gather := g }) s
  else
    -- entries gathered for a ring that is no longer there go first
    let s := if monRing s then s else m.gather.foldl (fun s y => bufPut k y s) (modMon k (fun m => { m with gather := [] }) s)
    bufPut k x s

/-- Outputs a to b, b not included, are not produced: reported, and the next one carries GAP (R347, R349). -/
def monSkip (k : Fin 2) (a b : Nat) (s : State) : State :=
  if a < b then
    raiseLimited 0x1EE k.val (pay2 k.val (satU 16 (b - a))) (modMon k (fun m => { m with skips := m.skips ++ [(a, b)] }) s)
  else s

/-- The converter stops converting. -/
def monStop (k : Fin 2) (s : State) : State :=
  modMon k (fun m => { m with stop := m.stop <|> some (refNow s, now s) }) s

/-- T_fill − GD after an instant of REFCLK time, which only continuous mode has to wait (R348): 0.4 ns. -/
def settleEnd (c : MonCfg) (ref : Nat) : Nat := if c.mode = 1 then 2 * ref + 25 * (respFill c.resp - respGd c.resp) else 0

/-- Outputs carry SETTLING: the next one does. -/
def monSettling (m : Mon) (inst : Nat) : Bool := decide (2 * inst < m.settleTo)

/-- Zeroes the filter history, keeping grid and anchor; outputs whose represented instants fell into the time in which the converter did
not convert are missing (R347, R348). -/
def monRestart (k : Fin 2) (s : State) : State :=
  let m := s.mon[k]
  let s := modMon k (fun m => { m with stop := none }) s
  if m.cfg.mode ≠ 1 then s
  else
    let s := modMon k (fun m => { m with settleTo := settleEnd m.cfg (refNow s), block := [], blockVoid := true }) s
    match m.stop with
    | none => s
    | some x => monSkip k (max m.next (gridIndex m x.1 x.2)) (gridIndex m (refNow s) (now s)) s

/-- Cadence time goes from `t` to `to_` at once: the instants of the beat grid between them are not produced (R349). -/
def monEarly (k : Fin 2) (t to_ : CTime) (s : State) : State :=
  let m := s.mon[k]
  if m.cfg.mode ≠ 1 ∨ !m.cfg.beatLock then s
  else monSkip k (max m.next (gridIndex m 0 (t + 1))) (gridIndex m 0 to_) s

/-- The next output that is produced, and how many before it are not (R349). -/
def monNextIndex (m : Mon) : Nat × Nat :=
  m.skips.foldl (fun (r : Nat × Nat) (e : Nat × Nat) =>
    if e.1 ≤ r.1 ∧ r.1 < e.2 then (e.2, r.2 + (e.2 - r.1)) else r) (m.next, 0)

/-- An explicit synchronising reset (R346): the anchor, the grid and the blocks start anew; staged settings apply. -/
def monSync (k : Fin 2) (t : CTime) (s : State) : State :=
  let m := s.mon[k]
  let c := m.staged.getD m.cfg
  modMon k (fun m => { m with cfg := c, staged := none, anchor := t, refAt := refOf s t, next := 0, gap := false, block := []
                              blockVoid := false, settleTo := settleEnd c (refOf s t), stop := m.stop.map (fun _ => (refNow s, now s))
                              passAt := c.list.length, rateWarned := false, skips := []
                              busy := match m.busy with | .scan _ => .idle | b => b }) s

/-- Thermal settings that were waiting take effect: a new period restarts every rate history, RATE_LIM = 0 releases every rate
crossing (R367, R370, R382). -/
def thermTake (t : Therm) : Therm :=
  let c := t.pend.getD t.cfg
  { t with
    cfg := c, pend := none, ideal0 := t.pend0.getD t.ideal0, ideal1 := t.pend1.getD t.ideal1, pend0 := none, pend1 := none
    sens := t.sens.map fun x =>
      let x := match x.pend with
        | some (w, a, m) => { x with warn := w, advise := a, mute := m, pend := none }
        | none => x
      let x := if c.round = t.cfg.round then x else { x with hist := [], rate := 0, up := x.up.set 3 0, dn := x.dn.set 3 0 }
      if c.rateLim = 0 then { x with rateX := false, up := x.up.set 3 0, dn := x.dn.set 3 0 } else x }

/-- A housekeeping round begins on MON_B, with the settings that were waiting for it (R353, R382). -/
def roundBegin (s : State) : State :=
  modMon 1 (fun m => { m with busy := .round }) (monStop 1 (modTherm (fun t => { thermTake t with roundAt := s.clk }) s))

/-- What follows when a conversion, a burst, a round or a segment ends: a waiting round, the filter's restart, the rest of the
pass (R351, R353). -/
def monNext (k : Fin 2) (s : State) : State :=
  let m := s.mon[k]
  if k = 1 ∧ m.roundDue then roundBegin (modMon k (fun m => { m with roundDue := false }) s)
  else if m.inTest then modMon k (fun m => { m with busy := .idle }) s
  else if m.cfg.mode = 2 ∧ m.passAt < m.cfg.list.length then
    modMon k (fun m => { m with busy := .scan m.passAt, passAt := m.passAt + 1 }) s
  else modMon k (fun m => { m with busy := .idle }) s

/-- One output of the resampler (R342, R343, R348). -/
def monOutput (k : Fin 2) (v : Int) (ovr : Bool) (s : State) : State :=
  let m := s.mon[k]
  if m.cfg.mode ≠ 1 ∨ m.busy ≠ .idle ∨ m.inTest ∨ !domOn s 4 then s
  else
    let r := monNextIndex m
    let t := gridTime s m r.1
    let a := 2 ^ m.cfg.avg
    let settling := monSettling m (gridRef s m r.1)
    let idx := if m.cfg.beatLock then (ceilDiv (m.anchor.toNat % 2 ^ 24 * m.cfg.k) (2 ^ 24) + r.1) % max m.cfg.k 1 else r.1
    let pos := idx % a
    let s := modMon k (fun m => { m with next := r.1 + 1, gap := m.gap || decide (0 < r.2)
                                         skips := m.skips.filter fun e => decide (r.1 < e.2) }) s
    if settling ∨ m.cfg.avg = 0 then
      let s := modMon k (fun m => { m with blockVoid := true }) s
      deliver k m.cfg.chan v settling ovr false false t s
    else
      let void := ovr || (if pos = 0 then false else m.blockVoid || decide (0 < r.2))
      let blk := if pos = 0 then [v] else m.block ++ [v]
      let first := if pos = 0 then t else m.blockFirst
      let s := modMon k (fun m => { m with block := blk, blockFirst := first, blockVoid := void, ovr := ovr }) s
      let s := if ovr then raiseLimited 0x1EB k.val (pay2 k.val m.cfg.chan) s else s
      if pos + 1 = a ∧ !void ∧ blk.length = a then
        deliver k m.cfg.chan (blk.foldl (· + ·) 0 / (2 ^ m.cfg.shift : Nat)) false false false false
          (first + BitVec.ofNat 64 ((t - first).toNat / 2)) s
      else s

/-- The gathered entries are written out REC_TIME after the first (R359); without a ring they go to the buffer. -/
def monFlush (k : Fin 2) (s : State) : State :=
  let g := s.mon[k].gather
  let s := modMon k (fun m => { m with gather := [] }) s
  if monRing s then monRecord k g s else g.foldl (fun s x => bufPut k x s) s

/-- A scan pass starts on its grid (R351): entries of the last pass that have not started are skipped. -/
def monPass (k : Fin 2) (s : State) : State :=
  let m := s.mon[k]
  if m.cfg.mode ≠ 2 ∨ m.inTest ∨ !domOn s 4 then s
  else
    let skipped := m.cfg.list.length - m.passAt
    let s := modMon k (fun m => { m with passAt := 0, overrun := satU 8 (m.overrun + skipped) }) s
    let s := if 0 < skipped then raiseLimited 0x1EC k.val (pay2 k.val skipped) s else s
    if m.busy = .idle then monNext k s else s

/-- A scan conversion ends (R350, R355): its sample is delivered and the next entry or burst conversion starts. -/
def monScanDone (k : Fin 2) (v : Int) (ovr : Bool) (s : State) : State :=
  let m := s.mon[k]
  let back (sub : Nat) : CTime := now s - BitVec.ofNat 64 (phaseUnits s sub)
  match m.busy with
  | .scan i =>
    let ch := m.cfg.list.getD i 0
    let r := m.cfg.scanR
    let t := if isDiode ch then back (usSub (scanUs r)) else back (15625 * 2 ^ r)
    monNext k (deliver k ch v false ovr false true t s)
  | .burst input left r =>
    let s := deliver k input v false ovr true true (back (15625 * 2 ^ r)) s
    if 1 < left then modMon k (fun m => { m with busy := .burst input (left - 1) r }) s else monNext k s
  | _ => s

/-- In a conversion under R356: an urgent request is dropped. -/
def monConverting (m : Mon) : Bool := m.cfg.mode == 1 || m.busy != .idle || m.inTest

/-- A comparator reports a level (R354 to R356). -/
def compCross (i : Fin 32) (level : Bool) (s : State) : State :=
  let c := s.comp[i]
  let s := { s with comp := upd s.comp i fun c => { c with level := level } }
  if level = c.level ∨ level ≠ c.dir ∨ !c.en ∨ !domOn s 4 then s
  else
    let k := Fin.ofNat 2 c.assign
    let go := c.urgEn && !monConverting s.mon[k]
    let s := if go then modMon k (fun m => { m with busy := .burst i.val c.urgN c.urgR }) s
             else if c.urgEn then modMon k (fun m => { m with drop := satU 16 (m.drop + 1) }) s else s
    raise 0x1E8 (pay3 i.val k.val (b2n go)) s

/-- A housekeeping round is due on MON_B (R352, R353): a scan conversion is abandoned, a burst completes first. -/
def roundStart (s : State) : State :=
  let m := s.mon[(1 : Fin 2)]
  if m.inTest || !domOn s 4 then s
  else match m.busy with
  | .burst _ _ _ =>
    modTherm (fun t => { t with late := satU 8 (t.late + 1) }) (modMon 1 (fun m => { m with roundDue := true }) s)
  | .segment => s
  | .round => s
  | _ => roundBegin s

/-- The round ends: results are delivered with HK_OUT, a continuous MON_B restarts, a pass goes on (R352, R353). -/
def roundFinish (temps : List Int) (taps : List Int) (s : State) : State :=
  let m := s.mon[(1 : Fin 2)]
  let r := roundCode s.therm.cfg.round
  let t := now s
  let s := modTherm (fun t => { t with rounds := (t.rounds + 1) % 65536 }) s
  let s := if m.cfg.hkOut then
      (List.range 26).foldl (fun s i =>
        deliver 1 (32 + i) (if i < 14 then temps.getD i 0 else taps.getD (i - 14) 0) false false false true
          (t - BitVec.ofNat 64 (phaseUnits s (usSub ((25 - i) * scanUs r) + 15625 * 2 ^ r))) s) s
    else s
  monRestart 1 (monNext 1 s)

/-! ### Commands (R361 to R363) -/

/-- The settings that MON_CONFIG carries (Table 11.7). -/
def monCfgOf (c : Cmd) : MonCfg :=
  { mode := c.p 0, resp := c.p 1 % 16, beatLock := c.p 1 / 16 % 2 == 1, hkOut := c.p 1 / 64 % 2 == 1, avg := c.p 2 % 16
    shift := c.p 2 / 16, chan := c.p 3, rate := c.le 4 2, k := c.le 6 2, scanR := c.p 8
    list := (List.range (c.p 9)).map fun i => c.p (10 + i)
    recN := c.p 42, recTime := c.p 43 }

def chanOk (ch : Nat) : Bool := decide (ch < 58) && ch != 29 && ch != 31

/-- Instances that a MON target names. -/
def monInsts : Option (Fin 2) → List (Fin 2)
  | some k => [k]
  | none => [0, 1]

/-- Conversion time of one pass, µs, each remote diode twice. -/
def passUs (m : MonCfg) : Nat :=
  m.list.foldl (fun a ch => a + scanUs m.scanR * (if isDiode ch then 2 else 1)) 0

def tgtMon (c : Cmd) : Bool := match c.tgt with | some (.mon _) => true | _ => false

/-- R361: the settings are in range. -/
def parMonConfig (c : Cmd) (s : State) : Bool :=
  let m := monCfgOf c
  let p := max s.cad.period 1
  let toA := match c.tgt with | some (.mon k) => (monInsts k).contains 0 | _ => false
  decide (m.mode ≤ 2) && decide (c.p 1 < 128) && !(m.hkOut && toA) && decide (m.avg ≤ 8) && decide (m.shift ≤ 8) &&
  decide (m.scanR ≤ 4) && decide (c.p 9 ≤ 32) && decide (1 ≤ m.recN) && decide (m.recN ≤ 252) && decide (1 ≤ m.recTime) &&
  decide (m.chan < 64) && decide (m.rate ≤ 40000) && decide (m.k ≤ 4096) &&
  (match m.mode with
   | 1 => chanOk m.chan && !isDiode m.chan &&
      (if m.beatLock then decide (1 ≤ m.k) && decide (m.k % 2 ^ m.avg = 0) && decide (p ≤ m.k * 1250000000) &&
          decide (m.k * 1250000000 ≤ respMax m.resp * p)
       else decide (1 ≤ m.rate) && decide (m.rate ≤ respMax m.resp))
   | 2 => decide (m.avg = 0) && decide (1 ≤ c.p 9) && m.list.all chanOk &&
      (if m.beatLock then decide (1 ≤ m.k) && decide (m.k * 1250000000 ≤ 2500 * p) && decide (passUs m * 1250 * m.k ≤ p)
       else decide (1 ≤ m.rate) && decide (m.rate ≤ 2500) && decide (passUs m * m.rate ≤ 1000000))
   | _ => true)

def actMonConfig (c : Cmd) (s : State) : State :=
  match c.tgt with
  | some (.mon k) =>
    let s := (monInsts k).foldl (fun s i =>
      let s := modMon i (fun m => { m with staged := some (monCfgOf c) }) s
      if c.p 1 / 32 % 2 = 1 then s else monSync i (now s) s) s
    done c 0 s
  | _ => s

/-- MON_SYNC at a time: the tick's own for an immediate command (R346, R362). -/
def syncMons (k : Option (Fin 2)) (t : CTime) (s : State) : State := (monInsts k).foldl (fun s i => monSync i t s) s

def actMonSync (c : Cmd) (s : State) : State :=
  match c.tgt with
  | some (.mon k) => done c 0 (syncMons k (now s) s)
  | _ => s

/-- R363. -/
def parMonThreshold (c : Cmd) : Bool :=
  let hi := ofField 24 (c.le 4 3)
  let lo := ofField 24 (c.le 8 3)
  match c.p 0 with
  | 0 => chanOk (c.p 1) && decide (c.p 2 < 4) && decide (c.le 12 3 < 2 ^ 23) && !(c.p 2 == 3 && decide (hi ≤ lo)) &&
      c.clear 3 4 && c.clear 7 8 && c.clear 11 12 && c.clear 15 44
  | 1 => decide (c.p 1 < 32) && decide (c.p 2 < 16) && decide (c.le 4 2 < 1024) && decide (c.p 6 < 32) &&
      decide (1 ≤ c.p 7 % 16) && decide (c.p 7 % 16 ≤ 8) && decide (c.p 7 / 16 < 3) && c.clear 3 4 && c.clear 8 44
  | _ => false

def actMonThreshold (c : Cmd) (s : State) : State :=
  let s := if c.p 0 = 0 then
      { s with thr := upd s.thr (Fin.ofNat 64 (c.p 1)) fun t =>
        { t with hiEn := c.p 2 % 2 == 1, loEn := c.p 2 / 2 == 1, hi := BitVec.ofNat 24 (c.le 4 3)
                 lo := BitVec.ofNat 24 (c.le 8 3), hyst := BitVec.ofNat 24 (c.le 12 3) } }
    else
      { s with comp := upd s.comp (Fin.ofNat 32 (c.p 1)) fun x =>
        { x with en := c.p 2 % 2 == 1, dir := c.p 2 / 2 % 2 == 1, urgEn := c.p 2 / 4 % 2 == 1, assign := c.p 2 / 8
                 thr := c.le 4 2, hys := c.p 6, urgN := c.p 7 % 16, urgR := c.p 7 / 16 } }
  done c 0 s

/-- A change of beat period takes K divided by the period above the response's largest R_out: reported once (R349). -/
def monRateCheck (k : Fin 2) (s : State) : State :=
  let m := s.mon[k]
  let bad := m.cfg.mode == 1 && m.cfg.beatLock &&
    decide (respMax m.cfg.resp * max s.cad.period 1 < m.cfg.k * 1250000000)
  let s' := modMon k (fun m => { m with rateWarned := bad }) s
  if bad && !m.rateWarned then raise 0x1EF (pay2 k.val (satU 16 (m.cfg.k * 1250000000 / max s.cad.period 1))) s' else s'

def execMonitorOutput (k : Fin 2) (value : Int) (ovr : Bool) (s : State) : Host.Outcome State Fault Refusal :=
  .next (monOutput k value ovr s)
def execRecTimeExpiry (k : Fin 2) (s : State) : Host.Outcome State Fault Refusal := .next (monFlush k s)
def execScanPassStart (k : Fin 2) (s : State) : Host.Outcome State Fault Refusal := .next (monPass k s)
def execScanConversionDone (k : Fin 2) (value : Int) (ovr : Bool) (s : State) : Host.Outcome State Fault Refusal :=
  .next (monScanDone k value ovr s)
def execHousekeepingRound (s : State) : Host.Outcome State Fault Refusal := .next (roundStart s)

end Sys2Proof.Machine
end

