-- ==== Sys2Proof/Machine/Slots.lean ====
section
/-! DEFINITION. Scheduler slots: their words, occurrences, installing, advancing, freeing and skipping (R263 to R270). -/

namespace Sys2Proof.Machine

/-- Word k of a slot (Table 8.6). -/
def slotWord (x : Slot) (k : Nat) : Word :=
  match k with
  | 0 => pack [(b2n x.valid, 31, 1), (b2n x.dom, 30, 1), (x.action, 24, 6), (x.classes.toNat, 16, 8), (x.target.toNat, 0, 16)]
  | 1 => BitVec.ofNat 32 x.start.toNat
  | 2 => BitVec.ofNat 32 (x.start.toNat / 2 ^ 32)
  | 3 => x.duration
  | 4 => x.rep
  | 5 => x.stride
  | 6 => pack [(x.count.toNat, 16, 16), (x.stagMod.toNat, 0, 13)]
  | 7 => x.tag
  | _ => 0

/-- A slot from its words 0 to 6 in 28 bytes and its TAG; VALID and DOM are not taken from them. -/
def slotOf (b : List Byte) (tag : Word) : Slot :=
  let w0 := leAt b 0 4
  { Slot.empty with
    action := w0 / 2 ^ 24 % 64, classes := BitVec.ofNat 8 (w0 / 65536), target := BitVec.ofNat 16 w0
    start := BitVec.ofNat 64 (leAt b 4 8), duration := BitVec.ofNat 32 (leAt b 12 4), rep := BitVec.ofNat 32 (leAt b 16 4)
    stride := BitVec.ofNat 32 (leAt b 20 4), count := BitVec.ofNat 16 (leAt b 26 2), stagMod := BitVec.ofNat 13 (leAt b 24 2)
    tag := tag }

/-- The index that staggers: IDX, or 0 without a valid index (R264). -/
def stagIdx (s : State) : Nat := if s.cad.idxValid then s.cad.idx else 0

/-- T_m of R264, modulo 2⁶⁴. -/
def occTime (s : State) (x : Slot) (m : Nat) : CTime :=
  x.start + BitVec.ofNat 64 (m * x.rep.toNat * 2 ^ 24 + stagIdx s % max x.stagMod.toNat 1 * x.stride.toNat)

/-- The slot with its first occurrence at least 20 µs ahead armed (R267): occurrence 0, or for a repeating slot the first such
occurrence, COUNT reduced; none: the window has passed. -/
def slotFirst (s : State) (x : Slot) : Option Slot :=
  let lim := after s (usSub 20)
  let t0 := occTime s x 0
  if !earlier t0 lim then some { x with m := 0, armed := t0 }
  else if x.rep = 0 then none
  else
    let step := x.rep.toNat * 2 ^ 24
    let n := ((lim - t0).toNat + step - 1) / step
    if x.count ≠ 0 ∧ x.count.toNat ≤ n then none
    else
      let y := { x with start := x.start + BitVec.ofNat 64 (n * step)
                        count := if x.count = 0 then 0 else x.count - BitVec.ofNat 16 n, m := 0 }
      some { y with armed := occTime s y 0 }

/-- A TARGET that an action can have (Table 8.7, R267). -/
def actionTarget (a : Nat) (t : Option Tgt) : Bool :=
  match t with
  | none => false
  | some t => match a, t with
    | 0x01, .mon _ => false
    | 0x02, .device => true
    | 0x02, _ => false
    | 0x03, .line (some _) => true
    | 0x03, .host (some _) => true
    | 0x03, _ => false
    | 0x04, .line (some _) => true
    | 0x04, .host (some _) => true
    | 0x04, .port (some _) => true
    | 0x04, .mon (some _) => true
    | 0x04, _ => false
    | 0x05, .mon _ => true
    | 0x05, _ => false
    | 0x06, .line _ => true
    | 0x06, _ => false
    | _, _ => true

/-- The words of a slot are valid (R263, R267). -/
def slotOk (b : List Byte) : Bool :=
  let x := slotOf b 0
  decide (x.action < 0x0A) && actionTarget x.action (Tgt.ofCode x.target) && decide (leAt b 24 2 ≤ 4096) &&
  (x.action != 0 || (x.duration != 0 && (x.rep == 0 || decide (x.duration.toNat ≤ x.rep.toNat * 2 ^ 24))))

def freeSlots (s : State) : List (Fin 256) := (List.finRange 256).filter fun i => !s.cad.slots[i].valid

/-- The first slot from below, and from above, that holds a property, of the k slots still to look at. -/
def slotUp (p : Fin 256 → Bool) : Nat → Option (Fin 256)
  | 0 => none
  | k + 1 => if p (Fin.ofNat 256 (255 - k)) then some (Fin.ofNat 256 (255 - k)) else slotUp p k

def slotDown (p : Fin 256 → Bool) : Nat → Option (Fin 256)
  | 0 => none
  | k + 1 => if p (Fin.ofNat 256 k) then some (Fin.ofNat 256 k) else slotDown p k

def lowestFree (s : State) : Option (Fin 256) := slotUp (fun i => !s.cad.slots[i].valid) 256
def highestFree (s : State) : Option (Fin 256) := slotDown (fun i => !s.cad.slots[i].valid) 256

def putSlot (i : Fin 256) (x : Slot) (s : State) : State := modSlot i (fun _ => { x with valid := true }) s

/-- A slot freed: an open window of it closes. -/
def clearSlot (i : Fin 256) (s : State) : State := modSlot i (fun _ => Slot.empty) s

/-- A slot freed otherwise than by its action: a TIMED command that waited in it is answered INTERNAL_FAULT. -/
def freeSlot (i : Fin 256) (s : State) : State :=
  match s.cad.slots[i].cmd with
  | some c => refuse c stInternal (clearSlot i s)
  | none => clearSlot i s

/-- The occurrence ends: the next one is armed with the index now in force, or the slot becomes free (R264). -/
def slotAdvance (i : Fin 256) (s : State) : State :=
  let x := s.cad.slots[i]
  if x.rep = 0 ∨ x.count = 1 then clearSlot i s
  else
    let y := { x with count := if x.count = 0 then 0 else x.count - 1, m := x.m + 1, openEnd := none, deferral := none }
    modSlot i (fun _ => { y with armed := occTime s y y.m }) s

/-- Occurrences of a WINDOW slot whose start lies in [now, to) are passed over; how many. -/
def skipOcc (i : Fin 256) (to_ : CTime) (s : State) : State × Nat :=
  let x := s.cad.slots[i]
  if x.valid && x.action == 0 && x.openEnd.isNone && earlier x.armed to_ && !earlier x.armed (now s) then
    let step := x.rep.toNat * 2 ^ 24
    let n := if x.rep = 0 then 1 else ((to_ - x.armed).toNat + step - 1) / step
    if x.rep = 0 then (clearSlot i s, 1)
    else if x.count ≠ 0 ∧ x.count.toNat ≤ n then (clearSlot i s, x.count.toNat)
    else
      let y := { x with count := if x.count = 0 then 0 else x.count - BitVec.ofNat 16 n, m := x.m + n }
      (modSlot i (fun _ => { y with armed := occTime s y y.m }) s, n)
  else (s, 0)

/-- Of the occurrences of a point action whose time lies in [now, to) only the last stays armed: the action executes once, on the
tick of the skip. -/
def skipPoint (i : Fin 256) (to_ : CTime) (s : State) : State :=
  let x := s.cad.slots[i]
  if x.valid && x.action != 0 && x.deferral.isNone && x.rep != 0 && earlier x.armed to_ && !earlier x.armed (now s) then
    let step := x.rep.toNat * 2 ^ 24
    let n := ((to_ - x.armed).toNat + step - 1) / step
    let k := if x.count = 0 then n - 1 else min (n - 1) (x.count.toNat - 1)
    let y := { x with count := if x.count = 0 then 0 else x.count - BitVec.ofNat 16 k, m := x.m + k }
    modSlot i (fun _ => { y with armed := x.armed + BitVec.ofNat 64 (k * step) }) s
  else s

/-- Each slot in turn skipped: the state, how many occurrences, and the first slot that skipped one. -/
def skipAll (to_ : CTime) (s : State) : State × Nat × Option (Fin 256) :=
  (List.finRange 256).foldl (fun (a : State × Nat × Option (Fin 256)) (i : Fin 256) =>
    let s := a.1
    let s := if s.cad.slots[i].openEnd.isSome then slotAdvance i s else s
    let s := skipPoint i to_ s
    let q := skipOcc i to_ s
    (q.1, a.2.1 + q.2, if 0 < q.2 then a.2.2.or (some i) else a.2.2)) (s, 0, none)

/-- Skipped occurrences are counted and reported, at most once per beat. -/
def skipNote (n : Nat) (first : Option (Fin 256)) (s : State) : State :=
  let told := s.cad.skipRaised
  match first with
  | some i =>
    let s := modCad (fun c => { c with skip := satU 8 (c.skip + n), skipRaised := true }) s
    if told then s else raise 0x1CC (pay2 i.val (satU 16 n)) s
  | none => s

/-- Cadence time is about to jump from now to `to_` (R268): open windows close, windows that would have opened are skipped and
counted, the event is raised once. -/
def skipWindows (to_ : CTime) (s : State) : State :=
  if !earlier (now s) to_ then s
  else
    let r := skipAll to_ s
    skipNote r.2.1 r.2.2 r.1

/-- Slot 255 with the default window of R43, first armed at its next occurrence. -/
def defaultWindow (s : State) : Slot :=
  let x := { Slot.empty with classes := 0xFF, duration := 0x400000, rep := 1, stagMod := 1, src := .default
                             start := BitVec.ofNat 64 (((now s).toNat / 2 ^ 24 + 1) * 2 ^ 24) }
  { x with armed := occTime s x 0 }

/-- Firmware frees the default window (R269). -/
def dropDefault (s : State) : State := if s.cad.slots[(255 : Fin 256)].src = .default then clearSlot 255 s else s

/-- A window of a domain entry is installed. -/
def domWindow (s : State) : Bool := s.cad.slots.toList.any fun x => x.valid && x.dom && x.action == 0

/-- At firmware's boot: the default window, at a cold one, where slot 255 is free and no domain entry has brought a window (R43), and the
freeing of one that a domain entry has replaced while firmware did not run (R269). -/
def bootWindow (cold : Bool) (s : State) : State :=
  if domWindow s then dropDefault s
  else if cold && !s.cad.slots[(255 : Fin 256)].valid then putSlot 255 (defaultWindow s) s
  else s

/-- Installs a domain entry at a device (R270, R269). -/
def domInstall (b : List Byte) (tag : Word) (s : State) : State :=
  let x := { slotOf b tag with dom := true, src := .domain }
  let late s := raise 0x1CA (pay1 (tag.toNat % 65536)) (modCad (fun c => { c with late := satU 8 (c.late + 1) }) s)
  let t0 := occTime s x 0
  let y := if earlier t0 (now s) then slotFirst s x else some { x with m := 0, armed := t0 }
  y.elim (late s) fun y =>
    match highestFree s with
    | none => raise 0x1CB (pay1 (tag.toNat % 65536)) s
    | some i =>
      let s := putSlot i y s
      if x.action = 0 ∧ s.rst.mgmtRun then dropDefault s else s

end Sys2Proof.Machine
end

