-- ==== Sys2Proof/Machine/Cadence.lean ====
section
/-! DEFINITION. Beats, tree times, holdover and summaries (R235 to R242, R256 to R262, R273 to R276). -/

namespace Sys2Proof.Machine

def getTree (s : State) : Tree → TreeTime
  | .a => s.cad.treeA
  | .b => s.cad.treeB

def modTree (t : Tree) (f : TreeTime → TreeTime) (s : State) : State :=
  match t with
  | .a => modCad (fun c => { c with treeA := f c.treeA }) s
  | .b => modCad (fun c => { c with treeB := f c.treeB }) s

def otherTree : Tree → Tree
  | .a => .b
  | .b => .a

def treeNum : Tree → Nat
  | .a => 0
  | .b => 1

/-- Cadence ports of a tree: upstream, and the four downstream (Table 8.17). -/
def upPort : Tree → Fin 10
  | .a => 0
  | .b => 1
def downPorts : Tree → List (Fin 10)
  | .a => [2, 3, 4, 5]
  | .b => [6, 7, 8, 9]
def linkTree (k : Fin 10) : Tree := if k.val = 0 ∨ (2 ≤ k.val ∧ k.val ≤ 5) then .a else .b
def linkUp (s : State) (k : Fin 10) : Bool := s.cad.links[k].st == .up

/-- The tree that a chanter roots. -/
def chanterOf (s : State) : Option Tree := if s.cad.role = 2 then some .a else if s.cad.role = 3 then some .b else none
/-- CAD.CFG as it acts: from the last beat, and while no beat has come as it stands (R237, R278). -/
def cadCfg (s : State) : Word := if s.cad.st = 1 then reg s 0x4000 else s.cad.cfg

def primary (s : State) : Tree := if bit (cadCfg s) 28 then .b else .a
def varBeat (s : State) : Bool := bit (cadCfg s) 26

/-- BEAT_TOL as the divisor of the period (Table 8.11). -/
def beatTol (s : State) : Nat := match bits (cadCfg s) 24 2 with
  | 0 => 16
  | 1 => 8
  | 2 => 32
  | _ => 64

/-- A tree is usable at the device (R257). -/
def usable (s : State) (t : Tree) : Bool :=
  let x := getTree s t
  linkUp s (upPort t) && x.seen && !x.hold && (x.var || decide (x.missing < 3))

/-- Marks still arrive on a tree, with HOLD set (R260). -/
def heldMarks (s : State) (t : Tree) : Bool :=
  let x := getTree s t
  linkUp s (upPort t) && x.seen && x.hold && (x.var || decide (x.missing < 3))

/-- Depth of the device in a tree: 0 at its chanter. -/
def depthIn (s : State) (t : Tree) : Nat :=
  if chanterOf s = some t then 0 else min 7 ((getTree s t).parentDepth + 1)

def meanOf (l : List Nat) : Nat := if l.isEmpty then 0 else l.foldl (· + ·) 0 / l.length

/-! ### Characters and messages on the links (R246 to R250) -/

/-- CRC-16 over TYPE, LEN and the payload (R248). -/
def linkCrc (typ : Byte) (b : List Byte) : BitVec 16 := BitVec.ofNat 16 (crc16 (typ :: bytesLE 2 b.length ++ b))

/-- The characters of a message (R248); the CRC goes as every two-byte field does, its low byte first (R6, DEDUCED). -/
def linkFrame (typ : Byte) (b : List Byte) : List LinkChar :=
  .som :: ((typ :: bytesLE 2 b.length ++ b ++ bytesLE 2 (linkCrc typ b).toNat).map .data) ++ [.eom]

def post (k : Fin 10) (typ : Byte) (b : List Byte) (s : State) : State := emit (.message k (linkFrame typ b)) s

/-- ERR counts code violations and CRC failures (Table 8.17). -/
def linkErr (k : Fin 10) (s : State) : State := modLink k (fun l => { l with err := satU 8 (l.err + 1) }) s

/-- A code violation on a link: counted; more than 16 within 1 ms raise the event, at most once per second per port (R247). -/
def linkError (k : Fin 10) (s : State) : State :=
  let v := s.clk :: s.cad.links[k].viol.filter fun t => decide (s.clk < t + 156250)
  let s := modLink k (fun l => { l with viol := v }) (linkErr k s)
  if 16 < v.length then raiseLimited 0x1CE k.val (pay2 k.val (satU 16 v.length)) s else s

def linkAlive (s : State) (k : Fin 10) : Bool := s.cad.links[k].st == .align || s.cad.links[k].st == .up

/-- A message arrives on a port: with a CRC that fails it is discarded and counted (R248). -/
def received (k : Fin 10) (typ : Byte) (b : List Byte) (crc : BitVec 16) (f : State → State) (s : State) : State :=
  if !linkAlive s k then s else if linkCrc typ b = crc then f s else linkErr k s

/-- A tree's input has failed, by marks missing or by its link (R257). -/
def treeFailed (s : State) (t : Tree) : Bool :=
  let x := getTree s t
  x.seen && chanterOf s != some t && !(linkUp s (upPort t) && (x.var || decide (x.missing < 3)))

/-- HOLD as the marks that the device sends on a tree would carry it, for its keep-alives (R237, R246, R257, R260). -/
def sentHold (s : State) (t : Tree) : Bool :=
  if chanterOf s = some t then s.cad.st == 1 || decide (3 ≤ s.cad.st)
  else !(getTree s t).seen || (getTree s t).hold || treeFailed s t || decide (3 ≤ s.cad.st)

/-- The keep-alives of 100 character times (R246): a port that is not DISABLED sends one, downstream with HOLD in bit 0. -/
def keepAlives (s : State) : State :=
  if !domOn s 3 then s
  else forFin 10 (fun k s =>
    if s.cad.links[k].st = .disabled then s
    else emit (.keepAlive k (decide (2 ≤ k.val) && sentHold s (linkTree k))) s) s

/-! ### Messages downstream -/

/-- A BEAT message (Table 8.4). -/
def beatMsg (s : State) (t : Tree) (num : BitVec 40) (depart : Nat) (hold : Bool) : List Byte :=
  let own := chanterOf s == some t
  let x := getTree s t
  let var := if own then varBeat s else x.var
  let ed := if own then s.cad.enumDone else x.enumDone
  let dom := if own then s.cad.domain else x.domain
  bytesLE 5 num.toNat ++ bytesLE 2 depart ++
  [BitVec.ofNat 8 (b2n hold + 2 * b2n var + 4 * b2n ed + 16 * (depthIn s t % 8))] ++ bytesLE 4 dom.toNat

/-- MARK and BEAT on every downstream port of the tree that is UP (R249, R255). The departure offset, within 32 ns, is a
measured value. -/
def sendMarks (t : Tree) (num : BitVec 40) (hold : Bool) (s : State) : State :=
  (downPorts t).foldl (fun s k =>
    if linkUp s k then
      let (v, s) := draw s
      post k 0x01 (beatMsg s t num (v % 321) hold) (emit (.mark k) s)
    else s) s

/-! ### Summaries (R273 to R276) -/

def summaryBytes (m : Summary) : List Byte :=
  bytesLE 5 m.beat.toNat ++ bytesLE 2 m.dev ++ bytesLE 2 m.alt ++ bytesLE 2 m.hold ++ bytesLE 2 m.miss ++ bytesLE 2 m.info ++
  bytesLE 2 m.warn ++ bytesLE 2 m.fault ++
  bytesLE 2 (b2n m.firstValid * 2 ^ 15 + b2n m.firstFault * 2 ^ 14 + m.firstIdx % 4096) ++ bytesLE 2 (m.firstSrc % 512) ++
  bytesLE 4 m.firstTime.toNat ++ [BitVec.ofNat 8 (toField 8 m.tmax)] ++ bytesLE 2 m.preFec.toNat

def summaryOf (b : List Byte) : Summary :=
  { beat := BitVec.ofNat 40 (leAt b 0 5), dev := leAt b 5 2 % 8192, alt := leAt b 7 2, hold := leAt b 9 2, miss := leAt b 11 2
    info := leAt b 13 2, warn := leAt b 15 2, fault := leAt b 17 2
    firstValid := leAt b 19 2 / 2 ^ 15 % 2 == 1, firstFault := leAt b 19 2 / 2 ^ 14 % 2 == 1
    firstIdx := leAt b 19 2 % 4096, firstSrc := leAt b 21 2 % 512, firstTime := BitVec.ofNat 32 (leAt b 23 4)
    tmax := ofField 8 (byteAt b 27), preFec := BitVec.ofNat 16 (leAt b 28 2) }

/-- Value order of the rate format of R135: an exponent above a mantissa, so the code orders as the value does. -/
def rateMax (a b : BitVec 16) : BitVec 16 := if a.toNat < b.toNat then b else a

/-- a's first reporter goes before b's (R274). -/
def firstBefore (a b : Summary) : Bool :=
  if !a.firstValid then false else if !b.firstValid then true
  else if a.firstFault != b.firstFault then a.firstFault
  else if a.firstTime = b.firstTime then decide (a.firstIdx < b.firstIdx)
  else decide ((b.firstTime - a.firstTime).toNat < 2 ^ 31)

def mergeFirst (a b : Summary) : Summary :=
  if firstBefore b a then { a with firstValid := true, firstFault := b.firstFault, firstIdx := b.firstIdx
                                   firstSrc := b.firstSrc, firstTime := b.firstTime } else a

/-- Two contributions merged (R274). -/
def Summary.merge (a b : Summary) : Summary :=
  let m := { a with dev := a.dev + b.dev, alt := a.alt + b.alt, hold := a.hold + b.hold, miss := a.miss + b.miss
                    info := a.info + b.info, warn := a.warn + b.warn, fault := a.fault + b.fault, tmax := max a.tmax b.tmax
                    preFec := rateMax a.preFec b.preFec
                    beat := if (a.beat - b.beat).toNat < 2 ^ 39 then b.beat else a.beat }
  mergeFirst m b

/-- The device's own contribution, with what it has had to report. -/
def ownSummary (o : Summary) (s : State) : Summary :=
  let pre := (List.finRange 8).foldl (fun m n =>
    if s.lines[n].rx.st = .up then rateMax m (BitVec.ofNat 16 s.lines[n].eq.preFec) else m) (0 : BitVec 16)
  { o with beat := s.cad.beat, dev := 1
           alt := b2n (!standalone s && (chanterOf s).isNone && s.cad.st == 2 && s.cad.follow != primary s)
           hold := b2n (decide (3 ≤ s.cad.st)), miss := 0, firstIdx := stagIdx s
           tmax := s.therm.tmax, preFec := pre }

/-- Own contribution and the latest of each child; a child too old or with its link DOWN counts in MISS. -/
def mergedSummary (o : Summary) (s : State) (t : Tree) : Summary :=
  (downPorts t).foldl (fun m k =>
    let l := s.cad.links[k]
    match l.child with
    | none => { m with miss := m.miss + l.lostDev }
    | some c => if linkUp s k && decide ((s.cad.beat - c.beat).toNat ≤ 8) then m.merge c
                else { m with miss := m.miss + c.dev }) (ownSummary o s)

/-- SUMMARY on every upstream port that is UP; once one is sent the own counts start anew (R273, R275). -/
def sendSummaries (s : State) : State :=
  let s := [Tree.a, Tree.b].foldl (fun s t =>
    if linkUp s (upPort t) then post (upPort t) 0x81 (summaryBytes (mergedSummary s.cad.own.up s t)) s else s) s
  if linkUp s (upPort .a) || linkUp s (upPort .b) then modCad (fun c => { c with own := { c.own with up := Summary.zero } }) s else s

/-- A field rose from zero or changed by more than one eighth (R276). -/
def notable (a b : Nat) : Bool := (a == 0 && b != 0) || (a != 0 && decide (a < 8 * (if a < b then b - a else a - b)))

/-- A merged summary is judged beside the one judged before: a notable change raises the event and forms the record, at most once per
100 ms. -/
def summaryJudge (m : Summary) (s : State) : State :=
  let p := s.cad.sumPrev
  let cause := b2n (notable p.warn m.warn) + 2 * b2n (notable p.fault m.fault) + 4 * b2n (notable p.hold m.hold) +
    8 * b2n (notable p.miss m.miss)
  let s := modCad (fun c => { c with sumPrev := m }) s
  if cause ≠ 0 ∧ s.cad.sumSince ≤ s.clk then
    let s := modCad (fun c => { c with sumSince := c.sumSince.max (s.clk + 15625000) }) s
    let s := raise 0x1CD (pay2 (satU 16 m.fault) (satU 16 m.warn)) s
    (tlmForm 7 1 false 0 0 (now s) (summaryBytes m ++ [BitVec.ofNat 8 cause, 0]) s).1
  else s

/-- At the chanter, on every beat: CAD.SUM_k refreshed and judged. -/
def chanterSummary (s : State) : State :=
  match chanterOf s with
  | none => s
  | some t =>
    let m := mergedSummary s.cad.own.root s t
    summaryJudge m (modCad (fun c => { c with sum := m, own := { c.own with root := Summary.zero } }) s)

/-! ### Beat instants -/

/-- A tree's time in beats and sub-ticks, and its period: at the chanter of the tree its own (R256). -/
def treeClock (s : State) (t : Tree) : Option (BitVec 40 × Int × Nat) :=
  let x := getTree s t
  if chanterOf s = some t then some (s.cad.beat, (s.cad.elapsed : Int) - s.cad.holdBack, s.cad.period)
  else if usable s t then some (x.beat, x.elapsed, x.period) else none

/-- The offset between the two tree times is measured (R256). -/
def offsetTake (s : State) : State :=
  match treeClock s .a, treeClock s .b with
  | some a, some b =>
    modCad (fun c => { c with offsets := (((a.1 - b.1).toInt * a.2.2 + (a.2.1 - b.2.1)) :: c.offsets).take 16 }) s
  | _, _ => s

/-- What comes with every beat instant of cadence time: the set-up of R278, the offset of R256, the beat count, BEAT_OUT,
summaries, the 16-beat limits of R333, the rate check of R349. -/
def atBeat (s : State) : State :=
  let s := offsetTake (modCad (fun c => { c with cfg := reg s 0x4000, extraSent := false }) s)
  let s := countDev 0x80 1 s
  let s := if bit (reg s 0x401C) 31 then emit (.beatOut (bits (reg s 0x401C) 0 8)) s else s
  let run := s.rst.mgmtRun
  let s := modCad (fun c => { c with slots := c.slots.map fun (x : Slot) =>
    match x.deferral with
    | some d => if d.held || (actionFirmware x.action && !run) then x
                else { x with deferral := some { d with beats := d.beats + 1 } }
    | none => x }) s
  let s := chanterSummary s
  let s := sendSummaries s
  monRateCheck 1 (monRateCheck 0 s)

/-- Cadence time starts beat `num`, `past` sub-ticks ago (negative: that far ahead, so the phase is held back). A jump forward
skips windows (R268), and monitor filters restart when time steps by more than the end of a beat (R347). -/
def openBeat (num : BitVec 40) (past : Int) (step : Bool) (s : State) : State :=
  let s := modCad (fun c => { c with skipRaised := false }) s
  let to_ : CTime := BitVec.ofNat 64 (num.toNat * 2 ^ 24 + phaseOf past.toNat s.cad.period)
  let early := decide (phaseOf s.cad.elapsed s.cad.period < 0xFFFFFF)
  let s := if early || step then skipWindows to_ s else s
  let on : CTime := if step then to_ else BitVec.ofNat 64 (num.toNat * 2 ^ 24)
  let s := monEarly 1 (now s) on (monEarly 0 (now s) on s)
  let s := modCad (fun c => { c with beat := num, elapsed := past.toNat, holdBack := (-past).toNat }) s
  let s := if step then monRestart 1 (monRestart 0 s) else s
  atBeat s

/-- A reference within a beat that the device has begun already: time that is ahead is held until the reference reaches it, time
that is behind steps forward (R261). -/
def alignBeat (num : BitVec 40) (past : Int) (s : State) : State :=
  let lead : Int := (s.cad.beat - num).toInt * s.cad.period + (s.cad.elapsed : Int) - past
  if 0 ≤ lead then modCad (fun c => { c with holdBack := lead.toNat }) s
  else
    let e := s.cad.elapsed + (-lead).toNat
    let to_ : CTime := BitVec.ofNat 64 (s.cad.beat.toNat * 2 ^ 24 + phaseOf e s.cad.period)
    let s := skipWindows to_ (monEarly 1 (now s) to_ (monEarly 0 (now s) to_ s))
    monRestart 1 (monRestart 0 (modCad (fun c => { c with elapsed := e, holdBack := 0 }) s))

/-- The next beat instant of a running cadence time. -/
def startBeat (num : BitVec 40) (past : Int) (step : Bool) (s : State) : State :=
  if (num - s.cad.beat).toInt ≤ 0 then alignBeat num past s else openBeat num past step s

/-- The first beat after acquiring: the time is taken directly (R237, R238). -/
def firstBeat (num : BitVec 40) (past : Int) (s : State) : State :=
  atBeat (modCad (fun c => { c with beat := num, elapsed := past.toNat, holdBack := (-past).toNat }) s)

/-- The period estimate changes: the phase reached stays, for cadence time never runs backward (R240). -/
def setPeriod (p : Nat) (c : Cad) : Cad :=
  let ph := phaseOf c.elapsed c.period
  if p = c.period then c
  else { c with period := p, elapsed := if 0xFFFFFF ≤ ph then max c.elapsed p else (ph * p + (2 ^ 24 - 1)) / 2 ^ 24 }

/-- The period estimate: mean of the last four intervals, or the last alone with VAR (R240). -/
def nextPeriod (var : Bool) (l : List Nat) (old : Nat) : Nat :=
  match l with
  | [] => old
  | i :: _ => if var then i else meanOf (l.take 4)

/-! ### Standalone and chanter -/

/-- A free beat of 156,250 REFCLK ticks ends and the next begins (R235, R262). -/
def freeBeat (s : State) : State :=
  if standalone s && s.cad.started then startBeat (s.cad.beat + 1) 0 false s else s

/-- The BEATIN_DLY removed, in sub-ticks (R236). -/
def beatinDly (s : State) : Nat := bits (cadCfg s) 0 16 / 8

/-- A chanter's beat instant: the next beat, numbered and marked, `past` sub-ticks ago plus what is left of the slew. -/
def chanterBeat (t : Tree) (past : Nat) (step : Bool) (s : State) : State :=
  let s := startBeat (s.cad.beat + 1) ((past : Int) + s.cad.slew) step s
  sendMarks t s.cad.beat (decide (3 ≤ s.cad.st)) s

/-- One sub-tick of the slew is taken out (R258, R261). -/
def slewStep (x : Int) : Int := if 0 < x then x - 1 else if x < 0 then x + 1 else 0

/-- Beat number and identity at a chanter's start (R238). -/
def chanterFirst (t : Tree) (period : Nat) (s : State) : State :=
  let o := getTree s (otherTree t)
  let member := usable s (otherTree t)
  let id := reg s 0x4014
  let dly := beatinDly s
  let s := modCad (fun c => { c with st := 2, follow := t, period := period, intervals := c.acqIntervals.take 4
                                     edgeSeen := true, edgeAge := 0, slew := 0
                                     domain := if member then o.domain else if id = 0 then 1 else id }) s
  let s := firstBeat (if member then o.beat else 0) dly s
  sendMarks t s.cad.beat false s

/-- An interval lies from 1 µs to 1 s, and within BEAT_TOL of a mean (R237). -/
def intervalOk (i : Nat) : Bool := decide (1250 ≤ i) && decide (i ≤ 1250000000)
def nearMean (s : State) (m i : Nat) : Bool := decide ((if i < m then m - i else i - m) * beatTol s ≤ m)

/-- Intervals that agree with one another. -/
def agreeing (s : State) (l : List Nat) : Bool := l.all fun i => intervalOk i && nearMean s (meanOf l) i

/-- The intervals that count, newest first: the mean is that of four, and an interval that fails restarts the count from the later of its
two edges (R237). -/
def acqKeep (s : State) (l : List Nat) : List Nat :=
  l.takeWhile fun i => intervalOk i && (decide (l.length < 4) || nearMean s (meanOf l) i)

/-- Latency measurements that run note that this end is in holdover (R71). -/
def holdNote (s : State) : State :=
  { s with ports := s.ports.map fun (p : Port) => { p with meas := p.meas.map fun r => { r with hold := true } } }

/-- Inherited holdover begins (R260). -/
def inheritHoldover (follow : Tree) (s : State) : State :=
  holdNote (modCad (fun c => { c with st := 3, follow := follow, switchTo := none }) s)

/-- Leaves holdover and removes the offset (R261): small offsets are slewed out, larger ones corrected now. The offset is the
reference's time less the device's, in sub-ticks; the event carries it in ns. -/
def leaveHoldover (ofs : Int) (s : State) : State :=
  let s := modCad (fun c => { c with st := 2, holdCause := none, slew := if ofs.natAbs ≤ 125 then -ofs else 0 }) s
  raise 0x1C1 (BitVec.ofInt 32 (satS 32 (ofs * 4 / 5))) s

/-- Enters origin holdover, announced once (R260). -/
def enterHoldover (cause : Nat) (s : State) : State :=
  if s.cad.st = 4 then s
  else raise 0x1C0 (pay1 cause) (holdNote (modCad (fun c => { c with st := 4, holdCause := some cause }) s))

/-- A rising edge of BEAT_IN, so many sub-ticks after the last beat instant, or while acquiring after the last edge (R236,
R237). -/
def beatInEdge (d : Nat) (s : State) : State :=
  match chanterOf s with
  | none => s
  | some t =>
    if !s.refOk then s
    else if s.cad.st = 1 then
      if varBeat s then chanterFirst t s.cad.period s
      else if !s.cad.edgeSeen then modCad (fun c => { c with edgeSeen := true, acqIntervals := [] }) s
      else if d < 1250 then s
      else
        let l := acqKeep s (d :: s.cad.acqIntervals)
        if 4 ≤ l.length then chanterFirst t (meanOf (l.take 4)) (modCad (fun c => { c with acqIntervals := l }) s)
        else modCad (fun c => { c with acqIntervals := l }) s
    else
      let p := s.cad.period
      let dly := beatinDly s
      let d := ((d : Int) - dly - s.cad.slew).toNat
      let since := (d : Int) + s.cad.edgeAge
      if s.cad.st = 2 ∧ d < 1250 then s
      else if varBeat s then
        let was := s.cad.st
        let s := modCad (fun c => setPeriod d { c with intervals := (d :: c.intervals).take 4, edgeAge := 0, offEdges := none, slew := 0 }) s
        let s := if was = 4 then leaveHoldover 0 s else s
        chanterBeat t dly false s
      else if (if d < p then p - d else d - p) * beatTol s ≤ p then
        let ofs : Int := (p : Int) - d
        let l := (d :: s.cad.intervals).take 4
        let was := s.cad.st
        let s := modCad (fun c => setPeriod (nextPeriod false l c.period)
          { c with intervals := l, edgeAge := 0, offEdges := none, slew := slewStep c.slew }) s
        let s := if was = 4 then leaveHoldover ofs s else s
        chanterBeat t dly (was == 4 && decide (125 < ofs.natAbs)) s
      else
        let l := match s.cad.offEdges with
          | none => []
          | some l => if agreeing s (since.toNat :: l) then since.toNat :: l else [since.toNat]
        let s := modCad (fun c => { c with offEdges := some l, irregular := c.irregular + 1, edgeAge := -(d : Int) }) s
        let s := raiseLimited 0x1C6 0 (BitVec.ofInt 32 (satS 32 (((d : Int) - p) * 4 / 5))) s
        if 7 ≤ l.length then
          let was := s.cad.st
          let q := nextPeriod false l p
          let late := decide (p ≤ 2 * d)
          let lead : Int := (d : Int) + s.cad.slew
          let ofs : Int := if late then (p : Int) - d else -lead
          let s := modCad (fun c => setPeriod q { c with intervals := l.take 4, edgeAge := 0, offEdges := none }) s
          let s := if was = 4 then leaveHoldover ofs s
                   else modCad (fun c => { c with slew := if ofs.natAbs ≤ 125 then -ofs else 0 }) s
          if late then chanterBeat t dly true s
          else if ofs.natAbs ≤ 125 then s
          else modCad (fun c => { c with holdBack := c.holdBack + lead.toNat }) s
        else s

/-- No edge by the end of the window: the chanter makes the mark itself and is in holdover (R236). -/
def ownMark (s : State) : State :=
  match chanterOf s with
  | none => s
  | some t =>
    if s.cad.st = 1 ∨ varBeat s then s
    else
      let s := enterHoldover 1 s
      let s := modCad (fun c => { c with edgeAge := c.edgeAge + c.period, slew := 0 }) s
      chanterBeat t (s.cad.elapsed - s.cad.period) false s

/-- Variable beat: no edge for 1 s (R236). -/
def variableHoldover (s : State) : State :=
  if (chanterOf s).isSome && s.cad.st != 1 && varBeat s then enterHoldover 1 s else s

/-- A chanter acquiring for 2 s says so once (R237). -/
def acquiringTimeout (s : State) : State :=
  if (chanterOf s).isSome && s.cad.st == 1 && !s.cad.acqWarned then
    raise 0x1C0 (pay1 1) (modCad (fun c => { c with acqWarned := true }) s)
  else s

/-! ### Drones: marks, switching, holdover -/

/-- Cadence time less tree time, in sub-ticks. -/
def treeOffset (s : State) (x : TreeTime) : Int :=
  let beats : Int := (s.cad.beat - x.beat).toInt
  beats * x.period + ((s.cad.elapsed : Int) - x.elapsed)

/-- What the device takes from the tree that it follows. -/
def takeTree (t : Tree) (s : State) : State :=
  let x := getTree s t
  modCad (fun c => setPeriod x.period { c with follow := t, intervals := x.intervals, domain := x.domain, slew := slewStep c.slew }) s

/-- The device takes the tree's beat as its own, plus what is left of the slew. -/
def followTree (t : Tree) (step : Bool) (s : State) : State :=
  let x := getTree s t
  startBeat x.beat ((x.elapsed : Int) + s.cad.slew) step (takeTree t s)

/-- A drone leaves acquiring: it takes the tree's time directly (R237). -/
def firstFollow (t : Tree) (s : State) : State :=
  let x := getTree s t
  let s := modCad (fun c => { c with st := 2, slew := 0 }) s
  let s := if x.hold then inheritHoldover t s else s
  firstBeat x.beat x.elapsed (takeTree t s)

/-- The tree whose marks with HOLD a drone follows: the primary first (R260). -/
def heldTree (s : State) : Tree := if heldMarks s (primary s) then primary s else otherTree (primary s)

/-- The followed tree cannot be followed any more (R258, R260): switch to the other at its first mark, follow marks that carry
HOLD, or continue in origin holdover. `cause` is that of the tree-switched event; none: no event. -/
def treeLost (t : Tree) (cause : Option Nat) (s : State) : State :=
  if (chanterOf s).isSome || standalone s || s.cad.st == 1 then s
  else if s.cad.follow = t ∧ s.cad.st = 2 then
    if usable s (otherTree t) then modCad (fun c => { c with switchTo := some ((otherTree t), cause) }) s
    else if heldMarks s t ∨ heldMarks s (otherTree t) then
      inheritHoldover (heldTree s) s
    else enterHoldover 0 (modCad (fun c => { c with switchTo := none }) s)
  else if s.cad.st = 3 ∧ !heldMarks s t ∧ !heldMarks s (otherTree t) then enterHoldover 0 s
  else if s.cad.switchTo.any (fun x => x.1 == t) then
    (if heldMarks s t ∨ heldMarks s (otherTree t) then inheritHoldover (heldTree s) s
     else enterHoldover 0 (modCad (fun c => { c with switchTo := none }) s))
  else s

/-- Mean of the last 16 offsets of the two tree times (R256). -/
def meanOffset (s : State) : Int :=
  if s.cad.offsets.isEmpty then 0 else s.cad.offsets.foldl (· + ·) 0 / s.cad.offsets.length

/-- What a drone does at a mark of tree t, its tree time brought up to date. -/
def droneMark (t : Tree) (s : State) : State :=
  let x := getTree s t
  if s.cad.st = 1 then
    if x.hold && !(heldMarks s t) then s
    else firstFollow t s
  else if s.cad.holdCause = some 2 ∧ !s.refOk then s
  else if s.cad.switchTo.any (fun y => y.1 == t) ∧ usable s t then
    let cause := (s.cad.switchTo.bind (·.2))
    let ofs := if t = .b then meanOffset s else -meanOffset s
    let s := modCad (fun c => { c with switchTo := none, slew := ofs, st := 2 }) s
    let s := match cause with | some k => raise 0x1C2 (pay2 (treeNum t) k) s | none => s
    followTree t false s
  else if s.cad.st = 2 then
    if s.cad.follow = t then
      -- a switch away that still waits is off once the tree is usable again, but for a return to the primary tree
      (if usable s t then followTree t false (modCad (fun c => { c with switchTo := c.switchTo.filter fun y => y.2 == some 3 }) s)
       else treeLost t none (followTree t false s))
    else if s.cad.switchTo.any (fun y => y.1 == t) then
      -- the marks of the tree switched to carry HOLD: neither tree is usable (R260, R275)
      (if heldMarks s t && !usable s s.cad.follow then
        let k := heldTree s
        let s := inheritHoldover k s
        if k = t then followTree t false s else s
       else s)
    else
      -- both trees became usable on one beat: the primary goes first (R237)
      let first := t == primary s && x.good == 1 && (getTree s (otherTree t)).good == 1 && x.beat == s.cad.beat && usable s t
      let back := bit s.cad.cfg 27 && t == primary s && decide (256 ≤ x.good)
      if first then followTree t false (modCad (fun c => { c with switchTo := none, slew := 0 }) s)
      else if back && s.cad.switchTo.isNone then modCad (fun c => { c with switchTo := some (t, some 3) }) s else s
  else if usable s t then
    let ofs := -treeOffset s x
    followTree t (decide (125 < ofs.natAbs)) (leaveHoldover ofs s)
  else if heldMarks s t && (t == primary s || !heldMarks s (otherTree t)) then
    followTree t false (inheritHoldover s.cad.follow (modCad (fun c => { c with holdCause := none }) s))
  else s

/-- The port goes DOWN, with what its loss means (R247, R257, R274, R275). -/
def linkDown (k : Fin 10) (s : State) : State :=
  let l := s.cad.links[k]
  if l.st = .down ∨ l.st = .disabled then s
  else
    let was := l.st
    let s := modLink k (fun l => { l with st := .down, keep := 0, probes := 0, probeOut := false, roundTrip := none, holdRx := false, report := none }) s
    if was ≠ .up then s
    else if k.val < 2 then
      let t := linkTree k
      let s := modTree t (fun x => { x with good := 0, missing := 3, marked := none }) s
      let s := raise 0x1C3 (pay1 (treeNum t)) s
      treeLost t (some 0) s
    else
      let dev := match l.child with | some c => c.dev | none => l.lostDev
      let s := modLink k (fun l => { l with lostDev := dev, child := none }) (modCad (fun c => { c with joinWait := c.joinWait.erase k }) s)
      raise 0x1C4 (pay2 k.val (satU 16 dev)) s

/-- The MARK of a tree arrives and is stamped; the BEAT that follows says how far back its beat instant lies (R244). -/
def markArrives (t : Tree) (s : State) : State :=
  if linkUp s (upPort t) && chanterOf s != some t && !standalone s then modTree t (fun x => { x with marked := some 0 }) s else s

/-- BEAT (Table 8.4): the tree's beat instant is placed, the tree time follows it, the marks go on downstream, and the device's
cadence time is kept (R244, R255 to R261). -/
def beatMessage (t : Tree) (b : List Byte) (s : State) : State :=
  let k := upPort t
  match (getTree s t).marked with
  | none => s
  | some m =>
    let x := getTree s t
    let fl := byteAt b 7
    let past := m + (s.cad.links[k].delay + leAt b 5 2) / 8
    let var := fl / 2 % 2 == 1
    let hold := fl % 2 == 1
    let n := (BitVec.ofNat 40 (leAt b 0 5) - x.beat).toNat
    -- the interval of each beat since the last mark; after a failure none was measured
    let iv := if !x.seen then []
      else if treeFailed s t || decide (n = 0) || decide (8 < n) then x.intervals
      else (List.replicate (min n 4) ((x.elapsed - past) / n) ++ x.intervals).take 4
    let y : TreeTime :=
      { seen := true, hold := hold, var := var, enumDone := fl / 4 % 2 == 1, parentDepth := fl / 16 % 8
        domain := BitVec.ofNat 32 (leAt b 8 4), beat := BitVec.ofNat 40 (leAt b 0 5), elapsed := past
        period := nextPeriod var iv x.period, intervals := iv, missing := 0, marked := none
        good := if hold then 0 else x.good + 1 }
    let s := modLink k (fun l => { l with holdRx := hold }) (modTree t (fun _ => y) s)
    let s := if depthIn s t = 6 then (downPorts t).foldl (fun s k => modLink k (fun l => { l with st := .disabled }) (linkDown k s)) s else s
    let s := sendMarks t y.beat (hold || decide (3 ≤ s.cad.st)) s
    if (chanterOf s).isSome then s else droneMark t s

/-- A tree time without input goes on by its own period estimate: the beats that have passed are counted, and the mark of the
last one goes on downstream with HOLD (R257). -/
def treeRoll (t : Tree) (s : State) : State :=
  let x := getTree s t
  if !treeFailed s t || decide (x.period = 0) || decide (x.elapsed < x.period) then s
  else
    let s := modTree t (fun x => { x with beat := x.beat + BitVec.ofNat 40 (x.elapsed / x.period), elapsed := x.elapsed % x.period }) s
    sendMarks t (getTree s t).beat true s

/-- A third consecutive mark is missing (R257). -/
def markMissing (t : Tree) (s : State) : State :=
  let x := getTree s t
  if !x.seen || x.var || chanterOf s == some t then s
  else treeLost t (some 1) (treeRoll t (modTree t (fun x => { x with missing := 3, good := 0 }) s))

/-- A drone in origin holdover continues on its own period estimate (R260, R262). -/
def droneRoll (s : State) : State :=
  if s.cad.st = 4 && (chanterOf s).isNone && !standalone s && decide (0 < s.cad.period) && decide (s.cad.period ≤ s.cad.elapsed) then
    startBeat (s.cad.beat + 1) ((s.cad.elapsed : Int) - s.cad.period) false s
  else s

/-- The measured spread is removed from the interpolation (R242): time lost is added, time gained is held back; the tree times
are corrected as well. -/
def spreadCorrection (d : Int) (s : State) : State :=
  let fix (x : TreeTime) : TreeTime := if x.seen then { x with elapsed := ((x.elapsed : Int) + d).toNat } else x
  let s := modCad (fun c => { c with treeA := fix c.treeA, treeB := fix c.treeB }) s
  if s.cad.st = 1 ∨ (standalone s && !s.cad.started) then s
  else modCad (fun c => { c with elapsed := c.elapsed + d.toNat, holdBack := c.holdBack + (-d).toNat }) s

/-- SUMMARY from a child (R274); at the chanter what rises with it is told at once (R276). -/
def summaryArrives (k : Fin 10) (b : List Byte) (s : State) : State :=
  if k.val < 2 ∨ !linkUp s k then s
  else
    let s := modLink k (fun l => { l with child := some (summaryOf b), lostDev := 0 }) s
    if chanterOf s = some (linkTree k) then summaryJudge (mergedSummary s.cad.own.root s (linkTree k)) s else s

/-- The one extra SUMMARY within a beat when the fault count rises from zero (R273). -/
def extraSummary (s : State) : State :=
  if s.cad.own.up.fault = 0 ∨ s.cad.extraSent then s
  else modCad (fun c => { c with extraSent := true }) (sendSummaries s)

def execBeatInEdge (d : Nat) (s : State) : Host.Outcome State Fault Refusal := .next (beatInEdge d s)
def execChanterOwnMark (s : State) : Host.Outcome State Fault Refusal := .next (ownMark s)
def execVariableBeatHoldover (s : State) : Host.Outcome State Fault Refusal := .next (variableHoldover s)
def execFreeBeat (s : State) : Host.Outcome State Fault Refusal := .next (freeBeat s)
def execAcquiringTimeout (s : State) : Host.Outcome State Fault Refusal := .next (acquiringTimeout s)
def execMark (t : Tree) (s : State) : Host.Outcome State Fault Refusal := .next (markArrives t s)
def execMarkMissing (t : Tree) (s : State) : Host.Outcome State Fault Refusal := .next (markMissing t s)
def execSpreadCorrection (d : Int) (s : State) : Host.Outcome State Fault Refusal := .next (spreadCorrection d s)
def execSummary (k : Fin 10) (msg : List Byte) (crc : BitVec 16) (s : State) : Host.Outcome State Fault Refusal :=
  .next (received k 0x81 msg crc (summaryArrives k msg) s)
def execExtraSummary (s : State) : Host.Outcome State Fault Refusal := .next (extraSummary s)

end Sys2Proof.Machine
end

