-- ==== Sys2Proof/Machine/Enumeration.lean ====
section
/-! DEFINITION. Enumeration, joins and cadence indices (R251 to R255). A map of 4,096 bits is the list of its set indices. -/

namespace Sys2Proof.Machine

def mapOf (b : List Byte) (o : Nat) : List Nat :=
  (List.range 4096).filter fun i => (b.getD (o + i / 8) 0).getLsbD (i % 8)

def mapBytes (m : List Nat) : List Byte :=
  (List.range 512).map fun j => (List.range 8).foldl (fun (v : Byte) i =>
    if m.contains (8 * j + i) then v ||| BitVec.ofNat 8 (2 ^ i) else v) 0

def cntOf (b : List Byte) (o : Nat) : List Nat := (List.range 7).map fun d => leAt b (o + 2 * d) 2
def cntBytes (c : List Nat) : List Byte := (List.range 7).flatMap fun d => bytesLE 2 (c.getD d 0)

def unionMap (a b : List Nat) : List Nat := a ++ b.filter fun i => !a.contains i
def meetMap (a b : List Nat) : List Nat := a.filter b.contains

/-- Indices without a claim, ascending. -/
def freeOf (m : List Nat) : List Nat := (List.range 4096).filter fun i => !m.contains i

/-- The enumeration of a tree as this node holds it. -/
def getRun (s : State) : Tree → Option EnumRun
  | .a => s.cad.run
  | .b => s.cad.runB

def setRun (t : Tree) (r : Option EnumRun) (s : State) : State :=
  match t with
  | .a => modCad (fun c => { c with run := r }) s
  | .b => modCad (fun c => { c with runB := r }) s

/-- EPOCH of the last enumeration of a tree. -/
def epochOf (s : State) : Tree → Byte
  | .a => s.cad.epoch
  | .b => s.cad.epochB

def setEpoch (t : Tree) (e : Byte) (s : State) : State :=
  match t with
  | .a => modCad (fun c => { c with epoch := e }) s
  | .b => modCad (fun c => { c with epochB := e }) s

def downUp (s : State) (t : Tree) : List (Fin 10) := (downPorts t).filter (linkUp s)

/-- The index that the node asks to keep (R251, R252). -/
def claimOf (s : State) (t : Tree) (round : Nat) (dup : List Nat) : Option Nat :=
  let c := if bit (reg s 0x4018) 31 then some (bits (reg s 0x4018) 0 12)
           else match t with | .a => s.cad.idxB | .b => s.cad.idxA
  match c with
  | some i => if round = 2 ∧ dup.contains i then none else some i
  | none => none

/-- The index in force; a change raises the event (R255). -/
def setIndex (t : Tree) (i : Option Nat) (s : State) : State :=
  let s := modCad (fun c => match t with | .a => { c with idxA := i } | .b => { c with idxB := i }) s
  let old := (s.cad.idxValid, s.cad.idx)
  let s := match i with
    | some k => modCad (fun c => { c with idx := k, idxValid := true }) s
    | none => match (match t with | .a => s.cad.idxB | .b => s.cad.idxA) with
      | some k => modCad (fun c => { c with idx := k, idxValid := true }) s
      | none => modCad (fun c => { c with idx := 0, idxValid := false }) s
  if s.cad.idxValid && old != (true, s.cad.idx) then raise 0x1CF (pay1 s.cad.idx) s else s

/-- Applies an ENUM_ASSIGN at a node of depth D: its own index, then the bases of its children, sent on with TYPE and the
bytes before EPOCH that the message carries (R251, R254). -/
def applyAssign (t : Tree) (depth : Nat) (typ : Byte) (pre : List Byte) (epoch : Byte) (base : List Nat) (map : List Nat) (s : State) :
    State :=
  let run := getRun s t
  let claim := run.bind (·.claim)
  let free := freeOf map
  let ix := match claim with
    | some i => some i
    | none => free[base.getD depth 0]?
  let s := setIndex t ix s
  let r := (downPorts t).foldl (fun (a : State × List Nat) k =>
    match a.1.cad.links[k].report with
    | none => a
    | some rep =>
      let s := post k typ (pre ++ [epoch] ++ cntBytes a.2 ++ mapBytes map) a.1
      (s, (List.range 7).map fun d => a.2.getD d 0 + (if depth < d then rep.1.getD (d - depth - 1) 0 else 0))) (s, base)
  r.1

/-- Starts a collection at a node: claims, orders downstream, and awaits the reports (R251). -/
def beginRun (t : Tree) (epoch : Byte) (round : Nat) (dup : List Nat) (cmds : List Cmd) (ports : List (Fin 10)) (join : Option (Fin 10))
    (s : State) : State :=
  let claim := if join.isSome then none else claimOf s t round dup
  let s := (downPorts t).foldl (fun s k => if join.isNone || ports.contains k then modLink k (fun l => { l with report := none }) s else s) s
  let s := modCad (fun c => { c with joinWait := c.joinWait.filter fun k => !ports.contains k }) s
  let body := if round = 2 then [epoch, 2] ++ mapBytes dup else [epoch, 1]
  let s := ports.foldl (fun s k => post k 0x03 body s) s
  setRun t (some { epoch := epoch, round := round, claim := claim, await := ports
                   cnt := if join.isSome then List.replicate 7 0 else (if claim.isNone then 1 else 0) :: List.replicate 6 0
                   map := claim.toList, dup := [], cmds := cmds, join := join, assigned := join.isSome }) s

/-- Enumeration has run in the tree as this node knows it. -/
def enumerated (s : State) (t : Tree) : Bool :=
  if chanterOf s = some t then s.cad.enumDone else (getTree s t).enumDone

/-- The next subtree that waits is collected for a join, once the tree is enumerated and no collection is under way (R252, R254). -/
def joinNext (t : Tree) (s : State) : State :=
  let idle := match getRun s t with
    | some r => r.await.isEmpty && r.assigned
    | none => true
  if enumerated s t && idle then
    match s.cad.joinWait.find? fun k => linkTree k == t && linkUp s k with
    | some k => beginRun t (epochOf s t) 1 [] [] [k] (some k) s
    | none => s
  else s

/-- Port number of a downstream port within its tree. -/
def portNo (k : Fin 10) : Nat := (k.val - 2) % 4

/-- At the chanter: the indices that each child's subtree takes without a claim, in breadth-first order, kept for a join on the same
port (R255). -/
def portIndices (s : State) (t : Tree) (me : Nat) (base : List Nat) (free : List Nat) : List ((Nat × Nat) × List Nat) :=
  ((downPorts t).foldl (fun (a : List Nat × List ((Nat × Nat) × List Nat)) k =>
    match s.cad.links[k].report with
    | none => a
    | some rep =>
      let cnt := 0 :: rep.1.take 6
      let mine := (List.range 7).flatMap fun d => (free.drop (a.1.getD d 0)).take (cnt.getD d 0)
      ((List.range 7).map fun d => a.1.getD d 0 + cnt.getD d 0, ((me, portNo k), mine) :: a.2)) (base, [])).2

/-- The chanter, its own report complete: a second round for duplicate claims, or the assignment (R251 to R253). -/
def chanterFinish (t : Tree) (r : EnumRun) (s : State) : State :=
  if r.round = 1 ∧ r.dup ≠ [] then
    let s := r.dup.foldl (fun s i => raise 0x1C8 (pay1 i) s) s
    beginRun t r.epoch 2 r.dup r.cmds (downUp s t) none s
  else
    let total := r.cnt.foldl (· + ·) 0
    let free := freeOf r.map
    let base := (List.range 7).map fun d => (r.cnt.take d).foldl (· + ·) 0
    let s := applyAssign t 0 0x04 [] r.epoch base r.map s
    let excess := total - free.length
    let s := if 0 < excess then raise 0x1C9 (pay1 excess) s else s
    let devs := total + r.map.length
    let s := modCad (fun c => { c with enumDone := true, used := r.map ++ free.take total
                                       resv := portIndices s t (stagIdx s) base free }) s
    let s := raise 0x1C7 (pay2 (satU 16 devs) r.round) s
    let s := r.cmds.foldl (fun s c => done c (devs + 65536 * r.round) s) s
    joinNext t (setRun t (some { r with cmds := [], assigned := true }) s)

/-- A join's collection is complete: JOIN_REQ goes toward the chanter, with the counts at the depths of the tree (R254). -/
def joinBody (parent port : Nat) (epoch : Byte) (cnt map : List Nat) : List Byte :=
  bytesLE 2 parent ++ [BitVec.ofNat 8 port, epoch] ++ cntBytes cnt ++ mapBytes map

/-- The indices reserved for a parent's port (R255), ascending. Which indices the chanter's own ports gave, and earlier joins, it knows;
those of a subtree lost below another node no message tells it: which of the indices in use they are is free. -/
def reservedFor (parent port : Nat) (s : State) : List Nat × State :=
  match s.cad.resv.find? fun e => e.1 == (parent, port) with
  | some e => ((freeOf []).filter e.2.contains, s)
  | none =>
    if parent = stagIdx s then ([], s)
    else
      let d := draw s
      ((freeOf []).filter fun i => s.cad.used.contains i && d.1.testBit i, d.2)

/-- The chanter places a subtree: first the indices reserved for that port, then free ones; what is reserved and not given stays reserved
(R254, R255). -/
def grantJoin (via : Fin 10) (parent port : Nat) (epoch : Byte) (cnt map : List Nat) (s : State) : State :=
  let need := cnt.foldl (· + ·) 0
  let r := reservedFor parent port s
  let kept := r.1
  let s := r.2
  let free := (freeOf (s.cad.used ++ map)).filter fun i => !kept.contains i
  -- indices beyond the former ones go first, for the nodes take what they are given in ascending order
  let top := kept.foldl max 0
  let cand := kept ++ free.filter (fun i => decide (top < i)) ++ free.filter fun i => decide (i ≤ top)
  let got := cand.take need
  let grantMap := (List.range 4096).filter fun i => !got.contains i
  let base := (List.range 7).map fun d => (cnt.take d).foldl (· + ·) 0
  let s := modCad (fun c => { c with used := unionMap (unionMap c.used got) map
                                     resv := ((parent, port), unionMap kept got) :: c.resv.filter fun e => e.1 != (parent, port) }) s
  post via 0x05 (joinBody parent port epoch base grantMap) s

/-- A node's collection is complete. -/
def finishRun (t : Tree) (s : State) : State :=
  match getRun s t with
  | none => s
  | some r =>
    if r.await ≠ [] then s
    else match r.join with
      | some k =>
        let d := depthIn s t
        let cnt := (List.range 7).map fun i => if d < i then r.cnt.getD (i - d) 0 else 0
        let told := s.cad.links[k].report.isSome
        let s := setRun t (some { r with join := none }) s
        joinNext t (if !told then s
          else if chanterOf s = some t then grantJoin k (stagIdx s) (portNo k) r.epoch cnt r.map s
          else post (upPort t) 0x84 (joinBody (stagIdx s) (portNo k) r.epoch cnt r.map) s)
      | none =>
        if chanterOf s = some t then chanterFinish t r s
        else post (upPort t) 0x83 ([r.epoch] ++ cntBytes r.cnt ++ mapBytes r.map ++ mapBytes r.dup) s

/-- The chanter starts an enumeration with a new EPOCH (R251). -/
def startEnum (cmds : List Cmd) (s : State) : State :=
  match chanterOf s with
  | none => s
  | some t =>
    let old := match getRun s t with | some r => r.cmds | none => []
    let s := modCad (fun c => { c with enumBegun := true }) (setEpoch t (epochOf s t + 1) s)
    finishRun t (beginRun t (epochOf s t) 1 [] (old ++ cmds) (downUp s t) none s)

/-- The chanter's timer expires: 10 ms on tree A, 100 ms on tree B where no ENUM_DONE has started its first enumeration before. -/
def enumTimer (s : State) : State := if chanterOf s = some .b ∧ s.cad.enumBegun then s else startEnum [] s

/-- BEAT, with what it means for enumeration: chanter B starts on the first ENUM_DONE from UPA (R251), and a join that has waited
for the enumeration begins (R254). -/
def beatTake (t : Tree) (b : List Byte) (s : State) : State :=
  let s := beatMessage t b s
  let s := if t = .a ∧ chanterOf s = some .b ∧ !s.cad.enumBegun ∧ s.cad.treeA.enumDone then startEnum [] s else s
  joinNext .b (joinNext .a s)

/-- ENUM_ORDER arrives (R251). -/
def enumOrder (t : Tree) (b : List Byte) (s : State) : State :=
  if chanterOf s = some t ∨ !linkUp s (upPort t) then s
  else
    let dup := if byteAt b 1 = 2 then mapOf b 2 else []
    let s := setEpoch t (b.getD 0 0) s
    finishRun t (beginRun t (b.getD 0 0) (byteAt b 1) dup [] (downUp s t) none s)

/-- A child's ENUM_REPORT is merged (R251); one of another epoch is discarded. -/
def enumReport (k : Fin 10) (b : List Byte) (s : State) : State :=
  let t := linkTree k
  match getRun s t with
  | none => s
  | some r =>
    if k.val < 2 ∨ b.getD 0 0 ≠ r.epoch ∨ !r.await.contains k then s
    else
      let cnt := cntOf b 1
      let map := mapOf b 15
      let dup := mapOf b 527
      let s := modLink k (fun l => { l with report := some (cnt, map) }) s
      finishRun t (setRun t (some { r with
        await := r.await.erase k
        cnt := (List.range 7).map fun d => r.cnt.getD d 0 + (if d = 0 then 0 else cnt.getD (d - 1) 0)
        dup := unionMap r.dup (unionMap dup (meetMap r.map map))
        map := unionMap r.map map }) s)

/-- Children that have not reported within 1 ms are left out (R252). -/
def enumTimeout (t : Tree) (s : State) : State :=
  match getRun s t with
  | some r =>
    if r.await = [] then s
    else
      let late := if r.join.isNone then r.await else []
      finishRun t (setRun t (some { r with await := [] }) (modCad (fun c => { c with joinWait := c.joinWait ++ late }) s))
  | none => s

/-- ENUM_ASSIGN arrives (R251). -/
def enumAssign (t : Tree) (b : List Byte) (s : State) : State :=
  match getRun s t with
  | none => s
  | some r =>
    if b.getD 0 0 ≠ r.epoch ∨ chanterOf s = some t ∨ r.assigned then s
    else joinNext t (applyAssign t (depthIn s t) 0x04 [] r.epoch (cntOf b 1) (mapOf b 15) (setRun t (some { r with assigned := true }) s))

/-- JOIN_REQ from below: granted by the chanter, forwarded by others, who remember the way back (R254). -/
def joinReq (k : Fin 10) (b : List Byte) (s : State) : State :=
  let t := linkTree k
  if k.val < 2 ∨ !linkUp s k then s
  else if chanterOf s = some t then
    grantJoin k (leAt b 0 2) (byteAt b 2) (b.getD 3 0) (cntOf b 4) (mapOf b 18) s
  else
    post (upPort t) 0x84 b (modCad (fun c => { c with joinVia := assocSet c.joinVia (leAt b 0 2) k }) s)

/-- JOIN_GRANT from above: applied in the joining subtree, sent on PORT by its parent, forwarded toward the parent by others
(R254, Table 8.4). -/
def joinGrant (t : Tree) (b : List Byte) (s : State) : State :=
  let parent := leAt b 0 2
  if s.cad.idxValid ∧ s.cad.idx = parent then
    match (downPorts t)[byteAt b 2]? with
    | some k => if linkUp s k then post k 0x05 b s else s
    | none => s
  else match assocGet s.cad.joinVia parent with
    | some k => post k 0x05 b s
    | none => match getRun s t with
      | some r => if r.epoch = b.getD 3 0 ∧ !r.assigned then
          joinNext t (applyAssign t (depthIn s t) 0x05 (b.take 3) r.epoch (cntOf b 4) (mapOf b 18) (setRun t (some { r with assigned := true }) s))
        else s
      | none => s

def execEnumerationStart (s : State) : Host.Outcome State Fault Refusal := .next (enumTimer s)
def execEnumOrder (t : Tree) (msg : List Byte) (crc : BitVec 16) (s : State) : Host.Outcome State Fault Refusal :=
  .next (received (upPort t) 0x03 msg crc (enumOrder t msg) s)
def execEnumReport (k : Fin 10) (msg : List Byte) (crc : BitVec 16) (s : State) : Host.Outcome State Fault Refusal :=
  .next (received k 0x83 msg crc (enumReport k msg) s)
def execEnumReportTimeout (t : Tree) (s : State) : Host.Outcome State Fault Refusal := .next (enumTimeout t s)
def execEnumAssign (t : Tree) (msg : List Byte) (crc : BitVec 16) (s : State) : Host.Outcome State Fault Refusal :=
  .next (received (upPort t) 0x04 msg crc (enumAssign t msg) s)
def execJoinReq (k : Fin 10) (msg : List Byte) (crc : BitVec 16) (s : State) : Host.Outcome State Fault Refusal :=
  .next (received k 0x84 msg crc (joinReq k msg) s)
def execJoinGrant (t : Tree) (msg : List Byte) (crc : BitVec 16) (s : State) : Host.Outcome State Fault Refusal :=
  .next (received (upPort t) 0x05 msg crc (joinGrant t msg) s)

end Sys2Proof.Machine
end

