-- ==== Sys2Proof/Machine/Links.lean ====
section
/-! DEFINITION. Cadence links: states, probes, keep-alives (R244 to R249), and domain entries (R270, R271). -/

namespace Sys2Proof.Machine

/-- The port reaches UP: reported; a new subtree waits for its join after enumeration (R254). -/
def linkCheckUp (k : Fin 10) (s : State) : State :=
  let l := s.cad.links[k]
  if l.st = .align ∧ 16 ≤ l.keep ∧ 16 ≤ l.probes then
    let s := raise 0x1C5 (pay1 k.val) (modLink k (fun l => { l with st := .up }) s)
    if 2 ≤ k.val then joinNext (linkTree k) (modCad (fun c => { c with joinWait := c.joinWait ++ [k] }) s) else s
  else s

def commaAlign (k : Fin 10) (s : State) : State :=
  if s.cad.links[k].st = .down ∧ domOn s 3 then
    modLink k (fun l => { l with st := .align, keep := 0, probes := 0, delays := [] }) s
  else s

/-- A keep-alive (Table 8.2), and the code violations seen on the port since the one before: bit 0 carries HOLD downstream; the
byte is 0 otherwise, and a keep-alive with any other byte is not a good one. HOLD_RX follows the marks (Table 8.17). -/
def keepAlive (k : Fin 10) (d : Byte) (viol : Nat) (s : State) : State :=
  let l := s.cad.links[k]
  let s := if l.st = .down ∨ l.st = .disabled then s else (List.range viol).foldl (fun s _ => linkError k s) s
  let ok := if k.val < 2 then decide (d.toNat ≤ 1) else d == 0
  if l.st = .down ∨ l.st = .disabled then s
  else if !ok then modLink k (fun l => { l with keep := 0 }) s
  else linkCheckUp k (modLink k (fun l => { l with keep := l.keep + 1 }) s)

/-- Time for a probe from parent to child (R244). -/
def probeInterval (k : Fin 10) (s : State) : State :=
  if 2 ≤ k.val && linkAlive s k then emit (.probe k) (modLink k (fun l => { l with probeOut := true }) s) else s

/-- A PROBE from the parent: echoed, and the measured turnaround reported (R244). -/
def probeArrives (t : Tree) (s : State) : State :=
  let k := upPort t
  if linkAlive s k then
    let s := emit (.probeEcho k) s
    let (v, s) := draw s
    let s := post k 0x82 (bytesLE 3 v) s
    linkCheckUp k (modLink k (fun l => { l with probes := l.probes + 1 }) s)
  else s

def probeEchoArrives (k : Fin 10) (rt : Nat) (s : State) : State :=
  if s.cad.links[k].probeOut then modLink k (fun l => { l with probeOut := false, roundTrip := some rt }) s else s

/-- PROBE_TURN: half of the round trip less the turnaround, averaged over the last 16 probes, goes to the child; a delay above
2 µs disables the port (R244, R247). -/
def probeTurn (k : Fin 10) (b : List Byte) (s : State) : State :=
  match s.cad.links[k].roundTrip with
  | none => s
  | some rt =>
    let d := (rt - leAt b 0 3) / 2
    let ds := (d :: s.cad.links[k].delays).take 16
    let m := meanOf ds
    let s := modLink k (fun l => { l with roundTrip := none, delays := ds, delay := m, probes := l.probes + 1 }) s
    let s := post k 0x02 (bytesLE 3 m) s
    if 20000 < m then modLink k (fun l => { l with st := .disabled }) (linkDown k s) else linkCheckUp k s

/-- LINK_DELAY from the parent. -/
def linkDelay (t : Tree) (b : List Byte) (s : State) : State :=
  let k := upPort t
  if linkAlive s k then
    let s := modLink k (fun l => { l with delay := leAt b 0 3 }) s
    if 20000 < leAt b 0 3 then modLink k (fun l => { l with st := .disabled }) (linkDown k s) else s
  else s

/-- ABORT ends the message being sent, which is discarded (R246): nothing of it has acted, for a message acts with its EOM. A MARK that
was inserted in it stands, and its BEAT is still to come. -/
def abortArrives (_ : Fin 10) (s : State) : State := s

/-! ### Domain entries (R270, R271) -/

def broadcast (t : Tree) (typ : Byte) (b : List Byte) (s : State) : State :=
  (downUp s t).foldl (fun s k => post k typ b s) s

/-- Frees every slot with DOM = 1 and the TAG. -/
def domFree (tag : Word) (s : State) : State :=
  let s := forFin 256 (fun i s => let x := s.cad.slots[i]; if x.valid && x.dom && x.tag == tag then clearSlot i s else s) s
  modCad (fun c => { c with domTags := c.domTags.filter fun e => e.1 != tag }) s

/-- Installs an entry where the index is in range; the same TAG from the other tree is the same entry. -/
def domTake (t : Tree) (b : List Byte) (s : State) : State :=
  let tag := BitVec.ofNat 32 (leAt b 32 4)
  let i := s.cad.idx
  if s.cad.domTags.contains (tag, otherTree t) then
    modCad (fun c => { c with domTags := c.domTags.erase (tag, otherTree t) }) s
  else
    let s := modCad (fun c => { c with domTags := c.domTags ++ [(tag, t)] }) s
    if s.cad.idxValid ∧ leAt b 0 2 ≤ i ∧ i ≤ leAt b 2 2 then domInstall (b.drop 4) tag s else s

/-- A chanter of tree B passes on to its tree what comes from tree A (R271). -/
def relay (t : Tree) (typ : Byte) (b : List Byte) (s : State) : State :=
  let s := if chanterOf s = some t then s else broadcast t typ b s
  if s.cad.role = 3 ∧ t = .a then broadcast .b typ b s else s

def domEntry (t : Tree) (b : List Byte) (s : State) : State :=
  if linkUp s (upPort t) ∧ !standalone s ∧ chanterOf s ≠ some t then relay t 0x06 b (domTake t b s) else s

def domCancelMsg (t : Tree) (b : List Byte) (s : State) : State :=
  if linkUp s (upPort t) ∧ !standalone s ∧ chanterOf s ≠ some t then
    relay t 0x07 b (domFree (BitVec.ofNat 32 (leAt b 0 4)) s) else s

def execBeat (t : Tree) (msg : List Byte) (crc : BitVec 16) (s : State) : Host.Outcome State Fault Refusal :=
  .next (received (upPort t) 0x01 msg crc (beatTake t msg) s)
def execProbeInterval (k : Fin 10) (s : State) : Host.Outcome State Fault Refusal := .next (probeInterval k s)
def execProbe (t : Tree) (s : State) : Host.Outcome State Fault Refusal := .next (probeArrives t s)
def execProbeEcho (k : Fin 10) (rt : Nat) (s : State) : Host.Outcome State Fault Refusal := .next (probeEchoArrives k rt s)
def execProbeTurn (k : Fin 10) (msg : List Byte) (crc : BitVec 16) (s : State) : Host.Outcome State Fault Refusal :=
  .next (received k 0x82 msg crc (probeTurn k msg) s)
def execLinkDelay (t : Tree) (msg : List Byte) (crc : BitVec 16) (s : State) : Host.Outcome State Fault Refusal :=
  .next (received (upPort t) 0x02 msg crc (linkDelay t msg) s)
def execKeepAlive (k : Fin 10) (d : Byte) (viol : Fin 101) (s : State) : Host.Outcome State Fault Refusal :=
  .next (keepAlive k d viol.val s)
def execKeepAliveMissing (k : Fin 10) (s : State) : Host.Outcome State Fault Refusal := .next (linkDown k s)
def execCommaAlignment (k : Fin 10) (s : State) : Host.Outcome State Fault Refusal := .next (commaAlign k s)
def execLinkAlignmentLost (k : Fin 10) (s : State) : Host.Outcome State Fault Refusal := .next (linkDown k (linkError k s))
def execAbort (k : Fin 10) (s : State) : Host.Outcome State Fault Refusal := .next (abortArrives k s)
def execDomEntry (t : Tree) (msg : List Byte) (crc : BitVec 16) (s : State) : Host.Outcome State Fault Refusal :=
  .next (received (upPort t) 0x06 msg crc (domEntry t msg) s)
def execDomCancelMessage (t : Tree) (msg : List Byte) (crc : BitVec 16) (s : State) : Host.Outcome State Fault Refusal :=
  .next (received (upPort t) 0x07 msg crc (domCancelMsg t msg) s)

end Sys2Proof.Machine
end

