-- ==== Sys2Proof/Machine/Num.lean ====
section
/-! DEFINITION. Rounding, the logarithms of the quality figures, the rate format (R135) and the inverse of the normal tail
(R136), in exact integer arithmetic. -/

namespace Sys2Proof.Machine

/-- a / b rounded to nearest, halves away from zero (R146). -/
def roundDiv (a : Int) (b : Nat) : Int :=
  let m : Int := ((2 * a.natAbs + b) / (2 * b) : Nat)
  if a < 0 then -m else m

def roundRat (q : Rat) : Int := roundDiv q.num q.den

/-- The largest k < 2^fuel with ok k, ok falling once from true to false; 0 where ok 0 fails. -/
def bisect (ok : Nat → Bool) : Nat → Nat → Nat
  | 0, lo => lo
  | f + 1, lo => bisect ok f (if ok (lo + 2 ^ f) then lo + 2 ^ f else lo)

/-- 1000 · log10(n / d) rounded to nearest, for n ≥ d > 0: the largest k with 10^(2k − 1) ≤ (n / d)^2000. -/
def cdBUp (n d : Nat) : Nat := bisect (fun k => decide (10 ^ (2 * k - 1) * d ^ 2000 ≤ n ^ 2000)) 15 0

/-- 10 · log10(n / d) in units of 0.01 dB; both must be above 0. -/
def cdB (n d : Nat) : Int := if d ≤ n then (cdBUp n d : Int) else -(cdBUp d n : Int)

/-- 20 · log10(n / d) in gain steps of 0.25 dB, rounded, at most `lim` of them either way (R88). -/
def gainSteps (n d lim : Nat) : Int :=
  if n = 0 then -(lim : Int)
  else if d = 0 then lim
  else
    let up (a b : Nat) : Nat :=
      ((List.range lim).filter fun k => decide (10 ^ (2 * k + 1) * b ^ 160 ≤ a ^ 160)).length
    if d ≤ n then (up n d : Int) else -(up d n : Int)

/-- Rate format (R135) of n / d, d above 0: the largest exponent whose rounded mantissa stays below 1,024. -/
def rateOf (n d : Nat) : BitVec 16 :=
  if n = 0 ∨ d = 0 then 0
  else
    let m (e : Nat) : Nat := (2 * n * 2 ^ (e + 10) + d) / (2 * d)
    match (List.range 64).reverse.find? fun e => decide (m e < 1024) with
    | some e => BitVec.ofNat 16 (e * 1024 + m e)
    | none => 1023

/-- The value of a rate code: mantissa over 2^(E + 10). -/
def rateVal (r : BitVec 16) : Rat := (bits r 0 10 : Rat) / ((2 ^ (bits r 10 6 + 10) : Nat) : Rat)

/-- Terms of the series of the normal integral at x (units of 2⁻²⁴), scaled by 2²⁰⁰. -/
def qSum (x : Nat) : Nat → Nat → Int → Int → Int
  | 0, _, _, acc => acc
  | f + 1, k, term, acc =>
    let acc := acc + term / ((2 * k + 1 : Nat) : Int)
    qSum x f (k + 1) (-(term * (x * x : Nat)) / ((2 ^ 48 * 2 * (k + 1) : Nat) : Int)) acc

/-- Upper tail of the standard normal distribution at x (units of 2⁻²⁴), scaled by 2²⁰⁰. -/
def qTail (x : Nat) : Int :=
  (2 ^ 199 : Nat) - qSum x 280 0 ((x * 2 ^ 176 : Nat) : Int) 0 *
    398942280401432677939946059934381868475858631164934657665925830 / ((10 ^ 63 : Nat) : Int)

/-- Q⁻¹ of a rate code below one half, in units of 2⁻²⁴. -/
def qInv (r : BitVec 16) : Nat :=
  bisect (fun x => decide (((bits r 0 10 * 2 ^ 200 / 2 ^ (bits r 10 6 + 10) : Nat) : Int) ≤ qTail x)) 28 0

/-- Q⁻¹ of the reference threshold of a code, in units of 10⁻³ (Table 4.5). -/
def qRef (code : Nat) : Nat := match code with
  | 0 => 2652
  | 1 => 2257
  | 2 => 3492
  | _ => 2878

/-- The reference threshold itself, in units of 10⁻⁵ (Table 4.5). -/
def berRef (code : Nat) : Nat := match code with
  | 0 => 400
  | 1 => 1200
  | 2 => 24
  | _ => 200

/-- The margin of a pre-FEC rate code, 0.01 dB (R136); the code must stand for less than one half. -/
def marginOf (code : Nat) (r : BitVec 16) : Int :=
  let q := qInv r * 1000
  let b := qRef code * 2 ^ 24
  cdB (q * q) (b * b)

end Sys2Proof.Machine
end

