-- ==== Sys2Proof/Machine/Lane.lean ====
section
/-! DEFINITION. Shared operations of the line and host lanes: domains and readiness, the optics control port, equaliser initial
values, transmitter states, outages and squelch, entries into the acquisition states (chapters 3 to 5 and 7). -/

namespace Sys2Proof.Machine

/-- Ticks of 6.4 ns in whole microseconds. -/
def ticksUs (t : Nat) : Nat := t * 4 / 625

def rxDomain (n : Fin 8) : Nat := 12 + n.val
def txDomain (n : Fin 8) : Nat := 20 + n.val
def hostDomain (n : Fin 16) : Nat := 28 + n.val
def framerDomain (n : Fin 8) : Nat := 44 + n.val / 2

/-- ACQ_STS.STATE code of a state (Table 3.6). -/
def acqCode : AcqState → Nat
  | .off => 0 | .dark => 1 | .gain => 2 | .timing => 3 | .train => 4 | .frame => 5 | .up => 6 | .relock => 7

/-- RX_STS.STATE code of a host state (Table 7.5). -/
def hostCode : HostState → Nat
  | .off => 0 | .idle => 1 | .timing => 2 | .ctle => 3 | .adapt => 4 | .up => 5 | .resume => 6

/-- No lane leaves OFF during a cold reset and its exit up to firmware's boot (R428), nor while a reset of it is held. -/
def laneHeld (s : State) (id : LaneId) : Bool :=
  s.rst.exits.any (·.cold) || s.rst.episodes.any fun e => e.reach.data || e.reach.lanes.contains id

/-- The receive path of a line lane, its transmitter, a host lane may run: domain on, no reset held, used by the mode, its PLL
locked, not under test (Table 3.4, R156, Table 7.1, R39, R451). -/
def rxReady (s : State) (n : Fin 8) : Bool :=
  domOn s (rxDomain n) && !laneHeld s (.line n) && lineUsed (modeOf s) && s.refOk && !s.lines[n].rx.inTest
def txReady (s : State) (n : Fin 8) : Bool :=
  domOn s (txDomain n) && !laneHeld s (.line n) && lineUsed (modeOf s) && s.refOk && !s.lines[n].rx.inTest
def hostReady (s : State) (n : Fin 16) : Bool :=
  domOn s (hostDomain n) && !laneHeld s (.host n) && hostUsed (modeOf s) n && s.refOk && !s.hosts[n].inTest

/-! ### Bank fields of a line lane -/

def LineBank.txOff (b : LineBank) : Bool := bit b.txCfg 15
def LineBank.trnEn (b : LineBank) : Bool := bit b.txCfg 14
def LineBank.trnReq (b : LineBank) : Bool := bit b.txCfg 13
def LineBank.nlpdEn (b : LineBank) : Bool := bit b.txCfg 12
def LineBank.firMain (b : LineBank) : Nat := bits b.txCfg 8 4
def LineBank.amp (b : LineBank) : Nat := bits b.txCfg 0 7
def LineBank.mainTap (b : LineBank) : Nat := bits b.eqCtl 8 6
def LineBank.tiaEn (b : LineBank) : Bool := bit b.rxfe 9
def LineBank.drvEn (b : LineBank) : Bool := bit b.drv 29

/-- The 15 taps and the 64 table entries of a bank (Tables 5.9, 5.10). -/
def LineBank.txSet (b : LineBank) : TxSet :=
  { fir := (List.range 15).map fun i => ofField 10 (bits (b.fir.getD (i / 2) 0) (16 * (i % 2)) 10)
    nl := (List.range 64).map fun i => ofField 8 (bits (b.nlpd.getD (i / 4) 0) (8 * (i % 4)) 8) }

/-! ### Optics control port (R173) -/

def csCfg (s : State) (cs : Nat) : Word := reg s (0xA000 + 4 * cs)

/-- Bytes of a register read or write on a chip select: 24 bits with FMT = 1, else 16 bits with the read bit. -/
def ocpBytes (s : State) (cs addr : Nat) (read : Bool) (data : Nat) : List Byte :=
  let c := csCfg s cs
  if bit c 2 then [BitVec.ofNat 8 (if read then bits c 24 8 else bits c 16 8), BitVec.ofNat 8 addr, BitVec.ofNat 8 data]
  else [BitVec.ofNat 8 (b2n (read != bit c 1) * 128 + addr % 128), BitVec.ofNat 8 data]

def isXfer : OcpWhat → Bool
  | .xfer _ => true
  | _ => false

/-- A transaction of firmware that no longer stands: TIA writes stop with the management plane, and with TIA_EN (R90, R92). -/
def ocpStale (s : State) (t : OcpTrans) : Bool := match t.what with
  | .tiaWrite n _ _ | .tiaRead n _ _ => !s.rst.mgmtRun || !s.lines[n].act.tiaEn || s.lines[n].rx.st == .off
  | _ => false

/-- One that shall not start: a TIA write as well once writes are stopped, or whose code a new bank does not permit (R90, R92). -/
def ocpDead (s : State) (t : OcpTrans) : Bool := ocpStale s t || match t.what with
  | .tiaWrite n code _ =>
    let b := s.lines[n].act.tia
    s.lines[n].rx.tiaStopped || decide (code < bits b 12 4) || decide (bits b 16 4 < code)
  | _ => false

/-- A transaction is dropped before it has begun: no VGA step follows a TIA write that was never made (R91). -/
def ocpDropped (t : OcpTrans) (s : State) : State := match t.what with
  | .tiaWrite n _ _ => modRx n (fun r => { r with vgaStepDue := none }) s
  | _ => s

/-- A TIA gain code write of a lane as its active bank addresses it (R90). -/
def tiaTrans (s : State) (n : Fin 8) (code tries : Nat) : OcpTrans :=
  let c := s.lines[n].act.tia
  { what := .tiaWrite n code tries, cs := bits c 30 2, addr := bits c 20 8
    send := ocpBytes s (bits c 30 2) (bits c 20 8) false code, rd := 0 }

/-- A driver gain write of a lane as its active bank addresses it (R174). -/
def drvTrans (s : State) (n : Fin 8) (code tries : Nat) : OcpTrans :=
  let c := s.lines[n].act.drv
  { what := .drvWrite n code tries, cs := bits c 30 2, addr := bits c 16 8
    send := ocpBytes s (bits c 30 2) (bits c 16 8) false code, rd := 0 }

/-- A write of firmware takes chip select and register from the bank in force as it starts. -/
def ocpFresh (s : State) (t : OcpTrans) : OcpTrans := match t.what with
  | .tiaWrite n code tries => tiaTrans s n code tries
  | .drvWrite n code tries => drvTrans s n code tries
  | _ => t

/-- The transaction at the head starts; those that no longer stand are dropped before it. -/
def ocpStart (s : State) : State :=
  let s := (s.ocp.takeWhile (ocpDead s)).foldl (fun s t => ocpDropped t s) { s with ocp := s.ocp.dropWhile (ocpDead s) }
  match s.ocp with
  | [] => s
  | t :: l =>
    let t := ocpFresh s t
    emit (.spi t.cs t.send) { s with ocp := t :: l }

/-- Queues a transaction: firmware's TIA and driver writes go before host transactions that wait. -/
def ocpPush (t : OcpTrans) (s : State) : State :=
  match s.ocp with
  | [] => ocpStart { s with ocp := [t] }
  | h :: l =>
    if isXfer t.what then { s with ocp := h :: (l ++ [t]) }
    else { s with ocp := h :: (l.filter (fun x => !isXfer x.what) ++ t :: l.filter fun x => isXfer x.what) }

/-- A TIA gain code write of a lane (R90, R92); none while PD_11 is off. -/
def tiaWrite (n : Fin 8) (code tries : Nat) (s : State) : State :=
  if !domOn s 11 then s else ocpPush (tiaTrans s n code tries) s

/-- The driver gain write of a lane (R174); none while PD_11 is off. -/
def drvWrite (n : Fin 8) (code tries : Nat) (s : State) : State :=
  if !domOn s 11 then s else ocpPush (drvTrans s n code tries) s

/-! ### Transmitter (R156 to R163) -/

/-- The state that R156 gives a line transmitter. -/
def txTarget (s : State) (n : Fin 8) : TxState :=
  if !txReady s n then .off else if s.lines[n].act.txOff then .idle else .run

/-- The live set on entry to RUN (R163); in mode 4 the transmitter holds its bank settings (R60). -/
def txLoad (mode : Nat) (l : Line) : TxSet :=
  if l.act.trnEn && mode != 4 then l.tx.lastGood.getD l.act.txSet else l.act.txSet

/-- Entry to RUN: the start sequence of R158 begins; without PD_11 there is no driver write to wait for. -/
def txStart (n : Fin 8) (s : State) : State :=
  let drv := s.lines[n].act.drvEn && domOn s 11
  let mode := modeOf s
  let s := modLine n (fun l => { l with tx := { l.tx with
    st := .run, live := txLoad mode l, drain := none, waitDriver := drv, dacOn := !drv } }) s
  if drv then drvWrite n (bits s.lines[n].act.drv 0 8) 1 s else s

/-- With TRN_EN = 0 the live set always equals the active bank (R163), once power is on and no reset is held (R176). -/
def txPlainSet (n : Fin 8) (s : State) : State :=
  if domOn s (txDomain n) && !laneHeld s (.line n) && !s.lines[n].act.trnEn then
    modLine n (fun l => { l with tx := { l.tx with live := l.act.txSet } }) s
  else s

/-- The transmitter moves to the state that its conditions give: TX_DISABLE_n rises on the tick of leaving RUN, and the DAC
goes idle later (R158). A transmitter that leaves OFF has the delay of its bank (R150). -/
def txUpdate (n : Fin 8) (s : State) : State :=
  let s := txPlainSet n s
  let t := txTarget s n
  let l := s.lines[n].tx
  if l.st = t then s
  else
    let s := if l.st = .off then modLine n (fun l => { l with tx := { l.tx with skew := bits l.act.txCfg 24 8 } }) s else s
    if t = .run then txStart n s else modTx n (fun x => { x with st := t, txDis := true, waitDriver := false }) s

def txUpdateAll (s : State) : State := forFin 8 txUpdate s

/-- TX registers at their reset values (R176): the DAC is kept, and one that runs sends frames for 10 µs more (R158). -/
def LineTx.cleared (x : LineTx) : LineTx :=
  { LineTx.reset x.dac with
    dacOn := x.dacOn, fill := x.fill, sentAt := x.sentAt, pre := x.pre, tail := x.tail, clips := x.clips
    drain := if x.dacOn then some (x.drain.getD x.live) else none }

/-- The domain is off, or a reset reaches the path: the last-good bank and the TRAIN_START commands that wait are kept. -/
def txClear (n : Fin 8) (s : State) : State :=
  modTx n (fun x => { x.cleared with lastGood := x.lastGood, trainCmds := x.trainCmds }) s

/-! ### Equaliser (R110 to R112, R125, R129, R138) -/

/-- An accumulated coefficient in units of 1/u: what acts on the samples (R110, R114, R115, R213). -/
def unitsOf (u : Nat) (v : Rat) : Rat := (roundRat (v * (u : Rat)) : Rat) / (u : Rat)

/-- The coefficients that act: 12 bits of 2⁻⁸, the compensator's 10 bits of 2⁻¹⁰, h1 and h2 10 bits of 2⁻⁹. -/
def EqCoefs.applied (c : EqCoefs) : EqCoefs :=
  { c with main := c.main.map (unitsOf 256), fg := c.fg.map (unitsOf 256), nl := c.nl.map (unitsOf 1024)
           h1 := unitsOf 512 c.h1, h2 := unitsOf 512 c.h2 }

/-- What a capture latches of the coefficients in force; under the overlay H2 is the held value (R129, Table 4.21). -/
def LineEq.inForce (e : LineEq) : EqCoefs := { e.live.applied with h2 := unitsOf 512 (if e.muted then e.heldH2 else e.live.h2) }

/-- The coefficients are about to change: those applied before this tick are noted (R129). -/
def eqNote (n : Fin 8) (s : State) : State :=
  modEq n (fun e => if e.prior.any fun x => x.1 == s.clk then e else { e with prior := some (s.clk, e.inForce) }) s

/-- The main-span taps in use (R111). -/
def tapUsed (b : LineBank) (muted : Bool) (i : Nat) : Bool :=
  if bit b.eqCtl 24 || muted then
    let lo := min (b.mainTap - 8) 32
    decide (lo ≤ i) && decide (i < lo + 32)
  else true

def nlUsed (b : LineBank) (muted : Bool) : Bool := bit b.eqCtl 0 && !muted
def det16 (b : LineBank) (muted : Bool) : Bool := bit b.eqCtl 3 && !muted

/-- Position of group j in the bank with FG_AUTO = 0 (Table 4.10). -/
def bankPos (b : LineBank) (j : Nat) : Option Int :=
  let w := if j < 2 then b.fgPos0 else b.fgPos1
  if bit w (16 * (j % 2) + 15) then some (ofField 10 (bits w (16 * (j % 2)) 10)) else none

def initRat (l : List (BitVec 16)) (i w : Nat) : Rat := (ofField w ((l.getD i 0).toNat % 2 ^ w) : Rat)

/-- Initial values of the loops in a bank (R125): main span, groups, compensator, target and levels. -/
def initMain (b : LineBank) : List Rat :=
  (List.range 64).map fun i =>
    if bits b.eqCtl 16 2 = 1 then initRat b.initMain i 12 / 256 else if i = b.mainTap then 4 else 0
def initFg (b : LineBank) : List Rat :=
  (List.range 16).map fun i => if bits b.eqCtl 16 2 = 1 then initRat b.initFg i 12 / 256 else 0
def initNl (b : LineBank) : List Rat :=
  (List.range 15).map fun i => if bits b.eqCtl 16 2 = 1 then initRat b.initNl i 10 / 1024 else 0
def clampQ (lo hi v : Rat) : Rat := max lo (min hi v)

/-- h1, h2 and OFS of the table, within the bounds of R124. -/
def initTgt (b : LineBank) (i : Nat) : Rat :=
  if bits b.eqCtl 16 2 = 1 then
    (if i < 2 then clampQ (-3 / 4) (3 / 4) (initRat b.initTgt i 10 / 512) else clampQ (-32) 32 (initRat b.initTgt i 16))
  else 0
def initPos (b : LineBank) : List (Option Int) :=
  (List.range 4).map fun j => if bit b.eqCtl 1 && !bit b.eqCtl 2 then bankPos b j else none

def maskTaps (b : LineBank) (muted : Bool) (l : List Rat) : List Rat :=
  (List.range 64).map fun i => if tapUsed b muted i then l.getD i 0 else 0

/-- Restarts one loop from the initial values of the active bank: 0 main span, 1 floating groups, 2 compensator, 3 target and
levels. Under the mute overlay what is held takes the initial values and the live part stays reduced (R139). -/
def restartLoop (b : LineBank) (loop : Nat) (e : LineEq) : LineEq :=
  let v := e.live
  match loop with
  | 0 =>
    let c := initMain b
    { e with live := { v with main := maskTaps b e.muted c }, heldMain := if e.muted then c else e.heldMain }
  | 1 => { e with live := { v with fg := initFg b, pos := initPos b }, sweep := none, placed := false }
  | 2 =>
    let c := initNl b
    { e with live := { v with nl := if nlUsed b e.muted then c else List.replicate 15 0 }
             heldNl := if e.muted then c else e.heldNl }
  | _ =>
    let o := initTgt b 2
    { e with live := { v with h1 := initTgt b 0, h2 := if det16 b e.muted then initTgt b 1 else 0
                              ofs := o, lvl1 := -32 + o, lvl2 := 32 + o }
             heldH2 := if e.muted then initTgt b 1 else e.heldH2 }

def restartAll (b : LineBank) (e : LineEq) : LineEq :=
  restartLoop b 3 (restartLoop b 2 (restartLoop b 1 (restartLoop b 0 e)))

/-- Placement is wanted (R113, R121): groups enabled, automatic, not frozen. -/
def placeWanted (b : LineBank) : Bool := bit b.eqCtl 1 && bit b.eqCtl 2 && !bit b.eqCtl 5

/-- Phase 2 begins. In TRAIN the floating-group sweep starts where placement is wanted and not done (R113). -/
def eqPhase2 (train : Bool) (b : LineBank) (e : LineEq) : LineEq :=
  { e with phase := 2, again := false
           sweep := if train && placeWanted b && !e.placed && e.sweep.isNone then
                      some { blocks := 0, corr := [], cur := [], main := 0 } else e.sweep }

/-- The photocurrent comparator of a lane with LOS_SRC = 1 is below its threshold (R89). -/
def compDark (s : State) (n : Fin 8) : Bool := bit s.lines[n].act.rxfe 12 && !s.comp[n.castLE (by decide : 8 ≤ 32)].level

/-- The signal detector reports light: the RMS level, and with LOS_SRC = 1 the comparator as well (R89). -/
def lightSeen (s : State) (n : Fin 8) : Bool := s.lines[n].rx.sigDet && !compDark s n

/-- A lane is margin-eligible for the mute stage (R140). -/
def muteOk (l : Line) : Bool :=
  (l.rx.st == .up) && l.eq.conv && decide (10 * (bits l.act.qual 0 8 : Int) ≤ l.eq.margin - l.eq.mutePen)

/-! ### Squelch and outage (R53, R103, R104) -/

/-- The port's host output is squelched, for whichever reason. -/
def portSquelched (s : State) (p : Fin 8) : Bool :=
  (linesOfPort (modeOf s) p).any (fun n => s.lines[n].rx.squelch) ||
  s.ports[p].sqDeskew || s.ports[p].sqIdentity || s.ports[p].sqBuffers || s.ports[p].inTest ||
  (linesOfPort (modeOf s) p).any fun n => s.lines[n].rx.inTest

/-- A lane squelches its port; `loud`: with the event. -/
def squelch (n : Fin 8) (loud : Bool) (s : State) : State :=
  match portOfLine (modeOf s) n with
  | none => s
  | some p =>
    if s.lines[n].rx.squelch then s
    else
      let s := modRx n (fun r => { r with squelch := true }) s
      if loud then raise (lineSrc n 0x06) (pay1 p.val) s else s

/-- The lane leaves UP: its outage begins or goes on, and past its 2 ms point the port is squelched again at once. -/
def outageStart (n : Fin 8) (s : State) : State :=
  let s := modRx n (fun r => if r.outage then { r with outSince := s.clk }
    else { r with outage := true, outTicks := 0, outSince := s.clk, past2ms := false }) s
  if s.lines[n].rx.past2ms then squelch n true s else s

/-- The lane leaves OFF: it begins in an outage past its 2 ms point, and squelches its port without the event (R103). -/
def outageFromOff (n : Fin 8) (s : State) : State :=
  squelch n false (modRx n (fun r => { r with outage := true, outTicks := 0, outSince := s.clk, past2ms := true }) s)

/-! ### Entries into the line receive states (Table 3.4) -/

/-- GAIN: cold acquisition begins, or is tried again (`again`: the time in the UP-reached payload runs on). The stored bank is
invalid (R128), CONV clear, floating-group positions dropped (R113); the TIA code is picked from the first level that the gain
loop measures (R91). -/
def enterGain (n : Fin 8) (again : Bool) (s : State) : State :=
  let s := modRx n (fun r => { r with
    st := .gain, coldCnt := satU 8 (r.coldCnt + 1), inFrame := false, goodHdr := 0, badHdr := 0, cdrLock := false
    skewWins := 0, tiaPick := true, tiaWanted := none, vgaStepDue := none, acqStart := if again then r.acqStart else s.clk }) (eqNote n s)
  modLine n (fun l => { l with
    eq := { l.eq with phase := 0, again := false, trellis := Trellis.reset, acc := QualAcc.reset, conv := false, stored := none
                      voided := [], sweep := none, placed := false
                      live := { l.eq.live with pos := [none, none, none, none] }, snrHist := [] }
    fr := { l.fr with idValid := false, soft := [] } }) s

/-- The permitted code nearest to a code (R90). -/
def tiaInRange (b : LineBank) (c : Nat) : Nat := max (bits b.tia 12 4) (min (bits b.tia 16 4) c)

/-- The TIA code that places the VGA closest to +4 dB, from the level and the VGA code it was measured at (R91). DESIGN CHOICE
(log entry 68): of codes that come equally close, the lowest. -/
def tiaChoice (l : Line) : Nat :=
  let t := l.act.tia
  let need : Int := (l.rx.vga : Int) + gainSteps (bits l.act.rxfe 16 8) l.rx.rms 80
  let dist (c : Nat) : Nat := (need - 2 * (bits t 8 4 : Int) * ((c : Int) - (l.rx.tiaCode : Int)) - 40).natAbs
  (List.range 16).foldl (fun b c => if bits t 12 4 ≤ c ∧ c ≤ bits t 16 4 ∧ dist c < dist b then c else b) (bits t 12 4)

/-- RELOCK: the stored coefficient bank is loaded, void loops start from the active bank's initial values (R100, R128); the
overlay stays applied (R141). DESIGN CHOICE (log entry 68): a lane that holds no stored bank yet goes on with the coefficients
in force, and of a stored TIA code that the bank's range does not hold the nearest code that it holds is written. -/
def enterRelock (n : Fin 8) (s : State) : State :=
  let code := s.lines[n].rx.tiaCode
  let s := modRx n (fun r => { r with
    st := .relock, relockCnt := satU 8 (r.relockCnt + 1), inFrame := false, goodHdr := 0, badHdr := 0
    tiaWanted := none, acqStart := s.clk }) (modFr n (fun f => { f with soft := [] }) (eqNote n s))
  let s := modLine n (fun l =>
    match l.eq.stored with
    | none => { l with eq := { l.eq with phase := 2, again := false, trellis := Trellis.reset, acc := QualAcc.reset } }
    | some k =>
      let c := k.coefs
      let e := { l.eq with again := false, trellis := Trellis.reset, acc := QualAcc.reset }
      let e := { e with phase := 2, placed := true, sweep := none
                        live := { c with main := maskTaps l.act e.muted c.main
                                         nl := if nlUsed l.act e.muted then c.nl else List.replicate 15 0
                                         h2 := if det16 l.act e.muted then c.h2 else 0 }
                        heldMain := if e.muted then c.main else e.heldMain
                        heldNl := if e.muted then c.nl else e.heldNl
                        heldH2 := if e.muted then c.h2 else e.heldH2 }
      { l with eq := (List.range 4).foldl (fun (e : LineEq) (j : Nat) =>
                 if l.eq.voided.getD j false then { restartLoop l.act j e with conv := false } else e) e
               rx := { l.rx with vga := k.vga, freq := k.freq } }) s
  match s.lines[n].eq.stored with
  | some k =>
    let tia := tiaInRange s.lines[n].act k.tia
    if s.lines[n].act.tiaEn && s.rst.mgmtRun && !s.lines[n].rx.tiaStopped && tia != code then tiaWrite n tia 1 s else s
  | none => s

/-- An exchange runs in the requester (R167). -/
def exchangeRuns (s : State) (n : Fin 8) : Bool := s.lines[n].tx.proc.isSome

/-- A pending application of the responder ends with its M8 activity. -/
def trnDrop (n : Fin 8) (s : State) : State :=
  let s := if s.lines[n].tx.accepted.isSome then arbEnd 8 (.line (some n)) s else s
  modTx n (fun x => { x with proc := none, accepted := none }) s

/-- The requester stops: no exchange runs, and none is silent (R161, R168). -/
def trnStop (n : Fin 8) (s : State) : State :=
  modTx n (fun x => { x with proc := none, trnState := if x.proc.isSome ∨ x.trnState = 4 then 0 else x.trnState }) s

/-- The exchange is abandoned in both roles: 0 DARK, 1 lane reset (R169, Table 5.4). DESIGN CHOICE (log entry 76): an
exchange runs in the lane's own requester; that of the partner alone ends without the event. -/
def trnAbandon (n : Fin 8) (cause : Nat) (s : State) : State :=
  if exchangeRuns s n then
    raise (lineSrc n 0x12) (pay1 cause) (modTx n (fun x => { x with trnState := 5, restartAtUp := decide (cause = 0) }) (trnDrop n s))
  else trnDrop n s

/-- DARK; `quiet`: entered by REFCLK loss, without an event and without an outage until the PLL relocks (R39). -/
def enterDark (n : Fin 8) (quiet : Bool) (s : State) : State :=
  let st := s.lines[n].rx.st
  let s := if quiet then s else raise (lineSrc n 0x01) (pay1 (acqCode st)) s
  let s := if st = .up ∧ !quiet then outageStart n s else s
  let s := trnAbandon n 0 s
  modLine n (fun l => { l with
    rx := { l.rx with st := .dark, vga := 80, skewWins := 0, vgaStepDue := none, tiaWanted := none, tiaPick := false
                      inFrame := false, goodHdr := 0, badHdr := 0, cdrLock := false
                      darkSince := s.clk, darkByRefclk := quiet }
    eq := { l.eq with phase := 0, sweep := none }
    fr := { l.fr with soft := [] } }) s

/-- The receive path goes to OFF: its registers take their reset values, its stored bank and mute overlay go (R106, R128,
R141, R143, R206); ADC map and skew figures stay, and so does a stop of TIA writes, which only a bank swap lifts (R92). -/
def rxOff (n : Fin 8) (s : State) : State :=
  modLine n (fun l => { l with
    rx := { LineRx.reset l.rx.adc with skews := l.rx.skews, tiaStopped := l.rx.tiaStopped, inTest := l.rx.inTest, darkSince := s.clk }
    eq := LineEq.reset }) s

/-- The receive path goes to OFF for a test, which is no reset: its figures, its counters, the stored bank and the mute overlay
stay (R130, R141, R451). -/
def rxHalt (n : Fin 8) (s : State) : State :=
  modLine n (fun l => { l with
    rx := { l.rx with st := .off, sigDet := false, skewWins := 0, inFrame := false, goodHdr := 0, badHdr := 0, tiaPick := false, tiaWanted := none
                      vgaStepDue := none, cdrLock := false, darkSince := s.clk, darkByRefclk := false, outage := false
                      past2ms := false, squelch := false }
    eq := { l.eq with phase := 0, again := false, sweep := none, trellis := Trellis.reset, acc := QualAcc.reset }
    fr := { l.fr with soft := [] } }) s

/-- FRM and message registers of a lane take their reset values (R206); the messages in hand and the echoes of a latency
measurement that runs stay (R70). -/
def frmClear (n : Fin 8) (s : State) : State :=
  modFr n (fun f => { LineFrame.reset with
    txFc := f.txFc, echoes := f.echoes, echoHold := f.echoHold, echoForeign := f.echoForeign, out := f.out, lastWasFrag := f.lastWasFrag
    departs := f.departs, send := f.send, waiting := f.waiting
    nextMsg := f.nextMsg, part := f.part, lastMsg := f.lastMsg, recv := f.recv }) s

/-- From now the lane may leave OFF: the 20 µs of Table 3.4 run. -/
def rxMayLeave (n : Fin 8) (s : State) : State :=
  if rxReady s n && s.lines[n].rx.st == .off then modRx n (fun r => { r with darkSince := s.clk }) s else s

/-! ### Host messages of a lane (R199) -/

/-- The message in flight and those waiting are abandoned: their commands complete with result 3. -/
def msgAbandon (n : Fin 8) (s : State) : State :=
  let f := s.lines[n].fr
  let cmds := (match f.send with | some x => [x.cmd] | none => []) ++ f.waiting.map (·.1)
  let s := modFr n (fun f => { f with send := none, waiting := []
                                      out := f.out.filter fun m => bits m 60 4 != 8 }) s
  cmds.foldl (fun s c => done c 3 s) s

/-! ### Host lanes (chapter 7) -/

/-- Line lane and header FILL bit that carry a port position (R182, R184): the lane of the port whose received STRIPE matches. -/
def fillBit (s : State) (p : Fin 8) (k : Nat) : Bool :=
  let mode := modeOf s
  let l := modeLineCnt mode
  (linesOfPort mode p).any fun n =>
    let f := s.lines[n].fr
    l != 0 && bits f.rxId 21 3 == k % l && bit f.rxId (16 + k / l)

/-- The state of a host transmitter (R226), with the precedence of the generator and the near-end loopback over IDLE. -/
def hostTx (s : State) (h : Fin 16) : TxState :=
  let b := s.hosts[h].act
  if !hostReady s h then .off
  else if bits b.test 0 3 ≠ 0 then .run
  else if bit b.test 8 then (if s.hosts[h].st = .up then .run else .idle)
  else if bit b.txCfg 16 then .idle
  else match posOfHost s h with
    | none => .idle
    | some (p, k) =>
      if portSquelched s p then .idle
      else if modeOf s = 4 then
        (if (linesOfPort 4 p).any (fun n => s.lines[n].rx.st == .up || s.lines[n].rx.st == .relock) then .run else .idle)
      else if fillBit s p k then .idle else .run

/-- Held coefficients as the lane leaves UP (R221). -/
def hostHold (n : Fin 16) (s : State) : State :=
  modHost n (fun h => { h with heldCoefs := some { peak := h.peak, dcg := h.dcg, coefs := h.coefs, freq := h.freq } }) s

/-- TIMING; `again`: a retry under R220. PEAK_AUTO is taken (R223); the FFE restarts from its spike, the DC gain loop from RX_CFG.DCG
(R210, R214). -/
def hostTiming (n : Fin 16) (again : Bool) (s : State) : State :=
  modHost n (fun h => { h with
    acc := HostAcc.reset, path := { h.path with prev := 0, toLine := [], near := [] }
    st := .timing, coldCnt := satU 8 (h.coldCnt + 1), auto := bit h.act.rxCfg 15, lock := false, snrHist := [], acqResume := false, acqUntil := 0
    acqStart := if again then h.acqStart else s.clk, dcg := bits h.act.rxCfg 8 5
    coefs := { ffe := (List.range 24).map fun i => if i = bits h.act.eqCfg 0 5 then 4 else 0, d1 := 0 } }) s

/-- RESUME from the held coefficients (R221); the bank's PEAK is taken in place of the held code where it is fixed, once a cold
start has taken PEAK_AUTO = 0 (R223). -/
def hostResume (n : Fin 16) (s : State) : State :=
  modHost n (fun h =>
    let h := { h with acc := HostAcc.reset, path := { h.path with prev := 0, toLine := [], near := [] }
                      st := .resume, resumeCnt := satU 8 (h.resumeCnt + 1), snrHist := [], acqResume := true
                      acqStart := s.clk, acqUntil := 0 }
    match h.heldCoefs with
    | none => h
    | some k => { h with peak := if bit h.act.rxCfg 15 || h.auto then k.peak else bits h.act.rxCfg 0 6
                         dcg := if bit h.act.rxCfg 14 then k.dcg else bits h.act.rxCfg 8 5
                         coefs := { k.coefs with d1 := if bit h.act.eqCfg 7 then k.coefs.d1 else 0 }, freq := k.freq }) s

/-- IDLE, leaving UP holds the coefficients. With DCG_AUTO = 0 the bank's code is applied (R210). -/
def hostIdle (n : Fin 16) (s : State) : State :=
  let s := if s.hosts[n].st = .up then hostHold n s else s
  modHost n (fun h => { h with
    st := .idle, lock := false, idleSince := s.clk, snrHist := []
    path := { h.path with toLine := [], near := [] }, dcg := if bit h.act.rxCfg 14 then h.dcg else bits h.act.rxCfg 8 5 }) s

/-- The host receiver goes to OFF: registers and held coefficients go (R221, R234). -/
def hostOff (n : Fin 16) (s : State) : State :=
  modHost n (fun h => { HostLane.reset h.adc with act := h.act, shd := h.shd, inTest := h.inTest }) s

/-- The host receiver goes to OFF for a test, which is no reset: its held coefficients and its registers stay (R221, R451). -/
def hostHalt (n : Fin 16) (s : State) : State :=
  let s := if s.hosts[n].st = .up then hostHold n s else s
  modHost n (fun h => { h with
    st := .off, sigDet := false, lock := false, snrHist := [], acc := HostAcc.reset, path := { h.path with toLine := [], near := [] } }) s

/-- OFF to IDLE once nothing holds the lane (Table 7.1). -/
def hostMayLeave (n : Fin 16) (s : State) : State :=
  if hostReady s n && s.hosts[n].st == .off then hostIdle n s else s

/-! ### Domains and resets of lanes -/

/-- The lane's receive domain is off: its path stops (Table 2.3, R58). -/
def linePathOff (n : Fin 8) (s : State) : State := frmClear n (rxOff n s)

/-- The line transmitter's domain is off: OFF, TX_DISABLE high, messages abandoned (R156, R199). -/
def lineTxOff (n : Fin 8) (s : State) : State := msgAbandon n (txClear n (trnDrop n s))

/-- A lane reset clears both paths; the last-good bank is void (R141, R172, R432). -/
def lineClear (n : Fin 8) (s : State) : State :=
  let s := trnAbandon n 1 s
  let s := linePathOff n (lineTxOff n s)
  modTx n (fun x => { x with lastGood := none, trnState := 0 }) s

/-- A line transmitter goes to OFF for a test: its registers stay (R451). -/
def txHalt (n : Fin 8) (s : State) : State := modTx n (fun x => { x with st := .off, txDis := true, waitDriver := false }) (trnDrop n s)

/-- Everything that can leave OFF does so, or starts to. -/
def lanesMayLeave (s : State) : State :=
  txUpdateAll (forFin 16 hostMayLeave (forFin 8 rxMayLeave s))

end Sys2Proof.Machine
end

