-- ==== Sys2Proof/Machine/Equaliser.lean ====
section
/-! DEFINITION. The line receiver's samples, step by step (R107): equaliser and compensator (R110, R114), sequence detector (R115
to R117), the loops (R118, R119, R123, R124) and what a quality window gathers (R130 to R133, R140). -/

namespace Sys2Proof.Machine

/-! ### The filters -/

/-- Level of a symbol (R124). -/
def levelOf (c : EqCoefs) (a : Fin 4) : Rat :=
  if a = 0 then -96 + c.ofs else if a = 1 then c.lvl1 else if a = 2 then c.lvl2 else 96 + c.ofs

/-- An ADC sample is a signed integer from −64 to +63 (R108). -/
def adcClip (v : Int) : Int := max (-64) (min 63 v)

/-- Sample x[k − ofs] of the symbol k that `age` symbols follow: the filters reach from x[k + 512] to x[k − 512] (R110, R112),
so the youngest symbol that has its output lies 512 samples back. -/
def sampleAt (xs : List Int) (age : Nat) (ofs : Int) : Rat := (xs.getD ((512 + age : Nat) + ofs).toNat 0 : Rat)

def dotRange (n : Nat) (f : Nat → Rat) : Rat := (List.range n).foldl (fun a i => a + f i) 0

/-- The 15 pairs of R114 in lexicographic order. -/
def nlPairs : List (Int × Int) :=
  [(-2, -2), (-2, -1), (-2, 0), (-2, 1), (-2, 2), (-1, -1), (-1, 0), (-1, 1), (-1, 2), (0, 0), (0, 1), (0, 2), (1, 1), (1, 2),
   (2, 2)]

def nlTerm (xs : List Int) (age t : Nat) : Rat :=
  let p := nlPairs.getD t (0, 0)
  sampleAt xs age p.1 * sampleAt xs age p.2

/-- Offset of tap t of group j where the group is in use (R110, R112). -/
def fgOfs (c : EqCoefs) (i : Nat) : Option Int := (c.pos.getD (i / 4) none).map fun p => p + (i % 4 : Nat)

/-- The main-span taps that a predicate picks, their share of the output. -/
def mainOut (b : LineBank) (c : EqCoefs) (pick : Nat → Bool) (xs : List Int) (age : Nat) : Rat :=
  dotRange 64 fun i => if pick i then c.main.getD i 0 * sampleAt xs age ((i : Int) - b.mainTap) else 0

def fgOut (c : EqCoefs) (xs : List Int) (age : Nat) : Rat :=
  dotRange 16 fun i => match fgOfs c i with
    | some o => c.fg.getD i 0 * sampleAt xs age o
    | none => 0

def nlOut (c : EqCoefs) (xs : List Int) (age : Nat) : Rat := dotRange 15 fun t => c.nl.getD t 0 * nlTerm xs age t

/-- Detector input y[k] with the shares that R140 watches (R107, R110, R114). -/
def eqOut (b : LineBank) (c : EqCoefs) (xs : List Int) (age : Nat) : DetIn :=
  let nl := nlOut c xs age
  { y := mainOut b c (fun _ => true) xs age + fgOut c xs age + nl
    cut := mainOut b c (fun i => !tapUsed b true i) xs age
    nl := nl }

/-! ### The sequence detector (R115 to R117) -/

/-- ŷ of the symbols a[k], a[k−1], a[k−2]. -/
def modelOf (c : EqCoefs) (a0 a1 a2 : Fin 4) : Rat := levelOf c a0 + c.h1 * levelOf c a1 + c.h2 * levelOf c a2

/-- Squared distance of an input from the model. -/
def branch (c : EqCoefs) (y : Rat) (a0 a1 a2 : Fin 4) : Rat := let d := y - modelOf c a0 a1 a2; d * d

def fourSyms : List (Fin 4) := List.finRange 4

def minOf : List Rat → Rat
  | [] => 0
  | h :: t => t.foldl min h

/-- Metric of the state (a, b): the later symbol first. -/
def stateAt (m : List Rat) (a b : Fin 4) : Rat := m.getD (4 * a.val + b.val) 0

/-- Path metrics after one more input, less the least of them. -/
def forward (c : EqCoefs) (m : List Rat) (y : Rat) : List Rat :=
  let r := fourSyms.flatMap fun a0 => fourSyms.map fun a1 => minOf (fourSyms.map fun a2 => stateAt m a1 a2 + branch c y a0 a1 a2)
  r.map (· - minOf r)

/-- Metrics of the inputs still to come, from each state. -/
def backward (c : EqCoefs) (ys : List Rat) : List Rat :=
  ys.foldr (fun y m => fourSyms.flatMap fun a1 => fourSyms.map fun a2 =>
    minOf (fourSyms.map fun a0 => branch c y a0 a1 a2 + stateAt m a0 a1)) (List.replicate 16 0)

/-- Least metric of the paths through each value of a symbol: the metrics before it, its input, and the inputs after it that the
window holds. With DET16 = 0, h2 is 0 and the sixteen states act as four. -/
def symMetrics (c : EqCoefs) (m : List Rat) (y : Rat) (later : List Rat) : List Rat :=
  let w := backward c later
  fourSyms.map fun a0 => minOf (fourSyms.flatMap fun a1 => fourSyms.map fun a2 =>
    stateAt m a1 a2 + branch c y a0 a1 a2 + stateAt w a0 a1)

/-- The same for the symbols before the precoding 1/(1 + D) mod 4 of a PMD that specifies it (R117): the sum of two successive
symbols modulo 4. -/
def preMetrics (c : EqCoefs) (m : List Rat) (y : Rat) (later : List Rat) : List Rat :=
  let w := backward c later
  fourSyms.map fun g => minOf (fourSyms.flatMap fun a1 => fourSyms.map fun a2 =>
    stateAt m a1 a2 + branch c y (g - a1) a1 a2 + stateAt w (g - a1) a1)

/-- The symbol of least metric; of equals the lowest level (DESIGN CHOICE, log entry 70). -/
def bestSym (m : List Rat) : Fin 4 :=
  fourSyms.foldl (fun (b : Fin 4) a => if m.getD a.val 0 < m.getD b.val 0 then a else b) 0

/-- Internal log-likelihood, in units of 1/8 nat within ±63.875 nats, from the least metrics with the bit 1 and 0 (R117). -/
def llrOf (sigma2 : Rat) (one zero : Rat) : Int := max (-511) (min 511 (roundRat (8 * ((one - zero) / (2 * sigma2)))))

/-- Both log-likelihoods of a symbol, b1 first (Table 4.1). -/
def symLlrs (sigma2 : Rat) (m : List Rat) : List Int :=
  let v (i : Nat) : Rat := m.getD i 0
  [llrOf sigma2 (min (v 2) (v 3)) (min (v 0) (v 1)), llrOf sigma2 (min (v 1) (v 2)) (min (v 0) (v 3))]

/-- What the inner decoder receives: the internal value over LLR_SCALE, rounded, within ±31 (R117). -/
def llrDeliver (scale : Nat) (v : Int) : BitVec 6 := BitVec.ofInt 6 (max (-31) (min 31 (roundDiv v (2 * (scale + 1)))))

/-- σ² of R115: the MSE of the last window; before one has been measured the spec gives no value. -/
def sigma2Of (e : LineEq) : Rat := match e.mse with
  | some m => if m = 0 then Config.openSigma2 else m
  | none => Config.openSigma2

/-- The coefficients with which the detector works: in phase 1 it runs 4 states with h1 = 0 (Table 4.2). -/
def detCoefs (e : LineEq) : EqCoefs :=
  let c := e.live.applied
  if e.phase = 1 then { c with h1 := 0, h2 := 0 } else c

/-- A decided symbol with what the loops and the figures need of it: how many symbols follow it, its input, its symbol and the two
before it, and its log-likelihoods. -/
structure Decided where
  age : Nat
  inp : DetIn
  a0 : Fin 4
  a1 : Fin 4
  a2 : Fin 4
  llr : List Int
  deriving DecidableEq, Repr

/-- Path metrics before each of the inputs. -/
def metricsOf (c : EqCoefs) : List Rat → List DetIn → List (List Rat)
  | _, [] => []
  | m, i :: l => m :: metricsOf c (forward c m i.y) l

/-- Symbols k to k + count − 1 of the inputs given, each decided on `look` later inputs; `pre`: their log-likelihoods are decoded from
precoding. -/
def decideRun (pre : Bool) (c : EqCoefs) (sigma2 : Rat) (ins : List DetIn) (ms : List (List Rat)) (k count look : Nat) (before : List (Fin 4)) :
    List Decided :=
  ((List.range count).foldl (fun (a : List Decided × List (Fin 4)) j =>
    let i := k + j
    let inp := ins.getD i { y := 0, cut := 0, nl := 0 }
    let later := ((ins.drop (i + 1)).take look).map (·.y)
    let m := symMetrics c (ms.getD i []) inp.y later
    let a0 := bestSym m
    let d : Decided := { age := ins.length - 1 - i, inp := inp, a0 := a0, a1 := a.2.getD 0 0, a2 := a.2.getD 1 0
                         llr := symLlrs sigma2 (if pre then preMetrics c (ms.getD i []) inp.y later else m) }
    (a.1 ++ [d], (a0 :: a.2).take 2)) ([], before)).1

/-- The inputs of a block of 64 symbols enter the trellis: tentative decisions 16 symbols after entry, final ones 64 symbols after
(R115). -/
def detect (pre : Bool) (b : LineBank) (e : LineEq) (xs : List Int) : Trellis × List Decided × List Decided :=
  let c := detCoefs e
  let t := e.trellis
  let ins := t.ins ++ (List.range 64).map fun j => eqOut b c xs (63 - j)
  let ms := metricsOf c t.metric ins
  let k := t.ins.length - 16
  let tent := decideRun pre c (sigma2Of e) ins ms k (ins.length - 16 - k) 16 t.tent
  let fin := decideRun pre c (sigma2Of e) ins ms 0 (ins.length - 64) 64 t.fin
  let last (l : List Decided) (o : List (Fin 4)) : List (Fin 4) := ((l.reverse.map (·.a0)) ++ o).take 2
  ({ ins := ins.drop (ins.length - 64), metric := ms.getD (ins.length - 64) (List.replicate 16 0)
     tent := last tent t.tent, fin := last fin t.fin }, tent, fin)

/-! ### The loops (R118, R119, R123, R124) -/

/-- The error of R119 in the phase given, from a tentative decision; DESIGN CHOICE (log entry 68): sign(0) is 0. -/
def eqErr (c : EqCoefs) (phase : Nat) (d : Decided) : Rat :=
  let y := d.inp.y
  if phase = 1 then y - 64 * (if y < 0 then -1 else if 0 < y then 1 else 0) else y - modelOf c d.a0 d.a1 d.a2

/-- μ = 2^−(8 + k). -/
def stepSize (k : Nat) : Rat := 1 / ((2 ^ (8 + k) : Nat) : Rat)

/-- Σ over the block of e · q. -/
def gradOf (es : List (Decided × Rat)) (q : Decided → Rat) : Rat := es.foldl (fun a e => a + e.2 * q e.1) 0

/-- The correlators of the block of 64 offsets under way, from 64·blocks − 512 on, and the one at the main cursor take e[k]·x[k − d] of
more symbols (R113). -/
def sweepAdd (xs : List Int) (es : List (Decided × Rat)) (w : FgSweep) : FgSweep :=
  { w with cur := (List.range 64).map fun i =>
             w.cur.getD i 0 + gradOf es fun x => sampleAt xs x.age (((64 * w.blocks + i : Nat) : Int) - 512)
           main := w.main + gradOf es fun x => sampleAt xs x.age 0 }

/-- One update of every loop that adapts in the present phase, over the block's tentative decisions. -/
def eqUpdate (b : LineBank) (e : LineEq) (xs : List Int) (blk : List Decided) : LineEq :=
  let c := e.live
  let es := blk.map fun x => (x, eqErr (detCoefs e) e.phase x)
  let e := { e with sweep := e.sweep.map (sweepAdd xs es) }
  let mu (acq trk : Nat) : Rat := stepSize (bits b.eqMu (if e.phase = 3 then trk else acq) 4)
  let ffe := if e.phase = 1 then stepSize (bits b.eqMu 24 4) else mu 0 4
  let coef (v : Rat) : Rat := clampQ (-8) (8 - 1 / 256) v
  let main := if bit b.eqCtl 4 then c.main
    else (List.range 64).map fun i =>
      if tapUsed b e.muted i then
        coef (c.main.getD i 0 - ffe * gradOf es fun x => sampleAt xs x.age ((i : Int) - b.mainTap)) else 0
  if e.phase = 1 then { e with live := { c with main := main } }
  else
    let fg := if bit b.eqCtl 5 then c.fg
      else (List.range 16).map fun i => match fgOfs c i with
        | some o => coef (c.fg.getD i 0 - ffe * gradOf es fun x => sampleAt xs x.age o)
        | none => c.fg.getD i 0
    let nl := if bit b.eqCtl 6 || !nlUsed b e.muted then c.nl
      else (List.range 15).map fun t =>
        clampQ (-1 / 2) (1 / 2 - 1 / 1024) (c.nl.getD t 0 - mu 8 12 * gradOf es fun x => nlTerm xs x.age t)
    let c' := { c with main := main, fg := fg, nl := nl }
    let m := mu 16 20
    { e with live := if bit b.eqCtl 7 then c' else
      let ofs := clampQ (-32) 32 (c.ofs + m * gradOf es fun _ => 1)
      { c' with
        h1 := clampQ (-3 / 4) (3 / 4) (c.h1 + m * gradOf es fun x => levelOf c x.a1)
        h2 := if det16 b e.muted then clampQ (-3 / 4) (3 / 4) (c.h2 + m * gradOf es fun x => levelOf c x.a2) else c.h2
        ofs := ofs
        lvl1 := clampQ (-56 + ofs) (-8 + ofs) (c.lvl1 + m * gradOf es fun x => if x.a0 = 1 then 1 else 0)
        lvl2 := clampQ (8 + ofs) (56 + ofs) (c.lvl2 + m * gradOf es fun x => if x.a0 = 2 then 1 else 0) } }

/-- A coefficient of a loop stands at an end of its range (R119): 0 main span, 1 floating groups, 2 compensator, 3 target and
levels. -/
def loopClamped (c : EqCoefs) (loop : Nat) : Bool :=
  let ends (lo hi v : Rat) : Bool := v == lo || v == hi
  match loop with
  | 0 => c.main.any (ends (-8) (8 - 1 / 256))
  | 1 => (List.range 16).any fun i => (fgOfs c i).isSome && ends (-8) (8 - 1 / 256) (c.fg.getD i 0)
  | 2 => c.nl.any (ends (-1 / 2) (1 / 2 - 1 / 1024))
  | _ => ends (-3 / 4) (3 / 4) c.h1 || ends (-3 / 4) (3 / 4) c.h2 || ends (-32) 32 c.ofs || ends (-56 + c.ofs) (-8 + c.ofs) c.lvl1 ||
      ends (8 + c.ofs) (56 + c.ofs) c.lvl2

/-! ### What a quality window gathers (R130 to R133, R140) -/

/-- e^(1/8) scaled by 2²⁰⁰, from forty terms of its series. -/
def expEighth : Nat :=
  ((List.range 40).foldl (fun (a : Nat × Nat) k => (a.1 + a.2, a.2 / (8 * (k + 1)))) (0, 2 ^ 200)).1

/-- 1 / (1 + e^|Λ|) in units of 2⁻⁹⁶, Λ in 1/8 nat (R133). -/
def errShare (v : Int) : Nat := 2 ^ 96 * (2 ^ 200) ^ v.natAbs / ((2 ^ 200) ^ v.natAbs + expEighth ^ v.natAbs)

/-- One more value in a histogram of 256 bins; how a value falls into a bin the spec leaves open (R132). -/
def histAdd (h : List (List Nat)) (a : Fin 4) (z : Rat) : List (List Nat) :=
  let k := Config.eyeBin a.val z % 256
  let row := match h.getD a.val [] with | [] => List.replicate 256 0 | r => r
  h.set a.val (row.set k (row.getD k 0 + 1))

/-- A final decision joins the window. -/
def QualAcc.add (c : EqCoefs) (q : QualAcc) (d : Decided) : QualAcc :=
  let tail := c.h1 * levelOf c d.a1 + c.h2 * levelOf c d.a2
  let err := d.inp.y - (levelOf c d.a0 + tail)
  let watched := [d.inp.cut, d.inp.nl, c.h2 * levelOf c d.a2]
  { q with n := q.n + 1, sse := q.sse + err * err
           bits := d.llr.foldl (fun a v => a + errShare v) q.bits
           d := (List.range 3).map fun i =>
             let o := q.d.getD i (0, 0)
             let v := watched.getD i 0
             (o.1 + v, o.2 + v * v)
           hist := histAdd q.hist d.a0 (d.inp.y - tail) }

/-- A tentative decision joins it (R120). -/
def QualAcc.addTent (c : EqCoefs) (q : QualAcc) (d : Decided) : QualAcc :=
  let err := d.inp.y - modelOf c d.a0 d.a1 d.a2
  { q with tn := q.tn + 1, tsse := q.tsse + err * err }

/-- The means over the window; none where no symbol was decided. -/
def QualAcc.mse (q : QualAcc) : Option Rat := if q.n = 0 then none else some (q.sse / (q.n : Rat))
def QualAcc.tentMse (q : QualAcc) : Option Rat := if q.tn = 0 then none else some (q.tsse / (q.tn : Rat))
def QualAcc.errors (q : QualAcc) : Option Rat :=
  if q.n = 0 then none else some ((q.bits : Rat) / ((2 * q.n * 2 ^ 96 : Nat) : Rat))

/-- D of R140: the sum of the three variances. -/
def QualAcc.spread (q : QualAcc) : Rat :=
  (List.range 3).foldl (fun a i =>
    let o := q.d.getD i (0, 0)
    let n : Rat := (q.n : Rat)
    a + (o.2 / n - o.1 / n * (o.1 / n))) 0

/-- The first bin at which a share num / 2¹⁶ of a histogram is reached. -/
def quantileBin (h : List Nat) (num : Nat) : Nat :=
  let total := h.foldl (· + ·) 0
  ((List.range 256).find? fun k => decide (num * total ≤ 2 ^ 16 * (h.take (k + 1)).foldl (· + ·) 0)).getD 255

/-- The smallest of the three openings of R132, in units of 0.25 detector unit; none while a level has no symbol. -/
def eyeOf (h : List (List Nat)) : Option Int :=
  if (List.range 4).any fun a => (h.getD a []).all (· == 0) then none
  else
    let gap (m : Nat) : Int :=
      Config.eyeValue (m + 1) (quantileBin (h.getD (m + 1) []) 1) - Config.eyeValue m (quantileBin (h.getD m []) (2 ^ 16 - 1))
    some (min (gap 0) (min (gap 1) (gap 2)))

end Sys2Proof.Machine
end

