-- ==== Sys2Proof/Machine/Training.lean ====
section
/-! DEFINITION. Far-end training: the messages of Table 5.2, the responder (R164 to R166) and the requester (R167 to R171). -/

namespace Sys2Proof.Machine

/-- A 64-bit message from its fields (value, lowest bit, width). -/
def msg64 (fs : List (Nat × Nat × Nat)) : BitVec 64 :=
  fs.foldl (fun w f => w ||| BitVec.ofNat 64 (f.1 % 2 ^ f.2.2 * 2 ^ f.2.1)) 0

/-- Queues a side-channel message of a line lane (R193). -/
def scQueue (n : Fin 8) (m : BitVec 64) (s : State) : State := modFr n (fun f => { f with out := f.out ++ [m] }) s

/-- The line lane number that the received headers name as the sender's (Table 6.3). -/
def farLane (s : State) (n : Fin 8) : Nat := bits s.lines[n].fr.rxId 29 3

/-- The lane runs training at all: not in mode 4 (R161), and firmware runs (R171). -/
def trnRuns (s : State) : Bool := modeOf s != 4 && s.rst.mgmtRun

/-- A training message of the type given reaches the lane's training logic: its transmit path has power (R176). -/
def trnTakes (s : State) (n : Fin 8) (m : BitVec 64) (typ : Nat) : Bool :=
  trnRuns s && domOn s (txDomain n) && bits m 60 4 == typ

/-! ### Responder -/

/-- Σ|f_i| of a set. -/
def firSum (l : List Int) : Nat := l.foldl (fun a x => a + x.natAbs) 0

/-- The FIR after a step of k units at tap i; none where a bound breaks: |f_MAIN| gives way down to 256 (R164). -/
def firStep (fir : List Int) (main i : Nat) (down : Bool) (k : Nat) : Option (List Int) :=
  let v := fir.getD i 0 + (if down then -(k : Int) else k)
  if v < -512 ∨ 511 < v then none
  else
    let f := fir.set i v
    let excess := firSum f - 512
    let m := f.getD main 0
    if excess = 0 then some f
    else if i = main ∨ m.natAbs < 256 + excess then none
    else some (f.set main (if m < 0 then m + excess else m - excess))

/-- Largest step from 1 to k that fits, with the FIR it gives. -/
def firBest (fir : List Int) (main i : Nat) (down : Bool) : Nat → Option (Nat × List Int)
  | 0 => none
  | k + 1 => match firStep fir main i down (k + 1) with
    | some f => some (k + 1, f)
    | none => firBest fir main i down k

/-- What a REQUEST does to a live set: status of the RESPONSE, APPLIED, and the set after it; none: nothing is applied. DESIGN CHOICE
(log entry 69): a KIND 0 with OFFSET 0 or −8 or COUNT 0, and a KIND of 4 to 7, which Table 5.2 does not use, are answered REFUSED. -/
def trnEffect (l : Line) (m : BitVec 64) : Nat × Nat × Option TxSet :=
  let live := l.tx.live
  match bits m 46 3 with
  | 0 =>
    let off := ofField 4 (bits m 42 4)
    let tap := (l.act.firMain : Int) + off
    if off = 0 ∨ off = -8 ∨ tap < 0 ∨ 14 < tap then (2, 0, none)
    else
      let count := bits m 37 4
      match firBest live.fir l.act.firMain tap.toNat (bit m 41) count with
      | none => (2, 0, none)
      | some (k, f) => (if k = count then 0 else 1, k, some { live with fir := f })
  | 1 =>
    let c := bits m 40 6
    let d := roundDiv (ofField 8 (bits m 32 8) * l.act.amp) 96
    let old := live.nl.getD c 0
    let v := max (-128) (min 127 (old + d))
    (if v = old + d then 0 else 1, toField 8 (v - old), some { live with nl := live.nl.set c v })
  | 2 =>
    if bit m 45 then
      (match l.tx.lastGood with | none => (2, 0, none) | some b => (0, 0, some b))
    else (0, 0, some l.act.txSet)
  | 3 => (0, 0, none)
  | _ => (2, 0, none)

def respMsg (n : Fin 8) (seq : Byte) (status applied fc : Nat) : BitVec 64 :=
  msg64 [(2, 60, 4), (n.val, 57, 3), (seq.toNat, 49, 8), (status, 46, 3), (applied, 38, 8), (fc, 22, 16)]

/-- Sends a RESPONSE and keeps it for a repeat (R164). -/
def trnAnswer (n : Fin 8) (seq : Byte) (status applied fc : Nat) (s : State) : State :=
  let m := respMsg n seq status applied fc
  scQueue n m (modTx n (fun x => { x with lastAnswer := some (seq, m) }) s)

/-- A message for another lane is discarded: MISMATCH, and the event once per exchange (R160). DESIGN CHOICE (log entry 76): once per
exchange of the lane's own requester; a lane that only responds raises it once until its transmit path is reset. -/
def trnMismatch (n : Fin 8) (lane : Nat) (s : State) : State :=
  let first := !s.lines[n].tx.mismatchRaised
  let s := modTx n (fun x => { x with mismatch := true, mismatchRaised := true }) s
  if first then raise (lineSrc n 0x13) (pay1 lane) s else s

/-! ### Requester -/

def trnSend (n : Fin 8) (m : BitVec 64) (p : Requester) (s : State) : State :=
  scQueue n m (modTx n (fun x => { x with proc := some { p with msg := m, busy := false }
                                          reqCnt := satU 16 (x.reqCnt + 1), trnSeq := x.trnSeq + 1 }) s)

/-- The offsets of the linear stage in order: −1, +1, −2, +2, … −7, +7. -/
def trnOffset (i : Nat) : Int := let k : Int := (i / 2 + 1 : Nat); if i % 2 = 0 then -k else k

/-- A FIR REQUEST (Table 5.2) with the next SEQ. -/
def trnAskFir (n : Fin 8) (down : Bool) (count : Nat) (p : Requester) (s : State) : State :=
  let seq := s.lines[n].tx.trnSeq + 1
  trnSend n (msg64 [(1, 60, 4), (farLane s n, 57, 3), (seq.toNat, 49, 8), (toField 4 (trnOffset p.offIdx), 42, 4),
                    (b2n down, 41, 1), (count, 37, 4)]) p s

/-- The nonlinear stage is over: DONE with RESULT 1 and the training-done event (R167). DESIGN CHOICE (log entry 76): the margin gain is the
last window's MARGIN less that of the window before the exchange began. -/
def trnFinish (n : Fin 8) (s : State) : State :=
  let seq := s.lines[n].tx.trnSeq + 1
  let m := msg64 [(3, 60, 4), (farLane s n, 57, 3), (seq.toNat, 49, 8), (1, 48, 1)]
  let s := scQueue n m (modTx n (fun x => { x with proc := none, trnState := 3, trnSeq := seq }) s)
  raise (lineSrc n 0x10) (pay2 s.lines[n].tx.reqCnt (toField 16 (satS 16 (s.lines[n].eq.margin - s.lines[n].tx.marginAtStart)))) s

/-- Context c of the nonlinear stage begins its 16 windows; after context 63 the exchange is done. -/
def trnContext (n : Fin 8) (p : Requester) (c : Nat) (s : State) : State :=
  if 64 ≤ c then trnFinish n s
  else modTx n (fun x => { x with trnState := 2, proc := some { p with ctx := c, step := .context 17 0 0 none } }) s

/-- The base margin of the next trial is taken over two windows. -/
def trnBase (n : Fin 8) (p : Requester) (s : State) : State :=
  modTx n (fun x => { x with trnState := 1, proc := some { p with step := .base 2 0 } }) s

/-- On to the next offset; after the last one the stage repeats while it improved and requests are left (R167). -/
def trnNextOffset (n : Fin 8) (p : Requester) (s : State) : State :=
  let p := { p with decrease := false }
  if p.offIdx < 13 then trnBase n { p with offIdx := p.offIdx + 1 } s
  else if p.improved && decide (s.lines[n].tx.reqCnt < bits s.lines[n].act.trnCfg 16 16) then
    trnBase n { p with offIdx := 0, improved := false } s
  else trnContext n p 0 s

/-- The trial brought nothing: the other direction, or the next offset. -/
def trnNextTrial (n : Fin 8) (p : Requester) (s : State) : State :=
  if p.decrease then trnNextOffset n p s else trnBase n { p with decrease := true } s

/-- The exchange begins (R167); TRAIN_START commands that waited for it complete. -/
def trnBegin (n : Fin 8) (s : State) : State :=
  let cmds := s.lines[n].tx.trainCmds
  let s := modLine n (fun l => { l with tx := { l.tx with
    trnState := 1, reqCnt := 0, retryCnt := 0, mismatchRaised := false, restartAtUp := false, marginAtStart := l.eq.margin
    trainCmds := []
    proc := some { offIdx := 0, decrease := false, improved := false, base := 0, applied := 0, step := .base 2 0, ctx := 0
                   msg := 0, busy := false } } }) s
  cmds.foldl (fun s c => done c 0 s) s

/-- The receive path enters UP, from a cold acquisition or not: the requester begins an exchange where R167 asks for one; while
firmware does not run, the start waits for its boot. -/
def trnAtUp (n : Fin 8) (cold : Bool) (s : State) : State :=
  let l := s.lines[n]
  if l.act.trnReq && modeOf s != 4 && domOn s (txDomain n) && (cold || l.tx.restartAtUp || !l.tx.trainCmds.isEmpty) then
    if s.rst.mgmtRun then trnBegin n s else modTx n (fun x => { x with restartAtUp := true }) s
  else s

/-- A valid training message while silent starts a new exchange (R170). -/
def trnHeard (n : Fin 8) (s : State) : State :=
  if s.lines[n].tx.trnState = 4 ∧ s.lines[n].rx.st = .up ∧ s.lines[n].act.trnReq then trnBegin n s else s

/-- A REQUEST arrives (R160, R161, R164, R165, R166). DESIGN CHOICE (log entry 76): a repeated SEQ is answered with the stored RESPONSE
before all else, then TRN_EN = 0 with LOCAL, and then a pending RESET is told, which LOCAL leaves pending. -/
def trnRequest (n : Fin 8) (m : BitVec 64) (s : State) : State :=
  if bits m 60 4 ≠ 1 then s
  else
  let s := countLine n 0x28 1 s
  if !trnTakes s n m 1 then s
  else if bits m 57 3 ≠ n.val then trnMismatch n (bits m 57 3) s
  else
    let s := trnHeard n s
    let l := s.lines[n]
    let seq := BitVec.ofNat 8 (bits m 49 8)
    let fc := l.fr.txFc.toNat
    match (match l.tx.lastAnswer with | some (q, r) => if q = seq then some r else none | none => none) with
    | some r => scQueue n r s
    | none =>
      if !l.act.trnEn then trnAnswer n seq 4 0 fc s
      else if l.tx.answerReset then trnAnswer n seq 5 0 fc (modTx n (fun x => { x with answerReset := false }) s)
      else match trnEffect l m with
        | (st, a, none) => trnAnswer n seq st a fc s
        | (st, a, some _) =>
          match arbOffer .plain 8 (.line (some n)) s with
          | (s, false) => trnAnswer n seq 3 0 fc s
          | (s, true) =>
            let at_ := l.fr.txFc + 4
            trnAnswer n seq st a at_.toNat (modTx n (fun x => { x with accepted := some (m, at_) }) s)

/-- Frame a is not before frame b, frame counts being taken modulo 2¹⁶. -/
def fcReached (a b : BitVec 16) : Bool := decide (0 ≤ (a - b).toInt)

/-- The frame boundary of R164: once the frame of APPLY_FC is the next to start, the accepted request changes the live set, and its M8
activity ends. -/
def trnApply (n : Fin 8) (s : State) : State :=
  match s.lines[n].tx.accepted with
  | none => s
  | some (m, at_) =>
    if !s.rst.mgmtRun || !domOn s (txDomain n) || !fcReached s.lines[n].fr.txFc at_ then s
    else
      let s := arbEnd 8 (.line (some n)) s
      modLine n (fun l => { l with tx := { l.tx with
        accepted := none
        live := match trnEffect l m with | (_, _, some x) => x | _ => l.tx.live } }) s

/-- A DONE arrives: a completed exchange stores the live set as last-good bank (Table 5.2). DESIGN CHOICE (log entry 69): with TRN_EN = 0
it is answered LOCAL, as a REQUEST is, and nothing is stored. -/
def trnDone (n : Fin 8) (m : BitVec 64) (s : State) : State :=
  if bits m 60 4 ≠ 3 then s
  else
  let s := countLine n 0x28 1 s
  if !trnTakes s n m 3 then s
  else if bits m 57 3 ≠ n.val then trnMismatch n (bits m 57 3) s
  else
    let s := trnHeard n s
    let l := s.lines[n]
    let seq := BitVec.ofNat 8 (bits m 49 8)
    match (match l.tx.lastAnswer with | some (q, r) => if q = seq then some r else none | none => none) with
    | some r => scQueue n r s
    | none =>
      if !l.act.trnEn then trnAnswer n seq 4 0 l.fr.txFc.toNat s
      else
        let s := if bit m 48 then modTx n (fun x => { x with lastGood := some x.live }) s else s
        if l.tx.answerReset then
          trnAnswer n seq 5 0 l.fr.txFc.toNat (modTx n (fun x => { x with answerReset := false }) s)
        else trnAnswer n seq 0 0 l.fr.txFc.toNat s

/-- A RESPONSE arrives and the procedure of R167 advances. -/
def trnResponse (n : Fin 8) (m : BitVec 64) (s : State) : State :=
  if bits m 60 4 ≠ 2 then s
  else
  let s := countLine n 0x28 1 s
  if !trnTakes s n m 2 then s
  else if bits m 57 3 ≠ farLane s n then trnMismatch n (bits m 57 3) s
  else if s.lines[n].tx.trnState = 4 then trnHeard n s
  else if s.lines[n].rx.st ≠ .up then s
  else match s.lines[n].tx.proc with
    | none => s
    | some p =>
      if bits m 49 8 ≠ bits p.msg 49 8 then s
      else
        let status := bits m 46 3
        let applied := bits m 38 8
        match p.step with
        | .asked =>
          if status = 3 then modTx n (fun x => { x with proc := some { p with busy := true } }) s
          else if status = 5 then trnBase n { p with offIdx := 0, decrease := false, improved := false } s
          else if s.lines[n].tx.trnState = 2 then trnContext n p (p.ctx + 1) s
          else if status ≤ 1 ∧ 0 < applied then
            -- a frame of that count may have come before the RESPONSE; the window under way is not whole
            let f := BitVec.ofNat 16 (bits m 22 16)
            modTx n (fun x => { x with proc := some { p with
              applied := applied, step := .judging f (fcReached s.lines[n].fr.rxFc f) 3 0 } }) s
          else trnNextTrial n p s
        | .undoing =>
          if status = 3 then modTx n (fun x => { x with proc := some { p with busy := true } }) s
          else if status = 5 then trnBase n { p with offIdx := 0, decrease := false, improved := false } s
          else trnNextTrial n p s
        | _ => s

/-- The mean error of a context's symbols; free where no symbol of the context came. -/
def contextMean (sum : Rat) (cnt : Nat) (s : State) : Rat × State :=
  if cnt = 0 then let d := draw s; (((d.1 : Rat) - 2048) / 16, d.2) else (sum / (cnt : Rat), s)

/-- A quality window ends in UP: the requester's measurements advance (R167). -/
def trnWindow (n : Fin 8) (s : State) : State :=
  let l := s.lines[n]
  if !trnRuns s ∨ l.rx.st ≠ .up then s
  else match l.tx.proc with
    | none => s
    | some p => match p.step with
      | .base w sum =>
        let sum := sum + l.eq.margin
        if 1 < w then modTx n (fun x => { x with proc := some { p with step := .base (w - 1) sum } }) s
        else trnAskFir n p.decrease (bits l.act.trnCfg 12 4) { p with base := sum, step := .asked } s
      | .judging fc seen w sum =>
        if !seen then s
        else
          let sum := if w = 3 then 0 else sum + l.eq.margin
          if 1 < w then modTx n (fun x => { x with proc := some { p with step := .judging fc seen (w - 1) sum } }) s
          else if p.base + 2 * (bits l.act.trnCfg 0 8 : Int) ≤ sum then trnNextOffset n { p with improved := true } s
          else trnAskFir n (!p.decrease) p.applied { p with step := .undoing } s
      | .context w sum cnt _ =>
        if w = 17 then modTx n (fun x => { x with proc := some { p with step := .context 16 0 0 none } }) s
        else if 1 < w then modTx n (fun x => { x with proc := some { p with step := .context (w - 1) sum cnt none } }) s
        else
          let d := contextMean sum cnt s
          let e := d.1
          let s := d.2
          if (1 < e ∨ e < -1) ∧ l.tx.reqCnt < bits l.act.trnCfg 16 16 then
            let seq := s.lines[n].tx.trnSeq + 1
            trnSend n (msg64 [(1, 60, 4), (farLane s n, 57, 3), (seq.toNat, 49, 8), (1, 46, 3), (p.ctx, 40, 6),
                              (toField 8 (max (-128) (min 127 (roundRat (-e)))), 32, 8)]) { p with step := .asked } s
          else trnContext n p (p.ctx + 1) s
      | _ => s

/-- A frame of the count given, or a later one, has been received: a trial under judgement starts its whole windows. -/
def trnFrameSeen (n : Fin 8) (fc : BitVec 16) (s : State) : State :=
  modTx n (fun x => match x.proc with
    | some p => match p.step with
      | .judging f false w sum => if fcReached fc f then { x with proc := some { p with step := .judging f true w sum } } else x
      | _ => x
    | none => x) s

/-- 64 frames without an answer, or after BUSY: the same REQUEST again (R167). -/
def trnRetransmit (n : Fin 8) (s : State) : State :=
  if !trnRuns s ∨ s.lines[n].rx.st ≠ .up then s
  else match s.lines[n].tx.proc with
    | none => s
    | some p => match p.step with
      | .asked | .undoing => scQueue n p.msg (modTx n (fun x => { x with proc := some { p with busy := false } }) s)
      | _ => s

/-- The silent timer runs out within an exchange (R170). -/
def trnSilent (n : Fin 8) (s : State) : State :=
  if !trnRuns s ∨ !domOn s (txDomain n) ∨ s.lines[n].rx.st ≠ .up ∨ !exchangeRuns s n then s
  else
    let s := trnDrop n s
    raise (lineSrc n 0x11) 0
      (modLine n (fun l => { l with tx := { l.tx with trnState := 4, live := l.act.txSet } }) s)

/-- While silent, a probe every 1,024 frames, from a requester that is enabled (R161, R170). -/
def trnProbe (n : Fin 8) (s : State) : State :=
  if !trnRuns s ∨ !domOn s (txDomain n) ∨ !s.lines[n].act.trnReq ∨ s.lines[n].rx.st ≠ .up ∨ s.lines[n].tx.trnState ≠ 4 then s
  else
    let seq := s.lines[n].tx.trnSeq + 1
    scQueue n (msg64 [(1, 60, 4), (farLane s n, 57, 3), (seq.toNat, 49, 8), (3, 46, 3)])
      (modTx n (fun x => { x with retryCnt := satU 8 (x.retryCnt + 1), trnSeq := seq }) s)

/-- After firmware's boot: exchanges that waited begin; a running one goes on with the next SEQ, in place of a REQUEST still unsent (R171);
none while the transmit domain is off (R176). -/
def trnBoot (s : State) : State :=
  forFin 8 (fun n s =>
    let l := s.lines[n]
    if !domOn s (txDomain n) then s
    else if l.rx.st = .up ∧ l.act.trnReq ∧ modeOf s ≠ 4 ∧ (l.tx.restartAtUp ∨ l.tx.trainCmds ≠ []) then trnBegin n s
    else match l.tx.proc with
      | some p => match p.step with
        | .asked | .undoing =>
          let seq := l.tx.trnSeq + 1
          let m := (p.msg &&& ~~~(msg64 [(255, 49, 8)])) ||| msg64 [(seq.toNat, 49, 8)]
          let s := modFr n (fun f => { f with out := f.out.filter (· != p.msg) }) s
          scQueue n m (modTx n (fun x => { x with trnSeq := seq, proc := some { p with msg := m, busy := false } }) s)
        | _ => s
      | none => s) s

def execRequest (n : Fin 8) (m : BitVec 64) (s : State) : Host.Outcome State Fault Refusal := .next (trnRequest n m s)
def execTrainingApply (n : Fin 8) (s : State) : Host.Outcome State Fault Refusal := .next (trnApply n s)
def execResponse (n : Fin 8) (m : BitVec 64) (s : State) : Host.Outcome State Fault Refusal := .next (trnResponse n m s)
def execDone (n : Fin 8) (m : BitVec 64) (s : State) : Host.Outcome State Fault Refusal := .next (trnDone n m s)
def execRequestRetransmit (n : Fin 8) (s : State) : Host.Outcome State Fault Refusal := .next (trnRetransmit n s)
def execTrainingSilent (n : Fin 8) (s : State) : Host.Outcome State Fault Refusal := .next (trnSilent n s)
def execTrainingProbe (n : Fin 8) (s : State) : Host.Outcome State Fault Refusal := .next (trnProbe n s)

end Sys2Proof.Machine
end

