-- ==== Sys2Proof/Machine/Latency.lean ====
section
/-! DEFINITION. Latency of a port (R63 to R68): the entries of Table 2.5, the present figures, the re-setting of buffers. -/

namespace Sys2Proof.Machine

/-- Transmit and receive entries of Table 2.5 for a port's active bank, in units of 10 ps. -/
def latEntry (s : State) (p : Fin 8) : Nat × Nat :=
  let mode := modeOf s
  let cfg := s.ports[p].act.cfg
  let fixed := if fixedLat s then 1200 else 0
  let corr := if bit cfg 6 then 3600 else 0
  if mode = 4 then (if bits cfg 4 2 = 3 then (5200, 11000 + corr) else (4800, 9600 + corr))
  else
    let deskew := if mode = 1 then 400 else if mode = 2 then 600 else if mode = 3 then 1000 else 0
    let reach := if mode = 5 then 1400 else 0
    (4200 + fixed, 11800 + corr + deskew + reach + fixed)

/-- LAT_TGT: the entry with fixed latency, 0 without. -/
def latTarget (s : State) (p : Fin 8) : Nat × Nat :=
  if fixedLat s && portEnabled s p then latEntry s p else (0, 0)

/-- One UI of a code in femtoseconds (Table 2.4). -/
def uiFs : Nat → Nat
  | 0 => 4426
  | 1 => 4180
  | 2 => 9412
  | _ => 8815

/-- Delay that SKEW adds, in units of 10 ps (R149). -/
def skewDelay (s : State) (n : Fin 8) : Nat := (s.lines[n].tx.skew * uiFs (lineCode s n) + 20000) / 40000

/-- The lanes of a port in UP, and those whose transmitter is in RUN. -/
def upLanes (s : State) (p : Fin 8) : List (Fin 8) := (linesOfPort (modeOf s) p).filter fun n => s.lines[n].rx.st == .up
def runLanes (s : State) (p : Fin 8) : List (Fin 8) := (linesOfPort (modeOf s) p).filter fun n => s.lines[n].tx.st == .run

/-- The receive latency of the latest-arriving lane in UP (R63, R68). DESIGN CHOICE (log entry 16): of lanes with equal skew the lowest
is taken. -/
def latRxNow (s : State) (p : Fin 8) : Nat :=
  match (upLanes s p).foldl (fun (b : Option (Fin 8)) (n : Fin 8) => match b with
      | none => some n
      | some m => if s.lines[m].fr.skew < s.lines[n].fr.skew then some n else some m) none with
  | none => 0
  | some n => (latEntry s p).2 - s.lines[n].rx.rxDelay

/-- The largest transmit latency among the lanes in RUN, SKEW included; 0 while no host lane of the port is in UP. -/
def latTxNow (s : State) (p : Fin 8) : Nat :=
  if (hostsOfPort s.ports[p].act).any (fun h => s.hosts[h].st == .up) then
    (runLanes s p).foldl (fun m n => max m ((latEntry s p).1 - s.lines[n].rx.txDelay + skewDelay s n)) 0
  else 0

/-- PORT_p.LAT is refreshed (R68). -/
def latRefresh (p : Fin 8) (s : State) : State :=
  modPort p (fun x => { x with latTx := satU 16 (latTxNow s p), latRx := satU 16 (latRxNow s p) }) s

/-- How far below its entry a path comes to lie at an acquisition: nothing with fixed latency, where the buffers make it up,
and up to 8 ns otherwise (R64, R65), where the spec leaves the value open. -/
def latDraw (s : State) : Nat × State :=
  if fixedLat s then (0, s) else let r := draw s; (r.1 % 801, r.2)

/-- Receive-direction buffers of a lane are set on its entry into UP (R66). -/
def setRxBuffer (n : Fin 8) (s : State) : State :=
  let r := latDraw s
  modRx n (fun x => { x with rxDelay := r.1 }) r.2

/-- Transmit-direction buffers of the port of a host lane are set on that lane's entry into UP (R66). -/
def setTxBuffers (h : Fin 16) (s : State) : State :=
  match portOfHost s h with
  | none => s
  | some p =>
    (linesOfPort (modeOf s) p).foldl (fun s n =>
      let r := latDraw s
      modRx n (fun x => { x with txDelay := r.1 }) r.2) s

/-- The buffers of a port's running lanes are set anew, in both directions (R64, R67). -/
def buffersSet (p : Fin 8) (s : State) : State :=
  let l := linesOfPort (modeOf s) p
  let up := (hostsOfPort s.ports[p].act).any fun h => s.hosts[h].st == .up
  l.foldl (fun s n =>
    let s := if s.lines[n].rx.st = .up then setRxBuffer n s else s
    if up then
      let r := latDraw s
      modRx n (fun x => { x with txDelay := r.1 }) r.2
    else s) s

/-- The buffers of a port finish re-setting (R67, R232). -/
def bufferResetDone (p : Fin 8) (s : State) : State :=
  if s.ports[p].sqBuffers then buffersSet p (modPort p (fun x => { x with sqBuffers := false }) s) else s

def execLatencyBufferResetDone (p : Fin 8) (s : State) : Host.Outcome State Fault Refusal := .next (bufferResetDone p s)

end Sys2Proof.Machine
end

