-- ==== Sys2Proof/Machine/HostPath.lean ====
section
/-! DEFINITION. The symbols of the host lanes toward the host (R51, R55, R208, R224 to R231): transmit FIR, polarity and precoding,
patterns and their checker, the loopbacks. -/

namespace Sys2Proof.Machine

/-! ### Bank fields of a host lane -/

def HostBank.swing (b : HostBank) : Nat := bits b.txCfg 8 4
def HostBank.preTx (b : HostBank) : Bool := bit b.txCfg 3
def HostBank.preRx (b : HostBank) : Bool := bit b.txCfg 2
def HostBank.txInv (b : HostBank) : Bool := bit b.txCfg 1
def HostBank.rxInv (b : HostBank) : Bool := bit b.txCfg 0
def HostBank.genPat (b : HostBank) : Nat := bits b.test 0 3
def HostBank.chkPat (b : HostBank) : Nat := bits b.test 4 3
def HostBank.lbNear (b : HostBank) : Bool := bit b.test 8
def HostBank.lbFar (b : HostBank) : Bool := bit b.test 9

/-- c₋₃ to c₊₂ (Table 7.9). -/
def HostBank.taps (b : HostBank) : List Int :=
  [ofField 8 (bits b.firLo 0 8), ofField 8 (bits b.firLo 8 8), ofField 8 (bits b.firLo 16 8), ofField 8 (bits b.firLo 24 8),
   ofField 8 (bits b.firHi 0 8), ofField 8 (bits b.firHi 8 8)]

/-- Value s of a level. -/
def levelVal (a : Fin 4) : Int := 2 * (a.val : Int) - 3

/-- Bits b1, b0 of a level (Table 4.1). -/
def symBits (a : Fin 4) : List Bool := [decide (2 ≤ a.val), decide (a.val = 1 ∨ a.val = 2)]

/-! ### The transmitter -/

/-- v[k] in mV of a window s[k−2] … s[k+3] (R224, R225), negated with TX_INV (R227). -/
def hostMv (b : HostBank) (w : List (Fin 4)) : Rat :=
  let sum := (List.range 6).foldl (fun (a : Int) i => a + b.taps.getD i 0 * levelVal (w.getD (5 - i) 0)) 0
  let v := (((500 + 25 * b.swing : Nat) : Rat) / 2) * (sum : Rat) / 192
  if b.txInv then -v else v

/-- The outputs for the windows of six symbols that a list holds. A window that reaches before the first symbol sent has neighbours
that the spec does not give: its output is free. -/
def hostWave (b : HostBank) : List (Option (Fin 4)) → State → List Rat × State
  | [], s => ([], s)
  | a :: l, s =>
    let w := a :: l.take 5
    if w.length = 6 ∧ (w.getD 2 none).isSome then
      let d := if w.all (·.isSome) then (hostMv b (w.map (·.getD 0)), s) else let r := draw s; ((r.1 : Rat), r.2)
      let r := hostWave b l d.2
      (d.1 :: r.1, r.2)
    else hostWave b l s

/-- Symbols precoded by 1/(1 + D) mod 4, after the one given; and the last of them. -/
def precode (prev : Fin 4) : List (Fin 4) → List (Fin 4) × Fin 4
  | [] => ([], prev)
  | a :: l => let p := a - prev; let r := precode p l; (p :: r.1, r.2)

/-- Symbols decoded from that precoding. -/
def unprecode (prev : Fin 4) : List (Fin 4) → List (Fin 4) × Fin 4
  | [] => ([], prev)
  | a :: l => let r := unprecode a l; ((a + prev) :: r.1, r.2)

/-- The timing lane of a port (R55): the lowest line lane in UP. -/
def timingLane (s : State) (p : Fin 8) : Option (Fin 8) := (upLanes s p).head?

/-- What times a host transmitter (R55, R217). -/
def hostClock (s : State) (h : Fin 16) : HostClock := match portOfHost s h with
  | none => .refclk
  | some p => match timingLane s p with
    | some n => .line n
    | none => .refclk

/-- Symbols go out of a host transmitter: precoding, FIR, polarity (R224 to R227). -/
def hostSend (h : Fin 16) (src : HostClock) (syms : List (Fin 4)) (s : State) : State :=
  let x := s.hosts[h]
  let pr := if x.act.preTx then precode x.path.preTx syms else (syms, x.path.preTx)
  let all := x.path.tail ++ pr.1.map some
  let w := hostWave x.act all s
  emit (.hostSymbols h src w.1) (modHost h (fun x => { x with path := { x.path with
    preTx := pr.2, tail := all.drop (all.length - 5) } }) w.2)

/-- A transmitter that is not in RUN sends no symbol: the next one is its first (R226). -/
def hostSilent (h : Fin 16) (s : State) : State :=
  if hostTx s h = .run then s else modHost h (fun x => { x with path := { x.path with tail := List.replicate 5 none } }) s

/-- The line delivers symbols for a host lane: for its transmitter, unless the generator or the near-end loopback takes their place
(R226, R228, R230), and with LB_FAR for the way back (R231). -/
def hostDeliver (h : Fin 16) (syms : List (Fin 4)) (s : State) : State :=
  let b := s.hosts[h].act
  let s := if b.lbFar then modHost h (fun x => { x with path := { x.path with far := x.path.far ++ syms } }) s else s
  if hostTx s h = .run ∧ b.genPat = 0 ∧ !b.lbNear then hostSend h (hostClock s h) syms s else hostSilent h s

/-! ### Patterns (R228, R229) -/

/-- Taps of a pattern's register, newest bit 0 (PRESUMED, log entry 71: the polynomials of IEEE 802.3 for PRBS13 and PRBS31). -/
def prbsTaps (pat : Nat) : List Nat := match pat with
  | 1 => [6, 5]
  | 2 => [12, 11, 1, 0]
  | _ => [30, 27]

def prbsLen (pat : Nat) : Nat := match pat with
  | 1 => 7
  | 2 => 13
  | _ => 31

/-- The bit that follows. -/
def prbsNext (pat : Nat) (reg : List Bool) : Bool := (prbsTaps pat).foldl (fun a i => a != reg.getD i false) false

def prbsShift (pat : Nat) (b : Bool) (reg : List Bool) : List Bool := b :: reg.take (prbsLen pat - 1)

/-- PRBS31 is sent inverted. -/
def prbsInv (pat : Nat) : Bool := pat == 3

/-- Level number of a symbol from its bits b1, b0 (Table 4.1). -/
def symLevel (b1 b0 : Bool) : Fin 4 := if b1 then (if b0 then 2 else 3) else (if b0 then 1 else 0)

/-- So many symbols of a pattern's register, and the register after them. -/
def prbsSymbols (pat : Nat) : Nat → List Bool → List (Fin 4) × List Bool
  | 0, r => ([], r)
  | k + 1, r =>
    let b1 := prbsNext pat r
    let r1 := prbsShift pat b1 r
    let b0 := prbsNext pat r1
    let t := prbsSymbols pat k (prbsShift pat b0 r1)
    (symLevel (b1 != prbsInv pat) (b0 != prbsInv pat) :: t.1, t.2)

/-- The generator of a lane sends so many symbols. -/
def hostGenerate (h : Fin 16) (count : Nat) (s : State) : State :=
  let x := s.hosts[h]
  if x.act.genPat = 0 ∨ hostTx s h ≠ .run then s
  else
    -- the pattern starts from its all-ones seed
    let reg := if x.path.gen.isEmpty then List.replicate (prbsLen x.act.genPat) true else x.path.gen
    let g := if x.act.genPat = 4 then ((List.range count).map fun i => Config.ssprq (x.path.genCount + i), reg)
      else prbsSymbols x.act.genPat count reg
    hostSend h (hostClock s h) g.1 (modHost h (fun x => { x with path := { x.path with
      gen := g.2, genCount := x.path.genCount + count } }) s)

/-- One received bit against the prediction: whether it differs. Before the lock the prediction runs on the bits received, from then on
on itself (DESIGN CHOICE, log entry 71), so that an error is counted once. -/
def checkBit (pat : Nat) (locked : Bool) (ref : List Bool) (b : Bool) : List Bool × Bool :=
  let b := b != prbsInv pat
  let want := prbsNext pat ref
  (prbsShift pat (if locked then want else b) ref, decide (ref.length < prbsLen pat) || b != want)

/-- One received symbol: the checker after it, and the bits in error. -/
def checkSym (pat : Nat) (locked : Bool) (c : Checker) (a : Fin 4) : Checker × Nat :=
  let r := (symBits a).foldl (fun (x : List Bool × Nat) b =>
    let y := checkBit pat locked x.1 b
    (y.1, x.2 + b2n y.2)) (c.ref, 0)
  ({ ref := r.1, run := if r.2 = 0 then c.run + 1 else 0, errs := (decide (r.2 ≠ 0) :: c.errs).take 4096 }, r.2)

/-- The symbols received in a state that decides pass the checker; once it has locked, bit errors count (R229). -/
def hostCheck (h : Fin 16) (syms : List (Fin 4)) (s : State) : State :=
  let x := s.hosts[h]
  let pat := x.act.chkPat
  if pat = 0 then s
  else
    let r := syms.foldl (fun (a : Checker × Nat) y => let z := checkSym pat x.chkLock a.1 y; (z.1, a.2 + z.2)) (x.chk, 0)
    let e := if x.chkLock then r.2 else 0
    countHost h 0x0A e (modHost h (fun x => { x with chk := r.1, testErr := satU 32 (x.testErr + e) }) s)

/-! ### Decided symbols -/

/-- Polarity, then precoding (R227). -/
def hostSymbolsIn (b : HostBank) (prev : Fin 4) (syms : List (Fin 4)) : List (Fin 4) × Fin 4 :=
  let l := if b.rxInv then syms.map (3 - ·) else syms
  if b.preRx then unprecode prev l else (l, l.getLast?.getD prev)

/-- Decided symbols go on: to the checker, in UP to the line unless LB_FAR takes their place, and through the near-end loopback, 64
symbols after their decision (R229 to R231). -/
def hostForward (h : Fin 16) (syms : List (Fin 4)) (s : State) : State :=
  let b := s.hosts[h].act
  let r := hostSymbolsIn b s.hosts[h].path.preRx syms
  let s := hostCheck h r.1 (modHost h (fun x => { x with path := { x.path with preRx := r.2 } }) s)
  if s.hosts[h].st ≠ .up then s
  else
    let near := s.hosts[h].path.near ++ r.1
    let out := near.take (near.length - 64)
    let s := modHost h (fun x => { x with path := { x.path with
      toLine := if b.lbFar then x.path.toLine else x.path.toLine ++ r.1, near := near.drop (near.length - 64) } }) s
    if b.lbNear ∧ b.genPat = 0 ∧ hostTx s h = .run then hostSend h .own out s else s

end Sys2Proof.Machine
end

