-- ==== Sys2Proof/Machine/LineRx.lean ====
section
/-! DEFINITION. Line receive: acquisition, outage and squelch, gain (chapter 3), adaptation, quality figures, mute overlay and
stored bank (chapter 4). -/

namespace Sys2Proof.Machine

/-! ### Acquisition (R97 to R104) -/

/-- UP, from FRAME or RELOCK: buffers set, with fixed latency in both directions, outage time held, the event, training (R65,
R103, R105, R167). -/
def enterUp (n : Fin 8) (s : State) : State :=
  let r := s.lines[n].rx
  let relock := r.st == .relock
  let s := setRxBuffer n s
  let fixed := fixedLat s
  let s := modRx n (fun r => { r with
    txDelay := if fixed then 0 else r.txDelay
    st := .up, cdrLock := true, fallback := r.fallback && !relock, outTicks := r.outTicks + (s.clk - r.outSince), outSince := s.clk }) s
  let s := raise (lineSrc n 0x03) (pay2 (b2n relock) (satU 16 (ticksUs (s.clk - r.acqStart)))) s
  trnAtUp n (!relock) s

/-- Leaves FRAME or RELOCK for UP once the lane is in frame (R98): in mode 4 with CODE 0b10 nothing is searched for. -/
def frameCheck (n : Fin 8) (s : State) : State :=
  let r := s.lines[n].rx
  if (r.st = .frame ∨ r.st = .relock) ∧ (r.inFrame ∨ (r.st = .relock ∧ lineCode s n = 2)) then enterUp n s else s

/-- With CODE 0b10 FRAME is passed one reference tick after TRAIN (R98). -/
def framePass (n : Fin 8) (s : State) : State :=
  if s.lines[n].rx.st = .frame ∧ lineCode s n = 2 then enterUp n s else s

/-- Lock lost in UP (R99): 0 frame, 1 clock recovery, 2 codeword lock. -/
def loseLock (n : Fin 8) (cause : Nat) (s : State) : State :=
  if s.lines[n].rx.st = .up then
    enterRelock n (outageStart n (raise (lineSrc n 0x00) (pay1 cause) s))
  else s

/-- The signal detector reports loss (R89, R97); in OFF and DARK it is only noted. -/
def signalLoss (n : Fin 8) (s : State) : State :=
  let st := s.lines[n].rx.st
  let s := modRx n (fun r => { r with sigDet := false }) s
  if st = .off ∨ st = .dark then s else enterDark n false s

/-- On leaving DARK the transmitter of an abandoned exchange loads its last-good bank, else the active bank (R169). -/
def darkLiveSet (n : Fin 8) (s : State) : State :=
  let mode := modeOf s
  modLine n (fun l => if l.tx.restartAtUp && l.tx.trnState == 5 then { l with tx := { l.tx with live := txLoad mode l } } else l) s

/-- DARK ends: RELOCK with a stored bank and at most 1 s of dark, else GAIN (R101, R39). -/
def leaveDark (n : Fin 8) (s : State) : State :=
  let l := s.lines[n]
  let dark := s.clk - l.rx.darkSince
  let s := if l.rx.darkByRefclk then s else raise (lineSrc n 0x02) (pay1 (satU 32 (ticksUs dark))) s
  let s := darkLiveSet n (modRx n (fun r => { r with darkByRefclk := false }) s)
  if l.eq.stored.isSome && decide (dark ≤ oneSecond) then enterRelock n s else enterGain n false s

/-- Light is reported: the lane leaves OFF or DARK (R101, Table 3.4). -/
def lightCheck (n : Fin 8) (s : State) : State :=
  if !lightSeen s n then s
  else match s.lines[n].rx.st with
    | .off => if rxReady s n then enterGain n false (outageFromOff n s) else s
    | .dark => if s.refOk then leaveDark n s else s
    | _ => s

/-- The RMS level reports light (R89). -/
def lightOn (n : Fin 8) (s : State) : State :=
  let s := if s.lines[n].rx.st = .off && !rxReady s n then s else modRx n (fun r => { r with sigDet := true }) s
  lightCheck n s

/-- Loss and light as the photocurrent comparator of a lane with LOS_SRC = 1 changes them (R89, R354). -/
def losCheck (n : Fin 8) (s : State) : State :=
  if lightSeen s n then lightCheck n s
  else if compDark s n && s.lines[n].rx.st != .dark && s.lines[n].rx.st != .off then enterDark n false s else s

/-- A lane that may leave OFF and has seen no light for 20 µs goes to DARK (Table 3.4). -/
def offTimeout (n : Fin 8) (s : State) : State :=
  let r := s.lines[n].rx
  if r.st = .off ∧ rxReady s n ∧ r.darkSince + usTicks 20 ≤ s.clk then enterDark n false (outageFromOff n s) else s

def gainDone (n : Fin 8) (s : State) : State :=
  if s.lines[n].rx.st = .gain then modRx n (fun r => { r with st := .timing }) s else s

/-- TRAIN entry: phase 1, every loop from its initial values (Table 4.2, R125). -/
def enterTrain (n : Fin 8) (s : State) : State :=
  modLine n (fun l => { l with
    rx := { l.rx with st := .train, cdrLock := true, skewWins := 0 }
    eq := { restartAll l.act l.eq with
      phase := 1, again := false, conv := false, snrHist := [], trellis := Trellis.reset, acc := QualAcc.reset } }) (eqNote n s)

def timingDone (n : Fin 8) (s : State) : State := if s.lines[n].rx.st = .timing then enterTrain n s else s

/-- A state in GAIN to FRAME exceeds its bound (R100). -/
def acqRetry (n : Fin 8) (s : State) : State :=
  let st := s.lines[n].rx.st
  if st = .gain ∨ st = .timing ∨ st = .train ∨ st = .frame then
    enterGain n true (raise (lineSrc n 0x05) (pay1 (acqCode st)) s)
  else s

/-- RELOCK lasts FALLBACK_MS (R100, R105). -/
def relockFallback (n : Fin 8) (s : State) : State :=
  if s.lines[n].rx.st = .relock then
    enterGain n true (raise (lineSrc n 0x04) 0 (modRx n (fun r => { r with fallback := true }) s))
  else s

/-- The clock-recovery lock detector reports unlock for 2 µs. -/
def cdrUnlock (n : Fin 8) (s : State) : State := loseLock n 1 (modRx n (fun r => { r with cdrLock := false }) s)

/-- The lane's outage reaches its 2 ms point (R103): nothing while the lane is in UP, in OFF, or without REFCLK. -/
def outagePoint (n : Fin 8) (s : State) : State :=
  let r := s.lines[n].rx
  if r.outage && !r.past2ms && s.refOk && r.st != .up && r.st != .off then
    squelch n true (modRx n (fun r => { r with past2ms := true }) s)
  else s

/-- Every lane of the port is in UP and in deskew range: the port resumes (R104). -/
def portResume (p : Fin 8) (s : State) : State :=
  let l := linesOfPort (modeOf s) p
  if portEnabled s p && (l.all fun n => s.lines[n].rx.st == .up) && !s.ports[p].sqDeskew then
    l.foldl (fun s n => modRx n (fun r => { r with squelch := false }) s) s
  else s

/-- 1 ms in UP without interruption ends the outage. -/
def outageEnd (n : Fin 8) (s : State) : State :=
  if s.lines[n].rx.st = .up then modRx n (fun r => { r with outage := false, outTicks := 0, past2ms := false }) s else s

/-- In mode 4 with CODE 0b11 the inner decoder reports codeword lock, or loses it (R98, R99). -/
def codewordLock (n : Fin 8) (s : State) : State :=
  let st := s.lines[n].rx.st
  if modeOf s = 4 ∧ lineCode s n = 3 ∧ (st = .frame ∨ st = .up ∨ st = .relock) then
    frameCheck n (modRx n (fun r => { r with inFrame := true }) s)
  else s
def codewordLockLost (n : Fin 8) (s : State) : State :=
  if modeOf s = 4 ∧ lineCode s n = 3 then loseLock n 2 (modRx n (fun r => { r with inFrame := false }) s) else s

/-- ACQ_STS.IN_FRAME (R98). -/
def inFrameBit (s : State) (n : Fin 8) : Bool :=
  if modeOf s = 4 ∧ lineCode s n = 2 then s.lines[n].rx.st == .up else s.lines[n].rx.inFrame

/-! ### Gain (R88 to R92) -/

def clampVga (v : Int) : Nat := (max 0 (min 80 v)).toNat

/-- A transaction of firmware with the lane's TIA is queued or runs. -/
def tiaBusy (s : State) (n : Fin 8) : Bool := s.ocp.any fun t => match t.what with
  | .tiaWrite k _ _ | .tiaRead k _ _ => k == n
  | _ => false

/-- Firmware may write the lane's TIA code (R90 to R92). -/
def tiaRuns (s : State) (n : Fin 8) : Bool :=
  s.lines[n].act.tiaEn && !s.lines[n].rx.tiaStopped && s.rst.mgmtRun && domOn s 11

/-- In GAIN the TIA code is picked and written, from the first level measured; SETTLE runs before the VGA loop goes on (R91). -/
def tiaFirst (n : Fin 8) (s : State) : State :=
  tiaWrite n (tiaChoice s.lines[n]) 1 (modRx n (fun r => { r with tiaPick := false, vgaStepDue := some 0 }) s)

/-- One step of the gain loop toward VGA_TGT: up to 2 dB in GAIN, 0.25 dB otherwise; held in DARK, and in GAIN while the TIA is being
written and settles (R88, R91). DESIGN CHOICE (log entry 68): a step goes as far toward the target as its bound allows, in whole codes. -/
def vgaStep (n : Fin 8) (rms : Nat) (s : State) : State :=
  let l := s.lines[n]
  if l.rx.st = .off then s
  else
    let hold := l.rx.st == .dark || (l.rx.st == .gain && (tiaBusy s n || l.rx.vgaStepDue.isSome))
    let d := if hold then 0 else gainSteps (bits l.act.rxfe 16 8) rms (if l.rx.st = .gain then 8 else 1)
    let first := l.rx.st == .gain && l.rx.tiaPick && tiaRuns s n
    let s := modRx n (fun r => { r with rms := satU 8 rms, vga := if first then r.vga else clampVga (r.vga + d) }) s
    if first then tiaFirst n s else s

/-- The VGA has stayed within 1 dB of a limit for 10 ms in UP: one TIA step toward the middle of the range is wanted, where it stays
within CODE_MIN to CODE_MAX (R91). -/
def tiaLimit (n : Fin 8) (s : State) : State :=
  let l := s.lines[n]
  let t := l.act.tia
  if l.rx.st = .up ∧ l.act.tiaEn ∧ !l.rx.tiaStopped ∧ s.rst.mgmtRun then
    if 76 ≤ l.rx.vga ∧ bits t 12 4 ≤ l.rx.tiaCode + 1 ∧ l.rx.tiaCode < bits t 16 4 then
      modRx n (fun r => { r with tiaWanted := some (r.tiaCode + 1) }) s
    else if l.rx.vga ≤ 4 ∧ bits t 12 4 < l.rx.tiaCode ∧ l.rx.tiaCode ≤ bits t 16 4 + 1 then
      modRx n (fun r => { r with tiaWanted := some (r.tiaCode - 1) }) s
    else s
  else s

/-- A window that admits M4 and covers the lane has opened: the wanted TIA code is written, if the arbiter admits it (R91). -/
def tiaIssue (n : Fin 8) (s : State) : State :=
  let l := s.lines[n]
  match l.rx.tiaWanted with
  | none => s
  | some c =>
    if l.rx.st = .up ∧ tiaRuns s n then
      match arbOffer .plain 4 (.line (some n)) s with
      | (s, false) => s
      | (s, true) =>
        let d : Int := 2 * (bits l.act.tia 8 4 : Int)
        tiaWrite n c 1 (modRx n (fun r => { r with
          tiaWanted := none, vgaStepDue := some (if l.rx.tiaCode < c then -d else d) }) s)
    else if domOn s 11 then modRx n (fun r => { r with tiaWanted := none }) s else s

/-- The write is still to come, or on its way. -/
def tiaWriting (s : State) (n : Fin 8) : Bool := s.ocp.any fun t => match t.what with
  | .tiaWrite k _ _ => k == n
  | _ => false

/-- SETTLE after the last clock edge of the write, the VGA steps opposite to the TIA change; in GAIN its loop goes on (R91). In
DARK and OFF the VGA is held (R88). -/
def vgaTiaStep (n : Fin 8) (s : State) : State :=
  if tiaWriting s n then s
  else modRx n (fun r => match r.vgaStepDue with
    | some d => { r with vga := if r.st = .off ∨ r.st = .dark then r.vga else clampVga (r.vga + d), vgaStepDue := none }
    | none => r) s

/-! ### Samples (R93, R96, R107 to R119) -/

/-- States in which the line's fixed counter counts (Table 13.1). -/
def lineDecodes (s : State) (n : Fin 8) : Bool := s.lines[n].rx.st == .up || s.lines[n].rx.st == .relock

/-- Adds decisions per level, in units of 64 (selectors 0x30 to 0x33). -/
def countLevels (n : Fin 8) (syms : List (Fin 4)) (s : State) : State :=
  (List.finRange 4).foldl (fun s (v : Fin 4) =>
    let k := s.lineCtr[n].lvlRem[v] + (syms.filter (· == v)).length
    let s := { s with lineCtr := upd s.lineCtr n fun c => { c with lvlRem := c.lvlRem.set v (k % 64) } }
    countLine n (0x30 + v.val) (k / 64) s) s

/-- The decisions that the detector delivers: with a PMD that specifies precoding, decoded from it (R117). -/
def delivered (pre : Bool) (l : List Decided) : List (Fin 4) := l.map fun d => if pre then d.a0 + d.a1 else d.a0

/-- States in which the line frames and decodes: FRAME, UP and RELOCK. -/
def framing (s : State) (n : Fin 8) : Bool :=
  s.lines[n].rx.st == .frame || s.lines[n].rx.st == .up || s.lines[n].rx.st == .relock

/-- The decisions and their log-likelihoods go on to the inner decoder (R107, R117). -/
def softTake (n : Fin 8) (syms : List (Fin 4)) (l : List Decided) (s : State) : State :=
  if framing s n then
    modFr n (fun f => { f with soft := f.soft ++ (syms.zip l).map fun x => { sym := x.1, l1 := x.2.llr.getD 0 0, l0 := x.2.llr.getD 1 0 } }) s
  else s

/-- A decision whose input lies more than 32 detector units from the model (selector 0x2E). -/
def bigError (c : EqCoefs) (d : Decided) : Bool :=
  let e := d.inp.y - modelOf c d.a0 d.a1 d.a2
  decide (e < -32 ∨ 32 < e)

/-- While the lane is in UP and firmware runs (R171), the requester's mean over a context c = 16·a[k−1] + 4·a[k] + a[k+1] takes the
final decisions of a block (R146, R167): the error of a symbol counts once its successor is decided. -/
def contextTake (c : EqCoefs) (p : Requester) (l : List Decided) : Requester := match p.step with
  | .context w sum cnt last =>
    if 16 < w then p
    else
      let r := l.foldl (fun (a : Rat × Nat × Option Rat) d =>
        let e := d.inp.y - modelOf c d.a0 d.a1 d.a2
        match a.2.2 with
        | some v => if 16 * d.a2.val + 4 * d.a1.val + d.a0.val = p.ctx then (a.1 + v, a.2.1 + 1, some e) else (a.1, a.2.1, some e)
        | none => (a.1, a.2.1, some e)) (sum, cnt, last)
      { p with step := .context w r.1 r.2.1 r.2.2 }
  | _ => p

/-- The samples of a block pass the stages of R107 up to the detector, and every loop takes its step (R119); in TIMING the samples are
only taken. -/
def samplesIn (n : Fin 8) (xs : List Int) (s : State) : State :=
  let l := s.lines[n]
  let all := ((xs.map adcClip).reverse ++ l.eq.xs).take 1104
  if l.eq.phase = 0 then modEq n (fun e => { e with xs := all }) s
  else
    let pre := decide (modeOf s = 4) && Config.pmdPrecoding (lineCode s n)
    let c := detCoefs l.eq
    let d := detect pre l.act l.eq all
    let s := modEq n (fun e => eqUpdate l.act { e with
      xs := all, trellis := d.1
      acc := d.2.2.foldl (QualAcc.add c) (d.2.1.foldl (QualAcc.addTent c) e.acc) } all d.2.1) (eqNote n s)
    let s := softTake n (delivered pre d.2.2) d.2.2 s
    let s := if lineDecodes s n then
        countLevels n (d.2.2.map (·.a0)) (countLine n 0x2E (d.2.2.filter (bigError c)).length s) else s
    let s := if l.rx.st = .up ∧ s.rst.mgmtRun then modTx n (fun x => { x with proc := x.proc.map fun p => contextTake c p d.2.2 }) s else s
    emit (.detected n (delivered pre d.2.2) (d.2.2.map (·.llr))) s

/-- The rotator and the frequency integrator after a block (R93, R96). -/
def rotatorStep (n : Fin 8) (rotSteps freq : Int) (s : State) : State :=
  let f := max (-28000) (min 28000 freq)
  let live := decide (f = 28000 ∨ f = -28000) && lineDecodes s n
  let was := s.lines[n].rx.freqAtLimit
  let s := modRx n (fun r => { r with
    rot := (((r.rot : Int) + max (-32) (min 32 rotSteps)) % 128).toNat, freq := f, freqAtLimit := live }) s
  if live && !was then raise (lineSrc n 0x0B) (pay1 (toField 32 f)) s else s

/-- The loop bandwidth of a lane: CDR_BW of RXFE_CFG (R95). -/
def LineBank.cdrBw (b : LineBank) : Nat := bits b.rxfe 10 2

/-- Every 64 symbols: samples, loops, rotator and frequency integrator, these as the loop of the active bandwidth gives them (R93, R95,
R96, R107, R119). -/
def loopUpdate (n : Fin 8) (xs : List Int) (cdr : List (Int × Int)) (s : State) : State :=
  let st := s.lines[n].rx.st
  let r := cdr.getD s.lines[n].act.cdrBw (0, 0)
  if st = .off ∨ st = .dark ∨ st = .gain then s else rotatorStep n r.1 r.2 (samplesIn n xs s)

/-! ### Floating groups (R112, R113) -/

/-- A position that R112 allows beside the positions given. -/
def posOk (b : LineBank) (others : List Int) (p : Int) : Bool :=
  decide (-512 ≤ p) && decide (p + 3 ≤ 512) &&
  (List.range 4).all fun t =>
    let o := p + (t : Nat)
    !(decide (-(b.mainTap : Int) ≤ o) && decide (o ≤ 63 - b.mainTap)) &&
    others.all fun q => !(decide (q ≤ o) && decide (o ≤ q + 3))

/-- The least number from d on that holds a property, of k numbers. -/
def leastFrom (p : Nat → Bool) (d : Nat) : Nat → Option Nat
  | 0 => none
  | k + 1 => if p d then some d else leastFrom p (d + 1) k

/-- The positions nearest to p that R112 allows: those at the least distance. -/
def posNear (b : LineBank) (others : List Int) (p : Int) : List Int :=
  match leastFrom (fun d => posOk b others (p + (d : Nat)) || posOk b others (p - (d : Nat))) 0 1032 with
  | none => []
  | some d => if d = 0 then [p] else [p - (d : Nat), p + (d : Nat)].filter (posOk b others)

/-- Takes one of equally good choices: the spec does not say which. -/
def pick (l : List Int) (s : State) : Option Int × State :=
  match l with
  | [] => (none, s)
  | [a] => (some a, s)
  | _ => let r := draw s; (l[r.1 % l.length]?, r.2)

/-- The next group: at the largest remaining correlation of those left, (offset, magnitude), beside the positions so far. -/
def placeNext (b : LineBank) (thr : Nat) (main : Rat) (left : List (Int × Rat)) (acc : List Int) (s : State) : Option Int × State :=
  let best := left.foldl (fun m e => max m e.2) 0
  if left.isEmpty || decide (best * 256 < thr * main) then (none, s)
  else
    let d := pick ((left.filter fun e => e.2 == best).map (·.1)) s
    pick (posNear b acc (d.1.getD 0 - 1)) d.2

/-- Up to k groups, each where the largest tap left lies (R112, R113). -/
def placeGroups (b : LineBank) (thr : Nat) (main : Rat) : Nat → List (Int × Rat) → List Int → State → List Int × State
  | 0, _, acc, s => (acc, s)
  | k + 1, left, acc, s =>
    match placeNext b thr main left acc s with
    | (none, s) => (acc, s)
    | (some p, s) =>
      placeGroups b thr main k (left.filter fun e => !(decide (p ≤ e.1) && decide (e.1 ≤ p + 3))) (acc ++ [p]) s

def absQ (v : Rat) : Rat := if v < 0 then -v else v

/-- The offsets outside the main span with the magnitudes of their correlations. -/
def sweepOffsets (b : LineBank) (all : List Rat) : List (Int × Rat) :=
  ((List.range 1025).map fun (i : Nat) => ((i : Int) - 512, absQ (all.getD i 0))).filter fun (e : Int × Rat) =>
    !(decide (-(b.mainTap : Int) ≤ e.1) && decide (e.1 ≤ 63 - b.mainTap))

/-- One block of 64 offsets of the sweep ends; after block 17 the groups are placed (R113). DESIGN CHOICE (log entry 75): the main-cursor
correlation is that of e[k] with x[k], over the last block. -/
def sweepBlock (n : Fin 8) (s : State) : State :=
  let l := s.lines[n]
  match l.eq.sweep with
  | none => s
  | some w =>
    if bit l.act.eqCtl 5 then modEq n (fun e => { e with sweep := none, placed := true }) s
    else
      let all := w.corr ++ (List.range 64).map fun i => w.cur.getD i 0
      if w.blocks + 1 < 17 then
        modEq n (fun e => { e with sweep := some { blocks := w.blocks + 1, corr := all, cur := [], main := 0 } }) s
      else
        let (ps, s) := placeGroups l.act (bits l.act.eqCtl 20 4) (absQ w.main) 4 (sweepOffsets l.act all) [] (eqNote n s)
        let s := modEq n (fun e => { e with sweep := none, placed := true
                                            live := { e.live with pos := (List.range 4).map fun j => ps[j]? } }) s
        raise (lineSrc n 0x0F) (pay1 ps.length) s

/-! ### Phases and quality figures (R120, R121, R130 to R137, R140) -/

/-- The blind phase ends (R120). -/
def blindEnd (n : Fin 8) (s : State) : State :=
  modLine n (fun l => if l.rx.st = .train ∧ l.eq.phase = 1 then { l with eq := eqPhase2 true l.act l.eq } else l) s

/-- 200 µs after phase 2 began in RELOCK, UP or after a restart: tracking (Table 4.2). -/
def trackingEntry (n : Fin 8) (s : State) : State :=
  modLine n (fun l => if l.eq.phase = 2 ∧ (l.rx.st ≠ .train ∨ l.eq.again) then
    { l with eq := { l.eq with phase := 3, again := false } } else l) s

/-- A value of its field, or a free one where the spec's formula gives none that the field holds. -/
def fieldOr (ok : Bool) (v : Int) (m : Nat) (s : State) : Int × State :=
  if ok then (v, s) else let r := draw s; ((r.1 % m : Nat), r.2)

/-- A measured ratio, or a free one where the window gives none. -/
def ratioOr (v : Option Rat) (s : State) : Rat × State := match v with
  | some r => (r, s)
  | none => let d := draw s; ((d.1 : Rat) / 1000, d.2)

/-- a / b; none where that is no number. -/
def quot (a : Rat) (b : Option Rat) : Option Rat := match b with
  | some v => if v = 0 then none else some (a / v)
  | none => none

/-- P_s of R131: the mean square of the four levels. -/
def levelPower (c : EqCoefs) : Rat :=
  (levelOf c 0 * levelOf c 0 + levelOf c 1 * levelOf c 1 + levelOf c 2 * levelOf c 2 + levelOf c 3 * levelOf c 3) / 4

/-- 10 · log10 of a ratio in units of 0.01 dB as a 16-bit field; free where the field does not hold it. -/
def dbField (r : Rat) (s : State) : Int × State :=
  let v := if 0 < r then cdB r.num.natAbs r.den else 0
  fieldOr (decide (0 < r) && decide (0 ≤ v) && decide (v < 65536)) v 65536 s

/-- Placement is complete or not required (R121). DESIGN CHOICE (log entry 75): where FRZ[1] stood at the switch to phase 2 and is
cleared later in TRAIN, placement has not run and is required. -/
def placedOk (l : Line) : Bool := !placeWanted l.act || l.eq.placed

/-- a lies within 0.1 dB of b, as ratios: within a factor of 10^0.01. -/
def within01 (a b : Rat) : Bool := decide (a ^ 100 ≤ 10 * b ^ 100) && decide (b ^ 100 ≤ 10 * a ^ 100)

/-- Four windows within 0.1 dB of the first of them (newest first in the list). -/
def settled (h : List Rat) : Bool := decide (4 ≤ h.length) && (h.take 4).all fun v => within01 v (h.getD 3 0)

/-- Margin-low detection over windows in UP (R137). DESIGN CHOICE (log entry 75): windows outside UP count neither toward the event nor
toward the three that let it be raised again, and break both runs. -/
def marginLow (n : Fin 8) (s : State) : State :=
  let l := s.lines[n]
  if l.rx.st ≠ .up then modEq n (fun e => { e with lowRun := 0, highRun := 0 }) s
  else
    let low : Int := 10 * (bits l.act.qual 8 8 : Nat)
    let m := l.eq.margin
    let down := if m < low then l.eq.lowRun + 1 else 0
    let up := if low + 50 ≤ m then l.eq.highRun + 1 else 0
    let fire := !l.eq.lowRaised && decide (3 ≤ down)
    let s := modEq n (fun e => { e with lowRun := min down 3, highRun := min up 3
                                        lowRaised := (e.lowRaised || fire) && decide (up < 3) }) s
    if fire then raise (lineSrc n 0x0C) (pay1 (toField 32 m)) s else s

/-- MARGIN of a pre-FEC rate code (R136). -/
def marginField (code : Nat) (pre : BitVec 16) (s : State) : Int × State :=
  if bits pre 0 10 = 0 then ((0x7FFF : Int), s)
  else fieldOr (decide (pre.toNat < 512) || decide (1024 ≤ pre.toNat)) (satS 16 (marginOf code pre)) 0x7FFF s

/-- MUTE_PEN of a window (R140); 0 under the overlay. -/
def muteField (q : QualAcc) (muted : Bool) (s : State) : Int × State :=
  if muted then ((0 : Int), s)
  else match q.mse with
    | none => fieldOr false 0 0x8000 s
    | some m =>
      let r := 1 + q.spread / m
      fieldOr (m != 0) (min 0x7FFF (cdB r.num.natAbs r.den)) 0x8000 s

/-- The figures that a window yields (R131 to R136, R140): the ratio P_s / MSE and the SNR reading, the same ratio from tentative
decisions, the pre-FEC estimate and its code, eye, margin and mute penalty. What a window without decisions leaves open is free, and
what is computed from it is computed from the free value. -/
structure Figures where
  ratio : Rat
  tent : Rat
  snr : Int
  est : Rat
  pre : BitVec 16
  eye : Int
  margin : Int
  pen : Int
  deriving DecidableEq, Repr

def figuresOf (code : Nat) (e : LineEq) (s : State) : Figures × State :=
  let p := levelPower e.live
  let (ratio, s) := ratioOr (quot p e.acc.mse) s
  let (tent, s) := ratioOr (quot p e.acc.tentMse) s
  let (snr, s) := dbField ratio s
  let (est, s) := match e.acc.errors with
    | some v => (v, s)
    | none => let d := draw s; (rateVal (BitVec.ofNat 16 d.1), d.2)
  let pre := rateOf est.num.natAbs est.den
  let (eye, s) := match eyeOf e.acc.hist with
    | some v => (satS 16 v, s)
    | none => let d := draw s; (ofField 16 (d.1 % 65536), d.2)
  let (margin, s) := marginField code pre s
  let (pen, s) := muteField e.acc e.muted s
  ({ ratio := ratio, tent := tent, snr := snr, est := est, pre := pre, eye := eye, margin := margin, pen := pen }, s)

/-- The skew estimates of the slices are refreshed every 2²⁰ samples of each, which are 16 windows (R84, R87). -/
def skewRefresh (n : Fin 8) (skews : List Nat) (s : State) : State :=
  modRx n (fun x => if x.skewWins < 15 then { x with skewWins := x.skewWins + 1 }
    else { x with skewWins := 0, skews := skews.take 64 }) s

/-- A lane converges (R121): CONV, and TRAIN gives way to FRAME. -/
def converged (l : Line) (code : Nat) (f : Figures) : Bool :=
  l.eq.conv || ((l.eq.phase == 2 || l.eq.phase == 3) && settled ((f.ratio :: l.eq.snrHist).take 4) &&
    decide (f.est ≤ (berRef code : Rat) / 100000) && placedOk l)

/-- A quality window ends (R120, R121, R130 to R137, R140). DESIGN CHOICE (log entry 75): SAT falls at every window's end, also where the
coefficient stays clamped. -/
def qualityWindow (n : Fin 8) (skews : List Nat) (s : State) : State :=
  let l := s.lines[n]
  if l.rx.st ≠ .train ∧ l.rx.st ≠ .frame ∧ l.rx.st ≠ .up ∧ l.rx.st ≠ .relock then s
  else
    let code := lineCode s n
    let r := figuresOf code l.eq s
    let f := r.1
    let conv := converged l code f
    let s := modEq n (fun e => { e with
      snr := f.snr, eye := f.eye, preFec := f.pre.toNat, margin := f.margin, mutePen := f.pen.toNat
      mse := match e.acc.mse with | some m => some m | none => e.mse
      snrHist := (f.ratio :: e.snrHist).take 4, sat := false, conv := conv, acc := QualAcc.reset }) (skewRefresh n skews r.2)
    -- 12 dB is a ratio of 10^1.2
    let s := if l.eq.phase = 1 ∧ 10 ^ 6 ≤ f.tent ^ 5 then blindEnd n s else s
    let s := if l.rx.st = .train ∧ conv then
        frameCheck n (modLine n (fun l => { l with rx := { l.rx with st := .frame }, eq := { l.eq with phase := 3 }
                                                   fr := { l.fr with idValid := false } }) s)
      else if l.rx.st = .relock ∧ code = 2 then frameCheck n s else s
    trnWindow n (marginLow n s)

/-- A coefficient has stayed clamped for 1 ms (R119). -/
def coefSaturated (n : Fin 8) (loop : Fin 4) (s : State) : State :=
  if s.lines[n].eq.phase = 0 || !loopClamped s.lines[n].eq.live loop.val then s
  else raise (lineSrc n 0x0E) (pay1 loop.val) (modEq n (fun e => { e with sat := true }) s)

/-- Every coefficient in force is latched into the readback registers on one tick: those applied to the last symbol before it, so what
changed on this tick is not in it yet (R129). With the domain off, or in a reset, the registers keep their reset values (R143). -/
def lineCapture (n : Fin 8) (s : State) : State :=
  if !domOn s (rxDomain n) || laneHeld s (.line n) then s
  else modEq n (fun e => { e with
    cap := (match e.prior with
      | some x => if x.1 = s.clk then x.2 else e.inForce
      | none => e.inForce)
    capValid := true }) s

/-- The stored coefficient bank is saved, where its conditions hold; under the overlay with the held values (R127, R141). With the domain
off, or in a reset, BANK_AGE keeps its reset value (R143). -/
def storedSave (n : Fin 8) (s : State) : State :=
  if !domOn s (rxDomain n) || laneHeld s (.line n) then s
  else
  let l := s.lines[n]
  let ok := s.rst.mgmtRun && l.rx.st == .up && l.eq.conv && decide (0 ≤ l.eq.margin)
  modLine n (fun l =>
    if ok then
      let c := l.eq.live
      let c := if l.eq.muted then
        { c with main := (List.range 64).map fun i => if tapUsed l.act true i then c.main.getD i 0 else l.eq.heldMain.getD i 0
                 nl := l.eq.heldNl, h2 := l.eq.heldH2 } else c
      { l with eq := { l.eq with stored := some { coefs := c, vga := l.rx.vga, tia := l.rx.tiaCode, freq := l.rx.freq }
                                 voided := [], bankAge := 0 } }
    else { l with eq := { l.eq with bankAge := satU 8 (l.eq.bankAge + 1) } }) s

/-! ### Mute overlay (R138, R139) -/

/-- Entry and exit take the loops into phase 2 for 200 µs (R138, R139). DESIGN CHOICE (log entry 75): phase 3 follows them also in a lane
in TRAIN that has not converged. -/
def mutePhase (n : Fin 8) (s : State) : State :=
  modLine n (fun l => if l.eq.phase = 0 then l
    else { l with eq := { (if l.eq.phase = 1 then eqPhase2 (l.rx.st == .train) l.act l.eq else { l.eq with phase := 2 }) with again := true } }) s

/-- The overlay is applied to a lane. -/
def muteEnter (n : Fin 8) (s : State) : State :=
  if s.lines[n].eq.muted then s
  else
    let pen := s.lines[n].eq.mutePen
    let s := modLine n (fun l =>
      let e := l.eq
      { l with eq := { e with
          muted := true, heldMain := e.live.main, heldNl := e.live.nl, heldH2 := e.live.h2, mutePen := 0
          live := { e.live with main := maskTaps l.act true e.live.main, nl := List.replicate 15 0, h2 := 0 } } }) (eqNote n s)
    let s := mutePhase n s
    raise (lineSrc n 0x0D) (pay2 1 (satU 16 pen)) s

/-- The overlay is lifted: the held values return, within the structure of the active bank. DESIGN CHOICE (log entry 68): the second
field of the event is 0. -/
def muteLeave (n : Fin 8) (s : State) : State :=
  if !s.lines[n].eq.muted then s
  else
    let s := modLine n (fun l =>
      let e := l.eq
      { l with eq := { e with
          muted := false, heldMain := [], heldNl := [], heldH2 := 0
          live := { e.live with
            main := maskTaps l.act false ((List.range 64).map fun i =>
              if tapUsed l.act true i then e.live.main.getD i 0 else e.heldMain.getD i 0)
            nl := if nlUsed l.act false then e.heldNl else List.replicate 15 0
            h2 := if det16 l.act false then e.heldH2 else 0 } } }) (eqNote n s)
    let s := mutePhase n s
    raise (lineSrc n 0x0D) 0 s

def execLineCoefCapture (n : Fin 8) (s : State) : Host.Outcome State Fault Refusal := .next (lineCapture n s)

/-- A comparator changes level: the converters' side, and for MON_IN_0 to MON_IN_7 that of the line lane (R89, R354). -/
def compLevel (i : Fin 32) (level : Bool) (s : State) : State :=
  if level = s.comp[i].level then s
  else
    let s := compCross i level s
    if h : i.val < 8 then losCheck ⟨i.val, h⟩ s else s

/-- The comparators that change level on one reference tick: of requests for one converter the input with the lowest number is served
(R356). -/
def compLevels (xs : List (Fin 32 × Bool)) (s : State) : State :=
  forFin 32 (fun i s => match xs.find? fun x => x.1 == i with
    | some x => compLevel i x.2 s
    | none => s) s

def execComparatorCrossing (xs : List (Fin 32 × Bool)) (s : State) : Host.Outcome State Fault Refusal :=
  .next (compLevels xs s)
def execSignalLoss (n : Fin 8) (s : State) : Host.Outcome State Fault Refusal := .next (signalLoss n s)
def execLight (n : Fin 8) (s : State) : Host.Outcome State Fault Refusal := .next (lightOn n s)
def execGainDone (n : Fin 8) (s : State) : Host.Outcome State Fault Refusal := .next (gainDone n s)
def execTimingDone (n : Fin 8) (s : State) : Host.Outcome State Fault Refusal := .next (timingDone n s)
def execAcquisitionRetry (n : Fin 8) (s : State) : Host.Outcome State Fault Refusal := .next (acqRetry n s)
def execRelockFallback (n : Fin 8) (s : State) : Host.Outcome State Fault Refusal := .next (relockFallback n s)
def execLockLost (n : Fin 8) (s : State) : Host.Outcome State Fault Refusal := .next (cdrUnlock n s)
def execPortSquelched (n : Fin 8) (s : State) : Host.Outcome State Fault Refusal := .next (outagePoint n s)
def execPortResume (p : Fin 8) (s : State) : Host.Outcome State Fault Refusal := .next (portResume p s)
def execOutageEnd (n : Fin 8) (s : State) : Host.Outcome State Fault Refusal := .next (outageEnd n s)
def execVgaLoopStep (n : Fin 8) (rms : Nat) (s : State) : Host.Outcome State Fault Refusal := .next (vgaStep n rms s)
def execLoopUpdate (n : Fin 8) (xs : List Int) (cdr : List (Int × Int)) (s : State) : Host.Outcome State Fault Refusal :=
  .next (loopUpdate n xs cdr s)
def execQualityWindowEnd (n : Fin 8) (skews : List Nat) (s : State) : Host.Outcome State Fault Refusal :=
  .next (qualityWindow n skews s)
def execBlindTimeout (n : Fin 8) (s : State) : Host.Outcome State Fault Refusal := .next (blindEnd n s)
def execTrackingEntry (n : Fin 8) (s : State) : Host.Outcome State Fault Refusal := .next (trackingEntry n s)
def execCoefficientSaturated (n : Fin 8) (loop : Fin 4) (s : State) : Host.Outcome State Fault Refusal :=
  .next (coefSaturated n loop s)
def execFloatingGroupSweepBlock (n : Fin 8) (s : State) : Host.Outcome State Fault Refusal := .next (sweepBlock n s)
def execStoredBankSave (n : Fin 8) (s : State) : Host.Outcome State Fault Refusal := .next (storedSave n s)
def execTiaLimitHold (n : Fin 8) (s : State) : Host.Outcome State Fault Refusal := .next (tiaLimit n s)
def execVgaTiaStep (n : Fin 8) (s : State) : Host.Outcome State Fault Refusal := .next (vgaTiaStep n s)
def execCodewordLock (n : Fin 8) (s : State) : Host.Outcome State Fault Refusal := .next (codewordLock n s)
def execCodewordLockLost (n : Fin 8) (s : State) : Host.Outcome State Fault Refusal := .next (codewordLockLost n s)

end Sys2Proof.Machine
end

