-- ==== Sys2Proof/Machine/LineTx.lean ====
section
/-! DEFINITION. Line transmit: the start sequence, clipping, SKEW, and the end of an optics control port transaction (R148,
R150, R158, R173, R174, R92). -/

namespace Sys2Proof.Machine

/-- 20 µs after the DAC starts, TX_DISABLE_n goes low, unless the thermal trip holds it (R157, R158). -/
def txDisRelease (n : Fin 8) (s : State) : State :=
  let x := s.lines[n].tx
  if x.st = .run ∧ x.dacOn ∧ !s.therm.tripped then modTx n (fun x => { x with txDis := false }) s else s

/-- 10 µs after leaving RUN the DAC goes to electrical idle (R158). -/
def dacIdle (n : Fin 8) (s : State) : State :=
  if s.lines[n].tx.st = .run then s else modTx n (fun x => { x with dacOn := false, drain := none }) s

/-- A 1 ms interval with clipped symbols ends (R148): the event, with the symbols that were clipped as the DAC codes of the
interval were formed. -/
def txClipping (n : Fin 8) (s : State) : State :=
  let k := s.lines[n].tx.clips
  if k = 0 then s
  else raiseLimited (lineSrc n 0x17) 0 (pay1 (satU 16 k)) (modTx n (fun x => { x with clips := 0 }) s)

/-- The output delay moves one quarter-UI step toward the bank's SKEW (R150). -/
def skewStep (n : Fin 8) (s : State) : State :=
  modLine n (fun l =>
    let t := bits l.act.txCfg 24 8
    { l with tx := { l.tx with skew := if l.tx.skew < t then l.tx.skew + 1 else if t < l.tx.skew then l.tx.skew - 1
                                       else l.tx.skew } }) s

/-- The register is read back next, before anything that waits. -/
def ocpFirst (t : OcpTrans) (s : State) : State := { s with ocp := t :: s.ocp }

/-- The readback that follows a write, of the same register on the same chip select. -/
def ocpRead (t : OcpTrans) (what : OcpWhat) (s : State) : OcpTrans :=
  { what := what, cs := t.cs, addr := t.addr, send := ocpBytes s t.cs t.addr true 0, rd := 1 }

/-- The write again. -/
def ocpAgain (t : OcpTrans) (what : OcpWhat) (code : Nat) (s : State) : OcpTrans :=
  { what := what, cs := t.cs, addr := t.addr, rd := 0, send := ocpBytes s t.cs t.addr false code }

/-- The driver write of the start sequence is verified, or has failed: the DAC starts (R158 step 3). -/
def drvSettled (n : Fin 8) (s : State) : State :=
  modTx n (fun x => if x.waitDriver then { x with waitDriver := false, dacOn := x.st == .run } else x) s

/-- What follows from the transaction that has ended, with the bytes read on OCP_MISO. -/
def ocpResult (t : OcpTrans) (miso : List Byte) (s : State) : State :=
  let back := byteAt miso (miso.length - 1)
  match t.what with
  | .tiaWrite n code tries => ocpFirst (ocpRead t (.tiaRead n code tries) s) s
  | .tiaRead n code tries =>
    if back = code then modRx n (fun r => { r with tiaCode := code }) s
    else if tries < 2 then ocpFirst (ocpAgain t (.tiaWrite n code 2) code s) s
    else raise (lineSrc n 0x0A) (pay2 code back) (modRx n (fun r => { r with tiaStopped := true, tiaWanted := none }) s)
  | .drvWrite n code tries => ocpFirst (ocpRead t (.drvRead n code tries) s) s
  | .drvRead n code tries =>
    if back = code then drvSettled n s
    else if tries < 2 then ocpFirst (ocpAgain t (.drvWrite n code 2) code s) s
    else drvSettled n (raise (lineSrc n 0x18) (pay2 code back) s)
  | .xfer c =>
    -- the last RD_LEN bytes received, in order of arrival
    done c (ofBytesLE (miso.drop (miso.length - t.rd))) s
  | .void => s

/-- The transaction at the head ends, with no effect where it no longer stands, and the next one starts. -/
def ocpDone (miso : List Byte) (s : State) : State :=
  match s.ocp with
  | [] => s
  | t :: l =>
    let s := { s with ocp := l }
    ocpStart (if ocpStale s t then s else ocpResult t miso s)

def execTxDisableRelease (n : Fin 8) (s : State) : Host.Outcome State Fault Refusal := .next (txDisRelease n s)
def execDacIdle (n : Fin 8) (s : State) : Host.Outcome State Fault Refusal := .next (dacIdle n s)
def execTransmitClipping (n : Fin 8) (s : State) : Host.Outcome State Fault Refusal := .next (txClipping n s)
def execSkewStep (n : Fin 8) (s : State) : Host.Outcome State Fault Refusal := .next (skewStep n s)
def execOcpTransactionDone (miso : List Byte) (s : State) : Host.Outcome State Fault Refusal := .next (ocpDone miso s)

end Sys2Proof.Machine
end

