-- ==== Sys2Proof/Machine/Codes.lean ====
section
/-! DEFINITION. Inner codes, their soft decoder, outer-code statistics (chapter 6: R187 to R190, R201 to R204; R134). -/

namespace Sys2Proof.Machine

def xorAll (l : List Nat) : Nat := l.foldl (· ^^^ ·) 0

def popcount (w v : Nat) : Nat := (List.range w).foldl (fun a i => a + v / 2 ^ i % 2) 0

/-- The data columns of the standard code (R187). -/
def hamCols : List Nat :=
  ((List.range 256).filter fun v => decide (3 ≤ popcount 8 v) && decide (popcount 8 v % 2 = 1)) ++
    [0x03, 0x0C, 0x30, 0xC0, 0x0F, 0xF0, 0x3C, 0xC3]

/-- All 136 columns: data, then parity. -/
def hamAll : List Nat := hamCols ++ (List.range 8).map fun j => 2 ^ j

def hamSyndrome (c : List Bool) : Nat := xorAll ((hamAll.zip c).map fun e => if e.2 then e.1 else 0)

def flipAt (c : List Bool) (i : Nat) : List Bool := c.set i (!(c.getD i false))

/-- Hard-decision decode of the standard code. -/
def hamDecode (c : List Bool) : Option (List Bool) :=
  let s := hamSyndrome c
  if s = 0 then some c
  else match hamAll.findIdx? fun v => v == s with
    | some i => some (flipAt c i)
    | none => none

/-- Product in GF(2⁸) with x⁸ + x⁴ + x³ + x² + 1. -/
def gfMul (a b : Nat) : Nat :=
  ((List.range 8).foldl (fun (p : Nat × Nat) i =>
    (if b / 2 ^ i % 2 = 1 then p.1 ^^^ p.2 else p.1,
     let d := p.2 * 2
     if 256 ≤ d then d ^^^ 0x11D else d)) (0, a)).1

/-- α^0 to α^143. -/
def gfPows : List Nat := (List.range 143).foldl (fun l _ => l ++ [gfMul 2 (l.getLast?.getD 1)]) [1]

/-- a / b by b^254; b is not 0. -/
def gfDiv (a b : Nat) : Nat :=
  let sq x := gfMul x x
  let r := (List.range 7).foldl (fun (p : Nat × Nat) _ => let q := sq p.1; (q, gfMul p.2 q)) (b, 1)
  gfMul a r.2

/-- Hard-decision decode of the reach code: up to two errors (R188). -/
def bchDecode (c : List Bool) : Option (List Bool) :=
  let at_ (i : Nat) : Nat := gfPows.getD (143 - i) 0
  let ones := (List.range 144).filter fun i => c.getD i false
  let s1 := xorAll (ones.map at_)
  let s3 := xorAll (ones.map fun i => let x := at_ i; gfMul x (gfMul x x))
  if s1 = 0 then (if s3 = 0 then some c else none)
  else
    let cube := gfMul s1 (gfMul s1 s1)
    if s3 = cube then
      match (List.range 144).find? fun i => at_ i == s1 with
      | some i => some (flipAt c i)
      | none => none
    else
      let k := gfDiv (s3 ^^^ cube) s1
      match (List.range 144).filter fun i => let x := at_ i; (gfMul x x ^^^ gfMul s1 x ^^^ k) == 0 with
      | [i, j] => some (flipAt (flipAt c i) j)
      | _ => none

/-- Systematic encoders: data bits, then parity. -/
def hamEncode (d : List Bool) : List Bool :=
  let p := xorAll ((hamCols.zip d).map fun e => if e.2 then e.1 else 0)
  d ++ (List.range 8).map fun j => p / 2 ^ j % 2 == 1

def bchEncode (d : List Bool) : List Bool :=
  let r := d.foldl (fun r b =>
    let top := decide (r / 2 ^ 15 % 2 = 1) != b
    let sh := r * 2 % 65536
    if top then sh ^^^ 0x6F63 else sh) 0
  d ++ (List.range 16).map fun i => r / 2 ^ (15 - i) % 2 == 1

/-- Index of the least-confident bit not yet taken. -/
def leastBit (mag : List Nat) (taken : List Nat) : Nat :=
  ((List.range mag.length).foldl (fun (b : Option Nat) i =>
    if taken.contains i then b
    else match b with
      | none => some i
      | some j => if mag.getD i 0 < mag.getD j 0 then some i else some j) none).getD 0

/-- The w bit positions of lowest confidence, in order (R189). -/
def leastBits (mag : List Nat) : Nat → List Nat → List Nat
  | 0, t => t
  | w + 1, t => leastBits mag w (t ++ [leastBit mag t])

/-- Hard decisions of the log-likelihoods. -/
def hardBits (llr : List (BitVec 6)) : List Bool := llr.map fun v => decide (v.toInt < 0)

/-- The Chase decoder of R189: the best candidate, or none. -/
def chase (reach : Bool) (llr : List (BitVec 6)) : Option (List Bool) :=
  let n := if reach then 144 else 136
  let w := if reach then 6 else 4
  let llr := (List.range n).map fun i => llr.getD i 0
  let hard := hardBits llr
  let mag := llr.map fun v => v.toInt.natAbs
  let order := leastBits mag w []
  let best := (List.range (2 ^ w)).foldl (fun (b : Option (List Bool × Nat)) j =>
    let r := (List.range w).foldl (fun r k => if j / 2 ^ k % 2 = 1 then flipAt r (order.getD k 0) else r) hard
    match (if reach then bchDecode r else hamDecode r) with
    | none => b
    | some c =>
      let m := ((List.range n).filter fun i => c.getD i false != hard.getD i false).foldl (fun a i => a + mag.getD i 0) 0
      match b with
      | none => some (c, m)
      | some (_, m') => if m < m' then some (c, m) else b) none
  best.map (·.1)

def bitsVec (n : Nat) (l : List Bool) : BitVec n :=
  BitVec.ofNat n ((List.range n).foldl (fun a i => if l.getD i false then a + 2 ^ i else a) 0)

def bitDiff (n : Nat) (a b : List Bool) : Nat := ((List.range n).filter fun i => a.getD i false != b.getD i false).length

def symbolsOf (l : List Bool) : List (Fin 4) :=
  (List.range (l.length / 2)).map fun m => symLevel (l.getD (2 * m) false) (l.getD (2 * m + 1) false)

/-- Corrected and coded bits toward CORR; every 2³² coded bits the figure is refreshed (R134). -/
def corrAdd (n : Fin 8) (corr coded : Nat) (s : State) : State :=
  modEq n (fun e =>
    let c := e.corrBits + corr
    let k := e.codedBits + coded
    if k < 2 ^ 32 then { e with corrBits := c, codedBits := k }
    else { e with corr := (rateOf c k).toNat, corrBits := 0, codedBits := 0 }) s

/-- The counters of one decoded codeword (R190, R387, R388). -/
def innerCount (n : Fin 8) (corr coded : Nat) (unc : Bool) (s : State) : State :=
  let s := if lineDecodes s n then countLine n fixSel 1 s else s
  let s := if lineDecodes s n then
      countLine n 0x22 corr (countLine n 0x21 (b2n unc) (countLine n 0x20 (b2n (corr != 0)) s)) else s
  let s := corrAdd n corr coded s
  if unc then modFr n (fun f => { f with innerUnc := f.innerUnc + 1, innerInt := f.innerInt + 1 }) (noteLine n s) else s

/-- Outer-code groups of a port in the active mode (Table 6.5). -/
def groupsOf (s : State) : Nat := if modeOf s = 3 then 2 else 1

def amLock (x : Port) (g : Fin 2) : Bool := if g = 0 then x.amLock0 else x.amLock1

/-- The port position whose bits a lane's next codeword carries (R182, R184): from the STRIPE received, and the codeword's place in the
frame. In mode 4 a port has one position. -/
def rxPos (s : State) (n : Fin 8) : Nat :=
  if modeOf s = 4 then 0 else bits s.lines[n].fr.rxId 21 3 + modeLineCnt (modeOf s) * (s.lines[n].fr.rxCw % 2)

/-- The outer decoder's group of a position is in lock: what it carries goes on codeword by codeword (R61, R203). -/
def outerHolds (s : State) (p : Fin 8) (pos : Nat) : Bool := amLock s.ports[p] (if modeOf s = 3 ∧ 8 ≤ pos then 1 else 0)

/-- Symbols of an outer codeword under way wait at their position. -/
def rawAdd (pos : Nat) (l : List (Fin 4)) (x : Port) : Port := { x with raw := x.raw.set pos (x.raw.getD pos [] ++ l) }

/-- The data of an inner codeword go on to the host lane of their position; in lock, at the end of their outer codeword (R51, R184,
R203). -/
def dataForward (n : Fin 8) (data : List Bool) (s : State) : State :=
  let pos := rxPos s n
  let s := modFr n (fun f => { f with rxCw := f.rxCw + 1 }) s
  match portOfLine (modeOf s) n with
  | none => s
  | some p =>
    if hostCnt s.ports[p].act ≤ pos then s
    else if outerHolds s p pos then modPort p (rawAdd pos (symbolsOf data)) s
    else hostDeliver (mapPos s.ports[p].act pos) (symbolsOf data) s

/-- Symbols of a codeword: with the codes of this chapter, the hard decisions of mode 4, or the code of IEEE 802.3, whose length the
codeword itself shows. -/
def cwLen (code : Nat) (rest : List SoftSym) : Nat :=
  if code = 0 then 68 else if code = 1 then 72 else if code = 2 then 64 else rest.length

/-- Codewords whose symbols still come in turn with those of the next codeword: blocks of four, the last block of a frame the rest (R183);
in mode 4 there is no interleaving. -/
def cwWidth (s : State) (n : Fin 8) : Nat :=
  if modeOf s = 4 then 1
  else
    let r := s.lines[n].fr.rxCw
    let total := if lineCode s n = 1 then 3060 else 2890
    max 1 (min 4 (total - r / 4 * 4) - r % 4)

/-- The symbols of the next codeword: every w-th of those that wait, and from the command those that the detector has not handed over. -/
def softWord (w len : Nat) (q rest : List SoftSym) : List SoftSym :=
  (List.range len).map fun m => (q[m * w]?).getD (rest.getD m { sym := 0, l1 := 0, l0 := 0 })

/-- What waits once they are taken. -/
def softLeft (w len : Nat) (q : List SoftSym) : List SoftSym :=
  (((q.take (len * w)).zipIdx.filter fun e => e.2 % w != 0).map (·.1)) ++ q.drop (len * w)

/-- The symbols of the next codeword of a lane. -/
def cwTaken (s : State) (n : Fin 8) (rest : List SoftSym) : List SoftSym :=
  softWord (cwWidth s n) (cwLen (lineCode s n) rest) s.lines[n].fr.soft rest

/-- Internal log-likelihoods of symbols, b1 first. -/
def softLlrs (l : List SoftSym) : List Int := l.flatMap fun x => [x.l1, x.l0]

/-! ### The far-end loopback's elastic buffer (R231, R233) -/

/-- So many symbols that the spec leaves open. -/
def freeSyms (k : Nat) (s : State) : List (Fin 4) × State :=
  let d := draw s
  ((List.range k).map fun i => Fin.ofNat 4 (d.1 / 4 ^ i), d.2)

/-- The buffer is re-centred: `want` symbols are in it, the oldest dropped or free ones put before them. -/
def recentre (n : Fin 16) (want : Nat) (s : State) : State :=
  let k := s.hosts[n].path.far.length
  let r := if want ≤ k then ([], s) else freeSyms (want - k) s
  modHost n (fun h => { h with path := { h.path with far := r.1 ++ h.path.far.drop (k - want) } }) r.2

/-- A slip: the buffer is re-centred at 64 symbols beside the `need` that a frame takes now, counted, and told. -/
def loopSlip (n : Fin 16) (need : Nat) (s : State) : State :=
  if !bit s.hosts[n].act.test 9 then s
  else
    let l := s.clk :: s.hosts[n].slips.filter fun t => decide (s.clk < t + usTicks 1000)
    let s := recentre n (need + 64) s
    let s := modHost n (fun h => { h with slipCnt := satU 16 (h.slipCnt + 1), slips := l }) s
    raiseLimited (hostSrc n 7) 0 (pay1 l.length) (countHost n 0x0E 1 s)

/-- One inner codeword of a lane (R107, R117, R189, R190, R200): the internal log-likelihoods of its symbols are delivered in units of
LLR_SCALE, and decoded. With CODE 0b10 there is no inner code, and the hard decisions go on. -/
def innerCodeword (n : Fin 8) (rest : List SoftSym) (s : State) : State :=
  if !framing s n then s
  else
    let code := lineCode s n
    let word := cwTaken s n rest
    let left := softLeft (cwWidth s n) (cwLen code rest) s.lines[n].fr.soft
    let s := modFr n (fun f => { f with soft := left }) s
    let llr6 := (softLlrs word).map (llrDeliver (bits s.lines[n].act.eqCtl 18 2))
    let hard := hardBits llr6
    if code = 2 then
      let data := word.flatMap fun x => symBits x.sym
      let s := if lineDecodes s n then countLine n fixSel 1 s else s
      dataForward n data (emit (.inner n (bitsVec 128 data)) s)
    else if code = 3 then
      let r := Config.ieeeDecode llr6
      let s := innerCount n (if r.1 then bitDiff llr6.length r.2.1 hard else 0) llr6.length (!r.1) s
      dataForward n r.2.2 (emit (.inner n (bitsVec 128 r.2.2)) s)
    else
      let reach := decide (code = 1)
      let len := if reach then 144 else 136
      let r := match chase reach llr6 with
        | none => (hard, true)
        | some c => (c, false)
      let s := innerCount n (if r.2 then 0 else bitDiff len r.1 hard) len r.2 s
      dataForward n (r.1.take 128) (emit (.inner n (bitsVec 128 r.1)) s)

/-- A 1 ms interval with uncorrectable inner codewords ends (R190). -/
def innerInterval (n : Fin 8) (s : State) : State :=
  let k := s.lines[n].fr.innerInt
  if k = 0 then s
  else raiseLimited (lineSrc n 0x1C) 0 (pay1 (satU 32 k)) (modFr n (fun f => { f with innerInt := 0 }) s)

/-! ### Outer code -/

/-- LINE_BASE of a port: its port-level outer-code events are raised there (R204). -/
def lineBase (s : State) (p : Fin 8) : Fin 8 := Fin.ofNat 8 (bits s.ports[p].act.cfg 12 3)

/-- The SER window in progress is discarded. -/
def winClear (x : Port) : Port :=
  { x with winBins0 := List.replicate 17 0, winBins1 := List.replicate 17 0 }

/-- Positions of a group (Table 6.5). -/
def groupPositions (s : State) (p : Fin 8) (g : Fin 2) : List Nat :=
  (List.range (min 8 (hostCnt s.ports[p].act))).map (· + 8 * g.val)

/-- What waits at the positions of a group is gone. -/
def rawDrop (s : State) (p : Fin 8) (g : Fin 2) : State :=
  let l := groupPositions s p g
  modPort p (fun x => { x with raw := l.foldl (fun r k => r.set k []) x.raw }) s

/-- The symbols that wait go on as received, to the host lanes of the group. -/
def rawForward (p : Fin 8) (g : Fin 2) (s : State) : State :=
  let x := s.ports[p]
  (groupPositions s p g).foldl (fun s k =>
    if (x.raw.getD k []).isEmpty then s else hostDeliver (mapPos x.act k) (x.raw.getD k []) s) (rawDrop s p g)

/-- A group meets its clause's lock conditions (R201). -/
def markerLock (p : Fin 8) (g : Fin 2) (s : State) : State :=
  if portEnabled s p ∧ g.val < groupsOf s ∧ !amLock s.ports[p] g then
    modPort p (fun x => winClear (if g = 0 then { x with amLock0 := true, bad0 := 0 } else { x with amLock1 := true, bad1 := 0 })) s
  else s

/-- A group leaves lock (R201). -/
def markerLost (p : Fin 8) (g : Fin 2) (s : State) : State :=
  if amLock s.ports[p] g then
    let s := rawForward p g (modPort p (fun x => winClear (if g = 0 then { x with amLock0 := false } else { x with amLock1 := false })) s)
    raise (lineSrc (lineBase s p) 0x1E) (pay1 g.val) (countPort p 0x42 1 s)
  else s

/-- One more codeword in a bin: 48 bits with a sticky overflow (R202). -/
def binAdd (l : List (Nat × Bool)) (k : Nat) : List (Nat × Bool) :=
  l.set k (let e := l.getD k (0, false); if e.1 + 1 < 2 ^ 48 then (e.1 + 1, e.2) else (0, true))

def natAdd (l : List Nat) (k : Nat) : List Nat := l.set k (l.getD k 0 + 1)

/-- Bin of a codeword (R202): its corrections, 16 where the decoder finds none of at most 15. -/
def outerBin (fix : Option (List (Fin 544 × BitVec 10))) : Nat := match fix with
  | some l => min l.length 16
  | none => 16

/-- The codeword with its corrections. -/
def outerFix (cw : List (BitVec 10)) (l : List (Fin 544 × BitVec 10)) : List (BitVec 10) := l.foldl (fun c e => c.set e.1.val e.2) cw

/-- A corrected stream goes on to the host lanes of a group: the clause deals each codeword to its positions (R61, R201). -/
def outerForward (p : Fin 8) (g : Fin 2) (cw : List (BitVec 10)) (s : State) : State :=
  let l := groupPositions s p g
  let dealt := Config.pcsDeal l.length cw
  (l.zip dealt).foldl (fun s e => hostDeliver (mapPos s.ports[p].act e.1) (symbolsOf e.2) s) s

/-- Codewords in a row that the decoder could not correct: three are the loss condition of the clause (R201). -/
def outerRun (p : Fin 8) (g : Fin 2) (k : Nat) (s : State) : State :=
  let s := modPort p (fun x =>
    if g = 0 then { x with bad0 := if k = 16 then x.bad0 + 1 else 0 } else { x with bad1 := if k = 16 then x.bad1 + 1 else 0 }) s
  if 3 ≤ (if g = 0 then s.ports[p].bad0 else s.ports[p].bad1) then markerLost p g s else s

/-- The statistics of a codeword (R202 to R204). -/
def outerCount (p : Fin 8) (g : Fin 2) (k : Nat) (s : State) : State :=
  let s := modPort p (fun x =>
    let x := { x with hist := binAdd x.hist k }
    let x := if g = 0 then { x with winBins0 := natAdd x.winBins0 k } else { x with winBins1 := natAdd x.winBins1 k }
    if k = 16 then { x with fecUnc := x.fecUnc + 1, uncInt := x.uncInt + 1 } else x) (notePort p s)
  let s := countPort p fixSel 1 s
  let s := countPort p (k + 0x20 * g.val) 1 s
  if k < 16 then countPort p 0x41 k (if bit s.ports[p].act.cfg 6 && k != 0 then countPort p 0x40 1 s else s) else s

/-- One outer codeword, decoded on the cycle of its last symbol: CORRECT as it stands then governs all of it (R61, R201 to R203). Out of
lock it is forwarded as received and counts
nothing, nor does it while the port is squelched. -/
def outerCodeword (p : Fin 8) (g : Fin 2) (cw : List (BitVec 10)) (fix : Option (List (Fin 544 × BitVec 10))) (s : State) : State :=
  if !portEnabled s p ∨ groupsOf s ≤ g.val then s
  else if !amLock s.ports[p] g then emit (.outer p g cw) s
  else
    let k := outerBin fix
    let correct := bit s.ports[p].act.cfg 6
    let sq := portSquelched s p
    let out := match fix with
      | some l => if correct && !sq && decide (l.length ≤ 15) then outerFix cw l else cw
      | none => cw
    let s := emit (.outer p g out) (if sq then s else outerCount p g k s)
    let s := if correct then outerForward p g out (rawDrop s p g) else rawForward p g s
    outerRun p g k s

/-- A 1 ms interval with uncorrectable outer codewords ends (R203). -/
def outerInterval (p : Fin 8) (s : State) : State :=
  let k := s.ports[p].uncInt
  if k = 0 ∨ !portEnabled s p then s
  else raiseLimited (lineSrc (lineBase s p) 0x1D) 0 (pay1 (satU 32 k)) (modPort p (fun x => { x with uncInt := 0 }) s)

/-- Window-histogram record of a group (Table 13.6). -/
def winRecord (p : Fin 8) (g : Nat) (win : Nat) (ser : BitVec 16) (bins : List Nat) (s : State) : State :=
  (tlmForm 2 3 false 0 (Tgt.code (.port (some p))) (now s)
    ([BitVec.ofNat 8 g, BitVec.ofNat 8 win] ++ bytesLE 2 ser.toNat ++ zeros 4 ++
     (List.range 17).flatMap fun k => bytesLE 8 (bins.getD k 0)) s).1

/-- A window of 2^WIN codewords ends: SER, DEGRADED, the records (R204, R397). -/
def serWindow (p : Fin 8) (s : State) : State :=
  let x := s.ports[p]
  if !portEnabled s p then s
  else if !x.amLock0 || (groupsOf s == 2 && !x.amLock1) then modPort p winClear s
  else
    let win := bits x.act.fec 8 5
    let bin (k : Nat) : Nat := x.winBins0.getD k 0 + x.winBins1.getD k 0
    let num := (List.range 17).foldl (fun a k => a + k * bin k) 0
    let den := 544 * 2 ^ win
    let ser := rateOf num den
    let v : Rat := (num : Rat) / (den : Rat)
    let thr := rateVal (BitVec.ofNat 16 (bits x.act.fec 16 16))
    let fire := bit x.act.fec 0 && !x.degraded && decide (thr < v)
    let s := modPort p (fun x => winClear { x with ser := ser.toNat, degraded := if fire then true else x.degraded && !decide (v ≤ thr / 2) }) s
    let s := if fire then raise (lineSrc (lineBase s p) 0x1F) (pay1 ser.toNat) s else s
    if bit (reg s 0x8074) 0 then
      let s := winRecord p 0 win ser x.winBins0 s
      if groupsOf s = 2 then winRecord p 1 win ser x.winBins1 s else s
    else s

def execInnerCodeword (n : Fin 8) (rest : List SoftSym) (s : State) : Host.Outcome State Fault Refusal :=
  .next (innerCodeword n rest s)
def execInnerUncorrectable (n : Fin 8) (s : State) : Host.Outcome State Fault Refusal := .next (innerInterval n s)
def execOuterCodeword (p : Fin 8) (g : Fin 2) (cw : List (BitVec 10)) (fix : Option (List (Fin 544 × BitVec 10))) (s : State) :
    Host.Outcome State Fault Refusal := .next (outerCodeword p g cw fix s)
def execOuterUncorrectable (p : Fin 8) (s : State) : Host.Outcome State Fault Refusal := .next (outerInterval p s)
def execSerWindowEnd (p : Fin 8) (s : State) : Host.Outcome State Fault Refusal := .next (serWindow p s)
def execAlignmentMarkerLock (p : Fin 8) (g : Fin 2) (s : State) : Host.Outcome State Fault Refusal := .next (markerLock p g s)

end Sys2Proof.Machine
end

