-- ==== Sys2Proof/Machine/Frame.lean ====
section
/-! DEFINITION. Line frames (chapter 6): the transmit framer with header, side channel, payload and DAC codes, the received
header, the latency echoes (R69 to R71), host-to-host messages (R197 to R199). -/

namespace Sys2Proof.Machine

/-! ### The transmit framer -/

/-- Send priority of a side-channel message (Table 6.4). -/
def scPrio (m : BitVec 64) : Nat := match bits m 60 4 with
  | 2 => 1
  | 1 => 2
  | 3 => 2
  | 4 => 3
  | 9 => 4
  | _ => 7

/-- The queued message of highest priority, the oldest among equals (R193). -/
def scBest (l : List (BitVec 64)) : Option (BitVec 64) :=
  l.foldl (fun (b : Option (BitVec 64)) m => match b with
    | none => some m
    | some x => if scPrio m < scPrio x then some m else some x) none

/-- IDLE status of a lane (R193). -/
def idleMsg (s : State) (n : Fin 8) : BitVec 64 :=
  let l := s.lines[n]
  let sq := match portOfLine (modeOf s) n with | some p => portSquelched s p | none => false
  msg64 [(0, 60, 4), (acqCode l.rx.st, 56, 4), (toField 16 l.eq.margin, 40, 16), (b2n l.eq.muted, 39, 1), (b2n sq, 38, 1)]

/-- Fragments of a message: 6 bytes each (R198). -/
def fragCount (x : HmSend) : Nat := (x.data.length + 5) / 6

/-- A number whose first byte is the most significant of six. -/
def beSix (l : List Byte) : Nat := (List.range 6).foldl (fun a i => a * 256 + byteAt l i) 0

/-- HOST fragment f (Table of R198). -/
def fragMsg (x : HmSend) (f : Nat) : BitVec 64 :=
  let d := (x.data.drop (6 * f)).take 6
  msg64 [(8, 60, 4), (b2n (f + 1 == fragCount x), 59, 1), (d.length - 1, 56, 3), (x.msg, 51, 5), (f, 48, 3), (beSix d, 0, 48)]

/-- The next waiting message becomes the one in flight (R197). -/
def sendNext (n : Fin 8) (s : State) : State :=
  modFr n (fun f => match f.send, f.waiting with
    | none, (c, d) :: t =>
      { f with send := some { cmd := c, msg := f.nextMsg, data := d, next := 0, tries := 1 }, waiting := t
               nextMsg := (f.nextMsg + 1) % 32 }
    | _, _ => f) s

/-- The one message of this frame (R193): out of the queue, a HOST fragment in at most every second frame and only in UP
(R199), or IDLE status. -/
def scNext (n : Fin 8) (s : State) : BitVec 64 × State :=
  let f := s.lines[n].fr
  -- a training message is not sent while the management plane is in reset (R171)
  match scBest (f.out.filter fun m => s.rst.mgmtRun || !(decide (1 ≤ bits m 60 4) && decide (bits m 60 4 ≤ 3))) with
  | some m => (m, modFr n (fun f => { f with out := f.out.erase m, lastWasFrag := false }) s)
  | none =>
    match f.send with
    | some x =>
      if x.next < fragCount x ∧ !f.lastWasFrag ∧ s.lines[n].rx.st = .up then
        (fragMsg x x.next, modFr n (fun f => { f with send := some { x with next := x.next + 1 }, lastWasFrag := true }) s)
      else (idleMsg s n, modFr n (fun f => { f with lastWasFrag := false }) s)
    | none => (idleMsg s n, modFr n (fun f => { f with lastWasFrag := false }) s)

/-- The bytes of a number, most significant first. -/
def beBytes (k v : Nat) : List Byte := (bytesLE k v).reverse

/-- The 200 defined header bits (Table 6.2): header bit i is bit 199 − i. -/
def frameHdr (id fc : Nat) (m : BitVec 64) : BitVec 200 :=
  let hchk := crc8 (beBytes 4 id ++ beBytes 2 fc)
  let sccrc := crc16 (beBytes 2 fc ++ beBytes 8 m.toNat)
  BitVec.ofNat 200 (0xE4B27C1D8A56F390 * 2 ^ 136 + id * 2 ^ 104 + fc * 2 ^ 88 + hchk * 2 ^ 80 + m.toNat * 2 ^ 16 + sccrc)

/-- The position of lane n's codewords r with r mod 2 = b (R182), and whether fill takes its place (R185, R231). -/
def lanePos (s : State) (n : Fin 8) (b : Nat) : Nat := (n.val % max (modeLineCnt (modeOf s)) 1) + modeLineCnt (modeOf s) * b

def laneFill (s : State) (n : Fin 8) (b : Nat) : Bool :=
  match portOfLine (modeOf s) n with
  | none => false
  | some p =>
    let h := mapPos s.ports[p].act (lanePos s n b)
    decide (lanePos s n b < hostCnt s.ports[p].act) && 
      (s.ports[p].inTest || (s.hosts[h].st != .up && !bit s.hosts[h].act.test 9))

/-- ID word of a lane (Table 6.3). -/
def frameId (s : State) (n : Fin 8) (mark : Bool) : Nat :=
  let cidx := if s.straps.eff.cadRole = 0 then 0 else s.cad.idx % 4096
  n.val * 2 ^ 29 + modeOf s * 2 ^ 26 + lineCode s n * 2 ^ 24 + lanePos s n 0 * 2 ^ 21 + b2n (fixedLat s) * 2 ^ 20 +
  b2n mark * 2 ^ 19 + b2n (s.lines[n].rx.st != .up) * 2 ^ 18 + b2n (laneFill s n 1) * 2 ^ 17 + b2n (laneFill s n 0) * 2 ^ 16 +
  cidx

/-- Bits of a vector in order, bit 0 first; the header in line order. -/
def vecBits {w : Nat} (v : BitVec w) : List Bool := (List.range w).map fun i => v.getLsbD i
def hdrBits (h : BitVec 200) (n : Nat) : List Bool := (List.range n).map fun i => if i < 200 then h.getLsbD (199 - i) else false

/-- The symbols that a host lane holds for the line: what it has decided, or with LB_FAR what the line has delivered (R51, R231). -/
def lineData (x : HostLane) : List (Fin 4) := if x.act.lbFar then x.path.far else x.path.toLine

def setLineData (h : Fin 16) (l : List (Fin 4)) (s : State) : State :=
  modHost h (fun x => { x with path := if x.act.lbFar then { x.path with far := l } else { x.path with toLine := l } }) s

/-- Blocks of 64 symbols, 128 bits with b1 of each symbol first (R182). Where fewer have come the block is free (log entry 71). -/
def takeBlocks : Nat → List (Fin 4) → State → List (List Bool) × List (Fin 4) × State
  | 0, l, s => ([], l, s)
  | k + 1, l, s =>
    let b := l.take 64
    if b.length = 64 then
      let r := takeBlocks k (l.drop 64) s
      (b.flatMap symBits :: r.1, r.2)
    else
      let d := draw s
      let r := takeBlocks k [] d.2
      (vecBits (BitVec.ofNat 128 d.1) :: r.1, r.2)

/-- 128 bits of a PRBS31 x³¹ + x²⁸ + 1 whose last 31 bits are given as a number, the newest lowest. -/
def fillBlock (r : Nat) : List Bool × Nat :=
  let p := (List.range 128).foldl (fun (a : List Bool × Nat) _ =>
    let b := decide (a.2 / 2 ^ 30 % 2 ≠ a.2 / 2 ^ 27 % 2)
    (b :: a.1, (2 * a.2 + b2n b) % 2 ^ 31)) ([], r)
  (p.1.reverse, p.2)

def fillBlocks : Nat → Nat → List (List Bool) × Nat
  | 0, r => ([], r)
  | k + 1, r => let b := fillBlock r; let t := fillBlocks k b.2; (b.1 :: t.1, t.2)

/-- Blocks of the free-running fill of one of a lane's two positions, whose phase the spec leaves open when it begins (R185). -/
def fillPos (n : Fin 8) (b count : Nat) (s : State) : List (List Bool) × State :=
  let d := match s.lines[n].tx.fill.getD b none with
    | some r => (r, s)
    | none => let d := draw s; (d.1 % (2 ^ 31 - 1) + 1, d.2)
  let r := fillBlocks count d.1
  (r.1, modTx n (fun x => { x with fill := x.fill.set b (some r.2) }) d.2)

/-- A frame takes so many symbols from the far-end loopback's elastic buffer of ±64 symbols about its centre at 64: with fewer there it
runs empty, with more than 128 left over it overflows, and slips (R231); before the line has delivered anything it is not in use. -/
def farJudge (h : Fin 16) (need : Nat) (s : State) : State :=
  let k := s.hosts[h].path.far.length
  if k ≠ 0 ∧ (k < need ∨ need + 128 < k) then loopSlip h need s else s

/-- The blocks of one of a lane's two positions in a frame: its host's, or its fill (R185). -/
def posBlocks (n p : Fin 8) (b count : Nat) (s : State) : List (List Bool) × State :=
  let h := mapPos s.ports[p].act (lanePos s n b)
  if hostCnt s.ports[p].act ≤ lanePos s n b ∨ laneFill s n b then
    let r := fillPos n b count s
    (r.1, if lanePos s n b < hostCnt s.ports[p].act then setLineData h [] r.2 else r.2)
  else
    let s := if s.hosts[h].act.lbFar then farJudge h (64 * count) s else s
    let r := takeBlocks count (lineData s.hosts[h]) s
    (r.1, setLineData h r.2.1 (modTx n (fun x => { x with fill := x.fill.set b none }) r.2.2))

/-- Blocks of two positions in turn (R182). -/
def inTurn : List (List Bool) → List (List Bool) → List (List Bool)
  | a :: l, b :: m => a :: b :: inTurn l m
  | _, _ => []

/-- Data blocks of a frame in the order of its codewords. -/
def frameBlocks (n p : Fin 8) (count : Nat) (s : State) : List (List Bool) × State :=
  let a := posBlocks n p 0 (count / 2) s
  let b := posBlocks n p 1 (count / 2) a.2
  (inTurn a.1 b.1, b.2)

/-- Codewords to symbols, interleaved in blocks of four; the last block holds the rest (R183). -/
def interleave (cws : List (List (Fin 4))) : Nat → List (Fin 4)
  | 0 => []
  | k + 1 =>
    let b := cws.take 4
    let len := (b.headD []).length
    ((List.range len).flatMap fun m => b.map fun w => w.getD m 0) ++ interleave (cws.drop 4) k

/-- The set that shapes the symbols: the live set, or in the last frames after its registers were cleared the set kept for them. -/
def LineTx.shape (x : LineTx) : TxSet := x.drain.getD x.live

/-- The DAC code of the middle of a window of 29 symbols (R146), and whether it was clipped; none where the window reaches
before the first symbol. -/
def dacCode (l : Line) (w : List (Option (Fin 4))) : Option (Int × Bool) :=
  if w.all (·.isSome) ∧ w.length = 29 then
    let x (i : Nat) : Fin 4 := (w.getD i none).getD 0
    let u := (List.range 15).foldl (fun (a : Int) i => a + l.tx.shape.fir.getD i 0 * levelVal (x (14 + l.act.firMain - i))) 0
    let c := 16 * (x 13).val + 4 * (x 14).val + (x 15).val
    let v := roundDiv (l.act.amp * u) 1536 + (if l.act.nlpdEn then l.tx.shape.nl.getD c 0 else 0)
    some (max (-128) (min 127 v), decide (v < -128 ∨ 127 < v))
  else none

/-- The codes of the windows that begin at each place of the list, so many of them. A window that reaches before the first
symbol sent has neighbours that the spec does not give: its code is free. -/
def dacCodes (l : Line) : Nat → List (Option (Fin 4)) → State → List Int × Nat × State
  | 0, _, s => ([], 0, s)
  | k + 1, w, s =>
    match dacCode l (w.take 29) with
    | some (v, clip) =>
      let r := dacCodes l k (w.drop 1) s
      (v :: r.1, r.2.1 + b2n clip, r.2.2)
    | none =>
      let d := draw s
      let r := dacCodes l k (w.drop 1) d.2
      ((((d.1 % 256 : Nat) : Int) - 128) :: r.1, r.2.1, r.2.2)

/-- Symbols of a whole frame (R177, R178, R183). -/
def frameSymbols (reach : Bool) (hdr : BitVec 200) (blocks : List (List Bool)) : List (Fin 4) :=
  let enc (d : List Bool) : List (Fin 4) := symbolsOf (if reach then bchEncode d else hamEncode d)
  symbolsOf (hdrBits hdr (if reach then 288 else 272)) ++ interleave (blocks.map enc) (blocks.length / 4 + 1)

/-- Fill codewords sent are counted at their host lanes (selector 0x0D). -/
def countFill (n : Fin 8) (count : Nat) (s : State) : State :=
  if s.lines[n].tx.st ≠ .run then s
  else match portOfLine (modeOf s) n with
    | none => s
    | some p => [0, 1].foldl (fun s b =>
        if laneFill s n b then countHost (mapPos s.ports[p].act (lanePos s n b)) 0x0D (count / 2) s else s) s

/-- Differential output of a DAC code in mV: a swing of 300 + 25 · DAC_FS over 255 codes (R151). -/
def dacMv (b : LineBank) (code : Int) : Rat := ((300 + 25 * bits b.txCfg 19 5 : Nat) : Rat) * (code : Rat) / 255

/-- Symbols go to the DAC (R146); those clipped count (R148). -/
def dacSend (n : Fin 8) (syms : List (Fin 4)) (s : State) : State :=
  let all := s.lines[n].tx.tail ++ syms.map some
  let k := all.length - 28
  let d := dacCodes s.lines[n] k all s
  let s := modTx n (fun x => { x with tail := all.drop k, clips := x.clips + d.2.1 }) d.2.2
  emit (.dac n d.1 (d.1.map (dacMv s.lines[n].act))) (countLine n 0x2D d.2.1 s)

/-- The DAC sends no symbol: the next one is its first. -/
def dacSilent (n : Fin 8) (s : State) : State := modTx n (fun x => { x with tail := List.replicate 28 none }) s

/-- The frame of lane n with count fc goes out. -/
def frameSend (n p : Fin 8) (fc : BitVec 16) (s : State) : State :=
  let mark := s.ports[p].meas.isSome && decide (fc.toNat % 64 = 0)
  let id := frameId s n mark
  let s := if mark then modFr n (fun f => { f with departs := ((fc, now s) :: f.departs).take 512 }) s else s
  let r := scNext n (sendNext n s)
  let m := r.1
  let s := countLine n 0x26 1 r.2
  let s := if bits m 60 4 = 0 then s else countLine n 0x27 1 s
  let reach := decide (lineCode s n = 1)
  let count := if reach then 3060 else 2890
  let s := countFill n count s
  let hdr := frameHdr id fc.toNat m
  let bl := frameBlocks n p count s
  dacSend n (frameSymbols reach hdr bl.1) (emit (.frame n hdr) bl.2)

/-- The frame of a lane that no port uses, sent while its DAC drains (R158). DESIGN CHOICE (log entry 76): IDLE status, and fill in both
positions. -/
def frameLoose (n : Fin 8) (fc : BitVec 16) (s : State) : State :=
  let hdr := frameHdr (frameId s n false ||| 0x30000) fc.toNat (idleMsg s n)
  let a := fillPos n 0 1445 (emit (.frame n hdr) s)
  let b := fillPos n 1 1445 a.2
  dacSend n (frameSymbols false hdr (inTurn a.1 b.1)) b.2

/-- A frame interval in mode 4 (R60, R200): the host lane's 92,480 symbols, with CODE 0b11 encoded, precoded where the PMD says so;
electrical idle while the host lane is not up. -/
def plainSend (n p : Fin 8) (s : State) : State :=
  let h := mapPos s.ports[p].act 0
  if s.hosts[h].st ≠ .up ∧ !s.hosts[h].act.lbFar then setLineData h [] (dacSilent n s)
  else
    let code := lineCode s n
    let r := takeBlocks 1445 (lineData s.hosts[h]) s
    let data := r.1.flatten
    let syms := symbolsOf (if code = 3 then Config.ieeeEncode data else data)
    let pr := if Config.pmdPrecoding code then precode s.lines[n].tx.pre syms else (syms, s.lines[n].tx.pre)
    dacSend n pr.1 (modTx n (fun x => { x with pre := pr.2 }) (setLineData h r.2.1 r.2.2))

/-- Ticks of a frame, or of the frame interval of mode 4 (R177, R60). -/
def framePeriod (s : State) (n : Fin 8) : Nat := if modeOf s ≠ 4 ∧ lineCode s n = 1 then 144 else 136

/-- A frame starts on this tick (R179): the reference-tick count, 0 at the lock of the line PLL, is a multiple of the period, and the
lane's frame of this tick has not begun. -/
def frameDue (s : State) (n : Fin 8) : Bool :=
  s.sub == 0 && (s.clk - s.pllAt) % framePeriod s n == 0 && s.lines[n].tx.sentAt != some s.clk

/-- The frame count of the frames that start on this tick (R179). DESIGN CHOICE (log entry 71): the frame at the lock has count 0. -/
def frameCount (s : State) (n : Fin 8) : BitVec 16 := BitVec.ofNat 16 ((s.clk - s.pllAt) / framePeriod s n)

/-- One frame more without an IDLE from the far end. -/
def farOlder (n : Fin 8) (s : State) : State :=
  modFr n (fun f =>
    let wrap := f.farFrames + 1 == 1024
    { f with farFrames := if wrap then 0 else f.farFrames + 1, farAge := if wrap then satU 8 (f.farAge + 1) else f.farAge }) s

/-- What goes out in the frame, or the frame interval, that begins: while the DAC runs and the framer has power. -/
def frameOut (n p : Fin 8) (fc : BitVec 16) (s : State) : State :=
  if !s.lines[n].tx.dacOn || !domOn s (framerDomain n) then dacSilent n s
  else if modeOf s = 4 then plainSend n p s
  else frameSend n p fc s

/-- A frame begins on lane n (R179, R68): the frame count advances, the age of the far end's status runs, a frame goes out while the
DAC runs, also on a lane that a mode change has just left unused (R158, R186), and the port's latency figures are refreshed, also
while REFCLK is absent. -/
def frameStart (n : Fin 8) (s : State) : State :=
  match portOfLine (modeOf s) n with
  | none =>
    if s.refOk && frameDue s n && s.lines[n].tx.dacOn && domOn s (framerDomain n) then
      let fc := frameCount s n
      frameLoose n fc (modTx n (fun x => { x with sentAt := some s.clk }) (modFr n (fun f => { f with txFc := fc + 1 }) s))
    else s
  | some p =>
    if !s.refOk then latRefresh p s
    else if !frameDue s n then s
    else
      let fc := frameCount s n
      let s := frameOut n p fc (modTx n (fun x => { x with sentAt := some s.clk }) (modFr n (fun f => { f with txFc := fc + 1 }) s))
      latRefresh p (if modeOf s = 4 then s else farOlder n s)

/-! ### The received header -/

/-- Lanes on which the receive framer works on frames. -/
def rxFraming (s : State) (n : Fin 8) : Bool :=
  let st := s.lines[n].rx.st
  modeOf s != 4 && (st == .frame || st == .up || st == .relock)

/-- Bits in which a received SYNC differs. -/
def syncErrors (hdr : BitVec 200) : Nat := popcount 64 (bits hdr 136 64 ^^^ 0xE4B27C1D8A56F390)

/-- The frame synchroniser of R98. -/
def syncStep (n : Fin 8) (hdr : BitVec 200) (s : State) : State :=
  let ok := decide (syncErrors hdr ≤ 8)
  let s := modRx n (fun r =>
    let good := if ok then min (r.goodHdr + 1) 3 else 0
    let bad := if ok then 0 else min (r.badHdr + 1) 8
    { r with goodHdr := good, badHdr := bad }) s
  let r := s.lines[n].rx
  if !r.inFrame && r.goodHdr == 3 then frameCheck n (modRx n (fun r => { r with inFrame := true }) s)
  else if r.inFrame && r.badHdr == 8 then loseLock n 0 (modRx n (fun r => { r with inFrame := false }) s)
  else s

/-- A lane of a port whose last ID takes part in a mismatch (R184). -/
def idBad (s : State) (p n : Fin 8) : Bool :=
  let stripe (k : Fin 8) : Nat := bits s.lines[k].fr.rxId 21 3
  let f := s.lines[n].fr
  f.idValid &&
  (modeLineCnt (bits f.rxId 26 3) != modeLineCnt (modeOf s) || decide (bits s.ports[p].act.cfg 16 4 ≤ stripe n) ||
   (linesOfPort (modeOf s) p).any fun k => k != n && s.lines[k].fr.idValid && stripe k == stripe n)

/-- Judges the identities of a port's lanes after lane n's: a mismatch that begins squelches the port. -/
def idJudge (p n : Fin 8) (s : State) : State :=
  let was := s.ports[p].sqIdentity
  let s := (linesOfPort (modeOf s) p).foldl (fun t k => modFr k (fun f => { f with idMismatch := idBad s p k }) t) s
  let isBad := (linesOfPort (modeOf s) p).any fun k => s.lines[k].fr.idMismatch
  let s := modPort p (fun x => { x with sqIdentity := isBad }) s
  if isBad && !was then raise (lineSrc n 0x19) (pay1 s.lines[n].fr.rxId.toNat) (countPort p 0x46 1 s) else s

/-- Judges the deskew range of a port (R53): 64 ns is 128 units of 0.5 ns. -/
def deskewJudge (p : Fin 8) (s : State) : State :=
  let was := s.ports[p].sqDeskew
  let worst : Nat := (linesOfPort (modeOf s) p).foldl (fun (m : Nat) (k : Fin 8) => if s.lines[k].rx.inFrame then max m s.lines[k].fr.skew else m) 0
  let isBad := decide (128 < worst)
  let s := modPort p (fun x => { x with sqDeskew := isBad }) s
  if isBad && !was then raise 0x004 (pay2 p.val worst) (countPort p 0x45 1 s) else s

/-- ECHO of a marked frame (R195). -/
def echoMsg (s : State) (fc : BitVec 16) : BitVec 64 :=
  let t := now s
  msg64 [(4, 60, 4), (fc.toNat, 44, 16), (bits t 24 8, 36, 8), (bits t 0 24, 12, 24), (b2n (onFreeBeat s), 11, 1),
         (bits s.cad.domain 0 10, 0, 10)]

/-- The ID and FC of a header that passes HCHK are taken (R181, R184, R194). -/
def hdrTake (n p : Fin 8) (hdr : BitVec 200) (s : State) : State :=
  let id := BitVec.ofNat 32 (bits hdr 104 32)
  let fc := BitVec.ofNat 16 (bits hdr 88 16)
  let s := modFr n (fun f => { f with rxId := id, rxFc := fc, idValid := true }) s
  let s := if bit id 19 then scQueue n (echoMsg s fc) s else s
  idJudge p n (trnFrameSeen n fc s)

/-- A frame header arrives on lane n (R98, R181, R184, R191, R194): its first 200 bits, header bit i at bit 199 − i, and its
arrival after the earliest lane of the port in units of 0.5 ns. -/
def frameHeader (n : Fin 8) (hdr : BitVec 200) (skew : Nat) (s : State) : State :=
  match portOfLine (modeOf s) n with
  | none => s
  | some p =>
    if !rxFraming s n then s
    else
      let s := syncStep n hdr s
      -- in frame the header's symbols pass the inner decoder by; else the payload begins with what comes next
      let soft := if s.lines[n].rx.inFrame then s.lines[n].fr.soft.drop (if lineCode s n = 1 then 144 else 136) else []
      let s := modFr n (fun f => { f with skew := satU 8 skew, rxCw := 0, soft := soft }) s
      let s := if s.lines[n].rx.inFrame && lineDecodes s n then countLine n 0x25 1 s else s
      let id := bits hdr 104 32
      let fc := bits hdr 88 16
      let s := if crc8 (beBytes 4 id ++ beBytes 2 fc) = bits hdr 80 8 then hdrTake n p hdr s
        else countLine n 0x23 1 (modFr n (fun f => { f with hchkErr := satU 16 (f.hchkErr + 1), hchkInt := f.hchkInt + 1 }) s)
      let s := if crc16 (beBytes 2 fc ++ beBytes 8 (bits hdr 16 64)) = bits hdr 0 16 then s
        else countLine n 0x24 1 (modFr n (fun f => { f with scErr := satU 16 (f.scErr + 1), scInt := f.scInt + 1 }) s)
      deskewJudge p s

/-- A 1 ms interval with header check failures ends (R205). -/
def headerErrors (n : Fin 8) (s : State) : State :=
  let f := s.lines[n].fr
  if f.hchkInt = 0 ∧ f.scInt = 0 then s
  else raiseLimited (lineSrc n 0x1A) 0 (pay2 (satU 16 f.hchkInt) (satU 16 f.scInt))
    (modFr n (fun f => { f with hchkInt := 0, scInt := 0 }) s)

/-- IDLE status of the far end (R193). -/
def idleStatus (n : Fin 8) (m : BitVec 64) (s : State) : State :=
  if !rxFraming s n || bits m 60 4 != 0 then s
  else modFr n (fun f => { f with farState := bits m 56 4, farMargin := BitVec.ofNat 16 (bits m 40 16), farMuted := bit m 39
                                  farSquelch := bit m 38, farAge := 0, farFrames := 0 }) s

/-! ### Latency echoes -/

/-- Beats from the departure to the rebuilt arrival (R196): the difference modulo 256 nearest to 0; at 128 both are as near,
and the spec does not choose. -/
def echoBeats (dep arr : Nat) (s : State) : Int × State :=
  let d := (arr + 256 - dep % 256) % 256
  if d < 128 then ((d : Int), s)
  else if d = 128 then let r := draw s; (if r.1 % 2 = 0 then 128 else -128, r.2)
  else ((d : Int) - 256, s)

/-- An ECHO arrives (R69, R71, R196): paired by frame count with a departure among the last 512 marked frames. DESIGN CHOICE (log entry
75): in a port of several lanes each line lane counts its own N echoes, and those beyond N are dropped. -/
def echoTake (n : Fin 8) (m : BitVec 64) (s : State) : State :=
  if !rxFraming s n || bits m 60 4 != 4 then s
  else match portOfLine (modeOf s) n with
    | none => s
    | some p =>
      let s := countPort p 0x47 1 (countLine n 0x28 1 s)
      let f := s.lines[n].fr
      match s.ports[p].meas, f.departs.find? (fun e => e.1 == BitVec.ofNat 16 (bits m 44 16)) with
      | some run, some (_, dep) =>
        if run.n ≤ f.echoes.length then s
        else
          let r := echoBeats (bits dep 24 40) (bits m 36 8) s
          let units : Int := r.1 * (2 ^ 24 : Nat) + ((bits m 12 24 : Nat) : Int) - ((bits dep 0 24 : Nat) : Int)
          let ps := roundDiv (units * (s.cad.period * 800 : Nat)) (2 ^ 24)
          let s := r.2
          modFr n (fun f => { f with echoes := f.echoes ++ [ps], echoHold := f.echoHold || bit m 11 || onFreeBeat s
                                     echoForeign := f.echoForeign || bits m 0 10 != bits s.cad.domain 0 10 }) s
      | _, _ => s

/-- An ECHO not sent within 32 frames is dropped: the oldest that waits (R194). -/
def echoDrop (n : Fin 8) (s : State) : State :=
  modFr n (fun f => match f.out.find? (fun m => bits m 60 4 == 4) with
    | some m => { f with out := f.out.erase m }
    | none => f) s

def intSum (l : List Int) : Int := l.foldl (· + ·) 0

/-- The measurement ends (R70): the figures of the line lane with the largest mean. DESIGN CHOICE (log entry 16): the mean is rounded to
nearest, SPREAD in units of 10 ps is cut; with no echo at all SPREAD is 0 and the mean, which has no value, is free. -/
def latDone (p : Fin 8) (s : State) : State :=
  match s.ports[p].meas with
  | none => s
  | some run =>
    let l := linesOfPort (modeOf s) p
    let best := l.foldl (fun (b : Option (Fin 8)) n =>
      let e := s.lines[n].fr.echoes
      match b with
      | none => if e.isEmpty then none else some n
      | some m =>
        let e' := s.lines[m].fr.echoes
        if !e.isEmpty && decide (intSum e' * e.length < intSum e * e'.length) then some n else some m) none
    let hold := onFreeBeat s || run.hold || l.any fun n => s.lines[n].fr.echoHold
    let foreign := l.any fun n => s.lines[n].fr.echoForeign
    let (mean, spread, cnt, s) := match best with
      | none => let r := draw s; (((r.1 % 2 ^ 32 : Nat) : Int), 0, 0, r.2)
      | some n =>
        let e := s.lines[n].fr.echoes
        let hi := e.foldl max (e.headD 0)
        let lo := e.foldl min (e.headD 0)
        (roundDiv (intSum e) e.length, satU 16 ((hi - lo).toNat / 10), e.length, s)
    let s := modPort p (fun x => { x with meas := none, owlMean := mean, owlCount := cnt, owlForeign := foreign, owlHold := hold
                                          owlSpread := spread }) s
    done run.cmd cnt s

/-! ### Host-to-host messages (R198, R199) -/

def ackMsg (msg : Nat) (full : Bool) : BitVec 64 := msg64 [(9, 60, 4), (msg, 51, 5), (b2n full, 48, 1)]

/-- Messages that take a place of the lane's receive buffer: not yet written as records. -/
def msgHeld (s : State) (n : Fin 8) : Nat :=
  s.lines[n].fr.recv.length +
  (s.tlm.recs.filter fun x => x.typ == 6 && !x.wrote && x.origin == Tgt.code (.line (some n))).length

/-- A complete message: accepted, acknowledged again, or refused as full. -/
def msgComplete (n : Fin 8) (msg : Nat) (data : List Byte) (s : State) : State :=
  if s.lines[n].fr.lastMsg = some msg then scQueue n (ackMsg msg false) s
  else if 4 ≤ msgHeld s n then scQueue n (ackMsg msg true) s
  else
    let m : HmRecv := { msg := msg, data := data, time := now s }
    let s := scQueue n (ackMsg msg false) (modFr n (fun f => { f with lastMsg := some msg }) s)
    let s := if domOn s 10 && ringEn s (.tlm (routeOfType s 6)) && !s.rst.ctrlReset then msgForm n m s
      else modFr n (fun f => { f with recv := f.recv ++ [m] }) s
    let s := match portOfLine (modeOf s) n with | some p => countPort p 0x49 1 s | none => s
    raise (lineSrc n 0x1B) (pay2 msg data.length) s

/-- A HOST fragment arrives (R198). -/
def hostFrag (n : Fin 8) (m : BitVec 64) (s : State) : State :=
  if !rxFraming s n || bits m 60 4 != 8 then s
  else
    let s := countLine n 0x28 1 s
    let msg := bits m 51 5
    let idx := bits m 48 3
    let d := (beBytes 6 (bits m 0 48)).take (bits m 56 3 + 1)
    let data := match s.lines[n].fr.part with
      | some x => if idx = 0 then some d else if x.msg = msg ∧ x.next = idx then some (x.data ++ d) else none
      | none => if idx = 0 then some d else none
    match data with
    | none => modFr n (fun f => { f with part := none }) s
    | some l =>
      if bit m 59 then msgComplete n msg l (modFr n (fun f => { f with part := none }) s)
      else modFr n (fun f => { f with part := some { msg := msg, next := idx + 1, data := l } }) s

/-- The message in flight is settled with a result. -/
def msgSettle (n : Fin 8) (res : Nat) (s : State) : State :=
  match s.lines[n].fr.send with
  | none => s
  | some x => done x.cmd res (modFr n (fun f => { f with send := none }) s)

/-- The whole message again, unless five transmissions have been made: then the result given. -/
def msgAgain (n : Fin 8) (res : Nat) (s : State) : State :=
  match s.lines[n].fr.send with
  | none => s
  | some x =>
    if 5 ≤ x.tries then msgSettle n res s
    else modFr n (fun f => { f with send := some { x with next := 0, tries := x.tries + 1 } }) s

/-- A HOST acknowledgement arrives. -/
def hostAck (n : Fin 8) (m : BitVec 64) (s : State) : State :=
  if !rxFraming s n || bits m 60 4 != 9 then s
  else
    let s := countLine n 0x28 1 s
    match s.lines[n].fr.send with
    | none => s
    | some x =>
      if x.msg ≠ bits m 51 5 then s
      else if bit m 48 then msgAgain n 1 s
      else
        let s := match portOfLine (modeOf s) n with | some p => countPort p 0x48 1 s | none => s
        msgSettle n 0 s

/-- 128 frames after the last fragment without an acknowledgement; the timer is paused outside UP. -/
def msgTimeout (n : Fin 8) (s : State) : State :=
  match s.lines[n].fr.send with
  | none => s
  | some x => if s.lines[n].rx.st = .up ∧ fragCount x ≤ x.next then msgAgain n 2 s else s

/-- The lane has spent 1 s outside UP without interruption (R199). -/
def msgGiveUp (n : Fin 8) (s : State) : State := if s.lines[n].rx.st = .up then s else msgAbandon n s

def execFrameStart (n : Fin 8) (s : State) : Host.Outcome State Fault Refusal := .next (frameStart n s)
def execFrameHeaderReceived (n : Fin 8) (hdr : BitVec 200) (skew : Nat) (s : State) : Host.Outcome State Fault Refusal :=
  .next (frameHeader n hdr skew s)
def execHeaderCheckErrors (n : Fin 8) (s : State) : Host.Outcome State Fault Refusal := .next (headerErrors n s)
def execIdleStatus (n : Fin 8) (m : BitVec 64) (s : State) : Host.Outcome State Fault Refusal := .next (idleStatus n m s)
def execEcho (n : Fin 8) (m : BitVec 64) (s : State) : Host.Outcome State Fault Refusal := .next (echoTake n m s)
def execEchoDrop (n : Fin 8) (s : State) : Host.Outcome State Fault Refusal := .next (echoDrop n s)
def execLatMeasureDone (p : Fin 8) (s : State) : Host.Outcome State Fault Refusal := .next (latDone p s)
def execHostFragment (n : Fin 8) (m : BitVec 64) (s : State) : Host.Outcome State Fault Refusal := .next (hostFrag n m s)
def execHostAcknowledgement (n : Fin 8) (m : BitVec 64) (s : State) : Host.Outcome State Fault Refusal := .next (hostAck n m s)
def execHostMsgRetransmit (n : Fin 8) (s : State) : Host.Outcome State Fault Refusal := .next (msgTimeout n s)
def execHostMsgAbandon (n : Fin 8) (s : State) : Host.Outcome State Fault Refusal := .next (msgGiveUp n s)

end Sys2Proof.Machine
end

