-- ==== Sys2Proof/Machine/HostLanes.lean ====
section
/-! DEFINITION. Host lanes (chapter 7): acquisition, peaking search, DC gain, adaptation, quality, PRBS checker, loopback slips. -/

namespace Sys2Proof.Machine

/-- States in which a host lane decides symbols (Table 13.1). -/
def hostDecides (s : State) (n : Fin 16) : Bool :=
  s.hosts[n].st == .adapt || s.hosts[n].st == .up || s.hosts[n].st == .resume

/-- Signal loss (R219, R233): to IDLE, with the event where a state was lost. -/
def hostDrop (n : Fin 16) (s : State) : State :=
  let st := s.hosts[n].st
  if st = .off then s
  else
    let s := modHost n (fun h => { h with sigDet := false }) s
    if st = .idle then s else hostIdle n (raise (hostSrc n 0) (pay1 1) s)

/-- Leaving IDLE on signal: RESUME with held coefficients and at most 100 ms of idle, else TIMING (R221). -/
def hostLeaveIdle (n : Fin 16) (s : State) : State :=
  let h := s.hosts[n]
  if h.heldCoefs.isSome && decide (s.clk - h.idleSince ≤ usTicks 100000) then hostResume n s else hostTiming n false s

/-- Signal (R219): while REFCLK is absent the lane stays in IDLE. -/
def hostSignalOn (n : Fin 16) (s : State) : State :=
  if s.hosts[n].st = .off then s
  else
    let s := modHost n (fun h => { h with sigDet := true }) s
    if s.hosts[n].st = .idle ∧ s.refOk then hostLeaveIdle n s else s

/-- The coarse codes of R209, and the fine ones around the best coarse code. -/
def ctleCoarse : List Nat := (List.range 11).map (4 * ·)

def ctleFine (best : Nat) (tried : List (Nat × Rat)) : List Nat :=
  (List.range 41).filter fun c => decide (c ≤ best + 3) && decide (best ≤ c + 3) && !(tried.any fun e => e.1 == c)

/-- Code with the least MSE, the lower of equals. -/
def ctleBest (tried : List (Nat × Rat)) : Nat :=
  ((tried.foldl (fun (b : Option (Nat × Rat)) e => match b with
    | none => some e
    | some x => if e.2 < x.2 ∨ (e.2 = x.2 ∧ e.1 < x.1) then some e else some x) none).map (·.1)).getD 0

/-- The CTLE state begins (R209): the search from its coarse grid, or one trial of the bank's code, as PEAK_AUTO stood at the cold start
(R223). -/
def ctleStart (h : HostLane) : HostLane :=
  let todo := if h.auto then ctleCoarse else [bits h.act.rxCfg 0 6]
  { h with st := .ctle, lock := true, peak := todo.headD 0, acc := HostAcc.reset
           search := { todo := todo, fine := !h.auto, tried := [], syms := 0 } }

def hostTimed (n : Fin 16) (s : State) : State :=
  modHost n (fun h => if h.st = .timing then ctleStart h else h) s

/-- The mean squared error of a window or a trial; free where no symbol was decided. -/
def HostAcc.mse (q : HostAcc) (s : State) : Rat × State :=
  if q.n = 0 then let d := draw s; ((d.1 : Rat) / 1000, d.2) else (q.sse / (q.n : Rat), s)

/-- The search after a trial of the present code with its MSE: the next code, the fine stage, or the best code (R209). -/
def ctleNext (mse : Rat) (h : HostLane) : HostLane :=
  let tried := h.search.tried ++ [(h.peak, mse)]
  let rest := h.search.todo.drop 1
  let fine := h.search.fine || rest.isEmpty
  let todo := if rest.isEmpty && !h.search.fine then ctleFine (ctleBest tried) tried else rest
  match todo with
  | c :: _ => { h with peak := c, acc := HostAcc.reset, search := { todo := todo, fine := fine, tried := tried, syms := 0 } }
  | [] => { h with st := .adapt, peak := ctleBest tried, snrHist := [], acc := HostAcc.reset
                   search := { todo := [], fine := false, tried := [], syms := 0 } }

/-- A trial ends (R209). -/
def ctleTrial (n : Fin 16) (s : State) : State :=
  if s.hosts[n].st ≠ .ctle then s
  else
    let r := s.hosts[n].acc.mse s
    modHost n (ctleNext r.1) r.2

/-- A host lane enters UP (Table 7.1, R66, R233). -/
def hostEnterUp (n : Fin 16) (s : State) : State :=
  let h := s.hosts[n]
  let s := modHost n (fun h => { h with st := .up, lock := true }) (setTxBuffers n s)
  raise (hostSrc n 1) (pay2 (b2n h.acqResume) (satU 16 (ticksUs (s.clk - h.acqStart)))) s

/-- A quality window ends (R215): the figures, and UP after four settled windows of at least 14 dB, a ratio of 10^1.4 (Table 7.1). -/
def hostWindow (n : Fin 16) (s : State) : State :=
  if !hostDecides s n then s
  else
    let h := s.hosts[n]
    let (mse, s) := h.acc.mse s
    let (ratio, s) := ratioOr (quot 5120 (some mse)) s
    let (snr, s) := dbField ratio s
    let (eye, s) := match eyeOf h.acc.hist with
      | some v => (satS 16 v, s)
      | none => let d := draw s; (ofField 16 (d.1 % 65536), d.2)
    let hist := (ratio :: h.snrHist).take 4
    let s := modHost n (fun h => { h with snr := snr, eye := eye, snrHist := hist, acc := HostAcc.reset }) s
    if h.st ≠ .up ∧ settled hist ∧ hist.all (fun v => decide (10 ^ 7 ≤ v ^ 5)) then hostEnterUp n s else s

/-- The lock detector reports unlock (R220): a lane in UP enters RESUME. -/
def hostUnlock (n : Fin 16) (s : State) : State :=
  let s := modHost n (fun h => { h with lock := false }) s
  if s.hosts[n].st = .up then hostResume n (hostHold n (raise (hostSrc n 0) 0 s)) else s

/-- A state exceeds its bound (R220). The cold start that a RESUME leads to begins with this entry into TIMING; the others go on (R233). -/
def hostRetry (n : Fin 16) (s : State) : State :=
  let st := s.hosts[n].st
  if st = .timing ∨ st = .ctle ∨ st = .adapt ∨ st = .resume then
    hostTiming n (decide (st ≠ .resume)) (raise (hostSrc n 2) (pay1 (hostCode st)) s)
  else s

/-- One step of the DC gain loop (R210). -/
def dcgStep (n : Fin 16) (rms : Nat) (s : State) : State :=
  modHost n (fun h =>
    let far := decide (10 * 80 ^ 20 < rms ^ 20) || decide (10 * rms ^ 20 < 80 ^ 20)
    if h.st = .off ∨ h.st = .idle ∨ !bit h.act.rxCfg 14 ∨ (h.st = .up ∧ !far) then h
    else { h with dcg := if rms < 80 then min 24 (h.dcg + 1) else if 80 < rms then h.dcg - 1 else h.dcg }) s

/-- The fixed levels of R213. -/
def hostLevel (a : Fin 4) : Rat := 32 * (levelVal a : Rat)

/-- The slicer with its thresholds −64, 0 and +64 (R213); DESIGN CHOICE (log entry 71): a value on a threshold takes the upper level. -/
def slice (y : Rat) : Fin 4 := if y < -64 then 0 else if y < 0 then 1 else if y < 64 then 2 else 3

/-- The coefficients that act on the samples: 2⁻⁶ for the FFE, 2⁻⁸ for the DFE, 0 with DFE_EN = 0 or while it is held (R213, R214). -/
def hostApplied (b : HostBank) (blind : Bool) (c : HostCoefs) : HostCoefs :=
  { ffe := c.ffe.map (unitsOf 64), d1 := if blind || !bit b.eqCfg 7 then 0 else unitsOf 256 c.d1 }

/-- One decided symbol: how many symbols of the block follow it, its slicer input, its decision and the one before. -/
structure HostDec where
  age : Nat
  y : Rat
  cur : Fin 4
  prev : Fin 4
  deriving DecidableEq, Repr

/-- Sample of FFE tap i for the symbol that `age` symbols follow: x[k + MAIN − i], the newest having reached tap 0 of the last symbol. -/
def hostSample (xs : List Int) (age i : Nat) : Rat := (xs.getD (age + i) 0 : Rat)

/-- The symbols of the last 32 samples, oldest first (R208, R213). -/
def hostDecide (c : HostCoefs) (xs : List Int) (prev : Fin 4) : List HostDec :=
  ((List.range 32).foldl (fun (a : List HostDec × Fin 4) k =>
    let age := 31 - k
    let y := dotRange 24 (fun i => c.ffe.getD i 0 * hostSample xs age i) - c.d1 * hostLevel a.2
    let cur := slice y
    (a.1 ++ [{ age := age, y := y, cur := cur, prev := a.2 }], cur)) ([], prev)).1

/-- One update of the FFE and the DFE over a block (R214). -/
def hostAdapt (b : HostBank) (track blind : Bool) (c : HostCoefs) (xs : List Int) (blk : List HostDec) : HostCoefs :=
  let es : List (HostDec × Rat) := blk.map fun x =>
    (x, if blind then x.y - 64 * (if x.y < 0 then -1 else if 0 < x.y then 1 else 0) else x.y - hostLevel x.cur)
  let grad (q : HostDec → Rat) : Rat := es.foldl (fun a e => a + e.2 * q e.1) 0
  let mf := stepSize (if track then bits b.eqCfg 16 4 else bits b.eqCfg 12 4)
  let ffe := if bit b.eqCfg 8 then c.ffe
    else (List.range 24).map fun i => clampQ (-8) (8 - 1 / 64) (c.ffe.getD i 0 - mf * grad fun x => hostSample xs x.age i)
  let d1 := if blind || !bit b.eqCfg 7 then 0
    else if bit b.eqCfg 9 then c.d1
    else clampQ (-1) (1 - 1 / 256) (c.d1 + stepSize (bits b.eqCfg 20 4) * grad fun x => hostLevel x.prev)
  { ffe := ffe, d1 := d1 }

/-- A decision joins the window (R215): MSE, and the eye from z[k] = y[k]. -/
def HostAcc.add (q : HostAcc) (x : HostDec) : HostAcc :=
  let e := x.y - hostLevel x.cur
  { n := q.n + 1, sse := q.sse + e * e, hist := histAdd q.hist x.cur x.y }

/-- Decided symbols toward the fixed counter and the level selectors (Tables 13.1, 13.2). -/
def hostCount (n : Fin 16) (blk : List HostDec) (s : State) : State :=
  if !hostDecides s n ∨ !hostCounts s n then s
  else
    let k := s.hostCtr[n].fixRem + blk.length
    let s := countHost n fixSel (k / 64) { s with hostCtr := upd s.hostCtr n fun c => { c with fixRem := k % 64 } }
    let s := (List.finRange 4).foldl (fun s (v : Fin 4) =>
      let k := s.hostCtr[n].lvlRem[v] + (blk.filter (fun x => x.cur == v)).length
      let s := { s with hostCtr := upd s.hostCtr n fun c => { c with lvlRem := c.lvlRem.set v (k % 64) } }
      countHost n (0x10 + v.val) (k / 64) s) s
    let big := blk.filter fun x => let d := x.y - hostLevel x.cur; decide (d < -24 ∨ 24 < d)
    countHost n 0x0B big.length s

/-- The trial of a CTLE state is in its first 20 µs; it has adapted for its 80 µs and measures (R209, R214): 2,125,000 and 8,500,000
symbols. -/
def trialBlind (h : HostLane) : Bool := h.st == .ctle && decide (h.search.syms < 2125000)
def trialMeasures (h : HostLane) : Bool := h.st != .ctle || decide (8500000 ≤ h.search.syms)

/-- The lane's samples pass the FFE, the DFE and the slicer, and the loops take their step; the decisions go on where the lane has
decided before (R208, R213, R214). -/
def hostSamples (n : Fin 16) (all : List Int) (s : State) : State :=
  let h := s.hosts[n]
  let blind := trialBlind h
  let blk := hostDecide (hostApplied h.act blind h.coefs) all h.path.prev
  let s := hostCount n blk s
  let s := modHost n (fun h => { h with
    path := { h.path with prev := (blk.getLast?.map (·.cur)).getD h.path.prev }
    acc := if trialMeasures h then blk.foldl HostAcc.add h.acc else h.acc
    search := { h.search with syms := if h.st = .ctle then h.search.syms + 32 else h.search.syms }
    coefs := hostAdapt h.act (h.st == .up && decide (h.acqUntil ≤ s.clk)) blind h.coefs all blk }) s
  if hostDecides s n then hostForward n (blk.map (·.cur)) s else s

/-- The loop bandwidth of a host lane: CDR_BW of RX_CFG (R216). -/
def HostBank.cdrBw (b : HostBank) : Nat := bits b.rxCfg 16 2

/-- Every 32 symbols (R208, R213 to R216): as the loop of the active bandwidth gives them, the rotator by up to 4 steps of 1/64 UI and the
frequency integrator of ±300 ppm in units of 0.5 ppm; and from CTLE on the samples. -/
def hostLoop (n : Fin 16) (xs : List Int) (cdr : List (Int × Int)) (s : State) : State :=
  let h := s.hosts[n]
  let r := cdr.getD h.act.cdrBw (0, 0)
  if h.st = .off ∨ h.st = .idle then s
  else
    let all := ((xs.map adcClip).reverse ++ h.path.xs).take 64
    let s := modHost n (fun h => { h with
      freq := max (-600) (min 600 r.2), rot := (((h.rot : Int) + max (-4) (min 4 r.1)) % 64).toNat
      path := { h.path with xs := all } }) s
    if h.st = .timing then s else hostSamples n all s

/-- Every coefficient in force is latched on one tick (R129, R234). With the domain off, or in a reset, the registers keep their reset
values. -/
def hostCapture (n : Fin 16) (s : State) : State :=
  if !domOn s (hostDomain n) || laneHeld s (.host n) then s
  else modHost n (fun h => { h with cap := hostApplied h.act false h.coefs, capValid := true }) s

/-- The checker locks once 1,024 symbols in a row have matched (R229). -/
def prbsLock (n : Fin 16) (s : State) : State :=
  let h := s.hosts[n]
  if h.act.chkPat = 0 ∨ h.chkLock ∨ h.chk.run < 1024 then s
  else raise (hostSrc n 6) (pay2 1 0) (modHost n (fun h => { h with chkLock := true, testErr := 0, chk := { h.chk with errs := [] } }) s)

/-- The checker loses lock: more than 512 of the last 4,096 symbols are in error (R229). -/
def prbsLost (n : Fin 16) (s : State) : State :=
  let h := s.hosts[n]
  if !h.chkLock ∨ (h.chk.errs.filter id).length ≤ 512 then s
  else
    let s := modHost n (fun h => { h with chkLock := false, chk := Checker.reset, lockLoss := satU 8 (h.lockLoss + 1) }) s
    raise (hostSrc n 6) (pay2 0 (satU 16 h.testErr)) s

def execHostCoefCapture (n : Fin 16) (s : State) : Host.Outcome State Fault Refusal := .next (hostCapture n s)
def execHostSignalLoss (n : Fin 16) (s : State) : Host.Outcome State Fault Refusal := .next (hostDrop n s)
def execHostSignal (n : Fin 16) (s : State) : Host.Outcome State Fault Refusal := .next (hostSignalOn n s)
def execHostTimingDone (n : Fin 16) (s : State) : Host.Outcome State Fault Refusal := .next (hostTimed n s)
def execCtleTrialDone (n : Fin 16) (s : State) : Host.Outcome State Fault Refusal := .next (ctleTrial n s)
def execHostQualityWindowEnd (n : Fin 16) (s : State) : Host.Outcome State Fault Refusal := .next (hostWindow n s)
def execHostLockLost (n : Fin 16) (s : State) : Host.Outcome State Fault Refusal := .next (hostUnlock n s)
def execHostAcquisitionRetry (n : Fin 16) (s : State) : Host.Outcome State Fault Refusal := .next (hostRetry n s)
def execDcgLoopStep (n : Fin 16) (rms : Nat) (s : State) : Host.Outcome State Fault Refusal := .next (dcgStep n rms s)
def execHostLoopUpdate (n : Fin 16) (xs : List Int) (cdr : List (Int × Int)) (s : State) : Host.Outcome State Fault Refusal :=
  .next (hostLoop n xs cdr s)
def execPrbsCheckerLock (n : Fin 16) (s : State) : Host.Outcome State Fault Refusal := .next (prbsLock n s)
def execPrbsCheckerLockLoss (n : Fin 16) (s : State) : Host.Outcome State Fault Refusal := .next (prbsLost n s)
def execLoopbackSlip (n : Fin 16) (s : State) : Host.Outcome State Fault Refusal := .next (loopSlip n 0 s)

end Sys2Proof.Machine
end

