-- ==== Sys2Proof/Machine/Convert.lean ====
section
/-! DEFINITION. The rotating-spare converters (R76 to R86, R152 to R155, R211) and their calibration sets (R319, R323 to R326). -/

namespace Sys2Proof.Machine

def getConv (s : State) : ConvId → Converter
  | .lineAdc n => s.lines[n].rx.adc
  | .dac n => s.lines[n].tx.dac
  | .hostAdc n => s.hosts[n].adc

def modConv (c : ConvId) (f : Converter → Converter) (s : State) : State :=
  match c with
  | .lineAdc n => modRx n (fun r => { r with adc := f r.adc }) s
  | .dac n => modTx n (fun x => { x with dac := f x.dac }) s
  | .hostAdc n => modHost n (fun h => { h with adc := f h.adc }) s

/-- Source numbers of slice failed, spare exhausted, swap aborted (Tables 3.5, 5.4, 7.4). -/
def convEvent (c : ConvId) (k : Nat) : Nat := match c with
  | .lineAdc n => lineSrc n (0x07 + k)
  | .dac n => lineSrc n (0x14 + k)
  | .hostAdc n => hostSrc n (3 + k)

/-- The slice that serves a phase, and the spare. -/
def servingSlice (c : Converter) (l : Nat) : Option Nat := c.roles.findIdx? fun r => r == .phase l
def spareSlice (c : Converter) : Option Nat := c.roles.findIdx? fun r => r == .spare

def isServing (r : SliceRole) : Bool := match r with
  | .phase _ => true
  | _ => false

/-! ### Region temperatures (R325, R366) and calibration sets (R324) -/

/-- Neighbours of a sensor (Table 12.1). -/
def neighbours (k : Fin 14) : List (Fin 14) :=
  if k.val < 7 then (if k.val = 0 then [] else [Fin.ofNat 14 (k.val - 1)]) ++ [Fin.ofNat 14 (k.val + 1), 12]
  else if k.val = 7 then [6, 12, 13]
  else if k.val = 8 then [9, 12]
  else if k.val = 9 ∨ k.val = 10 then [Fin.ofNat 14 (k.val - 1), Fin.ofNat 14 (k.val + 1), 12]
  else if k.val = 11 then [10, 12, 13]
  else if k.val = 12 then [3, 4, 9, 10]
  else [7, 11, 12]

def meanTemp (s : State) (l : List (Fin 14)) : Option Int :=
  if l.isEmpty then none else some (roundDiv (l.foldl (fun a k => a + s.therm.sens[k].temp) 0) l.length)

/-- Temperature of a region for calibration, 2⁻¹⁶ °C; none: every sensor is flagged broken (R325). -/
def regionTemp (s : State) (k : Fin 14) : Option Int :=
  if !s.therm.sens[k].broken then some s.therm.sens[k].temp
  else match meanTemp s ((neighbours k).filter fun j => !s.therm.sens[j].broken) with
    | some t => some t
    | none => meanTemp s ((List.finRange 14).filter fun j => !s.therm.sens[j].broken)

def convSensor : ConvId → Fin 14
  | .lineAdc n => Fin.ofNat 14 n.val
  | .dac n => Fin.ofNat 14 n.val
  | .hostAdc n => Fin.ofNat 14 (8 + n.val / 4)

/-- Linear interpolation from (t0, a) to (t1, b), rounded to nearest. -/
def lerp (t0 t1 t a b : Int) : Int := a + roundDiv ((b - a) * (t - t0)) (t1 - t0).toNat

/-- The values of a slice at a temperature (R324); none where it holds no set. -/
def setsAt (l : List CalSet) (t : Int) : Option CalVals :=
  let low := (l.filter fun x => decide (x.temp ≤ t)).foldl (fun (b : Option CalSet) x => match b with
    | none => some x
    | some y => if y.temp < x.temp then some x else some y) none
  let high := (l.filter fun x => decide (t < x.temp)).foldl (fun (b : Option CalSet) x => match b with
    | none => some x
    | some y => if x.temp < y.temp then some x else some y) none
  match low, high with
  | some a, some b => some
      { offset := lerp a.temp b.temp t a.vals.offset b.vals.offset, gain := lerp a.temp b.temp t a.vals.gain b.vals.gain
        timing := lerp a.temp b.temp t a.vals.timing b.vals.timing }
  | some a, none => some a.vals
  | none, some b => some b.vals
  | none, none => none

def calApply (t : Int) (c : SliceCal) : SliceCal := { c with applied := (setsAt c.sets t).getD c.applied }

/-- Stores a session's set (R324): in place of the nearest within ΔT / 2, in a free place, or in place of the nearest. -/
def setStore (dt : Nat) (x : CalSet) (l : List CalSet) : List CalSet :=
  let dist (y : CalSet) : Nat := (y.temp - x.temp).natAbs
  let near := l.foldl (fun (b : Option CalSet) y => match b with
    | none => some y
    | some z => if dist y < dist z ∨ (dist y = dist z ∧ y.seq < z.seq) then some y else some z) none
  match near with
  | none => [x]
  | some y => if dist y ≤ dt * 32768 ∨ 8 ≤ l.length then l.erase y ++ [x] else l ++ [x]

/-- A session's values on a slice at a temperature. -/
def sliceStore (dt : Nat) (t : Int) (v : CalVals) (seq : Nat) (c : SliceCal) : SliceCal :=
  calApply t { c with sets := setStore dt { temp := t, vals := v, seq := seq } c.sets, tCal := t }

def storeSlice (c : ConvId) (slice : Nat) (v : CalVals) (s : State) : State :=
  match regionTemp s (convSensor c) with
  | none => s
  | some t =>
    let seq := s.cal.setSeq
    let dt := s.cal.dt
    modConv c (fun x => { x with cal := x.cal.modify slice (sliceStore dt t v seq) }) (modCal (fun k => { k with setSeq := seq + 1 }) s)

/-- All slices of one converter take the values of the present temperature on one tick (R324). -/
def convApply (c : ConvId) (s : State) : State :=
  match regionTemp s (convSensor c) with
  | none => s
  | some t => modConv c (fun x => { x with cal := x.cal.map (calApply t) }) s

def allConvs : List ConvId :=
  (List.finRange 8).map ConvId.lineAdc ++ (List.finRange 8).map ConvId.dac ++ (List.finRange 16).map ConvId.hostAdc

/-! ### Substitution and swap -/

/-- The converter has lost its spare (R86). -/
def spareGone (c : ConvId) (s : State) : State := raise (convEvent c 1) 0 s

/-- Captures and eye scans of the converter's lane when its spare takes a phase (R401): a capture carries the index of the
first sample after the substitution (R83), a measurement that no command carries; an eye scan ends at once, truncated. -/
def capSubst (c : ConvId) (s : State) : State :=
  let sub (t : Tgt) (s : State) : State :=
    let s := match s.cap with
      | some r =>
        if r.target = t.code ∧ r.subst = 0xFFFFFFFF then
          let d := draw s
          { d.2 with cap := some { r with subst := BitVec.ofNat 32 (d.1 % max r.len 1) } }
        else s
      | none => s
    match s.scans.find? fun r => r.target == t.code && !r.trunc with
    | some r => arbEnd 2 t { s with scans := { r with trunc := true } :: s.scans.erase r }
    | none => s
  match c with
  | .lineAdc n => sub (.line (some n)) s
  | .dac _ => s
  | .hostAdc n => sub (.host (some n)) s

/-- A failure of a slice is acted on (R85, R155): the spare takes its phase at once; a slice that has become the spare is marked
failed; without a spare the failure is reported and not masked. -/
def failAct (c : ConvId) (slice : Nat) (s : State) : State :=
  let x := getConv s c
  match x.roles.getD slice .failed with
  | .failed => s
  | .spare =>
    let s := modConv c (fun x => { x with roles := x.roles.set slice .failed }) s
    spareGone c (raise (convEvent c 0) (pay2 slice 1) s)
  | .phase l =>
    match spareSlice x with
    | some y =>
      let s := modConv c (fun x => { x with roles := (x.roles.set slice .failed).set y (.phase l) }) (convApply c s)
      spareGone c (raise (convEvent c 0) (pay2 slice 1) (capSubst c s))
    | none => raise (convEvent c 0) (pay2 slice 0) s

/-- The health monitor or the replica judges this converter now (R84, R155, R211). -/
def convJudged (s : State) : ConvId → Bool
  | .lineAdc n => let st := s.lines[n].rx.st; st == .train || st == .frame || st == .up || st == .relock
  | .dac n => s.lines[n].tx.st == .run
  | .hostAdc n => let st := s.hosts[n].st; st == .adapt || st == .up || st == .resume

/-- A serving slice is declared failed: at once, or at the end of the swap that runs. -/
def convFail (c : ConvId) (slice : Nat) (s : State) : State :=
  let x := getConv s c
  if !convJudged s c || !isServing (x.roles.getD slice .failed) then s
  else match x.run with
    | some r => modConv c (fun x => { x with run := some { r with failures := r.failures ++ [slice] } }) s
    | none => failAct c slice s

def laneConv : LaneId → ConvId
  | .line n => .lineAdc n
  | .host n => .hostAdc n

/-- Comparison of the parallel run (R79, R154). -/
def runPasses (c : ConvId) (r : ParallelRun) : Bool := match c with
  | .dac _ => decide (r.sumAbs ≤ 8 * 256) && decide (r.maxAbs ≤ 32)
  | _ => decide (r.sumAbs ≤ 32 * 256) && decide (r.maxAbs ≤ 128)

def countSwap (c : ConvId) (s : State) : State := match c with
  | .lineAdc n => countLine n 0x2B 1 s
  | .dac n => countLine n 0x2C 1 s
  | .hostAdc n => countHost n 0x0C 1 s

end Sys2Proof.Machine
end

