-- ==== Sys2Proof/Machine/Reed.lean ====
section
/-! DEFINITION. Calibration through the reed (chapter 10): targets, the queue, sessions and segments, swaps, the self-check, and
the commands CAL_CONFIG and CAL_REQUEST. -/

namespace Sys2Proof.Machine

/-- What a target index names (Table 10.2). -/
inductive CalTgt where
  | conv (c : ConvId)
  | mon (k : Fin 2)
  | sensor (i : Fin 14)
  | reed
  deriving DecidableEq, Repr

def calTgt (t : Fin 49) : CalTgt :=
  let i := t.val
  if i < 8 then .conv (.lineAdc (Fin.ofNat 8 i))
  else if i < 16 then .conv (.dac (Fin.ofNat 8 (i - 8)))
  else if i < 32 then .conv (.hostAdc (Fin.ofNat 16 (i - 16)))
  else if i < 34 then .mon (Fin.ofNat 2 (i - 32))
  else if i < 48 then .sensor (Fin.ofNat 14 (i - 34))
  else .reed

def calIdx : CalTgt → Fin 49
  | .conv (.lineAdc n) => Fin.ofNat 49 n.val
  | .conv (.dac n) => Fin.ofNat 49 (8 + n.val)
  | .conv (.hostAdc n) => Fin.ofNat 49 (16 + n.val)
  | .mon k => Fin.ofNat 49 (32 + k.val)
  | .sensor i => Fin.ofNat 49 (34 + i.val)
  | .reed => 48

/-- Kind of a target's sessions (Table 10.1), their length in µs, or of one segment. -/
def calKind : CalTgt → Nat
  | .conv (.lineAdc _) => 0
  | .conv (.dac _) => 1
  | .conv (.hostAdc _) => 2
  | .mon _ => 3
  | .sensor _ => 4
  | .reed => 5

def sessionUs (t : CalTgt) : Nat := ([24, 30, 20, 200, 200, 200] : List Nat).getD (calKind t) 200

def segmentsOf (t : CalTgt) : Nat := if calKind t = 3 then 10 else if calKind t = 4 then 5 else 1

/-- The target as the arbiter sees it (R331). -/
def calArb : CalTgt → Tgt
  | .conv (.lineAdc n) => .line (some n)
  | .conv (.dac n) => .line (some n)
  | .conv (.hostAdc n) => .host (some n)
  | .mon k => .mon (some k)
  | .sensor i => .sensor i
  | .reed => .reed

def calDomain : CalTgt → Nat
  | .conv (.lineAdc n) => rxDomain n
  | .conv (.dac n) => txDomain n
  | .conv (.hostAdc n) => hostDomain n
  | _ => 5

/-- Its power domain is on; its converter has a spare. -/
def calPowered (s : State) (t : CalTgt) : Bool := domOn s (calDomain t)
def calSpare (s : State) (t : CalTgt) : Bool := match t with
  | .conv c => (spareSlice (getConv s c)).isSome
  | _ => true

def calSensor : CalTgt → Fin 14
  | .conv c => convSensor c
  | .sensor i => i
  | _ => 12

/-- Calibration of a monitor converter or sensor in `cal.single`. -/
def singleIdx : CalTgt → Fin 16
  | .mon k => Fin.ofNat 16 k.val
  | .sensor i => Fin.ofNat 16 (2 + i.val)
  | _ => 0

/-- Drift of a target (R319), 2⁻¹⁶ °C; none without a region temperature, and for the reed. -/
def driftOf (s : State) (t : CalTgt) : Option Nat :=
  match regionTemp s (calSensor t), t with
  | none, _ => none
  | _, .reed => none
  | some r, .conv c =>
    let x := getConv s c
    some ((x.roles.zip x.cal).foldl (fun m e => if isServing e.1 then max m (r - e.2.tCal).natAbs else m) 0)
  | some r, t => some (r - s.cal.single[singleIdx t].tCal).natAbs

/-- Urgency weight (Table 10.3). -/
def calWeight (s : State) (t : CalTgt) : Nat :=
  let lineW (n : Fin 8) : Nat :=
    let l := s.lines[n]
    if l.rx.st = .train ∨ l.rx.st = .frame ∨ l.rx.st = .relock then 4
    else if l.rx.st = .up then (if l.eq.margin < 100 then 4 else if l.eq.margin < 300 then 2 else 1) else 1
  if !s.cal.marginW then 1
  else match t with
    | .conv (.lineAdc n) => lineW n
    | .conv (.dac n) => lineW n
    | .conv (.hostAdc n) =>
      let h := s.hosts[n]
      if h.st = .adapt ∨ h.st = .resume then 4
      else if h.st = .up then (if h.snr < 1700 then 4 else if h.snr < 2000 then 2 else 1) else 1
    | _ => 2

/-- A target may be due at all (R319). -/
def calEligible (s : State) (t : CalTgt) : Bool := calPowered s t && calSpare s t

/-- Its W × drift, where it is due. -/
def dueOf (s : State) (t : Fin 49) : Option (Fin 49 × Nat) :=
  if calEligible s (calTgt t) then
    match driftOf s (calTgt t) with
    | some d => if s.cal.dt * 65536 < d then some (t, calWeight s (calTgt t) * d) else none
    | none => none
  else none

/-- Inserts by descending urgency, ties by lower index (R320). -/
def dueInsert (e : Fin 49 × Nat) : List (Fin 49 × Nat) → List (Fin 49 × Nat)
  | [] => [e]
  | x :: t => if x.2 < e.2 ∨ (x.2 = e.2 ∧ e.1 < x.1) then e :: x :: t else x :: dueInsert e t

def setDue (l : List (Fin 49 × Nat)) (c : Cal) : Cal :=
  let since := (c.dueSince.filter fun t => l.any (fun e => e.1 == t) || (c.busy.map (·.target)) == some t) ++
    ((l.map (·.1)).filter fun t => !c.dueSince.contains t)
  { c with due := l, dueSince := since }

/-- Every target anew (in each housekeeping round), and one target after its session. -/
def calDueAll (s : State) : State :=
  modCal (setDue ((List.finRange 49).foldl (fun l t => match dueOf s t with
    | some e => dueInsert e l
    | none => l) [])) s

def calDueOne (t : Fin 49) (s : State) : State :=
  let l := s.cal.due.filter fun e => e.1 != t
  modCal (setDue (match dueOf s t with
    | some e => dueInsert e l
    | none => l)) s

/-- The queue in the order of R320, one entry per target; the session that runs is not in it. -/
def calQueue (s : State) : List (Fin 49) :=
  let c := s.cal
  let l := (if c.checkDue && !c.frozen then [48] else []) ++ c.begun.map (·.target) ++ c.forced ++ c.requests.map (·.1) ++
    c.due.map (·.1) ++ c.again
  l.foldl (fun a t => if a.contains t || (c.busy.map (·.target)) == some t then a else a ++ [t]) []

/-- Takes a target out of the queue. -/
def calTake (t : Fin 49) (c : Cal) : Cal :=
  { c with checkDue := c.checkDue && t != 48, forced := c.forced.filter (· != t), requests := c.requests.filter (·.1 != t)
           due := c.due.filter (·.1 != t), again := c.again.filter (· != t) }

/-- Targets whose domain is off or that have no spare leave the queue, requests with their answers (R319, R335). -/
def calPrune (s : State) : State :=
  (List.finRange 49).foldl (fun s t =>
    let x := calTgt t
    if calEligible s x then s
    else
      let req := s.cal.requests.find? (·.1 == t)
      let s := modCal (fun c => { calTake t c with checkDue := c.checkDue, dueSince := c.dueSince.filter (· != t) }) s
      match req with
      | some (_, cmd) => refuse cmd (if calPowered s x then stInternal else stPoweredOff) s
      | none => s) s

/-! ### Sessions -/

/-- The window that a session needs (R320). -/
def calWindow (s : State) (t : CalTgt) : Option CTime := match t with
  | .conv _ => windowEnd s 1 (calArb t)
  | .mon k => if k = 0 then windowEnd s 1 (calArb t) else windowAny s 1
  | _ => windowAny s 1

/-- A swap is in its steps 2 to 4. -/
def swapRuns (s : State) : Bool := allConvs.any fun c => (getConv s c).run.isSome

/-- A segment on MON_B ends before the next housekeeping round is due (R353). -/
def roundGap (s : State) : Bool := decide (s.clk + 31250 ≤ s.therm.roundAt + 156250 * s.therm.cfg.round)

/-- A session or segment of the target could run now: not frozen, the window covers it and it fits, nothing on the converter. -/
def sessionFits (s : State) (t : Fin 49) : Bool :=
  let x := calTgt t
  calEligible s x && fits s (calWindow s x) (sessionUs x) &&
  (!s.cal.frozen || (t == 48 && s.cal.requests.any (·.1 == 48))) &&
  (match x with
   | .mon k => (s.mon[k].busy == .idle || (match s.mon[k].busy with | .scan _ => true | _ => false)) && (k == 0 || roundGap s)
   | _ => true) &&
  -- no other session of the same kind starts between the segments of one (R317)
  (decide (calKind x < 3) || calKind x == 5 || s.cal.begun.all fun b => calKind (calTgt b.target) != calKind x || b.target == t)

/-- The session begins. -/
def sessionBegin (t : Fin 49) (s : State) : State :=
  let x := calTgt t
  let cmd := (s.cal.requests.find? (·.1 == t)).map (·.2)
  let slice := match x with | .conv c => (spareSlice (getConv s c)).getD 0 | _ => 0
  let s := modCal (fun c =>
    let c : Cal := { calTake t c with idleRaised := false, lastTarget := t.val, busy := some {
      target := t, slice := slice, cmd := cmd, forced := c.forced.contains t, due := (c.due.find? fun e => e.1 == t).map (·.2)
      again := c.again.contains t } }
    -- a session in segments that had begun of itself answers a request that has come meanwhile
    if c.begun.any (·.target == t) then
      { c with begun := c.begun.map fun (b : SegRun) => if b.target = t then { b with cmd := b.cmd <|> cmd } else b }
    else if 1 < segmentsOf x then { c with begun := c.begun ++ [{ target := t, done := 0, cmd := cmd }] }
    else c) s
  match x with
  | .mon k => modMon k (fun m => { m with busy := .segment }) (monStop k s)
  | _ => s

/-- The reed takes the first entry that an open window covers, that fits, and that the arbiter admits (R320, R333). -/
def sessionTry : List (Fin 49) → State → State
  | [], s => s
  | t :: l, s =>
    if sessionFits s t then
      let r := arbPresent 1 (calArb (calTgt t)) s
      if r.2 then sessionBegin t r.1 else sessionTry l r.1
    else sessionTry l s

/-- After a cold reset the self-check runs before the first session (R329). -/
def sessionOrder (s : State) : List (Fin 49) := if s.cal.checkDue && s.cal.sess == 0 then [48] else calQueue s

def sessionStart (s : State) : State :=
  if !s.rst.mgmtRun || !domOn s 5 || s.cal.busy.isSome || swapRuns s then s else sessionTry (sessionOrder s) s

/-- The set that a target's results are checked against (R327), at the present region temperature. -/
def calHeld (s : State) (t : CalTgt) (slice : Nat) : Option CalVals :=
  match regionTemp s (calSensor t) with
  | none => none
  | some r => match t with
    | .conv c => setsAt ((getConv s c).cal.getD slice SliceCal.none).sets r
    | t => setsAt s.cal.single[singleIdx t].sets r

def resultOk (held : Option CalVals) (r : SessionResult) : Bool :=
  r.bandgapOk && match held with
    | none => true
    | some h => decide ((r.vals.offset - h.offset).natAbs ≤ 32) && decide ((r.vals.gain - h.gain).natAbs ≤ 200) &&
        decide ((r.vals.timing - h.timing).natAbs ≤ 500)

/-- Targets that the starvation guard forces (R321). -/
def starveForce (s : State) : State :=
  modCal (fun c =>
    { c with forced := c.forced ++ (List.finRange 49).filter (fun t =>
        decide (65472 ≤ c.starve[t]) && t != 48 && calEligible s (calTgt t) && !c.forced.contains t &&
        (c.busy.map (·.target)) != some t) }) s

/-- A session is completed (R321, R327, R328): the counts; `own`: its own target's starvation count restarts. Targets whose count
reaches its limit are forced at once. -/
def sessionCount (t : Fin 49) (own : Bool) (s : State) : State :=
  let s := countDev 0x81 1 s
  starveForce <| modCal (fun c => { c with
    sess := c.sess + 1
    since := if t = 48 then 0 else c.since + 1
    checkDue := c.checkDue || (t != 48 && decide (4096 ≤ c.since + 1) && !c.frozen)
    starve := Vector.ofFn (fun (j : Fin 49) =>
      if j = t then (if own then 0 else c.starve[j])
      else if calEligible s (calTgt j) then min 65535 (c.starve[j] + 1) else c.starve[j]) }) s

def reedAnswer (cmd : Option Cmd) (s : State) : State := match cmd with
  | some c => done c 0 s
  | none => s

/-- A result is rejected (R327). -/
def sessionReject (t : Fin 49) (s : State) : State :=
  let s := sessionCount t false s
  let s := modCal (fun c =>
    -- the rejections in a row that fell on different targets
    let run := (c.rejRun.reverse.takeWhile (· != t)).reverse ++ [t]
    { c with reject := satU 8 (c.reject + 1), rejRun := if run.length < 3 then run else []
             checkDue := c.checkDue || decide (3 ≤ run.length) }) s
  raiseLimited 0x032 0 (pay1 t.val) (countDev 0x82 1 (calDueOne t s))

/-- The reed self-check ends (R328, R329). -/
def selfCheck (cmd : Option Cmd) (r : SessionResult) (s : State) : State :=
  let s := sessionCount 48 true s
  let ok := r.bandgapOk && r.secondOk && r.timingOk
  if ok then
    let note := s.cal.frozen || s.cal.restoreNote
    let s := modCal (fun c => { c with reedOk := true, frozen := false, restoreNote := false, failRun := 0, checkDue := false, rejRun := [] }) s
    reedAnswer cmd (if note then raise 0x031 0 s else s)
  else
    let s := modCal (fun c => { c with reedOk := false, fail := satU 8 (c.fail + 1), failRun := c.failRun + 1
                                       checkDue := !c.frozen }) s
    let s := if 2 ≤ s.cal.failRun ∧ !s.cal.frozen then
        let mask := b2n (!r.bandgapOk) + 2 * b2n (!r.secondOk) + 4 * b2n (!r.timingOk)
        let out := s.cal.requests.filter fun e => e.1 != 48
        let s := modCal (fun c => { c with frozen := true, checkDue := false, requests := c.requests.filter fun e => e.1 == 48 }) s
        out.foldl (fun s e => refuse e.2 stInternal s) (raise 0x030 (pay1 mask) s)
      else s
    reedAnswer cmd s

/-- The phase that the spare relieves: that of the serving slice with the largest drift, the lower of equals (R316). -/
def relievePhase (s : State) (c : ConvId) : Option (Nat × Nat) :=
  let x := getConv s c
  match regionTemp s (convSensor c) with
  | none => none
  | some r =>
    ((List.range x.roles.length).foldl (fun (b : Option (Nat × Nat × Nat)) l =>
      match servingSlice x l with
      | none => b
      | some k =>
        let d := (r - (x.cal.getD k SliceCal.none).tCal).natAbs
        match b with
        | none => some (l, k, d)
        | some y => if y.2.2 < d then some (l, k, d) else b) none).map fun y => (y.1, y.2.1)

/-- A converter whose map was lost is calibrated slice by slice: the next session follows (R414). -/
def owedNext (c : ConvId) (s : State) : State :=
  if (getConv s c).owed ≤ 1 then modConv c (fun x => { x with owed := 0 }) s
  else
    let t := calIdx (.conv c)
    modCal (fun q => { q with forced := if q.forced.contains t then q.forced else q.forced ++ [t] })
      (modConv c (fun x => { x with owed := x.owed - 1 }) s)

/-- A session of kind 0, 1 or 2 ends (R315, R316, R327, R78, R85). -/
def convSession (q : Session) (c : ConvId) (r : SessionResult) (s : State) : State :=
  if resultOk (calHeld s (.conv c) q.slice) r then
    let s := modCal (fun k => { k with rejRun := [] }) (storeSlice c q.slice r.vals s)
    let s := owedNext c (calDueOne q.target (sessionCount q.target true s))
    let s := reedAnswer q.cmd s
    match relievePhase s c with
    | some (l, k) =>
      -- no swap where a substitution has taken the spare meanwhile
      if spareSlice (getConv s c) = some q.slice then
        modConv c (fun x => { x with run := some { phase := l, out := k, spare := q.slice, failures := [] } }) s
      else arbEnd 1 (calArb (.conv c)) s
    | none => arbEnd 1 (calArb (.conv c)) s
  else arbEnd 1 (calArb (.conv c)) (reedAnswer q.cmd (sessionReject q.target s))

/-- A reed session of one segment ends. -/
def sessionDone (r : SessionResult) (s : State) : State :=
  match s.cal.busy with
  | none => s
  | some q =>
    match calTgt q.target with
    | .conv c => convSession q c r (modCal (fun k => { k with busy := none }) s)
    | .reed => arbEnd 1 .reed (selfCheck q.cmd r (modCal (fun k => { k with busy := none }) s))
    | _ => s

/-- A segment of a session of kind 3 or 4 ends, the last one with the session's result (R317, R327). -/
def segmentDone (r : SessionResult) (s : State) : State :=
  match s.cal.busy with
  | none => s
  | some q =>
    let t := calTgt q.target
    if segmentsOf t = 1 then s
    else
      let s := arbEnd 1 (calArb t) (modCal (fun c => { c with busy := none }) s)
      let s := match t with
        | .mon k =>
          let s := modMon k (fun m => { m with busy := .idle }) s
          monRestart k (monNext k s)
        | _ => s
      match s.cal.begun.find? (·.target == q.target) with
      | none => s
      | some b =>
        if b.done + 1 < segmentsOf t then
          modCal (fun c => { c with begun := c.begun.map fun x => if x.target = q.target then { x with done := x.done + 1 } else x }) s
        else
          let s := modCal (fun c => { c with begun := c.begun.filter (·.target != q.target) }) s
          if resultOk (calHeld s t 0) r then
            let s := match regionTemp s (calSensor t) with
              | some x => modCal (fun c => { c with
                  rejRun := [], setSeq := c.setSeq + 1
                  single := upd c.single (singleIdx t) (fun y =>
                    let z := sliceStore c.dt x r.vals c.setSeq y
                    -- a sensor's new offset is applied in the next housekeeping round (Table 10.1)
                    if calKind t = 4 then { z with applied := y.applied } else z) }) s
              | none => s
            reedAnswer b.cmd (calDueOne q.target (sessionCount q.target true s))
          else reedAnswer b.cmd (sessionReject q.target s)

/-- The parallel run of a swap ends (R78, R79, R85, R153, R154). -/
def swapDone (c : ConvId) (run : ParallelRun) (s : State) : State :=
  match (getConv s c).run with
  | none => s
  | some r =>
    let s := modConv c (fun x => { x with run := none }) s
    let t := calIdx (.conv c)
    let s := if runPasses c run then
        let s := modConv c (fun x => { x with
          roles := (x.roles.set r.out .spare).set r.spare (.phase r.phase), swapCnt := min 4095 (x.swapCnt + 1), abortCnt := 0 }) s
        countSwap c s
      else
        let s := modConv c (fun x => { x with abortCnt := min 3 (x.abortCnt + 1) }) s
        let s := raise (convEvent c 2) (pay2 r.spare (getConv s c).abortCnt) s
        let s := modCal (fun k => { k with again := k.again ++ [t] }) s
        if (getConv s c).abortCnt = 3 then
          spareGone c (modConv c (fun x => { x with roles := x.roles.set r.spare .failed }) s)
        else s
    let s := r.failures.foldl (fun s k => failAct c k s) s
    calPrune (calDueOne t (arbEnd 1 (calArb (.conv c)) s))

/-- No session for 10 s while a target is due (R322). -/
def reedIdle (s : State) : State :=
  match s.cal.dueSince with
  | [] => s
  | t :: _ => if s.cal.idleRaised || s.cal.busy.isSome then s
              else raise 0x033 (pay1 t.val) (modCal (fun c => { c with idleRaised := true }) s)

/-- A request has not started within 1 s (R335). -/
def requestTimeout (t : Fin 49) (s : State) : State :=
  match s.cal.requests.find? (·.1 == t) with
  | none => s
  | some (_, cmd) => refuse cmd stInternal (modCal (fun c => { c with requests := c.requests.filter (·.1 != t) }) s)

/-- A session abandoned before its swap is queued again, in the places that it came from (R18). -/
def calRequeue (q : Session) (c : Cal) : Cal :=
  let t := q.target
  let c := { c with
    checkDue := c.checkDue || (t == 48 && q.cmd.isNone)
    requests := match q.cmd with | some cmd => (t, cmd) :: c.requests | none => c.requests
    forced := if q.forced then t :: c.forced else c.forced
    again := if q.again then t :: c.again else c.again }
  match q.due with
  | some u => setDue (dueInsert (t, u) c.due) c
  | none => c

/-- A management-plane reset ends the session or segment that runs (R18, R317, R335): the session goes back to its place, of a session
in segments the segments done count. -/
def reedAbort (s : State) : State :=
  match s.cal.busy with
  | none => s
  | some q =>
    let t := calTgt q.target
    let s := arbEnd 1 (calArb t) s
    let s := modCal (fun c => let c := { c with busy := none }; if segmentsOf t = 1 then calRequeue q c else c) s
    match t with
    | .mon k => monRestart k (monNext k (modMon k (fun m => { m with busy := .idle }) s))
    | _ => s

/-- Firmware's work on calibration in a housekeeping round (R319 to R321, R324, R334). -/
def calRound (s : State) : State :=
  let s := modCal (fun c => match c.pendCfg with
    | some (d, w) => { c with dt := d, marginW := w, pendCfg := none }
    | none => c) s
  let s := allConvs.foldl (fun s c => convApply c s) s
  let s := (List.finRange 16).foldl (fun s i =>
    let k : Fin 14 := if i.val < 2 then 12 else Fin.ofNat 14 (i.val - 2)
    match regionTemp s k with
    | some t => modCal (fun c => { c with single := upd c.single i (calApply t) }) s
    | none => s) s
  starveForce (calDueAll (calPrune s))

/-! ### Commands -/

def parCalConfig (c : Cmd) : Bool := decide (1 ≤ c.p 0) && decide (c.p 0 ≤ 16) && decide (c.p 1 ≤ 1) && c.clear 2 44

def actCalConfig (c : Cmd) (s : State) : State :=
  done c 0 (modCal (fun k => { k with pendCfg := some (c.p 0, c.p 1 == 1) }) s)

/-- The targets that CAL_REQUEST names; none: the kind does not match the target. -/
def requestTgt (c : Cmd) : Option CalTgt :=
  match c.p 0, c.tgt with
  | 0, some (.line (some n)) => some (.conv (.lineAdc n))
  | 1, some (.line (some n)) => some (.conv (.dac n))
  | 2, some (.host (some n)) => some (.conv (.hostAdc n))
  | 3, some (.mon (some k)) => some (.mon k)
  | 4, some .device => if h : c.p 1 < 14 then some (.sensor ⟨c.p 1, h⟩) else none
  | 5, some .device => some .reed
  | _, _ => none

/-- R335: kind and target, and no second request for a target. -/
def parCalRequest (c : Cmd) (s : State) : Bool :=
  match requestTgt c with
  | none => false
  | some t =>
    c.clear (if c.p 0 = 4 then 2 else 1) 44 &&
    !(s.cal.requests.any (·.1 == calIdx t)) && !((s.cal.busy.any fun q => q.target == calIdx t && q.cmd.isSome)) &&
    !(s.cal.begun.any fun b => b.target == calIdx t && b.cmd.isSome)

def actCalRequest (c : Cmd) (s : State) : State :=
  match requestTgt c with
  | none => s
  | some t =>
    if (s.cal.frozen && t != .reed) || !calSpare s t then refuse c stInternal s
    else if s.cal.requests.any (·.1 == calIdx t) then refuse c stBadParam s
    else modCal (fun k => { k with requests := k.requests ++ [(calIdx t, c)] }) s

def execSliceFailed (lane : LaneId) (slice : Nat) (s : State) : Host.Outcome State Fault Refusal :=
  .next (calPrune (convFail (laneConv lane) slice s))
def execDacSegmentFailed (n : Fin 8) (seg : Nat) (s : State) : Host.Outcome State Fault Refusal :=
  .next (calPrune (convFail (.dac n) seg s))
def execReedSessionStart (s : State) : Host.Outcome State Fault Refusal := .next (sessionStart s)
def execReedSessionDone (r : SessionResult) (s : State) : Host.Outcome State Fault Refusal := .next (sessionDone r s)
def execSegmentDone (r : SessionResult) (s : State) : Host.Outcome State Fault Refusal := .next (segmentDone r s)
def execReedIdle (s : State) : Host.Outcome State Fault Refusal := .next (reedIdle s)
def execCalRequestTimeout (t : Fin 49) (s : State) : Host.Outcome State Fault Refusal := .next (requestTimeout t s)

end Sys2Proof.Machine
end

