-- ==== Sys2Proof/Machine/Captures.lean ====
section
/-! DEFINITION. Freezes and counter commands (R32 to R34, R386 to R394), captures and eye scans (R398 to R401). -/

namespace Sys2Proof.Machine

/-- Final answers of an activity that a command may have asked for. -/
def doneO (cmd : Option Cmd) (res : Nat) (s : State) : State := match cmd with
  | some c => done c res s
  | none => s
def refuseO (cmd : Option Cmd) (st : Byte) (s : State) : State := match cmd with
  | some c => refuse c st s
  | none => s

/-! ### Clearing and selecting -/

/-- The counters that a clear names. -/
structure ClearSpec where
  fix : Bool
  mask : Nat
  /-- the histogram of a port, FEC_UNC apart -/
  hist : Bool
  /-- the selections as well (R390): not by a reset -/
  sels : Bool
  /-- the remainders of the selectors in units of 64 -/
  rems : Bool

/-- Everything but the selections: what a reset clears (Table 13.3). -/
def ClearSpec.reset : ClearSpec := { fix := true, mask := 255, hist := true, sels := false, rems := true }

/-- The fixed counter and the programmable counters of a mask, with their sticky bits and selections; a cleared selection is that of
Table 13.8, which `z` has (R390). DEDUCED (log entry 74): a selection is cleared to its reset value. -/
def CtrVals.clear (z : CtrVals) (q : ClearSpec) (hist : Bool) (c : CtrVals) : CtrVals :=
  { fix := if q.fix then 0 else c.fix, fixOvf := c.fixOvf && !q.fix
    cnt := Vector.ofFn fun k => if q.mask / 2 ^ k.val % 2 = 1 then 0 else c.cnt[k]
    sel := Vector.ofFn fun k => if q.sels && q.mask / 2 ^ k.val % 2 == 1 then z.sel[k] else c.sel[k]
    ovf := c.ovf &&& ~~~(BitVec.ofNat 8 q.mask), cleared := c.cleared || q.fix || q.mask % 256 != 0 || hist }

/-- A clear on the present tick: the tick's own increments count after it (R391). `hist`: the set has a histogram. -/
def Ctr.clear (clk : Nat) (more : List (Nat × Bool)) (z : Ctr) (q : ClearSpec) (hist : Bool) (c : Ctr) : Ctr :=
  let t := (c.begin clk more).2
  let h := hist && q.hist
  let t := { t with base := CtrVals.clear z.toCtrVals q h t.base, wiped := t.wiped || q.fix || q.mask % 256 != 0 || h
                    moreBase := if h then List.replicate 17 (0, false) ++ t.moreBase.drop 17 else t.moreBase }
  { toCtrVals := t.vals, fixRem := if q.fix then 0 else c.fixRem, txRem := if q.rems then 0 else c.txRem
    lvlRem := if q.rems then Vector.replicate 4 0 else c.lvlRem, tick := some t }

/-- The histogram after a clear on the present tick: the tick's own increments. -/
def histWipe (t : CtrTick) (h : List (Nat × Bool)) : List (Nat × Bool) :=
  h.mapIdx fun i e => ((e.1 + 2 ^ 48 - (t.moreBase.getD i (0, false)).1) % 2 ^ 48, false)

def clearLine (q : ClearSpec) (n : Fin 8) (s : State) : State :=
  { s with lineCtr := upd s.lineCtr n (Ctr.clear s.clk (lineMore s n) Ctr.line q false) }
def clearHost (q : ClearSpec) (n : Fin 16) (s : State) : State :=
  { s with hostCtr := upd s.hostCtr n (Ctr.clear s.clk [] Ctr.host q false) }
/-- A port's counters and histogram; FEC_UNC stays (Table 13.3). -/
def clearPort (q : ClearSpec) (p : Fin 8) (s : State) : State :=
  let more := portMore s p
  let t := (s.portCtr[p].begin s.clk more).2
  { s with portCtr := upd s.portCtr p (Ctr.clear s.clk more Ctr.port q true)
           ports := if q.hist then upd s.ports p (fun x => { x with hist := histWipe t x.hist }) else s.ports }
def clearDev (q : ClearSpec) (s : State) : State := { s with pmc := Ctr.clear s.clk [] Ctr.pmc q false s.pmc }

def clearLineCtr (n : Fin 8) (s : State) : State := clearLine .reset n s
def clearHostCtr (n : Fin 16) (s : State) : State := clearHost .reset n s
/-- A mode-change swap clears every port's counters and histogram, and with them the selections (R390, Table 13.3). -/
def clearPortCtrs (s : State) : State := forFin 8 (clearPort { ClearSpec.reset with sels := true }) s
/-- Every counter of the data plane (Table 13.3). -/
def clearDataCtrs (s : State) : State :=
  forFin 8 (clearPort .reset) (forFin 16 (clearHost .reset) (forFin 8 (clearLine .reset) s))

/-- What is done to each counter set that a target names: lines, hosts, ports, and PMC; `pmc`: the device target names PMC alone. -/
def ctrOn (t : Tgt) (fl : Fin 8 → State → State) (fh : Fin 16 → State → State) (fp : Fin 8 → State → State) (fd : State → State)
    (pmc : Bool) (s : State) : State :=
  match t with
  | .line (some n) => fl n s
  | .line none => forFin 8 fl s
  | .host (some n) => fh n s
  | .host none => forFin 16 fh s
  | .port (some p) => fp p s
  | .port none => forFin 8 fp s
  | .device => if pmc then fd s else forFin 8 fp (forFin 16 fh (forFin 8 fl (fd s)))
  | _ => s

/-- R392. -/
def parCounterClear (c : Cmd) : Bool := decide (c.p 0 < 4) && c.clear 2 44

def actCounterClear (c : Cmd) (s : State) : State :=
  let q : ClearSpec := { fix := c.p 0 % 2 == 1, mask := c.p 1, hist := c.p 0 / 2 == 1, sels := true, rems := false }
  done c 0 (ctrOn (c.tgt.getD .device) (clearLine q) (clearHost q) (clearPort q) (clearDev q) false s)

/-- A selector that Table 13.2 lists for the block type (R389). -/
def selOk (t : Tgt) (sel : Nat) : Bool := match t with
  | .line _ => decide (sel < 0x34)
  | .host _ => decide (sel < 0x14)
  | .port _ => decide (sel < 0x11) || (decide (0x20 ≤ sel) && decide (sel < 0x31)) || (decide (0x40 ≤ sel) && decide (sel < 0x4A))
  | .device => decide (sel < 0x8B)
  | _ => false

def parCounterSelect (c : Cmd) : Bool :=
  (match c.tgt with | some t => selOk t (c.p 1) | none => false) && decide (c.p 2 < 2) && c.clear 3 44

/-- A change of selection, with a clear of the same counters or without (R393); the tick's own increments count under the new
selection (R391). -/
def Ctr.select (clk : Nat) (more : List (Nat × Bool)) (mask sel : Nat) (keep : Bool) (c : Ctr) : Ctr :=
  let c := if keep then c
    else Ctr.clear clk more c { fix := false, mask := mask, hist := false, sels := false, rems := false } false c
  let t := (c.begin clk more).2
  let t := { t with sels := t.sels ++ [(mask, sel)] }
  { c with toCtrVals := t.vals, tick := some t }

def actCounterSelect (c : Cmd) (s : State) : State :=
  let f (more : List (Nat × Bool)) : Ctr → Ctr := Ctr.select s.clk more (c.p 0) (c.p 1) (c.p 2 == 1)
  done c 0 (ctrOn (c.tgt.getD .device)
    (fun n s => { s with lineCtr := upd s.lineCtr n (f (lineMore s n)) }) (fun n s => { s with hostCtr := upd s.hostCtr n (f []) })
    (fun p s => { s with portCtr := upd s.portCtr p (f (portMore s p)) }) (fun s => { s with pmc := f [] s.pmc }) true s)

/-- A counter command aims at a block with counters. -/
def tgtCounters (c : Cmd) : Bool := match c.tgt with
  | some (.mon _) => false
  | some (.sensor _) => false
  | some .reed => false
  | some _ => true
  | none => false

/-! ### Freeze -/

/-- Body of a counter-snapshot record from byte 24 (Table 13.4), its own extras last. -/
def snapBody (serial : Word) (flags : Nat) (c : CtrVals) (extra : List Byte) : List Byte :=
  bytesLE 4 serial.toNat ++ [BitVec.ofNat 8 flags, c.ovf, BitVec.ofNat 8 (b2n c.fixOvf), 0] ++ bytesLE 8 c.fix.toNat ++
  c.sel.toList.map (fun k => BitVec.ofNat 8 k) ++ c.cnt.toList.flatMap (fun v => bytesLE 8 v.toNat) ++ extra

/-- A histogram bin as Table 6.15 lays it out: the count, and the overflow bit. -/
def binBytes (e : Nat × Bool) : List Byte := bytesLE 8 (e.1 + if e.2 then 2 ^ 63 else 0)

def snapFlags (powered : Bool) (c : CtrVals) (test : Bool) : Nat := b2n (!powered) + 2 * b2n c.cleared + 4 * b2n test

def snapForm (units : Nat) (t : Tgt) (body : List Byte) (s : State) : State :=
  (tlmForm 1 units false 0 t.code s.tlm.snapTime body s).1

/-- What a freeze copies of a set: the values from before its tick (R391), and those of the further counters. -/
def Ctr.frozen (clk : Nat) (more : List (Nat × Bool)) (c : Ctr) : CtrVals × List (Nat × Bool) :=
  let t := (c.begin clk more).2
  (t.was, t.more)

/-- A set after a freeze: a clear on the freeze's own tick is marked in the next snapshot (R391). -/
def Ctr.thawed (clk : Nat) (c : Ctr) : Ctr :=
  let t := (c.begin clk []).2
  { c with cleared := t.wiped, tick := c.tick.map fun t => { t with base := { t.base with cleared := t.wiped } } }

/-- The records of a freeze, in the order of R394. -/
def snapRecords (s0 : State) : State :=
  let sn := s0.tlm.serial
  let s := snapForm 2 .device (snapBody sn (snapFlags true (s0.pmc.frozen s0.clk []).1 false) (s0.pmc.frozen s0.clk []).1 []) s0
  let s := forFin 8 (fun n s =>
    if !lineUsed (modeOf s0) then s
    else
      let f := s0.lineCtr[n].frozen s0.clk (lineMore s0 n)
      let c := f.1
      -- with CODE 0b10 there is no inner code: INNER_UNC reads 0 (R200)
      let unc := if modeOf s0 = 4 ∧ lineCode s0 n = 2 then 0 else (f.2.headD (0, false)).1
      snapForm 2 (.line (some n)) (snapBody sn (snapFlags (domOn s0 (rxDomain n) || domOn s0 (txDomain n)) c s0.lines[n].rx.inTest) c
        (bytesLE 8 unc)) s) s
  let s := forFin 16 (fun n s =>
    if !hostUsed (modeOf s0) n then s
    else
      let c := (s0.hostCtr[n].frozen s0.clk []).1
      snapForm 2 (.host (some n)) (snapBody sn (snapFlags (domOn s0 (hostDomain n)) c s0.hosts[n].inTest) c []) s) s
  forFin 8 (fun p s =>
    if !portEnabled s0 p then s
    else
      let f := s0.portCtr[p].frozen s0.clk (portMore s0 p)
      let c := f.1
      snapForm 5 (.port (some p)) (snapBody sn (snapFlags (domOn s0 48) c s0.ports[p].inTest) c
        ((f.2.take 17).flatMap binBytes ++ bytesLE 8 (f.2.getD 17 (0, false)).1)) s) s

/-- The previous freeze lies less than 50 µs back (R33). -/
def freezeSoon (s : State) : Bool := match s.tlm.snapClk with
  | some t => decide ((s.clk - t) * 64 < 500000)
  | none => false

/-- A freeze on this tick (R32, R33, R394): taken, or skipped with the event. -/
def freeze (s : State) : State :=
  if freezeSoon s then raise 0x003 (pay1 s.tlm.serial.toNat) s
  else
    let s := { s with tlm := { s.tlm with serial := s.tlm.serial + 1, snapTime := now s, snapClk := some s.clk } }
    let s := snapRecords s
    { s with lineCtr := s.lineCtr.map (Ctr.thawed s.clk), hostCtr := s.hostCtr.map (Ctr.thawed s.clk)
             portCtr := s.portCtr.map (Ctr.thawed s.clk), pmc := s.pmc.thawed s.clk }

/-- FREEZE, immediate or at its tick. -/
def actFreeze (cmd : Option Cmd) (s : State) : State :=
  if !domOn s 10 ∧ cmd.isSome then refuseO cmd stPoweredOff s
  else
    let skip := freezeSoon s
    let s := freeze s
    doneO cmd (s.tlm.serial.toNat + 2 ^ 32 * b2n skip) s

/-! ### Captures -/

/-- Parameters of CAPTURE from a command or a slot (R398): kind, dwell, phase, length. -/
def capOk (t : Tgt) (b : List Byte) : Bool :=
  let k := byteAt b 0
  let len := leAt b 4 4
  let phases := match t with | .line _ => 64 | _ => 32
  let common := allZero b 3 4 && allZero b 8 44
  match k with
  | 0 => common && allZero b 1 3 && decide (len % 1024 = 0) && decide (1024 ≤ len) && decide (len ≤ 1048576)
  | 1 => common && allZero b 1 3 && decide (len % 1024 = 0) && decide (1024 ≤ len) && decide (len ≤ 524288)
  | 2 => common && allZero b 4 8 && decide (10 ≤ byteAt b 1) && decide (byteAt b 1 ≤ 20) && decide (byteAt b 2 < phases)
  | _ => false

/-- The receive domain, and the converter, of a capture's target. -/
def capLane : Tgt → Option (Nat × ConvId)
  | .line (some n) => some (rxDomain n, .lineAdc n)
  | .host (some n) => some (hostDomain n, .hostAdc n)
  | _ => none

/-- CAPTURE on its tick. The Boolean says that the arbiter, or the capture area, refused it (R399, R333). -/
def capStart (cmd : Option Cmd) (code : BitVec 16) (b : List Byte) (s : State) : State × Bool :=
  let t := (Tgt.ofCode code).getD .device
  match capLane t with
  | none => (refuseO cmd stBadTarget s, false)
  | some (dom, conv) =>
    if !capOk t b then (refuseO cmd stBadParam s, false)
    else if !domOn s dom || !domOn s 10 then (refuseO cmd stPoweredOff s, false)
    else
      let scan := byteAt b 0 == 2
      let run : CapRun :=
        { cmd := cmd, target := code, kind := byteAt b 0, len := leAt b 4 4, dwell := byteAt b 1, phase := byteAt b 2
          time := now s, subst := 0xFFFFFFFF, trunc := false }
      if scan && (spareSlice (getConv s conv)).isNone then (refuseO cmd stInternal s, false)
      else if !scan && s.cap.isSome then (arbRefuse 2 2 s, true)
      else
        let r := arbPresent 2 t s
        if !r.2 then (r.1, true)
        else if scan then ({ r.1 with scans := r.1.scans ++ [run] }, false)
        else ({ r.1 with cap := some run }, false)

/-- A record's RECORD_ID for a RESULT; the spec gives none to a record that no enabled ring has taken, so there it is free. -/
def tlmFormId (typ units : Nat) (more : Bool) (frag : Nat) (origin : BitVec 16) (time : CTime) (body : List Byte) (s : State) :
    State × Nat :=
  let r := tlmForm typ units more frag origin time body s
  if ringEn s (.tlm (routeOfType s typ)) then r
  else
    let d := draw r.1
    (d.2, d.1)

/-- The records of a capture: 32,768 bytes of samples each, linked by FRAG and MORE (R399). -/
def capRecords (r : CapRun) (bytes : List Byte) : State → State × Nat := fun s =>
  let sb := r.kind + 1
  let total := r.len * sb
  let n := (total + 32767) / 32768
  let r0 := (List.range n).foldl (fun (a : State × Nat) f =>
    let part := (bytes.drop (32768 * f)).take 32768
    let body := [BitVec.ofNat 8 r.kind, BitVec.ofNat 8 sb, 0, 0] ++ bytesLE 4 r.len ++ bytesLE 4 (32768 / sb * f) ++
      bytesLE 4 r.subst.toNat ++ part
    let units := (40 + min 32768 (total - 32768 * f) + 4 + 63) / 64
    let x := tlmFormId 4 units (decide (f + 1 < n)) f r.target r.time body a.1
    (x.1, if f = 0 then x.2 else a.2)) (s, 0)
  r0

/-- Samples as bytes: one each, or two each, signed. -/
def sampleList (r : CapRun) (l : List Int) : List Byte :=
  ((List.range r.len).map fun i => bytesLE (r.kind + 1) (toField (8 * (r.kind + 1)) (l.getD i 0))).flatten

/-- The capture with the word that was lost replaced by zeros (Table 14.4). -/
def zeroWord (w : Option Nat) (b : List Byte) : List Byte := match w with
  | none => b
  | some i =>
    let k := 8 * (i % max 1 ((b.length + 7) / 8))
    b.take k ++ zeros (min 8 (b.length - k)) ++ b.drop (k + 8)

/-- The last sample of the capture is taken and its records are formed. -/
def capDone (samples : List Int) (s : State) : State :=
  match s.cap with
  | none => s
  | some r =>
    let s := arbEnd 2 ((Tgt.ofCode r.target).getD .device) { s with cap := none }
    let x := capRecords r (zeroWord r.lost (sampleList r samples)) s
    doneO r.cmd x.2 x.1

/-- The target code of a lane. -/
def laneCode : LaneId → BitVec 16
  | .line n => Tgt.code (.line (some n))
  | .host n => Tgt.code (.host (some n))

/-- The eye scan of a lane ends, all 64 positions done or truncated by a substitution (R400, R401). -/
def scanDone (lane : LaneId) (bins : List Nat) (s : State) : State :=
  match s.scans.find? fun r => r.target == laneCode lane with
  | none => s
  | some r =>
    let s := { s with scans := s.scans.erase r }
    let s := if r.trunc then s else arbEnd 2 ((Tgt.ofCode r.target).getD .device) s
    let dn := if r.trunc then min 64 (bins.length / 64) else 64
    let body := [BitVec.ofNat 8 r.phase, BitVec.ofNat 8 r.dwell, BitVec.ofNat 8 (b2n r.trunc), BitVec.ofNat 8 dn, 0, 0, 0, 0] ++
      (List.range 4096).flatMap fun i => bytesLE 4 (if i < 64 * dn then bins.getD i 0 else 0)
    let x := tlmFormId 3 257 false 0 r.target r.time body s
    doneO r.cmd x.2 x.1

/-- Captures and scans that run end without their records: their lane, the memory or firmware is gone. -/
def capDrop (p : CapRun → Bool) (st : Byte) (s : State) : State :=
  let out := (match s.cap with | some r => [r] | none => []) ++ s.scans
  let s := { s with cap := s.cap.filter fun r => !p r, scans := s.scans.filter fun r => !p r }
  (out.filter p).foldl (fun s r =>
    let s := if r.trunc then s else arbEnd 2 ((Tgt.ofCode r.target).getD .device) s
    refuseO r.cmd st s) s

/-- POWER switches PD_10 off: retained records and captures go (R395). -/
def tlmDiscard (s : State) : State :=
  let s := capDrop (fun _ => true) stPoweredOff s
  let k := s.tlm.recs.length
  let ring := match s.tlm.recs.head? with
    | some r => match r.ring with | some x => x.val | none => (routeOfType s r.typ).val
    | none => 0
  raise 0x027 (pay2 ring (satU 16 k)) { s with tlm := { s.tlm with recs := [] } }

def execCaptureDone (samples : List Int) (s : State) : Host.Outcome State Fault Refusal := .next (capDone samples s)
def execEyeScanDone (lane : LaneId) (bins : List Nat) (s : State) : Host.Outcome State Fault Refusal := .next (scanDone lane bins s)

end Sys2Proof.Machine
end

