-- ==== Sys2Proof/Machine/Integrity.lean ====
section
/-! DEFINITION. Check engine, ECC and scrubbing, the set-up register scrub (chapter 14). -/

namespace Sys2Proof.Machine

/-! ### CHECK_RUN (R403 to R408) -/

def chkJobOf (c : Cmd) : ChkJob :=
  { cmd := c, chan := c.p 0, flags := BitVec.ofNat 8 (c.p 1), w := c.p 2, space := c.p 3, len := c.le 4 4
    start := c.d.time.toNat, poly := BitVec.ofNat 64 (c.le 8 8), init := BitVec.ofNat 64 (c.le 16 8)
    ctx := BitVec.ofNat 64 (c.le 24 8), expect := BitVec.ofNat 64 (c.le 32 8), ord := 0, began := 0 }

/-- Size of an on-chip space (Table 14.2); host memory reaches to 2⁶⁴. -/
def spaceSize : Nat → Nat
  | 1 => 2 ^ 16
  | 2 => 2 ^ 22
  | 3 => 2 ^ 21
  | _ => 2 ^ 64

def parCheckRun (c : Cmd) (s : State) : Bool :=
  let j := chkJobOf c
  (decide (j.chan < 4) || j.chan == 0xFF) && decide (c.p 1 < 32) && decide (8 ≤ j.w) && decide (j.w ≤ 64) && decide (j.space < 4) &&
  j.len != 0 && decide (j.poly.toNat < 2 ^ j.w) && decide (j.init.toNat < 2 ^ j.w) && decide (j.expect.toNat < 2 ^ j.w) &&
  decide (j.start + j.len ≤ spaceSize j.space) && !(j.space == 0 && localMode s) && c.clear 40 44

/-- A running scan begins. -/
def chkStart (k : Fin 4) (j : ChkJob) (s : State) : State :=
  modChk (fun x => { x with ch := upd x.ch k fun c => { c with job := some { j with began := s.clk }, done := 0 } }) s

def chkFree (s : State) : Option (Fin 4) := (List.finRange 4).find? fun k => s.chk.ch[k].job.isNone

/-- CHECK_RUN accepted: it runs, waits, or is turned away (R405). -/
def actCheckRun (c : Cmd) (s : State) : State :=
  let j := { chkJobOf c with ord := s.chk.seq }
  let s := modChk (fun x => { x with seq := x.seq + 1 }) s
  if j.space = 2 ∧ !domOn s 10 then refuse c stPoweredOff s
  else if j.chan = 0xFF then
    match chkFree s with
    | some k => chkStart k j s
    | none =>
      if s.chk.anyWait.length < 4 then modChk (fun x => { x with anyWait := x.anyWait ++ [j] }) s
      else answer c stInternal true (now s) 1 s
  else
    let k := Fin.ofNat 4 j.chan
    if s.chk.ch[k].job.isNone then chkStart k j s
    else if s.chk.ch[k].wait.length < 4 then
      modChk (fun x => { x with ch := upd x.ch k fun y => { y with wait := y.wait ++ [j] } }) s
    else answer c stInternal true (now s) 1 s

/-- Waiting scans of capture and telemetry memory are answered POWERED_OFF with PD_10 off (R404). -/
def chkPurge (s : State) : State :=
  if domOn s 10 then s
  else
    let off (j : ChkJob) : Bool := j.space == 2
    let out := (s.chk.ch.toList.flatMap (·.wait) ++ s.chk.anyWait).filter off
    out.foldl (fun s j => refuse j.cmd stPoweredOff s)
      (modChk (fun x => { x with ch := x.ch.map fun c => { c with wait := c.wait.filter fun j => !off j }
                                 anyWait := x.anyWait.filter fun j => !off j }) s)

/-- A channel that has become free takes the command accepted first among those that may use it (R405). -/
def chkNext (k : Fin 4) (s : State) : State :=
  let s := chkPurge s
  match s.chk.ch[k].wait, s.chk.anyWait with
  | [], [] => s
  | j :: l, [] => chkStart k j (modChk (fun x => { x with ch := upd x.ch k fun y => { y with wait := l } }) s)
  | [], j :: l => chkStart k j (modChk (fun x => { x with anyWait := l }) s)
  | j :: l, i :: m =>
    if i.ord < j.ord then chkStart k i (modChk (fun x => { x with anyWait := m }) s)
    else chkStart k j (modChk (fun x => { x with ch := upd x.ch k fun y => { y with wait := l } }) s)

/-- The result of R403 over the bytes scanned. -/
def chkValue (j : ChkJob) (bytes : List Byte) : Nat :=
  let pre := if bit j.flags 3 then bytesLE 8 j.ctx.toNat else []
  crc j.w j.poly.toNat j.init.toNat (bit j.flags 0) (bit j.flags 1) (bit j.flags 2) (pre ++ bytes)

/-! ### Uncorrectable words (R412, R414) -/

/-- Records of the calibration store as the draws name them: the store's layout is not in the spec, so which record holds a word
is free. -/
def recordInvalid (s : State) : State :=
  let a := draw s
  let b := draw a.2
  let c := draw b.2
  let s := c.2
  let n : Fin 8 := Fin.ofNat 8 b.1
  match a.1 % 5 with
  | 1 =>
    -- a calibration set of a converter is dropped; a slice left without one forces its target
    match allConvs[b.1 % 32]? with
    | none => s
    | some v =>
      let k := c.1 % 65
      match (getConv s v).cal[k]? with
      | none => s
      | some x =>
        let s := modConv v (fun y => { y with cal := y.cal.modify k fun z => { z with sets := z.sets.drop 1 } }) s
        let t := calIdx (.conv v)
        if x.sets.length = 1 ∧ !s.cal.forced.contains t then modCal (fun q => { q with forced := q.forced ++ [t] }) s else s
  | 2 =>
    let i : Fin 16 := Fin.ofNat 16 b.1
    let t := calIdx (if i.val < 2 then .mon (Fin.ofNat 2 i.val) else .sensor (Fin.ofNat 14 (i.val - 2)))
    let one := s.cal.single[i].sets.length == 1
    let s := modCal (fun q => { q with single := upd q.single i fun z => { z with sets := z.sets.drop 1 } }) s
    if one ∧ !s.cal.forced.contains t then modCal (fun q => { q with forced := q.forced ++ [t] }) s else s
  | 0 =>
    -- a map; with the converter's domain on the live map is authoritative, and the stored one is rewritten from it
    match allConvs[b.1 % 32]? with
    | none => s
    | some v => if domOn s (calDomain (.conv v)) then s else modConv v (fun y => { y with mapBad := min 2 (y.mapBad + 1) }) s
  | 3 => modEq n (fun e => { e with stored := none, voided := [] }) s
  | 4 => modTx n (fun x => { x with lastGood := none }) s
  | _ => s

/-- The count, the event and LAST_MEM of an uncorrectable word. -/
def eccNote (mem addr : Nat) (s : State) : State :=
  raise 0x1F1 (pay2 mem addr) (modChk (fun x => { x with unc := satU 8 (x.unc + 1), lastMem := mem }) s)

/-- A corrected word (R411). -/
def eccCorr (mem addr : Nat) (s : State) : State :=
  raiseLimited 0x1F0 0 (pay2 mem addr) (countDev 0x8A 1 (modChk (fun x => { x with corr := satU 16 (x.corr + 1) }) s))

/-- Capture and telemetry memory: a capture under way, or a retained record, holds the word (Table 14.4). -/
def tlmWordLost (s : State) : State :=
  let a := draw s
  let b := draw a.2
  let s := b.2
  match a.1 % 3 with
  | 1 => { s with cap := s.cap.map fun r => { r with subst := 0xFFFFFFFE, lost := some b.1 } }
  | 2 =>
    match s.tlm.recs[b.1 % max s.tlm.recs.length 1]? with
    | none => s
    | some r =>
      let ring := match r.ring with | some x => x.val | none => (routeOfType s r.typ).val
      raise 0x027 (pay2 ring 1) { s with tlm := { s.tlm with recs := s.tlm.recs.erase r } }
  | _ => s

/-- Local ring memory: what the word's eight bytes hold from now on is open; the host's check finds it. -/
def ringWordLost (addr : Nat) (s : State) : State :=
  let d := draw s
  { d.2 with lmem := Memory.write d.2.lmem (8 * (addr % 8192)) (bytesLE 8 d.1) }

/-- Uncorrectable words that a scan can meet: calibration store, capture and telemetry memory, local ring memory. -/
def eccUnc (mem addr : Nat) (s : State) : State :=
  let s := eccNote mem addr s
  match mem with
  | 0 => recordInvalid s
  | 1 => tlmWordLost s
  | 2 => ringWordLost addr s
  | _ => s

/-- Memory code of an on-chip space. -/
def spaceMem : Nat → Nat
  | 1 => 2
  | 2 => 1
  | _ => 0

/-- A scan ends (R407, R408). Space 1 is the ring memory of the state itself. -/
def chkDone (k : Fin 4) (r : ScanEnd) (s : State) : State :=
  match s.chk.ch[k].job with
  | none => s
  | some j =>
    let early (dn code : Nat) (s : State) : State :=
      chkNext k (answer j.cmd stInternal true (now s) code
        (modChk (fun x => { x with ch := upd x.ch k fun y => { y with job := none, err := true, done := min dn j.len } }) s))
    match r with
    | .complete bytes =>
      -- without memory requests a scan of host memory does not go on (R280, R406)
      if j.space = 0 ∧ !busOk s then s else
      let data := if j.space = 1 then Memory.read s.lmem j.start j.len else fit j.len bytes
      let v := chkValue j data
      let bad := bit j.flags 4 && v != j.expect.toNat
      let s := modChk (fun x => { x with ch := upd x.ch k fun y =>
        { y with job := none, err := false, mismatch := bad, res := BitVec.ofNat 64 v, done := j.len } }) s
      let s := if bad then raise 0x1F3 (pay1 k.val) s else s
      chkNext k (done j.cmd v s)
    | .hostReadFailed dn st =>
      if j.space = 0 then early dn 2 (aerNote st (raise 0x1F6 (pay2 k.val st) s)) else s
    | .uncorrectable dn addr =>
      if j.space = 0 then s else early dn 3 (eccUnc (spaceMem j.space) addr s)

/-- PD_10 switches off under scans of it (R407): how far they came is not commanded. -/
def chkPowerOff (s : State) : State :=
  forFin 4 (fun k s =>
    match s.chk.ch[k].job with
    | none => s
    | some j =>
      if j.space = 2 then
        let d := draw s
        chkNext k (answer j.cmd stInternal true (now s) 4
          (modChk (fun x => { x with ch := upd x.ch k fun y =>
            { y with job := none, err := true, done := d.1 % (j.len + 1) } }) d.2))
      else s) s

/-- A reset that reaches the management plane abandons every scan (R407). -/
def chkAbandon (control : Bool) (s : State) : State :=
  let cmds := (s.chk.ch.toList.flatMap fun c =>
    (match c.job with | some j => [j.cmd] | none => []) ++ c.wait.map (·.cmd)) ++ s.chk.anyWait.map (·.cmd)
  modChk (fun x => { x with
    ch := x.ch.map fun c => { c with job := none, wait := [] }
    anyWait := [], abandoned := if control then [] else x.abandoned ++ cmds }) s

/-- Firmware runs again and answers what was abandoned. -/
def chkAnswer (s : State) : State :=
  let l := s.chk.abandoned
  l.foldl (fun s c => answer c stInternal true (now s) 5 s) (modChk (fun x => { x with abandoned := [] }) s)

/-! ### Scrubbing -/

def scrubCfg (s : State) : Word := reg s 0x7080

/-- CAL_PERIOD in ticks; a value out of range is taken as 100 (Table 14.10). -/
def scrubPeriod (s : State) : Nat :=
  let p := bits (scrubCfg s) 0 16
  1562500 * (if 10 ≤ p ∧ p ≤ 6000 then p else 100)

/-- The next block is due, the 32 of a pass being spread evenly over CAL_PERIOD, and its 200 µs lie inside a window that admits class
M7 (R265, R410). -/
def scrubDue (s : State) : Bool :=
  bit (scrubCfg s) 31 && s.rst.mgmtRun && !s.chk.scrub && decide (32 * s.chk.passAt + s.chk.calBlock * scrubPeriod s ≤ 32 * s.clk) &&
  fits s (windowEnd s 7 .device) 200

/-- Firmware starts a block as soon as the arbiter admits it: it is held as an activity of class M7 to its end (R330, R410). -/
def scrubTry (s : State) : State :=
  if scrubDue s && (arbHolder s 7 .device).isNone && (slotClaim s 7 false .device).isNone then
    modChk (fun x => { x with scrub := true }) (arbAdmit 7 .device s)
  else s

/-- The block that is being scrubbed has been scrubbed: with the last one of a pass the pass is complete (R410). -/
def scrubBlock (ecc : Option EccOutcome) (addr : Nat) (s : State) : State :=
  if !s.chk.scrub then s
  else
    let s := arbEnd 7 .device s
    let last := s.chk.calBlock == 31
    let s := modChk (fun x => { x with
      scrub := false, calBlock := (x.calBlock + 1) % 32, calPasses := if last then x.calPasses + 1 else x.calPasses
      late := x.late && !last, passAt := if last then max (x.passAt + scrubPeriod s) s.clk else x.passAt }) s
    match ecc with
    | none => s
    | some .single => eccCorr 0 addr s
    | some .double => eccUnc 0 addr s
    | some .check => recordInvalid s

/-- A pass has not completed within twice CAL_PERIOD: reported once per pass (R410). -/
def scrubOverdue (s : State) : State :=
  if bit (scrubCfg s) 31 && !s.chk.late && decide (s.chk.passAt + 2 * scrubPeriod s ≤ s.clk) then
    raise 0x1F4 (pay1 s.chk.calBlock) (modChk (fun x => { x with overdue := satU 8 (x.overdue + 1), late := true }) s)
  else s

/-- In sleep the refresh corrects each row that it refreshes (Table 14.3); an uncorrectable word, or a record whose check does not
match, makes its record invalid. -/
def storeRefresh (ecc : Option EccOutcome) (s : State) : State :=
  match s.rst.sleep, ecc with
  | .asleep _ _ _, some .double => recordInvalid s
  | .asleep _ _ _, some .check => recordInvalid s
  | _, _ => s

/-! ### The set-up register scrub (R415) -/

/-- The lowest bits of the fields of a set-up register (Tables 5.13, 8.11, 8.15, 9.4, 9.5, 14.10, 15.14, 17.4, 18.10); a register not
named is one field. -/
def fieldStarts (off : Nat) : Word :=
  if off = 0x24 then 0x00000F69
  else if off = 0x1020 ∨ off = 0x4018 ∨ off = 0x401C then 0x80000001
  else if off = 0x3000 then 0x81000101
  else if off = 0x4000 then 0x1D000001
  else if off = 0x7080 then 0xE0000001
  else if off = 0x8070 then 0x11111111
  else if 0xA000 ≤ off ∧ off < 0xA010 then 0x0101010F
  else match ringAt off with
    | some (_, 0) => 0x00001040
    | some (.cmd _, 2) => 0xC1001100
    | some (_, 2) => 0x81010101
    | _ => 1

/-- How many fields of a register differ where these bits do. -/
def fieldsIn (off : Nat) (diff : Word) : Nat :=
  ((List.range 32).foldl (fun (a : Bool × Nat) i =>
    let open_ := if bit (fieldStarts off) i then true else a.1
    if open_ && bit diff i then (false, a.2 + 1) else (open_, a.2)) (false, 0)).2

/-- The domain that holds a set-up register (Tables 15.6 and 18.1, log entry 79). -/
def setupDomain (off : Nat) : Nat :=
  if off = 0x24 ∨ (0x1000 ≤ off ∧ off < 0x2000) ∨ (0x3000 ≤ off ∧ off < 0x4000) then 0
  else if off < 0x3000 then 2
  else if off < 0x5000 then 3
  else if off < 0x6000 then 4
  else if off < 0x7000 then 5
  else if off < 0x8000 then 6
  else if off < 0x9000 then 1
  else if off < 0xA000 then 6
  else 11

/-- Bits of a set-up register change without a write: the field no longer agrees with its shadow (R415, R417). -/
def fieldUpset (off : Nat) (flip : Word) (s : State) : State :=
  match setupSpec off with
  | none => s
  | some (rw, rwl, _) =>
    let v := reg s off ^^^ (flip &&& (rw ||| rwl))
    { s with setup := if v = setupReset off then assocDel s.setup off else assocSet s.setup off v }

/-- A register whose fields differ from their shadows is restored, one event and one count for each such field. -/
def fieldRestore (off : Nat) (s : State) : State :=
  let k := fieldsIn off (reg s off ^^^ shadowReg s off)
  (List.range k).foldl (fun s _ => raise 0x1F2 (pay1 off) s)
    (modChk (fun x => { x with upsets := satU 16 (x.upsets + k), lastWord := off / 4 }) (regSet off (shadowReg s off) s))

/-- A pass of the set-up register scrub (R415) over the registers whose domain is on. -/
def shadowPass (s : State) : State :=
  if !bit (scrubCfg s) 29 then s
  else
    ((s.setup ++ s.shadow).map (·.1)).eraseDups.foldl (fun (s : State) off =>
      if reg s off = shadowReg s off || !domOn s (setupDomain off) then s else fieldRestore off s) s

/-- The pass, and then the upset that the millisecond after it brings, if any: until the next pass the device acts on the upset value. -/
def shadowCompare (upset : Option (Nat × Word)) (s : State) : State :=
  let s := shadowPass s
  match upset with
  | none => s
  | some (off, flip) => fieldUpset off flip s

def execCheckScanDone (k : Fin 4) (r : ScanEnd) (s : State) : Host.Outcome State Fault Refusal := .next (chkDone k r s)
def execScrubBlockDone (ecc : Option EccOutcome) (addr : Nat) (s : State) : Host.Outcome State Fault Refusal :=
  .next (scrubBlock ecc addr s)
def execScrubOverdue (s : State) : Host.Outcome State Fault Refusal := .next (scrubOverdue s)
def execCalibrationStoreRefresh (ecc : Option EccOutcome) (_addr : Nat) (s : State) : Host.Outcome State Fault Refusal :=
  .next (storeRefresh ecc s)
def execShadowCompare (upset : Option (Nat × Word)) (s : State) : Host.Outcome State Fault Refusal := .next (shadowCompare upset s)

end Sys2Proof.Machine
end

