-- ==== Sys2Proof/Machine/Power.lean ====
section
/-! DEFINITION. The sequencer: power-domain transitions (R35, R36, R433 to R435) and the POWER command. -/

namespace Sys2Proof.Machine

/-! ### Dependencies (R434) -/

/-- A line lane's index from its receive or transmit domain, and the domains that a domain needs. -/
def domNeeds (k : Nat) : List Nat :=
  if 12 ≤ k ∧ k < 28 then [44 + (k - 12) % 8 / 2, 48]
  else if 28 ≤ k ∧ k < 44 then [48]
  else []

def isLaneDom (k : Nat) : Bool := decide (12 ≤ k) && decide (k < 44)

/-- The state in which the transitions that run and wait will leave a domain. -/
def domEnd (s : State) (k : Nat) : Bool :=
  ((match s.rst.cur with | some t => [t] | none => []) ++ s.rst.queue).foldl
    (fun b (t : Transition) => if t.dom.val = k then t.on else b) (domOn s k)

/-- Switching a domain would break a dependency, by the states given. -/
def domBreaks (st : Nat → Bool) (k : Nat) (on : Bool) : Bool :=
  if on then !(domNeeds k).all st
  else (List.range 44).any fun d => isLaneDom d && st d && (domNeeds d).contains k

/-! ### What a domain's switching does -/

def domSet (k : Fin 50) (on : Bool) (s : State) : State := modRst (fun r => { r with on := r.on.set k on }) s

/-- Transactions of the optics control port that wait or run end with PD_11. -/
def ocpDrop (s : State) : State :=
  let l := s.ocp
  let s := l.foldl (fun s t => match t.what with
    | .xfer c => refuse c stPoweredOff s
    | _ => ocpDropped t s) { s with ocp := [] }
  forFin 8 drvSettled s

/-- The outer code and crossbar lose their state with PD_48. -/
def outerClear (s : State) : State :=
  { s with ports := s.ports.map fun p =>
      winClear { p with raw := List.replicate 16 [], amLock0 := false, amLock1 := false, bad0 := 0, bad1 := 0, sqDeskew := false, sqIdentity := false
                        sqBuffers := false, latTx := 0, latRx := 0 } }

/-- A domain has been isolated and is off. -/
def domOffEffects (k : Nat) (s : State) : State :=
  let s :=
    if 12 ≤ k ∧ k < 20 then
      let n := Fin.ofNat 8 (k - 12)
      let s := capDrop (fun r => r.target == Tgt.code (.line (some n))) stPoweredOff s
      modTx n (fun x => { x with trnState := 0 }) (linePathOff n (trnDrop n s))
    else if 20 ≤ k ∧ k < 28 then lineTxOff (Fin.ofNat 8 (k - 20)) s
    else if 28 ≤ k ∧ k < 44 then
      let n := Fin.ofNat 16 (k - 28)
      hostOff n (capDrop (fun r => r.target == Tgt.code (.host (some n))) stPoweredOff s)
    else if 44 ≤ k ∧ k < 48 then frmClear (Fin.ofNat 8 (2 * (k - 44))) (frmClear (Fin.ofNat 8 (2 * (k - 44) + 1)) s)
    else if k = 48 then outerClear s
    else if k = 10 then chkPowerOff (tlmDiscard (drainStop 1 (drainStop 0 s)))
    else if k = 11 then ocpDrop s
    else s
  calPrune s

/-- A converter's map is read as its domain switches on (R414): with one copy invalid the other serves; with both, the map of R77, and
every slice, segment and spare is calibrated in turn. -/
def mapLoad (c : ConvId) (s : State) : State :=
  let x := getConv s c
  if x.mapBad < 2 then modConv c (fun x => { x with mapBad := 0 }) s
  else
    let n := x.roles.length
    let t := calIdx (.conv c)
    modCal (fun q => { q with forced := if q.forced.contains t then q.forced else q.forced ++ [t] })
      (modConv c (fun x => { x with roles := (Converter.por (n - 1)).roles, mapBad := 0, owed := n }) s)

/-- Types of records that firmware drains from a converter's buffer: a ring that takes them is enabled (R360). -/
def drainAgain (s : State) : State :=
  if ringEn s (.tlm (routeOfType s 5)) then drainAll s else s

/-- A domain is on and power-good: what it holds may leave OFF (R41, R434). -/
def domOnEffects (k : Nat) (s : State) : State :=
  let s := ((allConvs.filter fun c => calDomain (.conv c) == k)).foldl (fun s c => mapLoad c s) s
  if k = 10 then drainAgain s
  else if 12 ≤ k ∧ k < 20 then rxMayLeave (Fin.ofNat 8 (k - 12)) s
  else if 20 ≤ k ∧ k < 28 then txUpdate (Fin.ofNat 8 (k - 20)) s
  else if 28 ≤ k ∧ k < 44 then hostMayLeave (Fin.ofNat 16 (k - 28)) s
  else s

/-! ### The queue (R36) -/

/-- A converter of the domain is in steps 2 to 4 of a swap: a power-off takes effect at its end (R81, R154, R211). -/
def domSwapping (s : State) (k : Nat) : Bool := allConvs.any fun c => (getConv s c).run.isSome && calDomain (.conv c) == k

/-- A domain goes off, now or at the end of the swap. -/
def domOff (k : Fin 50) (s : State) : State :=
  if domSwapping s k.val then { s with late := s.late ++ [.dom k] } else domOffEffects k.val (domSet k false s)

/-- A domain whose switching off still waits goes off now. -/
def domOffLate (k : Fin 50) (s : State) : State :=
  if s.late.contains (.dom k) then domOffEffects k.val (domSet k false { s with late := s.late.erase (.dom k) }) else s

/-- Starts the first waiting transition that changes its domain and whose dependencies hold; a command whose expectations an
earlier failure or cancellation has spoilt is answered INTERNAL_FAULT. -/
def seqRun : List Transition → State → State
  | [], s => modRst (fun r => { r with queue := [] }) s
  | t :: l, s =>
    if domOn s t.dom.val = t.on then seqRun l (doneO t.cmd 0 s)
    else if domBreaks (domOn s) t.dom.val t.on then seqRun l (refuseO t.cmd stInternal s)
    else
      let s := modRst (fun r => { r with cur := some t, queue := l, seqDir := t.on, seqDom := t.dom.val }) s
      if t.on then s else domOff t.dom s

def seqNext (s : State) : State := if s.rst.cur.isSome then s else seqRun s.rst.queue s

/-- Requests reach the sequencer. -/
def seqPush (l : List Transition) (s : State) : State :=
  seqNext (modRst (fun r => { r with queue := r.queue ++ l }) s)

/-- The domains that each self-test group switches on at its start (Table 16.1). -/
def groupDoms : Nat → List Nat
  | 2 => [48, 44, 45, 12, 13, 14, 15, 20, 21, 22, 23]
  | 3 => [46, 47, 16, 17, 18, 19, 24, 25, 26, 27]
  | 4 => [28, 29, 30, 31, 32, 33, 34, 35]
  | 5 => [36, 37, 38, 39, 40, 41, 42, 43]
  | _ => []

/-- Whether a domain stays on that has just come up: not in a cold reset, and in a cold exit once the exit has reached it (R36, R435). -/
def domStays (s : State) (k : Nat) : Bool :=
  !coldHeld s && match s.rst.exits.find? (·.cold) with
    | none => true
    | some e => match e.step with
      | .trim _ => false
      | .pll => k == 8 || k == 9 || k == 49
      | .selfTest g => !((List.range 6).any fun j => decide (g < j) && (groupDoms j).contains k) &&
          (modeDom (modeOf s) k || !decide (12 ≤ k ∧ k ≤ 48))
      | .boot => true

/-- The transition under way ends: power-good, or the rail off. -/
def domDone (s : State) : State :=
  match s.rst.cur with
  | none => s
  | some t =>
    let s := domOffLate t.dom (modRst (fun r => { r with cur := none }) s)
    let s := if t.on && domStays s t.dom.val then domOnEffects t.dom.val (domSet t.dom true s) else s
    seqNext (doneO t.cmd 0 s)

/-- Power-good has not come within 200 µs (R434). -/
def domFailed (s : State) : State :=
  match s.rst.cur with
  | none => s
  | some t =>
    if !t.on then s
    else
      let s := modRst (fun r => { r with cur := none, failed := satU 8 (r.failed + 1) }) s
      seqNext (refuseO t.cmd stInternal (raise 0x013 (pay2 t.dom.val 1) s))

/-- A reset cancels the waiting transitions within its reach. -/
def seqCancel (reach : Nat → Bool) (level : Nat) (s : State) : State :=
  let out := s.rst.queue.filter fun t => reach t.dom.val
  let s := modRst (fun r => { r with queue := r.queue.filter fun t => !reach t.dom.val }) s
  out.foldl (fun s t => refuseO t.cmd stInternal (raise 0x014 (pay2 t.dom.val level) s)) s

/-! ### POWER -/

/-- The lane of a lane domain is one that the mode uses. -/
def domLaneUsed (s : State) (k : Nat) : Bool := !isLaneDom k || modeDom (modeOf s) k

def parPower (c : Cmd) (s : State) : Bool :=
  let k := c.p 0
  decide (10 ≤ k) && decide (k ≤ 48) && decide (c.p 1 ≤ 1) && c.clear 2 44 &&
  !(c.p 1 == 1 && !domLaneUsed s k) && !domBreaks (domEnd s) k (c.p 1 == 1)

/-- The sequencer takes the request; a shed entry whose domain the host switches on counts as restored (R375). -/
def actPower (c : Cmd) (s : State) : State :=
  let k := Fin.ofNat 50 (c.p 0)
  let on := c.p 1 == 1
  let s := if on && s.therm.shed.any (fun e => e.2.contains k) then
      modTherm (fun t => { t with shed := t.shed.filter fun e => !e.2.contains k, exhausted := false }) s
    else s
  seqPush [{ dom := k, on := on, cmd := some c }] s

def execDomainTransitionDone (s : State) : Host.Outcome State Fault Refusal := .next (domDone s)
def execDomainFailed (s : State) : Host.Outcome State Fault Refusal := .next (domFailed s)

end Sys2Proof.Machine
end

