-- ==== Sys2Proof/Machine/Banks.lean ====
section
/-! DEFINITION. Parameter banks: their registers, the shadow writes (BANK_WRITE, BANK_COPY, BANK_READ, COEF_LOAD, SET_MODE), and
what a bank breaks at a swap (R21 to R26, R52, R57, R90, R112, R147, R173, R224, R305). -/

namespace Sys2Proof.Machine

/-! ### Bank registers -/

def fieldIn (v : Word) (lo len a b : Nat) : Bool := decide (a ≤ bits v lo len) && decide (bits v lo len ≤ b)
def sfieldIn (v : Word) (lo len : Nat) (a b : Int) : Bool :=
  decide (a ≤ ofField len (bits v lo len)) && decide (ofField len (bits v lo len) ≤ b)

/-- Bits that a LINE bank register holds (Tables 3.7, 3.8, 4.8 to 4.11, 5.5 to 5.10); none: not a bank register. -/
def lineBankMask (off : Nat) : Option Word :=
  if off = 0x004 then some 0xFFFF1EFF
  else if off = 0x008 then some 0xCFFFFFFF
  else if off = 0x100 then some 0x01FF3FFF
  else if off = 0x104 then some 0x0FFFFFFF
  else if off = 0x108 ∨ off = 0x10C then some 0x83FF83FF
  else if off = 0x110 then some 0x0000FFFF
  else if off = 0x400 then some 0xFFF8FF7F
  else if off = 0x404 then some 0xFFFFF0FF
  else if off = 0x408 then some 0xE0FF00FF
  else if off = 0x42C then some 0x000003FF
  else if 0x410 ≤ off ∧ off < 0x42C ∧ off % 4 = 0 then some 0x03FF03FF
  else if 0x450 ≤ off ∧ off < 0x490 ∧ off % 4 = 0 then some 0xFFFFFFFF
  else none

/-- Ranges of single fields of a LINE bank register (R26). -/
def lineBankOk (off : Nat) (v : Word) : Bool :=
  match off with
  | 0x004 => fieldIn v 16 8 0x20 0x78 && fieldIn v 0 8 2 255
  | 0x100 => fieldIn v 16 2 0 1
  | 0x108 => sfieldIn v 0 10 (-512) 509 && sfieldIn v 16 10 (-512) 509
  | 0x10C => sfieldIn v 0 10 (-512) 509 && sfieldIn v 16 10 (-512) 509
  | 0x400 => fieldIn v 19 5 0 28 && fieldIn v 8 4 0 14
  | 0x404 => fieldIn v 16 16 16 65535 && fieldIn v 12 4 1 15
  | _ => true

def lineBankGet (b : LineBank) (off : Nat) : Word :=
  match off with
  | 0x004 => b.rxfe
  | 0x008 => b.tia
  | 0x100 => b.eqCtl
  | 0x104 => b.eqMu
  | 0x108 => b.fgPos0
  | 0x10C => b.fgPos1
  | 0x110 => b.qual
  | 0x400 => b.txCfg
  | 0x404 => b.trnCfg
  | 0x408 => b.drv
  | _ => if off < 0x450 then b.fir.getD ((off - 0x410) / 4) 0 else b.nlpd.getD ((off - 0x450) / 4) 0

def lineBankPut (off : Nat) (v : Word) (b : LineBank) : LineBank :=
  let b := { b with bad := b.bad.filter (· != off) }
  match off with
  | 0x004 => { b with rxfe := v }
  | 0x008 => { b with tia := v }
  | 0x100 => { b with eqCtl := v }
  | 0x104 => { b with eqMu := v }
  | 0x108 => { b with fgPos0 := v }
  | 0x10C => { b with fgPos1 := v }
  | 0x110 => { b with qual := v }
  | 0x400 => { b with txCfg := v }
  | 0x404 => { b with trnCfg := v }
  | 0x408 => { b with drv := v }
  | _ => if off < 0x450 then { b with fir := b.fir.set ((off - 0x410) / 4) v } else { b with nlpd := b.nlpd.set ((off - 0x450) / 4) v }

/-- HOST bank registers (Tables 7.6 to 7.10). -/
def hostBankMask (off : Nat) : Option Word :=
  match off with
  | 0x004 => some 0x0003DF3F
  | 0x008 => some 0x00FFF39F
  | 0x00C => some 0x00010F0F
  | 0x010 => some 0xFFFFFFFF
  | 0x014 => some 0x0000FFFF
  | 0x018 => some 0x00000377
  | _ => none

/-- Ranges of single fields of a HOST bank register, those of Table 7.3 among them. -/
def hostBankOk (off : Nat) (v : Word) : Bool :=
  match off with
  | 0x004 => fieldIn v 16 2 0 2 && fieldIn v 8 5 0 24 && fieldIn v 0 6 0 40
  | 0x008 => fieldIn v 0 5 0 23
  | 0x010 => sfieldIn v 0 8 (-8) 8 && sfieldIn v 8 8 (-12) 12 && sfieldIn v 16 8 (-24) 0 && sfieldIn v 24 8 32 64
  | 0x014 => sfieldIn v 0 8 (-16) 0 && sfieldIn v 8 8 (-8) 8
  | 0x018 => fieldIn v 0 3 0 4 && fieldIn v 4 3 0 3
  | _ => true

def hostBankGet (b : HostBank) (off : Nat) : Word :=
  match off with
  | 0x004 => b.rxCfg
  | 0x008 => b.eqCfg
  | 0x00C => b.txCfg
  | 0x010 => b.firLo
  | 0x014 => b.firHi
  | _ => b.test

def hostBankPut (off : Nat) (v : Word) (b : HostBank) : HostBank :=
  let b := { b with bad := b.bad.filter (· != off) }
  match off with
  | 0x004 => { b with rxCfg := v }
  | 0x008 => { b with eqCfg := v }
  | 0x00C => { b with txCfg := v }
  | 0x010 => { b with firLo := v }
  | 0x014 => { b with firHi := v }
  | _ => { b with test := v }

/-- PORT bank registers (Tables 2.7, 2.8, 6.12). -/
def portBankMask (off : Nat) : Option Word :=
  match off with
  | 0x000 => some 0x01FF70FF
  | 0x008 => some 0xFFFFFFFF
  | 0x00C => some 0xFFFFFFFF
  | 0x080 => some 0xFFFF1F01
  | _ => none

/-- A port that its bank leaves unused reads 0 in its CFG (Table 2.7). -/
def portBankGet (b : PortBank) (off : Nat) : Word :=
  match off with
  | 0x000 => if bit b.cfg 7 then b.cfg else 0
  | 0x008 => b.mapLo
  | 0x00C => b.mapHi
  | _ => b.fec

/-- Only CORRECT, and CODE while the shadow bank's MODE is 4, may differ from the shadow values in force (R59). -/
def portBankOk (b : PortBank) (off : Nat) (v : Word) : Bool :=
  match off with
  | 0x000 =>
    let m4 := bit b.cfg 7 && bits b.cfg 0 3 == 4
    let free : Word := if m4 then 0x70 else 0x40
    ((v ^^^ portBankGet b 0x000) &&& ~~~free) == 0 && (!m4 || fieldIn v 4 2 2 3)
  | 0x080 => fieldIn v 8 5 16 30
  | _ => true

/-- Positions at or above HOST_CNT are stored as 0 (R51). -/
def mapMask (cnt lo : Nat) (v : Word) : Word :=
  (List.range 8).foldl (fun (w : Word) k => if lo + k < cnt then w ||| (v &&& BitVec.ofNat 32 (15 * 16 ^ k)) else w) 0

def portBankPut (off : Nat) (v : Word) (b : PortBank) : PortBank :=
  let b := { b with bad := b.bad.filter (· != off) }
  match off with
  | 0x000 => if bit b.cfg 7 then { b with cfg := v } else b
  | 0x008 => { b with mapLo := mapMask (hostCnt b) 0 v }
  | 0x00C => { b with mapHi := mapMask (hostCnt b) 8 v }
  | _ => { b with fec := v }

/-! ### Shadow writes -/

/-- A single block that a bank command names. -/
inductive Block where
  | line (n : Fin 8)
  | host (n : Fin 16)
  | port (p : Fin 8)
  deriving DecidableEq, Repr

def Block.code : Block → BitVec 16
  | .line n => Tgt.code (.line (some n))
  | .host n => Tgt.code (.host (some n))
  | .port p => Tgt.code (.port (some p))

def Block.tgt : Block → Tgt
  | .line n => .line (some n)
  | .host n => .host (some n)
  | .port p => .port (some p)

/-- The blocks that a target stands for: one, every instance of a type, or every bank. -/
def blocksOf : Tgt → List Block
  | .line (some n) => [.line n]
  | .line none => (List.finRange 8).map .line
  | .host (some n) => [.host n]
  | .host none => (List.finRange 16).map .host
  | .port (some p) => [.port p]
  | .port none => (List.finRange 8).map .port
  | .device => (List.finRange 8).map .line ++ (List.finRange 16).map .host ++ (List.finRange 8).map .port
  | _ => []

def shadowMask : Block → Nat → Option Word
  | .line _, off => lineBankMask off
  | .host _, off => hostBankMask off
  | .port _, off => portBankMask off

def shadowOk (s : State) (b : Block) (off : Nat) (v : Word) : Bool := match b with
  | .line _ => lineBankOk off v
  | .host _ => hostBankOk off v
  | .port p => portBankOk s.ports[p].shd off v

def shadowGet (s : State) (b : Block) (off : Nat) : Word := match b with
  | .line n => lineBankGet s.lines[n].shd off
  | .host n => hostBankGet s.hosts[n].shd off
  | .port p => portBankGet s.ports[p].shd off

/-- A shadow register takes a value; a word of it, or of the active bank's, that was lost counts as rewritten (Table 14.4). -/
def shadowPut (b : Block) (off : Nat) (v : Word) (s : State) : State :=
  let fresh (l : List Nat) : List Nat := l.filter (· != off)
  match b with
  | .line n => modLine n (fun l => { l with shd := lineBankPut off v l.shd, act := { l.act with bad := fresh l.act.bad } }) s
  | .host n => modHost n (fun h => { h with shd := hostBankPut off v h.shd, act := { h.act with bad := fresh h.act.bad } }) s
  | .port p => modPort p (fun x => { x with shd := portBankPut off v x.shd, act := { x.act with bad := fresh x.act.bad } }) s

/-- Entries of a BANK_WRITE: offset and value. -/
def bankEntries (c : Cmd) : List (Nat × Word) :=
  (List.range (c.p 0)).map fun i => (c.le (2 + 6 * i) 2, BitVec.ofNat 32 (c.le (4 + 6 * i) 4))

/-- The blocks that a BANK_WRITE writes: with PORT 0xFF the ports that neither bank uses are skipped. -/
def bankTargets (s : State) (c : Cmd) : List Block := match c.tgt with
  | some (.port none) => (blocksOf (.port none)).filter fun b => match b with | .port p => portKnown s p | _ => true
  | some t => blocksOf t
  | none => []

def entryOk (s : State) (b : Block) (e : Nat × Word) : Bool := match shadowMask b e.1 with
  | some m => shadowOk s b e.1 (e.2 &&& m)
  | none => false

def parBankWrite (c : Cmd) (s : State) : Bool :=
  decide (1 ≤ c.p 0) && decide (c.p 0 ≤ 7) && c.clear 1 2 && c.clear (2 + 6 * c.p 0) 44 &&
  (bankTargets s c).all fun b => (bankEntries c).all fun e => entryOk s b e

def actBankWrite (c : Cmd) (s : State) : State :=
  done c 0 ((bankTargets s c).foldl (fun s b =>
    (bankEntries c).foldl (fun s e => shadowPut b e.1 (e.2 &&& (shadowMask b e.1).getD 0) s) s) s)

/-- A single LINE, HOST or PORT instance, the port one that either bank uses (R295). -/
def tgtBank (c : Cmd) (s : State) : Bool := match c.tgt with
  | some (.line (some _)) => true
  | some (.host (some _)) => true
  | some (.port (some p)) => portKnown s p
  | _ => false

/-- BANK_WRITE also takes instance 0xFF. -/
def tgtBankWrite (c : Cmd) (s : State) : Bool := match c.tgt with
  | some (.line none) => true
  | some (.host none) => true
  | some (.port none) => true
  | _ => tgtBank c s

/-- The active bank's settings, which the lanes' own registers hold, go into the shadow bank; lost words of both are rewritten
(R28, Table 14.4). -/
def bankCopy (b : Block) (s : State) : State := match b with
  | .line n => modLine n (fun l => let a := { l.act with bad := [] }; { l with act := a, shd := a }) s
  | .host n => modHost n (fun h => let a := { h.act with bad := [] }; { h with act := a, shd := a }) s
  | .port p => modPort p (fun x => let a := { x.act with bad := [] }; { x with act := a, shd := a }) s

def parNone (c : Cmd) : Bool := c.clear 0 44

def actBankCopy (c : Cmd) (s : State) : State :=
  done c 0 ((blocksOf (c.tgt.getD .reed)).foldl (fun s b => bankCopy b s) s)

def parBankRead (c : Cmd) : Bool :=
  c.clear 2 44 && match blocksOf (c.tgt.getD .reed) with
    | [b] => (shadowMask b (c.le 0 2)).isSome
    | _ => false

def actBankRead (c : Cmd) (s : State) : State :=
  match blocksOf (c.tgt.getD .reed) with
  | [b] => done c (shadowGet s b (c.le 0 2)).toNat s
  | _ => s

/-- COEF_LOAD: table sizes, and the bounds of its values: the fields of Table 4.7, and for h1, h2 and OFS the ranges of R124. -/
def coefSize : Nat → Nat
  | 0 => 64
  | 1 => 16
  | 2 => 15
  | 3 => 3
  | _ => 0

def coefBounds (t i : Nat) : Int × Int :=
  if t < 2 then (-2048, 2047) else if t = 2 then (-512, 511) else if i < 2 then (-384, 384) else (-32, 32)

def coefValue (c : Cmd) (k : Nat) : Nat := c.le (4 + 2 * k) 2

def parCoefLoad (c : Cmd) : Bool :=
  let t := c.p 0
  decide (t < 4) && decide (1 ≤ c.p 2) && decide (c.p 2 ≤ 16) && decide (c.p 1 + c.p 2 ≤ coefSize t) && c.clear 3 4 &&
  c.clear (4 + 2 * c.p 2) 44 &&
  (List.range (c.p 2)).all fun k =>
    let b := coefBounds t (c.p 1 + k)
    let v := ofField 16 (coefValue c k)
    decide (b.1 ≤ v) && decide (v ≤ b.2)

def tgtLine (c : Cmd) : Option (Fin 8) := match c.tgt with
  | some (.line (some n)) => some n
  | _ => none

def actCoefLoad (c : Cmd) (s : State) : State :=
  match tgtLine c with
  | none => s
  | some n =>
    let put (l : List (BitVec 16)) : List (BitVec 16) :=
      (List.range (c.p 2)).foldl (fun (l : List (BitVec 16)) k => l.set (c.p 1 + k) (BitVec.ofNat 16 (coefValue c k))) l
    done c 0 (modLine n (fun l =>
      let b := l.shd
      { l with shd := match c.p 0 with
        | 0 => { b with initMain := put b.initMain }
        | 1 => { b with initFg := put b.initFg }
        | 2 => { b with initNl := put b.initNl }
        | _ => { b with initTgt := put b.initTgt } }) s)

/-- SET_MODE (R56, R305): parameters, and the shadow banks of every target filled with the mode's defaults. -/
def parSetMode (c : Cmd) : Bool :=
  let m := c.p 0
  decide (m < 8) && decide (c.p 1 < 2) && c.clear 3 44 &&
  (if m = 4 then c.p 1 == 0 && (c.p 2 == 2 || c.p 2 == 3) else c.p 2 == 0) && !(m == 7 && c.p 1 == 1)

def fillShadow (mode : Nat) (fixed : Bool) (code : Nat) (s : State) : State :=
  { s with lines := s.lines.map fun l => { l with shd := LineBank.default }
           hosts := s.hosts.map fun h => { h with shd := HostBank.default }
           ports := Vector.ofFn fun p => { s.ports[p] with shd := PortBank.default mode fixed code p.val } }

def actSetMode (c : Cmd) (s : State) : State :=
  let fixed := c.p 1 == 1
  let m := if c.p 0 = 0 ∧ fixed then 6 else c.p 0
  done c 0 (fillShadow m fixed (c.p 2) s)

/-! ### What a bank breaks at a swap: the lowest offsets of the broken conditions -/

/-- A chip select that is not enabled, or an address that its framing does not reach (R173, R174). -/
def csBroken (s : State) (cs addr : Nat) : Bool := !bit (csCfg s cs) 0 || (!bit (csCfg s cs) 2 && decide (127 < addr))

/-- Floating-group positions of a bank with FG_EN = 1 and FG_AUTO = 0 (R112). -/
def fgBroken (b : LineBank) : List Nat :=
  if !(bit b.eqCtl 1 && !bit b.eqCtl 2) then []
  else
    let own (j : Nat) : Nat := 0x108 + 4 * (j / 2)
    (List.range 4).flatMap fun j => match bankPos b j with
      | none => []
      | some p =>
        (if p < -512 ∨ 512 < p + 3 then [own j] else []) ++
        (if (List.range 4).any (fun t => decide (-(b.mainTap : Int) ≤ p + (t : Nat)) && decide (p + (t : Nat) ≤ 63 - b.mainTap))
          then [0x100] else []) ++
        (List.range j).flatMap fun i => match bankPos b i with
          | some q => if (p - q).natAbs ≤ 3 then [min (own i) (own j)] else []
          | none => []

def lineBroken (s : State) (b : LineBank) : List Nat :=
  let t := b.tia
  let set := b.txSet
  (if b.tiaEn && (bits t 8 4 == 0 || decide (20 < bits t 8 4) || decide (bits t 16 4 < bits t 12 4) ||
      csBroken s (bits t 30 2) (bits t 20 8)) then [0x008] else []) ++
  fgBroken b ++
  (if 512 < firSum set.fir then [0x410] else []) ++
  (if (set.fir.getD b.firMain 0).natAbs < 256 then [0x400] else []) ++
  (if b.drvEn && csBroken s (bits b.drv 30 2) (bits b.drv 16 8) then [0x408] else []) ++ b.bad

def hostBroken (b : HostBank) : List Nat :=
  let c (w : Word) (lo : Nat) : Nat := (ofField 8 (bits w lo 8)).natAbs
  (if 64 < c b.firLo 0 + c b.firLo 8 + c b.firLo 16 + c b.firLo 24 + c b.firHi 0 + c b.firHi 8 then [0x010] else []) ++ b.bad

/-- MODE and FIXED_LAT of a port bank. -/
def portMode (b : PortBank) : Nat := bits b.cfg 0 4

/-- The bank of a port after a swap of the ports given. -/
def swapBank (s : State) (ports : List (Fin 8)) (p : Fin 8) : PortBank := if ports.contains p then s.ports[p].shd else s.ports[p].act

/-- Positions of a port bank whose host lane is unused by the mode, or given to another position (R52): their HOST_MAP
registers. -/
def mapBroken (s : State) (ports : List (Fin 8)) (mode : Nat) (p : Fin 8) : List Nat :=
  let b := s.ports[p].shd
  (List.range (hostCnt b)).flatMap fun k =>
    let h := mapPos b k
    let twice := (List.finRange 8).any fun q =>
      let c := swapBank s ports q
      (List.range (hostCnt c)).any fun j => mapPos c j == h && !(q == p && j == k)
    if !hostUsed mode h || twice then [if k < 8 then 0x008 else 0x00C] else []

/-- The swap changes the mode: every port is in it and their shadow banks agree on another MODE or FIXED_LAT. -/
def swapPorts (bs : List Block) : List (Fin 8) := bs.filterMap fun b => match b with | .port p => some p | _ => none

def swapModes (s : State) (ports : List (Fin 8)) : Bool := ports.any fun p => portMode s.ports[p].shd != portMode s.ports[p].act

def modeAgrees (s : State) (ports : List (Fin 8)) : Bool :=
  decide (8 ≤ ports.length) && ports.all fun p => portMode s.ports[p].shd == portMode s.ports[(0 : Fin 8)].shd

/-- Ports of a mode change that is not whole: where ports are missing those that would change, else all (R57). -/
def modeBroken (s : State) (ports : List (Fin 8)) (p : Fin 8) : List Nat :=
  if !swapModes s ports || modeAgrees s ports then []
  else if ports.length < 8 then (if portMode s.ports[p].shd != portMode s.ports[p].act then [0x000] else [])
  else [0x000]

def swapMode (s : State) (ports : List (Fin 8)) : Nat :=
  if swapModes s ports && modeAgrees s ports then bits s.ports[(0 : Fin 8)].shd.cfg 0 3 else modeOf s

/-- The lowest offset of a broken condition in a target's own shadow bank. -/
def blockBroken (s : State) (ports : List (Fin 8)) (b : Block) : Option Nat :=
  let l := match b with
    | .line n => lineBroken s s.lines[n].shd ++ s.lines[n].act.bad
    | .host n => hostBroken s.hosts[n].shd ++ s.hosts[n].act.bad
    | .port p => modeBroken s ports p ++ mapBroken s ports (swapMode s ports) p ++ s.ports[p].shd.bad ++ s.ports[p].act.bad
  l.foldl (fun (m : Option Nat) x => match m with | some y => some (min x y) | none => some x) none

end Sys2Proof.Machine
end

