-- ==== Sys2Proof/Machine/Swap.lean ====
section
/-! DEFINITION. The bank swap on its tick: refusals, the exchange, what each change restarts (R23, R27, R58, R67, R125, R126, R166,
R174, R223, R232), and the mode change. -/

namespace Sys2Proof.Machine

/-! ### Cold acquisition by command or mode change -/

/-- A line lane begins a cold acquisition (R101): in OFF and in DARK it only loses its stored bank (R128). -/
def lineCold (n : Fin 8) (s : State) : State :=
  match s.lines[n].rx.st with
  | .off => modEq n (fun e => { e with stored := none, voided := [] }) s
  | .dark => modEq n (fun e => { e with stored := none, voided := [] }) s
  | .up => enterGain n false (outageStart n s)
  | _ => enterGain n false s

/-- A host lane begins a cold acquisition: in IDLE it only loses its held coefficients, and leaving UP holds them (R221). -/
def hostCold (n : Fin 16) (s : State) : State :=
  match s.hosts[n].st with
  | .off => s
  | .idle => modHost n (fun h => { h with heldCoefs := none }) s
  | .up => hostTiming n false (hostHold n s)
  | _ => hostTiming n false s

/-! ### What a line bank's change does -/

/-- The loops whose settings changed (Table 4.4). -/
def loopsChanged (a b : LineBank) : List Nat :=
  let x := a.eqCtl ^^^ b.eqCtl
  let init := bits b.eqCtl 16 2 == 1
  (if x &&& 0x01033F00 != 0 ∨ (init && a.initMain != b.initMain) then [0] else []) ++
  (if x &&& 0x00F03F06 != 0 ∨ a.fgPos0 != b.fgPos0 ∨ a.fgPos1 != b.fgPos1 ∨ (init && a.initFg != b.initFg) then [1] else []) ++
  (if x &&& 0x00000001 != 0 ∨ (init && a.initNl != b.initNl) then [2] else []) ++
  (if x &&& 0x00000008 != 0 ∨ (init && a.initTgt != b.initTgt) then [3] else [])

/-- The restarted loops of a lane (R126, R128); in OFF no loop runs, and the stored bank's parts are void all the same. In TRAIN a
restart that leaves the main span as it is goes on in phase 2 for 200 µs (Table 4.2). -/
def loopsRestart (n : Fin 8) (loops : List Nat) (s : State) : State :=
  if loops.isEmpty then s
  else modLine n (fun l =>
    if l.rx.st = .off then
      if l.eq.stored.isSome then
        { l with eq := { l.eq with voided := (List.range 4).map fun j => l.eq.voided.getD j false || loops.contains j } }
      else l
    else
      let e := { loops.foldl (fun e j => restartLoop l.act j e) l.eq with conv := false }
      let e := if l.eq.stored.isSome then
          { e with voided := (List.range 4).map fun j => l.eq.voided.getD j false || loops.contains j } else e
      let e := match l.rx.st with
        | .train => if loops.contains 0 then { e with phase := 1, again := false }
                    else if 2 ≤ e.phase then { eqPhase2 true l.act e with again := true } else e
        | .frame => eqPhase2 false l.act e
        | .up => eqPhase2 false l.act e
        | .relock => eqPhase2 false l.act e
        | _ => e
      { l with eq := e }) s

/-- Fields whose change reloads the transmit live set (R166). -/
def txChanged (a b : LineBank) : Bool :=
  ((a.txCfg ^^^ b.txCfg) &&& 0x00005F7F) != 0 || a.fir != b.fir || a.nlpd != b.nlpd

/-- A line lane after its banks were exchanged; `a` was active. -/
def lineSwapped (n : Fin 8) (a : LineBank) (s : State) : State :=
  let b := s.lines[n].act
  let s := loopsRestart n (loopsChanged a b) (eqNote n s)
  -- FRZ[1] stops a placement that runs (R123)
  let s := modEq n (fun e => if bit b.eqCtl 5 && e.sweep.isSome then { e with sweep := none, placed := true } else e) s
  let s := modRx n (fun r => { r with tiaStopped := false }) s
  let s := if txChanged a b then
      modTx n (fun x => { x with live := if domOn s (txDomain n) then b.txSet else x.live, lastGood := none, answerReset := true }) s
    else s
  let s := if b.trnReq then s
    else trnStop n s
  let s := if bits a.drv 0 8 != bits b.drv 0 8 && b.drvEn then drvWrite n (bits b.drv 0 8) 1 s else s
  losCheck n (txUpdate n s)

/-! ### What a host bank's change does (R223) -/

def hostSwapped (n : Fin 16) (a : HostBank) (s : State) : State :=
  let b := s.hosts[n].act
  let restart := bits a.eqCfg 0 5 != bits b.eqCfg 0 5 || bits a.rxCfg 16 2 != bits b.rxCfg 16 2
  let peak := !s.hosts[n].auto && !bit a.rxCfg 15 && !bit b.rxCfg 15 && bits a.rxCfg 0 6 != bits b.rxCfg 0 6
  let dcg := !bit b.rxCfg 14 && (bit a.rxCfg 14 || bits a.rxCfg 8 5 != bits b.rxCfg 8 5)
  let s := if a.chkPat != b.chkPat then modHost n (fun h => { h with chkLock := false, chk := Checker.reset }) s else s
  let s := if a.genPat != b.genPat then modHost n (fun h => { h with path := { h.path with
      gen := List.replicate (prbsLen b.genPat) true, genCount := 0 } }) s else s
  let s := if a.lbNear != b.lbNear then modHost n (fun h => { h with path := { h.path with near := [] } }) s else s
  let s := if a.lbFar != b.lbFar then modHost n (fun h => { h with path := { h.path with far := [], toLine := [] } }) s else s
  let s := modHost n (fun h => if !bit b.eqCfg 7 then { h with coefs := { h.coefs with d1 := 0 } } else h) s
  let s := match s.hosts[n].st with
    | .ctle => if restart then hostTiming n false s else if peak then modHost n ctleStart s else s
    | .adapt => if restart then hostTiming n false s
        else if peak then modHost n (fun h => { h with peak := bits b.rxCfg 0 6, snrHist := [] }) s else s
    | .resume => if restart then hostTiming n false s
        else if peak then modHost n (fun h => { h with peak := bits b.rxCfg 0 6, snrHist := [] }) s else s
    | .up => if restart then hostTiming n false (hostHold n s)
        else if peak then modHost n (fun h => { h with peak := bits b.rxCfg 0 6, acqUntil := s.clk + usTicks 200 }) s else s
    | _ => s
  if dcg && s.hosts[n].st != .off then modHost n (fun h => { h with dcg := bits b.rxCfg 8 5 }) s else s

/-! ### Ports and the mode change (R58, R67, Table 2.3) -/

/-- A generator or a loopback runs on a host lane of a port's bank (R232). -/
def testsRun (s : State) (b : PortBank) : Bool := (hostsOfPort b).any fun h => (s.hosts[h].act.test &&& 0x307) != 0

/-- Line lane n's port, its port's lanes and its code. -/
def lineMember (s : State) (n : Fin 8) : Option (Fin 8) × List (Fin 8) × Nat :=
  let p := portOfLine (modeOf s) n
  (p, (match p with | some p => linesOfPort (modeOf s) p | none => []), lineCode s n)

/-- Domains that the mode change switches, in an order that keeps the dependencies (R58 step 2, R434). -/
def modeTransitions (s : State) (mode : Nat) : List Transition :=
  let mk (on : Bool) (k : Nat) : Transition := { dom := Fin.ofNat 50 k, on := on, cmd := none }
  let offs := ((List.range 32).reverse.map (12 + ·)) ++ [47, 46, 45, 44, 48]
  let ons := [48, 44, 45, 46, 47] ++ (List.range 32).map (12 + ·)
  (offs.filter fun k => domEnd s k && !modeDom mode k).map (mk false) ++
  (ons.filter fun k => !domEnd s k && modeDom mode k).map (mk true)

/-- In mode 4 the transmitters hold their bank settings (R60). -/
def txPlain (n : Fin 8) (s : State) : State :=
  if domOn s (txDomain n) then modLine n (fun l => { l with tx := { l.tx with live := l.act.txSet } }) s else s

/-- The mode has changed on this tick: port counters, the event, the lanes that it leaves unused, the domains. In mode 4 no exchange and
no message goes on; DESIGN CHOICE (log entry 76): messages in hand are abandoned with result 3, as under R199. -/
def modeChanged (s : State) : State :=
  let mode := modeOf s
  let s := raise 0x005 (pay2 mode (b2n (fixedLat s))) (clearPortCtrs s)
  let s := forFin 8 (fun n s =>
    if lineUsed mode then (if mode = 4 then txPlain n (msgAbandon n (trnDrop n (trnStop n s))) else s)
    else modTx n (fun x => { x with trnState := 0 }) (linePathOff n (lineTxOff n s))) s
  let s := forFin 16 (fun h s => if hostUsed mode h then s else hostOff h s) s
  let l := modeTransitions s mode
  let on := (l.filter (·.on)).map (·.dom)
  seqPush l (modTherm (fun t => { t with shed := t.shed.filter fun e => !e.2.any on.contains }) s)

/-- Where no header is received any more none holds the squelch (R184, R200); a port that the mode leaves idle has no latency and
counts nothing (R48, R68). -/
def portPlain (p : Fin 8) (s : State) : State :=
  let plain := modeOf s == 4 || !portEnabled s p
  let idle := !portEnabled s p
  modPort p (fun x => { x with
    sqIdentity := x.sqIdentity && !plain, sqDeskew := x.sqDeskew && !plain, uncInt := if idle then 0 else x.uncInt
    latTx := if idle then 0 else x.latTx, latRx := if idle then 0 else x.latRx }) s

/-- What the exchange of port banks does to lanes and buffers; `o` is the state before the exchange. -/
def portsSwapped (o : State) (s : State) : State :=
  let changed := modeOf o != modeOf s || fixedLat o != fixedLat s
  let s := if changed then modeChanged s else s
  let s := forFin 8 (fun n s =>
    let a := lineMember o n
    let b := lineMember s n
    if a.1.isSome && b.1.isSome && a != b then lineCold n s else s) s
  let s := forFin 16 (fun h s =>
    let a := posOfHost o h
    let b := posOfHost s h
    if a.isSome && b.isSome && a != b then hostCold h s else s) s
  let s := forFin 8 (fun p s =>
    let a := o.ports[p].act
    let b := s.ports[p].act
    let lines := linesOfPort (modeOf o) p == linesOfPort (modeOf s) p
    let fixA := bit a.cfg 3
    let fixB := bit b.cfg 3
    let same := bit a.cfg 7 && bit b.cfg 7 && lines
    if same then
      let again := fixA != fixB || (fixB && (bit a.cfg 6 != bit b.cfg 6 || hostsOfPort a != hostsOfPort b))
      if again then modPort p (fun x => { x with sqBuffers := true }) s else s
    else if a == b then s
    else
      let s := modPort p (fun x => winClear { x with raw := List.replicate 16 [], amLock0 := false, amLock1 := false, sqDeskew := false, sqIdentity := false
                                                     sqBuffers := false, degraded := false }) s
      -- the lanes that stay up serve the port in its new form with their buffers set anew (R64, R65)
      if bit b.cfg 7 then buffersSet p s else s) s
  let s := if changed then forFin 8 portPlain s else s
  if changed then lanesMayLeave s else s

/-- The last generator or loopback of a fixed-latency port is cleared: its buffers are re-set (R232). -/
def testsCleared (o : State) (s : State) : State :=
  forFin 8 (fun p s =>
    if portEnabled s p && bit s.ports[p].act.cfg 3 && testsRun o o.ports[p].act && !testsRun s s.ports[p].act then
      modPort p (fun x => { x with sqBuffers := true }) s
    else s) s

/-! ### The swap -/

def exchange (b : Block) (s : State) : State := match b with
  | .line n => modLine n (fun l => { l with act := l.shd, shd := l.act }) s
  | .host n => modHost n (fun h => { h with act := h.shd, shd := h.act }) s
  | .port p => modPort p (fun x => { x with act := x.shd, shd := x.act }) s

/-- All banks are exchanged on one tick, then every lane takes its new bank (R22, R23). -/
def swapDo (bs : List Block) (s0 : State) : State :=
  let s := bs.foldl (fun s b => exchange b s) s0
  let s := if (swapPorts bs).isEmpty then s else portsSwapped s0 s
  let s := bs.foldl (fun s b => match b with
    | .line n => lineSwapped n s0.lines[n].act s
    | .host n => hostSwapped n s0.hosts[n].act s
    | .port _ => s) s
  testsCleared s0 s

/-- A lane named by the swap is off: a host lane, or a line lane with both domains off (R27). -/
def blockOff (s : State) : Block → Bool
  | .line n => !(domOn s (rxDomain n) || domOn s (txDomain n))
  | .host n => !domOn s (hostDomain n)
  | .port _ => false

def blockTest (s : State) (b : Block) : Bool := underTest s b.tgt

/-- Targets of a swap from TARGET and parameter bytes; none: the list is not well formed. -/
def swapTgts (code : BitVec 16) (b : List Byte) (room : Nat) : Option (List Tgt) :=
  let n := byteAt b 0
  if room < n || !allZero b 1 2 || !allZero b (2 + 2 * n) (2 + 2 * room) then none
  else
    (code :: (List.range n).map fun i => BitVec.ofNat 16 (leAt b (2 + 2 * i) 2)).foldr (fun c acc =>
      match Tgt.ofCode c, acc with
      | some (.mon _), _ => none
      | some t, some l => some (t :: l)
      | _, _ => none) (some [])

/-- Instances that no bank command may name: a port that neither of its banks uses. -/
def tgtIdle (s : State) : Tgt → Bool
  | .port (some p) => !portKnown s p
  | _ => false

/-- BANK_SWAP on its tick (R24 to R27, R57, R305). The Boolean says that the arbiter refused it. -/
def swapStart (cmd : Option Cmd) (code : BitVec 16) (param : List Byte) (room : Nat) (s : State) : State × Bool :=
  match swapTgts code param room with
  | none => (refuseO cmd stBadParam s, false)
  | some ts =>
    let bs := (ts.flatMap blocksOf).eraseDups
    let named := (ts.filter (· != .device)).flatMap blocksOf
    let ports := swapPorts bs
    let change := swapModes s ports && modeAgrees s ports
    if ts.any (tgtIdle s) then (refuseO cmd stBadTarget s, false)
    else if bs.any (blockTest s) then
      ((match cmd with | some c => answer c stInTest true s.tst.blkEnd 0 s | none => s), false)
    else if !change && named.any (blockOff s) then (refuseO cmd stPoweredOff s, false)
    else
      match ts.findSome? (arbHolderOf .swap s 4) with
      | some a => (arbRefuse 4 a.cls s, true)
      | none =>
        let s := ts.foldl (fun s t => arbAdmitOf .swap 4 t s) s
        let bad := bs.filterMap fun b => (blockBroken s ports b).map fun o => (b, o)
        if bad.isEmpty then (doneO cmd 0 (swapDo bs s), false)
        else
          let s := bad.foldl (fun s e => raise 0x002 (pay2 e.1.code.toNat e.2) s) s
          (refuseO cmd stBadParam s, false)

def parBankSwap (c : Cmd) : Bool := (swapTgts c.d.target c.d.param 21).isSome

/-- TARGET of BANK_SWAP: a bank, or the device; a further target that is idle is refused in the same way. -/
def tgtBankSwap (c : Cmd) (s : State) : Bool :=
  (match c.tgt with
   | some .device => true
   | _ => tgtBank c s) &&
  match swapTgts c.d.target c.d.param 21 with
  | some ts => !ts.any (tgtIdle s)
  | none => true

end Sys2Proof.Machine
end

