-- ==== Sys2Proof/Machine/BlkTest.lean ====
section
/-! DEFINITION. On-demand block tests (R450 to R452): SELFTEST, their start and end. -/

namespace Sys2Proof.Machine

/-- A block that SELFTEST tests: one LINE, HOST, enabled PORT or MON instance. -/
def testTgt (s : State) (code : BitVec 16) : Option Tgt := match Tgt.ofCode code with
  | some (.line (some n)) => some (.line (some n))
  | some (.host (some n)) => some (.host (some n))
  | some (.port (some p)) => if portEnabled s p then some (.port (some p)) else none
  | some (.mon (some k)) => some (.mon (some k))
  | _ => none

/-- Lengths in µs of the logic, memory and loopback tests (Table 16.2); a test that the table does not give takes none. -/
def testUs : Tgt → Nat × Nat × Nat
  | .line _ => (1000, 500, 1500)
  | .host _ => (600, 200, 800)
  | .port _ => (500, 300, 0)
  | _ => (200, 0, 800)

def testLen (t : Tgt) (kinds : Nat) : Nat :=
  let u := testUs t
  kinds % 2 * u.1 + kinds / 2 % 2 * u.2.1 + kinds / 4 % 2 * u.2.2

/-- Parameters of SELFTEST for a target: 1 to 7 in byte 0, zeros after it; a port has no loopback. -/
def testOk (t : Tgt) (b : List Byte) (room : Nat) : Bool :=
  decide (1 ≤ byteAt b 0) && decide (byteAt b 0 ≤ 7) && allZero b 1 room &&
  !((match t with | .port _ => true | _ => false) && decide (4 ≤ byteAt b 0))

/-- A domain that the test needs is off (R295). -/
def testOff (s : State) : Tgt → Bool
  | .line (some n) => !domOn s (rxDomain n) || !domOn s (txDomain n)
  | .host (some n) => !domOn s (hostDomain n)
  | .port _ => !domOn s 48
  | _ => !domOn s 4

/-- The block leaves service: its paths go to OFF, which is no reset: their stored banks, overlay, figures and messages stay
(Table 16.2, R130, R141, R199, R221, R451). DESIGN CHOICE (log entry 76): an exchange of a lane that enters a test is abandoned with the
payload of a lane reset. -/
def testEnter (t : Tgt) (s : State) : State := match t with
  | .line (some n) =>
    modRx n (fun r => { r with inTest := true }) (rxHalt n (txHalt n (trnAbandon n 1 s)))
  | .host (some n) => modHost n (fun h => { h with inTest := true }) (hostHalt n s)
  | .port (some p) => modPort p (fun x => winClear { x with inTest := true, raw := List.replicate 16 [], amLock0 := false, amLock1 := false }) s
  | .mon (some k) => modMon k (fun m => { m with inTest := true, busy := .idle, passAt := m.cfg.list.length }) (monStop k s)
  | _ => s

/-- The block returns to service: a lane leaves OFF, a port sets its buffers again, a converter restarts. -/
def testLeave (t : Tgt) (s : State) : State := match t with
  | .line (some n) => txUpdate n (rxMayLeave n (modRx n (fun r => { r with inTest := false }) s))
  | .host (some n) => hostMayLeave n (modHost n (fun h => { h with inTest := false }) s)
  | .port (some p) => modPort p (fun x => { x with inTest := false, sqBuffers := true }) s
  | .mon (some k) => monRestart k (modMon k (fun m => { m with inTest := false }) s)
  | _ => s

def testBegin (r : BlkTest) (s : State) : State :=
  let t := (Tgt.ofCode r.target).getD .device
  let until_ := after s (usSub (testLen t r.kinds))
  let s := testEnter t s
  modTst (fun x => { x with blk := some { r with until_ := until_ }, lastTarget := r.target, lastKinds := r.kinds, blkEnd := until_ }) s

/-- SELFTEST on its tick; one block at a time is under test, so a further test waits. The Boolean says that the arbiter refused
it. -/
def testStart (cmd : Option Cmd) (code : BitVec 16) (param : List Byte) (room : Nat) (s : State) : State × Bool :=
  match testTgt s code with
  | none => (refuseO cmd stBadTarget s, false)
  | some t =>
    if !testOk t param room then (refuseO cmd stBadParam s, false)
    else if testOff s t then (refuseO cmd stPoweredOff s, false)
    else if underTest s t then
      ((match cmd with | some c => answer c stInTest true s.tst.blkEnd 0 s | none => s), false)
    else
      let r := arbPresent 3 t s
      if !r.2 then (r.1, true)
      else
        let x : BlkTest := { target := code, kinds := byteAt param 0, cmd := cmd, until_ := 0 }
        if r.1.tst.blk.isSome then (modTst (fun y => { y with waitTests := y.waitTests ++ [x] }) r.1, false)
        else (testBegin x r.1, false)

/-- The next waiting test begins. -/
def testNext (s : State) : State := match s.tst.waitTests with
  | [] => s
  | x :: l => testBegin x (modTst (fun y => { y with waitTests := l }) s)

/-- The test that runs ends: the block returns to service, the signature is compared and answered (R451, R452). -/
def testDone (sig : BitVec 64) (s : State) : State := match s.tst.blk with
  | none => s
  | some r =>
    let t := (Tgt.ofCode r.target).getD .device
    let bad := sig != Config.blockSignature r.target r.kinds
    let s := modTst (fun x => { x with blk := none, lastFail := bad }) (arbEnd 3 t s)
    let s := testLeave t s
    let s := raise 0x1F8 (pay2 r.target.toNat (b2n (!bad))) s
    let s := if bad then raise 0x1F7 (pay2 0xF r.target.toNat) s else s
    testNext (doneO r.cmd sig.toNat s)

/-- Tests that a reset ends (R452): those that run or wait and meet the predicate are answered INTERNAL_FAULT. -/
def testsEnd (p : BlkTest → Bool) (s : State) : State :=
  let run := match s.tst.blk with | some r => p r | none => false
  let out := (match s.tst.blk with | some r => [r] | none => []) ++ s.tst.waitTests
  let s := modTst (fun x => { x with blk := x.blk.filter fun r => !p r, waitTests := x.waitTests.filter fun r => !p r }) s
  let s := (out.filter p).foldl (fun s r =>
    let t := (Tgt.ofCode r.target).getD .device
    let s := arbEnd 3 t s
    refuseO r.cmd stInternal (if underTest s t then testLeave t s else s)) s
  if run then testNext s else s

end Sys2Proof.Machine
end

