-- ==== Sys2Proof/Machine/Reset.lean ====
section
/-! DEFINITION. Reset reaches, what each clears, overlapping sources and their release (R421 to R427, R430 to R432), sleep and wake
(R438 to R441), the reset pins and supplies (R425, R436, R437), watchdog and lockstep (R413). -/

namespace Sys2Proof.Machine

/-! ### Reaches (Tables 15.1 to 15.3) -/

def srcReach : ResetSrc → Reach
  | .por => Reach.all
  | .resetPin | .vio | .trip | .brownOut | .testPort => { Reach.all with level := 3 }
  | .hostWarm | .escalation | .cadence | .fwReq =>
    { level := 2, data := false, control := true, mgmt := true, link := false, lanes := [] }
  | .perst => { level := 1, data := false, control := true, mgmt := false, link := true, lanes := [] }
  | .planeControl => { level := 1, data := false, control := true, mgmt := false, link := false, lanes := [] }
  | .planeData => { level := 1, data := true, control := false, mgmt := false, link := false, lanes := [] }
  | .planeMgmt | .watchdog | .lockstep => { level := 1, data := false, control := false, mgmt := true, link := false, lanes := [] }
  | .lineReset n => { level := 0, data := false, control := false, mgmt := false, link := false, lanes := [.line n] }
  | .hostReset n => { level := 0, data := false, control := false, mgmt := false, link := false, lanes := [.host n] }

/-- RST_CAUSE bit of a source; a lane reset has none. -/
def causeBit : ResetSrc → Option Nat
  | .por => some 0
  | .resetPin | .vio => some 1
  | .perst => some 2
  | .hostWarm => some 3
  | .planeData | .planeControl | .planeMgmt => some 4
  | .watchdog => some 5
  | .lockstep => some 6
  | .escalation => some 7
  | .trip => some 8
  | .cadence => some 9
  | .brownOut => some 10
  | .testPort => some 11
  | .fwReq => some 12
  | .lineReset _ | .hostReset _ => none

/-- Two reaches share state of Table 15.2. -/
def Reach.meets (a b : Reach) : Bool :=
  (a.data && (b.data || !b.lanes.isEmpty)) || (!a.lanes.isEmpty && b.data) || a.lanes.any b.lanes.contains ||
  (a.control && b.control) || (a.mgmt && b.mgmt) || (a.link && b.link)

/-- Every state that b clears, a clears. -/
def Reach.contains (a b : Reach) : Bool :=
  (a.data || (!b.data && b.lanes.all a.lanes.contains)) && (a.control || !b.control) && (a.mgmt || !b.mgmt) && (a.link || !b.link) &&
  (decide (b.level < 3) || decide (b.level ≤ a.level))

def Reach.union (a b : Reach) : Reach :=
  { level := max a.level b.level, data := a.data || b.data, control := a.control || b.control, mgmt := a.mgmt || b.mgmt
    link := a.link || b.link, lanes := (a.lanes ++ b.lanes).eraseDups }

/-- Whether a power domain lies in a reach (Table 1.1). -/
def Reach.dom (r : Reach) (k : Nat) : Bool :=
  (r.data && (k == 8 || k == 9 || decide (12 ≤ k))) || (r.control && k == 2) ||
  (r.mgmt && (k == 1 || (decide (3 ≤ k) && decide (k ≤ 7)) || k == 10 || k == 11)) ||
  r.lanes.any fun l => match l with
    | .line n => k == rxDomain n || k == txDomain n
    | .host n => k == hostDomain n

/-! ### What each reach clears (Table 15.2) -/

/-- One lane: both paths, its counters, captures and tests (R432). -/
def laneClear (id : LaneId) (s : State) : State := match id with
  | .line n =>
    let s := testsEnd (fun r => r.target == Tgt.code (.line (some n))) s
    clearLineCtr n (lineClear n (capDrop (fun r => r.target == Tgt.code (.line (some n))) stInternal s))
  | .host n =>
    let s := testsEnd (fun r => r.target == Tgt.code (.host (some n))) s
    clearHostCtr n (hostOff n (capDrop (fun r => r.target == Tgt.code (.host (some n))) stInternal s))

/-- The framer of a line lane (Table 15.2): its registers and its messages; the frame count goes on from the PLL lock (R179), and
the echoes of a measurement that runs stay (R70). -/
def framerClear (n : Fin 8) (s : State) : State :=
  modFr n (fun f => { LineFrame.reset with
    txFc := f.txFc, echoes := f.echoes, echoHold := f.echoHold, echoForeign := f.echoForeign, send := f.send, waiting := f.waiting }) s

/-- The data plane: every lane, the framers, the outer code, the counters; FEC_UNC, banks and maps stay. -/
def dataClear (s : State) : State :=
  let s := testsEnd (fun r => match Tgt.ofCode r.target with | some (.mon _) => false | _ => true) s
  let s := capDrop (fun _ => true) stInternal s
  let s := forFin 8 framerClear (forFin 16 hostOff (forFin 8 lineClear s))
  let s := { s with ports := s.ports.map fun (p : Port) =>
    { Port.reset 0 0 with act := p.act, shd := p.shd, meas := p.meas, hist := p.hist, fecUnc := p.fecUnc, inTest := p.inTest } }
  clearDataCtrs s

/-- Set-up registers that a reset of the control plane returns to their reset values (R402, R490, Table 15.2). -/
def ctrlSetup (off : Nat) : Bool :=
  off == 0x30 || off == 0x50 || (decide (0x2000 ≤ off) && decide (off < 0x3000)) || off == 0x8070 || off == 0x8074

/-- The control plane; `link`: with the PCI Express link and configuration space. PCIE_REFCLK_OK is kept (log entry 42). -/
def controlClear (link : Bool) (s : State) : State :=
  let s := drainStop 1 (drainStop 0 s)
  let s := { s with
    rings := { Rings.reset with era := s.rings.era + 1 }
    setup := s.setup.filter fun e => !ctrlSetup e.1
    shadow := s.shadow.filter fun e => !ctrlSetup e.1
    viol := 0, hiPcie := [], hiWire := [], lmem := []
    pcie := { s.pcie with pend := 0 }
    tlm := { s.tlm with recs := (s.tlm.recs.map fun (x : TlmRec) =>
      if x.ring.isSome then { x with ring := none, due := true, refetch := true } else x) } }
  let s := modRst (fun r => { r with ctrlReset := true, afterRecord := [] }) s
  if link then { s with pcie := Pcie.reset s.pcie.refOk } else s

/-- TIA writes of firmware, waiting or under way, end with it (R92). -/
def ocpForget (s : State) : State :=
  let tia (t : OcpTrans) : Bool := match t.what with | .tiaWrite _ _ _ | .tiaRead _ _ _ => true | _ => false
  match s.ocp with
  | [] => s
  | t :: l => l.foldl (fun s x => ocpDropped x s)
      { s with ocp := (if tia t then { t with what := .void } else t) :: l.filter fun x => !tia x }

/-- The management plane: firmware stops; the session under way, captures, tests and scans end (R18, R407, R461). -/
def mgmtClear (control : Bool) (s : State) : State :=
  let s := modRst (fun r => { r with mgmtRun := false }) s
  let s := ocpForget s
  let s := modChk (fun x => { x with scrub := false }) (if s.chk.scrub then arbEnd 7 .device s else s)
  let s := chkAbandon control (testsEnd (fun _ => true) (capDrop (fun _ => true) stInternal (reedAbort s)))
  modTst (fun x => { x with lastTarget := 0, lastKinds := 0, lastFail := false, blkEnd := 0 }) s

/-- A lane with what PD_00 keeps of it: the maps and sets of its converters, and in sleep its last-good bank. -/
def lineKept (good : Bool) (l : Line) : Line :=
  let x := Line.reset l.rx.adc l.tx.dac
  { x with rx := { x.rx with skews := l.rx.skews }
           tx := { (if good then x.tx else l.tx.cleared) with lastGood := if good then l.tx.lastGood else none } }

/-- VIN fails under a swap: its one indivisible map commit has happened or has not (R81). -/
def swapTorn (c : ConvId) (s : State) : State := match (getConv s c).run with
  | none => s
  | some r =>
    let d := draw s
    if d.1 % 2 = 0 then modConv c (fun x => { x with run := none }) d.2
    else modConv c (fun x => { x with
      run := none, swapCnt := min 4095 (x.swapCnt + 1), abortCnt := 0
      roles := (x.roles.set r.out .spare).set r.spare (.phase r.phase) }) d.2

/-- Everything outside the retention domain (level 3); `sleep`: entering sleep, which also keeps the event latches, the counters, the
last snapshot's serial number and time, and the last-good banks (R390, R402, R439). PCIE_REFCLK_OK is kept until POR (log entry 42).
-/
def coldClear (sleep : Bool) (s : State) : State :=
  let z := State.reset
  let keep (l : List (Nat × Word)) : List (Nat × Word) :=
    if sleep then l.filter fun e => e.1 == 0x24 || e.1 == 0x1020
    else (l.filter fun e => e.1 == 0x24 || e.1 == 0x1020).filterMap fun e =>
      let v := if e.1 = 0x1020 then e.2 &&& 0x7FFFFFFF else e.2
      if v = setupReset e.1 then none else some (e.1, v)
  { z with
    pending := s.pending, free := s.free, clk := s.clk, sub := s.sub, out := s.out
    setup := keep s.setup, shadow := keep s.shadow, straps := s.straps
    rings := { Rings.reset with era := s.rings.era + 1 }
    pcie := { z.pcie with refOk := s.pcie.refOk }
    evt := if sleep then s.evt else { z.evt with log := s.evt.log, logSeq := s.evt.logSeq }
    lines := s.lines.map (lineKept sleep)
    hosts := s.hosts.map fun h => HostLane.reset h.adc
    ports := Vector.ofFn fun p =>
      if sleep then { Port.reset 0 p.val with hist := s.ports[p].hist, fecUnc := s.ports[p].fecUnc } else Port.reset 0 p.val
    lineCtr := if sleep then s.lineCtr else z.lineCtr
    hostCtr := if sleep then s.hostCtr else z.hostCtr
    portCtr := if sleep then s.portCtr else z.portCtr
    pmc := if sleep then s.pmc else z.pmc
    tlm := if sleep then { z.tlm with serial := s.tlm.serial, snapTime := s.tlm.snapTime } else z.tlm
    therm := { z.therm with tripSensor := s.therm.tripSensor, tripCorr := s.therm.tripCorr, tripCount := s.therm.tripCount
                            tripped := s.therm.tripped, tripNote := s.therm.tripNote, votes := s.therm.votes, cool := s.therm.cool
                            firstVote := s.therm.firstVote }
    cal := { z.cal with single := s.cal.single, setSeq := s.cal.setSeq, restoreNote := s.cal.frozen || s.cal.restoreNote }
    chk := { z.chk with passAt := s.clk }
    tst := { z.tst with scanFlag := s.tst.scanFlag, otpSlots := s.tst.otpSlots, otpKib := s.tst.otpKib, otpPatch := s.tst.otpPatch }
    rst := { z.rst with cause := s.rst.cause, count := s.rst.count, first := s.rst.first, level := s.rst.level
                        episodes := s.rst.episodes, exits := []
                        resetLow := s.rst.resetLow, perstLow := s.rst.perstLow, vioLow := s.rst.vioLow
                        cur := s.rst.cur.map fun t => { t with cmd := none }
                        sleep := s.rst.sleep, woke := s.rst.woke, wakeCause := s.rst.wakeCause, sleptS := s.rst.sleptS
                        sleepSince := s.rst.sleepSince }
    saved := s.saved }

/-- Everything except OTP, and the pins (level 4). -/
def porClear (s : State) : State :=
  let z := State.reset
  { z with pending := s.pending, free := s.free, clk := s.clk, sub := s.sub, out := s.out
           rings := { Rings.reset with era := s.rings.era + 1 }
           tst := { z.tst with otpSlots := s.tst.otpSlots, otpKib := s.tst.otpKib, otpPatch := s.tst.otpPatch }
           rst := { z.rst with episodes := s.rst.episodes, exits := [], resetLow := s.rst.resetLow, perstLow := s.rst.perstLow
                               vioLow := s.rst.vioLow } }

/-- The lane of a converter. -/
def convLane : ConvId → LaneId
  | .lineAdc n => .line n
  | .dac n => .line n
  | .hostAdc n => .host n

/-- A converter within a reach is in steps 2 to 4 of a swap (R81). -/
def Reach.swapping (r : Reach) (s : State) : Bool :=
  allConvs.any fun c => (getConv s c).run.isSome && (r.data || r.lanes.contains (convLane c))

/-- The data plane, or the lanes, of a reach. -/
def laneReach (r : Reach) (s : State) : State :=
  r.lanes.foldl (fun s l => laneClear l s) (if r.data then dataClear s else s)

/-- Sleep entry: the active banks and monitor settings are saved and every domain but PD_00 goes off (R438). PERST_N goes on
asserting its source while it is low. -/
def sleepEnter (s : State) : State :=
  let kept : Saved := { lines := s.lines.map (·.act), hosts := s.hosts.map (·.act), ports := s.ports.map (·.act)
                        mon := s.mon.map (·.cfg), comp := s.comp, thr := s.thr }
  let s := seqCancel (fun _ => true) 3 s
  let s := coldClear true s
  { s with saved := some kept
           rst := { s.rst with on := Vector.ofFn fun k => k.val == 0, cur := none
                               episodes := if s.rst.episodes.any fun e => e.sources.contains .perst then
                                   [{ sources := [.perst], reach := srcReach .perst, first := 2 }] else []
                               sleep := .asleep (s.rst.resetLow || s.rst.vioLow) false false, sleepSince := s.clk } }

/-- What has waited for the end of a swap takes effect. A lane whose reset was released while it waited may leave OFF now. -/
def lateDo (l : Late) (s : State) : State := match l with
  | .reach r =>
    if r.level = 3 then
      let k := s.rst.trimRestarts
      let e := s.rst.exits
      modRst (fun x => { x with trimRestarts := k, exits := e }) (coldClear false s)
    else lanesMayLeave (laneReach r s)
  | .dom k => domOffLate k s
  | .sleep => sleepEnter s

/-- A converter is in steps 2 to 4 of a swap. -/
def anySwapping (s : State) : Bool := allConvs.any fun c => (getConv s c).run.isSome

/-- It still waits. -/
def Late.waits (s : State) : Late → Bool
  | .reach r => r.swapping s
  | .dom k => domSwapping s k.val
  | .sleep => anySwapping s

/-- What waits for no swap any more takes effect (R81). -/
def lateFlush (s : State) : State :=
  let go := s.late.filter fun l => !l.waits s
  go.foldl (fun s l => lateDo l (match l with
    | .dom _ => s
    | _ => { s with late := s.late.erase l })) s

/-- The sequencer applies a reach at once: waiting transitions within it are cancelled, then its state is cleared (R36, R422). Its
lanes, and a cold reset, wait for the end of a swap that runs, but for POR and brown-out (R81). -/
def reachApply (r : Reach) (brown : Bool) (s : State) : State :=
  let s := seqCancel r.dom r.level s
  if r.level = 4 then porClear s
  else if r.level = 3 then
    if brown then coldClear false (allConvs.foldl (fun s c => swapTorn c s) s)
    else if r.swapping s then { s with late := s.late ++ [.reach r] }
    else coldClear false s
  else
    let s := if r.mgmt then mgmtClear r.control s else s
    let s := if r.control then controlClear r.link s else s
    if r.swapping s then { s with late := s.late ++ [.reach r] } else laneReach r s

/-! ### Asserting and releasing (R424, R426, R427) -/

/-- Sleep ends without a wake where a source of level 3 or 4 asserts in it (R440). -/
def sleepBreak (cause : Nat) (s : State) : State := match s.rst.sleep with
  | .awake => { s with late := s.late.filter (· != .sleep) }
  | .asleep _ _ _ =>
    { s with saved := none
             rst := { s.rst with sleep := .awake, wakeCause := cause
                                 sleptS := satU 16 ((s.clk - s.rst.sleepSince) / oneSecond) } }

/-- RST_CAUSE after a source asserts (R424). -/
def causeWith (src : ResetSrc) (c : BitVec 13) : BitVec 13 := match causeBit src with
  | some 0 => 1
  | some k => c ||| BitVec.ofNat 13 (2 ^ k)
  | none => c

/-- The exit is in its trim load. -/
def Exit.inTrim (x : Exit) : Bool := match x.step with
  | .trim _ => true
  | _ => false

/-- The source meets a running exit whose reach contains its own and is wider: it is absorbed (R427). One of level 3 or 4 during the
trim load is not: it abandons the load (R429). -/
def absorbed (src : ResetSrc) (s : State) : Bool :=
  let r := srcReach src
  !(s.rst.episodes.any fun e => e.reach.meets r) &&
  s.rst.exits.any fun x => x.reach.meets r && x.reach.contains r && !r.contains x.reach && !(decide (3 ≤ r.level) && x.inTrim)

/-- A source asserts, in sleep or out of it. -/
def assertOne (src : ResetSrc) (s : State) : State :=
  let r := srcReach src
  let s := if 3 ≤ r.level then sleepBreak 3 s else s
  let s := modRst (fun x => { x with cause := causeWith src x.cause }) s
  if s.rst.episodes.any fun e => e.sources.contains src then s
  else
    if absorbed src s then s
    else
      let hits := s.rst.episodes.filter fun e => e.reach.meets r
      let counted := hits.filter fun e => e.reach.level != 0
      let taken := s.rst.exits.filter fun x => x.reach.meets r && r.contains x.reach
      -- a POR exit in its trim load, which a cold reset abandons: it starts anew when the episode ends (R429)
      let again := if r.level = 3 then (s.rst.exits.filter fun x => x.por && x.inTrim).map fun x => { x with step := .trim 0 } else []
      let trim := !again.isEmpty || taken.any Exit.inTrim
      let restarts := if trim then min 15 (s.rst.trimRestarts + 1) else 0
      let held := hits.foldl (fun (a : Reach) e => a.union e.reach)
        { level := 0, data := false, control := false, mgmt := false, link := false, lanes := [] }
      let reach := held.union r
      let first := match counted with | e :: _ => e.first | [] => (causeBit src).getD 0
      let widened := hits.isEmpty || !held.contains r
      -- POR clears the thermal policy, and with it a trip that is held
      let sources := (hits.flatMap (·.sources)).filter fun x => r.level != 4 || x != .trip
      let e : Episode := { sources := sources ++ [src], reach := reach, first := first }
      let s := modRst (fun x => { x with
        episodes := x.episodes.filter (fun e => !e.reach.meets r) ++ [e]
        exits := x.exits.filter fun y => !(y.reach.meets r && r.contains y.reach)
        count := if counted.isEmpty && r.level != 0 then min 65535 (x.count + 1) else x.count
        level := if widened && r.level != 0 then reach.level else x.level
        first := if widened && r.level != 0 then first else x.first }) s
      let s := if widened then reachApply r (src == .brownOut) s else s
      let s := if again.isEmpty then s else modRst (fun x => { x with exits := again }) s
      if r.level = 4 then modRst (fun x => { x with count := 0, level := 4, first := 0, cause := 1 }) s
      else if r.level = 3 then modRst (fun x => { x with trimRestarts := if widened then restarts else x.trimRestarts }) s
      else s

/-- What the pins and VIO assert once sleep is over: their levels were followed in it (R425, R437). -/
def sleepPins (s : State) : State :=
  let s := if s.rst.resetLow then assertOne .resetPin s else s
  let s := if s.rst.vioLow then assertOne .vio s else s
  if (s.rst.perstLow || s.rst.vioLow) && !localMode s then assertOne .perst s else s

/-- A source asserts. -/
def assertReset (src : ResetSrc) (s : State) : State :=
  let asleep := s.rst.sleep != .awake
  let s := assertOne src s
  if asleep && decide (3 ≤ (srcReach src).level) then sleepPins s else s

/-- The control plane is held in reset: by a source, by sleep, or by a cold exit up to the end of its step 2 (R428). -/
def ctrlHeld (s : State) : Bool :=
  (s.rst.episodes.any fun e => e.reach.control) || s.rst.sleep != .awake ||
  s.rst.exits.any fun x => x.cold && (x.inTrim || x.step == .pll)

/-- The episode's last source has released: the exit of its widest level begins (R426, R428, R430 to R432). -/
def episodeEnd (e : Episode) (s : State) : State :=
  if 3 ≤ e.reach.level then
    let por := e.reach.level == 4 || s.rst.exits.any (·.por)
    modRst (fun x => { x with exits := [{ step := .trim 0, cold := true, por := por, wake := false
                                          reach := if por then Reach.all else e.reach }] }) s
  else
    let s := if e.reach.mgmt then
        modRst (fun x => { x with
          exits := x.exits ++ [{ step := .boot, cold := false, por := false, wake := false, reach := e.reach }] }) s
      else s
    let s := if e.reach.control && e.reach.link && !e.reach.mgmt && !ctrlHeld s then modRst (fun x => { x with ctrlReset := false }) s else s
    if e.reach.data || !e.reach.lanes.isEmpty then lanesMayLeave s else s

/-- A source releases. -/
def releaseReset (src : ResetSrc) (s : State) : State :=
  match s.rst.episodes.find? fun e => e.sources.contains src with
  | none => s
  | some e =>
    let l := e.sources.filter (· != src)
    let rest := s.rst.episodes.filter fun x => !(x.sources.contains src)
    if l.isEmpty then episodeEnd e (modRst (fun x => { x with episodes := rest }) s)
    else modRst (fun x => { x with episodes := rest ++ [{ e with sources := l }] }) s

/-- Sources that assert for a time, or while an instruction holds them, rather than by a pin or supply of their own. -/
def isTimed : ResetSrc → Bool
  | .por | .resetPin | .vio | .perst | .brownOut | .trip => false
  | _ => true

def sourceRelease (src : ResetSrc) (s : State) : State := if isTimed src then releaseReset src s else s

/-- The control plane leaves reset after a warm or commanded reset (R430). -/
def ctrlLeaves (s : State) : State :=
  if ctrlHeld s || s.rst.exits.any (·.cold) then s
  else modRst (fun x => { x with ctrlReset := false }) s

/-! ### Sleep (R438 to R441) -/

/-- A wake: the cold exit of R428 with the differences of R441. PERST_N, where it is low, goes on holding the control plane. -/
def wakeUp (cause : Nat) (s : State) : State :=
  let s := regSet 0x1020 (reg s 0x1020 &&& 0x7FFFFFFF) s
  let s := modRst (fun x => { x with
    sleep := .awake, woke := true, wakeCause := cause, sleptS := satU 16 ((s.clk - x.sleepSince) / oneSecond)
    on := Vector.ofFn fun k => domBase k.val }) s
  let s := if (s.rst.perstLow || s.rst.vioLow) && !localMode s then assertOne .perst s else s
  modRst (fun x => { x with
    wakeNote := true
    exits := [{ step := .trim 0, cold := true, por := false, wake := true, reach := { Reach.all with level := 3 } }] }) s

/-- RESET_N, or VIO for it, is high again in sleep (Table 15.7). -/
def sleepRelease (s : State) : State := match s.rst.sleep with
  | .awake => s
  | .asleep _ pulse long =>
    if s.rst.resetLow || s.rst.vioLow then s
    else if long then releaseReset .resetPin (assertReset .resetPin (sleepBreak 2 s))
    else if pulse then wakeUp 0 s
    else modRst (fun x => { x with sleep := .asleep false false false }) s

/-- Low for more than 1 s in sleep. -/
def longHold (s : State) : State := match s.rst.sleep with
  | .awake => s
  | .asleep a b _ => if a || b then modRst (fun x => { x with sleep := .asleep a b true }) s else s

def wakeTimer (s : State) : State := match s.rst.sleep with
  | .awake => s
  | .asleep _ _ _ => if bits (reg s 0x1020) 0 16 = 0 then s else sleepPins (wakeUp 1 s)

/-! ### Pins and supplies (R425, R436, R437) -/

/-- The filter: shorter than 1.0 µs ignored, 2.0 µs or longer accepted, between them either. -/
def pulseAccepted (ns : Nat) (s : State) : Bool × State :=
  if ns < 1000 then (false, s)
  else if 2000 ≤ ns then (true, s)
  else
    let d := draw s
    (d.1 % 2 == 1, d.2)

/-- A pulse that is accepted, and begins, in sleep. -/
def sleepPulse (s : State) : State :=
  modRst (fun x => { x with sleep := match x.sleep with | .asleep a _ l => .asleep a true l | .awake => .awake }) s

def resetPinLow (ns : Nat) (s : State) : State :=
  let a := pulseAccepted ns s
  let s := a.2
  if !a.1 || s.rst.resetLow then s
  else
    let s := modRst (fun x => { x with resetLow := true }) s
    match s.rst.sleep with
    | .asleep _ _ _ => sleepPulse s
    | .awake =>
      if !bit (reg s 0x1020) 31 then assertReset .resetPin s
      else if anySwapping s then { s with late := s.late ++ [.sleep] } else sleepEnter s

def resetPinHigh (s : State) : State :=
  if !s.rst.resetLow then s
  else sleepRelease (releaseReset .resetPin (modRst (fun x => { x with resetLow := false }) s))

/-- PERST_N; in local ring mode it is not used (R309). In sleep only its level is followed. -/
def perstPinLow (ns : Nat) (s : State) : State :=
  if localMode s then s
  else
    let a := pulseAccepted ns s
    let s := a.2
    if !a.1 || s.rst.perstLow then s
    else
      let s := modRst (fun x => { x with perstLow := true }) s
      if s.rst.sleep = .awake then assertReset .perst s else s

def perstPinHigh (s : State) : State :=
  if !s.rst.perstLow then s
  else
    let s := modRst (fun x => { x with perstLow := false }) s
    if s.rst.vioLow then s else releaseReset .perst s

/-- VIO absent: RESET_N and PERST_N count as asserted; it never enters sleep. -/
def vioLost (s : State) : State :=
  if s.rst.vioLow then s
  else
    let s := modRst (fun x => { x with vioLow := true }) s
    match s.rst.sleep with
    | .asleep _ _ _ => if s.rst.resetLow then s else sleepPulse s
    | .awake =>
      let s := assertReset .vio s
      if localMode s then s else assertReset .perst s

def vioBack (s : State) : State :=
  if !s.rst.vioLow then s
  else
    let s := modRst (fun x => { x with vioLow := false }) s
    let s := if s.rst.perstLow then s else releaseReset .perst s
    sleepRelease (releaseReset .vio s)

/-- VIN below 2.68 V for 10 µs. -/
def vinWarn (v : Nat) (s : State) : State := raiseLimited 0x012 0 (pay1 v) s

/-! ### Management resets (R413, R417) -/

def bootRuns (s : State) : Bool := s.rst.exits.any fun x => x.step == .boot

/-- The third watchdog or lockstep reset within 1 s escalates. -/
def escalate (mem : Option Nat) (s : State) : State :=
  assertReset .escalation (raise 0x1F5 (match mem with | some m => pay2 0 m | none => pay2 1 0) s)

def mgmtFault (src : ResetSrc) (s : State) : State :=
  if !s.rst.mgmtRun && !bootRuns s then s
  -- absorbed, or its reset is held already: none is applied that would count
  else if absorbed src s || s.rst.episodes.any fun e => e.sources.contains src then assertReset src s
  else
    let s := assertReset src s
    let l := s.clk :: s.chk.mgmtResets.filter fun t => decide (s.clk ≤ t + oneSecond)
    if 3 ≤ l.length then escalate none (modChk (fun c => { c with mgmtResets := [] }) s)
    else modChk (fun c => { c with mgmtResets := l }) s

/-- The swap's parallel run ends, and with it the swap; what has waited for it takes effect (R81). -/
def execSwapParallelRunDone (c : ConvId) (run : ParallelRun) (s : State) : Host.Outcome State Fault Refusal :=
  .next (lateFlush (swapDone c run s))
def execResetNAssert (ns : Nat) (s : State) : Host.Outcome State Fault Refusal := .next (resetPinLow ns s)
def execResetNRelease (s : State) : Host.Outcome State Fault Refusal := .next (resetPinHigh s)
def execResetNLongHold (s : State) : Host.Outcome State Fault Refusal := .next (longHold s)
def execWakeTimer (s : State) : Host.Outcome State Fault Refusal := .next (wakeTimer s)
def execPerstNAssert (ns : Nat) (s : State) : Host.Outcome State Fault Refusal := .next (perstPinLow ns s)
def execPerstNRelease (s : State) : Host.Outcome State Fault Refusal := .next (perstPinHigh s)
def execPor (s : State) : Host.Outcome State Fault Refusal := .next (assertReset .por s)
def execPorRelease (s : State) : Host.Outcome State Fault Refusal := .next (releaseReset .por s)
def execBrownOut (s : State) : Host.Outcome State Fault Refusal := .next (assertReset .brownOut s)
def execBrownOutRelease (s : State) : Host.Outcome State Fault Refusal := .next (releaseReset .brownOut s)
def execVinLow (v : Nat) (s : State) : Host.Outcome State Fault Refusal := .next (vinWarn v s)
def execVioLoss (s : State) : Host.Outcome State Fault Refusal := .next (vioLost s)
def execVioReturn (s : State) : Host.Outcome State Fault Refusal := .next (vioBack s)
def execResetSourceRelease (src : ResetSrc) (s : State) : Host.Outcome State Fault Refusal := .next (sourceRelease src s)
def execControlPlaneLeavesReset (s : State) : Host.Outcome State Fault Refusal := .next (ctrlLeaves s)
def execWatchdogExpiry (s : State) : Host.Outcome State Fault Refusal := .next (mgmtFault .watchdog s)
def execLockstepMismatch (s : State) : Host.Outcome State Fault Refusal := .next (mgmtFault .lockstep s)
def execTestPortReset (s : State) : Host.Outcome State Fault Refusal := .next (assertReset .testPort s)

end Sys2Proof.Machine
end

