-- ==== Sys2Proof/Machine/Boot.lean ====
section
/-! DEFINITION. Exit sequences: trim load, straps, PLL lock, power-up self-test, firmware boot (R28, R42, R43, R46, R428 to R430,
R435, R441, R444 to R449, R486, R487), and the test port (R458, R459). -/

namespace Sys2Proof.Machine

def coldExit (s : State) : Option Exit := s.rst.exits.find? (·.cold)

/-- A transition on that no command asked for. -/
def domRise (k : Nat) : Transition := { dom := Fin.ofNat 50 k, on := true, cmd := none }

/-- The cold exit's step changes. -/
def exitStep (st : ExitStep) (s : State) : State :=
  modRst (fun x => { x with exits := x.exits.map fun e => if e.cold then { e with step := st } else e }) s

/-! ### Step 1: trims and straps -/

/-- Effective straps: GLB.STRAP_OVR where a group's enable is set, the pins otherwise (R486). -/
def strapEff (ovr : Word) (p : Pins) : Pins :=
  { mode := if bit ovr 8 then BitVec.ofNat 3 (bits ovr 0 3) else p.mode
    cadRole := if bit ovr 9 then BitVec.ofNat 2 (bits ovr 3 2) else p.cadRole
    attach := if bit ovr 10 then bit ovr 5 else p.attach
    addr := if bit ovr 11 then BitVec.ofNat 2 (bits ovr 6 2) else p.addr }

/-- Straps sampled at a cold exit, or CADROLE alone at a wake (R487). -/
def strapSample (wake : Bool) (p : Pins) (s : State) : State :=
  let ovr := reg s 0x24
  let e := strapEff ovr p
  let o := s.straps
  { s with straps :=
      if wake then { pins := { o.pins with cadRole := p.cadRole }, eff := { o.eff with cadRole := e.cadRole }, ovrUsed := bit ovr 9 }
      else { pins := p, eff := e, ovrUsed := bits ovr 8 4 != 0 } }

/-- Banks after the sampling: the defaults of the MODE straps, or at a wake what sleep entry saved, as both banks (R28). -/
def bankLoad (wake : Bool) (s : State) : State :=
  match wake, s.saved with
  | true, some k =>
    { s with lines := Vector.ofFn fun n => { s.lines[n] with act := k.lines[n], shd := k.lines[n] }
             hosts := Vector.ofFn fun n => { s.hosts[n] with act := k.hosts[n], shd := k.hosts[n] }
             ports := Vector.ofFn fun p => { s.ports[p] with act := k.ports[p], shd := k.ports[p] }
             mon := Vector.ofFn fun i => Mon.reset k.mon[i]
             comp := k.comp, thr := k.thr, saved := none }
  | _, _ =>
    let m := s.straps.eff.mode.toNat
    { s with ports := Vector.ofFn fun p =>
        { s.ports[p] with act := PortBank.default m false 2 p.val, shd := PortBank.default m false 2 p.val } }

/-- A cold reset still waits for the end of a swap (R81). -/
def coldLate (s : State) : Bool := s.late.any fun l => match l with
  | .reach r => r.level == 3
  | _ => false

/-- A trim-load attempt ends (R429): a pass applies the image; the third failure leaves the safe defaults. Then PD_08, PD_09 and
PD_49 ramp (R428). While a source of level 3 or 4 is asserted no load runs. -/
def trimAttempt (ok : Bool) (pins : Pins) (s : State) : State :=
  if coldHeld s || coldLate s then s else
  match coldExit s with
  | none => s
  | some e => match e.step with
    | .trim n =>
      if !ok && n < 2 then exitStep (.trim (n + 1)) s
      else
        let s := modRst (fun x => { x with trimValid := ok, trimSafe := !ok, trimAttempts := n + 1, trimNote := !ok }) s
        let s := bankLoad e.wake (strapSample e.wake pins s)
        seqPush ([8, 9, 49].map domRise) (exitStep .pll { s with cad := Cad.reset s.straps.eff.cadRole })
    | _ => s

/-! ### Steps 2 and 3: PLLs and self-test -/

/-- A group is skipped where the mode uses no domain of it. -/
def groupSkip (mode g : Nat) : Bool := decide (2 ≤ g) && !(groupDoms g).any (modeDom mode)

/-- The group begins: the sequencer switches on its domains that the mode uses (R428, R434). -/
def groupStart (g : Nat) (s : State) : State :=
  let s := exitStep (.selfTest g) (modTst (fun x => { x with group := g }) s)
  seqPush (((groupDoms g).filter (modeDom (modeOf s))).map domRise) s

/-- What the sequencer has in hand for the exit is over: a step that needs its domains cannot have ended before. -/
def seqFinish (s : State) : State :=
  (List.range (s.rst.queue.length + 1)).foldl (fun s _ => match s.rst.cur with
    | some t => if t.cmd.isNone then domDone s else s
    | none => s) s

/-- The coarse band of each PLL is chosen at its lock, for the present temperature (R381), which no command carries. -/
def bandsChoose (s : State) : State :=
  let d := draw s
  let t : Int := ofField 24 (d.1 % 2 ^ 24)
  modTherm (fun x => { x with bands := Vector.ofFn fun k => Config.pllBand k t }) d.2

/-- A standalone device starts its free beat on the tick at which the line PLL first locks (R237). -/
def freeBeatStart (s : State) : State :=
  if standalone s && !s.cad.started then firstBeat 0 0 (modCad (fun c => { c with started := true }) s) else s

/-- Step 2 ends and G0 begins: the control plane leaves reset. Without REFCLK the housekeeping PLL alone locks, and the REFCLK
loss event is latched (R497). -/
def pllStep (ref : Bool) (s : State) : State :=
  match coldExit s with
  | none => s
  | some e =>
    if e.step ≠ .pll then s
    else
      let s := seqFinish s
      let held := s.rst.episodes.any fun e => e.reach.control
      let s := modRst (fun x => { x with ctrlReset := held }) { s with refOk := ref, pllAt := s.clk }
      -- PMC counts from the first lock after a cold exit or a wake (Table 13.1)
      let s := { s with pmc := { s.pmc with fix := 0, fixOvf := false, tick := none } }
      let s := if ref then freeBeatStart (bandsChoose s) else raise 0x000 0 { s with refLostAt := s.clk }
      groupStart 0 s

/-- The line, host and housekeeping PLLs have locked (R428). -/
def pllLock (s : State) : State := pllStep true s

/-- The converters that a group tests. -/
def convGroup : ConvId → Nat
  | .lineAdc n => 2 + n.val / 4
  | .dac n => 2 + n.val / 4
  | .hostAdc n => 4 + n.val / 8

/-- What the reed measured on the k-th slice where no command says it: open. -/
def openVals (d k : Nat) : CalVals :=
  let f (i : Nat) : Int := ofField 16 (d / 2 ^ (48 * k + 16 * i) % 2 ^ 16)
  { offset := f 0, gain := f 1, timing := f 2 }

/-- First calibration sets of a converter at a POR exit, slice by slice from those measured (R326, R447). No housekeeping round
has run yet: the region temperature is open. -/
def firstSets (c : ConvId) (l : List (ConvId × CalVals)) (s : State) : State :=
  let vals := (l.filter fun x => x.1 == c).map (·.2)
  let d := draw s
  let e := draw d.2
  let t : Int := ofField 24 (d.1 % 2 ^ 24)
  let dt := e.2.cal.dt
  let seq := e.2.cal.setSeq
  modConv c (fun x => { x with cal := x.cal.mapIdx fun k y => sliceStore dt t (vals.getD k (openVals e.1 k)) (seq + k) y })
    (modCal (fun k => { k with setSeq := seq + (getConv s c).cal.length }) e.2)

/-- Converters that no group has measured hold a first set too (R326). -/
def restSets (s : State) : State :=
  (allConvs.filter fun c => (getConv s c).cal.any fun y => y.sets.isEmpty).foldl (fun s c => firstSets c [] s) s

/-- The owner key hash: that of the last slot programmed, none where it is all zeros (R456, Table 16.3). -/
def ownerOf (slots : List (List Byte)) : Option (List Byte) := match slots.getLast? with
  | some h => if h.all (· == 0) then none else some h
  | none => none

/-- Step 3 is over: keys are derived, the monitor converters start, firmware boots. -/
def selfTestEnd (s : State) : State :=
  let s := modTst (fun x => { x with done := true, idKeyOk := !x.scanFlag, owner := ownerOf x.otpSlots }) s
  exitStep .boot (monSync 1 (now s) (monSync 0 (now s) s))

/-- A group ends: signature and slices recorded; at the end of G0 the rings whose enabling waited start (R449). -/
def groupDone (sig : BitVec 64) (failed : List (ConvId × Nat)) (first : List (ConvId × CalVals)) (s : State) : State :=
  match coldExit s with
  | none => s
  | some e => match e.step with
    | .selfTest g =>
      let s := seqFinish s
      let mode := modeOf s
      let bad := sig != Config.groupSignature g
      let next := ((List.range 6).filter fun j => decide (g < j)).find? fun j => !groupSkip mode j
      let passed := (List.range 6).filter fun j => decide (j < next.getD 6) && groupSkip mode j
      let s := modTst (fun x => { x with
        sig := if h : g < 6 then x.sig.set g sig else x.sig
        fail := if bad then x.fail ||| BitVec.ofNat 6 (2 ^ g) else x.fail
        skipped := BitVec.ofNat 6 ((passed.map (2 ^ ·)).foldl (· + ·) 0) }) s
      let mine := allConvs.filter fun c => convGroup c == g && modeDom mode (calDomain (.conv c))
      let s := if e.por then mine.foldl (fun s c => firstSets c first s) s else s
      let s := (failed.filter fun x => mine.contains x.1).foldl (fun s x => failAct x.1 x.2 s) s
      let s := if g = 0 then
          s.rings.enWait.foldl (fun s r => ringStart r s) (modRings (fun r => { r with enWait := [] }) (exitStep (.selfTest 1) s))
        else s
      match next with
      | some j => groupStart j s
      | none => selfTestEnd (if e.por then restSets s else s)
    | _ => s

/-! ### Step 4: firmware boot -/

/-- What firmware runs with: the staged patch after PATCH_ACTIVATE, else the stored one where it verifies, else the ROM (R46, R454,
R455). -/
def bootPatch (ok : Bool) (s : State) : State :=
  let t := s.tst
  let p := if t.bootPatch && t.staged.isSome then t.staged else if ok then t.otpPatch else none
  let reject := !(t.bootPatch && t.staged.isSome) && t.otpPatch.isSome && !ok
  let s := modTst (fun x => { x with active := p, bootPatch := false }) s
  let s := if reject then raise 0x1F9 (pay1 2) s else s
  match p with
  | some q => raise 0x1FA (BitVec.ofNat 32 (leAt q.digest 0 4)) s
  | none => s

/-- Firmware runs: what it announces and takes up again. -/
def firmwareBoot (ok : Bool) (s : State) : State :=
  match s.rst.exits.find? fun x => x.step == .boot with
  | none => s
  | some e =>
    let s := modRst (fun x => { x with mgmtRun := true, exits := x.exits.erase e }) s
    let s := { s with arb := { s.arb with admitted := s.arb.admitted.filter fun a => a.cls != 6 } }
    let s := bootWindow e.cold (bootPatch ok s)
    let s := modTherm (fun t => { t with sens := t.sens.map fun x => { x with hist := [] } }) s
    let s := if e.cold then
        let s := modCal (fun c => { c with checkDue := true }) s
        let s := if s.rst.trimNote then raise 0x011 (pay2 3 0) (modRst (fun x => { x with trimNote := false }) s) else s
        let s := (List.range 6).foldl (fun s g => if bit s.tst.fail g then raise 0x1F7 (pay2 g 0) s else s) s
        if s.therm.tripNote then
          raise 0x1E5 (pay2 s.therm.tripSensor s.therm.tripCorr) (modTherm (fun t => { t with tripNote := false }) s)
        else s
      else s
    let s := raise 0x010 (pay2 s.rst.cause.toNat (if e.wake then s.rst.level else e.reach.level)) s
    let s := if s.rst.wakeNote then
        raise 0x015 (pay2 s.rst.wakeCause s.rst.sleptS) (modRst (fun x => { x with wakeNote := false }) s)
      else s
    let s := trnBoot (chkAnswer s)
    if e.cold then lanesMayLeave s else s

/-! ### Test port -/

/-- Keys and the patch area are zeroised (R459). -/
def scanEnable (s : State) : State :=
  raise 0x1FC 0 (modTst (fun x => { x with idKeyOk := false, owner := none, staged := none, scanFlag := true }) s)

def testPortAccess (ir : Nat) (s : State) : State := raise 0x1FF (pay1 ir) s

def execTrimLoadAttempt (ok : Bool) (pins : Pins) (s : State) : Host.Outcome State Fault Refusal := .next (trimAttempt ok pins s)
def execPllLock (s : State) : Host.Outcome State Fault Refusal := .next (pllLock s)
def execSelfTestGroupDone (sig : BitVec 64) (failed : List (ConvId × Nat)) (first : List (ConvId × CalVals)) (s : State) :
    Host.Outcome State Fault Refusal := .next (groupDone sig failed first s)
def execScanEnable (s : State) : Host.Outcome State Fault Refusal := .next (scanEnable s)
def execTestPortAccess (ir : Nat) (s : State) : Host.Outcome State Fault Refusal := .next (testPortAccess ir s)

end Sys2Proof.Machine
end

