-- ==== Sys2Proof/Machine/Thermal.lean ====
section
/-! DEFINITION. Thermal policy (chapter 12): the round's judgement, stages, mute, shedding and release, the hard-wired trip, and the
commands THERM_CONFIG and SHED_ORDER. -/

namespace Sys2Proof.Machine

/-- Whole degrees of a temperature, rounded down. -/
def degrees (t : Int) : Int := t / 65536

/-! ### One sensor in one round (R369 to R372) -/

/-- Dwell of a crossing: three rounds beyond to cross, three below the release level to release. -/
def dwell (held beyond below : Bool) (up dn : Nat) : Bool × Nat × Nat :=
  if held then
    let d := if below then dn + 1 else 0
    if 3 ≤ d then (false, 0, 0) else (true, up, d)
  else
    let u := if beyond then up + 1 else 0
    if 3 ≤ u then (true, u, 0) else (false, u, dn)

/-- A crossing against a threshold in °C: beyond at or above it, released 2 °C below. -/
def dwellAt (held : Bool) (v thr : Int) (up dn : Nat) : Bool × Nat × Nat :=
  dwell held (decide (thr * 65536 ≤ v)) (decide (v < (thr - 2) * 65536)) up dn

/-- Flags a sensor as broken, with its event; its rate crossing ends. -/
def sensFlag (i : Fin 14) (cause : Nat) (s : State) : State :=
  raise 0x1E6 (pay2 i.val cause) (modSens i (fun x => { x with broken := true, cause := cause, rateX := false, rate := 0 }) s)

/-- Range and disagreement (R371), against the flags in force before this judgement. -/
def sensCheck (flags : Fin 14 → Bool) (r : Fin 14 → Int) (i : Fin 14) (s : State) : State :=
  if flags i then s
  else
    let v := r i
    let nb := (neighbours i).filter fun j => !flags j
    let sum := nb.foldl (fun a j => a + r j) 0
    let out := decide (v < -55 * 65536) || decide (150 * 65536 < v)
    let diff := !nb.isEmpty && decide (15 * 65536 * nb.length < (v * nb.length - sum).natAbs)
    let s := modSens i (fun x => { x with rangeRun := if out then x.rangeRun + 1 else 0, diffRun := if diff then x.diffRun + 1 else 0 }) s
    if 2 ≤ s.therm.sens[i].rangeRun then sensFlag i 1 s
    else if 2 ≤ s.therm.sens[i].diffRun then sensFlag i 2 s
    else s

/-- Crossings of one sensor. -/
def sensJudge (cfg : ThermCfg) (v : Int) (x : Sensor) : Sensor :=
  let t := if x.broken then x.mute * 65536 else v
  let w := dwellAt x.warnX t x.warn x.up[0] x.dn[0]
  let a := dwellAt x.advX t x.advise x.up[1] x.dn[1]
  let m := dwellAt x.muteX t x.mute x.up[2] x.dn[2]
  let hist := (v :: x.hist).take 8
  let rise : Int := match hist[7]? with | some o => v - o | none => 0
  let full := decide (hist.length = 8)
  let lim : Int := 7 * 65536 * cfg.round
  let q := if x.broken || cfg.rateLim == 0 then (false, 0, 0)
    else if !full then (x.rateX, 0, 0)
    else dwell x.rateX (decide (cfg.rateLim * lim < rise * 1000)) (decide (rise * 2000 ≤ cfg.rateLim * lim)) x.up[3] x.dn[3]
  { x with
    temp := v, hist := hist
    rate := if x.broken || !full then 0 else satS 8 (roundDiv (rise * 2000) (7 * 65536 * cfg.round))
    warnX := w.1, advX := a.1, muteX := m.1, rateX := q.1
    up := #v[w.2.1, a.2.1, m.2.1, q.2.1], dn := #v[w.2.2, a.2.2, m.2.2, q.2.2] }

/-! ### Stages (R373 to R378) -/

def anySens (s : State) (p : Sensor → Bool) : Bool := (List.finRange 14).any fun i => p s.therm.sens[i]
def holdsAdvise (s : State) : Bool := anySens s fun x => x.advX || x.rateX
/-- A MUTE crossing of a sensor that is not flagged broken: what sheds. -/
def holdsHot (s : State) : Bool := anySens s fun x => x.muteX && !x.broken
def calmStage (s : State) : Nat := if anySens s (·.warnX) then 1 else 0

def setStage (n : Nat) (s : State) : State :=
  modTherm (fun t => { t with stage := n, exhausted := t.exhausted && (n == 3 || n == 4) }) s

/-- The overlay on every line lane that is eligible and not yet muted: class M4, the lane as target (R138, R374). -/
def mutePass (s : State) : State :=
  forFin 8 (fun n s =>
    if muteOk s.lines[n] && !s.lines[n].eq.muted then
      let r := arbOffer .mute 4 (.line (some n)) s
      if r.2 then muteEnter n r.1 else r.1
    else s) s

/-- Stage 3 is entered, with the mute-enforced event. -/
def enterMute (s : State) : State :=
  let ne := (List.finRange 8).foldl (fun a n => if lineUsed (modeOf s) && !muteOk s.lines[n] && !s.lines[n].eq.muted
    then a + 2 ^ n.val else a) 0
  let s := mutePass (setStage 3 s)
  let m := (List.finRange 8).foldl (fun a n => if s.lines[n].eq.muted then a + 2 ^ n.val else a) 0
  raise 0x1E2 (pay2 m ne) s

/-- Domains of a shed entry that are on; none: the entry is skipped (R375). -/
def shedDoms (s : State) (code : BitVec 16) : List (Fin 50) :=
  let l := match Tgt.ofCode code with
    | some (.line (some n)) => if lineUsed (modeOf s) then [rxDomain n, txDomain n] else []
    | some (.host (some h)) => if hostUsed (modeOf s) h then [hostDomain h] else []
    | some (.port (some p)) =>
      if portEnabled s p then
        let ls := linesOfPort (modeOf s) p
        ls.map rxDomain ++ ls.map txDomain ++ (hostsOfPort s.ports[p].act).map hostDomain
      else []
    | _ => []
  (l.filter (domEnd s)).map fun k => Fin.ofNat 50 k

/-- A block of the entry is under test. -/
def shedTested (s : State) (code : BitVec 16) : Bool := match Tgt.ofCode code with
  | some (.port (some p)) => s.ports[p].inTest || (linesOfPort (modeOf s) p).any (fun n => s.lines[n].rx.inTest) ||
      (hostsOfPort s.ports[p].act).any fun h => s.hosts[h].inTest
  | some t => underTest s t
  | none => false

def shedNow (code : BitVec 16) (s : State) : State :=
  let l := shedDoms s code
  let s := setStage 4 (modTherm (fun t => { t with shed := t.shed ++ [(code, l)], shedWait := t.shedWait.filter (· != code) }) s)
  raise 0x1E3 (pay1 code.toNat) (seqPush (l.map fun k => { dom := k, on := false, cmd := none }) s)

/-- The hottest sensor among those not flagged. -/
def hottest (s : State) : Fin 14 :=
  ((List.finRange 14).foldl (fun (b : Option (Fin 14)) i =>
    if s.therm.sens[i].broken then b
    else match b with
      | none => some i
      | some j => if s.therm.sens[j].temp < s.therm.sens[i].temp then some i else b) none).getD 0

/-- The next entry of the order is shed; one under test waits for the test's end; with none left the list is exhausted. -/
def shedStep (s : State) : State :=
  match s.therm.order.find? fun c => !(s.therm.shed.any fun e => e.1 == c) && !s.therm.shedWait.contains c && !(shedDoms s c).isEmpty with
  | some c => if shedTested s c then modTherm (fun t => { t with shedWait := t.shedWait ++ [c] }) s else shedNow c s
  | none =>
    if s.therm.exhausted then s
    else
      let i := hottest s
      raise 0x1E4 (pay2 i.val (toField 16 (degrees s.therm.sens[i].temp))) (modTherm (fun t => { t with exhausted := true }) s)

/-- Entries that waited for a test which has ended are shed while the stage still sheds and the order still names them (R375, R383). -/
def shedWaited (s : State) : State :=
  s.therm.shedWait.foldl (fun s c =>
    if shedTested s c then s
    else if (shedDoms s c).isEmpty ∨ !s.therm.order.contains c ∨ (s.therm.stage ≠ 3 ∧ s.therm.stage ≠ 4) then
      modTherm (fun t => { t with shedWait := t.shedWait.filter (· != c) }) s
    else shedNow c s) s

/-- Stage 5 is over once nothing is shed and no lane is muted. -/
def liftOver (s : State) : State :=
  if s.therm.stage = 5 ∧ s.therm.shed = [] ∧ (List.finRange 8).all (fun n => !s.lines[n].eq.muted) then setStage (calmStage s) s else s

/-- One step of stage 5 (R377): the entry shed last is restored, or the lowest muted lane is lifted. -/
def liftStep (s : State) : State :=
  if s.therm.stage ≠ 5 then s
  else match s.therm.shed.getLast? with
    | some (_, l) =>
      let s := modTherm (fun t => { t with shed := t.shed.dropLast, exhausted := false }) s
      liftOver (seqPush (l.map fun k => { dom := k, on := true, cmd := none }) s)
    | none =>
      match (List.finRange 8).find? fun n => s.lines[n].eq.muted with
      | none => liftOver s
      | some n =>
        let r := arbOffer .mute 4 (.line (some n)) s
        if r.2 then liftOver (muteLeave n r.1) else r.1

/-- The four timers end: 0 grace, 1 shed dwell, 2 mute hold, 3 lift gap. -/
def timerDue (k : Nat) (s : State) : State :=
  match k with
  | 0 => if s.therm.stage = 2 ∧ holdsAdvise s then enterMute s else s
  | 1 => if (s.therm.stage = 3 ∨ s.therm.stage = 4) ∧ holdsHot s then shedStep s else s
  | 2 => if (s.therm.stage = 3 ∨ s.therm.stage = 4) ∧ !holdsAdvise s then liftStep (setStage 5 s) else s
  | _ => liftStep s

/-- A timer runs out; while firmware does not run, the step waits for its first round (R378). -/
def timerEnd (k : Nat) (s : State) : State :=
  if s.rst.mgmtRun then timerDue k s
  else modTherm (fun t => { t with overdue := if t.overdue.contains k then t.overdue else t.overdue ++ [k] }) s

/-- Stage transitions of a round (Table 12.2); `o` is the state before its judgement. -/
def stageRound (o s : State) : State :=
  match s.therm.stage with
  | 2 =>
    if !holdsAdvise s then setStage (calmStage s) s
    else if (List.finRange 14).any fun i => s.therm.sens[i].muteX && !o.therm.sens[i].muteX then enterMute s
    else s
  | 3 => mutePass s
  | 4 => mutePass s
  | 5 => if holdsAdvise s then (if s.therm.shed.isEmpty then enterMute s else mutePass (setStage 4 s)) else liftOver s
  | _ =>
    if holdsAdvise s then
      let i := ((List.finRange 14).find? fun i => s.therm.sens[i].advX || s.therm.sens[i].rateX).getD 0
      let cause := b2n (!s.therm.sens[i].advX)
      let g := s.therm.cfg.grace
      let s := modTherm (fun t => { t with stage := 2, graceEnd := s.clk + g * oneSecond }) s
      let s := raise 0x1E1 (pay3 i.val cause g) s
      if g = 0 ∨ anySens s (·.muteX) then enterMute s else s
    else setStage (calmStage s) s

/-- The reading of a sensor in a round: during a session segment of its own it holds its last value (R317). -/
def roundReading (s : State) (r : List SensorReading) (i : Fin 14) : Int :=
  match s.cal.busy with
  | some q => if calTgt q.target = .sensor i then s.therm.sens[i].temp else ((r[i.val]?).map (·.temp)).getD 0
  | none => ((r[i.val]?).map (·.temp)).getD 0

/-- The trim that the OTP sets give at a temperature, interpolated as R324 lays down; a PLL's beside its coarse band. -/
def trimAt (t : Therm) (k : Fin 4) (temp : Int) : Int :=
  let sets := (List.range 8).map fun i =>
    ({ temp := (Config.trimSet k i).1, vals := { offset := (Config.trimSet k i).2, gain := 0, timing := 0 }, seq := i } : CalSet)
  let v := ((setsAt sets temp).map (·.offset)).getD 0
  if h : k.val < 2 then v - Config.bandTrim k t.bands[k.val] else v

/-- A trim moves toward what the sets give, a PLL's by at most 50 ppm and the bandgap's by at most 0.05 %, within its range. -/
def trimStep (t : Therm) (k : Fin 4) (temp : Int) : Int :=
  let old := t.trims[k]
  let d := trimAt t k temp - old
  let d := if k.val < 2 then max (-50) (min 50 d) else if k.val = 3 then max (-500) (min 500 d) else d
  max (Config.trimRange k).1 (min (Config.trimRange k).2 (old + d))

/-- The three temperature compensations of a round (R381): the PLLs, the references and the oscillator by region 13 (log entry 80). A
fine trim that has come to an end of its range is reported. Under the safe defaults none is applied (R429). -/
def compensate (s : State) : State :=
  match if s.rst.trimSafe then none else regionTemp s 13 with
  | none => s
  | some temp =>
    let o := s.therm
    let s := modTherm (fun t => { t with trims := Vector.ofFn fun k => trimStep o k temp }) s
    let atEnd (k : Fin 4) (v : Int) : Bool := v == (Config.trimRange k).1 || v == (Config.trimRange k).2
    [0, 1, 2].foldl (fun s (k : Fin 4) => if atEnd k s.therm.trims[k] && !atEnd k o.trims[k] then raise 0x1E7 (pay1 k.val) s else s) s

/-- Firmware's part of a round. -/
def thermalRound (r : Fin 14 → Int) (s : State) : State :=
  let flags (i : Fin 14) : Bool := s.therm.sens[i].broken
  let s := forFin 14 (sensCheck flags r) s
  let o := s
  let s := modTherm (fun t => { t with sens := Vector.ofFn fun i => sensJudge t.cfg (r i) t.sens[i] }) s
  let live := (List.finRange 14).filter fun i => !s.therm.sens[i].broken
  let s := modTherm (fun t => { t with tmax :=
    match live with
    | [] => t.tmax
    | i :: l => l.foldl (fun m j => max m (degrees t.sens[j].temp)) (degrees t.sens[i].temp) }) s
  let s := forFin 14 (fun i s =>
    let x := s.therm.sens[i]
    if x.warnX && !o.therm.sens[i].warnX then
      raise 0x1E0 (pay2 i.val (toField 16 (degrees (if x.broken then x.mute * 65536 else x.temp)))) s
    else s) s
  let s := shedWaited (stageRound o s)
  let due := s.therm.overdue
  compensate (due.foldl (fun s k => timerDue k s) (modTherm (fun t => { t with overdue := [] }) s))

/-- The round ends (R352, R367, R378). The bias checks are judged in hardware; the rest by firmware, while it runs. -/
def roundEnd (readings : List SensorReading) (taps : List Int) (s : State) : State :=
  if s.mon[(1 : Fin 2)].busy ≠ .round then s
  else
    let r (i : Fin 14) : Int := roundReading s readings i
    let s := forFin 14 (fun i s =>
      let ok := ((readings[i.val]?).map (·.biasOk)).getD true
      if !ok && !s.therm.sens[i].broken then sensFlag i 0 s else s) s
    let s := if s.rst.mgmtRun then calRound (thermalRound r s) else s
    roundFinish ((List.finRange 14).map r) taps s

/-! ### The hard-wired trip (R379, R380) -/

/-- The vote of an evaluation: its sensor and its corroborating neighbour; none where a sensor votes alone. -/
def tripVote (s : State) (r : List SensorReading) : Option (Nat × Option Nat) :=
  let masked (i : Fin 14) : Bool := s.therm.sens[i].broken || !(((r[i.val]?).map (·.biasOk)).getD true)
  let temp (i : Fin 14) : Int := ((r[i.val]?).map (·.temp)).getD 0
  (List.finRange 14).findSome? fun i =>
    if masked i || decide (temp i < 125 * 65536) then none
    else
      let nb := (neighbours i).filter fun j => !masked j
      if nb.isEmpty then some (i.val, none)
      else (nb.find? fun j => decide (110 * 65536 ≤ temp j)).map fun j => (i.val, some j.val)

/-- Every unmasked sensor reads below TRIP − 10 °C. -/
def tripCool (s : State) (r : List SensorReading) : Bool :=
  (List.finRange 14).all fun i =>
    s.therm.sens[i].broken || !(((r[i.val]?).map (·.biasOk)).getD true) ||
    decide (((r[i.val]?).map (·.temp)).getD 0 < 115 * 65536)

def tripEval (r : List SensorReading) (s : State) : State :=
  if s.therm.tripped then
    let c := if tripCool s r then s.therm.cool + 1 else 0
    let s := modTherm (fun t => { t with cool := c }) s
    if 3 ≤ c then releaseReset .trip (modTherm (fun t => { t with tripped := false, cool := 0, votes := 0, firstVote := none }) s) else s
  else
    match tripVote s r with
    | none => modTherm (fun t => { t with votes := 0, firstVote := none }) s
    | some v =>
      let first := s.therm.firstVote.getD v
      if s.therm.votes < 2 then modTherm (fun t => { t with votes := t.votes + 1, firstVote := some first }) s
      else
        -- a sensor that voted alone has no corroborating neighbour: what CORR then reads is open
        let d := draw s
        let s := if first.2.isSome then s else d.2
        let s := modTherm (fun t => { t with
          tripped := true, votes := 0, cool := 0, firstVote := none, tripNote := true, tripSensor := first.1
          tripCorr := first.2.getD (d.1 % 16), tripCount := satU 16 (t.tripCount + 1) }) s
        assertReset .trip (forFin 8 (fun n s => modTx n (fun x => { x with txDis := true }) s) s)

/-! ### Commands -/

/-- Table 12.5. -/
def parThermConfig (c : Cmd) : Bool :=
  let t (i : Nat) : Int := ofField 8 (c.p i)
  match c.p 0 with
  | 0 => decide (1 ≤ c.p 1) && decide (c.p 1 ≤ 100) && decide (c.le 2 2 ≤ 600) && decide (c.p 4 ≤ 50) && c.p 5 != 0 && c.p 6 != 0 &&
      c.p 7 != 0 && c.clear 8 44
  | 1 => (decide (c.p 1 < 14) || c.p 1 == 0xFF) && decide (-40 ≤ t 2) && decide (t 2 ≤ t 3) && decide (t 3 ≤ t 4) && decide (t 4 ≤ 120) &&
      c.clear 5 44
  | 2 => decide (c.p 1 < 2) && decide (15565 ≤ c.le 2 2) && decide (c.le 2 2 ≤ 18022) && c.clear 4 44
  | _ => false

def actThermConfig (c : Cmd) (s : State) : State :=
  let t (i : Nat) : Int := ofField 8 (c.p i)
  done c 0 (match c.p 0 with
    | 0 => modTherm (fun x => { x with
        pend := some { round := c.p 1, grace := c.le 2 2, rateLim := c.p 4, muteHold := c.p 5, shedDwell := c.p 6, liftGap := c.p 7 } }) s
    | 1 => modTherm (fun x => { x with sens := Vector.ofFn fun i =>
        (if c.p 1 = 0xFF ∨ c.p 1 = i.val then { x.sens[i] with pend := some (t 2, t 3, t 4) } else x.sens[i]) }) s
    | _ => modTherm (fun x => if c.p 1 = 0 then { x with pend0 := some (c.le 2 2) } else { x with pend1 := some (c.le 2 2) }) s)

def orderCodes (c : Cmd) : List (BitVec 16) := (List.range (c.p 0)).map fun i => BitVec.ofNat 16 (c.le (4 + 2 * i) 2)

/-- R383: at most 20 different single instances of LINE, HOST or PORT. -/
def parShedOrder (c : Cmd) : Bool :=
  decide (c.p 0 ≤ 20) && c.clear 1 4 && c.clear (4 + 2 * c.p 0) 44 && decide (orderCodes c).Nodup &&
  (orderCodes c).all fun w => match Tgt.ofCode w with
    | some (.line (some _)) => true
    | some (.host (some _)) => true
    | some (.port (some _)) => true
    | _ => false

def actShedOrder (c : Cmd) (s : State) : State :=
  done c 0 (modTherm (fun t => { t with
    order := orderCodes c, exhausted := false, shedWait := t.shedWait.filter fun w => (orderCodes c).contains w }) s)

def execHousekeepingRoundEnd (readings : List SensorReading) (taps : List Int) (s : State) :
    Host.Outcome State Fault Refusal := .next (roundEnd readings taps s)
def execGraceExpiry (s : State) : Host.Outcome State Fault Refusal := .next (timerEnd 0 s)
def execShedDwellExpiry (s : State) : Host.Outcome State Fault Refusal := .next (timerEnd 1 s)
def execMuteHoldExpiry (s : State) : Host.Outcome State Fault Refusal := .next (timerEnd 2 s)
def execLiftGapExpiry (s : State) : Host.Outcome State Fault Refusal := .next (timerEnd 3 s)
def execTripEvaluation (r : List SensorReading) (s : State) : Host.Outcome State Fault Refusal := .next (tripEval r s)
def execOnDemandTestDone (sig : BitVec 64) (s : State) : Host.Outcome State Fault Refusal := .next (shedWaited (testDone sig s))

end Sys2Proof.Machine
end

