-- ==== Sys2Proof/Machine/Secure.lean ====
section
/-! DEFINITION. The RESET command, the secure store's commands (R453 to R457), and the hardware scrubbers (R409 to R413). -/

namespace Sys2Proof.Machine

/-! ### Resets that wait for their OK record (R305, R455) -/

/-- The record of a command still waits to be written. -/
def recordWaits (s : State) (ring : Fin 16) (seq : Word) : Bool := s.rings.wait.any fun r => r.ring == ring && r.seq == seq

def resetNow (src : ResetSrc) (s : State) : State :=
  assertReset src (if src = .fwReq then modTst (fun x => { x with bootPatch := true }) s else s)

/-- Resets whose record has been written, or is not written at all under QUIET, are applied. -/
def afterCheck (s : State) : State :=
  let go := s.rst.afterRecord.filter fun e => !recordWaits s e.1 e.2.1
  let s := modRst (fun r => { r with afterRecord := r.afterRecord.filter fun e => !go.contains e }) s
  go.foldl (fun s e => resetNow e.2.2 s) s

/-- OK first, then the reset. -/
def resetAfter (c : Cmd) (src : ResetSrc) (s : State) : State :=
  afterCheck (modRst (fun r => { r with afterRecord := r.afterRecord ++ [(c.d.ring, c.d.seq, src)] }) (done c 0 s))

/-- LINE or HOST instance for level 0, the device otherwise. -/
def tgtReset (c : Cmd) : Bool := match c.tgt with
  | some (.line (some _)) => c.p 0 == 0
  | some (.host (some _)) => c.p 0 == 0
  | some .device => c.p 0 != 0
  | _ => false

def parReset (c : Cmd) : Bool :=
  decide (c.p 0 < 3) && (if c.p 0 = 1 then decide (c.p 1 < 3) else c.p 1 == 0) && c.clear 2 44

/-- RESET, immediate. -/
def actReset (c : Cmd) (s : State) : State :=
  match c.p 0, c.p 1, c.tgt with
  | 0, _, some (.line (some n)) => assertReset (.lineReset n) (done c 0 s)
  | 0, _, some (.host (some n)) => assertReset (.hostReset n) (done c 0 s)
  | 1, 0, _ => assertReset .planeData (done c 0 s)
  | 1, 1, _ => resetAfter c .planeControl s
  | 1, _, _ => assertReset .planeMgmt (done c 0 s)
  | _, _, _ => resetAfter c .hostWarm s

/-- RESET as a scheduled action: warm, with cause bit 9 (R272). -/
def resetTimed (cmd : Option Cmd) (s : State) : State := match cmd with
  | some c => resetAfter c .cadence s
  | none => resetNow .cadence s

/-! ### Patches and keys -/

def parPatchStage (c : Cmd) (s : State) : Bool :=
  decide (1 ≤ c.le 0 4) && decide (c.le 0 4 ≤ 262144) && decide (c.p 4 < 2) && c.clear 5 44 &&
  !(localMode s && decide (65536 < c.d.time.toNat + c.le 0 4))

/-- PATCH_STAGE (R454). -/
def actPatchStage (c : Cmd) (s : State) : State :=
  let img := c.img
  let len := c.le 0 4
  let persist := c.p 4 == 1
  let kib := (len + 1023) / 1024
  if persist && (s.tst.scanFlag || decide (64 < kib) || decide (64 < s.tst.otpKib + kib)) then refuse c stBadParam s
  else if !img.vendorOk then refuse c stBadParam (raise 0x1F9 (pay1 0) s)
  else if s.tst.owner.isSome && !img.ownerOk then refuse c stBadParam (raise 0x1F9 (pay1 1) s)
  else
    let p : Patch := { digest := fit 32 img.digest, len := len }
    done c 0 (modTst (fun t => { t with
      staged := some p
      otpPatch := if persist then some p else t.otpPatch
      otpKib := if persist then t.otpKib + kib else t.otpKib }) s)

/-- PATCH_ACTIVATE on its tick. The Boolean says that the arbiter refused it. -/
def patchStart (cmd : Option Cmd) (s : State) : State × Bool :=
  if s.tst.staged.isNone then (refuseO cmd stBadParam s, false)
  else
    let r := arbPresent 6 .device s
    if !r.2 then (r.1, true)
    else match cmd with
      | some c => (resetAfter c .fwReq r.1, false)
      | none => (resetNow .fwReq r.1, false)

def parOwnerKey (c : Cmd) (s : State) : Bool := s.tst.owner.isSome || (c.clear 32 44 && c.d.time == 0)

/-- OWNER_KEY (R456). -/
def actOwnerKey (c : Cmd) (s : State) : State :=
  let slot := s.tst.otpSlots.length
  if decide (4 ≤ slot) || s.tst.scanFlag || (s.tst.owner.isSome && !c.img.ownerOk) then refuse c stBadParam s
  else
    let s := modTst (fun t => { t with otpSlots := t.otpSlots ++ [fit 32 c.d.param], owner := ownerOf (t.otpSlots ++ [fit 32 c.d.param]) }) s
    done c 0 (raise 0x1FB (pay2 slot (b2n s.tst.owner.isSome)) s)

def parAttest (c : Cmd) : Bool := decide (c.p 32 < 2) && c.clear 33 44

/-- Body of an attestation record (Table 16.4), bytes 24 to 191, unsigned. -/
def attestBody (s : State) (c : Cmd) (x y : List Byte) : List Byte :=
  let t := s.tst
  fit 32 c.d.param ++
  [BitVec.ofNat 8 (b2n t.scanFlag + 2 * b2n t.owner.isSome + 4 * b2n t.active.isSome + 8 * b2n s.rst.trimSafe + 16 * c.p 32), 0x10] ++
  bytesLE 2 t.fail.toNat ++ zeros 4 ++ fit 32 x ++ fit 32 y ++ fit 32 Config.otpHash ++ fit 32 (t.owner.getD [])

/-- ATTEST (R457). After zeroisation there is no key to give a public part of: what such a record holds there is open. -/
def actAttest (c : Cmd) (s : State) : State :=
  if !domOn s 10 then refuse c stPoweredOff s
  else if !s.tst.idKeyOk && !s.tst.scanFlag then refuse c stInternal s
  else
    let d := draw s
    let e := draw d.2
    let gone := c.p 32 == 1 && s.tst.scanFlag
    let x := if gone then bytesLE 32 d.1 else if c.p 32 = 1 then fit 32 Config.identityPublicKey else Config.romHash
    let y := if gone then bytesLE 32 e.1 else if c.p 32 = 1 then fit 32 (Config.identityPublicKey.drop 32)
      else match s.tst.active with | some p => p.digest | none => []
    let body := attestBody s c x y
    let sig := if s.tst.scanFlag then zeros 64 else fit 64 (Config.identitySign body)
    let s := if gone then e.2 else s
    let r := tlmFormId 8 5 false 0 0 (now s) (body ++ sig ++ zeros 60) s
    done c r.2 (raise 0x1FD (pay1 r.2) r.1)

/-! ### Hardware scrubbers (Tables 14.3, 14.4) -/

/-- A damaged word of the bank store: the spec does not give the store's layout, so its target, bank and register are open. A swap
of the target is refused until the word is rewritten. -/
def bankWordLost (s : State) : State :=
  let a := draw s
  let b := draw a.2
  let c := draw b.2
  let s := c.2
  let act := c.1 % 2 == 1
  let mark (l : List Nat) (offs : List Nat) : List Nat :=
    let o := offs.getD (b.1 % max offs.length 1) 0
    if l.contains o then l else l ++ [o]
  let all := (List.range 0x124).map (4 * ·)
  if a.1 % 32 < 8 then
    let f (x : LineBank) : LineBank := { x with bad := mark x.bad (all.filter fun o => (lineBankMask o).isSome) }
    modLine (Fin.ofNat 8 (a.1 % 32)) (fun l => if act then { l with act := f l.act } else { l with shd := f l.shd }) s
  else if a.1 % 32 < 24 then
    let f (x : HostBank) : HostBank := { x with bad := mark x.bad (all.filter fun o => (hostBankMask o).isSome) }
    modHost (Fin.ofNat 16 (a.1 % 32 - 8)) (fun h => if act then { h with act := f h.act } else { h with shd := f h.shd }) s
  else
    let f (x : PortBank) : PortBank := { x with bad := mark x.bad (all.filter fun o => (portBankMask o).isSome) }
    modPort (Fin.ofNat 8 (a.1 % 32 - 24)) (fun p => if act then { p with act := f p.act } else { p with shd := f p.shd }) s

/-- Cadence, scheduler and arbiter words: those below 256 are read as the slots, as the event's payload names a slot; any other is
link or beat state, rebuilt from the next mark. -/
def cadenceWordLost (addr : Nat) (s : State) : State :=
  if addr < 256 then freeSlot (Fin.ofNat 256 addr) s
  else treeLost .b (some 1) (treeLost .a (some 1) s)

/-- A damaged latch or log entry is discarded; which one holds the word is open. -/
def eventWordLost (s : State) : State :=
  let d := draw s
  let n := d.2.evt.latches.length
  let m := d.2.evt.log.length
  let k := d.1 % max (n + m) 1
  { d.2 with evt := { d.2.evt with latches := if k < n then d.2.evt.latches.eraseIdx k else d.2.evt.latches
                                   log := if k < n then d.2.evt.log else d.2.evt.log.eraseIdx (k - n) } }

/-- Secure store (R453): which item holds the word is open. -/
def secureWordLost (s : State) : State :=
  let d := draw s
  let k := d.1 % 3
  let s := raise 0x1FE (pay1 k) d.2
  modTst (fun t => match k with
    | 0 => { t with idKeyOk := false }
    | 1 => { t with owner := ownerOf t.otpSlots }
    | _ => { t with staged := none }) s

/-- Domain of a protected memory (Table 14.3); the shadows of set-up registers stand in the domain of each register's block. -/
def memDomain : Nat → Nat
  | 1 => 10
  | 2 => 2
  | 3 => 1
  | 4 => 49
  | 5 => 3
  | 7 => 7
  | _ => 0

/-- The domain of a memory, and the scrubbers' enables (Tables 14.3, 14.12). -/
def scrubOn (s : State) (mem addr : Nat) : Bool :=
  decide (1 ≤ mem) && decide (mem ≤ 8) && domOn s (if mem = 8 then setupDomain addr else memDomain mem) &&
  (if mem = 8 then bit (scrubCfg s) 29 else bit (scrubCfg s) 30)

/-- A hardware scrubber reads a word (R409, R411, R412). -/
def hardScrub (mem addr : Nat) (ecc : Option EccOutcome) (s : State) : State :=
  if !scrubOn s mem addr then s
  else match ecc with
    | none => s
    | some .check => s
    | some .single => eccCorr mem addr s
    | some .double =>
      match mem with
      | 3 => escalate (some 3) (eccNote 3 addr s)
      | 4 => bankWordLost (eccNote 4 addr s)
      | 5 => cadenceWordLost addr (eccNote 5 addr s)
      | 6 => eventWordLost (eccNote 6 addr s)
      | 7 => secureWordLost (eccNote 7 addr s)
      | 8 =>
        let s := eccNote 8 addr s
        regSet addr (reg s addr) s
      | m => eccUnc m addr s

def execHardwareScrub (mem addr : Nat) (ecc : Option EccOutcome) (s : State) : Host.Outcome State Fault Refusal :=
  .next (hardScrub mem addr ecc s)

end Sys2Proof.Machine
end

