-- ==== Sys2Proof/Machine/Clocks.lean ====
section
/-! DEFINITION. Clocks: REFCLK lost and restored (R38, R39, R262, R497), the housekeeping oscillator (R41). -/

namespace Sys2Proof.Machine

/-- A transmitter on REFCLK loss: electrical idle at once, TX_DISABLE_n kept (R38, R156, R158). -/
def txRefLost (n : Fin 8) (s : State) : State :=
  modTx n (fun x => { x with st := .off, dacOn := false, drain := none, waitDriver := false }) s

/-- A receive path on REFCLK loss: DARK without an event, unless OFF or dark already (R39). -/
def rxRefLost (n : Fin 8) (s : State) : State :=
  if s.lines[n].rx.st = .off ∨ s.lines[n].rx.st = .dark then s else enterDark n true s

/-- A host receiver on REFCLK loss: IDLE without an event, its coefficients held (R39). -/
def hostRefLost (n : Fin 16) (s : State) : State :=
  if s.hosts[n].st = .off ∨ s.hosts[n].st = .idle then s else hostIdle n s

/-- The cadence unit of a chanter or drone runs holdover with the cause REFCLK (R262); one that holds over already says nothing
more. -/
def cadRefLost (s : State) : State :=
  if standalone s || s.cad.st == 1 then s
  else if s.cad.st = 4 then modCad (fun c => { c with holdCause := some 2 }) s
  else enterHoldover 2 (modCad (fun c => { c with switchTo := none }) s)

/-- REFCLK is lost. At step 2 of a cold exit the step completes without it (R497). -/
def refclkLost (s : State) : State :=
  if s.refOk then
    let s := raise 0x000 0 { s with refOk := false, refLostAt := s.clk }
    cadRefLost (forFin 16 hostRefLost (forFin 8 rxRefLost (forFin 8 txRefLost s)))
  else pllStep false s

/-- A line lane held in DARK by the loss: its outage begins now (R39). A lane in DARK that sees light leaves it. -/
def rxRefBack (n : Fin 8) (s : State) : State :=
  if s.lines[n].rx.st = .dark then
    let s := if s.lines[n].rx.darkByRefclk then outageStart n s else s
    if lightSeen s n then leaveDark n s else s
  else s

def hostRefBack (n : Fin 16) (s : State) : State :=
  if s.hosts[n].st = .idle ∧ s.hosts[n].sigDet then hostLeaveIdle n s else s

/-- REFCLK is back and the line and host PLLs have locked (R38, R39). -/
def refclkRestored (s : State) : State :=
  if s.refOk || !domOn s 8 then s
  else
    let s := raise 0x001 (pay1 (satU 32 (ticksUs (s.clk - s.refLostAt)))) { bandsChoose s with refOk := true, pllAt := s.clk }
    let s := freeBeatStart s
    lanesMayLeave (forFin 16 hostRefBack (forFin 8 rxRefBack s))

def execRefclkLost (s : State) : Host.Outcome State Fault Refusal := .next (refclkLost s)
def execRefclkRestored (s : State) : Host.Outcome State Fault Refusal := .next (refclkRestored s)

/-- The retention-clocked detector finds the oscillator outside its limit: HKO_OK reads 0 (Table 1.4). -/
def execHousekeepingOscillatorLoss (s : State) : Host.Outcome State Fault Refusal := .next { s with hkoOk := false }
def execHousekeepingOscillatorRestored (s : State) : Host.Outcome State Fault Refusal := .next { s with hkoOk := true }

end Sys2Proof.Machine
end

