-- ==== Sys2Proof/Machine/RegLane.lean ====
section
/-! DEFINITION. What the registers of the LINE, HOST and PORT blocks read (chapters 2 to 7, R402, Tables 18.1 and 18.2). A word
that no register table lists reads 0 (R478). -/

namespace Sys2Proof.Machine

/-- Two signed values in the halves of a word, each cut to its field. -/
def twoFields (w : Nat) (lo hi : Int) : Word := pack [(toField w lo, 0, w), (toField w hi, 16, w)]

/-- ADC_SKEW (R87): the largest of the slices' skew estimates, and their root mean square. DESIGN CHOICE (log entry 68): the root
is rounded to the nearest integer. -/
def skewWord (l : List Nat) : Word :=
  let q := ((l.map fun x => x * x).foldl (· + ·) 0, l.length)
  let root := if l.isEmpty then 0
    else bisect (fun k => decide ((2 * k - 1) * (2 * k - 1) * q.2 ≤ 4 * q.1)) 16 0
  pack [(satU 16 (l.foldl max 0), 16, 16), (satU 16 root, 0, 16)]

/-- Coefficients 2k and 2k + 1 of a captured list, in units of 2⁻ᵉ, rounded to the field (R129). -/
def coefWord (e w : Nat) (l : List Rat) (k : Nat) : Word :=
  let v (i : Nat) : Int := roundRat (l.getD i 0 * ((2 ^ e : Nat) : Rat))
  twoFields w (v (2 * k)) (v (2 * k + 1))

/-- Bits 31:0 and 63:32 of a quantity. -/
def loWord (v : Nat) : Word := BitVec.ofNat 32 v
def hiWord (v : Nat) : Word := BitVec.ofNat 32 (v / 2 ^ 32)

/-! ### Converters (R106, Tables 3.11, 3.13, 5.11, 5.12, 7.14, 7.15) -/

/-- ADC_STS or DAC_STS; the spare's number stands in [13:8], or in [14:8] for a line ADC. Without a spare it is meaningless. -/
def convSts (c : Converter) : Word :=
  pack [(c.swapCnt, 20, 12), (c.abortCnt, 18, 2), (min 3 (c.roles.filter (· == .failed)).length, 16, 2),
        (b2n (spareSlice c).isSome, 15, 1), ((spareSlice c).getD 0, 8, 7)]

/-- Role code of a slice: phase, or failed and spare as the two highest codes of the field. -/
def roleCode (top : Nat) : SliceRole → Nat
  | .phase l => l
  | .failed => top - 1
  | .spare => top

/-- ADC_MAP_k or DAC_MAP_k. -/
def convMap (top : Nat) (c : Converter) (k : Nat) : Word :=
  (List.range 4).foldl (fun (w : Word) (j : Nat) => match c.roles[4 * k + j]? with
    | some r => w ||| BitVec.ofNat 32 (roleCode top r * 256 ^ j)
    | none => w) 0

/-! ### Counters (Tables 13.8 to 13.10) -/

/-- The word at an offset from B. -/
def ctrRead (c : Ctr) (o : Nat) : Word :=
  let sels (lo : Nat) : Word := pack ((List.finRange 8).filterMap fun (k : Fin 8) =>
    if lo ≤ k.val ∧ k.val < lo + 4 then some (c.sel[k], 8 * (k.val - lo), 8) else none)
  if o = 0x00 then loWord c.fix.toNat
  else if o = 0x04 then hiWord c.fix.toNat
  else if o = 0x08 then sels 0
  else if o = 0x0C then sels 4
  else if o = 0x10 then pack [(c.ovf.toNat, 0, 8), (b2n c.fixOvf, 8, 1)]
  else if 0x18 ≤ o ∧ o < 0x58 then
    let v := c.cnt[Fin.ofNat 8 ((o - 0x18) / 8)].toNat
    if o % 8 = 0 then loWord v else hiWord v
  else 0

/-- W1C of CNT_OVF. -/
def ctrW1c (v : Word) (c : Ctr) : Ctr :=
  let f (x : CtrVals) : CtrVals := { x with ovf := x.ovf &&& ~~~(v.setWidth 8), fixOvf := x.fixOvf && !bit v 8 }
  { c with toCtrVals := f c.toCtrVals, tick := c.tick.map fun t => { t with base := f t.base } }

/-! ### LINE_n -/

/-- 0x000 to 0x063. -/
def lineFront (s : State) (n : Fin 8) (o : Nat) : Word :=
  let l := s.lines[n]
  let r := l.rx
  if o = 0x00 then
    pack [(r.coldCnt, 24, 8), (r.relockCnt, 16, 8), (b2n r.squelch, 11, 1), (b2n r.fallback, 10, 1), (b2n (lightSeen s n), 9, 1),
          (b2n (inFrameBit s n), 8, 1), (acqCode r.st, 0, 4)]
  else if o = 0x04 then l.act.rxfe
  else if o = 0x08 then l.act.tia
  else if o = 0x0C then pack [(if l.act.tiaEn then r.tiaCode else 0, 20, 4), (r.vga, 8, 8), (r.rms, 0, 8)]
  else if o = 0x10 then pack [(toField 16 r.freq, 16, 16), (b2n r.cdrLock, 7, 1), (r.rot, 0, 7)]
  else if o = 0x14 then convSts r.adc
  else if o = 0x18 then skewWord r.skews
  else if 0x20 ≤ o ∧ o < 0x64 then convMap 0x7F r.adc ((o - 0x20) / 4)
  else 0

def posField : Option Int → Nat × Nat
  | some p => (toField 10 p, 1)
  | none => (0, 0)

/-- 0x100 to 0x207; `plain`: the lane runs in mode 4 with CODE 0b10, where CORR reads 0 (R134). DEDUCED (log entry 68): LVL_3 holds
the low eight bits of the level's two's complement, so that +128 reads 0x80. -/
def lineEqRegs (l : Line) (plain : Bool) (o : Nat) : Word :=
  let e := l.eq
  let pos (j : Nat) : Word :=
    let a := posField (e.live.pos.getD (2 * j) none)
    let b := posField (e.live.pos.getD (2 * j + 1) none)
    pack [(b.2, 31, 1), (b.1, 16, 10), (a.2, 15, 1), (a.1, 0, 10)]
  if o = 0x100 then l.act.eqCtl
  else if o = 0x104 then l.act.eqMu
  else if o = 0x108 then l.act.fgPos0
  else if o = 0x10C then l.act.fgPos1
  else if o = 0x110 then l.act.qual
  else if o = 0x114 then
    pack [(e.bankAge, 8, 8), (b2n e.sat, 7, 1), (b2n e.stored.isSome, 6, 1), (b2n e.muted, 4, 1), (b2n e.conv, 3, 1),
          (e.phase, 0, 3)]
  else if o = 0x118 then pos 0
  else if o = 0x11C then pos 1
  else if o = 0x120 then twoFields 16 e.snr e.eye
  else if o = 0x124 then pack [(if plain then 0 else e.corr, 16, 16), (e.preFec, 0, 16)]
  else if o = 0x128 then pack [(b2n (muteOk l), 31, 1), (e.mutePen, 16, 15), (toField 16 e.margin, 0, 16)]
  else if o = 0x12C then pack [(b2n e.capValid, 31, 1)]
  else if 0x140 ≤ o ∧ o < 0x1C0 then coefWord 8 12 e.cap.main ((o - 0x140) / 4)
  else if 0x1C0 ≤ o ∧ o < 0x1E0 then coefWord 8 12 e.cap.fg ((o - 0x1C0) / 4)
  else if 0x1E0 ≤ o ∧ o < 0x200 then coefWord 10 10 e.cap.nl ((o - 0x1E0) / 4)
  else if o = 0x200 then coefWord 9 10 [e.cap.h1, e.cap.h2] 0
  else if o = 0x204 then
    let v (i : Fin 4) : Nat := toField 8 (roundRat (levelOf e.cap i))
    pack [(v 3, 24, 8), (v 1, 16, 8), (v 2, 8, 8), (v 0, 0, 8)]
  else 0

/-- 0x300 to 0x317; with `plain` INNER_UNC reads 0 (R200). -/
def lineFrm (l : Line) (plain : Bool) (o : Nat) : Word :=
  let f := l.fr
  if o = 0x300 then
    pack [(f.rxFc.toNat, 16, 16), (b2n f.idMismatch, 12, 1), (bits f.rxId 16 2, 10, 2), (bits f.rxId 18 1, 9, 1),
          (b2n f.idValid, 8, 1), (f.skew, 0, 8)]
  else if o = 0x304 then f.rxId
  else if o = 0x308 then
    pack [(f.farMargin.toNat, 16, 16), (f.farState, 12, 4), (b2n f.farMuted, 11, 1), (b2n f.farSquelch, 10, 1), (f.farAge, 0, 8)]
  else if o = 0x30C then pack [(f.scErr, 16, 16), (f.hchkErr, 0, 16)]
  else if o = 0x310 then if plain then 0 else loWord f.innerUnc.toNat
  else if o = 0x314 then if plain then 0 else hiWord f.innerUnc.toNat
  else 0

/-- TX_STS.TRN_STATE: local while the lane asks for no training or runs in mode 4 (Table 5.8). -/
def trnStateRead (s : State) (n : Fin 8) : Nat :=
  if domOn s (txDomain n) && (modeOf s == 4 || !s.lines[n].act.trnReq) then 6 else s.lines[n].tx.trnState

/-- 0x400 to 0x503. -/
def lineTxRegs (s : State) (n : Fin 8) (o : Nat) : Word :=
  let l := s.lines[n]
  let x := l.tx
  let nl (f : Nat → Nat) : Word := pack ((List.range 4).map fun j => (f j, 8 * j, 8))
  if o = 0x400 then l.act.txCfg
  else if o = 0x404 then l.act.trnCfg
  else if o = 0x408 then l.act.drv
  else if o = 0x40C then
    pack [(x.reqCnt, 16, 16), (x.retryCnt, 8, 8), (b2n (x.st == .run), 7, 1), (b2n x.txDis, 6, 1), (b2n x.mismatch, 5, 1),
          (b2n (x.lastGood.isSome && domOn s (txDomain n)), 4, 1), (trnStateRead s n, 0, 3)]
  else if 0x410 ≤ o ∧ o < 0x430 then l.act.fir.getD ((o - 0x410) / 4) 0
  else if 0x430 ≤ o ∧ o < 0x450 then
    let k := (o - 0x430) / 4
    twoFields 10 (x.live.fir.getD (2 * k) 0) (x.live.fir.getD (2 * k + 1) 0)
  else if 0x450 ≤ o ∧ o < 0x490 then l.act.nlpd.getD ((o - 0x450) / 4) 0
  else if 0x490 ≤ o ∧ o < 0x4D0 then
    let k := (o - 0x490) / 4
    nl fun j => toField 8 (x.live.nl.getD (4 * k + j) 0)
  else if o = 0x4D0 then convSts x.dac
  else if 0x4E0 ≤ o ∧ o < 0x504 then convMap 0x3F x.dac ((o - 0x4E0) / 4)
  else 0

/-- The lane carries the host lane's bits unchanged: mode 4 with CODE 0b10 (R200). -/
def plainLane (s : State) (n : Fin 8) : Bool := modeOf s == 4 && lineCode s n == 2

def lineRead (s : State) (n : Fin 8) (o : Nat) : Word :=
  if o < 0x100 then lineFront s n o
  else if o < 0x300 then lineEqRegs s.lines[n] (plainLane s n) o
  else if o < 0x400 then lineFrm s.lines[n] (plainLane s n) o
  else if o < 0x800 then lineTxRegs s n o
  else if o < 0x858 then ctrRead s.lineCtr[n] (o - 0x800)
  else 0

/-! ### HOST_n (R234) -/

def hostRead (s : State) (n : Fin 16) (o : Nat) : Word :=
  let h := s.hosts[n]
  if o = 0x00 then
    pack [(h.coldCnt, 24, 8), (h.resumeCnt, 16, 8), (b2n (hostTx s n == .run), 9, 1), (b2n h.sigDet, 8, 1), (hostCode h.st, 0, 3)]
  else if o = 0x04 then h.act.rxCfg
  else if o = 0x08 then h.act.eqCfg
  else if o = 0x0C then h.act.txCfg
  else if o = 0x10 then h.act.firLo
  else if o = 0x14 then h.act.firHi
  else if o = 0x18 then h.act.test
  else if o = 0x20 then pack [(toField 12 h.freq, 20, 12), (b2n h.lock, 16, 1), (h.dcg, 8, 5), (h.peak, 0, 6)]
  else if o = 0x24 then twoFields 16 h.snr h.eye
  else if o = 0x28 then
    let on := hostReady s n
    pack [(h.slipCnt, 16, 16), (h.lockLoss, 8, 8), (b2n (on && bits h.act.test 8 2 != 0), 2, 1),
          (b2n (on && bits h.act.test 0 3 != 0), 1, 1), (b2n h.chkLock, 0, 1)]
  else if o = 0x2C then BitVec.ofNat 32 h.testErr
  else if o = 0x40 then convSts h.adc
  else if 0x50 ≤ o ∧ o < 0x74 then convMap 0x3F h.adc ((o - 0x50) / 4)
  else if o = 0x7C then pack [(b2n h.capValid, 31, 1)]
  else if 0x80 ≤ o ∧ o < 0xB0 then coefWord 6 10 h.cap.ffe ((o - 0x80) / 4)
  else if o = 0xB0 then pack [(toField 9 (roundRat (h.cap.d1 * 256)), 0, 9)]
  else if 0x800 ≤ o ∧ o < 0x858 then ctrRead s.hostCtr[n] (o - 0x800)
  else 0

/-! ### PORT_p (R73, R74, R206) -/

/-- FEC_HIST_k as 64 bits: the count and OVF (Table 6.15). -/
def histValue (e : Nat × Bool) : Nat := e.1 % 2 ^ 48 + if e.2 then 2 ^ 63 else 0

/-- The active bank's CFG; a port that the mode does not use reads 0 (Table 2.7). -/
def portCfgRead (s : State) (p : Fin 8) : Word := if portEnabled s p then s.ports[p].act.cfg else 0

def portRead (s : State) (p : Fin 8) (o : Nat) : Word :=
  let x := s.ports[p]
  if o = 0x00 then portCfgRead s p
  else if o = 0x08 then x.act.mapLo
  else if o = 0x0C then x.act.mapHi
  else if o = 0x10 then pack [(x.latTx, 16, 16), (x.latRx, 0, 16)]
  else if o = 0x14 then pack [((latTarget s p).1, 16, 16), ((latTarget s p).2, 0, 16)]
  else if o = 0x18 then pack [(toField 32 x.owlMean, 0, 32)]
  else if o = 0x1C then
    pack [(x.owlCount, 23, 9), (b2n x.owlForeign, 22, 1), (b2n x.owlHold, 21, 1), (x.owlSpread, 0, 16)]
  else if o = 0x80 then x.act.fec
  else if o = 0x84 then pack [(x.ser, 16, 16), (b2n x.degraded, 2, 1), (b2n x.amLock1, 1, 1), (b2n x.amLock0, 0, 1)]
  else if o = 0x88 then loWord x.fecUnc.toNat
  else if o = 0x8C then hiWord x.fecUnc.toNat
  else if 0x100 ≤ o ∧ o < 0x188 then
    let v := histValue (x.hist.getD ((o - 0x100) / 8) (0, false))
    if o % 8 = 0 then loWord v else hiWord v
  else if 0x400 ≤ o ∧ o < 0x458 then ctrRead s.portCtr[p] (o - 0x400)
  else 0

end Sys2Proof.Machine
end

