-- ==== Sys2Proof/Machine/RegDev.lean ====
section
/-! DEFINITION. What the registers of the device blocks read (GLB, RST, RING, EVT, CAD, MON, CAL, CHK, PMC, TST, OCP), the
whole of BAR0 (R476 to R480), and the upper-word latches (R7). -/

namespace Sys2Proof.Machine

/-! ### GLB (R483 to R490) and RST (R443) -/

def packPins (p : Pins) : Nat := p.mode.toNat + 8 * p.cadRole.toNat + 32 * b2n p.attach + 64 * p.addr.toNat

/-- The digest of the active patch, its bits [15:0]; 0 without one (Table 18.8). -/
def patchVersion (s : State) : Nat := match s.tst.active with
  | some p => leAt p.digest 0 2
  | none => 0

def glbRead (s : State) (o : Nat) : Word :=
  if o = 0x00 then 0x84501F3B
  else if o = 0x04 then pack [(b2n Config.extendedGrade, 16, 1), (0x10, 0, 8)]
  else if o = 0x08 then Config.subsys
  else if o = 0x0C then
    (if s.rst.mgmtRun then pack [(Config.romVersion.toNat, 16, 16), (patchVersion s, 0, 16)] else 0)
  else if o = 0x10 then loWord Config.uid.toNat
  else if o = 0x14 then hiWord Config.uid.toNat
  else if o = 0x20 then
    pack [(b2n s.straps.ovrUsed, 31, 1), (packPins s.straps.pins, 16, 8), (packPins s.straps.eff, 0, 8)]
  else if o = 0x28 then pack [(b2n Config.sris, 0, 1)]
  else if o = 0x30 then pack [(s.viol, 16, 8), (b2n (locked s), 0, 1)]
  else if o = 0x40 then planeSts s
  else 0

def rstRead (s : State) (o : Nat) : Word :=
  let r := s.rst
  let on (lo : Nat) : Word :=
    (List.range 32).foldl (fun (w : Word) (j : Nat) => if domOn s (lo + j) then w ||| BitVec.ofNat 32 (2 ^ j) else w) 0
  if o = 0x00 then pack [(r.cause.toNat, 0, 13)]
  else if o = 0x04 then pack [(r.count, 16, 16), (r.first, 4, 4), (r.level, 0, 3)]
  else if o = 0x08 then on 0
  else if o = 0x0C then on 32
  else if o = 0x10 then
    pack [(b2n r.cur.isSome, 31, 1), (b2n r.seqDir, 30, 1), (r.seqDom, 24, 6), (r.failed, 8, 8), (satU 8 r.queue.length, 0, 8)]
  else if o = 0x14 then pack [(b2n r.trimValid, 31, 1), (b2n r.trimSafe, 30, 1), (r.trimAttempts, 28, 2), (r.trimRestarts, 24, 4)]
  else if o = 0x24 then pack [(b2n r.woke, 31, 1), (r.wakeCause, 24, 2), (r.sleptS, 0, 16)]
  else 0

/-! ### RING (R286, R491) and EVT (R475) -/

def ringRead (s : State) (off : Nat) : Word :=
  if off = 0x2000 then pack [(b2n (localMode s), 3, 1), (b2n s.pcie.bme, 2, 1), (b2n s.pcie.link, 1, 1), (b2n s.rst.mgmtRun, 0, 1)]
  else if off = 0x2A00 then s.pcie.pend
  else match ringAt off with
    | some (r, 3) => ringSts s r
    | _ => 0

def evtRead (s : State) (o : Nat) : Word :=
  if o = 0x04 then pack [(b2n (faultPin s), 31, 1), (b2n (eventPin s), 30, 1), (s.evt.latches.length, 0, 10)]
  else if o = 0x08 then s.evt.logSeq
  else if 0x40 ≤ o ∧ o < 0x80 then BitVec.ofNat 32 (bits s.evt.masks (32 * ((o - 0x40) / 4)) 32)
  else if 0x80 ≤ o ∧ o < 0x100 then BitVec.ofNat 32 (bits s.evt.routes (32 * ((o - 0x80) / 4)) 32)
  else 0

/-! ### PCI Express configuration space (R4, Table 9.1, R484) -/

/-- Identity fields of the endpoint's configuration space: vendor, device, revision, class code, subsystem vendor, subsystem. -/
def configVendor : BitVec 16 := 0x1F3B
def configDevice : BitVec 16 := 0x8450
def configRevision : BitVec 8 := 0x10
def configClass : BitVec 24 := 0x028000
def configSubsysVendor : BitVec 16 := Config.subsys.setWidth 16
def configSubsys : BitVec 16 := (Config.subsys >>> 16).setWidth 16

/-! ### CAD (R278) -/

def linkCode : LinkState → Nat
  | .down => 0
  | .align => 1
  | .up => 2
  | .disabled => 3

/-- DOM_ID reads the identity in force; a device that acquires reads what was written (R278). -/
def domainRead (s : State) : Word :=
  if standalone s then 0 else if s.cad.st = 1 then reg s 0x4014 else s.cad.domain

/-- CAD.SUM_k, at a chanter (Table 8.18). -/
def sumRead (s : State) (k : Nat) : Word :=
  let m := s.cad.sum
  let two (a b : Nat) : Word := pack [(a, 16, 13), (b, 0, 13)]
  if (chanterOf s).isNone then 0
  else if k = 0 then two m.warn m.fault
  else if k = 1 then two m.info m.dev
  else if k = 2 then two m.hold m.miss
  else if k = 3 then
    pack [(b2n m.firstValid, 31, 1), (b2n m.firstFault, 30, 1), (m.firstSrc, 21, 9), (m.firstIdx, 0, 12)]
  else if k = 4 then pack [(toField 8 m.tmax, 24, 8), (m.preFec.toNat, 0, 16)]
  else if k = 5 then two m.alt (satU 13 (s.cad.beat - m.beat).toNat)
  else 0

def cadRead (s : State) (o : Nat) : Word :=
  let c := s.cad
  if o = 0x00 then pack [(c.role.toNat, 30, 2), ((reg s 0x4000).toNat, 0, 30)]
  else if o = 0x04 then
    -- while acquiring no tree is followed
    let acq := c.st == 1
    pack [(c.st, 28, 4), (if acq then 0 else treeNum c.follow, 27, 1), (b2n (usable s .a), 26, 1), (b2n (usable s .b), 25, 1), (b2n c.idxValid, 24, 1),
          (if acq then 7 else depthIn s c.follow, 21, 3), (b2n c.enumDone, 20, 1), (if c.idxValid then c.idx else 0, 0, 12)]
  else if o = 0x08 then loWord (now s).toNat
  else if o = 0x0C then hiWord (now s).toNat
  else if o = 0x10 then BitVec.ofNat 32 c.period
  else if o = 0x14 then domainRead s
  else if o = 0x20 then pack [((freeSlots s).length, 16, 9), (c.skip, 8, 8), (c.late, 0, 8)]
  else if 0x40 ≤ o ∧ o < 0x60 then slotWord c.slots[Fin.ofNat 256 (bits (reg s 0x4024) 0 8)] ((o - 0x40) / 4)
  else if 0x80 ≤ o ∧ o < 0xA8 then
    let l := c.links[Fin.ofNat 10 ((o - 0x80) / 4)]
    pack [(linkCode l.st, 30, 2), (b2n l.holdRx, 29, 1), (l.err, 20, 8), (satU 15 l.delay, 0, 15)]
  else if 0xC0 ≤ o ∧ o < 0xD8 then sumRead s ((o - 0xC0) / 4)
  else 0

/-! ### MON (R365, R385) -/

def monRead (s : State) (k : Fin 2) (o : Nat) : Word :=
  let m := s.mon[k]
  let c := m.cfg
  if o = 0x00 then
    pack [(c.mode, 30, 2), (b2n c.beatLock, 29, 1), (b2n c.hkOut, 28, 1), (b2n m.staged.isSome, 27, 1), (c.scanR, 24, 3),
          (c.resp, 20, 4), (c.avg, 16, 4), (c.shift, 12, 4), (c.chan, 6, 6), (c.list.length, 0, 6)]
  else if o = 0x04 then pack [(c.k, 16, 13), (c.rate, 0, 16)]
  else if o = 0x08 then
    pack [(m.drop, 16, 16), (m.overrun, 8, 8), (b2n m.ovr, 7, 1), (b2n (m.cfg.mode == 1 && monSettling m (gridRef s m (monNextIndex m).1)), 6, 1),
          (b2n (match m.busy with | .burst .. => true | _ => false), 5, 1), (b2n (m.busy == .segment), 4, 1),
          (b2n (m.busy == .round), 3, 1)]
  else if o = 0x0C then pack [(satU 24 (monGd s c), 8, 24), (satU 8 (nFill s c), 0, 8)]
  else if o = 0x10 then pack [(b2n m.drain, 31, 1), (m.buf.length, 20, 11), (m.wraps, 12, 8), (m.wptr, 0, 10)]
  else if o = 0x1C then pack [(c.recTime, 8, 8), (c.recN, 0, 8)]
  else if 0x20 ≤ o ∧ o < 0x40 then pack ((List.range 4).map fun j => (c.list.getD (o - 0x20 + j) 0, 8 * j, 6))
  else 0

/-- Register offset of BUF_RDATA of a converter, and of the RADDR that goes with it (R365). -/
def rdataAt (off : Nat) : Option (Fin 2) := if off = 0x5018 then some 0 else if off = 0x5098 then some 1 else none
def raddrOff (k : Fin 2) : Nat := 0x5014 + 0x80 * k.val

/-- The word of a converter's buffer that WADDR names, where its entry is held (R360). -/
def bufWord (m : Mon) (waddr : Nat) : Option Word :=
  let ofs := (waddr / 4 + 2048 - (m.wptr + 1024 - m.buf.length)) % 1024
  match m.buf[ofs]? with
  | some x => some (BitVec.ofNat 32 (leAt (sampleBytes x) (4 * (waddr % 4)) 4))
  | none => none

def compRead (c : Comp) : Word :=
  pack [(b2n c.en, 31, 1), (b2n c.dir, 30, 1), (b2n c.urgEn, 29, 1), (c.assign, 28, 1), (c.urgR, 26, 2), (c.urgN - 1, 23, 3),
        (c.hys, 16, 5), (c.thr, 0, 10)]

/-- GRACE_LEFT in tenths of a second, begun ones counted (Table 12.10). -/
def graceLeft (s : State) : Nat :=
  if s.therm.stage = 2 then min 6000 ((s.therm.graceEnd - s.clk + 15624999) / 15625000) else 0

def sensRead (x : Sensor) : Word :=
  pack [(b2n x.broken, 31, 1), (x.cause, 29, 2), (b2n x.rateX, 28, 1), (b2n x.muteX, 27, 1), (b2n x.advX, 26, 1),
        (b2n x.warnX, 25, 1), (toField 8 (satS 8 x.rate), 16, 8), (toField 16 (if x.broken then x.mute * 16 else x.temp / 4096), 0, 16)]

/-- 0x5100 to 0x52C7. -/
def monShared (s : State) (o : Nat) : Word :=
  let t := s.therm
  let thr := s.thr[Fin.ofNat 64 (bits (reg s 0x5190) 0 6)]
  if 0x100 ≤ o ∧ o < 0x180 then compRead s.comp[Fin.ofNat 32 ((o - 0x100) / 4)]
  else if o = 0x180 then
    (List.finRange 32).foldl (fun (w : Word) (i : Fin 32) => if s.comp[i].level then w ||| BitVec.ofNat 32 (2 ^ i.val) else w) 0
  else if o = 0x184 then pack [(t.rounds, 16, 16), (t.late, 8, 8), (roundCode t.cfg.round, 0, 3)]
  else if o = 0x194 then pack [(b2n thr.hiEn, 31, 1), (b2n thr.high, 30, 1), (thr.hi.toNat, 0, 24)]
  else if o = 0x198 then pack [(b2n thr.loEn, 31, 1), (b2n thr.low, 30, 1), (thr.lo.toNat, 0, 24)]
  else if o = 0x19C then pack [(thr.hyst.toNat, 0, 24)]
  else if o = 0x200 then pack [(t.cfg.rateLim, 26, 6), (t.cfg.grace, 16, 10), (t.cfg.round, 0, 8)]
  else if o = 0x204 then pack [(t.cfg.muteHold, 24, 8), (t.cfg.shedDwell, 16, 8), (t.cfg.liftGap, 8, 8)]
  else if o = 0x208 then pack [(t.ideal1, 16, 16), (t.ideal0, 0, 16)]
  else if o = 0x20C then
    pack ([(t.stage, 29, 3), (graceLeft s, 16, 13), (toField 8 t.tmax, 0, 8)] ++
      (List.finRange 8).map fun (n : Fin 8) => (b2n s.lines[n].eq.muted, 8 + n.val, 1))
  else if o = 0x210 then pack [(t.tripSensor, 28, 4), (t.tripCorr, 24, 4), (t.tripCount, 0, 16)]
  else if o = 0x214 then pack [(t.order.length, 24, 8), (t.shed.length, 16, 8), (b2n t.exhausted, 15, 1)]
  else if 0x220 ≤ o ∧ o < 0x258 then
    let x := t.sens[Fin.ofNat 14 ((o - 0x220) / 4)]
    pack [(toField 8 x.warn, 16, 8), (toField 8 x.advise, 8, 8), (toField 8 x.mute, 0, 8)]
  else if 0x260 ≤ o ∧ o < 0x298 then sensRead t.sens[Fin.ofNat 14 ((o - 0x260) / 4)]
  else if 0x2A0 ≤ o ∧ o < 0x2C8 then
    let k := (o - 0x2A0) / 4
    pack [((t.order.getD (2 * k) 0).toNat, 0, 16), ((t.order.getD (2 * k + 1) 0).toNat, 16, 16)]
  else 0

/-! ### CAL (R337), CHK (R420), PMC (R402), TST (R461) -/

/-- Target with the highest starvation count, the lowest index among equals. -/
def starveTop (s : State) : Fin 49 :=
  (List.finRange 49).foldl (fun (b : Fin 49) (t : Fin 49) => if s.cal.starve[b] < s.cal.starve[t] then t else b) 0

def calRead (s : State) (o : Nat) : Word :=
  let c := s.cal
  if o = 0x00 then pack [(b2n c.marginW, 8, 1), (c.dt, 0, 5)]
  else if o = 0x04 then
    pack [(b2n c.reedOk, 31, 1), (b2n c.frozen, 30, 1), (b2n c.busy.isSome, 29, 1), (c.lastTarget, 16, 8),
          ((calQueue s).length, 0, 7)]
  else if o = 0x08 then loWord c.sess.toNat
  else if o = 0x0C then hiWord c.sess.toNat
  else if o = 0x10 then pack [(satU 12 c.since, 16, 12), (c.reject, 8, 8), (c.fail, 0, 8)]
  else if o = 0x14 then pack [(s.arb.defer, 16, 16), (s.arb.conflict, 0, 16)]
  else if o = 0x18 then let t := starveTop s; pack [(t.val, 24, 8), (c.starve[t], 0, 17)]
  else 0

/-- Bytes that a running scan has scanned (R406): on chip 8 bytes, less those before its start, in every cycle of 327.68 MHz; how fast
host memory answers is not stated. -/
def scanned (clk : Nat) (j : ChkJob) : Nat :=
  if j.space = 0 then Config.hostScanned j.ord clk % j.len
  else
    let cycles := (clk - j.began) * 32768 / 15625
    min (j.len - 1) (8 * cycles - j.start % 8)

def chkRead (s : State) (o : Nat) : Word :=
  let c := s.chk
  if o < 0x80 then
    let x := c.ch[Fin.ofNat 4 (o / 0x20)]
    if o % 0x20 = 0x00 then
      pack [(b2n x.job.isSome, 31, 1), (b2n x.mismatch, 30, 1), (b2n x.err, 29, 1), (x.wait.length, 24, 3)]
    else if o % 0x20 = 0x04 then loWord x.res.toNat
    else if o % 0x20 = 0x08 then hiWord x.res.toNat
    else if o % 0x20 = 0x0C then
      (match x.job with | some j => BitVec.ofNat 32 (scanned s.clk j) | none => BitVec.ofNat 32 x.done)
    else 0
  else if o = 0x84 then pack [(c.calPasses.toNat, 16, 16), (c.overdue, 8, 8), (c.calBlock, 0, 5)]
  else if o = 0x88 then pack [(c.corr, 16, 16), (c.unc, 8, 8), (c.lastMem, 0, 4)]
  else if o = 0x8C then pack [(c.upsets, 16, 16), (c.lastWord, 0, 16)]
  else 0

def pmcRead (s : State) (o : Nat) : Word :=
  if o < 0x58 then ctrRead s.pmc o
  else if o = 0x60 then s.tlm.serial
  else if o = 0x64 then loWord s.tlm.snapTime.toNat
  else if o = 0x68 then hiWord s.tlm.snapTime.toNat
  else if o = 0x78 then
    (match s.cap with | some r => pack [(1, 31, 1), (r.kind, 16, 2), (r.target.toNat, 0, 16)] | none => 0)
  else 0

def tstRead (s : State) (o : Nat) : Word :=
  let t := s.tst
  if o = 0x00 then pack [(b2n t.done, 31, 1), (t.skipped.toNat, 8, 6), (t.fail.toNat, 0, 6)]
  else if 0x10 ≤ o ∧ o < 0x40 then
    let v := t.sig[Fin.ofNat 6 ((o - 0x10) / 8)].toNat
    if o % 8 = 0 then loWord v else hiWord v
  else if o = 0x40 then
    pack [(b2n t.blk.isSome, 31, 1), (b2n t.lastFail, 30, 1), (t.lastKinds, 16, 3), (t.lastTarget.toNat, 0, 16)]
  else if o = 0x44 then loWord t.blkEnd.toNat
  else if o = 0x48 then hiWord t.blkEnd.toNat
  else if o = 0x60 then
    pack [(b2n t.scanFlag, 31, 1), (b2n t.idKeyOk, 30, 1), (b2n t.owner.isSome, 29, 1), (b2n t.staged.isSome, 28, 1),
          (b2n (s.rst.mgmtRun && t.active.isSome), 27, 1), (t.otpSlots.length, 8, 3), (t.otpKib, 0, 8)]
  else 0

/-! ### BAR0 -/

/-- The register at an aligned offset, its live value. CFG and DOM_ID of CAD and the lock read as their chapters lay down; every
other set-up register reads what it holds. -/
def liveWord (s : State) (off : Nat) : Word :=
  if off = 0x30 ∨ off = 0x4000 ∨ off = 0x4014 ∨ (setupSpec off).isNone then
    let o := off % 0x1000
    match off / 0x1000 with
    | 0x0 => glbRead s o
    | 0x1 => rstRead s o
    | 0x2 => ringRead s off
    | 0x3 => evtRead s o
    | 0x4 => cadRead s o
    | 0x5 => if o < 0x100 then monRead s (Fin.ofNat 2 (o / 0x80)) (o % 0x80) else monShared s o
    | 0x6 => calRead s o
    | 0x7 => chkRead s o
    | 0x8 => pmcRead s o
    | 0x9 => tstRead s o
    | _ =>
      if 0x10000 ≤ off ∧ off < 0x20000 then lineRead s (Fin.ofNat 8 ((off - 0x10000) / 0x2000)) (off % 0x2000)
      else if 0x20000 ≤ off ∧ off < 0x30000 then hostRead s (Fin.ofNat 16 ((off - 0x20000) / 0x1000)) o
      else if 0x30000 ≤ off ∧ off < 0x34000 then portRead s (Fin.ofNat 8 ((off - 0x30000) / 0x800)) (off % 0x800)
      else 0
  else reg s off

/-- Lower words of the quantities of more than 32 bits (R7): the upper word stands at the next register. Besides counts, times and
signatures these are the ring bases, the MSI-X message addresses, PD_STS and the START of the slot shown. -/
def isLower (off : Nat) : Bool :=
  let ctr (b : Nat) : Bool := b == 0 || (decide (0x18 ≤ b) && decide (b < 0x58) && b % 8 == 0)
  off == 0x10 || off == 0x1008 || off == 0x4008 || off == 0x4044 || off == 0x6008 || off == 0x8064 || off == 0x9044 ||
  (decide (0x2100 ≤ off) && decide (off < 0x23C0) && off % 16 == 0) ||
  (decide (0x2800 ≤ off) && decide (off < 0x2A00) && off % 16 == 0) ||
  (decide (0x7000 ≤ off) && decide (off < 0x7080) && off % 0x20 == 4) ||
  (decide (0x8000 ≤ off) && decide (off < 0x8058) && ctr (off - 0x8000)) ||
  (decide (0x9010 ≤ off) && decide (off < 0x9040) && off % 8 == 0) ||
  (decide (0x10000 ≤ off) && decide (off < 0x20000) &&
    (off % 0x2000 == 0x310 || (decide (0x800 ≤ off % 0x2000) && decide (off % 0x2000 < 0x858) && ctr (off % 0x2000 - 0x800)))) ||
  (decide (0x20000 ≤ off) && decide (off < 0x30000) && decide (0x800 ≤ off % 0x1000) && decide (off % 0x1000 < 0x858) &&
    ctr (off % 0x1000 - 0x800)) ||
  (decide (0x30000 ≤ off) && decide (off < 0x34000) &&
    (off % 0x800 == 0x88 || (decide (0x100 ≤ off % 0x800) && decide (off % 0x800 < 0x188) && off % 8 == 0) ||
     (decide (0x400 ≤ off % 0x800) && decide (off % 0x800 < 0x458) && ctr (off % 0x800 - 0x400))))

/-- The upper-word latches of a path (R480). -/
def latches (s : State) : Path → List (Nat × Word)
  | .pcie => s.hiPcie
  | .twoWire => s.hiWire
def setLatches (p : Path) (l : List (Nat × Word)) (s : State) : State := match p with
  | .pcie => { s with hiPcie := l }
  | .twoWire => { s with hiWire := l }

/-- BUF_RDATA: the word at WADDR, which then advances (R365): 0 as long as nothing was written since the reset (Table 11.14); later a
word of no held entry is what the buffer happens to hold. -/
def rdataRead (k : Fin 2) (s : State) : Word × State :=
  let a := bits (reg s (raddrOff k)) 2 12
  let next (s : State) : State := regSet (raddrOff k) (BitVec.ofNat 32 ((a + 1) % 4096 * 4)) s
  match bufWord s.mon[k] a with
  | some w => (w, next s)
  | none =>
    if s.mon[k].buf.isEmpty && s.mon[k].wptr == 0 && s.mon[k].wraps == 0 then (0, next s)
    else let d := draw s; (BitVec.ofNat 32 d.1, next d.2)

/-- A read of one aligned word over a path, with its side effects (R7, R430, R478, R480). -/
def readWord (p : Path) (off : Nat) (s : State) : Word × State :=
  if s.rst.ctrlReset then (0xFFFFFFFF, s)
  else match rdataAt off with
    | some k => rdataRead k s
    | none => match assocGet (latches s p) off with
      | some v => (v, setLatches p (assocDel (latches s p) off) s)
      | none =>
        (liveWord s off, if isLower off then setLatches p (assocSet (latches s p) (off + 4) (liveWord s (off + 4))) s else s)

end Sys2Proof.Machine
end

