-- ==== Sys2Proof/Machine/Access.lean ====
section
/-! DEFINITION. Register accesses (R7, R9, R281, R282, R476 to R481, R489): writes under their access codes, and reads with side
effects. -/

namespace Sys2Proof.Machine

/-- A path reaches BAR0: PCI Express decodes it, or the two-wire target is powered (R279, R280, R479). -/
def pathOk (s : State) : Path → Bool
  | .pcie => !localMode s && s.pcie.link && s.pcie.mse
  | .twoWire => domOn s 2 && !s.rst.vioLow

/-- GLB.SETUP_LOCK (R489): only a write of exactly 1 does anything. -/
def lockWrite (v : Word) (s : State) : State := if v = 1 then regSet 0x30 1 s else s

/-- FEC_HIST_k.OVF (Table 6.15). -/
def histW1c (p : Fin 8) (k : Nat) (v : Word) (s : State) : State :=
  modPort p (fun x => { x with hist := x.hist.mapIdx fun i e => if i = k ∧ bit v 31 then (e.1, false) else e }) s

/-- Registers with W1C and WO fields (Table 18.14): CNT_OVF, FEC_HIST, RST_CAUSE, SLEEP_STS, COEF_CAPTURE. -/
def actionWrite (off : Nat) (v : Word) (s : State) : State :=
  if off = 0x1000 then modRst (fun r => { r with cause := r.cause &&& ~~~(v.setWidth 13) }) s
  else if off = 0x1024 then modRst (fun r => { r with woke := r.woke && !bit v 31 }) s
  else if off = 0x8010 then { s with pmc := ctrW1c v s.pmc }
  else if 0x10000 ≤ off ∧ off < 0x20000 then
    let n := Fin.ofNat 8 ((off - 0x10000) / 0x2000)
    if off % 0x2000 = 0x12C then (if bit v 0 then lineCapture n s else s)
    else if off % 0x2000 = 0x810 then { s with lineCtr := upd s.lineCtr n (ctrW1c v) }
    else s
  else if 0x20000 ≤ off ∧ off < 0x30000 then
    let n := Fin.ofNat 16 ((off - 0x20000) / 0x1000)
    if off % 0x1000 = 0x07C then (if bit v 0 then hostCapture n s else s)
    else if off % 0x1000 = 0x810 then { s with hostCtr := upd s.hostCtr n (ctrW1c v) }
    else s
  else if 0x30000 ≤ off ∧ off < 0x34000 then
    let p := Fin.ofNat 8 ((off - 0x30000) / 0x800)
    let o := off % 0x800
    if o = 0x410 then { s with portCtr := upd s.portCtr p (ctrW1c v) }
    else if 0x100 ≤ o ∧ o < 0x188 ∧ o % 8 = 4 then histW1c p ((o - 0x100) / 8) v s
    else s
  else s

/-- A write of one aligned word (R9). While a ring is enabled its BASE is not taken (R286). -/
def writeWord (off : Nat) (v : Word) (s : State) : State :=
  if s.rst.ctrlReset then s
  else if off = 0x30 then lockWrite v s
  else match ringAt off with
    | some (r, 2) => writeRingCfg r v s
    | some (r, 0) => if ringEn s r then s else writeSetup off v s
    | some (r, 1) => if ringEn s r then s else writeSetup off v s
    | _ =>
      if 0x2800 ≤ off ∧ off < 0x2A00 then msixFlush (writeSetup off v s)
      else if off = 0x8070 then tlmOffer (writeSetup off v s)
      else actionWrite off v (writeSetup off v s)

/-- A host write of some size at some offset: anything but an aligned word is discarded (R478). -/
def hostWriteReg (p : Path) (off size : Nat) (v : Word) (s : State) : State :=
  if pathOk s p && size == 4 && off % 4 == 0 then writeWord off v s else s

/-- Offsets of the doorbells in BAR2 stand after those of BAR0, as the two-wire target numbers them (R288, R310). -/
def isDoorbell (off : Nat) : Bool := decide (0x40000 ≤ off) && decide (off < 0x44000)

/-- A host read of an aligned word of BAR0, or of a doorbell; the answer is put out. With PCI Express attachment the two-wire target
does not reach the doorbells. -/
def hostReadReg (p : Path) (off : Nat) (s : State) : State :=
  if pathOk s p then
    (if isDoorbell off then emit (.read p (if p = .twoWire ∧ !localMode s then 0 else doorbellRead s (off - 0x40000))) s
     else if off % 4 = 0 then let r := readWord p off s; emit (.read p r.1) r.2 else emit (.read p 0) s)
  else s

def execRegisterWrite (p : Path) (off size : Nat) (v : Word) (s : State) : Host.Outcome State Fault Refusal :=
  .next (hostWriteReg p off size v s)
def execLowerWordRead (p : Path) (off : Nat) (s : State) : Host.Outcome State Fault Refusal := .next (hostReadReg p off s)
def execSetupLock (p : Path) (v : Word) (s : State) : Host.Outcome State Fault Refusal := .next (hostWriteReg p 0x30 4 v s)
def execRingEnable (p : Path) (r : RingId) (v : Word) (s : State) : Host.Outcome State Fault Refusal :=
  .next (hostWriteReg p (ringBase r + 8) 4 v s)
def execRingDisable (p : Path) (r : RingId) (v : Word) (s : State) : Host.Outcome State Fault Refusal :=
  .next (hostWriteReg p (ringBase r + 8) 4 v s)
def execBufRdataRead (p : Path) (k : Fin 2) (s : State) : Host.Outcome State Fault Refusal :=
  .next (hostReadReg p (0x5018 + 0x80 * k.val) s)

/-! ### The two-wire target (R310, R479) -/

/-- The content of the two-wire address space. -/
inductive WirePlace where
  | bar0
  | doorbell
  | memory
  | none
  deriving DecidableEq, Repr

def wirePlace (a : Nat) : WirePlace :=
  if a < 0x40000 then .bar0
  else if a < 0x44000 then .doorbell
  else if 0x80000 ≤ a ∧ a < 0x90000 then .memory
  else .none

/-- The two-wire-error event: 0 partial word, 1 address out of range (Table 9.15). -/
def wireError (cause : Nat) (s : State) : State := raise 0x026 (pay1 cause) s

/-- A place that the attachment hides: doorbells and ring memory with PCI Express attachment. -/
def wireHidden (s : State) (a : Nat) : Bool := !localMode s && (wirePlace a == .doorbell || wirePlace a == .memory)

/-- Some address of a transaction lies in a hidden place. -/
def wireMeetsHidden (s : State) (a len : Nat) : Bool :=
  !localMode s && ((decide (a < 0x44000) && decide (0x40000 < a + len)) || (decide (a < 0x90000) && decide (0x80000 < a + len))) &&
    decide (0 < len)

/-- A word or byte is accessed as what the attachment lets the target reach. -/
def wireAt (s : State) (a : Nat) : WirePlace := if wireHidden s a then .none else wirePlace a

/-- Writes from an address on: registers and doorbells word by word, the rest byte by byte. -/
def wireWriteFrom (a : Nat) : List Byte → State → State
  | [], s => s
  | b0 :: t, s =>
    match wireAt s a with
    | .none => wireWriteFrom (a + 1) t s
    | .memory =>
      wireWriteFrom (a + 1) t (if s.rst.ctrlReset then s else { s with lmem := Memory.set s.lmem (a - 0x80000) b0 })
    | place => match t with
      | b1 :: b2 :: b3 :: u =>
        let w : Word := BitVec.ofNat 32 (ofBytesLE [b0, b1, b2, b3])
        wireWriteFrom (a + 4) u (if place = .bar0 then writeWord a w s else doorbellWrite (a - 0x40000) w s)
      | _ => wireError 0 s

/-- Bytes before the next word boundary of a register or doorbell: a partial word, which is discarded. -/
def wireHead (s : State) (a len : Nat) : Nat :=
  if wireAt s a = .bar0 ∨ wireAt s a = .doorbell then min len ((4 - a % 4) % 4) else 0

/-- A write transaction. -/
def wireWrite (a : Nat) (d : List Byte) (s : State) : State :=
  if !pathOk s .twoWire then s
  else
    let s := if wireMeetsHidden s a d.length then wireError 1 s else s
    let h := wireHead s a d.length
    wireWriteFrom (a + h) (d.drop h) (if h = 0 then s else wireError 0 s)

/-- Reads so many bytes from an address on; the bytes of a partial word read 0. The fuel bounds the words. -/
def wireReadFrom : Nat → Nat → Nat → State → List Byte × State
  | 0, _, _, s => ([], s)
  | f + 1, a, n, s =>
    if n = 0 then ([], s)
    else match wireAt s a with
      | .none => let q := wireReadFrom f (a + 1) (n - 1) s; (0 :: q.1, q.2)
      | .memory => let q := wireReadFrom f (a + 1) (n - 1) s; (Memory.get s.lmem (a - 0x80000) :: q.1, q.2)
      | place =>
        if n < 4 then (zeros n, wireError 0 s)
        else
          let r : Word × State := if place = .bar0 then readWord .twoWire a s else (doorbellRead s (a - 0x40000), s)
          let q := wireReadFrom f (a + 4) (n - 4) r.2
          (bytesLE 4 r.1.toNat ++ q.1, q.2)

/-- A read transaction. -/
def wireRead (a len : Nat) (s : State) : State :=
  if !pathOk s .twoWire then s
  else
    let s := if wireMeetsHidden s a len then wireError 1 s else s
    let h := wireHead s a len
    let r := wireReadFrom len (a + h) (len - h) (if h = 0 then s else wireError 0 s)
    emit (.readBytes (zeros h ++ r.1)) r.2

def execTwoWireWrite (a : Nat) (d : List Byte) (s : State) : Host.Outcome State Fault Refusal := .next (wireWrite a d s)
def execTwoWireRead (a len : Nat) (s : State) : Host.Outcome State Fault Refusal := .next (wireRead a len s)

end Sys2Proof.Machine
end

