-- ==== Sys2Proof/Machine/Attach.lean ====
section
/-! DEFINITION. The PCI Express attachment (R16, R31, R279, R280): the link, and the configuration bits that act on the control
plane. -/

namespace Sys2Proof.Machine

/-- The link is lost without a reset: the rings stall (Table 1.2). -/
def linkLost (s : State) : State := { s with pcie := { s.pcie with link := false } }

/-- The link comes up; in local ring mode the lanes stay idle (R309), and it does not train under PERST_N or in reset. -/
def linkBack (form : LinkForm) (s : State) : State :=
  if localMode s || s.rst.perstLow || s.rst.ctrlReset then s
  else msixFlush { s with pcie := { s.pcie with link := true, refOk := true, form := form } }

/-- A configuration write (R279, R280): the enables, the settings of Table 9.1, and the bits of the error status that it clears;
interrupts that were pending go out when memory requests may be issued again. -/
def configWrite (bme mse d3 : Bool) (ctl : PcieCtl) (aerClear : BitVec 32) (s : State) : State :=
  if s.pcie.link then
    msixFlush { s with pcie := { s.pcie with bme := bme, mse := mse, d3hot := d3, ctl := ctl, aer := s.pcie.aer &&& ~~~aerClear } }
  else s

def execPcieLinkLoss (s : State) : Host.Outcome State Fault Refusal := .next (linkLost s)
def execPcieLinkUp (form : LinkForm) (s : State) : Host.Outcome State Fault Refusal := .next (linkBack form s)
def execPcieConfigWrite (busMaster memSpace d3hot : Bool) (ctl : PcieCtl) (aerClear : BitVec 32) (s : State) :
    Host.Outcome State Fault Refusal :=
  .next (configWrite busMaster memSpace d3hot ctl aerClear s)

end Sys2Proof.Machine
end

