-- ==== Sys2Proof/Machine/CmdService.lean ====
section
/-! DEFINITION. Commands of the control plane itself: QUERY_CMD, TELEM_REFETCH, EVENT_MASK, EVENT_LOG_READ, OCP_XFER (R173, R297,
R303, R472, R473). -/

namespace Sys2Proof.Machine

/-! ### QUERY_CMD and TELEM_REFETCH -/

def parQueryCmd (c : Cmd) (s : State) : Bool :=
  decide (c.p 0 < 16) && c.clear 1 4 && c.clear 8 44 &&
  s.rings.outcomes.any fun o => o.ring.val == c.p 0 && o.seq == BitVec.ofNat 32 (c.le 4 4)

/-- The latest outcome of the command named (R297, Table 9.13). -/
def actQueryCmd (c : Cmd) (s : State) : State :=
  match s.rings.outcomes.find? fun o => o.ring.val == c.p 0 && o.seq == BitVec.ofNat 32 (c.le 4 4) with
  | some o => done c (o.status.toNat + 256 * b2n o.final + 2 ^ 32 * o.result.toNat) s
  | none => refuse c stBadParam s

/-- The record that a TELEM_REFETCH names. -/
def refetchRec (c : Cmd) (x : TlmRec) : Bool :=
  x.ring == some (Fin.ofNat 8 (c.p 0)) && x.id == c.le 4 4

def parTelemRefetch (c : Cmd) (s : State) : Bool :=
  decide (c.p 0 < 8) && c.clear 1 4 && c.clear 8 44 && s.tlm.recs.any (refetchRec c)

/-- The record is written again; one that has not been written yet is written once (R303). -/
def actTelemRefetch (c : Cmd) (s : State) : State :=
  let again (x : TlmRec) : TlmRec := if refetchRec c x && !x.due then { x with due := true, refetch := true } else x
  done c 0 { s with tlm := { s.tlm with recs := s.tlm.recs.map again } }

/-! ### EVENT_MASK and EVENT_LOG_READ -/

def parEventMask (c : Cmd) : Bool :=
  decide (c.p 0 < 3) && decide (c.le 2 2 ≤ c.le 4 2) && decide (c.le 4 2 ≤ 0x1FF) && decide (c.p 6 < 4) && c.clear 1 2 && c.clear 7 44

/-- Sources from `lo` to `hi` as a mask. -/
def srcRange (lo hi : Nat) : List Nat := (List.range 512).filter fun k => decide (lo ≤ k) && decide (k ≤ hi)

/-- A source that may be masked: raised, and not of the fault class (R465, R473). -/
def maskable (k : Nat) : Bool := match evtClass k with
  | some cls => cls != 2
  | none => false

def actEventMask (c : Cmd) (s : State) : State :=
  let l := srcRange (c.le 2 2) (c.le 4 2)
  let e := s.evt
  let e : Evt := match c.p 0 with
    | 0 => { e with masks := (l.filter maskable).foldl (fun (m : BitVec 512) k => m ||| BitVec.ofNat 512 (2 ^ k)) e.masks }
    | 1 => { e with masks := l.foldl (fun (m : BitVec 512) k => m &&& ~~~(BitVec.ofNat 512 (2 ^ k))) e.masks }
    | _ => { e with routes := l.foldl (fun (m : BitVec 1024) k =>
        (m &&& ~~~(BitVec.ofNat 1024 (3 * 4 ^ k))) ||| BitVec.ofNat 1024 (c.p 6 * 4 ^ k)) e.routes }
  done c 0 { s with evt := e }

/-- Bytes of a log entry (Table 17.3). -/
def logBytes (e : LogEntry) : List Byte :=
  bytesLE 2 ((evtClass e.src).getD 0 * 2 ^ 12 + e.src) ++ bytesLE 2 (b2n e.masked) ++ bytesLE 4 e.payload.toNat ++
  bytesLE 8 e.time.toNat

/-- The entries that EVENT_LOG_READ writes: from the first still held at or after the one asked for. -/
def logEntries (c : Cmd) (s : State) : List LogEntry :=
  (s.evt.log.filter fun e => decide ((e.seq - BitVec.ofNat 32 (c.le 0 4)).toNat < 2 ^ 31)).take (c.p 4)

def parEventLogRead (c : Cmd) (s : State) : Bool :=
  decide (1 ≤ c.p 4) && decide (c.p 4 ≤ 64) && c.clear 5 44 &&
  (s.evt.log.any fun e => decide ((e.seq - BitVec.ofNat 32 (c.le 0 4)).toNat < c.p 4)) &&
  !(localMode s && decide (65536 < c.d.time.toNat + 16 * (logEntries c s).length + 4))

/-- EVENT_LOG_READ (R472): entries and their check word, to host memory or to local ring memory. -/
def actEventLogRead (c : Cmd) (s : State) : State :=
  match logEntries c s with
  | [] => refuse c stBadParam s
  | e :: l =>
    let b := (e :: l).flatMap logBytes
    let b := b ++ bytesLE 4 (crc32c c.d.time.toNat b)
    let res := e.seq.toNat + 2 ^ 32 * (l.length + 1)
    if localMode s then done c res { s with lmem := Memory.write s.lmem c.d.time.toNat b }
    else if busOk s then done c res (emit (.hostWrite c.d.time.toNat b) s)
    else refuse c stInternal s

/-! ### OCP_XFER -/

def parOcpXfer (c : Cmd) : Bool :=
  decide (c.p 0 < 4) && decide (1 ≤ c.p 1) && decide (c.p 1 ≤ 32) && decide (c.p 2 ≤ 8) && decide (c.p 2 ≤ c.p 1) && c.clear 3 4 &&
  c.clear 36 44

/-- Raw bytes on one chip select, behind firmware's own transactions (R173, R305). -/
def actOcpXfer (c : Cmd) (s : State) : State :=
  ocpPush { what := .xfer c, cs := c.p 0, addr := 0, send := (List.range (c.p 1)).map fun i => c.d.param.getD (4 + i) 0, rd := c.p 2 } s

end Sys2Proof.Machine
end

