-- ==== Sys2Proof/Machine/CmdCadence.lean ====
section
/-! DEFINITION. Schedule and domain commands: SCHED_INSTALL, SCHED_FREE, DOM_SCHEDULE, DOM_CANCEL, ENUMERATE, and the slot of a TIMED
command (R251, R263 to R271, R305, R307). -/

namespace Sys2Proof.Machine

/-- TARGET of the domain commands: the device, which must be the chanter of tree A. -/
def tgtChanter (c : Cmd) (s : State) : Bool := c.tgt == some .device && s.cad.role == 2

/-- Parameters of an action from the 12 bytes that SCHED_INSTALL gives it. -/
def actionParOk (target : BitVec 16) (action : Nat) (b : List Byte) : Bool :=
  let t := (Tgt.ofCode target).getD .device
  match action with
  | 0x01 => (swapTgts target b 5).isSome
  | 0x03 => capOk t b
  | 0x04 => testOk t b 12
  | _ => allZero b 0 12

/-- The slot that SCHED_INSTALL builds. -/
def schedSlot (c : Cmd) : Slot :=
  { slotOf c.d.param c.d.tag with src := .install, param := fit 12 (c.d.param.drop 32) }

/-- The slot named with AT_SLOT is free, holds the default window, or one installed by SCHED_INSTALL (R305). -/
def slotNameable (s : State) (i : Fin 256) : Bool :=
  let x := s.cad.slots[i]
  !x.valid || x.src == .default || x.src == .install

def parSchedInstall (c : Cmd) (s : State) : Bool :=
  decide (c.p 29 < 2) && c.clear 30 32 && slotOk c.d.param && actionParOk (schedSlot c).target (schedSlot c).action (schedSlot c).param &&
  (c.p 29 == 0 || slotNameable s (Fin.ofNat 256 (c.p 28)))

/-- SCHED_INSTALL (R267, R269, R305): one DEFERRED record with FINAL = 1 and the slot. -/
def actSchedInstall (c : Cmd) (s : State) : State :=
  (slotFirst s (schedSlot c)).elim (refuse c stPassed s) fun y =>
    match (if c.p 29 = 1 then some (Fin.ofNat 256 (c.p 28)) else lowestFree s) with
    | none => refuse c stSchedFull s
    | some i => answer c stDeferred true y.armed i.val (putSlot i y s)

def parSchedFree (c : Cmd) : Bool := decide (c.p 0 < 2) && c.clear 2 4 && c.clear 8 44

/-- The slots that SCHED_FREE frees. -/
def freeTargets (c : Cmd) (s : State) : List (Fin 256) :=
  (List.finRange 256).filter fun i => s.cad.slots[i].valid &&
    (if c.p 0 = 1 then s.cad.slots[i].tag == BitVec.ofNat 32 (c.le 4 4) else i.val == c.p 1)

/-- SCHED_FREE. RESULT byte 0 cannot hold 256, so for 256 slots freed it has no value in the spec. -/
def actSchedFree (c : Cmd) (s : State) : State :=
  let l := freeTargets c s
  let s := l.foldl (fun s i => freeSlot i s) s
  if l.length < 256 then done c l.length s
  else
    let d := draw s
    done c (d.1 % 256) d.2

def parDomSchedule (c : Cmd) : Bool := slotOk (c.d.param.drop 4) && c.clear 36 44

/-- DOM_SCHEDULE at the chanter of tree A (R270): broadcast, and installed here as at every device. -/
def actDomSchedule (c : Cmd) (s : State) : State :=
  let b := fit 36 c.d.param
  let x := slotOf (b.drop 4) 0
  if earlier x.start (after s (usSub 100)) then refuse c stPassed s
  else answer c stDeferred true (occTime s x 0) 0 (domTake .a b (broadcast .a 0x06 b s))

def parDomCancel (c : Cmd) : Bool := c.clear 0 4 && c.clear 8 44

def actDomCancel (c : Cmd) (s : State) : State :=
  let tag := BitVec.ofNat 32 (c.le 4 4)
  done c 0 (domFree tag (broadcast .a 0x07 (bytesLE 4 tag.toNat) s))

/-- ENUMERATE: answered when the enumeration ends (R305). -/
def actEnumerate (c : Cmd) (s : State) : State := startEnum [c] s

/-- A TIMED command installs one slot and is answered as R267 lays down (R307). -/
def timedInstall (c : Cmd) (action : Nat) (s : State) : State :=
  let x : Slot := { Slot.empty with
    action := action, target := c.d.target, start := c.d.time, tag := c.d.tag, src := .timed, param := fit 44 c.d.param
    cmd := some c }
  (slotFirst s x).elim (refuse c stPassed s) fun y =>
    match lowestFree s with
    | none => refuse c stSchedFull s
    | some i => answer c stDeferred false y.armed 0 (putSlot i y s)

end Sys2Proof.Machine
end

