-- ==== Sys2Proof/Machine/CmdLane.lean ====
section
/-! DEFINITION. Lane commands: LANE_ACQUIRE, TRAIN_START, LAT_MEASURE, HOST_MSG (R69 to R73, R101, R167, R197, R305). -/

namespace Sys2Proof.Machine

/-- A single LINE or HOST instance. -/
def tgtLane (c : Cmd) : Bool := match c.tgt with
  | some (.line (some _)) => true
  | some (.host (some _)) => true
  | _ => false

/-- The receive domain of a lane is off. -/
def laneRxOff (c : Cmd) (s : State) : Bool := match c.tgt with
  | some (.line (some n)) => !domOn s (rxDomain n)
  | some (.host (some n)) => !domOn s (hostDomain n)
  | _ => false

def laneTxOff (c : Cmd) (s : State) : Bool := match tgtLine c with
  | some n => !domOn s (txDomain n)
  | none => false

/-- LANE_ACQUIRE: the cold acquisition begins and the command completes (R305). -/
def actLaneAcquire (c : Cmd) (s : State) : State :=
  done c 0 (match c.tgt with
    | some (.line (some n)) => lineCold n s
    | some (.host (some n)) => hostCold n s
    | _ => s)

/-- A lane outside mode 4. -/
def tgtLineFramed (c : Cmd) (s : State) : Bool := (tgtLine c).isSome && modeOf s != 4

def parTrainStart (c : Cmd) (s : State) : Bool := parNone c && match tgtLine c with
  | some n => s.lines[n].act.trnReq
  | none => false

/-- The exchange of a lane starts, or waits for UP, in which state alone the requester measures; the arbiter may refuse it as class
M8. -/
def trainStart (cmd : Option Cmd) (n : Fin 8) (s : State) : State × Bool :=
  if modeOf s = 4 then (refuseO cmd stBadTarget s, false)
  else if !s.lines[n].act.trnReq then (refuseO cmd stBadParam s, false)
  else if s.lines[n].rx.inTest then
    ((match cmd with | some c => answer c stInTest true s.tst.blkEnd 0 s | none => s), false)
  else if !domOn s (txDomain n) then (refuseO cmd stPoweredOff s, false)
  else match arbHolder s 8 (.line (some n)) with
    | some a => (arbRefuse 8 a.cls s, true)
    | none =>
      let s := modTx n (fun x => { x with trainCmds := x.trainCmds ++ cmd.toList, restartAtUp := x.restartAtUp || cmd.isNone }) s
      (if s.lines[n].rx.st = .up then trnBegin n s else s, false)

def actTrainStart (c : Cmd) (s : State) : State × Bool := match tgtLine c with
  | some n => trainStart (some c) n s
  | none => (s, false)

/-- The port that LAT_MEASURE names. -/
def tgtPort (c : Cmd) : Option (Fin 8) := match c.tgt with
  | some (.port (some p)) => some p
  | _ => none

def tgtLatMeasure (c : Cmd) (s : State) : Bool := modeOf s != 4 && match tgtPort c with
  | some p => portEnabled s p
  | none => false

def parLatMeasure (c : Cmd) : Bool := decide (1 ≤ c.le 0 2) && decide (c.le 0 2 ≤ 256) && c.clear 2 44

/-- A line lane of the port has a domain off (R73). -/
def latOff (c : Cmd) (s : State) : Bool := match tgtPort c with
  | some p => (linesOfPort (modeOf s) p).any fun n => !domOn s (rxDomain n) || !domOn s (txDomain n)
  | none => false

/-- LAT_MEASURE begins; a measurement of the port that still runs ends with the echoes it has. -/
def actLatMeasure (c : Cmd) (s : State) : State := match tgtPort c with
  | none => s
  | some p =>
    let s := latDone p s
    let s := (linesOfPort (modeOf s) p).foldl (fun s n =>
      modFr n (fun f => { f with departs := [], echoes := [], echoHold := false, echoForeign := false }) s) s
    modPort p (fun x => { x with meas := some { cmd := c, n := c.le 0 2, hold := onFreeBeat s } }) s

/-- HOST_MSG numbers the descriptor's bytes: LEN in byte 8 and data from byte 12, so TIME and PARAM are one block (Table 9.13). -/
def msgBlock (c : Cmd) : List Byte := bytesLE 8 c.d.time.toNat ++ fit 44 c.d.param
def msgData (c : Cmd) : List Byte := ((msgBlock c).drop 4).take (byteAt (msgBlock c) 0)

/-- LEN in range, and a place in the lane's queue of 8 (R197). -/
def parHostMsg (c : Cmd) (s : State) : Bool :=
  let b := msgBlock c
  decide (1 ≤ byteAt b 0) && decide (byteAt b 0 ≤ 48) && allZero b 1 4 && match tgtLine c with
    | some n => s.lines[n].fr.send.isNone || decide (s.lines[n].fr.waiting.length < 8)
    | none => false

/-- HOST_MSG: the message waits in order; the command completes when its outcome is known (R197, R198). A place taken since the
check leaves no room. -/
def actHostMsg (c : Cmd) (s : State) : State := match tgtLine c with
  | none => s
  | some n =>
    if parHostMsg c s then sendNext n (modFr n (fun f => { f with waiting := f.waiting ++ [(c, msgData c)] }) s)
    else refuse c stBadParam s

end Sys2Proof.Machine
end

