-- ==== Sys2Proof/Machine/Commands.lean ====
section
/-! DEFINITION. Commands: the checks of R291 in their order, the start of a command (R292, R307, R308), what each opcode does, and the
commands that wait for their turn. -/

namespace Sys2Proof.Machine

/-- No image: what an opcode other than PATCH_STAGE and OWNER_KEY carries. -/
def noImage : ImageCheck := { vendorOk := false, ownerOk := false, digest := [] }

/-! ### Step 3: TARGET -/

/-- MON_THRESHOLD ignores the instance (R363). -/
def tgtMonAny (c : Cmd) : Bool := bits c.d.target 12 4 == 4 && bits c.d.target 8 4 == 0

/-- CAL_REQUEST: one LINE, HOST or MON instance, or the device; that KIND matches it is a parameter check (R335). -/
def tgtCal (c : Cmd) : Bool := match c.tgt with
  | some (.line (some _)) => true
  | some (.host (some _)) => true
  | some (.mon (some _)) => true
  | some .device => true
  | _ => false

/-- A port that the mode does not use is idle (R48). -/
def tgtPortIdle (c : Cmd) (s : State) : Bool := match tgtPort c with
  | some p => !portEnabled s p
  | none => false

/-- TARGET is valid for the opcode (Table 9.13). -/
def opTgt (c : Cmd) (s : State) : Bool :=
  match c.op with
  | 0x10 => tgtBankWrite c s
  | 0x11 => tgtBank c s
  | 0x12 => tgtBank c s
  | 0x13 => (tgtLine c).isSome
  | 0x14 => tgtBankSwap c s
  | 0x22 => tgtChanter c s
  | 0x23 => tgtChanter c s
  | 0x24 => tgtChanter c s
  | 0x30 => tgtLane c
  | 0x31 => tgtLineFramed c s
  | 0x32 => tgtLatMeasure c s
  | 0x33 => tgtLineFramed c s
  | 0x41 => tgtReset c
  | 0x51 => tgtCounters c && !tgtPortIdle c s
  | 0x52 => tgtCounters c && !tgtPortIdle c s
  | 0x53 => tgtLane c
  | 0x70 => tgtMon c
  | 0x71 => tgtMon c
  | 0x72 => tgtMonAny c
  | 0x81 => tgtCal c
  | 0x91 => (testTgt s c.d.target).isSome
  | _ => c.tgt == some .device

/-! ### Step 4: flags and parameters -/

/-- Opcodes that take parameters or an address from TIME (Table 9.13). -/
def opTime (op : Nat) : Bool := op ∈ [0x33, 0x61, 0x90, 0xA0, 0xA3]

/-- FLAGS [7:4] are 0, TIMED is allowed, and TIME is 0 where neither TIMED nor the opcode uses it (Table 9.9). -/
def flagsOk (c : Cmd) : Bool :=
  bits c.d.flags 4 4 == 0 && (!c.timed || (opTimed c).isSome) && (c.timed || opTime c.op || c.d.time == 0)

/-- The parameters are in range (R291 step 4). -/
def opPar (c : Cmd) (s : State) : Bool :=
  match c.op with
  | 0x01 => parQueryCmd c s
  | 0x02 => parTelemRefetch c s
  | 0x10 => parBankWrite c s
  | 0x12 => parBankRead c
  | 0x13 => parCoefLoad c
  | 0x14 => parBankSwap c
  | 0x15 => parSetMode c
  | 0x20 => parSchedInstall c s
  | 0x21 => parSchedFree c
  | 0x22 => parDomSchedule c
  | 0x23 => parDomCancel c
  | 0x31 => parTrainStart c s
  | 0x32 => parLatMeasure c
  | 0x33 => parHostMsg c s
  | 0x34 => parOcpXfer c
  | 0x40 => parPower c s
  | 0x41 => parReset c
  | 0x51 => parCounterClear c
  | 0x52 => parCounterSelect c
  | 0x53 => capOk (c.tgt.getD .device) c.d.param
  | 0x60 => parEventMask c
  | 0x61 => parEventLogRead c s
  | 0x70 => parMonConfig c s
  | 0x72 => parMonThreshold c
  | 0x78 => parThermConfig c
  | 0x79 => parShedOrder c
  | 0x80 => parCalConfig c
  | 0x81 => parCalRequest c s
  | 0x90 => parCheckRun c s
  | 0x91 => testOk (c.tgt.getD .device) c.d.param 44
  | 0xA0 => parPatchStage c s
  | 0xA1 => parNone c && s.tst.staged.isSome
  | 0xA2 => parAttest c
  | 0xA3 => parOwnerKey c s
  | _ => parNone c

/-! ### Step 5: state -/

/-- Aimed at a block under test (R295). -/
def opInTest (c : Cmd) (s : State) : Bool := c.op != 0x72 && match c.tgt with
  | some t => underTest s t
  | none => false

/-- The action needs a domain that is off (R295). What a swap needs is judged as it is done. -/
def opOff (c : Cmd) (s : State) : Bool :=
  match c.op with
  | 0x30 => laneRxOff c s
  | 0x31 => laneTxOff c s
  | 0x32 => latOff c s
  | 0x33 => laneTxOff c s
  | 0x34 => !domOn s 11
  | 0x41 => c.p 0 == 0 && match c.tgt with
    | some (.line (some n)) => blockOff s (.line n)
    | some (.host (some n)) => blockOff s (.host n)
    | _ => false
  | 0x50 => !domOn s 10
  | 0x53 => laneRxOff c s || !domOn s 10
  | 0x81 => match requestTgt c with
    | some t => !calPowered s t
    | none => false
  | 0x91 => testOff s (c.tgt.getD .device)
  | 0xA2 => !domOn s 10
  | _ => false

/-! ### What each opcode does -/

/-- An immediate command that the arbiter refuses is answered MAINT_CONFLICT (R308, R333). -/
def orConflict (c : Cmd) (r : State × Bool) : State := if r.2 then refuse c stMaint r.1 else r.1

/-- A host command of a maintenance class, with what it does where no slot action of the tick goes first (R333 rule 2): one that would be
admitted is refused for it. -/
def hostOffer (c : Cmd) (cls : Nat) (s : State) (r : State × Bool) : State :=
  match (if r.1.arb.admitted.length = s.arb.admitted.length && cls != 8 then none else slotClaim s cls false (c.tgt.getD .device)) with
  | some k => refuse c stMaint (arbRefuse cls k s)
  | none => orConflict c r

/-- The effect of an accepted command. -/
def opAct (c : Cmd) (s : State) : State :=
  match c.op with
  | 0x01 => actQueryCmd c s
  | 0x02 => actTelemRefetch c s
  | 0x10 => actBankWrite c s
  | 0x11 => actBankCopy c s
  | 0x12 => actBankRead c s
  | 0x13 => actCoefLoad c s
  | 0x14 => hostOffer c 4 s (swapStart (some c) c.d.target c.d.param 21 s)
  | 0x15 => actSetMode c s
  | 0x20 => actSchedInstall c s
  | 0x21 => actSchedFree c s
  | 0x22 => actDomSchedule c s
  | 0x23 => actDomCancel c s
  | 0x24 => actEnumerate c s
  | 0x30 => actLaneAcquire c s
  | 0x31 => hostOffer c 8 s (actTrainStart c s)
  | 0x32 => actLatMeasure c s
  | 0x33 => actHostMsg c s
  | 0x34 => actOcpXfer c s
  | 0x40 => actPower c s
  | 0x41 => actReset c s
  | 0x50 => actFreeze (some c) s
  | 0x51 => actCounterClear c s
  | 0x52 => actCounterSelect c s
  | 0x53 => hostOffer c 2 s (capStart (some c) c.d.target c.d.param s)
  | 0x60 => actEventMask c s
  | 0x61 => actEventLogRead c s
  | 0x70 => actMonConfig c s
  | 0x71 => actMonSync c s
  | 0x72 => actMonThreshold c s
  | 0x78 => actThermConfig c s
  | 0x79 => actShedOrder c s
  | 0x80 => actCalConfig c s
  | 0x81 => actCalRequest c s
  | 0x90 => actCheckRun c s
  | 0x91 => hostOffer c 3 s (testStart (some c) c.d.target c.d.param 44 s)
  | 0xA0 => actPatchStage c s
  | 0xA1 => hostOffer c 6 s (patchStart (some c) s)
  | 0xA2 => actAttest c s
  | 0xA3 => actOwnerKey c s
  | _ => done c 0 s

/-! ### Start, and the commands that wait (R292) -/

/-- A TIMED command installs its slot; any other acts. -/
def cmdStart (c : Cmd) (s : State) : State :=
  if c.timed then
    (match opTimed c with
     | some a => timedInstall c a s
     | none => s)
  else opAct c s

/-- Commands of the ring accepted or answered before this one whose final record is not written. -/
def earlierOpen (s : State) (c : Cmd) : Bool :=
  (s.rings.opened.takeWhile fun o => o != (c.d.ring, c.d.seq)).any fun o => o.1 == c.d.ring

/-- The command reads an image or a request from host memory (R455, R457). -/
def opReads (op : Nat) : Bool := op == 0xA0 || op == 0xA3

/-- A command may start: no open FENCE, firmware where it needs it, and memory requests where it makes them (R280). -/
def startable (s : State) (c : Cmd) : Bool :=
  !(c.fence && earlierOpen s c) && (!opFirmware c.op || s.rst.mgmtRun) && (!opReads c.op || busOk s)

/-- The blocks whose shadow banks a command writes (R22, R59). -/
def shadowWrites (s : State) (c : Cmd) : List Block :=
  if c.op = 0x10 then bankTargets s c
  else if c.op = 0x11 ∨ c.op = 0x13 then blocksOf (c.tgt.getD .reed)
  else if c.op = 0x15 then blocksOf .device
  else []

/-- Two commands write the same shadow bank: they take effect in order of acceptance, whatever their rings (R292). -/
def sameShadow (s : State) (c d : Cmd) : Bool := (shadowWrites s c).any fun b => (shadowWrites s d).contains b

/-- The commands that wait and were accepted before this one. -/
def heldBefore (s : State) (c : Cmd) : List Cmd := s.rings.held.takeWhile fun x => x != c

/-- Behind an earlier command of its ring, or one that writes the same shadow bank. -/
def mustWait (s : State) (l : List Cmd) (c : Cmd) : Bool := l.any fun x => x.d.ring == c.d.ring || sameShadow s x c

/-- The first waiting command, in order of acceptance, whose turn has come and that may start. -/
def heldReady (s : State) : Option Cmd :=
  s.rings.held.find? fun c => !mustWait s (heldBefore s c) c && startable s c

/-- Starts the waiting commands whose turn has come, `k` at most. -/
def releaseUpTo : Nat → State → State
  | 0, s => s
  | k + 1, s =>
    match heldReady s with
    | none => s
    | some c => releaseUpTo k (cmdStart c (modRings (fun r => { r with held := r.held.erase c }) s))

def releaseHeld (s : State) : State := releaseUpTo s.rings.held.length s

/-- An accepted command starts, or waits behind what it must wait for. -/
def cmdAccept (c : Cmd) (s : State) : State :=
  if mustWait s s.rings.held c || !startable s c then
    modRings (fun r => { r with held := r.held ++ [c] }) s
  else cmdStart c s

/-- Not allowed on its ring (R306). -/
def opForbidden (c : Cmd) (s : State) : Bool :=
  !opKnown c.op || (!ringPriv s c.d.ring && (!opUnpriv c.op || (c.op == 0x01 && c.p 0 != c.d.ring.val)))

/-- Steps 2 to 5 of R291 for a descriptor that passed step 1. -/
def cmdCheck (c : Cmd) (s : State) : State :=
  if opForbidden c s then refuse c stBadOpcode s
  else if !opTgt c s then refuse c stBadTarget s
  else if !(flagsOk c && opPar c s) then refuse c stBadParam s
  else if opInTest c s then answer c stInTest true s.tst.blkEnd 0 s
  else if opOff c s then refuse c stPoweredOff s
  else cmdAccept c s

/-- The command is open from its fetch to its final record. -/
def cmdOpen (c : Cmd) (s : State) : State := modRings (fun r => { r with opened := r.opened ++ [(c.d.ring, c.d.seq)] }) s

/-- A command taken from its ring: none is while the control plane is in reset. -/
def submit (op : Nat) (d : Desc) (img : ImageCheck) (s : State) : State :=
  if s.rst.ctrlReset then s
  else
    let c : Cmd := { op := op, d := d, era := s.rings.era, img := img }
    releaseHeld (cmdCheck c (cmdOpen c s))

/-! ### Descriptors (R284, R290, R291 step 1, R298) -/

/-- A command ring that has a descriptor to fetch and may fetch it (R280, R286, R290). -/
def fetchCan (k : Fin 16) (s : State) : Bool :=
  let c := RingId.cpl (ringCpl s k)
  ringReady s (.cmd k) && ringEn s c && !ringFull s c && s.rings.cmd[k].prod != s.rings.cmd[k].cons

/-- Rings ahead of ring k in the round since the one served last. -/
def fetchAhead (k : Fin 16) (s : State) : List (Fin 16) :=
  ((List.finRange 16).map fun j => s.rings.turn + 1 + j).takeWhile fun r => r != k

/-- A ring may fetch now: it is its turn among those that may (R290). -/
def fetchOk (k : Fin 16) (s : State) : Bool := fetchCan k s && (fetchAhead k s).all fun r => !fetchCan r s

/-- The descriptor's bytes: those read from host memory, or those in local ring memory (R309). -/
def descBytes (k : Fin 16) (b : List Byte) (s : State) : List Byte :=
  if localMode s then Memory.read s.lmem (ringAddr s (.cmd k) + 64 * (s.rings.cmd[k].cons.toNat % ringN s (.cmd k))) 64 else fit 64 b

/-- Fields of Table 9.9. -/
def descOf (k : Fin 16) (seq : Word) (b : List Byte) : Desc :=
  { ring := k, seq := seq, flags := b.getD 1 0, target := BitVec.ofNat 16 (leAt b 2 2), tag := BitVec.ofNat 32 (leAt b 4 4)
    time := BitVec.ofNat 64 (leAt b 8 8), param := (b.drop 16).take 44 }

/-- PHASE and CHECK of a descriptor (R291 step 1). -/
def descOk (k : Fin 16) (seq n : Nat) (b : List Byte) : Bool :=
  bit (b.getD 1 0) 0 == phaseBit seq n && leAt b 60 4 == crc32c (seq * 2 ^ 32 + 0x01000000 + k.val * 65536) (b.take 60)

/-- What the verification of an image or a request in host memory finds is not in the descriptor: it is open. -/
def imageDraw (op : Nat) (s : State) : ImageCheck × State :=
  if op = 0xA0 ∨ op = 0xA3 then
    let d := draw s
    let e := draw d.2
    ({ vendorOk := d.1 % 2 == 1, ownerOk := d.1 / 2 % 2 == 1, digest := bytesLE 32 e.1 }, e.2)
  else (noImage, s)

/-- One descriptor is fetched and handled. -/
def fetch (k : Fin 16) (bytes : List Byte) (s : State) : State :=
  if !fetchOk k s then s
  else
    let seq := s.rings.cmd[k].cons
    let n := ringN s (.cmd k)
    let b := descBytes k bytes s
    let d := descOf k seq b
    let op := byteAt b 0
    let s := modRings (fun r => { r with turn := k }) (countDev 0x84 1 (modRing (.cmd k) (fun g => { g with cons := g.cons + 1 }) s))
    if descOk k seq.toNat n b then
      let i := imageDraw op s
      submit op d i.1 i.2
    else
      let c : Cmd := { op := op, d := d, era := s.rings.era, img := noImage }
      let s := modRing (.cmd k) (fun g => { g with chkFail := satU 8 (g.chkFail + 1) }) s
      refuse c stCheckFail (cmdOpen c (raiseLimited 0x024 k.val (pay2 k.val seq.toNat) s))

def execDescriptorFetch (k : Fin 16) (bytes : List Byte) (s : State) : Host.Outcome State Fault Refusal := .next (fetch k bytes s)

/-- A completion record is written; resets that waited for it are applied and commands that waited for it start (R292, R293, R305). -/
def recordWrite (c : Fin 16) (s : State) : State := releaseHeld (afterCheck (cplWrite c s).1)

def execCompletionRecordWrite (c : Fin 16) (s : State) : Host.Outcome State Fault Refusal := .next (recordWrite c s)

def execFirmwareBootDone (patchOk : Bool) (s : State) : Host.Outcome State Fault Refusal := .next (releaseHeld (firmwareBoot patchOk s))

/-! ### The opcodes as commands -/

def execNop (d : Desc) (s : State) : Host.Outcome State Fault Refusal := .next (submit 0x00 d noImage s)
def execQueryCmd (d : Desc) (s : State) : Host.Outcome State Fault Refusal := .next (submit 0x01 d noImage s)
def execTelemRefetch (d : Desc) (s : State) : Host.Outcome State Fault Refusal := .next (submit 0x02 d noImage s)
def execBankWrite (d : Desc) (s : State) : Host.Outcome State Fault Refusal := .next (submit 0x10 d noImage s)
def execBankCopy (d : Desc) (s : State) : Host.Outcome State Fault Refusal := .next (submit 0x11 d noImage s)
def execBankRead (d : Desc) (s : State) : Host.Outcome State Fault Refusal := .next (submit 0x12 d noImage s)
def execCoefLoad (d : Desc) (s : State) : Host.Outcome State Fault Refusal := .next (submit 0x13 d noImage s)
def execBankSwap (d : Desc) (s : State) : Host.Outcome State Fault Refusal := .next (submit 0x14 d noImage s)
def execSetMode (d : Desc) (s : State) : Host.Outcome State Fault Refusal := .next (submit 0x15 d noImage s)
def execSchedInstall (d : Desc) (s : State) : Host.Outcome State Fault Refusal := .next (submit 0x20 d noImage s)
def execSchedFree (d : Desc) (s : State) : Host.Outcome State Fault Refusal := .next (submit 0x21 d noImage s)
def execDomSchedule (d : Desc) (s : State) : Host.Outcome State Fault Refusal := .next (submit 0x22 d noImage s)
def execDomCancel (d : Desc) (s : State) : Host.Outcome State Fault Refusal := .next (submit 0x23 d noImage s)
def execEnumerate (d : Desc) (s : State) : Host.Outcome State Fault Refusal := .next (submit 0x24 d noImage s)
def execLaneAcquire (d : Desc) (s : State) : Host.Outcome State Fault Refusal := .next (submit 0x30 d noImage s)
def execTrainStart (d : Desc) (s : State) : Host.Outcome State Fault Refusal := .next (submit 0x31 d noImage s)
def execLatMeasure (d : Desc) (s : State) : Host.Outcome State Fault Refusal := .next (submit 0x32 d noImage s)
def execHostMsg (d : Desc) (s : State) : Host.Outcome State Fault Refusal := .next (submit 0x33 d noImage s)
def execOcpXfer (d : Desc) (s : State) : Host.Outcome State Fault Refusal := .next (submit 0x34 d noImage s)
def execPower (d : Desc) (s : State) : Host.Outcome State Fault Refusal := .next (submit 0x40 d noImage s)
def execReset (d : Desc) (s : State) : Host.Outcome State Fault Refusal := .next (submit 0x41 d noImage s)
def execFreeze (d : Desc) (s : State) : Host.Outcome State Fault Refusal := .next (submit 0x50 d noImage s)
def execCounterClear (d : Desc) (s : State) : Host.Outcome State Fault Refusal := .next (submit 0x51 d noImage s)
def execCounterSelect (d : Desc) (s : State) : Host.Outcome State Fault Refusal := .next (submit 0x52 d noImage s)
def execCapture (d : Desc) (s : State) : Host.Outcome State Fault Refusal := .next (submit 0x53 d noImage s)
def execEventMask (d : Desc) (s : State) : Host.Outcome State Fault Refusal := .next (submit 0x60 d noImage s)
def execEventLogRead (d : Desc) (s : State) : Host.Outcome State Fault Refusal := .next (submit 0x61 d noImage s)
def execMonConfig (d : Desc) (s : State) : Host.Outcome State Fault Refusal := .next (submit 0x70 d noImage s)
def execMonSync (d : Desc) (s : State) : Host.Outcome State Fault Refusal := .next (submit 0x71 d noImage s)
def execMonThreshold (d : Desc) (s : State) : Host.Outcome State Fault Refusal := .next (submit 0x72 d noImage s)
def execThermConfig (d : Desc) (s : State) : Host.Outcome State Fault Refusal := .next (submit 0x78 d noImage s)
def execShedOrder (d : Desc) (s : State) : Host.Outcome State Fault Refusal := .next (submit 0x79 d noImage s)
def execCalConfig (d : Desc) (s : State) : Host.Outcome State Fault Refusal := .next (submit 0x80 d noImage s)
def execCalRequest (d : Desc) (s : State) : Host.Outcome State Fault Refusal := .next (submit 0x81 d noImage s)
def execCheckRun (d : Desc) (s : State) : Host.Outcome State Fault Refusal := .next (submit 0x90 d noImage s)
def execSelftest (d : Desc) (s : State) : Host.Outcome State Fault Refusal := .next (submit 0x91 d noImage s)
def execPatchStage (d : Desc) (img : ImageCheck) (s : State) : Host.Outcome State Fault Refusal := .next (submit 0xA0 d img s)
def execPatchActivate (d : Desc) (s : State) : Host.Outcome State Fault Refusal := .next (submit 0xA1 d noImage s)
def execAttest (d : Desc) (s : State) : Host.Outcome State Fault Refusal := .next (submit 0xA2 d noImage s)
def execOwnerKey (d : Desc) (sigOk : Bool) (s : State) : Host.Outcome State Fault Refusal :=
  .next (submit 0xA3 d { noImage with ownerOk := sigOk } s)

end Sys2Proof.Machine
end

