-- ==== Sys2Proof/Machine/Schedule.lean ====
section
/-! DEFINITION. The scheduler's occurrences: windows open and close, point actions execute, are held or deferred (R17, R263 to R266,
R272, R307, R308, R333 rule 4). -/

namespace Sys2Proof.Machine

/-- TRAIN as a slot's action, on one line lane or on all. -/
def trainSlot (x : Slot) (s : State) : State × Bool :=
  match Tgt.ofCode x.target with
  | some (.line (some n)) => trainStart x.cmd n s
  | some (.line none) =>
    ((List.finRange 8).foldl (fun s n => (trainStart none n s).1) s, false)
  | _ => (refuseO x.cmd stBadTarget s, false)

/-- MON_SYNC at its tick: the anchor is the time requested (R346). -/
def syncSlot (x : Slot) (s : State) : State :=
  match Tgt.ofCode x.target with
  | some (.mon k) =>
    if underTest s (.mon k) then (match x.cmd with | some c => answer c stInTest true s.tst.blkEnd 0 s | none => s)
    else doneO x.cmd 0 (syncMons k x.armed s)
  | _ => refuseO x.cmd stBadTarget s

/-- BEAT_PULSE: one pulse, of the width that CAD.BEAT_OUT gives (R263). -/
def beatPulse (s : State) : State := emit (.beatOut (bits (reg s 0x401C) 0 8)) s

/-- A slot's action on its tick (Table 8.7). The Boolean says that the arbiter refused it. -/
def slotAct (x : Slot) (s : State) : State × Bool :=
  let x : Slot := { x with cmd := if x.deferral.any (fun d => !d.held) then x.cmd.map fun (c : Cmd) => { c with acted := some (now s) } else x.cmd }
  match x.action with
  | 0x01 => swapStart x.cmd x.target x.param (if x.src = .timed then 21 else 5) s
  | 0x02 => (actFreeze x.cmd s, false)
  | 0x03 => capStart x.cmd x.target x.param s
  | 0x04 => testStart x.cmd x.target x.param (if x.src = .timed then 44 else 12) s
  | 0x05 => (syncSlot x s, false)
  | 0x06 => trainSlot x s
  | 0x07 => patchStart x.cmd s
  | 0x08 => (resetTimed x.cmd s, false)
  | _ => (doneO x.cmd 0 (beatPulse s), false)

/-- A point action is presented: it acts and its occurrence ends, or it waits for a window (R333 rule 4). -/
def slotPresent (i : Fin 256) (s : State) : State :=
  let t := now s
  let x := s.cad.slots[i]
  -- an action of a lower class that is due on this tick in a higher slot wins (R333 rule 2)
  let r := match slotClaim s (actionClass x.action) true ((Tgt.ofCode x.target).getD .device) with
    | some c => (arbRefuse (actionClass x.action) c s, true)
    | none => slotAct x s
  if r.2 then
    modSlot i (fun x => { x with deferral := some (match x.deferral with
      | some d => { d with held := false, last := t }
      | none => { beats := 0, held := false, last := t }) }) r.1
  else slotAdvance i r.1

/-- A slot's point action, once it is due: one that firmware executes is held while firmware does not run (R17, R264). -/
def pointSlot (i : Fin 256) (s : State) : State :=
  if !slotDue i s || s.cad.slots[i].action == 0 then s
  else if actionFirmware s.cad.slots[i].action && !s.rst.mgmtRun then
    modSlot i (fun x => { x with deferral := some { beats := 0, held := true, last := now s } }) s
  else slotPresent i s

/-- POINT_ACTION: on the first reference tick at or after its time. What is due in lower slots on this tick goes first (R266). -/
def pointAction (i : Fin 256) (s : State) : State :=
  forFin 256 (fun j s => if j ≤ i then pointSlot j s else s) s

/-- A deferred or held action that this window admits and covers, not yet presented on this tick (R17, R333 rule 4). -/
def represents (w : Slot) (i : Fin 256) (s : State) : Bool :=
  let x := s.cad.slots[i]
  let cls := actionClass x.action
  x.valid && (match x.deferral with | some d => d.last != now s && !(d.held && cls == 8) | none => false) &&
  cls != 0 && bit w.classes (cls - 1) && Tgt.covers s ((Tgt.ofCode w.target).getD .device) ((Tgt.ofCode x.target).getD .device) &&
  (!actionFirmware x.action || s.rst.mgmtRun)

/-- Held for firmware, not yet presented. -/
def slotHeld (x : Slot) : Bool := match x.deferral with
  | some d => d.held
  | none => false

/-- A re-presentation counts in CAL.ARB_STS.DEFER; the first presentation of a held action does not. -/
def represent (i : Fin 256) (s : State) : State :=
  let s := if slotHeld s.cad.slots[i] then s else { s with arb := { s.arb with defer := satU 16 (s.arb.defer + 1) } }
  slotPresent i s

/-- WINDOW_OPEN (R264, R265): the actions and the TIA writes that waited for it are presented. -/
def windowOpen (i : Fin 256) (s : State) : State :=
  if !slotDue i s || s.cad.slots[i].action != 0 then s
  else
    let w := s.cad.slots[i]
    let s := modSlot i (fun x => { x with openEnd := some (x.armed + x.duration.setWidth 64) }) s
    let s := forFin 256 (fun j s => if represents w j s then represent j s else s) s
    forFin 8 (fun n s =>
      if bit w.classes 3 && Tgt.covers s ((Tgt.ofCode w.target).getD .device) (.line (some n)) then tiaIssue n s else s) s

/-- WINDOW_CLOSE: the occurrence ends; the next is armed or the slot is free (R264). -/
def windowClose (i : Fin 256) (s : State) : State :=
  match s.cad.slots[i].openEnd with
  | some e => if reached s e then slotAdvance i s else s
  | none => s

/-- DEFERRAL_DROPPED: not admitted within 16 beats of its refusal (R333 rule 4). -/
def deferralDropped (i : Fin 256) (s : State) : State :=
  match s.cad.slots[i].deferral with
  | none => s
  | some d =>
    if d.held || decide (d.beats < 16) then s
    else
      let x := s.cad.slots[i]
      slotAdvance i (raise 0x034 (pay2 i.val (actionClass x.action)) (refuseO x.cmd stMaint s))

/-- Firmware runs again: actions held that no window gates are presented on the next tick (R17). -/
def heldActions (s : State) : State :=
  if !s.rst.mgmtRun then s
  else forFin 256 (fun i s =>
    let x := s.cad.slots[i]
    match x.deferral with
    | some d => if d.held && (actionClass x.action == 0 || actionClass x.action == 8) then slotPresent i s else s
    | none => s) s

def execWindowOpen (i : Fin 256) (s : State) : Host.Outcome State Fault Refusal := .next (windowOpen i s)
def execWindowClose (i : Fin 256) (s : State) : Host.Outcome State Fault Refusal := .next (windowClose i s)
def execPointAction (i : Fin 256) (s : State) : Host.Outcome State Fault Refusal := .next (pointAction i s)
def execDeferralDropped (i : Fin 256) (s : State) : Host.Outcome State Fault Refusal := .next (deferralDropped i s)

end Sys2Proof.Machine
end

