-- ==== Sys2Proof/Machine/Dispatch.lean ====
section
/-! DEFINITION. The commands and their meanings: one arm per row of spec/opcode_table.json. -/

namespace Sys2Proof.Machine

def exec (i : Instr) (s : State) : Host.Outcome State Fault Refusal :=
  match i with
  | .registerWrite path off size v => Sys2Proof.Machine.execRegisterWrite path off size v s
  | .lowerWordRead path off => Sys2Proof.Machine.execLowerWordRead path off s
  | .setupLock path v => Sys2Proof.Machine.execSetupLock path v s
  | .ringEnable path r v => Sys2Proof.Machine.execRingEnable path r v s
  | .ringDisable path r v => Sys2Proof.Machine.execRingDisable path r v s
  | .lineCoefCapture n => Sys2Proof.Machine.execLineCoefCapture n s
  | .hostCoefCapture n => Sys2Proof.Machine.execHostCoefCapture n s
  | .bufRdataRead path k => Sys2Proof.Machine.execBufRdataRead path k s
  | .cmdDb k v => Sys2Proof.Machine.execCmdDb k v s
  | .cplDb k v => Sys2Proof.Machine.execCplDb k v s
  | .evtDb k v => Sys2Proof.Machine.execEvtDb k v s
  | .tlmCons k v => Sys2Proof.Machine.execTlmCons k v s
  | .tlmAck k v => Sys2Proof.Machine.execTlmAck k v s
  | .descriptorFetch k bytes => Sys2Proof.Machine.execDescriptorFetch k bytes s
  | .nop d => Sys2Proof.Machine.execNop d s
  | .queryCmd d => Sys2Proof.Machine.execQueryCmd d s
  | .telemRefetch d => Sys2Proof.Machine.execTelemRefetch d s
  | .bankWrite d => Sys2Proof.Machine.execBankWrite d s
  | .bankCopy d => Sys2Proof.Machine.execBankCopy d s
  | .bankRead d => Sys2Proof.Machine.execBankRead d s
  | .coefLoad d => Sys2Proof.Machine.execCoefLoad d s
  | .bankSwap d => Sys2Proof.Machine.execBankSwap d s
  | .setMode d => Sys2Proof.Machine.execSetMode d s
  | .schedInstall d => Sys2Proof.Machine.execSchedInstall d s
  | .schedFree d => Sys2Proof.Machine.execSchedFree d s
  | .domSchedule d => Sys2Proof.Machine.execDomSchedule d s
  | .domCancel d => Sys2Proof.Machine.execDomCancel d s
  | .enumerate d => Sys2Proof.Machine.execEnumerate d s
  | .laneAcquire d => Sys2Proof.Machine.execLaneAcquire d s
  | .trainStart d => Sys2Proof.Machine.execTrainStart d s
  | .latMeasure d => Sys2Proof.Machine.execLatMeasure d s
  | .hostMsg d => Sys2Proof.Machine.execHostMsg d s
  | .ocpXfer d => Sys2Proof.Machine.execOcpXfer d s
  | .power d => Sys2Proof.Machine.execPower d s
  | .reset d => Sys2Proof.Machine.execReset d s
  | .freeze d => Sys2Proof.Machine.execFreeze d s
  | .counterClear d => Sys2Proof.Machine.execCounterClear d s
  | .counterSelect d => Sys2Proof.Machine.execCounterSelect d s
  | .capture d => Sys2Proof.Machine.execCapture d s
  | .eventMask d => Sys2Proof.Machine.execEventMask d s
  | .eventLogRead d => Sys2Proof.Machine.execEventLogRead d s
  | .monConfig d => Sys2Proof.Machine.execMonConfig d s
  | .monSync d => Sys2Proof.Machine.execMonSync d s
  | .monThreshold d => Sys2Proof.Machine.execMonThreshold d s
  | .thermConfig d => Sys2Proof.Machine.execThermConfig d s
  | .shedOrder d => Sys2Proof.Machine.execShedOrder d s
  | .calConfig d => Sys2Proof.Machine.execCalConfig d s
  | .calRequest d => Sys2Proof.Machine.execCalRequest d s
  | .checkRun d => Sys2Proof.Machine.execCheckRun d s
  | .selftest d => Sys2Proof.Machine.execSelftest d s
  | .patchStage d img => Sys2Proof.Machine.execPatchStage d img s
  | .patchActivate d => Sys2Proof.Machine.execPatchActivate d s
  | .attest d => Sys2Proof.Machine.execAttest d s
  | .ownerKey d sigOk => Sys2Proof.Machine.execOwnerKey d sigOk s
  | .completionRecordWrite c => Sys2Proof.Machine.execCompletionRecordWrite c s
  | .eventRecordWrite e => Sys2Proof.Machine.execEventRecordWrite e s
  | .telemetryRecordWrite t => Sys2Proof.Machine.execTelemetryRecordWrite t s
  | .vectorSignal r => Sys2Proof.Machine.execVectorSignal r s
  | .ringAccessError r status => Sys2Proof.Machine.execRingAccessError r status s
  | .twoWireWrite addr data => Sys2Proof.Machine.execTwoWireWrite addr data s
  | .twoWireRead addr len => Sys2Proof.Machine.execTwoWireRead addr len s
  | .pcieLinkLoss => Sys2Proof.Machine.execPcieLinkLoss s
  | .resetNAssert lowNs => Sys2Proof.Machine.execResetNAssert lowNs s
  | .resetNRelease => Sys2Proof.Machine.execResetNRelease s
  | .resetNLongHold => Sys2Proof.Machine.execResetNLongHold s
  | .wakeTimer => Sys2Proof.Machine.execWakeTimer s
  | .perstNAssert lowNs => Sys2Proof.Machine.execPerstNAssert lowNs s
  | .perstNRelease => Sys2Proof.Machine.execPerstNRelease s
  | .por => Sys2Proof.Machine.execPor s
  | .porRelease => Sys2Proof.Machine.execPorRelease s
  | .brownOut => Sys2Proof.Machine.execBrownOut s
  | .brownOutRelease => Sys2Proof.Machine.execBrownOutRelease s
  | .vinLow vin10mV => Sys2Proof.Machine.execVinLow vin10mV s
  | .vioLoss => Sys2Proof.Machine.execVioLoss s
  | .vioReturn => Sys2Proof.Machine.execVioReturn s
  | .resetSourceRelease src => Sys2Proof.Machine.execResetSourceRelease src s
  | .trimLoadAttempt crcOk pins => Sys2Proof.Machine.execTrimLoadAttempt crcOk pins s
  | .pllLock => Sys2Proof.Machine.execPllLock s
  | .selfTestGroupDone sig failed first => Sys2Proof.Machine.execSelfTestGroupDone sig failed first s
  | .firmwareBootDone patchOk => Sys2Proof.Machine.execFirmwareBootDone patchOk s
  | .domainTransitionDone => Sys2Proof.Machine.execDomainTransitionDone s
  | .domainFailed => Sys2Proof.Machine.execDomainFailed s
  | .watchdogExpiry => Sys2Proof.Machine.execWatchdogExpiry s
  | .lockstepMismatch => Sys2Proof.Machine.execLockstepMismatch s
  | .shadowCompare upset => Sys2Proof.Machine.execShadowCompare upset s
  | .testPortReset => Sys2Proof.Machine.execTestPortReset s
  | .scanEnable => Sys2Proof.Machine.execScanEnable s
  | .testPortAccess ir => Sys2Proof.Machine.execTestPortAccess ir s
  | .refclkLost => Sys2Proof.Machine.execRefclkLost s
  | .refclkRestored => Sys2Proof.Machine.execRefclkRestored s
  | .housekeepingOscillatorLoss => Sys2Proof.Machine.execHousekeepingOscillatorLoss s
  | .signalLoss n => Sys2Proof.Machine.execSignalLoss n s
  | .light n => Sys2Proof.Machine.execLight n s
  | .gainDone n => Sys2Proof.Machine.execGainDone n s
  | .timingDone n => Sys2Proof.Machine.execTimingDone n s
  | .acquisitionRetry n => Sys2Proof.Machine.execAcquisitionRetry n s
  | .relockFallback n => Sys2Proof.Machine.execRelockFallback n s
  | .lockLost n => Sys2Proof.Machine.execLockLost n s
  | .portSquelched n => Sys2Proof.Machine.execPortSquelched n s
  | .portResume p => Sys2Proof.Machine.execPortResume p s
  | .outageEnd n => Sys2Proof.Machine.execOutageEnd n s
  | .vgaLoopStep n rms => Sys2Proof.Machine.execVgaLoopStep n rms s
  | .loopUpdate n xs cdr => Sys2Proof.Machine.execLoopUpdate n xs cdr s
  | .qualityWindowEnd n skews => Sys2Proof.Machine.execQualityWindowEnd n skews s
  | .blindTimeout n => Sys2Proof.Machine.execBlindTimeout n s
  | .trackingEntry n => Sys2Proof.Machine.execTrackingEntry n s
  | .coefficientSaturated n loop => Sys2Proof.Machine.execCoefficientSaturated n loop s
  | .floatingGroupSweepBlock n => Sys2Proof.Machine.execFloatingGroupSweepBlock n s
  | .storedBankSave n => Sys2Proof.Machine.execStoredBankSave n s
  | .sliceFailed lane slice => Sys2Proof.Machine.execSliceFailed lane slice s
  | .dacSegmentFailed n seg => Sys2Proof.Machine.execDacSegmentFailed n seg s
  | .tiaLimitHold n => Sys2Proof.Machine.execTiaLimitHold n s
  | .ocpTransactionDone miso => Sys2Proof.Machine.execOcpTransactionDone miso s
  | .vgaTiaStep n => Sys2Proof.Machine.execVgaTiaStep n s
  | .reedSessionStart => Sys2Proof.Machine.execReedSessionStart s
  | .reedSessionDone r => Sys2Proof.Machine.execReedSessionDone r s
  | .swapParallelRunDone c run => Sys2Proof.Machine.execSwapParallelRunDone c run s
  | .segmentDone r => Sys2Proof.Machine.execSegmentDone r s
  | .reedIdle => Sys2Proof.Machine.execReedIdle s
  | .calRequestTimeout t => Sys2Proof.Machine.execCalRequestTimeout t s
  | .scrubBlockDone ecc addr => Sys2Proof.Machine.execScrubBlockDone ecc addr s
  | .scrubOverdue => Sys2Proof.Machine.execScrubOverdue s
  | .txDisableRelease n => Sys2Proof.Machine.execTxDisableRelease n s
  | .dacIdle n => Sys2Proof.Machine.execDacIdle n s
  | .transmitClipping n => Sys2Proof.Machine.execTransmitClipping n s
  | .skewStep n => Sys2Proof.Machine.execSkewStep n s
  | .request n m => Sys2Proof.Machine.execRequest n m s
  | .trainingApply n => Sys2Proof.Machine.execTrainingApply n s
  | .response n m => Sys2Proof.Machine.execResponse n m s
  | .done n m => Sys2Proof.Machine.execDone n m s
  | .requestRetransmit n => Sys2Proof.Machine.execRequestRetransmit n s
  | .trainingSilent n => Sys2Proof.Machine.execTrainingSilent n s
  | .trainingProbe n => Sys2Proof.Machine.execTrainingProbe n s
  | .frameStart n => Sys2Proof.Machine.execFrameStart n s
  | .frameHeaderReceived n hdr skewHalfNs => Sys2Proof.Machine.execFrameHeaderReceived n hdr skewHalfNs s
  | .idleStatus n m => Sys2Proof.Machine.execIdleStatus n m s
  | .echo n m => Sys2Proof.Machine.execEcho n m s
  | .echoDrop n => Sys2Proof.Machine.execEchoDrop n s
  | .latMeasureDone p => Sys2Proof.Machine.execLatMeasureDone p s
  | .hostFragment n m => Sys2Proof.Machine.execHostFragment n m s
  | .hostAcknowledgement n m => Sys2Proof.Machine.execHostAcknowledgement n m s
  | .hostMsgRetransmit n => Sys2Proof.Machine.execHostMsgRetransmit n s
  | .hostMsgAbandon n => Sys2Proof.Machine.execHostMsgAbandon n s
  | .innerCodeword n rest => Sys2Proof.Machine.execInnerCodeword n rest s
  | .innerUncorrectable n => Sys2Proof.Machine.execInnerUncorrectable n s
  | .outerCodeword p g cw fix => Sys2Proof.Machine.execOuterCodeword p g cw fix s
  | .outerUncorrectable p => Sys2Proof.Machine.execOuterUncorrectable p s
  | .serWindowEnd p => Sys2Proof.Machine.execSerWindowEnd p s
  | .hostSignalLoss n => Sys2Proof.Machine.execHostSignalLoss n s
  | .hostSignal n => Sys2Proof.Machine.execHostSignal n s
  | .hostTimingDone n => Sys2Proof.Machine.execHostTimingDone n s
  | .ctleTrialDone n => Sys2Proof.Machine.execCtleTrialDone n s
  | .hostQualityWindowEnd n => Sys2Proof.Machine.execHostQualityWindowEnd n s
  | .hostLockLost n => Sys2Proof.Machine.execHostLockLost n s
  | .hostAcquisitionRetry n => Sys2Proof.Machine.execHostAcquisitionRetry n s
  | .dcgLoopStep n rms => Sys2Proof.Machine.execDcgLoopStep n rms s
  | .hostLoopUpdate n xs cdr => Sys2Proof.Machine.execHostLoopUpdate n xs cdr s
  | .prbsCheckerLock n => Sys2Proof.Machine.execPrbsCheckerLock n s
  | .prbsCheckerLockLoss n => Sys2Proof.Machine.execPrbsCheckerLockLoss n s
  | .loopbackSlip n => Sys2Proof.Machine.execLoopbackSlip n s
  | .beatInEdge subTicks => Sys2Proof.Machine.execBeatInEdge subTicks s
  | .chanterOwnMark => Sys2Proof.Machine.execChanterOwnMark s
  | .variableBeatHoldover => Sys2Proof.Machine.execVariableBeatHoldover s
  | .freeBeat => Sys2Proof.Machine.execFreeBeat s
  | .acquiringTimeout => Sys2Proof.Machine.execAcquiringTimeout s
  | .mark t => Sys2Proof.Machine.execMark t s
  | .beat t msg crc => Sys2Proof.Machine.execBeat t msg crc s
  | .markMissing t => Sys2Proof.Machine.execMarkMissing t s
  | .spreadCorrection subTicks => Sys2Proof.Machine.execSpreadCorrection subTicks s
  | .probeInterval k => Sys2Proof.Machine.execProbeInterval k s
  | .probe t => Sys2Proof.Machine.execProbe t s
  | .probeEcho k roundTrip => Sys2Proof.Machine.execProbeEcho k roundTrip s
  | .probeTurn k msg crc => Sys2Proof.Machine.execProbeTurn k msg crc s
  | .linkDelay t msg crc => Sys2Proof.Machine.execLinkDelay t msg crc s
  | .keepAlive k data viol => Sys2Proof.Machine.execKeepAlive k data viol s
  | .keepAliveMissing k => Sys2Proof.Machine.execKeepAliveMissing k s
  | .commaAlignment k => Sys2Proof.Machine.execCommaAlignment k s
  | .abort k => Sys2Proof.Machine.execAbort k s
  | .enumerationStart => Sys2Proof.Machine.execEnumerationStart s
  | .enumOrder t msg crc => Sys2Proof.Machine.execEnumOrder t msg crc s
  | .enumReport k msg crc => Sys2Proof.Machine.execEnumReport k msg crc s
  | .enumReportTimeout t => Sys2Proof.Machine.execEnumReportTimeout t s
  | .enumAssign t msg crc => Sys2Proof.Machine.execEnumAssign t msg crc s
  | .joinReq k msg crc => Sys2Proof.Machine.execJoinReq k msg crc s
  | .joinGrant t msg crc => Sys2Proof.Machine.execJoinGrant t msg crc s
  | .domEntry t msg crc => Sys2Proof.Machine.execDomEntry t msg crc s
  | .domCancelMessage t msg crc => Sys2Proof.Machine.execDomCancelMessage t msg crc s
  | .summary k msg crc => Sys2Proof.Machine.execSummary k msg crc s
  | .extraSummary => Sys2Proof.Machine.execExtraSummary s
  | .windowOpen slot => Sys2Proof.Machine.execWindowOpen slot s
  | .windowClose slot => Sys2Proof.Machine.execWindowClose slot s
  | .pointAction slot => Sys2Proof.Machine.execPointAction slot s
  | .deferralDropped slot => Sys2Proof.Machine.execDeferralDropped slot s
  | .monitorOutput k value ovr => Sys2Proof.Machine.execMonitorOutput k value ovr s
  | .recTimeExpiry k => Sys2Proof.Machine.execRecTimeExpiry k s
  | .scanPassStart k => Sys2Proof.Machine.execScanPassStart k s
  | .scanConversionDone k value ovr => Sys2Proof.Machine.execScanConversionDone k value ovr s
  | .comparatorCrossing xs => Sys2Proof.Machine.execComparatorCrossing xs s
  | .housekeepingRound => Sys2Proof.Machine.execHousekeepingRound s
  | .housekeepingRoundEnd readings taps => Sys2Proof.Machine.execHousekeepingRoundEnd readings taps s
  | .graceExpiry => Sys2Proof.Machine.execGraceExpiry s
  | .shedDwellExpiry => Sys2Proof.Machine.execShedDwellExpiry s
  | .muteHoldExpiry => Sys2Proof.Machine.execMuteHoldExpiry s
  | .liftGapExpiry => Sys2Proof.Machine.execLiftGapExpiry s
  | .tripEvaluation readings => Sys2Proof.Machine.execTripEvaluation readings s
  | .captureDone samples => Sys2Proof.Machine.execCaptureDone samples s
  | .eyeScanDone lane bins => Sys2Proof.Machine.execEyeScanDone lane bins s
  | .checkScanDone ch r => Sys2Proof.Machine.execCheckScanDone ch r s
  | .onDemandTestDone sig => Sys2Proof.Machine.execOnDemandTestDone sig s
  | .alignmentMarkerLock p g => Sys2Proof.Machine.execAlignmentMarkerLock p g s
  | .codewordLock n => Sys2Proof.Machine.execCodewordLock n s
  | .codewordLockLost n => Sys2Proof.Machine.execCodewordLockLost n s
  | .headerCheckErrors n => Sys2Proof.Machine.execHeaderCheckErrors n s
  | .hardwareScrub mem addr ecc => Sys2Proof.Machine.execHardwareScrub mem addr ecc s
  | .calibrationStoreRefresh ecc addr => Sys2Proof.Machine.execCalibrationStoreRefresh ecc addr s
  | .pcieConfigWrite busMaster memSpace d3hot ctl aerClear => Sys2Proof.Machine.execPcieConfigWrite busMaster memSpace d3hot ctl aerClear s
  | .pcieLinkUp form => Sys2Proof.Machine.execPcieLinkUp form s
  | .latencyBufferResetDone p => Sys2Proof.Machine.execLatencyBufferResetDone p s
  | .linkAlignmentLost k => Sys2Proof.Machine.execLinkAlignmentLost k s
  | .housekeepingOscillatorRestored => Sys2Proof.Machine.execHousekeepingOscillatorRestored s
  | .controlPlaneLeavesReset => Sys2Proof.Machine.execControlPlaneLeavesReset s

end Sys2Proof.Machine
end

