-- ==== Sys2Proof/Machine/Tick.lean ====
section
/-! DEFINITION. Time: a sub-tick of 0.8 ns is what step does on an empty queue; eight of them make a reference tick of 6.4 ns. -/

namespace Sys2Proof.Machine

/-- A sub-tick of cadence time passes (R240): time that is held back is used up first (R242, R261). -/
def cadTick (c : Cad) : Cad :=
  if 0 < c.holdBack then { c with holdBack := c.holdBack - 1 } else { c with elapsed := c.elapsed + 1 }

/-- A tree's time goes on once its marks have arrived. -/
def treeTick (x : TreeTime) : TreeTime :=
  { x with elapsed := if x.seen then x.elapsed + 1 else x.elapsed, marked := x.marked.map (· + 1) }

/-- A sub-tick of the cadence unit: cadence time and the tree times go on, and what runs on its own period estimate starts its next
beat (R257, R260). -/
def cadenceTick (s : State) : State :=
  let s := if cadRuns s then modCad cadTick s else s
  let s := modCad (fun c => { c with treeA := treeTick c.treeA, treeB := treeTick c.treeB }) s
  droneRoll (treeRoll .b (treeRoll .a s))

/-- Selectors of a line lane that count reference ticks (Table 13.2). -/
def lineTick (n : Fin 8) (s : State) : State :=
  let r := s.lines[n].rx
  let s := if r.st = .up then countLine n 0x29 1 s else if r.st = .off then s else countLine n 0x2A 1 s
  if r.squelch then countLine n 0x2F 1 s else s

/-- Symbols of 106.25 GBd in a reference tick. -/
def hostSymbolsTick : Nat := 680

/-- Those of a host lane, its transmitted symbols, counted in units of 64, and the pattern generator (R228). -/
def hostTick (n : Fin 16) (s : State) : State :=
  let s := hostGenerate n hostSymbolsTick (hostSilent n s)
  let st := s.hosts[n].st
  let s := if st = .up then countHost n 0x08 1 s else if st = .off then s else countHost n 0x09 1 s
  if hostTx s n = .run ∧ hostCounts s n then
    let k := s.hostCtr[n].txRem + hostSymbolsTick
    countHost n 0x0F (k / 64) { s with hostCtr := upd s.hostCtr n fun c => { c with txRem := k % 64 } }
  else s

/-- A port's ticks squelched, and with a group out of lock. -/
def portTick (p : Fin 8) (s : State) : State :=
  let x := s.ports[p]
  let s := if portSquelched s p then countPort p 0x43 1 s else s
  if !x.amLock0 || (modeOf s == 3 && !x.amLock1) then countPort p 0x44 1 s else s

/-- The device's: reference ticks while the line PLL is locked, and in holdover of either form. -/
def devTick (s : State) : State :=
  let s := if s.refOk then countDev fixSel 1 s else s
  if 3 ≤ s.cad.st then countDev 0x88 1 s else s

/-- One reference tick. Every 250 of them, which are 100 character times, the links carry a keep-alive (R246). -/
def tick (s : State) : State :=
  let s := devTick (forFin 8 portTick (forFin 16 hostTick (forFin 8 lineTick (arbTick { s with clk := s.clk + 1 }))))
  let s := if s.clk % 250 = 0 then keepAlives s else s
  scrubTry <| heldActions (releaseHeld (forFin 8 framePass (forFin 8 offTimeout s)))

/-- Place of what goes out in the order in which a link's sender chooses its next item (R249); what is no link's goes first. -/
def linkRank : Out → Nat
  | .mark _ => 1
  | .probeEcho _ => 2
  | .keepAlive _ _ => 3
  | .message _ (.som :: .data t :: _) =>
    if t = 0x01 then 4 else if t = 0x81 then 5 else if t = 0x06 ∨ t = 0x07 then 6 else if t = 0x02 ∨ t = 0x82 then 7 else 8
  | _ => 0

def rankPut (x : Out) : List Out → List Out
  | [] => [x]
  | y :: l => if linkRank x ≤ linkRank y then x :: y :: l else y :: rankPut x l

/-- What falls due on one sub-tick goes out in that order; of one rank in the order in which it came. -/
def rankOut (k : Nat) (s : State) : State := { s with out := s.out.take k ++ (s.out.drop k).foldr rankPut [] }

/-- One sub-tick (log entry 72): with the eighth the reference tick ends. -/
def subTick (s : State) : State :=
  let k := s.out.length
  let s := cadenceTick s
  rankOut k (if s.sub < 7 then { s with sub := s.sub + 1 } else tick { s with sub := 0 })

end Sys2Proof.Machine
end

