-- ==== Sys2Proof/Safety.lean ====
section
/-! DEFINITION. What a safe state is, and what a command leaves alone, in the terms that statements use. -/

namespace Sys2Proof

open Machine

/-- The local ring memory is in its canonical form. -/
def memoryOk (s : State) : Bool := Memory.wf s.lmem

/-- The event log holds at most 1,024 entries (R471). -/
def logOk (s : State) : Bool := decide (s.evt.log.length ≤ 1024)

/-- A value of a set-up register with its reserved bits at what they read after reset: no field of R9's codes RW and RWL covers
them. -/
def reservedOk (off : Nat) (v : Word) : Bool := match setupSpec off with
  | none => true
  | some (rw, rwl, r) => v &&& ~~~(rw ||| rwl) == r &&& ~~~(rw ||| rwl)

/-- The reserved bits of every set-up register and of its shadow copy read as after reset (R9, R415). -/
def setupOk (s : State) : Bool := (s.setup.all fun e => reservedOk e.1 e.2) && s.shadow.all fun e => reservedOk e.1 e.2

/-- Every set-up register equals its shadow copy: no upset waits for a pass of the shadow compare (R415). -/
def shadowsAgree (s : State) : Prop := s.shadow = s.setup

/-- What every step keeps. -/
def Invariant (s : State) : Prop := memoryOk s = true ∧ logOk s = true ∧ setupOk s = true

/-! ### What a command leaves alone -/

/-- The parts of the state. `cad` is the cadence unit without `own`, the device's share of the next SUMMARY; `counters` are the
event counters of the lanes, the ports and the device. -/
inductive Part where
  | pending | free | clk | out | setup | viol | latches | straps | pcie | refClock | hkClock | rings | evt | tlm | lmem | cad | own
  | lines | hosts | ports | counters | mon | comp | thr | therm | cal | arb | chk | tst | rst | saved | ocp | captures
  deriving DecidableEq, Repr

/-- The part is the same in both states. -/
def Part.same (s t : State) : Part → Prop
  | .pending => t.pending = s.pending
  | .free => t.free = s.free
  | .clk => t.clk = s.clk ∧ t.sub = s.sub
  | .out => t.out = s.out
  | .setup => t.setup = s.setup ∧ t.shadow = s.shadow
  | .viol => t.viol = s.viol
  | .latches => t.hiPcie = s.hiPcie ∧ t.hiWire = s.hiWire
  | .straps => t.straps = s.straps
  | .pcie => t.pcie = s.pcie
  | .refClock => t.refOk = s.refOk ∧ t.refLostAt = s.refLostAt ∧ t.pllAt = s.pllAt
  | .hkClock => t.hkoOk = s.hkoOk
  | .rings => t.rings = s.rings
  | .evt => t.evt = s.evt
  | .tlm => t.tlm = s.tlm
  | .lmem => t.lmem = s.lmem
  | .cad => { t.cad with own := s.cad.own } = s.cad
  | .own => t.cad.own = s.cad.own
  | .lines => t.lines = s.lines
  | .hosts => t.hosts = s.hosts
  | .ports => t.ports = s.ports
  | .counters => t.lineCtr = s.lineCtr ∧ t.hostCtr = s.hostCtr ∧ t.portCtr = s.portCtr ∧ t.pmc = s.pmc
  | .mon => t.mon = s.mon
  | .comp => t.comp = s.comp
  | .thr => t.thr = s.thr
  | .therm => t.therm = s.therm
  | .cal => t.cal = s.cal
  | .arb => t.arb = s.arb
  | .chk => t.chk = s.chk
  | .tst => t.tst = s.tst
  | .rst => t.rst = s.rst ∧ t.late = s.late
  | .saved => t.saved = s.saved
  | .ocp => t.ocp = s.ocp
  | .captures => t.cap = s.cap ∧ t.scans = s.scans

/-- Every part but those named is unchanged. -/
def OnlyChanges (ps : List Part) (s t : State) : Prop := ∀ p, p ∉ ps → p.same s t

/-- Every part but the queue of commands and the tick clock. -/
def beyondQueue : List Part :=
  [.free, .out, .setup, .viol, .latches, .straps, .pcie, .refClock, .hkClock, .rings, .evt, .tlm, .lmem, .cad, .own, .lines, .hosts,
    .ports, .counters, .mon, .comp, .thr, .therm, .cal, .arb, .chk, .tst, .rst, .saved, .ocp, .captures]

/-- The parts that a command may write. A reset may write every part, and so may a command that can start commands that wait. -/
def footprint : Instr → List Part
  | .registerWrite .. | .setupLock .. | .ringEnable .. | .ringDisable .. => [.out, .setup, .viol, .pcie, .rings, .evt, .tlm,
    .own, .lines, .hosts, .ports, .counters, .mon, .rst]
  | .lowerWordRead .. | .bufRdataRead .. => [.free, .out, .setup, .latches]
  | .lineCoefCapture .. | .gainDone .. | .timingDone .. | .portResume .. | .outageEnd .. | .blindTimeout .. |
    .trackingEntry .. | .storedBankSave .. | .tiaLimitHold .. | .vgaTiaStep .. | .txDisableRelease .. | .dacIdle .. |
    .skewStep .. | .requestRetransmit .. | .trainingProbe .. | .idleStatus .. | .echoDrop .. => [.lines]
  | .hostCoefCapture .. | .hostSignal .. | .hostTimingDone .. | .dcgLoopStep .. => [.hosts]
  | .cmdDb .. | .cplDb .. | .evtDb .. | .tlmCons .. => [.rings, .evt, .own, .counters]
  | .tlmAck .. => [.rings, .evt, .tlm, .own, .counters]
  | .eventRecordWrite .. => [.out, .pcie, .rings, .evt, .lmem, .counters]
  | .telemetryRecordWrite .. => [.out, .pcie, .rings, .evt, .tlm, .lmem, .own, .lines, .counters, .mon]
  | .vectorSignal .. => [.out, .pcie, .rings]
  | .ringAccessError .. => [.pcie, .rings, .evt, .own, .counters]
  | .twoWireWrite .. => [.out, .setup, .viol, .pcie, .rings, .evt, .tlm, .lmem, .own, .lines, .hosts, .ports, .counters, .mon,
    .rst]
  | .twoWireRead .. => [.free, .out, .setup, .latches, .evt, .own, .counters]
  | .pcieLinkLoss .. => [.pcie]
  | .resetNLongHold .. | .controlPlaneLeavesReset .. => [.rst]
  | .perstNRelease .. | .porRelease .. | .brownOutRelease .. | .resetSourceRelease .. => [.out, .lines, .hosts, .rst, .ocp]
  | .vinLow .. | .testPortAccess .. => [.evt, .own, .counters]
  | .trimLoadAttempt .. => [.free, .straps, .rings, .evt, .tlm, .cad, .own, .lines, .hosts, .ports, .counters, .mon, .comp,
    .thr, .cal, .arb, .chk, .rst, .saved, .ocp, .captures]
  | .pllLock .. | .refclkLost .. => [.free, .out, .refClock, .rings, .evt, .tlm, .cad, .own, .lines, .hosts, .ports,
    .counters, .mon, .therm, .cal, .arb, .chk, .tst, .rst, .ocp, .captures]
  | .selfTestGroupDone .. => [.free, .out, .setup, .rings, .evt, .tlm, .own, .lines, .hosts, .ports, .counters, .mon, .cal,
    .arb, .chk, .tst, .rst, .ocp, .captures]
  | .domainTransitionDone .. => [.free, .out, .rings, .evt, .tlm, .own, .lines, .hosts, .ports, .counters, .mon, .cal, .arb,
    .chk, .rst, .ocp, .captures]
  | .domainFailed .. => [.free, .rings, .evt, .tlm, .own, .lines, .hosts, .ports, .counters, .mon, .cal, .arb, .chk, .rst,
    .ocp, .captures]
  | .shadowCompare .. => [.setup, .evt, .own, .counters, .chk]
  | .scanEnable .. => [.evt, .own, .counters, .tst]
  | .refclkRestored .. => [.free, .out, .refClock, .rings, .evt, .tlm, .cad, .own, .lines, .hosts, .counters, .mon, .therm,
    .ocp]
  | .housekeepingOscillatorLoss .. | .housekeepingOscillatorRestored .. => [.hkClock]
  | .signalLoss .. | .trainingSilent .. => [.evt, .own, .lines, .counters, .arb]
  | .light .. | .lockLost .. | .codewordLockLost .. => [.out, .evt, .own, .lines, .counters, .ocp]
  | .acquisitionRetry .. | .relockFallback .. | .portSquelched .. | .coefficientSaturated .. | .transmitClipping .. |
    .innerUncorrectable .. | .headerCheckErrors .. => [.evt, .own, .lines, .counters]
  | .vgaLoopStep .. => [.out, .lines, .ocp]
  | .loopUpdate .. => [.out, .evt, .own, .lines, .counters]
  | .qualityWindowEnd .. | .codewordLock .. => [.free, .rings, .evt, .own, .lines, .counters]
  | .floatingGroupSweepBlock .. => [.free, .evt, .own, .lines, .counters]
  | .sliceFailed .. | .dacSegmentFailed .. => [.free, .rings, .evt, .own, .lines, .hosts, .counters, .cal, .arb, .captures]
  | .ocpTransactionDone .. => [.out, .rings, .evt, .own, .lines, .counters, .ocp]
  | .reedSessionStart .. => [.evt, .own, .counters, .mon, .cal, .arb]
  | .reedSessionDone .. => [.rings, .evt, .own, .lines, .hosts, .counters, .cal, .arb]
  | .swapParallelRunDone .. => [.free, .out, .setup, .viol, .latches, .pcie, .refClock, .hkClock, .rings, .evt, .tlm, .lmem,
    .cad, .own, .lines, .hosts, .ports, .counters, .mon, .comp, .thr, .therm, .cal, .arb, .chk, .tst, .rst, .saved, .ocp,
    .captures]
  | .segmentDone .. => [.rings, .evt, .own, .counters, .mon, .therm, .cal, .arb]
  | .reedIdle .. => [.evt, .own, .counters, .cal]
  | .calRequestTimeout .. => [.rings, .evt, .own, .counters, .cal]
  | .scrubBlockDone .. => [.free, .evt, .tlm, .lmem, .own, .lines, .hosts, .counters, .cal, .arb, .chk, .captures]
  | .scrubOverdue .. => [.evt, .own, .counters, .chk]
  | .request .. => [.rings, .evt, .own, .lines, .counters, .arb]
  | .trainingApply .. => [.lines, .arb]
  | .response .. | .done .. | .hostAcknowledgement .. | .hostMsgRetransmit .. | .hostMsgAbandon .. => [.rings, .evt, .own,
    .lines, .counters]
  | .frameStart .. => [.free, .out, .evt, .own, .lines, .hosts, .ports, .counters]
  | .frameHeaderReceived .. => [.free, .out, .rings, .evt, .own, .lines, .ports, .counters, .ocp]
  | .echo .. => [.free, .lines, .counters]
  | .latMeasureDone .. => [.free, .rings, .evt, .own, .ports, .counters]
  | .hostFragment .. => [.rings, .evt, .tlm, .own, .lines, .counters]
  | .innerCodeword .. => [.free, .out, .lines, .hosts, .ports, .counters]
  | .outerCodeword .. => [.free, .out, .evt, .own, .hosts, .ports, .counters]
  | .outerUncorrectable .. => [.evt, .own, .ports, .counters]
  | .serWindowEnd .. => [.rings, .evt, .tlm, .own, .ports, .counters]
  | .hostSignalLoss .. | .hostLockLost .. | .hostAcquisitionRetry .. | .prbsCheckerLock .. | .prbsCheckerLockLoss .. => [.evt,
    .own, .hosts, .counters]
  | .ctleTrialDone .. => [.free, .hosts]
  | .hostQualityWindowEnd .. => [.free, .evt, .own, .lines, .hosts, .counters]
  | .hostLoopUpdate .. => [.free, .out, .hosts, .counters]
  | .loopbackSlip .. => [.free, .evt, .own, .hosts, .counters]
  | .beatInEdge .. => [.free, .out, .rings, .evt, .tlm, .cad, .own, .counters, .mon]
  | .chanterOwnMark .. | .beat .. => [.free, .out, .rings, .evt, .tlm, .cad, .own, .ports, .counters, .mon]
  | .variableBeatHoldover .. | .linkDelay .. | .keepAliveMissing .. | .linkAlignmentLost .. => [.evt, .cad, .own, .ports,
    .counters]
  | .freeBeat .. => [.out, .rings, .evt, .tlm, .cad, .own, .counters, .mon]
  | .acquiringTimeout .. => [.evt, .cad, .own, .counters]
  | .mark .. | .spreadCorrection .. | .probeEcho .. | .commaAlignment .. | .windowClose .. => [.cad, .own]
  | .markMissing .. => [.free, .out, .evt, .cad, .own, .ports, .counters]
  | .probeInterval .. | .domCancelMessage .. | .extraSummary .. => [.out, .cad, .own]
  | .probe .. => [.free, .out, .evt, .cad, .own, .counters]
  | .probeTurn .. => [.out, .evt, .cad, .own, .ports, .counters]
  | .keepAlive .. | .enumAssign .. | .joinGrant .. | .domEntry .. => [.out, .evt, .cad, .own, .counters]
  | .abort .. => []
  | .enumerationStart .. | .enumOrder .. | .enumReport .. | .enumReportTimeout .. => [.free, .out, .rings, .evt, .cad, .own,
    .counters]
  | .joinReq .. => [.free, .out, .cad, .own]
  | .summary .. => [.rings, .evt, .tlm, .cad, .own, .counters]
  | .deferralDropped .. => [.rings, .evt, .cad, .own, .counters]
  | .monitorOutput .. => [.rings, .evt, .tlm, .own, .counters, .mon, .thr]
  | .recTimeExpiry .. => [.rings, .evt, .tlm, .own, .counters, .mon]
  | .scanPassStart .. => [.evt, .own, .counters, .mon, .therm]
  | .scanConversionDone .. => [.rings, .evt, .tlm, .own, .counters, .mon, .thr, .therm]
  | .comparatorCrossing .. => [.out, .evt, .own, .lines, .counters, .mon, .comp, .arb, .ocp]
  | .housekeepingRound .. => [.mon, .therm]
  | .housekeepingRoundEnd .. => [.free, .rings, .evt, .tlm, .own, .lines, .hosts, .ports, .counters, .mon, .thr, .therm, .cal,
    .arb, .chk, .rst, .ocp, .captures]
  | .graceExpiry .. | .shedDwellExpiry .. | .muteHoldExpiry .. | .liftGapExpiry .. => [.free, .rings, .evt, .tlm, .own,
    .lines, .hosts, .ports, .counters, .mon, .therm, .cal, .arb, .chk, .rst, .ocp, .captures]
  | .captureDone .. | .eyeScanDone .. => [.free, .rings, .evt, .tlm, .own, .counters, .arb, .captures]
  | .checkScanDone .. => [.free, .pcie, .rings, .evt, .tlm, .lmem, .own, .lines, .hosts, .counters, .cal, .chk, .captures]
  | .onDemandTestDone .. => [.free, .out, .rings, .evt, .tlm, .own, .lines, .hosts, .ports, .counters, .mon, .therm, .cal,
    .arb, .chk, .tst, .rst, .ocp, .captures]
  | .alignmentMarkerLock .. => [.ports]
  | .calibrationStoreRefresh .. => [.free, .lines, .hosts, .cal]
  | .pcieConfigWrite .. | .pcieLinkUp .. => [.out, .pcie]
  | .latencyBufferResetDone .. => [.free, .lines, .ports]
  | .descriptorFetch .. | .nop .. | .queryCmd .. | .telemRefetch .. | .bankWrite .. | .bankCopy .. | .bankRead .. |
    .coefLoad .. | .bankSwap .. | .setMode .. | .schedInstall .. | .schedFree .. | .domSchedule .. | .domCancel .. |
    .enumerate .. | .laneAcquire .. | .trainStart .. | .latMeasure .. | .hostMsg .. | .ocpXfer .. | .power .. | .reset .. |
    .freeze .. | .counterClear .. | .counterSelect .. | .capture .. | .eventMask .. | .eventLogRead .. | .monConfig .. |
    .monSync .. | .monThreshold .. | .thermConfig .. | .shedOrder .. | .calConfig .. | .calRequest .. | .checkRun .. |
    .selftest .. | .patchStage .. | .patchActivate .. | .attest .. | .ownerKey .. | .completionRecordWrite .. | .resetNAssert ..
    | .resetNRelease .. | .wakeTimer .. | .perstNAssert .. | .por .. | .brownOut .. | .vioLoss .. | .vioReturn .. |
    .firmwareBootDone .. | .watchdogExpiry .. | .lockstepMismatch .. | .testPortReset .. | .windowOpen .. | .pointAction .. |
    .tripEvaluation .. | .hardwareScrub .. => beyondQueue

/-- What raising an event writes: the event unit, the counters and the device's share of the next SUMMARY (R29, R388, R273). -/
def reports : List Part := [.evt, .counters, .own]

/-- Every lane, port or converter but the one named is unchanged. -/
def OtherLines (n : Fin 8) (s t : State) : Prop := ∀ m, m ≠ n → t.lines[m] = s.lines[m]
def OtherHosts (n : Fin 16) (s t : State) : Prop := ∀ m, m ≠ n → t.hosts[m] = s.hosts[m]
def OtherPorts (p : Fin 8) (s t : State) : Prop := ∀ q, q ≠ p → t.ports[q] = s.ports[q]
def OtherMons (k : Fin 2) (s t : State) : Prop := ∀ j, j ≠ k → t.mon[j] = s.mon[j]

/-- Where the source is not masked it is latched: waiting to be reported (R29, R465). -/
def Latched (src : Nat) (s t : State) : Prop := masked s src = false → ∃ l ∈ t.evt.latches, l.src = src

/-- Every byte of the local ring memory outside n bytes from a reads as before. -/
def OtherBytes (a n : Nat) (s t : State) : Prop :=
  ∀ b, b < a ∨ a + n ≤ b → Memory.get t.lmem b = Memory.get s.lmem b

/-! ### Commands from descriptors -/

/-- The descriptor commands: opcode, descriptor, and what the check of an image found. -/
def opcodeOf : Instr → Option (Nat × Desc × ImageCheck)
  | .nop d => some (0x00, d, noImage)
  | .queryCmd d => some (0x01, d, noImage)
  | .telemRefetch d => some (0x02, d, noImage)
  | .bankWrite d => some (0x10, d, noImage)
  | .bankCopy d => some (0x11, d, noImage)
  | .bankRead d => some (0x12, d, noImage)
  | .coefLoad d => some (0x13, d, noImage)
  | .bankSwap d => some (0x14, d, noImage)
  | .setMode d => some (0x15, d, noImage)
  | .schedInstall d => some (0x20, d, noImage)
  | .schedFree d => some (0x21, d, noImage)
  | .domSchedule d => some (0x22, d, noImage)
  | .domCancel d => some (0x23, d, noImage)
  | .enumerate d => some (0x24, d, noImage)
  | .laneAcquire d => some (0x30, d, noImage)
  | .trainStart d => some (0x31, d, noImage)
  | .latMeasure d => some (0x32, d, noImage)
  | .hostMsg d => some (0x33, d, noImage)
  | .ocpXfer d => some (0x34, d, noImage)
  | .power d => some (0x40, d, noImage)
  | .reset d => some (0x41, d, noImage)
  | .freeze d => some (0x50, d, noImage)
  | .counterClear d => some (0x51, d, noImage)
  | .counterSelect d => some (0x52, d, noImage)
  | .capture d => some (0x53, d, noImage)
  | .eventMask d => some (0x60, d, noImage)
  | .eventLogRead d => some (0x61, d, noImage)
  | .monConfig d => some (0x70, d, noImage)
  | .monSync d => some (0x71, d, noImage)
  | .monThreshold d => some (0x72, d, noImage)
  | .thermConfig d => some (0x78, d, noImage)
  | .shedOrder d => some (0x79, d, noImage)
  | .calConfig d => some (0x80, d, noImage)
  | .calRequest d => some (0x81, d, noImage)
  | .checkRun d => some (0x90, d, noImage)
  | .selftest d => some (0x91, d, noImage)
  | .patchStage d img => some (0xA0, d, img)
  | .patchActivate d => some (0xA1, d, noImage)
  | .attest d => some (0xA2, d, noImage)
  | .ownerKey d sigOk => some (0xA3, d, { noImage with ownerOk := sigOk })
  | _ => none

/-- The command of a descriptor is taken: c is the command, u the state in which it is open, and no other command waits. -/
def Taken (op : Nat) (d : Desc) (img : ImageCheck) (s : State) (c : Cmd) (u : State) : Prop :=
  s.rst.ctrlReset = false ∧ s.rings.held = [] ∧ c = { op := op, d := d, era := s.rings.era, img := img } ∧ u = cmdOpen c s

/-- It passes steps 2 to 5 of R291. -/
def Accepted (op : Nat) (d : Desc) (img : ImageCheck) (s : State) (c : Cmd) (u : State) : Prop :=
  Taken op d img s c u ∧ opForbidden c u = false ∧ opTgt c u = true ∧ flagsOk c = true ∧ opPar c u = true ∧
    opInTest c u = false ∧ opOff c u = false

/-- It takes effect at once: it is accepted, neither TIMED nor behind an open FENCE, and firmware runs where it needs it (R292). -/
def AtOnce (op : Nat) (d : Desc) (img : ImageCheck) (s : State) (c : Cmd) (u : State) : Prop :=
  Accepted op d img s c u ∧ startable u c = true ∧ c.timed = false

/-- A table of initial coefficients of a line bank (Table 4.10). -/
def initTable (b : LineBank) : Nat → List (BitVec 16)
  | 0 => b.initMain
  | 1 => b.initFg
  | 2 => b.initNl
  | _ => b.initTgt

end Sys2Proof
end

