-- ==== Sys2Proof/Certificates/Slice0/Obligations.lean ====
section
/-! DEFINITION. The statements about the model, for the provers. -/

open Sys2Proof Sys2Proof.Machine

/-! ### The queue, the invariant, reset -/

/-- A step takes the command at the front of the queue and runs it on the state with the queue's rest. -/
def Obligations.StepRunsTheFrontCommand : Prop :=
  ∀ (c : Instr) (rest : List Instr) (s : State), s.pending = c :: rest → step s = exec c { s with pending := rest }

/-- On an empty queue one sub-tick passes (log entries 1 and 72, the model's own): the eighth ends the reference tick, so that the clock
advances by one in eight steps; no command appears, and what was put out stays put out. -/
def Obligations.IdleStepIsOneTick : Prop :=
  ∀ s : State, s.pending = [] → ∃ t, step s = .next t ∧ t.pending = [] ∧
    (t.clk, t.sub) = (if s.sub < 7 then (s.clk, s.sub + 1) else (s.clk + 1, 0)) ∧ s.free ≤ t.free ∧ ∃ o, t.out = s.out ++ o

/-- Every command, in every state and with every operand, completes: it leaves the queue and the clock alone, never takes back
an output and never draws a free value twice. -/
def Obligations.EveryCommandCompletes : Prop :=
  ∀ (c : Instr) (s : State), ∃ t, exec c s = .next t ∧ t.pending = s.pending ∧ t.clk = s.clk ∧ t.sub = s.sub ∧ s.free ≤ t.free ∧
    ∃ o, t.out = s.out ++ o

/-- The state after reset meets the invariant, and every set-up register equals its shadow copy. -/
def Obligations.InvariantAtReset : Prop := Invariant State.reset ∧ shadowsAgree State.reset

/-- Every step keeps the invariant: the local ring memory stays in its canonical form, the event log never passes 1,024 entries
(R471), and the reserved bits of every set-up register and of its shadow copy stay as after reset (R9, R415). Every step but a pass of
the shadow compare after which an upset strikes a field keeps every set-up register equal to its shadow copy. -/
def Obligations.StepKeepsInvariant : Prop :=
  (∀ s t : State, Invariant s → step s = .next t → Invariant t) ∧
  (∀ s t : State, shadowsAgree s → (∀ u rest, s.pending ≠ .shadowCompare (some u) :: rest) → step s = .next t → shadowsAgree t)

/-- What POR leaves where the spec gives the value: RST.CAUSE reads POR alone at LEVEL 4 with no episode counted; every line lane
and host lane is off; no event is latched or logged and the masks are those of Table 17.6; the set-up registers are at their reset
values, so the set-up lock is open and no ring is enabled but the records' vectors are; the monitor settings, the thresholds and
the shed order are those of Tables 11.15, 12.1 and 12.6. -/
def Obligations.ResetLeaves : Prop :=
  State.reset.rst.cause = 1 ∧ State.reset.rst.count = 0 ∧ State.reset.rst.level = 4 ∧
  (∀ n : Fin 8, State.reset.lines[n].rx.st = .off ∧ State.reset.lines[n].tx.st = .off ∧ State.reset.lines[n].tx.txDis = true) ∧
  (∀ n : Fin 16, State.reset.hosts[n].st = .off) ∧
  State.reset.evt.latches = [] ∧ State.reset.evt.log = [] ∧ State.reset.evt.logSeq = 0 ∧
  (∀ o, reg State.reset o = setupReset o) ∧ locked State.reset = false ∧ (∀ r, ringEn State.reset r = false) ∧
  State.reset.viol = 0 ∧ State.reset.therm.stage = 0 ∧ State.reset.therm.tripped = false ∧
  (∀ i : Fin 14, State.reset.therm.sens[i].warn = 100 ∧ State.reset.therm.sens[i].advise = 105 ∧ State.reset.therm.sens[i].mute = 115) ∧
  State.reset.arb.admitted = [] ∧ State.reset.rings.opened = []

/-! ### Events and answers -/

/-- Raising an unmasked source that is not latched latches it with a count of one, the payload and the time of this occurrence, and
writes one log entry; a latched source counts on, up to 65,535, and keeps its payload and time; a masked source is not latched. In
each case nothing but the reports changes. -/
def Obligations.RaisingLatches : Prop :=
  ∀ (src cls : Nat) (p : Word) (s : State), evtClass src = some cls →
    OnlyChanges reports s (raise src p s) ∧
    (masked s src = false → (∀ l ∈ s.evt.latches, l.src ≠ src) →
      (raise src p s).evt.latches = s.evt.latches ++ [{ src := src, count := 1, payload := p, time := now s, route := routeOf s src }] ∧
      (raise src p s).evt.log =
        lastN 1024 (s.evt.log ++ [{ seq := s.evt.logSeq, src := src, masked := false, payload := p, time := now s }]) ∧
      (raise src p s).evt.logSeq = s.evt.logSeq + 1) ∧
    (masked s src = false → (∃ l ∈ s.evt.latches, l.src = src) →
      (raise src p s).evt.latches =
        s.evt.latches.map (fun l => if l.src = src then { l with count := min (l.count + 1) 65535 } else l) ∧
      (raise src p s).evt.log = s.evt.log) ∧
    (masked s src = true → (raise src p s).evt.latches = s.evt.latches)

/-- Answering an accepted command: its outcome can be queried at once; a final OK with QUIET writes no record; any other answer waits
as a record with the command's ring, sequence number, opcode and TAG, on the completion ring that the command ring names. Answering
writes the rings and, where a record is dropped, the reports. -/
def Obligations.AnsweringForms : Prop :=
  ∀ (c : Cmd) (st : Byte) (fin : Bool) (time : CTime) (res : Nat) (s : State), c.era = s.rings.era →
    OnlyChanges (.rings :: reports) s (answer c st fin time res s) ∧
    (answer c st fin time res s).rings.outcomes.head? =
      some { ring := c.d.ring, seq := c.d.seq, status := st, final := fin, result := BitVec.ofNat 32 (res % 2 ^ 32) } ∧
    (fin = true → st = 0 → bit c.d.flags 3 = true → (answer c st fin time res s).rings.wait = s.rings.wait) ∧
    ((fin = false ∨ st ≠ 0 ∨ bit c.d.flags 3 = false) →
      (s.rings.wait.filter (·.final)).length < 1024 →
      (answer c st fin time res s).rings.wait = s.rings.wait ++
        [{ cpl := ringCpl s c.d.ring, ring := c.d.ring, op := c.op, seq := c.d.seq, tag := c.d.tag, status := st, final := fin
           time := time, result := BitVec.ofNat 64 res }])

/-- What no command does: a command writes nothing outside its footprint. -/
def Obligations.EveryCommandFrame : Prop := ∀ (c : Instr) (s t : State), exec c s = .next t → OnlyChanges (footprint c) s t

/-! ### Register accesses -/

/-- A write of a set-up register (R9): an aligned word over a path that reaches BAR0 while the control plane runs. A bit of an RW
field takes the value, a bit of an RWL field takes it unless the set-up lock is set, every other bit and every other register keeps
its value; a locked write that would change an RWL bit is counted in VIOL and raises the violation event once, any other reports
nothing. After a write of TLM_ROUTE the records retained in the device are offered by the routes that it sets (R303). -/
def Obligations.SetupRegisterWrite : Prop :=
  ∀ (p : Path) (off : Nat) (v rw rwl r : Word) (s : State), pathOk s p = true → s.rst.ctrlReset = false →
    setupSpec off = some (rw, rwl, r) → off ≠ 0x30 → ringAt off = none → ¬(0x2800 ≤ off ∧ off < 0x2A00) →
    ∃ t u, exec (.registerWrite p off 4 v) s = .next t ∧
      (∀ i < 32, bit (reg t off) i = if bit rw i || (bit rwl i && !locked s) then bit v i else bit (reg s off) i) ∧
      (∀ o, o ≠ off → reg t o = reg s o) ∧ OnlyChanges [.setup, .viol] s u ∧
      (if locked s ∧ (reg s off ^^^ v) &&& rwl ≠ 0 then t = raise 0x025 (pay1 off) u ∧ t.viol = min (s.viol + 1) 255
       else t = (if off = 0x8070 then tlmOffer u else u) ∧ t.viol = s.viol)

/-- A write that is not an aligned word, or over a path that does not reach BAR0, or with the control plane in reset, changes
nothing (R478); a write of 1 to a W1C bit of RST.CAUSE clears it, and a 0 leaves it. -/
def Obligations.RegisterWriteDiscardedOrClearing : Prop :=
  (∀ (p : Path) (off size : Nat) (v : Word) (s : State),
    pathOk s p = false ∨ size ≠ 4 ∨ off % 4 ≠ 0 ∨ s.rst.ctrlReset = true → exec (.registerWrite p off size v) s = .next s) ∧
  (∀ (p : Path) (v : Word) (s : State), pathOk s p = true → s.rst.ctrlReset = false →
    ∃ t, exec (.registerWrite p 0x1000 4 v) s = .next t ∧ t.rst = { s.rst with cause := s.rst.cause &&& ~~~(v.setWidth 13) } ∧
      OnlyChanges [.rst] s t)

/-- A read of a lower word answers it and latches the upper word of the same instant on its own path; the next read of the upper
word over that path answers the latched word and uses the latch up. Nothing else changes, so the other path's latch stays (R7,
R480). -/
def Obligations.LowerWordReadLatches : Prop :=
  ∀ (p : Path) (off : Nat) (s : State), pathOk s p = true → s.rst.ctrlReset = false → off % 4 = 0 → rdataAt off = none →
    (isLower off = true → assocGet (latches s p) off = none →
      ∃ t, exec (.lowerWordRead p off) s = .next t ∧ t.out = s.out ++ [.read p (liveWord s off)] ∧
        assocGet (latches t p) (off + 4) = some (liveWord s (off + 4)) ∧
        (∀ q, q ≠ p → latches t q = latches s q) ∧ OnlyChanges [.out, .latches] s t) ∧
    (∀ v, assocGet (latches s p) off = some v →
      ∃ t, exec (.lowerWordRead p off) s = .next t ∧ t.out = s.out ++ [.read p v] ∧ assocGet (latches t p) off = none ∧
        (∀ q, q ≠ p → latches t q = latches s q) ∧ OnlyChanges [.out, .latches] s t)

/-- A write of exactly 1 to GLB.SETUP_LOCK sets the lock; any other value does nothing (R489). -/
def Obligations.SetupLockWrite : Prop :=
  ∀ (p : Path) (v : Word) (s : State), pathOk s p = true → s.rst.ctrlReset = false →
    (v = 1 → ∃ t, exec (.setupLock p v) s = .next t ∧ locked t = true ∧ (∀ o, o ≠ 0x30 → reg t o = reg s o) ∧
      OnlyChanges [.setup] s t) ∧
    (v ≠ 1 → exec (.setupLock p v) s = .next s)

/-- Enabling a ring with the lock open: the fields of CFG are taken (the state u); then, with the set-up valid, EN is 1, the ring's
counts are 0 and its error is cleared (R284, R286), only a telemetry ring taking up retained records beside (R303). Where the set-up is
invalid the ring stays disabled and the event names the ring and what is wrong; in G0 the enabling waits for its end (R449). -/
def Obligations.RingEnabling : Prop :=
  ∀ (p : Path) (r : RingId) (v : Word) (s : State), pathOk s p = true → s.rst.ctrlReset = false → locked s = false →
    ringEn s r = false → bit v 31 = true → let u := writeSetup (ringBase r + 8) (v &&& 0x7FFFFFFF) s;
      (inG0 s = false → ringFault u r = none → ∃ t, exec (.ringEnable p r v) s = .next t ∧ ringEn t r = true ∧
        (∀ i < 31, bit (ringCfg t r) i = bit (ringCfg u r) i) ∧
        (getRing t r).prod = 0 ∧ (getRing t r).cons = 0 ∧ (getRing t r).err = false ∧ (getRing t r).unsig = 0 ∧
        (getRing t r).written = 0 ∧ (getRing t r).acked = 0 ∧ OnlyChanges [.setup, .rings, .tlm, .mon] s t ∧
        ((∀ k, r ≠ .tlm k) → (∀ q, q ≠ r → getRing t q = getRing s q) ∧ OnlyChanges [.setup, .rings] s t)) ∧
      (inG0 s = false → ∀ f, ringFault u r = some f →
        exec (.ringEnable p r v) s = .next (raise 0x021 (pay2 (ringCode r) f) u)) ∧
      (inG0 s = true → ∃ t, exec (.ringEnable p r v) s = .next t ∧ r ∈ t.rings.enWait ∧ ringEn t r = false ∧
        OnlyChanges [.setup, .rings] s t) ∧
      OnlyChanges [.setup] s u ∧ ringEn u r = false ∧ (∀ o, o ≠ ringBase r + 8 → reg u o = reg s o)

/-- Disabling a ring clears EN and leaves its other fields; a command ring discards what it has not fetched, a telemetry ring's
records wait to be offered again; a disabled ring stays disabled (R286, R303). -/
def Obligations.RingDisabling : Prop :=
  ∀ (p : Path) (r : RingId) (v : Word) (s : State), pathOk s p = true → s.rst.ctrlReset = false → ringEn s r = true →
    bit v 31 = false →
    ∃ t, exec (.ringDisable p r v) s = .next t ∧ ringEn t r = false ∧
      (∀ i < 31, bit (ringCfg t r) i = bit (ringCfg s r) i) ∧ (∀ o, o ≠ ringBase r + 8 → reg t o = reg s o) ∧
      (∀ k, r = .cmd k → (getRing t r).prod = (getRing s r).cons) ∧ OnlyChanges [.setup, .rings, .tlm, .mon] s t ∧
      ((∀ k, r ≠ .tlm k) → OnlyChanges [.setup, .rings] s t)

/-- A capture latches at once every coefficient as it acts on the samples, and marks the latched values valid; the live ones stay. On a
muted line lane H2 is latched as held; where the live set was restarted at the same instant, a line lane's capture latches what
acted before (R129, R138, R234); with the lane's domain off, or in a reset, the registers keep their reset values
(R106, R222). A read of BUF_RDATA answers the word at WADDR and moves WADDR on by one word of 4,096 (R365). -/
def Obligations.CapturesAndBufferRead : Prop :=
  (∀ (n : Fin 8) (s : State),
    (domOn s (rxDomain n) = true → laneHeld s (.line n) = false →
      ((∀ e, s.lines[n].eq.prior = some e → e.1 ≠ s.clk) → exec (.lineCoefCapture n) s = .next (modEq n (fun e => { e with
        cap := { e.live.applied with h2 := unitsOf 512 (if e.muted then e.heldH2 else e.live.h2) }, capValid := true }) s)) ∧
      (∀ x, s.lines[n].eq.prior = some x → x.1 = s.clk →
        exec (.lineCoefCapture n) s = .next (modEq n (fun e => { e with cap := x.2, capValid := true }) s))) ∧
    (domOn s (rxDomain n) = false ∨ laneHeld s (.line n) = true → exec (.lineCoefCapture n) s = .next s)) ∧
  (∀ (n : Fin 16) (s : State),
    (domOn s (hostDomain n) = true → laneHeld s (.host n) = false → exec (.hostCoefCapture n) s =
      .next (modHost n (fun h => { h with cap := hostApplied h.act false h.coefs, capValid := true }) s)) ∧
    (domOn s (hostDomain n) = false ∨ laneHeld s (.host n) = true → exec (.hostCoefCapture n) s = .next s)) ∧
  (∀ (p : Path) (k : Fin 2) (w : Word) (s : State), pathOk s p = true → s.rst.ctrlReset = false →
    bufWord s.mon[k] (bits (reg s (raddrOff k)) 2 12) = some w →
    ∃ t, exec (.bufRdataRead p k) s = .next t ∧ t.out = s.out ++ [.read p w] ∧
      reg t (raddrOff k) = BitVec.ofNat 32 ((bits (reg s (raddrOff k)) 2 12 + 1) % 4096 * 4) ∧
      (∀ o, o ≠ raddrOff k → reg t o = reg s o) ∧ OnlyChanges [.out, .setup] s t)

/-! ### Doorbells, descriptors and records -/

/-- A producer count on a command ring's doorbell: one from 0 to N ahead of the fetch count is taken, any other, or one on a disabled
ring, is refused with the doorbell event; nothing happens where doorbells do not reach the ring engines (R280, R288, R289, R449). -/
def Obligations.CommandDoorbell : Prop :=
  ∀ (k : Fin 16) (v : Word) (s : State),
    (doorbellOk s = true → ringEn s (.cmd k) = true → (v - s.rings.cmd[k].cons).toNat ≤ ringN s (.cmd k) →
      ∃ t, exec (.cmdDb k v) s = .next t ∧ getRing t (.cmd k) = { getRing s (.cmd k) with prod := v, db := v } ∧
        (∀ q, q ≠ .cmd k → getRing t q = getRing s q) ∧ OnlyChanges [.rings, .counters] s t) ∧
    (doorbellOk s = true → ringEn s (.cmd k) = false ∨ ringN s (.cmd k) < (v - s.rings.cmd[k].cons).toNat →
      exec (.cmdDb k v) s = .next (raise 0x020 (pay2 k.val v.toNat) s)) ∧
    (doorbellOk s = false → exec (.cmdDb k v) s = .next s)

/-- The doorbells that carry consumer counts, each with its ring. -/
def Obligations.ConsumerDoorbells : Prop :=
  ∀ (c : Instr) (r : RingId) (v : Word) (s : State),
    (∃ k, c = .cplDb k v ∧ r = .cpl k) ∨ (∃ k, c = .evtDb k v ∧ r = .evt k) ∨ (∃ k, c = .tlmCons k v ∧ r = .tlm k) →
    (doorbellOk s = true → ringEn s r = true → (v - (getRing s r).cons).toNat ≤ ringN s r →
      (v - (getRing s r).cons).toNat ≤ ((getRing s r).prod - (getRing s r).cons).toNat →
      ∃ t, exec c s = .next t ∧ getRing t r = { getRing s r with cons := v } ∧
        (∀ q, q ≠ r → getRing t q = getRing s q) ∧ OnlyChanges [.rings, .counters] s t) ∧
    (doorbellOk s = true → ringEn s r = false ∨ ringN s r < (v - (getRing s r).cons).toNat ∨
        ((getRing s r).prod - (getRing s r).cons).toNat < (v - (getRing s r).cons).toNat →
      exec c s = .next (raise 0x020 (pay2 (ringCode r) v.toNat) s)) ∧
    (doorbellOk s = false → exec c s = .next s)

/-- A TLM_ACK of A frees every record of the ring whose RECORD_ID is below A and no other record; an A below the last
acknowledgement or above the records written is refused with the doorbell event (R303). A is a count modulo 2^32, as RECORD_ID is: the
count it stands for is the first at or above the last acknowledgement (R289). -/
def Obligations.TelemetryAcknowledgement : Prop :=
  ∀ (k : Fin 8) (v : Word) (s : State), doorbellOk s = true →
    (ringEn s (.tlm k) = true → ∀ n, s.rings.tlm[k].acked ≤ n → n ≤ s.rings.tlm[k].written → n < s.rings.tlm[k].acked + 2 ^ 32 →
      BitVec.ofNat 32 n = v →
      ∃ t, exec (.tlmAck k v) s = .next t ∧ getRing t (.tlm k) = { getRing s (.tlm k) with acked := n } ∧
        (∀ x, x ∈ t.tlm.recs ↔ x ∈ s.tlm.recs ∧ ¬(x.ring = some k ∧ x.id < n)) ∧
        (∀ q, q ≠ .tlm k → getRing t q = getRing s q) ∧ OnlyChanges [.rings, .counters, .tlm] s t) ∧
    (ringEn s (.tlm k) = false ∨ s.rings.tlm[k].written < s.rings.tlm[k].acked + (v - BitVec.ofNat 32 s.rings.tlm[k].acked).toNat →
      exec (.tlmAck k v) s = .next (raise 0x020 (pay2 (0x30 + k.val) v.toNat) s))

/-- The fetch of a descriptor: a ring that may not fetch does nothing; a descriptor whose PHASE or CHECK is wrong is counted in
CHK_FAIL and answered CHECK_FAIL with nothing else done; a good one is taken up as its opcode (R284, R291 step 1, R298), the next turn
being the ring after it (R290). -/
def Obligations.DescriptorFetching : Prop :=
  ∀ (k : Fin 16) (b : List Byte) (s : State),
    (fetchOk k s = false → exec (.descriptorFetch k b) s = .next s) ∧
    (fetchOk k s = true →
      descOk k s.rings.cmd[k].cons.toNat (ringN s (.cmd k)) (descBytes k b s) = false →
      ∃ t, exec (.descriptorFetch k b) s = .next t ∧
        (getRing t (.cmd k)).cons = s.rings.cmd[k].cons + 1 ∧ (getRing t (.cmd k)).chkFail = min (s.rings.cmd[k].chkFail + 1) 255 ∧
        t.rings.outcomes.head? = some { ring := k, seq := s.rings.cmd[k].cons, status := 0x10, final := true, result := 0 } ∧
        OnlyChanges (.rings :: reports) s t) ∧
    (fetchOk k s = true → descOk k s.rings.cmd[k].cons.toNat (ringN s (.cmd k)) (descBytes k b s) = true →
      byteAt (descBytes k b s) 0 ≠ 0xA0 → byteAt (descBytes k b s) 0 ≠ 0xA3 →
      let u := modRings (fun r => { r with turn := k }) (countDev 0x84 1 (modRing (.cmd k) (fun g => { g with cons := g.cons + 1 }) s));
      exec (.descriptorFetch k b) s =
          .next (submit (byteAt (descBytes k b s) 0) (descOf k s.rings.cmd[k].cons (descBytes k b s)) noImage u) ∧
        OnlyChanges [.rings, .counters] s u ∧ (∀ q, q ≠ .cmd k → getRing u q = getRing s q))

/-- Writing an event record: the next latch of the ring is written at the ring's place with the check over its bytes, its source is
unlatched and held off for its class, and the ring counts one entry on, signalling its vector with MOD_CNT entries; with no latch,
or a ring that cannot take a record, nothing happens (R284, R287, R300, R470). -/
def Obligations.EventRecordWriting : Prop :=
  ∀ (e : Fin 4) (s : State),
    (latchNext s e = none ∨ ringReady s (.evt e) = false ∨ ringFull s (.evt e) = true →
      exec (.eventRecordWrite e) s = .next s) ∧
    (∀ l, latchNext s e = some l → ringReady s (.evt e) = true → ringFull s (.evt e) = false →
      ∃ t, exec (.eventRecordWrite e) s = .next t ∧ t.evt.latches = s.evt.latches.erase l ∧
        assocGet t.evt.holdoff l.src = some (s.clk + holdoffTicks s ((evtClass l.src).getD 0)) ∧
        getRing t (.evt e) = { getRing s (.evt e) with
          prod := (getRing s (.evt e)).prod + 1, unsig := if ringMod s (.evt e) ≤ (getRing s (.evt e)).unsig + 1 then 0 else (getRing s (.evt e)).unsig + 1
          first := if (getRing s (.evt e)).unsig = 0 then s.clk else (getRing s (.evt e)).first, latest := s.clk } ∧
        (∀ q, q ≠ .evt e → getRing t q = getRing s q) ∧
        (localMode s = false → .hostWrite (ringAddr s (.evt e) + 16 * ((getRing s (.evt e)).prod.toNat % ringN s (.evt e)))
          (evtBytes s e l (getRing s (.evt e)).prod.toNat) ∈ t.out ∧ t.lmem = s.lmem) ∧
        (localMode s = true → t.out = s.out ∧ t.lmem = Memory.write s.lmem
          (ringAddr s (.evt e) + 16 * ((getRing s (.evt e)).prod.toNat % ringN s (.evt e))) (evtBytes s e l (getRing s (.evt e)).prod.toNat)) ∧
        OnlyChanges [.out, .pcie, .rings, .evt, .lmem, .counters] s t)

/-- Writing a telemetry record (R285, R287, R301, R302, R303, R309): first what the device still holds for the ring becomes records (v).
A record that is due and fits before the ring's end goes out, its bytes from 16 on before its first 16; one that does not fit there
goes to the ring's start behind a PAD record that fills the units left, or after it later where only the PAD has room; with nothing
due, a ring that cannot take a record, or no room, nothing is written. The ring's counts go on by the units written and its
RECORD_ID, its vector is signalled with MOD_CNT records, and the record waits for its acknowledgement. In local ring mode the bytes go
to the ring memory. -/
def Obligations.TelemetryRecordWriting : Prop :=
  ∀ (t : Fin 8) (s : State), let v := tlmGather t s; let g := getRing v (.tlm t);
    let n := ringN v (.tlm t); let left := n - g.prod.toNat % n; let room := n - (g.prod - g.cons).toNat;
    let due := v.tlm.recs.find? fun x => x.ring == some t && x.due;
    let addr := ringAddr v (.tlm t) + 64 * (g.prod.toNat % n);
    let unsig (k : Nat) := if ringMod v (.tlm t) ≤ k then 0 else k;
    (∃ u, exec (.telemetryRecordWrite t) s = .next u ∧
      OnlyChanges [.out, .pcie, .rings, .tlm, .lmem, .lines, .mon, .evt, .counters, .own] s u) ∧
    (routeOfType s 5 ≠ t → routeOfType s 6 ≠ t → v = s) ∧
    (due = none ∨ ringReady v (.tlm t) = false → exec (.telemetryRecordWrite t) s = .next v) ∧
    (∀ x, due = some x → ringReady v (.tlm t) = true →
      (room < x.units → (left < x.units → room < left) → exec (.telemetryRecordWrite t) s = .next v) ∧
      (x.units ≤ left → x.units ≤ room → let b := tlmBytes v t x x.id g.prod.toNat;
        ∃ u, exec (.telemetryRecordWrite t) s = .next u ∧
          (localMode v = false → u.lmem = v.lmem ∧
            u.out.take (v.out.length + 2) = v.out ++ [.hostWrite (addr + 16) (b.drop 16), .hostWrite addr (b.take 16)]) ∧
          (localMode v = true → u.out = v.out ∧ u.lmem = Memory.write (Memory.write v.lmem (addr + 16) (b.drop 16)) addr (b.take 16)) ∧
          getRing u (.tlm t) = { g with
            prod := g.prod + BitVec.ofNat 32 x.units, unsig := unsig (g.unsig + 1)
            first := if g.unsig = 0 then v.clk else g.first, latest := v.clk, written := max g.written (x.id + 1) } ∧
          (∀ q, q ≠ .tlm t → getRing u q = getRing v q) ∧
          u.tlm.recs = v.tlm.recs.map (fun y => if y = x then { y with due := false, wrote := true } else y) ∧
          (x.typ ≠ 5 → u.mon = v.mon) ∧ OnlyChanges [.out, .pcie, .rings, .tlm, .lmem, .counters, .mon] v u) ∧
      (left < x.units → left ≤ room → x.units ≤ n → let pad := tlmBytes v t (padRec v left) x.id g.prod.toNat;
        ∃ u, exec (.telemetryRecordWrite t) s = .next u ∧
          (localMode v = false → u.lmem = v.lmem ∧
            u.out.take (v.out.length + 2) = v.out ++ [.hostWrite (addr + 16) (pad.drop 16), .hostWrite addr (pad.take 16)]) ∧
          (localMode v = true → u.out = v.out) ∧ (∀ q, q ≠ .tlm t → getRing u q = getRing v q) ∧
          (room < left + x.units → u.tlm = v.tlm ∧ getRing u (.tlm t) = { g with
            prod := g.prod + BitVec.ofNat 32 left, unsig := unsig (g.unsig + 1)
            first := if g.unsig = 0 then v.clk else g.first, latest := v.clk }) ∧
          (left + x.units ≤ room → (getRing u (.tlm t)).prod = g.prod + BitVec.ofNat 32 (left + x.units) ∧
            (getRing u (.tlm t)).unsig = unsig (unsig (g.unsig + 1) + 1) ∧
            (getRing u (.tlm t)).written = max g.written (x.id + 1) ∧
            u.tlm.recs = v.tlm.recs.map (fun y => if y = x then { y with due := false, wrote := true } else y)) ∧
          OnlyChanges [.out, .pcie, .rings, .tlm, .lmem, .counters, .mon] v u))

/-- Writing a completion record: the oldest waiting record of the ring is written at the ring's place and waits no more, a final one
closes its command, and the ring counts one entry on, signalling its vector with MOD_CNT entries (R287, R292, R293); here with no
command and no reset waiting for it. -/
def Obligations.CompletionRecordWriting : Prop :=
  ∀ (c : Fin 16) (r : CplRec) (s : State), (s.rings.wait.find? fun x => x.cpl == c) = some r → ringReady s (.cpl c) = true →
    ringFull s (.cpl c) = false → s.rings.held = [] → s.rst.afterRecord = [] →
    let b := cplBytes s r (getRing s (.cpl c)).prod.toNat;
    let a := ringAddr s (.cpl c) + 32 * ((getRing s (.cpl c)).prod.toNat % ringN s (.cpl c));
    ∃ t, exec (.completionRecordWrite c) s = .next t ∧
      t.rings.wait = s.rings.wait.erase r ∧
      (r.final = true → ∀ o, o ∈ t.rings.opened ↔ o ∈ s.rings.opened ∧ o ≠ (r.ring, r.seq)) ∧
      (r.final = false → t.rings.opened = s.rings.opened) ∧
      getRing t (.cpl c) = { getRing s (.cpl c) with
        prod := (getRing s (.cpl c)).prod + 1, unsig := if ringMod s (.cpl c) ≤ (getRing s (.cpl c)).unsig + 1 then 0 else (getRing s (.cpl c)).unsig + 1
        first := if (getRing s (.cpl c)).unsig = 0 then s.clk else (getRing s (.cpl c)).first, latest := s.clk } ∧
      (∀ q, q ≠ .cpl c → getRing t q = getRing s q) ∧
      (localMode s = false → t.out.take (s.out.length + 1) = s.out ++ [.hostWrite a b] ∧ t.lmem = s.lmem) ∧
      (localMode s = true → t.out = s.out ∧ t.lmem = Memory.write s.lmem a b) ∧ OnlyChanges [.out, .pcie, .rings, .lmem, .counters] s t

/-- A ring with unsignalled entries signals its vector once MOD_TIME has passed since the first of them, or 10 us since the last entry
written (log entry 78 says which instant): the message goes out where the vector is unmasked and the bus usable, else the pending bit
is set; in local ring mode there is none (R287, R309). A failed host access of an enabled ring stops it, is reported and stands in the
error status of the function (R296; log entry 77 says at which bit). -/
def Obligations.VectorsAndAccessErrors : Prop :=
  (∀ (r : RingId) (s : State), (∀ k, r ≠ .cmd k) → ringEn s r = true → (getRing s r).unsig ≠ 0 →
    let t0 := bits (ringCfg s r) 8 4;
    let due := t0 ≠ 0 ∧ 625 * 2 ^ t0 ≤ 4 * (s.clk - (getRing s r).first) ∨ 6250 ≤ 4 * (s.clk - (getRing s r).latest);
    (¬due → exec (.vectorSignal r) s = .next s) ∧
    (due → ∃ t, exec (.vectorSignal r) s = .next t ∧ getRing t r = { getRing s r with unsig := 0 } ∧
      (∀ q, q ≠ r → getRing t q = getRing s q) ∧
      (localMode s = true → t.out = s.out ∧ t.pcie = s.pcie) ∧
      (localMode s = false → bit (reg s (0x280C + 16 * ringVec s r)) 0 = false → busOk s = true →
        t.pcie = s.pcie ∧ t.out = s.out ++ [.msix (ringVec s r)
          ((reg s (0x2800 + 16 * ringVec s r)).toNat + 2 ^ 32 * (reg s (0x2804 + 16 * ringVec s r)).toNat)
          (reg s (0x2808 + 16 * ringVec s r))]) ∧
      (localMode s = false → bit (reg s (0x280C + 16 * ringVec s r)) 0 = true ∨ busOk s = false →
        t.out = s.out ∧ t.pcie = { s.pcie with pend := s.pcie.pend ||| BitVec.ofNat 32 (2 ^ ringVec s r) }) ∧
      OnlyChanges [.out, .pcie, .rings] s t)) ∧
  (∀ (r : RingId) (status : Nat) (s : State), ringEn s r = true → localMode s = false →
    ∃ t u, exec (.ringAccessError r status) s = .next t ∧
      (let v := raise 0x022 (pay2 (ringCode r) status) u; t = { v with pcie := t.pcie }) ∧
      (∃ i, i < 32 ∧ t.pcie = { s.pcie with aer := s.pcie.aer ||| BitVec.ofNat 32 (2 ^ i) }) ∧
      getRing t r = { getRing s r with err := true } ∧ (∀ q, q ≠ r → getRing t q = getRing s q) ∧ OnlyChanges [.rings] s u) ∧
  (∀ (r : RingId) (status : Nat) (s : State), ringEn s r = false ∨ localMode s = true → exec (.ringAccessError r status) s = .next s)

/-! ### The sideband, the attachment and the clocks -/

/-- The two-wire target: one aligned word in BAR0 is the register write of that word; in local ring mode bytes of the ring memory
are written and read back where they stand, and no other byte changes (R309, R310, R479). -/
def Obligations.TwoWireTransactions : Prop :=
  (∀ (a : Nat) (b0 b1 b2 b3 : Byte) (s : State), pathOk s .twoWire = true → a % 4 = 0 → a + 4 ≤ 0x40000 →
    exec (.twoWireWrite a [b0, b1, b2, b3]) s =
      exec (.registerWrite .twoWire a 4 (BitVec.ofNat 32 (ofBytesLE [b0, b1, b2, b3]))) s) ∧
  (∀ (a : Nat) (d : List Byte) (s : State), pathOk s .twoWire = true → localMode s = true → s.rst.ctrlReset = false →
    Memory.wf s.lmem = true → 0x80000 ≤ a → a + d.length ≤ 0x90000 →
    ∃ t, exec (.twoWireWrite a d) s = .next t ∧
      (∀ i (h : i < d.length), Memory.get t.lmem (a - 0x80000 + i) = d[i]) ∧ OtherBytes (a - 0x80000) d.length s t ∧
      OnlyChanges [.lmem] s t) ∧
  (∀ (a n : Nat) (s : State), pathOk s .twoWire = true → localMode s = true → 0x80000 ≤ a → a + n ≤ 0x90000 →
    ∃ t, exec (.twoWireRead a n) s = .next t ∧
      t.out = s.out ++ [.readBytes ((List.range n).map fun i => Memory.get s.lmem (a - 0x80000 + i))] ∧ OnlyChanges [.out] s t)

/-- What the two-wire target turns away: a partial word of a register raises the two-wire error with cause 0, a doorbell or ring
memory hidden by the PCI Express attachment raises it with cause 1; nothing is written and a read answers zeros (R310, R479). -/
def Obligations.TwoWireErrors : Prop :=
  ∀ (a : Nat) (d : List Byte) (s : State),
    (pathOk s .twoWire = true → a % 4 = 0 → a < 0x40000 → 0 < d.length → d.length < 4 →
      exec (.twoWireWrite a d) s = .next (raise 0x026 (pay1 0) s) ∧
      exec (.twoWireRead a d.length) s = .next (emit (.readBytes (zeros d.length)) (raise 0x026 (pay1 0) s))) ∧
    (pathOk s .twoWire = true → localMode s = false → 0x80000 ≤ a → a + d.length ≤ 0x90000 → 0 < d.length →
      exec (.twoWireWrite a d) s = .next (raise 0x026 (pay1 1) s) ∧
      exec (.twoWireRead a d.length) s = .next (emit (.readBytes (zeros d.length)) (raise 0x026 (pay1 1) s))) ∧
    (pathOk s .twoWire = false → exec (.twoWireWrite a d) s = .next s ∧ exec (.twoWireRead a d.length) s = .next s)

/-- The link goes and comes back, and the configuration space acts (R16, R279, R280, R309): losing the link clears it alone; it comes up
in the form it trained to, with PCI Express attachment outside PERST_N and reset; a configuration write, taken with the link up, sets
the enables, the sizes and ASPM L1 and clears the error status bits it names. Interrupts that were pending may go out, and nothing
else changes. -/
def Obligations.PcieAttachment : Prop :=
  (∀ s : State, exec .pcieLinkLoss s = .next { s with pcie := { s.pcie with link := false } }) ∧
  (∀ (f : LinkForm) (s : State), (localMode s = true ∨ s.rst.perstLow = true ∨ s.rst.ctrlReset = true →
      exec (.pcieLinkUp f) s = .next s) ∧
    (localMode s = false → s.rst.perstLow = false → s.rst.ctrlReset = false →
      ∃ t, exec (.pcieLinkUp f) s = .next t ∧ t.pcie = { s.pcie with link := true, refOk := true, form := f, pend := t.pcie.pend } ∧
        (s.pcie.pend = 0 → t.pcie.pend = 0 ∧ t.out = s.out) ∧ OnlyChanges [.pcie, .out] s t)) ∧
  (∀ (bme mse d3 : Bool) (ctl : PcieCtl) (w1c : BitVec 32) (s : State),
    (s.pcie.link = false → exec (.pcieConfigWrite bme mse d3 ctl w1c) s = .next s) ∧
    (s.pcie.link = true → ∃ t, exec (.pcieConfigWrite bme mse d3 ctl w1c) s = .next t ∧
      t.pcie = { s.pcie with bme := bme, mse := mse, d3hot := d3, ctl := ctl, aer := s.pcie.aer &&& ~~~w1c, pend := t.pcie.pend } ∧
      (bme = false ∨ d3 = true ∨ s.pcie.pend = 0 → t.pcie.pend = s.pcie.pend ∧ (localMode s = false → t.out = s.out)) ∧
      OnlyChanges [.pcie, .out] s t))

/-- The housekeeping oscillator's loss and return are told by HKO_OK alone (Table 1.4); the loss of the reference clock is reported,
stops every transmitter into electrical idle with TX_DISABLE_n as it was, and brings every receiver that is not OFF to DARK or IDLE
(R38, R39, R158). -/
def Obligations.ClockLoss : Prop :=
  (∀ s : State, exec .housekeepingOscillatorLoss s = .next { s with hkoOk := false }) ∧
  (∀ s : State, exec .housekeepingOscillatorRestored s = .next { s with hkoOk := true }) ∧
  (∀ s : State, s.refOk = true → ∃ t, exec .refclkLost s = .next t ∧ t.refOk = false ∧ t.refLostAt = s.clk ∧
    (∀ n : Fin 8, t.lines[n].tx.st = .off ∧ t.lines[n].tx.dacOn = false ∧ t.lines[n].tx.txDis = s.lines[n].tx.txDis ∧
      t.lines[n].rx.st = if s.lines[n].rx.st = .off then .off else .dark) ∧
    (∀ n : Fin 16, t.hosts[n].st = if s.hosts[n].st = .off then .off else .idle) ∧
    OnlyChanges (footprint .refclkLost) s t) ∧
  (∀ s : State, s.refOk = false → domOn s 8 = true → ∃ t, exec .refclkRestored s = .next t ∧ t.refOk = true ∧
    t.refLostAt = s.refLostAt ∧ (∀ n : Fin 16, s.hosts[n].st = .idle → s.hosts[n].sigDet = false → t.hosts[n].st = .idle) ∧
    OnlyChanges (footprint .refclkRestored) s t)

/-! ### Commands: acceptance -/

/-- Steps 2 to 5 of R291 in their order: the first check that fails answers the command and nothing else happens; a command of no
ring is taken while the control plane is in reset. A failed TARGET check, for one, hides a wrong parameter. -/
def Obligations.CommandRefusals : Prop :=
  ∀ (i : Instr) (op : Nat) (d : Desc) (img : ImageCheck) (s : State), opcodeOf i = some (op, d, img) →
    (s.rst.ctrlReset = true → exec i s = .next s) ∧
    (∀ c u, Taken op d img s c u →
      (opForbidden c u = true → exec i s = .next (refuse c 0x11 u)) ∧
      (opForbidden c u = false → opTgt c u = false → exec i s = .next (refuse c 0x12 u)) ∧
      (opForbidden c u = false → opTgt c u = true → (flagsOk c && opPar c u) = false → exec i s = .next (refuse c 0x13 u)) ∧
      (opForbidden c u = false → opTgt c u = true → flagsOk c = true → opPar c u = true → opInTest c u = true →
        exec i s = .next (answer c 0x20 true u.tst.blkEnd 0 u)) ∧
      (opForbidden c u = false → opTgt c u = true → flagsOk c = true → opPar c u = true → opInTest c u = false → opOff c u = true →
        exec i s = .next (refuse c 0x22 u)))

/-- An unprivileged ring accepts only NOP, QUERY_CMD for its own ring, BANK_READ, LAT_MEASURE, HOST_MSG, FREEZE and CAPTURE; any
other opcode on it is answered BAD_OPCODE. After reset rings 0 to 3 are privileged and rings 4 to 15 are not. -/
def Obligations.UnprivilegedRings : Prop :=
  (∀ (i : Instr) (op : Nat) (d : Desc) (img : ImageCheck) (s : State) (c : Cmd) (u : State),
    opcodeOf i = some (op, d, img) → Taken op d img s c u → ringPriv s d.ring = false →
    ((op = 0x00 ∨ (op = 0x01 ∧ c.p 0 = d.ring.val) ∨ op = 0x12 ∨ op = 0x32 ∨ op = 0x33 ∨ op = 0x50 ∨ op = 0x53) →
      opForbidden c u = false) ∧
    (¬(op = 0x00 ∨ (op = 0x01 ∧ c.p 0 = d.ring.val) ∨ op = 0x12 ∨ op = 0x32 ∨ op = 0x33 ∨ op = 0x50 ∨ op = 0x53) →
      exec i s = .next (refuse c 0x11 u))) ∧
  ∀ k : Fin 16, ringPriv State.reset k = decide (k.val < 4)

/-- A command that is accepted but may not start waits, and starts no other; a TIMED command installs its action in the lowest free
slot at its first occurrence and is answered DEFERRED with the slot's time, its result still to come (R267, R292, R307). -/
def Obligations.WaitingAndTimedCommands : Prop :=
  ∀ (i : Instr) (op : Nat) (d : Desc) (img : ImageCheck) (s : State) (c : Cmd) (u : State),
    opcodeOf i = some (op, d, img) → Accepted op d img s c u →
    (startable u c = false → exec i s = .next { u with rings := { u.rings with held := [c] } }) ∧
    (startable u c = true → c.timed = true → ∃ a, opTimed c = some a ∧
      let x : Slot := { Slot.empty with
        action := a, target := d.target, start := d.time, tag := d.tag, src := .timed, param := fit 44 d.param, cmd := some c }
      (slotFirst u x = none → exec i s = .next (refuse c 0x31 u)) ∧
      (∀ y, slotFirst u x = some y → lowestFree u = none → exec i s = .next (refuse c 0x30 u)) ∧
      (∀ y k, slotFirst u x = some y → lowestFree u = some k →
        ∃ v, exec i s = .next (answer c 0x01 false y.armed 0 v) ∧ v.cad.slots[k] = { y with valid := true } ∧
          (∀ j, j ≠ k → v.cad.slots[j] = u.cad.slots[j]) ∧ OnlyChanges [.cad] u v))

/-- NOP, QUERY_CMD, TELEM_REFETCH, BANK_READ and EVENT_LOG_READ: what each answers, and that the records named by TELEM_REFETCH are
offered again once (R297, R303, R472). -/
def Obligations.ReadingCommands : Prop :=
  ∀ (d : Desc) (s : State) (c : Cmd) (u : State),
    (AtOnce 0x00 d noImage s c u → exec (.nop d) s = .next (done c 0 u)) ∧
    (AtOnce 0x01 d noImage s c u → ∃ o ∈ u.rings.outcomes, o.ring.val = c.p 0 ∧ o.seq = BitVec.ofNat 32 (c.le 4 4) ∧
      exec (.queryCmd d) s = .next (done c (o.status.toNat + 256 * b2n o.final + 2 ^ 32 * o.result.toNat) u)) ∧
    (AtOnce 0x02 d noImage s c u → ∃ v, exec (.telemRefetch d) s = .next (done c 0 v) ∧ OnlyChanges [.tlm] u v ∧
      v.tlm.recs = u.tlm.recs.map (fun x => if x.ring = some (Fin.ofNat 8 (c.p 0)) ∧ x.id = c.le 4 4 ∧ x.due = false
        then { x with due := true, refetch := true } else x)) ∧
    (AtOnce 0x12 d noImage s c u → ∃ b, blocksOf (c.tgt.getD .reed) = [b] ∧ (shadowMask b (c.le 0 2)).isSome ∧
      exec (.bankRead d) s = .next (done c (shadowGet u b (c.le 0 2)).toNat u)) ∧
    (AtOnce 0x61 d noImage s c u → ∃ e l, logEntries c u = e :: l ∧
      let b := (e :: l).flatMap logBytes ++ bytesLE 4 (crc32c d.time.toNat ((e :: l).flatMap logBytes))
      (localMode u = false → busOk u = true → exec (.eventLogRead d) s =
        .next (done c (e.seq.toNat + 2 ^ 32 * (l.length + 1)) (emit (.hostWrite d.time.toNat b) u))) ∧
      (localMode u = true → exec (.eventLogRead d) s =
        .next (done c (e.seq.toNat + 2 ^ 32 * (l.length + 1)) { u with lmem := Memory.write u.lmem d.time.toNat b })))

/-- EVENT_MASK masks, unmasks or routes exactly the sources from FIRST to LAST; a source of the fault class is never masked (R465,
R473). -/
def Obligations.EventMasking : Prop :=
  ∀ (d : Desc) (s : State) (c : Cmd) (u : State), AtOnce 0x60 d noImage s c u →
    ∃ v, exec (.eventMask d) s = .next (done c 0 v) ∧ OnlyChanges [.evt] u v ∧
      v.evt.latches = u.evt.latches ∧ v.evt.log = u.evt.log ∧
      ∀ k < 512, let hit := decide (c.le 2 2 ≤ k) && decide (k ≤ c.le 4 2)
        masked v k = (if c.p 0 = 0 then masked u k || (hit && maskable k) else if c.p 0 = 1 then masked u k && !hit else masked u k) ∧
        routeOf v k = if c.p 0 = 2 ∧ hit = true then c.p 6 else routeOf u k

/-! ### Bank commands -/

/-- BANK_WRITE, on whatever targets it names, puts every entry in its order, masked to the bits that the register holds, into the shadow
bank of each target and of no other, and no active bank's value changes (R21, R281); a word given anew is no longer one that an
uncorrectable error destroyed (R412). A register of a line or host bank then reads the last value given for it, a port's FEC likewise. -/
def Obligations.BankWriting : Prop :=
  ∀ (d : Desc) (s : State) (c : Cmd) (u : State), AtOnce 0x10 d noImage s c u →
    ∃ v, exec (.bankWrite d) s = .next (done c 0 v) ∧ OnlyChanges [.lines, .hosts, .ports] u v ∧
      (∀ n : Fin 8, let l := u.lines[n]; v.lines[n] = if .line n ∈ bankTargets u c then { l with
          shd := (bankEntries c).foldl (fun b e => lineBankPut e.1 (e.2 &&& (lineBankMask e.1).getD 0) b) l.shd
          act := { l.act with bad := l.act.bad.filter fun o => !(bankEntries c).any fun e => e.1 == o } } else l) ∧
      (∀ n : Fin 16, let h := u.hosts[n]; v.hosts[n] = if .host n ∈ bankTargets u c then { h with
          shd := (bankEntries c).foldl (fun b e => hostBankPut e.1 (e.2 &&& (hostBankMask e.1).getD 0) b) h.shd
          act := { h.act with bad := h.act.bad.filter fun o => !(bankEntries c).any fun e => e.1 == o } } else h) ∧
      (∀ p : Fin 8, let x := u.ports[p]; v.ports[p] = if .port p ∈ bankTargets u c then { x with
          shd := (bankEntries c).foldl (fun b e => portBankPut e.1 (e.2 &&& (portBankMask e.1).getD 0) b) x.shd
          act := { x.act with bad := x.act.bad.filter fun o => !(bankEntries c).any fun e => e.1 == o } } else x) ∧
      (∀ (i : Nat) (o : Nat) (w m : Word), (bankEntries c)[i]? = some (o, w) →
        ((bankEntries c).drop (i + 1)).all (fun e => e.1 != o) = true →
        (∀ n, .line n ∈ bankTargets u c → lineBankMask o = some m → o < 0x410 → shadowGet v (.line n) o = w &&& m) ∧
        (∀ n, .host n ∈ bankTargets u c → hostBankMask o = some m → shadowGet v (.host n) o = w &&& m) ∧
        (∀ p, .port p ∈ bankTargets u c → o = 0x080 → portBankMask o = some m → shadowGet v (.port p) o = w &&& m))

/-- BANK_COPY copies the active bank of its block into the shadow bank (R22), rewriting with it the words of the active bank that an
error destroyed (R412). COEF_LOAD writes COUNT values from INDEX on into the table that it names of the shadow bank; every other
value of every table stays, and so does the active bank (R305). -/
def Obligations.BankCopyingAndLoading : Prop :=
  ∀ (d : Desc) (s : State) (c : Cmd) (u : State),
    (AtOnce 0x11 d noImage s c u → ∃ v, exec (.bankCopy d) s = .next (done c 0 v) ∧
      (∀ n, c.tgt = some (.line (some n)) → (let a := { u.lines[n].act with bad := [] };
        v.lines[n] = { u.lines[n] with act := a, shd := a }) ∧ OtherLines n u v ∧ OnlyChanges [.lines] u v) ∧
      (∀ n, c.tgt = some (.host (some n)) → (let a := { u.hosts[n].act with bad := [] };
        v.hosts[n] = { u.hosts[n] with act := a, shd := a }) ∧ OtherHosts n u v ∧ OnlyChanges [.hosts] u v) ∧
      (∀ p, c.tgt = some (.port (some p)) → (let a := { u.ports[p].act with bad := [] };
        v.ports[p] = { u.ports[p] with act := a, shd := a }) ∧ OtherPorts p u v ∧ OnlyChanges [.ports] u v)) ∧
    (AtOnce 0x13 d noImage s c u → ∃ n b v, c.tgt = some (.line (some n)) ∧ exec (.coefLoad d) s = .next (done c 0 v) ∧
      v.lines[n] = { u.lines[n] with shd := b } ∧ OtherLines n u v ∧ OnlyChanges [.lines] u v ∧
      (∀ i, (initTable b (c.p 0))[i]? =
        if c.p 1 ≤ i ∧ i < c.p 1 + c.p 2 ∧ i < (initTable u.lines[n].shd (c.p 0)).length
        then some (BitVec.ofNat 16 (c.le (4 + 2 * (i - c.p 1)) 2)) else (initTable u.lines[n].shd (c.p 0))[i]?) ∧
      (∀ t < 4, t ≠ c.p 0 → initTable b t = initTable u.lines[n].shd t) ∧ b.rxfe = u.lines[n].shd.rxfe ∧
      b.txCfg = u.lines[n].shd.txCfg)

/-- SET_MODE fills every shadow bank with the defaults of its mode and leaves every active bank: the mode changes only at a swap
(R56); mode 0 with fixed latency is mode 6. -/
def Obligations.SettingAMode : Prop :=
  ∀ (d : Desc) (s : State) (c : Cmd) (u : State), AtOnce 0x15 d noImage s c u →
    ∃ v, exec (.setMode d) s = .next (done c 0 v) ∧ OnlyChanges [.lines, .hosts, .ports] u v ∧ modeOf v = modeOf u ∧
      (∀ n : Fin 8, v.lines[n] = { u.lines[n] with shd := LineBank.default }) ∧
      (∀ n : Fin 16, v.hosts[n] = { u.hosts[n] with shd := HostBank.default }) ∧
      (∀ p : Fin 8, v.ports[p] = { u.ports[p] with
        shd := PortBank.default (if c.p 0 = 0 ∧ c.p 1 = 1 then 6 else c.p 0) (c.p 1 == 1) (c.p 2) p.val })

/-- BANK_SWAP of one lane exchanges its banks where no condition is broken; a broken condition is reported with the target and its
offset, the command is answered BAD_PARAM, and no bank changes; an admitted activity that excludes class M4 there, or an occurrence
of a slot due at that instant whose class keeps it out, answers MAINT_CONFLICT (R22, R26, R333). -/
def Obligations.SwappingABank : Prop :=
  ∀ (d : Desc) (s : State) (c : Cmd) (u : State) (t : Tgt) (b : Block), AtOnce 0x14 d noImage s c u →
    (∃ n, t = .line (some n) ∧ b = .line n) ∨ (∃ n, t = .host (some n) ∧ b = .host n) →
    swapTgts c.d.target c.d.param 21 = some [t] → blockOff u b = false →
    (∀ a, arbHolderOf .swap u 4 t = some a → exec (.bankSwap d) s = .next (refuse c 0x21 (arbRefuse 4 a.cls u))) ∧
    (arbHolderOf .swap u 4 t = none → ∀ k, slotClaim u 4 false (c.tgt.getD .device) = some k →
      exec (.bankSwap d) s = .next (refuse c 0x21 (arbRefuse 4 k u))) ∧
    (arbHolderOf .swap u 4 t = none → slotClaim u 4 false (c.tgt.getD .device) = none →
      (∀ o, blockBroken u [] b = some o → let v := arbAdmitOf .swap 4 t u;
        exec (.bankSwap d) s = .next (refuse c 0x13 (raise 0x002 (pay2 b.code.toNat o) v)) ∧ OnlyChanges [.arb] u v) ∧
      (blockBroken u [] b = none → ∃ v, exec (.bankSwap d) s = .next (done c 0 v) ∧
        (∀ n : Fin 8, v.lines[n].act = (if b = .line n then u.lines[n].shd else u.lines[n].act) ∧
          v.lines[n].shd = (if b = .line n then u.lines[n].act else u.lines[n].shd)) ∧
        (∀ n : Fin 16, v.hosts[n].act = (if b = .host n then u.hosts[n].shd else u.hosts[n].act) ∧
          v.hosts[n].shd = (if b = .host n then u.hosts[n].act else u.hosts[n].shd))))

/-! ### Line receive -/

/-- Loss of signal takes a lane that is not OFF to DARK with the event and begins an outage from UP; light takes it from OFF to
GAIN, and from DARK to RELOCK within 1 s where it has a stored bank, else to GAIN; in OFF a loss only clears the detector (R89, R97,
R101, R103). -/
def Obligations.LineSignal : Prop :=
  ∀ (n : Fin 8) (s : State),
    (s.lines[n].rx.st = .off → exec (.signalLoss n) s = .next (modRx n (fun r => { r with sigDet := false }) s)) ∧
    (s.lines[n].rx.st ≠ .off → ∃ t, exec (.signalLoss n) s = .next t ∧ OtherLines n s t ∧ t.lines[n].rx.st = .dark ∧
      t.lines[n].rx.sigDet = false ∧ t.lines[n].eq.stored = s.lines[n].eq.stored ∧
      (s.lines[n].rx.st ≠ .dark → t.lines[n].rx.vga = 80 ∧ t.lines[n].rx.darkSince = s.clk ∧ Latched (lineSrc n 0x01) s t) ∧
      (s.lines[n].rx.st = .up → t.lines[n].rx.outage = true)) ∧
    (∃ t, exec (.light n) s = .next t ∧ OtherLines n s t ∧
      t.lines[n].rx.sigDet = (if s.lines[n].rx.st = .off ∧ rxReady s n = false then s.lines[n].rx.sigDet else true) ∧
      t.lines[n].rx.st =
        (if compDark s n = true then s.lines[n].rx.st
        else if s.lines[n].rx.st = .off ∧ rxReady s n = true then .gain
        else if s.lines[n].rx.st = .dark ∧ s.refOk = true then
          (if s.lines[n].eq.stored.isSome = true ∧ s.clk - s.lines[n].rx.darkSince ≤ oneSecond then .relock else .gain)
        else s.lines[n].rx.st))

/-- The states of acquisition and what leaves them (Table 3.4): GAIN, TIMING and TRAIN in their order, a retry and the fallback from
RELOCK to GAIN with the stored bank void, lock lost in UP to RELOCK with the stored bank loaded (R99, R100, R105, R128). -/
def Obligations.LineAcquisition : Prop :=
  ∀ (n : Fin 8) (s : State), let r := s.lines[n].rx;
    (∃ t, exec (.gainDone n) s = .next t ∧ OtherLines n s t ∧ OnlyChanges [.lines] s t ∧ t.lines[n].eq = s.lines[n].eq ∧
      t.lines[n].rx = if r.st = .gain then { r with st := .timing } else r) ∧
    (r.st ≠ .timing → exec (.timingDone n) s = .next s) ∧
    (r.st = .timing → ∃ t, exec (.timingDone n) s = .next t ∧ OtherLines n s t ∧ OnlyChanges [.lines] s t ∧
      t.lines[n].rx = { r with st := .train, cdrLock := true } ∧ t.lines[n].eq.phase = 1 ∧ t.lines[n].eq.conv = false ∧
      t.lines[n].eq.live.main = maskTaps s.lines[n].act s.lines[n].eq.muted (initMain s.lines[n].act) ∧
      t.lines[n].eq.live.h1 = initTgt s.lines[n].act 0) ∧
    (r.st = .gain ∨ r.st = .timing ∨ r.st = .train ∨ r.st = .frame → ∃ t, exec (.acquisitionRetry n) s = .next t ∧
      OtherLines n s t ∧ t.lines[n].rx.st = .gain ∧ t.lines[n].rx.coldCnt = satU 8 (r.coldCnt + 1) ∧ t.lines[n].eq.stored = none ∧
      t.lines[n].rx.acqStart = r.acqStart ∧ Latched (lineSrc n 0x05) s t) ∧
    (¬(r.st = .gain ∨ r.st = .timing ∨ r.st = .train ∨ r.st = .frame) → exec (.acquisitionRetry n) s = .next s) ∧
    (r.st = .relock → ∃ t, exec (.relockFallback n) s = .next t ∧ OtherLines n s t ∧ t.lines[n].rx.st = .gain ∧
      t.lines[n].rx.fallback = true ∧ t.lines[n].rx.acqStart = r.acqStart ∧ t.lines[n].eq.stored = none ∧
      Latched (lineSrc n 0x04) s t) ∧
    (r.st ≠ .relock → exec (.relockFallback n) s = .next s) ∧
    (r.st = .up → ∃ t, exec (.lockLost n) s = .next t ∧ OtherLines n s t ∧ t.lines[n].rx.st = .relock ∧
      t.lines[n].rx.relockCnt = satU 8 (r.relockCnt + 1) ∧ t.lines[n].rx.outage = true ∧ t.lines[n].rx.acqStart = s.clk ∧
      (∀ k, s.lines[n].eq.stored = some k → t.lines[n].rx.vga = k.vga ∧ t.lines[n].rx.freq = k.freq) ∧
      Latched (lineSrc n 0x00) s t) ∧
    (r.st ≠ .up → ∃ t, exec (.lockLost n) s = .next t ∧ OtherLines n s t ∧ OnlyChanges [.lines] s t ∧
      t.lines[n].rx = { r with cdrLock := false } ∧ t.lines[n].eq = s.lines[n].eq)

/-- Codeword lock in mode 4, header check errors, the 2 ms point of an outage, resumption of the port, and the end of an outage (R98,
R99, R103, R104, R205). -/
def Obligations.LineLocksAndOutage : Prop :=
  ∀ (n : Fin 8) (s : State), let r := s.lines[n].rx; let f := s.lines[n].fr;
    (¬(modeOf s = 4 ∧ lineCode s n = 3) → exec (.codewordLock n) s = .next s ∧ exec (.codewordLockLost n) s = .next s) ∧
    (modeOf s = 4 → lineCode s n = 3 →
      (¬(r.st = .frame ∨ r.st = .up ∨ r.st = .relock) → exec (.codewordLock n) s = .next s) ∧
      (r.st = .frame ∨ r.st = .up ∨ r.st = .relock → ∃ t, exec (.codewordLock n) s = .next t ∧ OtherLines n s t ∧
        t.lines[n].rx.inFrame = true ∧ t.lines[n].rx.st = .up ∧
        (r.st = .frame ∨ r.st = .relock → Latched (lineSrc n 0x03) s t ∧ t.lines[n].rx.outSince = s.clk)) ∧
      (∃ t, exec (.codewordLockLost n) s = .next t ∧ OtherLines n s t ∧ t.lines[n].rx.inFrame = false ∧
        t.lines[n].rx.st = (if r.st = .up then .relock else r.st) ∧ (r.st = .up → Latched (lineSrc n 0x00) s t))) ∧
    (f.hchkInt = 0 → f.scInt = 0 → exec (.headerCheckErrors n) s = .next s) ∧
    (¬(f.hchkInt = 0 ∧ f.scInt = 0) → ∃ t, exec (.headerCheckErrors n) s = .next t ∧ OtherLines n s t ∧
      t.lines[n] = { s.lines[n] with fr := { f with hchkInt := 0, scInt := 0 } } ∧
      (s.evt.rate.find? (fun e => e.1 == lineSrc n 0x1A && e.2.1 == 0) = none → Latched (lineSrc n 0x1A) s t)) ∧
    (let reach := r.outage = true ∧ r.past2ms = false ∧ s.refOk = true ∧ r.st ≠ .up ∧ r.st ≠ .off;
      (¬reach → exec (.portSquelched n) s = .next s) ∧
      (reach → ∃ t, exec (.portSquelched n) s = .next t ∧ OtherLines n s t ∧
        t.lines[n].rx = { r with past2ms := true, squelch := r.squelch || (portOfLine (modeOf s) n).isSome } ∧
        (r.squelch = false → (portOfLine (modeOf s) n).isSome = true → Latched (lineSrc n 0x06) s t))) ∧
    (∀ p : Fin 8, let again := portEnabled s p = true ∧ (∀ k, portOfLine (modeOf s) k = some p → s.lines[k].rx.st = .up) ∧
        s.ports[p].sqDeskew = false;
      (¬again → exec (.portResume p) s = .next s) ∧
      (again → ∃ t, exec (.portResume p) s = .next t ∧ OnlyChanges [.lines] s t ∧ ∀ k : Fin 8, t.lines[k] =
        if portOfLine (modeOf s) k = some p then { s.lines[k] with rx := { s.lines[k].rx with squelch := false } } else s.lines[k])) ∧
    (∃ t, exec (.outageEnd n) s = .next t ∧ OtherLines n s t ∧ OnlyChanges [.lines] s t ∧ t.lines[n] =
      if r.st = .up then { s.lines[n] with rx := { r with outage := false, outTicks := 0, past2ms := false } } else s.lines[n])

/-- The gain loop stays in its range and within its step, picks the TIA code in GAIN and rests while it is written, the phases of
adaptation begin and end, a clamped coefficient is reported, the TIA step of R91 is wanted and followed by the VGA (R88, R91, R119,
R120). -/
def Obligations.LineGainAndPhases : Prop :=
  ∀ (n : Fin 8) (s : State), let r := s.lines[n].rx; let e := s.lines[n].eq; let b := s.lines[n].act;
    (∀ rms : Nat, let first := r.st = .gain ∧ r.tiaPick = true ∧ tiaRuns s n = true;
      let held := r.st = .dark ∨ r.st = .gain ∧ (tiaBusy s n = true ∨ r.vgaStepDue.isSome = true);
      ∃ t, exec (.vgaLoopStep n rms) s = .next t ∧ OtherLines n s t ∧ OnlyChanges [.lines, .out, .ocp] s t ∧
      t.lines[n].eq = e ∧ (r.st = .off → t = s) ∧
      (r.st ≠ .off → ¬first → t.out = s.out ∧ t.ocp = s.ocp ∧
        t.lines[n].rx = { r with rms := min rms 255, vga := t.lines[n].rx.vga } ∧ t.lines[n].rx.vga ≤ 80) ∧
      (first → t.lines[n].rx = { r with rms := min rms 255, tiaPick := false, vgaStepDue := some 0 } ∧
        ∃ x ∈ t.ocp, ∃ code : Fin 16, x.what = .tiaWrite n code.val 1 ∧ bits b.tia 12 4 ≤ code.val ∧
          (bits b.tia 12 4 ≤ bits b.tia 16 4 → code.val ≤ bits b.tia 16 4)) ∧
      (r.st ≠ .off → ¬first → held → r.vga ≤ 80 → t.lines[n].rx.vga = r.vga) ∧
      (r.st ≠ .off → ¬first → ¬held → r.vga ≤ 80 → let lim := if r.st = .gain then 8 else 1;
        t.lines[n].rx.vga ≤ r.vga + lim ∧ r.vga ≤ t.lines[n].rx.vga + lim)) ∧
    (¬(r.st = .train ∧ e.phase = 1) → ∃ t, exec (.blindTimeout n) s = .next t ∧ t = s) ∧
    (r.st = .train → e.phase = 1 → ∃ t, exec (.blindTimeout n) s = .next t ∧ OtherLines n s t ∧ OnlyChanges [.lines] s t ∧
      t.lines[n].rx = r ∧ t.lines[n].eq = { e with
        phase := 2, again := false
        sweep := if placeWanted b = true ∧ e.placed = false ∧ e.sweep = none then some { blocks := 0, corr := [], cur := [], main := 0 }
          else e.sweep }) ∧
    (∃ t, exec (.trackingEntry n) s = .next t ∧ OtherLines n s t ∧ OnlyChanges [.lines] s t ∧ t.lines[n].rx = r ∧
      t.lines[n].eq = if e.phase = 2 ∧ (r.st ≠ .train ∨ e.again = true) then { e with phase := 3, again := false } else e) ∧
    (∀ loop : Fin 4, (e.phase = 0 ∨ loopClamped e.live loop.val = false → exec (.coefficientSaturated n loop) s = .next s) ∧
      (e.phase ≠ 0 → loopClamped e.live loop.val = true → ∃ t, exec (.coefficientSaturated n loop) s = .next t ∧ OtherLines n s t ∧
        t.lines[n].eq = { e with sat := true } ∧ Latched (lineSrc n 0x0E) s t)) ∧
    (∃ t, exec (.tiaLimitHold n) s = .next t ∧ OtherLines n s t ∧ OnlyChanges [.lines] s t ∧ t.lines[n].eq = e ∧
      t.lines[n].rx = if r.st = .up ∧ b.tiaEn = true ∧ r.tiaStopped = false ∧ s.rst.mgmtRun = true then
          (if 76 ≤ r.vga ∧ bits b.tia 12 4 ≤ r.tiaCode + 1 ∧ r.tiaCode + 1 ≤ bits b.tia 16 4 then { r with tiaWanted := some (r.tiaCode + 1) }
          else if r.vga ≤ 4 ∧ bits b.tia 12 4 + 1 ≤ r.tiaCode ∧
            r.tiaCode ≤ bits b.tia 16 4 + 1 then { r with tiaWanted := some (r.tiaCode - 1) } else r)
        else r) ∧
    (∃ t, exec (.vgaTiaStep n) s = .next t ∧ OtherLines n s t ∧ OnlyChanges [.lines] s t ∧ t.lines[n].eq = e ∧
      (r.vgaStepDue = none ∨ tiaWriting s n = true → t.lines[n].rx = r) ∧
      (tiaWriting s n = false → ∀ d, r.vgaStepDue = some d → t.lines[n].rx = { r with
        vga := if r.st = .off ∨ r.st = .dark then r.vga else (max 0 (min 80 ((r.vga : Int) + d))).toNat, vgaStepDue := none }))

/-- The adaptation loops: the rotator and the bounded frequency integrator move in TIMING and later, the samples enter the receiver
within their range, each detector input held before the block leaves as one decision with two bounded log-likelihoods, a frozen loop
does not adapt, only the main span adapts in the blind phase, and every adapted value stays within its clamps (R93, R96, R108, R115,
R117, R118, R119, R124). -/
def Obligations.LineLoops : Prop :=
  ∀ (n : Fin 8) (xs : List Int) (cdr : List (Int × Int)) (s : State),
    let r := s.lines[n].rx; let e := s.lines[n].eq; let b := s.lines[n].act;
    let rot := (cdr.getD b.cdrBw (0, 0)).1; let freq := (cdr.getD b.cdrBw (0, 0)).2;
    (r.st = .off ∨ r.st = .dark ∨ r.st = .gain → exec (.loopUpdate n xs cdr) s = .next s) ∧
    (¬(r.st = .off ∨ r.st = .dark ∨ r.st = .gain) → ∃ t, exec (.loopUpdate n xs cdr) s = .next t ∧ OtherLines n s t ∧
      (let l := t.lines[n];
      l.act = b ∧ l.shd = s.lines[n].shd ∧ l.tx = { s.lines[n].tx with proc := l.tx.proc } ∧
      l.fr = { s.lines[n].fr with soft := l.fr.soft } ∧
      l.rx = { r with
        rot := (((r.rot : Int) + max (-32) (min 32 rot)) % 128).toNat, freq := max (-28000) (min 28000 freq)
        freqAtLimit := (r.st == .up || r.st == .relock) && decide (28000 ≤ freq ∨ freq ≤ -28000) } ∧
      l.eq.xs = ((xs.map fun x => max (-64) (min 63 x)).reverse ++ e.xs).take 1104 ∧
      (e.phase = 0 → l.eq = { e with xs := l.eq.xs } ∧ t.out = s.out ∧ l.tx = s.lines[n].tx ∧ l.fr = s.lines[n].fr) ∧
      l.eq = { e with
        live := l.eq.live, xs := l.eq.xs, trellis := l.eq.trellis, acc := l.eq.acc, sweep := l.eq.sweep, prior := l.eq.prior } ∧
      (e.phase ≠ 0 → l.eq.prior = (eqNote n s).lines[n].eq.prior) ∧ (e.sweep = none → l.eq.sweep = none) ∧
      (∀ w, e.sweep = some w → e.phase ≠ 0 → ∃ v, l.eq.sweep = some v ∧ v.blocks = w.blocks ∧ v.corr = w.corr ∧ v.cur.length = 64) ∧
      (e.phase ≠ 0 → framing s n = true → l.fr.soft.length = s.lines[n].fr.soft.length + e.trellis.ins.length) ∧
      l.eq.live.pos = e.live.pos ∧
      (e.phase ≠ 0 → l.eq.trellis.ins.length = 64 ∧ l.eq.acc.n = e.acc.n + e.trellis.ins.length ∧
        ∃ syms llr, t.out = s.out ++ [.detected n syms llr] ∧ syms.length = e.trellis.ins.length ∧
          llr.length = e.trellis.ins.length ∧ ∀ v ∈ llr, v.length = 2 ∧ ∀ w ∈ v, -511 ≤ w ∧ w ≤ 511) ∧
      (e.phase = 1 → l.eq.live = { e.live with main := l.eq.live.main }) ∧
      (bit b.eqCtl 4 = true → l.eq.live.main = e.live.main) ∧ (bit b.eqCtl 5 = true → l.eq.live.fg = e.live.fg) ∧
      (bit b.eqCtl 6 = true → l.eq.live.nl = e.live.nl) ∧
      (bit b.eqCtl 7 = true → l.eq.live = { l.eq.live with
        h1 := e.live.h1, h2 := e.live.h2, ofs := e.live.ofs, lvl1 := e.live.lvl1, lvl2 := e.live.lvl2 }) ∧
      (e.phase ≠ 0 → bit b.eqCtl 4 = false → ∀ c ∈ l.eq.live.main, -8 ≤ c ∧ c < 8) ∧
      (e.phase ≠ 0 → e.phase ≠ 1 → bit b.eqCtl 7 = false → -3 / 4 ≤ l.eq.live.h1 ∧ l.eq.live.h1 ≤ 3 / 4 ∧
        -32 ≤ l.eq.live.ofs ∧ l.eq.live.ofs ≤ 32 ∧ l.eq.live.ofs - 56 ≤ l.eq.live.lvl1 ∧ l.eq.live.lvl1 ≤ l.eq.live.ofs - 8 ∧
        l.eq.live.ofs + 8 ≤ l.eq.live.lvl2 ∧ l.eq.live.lvl2 ≤ l.eq.live.ofs + 56)))

/-- A quality window forms its figures from what the lane gathered and begins anew, moves TRAIN to FRAME once the loops have
converged and ends the blind phase at 12 dB; floating groups are placed after block 17 of the sweep, and the stored bank is saved in UP
under its conditions, with the held values under the mute overlay (R87, R98, R113, R120, R121, R127, R130 to R133, R141). -/
def Obligations.LineQualityAndStoredBank : Prop :=
  ∀ (n : Fin 8) (s : State), let r := s.lines[n].rx; let e := s.lines[n].eq; let b := s.lines[n].act;
    (∀ skews : List Nat, ∃ t, exec (.qualityWindowEnd n skews) s = .next t ∧
      (r.st = .off ∨ r.st = .dark ∨ r.st = .gain ∨ r.st = .timing → t = s) ∧
      (¬(r.st = .off ∨ r.st = .dark ∨ r.st = .gain ∨ r.st = .timing) → (OtherLines n s t ∧
        t.lines[n].eq.sat = false ∧ t.lines[n].eq.acc = QualAcc.reset ∧
        (∀ m, e.acc.mse = some m → t.lines[n].eq.mse = some m ∧ (m ≠ 0 → let p := levelPower e.live / m;
          0 < p → 0 ≤ cdB p.num.natAbs p.den → cdB p.num.natAbs p.den < 65536 → t.lines[n].eq.snr = cdB p.num.natAbs p.den)) ∧
        (∀ v, eyeOf e.acc.hist = some v → t.lines[n].eq.eye = satS 16 v) ∧
        (∀ v, e.acc.errors = some v → t.lines[n].eq.preFec = (rateOf v.num.natAbs v.den).toNat) ∧
        (e.muted = true → t.lines[n].eq.mutePen = 0) ∧
        (r.skewWins < 15 → t.lines[n].rx.skewWins = r.skewWins + 1 ∧ t.lines[n].rx.skews = r.skews) ∧
        (15 ≤ r.skewWins → t.lines[n].rx.skewWins = 0 ∧ t.lines[n].rx.skews = skews.take 64) ∧
        (∀ m, e.acc.tentMse = some m → m ≠ 0 → r.st = .train → e.phase = 1 → e.conv = false →
          t.lines[n].eq.phase = if (1000000 : Rat) ≤ (levelPower e.live / m) ^ 5 then 2 else 1) ∧
        (r.st = .up → t.lines[n].rx.st = .up) ∧
        (r.st = .train → t.lines[n].eq.conv = false → t.lines[n].rx.st = .train) ∧
        (r.st = .train → t.lines[n].eq.conv = true → t.lines[n].rx.st = (if r.inFrame = true then .up else .frame)) ∧
        (r.st = .frame → t.lines[n].rx.st = .frame)))) ∧
    ((e.sweep = none → exec (.floatingGroupSweepBlock n) s = .next s) ∧
      ∀ w, e.sweep = some w → ∃ t, exec (.floatingGroupSweepBlock n) s = .next t ∧ OtherLines n s t ∧ t.lines[n].rx = r ∧
        (bit b.eqCtl 5 = true → t.lines[n].eq = { e with sweep := none, placed := true }) ∧
        (bit b.eqCtl 5 = false → w.blocks < 16 → t.lines[n].eq =
          { e with sweep := some { blocks := w.blocks + 1, corr := w.corr ++ (List.range 64).map fun i => w.cur.getD i 0, cur := [], main := 0 } }) ∧
        (bit b.eqCtl 5 = false → 16 ≤ w.blocks → (t.lines[n].eq =
            { e with
              sweep := none, placed := true, live := { e.live with pos := t.lines[n].eq.live.pos }, prior := (eqNote n s).lines[n].eq.prior } ∧
          t.lines[n].eq.live.pos.length = 4 ∧ Latched (lineSrc n 0x0F) s t))) ∧
    (let alive := domOn s (rxDomain n) = true ∧ laneHeld s (.line n) = false
      let save := alive ∧ s.rst.mgmtRun = true ∧ r.st = .up ∧ e.conv = true ∧ 0 ≤ e.margin;
      ∃ t, exec (.storedBankSave n) s = .next t ∧ OtherLines n s t ∧ OnlyChanges [.lines] s t ∧ t.lines[n].rx = r ∧
        (save → t.lines[n].eq.bankAge = 0 ∧ t.lines[n].eq.voided = [] ∧
          ∃ k ∈ t.lines[n].eq.stored.toList, k.vga = r.vga ∧ k.tia = r.tiaCode ∧ k.freq = r.freq ∧
          k.coefs.fg = e.live.fg ∧ k.coefs.h1 = e.live.h1 ∧ k.coefs.h2 = (if e.muted = true then e.heldH2 else e.live.h2) ∧
          k.coefs.nl = (if e.muted = true then e.heldNl else e.live.nl) ∧
          k.coefs.main = (if e.muted = true then (List.range 64).map fun i =>
            if tapUsed b true i = true then e.live.main.getD i 0 else e.heldMain.getD i 0 else e.live.main)) ∧
        (¬alive → t = s) ∧ (alive → ¬save → t.lines[n].eq = { e with bankAge := min (e.bankAge + 1) 255 }))

/-- A slice or DAC segment that fails while its converter is judged and serves a phase: the spare takes the phase at once, the failed
one is out of service, and a second failure is reported without a substitution; during a swap it waits for the swap's end (R84, R85,
R155, R211). -/
def Obligations.ConverterFailures : Prop :=
  ∀ (n : Fin 8) (h : Fin 16) (k : Nat) (s : State),
    let good (c : ConvId) (i : Instr) : Prop :=
      (¬(convJudged s c = true ∧ isServing ((getConv s c).roles.getD k .failed) = true) → exec i s = .next (calPrune s)) ∧
      (convJudged s c = true → ∀ l, (getConv s c).roles[k]? = some (.phase l) →
        (∀ r, (getConv s c).run = some r → ∃ t, exec i s = .next t ∧
          getConv t c = { getConv s c with run := some { r with failures := r.failures ++ [k] } }) ∧
        ((getConv s c).run = none → spareSlice (getConv s c) = none → ∃ t, exec i s = .next t ∧ getConv t c = getConv s c ∧
          (masked s (convEvent c 0) = false → ∃ x ∈ t.evt.latches, x.src = convEvent c 0)) ∧
        ((getConv s c).run = none → ∀ y, spareSlice (getConv s c) = some y → ∃ t, exec i s = .next t ∧
          (getConv t c).roles = ((getConv s c).roles.set k .failed).set y (.phase l) ∧
          (masked s (convEvent c 0) = false → ∃ x ∈ t.evt.latches, x.src = convEvent c 0)));
    good (.lineAdc n) (.sliceFailed (.line n) k) ∧ good (.hostAdc h) (.sliceFailed (.host h) k) ∧
      good (.dac n) (.dacSegmentFailed n k)

/-! ### Line transmit, training -/

/-- The start and stop of a transmitter, clipping, the SKEW steps, the end of an optics control port transaction: a write is read back,
a readback that differs is tried once more and then reported, a host transfer answers its command with the bytes read (R92, R148,
R150, R158, R173, R174). -/
def Obligations.LineTransmit : Prop :=
  ∀ (n : Fin 8) (s : State), let x := s.lines[n].tx;
    (∃ t, exec (.txDisableRelease n) s = .next t ∧ OtherLines n s t ∧ OnlyChanges [.lines] s t ∧ t.lines[n] =
      { s.lines[n] with tx := if x.st = .run ∧ x.dacOn = true ∧ s.therm.tripped = false then { x with txDis := false } else x }) ∧
    (∃ t, exec (.dacIdle n) s = .next t ∧ OtherLines n s t ∧ OnlyChanges [.lines] s t ∧ t.lines[n] =
      { s.lines[n] with tx := if x.st = .run then x else { x with dacOn := false, drain := none } }) ∧
    (∃ t, exec (.skewStep n) s = .next t ∧ OtherLines n s t ∧ OnlyChanges [.lines] s t ∧
      t.lines[n] = { s.lines[n] with tx := { x with skew := t.lines[n].tx.skew } } ∧ let g := bits s.lines[n].act.txCfg 24 8;
      (x.skew = g → t.lines[n].tx.skew = g) ∧ (x.skew < g → t.lines[n].tx.skew = x.skew + 1) ∧
      (g < x.skew → t.lines[n].tx.skew + 1 = x.skew)) ∧
    (x.clips = 0 → exec (.transmitClipping n) s = .next s) ∧
    (x.clips ≠ 0 → ∃ t, exec (.transmitClipping n) s = .next t ∧ OnlyChanges (.lines :: reports) s t ∧ OtherLines n s t ∧
      t.lines[n] = { s.lines[n] with tx := { x with clips := 0 } } ∧
      (let last := s.evt.rate.find? fun e => e.1 == lineSrc n 0x17 && e.2.1 == 0;
        ((∀ e, last = some e → s.clk < e.2.2 + oneSecond → t.evt = s.evt) ∧
        ((∀ e, last = some e → e.2.2 + oneSecond ≤ s.clk) → Latched (lineSrc n 0x17) s t ∧
          ((∀ l ∈ s.evt.latches, l.src ≠ lineSrc n 0x17) → ∀ l ∈ t.evt.latches, l.src = lineSrc n 0x17 →
            l.payload = pay1 (min x.clips 65535)))))) ∧
    (∀ miso : List Byte, (s.ocp = [] → exec (.ocpTransactionDone miso) s = .next s) ∧
      ∀ a l, s.ocp = a :: l → let back := byteAt miso (miso.length - 1); let w : State := { s with ocp := l };
        ∃ v, exec (.ocpTransactionDone miso) s = .next (ocpStart v) ∧
          (let t := ocpStart v; t.ocp.map (·.what) = (v.ocp.dropWhile (ocpDead v)).map (·.what) ∧ OnlyChanges [.ocp, .out, .lines] v t ∧
            (t.ocp = [] → t.out = v.out) ∧ ∀ x ∈ t.ocp.head?, t.out = v.out ++ [.spi x.cs x.send]) ∧
          (ocpStale s a = true ∨ a.what = .void → v = w) ∧
          (∀ c, a.what = .xfer c → v = done c (ofBytesLE (miso.drop (miso.length - a.rd))) w) ∧
          (∀ m code k, a.what = .tiaWrite m code k → ocpStale s a = false →
            v = { w with ocp := ocpRead a (.tiaRead m code k) w :: l }) ∧
          (∀ m code k, a.what = .drvWrite m code k → v = { w with ocp := ocpRead a (.drvRead m code k) w :: l }) ∧
          (∀ m code k, a.what = .tiaRead m code k → ocpStale s a = false →
            (back = code → v = modRx m (fun r => { r with tiaCode := code }) w) ∧
            (back ≠ code → k < 2 → v = { w with ocp := ocpAgain a (.tiaWrite m code 2) code w :: l }) ∧
            (back ≠ code → 2 ≤ k → v.ocp = l ∧ OtherLines m w v ∧
              v.lines[m].rx = { s.lines[m].rx with tiaStopped := true, tiaWanted := none } ∧ Latched (lineSrc m 0x0A) w v)) ∧
          (∀ m code k, a.what = .drvRead m code k → let y := s.lines[m].tx;
            (back ≠ code → k < 2 → v = { w with ocp := ocpAgain a (.drvWrite m code 2) code w :: l }) ∧
            (back = code ∨ 2 ≤ k → v.ocp = l ∧ OtherLines m w v ∧
              v.lines[m].tx = if y.waitDriver = true then { y with waitDriver := false, dacOn := y.st == .run } else y) ∧
            (back ≠ code → 2 ≤ k → Latched (lineSrc m 0x18) w v)))

/-- The responder of training: a message of another type is passed over, one for another lane is a mismatch, a repeated SEQ is
answered as before, a REQUEST is answered with status 4 where training is not enabled and 5 after a reset of the answers, an accepted
one is applied at the frame that the answer names, DONE keeps the live set as last-good (R160, R161, R164, R165, R166, R176). -/
def Obligations.TrainingResponder : Prop :=
  ∀ (n : Fin 8) (m : BitVec 64) (s : State), let l := s.lines[n]; let x := l.tx;
    let runs := trnRuns s = true ∧ domOn s (txDomain n) = true;
    let quiet := x.trnState ≠ 4 ∨ l.rx.st ≠ .up ∨ l.act.trnReq = false;
    let fresh := ∀ q r, x.lastAnswer = some (q, r) → q.toNat ≠ bits m 49 8;
    (bits m 60 4 ≠ 1 → exec (.request n m) s = .next s) ∧ (bits m 60 4 ≠ 3 → exec (.done n m) s = .next s) ∧
    (¬runs → (bits m 60 4 = 1 → exec (.request n m) s = .next (countLine n 0x28 1 s)) ∧
      (bits m 60 4 = 3 → exec (.done n m) s = .next (countLine n 0x28 1 s))) ∧
    (runs → bits m 57 3 ≠ n.val →
      (bits m 60 4 = 1 → ∃ t, exec (.request n m) s = .next t ∧ OtherLines n s t ∧
        t.lines[n] = { l with tx := { x with mismatch := true, mismatchRaised := true } } ∧
        (x.mismatchRaised = false → Latched (lineSrc n 0x13) s t)) ∧
      (bits m 60 4 = 3 → ∃ t, exec (.done n m) s = .next t ∧ OtherLines n s t ∧
        t.lines[n] = { l with tx := { x with mismatch := true, mismatchRaised := true } } ∧
        (x.mismatchRaised = false → Latched (lineSrc n 0x13) s t))) ∧
    (runs → bits m 57 3 = n.val → quiet →
      (∀ q r, x.lastAnswer = some (q, r) → q.toNat = bits m 49 8 →
        (bits m 60 4 = 1 → ∃ t, exec (.request n m) s = .next t ∧ OtherLines n s t ∧
          t.lines[n] = { l with fr := { l.fr with out := l.fr.out ++ [r] } }) ∧
        (bits m 60 4 = 3 → ∃ t, exec (.done n m) s = .next t ∧ OtherLines n s t ∧
          t.lines[n] = { l with fr := { l.fr with out := l.fr.out ++ [r] } })) ∧
      (fresh →
        (bits m 60 4 = 1 → ∃ t, exec (.request n m) s = .next t ∧ OtherLines n s t ∧ ∃ a ∈ t.lines[n].fr.out.getLast?.toList,
          t.lines[n].fr = { l.fr with out := l.fr.out ++ [a] } ∧ t.lines[n].tx.lastAnswer = some (BitVec.ofNat 8 (bits m 49 8), a) ∧
          t.lines[n].tx.live = x.live ∧ bits a 60 4 = 2 ∧ bits a 57 3 = n.val ∧ bits a 49 8 = bits m 49 8 ∧
          (x.accepted ≠ t.lines[n].tx.accepted → t.lines[n].tx.accepted = some (m, l.fr.txFc + 4) ∧
            bits a 22 16 = (l.fr.txFc + 4).toNat) ∧
          (l.act.trnEn = false → bits a 46 3 = 4 ∧ t.lines[n].tx.accepted = x.accepted) ∧
          (l.act.trnEn = true → x.answerReset = true → bits a 46 3 = 5 ∧ t.lines[n].tx.answerReset = false) ∧
          (l.act.trnEn = true → x.answerReset = false → (trnEffect l m).2.2.isSome = true →
            (arbHolder s 8 (.line (some n))).isSome = true → bits a 46 3 = 3 ∧ t.lines[n].tx.accepted = x.accepted)) ∧
        (bits m 60 4 = 3 → ∃ t, exec (.done n m) s = .next t ∧ OtherLines n s t ∧
          t.lines[n].tx.lastGood = (if l.act.trnEn = true ∧ bit m 48 = true then some x.live else x.lastGood)))) ∧
    (x.accepted = none ∨ s.rst.mgmtRun = false ∨ domOn s (txDomain n) = false → exec (.trainingApply n) s = .next s) ∧
    (∀ q f, x.accepted = some (q, f) → s.rst.mgmtRun = true → domOn s (txDomain n) = true →
      ((l.fr.txFc - f).toInt < 0 → exec (.trainingApply n) s = .next s) ∧
      (0 ≤ (l.fr.txFc - f).toInt → ∃ t, exec (.trainingApply n) s = .next t ∧ OtherLines n s t ∧
        t.lines[n].tx = { x with accepted := none, live := ((trnEffect l q).2.2).getD x.live } ∧
        t.arb.admitted = s.arb.admitted.erase { cls := 8, target := Tgt.code (.line (some n)) }))

/-- The requester of training: what a RESPONSE does to the procedure in the steps that await one, the same REQUEST again without an
answer, the silent timer and the probes while silent (R160, R167, R170,
R176). -/
def Obligations.TrainingRequester : Prop :=
  ∀ (n : Fin 8) (m : BitVec 64) (s : State), let l := s.lines[n]; let x := l.tx;
    let runs := trnRuns s = true ∧ domOn s (txDomain n) = true;
    (bits m 60 4 ≠ 2 → exec (.response n m) s = .next s) ∧
    (¬runs → bits m 60 4 = 2 → exec (.response n m) s = .next (countLine n 0x28 1 s)) ∧
    (runs → bits m 60 4 = 2 → bits m 57 3 ≠ farLane s n → ∃ t, exec (.response n m) s = .next t ∧ OtherLines n s t ∧
      t.lines[n] = { l with tx := { x with mismatch := true, mismatchRaised := true } }) ∧
    (runs → bits m 60 4 = 2 → bits m 57 3 = farLane s n → x.trnState ≠ 4 → l.rx.st = .up → ∀ p, x.proc = some p →
      ∃ t, exec (.response n m) s = .next t ∧ OtherLines n s t ∧
        (bits m 49 8 ≠ bits p.msg 49 8 → t.lines[n] = l) ∧
        (bits m 49 8 = bits p.msg 49 8 → p.step = .asked ∨ p.step = .undoing →
          (bits m 46 3 = 3 → t.lines[n].tx = { x with proc := some { p with busy := true } }) ∧
          (bits m 46 3 = 5 → t.lines[n].tx = { x with
            trnState := 1, proc := some { p with offIdx := 0, decrease := false, improved := false, step := .base 2 0 } }) ∧
          (let f := BitVec.ofNat 16 (bits m 22 16);
          (bits m 46 3 ≤ 1 → 0 < bits m 38 8 → p.step = .asked → x.trnState = 1 → t.lines[n].tx = { x with
            proc := some { p with applied := bits m 38 8, step := .judging f (decide (0 ≤ (l.fr.rxFc - f).toInt)) 3 0 } })) ∧
          (bits m 46 3 = 2 → p.step = .asked → x.trnState = 1 → p.decrease = false → t.lines[n].tx = { x with
            proc := some { p with decrease := true, step := .base 2 0 } }))) ∧
    (∃ t, exec (.requestRetransmit n) s = .next t ∧ OtherLines n s t ∧ OnlyChanges [.lines] s t ∧ ∀ p, x.proc = some p →
      t.lines[n] = if trnRuns s = true ∧ l.rx.st = .up ∧ (p.step = .asked ∨ p.step = .undoing)
        then { l with tx := { x with proc := some { p with busy := false } }, fr := { l.fr with out := l.fr.out ++ [p.msg] } } else l) ∧
    (let run := runs ∧ l.rx.st = .up ∧ x.proc ≠ none;
      (¬run → exec (.trainingSilent n) s = .next s) ∧
      (run → ∃ t, exec (.trainingSilent n) s = .next t ∧ OtherLines n s t ∧ Latched (lineSrc n 0x11) s t ∧
        t.lines[n].tx = { x with trnState := 4, proc := none, accepted := none, live := l.act.txSet })) ∧
    (let quiet := runs ∧ l.rx.st = .up ∧ x.trnState = 4;
      (¬quiet → exec (.trainingProbe n) s = .next s) ∧
      (quiet → ∃ t, exec (.trainingProbe n) s = .next t ∧ OtherLines n s t ∧ OnlyChanges [.lines] s t ∧
        t.lines[n].tx = { x with retryCnt := satU 8 (x.retryCnt + 1), trnSeq := x.trnSeq + 1 } ∧
        ∃ a ∈ t.lines[n].fr.out.getLast?.toList, t.lines[n].fr = { l.fr with out := l.fr.out ++ [a] } ∧ bits a 60 4 = 1 ∧
          bits a 57 3 = farLane s n ∧ bits a 49 8 = (x.trnSeq + 1).toNat ∧ bits a 46 3 = 3))

/-! ### Integrity and self-test -/

/-- A corrected single-bit error, found by a hardware scrubber or in a scrubbed block of the calibration store, increments ECC_STS.CORR
(up to its field) and every PMC counter of selector 0x8A. It raises the ECC-corrected event, of the info class, at most once per
second. -/
def Obligations.EccCorrected : Prop :=
  ∀ (i : Instr) (addr : Nat) (s : State),
    ((∃ mem, i = .hardwareScrub mem addr (some .single) ∧ scrubOn s mem addr = true) ∨
      (i = .scrubBlockDone (some .single) addr ∧ s.chk.scrub = true)) →
    ∃ t, exec i s = .next t ∧ t.chk.corr = min (s.chk.corr + 1) 0xFFFF ∧
      (∀ k : Fin 8, s.pmc.sel[k] = 0x8A → t.pmc.cnt[k] = s.pmc.cnt[k] + 1) ∧ evtClass 0x1F0 = some 0 ∧
      (∀ e, s.evt.rate.find? (fun e => e.1 == 0x1F0 && e.2.1 == 0) = some e → s.clk < e.2.2 + oneSecond → t.evt = s.evt) ∧
      ((∀ e, s.evt.rate.find? (fun e => e.1 == 0x1F0 && e.2.1 == 0) = some e → e.2.2 + oneSecond ≤ s.clk) →
        Latched 0x1F0 s t ∧ t.evt.rate.find? (fun e => e.1 == 0x1F0 && e.2.1 == 0) = some (0x1F0, 0, s.clk))

/-- The command completes OK with the signature in RESULT bytes 0 to 7. When the signature differs from the block's OTP value, the
self-test-failed event is raised and TST.BLK_STS.FAIL is set; the command is still answered OK. Then the next test that waits
begins. -/
def Obligations.BlockTestResult : Prop :=
  ∀ (sig : BitVec 64) (r : BlkTest) (c : Cmd) (s : State), s.tst.blk = some r → r.cmd = some c →
    ∃ t u, exec (.onDemandTestDone sig) s = .next t ∧ t = testNext (done c sig.toNat u) ∧
      (sig ≠ Config.blockSignature r.target r.kinds → Latched 0x1F7 s u ∧ t.tst.lastFail = true) ∧
      (sig = Config.blockSignature r.target r.kinds → t.tst.lastFail = false)

/-- Scrubs of the calibration store, uncorrectable words, and the ends of check scans, captures and eye scans (R399 to R401, R406 to
R408, R410, R412, R414): a block's scrub ends its admission and moves the pass on; a pass overdue by twice its period is reported once. -/
def Obligations.ScrubsAndScans : Prop :=
  ∀ (addr : Nat) (s : State),
    ((∀ ecc, s.chk.scrub = false → exec (.scrubBlockDone ecc addr) s = .next s) ∧
      (s.chk.scrub = true → let last := s.chk.calBlock = 31;
        ∃ t, exec (.scrubBlockDone none addr) s = .next t ∧ OnlyChanges [.chk, .arb] s t ∧
        t.arb.admitted = s.arb.admitted.erase { cls := 7, target := Tgt.code .device } ∧
        t.chk = { s.chk with
          scrub := false, calBlock := (s.chk.calBlock + 1) % 32, calPasses := if last then s.chk.calPasses + 1 else s.chk.calPasses
          late := if last then false else s.chk.late
          passAt := if last then max (s.chk.passAt + scrubPeriod s) s.clk else s.chk.passAt })) ∧
    (let due := bit (scrubCfg s) 31 = true ∧ s.chk.late = false ∧ s.chk.passAt + 2 * scrubPeriod s ≤ s.clk;
      (¬due → exec .scrubOverdue s = .next s) ∧
      (due → ∃ t, exec .scrubOverdue s = .next t ∧
        t.chk = { s.chk with overdue := min (s.chk.overdue + 1) 255, late := true } ∧ Latched 0x1F4 s t)) ∧
    (∀ mem : Nat, exec (.hardwareScrub mem addr none) s = .next s ∧
      (∀ ecc, scrubOn s mem addr = false → exec (.hardwareScrub mem addr ecc) s = .next s) ∧
      (mem ≠ 3 → scrubOn s mem addr = true → ∃ t, exec (.hardwareScrub mem addr (some .double)) s = .next t ∧
        t.chk = { s.chk with unc := min (s.chk.unc + 1) 255, lastMem := mem } ∧ (mem ≠ 6 → Latched 0x1F1 s t) ∧
        (mem ≠ 2 → t.lmem = s.lmem) ∧ (mem = 2 → OtherBytes (8 * (addr % 8192)) 8 s t))) ∧
    (∀ ecc, (∀ a b c, s.rst.sleep ≠ .asleep a b c) ∨ ecc = none ∨ ecc = some .single →
      exec (.calibrationStoreRefresh ecc addr) s = .next s) ∧
    (∀ a b c, s.rst.sleep = .asleep a b c → exec (.calibrationStoreRefresh (some .double) addr) s = .next (recordInvalid s) ∧
      exec (.calibrationStoreRefresh (some .check) addr) s = .next (recordInvalid s)) ∧
    (∀ k : Fin 4, (∀ r, s.chk.ch[k].job = none → exec (.checkScanDone k r) s = .next s) ∧
      (∀ bytes j, s.chk.ch[k].job = some j → j.space = 0 → busOk s = false → exec (.checkScanDone k (.complete bytes)) s = .next s) ∧
      (∀ dn st j, s.chk.ch[k].job = some j → j.space = 0 → ∃ u,
        exec (.checkScanDone k (.hostReadFailed dn st)) s = .next (chkNext k (answer j.cmd 0x40 true (now s) 2 u)) ∧
          u.chk.ch[k] = { s.chk.ch[k] with job := none, err := true, done := min dn j.len } ∧ Latched 0x1F6 s u) ∧
      ∀ bytes j, s.chk.ch[k].job = some j → j.space ≠ 0 ∨ busOk s = true →
        let v := chkValue j (if j.space = 1 then Memory.read s.lmem j.start j.len else fit j.len bytes);
        ∃ u, exec (.checkScanDone k (.complete bytes)) s = .next (chkNext k (done j.cmd v u)) ∧
          u.chk.ch[k] = { s.chk.ch[k] with
            job := none, err := false, res := BitVec.ofNat 64 v, done := j.len
            mismatch := bit j.flags 4 && v != j.expect.toNat } ∧
          (bit j.flags 4 = true → v ≠ j.expect.toNat → Latched 0x1F3 s u)) ∧
    (∀ samples, (s.cap = none → exec (.captureDone samples) s = .next s) ∧ ∀ r, s.cap = some r →
      ∃ u id, exec (.captureDone samples) s = .next (doneO r.cmd id u) ∧ u.cap = none ∧ u.scans = s.scans ∧
        u.arb.admitted = s.arb.admitted.erase { cls := 2, target := ((Tgt.ofCode r.target).getD .device).code }) ∧
    (∀ (lane : LaneId) (bins : List Nat),
      (s.scans.find? (fun r => r.target == laneCode lane) = none → exec (.eyeScanDone lane bins) s = .next s) ∧
      ∀ r, s.scans.find? (fun r => r.target == laneCode lane) = some r →
        ∃ u id, exec (.eyeScanDone lane bins) s = .next (doneO r.cmd id u) ∧ u.cap = s.cap ∧ u.scans = s.scans.erase r ∧
          (r.trunc = true → u.arb.admitted = s.arb.admitted) ∧
          (r.trunc = false →
            u.arb.admitted = s.arb.admitted.erase { cls := 2, target := ((Tgt.ofCode r.target).getD .device).code }))

/-! ### Completion: what each command does where it is carried out -/

/-- What the commands on slots, lanes, ports, counters and captures do: SCHED_INSTALL fills its slot at the first occurrence and answers
DEFERRED with its number, SCHED_FREE empties the slots it names, DOM_SCHEDULE and DOM_CANCEL go down tree A as messages and act on the
device itself, ENUMERATE sends a new epoch's first round down; a lane starts cold, a training procedure, a measurement, a message, a
port transaction or a capture begins, a snapshot is taken, counters are cleared (a selection cleared with its count goes back to that
of Table 13.8: the model's choice, log entry 74) or selected (R69, R197,
R251, R267, R270, R271). -/
def Obligations.SchedulingAndLaneCommands : Prop :=
  ∀ (d : Desc) (s : State) (c : Cmd) (u : State),
    (AtOnce 0x20 d noImage s c u → ∀ y i, slotFirst u (schedSlot c) = some y →
      (if c.p 29 = 1 then some (Fin.ofNat 256 (c.p 28)) else lowestFree u) = some i →
      ∃ v, exec (.schedInstall d) s = .next (answer c 0x01 true y.armed i.val v) ∧ v.cad.slots[i] = { y with valid := true } ∧
        (∀ j, j ≠ i → v.cad.slots[j] = u.cad.slots[j]) ∧ OnlyChanges [.cad] u v) ∧
    (AtOnce 0x21 d noImage s c u → (freeTargets c u).length < 256 →
      ∃ v, exec (.schedFree d) s = .next (done c (freeTargets c u).length v) ∧
        (∀ i, v.cad.slots[i] = if i ∈ freeTargets c u then Slot.empty else u.cad.slots[i]) ∧
        OnlyChanges (.cad :: .rings :: reports) u v) ∧
    (AtOnce 0x22 d noImage s c u → let x := slotOf ((fit 36 c.d.param).drop 4) 0;
      earlier x.start (after u (usSub 100)) = false →
      ∃ v, exec (.domSchedule d) s = .next (answer c 0x01 true (occTime u x 0) 0 v) ∧
        (∀ k ∈ downUp u .a, .message k (linkFrame 0x06 (fit 36 c.d.param)) ∈ v.out) ∧
        (u.cad.domTags.any (fun e => e.1 == BitVec.ofNat 32 (leAt (fit 36 c.d.param) 32 4) && e.2 != .a) = false →
          v.cad.domTags = u.cad.domTags ++ [(BitVec.ofNat 32 (leAt (fit 36 c.d.param) 32 4), .a)])) ∧
    (AtOnce 0x23 d noImage s c u → let tag := BitVec.ofNat 32 (c.le 4 4);
      ∃ v, exec (.domCancel d) s = .next (done c 0 v) ∧
        (∀ k ∈ downUp u .a, .message k (linkFrame 0x07 (bytesLE 4 tag.toNat)) ∈ v.out) ∧
        (∀ i : Fin 256, v.cad.slots[i] = let x := u.cad.slots[i];
          if x.valid = true ∧ x.dom = true ∧ x.tag = tag then Slot.empty else x) ∧
        v.cad.domTags = u.cad.domTags.filter (fun e => e.1 != tag)) ∧
    (AtOnce 0x24 d noImage s c u → ∀ t, chanterOf u = some t → downUp u t ≠ [] →
      ∃ v, exec (.enumerate d) s = .next v ∧ epochOf v t = epochOf u t + 1 ∧
        (∀ k ∈ downUp u t, .message k (linkFrame 0x03 [epochOf u t + 1, 1]) ∈ v.out) ∧
        ∃ r ∈ (getRun v t).toList, r.await = downUp u t ∧ r.round = 1 ∧ c ∈ r.cmds) ∧
    (AtOnce 0x30 d noImage s c u →
      (∀ n, c.tgt = some (.line (some n)) → ∃ v, exec (.laneAcquire d) s = .next (done c 0 v) ∧ OtherLines n u v ∧
        v.lines[n].eq.stored = none ∧ v.lines[n].rx.st =
          if u.lines[n].rx.st = .off then .off else if u.lines[n].rx.st = .dark then .dark else .gain) ∧
      (∀ n, c.tgt = some (.host (some n)) → ∃ v, exec (.laneAcquire d) s = .next (done c 0 v) ∧ OtherHosts n u v ∧
        v.hosts[n].st = if u.hosts[n].st = .off then .off else if u.hosts[n].st = .idle then .idle else .timing)) ∧
    (AtOnce 0x31 d noImage s c u → ∀ n, tgtLine c = some n → modeOf u ≠ 4 → u.lines[n].act.trnReq = true →
      u.lines[n].rx.inTest = false → domOn u (txDomain n) = true → arbHolder u 8 (.line (some n)) = none →
      (∀ k, slotClaim u 8 false (.line (some n)) = some k → exec (.trainStart d) s = .next (refuse c 0x21 (arbRefuse 8 k u))) ∧
      (slotClaim u 8 false (.line (some n)) = none → ∃ v, exec (.trainStart d) s = .next v ∧ OtherLines n u v ∧
        (u.lines[n].rx.st ≠ .up → v.lines[n].tx = { u.lines[n].tx with trainCmds := u.lines[n].tx.trainCmds ++ [c] }) ∧
        (u.lines[n].rx.st = .up → v.lines[n].tx.trnState = 1 ∧ v.lines[n].tx.trainCmds = [] ∧
          ∃ p ∈ v.lines[n].tx.proc.toList, p.step = .base 2 0 ∧ p.offIdx = 0))) ∧
    (AtOnce 0x32 d noImage s c u → ∀ p, tgtPort c = some p → u.ports[p].meas = none →
      ∃ v, exec (.latMeasure d) s = .next v ∧ OtherPorts p u v ∧
        v.ports[p] = { u.ports[p] with meas := some { cmd := c, n := c.le 0 2, hold := onFreeBeat u } } ∧
        ∀ n ∈ linesOfPort (modeOf u) p, v.lines[n].fr.echoes = [] ∧ v.lines[n].fr.departs = []) ∧
    (AtOnce 0x33 d noImage s c u → ∀ n, tgtLine c = some n → ∃ v, exec (.hostMsg d) s = .next v ∧ OtherLines n u v ∧
      (∀ x, u.lines[n].fr.send = some x → v.lines[n].fr = { u.lines[n].fr with waiting := u.lines[n].fr.waiting ++ [(c, msgData c)] }) ∧
      (u.lines[n].fr.send = none → u.lines[n].fr.waiting = [] →
        v.lines[n].fr.send = some { cmd := c, msg := u.lines[n].fr.nextMsg, data := msgData c, next := 0, tries := 1 })) ∧
    (AtOnce 0x34 d noImage s c u → ∃ v, exec (.ocpXfer d) s = .next v ∧ OnlyChanges [.ocp, .out] u v ∧
      ∃ x ∈ v.ocp.getLast?.toList, x.what = .xfer c ∧ x.cs = c.p 0 ∧ x.rd = c.p 2) ∧
    (AtOnce 0x50 d noImage s c u → freezeSoon u = false →
      ∃ v, exec (.freeze d) s = .next (done c (u.tlm.serial + 1).toNat v) ∧ v.tlm.serial = u.tlm.serial + 1 ∧
        v.tlm.snapTime = now u ∧ v.tlm.snapClk = some u.clk) ∧
    (AtOnce 0x51 d noImage s c u →
      let still (x : Ctr) : Bool := match x.tick with | some t => t.clk != u.clk | none => true;
      let hit (k : Fin 8) : Bool := c.p 1 / 2 ^ k.val % 2 == 1;
      let wiped (z x y : Ctr) : Prop := still x = true → y.fix = (if c.p 0 % 2 = 1 then 0 else x.fix) ∧
        ∀ k : Fin 8, y.cnt[k] = (if hit k then 0 else x.cnt[k]) ∧ y.sel[k] = (if hit k then z.sel[k] else x.sel[k]);
      (∀ n : Fin 8, c.tgt = some (.line (some n)) → ∃ v, exec (.counterClear d) s = .next (done c 0 v) ∧ OnlyChanges [.counters] u v ∧
        wiped Ctr.line u.lineCtr[n] v.lineCtr[n] ∧ (∀ m : Fin 8, m ≠ n → v.lineCtr[m] = u.lineCtr[m]) ∧
        v.hostCtr = u.hostCtr ∧ v.portCtr = u.portCtr ∧ v.pmc = u.pmc) ∧
      (∀ n : Fin 16, c.tgt = some (.host (some n)) → ∃ v, exec (.counterClear d) s = .next (done c 0 v) ∧ OnlyChanges [.counters] u v ∧
        wiped Ctr.host u.hostCtr[n] v.hostCtr[n] ∧ (∀ m : Fin 16, m ≠ n → v.hostCtr[m] = u.hostCtr[m]) ∧
        v.lineCtr = u.lineCtr ∧ v.portCtr = u.portCtr ∧ v.pmc = u.pmc) ∧
      (∀ n : Fin 8, c.tgt = some (.port (some n)) → ∃ v, exec (.counterClear d) s = .next (done c 0 v) ∧
        OnlyChanges [.counters, .ports] u v ∧ wiped Ctr.port u.portCtr[n] v.portCtr[n] ∧ OtherPorts n u v ∧
        (∀ m : Fin 8, m ≠ n → v.portCtr[m] = u.portCtr[m]) ∧ v.lineCtr = u.lineCtr ∧ v.hostCtr = u.hostCtr ∧ v.pmc = u.pmc ∧
        v.ports[n] = { u.ports[n] with hist := v.ports[n].hist } ∧ (c.p 0 / 2 ≠ 1 → v.ports[n].hist = u.ports[n].hist) ∧
        (c.p 0 / 2 = 1 → still u.portCtr[n] = true → ∀ e ∈ v.ports[n].hist, e = (0, false))) ∧
      (c.tgt = some .device → ∃ v, exec (.counterClear d) s = .next (done c 0 v) ∧ OnlyChanges [.counters, .ports] u v ∧
        wiped Ctr.pmc u.pmc v.pmc ∧ (∀ n : Fin 16, wiped Ctr.host u.hostCtr[n] v.hostCtr[n]) ∧
        ∀ n : Fin 8, wiped Ctr.line u.lineCtr[n] v.lineCtr[n] ∧ wiped Ctr.port u.portCtr[n] v.portCtr[n])) ∧
    (AtOnce 0x52 d noImage s c u →
      let still (x : Ctr) : Bool := match x.tick with | some t => t.clk != u.clk | none => true;
      let hit (k : Fin 8) : Bool := c.p 0 / 2 ^ k.val % 2 == 1;
      let picked (x y : Ctr) : Prop := still x = true → y.fix = x.fix ∧
        ∀ k : Fin 8, y.cnt[k] = (if hit k && c.p 2 != 1 then 0 else x.cnt[k]) ∧ y.sel[k] = (if hit k then c.p 1 else x.sel[k]);
      (∀ n : Fin 8, c.tgt = some (.line (some n)) → ∃ v, exec (.counterSelect d) s = .next (done c 0 v) ∧
        picked u.lineCtr[n] v.lineCtr[n] ∧ (∀ m : Fin 8, m ≠ n → v.lineCtr[m] = u.lineCtr[m]) ∧ v.hostCtr = u.hostCtr ∧
        v.portCtr = u.portCtr ∧ v.pmc = u.pmc ∧ OnlyChanges [.counters] u v) ∧
      (∀ n : Fin 16, c.tgt = some (.host (some n)) → ∃ v, exec (.counterSelect d) s = .next (done c 0 v) ∧
        picked u.hostCtr[n] v.hostCtr[n] ∧ (∀ m : Fin 16, m ≠ n → v.hostCtr[m] = u.hostCtr[m]) ∧ v.lineCtr = u.lineCtr ∧
        v.portCtr = u.portCtr ∧ v.pmc = u.pmc ∧ OnlyChanges [.counters] u v) ∧
      (∀ n : Fin 8, c.tgt = some (.port (some n)) → ∃ v, exec (.counterSelect d) s = .next (done c 0 v) ∧
        picked u.portCtr[n] v.portCtr[n] ∧ (∀ m : Fin 8, m ≠ n → v.portCtr[m] = u.portCtr[m]) ∧ v.lineCtr = u.lineCtr ∧
        v.hostCtr = u.hostCtr ∧ v.pmc = u.pmc ∧ OnlyChanges [.counters] u v) ∧
      (c.tgt = some .device → ∃ v, exec (.counterSelect d) s = .next (done c 0 v) ∧ picked u.pmc v.pmc ∧
        v.lineCtr = u.lineCtr ∧ v.hostCtr = u.hostCtr ∧ v.portCtr = u.portCtr ∧ OnlyChanges [.counters] u v)) ∧
    (AtOnce 0x53 d noImage s c u → let t := (Tgt.ofCode c.d.target).getD .device;
      ∀ x, capLane t = some x → domOn u x.1 = true → domOn u 10 = true → arbHolder u 2 t = none →
      (∀ k, slotClaim u 2 false t = some k →
        (if byteAt c.d.param 0 = 2 then (spareSlice (getConv u x.2)).isSome = true else u.cap = none) →
        exec (.capture d) s = .next (refuse c 0x21 (arbRefuse 2 k u))) ∧ (slotClaim u 2 false t = none →
      (byteAt c.d.param 0 ≠ 2 → u.cap = none → ∃ v, exec (.capture d) s = .next v ∧ v.scans = u.scans ∧
        ∃ r ∈ v.cap.toList, r.cmd = some c ∧ r.target = c.d.target ∧ r.len = leAt c.d.param 4 4) ∧
      (byteAt c.d.param 0 = 2 → (spareSlice (getConv u x.2)).isSome = true → ∃ v, exec (.capture d) s = .next v ∧ v.cap = u.cap ∧
        v.scans.dropLast = u.scans ∧ ∃ r ∈ v.scans.getLast?.toList, r.cmd = some c ∧ r.target = c.d.target ∧
          r.dwell = byteAt c.d.param 1)))

/-- What the commands on monitors, thermal policy, calibration, power, resets, checks, tests, patches and keys do (R35, R81, R320,
R352, R362, R397, R402, R449 to R460): each completes with its own registers, requests or tests as given. -/
def Obligations.ServiceCommands : Prop :=
  ∀ (d : Desc) (s : State) (c : Cmd) (u : State),
    (AtOnce 0x70 d noImage s c u → ∀ k : Fin 2, c.tgt = some (.mon (some k)) →
      ∃ v, exec (.monConfig d) s = .next (done c 0 v) ∧ OtherMons k u v ∧
        (c.p 1 / 32 % 2 = 1 → v.mon[k] = { u.mon[k] with staged := some (monCfgOf c) }) ∧
        (c.p 1 / 32 % 2 = 0 → v.mon[k].cfg = monCfgOf c ∧ v.mon[k].staged = none ∧ v.mon[k].anchor = now u)) ∧
    (AtOnce 0x71 d noImage s c u → ∀ k, c.tgt = some (.mon k) → ∃ v, exec (.monSync d) s = .next (done c 0 v) ∧
      ∀ j : Fin 2, (j ∈ monInsts k → v.mon[j].cfg = u.mon[j].staged.getD u.mon[j].cfg ∧ v.mon[j].staged = none ∧
        v.mon[j].anchor = now u) ∧ (j ∉ monInsts k → v.mon[j] = u.mon[j])) ∧
    (AtOnce 0x72 d noImage s c u → ∃ v, exec (.monThreshold d) s = .next (done c 0 v) ∧ OnlyChanges [.thr, .comp] u v ∧
      (c.p 0 = 0 → v.comp = u.comp ∧ let t := v.thr[Fin.ofNat 64 (c.p 1)];
        (∀ j : Fin 64, j ≠ Fin.ofNat 64 (c.p 1) → v.thr[j] = u.thr[j]) ∧ t.hiEn = (c.p 2 % 2 == 1) ∧ t.loEn = (c.p 2 / 2 == 1) ∧
        t.hi = BitVec.ofNat 24 (c.le 4 3) ∧ t.lo = BitVec.ofNat 24 (c.le 8 3) ∧ t.hyst = BitVec.ofNat 24 (c.le 12 3)) ∧
      (c.p 0 ≠ 0 → v.thr = u.thr ∧ let x := v.comp[Fin.ofNat 32 (c.p 1)];
        (∀ j : Fin 32, j ≠ Fin.ofNat 32 (c.p 1) → v.comp[j] = u.comp[j]) ∧ x.en = (c.p 2 % 2 == 1) ∧ x.dir = (c.p 2 / 2 % 2 == 1) ∧
        x.thr = c.le 4 2 ∧ x.hys = c.p 6)) ∧
    (AtOnce 0x78 d noImage s c u → ∃ v, exec (.thermConfig d) s = .next (done c 0 v) ∧ OnlyChanges [.therm] u v ∧
      (c.p 0 = 0 → v.therm = { u.therm with pend := some { round := c.p 1, grace := c.le 2 2, rateLim := c.p 4, muteHold := c.p 5
                                                           shedDwell := c.p 6, liftGap := c.p 7 } }) ∧
      (c.p 0 = 1 → ∀ i : Fin 14, v.therm.sens[i] = if c.p 1 = 0xFF ∨ c.p 1 = i.val
        then { u.therm.sens[i] with pend := some (ofField 8 (c.p 2), ofField 8 (c.p 3), ofField 8 (c.p 4)) } else u.therm.sens[i]) ∧
      (c.p 0 = 2 → v.therm = if c.p 1 = 0 then { u.therm with pend0 := some (c.le 2 2) }
        else { u.therm with pend1 := some (c.le 2 2) })) ∧
    (AtOnce 0x79 d noImage s c u → exec (.shedOrder d) s =
      .next (done c 0 { u with therm := { u.therm with
        order := orderCodes c, exhausted := false, shedWait := u.therm.shedWait.filter fun w => (orderCodes c).contains w } })) ∧
    (AtOnce 0x80 d noImage s c u → exec (.calConfig d) s =
      .next (done c 0 { u with cal := { u.cal with pendCfg := some (c.p 0, c.p 1 == 1) } })) ∧
    (AtOnce 0x81 d noImage s c u → ∀ t, requestTgt c = some t → (u.cal.frozen = false ∨ t = .reed) → calSpare u t = true →
      exec (.calRequest d) s = .next { u with cal := { u.cal with requests := u.cal.requests ++ [(calIdx t, c)] } }) ∧
    (AtOnce 0x40 d noImage s c u → u.rst.cur = none → u.rst.queue = [] → let k := Fin.ofNat 50 (c.p 0); let on := c.p 1 == 1;
      (domOn u k.val = on → ∃ v, exec (.power d) s = .next v ∧ v.rst.cur = none ∧ v.rst.queue = [] ∧ v.rst.on = u.rst.on ∧
        v.rings.outcomes.head? = some { ring := d.ring, seq := d.seq, status := 0, final := true, result := 0 }) ∧
      (domOn u k.val = false → on = true → domBreaks (domOn u) k.val true = false → ∃ v, exec (.power d) s = .next v ∧
        v.rst.cur = some { dom := k, on := true, cmd := some c } ∧ v.rst.on = u.rst.on) ∧
      (domOn u k.val = true → on = false → domBreaks (domOn u) k.val false = false → domSwapping u k.val = false →
        ∃ v, exec (.power d) s = .next v ∧ v.rst.cur = some { dom := k, on := false, cmd := some c } ∧ domOn v k.val = false)) ∧
    (AtOnce 0x41 d noImage s c u → u.rst.episodes = [] → u.rst.exits = [] → (∀ x, (getConv u x).run = none) →
      (∀ n, c.p 0 = 0 → c.tgt = some (.line (some n)) → ∃ v, exec (.reset d) s = .next v ∧ v.lines[n].rx.st = .off ∧
        v.lines[n].tx.st = .off ∧ v.lines[n].tx.txDis = true) ∧
      (∀ n, c.p 0 = 0 → c.tgt = some (.host (some n)) → ∃ v, exec (.reset d) s = .next v ∧ v.hosts[n].st = .off) ∧
      (c.p 0 = 1 → c.p 1 = 0 → ∃ v, exec (.reset d) s = .next v ∧ bit v.rst.cause 4 = true ∧ v.rst.level = 1 ∧
        (∀ n : Fin 8, v.lines[n].rx.st = .off ∧ v.lines[n].tx.st = .off) ∧ ∀ n : Fin 16, v.hosts[n].st = .off) ∧
      (c.p 0 = 1 → 2 ≤ c.p 1 → ∃ v, exec (.reset d) s = .next v ∧ bit v.rst.cause 4 = true ∧ v.rst.level = 1 ∧ v.rst.mgmtRun = false) ∧
      (c.p 0 = 1 ∧ c.p 1 = 1 ∨ 2 ≤ c.p 0 → bit c.d.flags 3 = false → u.rst.afterRecord = [] →
        (u.rings.wait.filter (·.final)).length < 1024 → ∃ v, exec (.reset d) s = .next v ∧
        v.rst.afterRecord = [(c.d.ring, c.d.seq, if c.p 0 = 1 then .planeControl else .hostWarm)])) ∧
    (AtOnce 0x90 d noImage s c u → let j : ChkJob := { chkJobOf c with ord := u.chk.seq };
      j.space ≠ 2 ∨ domOn u 10 = true → j.chan < 4 → let k := Fin.ofNat 4 j.chan;
      (u.chk.ch[k].job = none → ∃ v, exec (.checkRun d) s = .next v ∧ OnlyChanges [.chk] u v ∧
        v.chk = { u.chk with
          seq := u.chk.seq + 1, ch := upd u.chk.ch k fun x => { x with job := some { j with began := u.clk }, done := 0 } }) ∧
      (u.chk.ch[k].job ≠ none → u.chk.ch[k].wait.length < 4 → ∃ v, exec (.checkRun d) s = .next v ∧ OnlyChanges [.chk] u v ∧
        v.chk = { u.chk with seq := u.chk.seq + 1, ch := upd u.chk.ch k fun x => { x with wait := x.wait ++ [j] } }) ∧
      (u.chk.ch[k].job ≠ none → 4 ≤ u.chk.ch[k].wait.length → ∃ v, exec (.checkRun d) s = .next (answer c 0x40 true (now u) 1 v) ∧
        v = { u with chk := { u.chk with seq := u.chk.seq + 1 } })) ∧
    (AtOnce 0x91 d noImage s c u → ∀ t, testTgt u c.d.target = some t → testOff u t = false → underTest u t = false →
      arbHolder u 3 t = none →
      (∀ k, slotClaim u 3 false (c.tgt.getD .device) = some k → exec (.selftest d) s = .next (refuse c 0x21 (arbRefuse 3 k u))) ∧
      (slotClaim u 3 false (c.tgt.getD .device) = none →
      (u.tst.blk = none → ∃ v, exec (.selftest d) s = .next v ∧ underTest v t = true ∧
        ∃ r ∈ v.tst.blk.toList, r.target = c.d.target ∧ r.kinds = byteAt c.d.param 0 ∧ r.cmd = some c) ∧
      (u.tst.blk ≠ none → ∃ v, exec (.selftest d) s = .next v ∧ v.tst.blk = u.tst.blk ∧ v.tst.waitTests.dropLast = u.tst.waitTests ∧
        v.tst.waitTests.getLast?.map (fun x => (x.target, x.kinds, x.cmd)) = some (d.target, byteAt d.param 0, some c)))) ∧
    (∀ img : ImageCheck, AtOnce 0xA0 d img s c u → c.p 4 = 0 → img.vendorOk = true → u.tst.owner = none ∨ img.ownerOk = true →
      exec (.patchStage d img) s =
        .next (done c 0 { u with tst := { u.tst with staged := some { digest := fit 32 img.digest, len := c.le 0 4 } } })) ∧
    (AtOnce 0xA1 d noImage s c u → u.tst.staged ≠ none → arbHolder u 6 .device = none → bit c.d.flags 3 = false →
      u.rst.afterRecord = [] → (u.rings.wait.filter (·.final)).length < 1024 →
      (∀ k, slotClaim u 6 false (c.tgt.getD .device) = some k → exec (.patchActivate d) s = .next (refuse c 0x21 (arbRefuse 6 k u))) ∧
      (slotClaim u 6 false (c.tgt.getD .device) = none → ∃ v, exec (.patchActivate d) s = .next v ∧
        v.rst.afterRecord = [(c.d.ring, c.d.seq, .fwReq)] ∧
        v.arb.admitted = u.arb.admitted ++ [{ cls := 6, target := Tgt.code .device }])) ∧
    (AtOnce 0xA2 d noImage s c u → domOn u 10 = true → u.tst.idKeyOk = true ∨ u.tst.scanFlag = true →
      ∃ v, exec (.attest d) s = .next v ∧ Latched 0x1FD u v ∧ ∃ o ∈ v.rings.outcomes.head?.toList,
        o.ring = d.ring ∧ o.seq = d.seq ∧ o.status = 0 ∧ o.final = true) ∧
    (∀ sigOk : Bool, AtOnce 0xA3 d { noImage with ownerOk := sigOk } s c u → u.tst.otpSlots.length < 4 → u.tst.scanFlag = false →
      u.tst.owner = none ∨ sigOk = true → ∃ v, exec (.ownerKey d sigOk) s = .next (done c 0 v) ∧ Latched 0x1FB u v ∧
        v.tst = { u.tst with otpSlots := u.tst.otpSlots ++ [fit 32 c.d.param]
                             owner := ownerOf (u.tst.otpSlots ++ [fit 32 c.d.param]) })

/-- Pins, supplies and the start of a reset and of an exit (R424 to R430, R436 to R441): what each event on a pin or a supply does where
no other reset holds, and the first steps of the exit. -/
def Obligations.PinsAndSupplies : Prop :=
  ∀ (s : State), let calm := s.rst.episodes = [] ∧ s.rst.exits = [] ∧ s.rst.sleep = .awake ∧ (∀ x, (getConv s x).run = none);
    (∀ ns, 2000 ≤ ns → s.rst.resetLow = false →
      (calm → bit (reg s 0x1020) 31 = false → ∃ t, exec (.resetNAssert ns) s = .next t ∧ t.rst.resetLow = true ∧ t.rst.level = 3 ∧
        bit t.rst.cause 1 = true ∧ t.rst.ctrlReset = true ∧ t.rst.mgmtRun = false ∧ ∀ n : Fin 8, t.lines[n].rx.st = .off) ∧
      (calm → bit (reg s 0x1020) 31 = true → ∃ t, exec (.resetNAssert ns) s = .next t ∧ t.rst.resetLow = true ∧
        t.rst.sleep = .asleep true false false ∧ t.rst.sleepSince = s.clk ∧ t.saved.isSome = true) ∧
      (∀ a b l, s.rst.sleep = .asleep a b l → ∃ t, exec (.resetNAssert ns) s = .next t ∧
        t = { s with rst := { s.rst with resetLow := true, sleep := .asleep a true l } })) ∧
    (∀ r f, s.rst.resetLow = true → s.rst.exits = [] → s.late = [] → s.rst.sleep = .awake → s.rst.episodes = [⟨[.resetPin], r, f⟩] →
      3 ≤ r.level →
      ∃ t, exec .resetNRelease s = .next t ∧ t.rst.resetLow = false ∧ t.rst.episodes = [] ∧
        t.rst.exits = [⟨.trim 0, true, r.level == 4, false, r⟩]) ∧
    (∀ a b l, s.rst.sleep = .asleep a b l → a = true ∨ b = true →
      exec .resetNLongHold s = .next { s with rst := { s.rst with sleep := .asleep a b true } }) ∧
    (∀ a b l, s.rst.sleep = .asleep a b l → bits (reg s 0x1020) 0 16 ≠ 0 → ∃ t, exec .wakeTimer s = .next t ∧ t.rst.sleep = .awake ∧
      t.rst.woke = true ∧ t.rst.wakeCause = 1 ∧
      (s.rst.resetLow = false → s.rst.vioLow = false → t.rst.exits.map (fun x => (x.step, x.wake)) = [(.trim 0, true)])) ∧
    (∀ ns, 2000 ≤ ns → localMode s = false → s.rst.perstLow = false → calm → ∃ t, exec (.perstNAssert ns) s = .next t ∧
      t.rst.perstLow = true ∧ t.rst.level = 1 ∧ bit t.rst.cause 2 = true ∧ t.rst.ctrlReset = true ∧ t.pcie.link = false) ∧
    (∀ f, s.rst.perstLow = true → s.rst.vioLow = false → s.late = [] → s.rst.episodes = [⟨[.perst], srcReach .perst, f⟩] →
      ∃ t, exec .perstNRelease s = .next t ∧ t.rst.perstLow = false ∧ t.rst.episodes = [] ∧
        t.rst.ctrlReset = false) ∧
    ((∀ e ∈ s.rst.episodes, .por ∉ e.sources ∧ e.reach.level < 4) →
      s.rst.sleep = .awake ∨ s.rst.resetLow = false ∧ s.rst.vioLow = false ∧ s.rst.perstLow = false → ∃ t, exec .por s = .next t ∧
        t.rst.level = 4 ∧ t.rst.cause = 1 ∧ t.rst.count = 0 ∧
      t.setup = [] ∧ t.lmem = [] ∧ t.evt.log = [] ∧ ∀ n : Fin 8, t.lines[n].rx.st = .off) ∧
    (∀ r f, s.rst.exits = [] → s.late = [] → s.rst.episodes = [⟨[.por], r, f⟩] → r.level = 4 → ∃ t, exec .porRelease s = .next t ∧
      t.rst.episodes = [] ∧ t.rst.exits = [⟨.trim 0, true, true, false, r⟩]) ∧
    (calm → ∃ t, exec .brownOut s = .next t ∧ t.rst.level = 3 ∧ bit t.rst.cause 10 = true ∧ t.rst.ctrlReset = true ∧
      ∀ n : Fin 8, t.lines[n].rx.st = .off) ∧
    (∀ r f, s.rst.exits = [] → s.late = [] → s.rst.episodes = [⟨[.brownOut], r, f⟩] → r.level = 3 → ∃ t, exec .brownOutRelease s = .next t ∧
      t.rst.episodes = [] ∧ t.rst.exits = [⟨.trim 0, true, false, false, r⟩]) ∧
    (∀ v, s.evt.rate.find? (fun e => e.1 == 0x012 && e.2.1 == 0) = none → ∃ t, exec (.vinLow v) s = .next t ∧ Latched 0x012 s t ∧
      OnlyChanges reports s t) ∧
    (s.rst.vioLow = false → calm → ∃ t, exec .vioLoss s = .next t ∧ t.rst.vioLow = true ∧ t.rst.level = 3 ∧
      bit t.rst.cause 1 = true ∧ t.rst.ctrlReset = true) ∧
    (∀ r f, s.rst.exits = [] → s.rst.vioLow = true → s.rst.perstLow = false → s.late = [] → s.rst.sleep = .awake →
      s.rst.episodes = [⟨[.vio, .perst], r, f⟩] → r.level = 3 → ∃ t, exec .vioReturn s = .next t ∧ t.rst.vioLow = false ∧
        t.rst.episodes = [] ∧ t.rst.exits = [⟨.trim 0, true, false, false, r⟩]) ∧
    (∀ src r f, isTimed src = true → s.late = [] → s.rst.episodes = [⟨[src], r, f⟩] → ∃ t, exec (.resetSourceRelease src) s = .next t ∧
      t.rst.episodes = []) ∧
    (∀ ok pins, coldHeld s = true ∨ coldLate s = true → exec (.trimLoadAttempt ok pins) s = .next s) ∧
    (coldHeld s = false → coldLate s = false → ∀ ok pins e, coldExit s = some e → ∀ n, e.step = .trim n →
      ∃ t, exec (.trimLoadAttempt ok pins) s = .next t ∧
      (ok = false ∧ n < 2 → coldExit t = some { e with step := .trim (n + 1) }) ∧
      (ok = true ∨ 2 ≤ n → coldExit t = some { e with step := .pll } ∧ t.rst.trimValid = ok ∧ t.rst.trimSafe = !ok ∧
        t.rst.trimAttempts = n + 1)) ∧
    (∀ e, coldExit s = some e → e.step = .pll → ∃ t, exec .pllLock s = .next t ∧ t.refOk = true ∧ t.pllAt = s.clk ∧
      t.rst.ctrlReset = s.rst.episodes.any (fun x => x.reach.control) ∧ coldExit t = some { e with step := .selfTest 0 } ∧
      ∀ k ∈ [8, 9, 49], domOn (seqFinish s) k = true → domOn t k = true)

/-- Self-test, boot, power transitions, firmware failures, shadow compares and the test port (R36, R40, R413, R415, R425, R430, R448, R461):
what each event does. -/
def Obligations.BootAndSupervision : Prop :=
  ∀ (s : State), let calm := s.rst.episodes = [] ∧ s.rst.exits = [] ∧ s.rst.sleep = .awake ∧ (∀ x, (getConv s x).run = none);
    (∀ sig failed first e, coldExit s = some e → ∀ g : Fin 6, e.step = .selfTest g.val →
      ∃ t, exec (.selfTestGroupDone sig failed first) s = .next t ∧ t.tst.sig[g] = sig ∧
        (sig ≠ Config.groupSignature g.val → bit t.tst.fail g.val = true)) ∧
    (∀ ok, s.rst.exits.any (fun x => x.step == .boot) = true → s.rings.held = [] → ∃ t, exec (.firmwareBootDone ok) s = .next t ∧
      t.rst.mgmtRun = true ∧ (∀ a ∈ t.arb.admitted, a.cls ≠ 6) ∧ Latched 0x010 s t) ∧
    (∀ x, s.rst.cur = some x → s.rst.queue = [] → s.rst.exits = [] → s.rst.episodes = [] → s.late = [] →
      (x.on = true → ∃ t, exec .domainTransitionDone s = .next t ∧ t.rst.cur = none ∧ domOn t x.dom.val = true) ∧
      (x.on = false → x.cmd = none → exec .domainTransitionDone s = .next { s with rst := { s.rst with cur := none } })) ∧
    (∀ x, s.rst.cur = some x → x.on = true → s.rst.queue = [] → ∃ t, exec .domainFailed s = .next t ∧ t.rst.cur = none ∧
      t.rst.failed = satU 8 (s.rst.failed + 1) ∧ t.rst.on = s.rst.on ∧ Latched 0x013 s t) ∧
    (calm → s.rst.mgmtRun = true → (s.chk.mgmtResets.filter fun t => decide (s.clk ≤ t + oneSecond)).length < 2 →
      (∃ t, exec .watchdogExpiry s = .next t ∧ t.rst.mgmtRun = false ∧ bit t.rst.cause 5 = true ∧ t.rst.level = 1 ∧
        t.chk.mgmtResets.head? = some s.clk) ∧
      ∃ t, exec .lockstepMismatch s = .next t ∧ t.rst.mgmtRun = false ∧ bit t.rst.cause 6 = true ∧ t.rst.level = 1 ∧
        t.chk.mgmtResets.head? = some s.clk) ∧
    (let t := shadowPass s; exec (.shadowCompare none) s = .next t ∧ (bit (scrubCfg s) 29 = false → t = s) ∧
      (bit (scrubCfg s) 29 = true → ∀ o, shadowReg t o = shadowReg s o ∧
        reg t o = (if domOn s (setupDomain o) = true then shadowReg s o else reg s o) ∧
        (domOn s (setupDomain o) = true → reg s o ≠ shadowReg s o → Latched 0x1F2 s t)) ∧
      ∀ (off : Nat) (flip : Word), ∃ u, exec (.shadowCompare (some (off, flip))) s = .next u ∧ u = { t with setup := u.setup } ∧
        (∀ o, o ≠ off → reg u o = reg t o) ∧
        ∀ rw rwl r, setupSpec off = some (rw, rwl, r) → reg u off = reg t off ^^^ (flip &&& (rw ||| rwl))) ∧
    (calm → ∃ t, exec .testPortReset s = .next t ∧ t.rst.level = 3 ∧ bit t.rst.cause 11 = true ∧ t.rst.ctrlReset = true ∧
      ∀ n : Fin 8, t.lines[n].rx.st = .off) ∧
    (∃ t, exec .scanEnable s = .next t ∧ t.tst = { s.tst with idKeyOk := false, owner := none, staged := none, scanFlag := true } ∧
      Latched 0x1FC s t ∧ OnlyChanges (.tst :: reports) s t) ∧
    (∀ ir, ∃ t, exec (.testPortAccess ir) s = .next t ∧ Latched 0x1FF s t ∧ OnlyChanges reports s t) ∧
    ((s.rst.episodes.any fun e => e.reach.control) = false → (s.rst.exits.any fun x => x.cold) = false → s.rst.sleep = .awake →
      exec .controlPlaneLeavesReset s = .next { s with rst := { s.rst with ctrlReset := false } })

/-- Frames, side-channel messages and codewords (R69 to R72, R179 to R206): what each event of a lane or a port does where it is due. -/
def Obligations.FramesAndCodes : Prop :=
  ∀ (s : State) (n p : Fin 8),
    (∀ p, portOfLine (modeOf s) n = some p → s.refOk = true → frameDue s n = true → ∃ t, exec (.frameStart n) s = .next t ∧
      t.lines[n].fr.txFc = frameCount s n + 1 ∧ t.lines[n].tx.sentAt = some s.clk) ∧
    (∀ hdr skew p, rxFraming s n = true → portOfLine (modeOf s) n = some p → ∃ t, exec (.frameHeaderReceived n hdr skew) s = .next t ∧
      t.lines[n].fr.skew = min 255 skew ∧ t.lines[n].fr.rxCw = 0 ∧
      (crc8 (beBytes 4 (bits hdr 104 32) ++ beBytes 2 (bits hdr 88 16)) = bits hdr 80 8 →
        t.lines[n].fr.rxId = BitVec.ofNat 32 (bits hdr 104 32) ∧ t.lines[n].fr.idValid = true) ∧
      (crc8 (beBytes 4 (bits hdr 104 32) ++ beBytes 2 (bits hdr 88 16)) ≠ bits hdr 80 8 →
        t.lines[n].fr.rxId = s.lines[n].fr.rxId ∧ t.lines[n].fr.hchkErr = satU 16 (s.lines[n].fr.hchkErr + 1)) ∧
      (crc16 (beBytes 2 (bits hdr 88 16) ++ beBytes 8 (bits hdr 16 64)) ≠ bits hdr 0 16 →
        t.lines[n].fr.scErr = satU 16 (s.lines[n].fr.scErr + 1))) ∧
    (∀ m : BitVec 64, rxFraming s n = true → bits m 60 4 = 0 → exec (.idleStatus n m) s = .next
      (modFr n (fun f => { f with farState := bits m 56 4, farMargin := BitVec.ofNat 16 (bits m 40 16), farMuted := bit m 39
                                  farSquelch := bit m 38, farAge := 0, farFrames := 0 }) s)) ∧
    (∀ m : BitVec 64, rxFraming s n = true → bits m 60 4 = 4 → ∀ p, portOfLine (modeOf s) n = some p →
      ∀ r, s.ports[p].meas = some r → s.lines[n].fr.echoes.length < r.n →
      ∀ e, s.lines[n].fr.departs.find? (fun e => e.1 == BitVec.ofNat 16 (bits m 44 16)) = some e →
      ∃ t, exec (.echo n m) s = .next t ∧ t.lines[n].fr.echoes.dropLast = s.lines[n].fr.echoes ∧
        t.lines[n].fr.echoes.length = s.lines[n].fr.echoes.length + 1) ∧
    (∀ m, s.lines[n].fr.out.find? (fun m => bits m 60 4 == 4) = some m →
      exec (.echoDrop n) s = .next (modFr n (fun f => { f with out := f.out.erase m }) s)) ∧
    (∀ m : BitVec 64, rxFraming s n = true → bits m 60 4 = 8 → ∃ t, exec (.hostFragment n m) s = .next t ∧
      (bit m 59 = false → t.lines[n].fr.out = s.lines[n].fr.out) ∧
      (bit m 59 = false → bits m 48 3 = 0 → t.lines[n].fr.part =
        some { msg := bits m 51 5, next := 1, data := (beBytes 6 (bits m 0 48)).take (bits m 56 3 + 1) }) ∧
      (bit m 59 = true → bits m 48 3 = 0 → t.lines[n].fr.part = none ∧ t.lines[n].fr.lastMsg =
        if msgHeld s n < 4 then some (bits m 51 5) else s.lines[n].fr.lastMsg)) ∧
    (∀ m : BitVec 64, rxFraming s n = true → bits m 60 4 = 9 → ∀ x, s.lines[n].fr.send = some x → x.msg = bits m 51 5 →
      ∃ t, exec (.hostAcknowledgement n m) s = .next t ∧ t.lines[n].fr.send =
        if bit m 48 = true ∧ x.tries < 5 then some { x with next := 0, tries := x.tries + 1 } else none) ∧
    (∀ x, s.lines[n].fr.send = some x → s.lines[n].rx.st = .up → fragCount x ≤ x.next →
      ∃ t, exec (.hostMsgRetransmit n) s = .next t ∧ t.lines[n].fr.send =
        if x.tries < 5 then some { x with next := 0, tries := x.tries + 1 } else none) ∧
    (s.lines[n].rx.st ≠ .up → ∃ t, exec (.hostMsgAbandon n) s = .next t ∧ t.lines[n].fr.send = none ∧
      t.lines[n].fr.waiting = []) ∧
    (∀ rest : List SoftSym, s.lines[n].rx.st = .frame ∨ s.lines[n].rx.st = .up ∨ s.lines[n].rx.st = .relock →
      let word := cwTaken s n rest; let soft := (softLlrs word).map (llrDeliver (bits s.lines[n].act.eqCtl 18 2));
      ∃ t, exec (.innerCodeword n rest) s = .next t ∧ t.lines[n].fr.rxCw = s.lines[n].fr.rxCw + 1 ∧
        t.lines[n].fr.soft = softLeft (cwWidth s n) (cwLen (lineCode s n) rest) s.lines[n].fr.soft ∧
        (lineCode s n = 2 → t.lines[n].fr.innerUnc = s.lines[n].fr.innerUnc ∧
          Out.inner n (bitsVec 128 (word.flatMap fun x => symBits x.sym)) ∈ t.out.drop s.out.length) ∧
        (lineCode s n = 3 → let r := Config.ieeeDecode soft;
          t.lines[n].fr.innerUnc = (if r.1 then s.lines[n].fr.innerUnc else s.lines[n].fr.innerUnc + 1) ∧
          Out.inner n (bitsVec 128 r.2.2) ∈ t.out.drop s.out.length) ∧
        (lineCode s n < 2 → (∀ c, chase (lineCode s n == 1) soft = some c →
            t.lines[n].fr.innerUnc = s.lines[n].fr.innerUnc ∧ Out.inner n (bitsVec 128 c) ∈ t.out.drop s.out.length) ∧
          (chase (lineCode s n == 1) soft = none → t.lines[n].fr.innerUnc = s.lines[n].fr.innerUnc + 1 ∧
            Out.inner n (bitsVec 128 (hardBits soft)) ∈ t.out.drop s.out.length))) ∧
    (s.lines[n].fr.innerInt ≠ 0 → ∃ t, exec (.innerUncorrectable n) s = .next t ∧ t.lines[n].fr.innerInt = 0 ∧ OtherLines n s t) ∧
    (∀ r, s.ports[p].meas = some r → ∃ t, exec (.latMeasureDone p) s = .next t ∧ t.ports[p].meas = none ∧ OtherPorts p s t ∧
      (∀ n, linesOfPort (modeOf s) p = [n] → s.lines[n].fr.echoes ≠ [] →
        t.ports[p].owlMean = roundDiv (intSum s.lines[n].fr.echoes) s.lines[n].fr.echoes.length ∧
        t.ports[p].owlCount = s.lines[n].fr.echoes.length ∧ t.ports[p].owlForeign = s.lines[n].fr.echoForeign ∧
        t.ports[p].owlHold = (onFreeBeat s || r.hold || s.lines[n].fr.echoHold))) ∧
    (∀ (g : Fin 2) (cw : List (BitVec 10)) (fix : Option (List (Fin 544 × BitVec 10))), portEnabled s p = true → g.val < groupsOf s →
      amLock s.ports[p] g = true →
      portSquelched s p = false →
      ∃ t, exec (.outerCodeword p g cw fix) s = .next t ∧ (∀ l, fix = some l → bit s.ports[p].act.cfg 6 = true → l.length ≤ 15 →
        Out.outer p g (outerFix cw l) ∈ t.out.drop s.out.length) ∧ (fix = none → Out.outer p g cw ∈ t.out.drop s.out.length) ∧
          t.ports[p].hist = binAdd s.ports[p].hist (outerBin fix)) ∧
    (s.ports[p].uncInt ≠ 0 → portEnabled s p = true → ∃ t, exec (.outerUncorrectable p) s = .next t ∧ t.ports[p].uncInt = 0 ∧
      OtherPorts p s t) ∧
    (portEnabled s p = true → s.ports[p].amLock0 = true → s.ports[p].amLock1 = true → ∃ t, exec (.serWindowEnd p) s = .next t ∧
      t.ports[p].winBins0 = List.replicate 17 0 ∧ t.ports[p].winBins1 = List.replicate 17 0 ∧
      t.ports[p].ser = (rateOf ((List.range 17).foldl (fun a k => a + k * (s.ports[p].winBins0.getD k 0 + s.ports[p].winBins1.getD k 0)) 0)
        (544 * 2 ^ bits s.ports[p].act.fec 8 5)).toNat) ∧
    (∀ g : Fin 2, portEnabled s p = true → g.val < groupsOf s → amLock s.ports[p] g = false →
      ∃ t, exec (.alignmentMarkerLock p g) s = .next t ∧ amLock t.ports[p] g = true ∧ OtherPorts p s t ∧ OnlyChanges [.ports] s t) ∧
    (s.ports[p].sqBuffers = true → ∃ t, exec (.latencyBufferResetDone p) s = .next t ∧ t.ports[p].sqBuffers = false ∧ OtherPorts p s t)

/-- Host lanes (R209, R210, R213 to R216, R219 to R221, R229, R231): what each event of a lane does where it is due. -/
def Obligations.HostAcquisition : Prop :=
  ∀ (s : State) (n : Fin 16),
    (s.hosts[n].st ≠ .off → s.hosts[n].st ≠ .idle → ∃ t, exec (.hostSignalLoss n) s = .next t ∧ t.hosts[n].st = .idle ∧
      t.hosts[n].sigDet = false ∧ t.hosts[n].idleSince = s.clk ∧ OtherHosts n s t ∧ Latched (hostSrc n 0) s t ∧
      (s.hosts[n].st = .up → t.hosts[n].heldCoefs =
        some { peak := s.hosts[n].peak, dcg := s.hosts[n].dcg, coefs := s.hosts[n].coefs, freq := s.hosts[n].freq }) ∧
      (s.hosts[n].st ≠ .up → t.hosts[n].heldCoefs = s.hosts[n].heldCoefs)) ∧
    (s.hosts[n].st = .idle → s.refOk = true → ∃ t, exec (.hostSignal n) s = .next t ∧ t.hosts[n].sigDet = true ∧ OtherHosts n s t ∧
      (∀ k, s.hosts[n].heldCoefs = some k → s.clk ≤ s.hosts[n].idleSince + usTicks 100000 → t.hosts[n].st = .resume ∧
        t.hosts[n].coefs.ffe = k.coefs.ffe ∧ t.hosts[n].freq = k.freq ∧ t.hosts[n].resumeCnt = satU 8 (s.hosts[n].resumeCnt + 1)) ∧
      (s.hosts[n].heldCoefs = none ∨ s.hosts[n].idleSince + usTicks 100000 < s.clk → t.hosts[n].st = .timing ∧
        t.hosts[n].acqStart = s.clk ∧ t.hosts[n].coldCnt = satU 8 (s.hosts[n].coldCnt + 1) ∧
        t.hosts[n].auto = bit s.hosts[n].act.rxCfg 15)) ∧
    (s.hosts[n].st = .timing → ∃ t, exec (.hostTimingDone n) s = .next t ∧ t.hosts[n].st = .ctle ∧ t.hosts[n].lock = true ∧
      OtherHosts n s t ∧ OnlyChanges [.hosts] s t ∧ t.hosts[n].search.todo =
        if s.hosts[n].auto = true then (List.range 11).map (4 * ·) else [bits s.hosts[n].act.rxCfg 0 6]) ∧
    (s.hosts[n].st = .ctle → 0 < s.hosts[n].acc.n →
      let q := s.hosts[n].search; let tried := q.tried ++ [(s.hosts[n].peak, s.hosts[n].acc.sse / (s.hosts[n].acc.n : Rat))];
      ∃ t, exec (.ctleTrialDone n) s = .next t ∧ OtherHosts n s t ∧ OnlyChanges [.hosts] s t ∧
      (∀ c, (q.todo.drop 1).head? = some c → t.hosts[n].st = .ctle ∧ t.hosts[n].peak = c ∧ t.hosts[n].search.tried = tried) ∧
      (q.todo.drop 1 = [] → q.fine = true → t.hosts[n].st = .adapt ∧ t.hosts[n].peak = ctleBest tried)) ∧
    (hostDecides s n = true → 0 < s.hosts[n].acc.n → 0 < s.hosts[n].acc.sse → ∃ t, exec (.hostQualityWindowEnd n) s = .next t ∧
      let hist := (5120 / (s.hosts[n].acc.sse / (s.hosts[n].acc.n : Rat)) :: s.hosts[n].snrHist).take 4;
      OtherHosts n s t ∧ t.hosts[n].snrHist = hist ∧ t.hosts[n].acc = HostAcc.reset ∧
      (settled hist = true → (∀ v ∈ hist, 10 ^ 7 ≤ v ^ 5) → t.hosts[n].st = .up) ∧
      (settled hist = false → t.hosts[n].st = s.hosts[n].st)) ∧
    (s.hosts[n].st = .up → ∃ t, exec (.hostLockLost n) s = .next t ∧ t.hosts[n].st = .resume ∧ t.hosts[n].lock = false ∧
      t.hosts[n].resumeCnt = satU 8 (s.hosts[n].resumeCnt + 1) ∧ t.hosts[n].acqStart = s.clk ∧ OtherHosts n s t ∧
      Latched (hostSrc n 0) s t) ∧
    (s.hosts[n].st ∈ [.timing, .ctle, .adapt, .resume] → ∃ t, exec (.hostAcquisitionRetry n) s = .next t ∧
      t.hosts[n].st = .timing ∧ t.hosts[n].coldCnt = satU 8 (s.hosts[n].coldCnt + 1) ∧ t.hosts[n].auto = bit s.hosts[n].act.rxCfg 15 ∧
      OtherHosts n s t ∧ Latched (hostSrc n 2) s t ∧
      t.hosts[n].acqStart = if s.hosts[n].st = .resume then s.clk else s.hosts[n].acqStart) ∧
    (∀ rms, s.hosts[n].st ≠ .off → s.hosts[n].st ≠ .idle → s.hosts[n].st ≠ .up → bit s.hosts[n].act.rxCfg 14 = true →
      exec (.dcgLoopStep n rms) s = .next (modHost n (fun h => { h with
        dcg := if rms < 80 then min 24 (h.dcg + 1) else if 80 < rms then h.dcg - 1 else h.dcg }) s)) ∧
    (∀ xs cdr, s.hosts[n].st ≠ .off → s.hosts[n].st ≠ .idle → ∃ t, exec (.hostLoopUpdate n xs cdr) s = .next t ∧
      let rot := (cdr.getD s.hosts[n].act.cdrBw (0, 0)).1; let freq := (cdr.getD s.hosts[n].act.cdrBw (0, 0)).2;
      t.hosts[n].freq = max (-600) (min 600 freq) ∧ (t.hosts[n].rot : Int) = (s.hosts[n].rot + max (-4) (min 4 rot)) % 64 ∧
      let all := ((xs.map adcClip).reverse ++ s.hosts[n].path.xs).take 64; t.hosts[n].path.xs = all ∧
      (s.hosts[n].st ≠ .timing → let h := s.hosts[n]; let blind := trialBlind h; t.hosts[n].coefs =
        hostAdapt h.act (h.st == .up && decide (h.acqUntil ≤ s.clk)) blind h.coefs all
          (hostDecide (hostApplied h.act blind h.coefs) all h.path.prev))) ∧
    (s.hosts[n].act.chkPat ≠ 0 → s.hosts[n].chkLock = false → 1024 ≤ s.hosts[n].chk.run → ∃ t, exec (.prbsCheckerLock n) s = .next t ∧
      t.hosts[n].chkLock = true ∧ t.hosts[n].testErr = 0 ∧ OtherHosts n s t ∧ Latched (hostSrc n 6) s t) ∧
    (s.hosts[n].chkLock = true → 512 < (s.hosts[n].chk.errs.filter id).length → ∃ t, exec (.prbsCheckerLockLoss n) s = .next t ∧
      t.hosts[n].chkLock = false ∧ t.hosts[n].lockLoss = satU 8 (s.hosts[n].lockLoss + 1) ∧ t.hosts[n].testErr = s.hosts[n].testErr ∧
      OtherHosts n s t ∧ Latched (hostSrc n 6) s t) ∧
    (bit s.hosts[n].act.test 9 = true → ∃ t, exec (.loopbackSlip n) s = .next t ∧
      t.hosts[n].slipCnt = satU 16 (s.hosts[n].slipCnt + 1) ∧ OtherHosts n s t)

/-- Beats, tree times and summaries (R235 to R237, R242, R244, R256, R257, R260, R262, R273, R274): what each event does where it is due. -/
def Obligations.BeatsAndTreeTimes : Prop :=
  ∀ (s : State),
    (∀ t (d : Nat), chanterOf s = some t → s.refOk = true → s.cad.st = 2 → varBeat s = false →
      1250 ≤ ((d : Int) - beatinDly s - s.cad.slew).toNat →
      let iv := ((d : Int) - beatinDly s - s.cad.slew).toNat;
      (if iv < s.cad.period then s.cad.period - iv else iv - s.cad.period) * beatTol s ≤ s.cad.period →
      ∃ u, exec (.beatInEdge d) s = .next u ∧ u.cad.beat = s.cad.beat + 1 ∧ u.cad.st = 2 ∧
        u.cad.intervals = (iv :: s.cad.intervals).take 4 ∧ u.cad.period = nextPeriod false ((iv :: s.cad.intervals).take 4) s.cad.period) ∧
    (∀ t (d : Nat), chanterOf s = some t → s.refOk = true → s.cad.st = 1 → varBeat s = true →
      ∃ u, exec (.beatInEdge d) s = .next u ∧ u.cad.st = 2 ∧ u.cad.follow = t ∧
        u.cad.beat = if usable s (otherTree t) then (getTree s (otherTree t)).beat else 0) ∧
    (∀ t, chanterOf s = some t → s.cad.st ≠ 1 → varBeat s = false → ∃ u, exec .chanterOwnMark s = .next u ∧
      u.cad.beat = s.cad.beat + 1 ∧ u.cad.st = 4 ∧ (s.cad.st ≠ 4 → Latched 0x1C0 s u)) ∧
    (∀ t, chanterOf s = some t → s.cad.st ≠ 1 → s.cad.st ≠ 4 → varBeat s = true → ∃ u, exec .variableBeatHoldover s = .next u ∧
      u.cad.st = 4 ∧ u.cad.holdCause = some 1 ∧ Latched 0x1C0 s u) ∧
    (standalone s = true → s.cad.started = true → ∃ u, exec .freeBeat s = .next u ∧ u.cad.beat = s.cad.beat + 1) ∧
    (∀ t, chanterOf s = some t → s.cad.st = 1 → s.cad.acqWarned = false → ∃ u, exec .acquiringTimeout s = .next u ∧
      u.cad.acqWarned = true ∧ u.cad.st = 1 ∧ Latched 0x1C0 s u) ∧
    (∀ t, linkUp s (upPort t) = true → chanterOf s ≠ some t → standalone s = false →
      exec (.mark t) s = .next (modTree t (fun x => { x with marked := some 0 }) s)) ∧
    (∀ t (b : List Byte), linkUp s (upPort t) = true → ∀ m, (getTree s t).marked = some m →
      ∃ u, exec (.beat t b (linkCrc 0x01 b)) s = .next u ∧ let x := getTree u t;
        x.beat = BitVec.ofNat 40 (leAt b 0 5) ∧ x.elapsed = m + (s.cad.links[upPort t].delay + leAt b 5 2) / 8 ∧ x.seen = true ∧
        x.marked = none ∧ x.hold = bit (b.getD 7 0) 0 ∧ x.var = bit (b.getD 7 0) 1 ∧ x.domain = BitVec.ofNat 32 (leAt b 8 4)) ∧
    (∀ t, (getTree s t).seen = true → (getTree s t).var = false → chanterOf s ≠ some t → ∃ u, exec (.markMissing t) s = .next u ∧
      (getTree u t).missing = 3 ∧ (getTree u t).good = 0 ∧ getTree u (otherTree t) = getTree s (otherTree t)) ∧
    (∀ d, s.cad.st ≠ 1 → standalone s = false → ∃ u, exec (.spreadCorrection d) s = .next u ∧
      u.cad.elapsed = s.cad.elapsed + d.toNat ∧ u.cad.holdBack = s.cad.holdBack + (-d).toNat ∧
      ∀ t, (getTree s t).seen = true → (getTree u t).elapsed = (((getTree s t).elapsed : Int) + d).toNat) ∧
    (∀ (k : Fin 10) (b : List Byte), 2 ≤ k.val → linkUp s k = true →
      let v := modLink k (fun l => { l with child := some (summaryOf b), lostDev := 0 }) s;
      (chanterOf s ≠ some (linkTree k) → exec (.summary k b (linkCrc 0x81 b)) s = .next v) ∧
      (chanterOf s = some (linkTree k) →
        exec (.summary k b (linkCrc 0x81 b)) s = .next (summaryJudge (mergedSummary s.cad.own.root v (linkTree k)) v))) ∧
    (s.cad.own.up.fault ≠ 0 → s.cad.extraSent = false → ∃ u, exec .extraSummary s = .next u ∧ u.cad.extraSent = true ∧
      u.cad.own = (if linkUp s (upPort .a) = true ∨ linkUp s (upPort .b) = true then { s.cad.own with up := Summary.zero }
        else s.cad.own))

/-- Links, enumeration, domain entries and schedule slots (R244 to R247, R251 to R254, R264 to R268, R270, R271, R333): what each event does
where it is due. -/
def Obligations.LinksAndSlots : Prop :=
  ∀ (s : State),
    (∀ k : Fin 10, 2 ≤ k.val → linkAlive s k = true → exec (.probeInterval k) s =
      .next (emit (.probe k) (modLink k (fun l => { l with probeOut := true }) s))) ∧
    (∀ t, linkAlive s (upPort t) = true → ∃ u, exec (.probe t) s = .next u ∧ Out.probeEcho (upPort t) ∈ u.out.drop s.out.length ∧
      u.cad.links[upPort t].probes = s.cad.links[upPort t].probes + 1) ∧
    (∀ (k : Fin 10) rt, s.cad.links[k].probeOut = true → exec (.probeEcho k rt) s =
      .next (modLink k (fun l => { l with probeOut := false, roundTrip := some rt }) s)) ∧
    (∀ (k : Fin 10) (b : List Byte), linkAlive s k = true → ∀ rt, s.cad.links[k].roundTrip = some rt →
      let ds := ((rt - leAt b 0 3) / 2 :: s.cad.links[k].delays).take 16;
      ∃ u, exec (.probeTurn k b (linkCrc 0x82 b)) s = .next u ∧ u.cad.links[k].delays = ds ∧ u.cad.links[k].delay = meanOf ds ∧
        u.cad.links[k].roundTrip = none ∧ (20000 < meanOf ds → u.cad.links[k].st = .disabled)) ∧
    (∀ t (b : List Byte), linkAlive s (upPort t) = true → ∃ u, exec (.linkDelay t b (linkCrc 0x02 b)) s = .next u ∧
      u.cad.links[upPort t].delay = leAt b 0 3 ∧
      u.cad.links[upPort t].st = if 20000 < leAt b 0 3 then .disabled else s.cad.links[upPort t].st) ∧
    (∀ k : Fin 10, linkAlive s k = true → ∃ u, exec (.keepAlive k 0 0) s = .next u ∧ u.cad.links[k].keep = s.cad.links[k].keep + 1 ∧
      (s.cad.links[k].st = .align → u.cad.links[k].st =
        if 16 ≤ s.cad.links[k].keep + 1 ∧ 16 ≤ s.cad.links[k].probes then .up else .align)) ∧
    (∀ k : Fin 10, linkAlive s k = true →
      (∃ u, exec (.keepAliveMissing k) s = .next u ∧ u.cad.links[k].st = .down ∧
        (s.cad.links[k].st = .up → Latched (if k.val < 2 then 0x1C3 else 0x1C4) s u)) ∧
      ∃ u, exec (.linkAlignmentLost k) s = .next u ∧ u.cad.links[k].st = .down ∧
        u.cad.links[k].err = satU 8 (s.cad.links[k].err + 1)) ∧
    (∀ k : Fin 10, s.cad.links[k].st = .down → domOn s 3 = true → exec (.commaAlignment k) s =
      .next (modLink k (fun l => { l with st := .align, keep := 0, probes := 0, delays := [] }) s)) ∧
    (∀ k : Fin 10, exec (.abort k) s = .next s) ∧
    (∀ t, chanterOf s = some t → t = .a ∨ s.cad.enumBegun = false → downUp s t ≠ [] → ∃ u, exec .enumerationStart s = .next u ∧
      u.cad.enumBegun = true ∧ epochOf u t = epochOf s t + 1 ∧
      (getRun u t).map (fun r => (r.epoch, r.round, r.await)) = some (epochOf s t + 1, 1, downUp s t)) ∧
    (∀ t (b : List Byte), chanterOf s ≠ some t → linkUp s (upPort t) = true → downUp s t ≠ [] →
      ∃ u, exec (.enumOrder t b (linkCrc 0x03 b)) s = .next u ∧ epochOf u t = b.getD 0 0 ∧
        (getRun u t).map (fun r => (r.epoch, r.round, r.await)) = some (b.getD 0 0, byteAt b 1, downUp s t)) ∧
    (∀ (k : Fin 10) (b : List Byte), 2 ≤ k.val → linkAlive s k = true → ∀ r, getRun s (linkTree k) = some r → b.getD 0 0 = r.epoch →
      r.await.contains k = true → (r.await.erase k).isEmpty = false →
      ∃ u, exec (.enumReport k b (linkCrc 0x83 b)) s = .next u ∧ u.cad.links[k].report = some (cntOf b 1, mapOf b 15) ∧
        (getRun u (linkTree k)).map (·.await) = some (r.await.erase k)) ∧
    (∀ t r, getRun s t = some r → r.await ≠ [] → s.cad.joinWait = [] → enumerated s t = false → (chanterOf s = some t → r.round = 1 →
      r.dup = []) →
      ∃ u, exec (.enumReportTimeout t) s = .next u ∧ (r.join.isSome → (getRun u t).map (·.await) = some []) ∧
        (r.join = none → chanterOf s ≠ some t → (getRun u t).map (·.await) = some [] ∧ u.cad.joinWait = r.await)) ∧
    (∀ t (b : List Byte), linkAlive s (upPort t) = true → ∀ r, getRun s t = some r → b.getD 0 0 = r.epoch → chanterOf s ≠ some t →
      r.assigned = false → s.cad.joinWait = [] → ∃ u, exec (.enumAssign t b (linkCrc 0x04 b)) s = .next u ∧
        (getRun u t).map (·.assigned) = some true ∧ ∀ i, r.claim = some i → u.cad.idx = i ∧ u.cad.idxValid = true) ∧
    (∀ (k : Fin 10) (b : List Byte), 2 ≤ k.val → linkUp s k = true → chanterOf s ≠ some (linkTree k) →
      exec (.joinReq k b (linkCrc 0x84 b)) s = .next (post (upPort (linkTree k)) 0x84 b
        (modCad (fun c => { c with joinVia := assocSet c.joinVia (leAt b 0 2) k }) s))) ∧
    (∀ t (b : List Byte), linkAlive s (upPort t) = true → s.cad.idxValid = true → s.cad.idx = leAt b 0 2 →
      ∀ k, (downPorts t)[byteAt b 2]? = some k → linkUp s k = true →
      exec (.joinGrant t b (linkCrc 0x05 b)) s = .next (post k 0x05 b s)) ∧
    (∀ t (b : List Byte), linkUp s (upPort t) = true → standalone s = false → chanterOf s ≠ some t →
      (s.cad.domTags.any fun e => e.1 == BitVec.ofNat 32 (leAt b 32 4)) = false →
      ∃ u, exec (.domEntry t b (linkCrc 0x06 b)) s = .next u ∧
        u.cad.domTags = s.cad.domTags ++ [(BitVec.ofNat 32 (leAt b 32 4), t)]) ∧
    (∀ t (b : List Byte), linkUp s (upPort t) = true → standalone s = false → chanterOf s ≠ some t →
      ∃ u, exec (.domCancelMessage t b (linkCrc 0x07 b)) s = .next u ∧
        ∀ i : Fin 256, (s.cad.slots[i].valid && s.cad.slots[i].dom && s.cad.slots[i].tag == BitVec.ofNat 32 (leAt b 0 4)) = true →
          u.cad.slots[i].valid = false) ∧
    (∀ i : Fin 256, slotDue i s = true → s.cad.slots[i].action = 0 → (∀ j : Fin 256, s.cad.slots[j].deferral = none) →
      ∃ u, exec (.windowOpen i) s = .next u ∧ u.cad.slots[i] = { s.cad.slots[i] with
        openEnd := some (s.cad.slots[i].armed + s.cad.slots[i].duration.setWidth 64) } ∧ ∀ j : Fin 256, j ≠ i →
          u.cad.slots[j] = s.cad.slots[j]) ∧
    (∀ (i : Fin 256) e, s.cad.slots[i].openEnd = some e → reached s e = true → let x := s.cad.slots[i];
      ∃ u, exec (.windowClose i) s = .next u ∧ OnlyChanges [.cad] s u ∧ (x.rep = 0 ∨ x.count = 1 → u.cad.slots[i] = Slot.empty) ∧
        (x.rep ≠ 0 → x.count ≠ 1 → u.cad.slots[i].openEnd = none ∧ u.cad.slots[i].m = x.m + 1 ∧
          u.cad.slots[i].count = (if x.count = 0 then 0 else x.count - 1))) ∧
    (∀ i : Fin 256, slotDue i s = true → (∀ j < i, slotDue j s = false ∨ s.cad.slots[j].action = 0) →
      (s.cad.slots[i].action = 9 → s.cad.slots[i].cmd = none → ∃ u, exec (.pointAction i) s = .next u ∧
        u.out = s.out ++ [.beatOut (bits (reg s 0x401C) 0 8)] ∧ (s.cad.slots[i].rep = 0 → u.cad.slots[i] = Slot.empty)) ∧
      (s.cad.slots[i].action ≠ 0 → actionFirmware s.cad.slots[i].action = true → s.rst.mgmtRun = false →
        exec (.pointAction i) s = .next (modSlot i (fun x => { x with deferral := some { beats := 0, held := true, last := now s } }) s))) ∧
    (∀ (i : Fin 256) d, s.cad.slots[i].deferral = some d → d.held = false → 16 ≤ d.beats → ∃ u, exec (.deferralDropped i) s = .next u ∧
      Latched 0x034 s u ∧ (s.cad.slots[i].rep = 0 → u.cad.slots[i] = Slot.empty))

/-- Monitor converters and thermal policy (R342 to R356, R367 to R380): what each event does where it is due. -/
def Obligations.MonitoringAndThermalPolicy : Prop :=
  ∀ (s : State),
    (∀ (k : Fin 2) v ovr, s.mon[k].cfg.mode = 1 → s.mon[k].busy = .idle → s.mon[k].inTest = false → domOn s 4 = true →
      ∃ t, exec (.monitorOutput k v ovr) s = .next t ∧ t.mon[k].next = (monNextIndex s.mon[k]).1 + 1 ∧
        t.mon[k].settleTo = s.mon[k].settleTo ∧ OtherMons k s t ∧
        (monSettling s.mon[k] (gridRef s s.mon[k] (monNextIndex s.mon[k]).1) = true ∨ s.mon[k].cfg.avg = 0 →
          t.mon[k].seq = s.mon[k].seq + 1)) ∧
    (∀ k : Fin 2, ∃ t, exec (.recTimeExpiry k) s = .next t ∧ t.mon[k].gather = [] ∧ OtherMons k s t ∧
      (monRing s = false → s.mon[k].gather.length ≤ 1024 → t.mon[k].buf.reverse.take s.mon[k].gather.length = s.mon[k].gather.reverse)) ∧
    (∀ k : Fin 2, s.mon[k].cfg.mode = 2 → s.mon[k].inTest = false → domOn s 4 = true → s.mon[k].busy = .idle → s.mon[k].roundDue = false →
      0 < s.mon[k].cfg.list.length → ∃ t, exec (.scanPassStart k) s = .next t ∧ t.mon[k].busy = .scan 0 ∧ t.mon[k].passAt = 1 ∧
        OtherMons k s t ∧ t.mon[k].overrun = satU 8 (s.mon[k].overrun + (s.mon[k].cfg.list.length - s.mon[k].passAt))) ∧
    (∀ (k : Fin 2) v ovr, ∀ i, s.mon[k].busy = .scan i → s.mon[k].inTest = false → ∃ t, exec (.scanConversionDone k v ovr) s = .next t ∧
      t.mon[k].seq = s.mon[k].seq + 1 ∧ OtherMons k s t ∧
      (k = 1 → s.mon[k].roundDue = true → t.mon[k].busy = .round) ∧
      (k = 0 ∨ s.mon[k].roundDue = false → t.mon[k].busy =
        if s.mon[k].cfg.mode = 2 ∧ s.mon[k].passAt < s.mon[k].cfg.list.length then .scan s.mon[k].passAt else .idle)) ∧
    (∀ (i j : Fin 32) (a b : Bool), i < j → let c := s.comp[i]; let d := s.comp[j]; let k := Fin.ofNat 2 c.assign;
      a ≠ c.level → a = c.dir → c.en = true → c.urgEn = true → b ≠ d.level → b = d.dir → d.en = true → d.urgEn = true →
      d.assign = c.assign → domOn s 4 = true → monConverting s.mon[k] = false →
      ∃ t, exec (.comparatorCrossing [(j, b), (i, a)]) s = .next t ∧ t.mon[k].busy = .burst i.val c.urgN c.urgR ∧
        t.mon[k].drop = satU 16 (s.mon[k].drop + 1) ∧ Latched 0x1E8 s t) ∧
    (∀ (i : Fin 32) level, ∃ t, exec (.comparatorCrossing [(i, level)]) s = .next t ∧ t.comp[i].level = level ∧
      (∀ j : Fin 32, j ≠ i → t.comp[j] = s.comp[j]) ∧
      (level ≠ s.comp[i].level → level = s.comp[i].dir → s.comp[i].en = true → domOn s 4 = true → Latched 0x1E8 s t ∧
        (s.comp[i].urgEn = true → monConverting s.mon[Fin.ofNat 2 s.comp[i].assign] = false →
          t.mon[Fin.ofNat 2 s.comp[i].assign].busy = .burst i.val s.comp[i].urgN s.comp[i].urgR))) ∧
    (s.mon[(1 : Fin 2)].inTest = false → domOn s 4 = true → s.mon[(1 : Fin 2)].roundDue = false →
      (s.mon[(1 : Fin 2)].busy = .idle → ∃ t, exec .housekeepingRound s = .next t ∧ OtherMons 1 s t ∧ OnlyChanges [.mon, .therm] s t ∧
        t.mon[(1 : Fin 2)].busy = .round ∧ t.therm.roundAt = s.clk ∧ t.therm.cfg = s.therm.pend.getD s.therm.cfg) ∧
      (∀ i, s.mon[(1 : Fin 2)].busy = .scan i → ∃ t, exec .housekeepingRound s = .next t ∧ OtherMons 1 s t ∧
        OnlyChanges [.mon, .therm] s t ∧ t.mon[(1 : Fin 2)].busy = .round ∧ t.therm.roundAt = s.clk) ∧
      (∀ i l r, s.mon[(1 : Fin 2)].busy = .burst i l r → ∃ t, exec .housekeepingRound s = .next t ∧ OtherMons 1 s t ∧
        OnlyChanges [.mon, .therm] s t ∧ t.mon[(1 : Fin 2)].busy = .burst i l r ∧ t.mon[(1 : Fin 2)].roundDue = true ∧
        t.therm.late = satU 8 (s.therm.late + 1))) ∧
    (∀ r taps, s.mon[(1 : Fin 2)].busy = .round → ∃ t, exec (.housekeepingRoundEnd r taps) s = .next t ∧
      t.therm.rounds = (s.therm.rounds + 1) % 65536 ∧
      (s.rst.mgmtRun = true → ∀ i : Fin 14, t.therm.sens[i].temp = roundReading s r i) ∧
      (s.rst.mgmtRun = false → ∀ i : Fin 14, t.therm.sens[i].temp = s.therm.sens[i].temp)) ∧
    (s.rst.mgmtRun = false → ∀ k < 4, ∃ t, exec ([.graceExpiry, .shedDwellExpiry, .muteHoldExpiry, .liftGapExpiry].getD k .graceExpiry) s =
      .next t ∧ t = { s with therm := { s.therm with overdue := if k ∈ s.therm.overdue then s.therm.overdue else s.therm.overdue ++ [k] } }) ∧
    (s.rst.mgmtRun = true → s.therm.stage = 2 → holdsAdvise s = true → ∃ t, exec .graceExpiry s = .next t ∧ t.therm.stage = 3 ∧
      Latched 0x1E2 s t) ∧
    (s.rst.mgmtRun = true → s.therm.stage = 3 ∨ s.therm.stage = 4 → holdsHot s = true →
      ∃ t, exec .shedDwellExpiry s = .next t ∧
      ∀ c, s.therm.order.find? (fun c => !(s.therm.shed.any fun e => e.1 == c) && !s.therm.shedWait.contains c && !(shedDoms s c).isEmpty) = some c →
        (shedTested s c = false → t.therm.stage = 4 ∧ t.therm.shed = s.therm.shed ++ [(c, shedDoms s c)] ∧ Latched 0x1E3 s t) ∧
        (shedTested s c = true → t.therm.shedWait = s.therm.shedWait ++ [c])) ∧
    (s.rst.mgmtRun = true → s.therm.stage = 3 ∨ s.therm.stage = 4 → holdsAdvise s = false → s.therm.shed ≠ [] →
      ∃ t, exec .muteHoldExpiry s = .next t ∧ t.therm.shed = s.therm.shed.dropLast) ∧
    (s.rst.mgmtRun = true → s.therm.stage = 5 → s.therm.shed ≠ [] → ∃ t, exec .liftGapExpiry s = .next t ∧
      t.therm.shed = s.therm.shed.dropLast) ∧
    (∀ r, s.therm.tripped = false → (tripVote s r = none → ∃ t, exec (.tripEvaluation r) s = .next t ∧ t.therm.votes = 0 ∧
        OnlyChanges [.therm] s t) ∧
      ∀ v, tripVote s r = some v →
        (s.therm.votes < 2 → ∃ t, exec (.tripEvaluation r) s = .next t ∧ t.therm.votes = s.therm.votes + 1 ∧ OnlyChanges [.therm] s t) ∧
        (2 ≤ s.therm.votes → ∃ t, exec (.tripEvaluation r) s = .next t ∧ t.therm.tripped = true ∧ bit t.rst.cause 8 = true ∧
          t.therm.tripSensor = (s.therm.firstVote.getD v).1 ∧ t.therm.tripCount = satU 16 (s.therm.tripCount + 1)))

/-- The reed's sessions and the swaps (R78, R79, R315 to R317, R320, R322, R327 to R329, R335): what each event does where it is due. -/
def Obligations.ReedSessions : Prop :=
  ∀ (s : State),
    (s.rst.mgmtRun = true → domOn s 5 = true → s.cal.busy = none → swapRuns s = false → ∀ q, (calQueue s).head? = some q →
      sessionFits s q = true → (arbPresent 1 (calArb (calTgt q)) s).2 = true → ∃ t, exec .reedSessionStart s = .next t ∧
        t.cal.busy.map (fun x => (x.target, x.cmd)) = some (q, (s.cal.requests.find? (·.1 == q)).map (·.2)) ∧
        t.cal.lastTarget = q.val ∧ t.arb.admitted = s.arb.admitted ++ [{ cls := 1, target := Tgt.code (calArb (calTgt q)) }]) ∧
    (∀ r : SessionResult, ∀ q, s.cal.busy = some q →
      (∀ c, calTgt q.target = .conv c → ∃ t, exec (.reedSessionDone r) s = .next t ∧ t.cal.busy = none ∧ t.cal.sess = s.cal.sess + 1 ∧
        (resultOk (calHeld s (.conv c) q.slice) r = true → t.cal.reject = s.cal.reject ∧ ∀ x, regionTemp s (convSensor c) = some x →
          q.slice < (getConv s c).cal.length → ((getConv t c).cal.getD q.slice SliceCal.none).tCal = x) ∧
        (resultOk (calHeld s (.conv c) q.slice) r = false → t.cal.reject = satU 8 (s.cal.reject + 1) ∧ getConv t c = getConv s c)) ∧
      (calTgt q.target = .reed → ∃ t, exec (.reedSessionDone r) s = .next t ∧ t.cal.busy = none ∧
        t.cal.reedOk = (r.bandgapOk && r.secondOk && r.timingOk) ∧ t.cal.frozen =
          if r.bandgapOk && r.secondOk && r.timingOk then false else s.cal.frozen || decide (2 ≤ s.cal.failRun + 1))) ∧
    (∀ c run, ∀ r, (getConv s c).run = some r → r.failures = [] → s.late = [] → ∃ t, exec (.swapParallelRunDone c run) s = .next t ∧
      (getConv t c).run = none ∧
      (runPasses c run = true → (getConv t c).swapCnt = min 4095 ((getConv s c).swapCnt + 1) ∧ (getConv t c).abortCnt = 0 ∧
        (getConv t c).roles = ((getConv s c).roles.set r.out .spare).set r.spare (.phase r.phase)) ∧
      (runPasses c run = false → (getConv t c).swapCnt = (getConv s c).swapCnt ∧
        (getConv t c).abortCnt = min 3 ((getConv s c).abortCnt + 1) ∧ Latched (convEvent c 2) s t ∧
        (getConv t c).roles = if (getConv t c).abortCnt = 3 then (getConv s c).roles.set r.spare .failed else (getConv s c).roles)) ∧
    (∀ r : SessionResult, ∀ q, s.cal.busy = some q → 1 < segmentsOf (calTgt q.target) →
      ∀ b, s.cal.begun.find? (·.target == q.target) = some b →
      ∃ t, exec (.segmentDone r) s = .next t ∧ t.cal.busy = none ∧
        (b.done + 1 < segmentsOf (calTgt q.target) → t.cal.sess = s.cal.sess ∧
          t.cal.begun = s.cal.begun.map fun x => if x.target = q.target then { x with done := x.done + 1 } else x) ∧
        (segmentsOf (calTgt q.target) ≤ b.done + 1 → t.cal.sess = s.cal.sess + 1 ∧
          t.cal.begun = s.cal.begun.filter (·.target != q.target))) ∧
    (s.cal.dueSince ≠ [] → s.cal.idleRaised = false → s.cal.busy = none → ∃ t, exec .reedIdle s = .next t ∧
      t.cal = { s.cal with idleRaised := true } ∧ Latched 0x033 s t) ∧
    (∀ q, ∀ e, s.cal.requests.find? (·.1 == q) = some e → exec (.calRequestTimeout q) s =
      .next (refuse e.2 stInternal { s with cal := { s.cal with requests := s.cal.requests.filter (·.1 != q) } }))
end

