-- ==== Sys2Proof/Laws/State.lean ====
section
/-! SUPPORT. What each plain update of the state leaves in each field: one lemma per field per update, so that no proof unfolds
an update. -/

-- One proof after another: the package is compiled as one text, where proofs side by side take too much memory.
set_option Elab.async false

namespace Sys2Proof.Machine

open Sys2Proof

/-! ### Elements of a changed vector -/

@[simp] theorem upd_get_self (v : Vector α n) (i : Fin n) (f : α → α) : (upd v i f)[i] = f v[i] := by
  simp [upd]

/-- The same with the index written as a number, which is how simp writes it. -/
@[simp] theorem upd_get_val (v : Vector α n) (i : Fin n) (f : α → α) : (upd v i f)[i.val] = f v[i.val] := upd_get_self v i f

theorem upd_get_ne (v : Vector α n) {i j : Fin n} (f : α → α) (h : j ≠ i) : (upd v i f)[j] = v[j] := by
  simp only [upd, Fin.getElem_fin]
  exact Vector.getElem_set_ne _ _ (fun e => h (Fin.ext e.symm))

theorem upd_get (v : Vector α n) (i j : Fin n) (f : α → α) : (upd v i f)[j] = if j = i then f v[i] else v[j] := by
  split
  · rename_i h; subst h; exact upd_get_self v j f
  · rename_i h; exact upd_get_ne v f h

/-! ### modLine -/

@[simp] theorem modLine_pending (s : State) : (modLine n f s).pending = s.pending := rfl
@[simp] theorem modLine_free (s : State) : (modLine n f s).free = s.free := rfl
@[simp] theorem modLine_clk (s : State) : (modLine n f s).clk = s.clk := rfl
@[simp] theorem modLine_sub (s : State) : (modLine n f s).sub = s.sub := rfl
@[simp] theorem modLine_out (s : State) : (modLine n f s).out = s.out := rfl
@[simp] theorem modLine_setup (s : State) : (modLine n f s).setup = s.setup := rfl
@[simp] theorem modLine_shadow (s : State) : (modLine n f s).shadow = s.shadow := rfl
@[simp] theorem modLine_viol (s : State) : (modLine n f s).viol = s.viol := rfl
@[simp] theorem modLine_hiPcie (s : State) : (modLine n f s).hiPcie = s.hiPcie := rfl
@[simp] theorem modLine_hiWire (s : State) : (modLine n f s).hiWire = s.hiWire := rfl
@[simp] theorem modLine_straps (s : State) : (modLine n f s).straps = s.straps := rfl
@[simp] theorem modLine_pcie (s : State) : (modLine n f s).pcie = s.pcie := rfl
@[simp] theorem modLine_refOk (s : State) : (modLine n f s).refOk = s.refOk := rfl
@[simp] theorem modLine_hkoOk (s : State) : (modLine n f s).hkoOk = s.hkoOk := rfl
@[simp] theorem modLine_refLostAt (s : State) : (modLine n f s).refLostAt = s.refLostAt := rfl
@[simp] theorem modLine_pllAt (s : State) : (modLine n f s).pllAt = s.pllAt := rfl
@[simp] theorem modLine_rings (s : State) : (modLine n f s).rings = s.rings := rfl
@[simp] theorem modLine_evt (s : State) : (modLine n f s).evt = s.evt := rfl
@[simp] theorem modLine_tlm (s : State) : (modLine n f s).tlm = s.tlm := rfl
@[simp] theorem modLine_lmem (s : State) : (modLine n f s).lmem = s.lmem := rfl
@[simp] theorem modLine_cad (s : State) : (modLine n f s).cad = s.cad := rfl
@[simp] theorem modLine_lines (s : State) : (modLine n f s).lines = upd s.lines n f := rfl
@[simp] theorem modLine_hosts (s : State) : (modLine n f s).hosts = s.hosts := rfl
@[simp] theorem modLine_ports (s : State) : (modLine n f s).ports = s.ports := rfl
@[simp] theorem modLine_lineCtr (s : State) : (modLine n f s).lineCtr = s.lineCtr := rfl
@[simp] theorem modLine_hostCtr (s : State) : (modLine n f s).hostCtr = s.hostCtr := rfl
@[simp] theorem modLine_portCtr (s : State) : (modLine n f s).portCtr = s.portCtr := rfl
@[simp] theorem modLine_pmc (s : State) : (modLine n f s).pmc = s.pmc := rfl
@[simp] theorem modLine_mon (s : State) : (modLine n f s).mon = s.mon := rfl
@[simp] theorem modLine_comp (s : State) : (modLine n f s).comp = s.comp := rfl
@[simp] theorem modLine_thr (s : State) : (modLine n f s).thr = s.thr := rfl
@[simp] theorem modLine_therm (s : State) : (modLine n f s).therm = s.therm := rfl
@[simp] theorem modLine_cal (s : State) : (modLine n f s).cal = s.cal := rfl
@[simp] theorem modLine_arb (s : State) : (modLine n f s).arb = s.arb := rfl
@[simp] theorem modLine_chk (s : State) : (modLine n f s).chk = s.chk := rfl
@[simp] theorem modLine_tst (s : State) : (modLine n f s).tst = s.tst := rfl
@[simp] theorem modLine_rst (s : State) : (modLine n f s).rst = s.rst := rfl
@[simp] theorem modLine_saved (s : State) : (modLine n f s).saved = s.saved := rfl
@[simp] theorem modLine_ocp (s : State) : (modLine n f s).ocp = s.ocp := rfl
@[simp] theorem modLine_late (s : State) : (modLine n f s).late = s.late := rfl
@[simp] theorem modLine_cap (s : State) : (modLine n f s).cap = s.cap := rfl
@[simp] theorem modLine_scans (s : State) : (modLine n f s).scans = s.scans := rfl

/-! ### modHost -/

@[simp] theorem modHost_pending (s : State) : (modHost n f s).pending = s.pending := rfl
@[simp] theorem modHost_free (s : State) : (modHost n f s).free = s.free := rfl
@[simp] theorem modHost_clk (s : State) : (modHost n f s).clk = s.clk := rfl
@[simp] theorem modHost_sub (s : State) : (modHost n f s).sub = s.sub := rfl
@[simp] theorem modHost_out (s : State) : (modHost n f s).out = s.out := rfl
@[simp] theorem modHost_setup (s : State) : (modHost n f s).setup = s.setup := rfl
@[simp] theorem modHost_shadow (s : State) : (modHost n f s).shadow = s.shadow := rfl
@[simp] theorem modHost_viol (s : State) : (modHost n f s).viol = s.viol := rfl
@[simp] theorem modHost_hiPcie (s : State) : (modHost n f s).hiPcie = s.hiPcie := rfl
@[simp] theorem modHost_hiWire (s : State) : (modHost n f s).hiWire = s.hiWire := rfl
@[simp] theorem modHost_straps (s : State) : (modHost n f s).straps = s.straps := rfl
@[simp] theorem modHost_pcie (s : State) : (modHost n f s).pcie = s.pcie := rfl
@[simp] theorem modHost_refOk (s : State) : (modHost n f s).refOk = s.refOk := rfl
@[simp] theorem modHost_hkoOk (s : State) : (modHost n f s).hkoOk = s.hkoOk := rfl
@[simp] theorem modHost_refLostAt (s : State) : (modHost n f s).refLostAt = s.refLostAt := rfl
@[simp] theorem modHost_pllAt (s : State) : (modHost n f s).pllAt = s.pllAt := rfl
@[simp] theorem modHost_rings (s : State) : (modHost n f s).rings = s.rings := rfl
@[simp] theorem modHost_evt (s : State) : (modHost n f s).evt = s.evt := rfl
@[simp] theorem modHost_tlm (s : State) : (modHost n f s).tlm = s.tlm := rfl
@[simp] theorem modHost_lmem (s : State) : (modHost n f s).lmem = s.lmem := rfl
@[simp] theorem modHost_cad (s : State) : (modHost n f s).cad = s.cad := rfl
@[simp] theorem modHost_lines (s : State) : (modHost n f s).lines = s.lines := rfl
@[simp] theorem modHost_hosts (s : State) : (modHost n f s).hosts = upd s.hosts n f := rfl
@[simp] theorem modHost_ports (s : State) : (modHost n f s).ports = s.ports := rfl
@[simp] theorem modHost_lineCtr (s : State) : (modHost n f s).lineCtr = s.lineCtr := rfl
@[simp] theorem modHost_hostCtr (s : State) : (modHost n f s).hostCtr = s.hostCtr := rfl
@[simp] theorem modHost_portCtr (s : State) : (modHost n f s).portCtr = s.portCtr := rfl
@[simp] theorem modHost_pmc (s : State) : (modHost n f s).pmc = s.pmc := rfl
@[simp] theorem modHost_mon (s : State) : (modHost n f s).mon = s.mon := rfl
@[simp] theorem modHost_comp (s : State) : (modHost n f s).comp = s.comp := rfl
@[simp] theorem modHost_thr (s : State) : (modHost n f s).thr = s.thr := rfl
@[simp] theorem modHost_therm (s : State) : (modHost n f s).therm = s.therm := rfl
@[simp] theorem modHost_cal (s : State) : (modHost n f s).cal = s.cal := rfl
@[simp] theorem modHost_arb (s : State) : (modHost n f s).arb = s.arb := rfl
@[simp] theorem modHost_chk (s : State) : (modHost n f s).chk = s.chk := rfl
@[simp] theorem modHost_tst (s : State) : (modHost n f s).tst = s.tst := rfl
@[simp] theorem modHost_rst (s : State) : (modHost n f s).rst = s.rst := rfl
@[simp] theorem modHost_saved (s : State) : (modHost n f s).saved = s.saved := rfl
@[simp] theorem modHost_ocp (s : State) : (modHost n f s).ocp = s.ocp := rfl
@[simp] theorem modHost_late (s : State) : (modHost n f s).late = s.late := rfl
@[simp] theorem modHost_cap (s : State) : (modHost n f s).cap = s.cap := rfl
@[simp] theorem modHost_scans (s : State) : (modHost n f s).scans = s.scans := rfl

/-! ### modPort -/

@[simp] theorem modPort_pending (s : State) : (modPort p f s).pending = s.pending := rfl
@[simp] theorem modPort_free (s : State) : (modPort p f s).free = s.free := rfl
@[simp] theorem modPort_clk (s : State) : (modPort p f s).clk = s.clk := rfl
@[simp] theorem modPort_sub (s : State) : (modPort p f s).sub = s.sub := rfl
@[simp] theorem modPort_out (s : State) : (modPort p f s).out = s.out := rfl
@[simp] theorem modPort_setup (s : State) : (modPort p f s).setup = s.setup := rfl
@[simp] theorem modPort_shadow (s : State) : (modPort p f s).shadow = s.shadow := rfl
@[simp] theorem modPort_viol (s : State) : (modPort p f s).viol = s.viol := rfl
@[simp] theorem modPort_hiPcie (s : State) : (modPort p f s).hiPcie = s.hiPcie := rfl
@[simp] theorem modPort_hiWire (s : State) : (modPort p f s).hiWire = s.hiWire := rfl
@[simp] theorem modPort_straps (s : State) : (modPort p f s).straps = s.straps := rfl
@[simp] theorem modPort_pcie (s : State) : (modPort p f s).pcie = s.pcie := rfl
@[simp] theorem modPort_refOk (s : State) : (modPort p f s).refOk = s.refOk := rfl
@[simp] theorem modPort_hkoOk (s : State) : (modPort p f s).hkoOk = s.hkoOk := rfl
@[simp] theorem modPort_refLostAt (s : State) : (modPort p f s).refLostAt = s.refLostAt := rfl
@[simp] theorem modPort_pllAt (s : State) : (modPort p f s).pllAt = s.pllAt := rfl
@[simp] theorem modPort_rings (s : State) : (modPort p f s).rings = s.rings := rfl
@[simp] theorem modPort_evt (s : State) : (modPort p f s).evt = s.evt := rfl
@[simp] theorem modPort_tlm (s : State) : (modPort p f s).tlm = s.tlm := rfl
@[simp] theorem modPort_lmem (s : State) : (modPort p f s).lmem = s.lmem := rfl
@[simp] theorem modPort_cad (s : State) : (modPort p f s).cad = s.cad := rfl
@[simp] theorem modPort_lines (s : State) : (modPort p f s).lines = s.lines := rfl
@[simp] theorem modPort_hosts (s : State) : (modPort p f s).hosts = s.hosts := rfl
@[simp] theorem modPort_ports (s : State) : (modPort p f s).ports = upd s.ports p f := rfl
@[simp] theorem modPort_lineCtr (s : State) : (modPort p f s).lineCtr = s.lineCtr := rfl
@[simp] theorem modPort_hostCtr (s : State) : (modPort p f s).hostCtr = s.hostCtr := rfl
@[simp] theorem modPort_portCtr (s : State) : (modPort p f s).portCtr = s.portCtr := rfl
@[simp] theorem modPort_pmc (s : State) : (modPort p f s).pmc = s.pmc := rfl
@[simp] theorem modPort_mon (s : State) : (modPort p f s).mon = s.mon := rfl
@[simp] theorem modPort_comp (s : State) : (modPort p f s).comp = s.comp := rfl
@[simp] theorem modPort_thr (s : State) : (modPort p f s).thr = s.thr := rfl
@[simp] theorem modPort_therm (s : State) : (modPort p f s).therm = s.therm := rfl
@[simp] theorem modPort_cal (s : State) : (modPort p f s).cal = s.cal := rfl
@[simp] theorem modPort_arb (s : State) : (modPort p f s).arb = s.arb := rfl
@[simp] theorem modPort_chk (s : State) : (modPort p f s).chk = s.chk := rfl
@[simp] theorem modPort_tst (s : State) : (modPort p f s).tst = s.tst := rfl
@[simp] theorem modPort_rst (s : State) : (modPort p f s).rst = s.rst := rfl
@[simp] theorem modPort_saved (s : State) : (modPort p f s).saved = s.saved := rfl
@[simp] theorem modPort_ocp (s : State) : (modPort p f s).ocp = s.ocp := rfl
@[simp] theorem modPort_late (s : State) : (modPort p f s).late = s.late := rfl
@[simp] theorem modPort_cap (s : State) : (modPort p f s).cap = s.cap := rfl
@[simp] theorem modPort_scans (s : State) : (modPort p f s).scans = s.scans := rfl

/-! ### modMon -/

@[simp] theorem modMon_pending (s : State) : (modMon k f s).pending = s.pending := rfl
@[simp] theorem modMon_free (s : State) : (modMon k f s).free = s.free := rfl
@[simp] theorem modMon_clk (s : State) : (modMon k f s).clk = s.clk := rfl
@[simp] theorem modMon_sub (s : State) : (modMon k f s).sub = s.sub := rfl
@[simp] theorem modMon_out (s : State) : (modMon k f s).out = s.out := rfl
@[simp] theorem modMon_setup (s : State) : (modMon k f s).setup = s.setup := rfl
@[simp] theorem modMon_shadow (s : State) : (modMon k f s).shadow = s.shadow := rfl
@[simp] theorem modMon_viol (s : State) : (modMon k f s).viol = s.viol := rfl
@[simp] theorem modMon_hiPcie (s : State) : (modMon k f s).hiPcie = s.hiPcie := rfl
@[simp] theorem modMon_hiWire (s : State) : (modMon k f s).hiWire = s.hiWire := rfl
@[simp] theorem modMon_straps (s : State) : (modMon k f s).straps = s.straps := rfl
@[simp] theorem modMon_pcie (s : State) : (modMon k f s).pcie = s.pcie := rfl
@[simp] theorem modMon_refOk (s : State) : (modMon k f s).refOk = s.refOk := rfl
@[simp] theorem modMon_hkoOk (s : State) : (modMon k f s).hkoOk = s.hkoOk := rfl
@[simp] theorem modMon_refLostAt (s : State) : (modMon k f s).refLostAt = s.refLostAt := rfl
@[simp] theorem modMon_pllAt (s : State) : (modMon k f s).pllAt = s.pllAt := rfl
@[simp] theorem modMon_rings (s : State) : (modMon k f s).rings = s.rings := rfl
@[simp] theorem modMon_evt (s : State) : (modMon k f s).evt = s.evt := rfl
@[simp] theorem modMon_tlm (s : State) : (modMon k f s).tlm = s.tlm := rfl
@[simp] theorem modMon_lmem (s : State) : (modMon k f s).lmem = s.lmem := rfl
@[simp] theorem modMon_cad (s : State) : (modMon k f s).cad = s.cad := rfl
@[simp] theorem modMon_lines (s : State) : (modMon k f s).lines = s.lines := rfl
@[simp] theorem modMon_hosts (s : State) : (modMon k f s).hosts = s.hosts := rfl
@[simp] theorem modMon_ports (s : State) : (modMon k f s).ports = s.ports := rfl
@[simp] theorem modMon_lineCtr (s : State) : (modMon k f s).lineCtr = s.lineCtr := rfl
@[simp] theorem modMon_hostCtr (s : State) : (modMon k f s).hostCtr = s.hostCtr := rfl
@[simp] theorem modMon_portCtr (s : State) : (modMon k f s).portCtr = s.portCtr := rfl
@[simp] theorem modMon_pmc (s : State) : (modMon k f s).pmc = s.pmc := rfl
@[simp] theorem modMon_mon (s : State) : (modMon k f s).mon = upd s.mon k f := rfl
@[simp] theorem modMon_comp (s : State) : (modMon k f s).comp = s.comp := rfl
@[simp] theorem modMon_thr (s : State) : (modMon k f s).thr = s.thr := rfl
@[simp] theorem modMon_therm (s : State) : (modMon k f s).therm = s.therm := rfl
@[simp] theorem modMon_cal (s : State) : (modMon k f s).cal = s.cal := rfl
@[simp] theorem modMon_arb (s : State) : (modMon k f s).arb = s.arb := rfl
@[simp] theorem modMon_chk (s : State) : (modMon k f s).chk = s.chk := rfl
@[simp] theorem modMon_tst (s : State) : (modMon k f s).tst = s.tst := rfl
@[simp] theorem modMon_rst (s : State) : (modMon k f s).rst = s.rst := rfl
@[simp] theorem modMon_saved (s : State) : (modMon k f s).saved = s.saved := rfl
@[simp] theorem modMon_ocp (s : State) : (modMon k f s).ocp = s.ocp := rfl
@[simp] theorem modMon_late (s : State) : (modMon k f s).late = s.late := rfl
@[simp] theorem modMon_cap (s : State) : (modMon k f s).cap = s.cap := rfl
@[simp] theorem modMon_scans (s : State) : (modMon k f s).scans = s.scans := rfl

/-! ### modRx -/

@[simp] theorem modRx_pending (s : State) : (modRx n f s).pending = s.pending := rfl
@[simp] theorem modRx_free (s : State) : (modRx n f s).free = s.free := rfl
@[simp] theorem modRx_clk (s : State) : (modRx n f s).clk = s.clk := rfl
@[simp] theorem modRx_sub (s : State) : (modRx n f s).sub = s.sub := rfl
@[simp] theorem modRx_out (s : State) : (modRx n f s).out = s.out := rfl
@[simp] theorem modRx_setup (s : State) : (modRx n f s).setup = s.setup := rfl
@[simp] theorem modRx_shadow (s : State) : (modRx n f s).shadow = s.shadow := rfl
@[simp] theorem modRx_viol (s : State) : (modRx n f s).viol = s.viol := rfl
@[simp] theorem modRx_hiPcie (s : State) : (modRx n f s).hiPcie = s.hiPcie := rfl
@[simp] theorem modRx_hiWire (s : State) : (modRx n f s).hiWire = s.hiWire := rfl
@[simp] theorem modRx_straps (s : State) : (modRx n f s).straps = s.straps := rfl
@[simp] theorem modRx_pcie (s : State) : (modRx n f s).pcie = s.pcie := rfl
@[simp] theorem modRx_refOk (s : State) : (modRx n f s).refOk = s.refOk := rfl
@[simp] theorem modRx_hkoOk (s : State) : (modRx n f s).hkoOk = s.hkoOk := rfl
@[simp] theorem modRx_refLostAt (s : State) : (modRx n f s).refLostAt = s.refLostAt := rfl
@[simp] theorem modRx_pllAt (s : State) : (modRx n f s).pllAt = s.pllAt := rfl
@[simp] theorem modRx_rings (s : State) : (modRx n f s).rings = s.rings := rfl
@[simp] theorem modRx_evt (s : State) : (modRx n f s).evt = s.evt := rfl
@[simp] theorem modRx_tlm (s : State) : (modRx n f s).tlm = s.tlm := rfl
@[simp] theorem modRx_lmem (s : State) : (modRx n f s).lmem = s.lmem := rfl
@[simp] theorem modRx_cad (s : State) : (modRx n f s).cad = s.cad := rfl
@[simp] theorem modRx_lines (s : State) : (modRx n f s).lines = upd s.lines n fun l => { l with rx := f l.rx } := rfl
@[simp] theorem modRx_hosts (s : State) : (modRx n f s).hosts = s.hosts := rfl
@[simp] theorem modRx_ports (s : State) : (modRx n f s).ports = s.ports := rfl
@[simp] theorem modRx_lineCtr (s : State) : (modRx n f s).lineCtr = s.lineCtr := rfl
@[simp] theorem modRx_hostCtr (s : State) : (modRx n f s).hostCtr = s.hostCtr := rfl
@[simp] theorem modRx_portCtr (s : State) : (modRx n f s).portCtr = s.portCtr := rfl
@[simp] theorem modRx_pmc (s : State) : (modRx n f s).pmc = s.pmc := rfl
@[simp] theorem modRx_mon (s : State) : (modRx n f s).mon = s.mon := rfl
@[simp] theorem modRx_comp (s : State) : (modRx n f s).comp = s.comp := rfl
@[simp] theorem modRx_thr (s : State) : (modRx n f s).thr = s.thr := rfl
@[simp] theorem modRx_therm (s : State) : (modRx n f s).therm = s.therm := rfl
@[simp] theorem modRx_cal (s : State) : (modRx n f s).cal = s.cal := rfl
@[simp] theorem modRx_arb (s : State) : (modRx n f s).arb = s.arb := rfl
@[simp] theorem modRx_chk (s : State) : (modRx n f s).chk = s.chk := rfl
@[simp] theorem modRx_tst (s : State) : (modRx n f s).tst = s.tst := rfl
@[simp] theorem modRx_rst (s : State) : (modRx n f s).rst = s.rst := rfl
@[simp] theorem modRx_saved (s : State) : (modRx n f s).saved = s.saved := rfl
@[simp] theorem modRx_ocp (s : State) : (modRx n f s).ocp = s.ocp := rfl
@[simp] theorem modRx_late (s : State) : (modRx n f s).late = s.late := rfl
@[simp] theorem modRx_cap (s : State) : (modRx n f s).cap = s.cap := rfl
@[simp] theorem modRx_scans (s : State) : (modRx n f s).scans = s.scans := rfl

/-! ### modEq -/

@[simp] theorem modEq_pending (s : State) : (modEq n f s).pending = s.pending := rfl
@[simp] theorem modEq_free (s : State) : (modEq n f s).free = s.free := rfl
@[simp] theorem modEq_clk (s : State) : (modEq n f s).clk = s.clk := rfl
@[simp] theorem modEq_sub (s : State) : (modEq n f s).sub = s.sub := rfl
@[simp] theorem modEq_out (s : State) : (modEq n f s).out = s.out := rfl
@[simp] theorem modEq_setup (s : State) : (modEq n f s).setup = s.setup := rfl
@[simp] theorem modEq_shadow (s : State) : (modEq n f s).shadow = s.shadow := rfl
@[simp] theorem modEq_viol (s : State) : (modEq n f s).viol = s.viol := rfl
@[simp] theorem modEq_hiPcie (s : State) : (modEq n f s).hiPcie = s.hiPcie := rfl
@[simp] theorem modEq_hiWire (s : State) : (modEq n f s).hiWire = s.hiWire := rfl
@[simp] theorem modEq_straps (s : State) : (modEq n f s).straps = s.straps := rfl
@[simp] theorem modEq_pcie (s : State) : (modEq n f s).pcie = s.pcie := rfl
@[simp] theorem modEq_refOk (s : State) : (modEq n f s).refOk = s.refOk := rfl
@[simp] theorem modEq_hkoOk (s : State) : (modEq n f s).hkoOk = s.hkoOk := rfl
@[simp] theorem modEq_refLostAt (s : State) : (modEq n f s).refLostAt = s.refLostAt := rfl
@[simp] theorem modEq_pllAt (s : State) : (modEq n f s).pllAt = s.pllAt := rfl
@[simp] theorem modEq_rings (s : State) : (modEq n f s).rings = s.rings := rfl
@[simp] theorem modEq_evt (s : State) : (modEq n f s).evt = s.evt := rfl
@[simp] theorem modEq_tlm (s : State) : (modEq n f s).tlm = s.tlm := rfl
@[simp] theorem modEq_lmem (s : State) : (modEq n f s).lmem = s.lmem := rfl
@[simp] theorem modEq_cad (s : State) : (modEq n f s).cad = s.cad := rfl
@[simp] theorem modEq_lines (s : State) : (modEq n f s).lines = upd s.lines n fun l => { l with eq := f l.eq } := rfl
@[simp] theorem modEq_hosts (s : State) : (modEq n f s).hosts = s.hosts := rfl
@[simp] theorem modEq_ports (s : State) : (modEq n f s).ports = s.ports := rfl
@[simp] theorem modEq_lineCtr (s : State) : (modEq n f s).lineCtr = s.lineCtr := rfl
@[simp] theorem modEq_hostCtr (s : State) : (modEq n f s).hostCtr = s.hostCtr := rfl
@[simp] theorem modEq_portCtr (s : State) : (modEq n f s).portCtr = s.portCtr := rfl
@[simp] theorem modEq_pmc (s : State) : (modEq n f s).pmc = s.pmc := rfl
@[simp] theorem modEq_mon (s : State) : (modEq n f s).mon = s.mon := rfl
@[simp] theorem modEq_comp (s : State) : (modEq n f s).comp = s.comp := rfl
@[simp] theorem modEq_thr (s : State) : (modEq n f s).thr = s.thr := rfl
@[simp] theorem modEq_therm (s : State) : (modEq n f s).therm = s.therm := rfl
@[simp] theorem modEq_cal (s : State) : (modEq n f s).cal = s.cal := rfl
@[simp] theorem modEq_arb (s : State) : (modEq n f s).arb = s.arb := rfl
@[simp] theorem modEq_chk (s : State) : (modEq n f s).chk = s.chk := rfl
@[simp] theorem modEq_tst (s : State) : (modEq n f s).tst = s.tst := rfl
@[simp] theorem modEq_rst (s : State) : (modEq n f s).rst = s.rst := rfl
@[simp] theorem modEq_saved (s : State) : (modEq n f s).saved = s.saved := rfl
@[simp] theorem modEq_ocp (s : State) : (modEq n f s).ocp = s.ocp := rfl
@[simp] theorem modEq_late (s : State) : (modEq n f s).late = s.late := rfl
@[simp] theorem modEq_cap (s : State) : (modEq n f s).cap = s.cap := rfl
@[simp] theorem modEq_scans (s : State) : (modEq n f s).scans = s.scans := rfl

/-! ### modTx -/

@[simp] theorem modTx_pending (s : State) : (modTx n f s).pending = s.pending := rfl
@[simp] theorem modTx_free (s : State) : (modTx n f s).free = s.free := rfl
@[simp] theorem modTx_clk (s : State) : (modTx n f s).clk = s.clk := rfl
@[simp] theorem modTx_sub (s : State) : (modTx n f s).sub = s.sub := rfl
@[simp] theorem modTx_out (s : State) : (modTx n f s).out = s.out := rfl
@[simp] theorem modTx_setup (s : State) : (modTx n f s).setup = s.setup := rfl
@[simp] theorem modTx_shadow (s : State) : (modTx n f s).shadow = s.shadow := rfl
@[simp] theorem modTx_viol (s : State) : (modTx n f s).viol = s.viol := rfl
@[simp] theorem modTx_hiPcie (s : State) : (modTx n f s).hiPcie = s.hiPcie := rfl
@[simp] theorem modTx_hiWire (s : State) : (modTx n f s).hiWire = s.hiWire := rfl
@[simp] theorem modTx_straps (s : State) : (modTx n f s).straps = s.straps := rfl
@[simp] theorem modTx_pcie (s : State) : (modTx n f s).pcie = s.pcie := rfl
@[simp] theorem modTx_refOk (s : State) : (modTx n f s).refOk = s.refOk := rfl
@[simp] theorem modTx_hkoOk (s : State) : (modTx n f s).hkoOk = s.hkoOk := rfl
@[simp] theorem modTx_refLostAt (s : State) : (modTx n f s).refLostAt = s.refLostAt := rfl
@[simp] theorem modTx_pllAt (s : State) : (modTx n f s).pllAt = s.pllAt := rfl
@[simp] theorem modTx_rings (s : State) : (modTx n f s).rings = s.rings := rfl
@[simp] theorem modTx_evt (s : State) : (modTx n f s).evt = s.evt := rfl
@[simp] theorem modTx_tlm (s : State) : (modTx n f s).tlm = s.tlm := rfl
@[simp] theorem modTx_lmem (s : State) : (modTx n f s).lmem = s.lmem := rfl
@[simp] theorem modTx_cad (s : State) : (modTx n f s).cad = s.cad := rfl
@[simp] theorem modTx_lines (s : State) : (modTx n f s).lines = upd s.lines n fun l => { l with tx := f l.tx } := rfl
@[simp] theorem modTx_hosts (s : State) : (modTx n f s).hosts = s.hosts := rfl
@[simp] theorem modTx_ports (s : State) : (modTx n f s).ports = s.ports := rfl
@[simp] theorem modTx_lineCtr (s : State) : (modTx n f s).lineCtr = s.lineCtr := rfl
@[simp] theorem modTx_hostCtr (s : State) : (modTx n f s).hostCtr = s.hostCtr := rfl
@[simp] theorem modTx_portCtr (s : State) : (modTx n f s).portCtr = s.portCtr := rfl
@[simp] theorem modTx_pmc (s : State) : (modTx n f s).pmc = s.pmc := rfl
@[simp] theorem modTx_mon (s : State) : (modTx n f s).mon = s.mon := rfl
@[simp] theorem modTx_comp (s : State) : (modTx n f s).comp = s.comp := rfl
@[simp] theorem modTx_thr (s : State) : (modTx n f s).thr = s.thr := rfl
@[simp] theorem modTx_therm (s : State) : (modTx n f s).therm = s.therm := rfl
@[simp] theorem modTx_cal (s : State) : (modTx n f s).cal = s.cal := rfl
@[simp] theorem modTx_arb (s : State) : (modTx n f s).arb = s.arb := rfl
@[simp] theorem modTx_chk (s : State) : (modTx n f s).chk = s.chk := rfl
@[simp] theorem modTx_tst (s : State) : (modTx n f s).tst = s.tst := rfl
@[simp] theorem modTx_rst (s : State) : (modTx n f s).rst = s.rst := rfl
@[simp] theorem modTx_saved (s : State) : (modTx n f s).saved = s.saved := rfl
@[simp] theorem modTx_ocp (s : State) : (modTx n f s).ocp = s.ocp := rfl
@[simp] theorem modTx_late (s : State) : (modTx n f s).late = s.late := rfl
@[simp] theorem modTx_cap (s : State) : (modTx n f s).cap = s.cap := rfl
@[simp] theorem modTx_scans (s : State) : (modTx n f s).scans = s.scans := rfl

/-! ### modFr -/

@[simp] theorem modFr_pending (s : State) : (modFr n f s).pending = s.pending := rfl
@[simp] theorem modFr_free (s : State) : (modFr n f s).free = s.free := rfl
@[simp] theorem modFr_clk (s : State) : (modFr n f s).clk = s.clk := rfl
@[simp] theorem modFr_sub (s : State) : (modFr n f s).sub = s.sub := rfl
@[simp] theorem modFr_out (s : State) : (modFr n f s).out = s.out := rfl
@[simp] theorem modFr_setup (s : State) : (modFr n f s).setup = s.setup := rfl
@[simp] theorem modFr_shadow (s : State) : (modFr n f s).shadow = s.shadow := rfl
@[simp] theorem modFr_viol (s : State) : (modFr n f s).viol = s.viol := rfl
@[simp] theorem modFr_hiPcie (s : State) : (modFr n f s).hiPcie = s.hiPcie := rfl
@[simp] theorem modFr_hiWire (s : State) : (modFr n f s).hiWire = s.hiWire := rfl
@[simp] theorem modFr_straps (s : State) : (modFr n f s).straps = s.straps := rfl
@[simp] theorem modFr_pcie (s : State) : (modFr n f s).pcie = s.pcie := rfl
@[simp] theorem modFr_refOk (s : State) : (modFr n f s).refOk = s.refOk := rfl
@[simp] theorem modFr_hkoOk (s : State) : (modFr n f s).hkoOk = s.hkoOk := rfl
@[simp] theorem modFr_refLostAt (s : State) : (modFr n f s).refLostAt = s.refLostAt := rfl
@[simp] theorem modFr_pllAt (s : State) : (modFr n f s).pllAt = s.pllAt := rfl
@[simp] theorem modFr_rings (s : State) : (modFr n f s).rings = s.rings := rfl
@[simp] theorem modFr_evt (s : State) : (modFr n f s).evt = s.evt := rfl
@[simp] theorem modFr_tlm (s : State) : (modFr n f s).tlm = s.tlm := rfl
@[simp] theorem modFr_lmem (s : State) : (modFr n f s).lmem = s.lmem := rfl
@[simp] theorem modFr_cad (s : State) : (modFr n f s).cad = s.cad := rfl
@[simp] theorem modFr_lines (s : State) : (modFr n f s).lines = upd s.lines n fun l => { l with fr := f l.fr } := rfl
@[simp] theorem modFr_hosts (s : State) : (modFr n f s).hosts = s.hosts := rfl
@[simp] theorem modFr_ports (s : State) : (modFr n f s).ports = s.ports := rfl
@[simp] theorem modFr_lineCtr (s : State) : (modFr n f s).lineCtr = s.lineCtr := rfl
@[simp] theorem modFr_hostCtr (s : State) : (modFr n f s).hostCtr = s.hostCtr := rfl
@[simp] theorem modFr_portCtr (s : State) : (modFr n f s).portCtr = s.portCtr := rfl
@[simp] theorem modFr_pmc (s : State) : (modFr n f s).pmc = s.pmc := rfl
@[simp] theorem modFr_mon (s : State) : (modFr n f s).mon = s.mon := rfl
@[simp] theorem modFr_comp (s : State) : (modFr n f s).comp = s.comp := rfl
@[simp] theorem modFr_thr (s : State) : (modFr n f s).thr = s.thr := rfl
@[simp] theorem modFr_therm (s : State) : (modFr n f s).therm = s.therm := rfl
@[simp] theorem modFr_cal (s : State) : (modFr n f s).cal = s.cal := rfl
@[simp] theorem modFr_arb (s : State) : (modFr n f s).arb = s.arb := rfl
@[simp] theorem modFr_chk (s : State) : (modFr n f s).chk = s.chk := rfl
@[simp] theorem modFr_tst (s : State) : (modFr n f s).tst = s.tst := rfl
@[simp] theorem modFr_rst (s : State) : (modFr n f s).rst = s.rst := rfl
@[simp] theorem modFr_saved (s : State) : (modFr n f s).saved = s.saved := rfl
@[simp] theorem modFr_ocp (s : State) : (modFr n f s).ocp = s.ocp := rfl
@[simp] theorem modFr_late (s : State) : (modFr n f s).late = s.late := rfl
@[simp] theorem modFr_cap (s : State) : (modFr n f s).cap = s.cap := rfl
@[simp] theorem modFr_scans (s : State) : (modFr n f s).scans = s.scans := rfl

/-! ### modCad -/

@[simp] theorem modCad_pending (s : State) : (modCad f s).pending = s.pending := rfl
@[simp] theorem modCad_free (s : State) : (modCad f s).free = s.free := rfl
@[simp] theorem modCad_clk (s : State) : (modCad f s).clk = s.clk := rfl
@[simp] theorem modCad_sub (s : State) : (modCad f s).sub = s.sub := rfl
@[simp] theorem modCad_out (s : State) : (modCad f s).out = s.out := rfl
@[simp] theorem modCad_setup (s : State) : (modCad f s).setup = s.setup := rfl
@[simp] theorem modCad_shadow (s : State) : (modCad f s).shadow = s.shadow := rfl
@[simp] theorem modCad_viol (s : State) : (modCad f s).viol = s.viol := rfl
@[simp] theorem modCad_hiPcie (s : State) : (modCad f s).hiPcie = s.hiPcie := rfl
@[simp] theorem modCad_hiWire (s : State) : (modCad f s).hiWire = s.hiWire := rfl
@[simp] theorem modCad_straps (s : State) : (modCad f s).straps = s.straps := rfl
@[simp] theorem modCad_pcie (s : State) : (modCad f s).pcie = s.pcie := rfl
@[simp] theorem modCad_refOk (s : State) : (modCad f s).refOk = s.refOk := rfl
@[simp] theorem modCad_hkoOk (s : State) : (modCad f s).hkoOk = s.hkoOk := rfl
@[simp] theorem modCad_refLostAt (s : State) : (modCad f s).refLostAt = s.refLostAt := rfl
@[simp] theorem modCad_pllAt (s : State) : (modCad f s).pllAt = s.pllAt := rfl
@[simp] theorem modCad_rings (s : State) : (modCad f s).rings = s.rings := rfl
@[simp] theorem modCad_evt (s : State) : (modCad f s).evt = s.evt := rfl
@[simp] theorem modCad_tlm (s : State) : (modCad f s).tlm = s.tlm := rfl
@[simp] theorem modCad_lmem (s : State) : (modCad f s).lmem = s.lmem := rfl
@[simp] theorem modCad_cad (s : State) : (modCad f s).cad = f s.cad := rfl
@[simp] theorem modCad_lines (s : State) : (modCad f s).lines = s.lines := rfl
@[simp] theorem modCad_hosts (s : State) : (modCad f s).hosts = s.hosts := rfl
@[simp] theorem modCad_ports (s : State) : (modCad f s).ports = s.ports := rfl
@[simp] theorem modCad_lineCtr (s : State) : (modCad f s).lineCtr = s.lineCtr := rfl
@[simp] theorem modCad_hostCtr (s : State) : (modCad f s).hostCtr = s.hostCtr := rfl
@[simp] theorem modCad_portCtr (s : State) : (modCad f s).portCtr = s.portCtr := rfl
@[simp] theorem modCad_pmc (s : State) : (modCad f s).pmc = s.pmc := rfl
@[simp] theorem modCad_mon (s : State) : (modCad f s).mon = s.mon := rfl
@[simp] theorem modCad_comp (s : State) : (modCad f s).comp = s.comp := rfl
@[simp] theorem modCad_thr (s : State) : (modCad f s).thr = s.thr := rfl
@[simp] theorem modCad_therm (s : State) : (modCad f s).therm = s.therm := rfl
@[simp] theorem modCad_cal (s : State) : (modCad f s).cal = s.cal := rfl
@[simp] theorem modCad_arb (s : State) : (modCad f s).arb = s.arb := rfl
@[simp] theorem modCad_chk (s : State) : (modCad f s).chk = s.chk := rfl
@[simp] theorem modCad_tst (s : State) : (modCad f s).tst = s.tst := rfl
@[simp] theorem modCad_rst (s : State) : (modCad f s).rst = s.rst := rfl
@[simp] theorem modCad_saved (s : State) : (modCad f s).saved = s.saved := rfl
@[simp] theorem modCad_ocp (s : State) : (modCad f s).ocp = s.ocp := rfl
@[simp] theorem modCad_late (s : State) : (modCad f s).late = s.late := rfl
@[simp] theorem modCad_cap (s : State) : (modCad f s).cap = s.cap := rfl
@[simp] theorem modCad_scans (s : State) : (modCad f s).scans = s.scans := rfl

/-! ### modRst -/

@[simp] theorem modRst_pending (s : State) : (modRst f s).pending = s.pending := rfl
@[simp] theorem modRst_free (s : State) : (modRst f s).free = s.free := rfl
@[simp] theorem modRst_clk (s : State) : (modRst f s).clk = s.clk := rfl
@[simp] theorem modRst_sub (s : State) : (modRst f s).sub = s.sub := rfl
@[simp] theorem modRst_out (s : State) : (modRst f s).out = s.out := rfl
@[simp] theorem modRst_setup (s : State) : (modRst f s).setup = s.setup := rfl
@[simp] theorem modRst_shadow (s : State) : (modRst f s).shadow = s.shadow := rfl
@[simp] theorem modRst_viol (s : State) : (modRst f s).viol = s.viol := rfl
@[simp] theorem modRst_hiPcie (s : State) : (modRst f s).hiPcie = s.hiPcie := rfl
@[simp] theorem modRst_hiWire (s : State) : (modRst f s).hiWire = s.hiWire := rfl
@[simp] theorem modRst_straps (s : State) : (modRst f s).straps = s.straps := rfl
@[simp] theorem modRst_pcie (s : State) : (modRst f s).pcie = s.pcie := rfl
@[simp] theorem modRst_refOk (s : State) : (modRst f s).refOk = s.refOk := rfl
@[simp] theorem modRst_hkoOk (s : State) : (modRst f s).hkoOk = s.hkoOk := rfl
@[simp] theorem modRst_refLostAt (s : State) : (modRst f s).refLostAt = s.refLostAt := rfl
@[simp] theorem modRst_pllAt (s : State) : (modRst f s).pllAt = s.pllAt := rfl
@[simp] theorem modRst_rings (s : State) : (modRst f s).rings = s.rings := rfl
@[simp] theorem modRst_evt (s : State) : (modRst f s).evt = s.evt := rfl
@[simp] theorem modRst_tlm (s : State) : (modRst f s).tlm = s.tlm := rfl
@[simp] theorem modRst_lmem (s : State) : (modRst f s).lmem = s.lmem := rfl
@[simp] theorem modRst_cad (s : State) : (modRst f s).cad = s.cad := rfl
@[simp] theorem modRst_lines (s : State) : (modRst f s).lines = s.lines := rfl
@[simp] theorem modRst_hosts (s : State) : (modRst f s).hosts = s.hosts := rfl
@[simp] theorem modRst_ports (s : State) : (modRst f s).ports = s.ports := rfl
@[simp] theorem modRst_lineCtr (s : State) : (modRst f s).lineCtr = s.lineCtr := rfl
@[simp] theorem modRst_hostCtr (s : State) : (modRst f s).hostCtr = s.hostCtr := rfl
@[simp] theorem modRst_portCtr (s : State) : (modRst f s).portCtr = s.portCtr := rfl
@[simp] theorem modRst_pmc (s : State) : (modRst f s).pmc = s.pmc := rfl
@[simp] theorem modRst_mon (s : State) : (modRst f s).mon = s.mon := rfl
@[simp] theorem modRst_comp (s : State) : (modRst f s).comp = s.comp := rfl
@[simp] theorem modRst_thr (s : State) : (modRst f s).thr = s.thr := rfl
@[simp] theorem modRst_therm (s : State) : (modRst f s).therm = s.therm := rfl
@[simp] theorem modRst_cal (s : State) : (modRst f s).cal = s.cal := rfl
@[simp] theorem modRst_arb (s : State) : (modRst f s).arb = s.arb := rfl
@[simp] theorem modRst_chk (s : State) : (modRst f s).chk = s.chk := rfl
@[simp] theorem modRst_tst (s : State) : (modRst f s).tst = s.tst := rfl
@[simp] theorem modRst_rst (s : State) : (modRst f s).rst = f s.rst := rfl
@[simp] theorem modRst_saved (s : State) : (modRst f s).saved = s.saved := rfl
@[simp] theorem modRst_ocp (s : State) : (modRst f s).ocp = s.ocp := rfl
@[simp] theorem modRst_late (s : State) : (modRst f s).late = s.late := rfl
@[simp] theorem modRst_cap (s : State) : (modRst f s).cap = s.cap := rfl
@[simp] theorem modRst_scans (s : State) : (modRst f s).scans = s.scans := rfl

/-! ### modTst -/

@[simp] theorem modTst_pending (s : State) : (modTst f s).pending = s.pending := rfl
@[simp] theorem modTst_free (s : State) : (modTst f s).free = s.free := rfl
@[simp] theorem modTst_clk (s : State) : (modTst f s).clk = s.clk := rfl
@[simp] theorem modTst_sub (s : State) : (modTst f s).sub = s.sub := rfl
@[simp] theorem modTst_out (s : State) : (modTst f s).out = s.out := rfl
@[simp] theorem modTst_setup (s : State) : (modTst f s).setup = s.setup := rfl
@[simp] theorem modTst_shadow (s : State) : (modTst f s).shadow = s.shadow := rfl
@[simp] theorem modTst_viol (s : State) : (modTst f s).viol = s.viol := rfl
@[simp] theorem modTst_hiPcie (s : State) : (modTst f s).hiPcie = s.hiPcie := rfl
@[simp] theorem modTst_hiWire (s : State) : (modTst f s).hiWire = s.hiWire := rfl
@[simp] theorem modTst_straps (s : State) : (modTst f s).straps = s.straps := rfl
@[simp] theorem modTst_pcie (s : State) : (modTst f s).pcie = s.pcie := rfl
@[simp] theorem modTst_refOk (s : State) : (modTst f s).refOk = s.refOk := rfl
@[simp] theorem modTst_hkoOk (s : State) : (modTst f s).hkoOk = s.hkoOk := rfl
@[simp] theorem modTst_refLostAt (s : State) : (modTst f s).refLostAt = s.refLostAt := rfl
@[simp] theorem modTst_pllAt (s : State) : (modTst f s).pllAt = s.pllAt := rfl
@[simp] theorem modTst_rings (s : State) : (modTst f s).rings = s.rings := rfl
@[simp] theorem modTst_evt (s : State) : (modTst f s).evt = s.evt := rfl
@[simp] theorem modTst_tlm (s : State) : (modTst f s).tlm = s.tlm := rfl
@[simp] theorem modTst_lmem (s : State) : (modTst f s).lmem = s.lmem := rfl
@[simp] theorem modTst_cad (s : State) : (modTst f s).cad = s.cad := rfl
@[simp] theorem modTst_lines (s : State) : (modTst f s).lines = s.lines := rfl
@[simp] theorem modTst_hosts (s : State) : (modTst f s).hosts = s.hosts := rfl
@[simp] theorem modTst_ports (s : State) : (modTst f s).ports = s.ports := rfl
@[simp] theorem modTst_lineCtr (s : State) : (modTst f s).lineCtr = s.lineCtr := rfl
@[simp] theorem modTst_hostCtr (s : State) : (modTst f s).hostCtr = s.hostCtr := rfl
@[simp] theorem modTst_portCtr (s : State) : (modTst f s).portCtr = s.portCtr := rfl
@[simp] theorem modTst_pmc (s : State) : (modTst f s).pmc = s.pmc := rfl
@[simp] theorem modTst_mon (s : State) : (modTst f s).mon = s.mon := rfl
@[simp] theorem modTst_comp (s : State) : (modTst f s).comp = s.comp := rfl
@[simp] theorem modTst_thr (s : State) : (modTst f s).thr = s.thr := rfl
@[simp] theorem modTst_therm (s : State) : (modTst f s).therm = s.therm := rfl
@[simp] theorem modTst_cal (s : State) : (modTst f s).cal = s.cal := rfl
@[simp] theorem modTst_arb (s : State) : (modTst f s).arb = s.arb := rfl
@[simp] theorem modTst_chk (s : State) : (modTst f s).chk = s.chk := rfl
@[simp] theorem modTst_tst (s : State) : (modTst f s).tst = f s.tst := rfl
@[simp] theorem modTst_rst (s : State) : (modTst f s).rst = s.rst := rfl
@[simp] theorem modTst_saved (s : State) : (modTst f s).saved = s.saved := rfl
@[simp] theorem modTst_ocp (s : State) : (modTst f s).ocp = s.ocp := rfl
@[simp] theorem modTst_late (s : State) : (modTst f s).late = s.late := rfl
@[simp] theorem modTst_cap (s : State) : (modTst f s).cap = s.cap := rfl
@[simp] theorem modTst_scans (s : State) : (modTst f s).scans = s.scans := rfl

/-! ### modCal -/

@[simp] theorem modCal_pending (s : State) : (modCal f s).pending = s.pending := rfl
@[simp] theorem modCal_free (s : State) : (modCal f s).free = s.free := rfl
@[simp] theorem modCal_clk (s : State) : (modCal f s).clk = s.clk := rfl
@[simp] theorem modCal_sub (s : State) : (modCal f s).sub = s.sub := rfl
@[simp] theorem modCal_out (s : State) : (modCal f s).out = s.out := rfl
@[simp] theorem modCal_setup (s : State) : (modCal f s).setup = s.setup := rfl
@[simp] theorem modCal_shadow (s : State) : (modCal f s).shadow = s.shadow := rfl
@[simp] theorem modCal_viol (s : State) : (modCal f s).viol = s.viol := rfl
@[simp] theorem modCal_hiPcie (s : State) : (modCal f s).hiPcie = s.hiPcie := rfl
@[simp] theorem modCal_hiWire (s : State) : (modCal f s).hiWire = s.hiWire := rfl
@[simp] theorem modCal_straps (s : State) : (modCal f s).straps = s.straps := rfl
@[simp] theorem modCal_pcie (s : State) : (modCal f s).pcie = s.pcie := rfl
@[simp] theorem modCal_refOk (s : State) : (modCal f s).refOk = s.refOk := rfl
@[simp] theorem modCal_hkoOk (s : State) : (modCal f s).hkoOk = s.hkoOk := rfl
@[simp] theorem modCal_refLostAt (s : State) : (modCal f s).refLostAt = s.refLostAt := rfl
@[simp] theorem modCal_pllAt (s : State) : (modCal f s).pllAt = s.pllAt := rfl
@[simp] theorem modCal_rings (s : State) : (modCal f s).rings = s.rings := rfl
@[simp] theorem modCal_evt (s : State) : (modCal f s).evt = s.evt := rfl
@[simp] theorem modCal_tlm (s : State) : (modCal f s).tlm = s.tlm := rfl
@[simp] theorem modCal_lmem (s : State) : (modCal f s).lmem = s.lmem := rfl
@[simp] theorem modCal_cad (s : State) : (modCal f s).cad = s.cad := rfl
@[simp] theorem modCal_lines (s : State) : (modCal f s).lines = s.lines := rfl
@[simp] theorem modCal_hosts (s : State) : (modCal f s).hosts = s.hosts := rfl
@[simp] theorem modCal_ports (s : State) : (modCal f s).ports = s.ports := rfl
@[simp] theorem modCal_lineCtr (s : State) : (modCal f s).lineCtr = s.lineCtr := rfl
@[simp] theorem modCal_hostCtr (s : State) : (modCal f s).hostCtr = s.hostCtr := rfl
@[simp] theorem modCal_portCtr (s : State) : (modCal f s).portCtr = s.portCtr := rfl
@[simp] theorem modCal_pmc (s : State) : (modCal f s).pmc = s.pmc := rfl
@[simp] theorem modCal_mon (s : State) : (modCal f s).mon = s.mon := rfl
@[simp] theorem modCal_comp (s : State) : (modCal f s).comp = s.comp := rfl
@[simp] theorem modCal_thr (s : State) : (modCal f s).thr = s.thr := rfl
@[simp] theorem modCal_therm (s : State) : (modCal f s).therm = s.therm := rfl
@[simp] theorem modCal_cal (s : State) : (modCal f s).cal = f s.cal := rfl
@[simp] theorem modCal_arb (s : State) : (modCal f s).arb = s.arb := rfl
@[simp] theorem modCal_chk (s : State) : (modCal f s).chk = s.chk := rfl
@[simp] theorem modCal_tst (s : State) : (modCal f s).tst = s.tst := rfl
@[simp] theorem modCal_rst (s : State) : (modCal f s).rst = s.rst := rfl
@[simp] theorem modCal_saved (s : State) : (modCal f s).saved = s.saved := rfl
@[simp] theorem modCal_ocp (s : State) : (modCal f s).ocp = s.ocp := rfl
@[simp] theorem modCal_late (s : State) : (modCal f s).late = s.late := rfl
@[simp] theorem modCal_cap (s : State) : (modCal f s).cap = s.cap := rfl
@[simp] theorem modCal_scans (s : State) : (modCal f s).scans = s.scans := rfl

/-! ### modChk -/

@[simp] theorem modChk_pending (s : State) : (modChk f s).pending = s.pending := rfl
@[simp] theorem modChk_free (s : State) : (modChk f s).free = s.free := rfl
@[simp] theorem modChk_clk (s : State) : (modChk f s).clk = s.clk := rfl
@[simp] theorem modChk_sub (s : State) : (modChk f s).sub = s.sub := rfl
@[simp] theorem modChk_out (s : State) : (modChk f s).out = s.out := rfl
@[simp] theorem modChk_setup (s : State) : (modChk f s).setup = s.setup := rfl
@[simp] theorem modChk_shadow (s : State) : (modChk f s).shadow = s.shadow := rfl
@[simp] theorem modChk_viol (s : State) : (modChk f s).viol = s.viol := rfl
@[simp] theorem modChk_hiPcie (s : State) : (modChk f s).hiPcie = s.hiPcie := rfl
@[simp] theorem modChk_hiWire (s : State) : (modChk f s).hiWire = s.hiWire := rfl
@[simp] theorem modChk_straps (s : State) : (modChk f s).straps = s.straps := rfl
@[simp] theorem modChk_pcie (s : State) : (modChk f s).pcie = s.pcie := rfl
@[simp] theorem modChk_refOk (s : State) : (modChk f s).refOk = s.refOk := rfl
@[simp] theorem modChk_hkoOk (s : State) : (modChk f s).hkoOk = s.hkoOk := rfl
@[simp] theorem modChk_refLostAt (s : State) : (modChk f s).refLostAt = s.refLostAt := rfl
@[simp] theorem modChk_pllAt (s : State) : (modChk f s).pllAt = s.pllAt := rfl
@[simp] theorem modChk_rings (s : State) : (modChk f s).rings = s.rings := rfl
@[simp] theorem modChk_evt (s : State) : (modChk f s).evt = s.evt := rfl
@[simp] theorem modChk_tlm (s : State) : (modChk f s).tlm = s.tlm := rfl
@[simp] theorem modChk_lmem (s : State) : (modChk f s).lmem = s.lmem := rfl
@[simp] theorem modChk_cad (s : State) : (modChk f s).cad = s.cad := rfl
@[simp] theorem modChk_lines (s : State) : (modChk f s).lines = s.lines := rfl
@[simp] theorem modChk_hosts (s : State) : (modChk f s).hosts = s.hosts := rfl
@[simp] theorem modChk_ports (s : State) : (modChk f s).ports = s.ports := rfl
@[simp] theorem modChk_lineCtr (s : State) : (modChk f s).lineCtr = s.lineCtr := rfl
@[simp] theorem modChk_hostCtr (s : State) : (modChk f s).hostCtr = s.hostCtr := rfl
@[simp] theorem modChk_portCtr (s : State) : (modChk f s).portCtr = s.portCtr := rfl
@[simp] theorem modChk_pmc (s : State) : (modChk f s).pmc = s.pmc := rfl
@[simp] theorem modChk_mon (s : State) : (modChk f s).mon = s.mon := rfl
@[simp] theorem modChk_comp (s : State) : (modChk f s).comp = s.comp := rfl
@[simp] theorem modChk_thr (s : State) : (modChk f s).thr = s.thr := rfl
@[simp] theorem modChk_therm (s : State) : (modChk f s).therm = s.therm := rfl
@[simp] theorem modChk_cal (s : State) : (modChk f s).cal = s.cal := rfl
@[simp] theorem modChk_arb (s : State) : (modChk f s).arb = s.arb := rfl
@[simp] theorem modChk_chk (s : State) : (modChk f s).chk = f s.chk := rfl
@[simp] theorem modChk_tst (s : State) : (modChk f s).tst = s.tst := rfl
@[simp] theorem modChk_rst (s : State) : (modChk f s).rst = s.rst := rfl
@[simp] theorem modChk_saved (s : State) : (modChk f s).saved = s.saved := rfl
@[simp] theorem modChk_ocp (s : State) : (modChk f s).ocp = s.ocp := rfl
@[simp] theorem modChk_late (s : State) : (modChk f s).late = s.late := rfl
@[simp] theorem modChk_cap (s : State) : (modChk f s).cap = s.cap := rfl
@[simp] theorem modChk_scans (s : State) : (modChk f s).scans = s.scans := rfl

/-! ### modTherm -/

@[simp] theorem modTherm_pending (s : State) : (modTherm f s).pending = s.pending := rfl
@[simp] theorem modTherm_free (s : State) : (modTherm f s).free = s.free := rfl
@[simp] theorem modTherm_clk (s : State) : (modTherm f s).clk = s.clk := rfl
@[simp] theorem modTherm_sub (s : State) : (modTherm f s).sub = s.sub := rfl
@[simp] theorem modTherm_out (s : State) : (modTherm f s).out = s.out := rfl
@[simp] theorem modTherm_setup (s : State) : (modTherm f s).setup = s.setup := rfl
@[simp] theorem modTherm_shadow (s : State) : (modTherm f s).shadow = s.shadow := rfl
@[simp] theorem modTherm_viol (s : State) : (modTherm f s).viol = s.viol := rfl
@[simp] theorem modTherm_hiPcie (s : State) : (modTherm f s).hiPcie = s.hiPcie := rfl
@[simp] theorem modTherm_hiWire (s : State) : (modTherm f s).hiWire = s.hiWire := rfl
@[simp] theorem modTherm_straps (s : State) : (modTherm f s).straps = s.straps := rfl
@[simp] theorem modTherm_pcie (s : State) : (modTherm f s).pcie = s.pcie := rfl
@[simp] theorem modTherm_refOk (s : State) : (modTherm f s).refOk = s.refOk := rfl
@[simp] theorem modTherm_hkoOk (s : State) : (modTherm f s).hkoOk = s.hkoOk := rfl
@[simp] theorem modTherm_refLostAt (s : State) : (modTherm f s).refLostAt = s.refLostAt := rfl
@[simp] theorem modTherm_pllAt (s : State) : (modTherm f s).pllAt = s.pllAt := rfl
@[simp] theorem modTherm_rings (s : State) : (modTherm f s).rings = s.rings := rfl
@[simp] theorem modTherm_evt (s : State) : (modTherm f s).evt = s.evt := rfl
@[simp] theorem modTherm_tlm (s : State) : (modTherm f s).tlm = s.tlm := rfl
@[simp] theorem modTherm_lmem (s : State) : (modTherm f s).lmem = s.lmem := rfl
@[simp] theorem modTherm_cad (s : State) : (modTherm f s).cad = s.cad := rfl
@[simp] theorem modTherm_lines (s : State) : (modTherm f s).lines = s.lines := rfl
@[simp] theorem modTherm_hosts (s : State) : (modTherm f s).hosts = s.hosts := rfl
@[simp] theorem modTherm_ports (s : State) : (modTherm f s).ports = s.ports := rfl
@[simp] theorem modTherm_lineCtr (s : State) : (modTherm f s).lineCtr = s.lineCtr := rfl
@[simp] theorem modTherm_hostCtr (s : State) : (modTherm f s).hostCtr = s.hostCtr := rfl
@[simp] theorem modTherm_portCtr (s : State) : (modTherm f s).portCtr = s.portCtr := rfl
@[simp] theorem modTherm_pmc (s : State) : (modTherm f s).pmc = s.pmc := rfl
@[simp] theorem modTherm_mon (s : State) : (modTherm f s).mon = s.mon := rfl
@[simp] theorem modTherm_comp (s : State) : (modTherm f s).comp = s.comp := rfl
@[simp] theorem modTherm_thr (s : State) : (modTherm f s).thr = s.thr := rfl
@[simp] theorem modTherm_therm (s : State) : (modTherm f s).therm = f s.therm := rfl
@[simp] theorem modTherm_cal (s : State) : (modTherm f s).cal = s.cal := rfl
@[simp] theorem modTherm_arb (s : State) : (modTherm f s).arb = s.arb := rfl
@[simp] theorem modTherm_chk (s : State) : (modTherm f s).chk = s.chk := rfl
@[simp] theorem modTherm_tst (s : State) : (modTherm f s).tst = s.tst := rfl
@[simp] theorem modTherm_rst (s : State) : (modTherm f s).rst = s.rst := rfl
@[simp] theorem modTherm_saved (s : State) : (modTherm f s).saved = s.saved := rfl
@[simp] theorem modTherm_ocp (s : State) : (modTherm f s).ocp = s.ocp := rfl
@[simp] theorem modTherm_late (s : State) : (modTherm f s).late = s.late := rfl
@[simp] theorem modTherm_cap (s : State) : (modTherm f s).cap = s.cap := rfl
@[simp] theorem modTherm_scans (s : State) : (modTherm f s).scans = s.scans := rfl

/-! ### modRings -/

@[simp] theorem modRings_pending (s : State) : (modRings f s).pending = s.pending := rfl
@[simp] theorem modRings_free (s : State) : (modRings f s).free = s.free := rfl
@[simp] theorem modRings_clk (s : State) : (modRings f s).clk = s.clk := rfl
@[simp] theorem modRings_sub (s : State) : (modRings f s).sub = s.sub := rfl
@[simp] theorem modRings_out (s : State) : (modRings f s).out = s.out := rfl
@[simp] theorem modRings_setup (s : State) : (modRings f s).setup = s.setup := rfl
@[simp] theorem modRings_shadow (s : State) : (modRings f s).shadow = s.shadow := rfl
@[simp] theorem modRings_viol (s : State) : (modRings f s).viol = s.viol := rfl
@[simp] theorem modRings_hiPcie (s : State) : (modRings f s).hiPcie = s.hiPcie := rfl
@[simp] theorem modRings_hiWire (s : State) : (modRings f s).hiWire = s.hiWire := rfl
@[simp] theorem modRings_straps (s : State) : (modRings f s).straps = s.straps := rfl
@[simp] theorem modRings_pcie (s : State) : (modRings f s).pcie = s.pcie := rfl
@[simp] theorem modRings_refOk (s : State) : (modRings f s).refOk = s.refOk := rfl
@[simp] theorem modRings_hkoOk (s : State) : (modRings f s).hkoOk = s.hkoOk := rfl
@[simp] theorem modRings_refLostAt (s : State) : (modRings f s).refLostAt = s.refLostAt := rfl
@[simp] theorem modRings_pllAt (s : State) : (modRings f s).pllAt = s.pllAt := rfl
@[simp] theorem modRings_rings (s : State) : (modRings f s).rings = f s.rings := rfl
@[simp] theorem modRings_evt (s : State) : (modRings f s).evt = s.evt := rfl
@[simp] theorem modRings_tlm (s : State) : (modRings f s).tlm = s.tlm := rfl
@[simp] theorem modRings_lmem (s : State) : (modRings f s).lmem = s.lmem := rfl
@[simp] theorem modRings_cad (s : State) : (modRings f s).cad = s.cad := rfl
@[simp] theorem modRings_lines (s : State) : (modRings f s).lines = s.lines := rfl
@[simp] theorem modRings_hosts (s : State) : (modRings f s).hosts = s.hosts := rfl
@[simp] theorem modRings_ports (s : State) : (modRings f s).ports = s.ports := rfl
@[simp] theorem modRings_lineCtr (s : State) : (modRings f s).lineCtr = s.lineCtr := rfl
@[simp] theorem modRings_hostCtr (s : State) : (modRings f s).hostCtr = s.hostCtr := rfl
@[simp] theorem modRings_portCtr (s : State) : (modRings f s).portCtr = s.portCtr := rfl
@[simp] theorem modRings_pmc (s : State) : (modRings f s).pmc = s.pmc := rfl
@[simp] theorem modRings_mon (s : State) : (modRings f s).mon = s.mon := rfl
@[simp] theorem modRings_comp (s : State) : (modRings f s).comp = s.comp := rfl
@[simp] theorem modRings_thr (s : State) : (modRings f s).thr = s.thr := rfl
@[simp] theorem modRings_therm (s : State) : (modRings f s).therm = s.therm := rfl
@[simp] theorem modRings_cal (s : State) : (modRings f s).cal = s.cal := rfl
@[simp] theorem modRings_arb (s : State) : (modRings f s).arb = s.arb := rfl
@[simp] theorem modRings_chk (s : State) : (modRings f s).chk = s.chk := rfl
@[simp] theorem modRings_tst (s : State) : (modRings f s).tst = s.tst := rfl
@[simp] theorem modRings_rst (s : State) : (modRings f s).rst = s.rst := rfl
@[simp] theorem modRings_saved (s : State) : (modRings f s).saved = s.saved := rfl
@[simp] theorem modRings_ocp (s : State) : (modRings f s).ocp = s.ocp := rfl
@[simp] theorem modRings_late (s : State) : (modRings f s).late = s.late := rfl
@[simp] theorem modRings_cap (s : State) : (modRings f s).cap = s.cap := rfl
@[simp] theorem modRings_scans (s : State) : (modRings f s).scans = s.scans := rfl

/-! ### modLink -/

@[simp] theorem modLink_pending (s : State) : (modLink k f s).pending = s.pending := rfl
@[simp] theorem modLink_free (s : State) : (modLink k f s).free = s.free := rfl
@[simp] theorem modLink_clk (s : State) : (modLink k f s).clk = s.clk := rfl
@[simp] theorem modLink_sub (s : State) : (modLink k f s).sub = s.sub := rfl
@[simp] theorem modLink_out (s : State) : (modLink k f s).out = s.out := rfl
@[simp] theorem modLink_setup (s : State) : (modLink k f s).setup = s.setup := rfl
@[simp] theorem modLink_shadow (s : State) : (modLink k f s).shadow = s.shadow := rfl
@[simp] theorem modLink_viol (s : State) : (modLink k f s).viol = s.viol := rfl
@[simp] theorem modLink_hiPcie (s : State) : (modLink k f s).hiPcie = s.hiPcie := rfl
@[simp] theorem modLink_hiWire (s : State) : (modLink k f s).hiWire = s.hiWire := rfl
@[simp] theorem modLink_straps (s : State) : (modLink k f s).straps = s.straps := rfl
@[simp] theorem modLink_pcie (s : State) : (modLink k f s).pcie = s.pcie := rfl
@[simp] theorem modLink_refOk (s : State) : (modLink k f s).refOk = s.refOk := rfl
@[simp] theorem modLink_hkoOk (s : State) : (modLink k f s).hkoOk = s.hkoOk := rfl
@[simp] theorem modLink_refLostAt (s : State) : (modLink k f s).refLostAt = s.refLostAt := rfl
@[simp] theorem modLink_pllAt (s : State) : (modLink k f s).pllAt = s.pllAt := rfl
@[simp] theorem modLink_rings (s : State) : (modLink k f s).rings = s.rings := rfl
@[simp] theorem modLink_evt (s : State) : (modLink k f s).evt = s.evt := rfl
@[simp] theorem modLink_tlm (s : State) : (modLink k f s).tlm = s.tlm := rfl
@[simp] theorem modLink_lmem (s : State) : (modLink k f s).lmem = s.lmem := rfl
@[simp] theorem modLink_cad (s : State) : (modLink k f s).cad = { s.cad with links := upd s.cad.links k f } := rfl
@[simp] theorem modLink_lines (s : State) : (modLink k f s).lines = s.lines := rfl
@[simp] theorem modLink_hosts (s : State) : (modLink k f s).hosts = s.hosts := rfl
@[simp] theorem modLink_ports (s : State) : (modLink k f s).ports = s.ports := rfl
@[simp] theorem modLink_lineCtr (s : State) : (modLink k f s).lineCtr = s.lineCtr := rfl
@[simp] theorem modLink_hostCtr (s : State) : (modLink k f s).hostCtr = s.hostCtr := rfl
@[simp] theorem modLink_portCtr (s : State) : (modLink k f s).portCtr = s.portCtr := rfl
@[simp] theorem modLink_pmc (s : State) : (modLink k f s).pmc = s.pmc := rfl
@[simp] theorem modLink_mon (s : State) : (modLink k f s).mon = s.mon := rfl
@[simp] theorem modLink_comp (s : State) : (modLink k f s).comp = s.comp := rfl
@[simp] theorem modLink_thr (s : State) : (modLink k f s).thr = s.thr := rfl
@[simp] theorem modLink_therm (s : State) : (modLink k f s).therm = s.therm := rfl
@[simp] theorem modLink_cal (s : State) : (modLink k f s).cal = s.cal := rfl
@[simp] theorem modLink_arb (s : State) : (modLink k f s).arb = s.arb := rfl
@[simp] theorem modLink_chk (s : State) : (modLink k f s).chk = s.chk := rfl
@[simp] theorem modLink_tst (s : State) : (modLink k f s).tst = s.tst := rfl
@[simp] theorem modLink_rst (s : State) : (modLink k f s).rst = s.rst := rfl
@[simp] theorem modLink_saved (s : State) : (modLink k f s).saved = s.saved := rfl
@[simp] theorem modLink_ocp (s : State) : (modLink k f s).ocp = s.ocp := rfl
@[simp] theorem modLink_late (s : State) : (modLink k f s).late = s.late := rfl
@[simp] theorem modLink_cap (s : State) : (modLink k f s).cap = s.cap := rfl
@[simp] theorem modLink_scans (s : State) : (modLink k f s).scans = s.scans := rfl

/-! ### modSlot -/

@[simp] theorem modSlot_pending (s : State) : (modSlot i f s).pending = s.pending := rfl
@[simp] theorem modSlot_free (s : State) : (modSlot i f s).free = s.free := rfl
@[simp] theorem modSlot_clk (s : State) : (modSlot i f s).clk = s.clk := rfl
@[simp] theorem modSlot_sub (s : State) : (modSlot i f s).sub = s.sub := rfl
@[simp] theorem modSlot_out (s : State) : (modSlot i f s).out = s.out := rfl
@[simp] theorem modSlot_setup (s : State) : (modSlot i f s).setup = s.setup := rfl
@[simp] theorem modSlot_shadow (s : State) : (modSlot i f s).shadow = s.shadow := rfl
@[simp] theorem modSlot_viol (s : State) : (modSlot i f s).viol = s.viol := rfl
@[simp] theorem modSlot_hiPcie (s : State) : (modSlot i f s).hiPcie = s.hiPcie := rfl
@[simp] theorem modSlot_hiWire (s : State) : (modSlot i f s).hiWire = s.hiWire := rfl
@[simp] theorem modSlot_straps (s : State) : (modSlot i f s).straps = s.straps := rfl
@[simp] theorem modSlot_pcie (s : State) : (modSlot i f s).pcie = s.pcie := rfl
@[simp] theorem modSlot_refOk (s : State) : (modSlot i f s).refOk = s.refOk := rfl
@[simp] theorem modSlot_hkoOk (s : State) : (modSlot i f s).hkoOk = s.hkoOk := rfl
@[simp] theorem modSlot_refLostAt (s : State) : (modSlot i f s).refLostAt = s.refLostAt := rfl
@[simp] theorem modSlot_pllAt (s : State) : (modSlot i f s).pllAt = s.pllAt := rfl
@[simp] theorem modSlot_rings (s : State) : (modSlot i f s).rings = s.rings := rfl
@[simp] theorem modSlot_evt (s : State) : (modSlot i f s).evt = s.evt := rfl
@[simp] theorem modSlot_tlm (s : State) : (modSlot i f s).tlm = s.tlm := rfl
@[simp] theorem modSlot_lmem (s : State) : (modSlot i f s).lmem = s.lmem := rfl
@[simp] theorem modSlot_cad (s : State) : (modSlot i f s).cad = { s.cad with slots := upd s.cad.slots i f } := rfl
@[simp] theorem modSlot_lines (s : State) : (modSlot i f s).lines = s.lines := rfl
@[simp] theorem modSlot_hosts (s : State) : (modSlot i f s).hosts = s.hosts := rfl
@[simp] theorem modSlot_ports (s : State) : (modSlot i f s).ports = s.ports := rfl
@[simp] theorem modSlot_lineCtr (s : State) : (modSlot i f s).lineCtr = s.lineCtr := rfl
@[simp] theorem modSlot_hostCtr (s : State) : (modSlot i f s).hostCtr = s.hostCtr := rfl
@[simp] theorem modSlot_portCtr (s : State) : (modSlot i f s).portCtr = s.portCtr := rfl
@[simp] theorem modSlot_pmc (s : State) : (modSlot i f s).pmc = s.pmc := rfl
@[simp] theorem modSlot_mon (s : State) : (modSlot i f s).mon = s.mon := rfl
@[simp] theorem modSlot_comp (s : State) : (modSlot i f s).comp = s.comp := rfl
@[simp] theorem modSlot_thr (s : State) : (modSlot i f s).thr = s.thr := rfl
@[simp] theorem modSlot_therm (s : State) : (modSlot i f s).therm = s.therm := rfl
@[simp] theorem modSlot_cal (s : State) : (modSlot i f s).cal = s.cal := rfl
@[simp] theorem modSlot_arb (s : State) : (modSlot i f s).arb = s.arb := rfl
@[simp] theorem modSlot_chk (s : State) : (modSlot i f s).chk = s.chk := rfl
@[simp] theorem modSlot_tst (s : State) : (modSlot i f s).tst = s.tst := rfl
@[simp] theorem modSlot_rst (s : State) : (modSlot i f s).rst = s.rst := rfl
@[simp] theorem modSlot_saved (s : State) : (modSlot i f s).saved = s.saved := rfl
@[simp] theorem modSlot_ocp (s : State) : (modSlot i f s).ocp = s.ocp := rfl
@[simp] theorem modSlot_late (s : State) : (modSlot i f s).late = s.late := rfl
@[simp] theorem modSlot_cap (s : State) : (modSlot i f s).cap = s.cap := rfl
@[simp] theorem modSlot_scans (s : State) : (modSlot i f s).scans = s.scans := rfl

/-! ### modSens -/

@[simp] theorem modSens_pending (s : State) : (modSens i f s).pending = s.pending := rfl
@[simp] theorem modSens_free (s : State) : (modSens i f s).free = s.free := rfl
@[simp] theorem modSens_clk (s : State) : (modSens i f s).clk = s.clk := rfl
@[simp] theorem modSens_sub (s : State) : (modSens i f s).sub = s.sub := rfl
@[simp] theorem modSens_out (s : State) : (modSens i f s).out = s.out := rfl
@[simp] theorem modSens_setup (s : State) : (modSens i f s).setup = s.setup := rfl
@[simp] theorem modSens_shadow (s : State) : (modSens i f s).shadow = s.shadow := rfl
@[simp] theorem modSens_viol (s : State) : (modSens i f s).viol = s.viol := rfl
@[simp] theorem modSens_hiPcie (s : State) : (modSens i f s).hiPcie = s.hiPcie := rfl
@[simp] theorem modSens_hiWire (s : State) : (modSens i f s).hiWire = s.hiWire := rfl
@[simp] theorem modSens_straps (s : State) : (modSens i f s).straps = s.straps := rfl
@[simp] theorem modSens_pcie (s : State) : (modSens i f s).pcie = s.pcie := rfl
@[simp] theorem modSens_refOk (s : State) : (modSens i f s).refOk = s.refOk := rfl
@[simp] theorem modSens_hkoOk (s : State) : (modSens i f s).hkoOk = s.hkoOk := rfl
@[simp] theorem modSens_refLostAt (s : State) : (modSens i f s).refLostAt = s.refLostAt := rfl
@[simp] theorem modSens_pllAt (s : State) : (modSens i f s).pllAt = s.pllAt := rfl
@[simp] theorem modSens_rings (s : State) : (modSens i f s).rings = s.rings := rfl
@[simp] theorem modSens_evt (s : State) : (modSens i f s).evt = s.evt := rfl
@[simp] theorem modSens_tlm (s : State) : (modSens i f s).tlm = s.tlm := rfl
@[simp] theorem modSens_lmem (s : State) : (modSens i f s).lmem = s.lmem := rfl
@[simp] theorem modSens_cad (s : State) : (modSens i f s).cad = s.cad := rfl
@[simp] theorem modSens_lines (s : State) : (modSens i f s).lines = s.lines := rfl
@[simp] theorem modSens_hosts (s : State) : (modSens i f s).hosts = s.hosts := rfl
@[simp] theorem modSens_ports (s : State) : (modSens i f s).ports = s.ports := rfl
@[simp] theorem modSens_lineCtr (s : State) : (modSens i f s).lineCtr = s.lineCtr := rfl
@[simp] theorem modSens_hostCtr (s : State) : (modSens i f s).hostCtr = s.hostCtr := rfl
@[simp] theorem modSens_portCtr (s : State) : (modSens i f s).portCtr = s.portCtr := rfl
@[simp] theorem modSens_pmc (s : State) : (modSens i f s).pmc = s.pmc := rfl
@[simp] theorem modSens_mon (s : State) : (modSens i f s).mon = s.mon := rfl
@[simp] theorem modSens_comp (s : State) : (modSens i f s).comp = s.comp := rfl
@[simp] theorem modSens_thr (s : State) : (modSens i f s).thr = s.thr := rfl
@[simp] theorem modSens_therm (s : State) : (modSens i f s).therm = { s.therm with sens := upd s.therm.sens i f } := rfl
@[simp] theorem modSens_cal (s : State) : (modSens i f s).cal = s.cal := rfl
@[simp] theorem modSens_arb (s : State) : (modSens i f s).arb = s.arb := rfl
@[simp] theorem modSens_chk (s : State) : (modSens i f s).chk = s.chk := rfl
@[simp] theorem modSens_tst (s : State) : (modSens i f s).tst = s.tst := rfl
@[simp] theorem modSens_rst (s : State) : (modSens i f s).rst = s.rst := rfl
@[simp] theorem modSens_saved (s : State) : (modSens i f s).saved = s.saved := rfl
@[simp] theorem modSens_ocp (s : State) : (modSens i f s).ocp = s.ocp := rfl
@[simp] theorem modSens_late (s : State) : (modSens i f s).late = s.late := rfl
@[simp] theorem modSens_cap (s : State) : (modSens i f s).cap = s.cap := rfl
@[simp] theorem modSens_scans (s : State) : (modSens i f s).scans = s.scans := rfl

/-! ### emit -/

@[simp] theorem emit_pending (s : State) : (emit o s).pending = s.pending := rfl
@[simp] theorem emit_free (s : State) : (emit o s).free = s.free := rfl
@[simp] theorem emit_clk (s : State) : (emit o s).clk = s.clk := rfl
@[simp] theorem emit_sub (s : State) : (emit o s).sub = s.sub := rfl
@[simp] theorem emit_out (s : State) : (emit o s).out = s.out ++ [o] := rfl
@[simp] theorem emit_setup (s : State) : (emit o s).setup = s.setup := rfl
@[simp] theorem emit_shadow (s : State) : (emit o s).shadow = s.shadow := rfl
@[simp] theorem emit_viol (s : State) : (emit o s).viol = s.viol := rfl
@[simp] theorem emit_hiPcie (s : State) : (emit o s).hiPcie = s.hiPcie := rfl
@[simp] theorem emit_hiWire (s : State) : (emit o s).hiWire = s.hiWire := rfl
@[simp] theorem emit_straps (s : State) : (emit o s).straps = s.straps := rfl
@[simp] theorem emit_pcie (s : State) : (emit o s).pcie = s.pcie := rfl
@[simp] theorem emit_refOk (s : State) : (emit o s).refOk = s.refOk := rfl
@[simp] theorem emit_hkoOk (s : State) : (emit o s).hkoOk = s.hkoOk := rfl
@[simp] theorem emit_refLostAt (s : State) : (emit o s).refLostAt = s.refLostAt := rfl
@[simp] theorem emit_pllAt (s : State) : (emit o s).pllAt = s.pllAt := rfl
@[simp] theorem emit_rings (s : State) : (emit o s).rings = s.rings := rfl
@[simp] theorem emit_evt (s : State) : (emit o s).evt = s.evt := rfl
@[simp] theorem emit_tlm (s : State) : (emit o s).tlm = s.tlm := rfl
@[simp] theorem emit_lmem (s : State) : (emit o s).lmem = s.lmem := rfl
@[simp] theorem emit_cad (s : State) : (emit o s).cad = s.cad := rfl
@[simp] theorem emit_lines (s : State) : (emit o s).lines = s.lines := rfl
@[simp] theorem emit_hosts (s : State) : (emit o s).hosts = s.hosts := rfl
@[simp] theorem emit_ports (s : State) : (emit o s).ports = s.ports := rfl
@[simp] theorem emit_lineCtr (s : State) : (emit o s).lineCtr = s.lineCtr := rfl
@[simp] theorem emit_hostCtr (s : State) : (emit o s).hostCtr = s.hostCtr := rfl
@[simp] theorem emit_portCtr (s : State) : (emit o s).portCtr = s.portCtr := rfl
@[simp] theorem emit_pmc (s : State) : (emit o s).pmc = s.pmc := rfl
@[simp] theorem emit_mon (s : State) : (emit o s).mon = s.mon := rfl
@[simp] theorem emit_comp (s : State) : (emit o s).comp = s.comp := rfl
@[simp] theorem emit_thr (s : State) : (emit o s).thr = s.thr := rfl
@[simp] theorem emit_therm (s : State) : (emit o s).therm = s.therm := rfl
@[simp] theorem emit_cal (s : State) : (emit o s).cal = s.cal := rfl
@[simp] theorem emit_arb (s : State) : (emit o s).arb = s.arb := rfl
@[simp] theorem emit_chk (s : State) : (emit o s).chk = s.chk := rfl
@[simp] theorem emit_tst (s : State) : (emit o s).tst = s.tst := rfl
@[simp] theorem emit_rst (s : State) : (emit o s).rst = s.rst := rfl
@[simp] theorem emit_saved (s : State) : (emit o s).saved = s.saved := rfl
@[simp] theorem emit_ocp (s : State) : (emit o s).ocp = s.ocp := rfl
@[simp] theorem emit_late (s : State) : (emit o s).late = s.late := rfl
@[simp] theorem emit_cap (s : State) : (emit o s).cap = s.cap := rfl
@[simp] theorem emit_scans (s : State) : (emit o s).scans = s.scans := rfl

/-! ### draw -/

@[simp] theorem draw_pending (s : State) : (draw s).2.pending = s.pending := rfl
@[simp] theorem draw_free (s : State) : (draw s).2.free = s.free + 1 := rfl
@[simp] theorem draw_clk (s : State) : (draw s).2.clk = s.clk := rfl
@[simp] theorem draw_sub (s : State) : (draw s).2.sub = s.sub := rfl
@[simp] theorem draw_out (s : State) : (draw s).2.out = s.out := rfl
@[simp] theorem draw_setup (s : State) : (draw s).2.setup = s.setup := rfl
@[simp] theorem draw_shadow (s : State) : (draw s).2.shadow = s.shadow := rfl
@[simp] theorem draw_viol (s : State) : (draw s).2.viol = s.viol := rfl
@[simp] theorem draw_hiPcie (s : State) : (draw s).2.hiPcie = s.hiPcie := rfl
@[simp] theorem draw_hiWire (s : State) : (draw s).2.hiWire = s.hiWire := rfl
@[simp] theorem draw_straps (s : State) : (draw s).2.straps = s.straps := rfl
@[simp] theorem draw_pcie (s : State) : (draw s).2.pcie = s.pcie := rfl
@[simp] theorem draw_refOk (s : State) : (draw s).2.refOk = s.refOk := rfl
@[simp] theorem draw_hkoOk (s : State) : (draw s).2.hkoOk = s.hkoOk := rfl
@[simp] theorem draw_refLostAt (s : State) : (draw s).2.refLostAt = s.refLostAt := rfl
@[simp] theorem draw_pllAt (s : State) : (draw s).2.pllAt = s.pllAt := rfl
@[simp] theorem draw_rings (s : State) : (draw s).2.rings = s.rings := rfl
@[simp] theorem draw_evt (s : State) : (draw s).2.evt = s.evt := rfl
@[simp] theorem draw_tlm (s : State) : (draw s).2.tlm = s.tlm := rfl
@[simp] theorem draw_lmem (s : State) : (draw s).2.lmem = s.lmem := rfl
@[simp] theorem draw_cad (s : State) : (draw s).2.cad = s.cad := rfl
@[simp] theorem draw_lines (s : State) : (draw s).2.lines = s.lines := rfl
@[simp] theorem draw_hosts (s : State) : (draw s).2.hosts = s.hosts := rfl
@[simp] theorem draw_ports (s : State) : (draw s).2.ports = s.ports := rfl
@[simp] theorem draw_lineCtr (s : State) : (draw s).2.lineCtr = s.lineCtr := rfl
@[simp] theorem draw_hostCtr (s : State) : (draw s).2.hostCtr = s.hostCtr := rfl
@[simp] theorem draw_portCtr (s : State) : (draw s).2.portCtr = s.portCtr := rfl
@[simp] theorem draw_pmc (s : State) : (draw s).2.pmc = s.pmc := rfl
@[simp] theorem draw_mon (s : State) : (draw s).2.mon = s.mon := rfl
@[simp] theorem draw_comp (s : State) : (draw s).2.comp = s.comp := rfl
@[simp] theorem draw_thr (s : State) : (draw s).2.thr = s.thr := rfl
@[simp] theorem draw_therm (s : State) : (draw s).2.therm = s.therm := rfl
@[simp] theorem draw_cal (s : State) : (draw s).2.cal = s.cal := rfl
@[simp] theorem draw_arb (s : State) : (draw s).2.arb = s.arb := rfl
@[simp] theorem draw_chk (s : State) : (draw s).2.chk = s.chk := rfl
@[simp] theorem draw_tst (s : State) : (draw s).2.tst = s.tst := rfl
@[simp] theorem draw_rst (s : State) : (draw s).2.rst = s.rst := rfl
@[simp] theorem draw_saved (s : State) : (draw s).2.saved = s.saved := rfl
@[simp] theorem draw_ocp (s : State) : (draw s).2.ocp = s.ocp := rfl
@[simp] theorem draw_late (s : State) : (draw s).2.late = s.late := rfl
@[simp] theorem draw_cap (s : State) : (draw s).2.cap = s.cap := rfl
@[simp] theorem draw_scans (s : State) : (draw s).2.scans = s.scans := rfl

end Sys2Proof.Machine
end

