-- ==== Sys2Proof/Laws/Ops.lean ====
section
/-! SUPPORT. What the shared operations leave alone. Raising an event, counting and noting it write the event unit, the counters
and the device's share of the next SUMMARY and nothing else; answering a command also writes the rings, the maintenance arbiter
its own state, forming a record the telemetry and its ring. -/

-- One proof after another: the package is compiled as one text, where proofs side by side take too much memory.
set_option Elab.async false

namespace Sys2Proof.Machine

open Sys2Proof

/-! ### Frames -/

theorem OnlyChanges.refl (ps : List Part) (s : State) : OnlyChanges ps s s := by
  intro p _; cases p <;> simp [Part.same]

theorem Part.same_trans {a b c : State} {p : Part} (h : p.same a b) (k : p.same b c) : p.same a c := by
  cases p <;> simp only [Part.same] at *
  case cad => rw [← h, ← k]
  all_goals simp_all only [and_self]

theorem OnlyChanges.trans {ps : List Part} {a b c : State} (h : OnlyChanges ps a b) (k : OnlyChanges ps b c) : OnlyChanges ps a c :=
  fun p hp => Part.same_trans (h p hp) (k p hp)

theorem OnlyChanges.mono {ps qs : List Part} {a b : State} (h : OnlyChanges ps a b) (k : ps ⊆ qs) : OnlyChanges qs a b :=
  fun p hp => h p fun x => hp (k x)

/-! ### Reports: the event unit, the counters, the device's share of the next SUMMARY -/

/-- t is s but for its reports. -/
def Reports (s t : State) : Prop := ∃ e o l h p d,
  t = { s with evt := e, cad := { s.cad with own := o }, lineCtr := l, hostCtr := h, portCtr := p, pmc := d }

theorem Reports.refl (s : State) : Reports s s := ⟨_, _, _, _, _, _, rfl⟩

theorem Reports.trans {a b c : State} (h : Reports a b) (k : Reports b c) : Reports a c := by
  obtain ⟨e, o, l, i, p, d, rfl⟩ := h
  obtain ⟨e', o', l', i', p', d', rfl⟩ := k
  exact ⟨e', o', l', i', p', d', rfl⟩

theorem Reports.pending (h : Reports s t) : t.pending = s.pending := by obtain ⟨_, _, _, _, _, _, rfl⟩ := h; rfl
theorem Reports.free (h : Reports s t) : t.free = s.free := by obtain ⟨_, _, _, _, _, _, rfl⟩ := h; rfl
theorem Reports.clk (h : Reports s t) : t.clk = s.clk := by obtain ⟨_, _, _, _, _, _, rfl⟩ := h; rfl
theorem Reports.sub (h : Reports s t) : t.sub = s.sub := by obtain ⟨_, _, _, _, _, _, rfl⟩ := h; rfl
theorem Reports.out (h : Reports s t) : t.out = s.out := by obtain ⟨_, _, _, _, _, _, rfl⟩ := h; rfl
theorem Reports.setup (h : Reports s t) : t.setup = s.setup := by obtain ⟨_, _, _, _, _, _, rfl⟩ := h; rfl
theorem Reports.shadow (h : Reports s t) : t.shadow = s.shadow := by obtain ⟨_, _, _, _, _, _, rfl⟩ := h; rfl
theorem Reports.viol (h : Reports s t) : t.viol = s.viol := by obtain ⟨_, _, _, _, _, _, rfl⟩ := h; rfl
theorem Reports.hiPcie (h : Reports s t) : t.hiPcie = s.hiPcie := by obtain ⟨_, _, _, _, _, _, rfl⟩ := h; rfl
theorem Reports.hiWire (h : Reports s t) : t.hiWire = s.hiWire := by obtain ⟨_, _, _, _, _, _, rfl⟩ := h; rfl
theorem Reports.straps (h : Reports s t) : t.straps = s.straps := by obtain ⟨_, _, _, _, _, _, rfl⟩ := h; rfl
theorem Reports.pcie (h : Reports s t) : t.pcie = s.pcie := by obtain ⟨_, _, _, _, _, _, rfl⟩ := h; rfl
theorem Reports.refOk (h : Reports s t) : t.refOk = s.refOk := by obtain ⟨_, _, _, _, _, _, rfl⟩ := h; rfl
theorem Reports.hkoOk (h : Reports s t) : t.hkoOk = s.hkoOk := by obtain ⟨_, _, _, _, _, _, rfl⟩ := h; rfl
theorem Reports.refLostAt (h : Reports s t) : t.refLostAt = s.refLostAt := by obtain ⟨_, _, _, _, _, _, rfl⟩ := h; rfl
theorem Reports.pllAt (h : Reports s t) : t.pllAt = s.pllAt := by obtain ⟨_, _, _, _, _, _, rfl⟩ := h; rfl
theorem Reports.rings (h : Reports s t) : t.rings = s.rings := by obtain ⟨_, _, _, _, _, _, rfl⟩ := h; rfl
theorem Reports.tlm (h : Reports s t) : t.tlm = s.tlm := by obtain ⟨_, _, _, _, _, _, rfl⟩ := h; rfl
theorem Reports.lmem (h : Reports s t) : t.lmem = s.lmem := by obtain ⟨_, _, _, _, _, _, rfl⟩ := h; rfl
theorem Reports.lines (h : Reports s t) : t.lines = s.lines := by obtain ⟨_, _, _, _, _, _, rfl⟩ := h; rfl
theorem Reports.hosts (h : Reports s t) : t.hosts = s.hosts := by obtain ⟨_, _, _, _, _, _, rfl⟩ := h; rfl
theorem Reports.ports (h : Reports s t) : t.ports = s.ports := by obtain ⟨_, _, _, _, _, _, rfl⟩ := h; rfl
theorem Reports.mon (h : Reports s t) : t.mon = s.mon := by obtain ⟨_, _, _, _, _, _, rfl⟩ := h; rfl
theorem Reports.comp (h : Reports s t) : t.comp = s.comp := by obtain ⟨_, _, _, _, _, _, rfl⟩ := h; rfl
theorem Reports.thr (h : Reports s t) : t.thr = s.thr := by obtain ⟨_, _, _, _, _, _, rfl⟩ := h; rfl
theorem Reports.therm (h : Reports s t) : t.therm = s.therm := by obtain ⟨_, _, _, _, _, _, rfl⟩ := h; rfl
theorem Reports.cal (h : Reports s t) : t.cal = s.cal := by obtain ⟨_, _, _, _, _, _, rfl⟩ := h; rfl
theorem Reports.arb (h : Reports s t) : t.arb = s.arb := by obtain ⟨_, _, _, _, _, _, rfl⟩ := h; rfl
theorem Reports.chk (h : Reports s t) : t.chk = s.chk := by obtain ⟨_, _, _, _, _, _, rfl⟩ := h; rfl
theorem Reports.tst (h : Reports s t) : t.tst = s.tst := by obtain ⟨_, _, _, _, _, _, rfl⟩ := h; rfl
theorem Reports.rst (h : Reports s t) : t.rst = s.rst := by obtain ⟨_, _, _, _, _, _, rfl⟩ := h; rfl
theorem Reports.saved (h : Reports s t) : t.saved = s.saved := by obtain ⟨_, _, _, _, _, _, rfl⟩ := h; rfl
theorem Reports.ocp (h : Reports s t) : t.ocp = s.ocp := by obtain ⟨_, _, _, _, _, _, rfl⟩ := h; rfl
theorem Reports.late (h : Reports s t) : t.late = s.late := by obtain ⟨_, _, _, _, _, _, rfl⟩ := h; rfl
theorem Reports.cap (h : Reports s t) : t.cap = s.cap := by obtain ⟨_, _, _, _, _, _, rfl⟩ := h; rfl
theorem Reports.scans (h : Reports s t) : t.scans = s.scans := by obtain ⟨_, _, _, _, _, _, rfl⟩ := h; rfl
theorem Reports.cad_own (h : Reports s t) : { t.cad with own := s.cad.own } = s.cad := by
  obtain ⟨_, _, _, _, _, _, rfl⟩ := h; rfl

/-- Reports change nothing but reports. -/
theorem Reports.onlyChanges (h : Reports s t) : OnlyChanges reports s t := by
  obtain ⟨_, _, _, _, _, _, rfl⟩ := h
  intro p hp; cases p <;> simp_all [Part.same, reports]

theorem countLine_reports (n : Fin 8) (sel k : Nat) (s : State) : Reports s (countLine n sel k s) := by
  unfold countLine; split
  · exact ⟨_, _, _, _, _, _, rfl⟩
  · exact Reports.refl s

theorem countHost_reports (n : Fin 16) (sel k : Nat) (s : State) : Reports s (countHost n sel k s) := by
  unfold countHost; split
  · exact ⟨_, _, _, _, _, _, rfl⟩
  · exact Reports.refl s

theorem countPort_reports (p : Fin 8) (sel k : Nat) (s : State) : Reports s (countPort p sel k s) := by
  unfold countPort; split
  · exact ⟨_, _, _, _, _, _, rfl⟩
  · exact Reports.refl s

theorem countDev_reports (sel k : Nat) (s : State) : Reports s (countDev sel k s) := by
  unfold countDev; split
  · exact ⟨_, _, _, _, _, _, rfl⟩
  · exact Reports.refl s

theorem countSource_reports (src : Nat) (s : State) : Reports s (countSource src s) := by
  unfold countSource; repeat' split
  · exact countDev_reports _ _ s
  · exact countLine_reports _ _ _ s
  · exact countHost_reports _ _ _ s
  · exact countDev_reports _ _ s

theorem noteOwn_reports (src cls : Nat) (s : State) : Reports s (noteOwn src cls s) := by
  unfold noteOwn modCad; exact ⟨_, _, _, _, _, _, rfl⟩

theorem evt_reports (e : Evt) (s : State) : Reports s { s with evt := e } := ⟨_, _, _, _, _, _, rfl⟩

theorem logEvent_reports (src : Nat) (m : Bool) (p : Word) (s : State) : Reports s (logEvent src m p s) := by
  unfold logEvent; exact evt_reports _ s

/-- What raising an event can do. -/
theorem raise_reports (src : Nat) (p : Word) (s : State) : Reports s (raise src p s) := by
  unfold raise
  split
  · exact Reports.refl s
  · have h := (countSource_reports src s).trans (noteOwn_reports src ‹_› _)
    dsimp only
    generalize noteOwn _ _ _ = t at h ⊢
    split
    · (repeat' split) <;> first | exact (h.trans (logEvent_reports _ _ _ t)).trans (evt_reports _ _) | exact h
    · split
      · exact h.trans (evt_reports _ _)
      · exact (h.trans (evt_reports _ _)).trans (logEvent_reports _ _ _ _)

theorem raiseLimited_reports (src inst : Nat) (p : Word) (s : State) : Reports s (raiseLimited src inst p s) := by
  unfold raiseLimited
  dsimp only
  (repeat' split) <;> first | exact (evt_reports _ s).trans (raise_reports _ _ _) | exact Reports.refl s

/-! ### Answers -/

theorem rings_reports {s t : State} {r : Rings} (h : Reports s t) : Reports { s with rings := r } { t with rings := r } := by
  obtain ⟨_, _, _, _, _, _, rfl⟩ := h; exact ⟨_, _, _, _, _, _, rfl⟩

theorem cplLimit_reports (s : State) : ∃ r, Reports { s with rings := r } (cplLimit s) := by
  unfold cplLimit
  split
  · exact ⟨_, Reports.refl s⟩
  · split
    · exact ⟨_, Reports.refl s⟩
    · exact ⟨_, raise_reports _ _ _⟩

/-- What answering a command can do. -/
theorem answer_reports (c : Cmd) (st : Byte) (fin : Bool) (time : CTime) (res : Nat) (s : State) :
    ∃ r, Reports { s with rings := r } (answer c st fin time res s) := by
  unfold answer
  split
  · exact ⟨_, Reports.refl s⟩
  · unfold outcome modRings
    dsimp only
    split
    · exact ⟨_, Reports.refl _⟩
    · obtain ⟨r, h⟩ := cplLimit_reports _
      exact ⟨r, h⟩

theorem arbRefuse_reports (cls holder : Nat) (s : State) : ∃ a, Reports { s with arb := a } (arbRefuse cls holder s) := by
  unfold arbRefuse
  exact ⟨_, (countDev_reports _ _ _).trans (raiseLimited_reports _ _ _ _)⟩

/-- What presenting an activity to the maintenance arbiter can do. -/
theorem arbPresent_reports (cls : Nat) (t : Tgt) (s : State) : ∃ a, Reports { s with arb := a } (arbPresent cls t s).1 := by
  unfold arbPresent arbPresentOf
  split
  · exact arbRefuse_reports _ _ s
  · exact ⟨_, Reports.refl _⟩

theorem tlmTrim_reports (s : State) : ∃ x, Reports { s with tlm := x } (tlmTrim s) := by
  unfold tlmTrim
  dsimp only
  split
  · exact ⟨_, Reports.refl s⟩
  · exact ⟨_, raise_reports _ _ _⟩

/-- What forming a telemetry record can do. -/
theorem tlmForm_reports (typ units : Nat) (more : Bool) (frag : Nat) (origin : BitVec 16) (time : CTime) (body : List Byte) (s : State) :
    ∃ x r, Reports { s with tlm := x, rings := r } (tlmForm typ units more frag origin time body s).1 := by
  unfold tlmForm
  dsimp only
  split
  · exact ⟨s.tlm, s.rings, raise_reports 0x027 (pay2 (routeOfType s typ).val 1) s⟩
  · split
    · obtain ⟨x, h⟩ := tlmTrim_reports (modRing (.tlm (routeOfType s typ)) (fun g => { g with formed := g.formed + 1 }) _)
      exact ⟨x, _, h⟩
    · obtain ⟨x, h⟩ := tlmTrim_reports _
      exact ⟨x, _, h⟩

/-! ### The fields that each leaves -/

@[simp] theorem countLine_pending (s : State) : (countLine n sel k s).pending = s.pending := (countLine_reports n sel k s).pending
@[simp] theorem countLine_free (s : State) : (countLine n sel k s).free = s.free := (countLine_reports n sel k s).free
@[simp] theorem countLine_clk (s : State) : (countLine n sel k s).clk = s.clk := (countLine_reports n sel k s).clk
@[simp] theorem countLine_sub (s : State) : (countLine n sel k s).sub = s.sub := (countLine_reports n sel k s).sub
@[simp] theorem countLine_out (s : State) : (countLine n sel k s).out = s.out := (countLine_reports n sel k s).out
@[simp] theorem countLine_setup (s : State) : (countLine n sel k s).setup = s.setup := (countLine_reports n sel k s).setup
@[simp] theorem countLine_shadow (s : State) : (countLine n sel k s).shadow = s.shadow := (countLine_reports n sel k s).shadow
@[simp] theorem countLine_viol (s : State) : (countLine n sel k s).viol = s.viol := (countLine_reports n sel k s).viol
@[simp] theorem countLine_hiPcie (s : State) : (countLine n sel k s).hiPcie = s.hiPcie := (countLine_reports n sel k s).hiPcie
@[simp] theorem countLine_hiWire (s : State) : (countLine n sel k s).hiWire = s.hiWire := (countLine_reports n sel k s).hiWire
@[simp] theorem countLine_straps (s : State) : (countLine n sel k s).straps = s.straps := (countLine_reports n sel k s).straps
@[simp] theorem countLine_pcie (s : State) : (countLine n sel k s).pcie = s.pcie := (countLine_reports n sel k s).pcie
@[simp] theorem countLine_refOk (s : State) : (countLine n sel k s).refOk = s.refOk := (countLine_reports n sel k s).refOk
@[simp] theorem countLine_hkoOk (s : State) : (countLine n sel k s).hkoOk = s.hkoOk := (countLine_reports n sel k s).hkoOk
@[simp] theorem countLine_refLostAt (s : State) : (countLine n sel k s).refLostAt = s.refLostAt := (countLine_reports n sel k s).refLostAt
@[simp] theorem countLine_pllAt (s : State) : (countLine n sel k s).pllAt = s.pllAt := (countLine_reports n sel k s).pllAt
@[simp] theorem countLine_rings (s : State) : (countLine n sel k s).rings = s.rings := (countLine_reports n sel k s).rings
@[simp] theorem countLine_tlm (s : State) : (countLine n sel k s).tlm = s.tlm := (countLine_reports n sel k s).tlm
@[simp] theorem countLine_lmem (s : State) : (countLine n sel k s).lmem = s.lmem := (countLine_reports n sel k s).lmem
@[simp] theorem countLine_lines (s : State) : (countLine n sel k s).lines = s.lines := (countLine_reports n sel k s).lines
@[simp] theorem countLine_hosts (s : State) : (countLine n sel k s).hosts = s.hosts := (countLine_reports n sel k s).hosts
@[simp] theorem countLine_ports (s : State) : (countLine n sel k s).ports = s.ports := (countLine_reports n sel k s).ports
@[simp] theorem countLine_mon (s : State) : (countLine n sel k s).mon = s.mon := (countLine_reports n sel k s).mon
@[simp] theorem countLine_comp (s : State) : (countLine n sel k s).comp = s.comp := (countLine_reports n sel k s).comp
@[simp] theorem countLine_thr (s : State) : (countLine n sel k s).thr = s.thr := (countLine_reports n sel k s).thr
@[simp] theorem countLine_therm (s : State) : (countLine n sel k s).therm = s.therm := (countLine_reports n sel k s).therm
@[simp] theorem countLine_cal (s : State) : (countLine n sel k s).cal = s.cal := (countLine_reports n sel k s).cal
@[simp] theorem countLine_arb (s : State) : (countLine n sel k s).arb = s.arb := (countLine_reports n sel k s).arb
@[simp] theorem countLine_chk (s : State) : (countLine n sel k s).chk = s.chk := (countLine_reports n sel k s).chk
@[simp] theorem countLine_tst (s : State) : (countLine n sel k s).tst = s.tst := (countLine_reports n sel k s).tst
@[simp] theorem countLine_rst (s : State) : (countLine n sel k s).rst = s.rst := (countLine_reports n sel k s).rst
@[simp] theorem countLine_saved (s : State) : (countLine n sel k s).saved = s.saved := (countLine_reports n sel k s).saved
@[simp] theorem countLine_ocp (s : State) : (countLine n sel k s).ocp = s.ocp := (countLine_reports n sel k s).ocp
@[simp] theorem countLine_late (s : State) : (countLine n sel k s).late = s.late := (countLine_reports n sel k s).late
@[simp] theorem countLine_cap (s : State) : (countLine n sel k s).cap = s.cap := (countLine_reports n sel k s).cap
@[simp] theorem countLine_scans (s : State) : (countLine n sel k s).scans = s.scans := (countLine_reports n sel k s).scans

@[simp] theorem countHost_pending (s : State) : (countHost n sel k s).pending = s.pending := (countHost_reports n sel k s).pending
@[simp] theorem countHost_free (s : State) : (countHost n sel k s).free = s.free := (countHost_reports n sel k s).free
@[simp] theorem countHost_clk (s : State) : (countHost n sel k s).clk = s.clk := (countHost_reports n sel k s).clk
@[simp] theorem countHost_sub (s : State) : (countHost n sel k s).sub = s.sub := (countHost_reports n sel k s).sub
@[simp] theorem countHost_out (s : State) : (countHost n sel k s).out = s.out := (countHost_reports n sel k s).out
@[simp] theorem countHost_setup (s : State) : (countHost n sel k s).setup = s.setup := (countHost_reports n sel k s).setup
@[simp] theorem countHost_shadow (s : State) : (countHost n sel k s).shadow = s.shadow := (countHost_reports n sel k s).shadow
@[simp] theorem countHost_viol (s : State) : (countHost n sel k s).viol = s.viol := (countHost_reports n sel k s).viol
@[simp] theorem countHost_hiPcie (s : State) : (countHost n sel k s).hiPcie = s.hiPcie := (countHost_reports n sel k s).hiPcie
@[simp] theorem countHost_hiWire (s : State) : (countHost n sel k s).hiWire = s.hiWire := (countHost_reports n sel k s).hiWire
@[simp] theorem countHost_straps (s : State) : (countHost n sel k s).straps = s.straps := (countHost_reports n sel k s).straps
@[simp] theorem countHost_pcie (s : State) : (countHost n sel k s).pcie = s.pcie := (countHost_reports n sel k s).pcie
@[simp] theorem countHost_refOk (s : State) : (countHost n sel k s).refOk = s.refOk := (countHost_reports n sel k s).refOk
@[simp] theorem countHost_hkoOk (s : State) : (countHost n sel k s).hkoOk = s.hkoOk := (countHost_reports n sel k s).hkoOk
@[simp] theorem countHost_refLostAt (s : State) : (countHost n sel k s).refLostAt = s.refLostAt := (countHost_reports n sel k s).refLostAt
@[simp] theorem countHost_pllAt (s : State) : (countHost n sel k s).pllAt = s.pllAt := (countHost_reports n sel k s).pllAt
@[simp] theorem countHost_rings (s : State) : (countHost n sel k s).rings = s.rings := (countHost_reports n sel k s).rings
@[simp] theorem countHost_tlm (s : State) : (countHost n sel k s).tlm = s.tlm := (countHost_reports n sel k s).tlm
@[simp] theorem countHost_lmem (s : State) : (countHost n sel k s).lmem = s.lmem := (countHost_reports n sel k s).lmem
@[simp] theorem countHost_lines (s : State) : (countHost n sel k s).lines = s.lines := (countHost_reports n sel k s).lines
@[simp] theorem countHost_hosts (s : State) : (countHost n sel k s).hosts = s.hosts := (countHost_reports n sel k s).hosts
@[simp] theorem countHost_ports (s : State) : (countHost n sel k s).ports = s.ports := (countHost_reports n sel k s).ports
@[simp] theorem countHost_mon (s : State) : (countHost n sel k s).mon = s.mon := (countHost_reports n sel k s).mon
@[simp] theorem countHost_comp (s : State) : (countHost n sel k s).comp = s.comp := (countHost_reports n sel k s).comp
@[simp] theorem countHost_thr (s : State) : (countHost n sel k s).thr = s.thr := (countHost_reports n sel k s).thr
@[simp] theorem countHost_therm (s : State) : (countHost n sel k s).therm = s.therm := (countHost_reports n sel k s).therm
@[simp] theorem countHost_cal (s : State) : (countHost n sel k s).cal = s.cal := (countHost_reports n sel k s).cal
@[simp] theorem countHost_arb (s : State) : (countHost n sel k s).arb = s.arb := (countHost_reports n sel k s).arb
@[simp] theorem countHost_chk (s : State) : (countHost n sel k s).chk = s.chk := (countHost_reports n sel k s).chk
@[simp] theorem countHost_tst (s : State) : (countHost n sel k s).tst = s.tst := (countHost_reports n sel k s).tst
@[simp] theorem countHost_rst (s : State) : (countHost n sel k s).rst = s.rst := (countHost_reports n sel k s).rst
@[simp] theorem countHost_saved (s : State) : (countHost n sel k s).saved = s.saved := (countHost_reports n sel k s).saved
@[simp] theorem countHost_ocp (s : State) : (countHost n sel k s).ocp = s.ocp := (countHost_reports n sel k s).ocp
@[simp] theorem countHost_late (s : State) : (countHost n sel k s).late = s.late := (countHost_reports n sel k s).late
@[simp] theorem countHost_cap (s : State) : (countHost n sel k s).cap = s.cap := (countHost_reports n sel k s).cap
@[simp] theorem countHost_scans (s : State) : (countHost n sel k s).scans = s.scans := (countHost_reports n sel k s).scans

@[simp] theorem countPort_pending (s : State) : (countPort p sel k s).pending = s.pending := (countPort_reports p sel k s).pending
@[simp] theorem countPort_free (s : State) : (countPort p sel k s).free = s.free := (countPort_reports p sel k s).free
@[simp] theorem countPort_clk (s : State) : (countPort p sel k s).clk = s.clk := (countPort_reports p sel k s).clk
@[simp] theorem countPort_sub (s : State) : (countPort p sel k s).sub = s.sub := (countPort_reports p sel k s).sub
@[simp] theorem countPort_out (s : State) : (countPort p sel k s).out = s.out := (countPort_reports p sel k s).out
@[simp] theorem countPort_setup (s : State) : (countPort p sel k s).setup = s.setup := (countPort_reports p sel k s).setup
@[simp] theorem countPort_shadow (s : State) : (countPort p sel k s).shadow = s.shadow := (countPort_reports p sel k s).shadow
@[simp] theorem countPort_viol (s : State) : (countPort p sel k s).viol = s.viol := (countPort_reports p sel k s).viol
@[simp] theorem countPort_hiPcie (s : State) : (countPort p sel k s).hiPcie = s.hiPcie := (countPort_reports p sel k s).hiPcie
@[simp] theorem countPort_hiWire (s : State) : (countPort p sel k s).hiWire = s.hiWire := (countPort_reports p sel k s).hiWire
@[simp] theorem countPort_straps (s : State) : (countPort p sel k s).straps = s.straps := (countPort_reports p sel k s).straps
@[simp] theorem countPort_pcie (s : State) : (countPort p sel k s).pcie = s.pcie := (countPort_reports p sel k s).pcie
@[simp] theorem countPort_refOk (s : State) : (countPort p sel k s).refOk = s.refOk := (countPort_reports p sel k s).refOk
@[simp] theorem countPort_hkoOk (s : State) : (countPort p sel k s).hkoOk = s.hkoOk := (countPort_reports p sel k s).hkoOk
@[simp] theorem countPort_refLostAt (s : State) : (countPort p sel k s).refLostAt = s.refLostAt := (countPort_reports p sel k s).refLostAt
@[simp] theorem countPort_pllAt (s : State) : (countPort p sel k s).pllAt = s.pllAt := (countPort_reports p sel k s).pllAt
@[simp] theorem countPort_rings (s : State) : (countPort p sel k s).rings = s.rings := (countPort_reports p sel k s).rings
@[simp] theorem countPort_tlm (s : State) : (countPort p sel k s).tlm = s.tlm := (countPort_reports p sel k s).tlm
@[simp] theorem countPort_lmem (s : State) : (countPort p sel k s).lmem = s.lmem := (countPort_reports p sel k s).lmem
@[simp] theorem countPort_lines (s : State) : (countPort p sel k s).lines = s.lines := (countPort_reports p sel k s).lines
@[simp] theorem countPort_hosts (s : State) : (countPort p sel k s).hosts = s.hosts := (countPort_reports p sel k s).hosts
@[simp] theorem countPort_ports (s : State) : (countPort p sel k s).ports = s.ports := (countPort_reports p sel k s).ports
@[simp] theorem countPort_mon (s : State) : (countPort p sel k s).mon = s.mon := (countPort_reports p sel k s).mon
@[simp] theorem countPort_comp (s : State) : (countPort p sel k s).comp = s.comp := (countPort_reports p sel k s).comp
@[simp] theorem countPort_thr (s : State) : (countPort p sel k s).thr = s.thr := (countPort_reports p sel k s).thr
@[simp] theorem countPort_therm (s : State) : (countPort p sel k s).therm = s.therm := (countPort_reports p sel k s).therm
@[simp] theorem countPort_cal (s : State) : (countPort p sel k s).cal = s.cal := (countPort_reports p sel k s).cal
@[simp] theorem countPort_arb (s : State) : (countPort p sel k s).arb = s.arb := (countPort_reports p sel k s).arb
@[simp] theorem countPort_chk (s : State) : (countPort p sel k s).chk = s.chk := (countPort_reports p sel k s).chk
@[simp] theorem countPort_tst (s : State) : (countPort p sel k s).tst = s.tst := (countPort_reports p sel k s).tst
@[simp] theorem countPort_rst (s : State) : (countPort p sel k s).rst = s.rst := (countPort_reports p sel k s).rst
@[simp] theorem countPort_saved (s : State) : (countPort p sel k s).saved = s.saved := (countPort_reports p sel k s).saved
@[simp] theorem countPort_ocp (s : State) : (countPort p sel k s).ocp = s.ocp := (countPort_reports p sel k s).ocp
@[simp] theorem countPort_late (s : State) : (countPort p sel k s).late = s.late := (countPort_reports p sel k s).late
@[simp] theorem countPort_cap (s : State) : (countPort p sel k s).cap = s.cap := (countPort_reports p sel k s).cap
@[simp] theorem countPort_scans (s : State) : (countPort p sel k s).scans = s.scans := (countPort_reports p sel k s).scans

@[simp] theorem countDev_pending (s : State) : (countDev sel k s).pending = s.pending := (countDev_reports sel k s).pending
@[simp] theorem countDev_free (s : State) : (countDev sel k s).free = s.free := (countDev_reports sel k s).free
@[simp] theorem countDev_clk (s : State) : (countDev sel k s).clk = s.clk := (countDev_reports sel k s).clk
@[simp] theorem countDev_sub (s : State) : (countDev sel k s).sub = s.sub := (countDev_reports sel k s).sub
@[simp] theorem countDev_out (s : State) : (countDev sel k s).out = s.out := (countDev_reports sel k s).out
@[simp] theorem countDev_setup (s : State) : (countDev sel k s).setup = s.setup := (countDev_reports sel k s).setup
@[simp] theorem countDev_shadow (s : State) : (countDev sel k s).shadow = s.shadow := (countDev_reports sel k s).shadow
@[simp] theorem countDev_viol (s : State) : (countDev sel k s).viol = s.viol := (countDev_reports sel k s).viol
@[simp] theorem countDev_hiPcie (s : State) : (countDev sel k s).hiPcie = s.hiPcie := (countDev_reports sel k s).hiPcie
@[simp] theorem countDev_hiWire (s : State) : (countDev sel k s).hiWire = s.hiWire := (countDev_reports sel k s).hiWire
@[simp] theorem countDev_straps (s : State) : (countDev sel k s).straps = s.straps := (countDev_reports sel k s).straps
@[simp] theorem countDev_pcie (s : State) : (countDev sel k s).pcie = s.pcie := (countDev_reports sel k s).pcie
@[simp] theorem countDev_refOk (s : State) : (countDev sel k s).refOk = s.refOk := (countDev_reports sel k s).refOk
@[simp] theorem countDev_hkoOk (s : State) : (countDev sel k s).hkoOk = s.hkoOk := (countDev_reports sel k s).hkoOk
@[simp] theorem countDev_refLostAt (s : State) : (countDev sel k s).refLostAt = s.refLostAt := (countDev_reports sel k s).refLostAt
@[simp] theorem countDev_pllAt (s : State) : (countDev sel k s).pllAt = s.pllAt := (countDev_reports sel k s).pllAt
@[simp] theorem countDev_rings (s : State) : (countDev sel k s).rings = s.rings := (countDev_reports sel k s).rings
@[simp] theorem countDev_tlm (s : State) : (countDev sel k s).tlm = s.tlm := (countDev_reports sel k s).tlm
@[simp] theorem countDev_lmem (s : State) : (countDev sel k s).lmem = s.lmem := (countDev_reports sel k s).lmem
@[simp] theorem countDev_lines (s : State) : (countDev sel k s).lines = s.lines := (countDev_reports sel k s).lines
@[simp] theorem countDev_hosts (s : State) : (countDev sel k s).hosts = s.hosts := (countDev_reports sel k s).hosts
@[simp] theorem countDev_ports (s : State) : (countDev sel k s).ports = s.ports := (countDev_reports sel k s).ports
@[simp] theorem countDev_mon (s : State) : (countDev sel k s).mon = s.mon := (countDev_reports sel k s).mon
@[simp] theorem countDev_comp (s : State) : (countDev sel k s).comp = s.comp := (countDev_reports sel k s).comp
@[simp] theorem countDev_thr (s : State) : (countDev sel k s).thr = s.thr := (countDev_reports sel k s).thr
@[simp] theorem countDev_therm (s : State) : (countDev sel k s).therm = s.therm := (countDev_reports sel k s).therm
@[simp] theorem countDev_cal (s : State) : (countDev sel k s).cal = s.cal := (countDev_reports sel k s).cal
@[simp] theorem countDev_arb (s : State) : (countDev sel k s).arb = s.arb := (countDev_reports sel k s).arb
@[simp] theorem countDev_chk (s : State) : (countDev sel k s).chk = s.chk := (countDev_reports sel k s).chk
@[simp] theorem countDev_tst (s : State) : (countDev sel k s).tst = s.tst := (countDev_reports sel k s).tst
@[simp] theorem countDev_rst (s : State) : (countDev sel k s).rst = s.rst := (countDev_reports sel k s).rst
@[simp] theorem countDev_saved (s : State) : (countDev sel k s).saved = s.saved := (countDev_reports sel k s).saved
@[simp] theorem countDev_ocp (s : State) : (countDev sel k s).ocp = s.ocp := (countDev_reports sel k s).ocp
@[simp] theorem countDev_late (s : State) : (countDev sel k s).late = s.late := (countDev_reports sel k s).late
@[simp] theorem countDev_cap (s : State) : (countDev sel k s).cap = s.cap := (countDev_reports sel k s).cap
@[simp] theorem countDev_scans (s : State) : (countDev sel k s).scans = s.scans := (countDev_reports sel k s).scans

@[simp] theorem raise_pending (s : State) : (raise src p s).pending = s.pending := (raise_reports src p s).pending
@[simp] theorem raise_free (s : State) : (raise src p s).free = s.free := (raise_reports src p s).free
@[simp] theorem raise_clk (s : State) : (raise src p s).clk = s.clk := (raise_reports src p s).clk
@[simp] theorem raise_sub (s : State) : (raise src p s).sub = s.sub := (raise_reports src p s).sub
@[simp] theorem raise_out (s : State) : (raise src p s).out = s.out := (raise_reports src p s).out
@[simp] theorem raise_setup (s : State) : (raise src p s).setup = s.setup := (raise_reports src p s).setup
@[simp] theorem raise_shadow (s : State) : (raise src p s).shadow = s.shadow := (raise_reports src p s).shadow
@[simp] theorem raise_viol (s : State) : (raise src p s).viol = s.viol := (raise_reports src p s).viol
@[simp] theorem raise_hiPcie (s : State) : (raise src p s).hiPcie = s.hiPcie := (raise_reports src p s).hiPcie
@[simp] theorem raise_hiWire (s : State) : (raise src p s).hiWire = s.hiWire := (raise_reports src p s).hiWire
@[simp] theorem raise_straps (s : State) : (raise src p s).straps = s.straps := (raise_reports src p s).straps
@[simp] theorem raise_pcie (s : State) : (raise src p s).pcie = s.pcie := (raise_reports src p s).pcie
@[simp] theorem raise_refOk (s : State) : (raise src p s).refOk = s.refOk := (raise_reports src p s).refOk
@[simp] theorem raise_hkoOk (s : State) : (raise src p s).hkoOk = s.hkoOk := (raise_reports src p s).hkoOk
@[simp] theorem raise_refLostAt (s : State) : (raise src p s).refLostAt = s.refLostAt := (raise_reports src p s).refLostAt
@[simp] theorem raise_pllAt (s : State) : (raise src p s).pllAt = s.pllAt := (raise_reports src p s).pllAt
@[simp] theorem raise_rings (s : State) : (raise src p s).rings = s.rings := (raise_reports src p s).rings
@[simp] theorem raise_tlm (s : State) : (raise src p s).tlm = s.tlm := (raise_reports src p s).tlm
@[simp] theorem raise_lmem (s : State) : (raise src p s).lmem = s.lmem := (raise_reports src p s).lmem
@[simp] theorem raise_lines (s : State) : (raise src p s).lines = s.lines := (raise_reports src p s).lines
@[simp] theorem raise_hosts (s : State) : (raise src p s).hosts = s.hosts := (raise_reports src p s).hosts
@[simp] theorem raise_ports (s : State) : (raise src p s).ports = s.ports := (raise_reports src p s).ports
@[simp] theorem raise_mon (s : State) : (raise src p s).mon = s.mon := (raise_reports src p s).mon
@[simp] theorem raise_comp (s : State) : (raise src p s).comp = s.comp := (raise_reports src p s).comp
@[simp] theorem raise_thr (s : State) : (raise src p s).thr = s.thr := (raise_reports src p s).thr
@[simp] theorem raise_therm (s : State) : (raise src p s).therm = s.therm := (raise_reports src p s).therm
@[simp] theorem raise_cal (s : State) : (raise src p s).cal = s.cal := (raise_reports src p s).cal
@[simp] theorem raise_arb (s : State) : (raise src p s).arb = s.arb := (raise_reports src p s).arb
@[simp] theorem raise_chk (s : State) : (raise src p s).chk = s.chk := (raise_reports src p s).chk
@[simp] theorem raise_tst (s : State) : (raise src p s).tst = s.tst := (raise_reports src p s).tst
@[simp] theorem raise_rst (s : State) : (raise src p s).rst = s.rst := (raise_reports src p s).rst
@[simp] theorem raise_saved (s : State) : (raise src p s).saved = s.saved := (raise_reports src p s).saved
@[simp] theorem raise_ocp (s : State) : (raise src p s).ocp = s.ocp := (raise_reports src p s).ocp
@[simp] theorem raise_late (s : State) : (raise src p s).late = s.late := (raise_reports src p s).late
@[simp] theorem raise_cap (s : State) : (raise src p s).cap = s.cap := (raise_reports src p s).cap
@[simp] theorem raise_scans (s : State) : (raise src p s).scans = s.scans := (raise_reports src p s).scans

@[simp] theorem raiseLimited_pending (s : State) : (raiseLimited src inst p s).pending = s.pending := (raiseLimited_reports src inst p s).pending
@[simp] theorem raiseLimited_free (s : State) : (raiseLimited src inst p s).free = s.free := (raiseLimited_reports src inst p s).free
@[simp] theorem raiseLimited_clk (s : State) : (raiseLimited src inst p s).clk = s.clk := (raiseLimited_reports src inst p s).clk
@[simp] theorem raiseLimited_sub (s : State) : (raiseLimited src inst p s).sub = s.sub := (raiseLimited_reports src inst p s).sub
@[simp] theorem raiseLimited_out (s : State) : (raiseLimited src inst p s).out = s.out := (raiseLimited_reports src inst p s).out
@[simp] theorem raiseLimited_setup (s : State) : (raiseLimited src inst p s).setup = s.setup := (raiseLimited_reports src inst p s).setup
@[simp] theorem raiseLimited_shadow (s : State) : (raiseLimited src inst p s).shadow = s.shadow := (raiseLimited_reports src inst p s).shadow
@[simp] theorem raiseLimited_viol (s : State) : (raiseLimited src inst p s).viol = s.viol := (raiseLimited_reports src inst p s).viol
@[simp] theorem raiseLimited_hiPcie (s : State) : (raiseLimited src inst p s).hiPcie = s.hiPcie := (raiseLimited_reports src inst p s).hiPcie
@[simp] theorem raiseLimited_hiWire (s : State) : (raiseLimited src inst p s).hiWire = s.hiWire := (raiseLimited_reports src inst p s).hiWire
@[simp] theorem raiseLimited_straps (s : State) : (raiseLimited src inst p s).straps = s.straps := (raiseLimited_reports src inst p s).straps
@[simp] theorem raiseLimited_pcie (s : State) : (raiseLimited src inst p s).pcie = s.pcie := (raiseLimited_reports src inst p s).pcie
@[simp] theorem raiseLimited_refOk (s : State) : (raiseLimited src inst p s).refOk = s.refOk := (raiseLimited_reports src inst p s).refOk
@[simp] theorem raiseLimited_hkoOk (s : State) : (raiseLimited src inst p s).hkoOk = s.hkoOk := (raiseLimited_reports src inst p s).hkoOk
@[simp] theorem raiseLimited_refLostAt (s : State) : (raiseLimited src inst p s).refLostAt = s.refLostAt := (raiseLimited_reports src inst p s).refLostAt
@[simp] theorem raiseLimited_pllAt (s : State) : (raiseLimited src inst p s).pllAt = s.pllAt := (raiseLimited_reports src inst p s).pllAt
@[simp] theorem raiseLimited_rings (s : State) : (raiseLimited src inst p s).rings = s.rings := (raiseLimited_reports src inst p s).rings
@[simp] theorem raiseLimited_tlm (s : State) : (raiseLimited src inst p s).tlm = s.tlm := (raiseLimited_reports src inst p s).tlm
@[simp] theorem raiseLimited_lmem (s : State) : (raiseLimited src inst p s).lmem = s.lmem := (raiseLimited_reports src inst p s).lmem
@[simp] theorem raiseLimited_lines (s : State) : (raiseLimited src inst p s).lines = s.lines := (raiseLimited_reports src inst p s).lines
@[simp] theorem raiseLimited_hosts (s : State) : (raiseLimited src inst p s).hosts = s.hosts := (raiseLimited_reports src inst p s).hosts
@[simp] theorem raiseLimited_ports (s : State) : (raiseLimited src inst p s).ports = s.ports := (raiseLimited_reports src inst p s).ports
@[simp] theorem raiseLimited_mon (s : State) : (raiseLimited src inst p s).mon = s.mon := (raiseLimited_reports src inst p s).mon
@[simp] theorem raiseLimited_comp (s : State) : (raiseLimited src inst p s).comp = s.comp := (raiseLimited_reports src inst p s).comp
@[simp] theorem raiseLimited_thr (s : State) : (raiseLimited src inst p s).thr = s.thr := (raiseLimited_reports src inst p s).thr
@[simp] theorem raiseLimited_therm (s : State) : (raiseLimited src inst p s).therm = s.therm := (raiseLimited_reports src inst p s).therm
@[simp] theorem raiseLimited_cal (s : State) : (raiseLimited src inst p s).cal = s.cal := (raiseLimited_reports src inst p s).cal
@[simp] theorem raiseLimited_arb (s : State) : (raiseLimited src inst p s).arb = s.arb := (raiseLimited_reports src inst p s).arb
@[simp] theorem raiseLimited_chk (s : State) : (raiseLimited src inst p s).chk = s.chk := (raiseLimited_reports src inst p s).chk
@[simp] theorem raiseLimited_tst (s : State) : (raiseLimited src inst p s).tst = s.tst := (raiseLimited_reports src inst p s).tst
@[simp] theorem raiseLimited_rst (s : State) : (raiseLimited src inst p s).rst = s.rst := (raiseLimited_reports src inst p s).rst
@[simp] theorem raiseLimited_saved (s : State) : (raiseLimited src inst p s).saved = s.saved := (raiseLimited_reports src inst p s).saved
@[simp] theorem raiseLimited_ocp (s : State) : (raiseLimited src inst p s).ocp = s.ocp := (raiseLimited_reports src inst p s).ocp
@[simp] theorem raiseLimited_late (s : State) : (raiseLimited src inst p s).late = s.late := (raiseLimited_reports src inst p s).late
@[simp] theorem raiseLimited_cap (s : State) : (raiseLimited src inst p s).cap = s.cap := (raiseLimited_reports src inst p s).cap
@[simp] theorem raiseLimited_scans (s : State) : (raiseLimited src inst p s).scans = s.scans := (raiseLimited_reports src inst p s).scans

@[simp] theorem answer_pending (s : State) : (answer c st fin time res s).pending = s.pending := by
  obtain ⟨_, h⟩ := answer_reports c st fin time res s; exact h.pending
@[simp] theorem answer_free (s : State) : (answer c st fin time res s).free = s.free := by
  obtain ⟨_, h⟩ := answer_reports c st fin time res s; exact h.free
@[simp] theorem answer_clk (s : State) : (answer c st fin time res s).clk = s.clk := by
  obtain ⟨_, h⟩ := answer_reports c st fin time res s; exact h.clk
@[simp] theorem answer_sub (s : State) : (answer c st fin time res s).sub = s.sub := by
  obtain ⟨_, h⟩ := answer_reports c st fin time res s; exact h.sub
@[simp] theorem answer_out (s : State) : (answer c st fin time res s).out = s.out := by
  obtain ⟨_, h⟩ := answer_reports c st fin time res s; exact h.out
@[simp] theorem answer_setup (s : State) : (answer c st fin time res s).setup = s.setup := by
  obtain ⟨_, h⟩ := answer_reports c st fin time res s; exact h.setup
@[simp] theorem answer_shadow (s : State) : (answer c st fin time res s).shadow = s.shadow := by
  obtain ⟨_, h⟩ := answer_reports c st fin time res s; exact h.shadow
@[simp] theorem answer_viol (s : State) : (answer c st fin time res s).viol = s.viol := by
  obtain ⟨_, h⟩ := answer_reports c st fin time res s; exact h.viol
@[simp] theorem answer_hiPcie (s : State) : (answer c st fin time res s).hiPcie = s.hiPcie := by
  obtain ⟨_, h⟩ := answer_reports c st fin time res s; exact h.hiPcie
@[simp] theorem answer_hiWire (s : State) : (answer c st fin time res s).hiWire = s.hiWire := by
  obtain ⟨_, h⟩ := answer_reports c st fin time res s; exact h.hiWire
@[simp] theorem answer_straps (s : State) : (answer c st fin time res s).straps = s.straps := by
  obtain ⟨_, h⟩ := answer_reports c st fin time res s; exact h.straps
@[simp] theorem answer_pcie (s : State) : (answer c st fin time res s).pcie = s.pcie := by
  obtain ⟨_, h⟩ := answer_reports c st fin time res s; exact h.pcie
@[simp] theorem answer_refOk (s : State) : (answer c st fin time res s).refOk = s.refOk := by
  obtain ⟨_, h⟩ := answer_reports c st fin time res s; exact h.refOk
@[simp] theorem answer_hkoOk (s : State) : (answer c st fin time res s).hkoOk = s.hkoOk := by
  obtain ⟨_, h⟩ := answer_reports c st fin time res s; exact h.hkoOk
@[simp] theorem answer_refLostAt (s : State) : (answer c st fin time res s).refLostAt = s.refLostAt := by
  obtain ⟨_, h⟩ := answer_reports c st fin time res s; exact h.refLostAt
@[simp] theorem answer_pllAt (s : State) : (answer c st fin time res s).pllAt = s.pllAt := by
  obtain ⟨_, h⟩ := answer_reports c st fin time res s; exact h.pllAt
@[simp] theorem answer_tlm (s : State) : (answer c st fin time res s).tlm = s.tlm := by
  obtain ⟨_, h⟩ := answer_reports c st fin time res s; exact h.tlm
@[simp] theorem answer_lmem (s : State) : (answer c st fin time res s).lmem = s.lmem := by
  obtain ⟨_, h⟩ := answer_reports c st fin time res s; exact h.lmem
@[simp] theorem answer_lines (s : State) : (answer c st fin time res s).lines = s.lines := by
  obtain ⟨_, h⟩ := answer_reports c st fin time res s; exact h.lines
@[simp] theorem answer_hosts (s : State) : (answer c st fin time res s).hosts = s.hosts := by
  obtain ⟨_, h⟩ := answer_reports c st fin time res s; exact h.hosts
@[simp] theorem answer_ports (s : State) : (answer c st fin time res s).ports = s.ports := by
  obtain ⟨_, h⟩ := answer_reports c st fin time res s; exact h.ports
@[simp] theorem answer_mon (s : State) : (answer c st fin time res s).mon = s.mon := by
  obtain ⟨_, h⟩ := answer_reports c st fin time res s; exact h.mon
@[simp] theorem answer_comp (s : State) : (answer c st fin time res s).comp = s.comp := by
  obtain ⟨_, h⟩ := answer_reports c st fin time res s; exact h.comp
@[simp] theorem answer_thr (s : State) : (answer c st fin time res s).thr = s.thr := by
  obtain ⟨_, h⟩ := answer_reports c st fin time res s; exact h.thr
@[simp] theorem answer_therm (s : State) : (answer c st fin time res s).therm = s.therm := by
  obtain ⟨_, h⟩ := answer_reports c st fin time res s; exact h.therm
@[simp] theorem answer_cal (s : State) : (answer c st fin time res s).cal = s.cal := by
  obtain ⟨_, h⟩ := answer_reports c st fin time res s; exact h.cal
@[simp] theorem answer_arb (s : State) : (answer c st fin time res s).arb = s.arb := by
  obtain ⟨_, h⟩ := answer_reports c st fin time res s; exact h.arb
@[simp] theorem answer_chk (s : State) : (answer c st fin time res s).chk = s.chk := by
  obtain ⟨_, h⟩ := answer_reports c st fin time res s; exact h.chk
@[simp] theorem answer_tst (s : State) : (answer c st fin time res s).tst = s.tst := by
  obtain ⟨_, h⟩ := answer_reports c st fin time res s; exact h.tst
@[simp] theorem answer_rst (s : State) : (answer c st fin time res s).rst = s.rst := by
  obtain ⟨_, h⟩ := answer_reports c st fin time res s; exact h.rst
@[simp] theorem answer_saved (s : State) : (answer c st fin time res s).saved = s.saved := by
  obtain ⟨_, h⟩ := answer_reports c st fin time res s; exact h.saved
@[simp] theorem answer_ocp (s : State) : (answer c st fin time res s).ocp = s.ocp := by
  obtain ⟨_, h⟩ := answer_reports c st fin time res s; exact h.ocp
@[simp] theorem answer_late (s : State) : (answer c st fin time res s).late = s.late := by
  obtain ⟨_, h⟩ := answer_reports c st fin time res s; exact h.late
@[simp] theorem answer_cap (s : State) : (answer c st fin time res s).cap = s.cap := by
  obtain ⟨_, h⟩ := answer_reports c st fin time res s; exact h.cap
@[simp] theorem answer_scans (s : State) : (answer c st fin time res s).scans = s.scans := by
  obtain ⟨_, h⟩ := answer_reports c st fin time res s; exact h.scans

@[simp] theorem done_pending (s : State) : (done c res s).pending = s.pending := by
  obtain ⟨_, h⟩ := answer_reports c 0x00 true (finalTime c s) res s; exact h.pending
@[simp] theorem done_free (s : State) : (done c res s).free = s.free := by
  obtain ⟨_, h⟩ := answer_reports c 0x00 true (finalTime c s) res s; exact h.free
@[simp] theorem done_clk (s : State) : (done c res s).clk = s.clk := by
  obtain ⟨_, h⟩ := answer_reports c 0x00 true (finalTime c s) res s; exact h.clk
@[simp] theorem done_sub (s : State) : (done c res s).sub = s.sub := by
  obtain ⟨_, h⟩ := answer_reports c 0x00 true (finalTime c s) res s; exact h.sub
@[simp] theorem done_out (s : State) : (done c res s).out = s.out := by
  obtain ⟨_, h⟩ := answer_reports c 0x00 true (finalTime c s) res s; exact h.out
@[simp] theorem done_setup (s : State) : (done c res s).setup = s.setup := by
  obtain ⟨_, h⟩ := answer_reports c 0x00 true (finalTime c s) res s; exact h.setup
@[simp] theorem done_shadow (s : State) : (done c res s).shadow = s.shadow := by
  obtain ⟨_, h⟩ := answer_reports c 0x00 true (finalTime c s) res s; exact h.shadow
@[simp] theorem done_viol (s : State) : (done c res s).viol = s.viol := by
  obtain ⟨_, h⟩ := answer_reports c 0x00 true (finalTime c s) res s; exact h.viol
@[simp] theorem done_hiPcie (s : State) : (done c res s).hiPcie = s.hiPcie := by
  obtain ⟨_, h⟩ := answer_reports c 0x00 true (finalTime c s) res s; exact h.hiPcie
@[simp] theorem done_hiWire (s : State) : (done c res s).hiWire = s.hiWire := by
  obtain ⟨_, h⟩ := answer_reports c 0x00 true (finalTime c s) res s; exact h.hiWire
@[simp] theorem done_straps (s : State) : (done c res s).straps = s.straps := by
  obtain ⟨_, h⟩ := answer_reports c 0x00 true (finalTime c s) res s; exact h.straps
@[simp] theorem done_pcie (s : State) : (done c res s).pcie = s.pcie := by
  obtain ⟨_, h⟩ := answer_reports c 0x00 true (finalTime c s) res s; exact h.pcie
@[simp] theorem done_refOk (s : State) : (done c res s).refOk = s.refOk := by
  obtain ⟨_, h⟩ := answer_reports c 0x00 true (finalTime c s) res s; exact h.refOk
@[simp] theorem done_hkoOk (s : State) : (done c res s).hkoOk = s.hkoOk := by
  obtain ⟨_, h⟩ := answer_reports c 0x00 true (finalTime c s) res s; exact h.hkoOk
@[simp] theorem done_refLostAt (s : State) : (done c res s).refLostAt = s.refLostAt := by
  obtain ⟨_, h⟩ := answer_reports c 0x00 true (finalTime c s) res s; exact h.refLostAt
@[simp] theorem done_pllAt (s : State) : (done c res s).pllAt = s.pllAt := by
  obtain ⟨_, h⟩ := answer_reports c 0x00 true (finalTime c s) res s; exact h.pllAt
@[simp] theorem done_tlm (s : State) : (done c res s).tlm = s.tlm := by
  obtain ⟨_, h⟩ := answer_reports c 0x00 true (finalTime c s) res s; exact h.tlm
@[simp] theorem done_lmem (s : State) : (done c res s).lmem = s.lmem := by
  obtain ⟨_, h⟩ := answer_reports c 0x00 true (finalTime c s) res s; exact h.lmem
@[simp] theorem done_lines (s : State) : (done c res s).lines = s.lines := by
  obtain ⟨_, h⟩ := answer_reports c 0x00 true (finalTime c s) res s; exact h.lines
@[simp] theorem done_hosts (s : State) : (done c res s).hosts = s.hosts := by
  obtain ⟨_, h⟩ := answer_reports c 0x00 true (finalTime c s) res s; exact h.hosts
@[simp] theorem done_ports (s : State) : (done c res s).ports = s.ports := by
  obtain ⟨_, h⟩ := answer_reports c 0x00 true (finalTime c s) res s; exact h.ports
@[simp] theorem done_mon (s : State) : (done c res s).mon = s.mon := by
  obtain ⟨_, h⟩ := answer_reports c 0x00 true (finalTime c s) res s; exact h.mon
@[simp] theorem done_comp (s : State) : (done c res s).comp = s.comp := by
  obtain ⟨_, h⟩ := answer_reports c 0x00 true (finalTime c s) res s; exact h.comp
@[simp] theorem done_thr (s : State) : (done c res s).thr = s.thr := by
  obtain ⟨_, h⟩ := answer_reports c 0x00 true (finalTime c s) res s; exact h.thr
@[simp] theorem done_therm (s : State) : (done c res s).therm = s.therm := by
  obtain ⟨_, h⟩ := answer_reports c 0x00 true (finalTime c s) res s; exact h.therm
@[simp] theorem done_cal (s : State) : (done c res s).cal = s.cal := by
  obtain ⟨_, h⟩ := answer_reports c 0x00 true (finalTime c s) res s; exact h.cal
@[simp] theorem done_arb (s : State) : (done c res s).arb = s.arb := by
  obtain ⟨_, h⟩ := answer_reports c 0x00 true (finalTime c s) res s; exact h.arb
@[simp] theorem done_chk (s : State) : (done c res s).chk = s.chk := by
  obtain ⟨_, h⟩ := answer_reports c 0x00 true (finalTime c s) res s; exact h.chk
@[simp] theorem done_tst (s : State) : (done c res s).tst = s.tst := by
  obtain ⟨_, h⟩ := answer_reports c 0x00 true (finalTime c s) res s; exact h.tst
@[simp] theorem done_rst (s : State) : (done c res s).rst = s.rst := by
  obtain ⟨_, h⟩ := answer_reports c 0x00 true (finalTime c s) res s; exact h.rst
@[simp] theorem done_saved (s : State) : (done c res s).saved = s.saved := by
  obtain ⟨_, h⟩ := answer_reports c 0x00 true (finalTime c s) res s; exact h.saved
@[simp] theorem done_ocp (s : State) : (done c res s).ocp = s.ocp := by
  obtain ⟨_, h⟩ := answer_reports c 0x00 true (finalTime c s) res s; exact h.ocp
@[simp] theorem done_late (s : State) : (done c res s).late = s.late := by
  obtain ⟨_, h⟩ := answer_reports c 0x00 true (finalTime c s) res s; exact h.late
@[simp] theorem done_cap (s : State) : (done c res s).cap = s.cap := by
  obtain ⟨_, h⟩ := answer_reports c 0x00 true (finalTime c s) res s; exact h.cap
@[simp] theorem done_scans (s : State) : (done c res s).scans = s.scans := by
  obtain ⟨_, h⟩ := answer_reports c 0x00 true (finalTime c s) res s; exact h.scans

@[simp] theorem refuse_pending (s : State) : (refuse c st s).pending = s.pending := by
  obtain ⟨_, h⟩ := answer_reports c st true (finalTime c s) 0 s; exact h.pending
@[simp] theorem refuse_free (s : State) : (refuse c st s).free = s.free := by
  obtain ⟨_, h⟩ := answer_reports c st true (finalTime c s) 0 s; exact h.free
@[simp] theorem refuse_clk (s : State) : (refuse c st s).clk = s.clk := by
  obtain ⟨_, h⟩ := answer_reports c st true (finalTime c s) 0 s; exact h.clk
@[simp] theorem refuse_sub (s : State) : (refuse c st s).sub = s.sub := by
  obtain ⟨_, h⟩ := answer_reports c st true (finalTime c s) 0 s; exact h.sub
@[simp] theorem refuse_out (s : State) : (refuse c st s).out = s.out := by
  obtain ⟨_, h⟩ := answer_reports c st true (finalTime c s) 0 s; exact h.out
@[simp] theorem refuse_setup (s : State) : (refuse c st s).setup = s.setup := by
  obtain ⟨_, h⟩ := answer_reports c st true (finalTime c s) 0 s; exact h.setup
@[simp] theorem refuse_shadow (s : State) : (refuse c st s).shadow = s.shadow := by
  obtain ⟨_, h⟩ := answer_reports c st true (finalTime c s) 0 s; exact h.shadow
@[simp] theorem refuse_viol (s : State) : (refuse c st s).viol = s.viol := by
  obtain ⟨_, h⟩ := answer_reports c st true (finalTime c s) 0 s; exact h.viol
@[simp] theorem refuse_hiPcie (s : State) : (refuse c st s).hiPcie = s.hiPcie := by
  obtain ⟨_, h⟩ := answer_reports c st true (finalTime c s) 0 s; exact h.hiPcie
@[simp] theorem refuse_hiWire (s : State) : (refuse c st s).hiWire = s.hiWire := by
  obtain ⟨_, h⟩ := answer_reports c st true (finalTime c s) 0 s; exact h.hiWire
@[simp] theorem refuse_straps (s : State) : (refuse c st s).straps = s.straps := by
  obtain ⟨_, h⟩ := answer_reports c st true (finalTime c s) 0 s; exact h.straps
@[simp] theorem refuse_pcie (s : State) : (refuse c st s).pcie = s.pcie := by
  obtain ⟨_, h⟩ := answer_reports c st true (finalTime c s) 0 s; exact h.pcie
@[simp] theorem refuse_refOk (s : State) : (refuse c st s).refOk = s.refOk := by
  obtain ⟨_, h⟩ := answer_reports c st true (finalTime c s) 0 s; exact h.refOk
@[simp] theorem refuse_hkoOk (s : State) : (refuse c st s).hkoOk = s.hkoOk := by
  obtain ⟨_, h⟩ := answer_reports c st true (finalTime c s) 0 s; exact h.hkoOk
@[simp] theorem refuse_refLostAt (s : State) : (refuse c st s).refLostAt = s.refLostAt := by
  obtain ⟨_, h⟩ := answer_reports c st true (finalTime c s) 0 s; exact h.refLostAt
@[simp] theorem refuse_pllAt (s : State) : (refuse c st s).pllAt = s.pllAt := by
  obtain ⟨_, h⟩ := answer_reports c st true (finalTime c s) 0 s; exact h.pllAt
@[simp] theorem refuse_tlm (s : State) : (refuse c st s).tlm = s.tlm := by
  obtain ⟨_, h⟩ := answer_reports c st true (finalTime c s) 0 s; exact h.tlm
@[simp] theorem refuse_lmem (s : State) : (refuse c st s).lmem = s.lmem := by
  obtain ⟨_, h⟩ := answer_reports c st true (finalTime c s) 0 s; exact h.lmem
@[simp] theorem refuse_lines (s : State) : (refuse c st s).lines = s.lines := by
  obtain ⟨_, h⟩ := answer_reports c st true (finalTime c s) 0 s; exact h.lines
@[simp] theorem refuse_hosts (s : State) : (refuse c st s).hosts = s.hosts := by
  obtain ⟨_, h⟩ := answer_reports c st true (finalTime c s) 0 s; exact h.hosts
@[simp] theorem refuse_ports (s : State) : (refuse c st s).ports = s.ports := by
  obtain ⟨_, h⟩ := answer_reports c st true (finalTime c s) 0 s; exact h.ports
@[simp] theorem refuse_mon (s : State) : (refuse c st s).mon = s.mon := by
  obtain ⟨_, h⟩ := answer_reports c st true (finalTime c s) 0 s; exact h.mon
@[simp] theorem refuse_comp (s : State) : (refuse c st s).comp = s.comp := by
  obtain ⟨_, h⟩ := answer_reports c st true (finalTime c s) 0 s; exact h.comp
@[simp] theorem refuse_thr (s : State) : (refuse c st s).thr = s.thr := by
  obtain ⟨_, h⟩ := answer_reports c st true (finalTime c s) 0 s; exact h.thr
@[simp] theorem refuse_therm (s : State) : (refuse c st s).therm = s.therm := by
  obtain ⟨_, h⟩ := answer_reports c st true (finalTime c s) 0 s; exact h.therm
@[simp] theorem refuse_cal (s : State) : (refuse c st s).cal = s.cal := by
  obtain ⟨_, h⟩ := answer_reports c st true (finalTime c s) 0 s; exact h.cal
@[simp] theorem refuse_arb (s : State) : (refuse c st s).arb = s.arb := by
  obtain ⟨_, h⟩ := answer_reports c st true (finalTime c s) 0 s; exact h.arb
@[simp] theorem refuse_chk (s : State) : (refuse c st s).chk = s.chk := by
  obtain ⟨_, h⟩ := answer_reports c st true (finalTime c s) 0 s; exact h.chk
@[simp] theorem refuse_tst (s : State) : (refuse c st s).tst = s.tst := by
  obtain ⟨_, h⟩ := answer_reports c st true (finalTime c s) 0 s; exact h.tst
@[simp] theorem refuse_rst (s : State) : (refuse c st s).rst = s.rst := by
  obtain ⟨_, h⟩ := answer_reports c st true (finalTime c s) 0 s; exact h.rst
@[simp] theorem refuse_saved (s : State) : (refuse c st s).saved = s.saved := by
  obtain ⟨_, h⟩ := answer_reports c st true (finalTime c s) 0 s; exact h.saved
@[simp] theorem refuse_ocp (s : State) : (refuse c st s).ocp = s.ocp := by
  obtain ⟨_, h⟩ := answer_reports c st true (finalTime c s) 0 s; exact h.ocp
@[simp] theorem refuse_late (s : State) : (refuse c st s).late = s.late := by
  obtain ⟨_, h⟩ := answer_reports c st true (finalTime c s) 0 s; exact h.late
@[simp] theorem refuse_cap (s : State) : (refuse c st s).cap = s.cap := by
  obtain ⟨_, h⟩ := answer_reports c st true (finalTime c s) 0 s; exact h.cap
@[simp] theorem refuse_scans (s : State) : (refuse c st s).scans = s.scans := by
  obtain ⟨_, h⟩ := answer_reports c st true (finalTime c s) 0 s; exact h.scans

@[simp] theorem tlmForm_pending (s : State) : (tlmForm typ units more frag origin time body s).1.pending = s.pending := by
  obtain ⟨_, _, h⟩ := tlmForm_reports typ units more frag origin time body s; exact h.pending
@[simp] theorem tlmForm_free (s : State) : (tlmForm typ units more frag origin time body s).1.free = s.free := by
  obtain ⟨_, _, h⟩ := tlmForm_reports typ units more frag origin time body s; exact h.free
@[simp] theorem tlmForm_clk (s : State) : (tlmForm typ units more frag origin time body s).1.clk = s.clk := by
  obtain ⟨_, _, h⟩ := tlmForm_reports typ units more frag origin time body s; exact h.clk
@[simp] theorem tlmForm_sub (s : State) : (tlmForm typ units more frag origin time body s).1.sub = s.sub := by
  obtain ⟨_, _, h⟩ := tlmForm_reports typ units more frag origin time body s; exact h.sub
@[simp] theorem tlmForm_out (s : State) : (tlmForm typ units more frag origin time body s).1.out = s.out := by
  obtain ⟨_, _, h⟩ := tlmForm_reports typ units more frag origin time body s; exact h.out
@[simp] theorem tlmForm_setup (s : State) : (tlmForm typ units more frag origin time body s).1.setup = s.setup := by
  obtain ⟨_, _, h⟩ := tlmForm_reports typ units more frag origin time body s; exact h.setup
@[simp] theorem tlmForm_shadow (s : State) : (tlmForm typ units more frag origin time body s).1.shadow = s.shadow := by
  obtain ⟨_, _, h⟩ := tlmForm_reports typ units more frag origin time body s; exact h.shadow
@[simp] theorem tlmForm_viol (s : State) : (tlmForm typ units more frag origin time body s).1.viol = s.viol := by
  obtain ⟨_, _, h⟩ := tlmForm_reports typ units more frag origin time body s; exact h.viol
@[simp] theorem tlmForm_hiPcie (s : State) : (tlmForm typ units more frag origin time body s).1.hiPcie = s.hiPcie := by
  obtain ⟨_, _, h⟩ := tlmForm_reports typ units more frag origin time body s; exact h.hiPcie
@[simp] theorem tlmForm_hiWire (s : State) : (tlmForm typ units more frag origin time body s).1.hiWire = s.hiWire := by
  obtain ⟨_, _, h⟩ := tlmForm_reports typ units more frag origin time body s; exact h.hiWire
@[simp] theorem tlmForm_straps (s : State) : (tlmForm typ units more frag origin time body s).1.straps = s.straps := by
  obtain ⟨_, _, h⟩ := tlmForm_reports typ units more frag origin time body s; exact h.straps
@[simp] theorem tlmForm_pcie (s : State) : (tlmForm typ units more frag origin time body s).1.pcie = s.pcie := by
  obtain ⟨_, _, h⟩ := tlmForm_reports typ units more frag origin time body s; exact h.pcie
@[simp] theorem tlmForm_refOk (s : State) : (tlmForm typ units more frag origin time body s).1.refOk = s.refOk := by
  obtain ⟨_, _, h⟩ := tlmForm_reports typ units more frag origin time body s; exact h.refOk
@[simp] theorem tlmForm_hkoOk (s : State) : (tlmForm typ units more frag origin time body s).1.hkoOk = s.hkoOk := by
  obtain ⟨_, _, h⟩ := tlmForm_reports typ units more frag origin time body s; exact h.hkoOk
@[simp] theorem tlmForm_refLostAt (s : State) : (tlmForm typ units more frag origin time body s).1.refLostAt = s.refLostAt := by
  obtain ⟨_, _, h⟩ := tlmForm_reports typ units more frag origin time body s; exact h.refLostAt
@[simp] theorem tlmForm_pllAt (s : State) : (tlmForm typ units more frag origin time body s).1.pllAt = s.pllAt := by
  obtain ⟨_, _, h⟩ := tlmForm_reports typ units more frag origin time body s; exact h.pllAt
@[simp] theorem tlmForm_lmem (s : State) : (tlmForm typ units more frag origin time body s).1.lmem = s.lmem := by
  obtain ⟨_, _, h⟩ := tlmForm_reports typ units more frag origin time body s; exact h.lmem
@[simp] theorem tlmForm_lines (s : State) : (tlmForm typ units more frag origin time body s).1.lines = s.lines := by
  obtain ⟨_, _, h⟩ := tlmForm_reports typ units more frag origin time body s; exact h.lines
@[simp] theorem tlmForm_hosts (s : State) : (tlmForm typ units more frag origin time body s).1.hosts = s.hosts := by
  obtain ⟨_, _, h⟩ := tlmForm_reports typ units more frag origin time body s; exact h.hosts
@[simp] theorem tlmForm_ports (s : State) : (tlmForm typ units more frag origin time body s).1.ports = s.ports := by
  obtain ⟨_, _, h⟩ := tlmForm_reports typ units more frag origin time body s; exact h.ports
@[simp] theorem tlmForm_mon (s : State) : (tlmForm typ units more frag origin time body s).1.mon = s.mon := by
  obtain ⟨_, _, h⟩ := tlmForm_reports typ units more frag origin time body s; exact h.mon
@[simp] theorem tlmForm_comp (s : State) : (tlmForm typ units more frag origin time body s).1.comp = s.comp := by
  obtain ⟨_, _, h⟩ := tlmForm_reports typ units more frag origin time body s; exact h.comp
@[simp] theorem tlmForm_thr (s : State) : (tlmForm typ units more frag origin time body s).1.thr = s.thr := by
  obtain ⟨_, _, h⟩ := tlmForm_reports typ units more frag origin time body s; exact h.thr
@[simp] theorem tlmForm_therm (s : State) : (tlmForm typ units more frag origin time body s).1.therm = s.therm := by
  obtain ⟨_, _, h⟩ := tlmForm_reports typ units more frag origin time body s; exact h.therm
@[simp] theorem tlmForm_cal (s : State) : (tlmForm typ units more frag origin time body s).1.cal = s.cal := by
  obtain ⟨_, _, h⟩ := tlmForm_reports typ units more frag origin time body s; exact h.cal
@[simp] theorem tlmForm_arb (s : State) : (tlmForm typ units more frag origin time body s).1.arb = s.arb := by
  obtain ⟨_, _, h⟩ := tlmForm_reports typ units more frag origin time body s; exact h.arb
@[simp] theorem tlmForm_chk (s : State) : (tlmForm typ units more frag origin time body s).1.chk = s.chk := by
  obtain ⟨_, _, h⟩ := tlmForm_reports typ units more frag origin time body s; exact h.chk
@[simp] theorem tlmForm_tst (s : State) : (tlmForm typ units more frag origin time body s).1.tst = s.tst := by
  obtain ⟨_, _, h⟩ := tlmForm_reports typ units more frag origin time body s; exact h.tst
@[simp] theorem tlmForm_rst (s : State) : (tlmForm typ units more frag origin time body s).1.rst = s.rst := by
  obtain ⟨_, _, h⟩ := tlmForm_reports typ units more frag origin time body s; exact h.rst
@[simp] theorem tlmForm_saved (s : State) : (tlmForm typ units more frag origin time body s).1.saved = s.saved := by
  obtain ⟨_, _, h⟩ := tlmForm_reports typ units more frag origin time body s; exact h.saved
@[simp] theorem tlmForm_ocp (s : State) : (tlmForm typ units more frag origin time body s).1.ocp = s.ocp := by
  obtain ⟨_, _, h⟩ := tlmForm_reports typ units more frag origin time body s; exact h.ocp
@[simp] theorem tlmForm_late (s : State) : (tlmForm typ units more frag origin time body s).1.late = s.late := by
  obtain ⟨_, _, h⟩ := tlmForm_reports typ units more frag origin time body s; exact h.late
@[simp] theorem tlmForm_cap (s : State) : (tlmForm typ units more frag origin time body s).1.cap = s.cap := by
  obtain ⟨_, _, h⟩ := tlmForm_reports typ units more frag origin time body s; exact h.cap
@[simp] theorem tlmForm_scans (s : State) : (tlmForm typ units more frag origin time body s).1.scans = s.scans := by
  obtain ⟨_, _, h⟩ := tlmForm_reports typ units more frag origin time body s; exact h.scans

@[simp] theorem arbPresent_pending (s : State) : (arbPresent cls t s).1.pending = s.pending := by
  obtain ⟨_, h⟩ := arbPresent_reports cls t s; exact h.pending
@[simp] theorem arbPresent_free (s : State) : (arbPresent cls t s).1.free = s.free := by
  obtain ⟨_, h⟩ := arbPresent_reports cls t s; exact h.free
@[simp] theorem arbPresent_clk (s : State) : (arbPresent cls t s).1.clk = s.clk := by
  obtain ⟨_, h⟩ := arbPresent_reports cls t s; exact h.clk
@[simp] theorem arbPresent_sub (s : State) : (arbPresent cls t s).1.sub = s.sub := by
  obtain ⟨_, h⟩ := arbPresent_reports cls t s; exact h.sub
@[simp] theorem arbPresent_out (s : State) : (arbPresent cls t s).1.out = s.out := by
  obtain ⟨_, h⟩ := arbPresent_reports cls t s; exact h.out
@[simp] theorem arbPresent_setup (s : State) : (arbPresent cls t s).1.setup = s.setup := by
  obtain ⟨_, h⟩ := arbPresent_reports cls t s; exact h.setup
@[simp] theorem arbPresent_shadow (s : State) : (arbPresent cls t s).1.shadow = s.shadow := by
  obtain ⟨_, h⟩ := arbPresent_reports cls t s; exact h.shadow
@[simp] theorem arbPresent_viol (s : State) : (arbPresent cls t s).1.viol = s.viol := by
  obtain ⟨_, h⟩ := arbPresent_reports cls t s; exact h.viol
@[simp] theorem arbPresent_hiPcie (s : State) : (arbPresent cls t s).1.hiPcie = s.hiPcie := by
  obtain ⟨_, h⟩ := arbPresent_reports cls t s; exact h.hiPcie
@[simp] theorem arbPresent_hiWire (s : State) : (arbPresent cls t s).1.hiWire = s.hiWire := by
  obtain ⟨_, h⟩ := arbPresent_reports cls t s; exact h.hiWire
@[simp] theorem arbPresent_straps (s : State) : (arbPresent cls t s).1.straps = s.straps := by
  obtain ⟨_, h⟩ := arbPresent_reports cls t s; exact h.straps
@[simp] theorem arbPresent_pcie (s : State) : (arbPresent cls t s).1.pcie = s.pcie := by
  obtain ⟨_, h⟩ := arbPresent_reports cls t s; exact h.pcie
@[simp] theorem arbPresent_refOk (s : State) : (arbPresent cls t s).1.refOk = s.refOk := by
  obtain ⟨_, h⟩ := arbPresent_reports cls t s; exact h.refOk
@[simp] theorem arbPresent_hkoOk (s : State) : (arbPresent cls t s).1.hkoOk = s.hkoOk := by
  obtain ⟨_, h⟩ := arbPresent_reports cls t s; exact h.hkoOk
@[simp] theorem arbPresent_refLostAt (s : State) : (arbPresent cls t s).1.refLostAt = s.refLostAt := by
  obtain ⟨_, h⟩ := arbPresent_reports cls t s; exact h.refLostAt
@[simp] theorem arbPresent_pllAt (s : State) : (arbPresent cls t s).1.pllAt = s.pllAt := by
  obtain ⟨_, h⟩ := arbPresent_reports cls t s; exact h.pllAt
@[simp] theorem arbPresent_rings (s : State) : (arbPresent cls t s).1.rings = s.rings := by
  obtain ⟨_, h⟩ := arbPresent_reports cls t s; exact h.rings
@[simp] theorem arbPresent_tlm (s : State) : (arbPresent cls t s).1.tlm = s.tlm := by
  obtain ⟨_, h⟩ := arbPresent_reports cls t s; exact h.tlm
@[simp] theorem arbPresent_lmem (s : State) : (arbPresent cls t s).1.lmem = s.lmem := by
  obtain ⟨_, h⟩ := arbPresent_reports cls t s; exact h.lmem
@[simp] theorem arbPresent_lines (s : State) : (arbPresent cls t s).1.lines = s.lines := by
  obtain ⟨_, h⟩ := arbPresent_reports cls t s; exact h.lines
@[simp] theorem arbPresent_hosts (s : State) : (arbPresent cls t s).1.hosts = s.hosts := by
  obtain ⟨_, h⟩ := arbPresent_reports cls t s; exact h.hosts
@[simp] theorem arbPresent_ports (s : State) : (arbPresent cls t s).1.ports = s.ports := by
  obtain ⟨_, h⟩ := arbPresent_reports cls t s; exact h.ports
@[simp] theorem arbPresent_mon (s : State) : (arbPresent cls t s).1.mon = s.mon := by
  obtain ⟨_, h⟩ := arbPresent_reports cls t s; exact h.mon
@[simp] theorem arbPresent_comp (s : State) : (arbPresent cls t s).1.comp = s.comp := by
  obtain ⟨_, h⟩ := arbPresent_reports cls t s; exact h.comp
@[simp] theorem arbPresent_thr (s : State) : (arbPresent cls t s).1.thr = s.thr := by
  obtain ⟨_, h⟩ := arbPresent_reports cls t s; exact h.thr
@[simp] theorem arbPresent_therm (s : State) : (arbPresent cls t s).1.therm = s.therm := by
  obtain ⟨_, h⟩ := arbPresent_reports cls t s; exact h.therm
@[simp] theorem arbPresent_cal (s : State) : (arbPresent cls t s).1.cal = s.cal := by
  obtain ⟨_, h⟩ := arbPresent_reports cls t s; exact h.cal
@[simp] theorem arbPresent_chk (s : State) : (arbPresent cls t s).1.chk = s.chk := by
  obtain ⟨_, h⟩ := arbPresent_reports cls t s; exact h.chk
@[simp] theorem arbPresent_tst (s : State) : (arbPresent cls t s).1.tst = s.tst := by
  obtain ⟨_, h⟩ := arbPresent_reports cls t s; exact h.tst
@[simp] theorem arbPresent_rst (s : State) : (arbPresent cls t s).1.rst = s.rst := by
  obtain ⟨_, h⟩ := arbPresent_reports cls t s; exact h.rst
@[simp] theorem arbPresent_saved (s : State) : (arbPresent cls t s).1.saved = s.saved := by
  obtain ⟨_, h⟩ := arbPresent_reports cls t s; exact h.saved
@[simp] theorem arbPresent_ocp (s : State) : (arbPresent cls t s).1.ocp = s.ocp := by
  obtain ⟨_, h⟩ := arbPresent_reports cls t s; exact h.ocp
@[simp] theorem arbPresent_late (s : State) : (arbPresent cls t s).1.late = s.late := by
  obtain ⟨_, h⟩ := arbPresent_reports cls t s; exact h.late
@[simp] theorem arbPresent_cap (s : State) : (arbPresent cls t s).1.cap = s.cap := by
  obtain ⟨_, h⟩ := arbPresent_reports cls t s; exact h.cap
@[simp] theorem arbPresent_scans (s : State) : (arbPresent cls t s).1.scans = s.scans := by
  obtain ⟨_, h⟩ := arbPresent_reports cls t s; exact h.scans

end Sys2Proof.Machine
end

