-- ==== Sys2Proof/Laws/Registers.lean ====
section
/-! SUPPORT. Set-up registers as a map: what a read finds after a write of one of them, and what such a write leaves alone. -/

-- One proof after another: the package is compiled as one text, where proofs side by side take too much memory.
set_option Elab.async false

namespace Sys2Proof.Machine

open Sys2Proof

theorem assocGet_cons {α : Type} (e : Nat × α) (l : List (Nat × α)) (k : Nat) :
    assocGet (e :: l) k = if e.1 = k then some e.2 else assocGet l k := by
  unfold assocGet
  rw [List.find?_cons]
  by_cases h : e.1 = k
  · simp [h]
  · simp [beq_eq_false_iff_ne.mpr h, h]

theorem assocGet_filter_ne {α : Type} (l : List (Nat × α)) {k j : Nat} (h : j ≠ k) :
    assocGet (l.filter fun e => e.1 != k) j = assocGet l j := by
  induction l with
  | nil => rfl
  | cons e t ih =>
    rw [List.filter_cons, assocGet_cons]
    split
    · rw [assocGet_cons, ih]
    · rename_i c
      have : e.1 = k := by simpa using c
      rw [ih, if_neg (by omega)]

@[simp] theorem assocGet_del {α : Type} (l : List (Nat × α)) (k : Nat) : assocGet (assocDel l k) k = none := by
  unfold assocGet assocDel
  simp [List.find?_eq_none]

theorem assocGet_del_ne {α : Type} (l : List (Nat × α)) {k j : Nat} (h : j ≠ k) : assocGet (assocDel l k) j = assocGet l j :=
  assocGet_filter_ne l h

theorem assocGet_set {α : Type} (l : List (Nat × α)) (k j : Nat) (v : α) :
    assocGet (assocSet l k v) j = if j = k then some v else assocGet l j := by
  unfold assocSet
  rw [assocGet_cons]
  by_cases h : j = k
  · simp [h]
  · rw [if_neg (by simpa using (fun x : k = j => h x.symm)), if_neg h, assocGet_filter_ne l h]

/-- A register after a write of one register. -/
theorem reg_regSet (off : Nat) (v : Word) (s : State) (o : Nat) : reg (regSet off v s) o = if o = off then v else reg s o := by
  unfold reg regSet
  by_cases h : o = off
  · subst h; split
    · rename_i e; simp [e]
    · simp [assocGet_set]
  · split
    · simp [assocGet_del_ne _ h]
    · simp [assocGet_set, h]

/-- A write of one register writes the set-up registers and their shadows. -/
theorem regSet_changes (off : Nat) (v : Word) (s : State) : OnlyChanges [.setup] s (regSet off v s) := by
  unfold regSet; intro p hp; split <;> cases p <;> simp_all [Part.same]

theorem Reports.reg {s t : State} (h : Reports s t) (o : Nat) : reg t o = reg s o := by unfold Machine.reg; rw [h.setup]

end Sys2Proof.Machine
end

