-- ==== Sys2Proof/Laws/Commands.lean ====
section
/-! SUPPORT. Commands from descriptors: what a command that is taken, accepted and started answers, in terms of its opcode's
effect. -/

-- One proof after another: the package is compiled as one text, where proofs side by side take too much memory.
set_option Elab.async false

namespace Sys2Proof

open Machine

variable {i : Instr} {op : Nat} {d : Desc} {img : ImageCheck} {s u : State} {c : Cmd}

theorem releaseHeld_id (s : State) (h : s.rings.held = []) : releaseHeld s = s := by simp [releaseHeld, h, releaseUpTo]

theorem cplLimit_held (s : State) : (cplLimit s).rings.held = s.rings.held := by
  unfold cplLimit; split
  · rfl
  · split
    · rfl
    · simp only; rw [(raise_reports _ _ _).rings]; rfl

theorem answer_held (c st fin t r) (s : State) : (answer c st fin t r s).rings.held = s.rings.held := by
  unfold answer; split
  · rfl
  · simp only
    split
    · rfl
    · rw [cplLimit_held]; rfl

theorem done_held (c r) (s : State) : (done c r s).rings.held = s.rings.held := answer_held _ _ _ _ _ _

theorem refuse_held (c r) (s : State) : (refuse c r s).rings.held = s.rings.held := answer_held _ _ _ _ _ _

theorem exec_opcode (h : opcodeOf i = some (op, d, img)) (s : State) : exec i s = .next (submit op d img s) := by
  cases i <;> simp only [opcodeOf, reduceCtorEq, Option.some.injEq, Prod.mk.injEq] at h <;> (obtain ⟨rfl, rfl, rfl⟩ := h) <;> rfl

theorem Taken.held (h : Taken op d img s c u) : u.rings.held = [] := by obtain ⟨_, b, _, rfl⟩ := h; exact b

theorem Taken.ctrl (h : Taken op d img s c u) : u.rst.ctrlReset = false := by obtain ⟨b, _, _, rfl⟩ := h; exact b

theorem Taken.fields (h : Taken op d img s c u) : c.op = op ∧ c.d = d ∧ c.img = img := by obtain ⟨_, b, rfl, rfl⟩ := h; exact ⟨rfl, rfl, rfl⟩

theorem submit_taken (h : Taken op d img s c u) : submit op d img s = releaseHeld (cmdCheck c u) := by
  obtain ⟨h1, _, rfl, rfl⟩ := h; simp only [submit, h1]; rfl

theorem cmdCheck_acc (h : Accepted op d img s c u) : cmdCheck c u = cmdAccept c u := by
  obtain ⟨_, h1, h2, h3, h4, h5, h6⟩ := h
  simp [cmdCheck, h1, h2, h3, h4, h5, h6]

theorem submit_once (h : AtOnce op d img s c u) : submit op d img s = releaseHeld (opAct c u) := by
  obtain ⟨ha, h1, h2⟩ := h
  rw [submit_taken ha.1, cmdCheck_acc ha]
  simp [cmdAccept, mustWait, ha.1.held, h1, cmdStart, h2]

/-- A command that takes effect at once answers its opcode's effect. -/
theorem exec_once (hi : opcodeOf i = some (op, d, img)) (h : AtOnce op d img s c u) (v : State) (hv : opAct c u = v)
    (hh : v.rings.held = u.rings.held) : exec i s = .next v := by
  rw [exec_opcode hi, submit_once h, hv, releaseHeld_id]; rw [hh]; exact h.1.1.held

end Sys2Proof
end

