-- ==== Sys2Proof/Laws/Memory.lean ====
section
/-! SUPPORT. The local ring memory (R309): every write keeps its canonical form, and what each byte reads afterwards. -/

-- One proof after another: the package is compiled as one text, where proofs side by side take too much memory.
set_option Elab.async false

namespace Sys2Proof.Machine

open Sys2Proof

/-- Every cell of a list lies at or above an address. -/
def Memory.above (a : Nat) (m : List Host.Cell) : Prop := ∀ c ∈ m, a ≤ c.1

theorem Memory.wf_cons {c : Host.Cell} {m : List Host.Cell} :
    Memory.wf (c :: m) = true ↔ c.2 ≠ 0 ∧ Memory.above (c.1 + 1) m ∧ Memory.wf m = true := by
  induction m generalizing c with
  | nil => simp [Memory.wf, Memory.above]
  | cons d t ih =>
    simp only [Memory.wf, Bool.and_eq_true, bne_iff_ne, ne_eq, decide_eq_true_eq]
    constructor
    · rintro ⟨⟨h1, h2⟩, h3⟩
      refine ⟨h1, fun e he => ?_, h3⟩
      rcases List.mem_cons.1 he with rfl | he
      · exact h2
      · have := (ih.1 h3).2.1 e he; omega
    · rintro ⟨h1, h2, h3⟩
      exact ⟨⟨h1, h2 d (by simp)⟩, h3⟩

theorem Memory.get_above {a b : Nat} {m : List Host.Cell} (h : Memory.above b m) (hab : a < b) : Memory.get m a = 0 := by
  induction m with
  | nil => rfl
  | cons c t ih =>
    have hc := h c (by simp)
    simp only [Memory.get]
    rw [if_neg (by omega)]
    exact ih fun e he => h e (by simp [he])

theorem Memory.above_set {k a : Nat} {b : Byte} {m : List Host.Cell} (h : Memory.above k m) (ha : k ≤ a) :
    Memory.above k (Memory.set m a b) := by
  induction m with
  | nil =>
    unfold Memory.set
    split <;> simp [Memory.above, ha]
  | cons c t ih =>
    have hc := h c (by simp)
    have ht : Memory.above k t := fun e he => h e (by simp [he])
    unfold Memory.set
    intro e he
    split at he
    · split at he
      · exact h e he
      · rcases List.mem_cons.1 he with rfl | he
        · exact ha
        · exact h e he
    · split at he
      · split at he
        · exact ht e he
        · rcases List.mem_cons.1 he with rfl | he
          · exact ha
          · exact ht e he
      · rcases List.mem_cons.1 he with rfl | he
        · exact hc
        · exact ih ht e he

/-- A write of one byte keeps the canonical form. -/
theorem Memory.wf_set {m : List Host.Cell} (a : Nat) (b : Byte) (h : Memory.wf m = true) :
    Memory.wf (Memory.set m a b) = true := by
  induction m with
  | nil =>
    unfold Memory.set
    split
    · rfl
    · simpa [Memory.wf]
  | cons c t ih =>
    obtain ⟨h1, h2, h3⟩ := Memory.wf_cons.1 h
    unfold Memory.set
    split
    · split
      · exact h
      · rename_i hlt hb
        refine Memory.wf_cons.2 ⟨hb, fun e he => ?_, h⟩
        rcases List.mem_cons.1 he with rfl | he
        · exact hlt
        · have := h2 e he; simp only; omega
    · split
      · split
        · exact h3
        · rename_i heq hb
          exact Memory.wf_cons.2 ⟨hb, by simpa only [heq] using h2, h3⟩
      · exact Memory.wf_cons.2 ⟨h1, Memory.above_set h2 (by omega), ih h3⟩

/-- A write of several bytes keeps the canonical form. -/
theorem Memory.wf_write {m : List Host.Cell} (a : Nat) (l : List Byte) (h : Memory.wf m = true) :
    Memory.wf (Memory.write m a l) = true := by
  induction l generalizing m a with
  | nil => exact h
  | cons b t ih => exact ih (a + 1) (Memory.wf_set a b h)

/-- What a write of one byte leaves to read, at its address and at every other. -/
theorem Memory.get_set {m : List Host.Cell} (h : Memory.wf m = true) (a b : Nat) (v : Byte) :
    Memory.get (Memory.set m a v) b = if b = a then v else Memory.get m b := by
  induction m with
  | nil =>
    unfold Memory.set
    split
    · rename_i hv; simp [Memory.get, hv]
    · simp only [Memory.get]
      by_cases hb : b = a
      · simp [hb]
      · rw [if_neg (fun x => hb x.symm), if_neg hb]
  | cons c t ih =>
    obtain ⟨h1, h2, h3⟩ := Memory.wf_cons.1 h
    unfold Memory.set
    split
    · rename_i hlt
      have hz : Memory.get (c :: t) a = 0 := Memory.get_above (b := a + 1)
        (fun e he => by
          rcases List.mem_cons.1 he with rfl | he
          · exact hlt
          · have := h2 e he; omega) (by omega)
      split
      · rename_i hv
        by_cases hb : b = a
        · rw [if_pos hb, hb, hz, hv]
        · rw [if_neg hb]
      · by_cases hb : b = a
        · simp [Memory.get, hb]
        · rw [if_neg hb]; rw [Memory.get]; rw [if_neg (fun x => hb x.symm)]
    · split
      · rename_i heq
        split
        · rename_i hv
          by_cases hb : b = a
          · rw [if_pos hb, hb, hv]; exact Memory.get_above h2 (by omega)
          · rw [if_neg hb, Memory.get, if_neg (by omega)]
        · by_cases hb : b = a
          · simp [Memory.get, hb]
          · rw [if_neg hb, Memory.get, if_neg (fun x => hb x.symm), Memory.get, if_neg (by omega)]
      · rename_i hlt hne
        simp only [Memory.get, ih h3]
        by_cases hc : c.1 = b
        · rw [if_pos hc, if_neg (by omega), if_pos hc]
        · rw [if_neg hc, if_neg hc]

/-- A byte outside those written reads as before. -/
theorem Memory.get_write_outside {m : List Host.Cell} (h : Memory.wf m = true) (a : Nat) (l : List Byte) (b : Nat)
    (hb : b < a ∨ a + l.length ≤ b) : Memory.get (Memory.write m a l) b = Memory.get m b := by
  induction l generalizing m a with
  | nil => rfl
  | cons x t ih =>
    simp only [List.length_cons] at hb
    rw [Memory.write, ih (Memory.wf_set a x h) (a + 1) (by omega), Memory.get_set h, if_neg (by omega)]

/-- A byte of those written reads as written. -/
theorem Memory.get_write_inside {m : List Host.Cell} (h : Memory.wf m = true) (a : Nat) (l : List Byte) (i : Nat)
    (hi : i < l.length) : Memory.get (Memory.write m a l) (a + i) = l[i] := by
  induction l generalizing m a i with
  | nil => simp at hi
  | cons x t ih =>
    rw [Memory.write]
    cases i with
    | zero => rw [Memory.get_write_outside (Memory.wf_set a x h) _ _ _ (by omega), Memory.get_set h]; simp
    | succ j =>
      have := ih (Memory.wf_set a x h) (a + 1) j (by simpa using hi)
      rw [show a + (j + 1) = a + 1 + j by omega, this]
      simp

end Sys2Proof.Machine
end

