-- ==== Sys2Proof/Laws/Keeps.lean ====
section
/-! SUPPORT. `Keeps a b`: what no operation of the machine undoes. The queue and the clock stay; the memory, the log and the set-up
registers stay in order; free values are never drawn twice; outputs are never withdrawn. One lemma per operation follows in the
Keeps files: if the state before the operation keeps, so does the state after it. -/

-- One proof after another: the package is compiled as one text, where proofs side by side take too much memory.
set_option Elab.async false

namespace Sys2Proof.Machine

open Sys2Proof

structure Keeps (a b : State) : Prop where
  pending : b.pending = a.pending
  clk : b.clk = a.clk
  mem : memoryOk a = true → memoryOk b = true
  log : logOk a = true → logOk b = true
  free : a.free ≤ b.free
  out : ∃ o, b.out = a.out ++ o
  setup : setupOk a = true → setupOk b = true
  sub : b.sub = a.sub
  eq : a.shadow = a.setup → b.shadow = b.setup

theorem Keeps.refl (a : State) : Keeps a a := ⟨rfl, rfl, id, id, Nat.le_refl _, ⟨[], by simp⟩, id, rfl, id⟩

theorem Keeps.trans {a b c : State} (h : Keeps a b) (k : Keeps b c) : Keeps a c := by
  obtain ⟨o, ho⟩ := h.out
  obtain ⟨x, hx⟩ := k.out
  exact ⟨k.1.trans h.1, k.2.trans h.2, k.3 ∘ h.3, k.4 ∘ h.4, Nat.le_trans h.5 k.5, ⟨o ++ x, by rw [hx, ho, List.append_assoc]⟩, k.7 ∘ h.7,
    k.8.trans h.8, k.9 ∘ h.9⟩

theorem Keeps_ite {a b d : State} (c : Prop) [Decidable c] :
    Keeps a (if c then b else d) ↔ (c → Keeps a b) ∧ (¬c → Keeps a d) := by split <;> simp [*]

/-- An update that leaves the fields of `Keeps` alone; the second, with another part of the event unit. -/
theorem Keeps_mk {a s : State} :
    Keeps a (State.mk s.pending s.free s.clk s.sub s.out s.setup s.shadow x1 x2 x3 x4 x5 x6 x7 x8 x9 x10 (Evt.mk y1 s.evt.log y2 y3 y4 y5 y6 y7) x11 s.lmem
      x12 x13 x14 x15 x16 x17 x18 x19 x20 x21 x22 x23 x24 x25 x26 x27 x28 x29 x30 x31 x32 x33) ↔ Keeps a s :=
  ⟨fun h => ⟨h.1, h.2, h.3, h.4, h.5, h.6, h.7, h.8, h.9⟩, fun h => ⟨h.1, h.2, h.3, h.4, h.5, h.6, h.7, h.8, h.9⟩⟩

theorem Keeps_mk' {a s : State} :
    Keeps a (State.mk s.pending s.free s.clk s.sub s.out s.setup s.shadow x1 x2 x3 x4 x5 x6 x7 x8 x9 x10 s.evt x11 s.lmem
      x12 x13 x14 x15 x16 x17 x18 x19 x20 x21 x22 x23 x24 x25 x26 x27 x28 x29 x30 x31 x32 x33) ↔ Keeps a s :=
  ⟨fun h => ⟨h.1, h.2, h.3, h.4, h.5, h.6, h.7, h.8, h.9⟩, fun h => ⟨h.1, h.2, h.3, h.4, h.5, h.6, h.7, h.8, h.9⟩⟩

theorem keeps_snd {α : Type} {p : α × State} {x : α} {t : State} (e : p = (x, t)) (h : Keeps a p.2) : Keeps a t := by
  subst e; exact h

theorem keeps_fst {α : Type} {p : State × α} {x : α} {t : State} (e : p = (t, x)) (h : Keeps a p.1) : Keeps a t := by
  subst e; exact h

theorem foldl_keeps {α : Type} (l : List α) (f : State → α → State) (hf : ∀ i x, Keeps a x → Keeps a (f x i)) (h : Keeps a s) :
    Keeps a (l.foldl f s) := by
  induction l generalizing s with
  | nil => exact h
  | cons i l ih => exact ih (hf i s h)

theorem foldl_fst_keeps {α β : Type} (l : List α) (f : State × β → α → State × β)
    (hf : ∀ i x, Keeps a x.1 → Keeps a (f x i).1) {z : State × β} (h : Keeps a z.1) : Keeps a (l.foldl f z).1 := by
  induction l generalizing z with
  | nil => exact h
  | cons i l ih => exact ih (hf i z h)

theorem foldl_snd_keeps {α β : Type} (l : List α) (f : β × State → α → β × State)
    (hf : ∀ i x, Keeps a x.2 → Keeps a (f x i).2) {z : β × State} (h : Keeps a z.2) : Keeps a (l.foldl f z).2 := by
  induction l generalizing z with
  | nil => exact h
  | cons i l ih => exact ih (hf i z h)

theorem forFin_keeps (n : Nat) (f : Fin n → State → State) (hf : ∀ i x, Keeps a x → Keeps a (f i x)) (h : Keeps a s) :
    Keeps a (forFin n f s) := by
  unfold forFin; exact foldl_keeps _ _ hf h

theorem emit_keeps (h : Keeps a s) : Keeps a (emit o s) := by
  obtain ⟨x, hx⟩ := h.out
  exact ⟨h.1, h.2, h.3, h.4, h.5, ⟨x ++ [o], by simp [emit, hx]⟩, h.7, h.8, h.9⟩

theorem draw_keeps (h : Keeps a s) : Keeps a (draw s).2 :=
  ⟨h.1, h.2, h.3, h.4, Nat.le_succ_of_le h.5, h.6, h.7, h.8, h.9⟩

theorem lastN_length (n : Nat) (l : List α) : (lastN n l).length ≤ n := by
  simp only [lastN, List.length_reverse, List.length_take]; omega

theorem logOk_iff {s : State} : logOk s = true ↔ s.evt.log.length ≤ 1024 := by simp [logOk]

theorem setupOk_iff {s : State} : setupOk s = true ↔
    (∀ e ∈ s.setup, reservedOk e.1 e.2 = true) ∧ ∀ e ∈ s.shadow, reservedOk e.1 e.2 = true := by
  simp [setupOk]

/-- The log keeps the last 1,024 entries (R471). -/
theorem logEvent_length (s : State) : (logEvent x1 x2 x3 s).evt.log.length ≤ 1024 := by
  simp only [logEvent]
  exact lastN_length _ _

theorem logEvent_keeps (h : Keeps a s) : Keeps a (logEvent x1 x2 x3 s) where
  pending := by simp only [logEvent, h.1]
  clk := by simp only [logEvent, h.2]
  mem := by intro ha; have hb := h.3 ha; rw [memoryOk] at hb ⊢; simp only [logEvent]; exact hb
  log := fun _ => by rw [logOk_iff]; exact logEvent_length s
  free := by simp only [logEvent]; exact h.5
  out := by simp only [logEvent]; exact h.6
  setup := by intro ha; have hb := setupOk_iff.1 (h.7 ha); rw [setupOk_iff]; simp only [logEvent]; exact hb
  sub := by simp only [logEvent, h.8]
  eq := by intro ha; simp only [logEvent]; exact h.9 ha

/-! ### The local ring memory -/

/-- Writing local ring memory in its canonical form. -/
theorem lmem_keeps (h : Keeps a s) (hm : Memory.wf s.lmem = true → Memory.wf m = true) : Keeps a { s with lmem := m } :=
  ⟨h.1, h.2, fun x => hm (h.3 x), h.4, h.5, h.6, h.7, h.8, h.9⟩

/-! ### The set-up registers -/

theorem reservedOk_reset (off : Nat) : reservedOk off (setupReset off) = true := by
  simp only [reservedOk, setupReset]
  cases setupSpec off with
  | none => rfl
  | some p => simp

theorem assocGet_mem {α : Type} {l : List (Nat × α)} {k : Nat} {v : α} (h : assocGet l k = some v) : (k, v) ∈ l := by
  simp only [assocGet, Option.map_eq_some_iff] at h
  obtain ⟨e, he, rfl⟩ := h
  have hk : e.1 = k := by simpa using List.find?_some he
  exact hk ▸ List.mem_of_find?_eq_some he

/-- The reserved bits of a set-up register as read. -/
theorem reg_reservedOk {s : State} (h : setupOk s = true) (off : Nat) : reservedOk off (reg s off) = true := by
  unfold reg
  cases hg : assocGet s.setup off with
  | none => exact reservedOk_reset off
  | some v => exact (setupOk_iff.1 h).1 _ (assocGet_mem hg)

/-- The reserved bits of a shadow copy. -/
theorem shadowReg_reservedOk {s : State} (h : setupOk s = true) (off : Nat) : reservedOk off (shadowReg s off) = true := by
  unfold shadowReg
  cases hg : assocGet s.shadow off with
  | none => exact reservedOk_reset off
  | some v => exact (setupOk_iff.1 h).2 _ (assocGet_mem hg)

theorem assocSet_reservedOk {l : List (Nat × Word)} (h : ∀ e ∈ l, reservedOk e.1 e.2 = true) (hv : reservedOk off v = true) :
    ∀ e ∈ assocSet l off v, reservedOk e.1 e.2 = true := by
  intro e he
  rcases List.mem_cons.1 he with rfl | he
  · exact hv
  · exact h e (List.mem_filter.1 he).1

theorem assocDel_reservedOk {l : List (Nat × Word)} (h : ∀ e ∈ l, reservedOk e.1 e.2 = true) :
    ∀ e ∈ assocDel l off, reservedOk e.1 e.2 = true := fun e he => h e (List.mem_filter.1 he).1

theorem regSet_keeps (h : Keeps a s) (hv : setupOk s = true → reservedOk x1 x2 = true) : Keeps a (regSet x1 x2 s) := by
  have key : setupOk s = true → setupOk (regSet x1 x2 s) = true := by
    intro hs
    have hr := hv hs
    obtain ⟨hl, hm⟩ := setupOk_iff.1 hs
    refine setupOk_iff.2 ?_
    unfold regSet
    split
    · exact ⟨assocDel_reservedOk hl, assocDel_reservedOk hm⟩
    · exact ⟨assocSet_reservedOk hl hr, assocSet_reservedOk hm hr⟩
  obtain ⟨h1, h2, h3, h4, h5, h6, h7, h8, h9⟩ := h
  refine ⟨?_, ?_, ?_, ?_, ?_, ?_, fun x => key (h7 x), ?_, ?_⟩ <;>
    (unfold regSet; split <;> first | assumption | (intro x; simp only [h9 x]))

theorem word_split (o v m : Word) : ((o &&& ~~~m) ||| (v &&& m)) &&& ~~~m = o &&& ~~~m := by
  apply BitVec.eq_of_getLsbD_eq
  intro i hi
  simp only [BitVec.getLsbD_and, BitVec.getLsbD_or, BitVec.getLsbD_not, hi, decide_true, Bool.true_and]
  cases m.getLsbD i <;> simp

theorem word_part (o v r w : Word) : ((o &&& ~~~r) ||| (v &&& r)) &&& ~~~(r ||| w) = o &&& ~~~(r ||| w) := by
  apply BitVec.eq_of_getLsbD_eq
  intro i hi
  simp only [BitVec.getLsbD_and, BitVec.getLsbD_or, BitVec.getLsbD_not, hi, decide_true, Bool.true_and]
  cases r.getLsbD i <;> simp

theorem word_or (o b m : Word) (hb : b &&& ~~~m = 0) : (o ||| b) &&& ~~~m = o &&& ~~~m := by
  have : (o ||| b) &&& ~~~m = (o &&& ~~~m) ||| (b &&& ~~~m) := by
    apply BitVec.eq_of_getLsbD_eq
    intro i hi
    simp only [BitVec.getLsbD_and, BitVec.getLsbD_or, Bool.and_or_distrib_right]
  rw [this, hb]; simp

theorem word_and (o b m : Word) (hb : ~~~m &&& b = ~~~m) : (o &&& b) &&& ~~~m = o &&& ~~~m := by
  rw [BitVec.and_assoc, BitVec.and_comm b, hb]

/-- What the set-up mask of a ring's CFG says of EN. -/
def enMasked (off : Nat) : Bool := match setupSpec off with
  | none => true
  | some p => (0x80000000 : Word) &&& ~~~(p.1 ||| p.2.1) == 0 && ~~~(p.1 ||| p.2.1) &&& (0x7FFFFFFF : Word) == ~~~(p.1 ||| p.2.1)

theorem ringCfg_enMasked (r : RingId) : enMasked (ringBase r + 8) = true := by
  cases r with
  | cmd k => revert k; decide +kernel
  | cpl k => revert k; decide +kernel
  | evt k => revert k; decide +kernel
  | tlm k => revert k; decide +kernel

/-- The set-up mask of a ring's CFG covers EN. -/
theorem ringCfg_mask (r : RingId) : ∀ p ∈ setupSpec (ringBase r + 8), (0x80000000 : Word) &&& ~~~(p.1 ||| p.2.1) = 0 ∧
    ~~~(p.1 ||| p.2.1) &&& (0x7FFFFFFF : Word) = ~~~(p.1 ||| p.2.1) := by
  intro p hp
  have h := ringCfg_enMasked r
  unfold enMasked at h
  rw [Option.mem_def.1 hp] at h
  simpa using h

theorem reservedOk_mask {off : Nat} {v w : Word} (hw : reservedOk off w = true)
    (h : ∀ p ∈ setupSpec off, v &&& ~~~(p.1 ||| p.2.1) = w &&& ~~~(p.1 ||| p.2.1)) : reservedOk off v = true := by
  unfold reservedOk at *
  split
  · rfl
  · rename_i rw rwl r e
    rw [e] at hw
    have := h (rw, rwl, r) (by rw [e]; rfl)
    simp only at this
    rw [this]; exact hw

theorem setupSpec_raddr (k : Fin 2) : setupSpec (raddrOff k) = some (0x3FFC, 0, 0) := by revert k; decide

theorem raddr_reserved (k : Fin 2) (n : Nat) : reservedOk (raddrOff k) (BitVec.ofNat 32 (n % 4096 * 4)) = true := by
  have hn : n % 4096 < 4096 := Nat.mod_lt _ (by omega)
  generalize n % 4096 = m at hn
  have e : (m <<< 2) &&& (4095 <<< 2) = m <<< 2 := by
    rw [← Nat.shiftLeft_and_distrib]
    congr 1
    have := Nat.and_two_pow_sub_one_eq_mod m 12
    simpa [Nat.mod_eq_of_lt hn] using this
  have hv : BitVec.ofNat 32 (m * 4) &&& (0x3FFC : Word) = BitVec.ofNat 32 (m * 4) := by
    apply BitVec.eq_of_toNat_eq
    rw [BitVec.toNat_and, BitVec.toNat_ofNat, Nat.mod_eq_of_lt (by omega)]
    simpa [Nat.shiftLeft_eq] using e
  simp only [reservedOk, setupSpec_raddr, beq_iff_eq]
  rw [← hv]
  generalize BitVec.ofNat 32 (m * 4) = v
  rw [BitVec.and_assoc, show (0x3FFC : Word) &&& ~~~(0x3FFC ||| 0) = 0 by decide]
  simp

end Sys2Proof.Machine
end

