-- ==== Sys2Proof/Laws/KeepsOps.lean ====
section
/-! SUPPORT. `Keeps` for every operation of shared operations, rings, slots, monitors. -/

-- One proof after another: the package is compiled as one text, where proofs side by side take too much memory.
set_option Elab.async false

namespace Sys2Proof.Machine

open Sys2Proof

/-! ### Ops -/

theorem modLine_keeps (h : Keeps a s) : Keeps a (modLine x1 x2 s) := by
  simp +contextual only [modLine, Keeps_mk', h]

theorem modHost_keeps (h : Keeps a s) : Keeps a (modHost x1 x2 s) := by
  simp +contextual only [modHost, Keeps_mk', h]

theorem modPort_keeps (h : Keeps a s) : Keeps a (modPort x1 x2 s) := by
  simp +contextual only [modPort, Keeps_mk', h]

theorem modMon_keeps (h : Keeps a s) : Keeps a (modMon x1 x2 s) := by
  simp +contextual only [modMon, Keeps_mk', h]

theorem modRx_keeps (h : Keeps a s) : Keeps a (modRx x1 x2 s) := by
  simp +contextual only [modRx, modLine_keeps, h]

theorem modEq_keeps (h : Keeps a s) : Keeps a (modEq x1 x2 s) := by
  simp +contextual only [modEq, modLine_keeps, h]

theorem modTx_keeps (h : Keeps a s) : Keeps a (modTx x1 x2 s) := by
  simp +contextual only [modTx, modLine_keeps, h]

theorem modFr_keeps (h : Keeps a s) : Keeps a (modFr x1 x2 s) := by
  simp +contextual only [modFr, modLine_keeps, h]

theorem modCad_keeps (h : Keeps a s) : Keeps a (modCad x1 s) := by
  simp +contextual only [modCad, Keeps_mk', h]

theorem modRst_keeps (h : Keeps a s) : Keeps a (modRst x1 s) := by
  simp +contextual only [modRst, Keeps_mk', h]

theorem modTst_keeps (h : Keeps a s) : Keeps a (modTst x1 s) := by
  simp +contextual only [modTst, Keeps_mk', h]

theorem modCal_keeps (h : Keeps a s) : Keeps a (modCal x1 s) := by
  simp +contextual only [modCal, Keeps_mk', h]

theorem modChk_keeps (h : Keeps a s) : Keeps a (modChk x1 s) := by
  simp +contextual only [modChk, Keeps_mk', h]

theorem modTherm_keeps (h : Keeps a s) : Keeps a (modTherm x1 s) := by
  simp +contextual only [modTherm, Keeps_mk', h]

theorem modRings_keeps (h : Keeps a s) : Keeps a (modRings x1 s) := by
  simp +contextual only [modRings, Keeps_mk', h]

theorem modLink_keeps (h : Keeps a s) : Keeps a (modLink x1 x2 s) := by
  simp +contextual only [modLink, modCad_keeps, h]

theorem modSlot_keeps (h : Keeps a s) : Keeps a (modSlot x1 x2 s) := by
  simp +contextual only [modSlot, modCad_keeps, h]

theorem modSens_keeps (h : Keeps a s) : Keeps a (modSens x1 x2 s) := by
  simp +contextual only [modSens, modTherm_keeps, h]

theorem modRing_keeps (h : Keeps a s) : Keeps a (modRing x1 x2 s) := by
  simp only [modRing]
  repeat' first
    | (with_reducible first | assumption | apply foldl_keeps | apply forFin_keeps | apply modRings_keeps)
    | simp only [Keeps_mk, Keeps_mk']
    | split

theorem countLine_keeps (h : Keeps a s) : Keeps a (countLine x1 x2 x3 s) := by
  simp +contextual only [countLine, Keeps_ite, Keeps_mk', h, implies_true, and_self]

theorem countHost_keeps (h : Keeps a s) : Keeps a (countHost x1 x2 x3 s) := by
  simp +contextual only [countHost, Keeps_ite, Keeps_mk', h, implies_true, and_self]

theorem countPort_keeps (h : Keeps a s) : Keeps a (countPort x1 x2 x3 s) := by
  simp +contextual only [countPort, Keeps_ite, Keeps_mk', h, implies_true, and_self]

theorem countDev_keeps (h : Keeps a s) : Keeps a (countDev x1 x2 s) := by
  simp only [countDev]
  repeat' first
    | (with_reducible first | assumption | apply foldl_keeps | apply forFin_keeps)
    | simp only [Keeps_mk']
    | split
    | dsimp only
    | (with_reducible first | refine keeps_snd (by assumption) ?_ | refine keeps_fst (by assumption) ?_)
    | intro

theorem noteLine_keeps (h : Keeps a s) : Keeps a (noteLine x1 s) := by
  simp +contextual only [noteLine, Keeps_ite, Keeps_mk, Keeps_mk', forFin_keeps, foldl_keeps, h, implies_true, and_self]

theorem notePort_keeps (h : Keeps a s) : Keeps a (notePort x1 s) := by
  simp +contextual only [notePort, Keeps_ite, Keeps_mk, Keeps_mk', forFin_keeps, foldl_keeps, h, implies_true, and_self]

theorem countSource_keeps (h : Keeps a s) : Keeps a (countSource x1 s) := by
  simp +contextual only [countSource, Keeps_ite, countHost_keeps, countLine_keeps, countDev_keeps, h, implies_true,
    and_self]

theorem noteOwn_keeps (h : Keeps a s) : Keeps a (noteOwn x1 x2 s) := by
  simp +contextual only [noteOwn, modCad_keeps, h]

theorem raise_keeps (h : Keeps a s) : Keeps a (raise x1 x2 s) := by
  simp only [raise]
  repeat' first
    | (with_reducible first | assumption | apply foldl_keeps | apply forFin_keeps | apply countSource_keeps
                            | apply logEvent_keeps | apply noteOwn_keeps)
    | simp only [Keeps_mk]
    | split

theorem raiseLimited_keeps (h : Keeps a s) : Keeps a (raiseLimited x1 x2 x3 s) := by
  simp +contextual only [raiseLimited, Keeps_ite, Keeps_mk, raise_keeps, h, implies_true, and_self]

theorem tlmTrim_keeps (h : Keeps a s) : Keeps a (tlmTrim s) := by
  simp +contextual only [tlmTrim, Keeps_ite, Keeps_mk', raise_keeps, h, implies_true, and_self]

theorem tlmForm_keeps (h : Keeps a s) : Keeps a (tlmForm x1 x2 x3 x4 x5 x6 x7 s).1 := by
  simp only [tlmForm]
  repeat' first
    | (with_reducible first | assumption | apply foldl_keeps | apply forFin_keeps | apply modRing_keeps
                            | apply tlmTrim_keeps | apply raise_keeps)
    | simp only [Keeps_mk']
    | split

theorem outcome_keeps (h : Keeps a s) : Keeps a (outcome x1 x2 x3 x4 x5 s) := by
  simp +contextual only [outcome, modRings_keeps, h]

theorem cplLimit_keeps (h : Keeps a s) : Keeps a (cplLimit s) := by
  simp only [cplLimit]
  repeat' first
    | (with_reducible first | assumption | apply foldl_keeps | apply forFin_keeps | apply raise_keeps
                            | apply modRings_keeps)
    | simp only [Keeps_mk, Keeps_mk']
    | split

theorem answer_keeps (h : Keeps a s) : Keeps a (answer x1 x2 x3 x4 x5 s) := by
  simp only [answer]
  repeat' first
    | (with_reducible first | assumption | apply foldl_keeps | apply forFin_keeps | apply cplLimit_keeps
                            | apply outcome_keeps | apply modRings_keeps)
    | simp only [Keeps_mk, Keeps_mk']
    | split

theorem done_keeps (h : Keeps a s) : Keeps a (done x1 x2 s) := by
  simp +contextual only [done, answer_keeps, h]

theorem refuse_keeps (h : Keeps a s) : Keeps a (refuse x1 x2 s) := by
  simp +contextual only [refuse, answer_keeps, h]

theorem aerNote_keeps (h : Keeps a s) : Keeps a (aerNote x1 s) := by
  simp +contextual only [aerNote, Keeps_ite, Keeps_mk, Keeps_mk', forFin_keeps, foldl_keeps, h, implies_true, and_self]

/-! ### Operands -/

theorem arbRefuse_keeps (h : Keeps a s) : Keeps a (arbRefuse x1 x2 s) := by
  simp +contextual only [arbRefuse, Keeps_mk', countDev_keeps, raiseLimited_keeps, h]

theorem arbAdmitOf_keeps (h : Keeps a s) : Keeps a (arbAdmitOf x1 x2 x3 s) := by
  simp +contextual only [arbAdmitOf, Keeps_ite, Keeps_mk, Keeps_mk', forFin_keeps, foldl_keeps, h, implies_true, and_self]

theorem arbAdmit_keeps (h : Keeps a s) : Keeps a (arbAdmit x1 x2 s) := by
  simp +contextual only [arbAdmit, Keeps_mk', arbAdmitOf_keeps, h]

theorem arbTick_keeps (h : Keeps a s) : Keeps a (arbTick s) := by
  simp +contextual only [arbTick, Keeps_mk', h]

theorem arbPresentOf_keeps (h : Keeps a s) : Keeps a (arbPresentOf x1 x2 x3 s).1 := by
  simp only [arbPresentOf]
  repeat' first
    | (with_reducible first | assumption | apply foldl_keeps | apply forFin_keeps | apply arbAdmitOf_keeps
                            | apply arbRefuse_keeps)
    | simp only [Keeps_mk, Keeps_mk']
    | split
    | dsimp only
    | (with_reducible first | refine keeps_snd (by assumption) ?_ | refine keeps_fst (by assumption) ?_)
    | intro

theorem arbPresent_keeps (h : Keeps a s) : Keeps a (arbPresent x1 x2 s).1 := by
  simp +contextual only [arbPresent, Keeps_ite, Keeps_mk', forFin_keeps, foldl_keeps, arbPresentOf_keeps, h, implies_true,
    and_self]

theorem arbOffer_keeps (h : Keeps a s) : Keeps a (arbOffer x1 x2 x3 s).1 := by
  simp only [arbOffer]
  repeat' first
    | (with_reducible first | assumption | apply foldl_keeps | apply forFin_keeps | apply arbPresentOf_keeps
                            | apply arbRefuse_keeps)
    | simp only [Keeps_mk, Keeps_mk']
    | split
    | dsimp only
    | (with_reducible first | refine keeps_snd (by assumption) ?_ | refine keeps_fst (by assumption) ?_)
    | intro

theorem arbEnd_keeps (h : Keeps a s) : Keeps a (arbEnd x1 x2 s) := by
  simp +contextual only [arbEnd, Keeps_mk', h]

/-! ### Rings -/

theorem tlmOffer_keeps (h : Keeps a s) : Keeps a (tlmOffer s) := by
  simp +contextual only [tlmOffer, Keeps_ite, Keeps_mk', foldl_keeps, modRing_keeps, h, implies_true, and_self]

theorem drainStop_keeps (h : Keeps a s) : Keeps a (drainStop x1 s) := by
  simp +contextual only [drainStop, Keeps_ite, Keeps_mk, Keeps_mk', forFin_keeps, foldl_keeps, modMon_keeps, h,
    implies_true, and_self]

theorem drainAll_keeps (h : Keeps a s) : Keeps a (drainAll s) := by
  simp +contextual only [drainAll, Keeps_ite, Keeps_mk, Keeps_mk', forFin_keeps, foldl_keeps, h, implies_true, and_self]

theorem ringStart_keeps (h : Keeps a s) : Keeps a (ringStart x1 s) := by
  unfold ringStart
  split
  · exact raise_keeps h
  have h1 : Keeps a (regSet (ringBase x1 + 8) (ringCfg s x1 ||| 0x80000000) s) := regSet_keeps h fun hs =>
    reservedOk_mask (reg_reservedOk hs _) fun p hp => word_or _ _ _ (ringCfg_mask x1 p hp).1
  generalize regSet _ _ s = t at h1
  extract_lets +onlyGivenNames t1 t2
  have h2 : Keeps a t2 := modRing_keeps h1
  clear_value t2
  split
  · simp only [Keeps_ite, drainAll_keeps, tlmOffer_keeps, h2, implies_true, and_self]
  · exact h2

theorem ringStop_keeps (h : Keeps a s) : Keeps a (ringStop x1 s) := by
  unfold ringStop
  have h1 : Keeps a (regSet (ringBase x1 + 8) (ringCfg s x1 &&& 0x7FFFFFFF) s) := regSet_keeps h fun hs =>
    reservedOk_mask (reg_reservedOk hs _) fun p hp => word_and _ _ _ (ringCfg_mask x1 p hp).2
  generalize regSet _ _ s = t at h1
  split
  · exact modRing_keeps h1
  · apply tlmOffer_keeps
    simp only [Keeps_mk', Keeps_ite, drainStop_keeps, h1, implies_true, and_self]
  · exact h1

theorem violation_keeps (h : Keeps a s) : Keeps a (violation x1 s) := by
  simp +contextual only [violation, Keeps_mk', raise_keeps, h]

theorem writeSetup_keeps (h : Keeps a s) : Keeps a (writeSetup x1 x2 s) := by
  unfold writeSetup
  split
  · exact h
  rename_i rw rwl r e
  simp only [Keeps_ite]
  refine ⟨fun _ => violation_keeps (regSet_keeps h fun hs => reservedOk_mask (reg_reservedOk hs _) fun p hp => ?_),
    fun _ => regSet_keeps h fun hs => reservedOk_mask (reg_reservedOk hs _) fun p hp => ?_⟩
  · rw [e] at hp; cases hp; exact word_part _ _ _ _
  · rw [e] at hp; cases hp; exact word_split _ _ _

theorem writeRingCfg_keeps (h : Keeps a s) : Keeps a (writeRingCfg x1 x2 s) := by
  simp +contextual only [writeRingCfg, Keeps_ite, ringStart_keeps, ringStop_keeps, writeSetup_keeps, modRings_keeps, h,
    implies_true, and_self]

theorem doorbellBad_keeps (h : Keeps a s) : Keeps a (doorbellBad x1 x2 s) := by
  simp +contextual only [doorbellBad, raise_keeps, h]

theorem ringCmdDb_keeps (h : Keeps a s) : Keeps a (ringCmdDb x1 x2 s) := by
  simp +contextual only [ringCmdDb, Keeps_ite, modRing_keeps, countDev_keeps, doorbellBad_keeps, h, implies_true, and_self]

theorem ringConsDb_keeps (h : Keeps a s) : Keeps a (ringConsDb x1 x2 s) := by
  simp +contextual only [ringConsDb, Keeps_ite, modRing_keeps, countDev_keeps, doorbellBad_keeps, h, implies_true, and_self]

theorem ringTlmAck_keeps (h : Keeps a s) : Keeps a (ringTlmAck x1 x2 s) := by
  simp +contextual only [ringTlmAck, Keeps_ite, Keeps_mk', modRing_keeps, countDev_keeps, doorbellBad_keeps, h,
    implies_true, and_self]

theorem doorbellWrite_keeps (h : Keeps a s) : Keeps a (doorbellWrite x1 x2 s) := by
  simp only [doorbellWrite]
  repeat' first
    | (with_reducible first | assumption | apply foldl_keeps | apply forFin_keeps | apply ringCmdDb_keeps
                            | apply ringTlmAck_keeps | apply ringConsDb_keeps)
    | simp only [Keeps_mk, Keeps_mk']
    | split

theorem ringWrite_keeps (h : Keeps a s) : Keeps a (ringWrite x1 x2 x3 s) := by
  unfold ringWrite
  split
  · exact lmem_keeps h (Memory.wf_write _ _)
  · exact emit_keeps h

theorem msix_keeps (h : Keeps a s) : Keeps a (msix x1 s) := by
  simp +contextual only [msix, Keeps_ite, Keeps_mk', emit_keeps, h, implies_true, and_self]

theorem msixFlush_keeps (h : Keeps a s) : Keeps a (msixFlush s) := by
  simp +contextual only [msixFlush, Keeps_ite, Keeps_mk', foldl_keeps, msix_keeps, h, implies_true, and_self]

theorem ringSignal_keeps (h : Keeps a s) : Keeps a (ringSignal x1 s) := by
  simp only [ringSignal]
  repeat' first
    | (with_reducible first | assumption | apply foldl_keeps | apply forFin_keeps | apply modRing_keeps
                            | apply msix_keeps)
    | simp only [Keeps_mk, Keeps_mk']
    | split

theorem ringTally_keeps (h : Keeps a s) : Keeps a (ringTally x1 s) := by
  simp +contextual only [ringTally, Keeps_ite, ringSignal_keeps, h, implies_true, and_self]

theorem ringEntry_keeps (h : Keeps a s) : Keeps a (ringEntry x1 x2 s) := by
  simp +contextual only [ringEntry, Keeps_ite, Keeps_mk, Keeps_mk', forFin_keeps, foldl_keeps, modRing_keeps, h,
    implies_true, and_self]

theorem ringTimer_keeps (h : Keeps a s) : Keeps a (ringTimer x1 s) := by
  simp +contextual only [ringTimer, Keeps_ite, Keeps_mk, Keeps_mk', forFin_keeps, foldl_keeps, ringSignal_keeps, h,
    implies_true, and_self]

theorem cplWrite_keeps (h : Keeps a s) : Keeps a (cplWrite x1 s).1 := by
  simp only [cplWrite]
  repeat' first
    | (with_reducible first | assumption | apply foldl_keeps | apply forFin_keeps | apply ringTally_keeps
                            | apply ringEntry_keeps | apply ringWrite_keeps | apply countDev_keeps
                            | apply modRings_keeps)
    | simp only [Keeps_mk, Keeps_mk']
    | split

theorem evtWrite_keeps (h : Keeps a s) : Keeps a (evtWrite x1 s) := by
  simp only [evtWrite]
  repeat' first
    | (with_reducible first | assumption | apply foldl_keeps | apply forFin_keeps | apply ringTally_keeps
                            | apply ringEntry_keeps | apply ringWrite_keeps | apply countDev_keeps
                            | apply msix_keeps)
    | simp only [Keeps_mk]
    | split

theorem tlmPut_keeps (h : Keeps a s) : Keeps a (tlmPut x1 x2 x3 s) := by
  simp only [tlmPut]
  repeat' first
    | (with_reducible first | assumption | apply foldl_keeps | apply forFin_keeps | apply ringEntry_keeps
                            | apply ringWrite_keeps | apply countDev_keeps)

theorem monRecord_keeps (h : Keeps a s) : Keeps a (monRecord x1 x2 s) := by
  simp only [monRecord]
  repeat' first
    | (with_reducible first | assumption | apply foldl_keeps | apply forFin_keeps | apply tlmForm_keeps)
    | simp only [Keeps_mk, Keeps_mk']
    | split

theorem drainStep_keeps (h : Keeps a s) : Keeps a (drainStep x1 s) := by
  simp +contextual only [drainStep, Keeps_ite, modMon_keeps, monRecord_keeps, h, implies_true, and_self]

theorem drainDone_keeps (h : Keeps a s) : Keeps a (drainDone x1 s) := by
  simp +contextual only [drainDone, Keeps_ite, Keeps_mk, Keeps_mk', forFin_keeps, foldl_keeps, modMon_keeps, forFin_keeps,
    h, implies_true, and_self]

theorem msgForm_keeps (h : Keeps a s) : Keeps a (msgForm x1 x2 s) := by
  simp +contextual only [msgForm, tlmForm_keeps, h]

theorem msgDrain_keeps (h : Keeps a s) : Keeps a (msgDrain s) := by
  simp only [msgDrain]
  repeat' first
    | (with_reducible first | assumption | apply foldl_keeps | apply forFin_keeps | apply modFr_keeps
                            | apply msgForm_keeps | apply forFin_keeps)
    | simp only [Keeps_mk, Keeps_mk']
    | split
    | dsimp only
    | (with_reducible first | refine keeps_snd (by assumption) ?_ | refine keeps_fst (by assumption) ?_)
    | intro

theorem tlmGather_keeps (h : Keeps a s) : Keeps a (tlmGather x1 s) := by
  simp only [tlmGather]
  repeat' first
    | (with_reducible first | assumption | apply foldl_keeps | apply forFin_keeps | apply msgDrain_keeps
                            | apply drainStep_keeps)
    | simp only [Keeps_mk, Keeps_mk']
    | split
    | dsimp only
    | (with_reducible first | refine keeps_snd (by assumption) ?_ | refine keeps_fst (by assumption) ?_)
    | intro

theorem tlmWrite_keeps (h : Keeps a s) : Keeps a (tlmWrite x1 s) := by
  simp only [tlmWrite]
  repeat' first
    | (with_reducible first | assumption | apply foldl_keeps | apply forFin_keeps | apply drainDone_keeps
                            | apply ringTally_keeps | apply modRing_keeps | apply tlmGather_keeps
                            | apply tlmPut_keeps)
    | simp only [Keeps_mk']
    | split

theorem ringAccessFail_keeps (h : Keeps a s) : Keeps a (ringAccessFail x1 x2 s) := by
  simp only [ringAccessFail]
  repeat' first
    | (with_reducible first | assumption | apply foldl_keeps | apply forFin_keeps | apply modRing_keeps
                            | apply aerNote_keeps | apply raise_keeps)
    | split
    | dsimp only
    | (with_reducible first | refine keeps_snd (by assumption) ?_ | refine keeps_fst (by assumption) ?_)
    | intro

/-! ### Slots -/

theorem putSlot_keeps (h : Keeps a s) : Keeps a (putSlot x1 x2 s) := by
  simp +contextual only [putSlot, modSlot_keeps, h]

theorem clearSlot_keeps (h : Keeps a s) : Keeps a (clearSlot x1 s) := by
  simp +contextual only [clearSlot, modSlot_keeps, h]

theorem freeSlot_keeps (h : Keeps a s) : Keeps a (freeSlot x1 s) := by
  simp only [freeSlot]
  repeat' first
    | (with_reducible first | assumption | apply foldl_keeps | apply forFin_keeps | apply clearSlot_keeps
                            | apply refuse_keeps)
    | simp only [Keeps_mk, Keeps_mk']
    | split

theorem slotAdvance_keeps (h : Keeps a s) : Keeps a (slotAdvance x1 s) := by
  simp +contextual only [slotAdvance, Keeps_ite, clearSlot_keeps, modSlot_keeps, h, implies_true, and_self]

theorem skipOcc_keeps (h : Keeps a s) : Keeps a (skipOcc x1 x2 s).1 := by
  simp only [skipOcc]
  repeat' first
    | (with_reducible first | assumption | apply foldl_keeps | apply forFin_keeps | apply clearSlot_keeps
                            | apply modSlot_keeps)
    | simp only [Keeps_mk, Keeps_mk']
    | split

theorem skipPoint_keeps (h : Keeps a s) : Keeps a (skipPoint x1 x2 s) := by
  simp +contextual only [skipPoint, Keeps_ite, modSlot_keeps, h, implies_true, and_self]

theorem skipAll_keeps (h : Keeps a s) : Keeps a (skipAll x1 s).1 := by
  unfold skipAll
  exact foldl_fst_keeps _ _ (fun i z hz => by
    refine skipOcc_keeps (skipPoint_keeps ?_)
    simp only [Keeps_ite, slotAdvance_keeps, hz, implies_true, and_self]) h

theorem skipNote_keeps (h : Keeps a s) : Keeps a (skipNote x1 x2 s) := by
  simp only [skipNote]
  repeat' first
    | (with_reducible first | assumption | apply foldl_keeps | apply forFin_keeps | apply modCad_keeps
                            | apply raise_keeps)
    | simp only [Keeps_mk, Keeps_mk']
    | split

theorem skipWindows_keeps (h : Keeps a s) : Keeps a (skipWindows x1 s) := by
  simp +contextual only [skipWindows, Keeps_ite, skipAll_keeps, skipNote_keeps, h, implies_true, and_self]

theorem dropDefault_keeps (h : Keeps a s) : Keeps a (dropDefault s) := by
  simp +contextual only [dropDefault, Keeps_ite, Keeps_mk, Keeps_mk', forFin_keeps, foldl_keeps, clearSlot_keeps, h,
    implies_true, and_self]

theorem bootWindow_keeps (h : Keeps a s) : Keeps a (bootWindow x1 s) := by
  simp +contextual only [bootWindow, Keeps_ite, Keeps_mk, Keeps_mk', forFin_keeps, foldl_keeps, putSlot_keeps,
    dropDefault_keeps, h, implies_true, and_self]

theorem domInstall_keeps (h : Keeps a s) : Keeps a (domInstall x1 x2 s) := by
  simp only [domInstall]
  generalize (if earlier (occTime s _ 0) (now s) = true then slotFirst s _ else _) = y
  cases y with
  | none =>
    dsimp only [Option.elim]
    exact raise_keeps (modCad_keeps h)
  | some y =>
    dsimp only [Option.elim]
    split
    · exact raise_keeps h
    · simp only [Keeps_ite, dropDefault_keeps, putSlot_keeps, h, implies_true, and_self]

/-! ### Monitor -/

theorem bufPut_keeps (h : Keeps a s) : Keeps a (bufPut x1 x2 s) := by
  simp +contextual only [bufPut, Keeps_ite, modMon_keeps, raiseLimited_keeps, h, implies_true, and_self]

theorem thrCompare_keeps (h : Keeps a s) : Keeps a (thrCompare x1 x2 s) := by
  simp +contextual only [thrCompare, Keeps_ite, Keeps_mk', raise_keeps, h, implies_true, and_self]

theorem deliver_keeps (h : Keeps a s) : Keeps a (deliver x1 x2 x3 x4 x5 x6 x7 x8 s) := by
  simp only [deliver]
  repeat' first
    | (with_reducible first | assumption | apply foldl_keeps | apply forFin_keeps | apply thrCompare_keeps
                            | apply bufPut_keeps | apply modMon_keeps | apply monRecord_keeps
                            | apply raiseLimited_keeps)
    | simp only [Keeps_mk, Keeps_mk']
    | split
    | dsimp only
    | (with_reducible first | refine keeps_snd (by assumption) ?_ | refine keeps_fst (by assumption) ?_)
    | intro

theorem monSkip_keeps (h : Keeps a s) : Keeps a (monSkip x1 x2 x3 s) := by
  simp +contextual only [monSkip, Keeps_ite, Keeps_mk, Keeps_mk', forFin_keeps, foldl_keeps, modMon_keeps,
    raiseLimited_keeps, h, implies_true, and_self]

theorem monStop_keeps (h : Keeps a s) : Keeps a (monStop x1 s) := by
  simp +contextual only [monStop, Keeps_ite, Keeps_mk, Keeps_mk', forFin_keeps, foldl_keeps, modMon_keeps, h, implies_true,
    and_self]

theorem monRestart_keeps (h : Keeps a s) : Keeps a (monRestart x1 s) := by
  simp only [monRestart]
  repeat' first
    | (with_reducible first | assumption | apply foldl_keeps | apply forFin_keeps | apply monSkip_keeps
                            | apply modMon_keeps)
    | split
    | dsimp only
    | (with_reducible first | refine keeps_snd (by assumption) ?_ | refine keeps_fst (by assumption) ?_)
    | intro

theorem monEarly_keeps (h : Keeps a s) : Keeps a (monEarly x1 x2 x3 s) := by
  simp +contextual only [monEarly, Keeps_ite, monSkip_keeps, h, implies_true, and_self]

theorem monSync_keeps (h : Keeps a s) : Keeps a (monSync x1 x2 s) := by
  simp +contextual only [monSync, modMon_keeps, h]

theorem roundBegin_keeps (h : Keeps a s) : Keeps a (roundBegin s) := by
  simp only [roundBegin]
  repeat' first
    | (with_reducible first | assumption | apply foldl_keeps | apply forFin_keeps | apply monStop_keeps
                            | apply modTherm_keeps | apply modMon_keeps)
    | simp only [Keeps_mk, Keeps_mk']
    | split
    | dsimp only
    | (with_reducible first | refine keeps_snd (by assumption) ?_ | refine keeps_fst (by assumption) ?_)
    | intro

theorem monNext_keeps (h : Keeps a s) : Keeps a (monNext x1 s) := by
  simp +contextual only [monNext, Keeps_ite, roundBegin_keeps, modMon_keeps, h, implies_true, and_self]

theorem monOutput_keeps (h : Keeps a s) : Keeps a (monOutput x1 x2 x3 s) := by
  simp only [monOutput]
  repeat' first
    | (with_reducible first | assumption | apply foldl_keeps | apply forFin_keeps | apply modMon_keeps
                            | apply deliver_keeps | apply raiseLimited_keeps)
    | simp only [Keeps_mk, Keeps_mk']
    | split

theorem monFlush_keeps (h : Keeps a s) : Keeps a (monFlush x1 s) := by
  simp +contextual only [monFlush, Keeps_ite, foldl_keeps, bufPut_keeps, modMon_keeps, monRecord_keeps, h, implies_true,
    and_self]

theorem monPass_keeps (h : Keeps a s) : Keeps a (monPass x1 s) := by
  simp only [monPass]
  repeat' first
    | (with_reducible first | assumption | apply foldl_keeps | apply forFin_keeps | apply monNext_keeps
                            | apply modMon_keeps | apply raiseLimited_keeps)
    | simp only [Keeps_mk, Keeps_mk']
    | split

theorem monScanDone_keeps (h : Keeps a s) : Keeps a (monScanDone x1 x2 x3 s) := by
  simp only [monScanDone]
  repeat' first
    | (with_reducible first | assumption | apply foldl_keeps | apply forFin_keeps | apply monNext_keeps
                            | apply modMon_keeps | apply deliver_keeps)
    | simp only [Keeps_mk, Keeps_mk']
    | split

theorem compCross_keeps (h : Keeps a s) : Keeps a (compCross x1 x2 s) := by
  simp +contextual only [compCross, Keeps_ite, Keeps_mk', raise_keeps, modMon_keeps, h, implies_true, and_self]

theorem roundStart_keeps (h : Keeps a s) : Keeps a (roundStart s) := by
  simp only [roundStart]
  repeat' first
    | (with_reducible first | assumption | apply foldl_keeps | apply forFin_keeps | apply modTherm_keeps
                            | apply roundBegin_keeps | apply modMon_keeps)
    | simp only [Keeps_mk, Keeps_mk']
    | split

theorem roundFinish_keeps (h : Keeps a s) : Keeps a (roundFinish x1 x2 s) := by
  simp only [roundFinish]
  repeat' first
    | (with_reducible first | assumption | apply foldl_keeps | apply forFin_keeps | apply monNext_keeps
                            | apply modTherm_keeps | apply deliver_keeps | apply monRestart_keeps)
    | simp only [Keeps_mk, Keeps_mk']
    | split
    | dsimp only
    | (with_reducible first | refine keeps_snd (by assumption) ?_ | refine keeps_fst (by assumption) ?_)
    | intro

theorem actMonConfig_keeps (h : Keeps a s) : Keeps a (actMonConfig x1 s) := by
  simp only [actMonConfig]
  repeat' first
    | (with_reducible first | assumption | apply foldl_keeps | apply forFin_keeps | apply done_keeps
                            | apply monSync_keeps | apply modMon_keeps)
    | simp only [Keeps_mk, Keeps_mk']
    | split
    | dsimp only
    | (with_reducible first | refine keeps_snd (by assumption) ?_ | refine keeps_fst (by assumption) ?_)
    | intro

theorem syncMons_keeps (h : Keeps a s) : Keeps a (syncMons x1 x2 s) := by
  simp +contextual only [syncMons, foldl_keeps, monSync_keeps, h, implies_true]

theorem actMonSync_keeps (h : Keeps a s) : Keeps a (actMonSync x1 s) := by
  simp only [actMonSync]
  repeat' first
    | (with_reducible first | assumption | apply foldl_keeps | apply forFin_keeps | apply done_keeps
                            | apply syncMons_keeps)
    | simp only [Keeps_mk, Keeps_mk']
    | split

theorem actMonThreshold_keeps (h : Keeps a s) : Keeps a (actMonThreshold x1 s) := by
  simp +contextual only [actMonThreshold, Keeps_ite, Keeps_mk', done_keeps, h, implies_true, and_self]

theorem monRateCheck_keeps (h : Keeps a s) : Keeps a (monRateCheck x1 s) := by
  simp +contextual only [monRateCheck, Keeps_ite, raise_keeps, modMon_keeps, h, implies_true, and_self]

end Sys2Proof.Machine
end

