-- ==== Sys2Proof/Laws/KeepsCadence.lean ====
section
/-! SUPPORT. `Keeps` for every operation of the cadence, enumeration and the links. -/

-- One proof after another: the package is compiled as one text, where proofs side by side take too much memory.
set_option Elab.async false

namespace Sys2Proof.Machine

open Sys2Proof

/-! ### Cadence -/

theorem modTree_keeps (h : Keeps a s) : Keeps a (modTree x1 x2 s) := by
  simp only [modTree]
  repeat' first
    | (with_reducible first | assumption | apply foldl_keeps | apply forFin_keeps | apply modCad_keeps)
    | simp only [Keeps_mk, Keeps_mk']
    | split

theorem post_keeps (h : Keeps a s) : Keeps a (post x1 x2 x3 s) := by
  simp +contextual only [post, emit_keeps, h]

theorem linkErr_keeps (h : Keeps a s) : Keeps a (linkErr x1 s) := by
  simp +contextual only [linkErr, Keeps_ite, Keeps_mk, Keeps_mk', forFin_keeps, foldl_keeps, modLink_keeps, h, implies_true,
    and_self]

theorem linkError_keeps (h : Keeps a s) : Keeps a (linkError x1 s) := by
  simp only [linkError]
  repeat' first
    | (with_reducible first | assumption | apply foldl_keeps | apply forFin_keeps | apply modLink_keeps
                            | apply linkErr_keeps | apply raiseLimited_keeps)
    | split
    | dsimp only
    | (with_reducible first | refine keeps_snd (by assumption) ?_ | refine keeps_fst (by assumption) ?_)
    | intro

theorem received_keeps (hf : ∀ x, Keeps a x → Keeps a (x5 x)) (h : Keeps a s) : Keeps a (received x1 x2 x3 x4 x5 s) := by
  simp +contextual only [received, Keeps_ite, linkErr_keeps, hf, h, implies_true, and_self]

theorem keepAlives_keeps (h : Keeps a s) : Keeps a (keepAlives s) := by
  simp +contextual only [keepAlives, Keeps_ite, forFin_keeps, emit_keeps, forFin_keeps, h, implies_true, and_self]

theorem sendMarks_keeps (h : Keeps a s) : Keeps a (sendMarks x1 x2 x3 s) := by
  simp only [sendMarks]
  repeat' first
    | (with_reducible first | assumption | apply foldl_keeps | apply forFin_keeps | apply draw_keeps
                            | apply emit_keeps | apply post_keeps)
    | simp only [Keeps_mk, Keeps_mk']
    | split
    | dsimp only
    | (with_reducible first | refine keeps_snd (by assumption) ?_ | refine keeps_fst (by assumption) ?_)
    | intro

theorem sendSummaries_keeps (h : Keeps a s) : Keeps a (sendSummaries s) := by
  simp only [sendSummaries]
  repeat' first
    | (with_reducible first | assumption | apply foldl_keeps | apply forFin_keeps | apply modCad_keeps
                            | apply post_keeps)
    | simp only [Keeps_mk, Keeps_mk']
    | split
    | dsimp only
    | (with_reducible first | refine keeps_snd (by assumption) ?_ | refine keeps_fst (by assumption) ?_)
    | intro

theorem summaryJudge_keeps (h : Keeps a s) : Keeps a (summaryJudge x1 s) := by
  simp only [summaryJudge]
  repeat' first
    | (with_reducible first | assumption | apply foldl_keeps | apply forFin_keeps | apply modCad_keeps
                            | apply tlmForm_keeps | apply raise_keeps)
    | simp only [Keeps_mk, Keeps_mk']
    | split
    | dsimp only
    | (with_reducible first | refine keeps_snd (by assumption) ?_ | refine keeps_fst (by assumption) ?_)
    | intro

theorem chanterSummary_keeps (h : Keeps a s) : Keeps a (chanterSummary s) := by
  simp only [chanterSummary]
  repeat' first
    | (with_reducible first | assumption | apply foldl_keeps | apply forFin_keeps | apply summaryJudge_keeps
                            | apply modCad_keeps)
    | simp only [Keeps_mk, Keeps_mk']
    | split

theorem offsetTake_keeps (h : Keeps a s) : Keeps a (offsetTake s) := by
  simp only [offsetTake]
  repeat' first
    | (with_reducible first | assumption | apply foldl_keeps | apply forFin_keeps | apply modCad_keeps)
    | simp only [Keeps_mk, Keeps_mk']
    | split

theorem atBeat_keeps (h : Keeps a s) : Keeps a (atBeat s) := by
  simp only [atBeat]
  repeat' first
    | (with_reducible first | assumption | apply foldl_keeps | apply forFin_keeps | apply sendSummaries_keeps
                            | apply offsetTake_keeps | apply emit_keeps | apply modCad_keeps
                            | apply chanterSummary_keeps | apply countDev_keeps
                            | apply monRateCheck_keeps)
    | simp only [Keeps_mk, Keeps_mk']
    | split

theorem openBeat_keeps (h : Keeps a s) : Keeps a (openBeat x1 x2 x3 s) := by
  simp only [openBeat]
  repeat' first
    | (with_reducible first | assumption | apply foldl_keeps | apply forFin_keeps | apply modCad_keeps
                            | apply monEarly_keeps | apply atBeat_keeps | apply monRestart_keeps
                            | apply skipWindows_keeps)
    | simp only [Keeps_mk, Keeps_mk']
    | split

theorem alignBeat_keeps (h : Keeps a s) : Keeps a (alignBeat x1 x2 s) := by
  simp only [alignBeat]
  repeat' first
    | (with_reducible first | assumption | apply foldl_keeps | apply forFin_keeps | apply modCad_keeps
                            | apply monEarly_keeps | apply monRestart_keeps | apply skipWindows_keeps)
    | simp only [Keeps_mk, Keeps_mk']
    | split

theorem startBeat_keeps (h : Keeps a s) : Keeps a (startBeat x1 x2 x3 s) := by
  simp +contextual only [startBeat, Keeps_ite, alignBeat_keeps, openBeat_keeps, h, implies_true, and_self]

theorem firstBeat_keeps (h : Keeps a s) : Keeps a (firstBeat x1 x2 s) := by
  simp +contextual only [firstBeat, modCad_keeps, atBeat_keeps, h]

theorem freeBeat_keeps (h : Keeps a s) : Keeps a (freeBeat s) := by
  simp +contextual only [freeBeat, Keeps_ite, startBeat_keeps, h, implies_true, and_self]

theorem chanterBeat_keeps (h : Keeps a s) : Keeps a (chanterBeat x1 x2 x3 s) := by
  simp +contextual only [chanterBeat, sendMarks_keeps, startBeat_keeps, h]

theorem chanterFirst_keeps (h : Keeps a s) : Keeps a (chanterFirst x1 x2 s) := by
  simp only [chanterFirst]
  repeat' first
    | (with_reducible first | assumption | apply foldl_keeps | apply forFin_keeps | apply firstBeat_keeps
                            | apply modCad_keeps | apply sendMarks_keeps)

theorem holdNote_keeps (h : Keeps a s) : Keeps a (holdNote s) := by
  simp +contextual only [holdNote, Keeps_mk', h]

theorem inheritHoldover_keeps (h : Keeps a s) : Keeps a (inheritHoldover x1 s) := by
  simp +contextual only [inheritHoldover, modCad_keeps, holdNote_keeps, h]

theorem leaveHoldover_keeps (h : Keeps a s) : Keeps a (leaveHoldover x1 s) := by
  simp +contextual only [leaveHoldover, modCad_keeps, raise_keeps, h]

theorem enterHoldover_keeps (h : Keeps a s) : Keeps a (enterHoldover x1 s) := by
  simp only [enterHoldover]
  repeat' first
    | (with_reducible first | assumption | apply foldl_keeps | apply forFin_keeps | apply modCad_keeps
                            | apply raise_keeps | apply holdNote_keeps)
    | split

theorem beatInEdge_keeps (h : Keeps a s) : Keeps a (beatInEdge x1 s) := by
  unfold beatInEdge
  split
  · exact h
  split
  · exact h
  split
  · extract_lets +onlyGivenNames l
    simp only [Keeps_ite, chanterFirst_keeps, modCad_keeps, h, implies_true, and_self]
  extract_lets +onlyGivenNames p dly d since
  split
  · exact h
  split
  · extract_lets +onlyGivenNames was s1 s2
    have h1 : Keeps a s1 := modCad_keeps h
    have h2 : Keeps a s2 := by simp only [s2, Keeps_ite, leaveHoldover_keeps, h1, implies_true, and_self]
    exact chanterBeat_keeps h2
  refine (Keeps_ite _).2 ⟨fun _ => ?_, fun _ => ?_⟩
  · extract_lets +onlyGivenNames ofs l was s1 s2
    have h1 : Keeps a s1 := modCad_keeps h
    have h2 : Keeps a s2 := by simp only [s2, Keeps_ite, leaveHoldover_keeps, h1, implies_true, and_self]
    exact chanterBeat_keeps h2
  extract_lets +onlyGivenNames l s1 s2
  have h2 : Keeps a s2 := raiseLimited_keeps (modCad_keeps h)
  clear_value s2
  split
  · extract_lets +onlyGivenNames was q late lead ofs s3 s4
    have h3 : Keeps a s3 := modCad_keeps h2
    have h4 : Keeps a s4 := by simp only [s4, Keeps_ite, leaveHoldover_keeps, modCad_keeps, h3, implies_true, and_self]
    simp only [Keeps_ite, chanterBeat_keeps, modCad_keeps, h4, implies_true, and_self]
  · exact h2

theorem ownMark_keeps (h : Keeps a s) : Keeps a (ownMark s) := by
  simp only [ownMark]
  repeat' first
    | (with_reducible first | assumption | apply foldl_keeps | apply forFin_keeps | apply modCad_keeps
                            | apply enterHoldover_keeps | apply chanterBeat_keeps)
    | simp only [Keeps_mk, Keeps_mk']
    | split

theorem variableHoldover_keeps (h : Keeps a s) : Keeps a (variableHoldover s) := by
  simp +contextual only [variableHoldover, Keeps_ite, enterHoldover_keeps, h, implies_true, and_self]

theorem acquiringTimeout_keeps (h : Keeps a s) : Keeps a (acquiringTimeout s) := by
  simp +contextual only [acquiringTimeout, Keeps_ite, modCad_keeps, raise_keeps, h, implies_true, and_self]

theorem takeTree_keeps (h : Keeps a s) : Keeps a (takeTree x1 s) := by
  simp +contextual only [takeTree, modCad_keeps, h]

theorem followTree_keeps (h : Keeps a s) : Keeps a (followTree x1 x2 s) := by
  simp +contextual only [followTree, takeTree_keeps, startBeat_keeps, h]

theorem firstFollow_keeps (h : Keeps a s) : Keeps a (firstFollow x1 s) := by
  unfold firstFollow
  extract_lets +onlyGivenNames y s1 s2
  have h1 : Keeps a s1 := modCad_keeps h
  clear_value s1
  have h2 : Keeps a s2 := by simp only [s2, Keeps_ite, inheritHoldover_keeps, h1, implies_true, and_self]
  exact firstBeat_keeps (takeTree_keeps h2)

theorem treeLost_keeps (h : Keeps a s) : Keeps a (treeLost x1 x2 s) := by
  simp +contextual only [treeLost, Keeps_ite, inheritHoldover_keeps, modCad_keeps, enterHoldover_keeps, h, implies_true,
    and_self]

theorem droneMark_keeps (h : Keeps a s) : Keeps a (droneMark x1 s) := by
  simp only [droneMark]
  repeat' first
    | (with_reducible first | assumption | apply foldl_keeps | apply forFin_keeps | apply leaveHoldover_keeps
                            | apply inheritHoldover_keeps | apply firstFollow_keeps
                            | apply modCad_keeps | apply treeLost_keeps | apply raise_keeps
                            | apply followTree_keeps)
    | simp only [Keeps_mk, Keeps_mk']
    | split

theorem linkDown_keeps (h : Keeps a s) : Keeps a (linkDown x1 s) := by
  simp only [linkDown]
  repeat' first
    | (with_reducible first | assumption | apply foldl_keeps | apply forFin_keeps | apply modTree_keeps
                            | apply modLink_keeps | apply modCad_keeps | apply treeLost_keeps
                            | apply raise_keeps)
    | simp only [Keeps_mk, Keeps_mk']
    | split

theorem markArrives_keeps (h : Keeps a s) : Keeps a (markArrives x1 s) := by
  simp +contextual only [markArrives, Keeps_ite, modTree_keeps, h, implies_true, and_self]

theorem beatMessage_keeps (h : Keeps a s) : Keeps a (beatMessage x1 x2 s) := by
  simp only [beatMessage]
  repeat' first
    | (with_reducible first | assumption | apply foldl_keeps | apply forFin_keeps | apply linkDown_keeps
                            | apply modTree_keeps | apply modLink_keeps | apply droneMark_keeps
                            | apply sendMarks_keeps)
    | simp only [Keeps_mk, Keeps_mk']
    | split
    | dsimp only
    | (with_reducible first | refine keeps_snd (by assumption) ?_ | refine keeps_fst (by assumption) ?_)
    | intro

theorem treeRoll_keeps (h : Keeps a s) : Keeps a (treeRoll x1 s) := by
  simp +contextual only [treeRoll, Keeps_ite, modTree_keeps, sendMarks_keeps, h, implies_true, and_self]

theorem markMissing_keeps (h : Keeps a s) : Keeps a (markMissing x1 s) := by
  simp only [markMissing]
  repeat' first
    | (with_reducible first | assumption | apply foldl_keeps | apply forFin_keeps | apply modTree_keeps
                            | apply treeRoll_keeps | apply treeLost_keeps)
    | simp only [Keeps_mk, Keeps_mk']
    | split

theorem droneRoll_keeps (h : Keeps a s) : Keeps a (droneRoll s) := by
  simp +contextual only [droneRoll, Keeps_ite, startBeat_keeps, h, implies_true, and_self]

theorem spreadCorrection_keeps (h : Keeps a s) : Keeps a (spreadCorrection x1 s) := by
  simp +contextual only [spreadCorrection, Keeps_ite, modCad_keeps, h, implies_true, and_self]

theorem summaryArrives_keeps (h : Keeps a s) : Keeps a (summaryArrives x1 x2 s) := by
  simp +contextual only [summaryArrives, Keeps_ite, modLink_keeps, summaryJudge_keeps, h, implies_true, and_self]

theorem extraSummary_keeps (h : Keeps a s) : Keeps a (extraSummary s) := by
  simp +contextual only [extraSummary, Keeps_ite, sendSummaries_keeps, modCad_keeps, h, implies_true, and_self]

/-! ### Enumeration -/

theorem setRun_keeps (h : Keeps a s) : Keeps a (setRun x1 x2 s) := by
  simp only [setRun]
  repeat' first
    | (with_reducible first | assumption | apply foldl_keeps | apply forFin_keeps | apply modCad_keeps)
    | simp only [Keeps_mk, Keeps_mk']
    | split

theorem setEpoch_keeps (h : Keeps a s) : Keeps a (setEpoch x1 x2 s) := by
  simp only [setEpoch]
  repeat' first
    | (with_reducible first | assumption | apply foldl_keeps | apply forFin_keeps | apply modCad_keeps)
    | simp only [Keeps_mk, Keeps_mk']
    | split

theorem setIndex_keeps (h : Keeps a s) : Keeps a (setIndex x1 x2 s) := by
  simp only [setIndex]
  repeat' first
    | (with_reducible first | assumption | apply foldl_keeps | apply forFin_keeps | apply modCad_keeps
                            | apply raise_keeps)
    | simp only [Keeps_mk, Keeps_mk']
    | split

theorem applyAssign_keeps (h : Keeps a s) : Keeps a (applyAssign x1 x2 x3 x4 x5 x6 x7 s) := by
  unfold applyAssign
  extract_lets +onlyGivenNames run claim free ix s1 next
  have h1 : Keeps a s1 := setIndex_keeps h
  clear_value s1
  refine foldl_fst_keeps _ _ (fun i z hz => ?_) h1
  dsimp only
  split
  · exact hz
  · exact emit_keeps hz

theorem beginRun_keeps (h : Keeps a s) : Keeps a (beginRun x1 x2 x3 x4 x5 x6 x7 s) := by
  simp only [beginRun]
  repeat' first
    | (with_reducible first | assumption | apply foldl_keeps | apply forFin_keeps | apply modLink_keeps
                            | apply setRun_keeps | apply modCad_keeps | apply post_keeps)
    | simp only [Keeps_mk, Keeps_mk']
    | split
    | dsimp only
    | (with_reducible first | refine keeps_snd (by assumption) ?_ | refine keeps_fst (by assumption) ?_)
    | intro

theorem joinNext_keeps (h : Keeps a s) : Keeps a (joinNext x1 s) := by
  simp only [joinNext]
  repeat' first
    | (with_reducible first | assumption | apply foldl_keeps | apply forFin_keeps | apply beginRun_keeps)
    | simp only [Keeps_mk, Keeps_mk']
    | split

theorem chanterFinish_keeps (h : Keeps a s) : Keeps a (chanterFinish x1 x2 s) := by
  simp only [chanterFinish]
  repeat' first
    | (with_reducible first | assumption | apply foldl_keeps | apply forFin_keeps | apply done_keeps
                            | apply applyAssign_keeps | apply setRun_keeps | apply modCad_keeps
                            | apply joinNext_keeps | apply raise_keeps | apply beginRun_keeps)
    | simp only [Keeps_mk, Keeps_mk']
    | split
    | dsimp only
    | (with_reducible first | refine keeps_snd (by assumption) ?_ | refine keeps_fst (by assumption) ?_)
    | intro

theorem reservedFor_keeps (h : Keeps a s) : Keeps a (reservedFor x1 x2 s).2 := by
  simp only [reservedFor]
  repeat' first
    | (with_reducible first | assumption | apply foldl_keeps | apply forFin_keeps | apply draw_keeps)
    | simp only [Keeps_mk, Keeps_mk']
    | split
    | dsimp only
    | (with_reducible first | refine keeps_snd (by assumption) ?_ | refine keeps_fst (by assumption) ?_)
    | intro

theorem grantJoin_keeps (h : Keeps a s) : Keeps a (grantJoin x1 x2 x3 x4 x5 x6 s) := by
  simp only [grantJoin]
  repeat' first
    | (with_reducible first | assumption | apply foldl_keeps | apply forFin_keeps | apply reservedFor_keeps
                            | apply modCad_keeps | apply post_keeps)
    | split
    | dsimp only
    | (with_reducible first | refine keeps_snd (by assumption) ?_ | refine keeps_fst (by assumption) ?_)
    | intro

theorem finishRun_keeps (h : Keeps a s) : Keeps a (finishRun x1 s) := by
  simp only [finishRun]
  repeat' first
    | (with_reducible first | assumption | apply foldl_keeps | apply forFin_keeps | apply setRun_keeps
                            | apply post_keeps | apply joinNext_keeps | apply grantJoin_keeps
                            | apply chanterFinish_keeps)
    | simp only [Keeps_mk, Keeps_mk']
    | split

theorem startEnum_keeps (h : Keeps a s) : Keeps a (startEnum x1 s) := by
  simp only [startEnum]
  repeat' first
    | (with_reducible first | assumption | apply foldl_keeps | apply forFin_keeps | apply setEpoch_keeps
                            | apply modCad_keeps | apply finishRun_keeps | apply beginRun_keeps)
    | simp only [Keeps_mk, Keeps_mk']
    | split

theorem enumTimer_keeps (h : Keeps a s) : Keeps a (enumTimer s) := by
  simp +contextual only [enumTimer, Keeps_ite, startEnum_keeps, h, implies_true, and_self]

theorem beatTake_keeps (h : Keeps a s) : Keeps a (beatTake x1 x2 s) := by
  simp only [beatTake]
  repeat' first
    | (with_reducible first | assumption | apply foldl_keeps | apply forFin_keeps | apply startEnum_keeps
                            | apply joinNext_keeps | apply beatMessage_keeps)
    | simp only [Keeps_mk, Keeps_mk']
    | split

theorem enumOrder_keeps (h : Keeps a s) : Keeps a (enumOrder x1 x2 s) := by
  simp only [enumOrder]
  repeat' first
    | (with_reducible first | assumption | apply foldl_keeps | apply forFin_keeps | apply setEpoch_keeps
                            | apply finishRun_keeps | apply beginRun_keeps)
    | simp only [Keeps_mk, Keeps_mk']
    | split

theorem enumReport_keeps (h : Keeps a s) : Keeps a (enumReport x1 x2 s) := by
  simp only [enumReport]
  repeat' first
    | (with_reducible first | assumption | apply foldl_keeps | apply forFin_keeps | apply modLink_keeps
                            | apply setRun_keeps | apply finishRun_keeps)
    | simp only [Keeps_mk, Keeps_mk']
    | split

theorem enumTimeout_keeps (h : Keeps a s) : Keeps a (enumTimeout x1 s) := by
  simp only [enumTimeout]
  repeat' first
    | (with_reducible first | assumption | apply foldl_keeps | apply forFin_keeps | apply setRun_keeps
                            | apply modCad_keeps | apply finishRun_keeps)
    | simp only [Keeps_mk, Keeps_mk']
    | split

theorem enumAssign_keeps (h : Keeps a s) : Keeps a (enumAssign x1 x2 s) := by
  simp only [enumAssign]
  repeat' first
    | (with_reducible first | assumption | apply foldl_keeps | apply forFin_keeps | apply applyAssign_keeps
                            | apply setRun_keeps | apply joinNext_keeps)
    | simp only [Keeps_mk, Keeps_mk']
    | split

theorem joinReq_keeps (h : Keeps a s) : Keeps a (joinReq x1 x2 s) := by
  simp +contextual only [joinReq, Keeps_ite, modCad_keeps, post_keeps, grantJoin_keeps, h, implies_true, and_self]

theorem joinGrant_keeps (h : Keeps a s) : Keeps a (joinGrant x1 x2 s) := by
  simp only [joinGrant]
  repeat' first
    | (with_reducible first | assumption | apply foldl_keeps | apply forFin_keeps | apply applyAssign_keeps
                            | apply setRun_keeps | apply post_keeps | apply joinNext_keeps)
    | simp only [Keeps_mk, Keeps_mk']
    | split

/-! ### Links -/

theorem linkCheckUp_keeps (h : Keeps a s) : Keeps a (linkCheckUp x1 s) := by
  simp only [linkCheckUp]
  repeat' first
    | (with_reducible first | assumption | apply foldl_keeps | apply forFin_keeps | apply modLink_keeps
                            | apply modCad_keeps | apply joinNext_keeps | apply raise_keeps)
    | simp only [Keeps_mk, Keeps_mk']
    | split

theorem commaAlign_keeps (h : Keeps a s) : Keeps a (commaAlign x1 s) := by
  simp +contextual only [commaAlign, Keeps_ite, modLink_keeps, h, implies_true, and_self]

theorem keepAlive_keeps (h : Keeps a s) : Keeps a (keepAlive x1 x2 x3 s) := by
  simp only [keepAlive]
  repeat' first
    | (with_reducible first | assumption | apply foldl_keeps | apply forFin_keeps | apply modLink_keeps
                            | apply linkCheckUp_keeps | apply linkError_keeps)
    | split
    | dsimp only
    | (with_reducible first | refine keeps_snd (by assumption) ?_ | refine keeps_fst (by assumption) ?_)
    | intro

theorem probeInterval_keeps (h : Keeps a s) : Keeps a (probeInterval x1 s) := by
  simp +contextual only [probeInterval, Keeps_ite, modLink_keeps, emit_keeps, h, implies_true, and_self]

theorem probeArrives_keeps (h : Keeps a s) : Keeps a (probeArrives x1 s) := by
  simp only [probeArrives]
  repeat' first
    | (with_reducible first | assumption | apply foldl_keeps | apply forFin_keeps | apply modLink_keeps
                            | apply linkCheckUp_keeps | apply draw_keeps | apply emit_keeps
                            | apply post_keeps)
    | simp only [Keeps_mk, Keeps_mk']
    | split

theorem probeEchoArrives_keeps (h : Keeps a s) : Keeps a (probeEchoArrives x1 x2 s) := by
  simp +contextual only [probeEchoArrives, Keeps_ite, modLink_keeps, h, implies_true, and_self]

theorem probeTurn_keeps (h : Keeps a s) : Keeps a (probeTurn x1 x2 s) := by
  simp only [probeTurn]
  repeat' first
    | (with_reducible first | assumption | apply foldl_keeps | apply forFin_keeps | apply linkDown_keeps
                            | apply modLink_keeps | apply linkCheckUp_keeps | apply post_keeps)
    | simp only [Keeps_mk, Keeps_mk']
    | split

theorem linkDelay_keeps (h : Keeps a s) : Keeps a (linkDelay x1 x2 s) := by
  simp only [linkDelay]
  repeat' first
    | (with_reducible first | assumption | apply foldl_keeps | apply forFin_keeps | apply linkDown_keeps
                            | apply modLink_keeps)
    | simp only [Keeps_mk, Keeps_mk']
    | split

theorem abortArrives_keeps (h : Keeps a s) : Keeps a (abortArrives x1 s) := by
  simp +contextual only [abortArrives, Keeps_ite, modTree_keeps, h, implies_true, and_self]

theorem broadcast_keeps (h : Keeps a s) : Keeps a (broadcast x1 x2 x3 s) := by
  simp +contextual only [broadcast, foldl_keeps, post_keeps, h, implies_true]

theorem domFree_keeps (h : Keeps a s) : Keeps a (domFree x1 s) := by
  simp only [domFree]
  repeat' first
    | (with_reducible first | assumption | apply foldl_keeps | apply forFin_keeps | apply clearSlot_keeps
                            | apply modCad_keeps | apply forFin_keeps)
    | simp only [Keeps_mk, Keeps_mk']
    | split
    | dsimp only
    | (with_reducible first | refine keeps_snd (by assumption) ?_ | refine keeps_fst (by assumption) ?_)
    | intro

theorem domTake_keeps (h : Keeps a s) : Keeps a (domTake x1 x2 s) := by
  simp +contextual only [domTake, Keeps_ite, domInstall_keeps, modCad_keeps, h, implies_true, and_self]

theorem relay_keeps (h : Keeps a s) : Keeps a (relay x1 x2 x3 s) := by
  simp +contextual only [relay, Keeps_ite, broadcast_keeps, h, implies_true, and_self]

theorem domEntry_keeps (h : Keeps a s) : Keeps a (domEntry x1 x2 s) := by
  simp +contextual only [domEntry, Keeps_ite, domTake_keeps, relay_keeps, h, implies_true, and_self]

theorem domCancelMsg_keeps (h : Keeps a s) : Keeps a (domCancelMsg x1 x2 s) := by
  simp +contextual only [domCancelMsg, Keeps_ite, domFree_keeps, relay_keeps, h, implies_true, and_self]

end Sys2Proof.Machine
end

