-- ==== Sys2Proof/Laws/KeepsLane.lean ====
section
/-! SUPPORT. `Keeps` for every operation of the lanes, training, latency, codes, frames and host lanes. -/

-- One proof after another: the package is compiled as one text, where proofs side by side take too much memory.
set_option Elab.async false

namespace Sys2Proof.Machine

open Sys2Proof

/-! ### Lane -/

theorem ocpDropped_keeps (h : Keeps a s) : Keeps a (ocpDropped x1 s) := by
  simp only [ocpDropped]
  repeat' first
    | (with_reducible first | assumption | apply foldl_keeps | apply forFin_keeps | apply modRx_keeps)
    | simp only [Keeps_mk, Keeps_mk']
    | split
    | dsimp only
    | (with_reducible first | refine keeps_snd (by assumption) ?_ | refine keeps_fst (by assumption) ?_)
    | intro

theorem ocpStart_keeps (h : Keeps a s) : Keeps a (ocpStart s) := by
  unfold ocpStart
  extract_lets s1
  have h1 : Keeps a s1 := foldl_keeps _ _ (fun i x hx => ocpDropped_keeps hx) (by simp only [Keeps_mk', h])
  clear_value s1
  split
  · exact h1
  · exact emit_keeps (by simp only [Keeps_mk', h1])

theorem ocpPush_keeps (h : Keeps a s) : Keeps a (ocpPush x1 s) := by
  simp only [ocpPush]
  repeat' first
    | (with_reducible first | assumption | apply foldl_keeps | apply forFin_keeps | apply ocpStart_keeps)
    | simp only [Keeps_mk']
    | split

theorem tiaWrite_keeps (h : Keeps a s) : Keeps a (tiaWrite x1 x2 x3 s) := by
  simp +contextual only [tiaWrite, Keeps_ite, ocpPush_keeps, h, implies_true, and_self]

theorem drvWrite_keeps (h : Keeps a s) : Keeps a (drvWrite x1 x2 x3 s) := by
  simp +contextual only [drvWrite, Keeps_ite, ocpPush_keeps, h, implies_true, and_self]

theorem txStart_keeps (h : Keeps a s) : Keeps a (txStart x1 s) := by
  simp +contextual only [txStart, Keeps_ite, modLine_keeps, drvWrite_keeps, h, implies_true, and_self]

theorem txPlainSet_keeps (h : Keeps a s) : Keeps a (txPlainSet x1 s) := by
  simp +contextual only [txPlainSet, Keeps_ite, Keeps_mk, Keeps_mk', forFin_keeps, foldl_keeps, modLine_keeps, h,
    implies_true, and_self]

theorem txUpdate_keeps (h : Keeps a s) : Keeps a (txUpdate x1 s) := by
  simp only [txUpdate]
  repeat' first
    | (with_reducible first | assumption | apply foldl_keeps | apply forFin_keeps | apply modTx_keeps
                            | apply modLine_keeps | apply txStart_keeps | apply txPlainSet_keeps)
    | split

theorem txUpdateAll_keeps (h : Keeps a s) : Keeps a (txUpdateAll s) := by
  simp +contextual only [txUpdateAll, forFin_keeps, txUpdate_keeps, forFin_keeps, h, implies_true]

theorem txClear_keeps (h : Keeps a s) : Keeps a (txClear x1 s) := by
  simp +contextual only [txClear, modTx_keeps, h]

theorem eqNote_keeps (h : Keeps a s) : Keeps a (eqNote x1 s) := by
  simp +contextual only [eqNote, Keeps_ite, Keeps_mk, Keeps_mk', forFin_keeps, foldl_keeps, modEq_keeps, h, implies_true,
    and_self]

theorem squelch_keeps (h : Keeps a s) : Keeps a (squelch x1 x2 s) := by
  simp only [squelch]
  repeat' first
    | (with_reducible first | assumption | apply foldl_keeps | apply forFin_keeps | apply modRx_keeps
                            | apply raise_keeps)
    | simp only [Keeps_mk, Keeps_mk']
    | split

theorem outageStart_keeps (h : Keeps a s) : Keeps a (outageStart x1 s) := by
  simp +contextual only [outageStart, Keeps_ite, modRx_keeps, squelch_keeps, h, implies_true, and_self]

theorem outageFromOff_keeps (h : Keeps a s) : Keeps a (outageFromOff x1 s) := by
  simp +contextual only [outageFromOff, modRx_keeps, squelch_keeps, h]

theorem enterGain_keeps (h : Keeps a s) : Keeps a (enterGain x1 x2 s) := by
  simp only [enterGain]
  repeat' first
    | (with_reducible first | assumption | apply foldl_keeps | apply forFin_keeps | apply modLine_keeps
                            | apply eqNote_keeps | apply modRx_keeps)

theorem enterRelock_keeps (h : Keeps a s) : Keeps a (enterRelock x1 s) := by
  simp only [enterRelock]
  repeat' first
    | (with_reducible first | assumption | apply foldl_keeps | apply forFin_keeps | apply modLine_keeps
                            | apply modFr_keeps | apply tiaWrite_keeps | apply eqNote_keeps
                            | apply modRx_keeps)
    | simp only [Keeps_mk, Keeps_mk']
    | split

theorem trnDrop_keeps (h : Keeps a s) : Keeps a (trnDrop x1 s) := by
  simp +contextual only [trnDrop, Keeps_ite, modTx_keeps, arbEnd_keeps, h, implies_true, and_self]

theorem trnStop_keeps (h : Keeps a s) : Keeps a (trnStop x1 s) := by
  simp +contextual only [trnStop, Keeps_ite, Keeps_mk, Keeps_mk', forFin_keeps, foldl_keeps, modTx_keeps, h, implies_true,
    and_self]

theorem trnAbandon_keeps (h : Keeps a s) : Keeps a (trnAbandon x1 x2 s) := by
  simp only [trnAbandon]
  repeat' first
    | (with_reducible first | assumption | apply foldl_keeps | apply forFin_keeps | apply modTx_keeps
                            | apply trnDrop_keeps | apply raise_keeps)
    | simp only [Keeps_mk, Keeps_mk']
    | split

theorem enterDark_keeps (h : Keeps a s) : Keeps a (enterDark x1 x2 s) := by
  simp only [enterDark]
  repeat' first
    | (with_reducible first | assumption | apply foldl_keeps | apply forFin_keeps | apply modLine_keeps
                            | apply outageStart_keeps | apply raise_keeps | apply trnAbandon_keeps)
    | simp only [Keeps_mk, Keeps_mk']
    | split

theorem rxOff_keeps (h : Keeps a s) : Keeps a (rxOff x1 s) := by
  simp +contextual only [rxOff, modLine_keeps, h]

theorem rxHalt_keeps (h : Keeps a s) : Keeps a (rxHalt x1 s) := by
  simp +contextual only [rxHalt, modLine_keeps, h]

theorem frmClear_keeps (h : Keeps a s) : Keeps a (frmClear x1 s) := by
  simp +contextual only [frmClear, modFr_keeps, h]

theorem rxMayLeave_keeps (h : Keeps a s) : Keeps a (rxMayLeave x1 s) := by
  simp +contextual only [rxMayLeave, Keeps_ite, modRx_keeps, h, implies_true, and_self]

theorem msgAbandon_keeps (h : Keeps a s) : Keeps a (msgAbandon x1 s) := by
  simp +contextual only [msgAbandon, foldl_keeps, done_keeps, modFr_keeps, h, implies_true]

theorem hostHold_keeps (h : Keeps a s) : Keeps a (hostHold x1 s) := by
  simp +contextual only [hostHold, modHost_keeps, h]

theorem hostTiming_keeps (h : Keeps a s) : Keeps a (hostTiming x1 x2 s) := by
  simp +contextual only [hostTiming, modHost_keeps, h]

theorem hostResume_keeps (h : Keeps a s) : Keeps a (hostResume x1 s) := by
  simp +contextual only [hostResume, modHost_keeps, h]

theorem hostIdle_keeps (h : Keeps a s) : Keeps a (hostIdle x1 s) := by
  simp +contextual only [hostIdle, Keeps_ite, hostHold_keeps, modHost_keeps, h, implies_true, and_self]

theorem hostOff_keeps (h : Keeps a s) : Keeps a (hostOff x1 s) := by
  simp +contextual only [hostOff, modHost_keeps, h]

theorem hostHalt_keeps (h : Keeps a s) : Keeps a (hostHalt x1 s) := by
  simp +contextual only [hostHalt, Keeps_ite, hostHold_keeps, modHost_keeps, h, implies_true, and_self]

theorem hostMayLeave_keeps (h : Keeps a s) : Keeps a (hostMayLeave x1 s) := by
  simp +contextual only [hostMayLeave, Keeps_ite, hostIdle_keeps, h, implies_true, and_self]

theorem linePathOff_keeps (h : Keeps a s) : Keeps a (linePathOff x1 s) := by
  simp +contextual only [linePathOff, frmClear_keeps, rxOff_keeps, h]

theorem lineTxOff_keeps (h : Keeps a s) : Keeps a (lineTxOff x1 s) := by
  simp only [lineTxOff]
  repeat' first
    | (with_reducible first | assumption | apply foldl_keeps | apply forFin_keeps | apply msgAbandon_keeps
                            | apply trnDrop_keeps | apply txClear_keeps)

theorem lineClear_keeps (h : Keeps a s) : Keeps a (lineClear x1 s) := by
  simp only [lineClear]
  repeat' first
    | (with_reducible first | assumption | apply foldl_keeps | apply forFin_keeps | apply modTx_keeps
                            | apply lineTxOff_keeps | apply linePathOff_keeps | apply trnAbandon_keeps)

theorem txHalt_keeps (h : Keeps a s) : Keeps a (txHalt x1 s) := by
  simp +contextual only [txHalt, modTx_keeps, trnDrop_keeps, h]

theorem lanesMayLeave_keeps (h : Keeps a s) : Keeps a (lanesMayLeave s) := by
  simp only [lanesMayLeave]
  repeat' first
    | (with_reducible first | assumption | apply foldl_keeps | apply forFin_keeps | apply hostMayLeave_keeps
                            | apply txUpdateAll_keeps | apply forFin_keeps | apply rxMayLeave_keeps)
    | simp only [Keeps_mk, Keeps_mk']
    | split
    | dsimp only
    | (with_reducible first | refine keeps_snd (by assumption) ?_ | refine keeps_fst (by assumption) ?_)
    | intro

/-! ### Training -/

theorem scQueue_keeps (h : Keeps a s) : Keeps a (scQueue x1 x2 s) := by
  simp +contextual only [scQueue, modFr_keeps, h]

theorem trnAnswer_keeps (h : Keeps a s) : Keeps a (trnAnswer x1 x2 x3 x4 x5 s) := by
  simp +contextual only [trnAnswer, scQueue_keeps, modTx_keeps, h]

theorem trnMismatch_keeps (h : Keeps a s) : Keeps a (trnMismatch x1 x2 s) := by
  simp +contextual only [trnMismatch, Keeps_ite, modTx_keeps, raise_keeps, h, implies_true, and_self]

theorem trnSend_keeps (h : Keeps a s) : Keeps a (trnSend x1 x2 x3 s) := by
  simp +contextual only [trnSend, scQueue_keeps, modTx_keeps, h]

theorem trnAskFir_keeps (h : Keeps a s) : Keeps a (trnAskFir x1 x2 x3 x4 s) := by
  simp +contextual only [trnAskFir, trnSend_keeps, h]

theorem trnFinish_keeps (h : Keeps a s) : Keeps a (trnFinish x1 s) := by
  simp only [trnFinish]
  repeat' first
    | (with_reducible first | assumption | apply foldl_keeps | apply forFin_keeps | apply scQueue_keeps
                            | apply modTx_keeps | apply raise_keeps)

theorem trnContext_keeps (h : Keeps a s) : Keeps a (trnContext x1 x2 x3 s) := by
  simp +contextual only [trnContext, Keeps_ite, trnFinish_keeps, modTx_keeps, h, implies_true, and_self]

theorem trnBase_keeps (h : Keeps a s) : Keeps a (trnBase x1 x2 s) := by
  simp +contextual only [trnBase, modTx_keeps, h]

theorem trnNextOffset_keeps (h : Keeps a s) : Keeps a (trnNextOffset x1 x2 s) := by
  simp +contextual only [trnNextOffset, Keeps_ite, trnBase_keeps, trnContext_keeps, h, implies_true, and_self]

theorem trnNextTrial_keeps (h : Keeps a s) : Keeps a (trnNextTrial x1 x2 s) := by
  simp +contextual only [trnNextTrial, Keeps_ite, trnNextOffset_keeps, trnBase_keeps, h, implies_true, and_self]

theorem trnBegin_keeps (h : Keeps a s) : Keeps a (trnBegin x1 s) := by
  simp +contextual only [trnBegin, foldl_keeps, done_keeps, modLine_keeps, h, implies_true]

theorem trnAtUp_keeps (h : Keeps a s) : Keeps a (trnAtUp x1 x2 s) := by
  simp +contextual only [trnAtUp, Keeps_ite, modTx_keeps, trnBegin_keeps, h, implies_true, and_self]

theorem trnHeard_keeps (h : Keeps a s) : Keeps a (trnHeard x1 s) := by
  simp +contextual only [trnHeard, Keeps_ite, trnBegin_keeps, h, implies_true, and_self]

theorem trnRequest_keeps (h : Keeps a s) : Keeps a (trnRequest x1 x2 s) := by
  simp only [trnRequest]
  repeat' first
    | (with_reducible first | assumption | apply foldl_keeps | apply forFin_keeps | apply scQueue_keeps
                            | apply modTx_keeps | apply trnMismatch_keeps | apply trnAnswer_keeps
                            | apply trnHeard_keeps | apply countLine_keeps | apply arbOffer_keeps)
    | simp only [Keeps_mk, Keeps_mk']
    | split
    | dsimp only
    | (with_reducible first | refine keeps_snd (by assumption) ?_ | refine keeps_fst (by assumption) ?_)

theorem trnApply_keeps (h : Keeps a s) : Keeps a (trnApply x1 s) := by
  simp only [trnApply]
  repeat' first
    | (with_reducible first | assumption | apply foldl_keeps | apply forFin_keeps | apply modLine_keeps
                            | apply arbEnd_keeps)
    | simp only [Keeps_mk, Keeps_mk']
    | split

theorem trnDone_keeps (h : Keeps a s) : Keeps a (trnDone x1 x2 s) := by
  simp only [trnDone]
  repeat' first
    | (with_reducible first | assumption | apply foldl_keeps | apply forFin_keeps | apply scQueue_keeps
                            | apply modTx_keeps | apply trnMismatch_keeps | apply trnAnswer_keeps
                            | apply trnHeard_keeps | apply countLine_keeps)
    | simp only [Keeps_mk, Keeps_mk']
    | split

theorem trnResponse_keeps (h : Keeps a s) : Keeps a (trnResponse x1 x2 s) := by
  unfold trnResponse
  refine (Keeps_ite _).2 ⟨fun _ => h, fun _ => ?_⟩
  extract_lets +onlyGivenNames s1
  have h1 : Keeps a s1 := countLine_keeps h
  clear_value s1
  refine (Keeps_ite _).2 ⟨fun _ => h1, fun _ => (Keeps_ite _).2 ⟨fun _ => trnMismatch_keeps h1, fun _ =>
    (Keeps_ite _).2 ⟨fun _ => trnHeard_keeps h1, fun _ => (Keeps_ite _).2 ⟨fun _ => h1, fun _ => ?_⟩⟩⟩⟩
  cases s1.lines[x1].tx.proc with
  | none => exact h1
  | some p =>
    refine (Keeps_ite _).2 ⟨fun _ => h1, fun _ => ?_⟩
    extract_lets +onlyGivenNames status applied
    clear_value status applied
    cases p.step <;> repeat' first
      | (with_reducible first | exact h1 | exact modTx_keeps h1 | exact trnBase_keeps h1 | exact trnContext_keeps h1
                              | exact trnNextTrial_keeps h1 | refine (Keeps_ite _).2 ⟨fun _ => ?_, fun _ => ?_⟩)
      | (extract_lets +onlyGivenNames f; clear_value f)

theorem contextMean_keeps (h : Keeps a s) : Keeps a (contextMean x1 x2 s).2 := by
  simp only [contextMean]
  repeat' first
    | (with_reducible first | assumption | apply foldl_keeps | apply forFin_keeps | apply draw_keeps)
    | simp only [Keeps_mk, Keeps_mk']
    | split

theorem trnWindow_keeps (h : Keeps a s) : Keeps a (trnWindow x1 s) := by
  simp only [trnWindow]
  repeat' first
    | (with_reducible first | assumption | apply foldl_keeps | apply forFin_keeps | apply trnNextOffset_keeps
                            | apply modTx_keeps | apply trnContext_keeps | apply contextMean_keeps
                            | apply trnSend_keeps | apply trnAskFir_keeps)
    | simp only [Keeps_mk, Keeps_mk']
    | split

theorem trnFrameSeen_keeps (h : Keeps a s) : Keeps a (trnFrameSeen x1 x2 s) := by
  simp +contextual only [trnFrameSeen, modTx_keeps, h]

theorem trnRetransmit_keeps (h : Keeps a s) : Keeps a (trnRetransmit x1 s) := by
  simp only [trnRetransmit]
  repeat' first
    | (with_reducible first | assumption | apply foldl_keeps | apply forFin_keeps | apply scQueue_keeps
                            | apply modTx_keeps)
    | simp only [Keeps_mk, Keeps_mk']
    | split

theorem trnSilent_keeps (h : Keeps a s) : Keeps a (trnSilent x1 s) := by
  simp only [trnSilent]
  repeat' first
    | (with_reducible first | assumption | apply foldl_keeps | apply forFin_keeps | apply modLine_keeps
                            | apply trnDrop_keeps | apply raise_keeps)
    | simp only [Keeps_mk, Keeps_mk']
    | split

theorem trnProbe_keeps (h : Keeps a s) : Keeps a (trnProbe x1 s) := by
  simp +contextual only [trnProbe, Keeps_ite, scQueue_keeps, modTx_keeps, h, implies_true, and_self]

theorem trnBoot_keeps (h : Keeps a s) : Keeps a (trnBoot s) := by
  simp only [trnBoot]
  repeat' first
    | (with_reducible first | assumption | apply foldl_keeps | apply forFin_keeps | apply scQueue_keeps
                            | apply modTx_keeps | apply modFr_keeps | apply trnBegin_keeps
                            | apply forFin_keeps)
    | simp only [Keeps_mk, Keeps_mk']
    | split
    | dsimp only
    | (with_reducible first | refine keeps_snd (by assumption) ?_ | refine keeps_fst (by assumption) ?_)
    | intro

/-! ### Latency -/

theorem latRefresh_keeps (h : Keeps a s) : Keeps a (latRefresh x1 s) := by
  simp +contextual only [latRefresh, modPort_keeps, h]

theorem latDraw_keeps (h : Keeps a s) : Keeps a (latDraw s).2 := by
  simp only [latDraw]
  repeat' first
    | (with_reducible first | assumption | apply foldl_keeps | apply forFin_keeps | apply draw_keeps)
    | simp only [Keeps_mk, Keeps_mk']
    | split

theorem setRxBuffer_keeps (h : Keeps a s) : Keeps a (setRxBuffer x1 s) := by
  simp +contextual only [setRxBuffer, latDraw_keeps, modRx_keeps, h]

theorem setTxBuffers_keeps (h : Keeps a s) : Keeps a (setTxBuffers x1 s) := by
  simp only [setTxBuffers]
  repeat' first
    | (with_reducible first | assumption | apply foldl_keeps | apply forFin_keeps | apply latDraw_keeps
                            | apply modRx_keeps)
    | simp only [Keeps_mk, Keeps_mk']
    | split
    | dsimp only
    | (with_reducible first | refine keeps_snd (by assumption) ?_ | refine keeps_fst (by assumption) ?_)
    | intro

theorem buffersSet_keeps (h : Keeps a s) : Keeps a (buffersSet x1 s) := by
  simp only [buffersSet]
  repeat' first
    | (with_reducible first | assumption | apply foldl_keeps | apply forFin_keeps | apply setRxBuffer_keeps
                            | apply latDraw_keeps | apply modRx_keeps)
    | simp only [Keeps_mk, Keeps_mk']
    | split
    | dsimp only
    | (with_reducible first | refine keeps_snd (by assumption) ?_ | refine keeps_fst (by assumption) ?_)
    | intro

theorem bufferResetDone_keeps (h : Keeps a s) : Keeps a (bufferResetDone x1 s) := by
  simp only [bufferResetDone]
  repeat' first
    | (with_reducible first | assumption | apply foldl_keeps | apply forFin_keeps | apply modPort_keeps
                            | apply buffersSet_keeps)
    | split

/-! ### HostPath -/

theorem hostWave_keeps {b : HostBank} : ∀ {l : List (Option (Fin 4))} {s : State}, Keeps a s → Keeps a (hostWave b l s).2
  | [], _, h => h
  | x :: l, s, h => by
    rw [hostWave]
    extract_lets +onlyGivenNames w
    split
    · extract_lets +onlyGivenNames d r
      refine hostWave_keeps ?_
      simp only [d]
      split
      · exact h
      · exact draw_keeps h
    · exact hostWave_keeps h

theorem hostSend_keeps (h : Keeps a s) : Keeps a (hostSend x1 x2 x3 s) := by
  simp only [hostSend]
  repeat' first
    | (with_reducible first | assumption | apply foldl_keeps | apply forFin_keeps | apply modHost_keeps
                            | apply hostWave_keeps | apply emit_keeps)

theorem hostSilent_keeps (h : Keeps a s) : Keeps a (hostSilent x1 s) := by
  simp +contextual only [hostSilent, Keeps_ite, modHost_keeps, h, implies_true, and_self]

theorem hostDeliver_keeps (h : Keeps a s) : Keeps a (hostDeliver x1 x2 s) := by
  simp +contextual only [hostDeliver, Keeps_ite, modHost_keeps, hostSilent_keeps, hostSend_keeps, h, implies_true, and_self]

theorem hostGenerate_keeps (h : Keeps a s) : Keeps a (hostGenerate x1 x2 s) := by
  simp +contextual only [hostGenerate, Keeps_ite, forFin_keeps, foldl_keeps, modHost_keeps, hostSend_keeps, h, implies_true,
    and_self]

theorem hostCheck_keeps (h : Keeps a s) : Keeps a (hostCheck x1 x2 s) := by
  simp +contextual only [hostCheck, Keeps_ite, Keeps_mk, Keeps_mk', forFin_keeps, foldl_keeps, modHost_keeps,
    countHost_keeps, h, implies_true, and_self]

theorem hostForward_keeps (h : Keeps a s) : Keeps a (hostForward x1 x2 s) := by
  simp only [hostForward]
  repeat' first
    | (with_reducible first | assumption | apply foldl_keeps | apply forFin_keeps | apply modHost_keeps
                            | apply hostCheck_keeps | apply hostSend_keeps)
    | simp only [Keeps_mk, Keeps_mk']
    | split
    | dsimp only
    | (with_reducible first | refine keeps_snd (by assumption) ?_ | refine keeps_fst (by assumption) ?_)
    | intro

/-! ### LineRx -/

theorem enterUp_keeps (h : Keeps a s) : Keeps a (enterUp x1 s) := by
  simp only [enterUp]
  repeat' first
    | (with_reducible first | assumption | apply foldl_keeps | apply forFin_keeps | apply setRxBuffer_keeps
                            | apply trnAtUp_keeps | apply modRx_keeps | apply raise_keeps)

theorem frameCheck_keeps (h : Keeps a s) : Keeps a (frameCheck x1 s) := by
  simp +contextual only [frameCheck, Keeps_ite, enterUp_keeps, h, implies_true, and_self]

theorem framePass_keeps (h : Keeps a s) : Keeps a (framePass x1 s) := by
  simp +contextual only [framePass, Keeps_ite, Keeps_mk, Keeps_mk', forFin_keeps, foldl_keeps, enterUp_keeps, h,
    implies_true, and_self]

theorem loseLock_keeps (h : Keeps a s) : Keeps a (loseLock x1 x2 s) := by
  simp only [loseLock]
  repeat' first
    | (with_reducible first | assumption | apply foldl_keeps | apply forFin_keeps | apply enterRelock_keeps
                            | apply outageStart_keeps | apply raise_keeps)
    | simp only [Keeps_mk, Keeps_mk']
    | split

theorem signalLoss_keeps (h : Keeps a s) : Keeps a (signalLoss x1 s) := by
  simp +contextual only [signalLoss, Keeps_ite, modRx_keeps, enterDark_keeps, h, implies_true, and_self]

theorem darkLiveSet_keeps (h : Keeps a s) : Keeps a (darkLiveSet x1 s) := by
  simp +contextual only [darkLiveSet, modLine_keeps, h]

theorem leaveDark_keeps (h : Keeps a s) : Keeps a (leaveDark x1 s) := by
  simp only [leaveDark]
  repeat' first
    | (with_reducible first | assumption | apply foldl_keeps | apply forFin_keeps | apply enterGain_keeps
                            | apply enterRelock_keeps | apply modRx_keeps | apply darkLiveSet_keeps
                            | apply raise_keeps)
    | simp only [Keeps_mk, Keeps_mk']
    | split

theorem lightCheck_keeps (h : Keeps a s) : Keeps a (lightCheck x1 s) := by
  simp only [lightCheck]
  repeat' first
    | (with_reducible first | assumption | apply foldl_keeps | apply forFin_keeps | apply enterGain_keeps
                            | apply outageFromOff_keeps | apply leaveDark_keeps)
    | simp only [Keeps_mk, Keeps_mk']
    | split

theorem lightOn_keeps (h : Keeps a s) : Keeps a (lightOn x1 s) := by
  simp +contextual only [lightOn, Keeps_ite, modRx_keeps, lightCheck_keeps, h, implies_true, and_self]

theorem losCheck_keeps (h : Keeps a s) : Keeps a (losCheck x1 s) := by
  simp +contextual only [losCheck, Keeps_ite, enterDark_keeps, lightCheck_keeps, h, implies_true, and_self]

theorem offTimeout_keeps (h : Keeps a s) : Keeps a (offTimeout x1 s) := by
  simp +contextual only [offTimeout, Keeps_ite, enterDark_keeps, outageFromOff_keeps, h, implies_true, and_self]

theorem gainDone_keeps (h : Keeps a s) : Keeps a (gainDone x1 s) := by
  simp +contextual only [gainDone, Keeps_ite, modRx_keeps, h, implies_true, and_self]

theorem enterTrain_keeps (h : Keeps a s) : Keeps a (enterTrain x1 s) := by
  simp +contextual only [enterTrain, modLine_keeps, eqNote_keeps, h]

theorem timingDone_keeps (h : Keeps a s) : Keeps a (timingDone x1 s) := by
  simp +contextual only [timingDone, Keeps_ite, enterTrain_keeps, h, implies_true, and_self]

theorem acqRetry_keeps (h : Keeps a s) : Keeps a (acqRetry x1 s) := by
  simp +contextual only [acqRetry, Keeps_ite, enterGain_keeps, raise_keeps, h, implies_true, and_self]

theorem relockFallback_keeps (h : Keeps a s) : Keeps a (relockFallback x1 s) := by
  simp only [relockFallback]
  repeat' first
    | (with_reducible first | assumption | apply foldl_keeps | apply forFin_keeps | apply enterGain_keeps
                            | apply modRx_keeps | apply raise_keeps)
    | simp only [Keeps_mk, Keeps_mk']
    | split

theorem cdrUnlock_keeps (h : Keeps a s) : Keeps a (cdrUnlock x1 s) := by
  simp +contextual only [cdrUnlock, loseLock_keeps, modRx_keeps, h]

theorem outagePoint_keeps (h : Keeps a s) : Keeps a (outagePoint x1 s) := by
  simp +contextual only [outagePoint, Keeps_ite, modRx_keeps, squelch_keeps, h, implies_true, and_self]

theorem portResume_keeps (h : Keeps a s) : Keeps a (portResume x1 s) := by
  simp +contextual only [portResume, Keeps_ite, foldl_keeps, modRx_keeps, h, implies_true, and_self]

theorem outageEnd_keeps (h : Keeps a s) : Keeps a (outageEnd x1 s) := by
  simp +contextual only [outageEnd, Keeps_ite, modRx_keeps, h, implies_true, and_self]

theorem codewordLock_keeps (h : Keeps a s) : Keeps a (codewordLock x1 s) := by
  simp +contextual only [codewordLock, Keeps_ite, frameCheck_keeps, modRx_keeps, h, implies_true, and_self]

theorem codewordLockLost_keeps (h : Keeps a s) : Keeps a (codewordLockLost x1 s) := by
  simp +contextual only [codewordLockLost, Keeps_ite, loseLock_keeps, modRx_keeps, h, implies_true, and_self]

theorem tiaFirst_keeps (h : Keeps a s) : Keeps a (tiaFirst x1 s) := by
  simp +contextual only [tiaFirst, Keeps_ite, Keeps_mk, Keeps_mk', forFin_keeps, foldl_keeps, tiaWrite_keeps, modRx_keeps,
    h, implies_true, and_self]

theorem vgaStep_keeps (h : Keeps a s) : Keeps a (vgaStep x1 x2 s) := by
  simp only [vgaStep]
  repeat' first
    | (with_reducible first | assumption | apply foldl_keeps | apply forFin_keeps | apply modRx_keeps
                            | apply tiaFirst_keeps)
    | split
    | dsimp only
    | (with_reducible first | refine keeps_snd (by assumption) ?_ | refine keeps_fst (by assumption) ?_)
    | intro

theorem tiaLimit_keeps (h : Keeps a s) : Keeps a (tiaLimit x1 s) := by
  simp +contextual only [tiaLimit, Keeps_ite, modRx_keeps, h, implies_true, and_self]

theorem tiaIssue_keeps (h : Keeps a s) : Keeps a (tiaIssue x1 s) := by
  simp only [tiaIssue]
  repeat' first
    | (with_reducible first | assumption | apply foldl_keeps | apply forFin_keeps | apply tiaWrite_keeps
                            | apply modRx_keeps | apply arbOffer_keeps)
    | simp only [Keeps_mk, Keeps_mk']
    | split
    | dsimp only
    | (with_reducible first | refine keeps_snd (by assumption) ?_ | refine keeps_fst (by assumption) ?_)

theorem vgaTiaStep_keeps (h : Keeps a s) : Keeps a (vgaTiaStep x1 s) := by
  simp only [vgaTiaStep]
  repeat' first
    | (with_reducible first | assumption | apply foldl_keeps | apply forFin_keeps | apply modRx_keeps)
    | split
    | dsimp only
    | (with_reducible first | refine keeps_snd (by assumption) ?_ | refine keeps_fst (by assumption) ?_)
    | intro

theorem countLevels_keeps (h : Keeps a s) : Keeps a (countLevels x1 x2 s) := by
  simp +contextual only [countLevels, Keeps_mk', foldl_keeps, countLine_keeps, h, implies_true]

theorem softTake_keeps (h : Keeps a s) : Keeps a (softTake x1 x2 x3 s) := by
  simp +contextual only [softTake, Keeps_ite, Keeps_mk, Keeps_mk', forFin_keeps, foldl_keeps, modFr_keeps, h, implies_true,
    and_self]

theorem samplesIn_keeps (h : Keeps a s) : Keeps a (samplesIn x1 x2 s) := by
  simp only [samplesIn]
  repeat' first
    | (with_reducible first | assumption | apply foldl_keeps | apply forFin_keeps | apply modEq_keeps
                            | apply modTx_keeps | apply eqNote_keeps | apply emit_keeps
                            | apply softTake_keeps | apply countLevels_keeps | apply countLine_keeps)
    | simp only [Keeps_mk, Keeps_mk']
    | split
    | dsimp only
    | (with_reducible first | refine keeps_snd (by assumption) ?_ | refine keeps_fst (by assumption) ?_)
    | intro

theorem rotatorStep_keeps (h : Keeps a s) : Keeps a (rotatorStep x1 x2 x3 s) := by
  simp +contextual only [rotatorStep, Keeps_ite, Keeps_mk, Keeps_mk', forFin_keeps, foldl_keeps, modRx_keeps, raise_keeps,
    h, implies_true, and_self]

theorem loopUpdate_keeps (h : Keeps a s) : Keeps a (loopUpdate x1 x2 x3 s) := by
  simp +contextual only [loopUpdate, Keeps_ite, Keeps_mk, Keeps_mk', forFin_keeps, foldl_keeps, rotatorStep_keeps,
    samplesIn_keeps, h, implies_true, and_self]

theorem pick_keeps (h : Keeps a s) : Keeps a (pick x1 s).2 := by
  simp only [pick]
  repeat' first
    | (with_reducible first | assumption | apply foldl_keeps | apply forFin_keeps | apply draw_keeps)
    | simp only [Keeps_mk, Keeps_mk']
    | split

theorem placeNext_keeps (h : Keeps a s) : Keeps a (placeNext x1 x2 x3 x4 x5 s).2 := by
  simp only [placeNext]
  repeat' first
    | (with_reducible first | assumption | apply foldl_keeps | apply forFin_keeps | apply pick_keeps)
    | simp only [Keeps_mk, Keeps_mk']
    | split

theorem placeGroups_keeps {b : LineBank} {thr : Nat} {main : Rat} {a : State} : ∀ {k : Nat} {left : List (Int × Rat)} {acc : List Int}
    {s : State}, Keeps a s → Keeps a (placeGroups b thr main k left acc s).2
  | 0, _, _, _, h => h
  | k + 1, left, acc, s, h => by
    rw [placeGroups]
    split
    · rename_i e; exact keeps_snd e (placeNext_keeps h)
    · rename_i e; exact placeGroups_keeps (keeps_snd e (placeNext_keeps h))

theorem sweepBlock_keeps (h : Keeps a s) : Keeps a (sweepBlock x1 s) := by
  simp only [sweepBlock]
  repeat' first
    | (with_reducible first | assumption | apply foldl_keeps | apply forFin_keeps | apply modEq_keeps
                            | apply placeGroups_keeps | apply eqNote_keeps | apply raise_keeps)
    | simp only [Keeps_mk, Keeps_mk']
    | split

theorem blindEnd_keeps (h : Keeps a s) : Keeps a (blindEnd x1 s) := by
  simp +contextual only [blindEnd, modLine_keeps, h]

theorem trackingEntry_keeps (h : Keeps a s) : Keeps a (trackingEntry x1 s) := by
  simp +contextual only [trackingEntry, modLine_keeps, h]

theorem fieldOr_keeps (h : Keeps a s) : Keeps a (fieldOr x1 x2 x3 s).2 := by
  simp only [fieldOr]
  repeat' first
    | (with_reducible first | assumption | apply foldl_keeps | apply forFin_keeps | apply draw_keeps)
    | simp only [Keeps_mk, Keeps_mk']
    | split

theorem ratioOr_keeps (h : Keeps a s) : Keeps a (ratioOr x1 s).2 := by
  simp only [ratioOr]
  repeat' first
    | (with_reducible first | assumption | apply foldl_keeps | apply forFin_keeps | apply draw_keeps)
    | simp only [Keeps_mk, Keeps_mk']
    | split
    | dsimp only
    | (with_reducible first | refine keeps_snd (by assumption) ?_ | refine keeps_fst (by assumption) ?_)
    | intro

theorem dbField_keeps (h : Keeps a s) : Keeps a (dbField x1 s).2 := by
  simp +contextual only [dbField, Keeps_ite, Keeps_mk, Keeps_mk', forFin_keeps, foldl_keeps, fieldOr_keeps, h, implies_true,
    and_self]

theorem marginLow_keeps (h : Keeps a s) : Keeps a (marginLow x1 s) := by
  simp +contextual only [marginLow, Keeps_ite, modEq_keeps, raise_keeps, h, implies_true, and_self]

theorem marginField_keeps (h : Keeps a s) : Keeps a (marginField x1 x2 s).2 := by
  simp only [marginField]
  repeat' first
    | (with_reducible first | assumption | apply foldl_keeps | apply forFin_keeps | apply fieldOr_keeps)
    | simp only [Keeps_mk, Keeps_mk']
    | split
    | dsimp only
    | (with_reducible first | refine keeps_snd (by assumption) ?_ | refine keeps_fst (by assumption) ?_)
    | intro

theorem muteField_keeps (h : Keeps a s) : Keeps a (muteField x1 x2 s).2 := by
  simp only [muteField]
  repeat' first
    | (with_reducible first | assumption | apply foldl_keeps | apply forFin_keeps | apply fieldOr_keeps)
    | simp only [Keeps_mk, Keeps_mk']
    | split
    | dsimp only
    | (with_reducible first | refine keeps_snd (by assumption) ?_ | refine keeps_fst (by assumption) ?_)
    | intro

theorem figuresOf_keeps (h : Keeps a s) : Keeps a (figuresOf x1 x2 s).2 := by
  unfold figuresOf
  extract_lets +onlyGivenNames p
  split
  rename_i s1 e1
  have h1 : Keeps a s1 := keeps_snd e1 (ratioOr_keeps h)
  split
  rename_i s2 e2
  have h2 : Keeps a s2 := keeps_snd e2 (ratioOr_keeps h1)
  split
  rename_i s3 e3
  have h3 : Keeps a s3 := keeps_snd e3 (dbField_keeps h2)
  split
  rename_i s4 e4
  have h4 : Keeps a s4 := by
    refine keeps_snd e4 ?_
    split
    · exact h3
    · exact draw_keeps h3
  extract_lets +onlyGivenNames pre
  split
  rename_i s5 e5
  have h5 : Keeps a s5 := by
    refine keeps_snd e5 ?_
    split
    · exact h4
    · exact draw_keeps h4
  split
  rename_i s6 e6
  have h6 : Keeps a s6 := keeps_snd e6 (marginField_keeps h5)
  split
  rename_i s7 e7
  exact keeps_snd e7 (muteField_keeps h6)

theorem skewRefresh_keeps (h : Keeps a s) : Keeps a (skewRefresh x1 x2 s) := by
  simp +contextual only [skewRefresh, Keeps_ite, Keeps_mk, Keeps_mk', forFin_keeps, foldl_keeps, modRx_keeps, h,
    implies_true, and_self]

theorem qualityWindow_keeps (h : Keeps a s) : Keeps a (qualityWindow x1 x2 s) := by
  unfold qualityWindow
  extract_lets +onlyGivenNames l
  split
  · exact h
  extract_lets +onlyGivenNames code r f conv s1
  have h1 : Keeps a s1 := modEq_keeps (skewRefresh_keeps (figuresOf_keeps h))
  clear_value s1
  extract_lets +onlyGivenNames s2
  have h2 : Keeps a s2 := by simp only [s2, Keeps_ite, blindEnd_keeps, h1, implies_true, and_self]
  clear_value s2
  extract_lets +onlyGivenNames s3
  have h3 : Keeps a s3 := by simp only [s3, Keeps_ite, frameCheck_keeps, modLine_keeps, h2, implies_true, and_self]
  exact trnWindow_keeps (marginLow_keeps h3)

theorem coefSaturated_keeps (h : Keeps a s) : Keeps a (coefSaturated x1 x2 s) := by
  simp +contextual only [coefSaturated, Keeps_ite, modEq_keeps, raise_keeps, h, implies_true, and_self]

theorem lineCapture_keeps (h : Keeps a s) : Keeps a (lineCapture x1 s) := by
  simp only [lineCapture]
  repeat' first
    | (with_reducible first | assumption | apply foldl_keeps | apply forFin_keeps | apply modEq_keeps)
    | split
    | dsimp only
    | (with_reducible first | refine keeps_snd (by assumption) ?_ | refine keeps_fst (by assumption) ?_)
    | intro

theorem storedSave_keeps (h : Keeps a s) : Keeps a (storedSave x1 s) := by
  simp only [storedSave]
  repeat' first
    | (with_reducible first | assumption | apply foldl_keeps | apply forFin_keeps | apply modLine_keeps)
    | split
    | dsimp only
    | (with_reducible first | refine keeps_snd (by assumption) ?_ | refine keeps_fst (by assumption) ?_)
    | intro

theorem mutePhase_keeps (h : Keeps a s) : Keeps a (mutePhase x1 s) := by
  simp +contextual only [mutePhase, Keeps_ite, Keeps_mk, Keeps_mk', forFin_keeps, foldl_keeps, modLine_keeps, h,
    implies_true, and_self]

theorem muteEnter_keeps (h : Keeps a s) : Keeps a (muteEnter x1 s) := by
  simp only [muteEnter]
  repeat' first
    | (with_reducible first | assumption | apply foldl_keeps | apply forFin_keeps | apply modLine_keeps
                            | apply eqNote_keeps | apply mutePhase_keeps | apply raise_keeps)
    | split
    | dsimp only
    | (with_reducible first | refine keeps_snd (by assumption) ?_ | refine keeps_fst (by assumption) ?_)
    | intro

theorem muteLeave_keeps (h : Keeps a s) : Keeps a (muteLeave x1 s) := by
  simp only [muteLeave]
  repeat' first
    | (with_reducible first | assumption | apply foldl_keeps | apply forFin_keeps | apply modLine_keeps
                            | apply eqNote_keeps | apply mutePhase_keeps | apply raise_keeps)
    | split
    | dsimp only
    | (with_reducible first | refine keeps_snd (by assumption) ?_ | refine keeps_fst (by assumption) ?_)
    | intro

theorem compLevel_keeps (h : Keeps a s) : Keeps a (compLevel x1 x2 s) := by
  simp only [compLevel]
  repeat' first
    | (with_reducible first | assumption | apply foldl_keeps | apply forFin_keeps | apply losCheck_keeps
                            | apply compCross_keeps)
    | simp only [Keeps_mk, Keeps_mk']
    | split

theorem compLevels_keeps (h : Keeps a s) : Keeps a (compLevels x1 s) := by
  simp only [compLevels]
  repeat' first
    | (with_reducible first | assumption | apply foldl_keeps | apply forFin_keeps | apply forFin_keeps
                            | apply compLevel_keeps)
    | simp only [Keeps_mk, Keeps_mk']
    | split
    | dsimp only
    | (with_reducible first | refine keeps_snd (by assumption) ?_ | refine keeps_fst (by assumption) ?_)
    | intro

/-! ### LineTx -/

theorem txDisRelease_keeps (h : Keeps a s) : Keeps a (txDisRelease x1 s) := by
  simp +contextual only [txDisRelease, Keeps_ite, modTx_keeps, h, implies_true, and_self]

theorem dacIdle_keeps (h : Keeps a s) : Keeps a (dacIdle x1 s) := by
  simp +contextual only [dacIdle, Keeps_ite, modTx_keeps, h, implies_true, and_self]

theorem txClipping_keeps (h : Keeps a s) : Keeps a (txClipping x1 s) := by
  simp +contextual only [txClipping, Keeps_ite, modTx_keeps, raiseLimited_keeps, h, implies_true, and_self]

theorem skewStep_keeps (h : Keeps a s) : Keeps a (skewStep x1 s) := by
  simp +contextual only [skewStep, modLine_keeps, h]

theorem ocpFirst_keeps (h : Keeps a s) : Keeps a (ocpFirst x1 s) := by
  simp +contextual only [ocpFirst, Keeps_mk', h]

theorem drvSettled_keeps (h : Keeps a s) : Keeps a (drvSettled x1 s) := by
  simp +contextual only [drvSettled, modTx_keeps, h]

theorem ocpResult_keeps (h : Keeps a s) : Keeps a (ocpResult x1 x2 s) := by
  simp only [ocpResult]
  repeat' first
    | (with_reducible first | assumption | apply foldl_keeps | apply forFin_keeps | apply ocpFirst_keeps
                            | apply done_keeps | apply modRx_keeps | apply raise_keeps
                            | apply drvSettled_keeps)
    | simp only [Keeps_mk, Keeps_mk']
    | split

theorem ocpDone_keeps (h : Keeps a s) : Keeps a (ocpDone x1 s) := by
  simp only [ocpDone]
  repeat' first
    | (with_reducible first | assumption | apply foldl_keeps | apply forFin_keeps | apply ocpStart_keeps
                            | apply ocpResult_keeps)
    | simp only [Keeps_mk']
    | split

/-! ### Codes -/

theorem corrAdd_keeps (h : Keeps a s) : Keeps a (corrAdd x1 x2 x3 s) := by
  simp +contextual only [corrAdd, modEq_keeps, h]

theorem innerCount_keeps (h : Keeps a s) : Keeps a (innerCount x1 x2 x3 x4 s) := by
  simp only [innerCount]
  repeat' first
    | (with_reducible first | assumption | apply foldl_keeps | apply forFin_keeps | apply corrAdd_keeps
                            | apply modFr_keeps | apply noteLine_keeps | apply countLine_keeps)
    | simp only [Keeps_mk']
    | split

theorem dataForward_keeps (h : Keeps a s) : Keeps a (dataForward x1 x2 s) := by
  simp only [dataForward]
  repeat' first
    | (with_reducible first | assumption | apply foldl_keeps | apply forFin_keeps | apply modPort_keeps
                            | apply modFr_keeps | apply hostDeliver_keeps)
    | simp only [Keeps_mk, Keeps_mk']
    | split
    | dsimp only
    | (with_reducible first | refine keeps_snd (by assumption) ?_ | refine keeps_fst (by assumption) ?_)
    | intro

theorem freeSyms_keeps (h : Keeps a s) : Keeps a (freeSyms x1 s).2 := by
  simp +contextual only [freeSyms, Keeps_ite, Keeps_mk, Keeps_mk', forFin_keeps, foldl_keeps, draw_keeps, h, implies_true,
    and_self]

theorem recentre_keeps (h : Keeps a s) : Keeps a (recentre x1 x2 s) := by
  simp only [recentre]
  repeat' first
    | (with_reducible first | assumption | apply foldl_keeps | apply forFin_keeps | apply modHost_keeps
                            | apply freeSyms_keeps)
    | simp only [Keeps_mk, Keeps_mk']
    | split
    | dsimp only
    | (with_reducible first | refine keeps_snd (by assumption) ?_ | refine keeps_fst (by assumption) ?_)
    | intro

theorem loopSlip_keeps (h : Keeps a s) : Keeps a (loopSlip x1 x2 s) := by
  simp only [loopSlip]
  repeat' first
    | (with_reducible first | assumption | apply foldl_keeps | apply forFin_keeps | apply modHost_keeps
                            | apply recentre_keeps | apply countHost_keeps | apply raiseLimited_keeps)
    | simp only [Keeps_mk, Keeps_mk']
    | split

theorem innerCodeword_keeps (h : Keeps a s) : Keeps a (innerCodeword x1 x2 s) := by
  simp only [innerCodeword]
  repeat' first
    | (with_reducible first | assumption | apply foldl_keeps | apply forFin_keeps | apply dataForward_keeps
                            | apply modFr_keeps | apply innerCount_keeps | apply emit_keeps
                            | apply countLine_keeps)
    | simp only [Keeps_mk']
    | split

theorem innerInterval_keeps (h : Keeps a s) : Keeps a (innerInterval x1 s) := by
  simp +contextual only [innerInterval, Keeps_ite, modFr_keeps, raiseLimited_keeps, h, implies_true, and_self]

theorem rawDrop_keeps (h : Keeps a s) : Keeps a (rawDrop s x1 x2) := by
  simp +contextual only [rawDrop, Keeps_ite, Keeps_mk, Keeps_mk', forFin_keeps, foldl_keeps, modPort_keeps, h, implies_true,
    and_self]

theorem rawForward_keeps (h : Keeps a s) : Keeps a (rawForward x1 x2 s) := by
  simp +contextual only [rawForward, Keeps_ite, Keeps_mk, Keeps_mk', forFin_keeps, foldl_keeps, hostDeliver_keeps,
    rawDrop_keeps, h, implies_true, and_self]

theorem markerLock_keeps (h : Keeps a s) : Keeps a (markerLock x1 x2 s) := by
  simp +contextual only [markerLock, Keeps_ite, modPort_keeps, h, implies_true, and_self]

theorem markerLost_keeps (h : Keeps a s) : Keeps a (markerLost x1 x2 s) := by
  simp only [markerLost]
  repeat' first
    | (with_reducible first | assumption | apply foldl_keeps | apply forFin_keeps | apply countPort_keeps
                            | apply modPort_keeps | apply rawForward_keeps | apply raise_keeps)
    | simp only [Keeps_mk, Keeps_mk']
    | split

theorem outerForward_keeps (h : Keeps a s) : Keeps a (outerForward x1 x2 x3 s) := by
  simp +contextual only [outerForward, Keeps_ite, Keeps_mk, Keeps_mk', forFin_keeps, foldl_keeps, hostDeliver_keeps, h,
    implies_true, and_self]

theorem outerRun_keeps (h : Keeps a s) : Keeps a (outerRun x1 x2 x3 s) := by
  simp +contextual only [outerRun, Keeps_ite, Keeps_mk, Keeps_mk', forFin_keeps, foldl_keeps, modPort_keeps,
    markerLost_keeps, h, implies_true, and_self]

theorem outerCount_keeps (h : Keeps a s) : Keeps a (outerCount x1 x2 x3 s) := by
  simp only [outerCount]
  repeat' first
    | (with_reducible first | assumption | apply foldl_keeps | apply forFin_keeps | apply countPort_keeps
                            | apply modPort_keeps | apply notePort_keeps)
    | simp only [Keeps_mk, Keeps_mk']
    | split
    | dsimp only
    | (with_reducible first | refine keeps_snd (by assumption) ?_ | refine keeps_fst (by assumption) ?_)
    | intro

theorem outerCodeword_keeps (h : Keeps a s) : Keeps a (outerCodeword x1 x2 x3 x4 s) := by
  simp only [outerCodeword]
  repeat' first
    | (with_reducible first | assumption | apply foldl_keeps | apply forFin_keeps | apply outerRun_keeps
                            | apply outerCount_keeps | apply outerForward_keeps
                            | apply rawForward_keeps | apply emit_keeps | apply rawDrop_keeps)
    | simp only [Keeps_mk, Keeps_mk']
    | split
    | dsimp only
    | (with_reducible first | refine keeps_snd (by assumption) ?_ | refine keeps_fst (by assumption) ?_)
    | intro

theorem outerInterval_keeps (h : Keeps a s) : Keeps a (outerInterval x1 s) := by
  simp +contextual only [outerInterval, Keeps_ite, modPort_keeps, raiseLimited_keeps, h, implies_true, and_self]

theorem winRecord_keeps (h : Keeps a s) : Keeps a (winRecord x1 x2 x3 x4 x5 s) := by
  simp +contextual only [winRecord, tlmForm_keeps, h]

theorem serWindow_keeps (h : Keeps a s) : Keeps a (serWindow x1 s) := by
  simp only [serWindow]
  repeat' first
    | (with_reducible first | assumption | apply foldl_keeps | apply forFin_keeps | apply modPort_keeps
                            | apply winRecord_keeps | apply raise_keeps)
    | simp only [Keeps_mk, Keeps_mk']
    | split

/-! ### Frame -/

theorem sendNext_keeps (h : Keeps a s) : Keeps a (sendNext x1 s) := by
  simp +contextual only [sendNext, modFr_keeps, h]

theorem scNext_keeps (h : Keeps a s) : Keeps a (scNext x1 s).2 := by
  simp only [scNext]
  repeat' first
    | (with_reducible first | assumption | apply foldl_keeps | apply forFin_keeps | apply modFr_keeps)
    | simp only [Keeps_mk, Keeps_mk']
    | split

theorem setLineData_keeps (h : Keeps a s) : Keeps a (setLineData x1 x2 s) := by
  simp +contextual only [setLineData, Keeps_ite, Keeps_mk, Keeps_mk', forFin_keeps, foldl_keeps, modHost_keeps, h,
    implies_true, and_self]

theorem takeBlocks_keeps {a : State} : ∀ {k : Nat} {l : List (Fin 4)} {s : State}, Keeps a s → Keeps a (takeBlocks k l s).2.2
  | 0, _, _, h => h
  | k + 1, l, s, h => by
    rw [takeBlocks]
    extract_lets +onlyGivenNames b
    split
    · exact takeBlocks_keeps h
    · exact takeBlocks_keeps (draw_keeps h)

theorem fillPos_keeps (h : Keeps a s) : Keeps a (fillPos x1 x2 x3 s).2 := by
  simp only [fillPos]
  repeat' first
    | (with_reducible first | assumption | apply foldl_keeps | apply forFin_keeps | apply modTx_keeps
                            | apply draw_keeps)
    | simp only [Keeps_mk, Keeps_mk']
    | split
    | dsimp only
    | (with_reducible first | refine keeps_snd (by assumption) ?_ | refine keeps_fst (by assumption) ?_)
    | intro

theorem farJudge_keeps (h : Keeps a s) : Keeps a (farJudge x1 x2 s) := by
  simp +contextual only [farJudge, Keeps_ite, Keeps_mk, Keeps_mk', forFin_keeps, foldl_keeps, loopSlip_keeps, h,
    implies_true, and_self]

theorem posBlocks_keeps (h : Keeps a s) : Keeps a (posBlocks x1 x2 x3 x4 s).2 := by
  simp only [posBlocks]
  repeat' first
    | (with_reducible first | assumption | apply foldl_keeps | apply forFin_keeps | apply modTx_keeps
                            | apply farJudge_keeps | apply takeBlocks_keeps | apply setLineData_keeps
                            | apply fillPos_keeps)
    | simp only [Keeps_mk, Keeps_mk']
    | split
    | dsimp only
    | (with_reducible first | refine keeps_snd (by assumption) ?_ | refine keeps_fst (by assumption) ?_)
    | intro

theorem frameBlocks_keeps (h : Keeps a s) : Keeps a (frameBlocks x1 x2 x3 s).2 := by
  unfold frameBlocks
  exact posBlocks_keeps (posBlocks_keeps h)

theorem dacCodes_keeps {l : Line} {a : State} : ∀ {k : Nat} {w : List (Option (Fin 4))} {s : State},
    Keeps a s → Keeps a (dacCodes l k w s).2.2
  | 0, _, _, h => h
  | k + 1, w, s, h => by
    rw [dacCodes]
    split
    · exact dacCodes_keeps h
    · exact dacCodes_keeps (draw_keeps h)

theorem countFill_keeps (h : Keeps a s) : Keeps a (countFill x1 x2 s) := by
  simp only [countFill]
  repeat' first
    | (with_reducible first | assumption | apply foldl_keeps | apply forFin_keeps | apply countHost_keeps)
    | simp only [Keeps_mk, Keeps_mk']
    | split
    | dsimp only
    | (with_reducible first | refine keeps_snd (by assumption) ?_ | refine keeps_fst (by assumption) ?_)
    | intro

theorem dacSend_keeps (h : Keeps a s) : Keeps a (dacSend x1 x2 s) := by
  simp only [dacSend]
  repeat' first
    | (with_reducible first | assumption | apply foldl_keeps | apply forFin_keeps | apply modTx_keeps
                            | apply emit_keeps | apply countLine_keeps | apply dacCodes_keeps)
    | simp only [Keeps_mk, Keeps_mk']
    | split
    | dsimp only
    | (with_reducible first | refine keeps_snd (by assumption) ?_ | refine keeps_fst (by assumption) ?_)
    | intro

theorem dacSilent_keeps (h : Keeps a s) : Keeps a (dacSilent x1 s) := by
  simp +contextual only [dacSilent, Keeps_ite, Keeps_mk, Keeps_mk', forFin_keeps, foldl_keeps, modTx_keeps, h, implies_true,
    and_self]

theorem frameSend_keeps (h : Keeps a s) : Keeps a (frameSend x1 x2 x3 s) := by
  simp only [frameSend]
  repeat' first
    | (with_reducible first | assumption | apply foldl_keeps | apply forFin_keeps | apply sendNext_keeps
                            | apply scNext_keeps | apply modFr_keeps | apply frameBlocks_keeps
                            | apply emit_keeps | apply countFill_keeps | apply countLine_keeps
                            | apply dacSend_keeps)
    | simp only [Keeps_mk, Keeps_mk']
    | split

theorem frameLoose_keeps (h : Keeps a s) : Keeps a (frameLoose x1 x2 s) := by
  simp only [frameLoose]
  repeat' first
    | (with_reducible first | assumption | apply foldl_keeps | apply forFin_keeps | apply emit_keeps
                            | apply fillPos_keeps | apply dacSend_keeps)
    | simp only [Keeps_mk, Keeps_mk']
    | split
    | dsimp only
    | (with_reducible first | refine keeps_snd (by assumption) ?_ | refine keeps_fst (by assumption) ?_)
    | intro

theorem plainSend_keeps (h : Keeps a s) : Keeps a (plainSend x1 x2 s) := by
  simp only [plainSend]
  repeat' first
    | (with_reducible first | assumption | apply foldl_keeps | apply forFin_keeps | apply modTx_keeps
                            | apply takeBlocks_keeps | apply setLineData_keeps | apply dacSilent_keeps
                            | apply dacSend_keeps)
    | simp only [Keeps_mk, Keeps_mk']
    | split
    | dsimp only
    | (with_reducible first | refine keeps_snd (by assumption) ?_ | refine keeps_fst (by assumption) ?_)
    | intro

theorem farOlder_keeps (h : Keeps a s) : Keeps a (farOlder x1 s) := by
  simp +contextual only [farOlder, Keeps_ite, Keeps_mk, Keeps_mk', forFin_keeps, foldl_keeps, modFr_keeps, h, implies_true,
    and_self]

theorem frameOut_keeps (h : Keeps a s) : Keeps a (frameOut x1 x2 x3 s) := by
  simp +contextual only [frameOut, Keeps_ite, Keeps_mk, Keeps_mk', forFin_keeps, foldl_keeps, frameSend_keeps,
    plainSend_keeps, dacSilent_keeps, h, implies_true, and_self]

theorem frameStart_keeps (h : Keeps a s) : Keeps a (frameStart x1 s) := by
  simp only [frameStart]
  repeat' first
    | (with_reducible first | assumption | apply foldl_keeps | apply forFin_keeps | apply modTx_keeps
                            | apply farOlder_keeps | apply modFr_keeps | apply frameOut_keeps
                            | apply frameLoose_keeps | apply latRefresh_keeps)
    | simp only [Keeps_mk, Keeps_mk']
    | split

theorem syncStep_keeps (h : Keeps a s) : Keeps a (syncStep x1 x2 s) := by
  simp only [syncStep]
  repeat' first
    | (with_reducible first | assumption | apply foldl_keeps | apply forFin_keeps | apply frameCheck_keeps
                            | apply loseLock_keeps | apply modRx_keeps)
    | simp only [Keeps_mk, Keeps_mk']
    | split

theorem idJudge_keeps (h : Keeps a s) : Keeps a (idJudge x1 x2 s) := by
  simp only [idJudge]
  repeat' first
    | (with_reducible first | assumption | apply foldl_keeps | apply forFin_keeps | apply countPort_keeps
                            | apply modPort_keeps | apply modFr_keeps | apply raise_keeps)
    | simp only [Keeps_mk, Keeps_mk']
    | split
    | dsimp only
    | (with_reducible first | refine keeps_snd (by assumption) ?_ | refine keeps_fst (by assumption) ?_)
    | intro

theorem deskewJudge_keeps (h : Keeps a s) : Keeps a (deskewJudge x1 s) := by
  simp only [deskewJudge]
  repeat' first
    | (with_reducible first | assumption | apply foldl_keeps | apply forFin_keeps | apply countPort_keeps
                            | apply modPort_keeps | apply raise_keeps)
    | simp only [Keeps_mk, Keeps_mk']
    | split

theorem hdrTake_keeps (h : Keeps a s) : Keeps a (hdrTake x1 x2 x3 s) := by
  simp only [hdrTake]
  repeat' first
    | (with_reducible first | assumption | apply foldl_keeps | apply forFin_keeps | apply trnFrameSeen_keeps
                            | apply scQueue_keeps | apply modFr_keeps | apply idJudge_keeps)
    | simp only [Keeps_mk, Keeps_mk']
    | split

theorem frameHeader_keeps (h : Keeps a s) : Keeps a (frameHeader x1 x2 x3 s) := by
  simp only [frameHeader]
  repeat' first
    | (with_reducible first | assumption | apply foldl_keeps | apply forFin_keeps | apply hdrTake_keeps
                            | apply modFr_keeps | apply syncStep_keeps | apply countLine_keeps
                            | apply deskewJudge_keeps)
    | simp only [Keeps_mk, Keeps_mk']
    | split

theorem headerErrors_keeps (h : Keeps a s) : Keeps a (headerErrors x1 s) := by
  simp +contextual only [headerErrors, Keeps_ite, modFr_keeps, raiseLimited_keeps, h, implies_true, and_self]

theorem idleStatus_keeps (h : Keeps a s) : Keeps a (idleStatus x1 x2 s) := by
  simp +contextual only [idleStatus, Keeps_ite, modFr_keeps, h, implies_true, and_self]

theorem echoBeats_keeps (h : Keeps a s) : Keeps a (echoBeats x1 x2 s).2 := by
  simp only [echoBeats]
  repeat' first
    | (with_reducible first | assumption | apply foldl_keeps | apply forFin_keeps | apply draw_keeps)
    | simp only [Keeps_mk, Keeps_mk']
    | split

theorem echoTake_keeps (h : Keeps a s) : Keeps a (echoTake x1 x2 s) := by
  simp only [echoTake]
  repeat' first
    | (with_reducible first | assumption | apply foldl_keeps | apply forFin_keeps | apply countPort_keeps
                            | apply modFr_keeps | apply echoBeats_keeps | apply countLine_keeps)
    | simp only [Keeps_mk, Keeps_mk']
    | split

theorem echoDrop_keeps (h : Keeps a s) : Keeps a (echoDrop x1 s) := by
  simp +contextual only [echoDrop, modFr_keeps, h]

theorem latDone_keeps (h : Keeps a s) : Keeps a (latDone x1 s) := by
  simp only [latDone]
  repeat' first
    | (with_reducible first | assumption | apply foldl_keeps | apply forFin_keeps | apply done_keeps
                            | apply modPort_keeps | apply draw_keeps)
    | simp only [Keeps_mk, Keeps_mk']
    | split

theorem msgComplete_keeps (h : Keeps a s) : Keeps a (msgComplete x1 x2 x3 s) := by
  simp only [msgComplete]
  repeat' first
    | (with_reducible first | assumption | apply foldl_keeps | apply forFin_keeps | apply scQueue_keeps
                            | apply countPort_keeps | apply modFr_keeps | apply raise_keeps
                            | apply msgForm_keeps)
    | simp only [Keeps_mk, Keeps_mk']
    | split

theorem hostFrag_keeps (h : Keeps a s) : Keeps a (hostFrag x1 x2 s) := by
  simp only [hostFrag]
  repeat' first
    | (with_reducible first | assumption | apply foldl_keeps | apply forFin_keeps | apply modFr_keeps
                            | apply msgComplete_keeps | apply countLine_keeps)
    | simp only [Keeps_mk, Keeps_mk']
    | split

theorem msgSettle_keeps (h : Keeps a s) : Keeps a (msgSettle x1 x2 s) := by
  simp only [msgSettle]
  repeat' first
    | (with_reducible first | assumption | apply foldl_keeps | apply forFin_keeps | apply done_keeps
                            | apply modFr_keeps)
    | simp only [Keeps_mk, Keeps_mk']
    | split

theorem msgAgain_keeps (h : Keeps a s) : Keeps a (msgAgain x1 x2 s) := by
  simp only [msgAgain]
  repeat' first
    | (with_reducible first | assumption | apply foldl_keeps | apply forFin_keeps | apply modFr_keeps
                            | apply msgSettle_keeps)
    | simp only [Keeps_mk, Keeps_mk']
    | split

theorem hostAck_keeps (h : Keeps a s) : Keeps a (hostAck x1 x2 s) := by
  simp only [hostAck]
  repeat' first
    | (with_reducible first | assumption | apply foldl_keeps | apply forFin_keeps | apply countPort_keeps
                            | apply msgSettle_keeps | apply countLine_keeps | apply msgAgain_keeps)
    | simp only [Keeps_mk, Keeps_mk']
    | split

theorem msgTimeout_keeps (h : Keeps a s) : Keeps a (msgTimeout x1 s) := by
  simp only [msgTimeout]
  repeat' first
    | (with_reducible first | assumption | apply foldl_keeps | apply forFin_keeps | apply msgAgain_keeps)
    | simp only [Keeps_mk, Keeps_mk']
    | split

theorem msgGiveUp_keeps (h : Keeps a s) : Keeps a (msgGiveUp x1 s) := by
  simp +contextual only [msgGiveUp, Keeps_ite, msgAbandon_keeps, h, implies_true, and_self]

/-! ### HostLanes -/

theorem hostDrop_keeps (h : Keeps a s) : Keeps a (hostDrop x1 s) := by
  simp only [hostDrop]
  repeat' first
    | (with_reducible first | assumption | apply foldl_keeps | apply forFin_keeps | apply modHost_keeps
                            | apply hostIdle_keeps | apply raise_keeps)
    | simp only [Keeps_mk, Keeps_mk']
    | split

theorem hostLeaveIdle_keeps (h : Keeps a s) : Keeps a (hostLeaveIdle x1 s) := by
  simp +contextual only [hostLeaveIdle, Keeps_ite, hostResume_keeps, hostTiming_keeps, h, implies_true, and_self]

theorem hostSignalOn_keeps (h : Keeps a s) : Keeps a (hostSignalOn x1 s) := by
  simp +contextual only [hostSignalOn, Keeps_ite, modHost_keeps, hostLeaveIdle_keeps, h, implies_true, and_self]

theorem hostTimed_keeps (h : Keeps a s) : Keeps a (hostTimed x1 s) := by
  simp +contextual only [hostTimed, modHost_keeps, h]

theorem HostAcc.mse_keeps (h : Keeps a s) : Keeps a (HostAcc.mse x1 s).2 := by
  simp only [HostAcc.mse]
  repeat' first
    | (with_reducible first | assumption | apply foldl_keeps | apply forFin_keeps | apply draw_keeps)
    | simp only [Keeps_mk, Keeps_mk']
    | split
    | dsimp only
    | (with_reducible first | refine keeps_snd (by assumption) ?_ | refine keeps_fst (by assumption) ?_)
    | intro

theorem ctleTrial_keeps (h : Keeps a s) : Keeps a (ctleTrial x1 s) := by
  simp only [ctleTrial]
  repeat' first
    | (with_reducible first | assumption | apply foldl_keeps | apply forFin_keeps | apply modHost_keeps
                            | apply HostAcc.mse_keeps)
    | split
    | dsimp only
    | (with_reducible first | refine keeps_snd (by assumption) ?_ | refine keeps_fst (by assumption) ?_)
    | intro

theorem hostEnterUp_keeps (h : Keeps a s) : Keeps a (hostEnterUp x1 s) := by
  simp only [hostEnterUp]
  repeat' first
    | (with_reducible first | assumption | apply foldl_keeps | apply forFin_keeps | apply setTxBuffers_keeps
                            | apply modHost_keeps | apply raise_keeps)
    | simp only [Keeps_mk, Keeps_mk']
    | split
    | dsimp only
    | (with_reducible first | refine keeps_snd (by assumption) ?_ | refine keeps_fst (by assumption) ?_)
    | intro

theorem hostWindow_keeps (h : Keeps a s) : Keeps a (hostWindow x1 s) := by
  simp only [hostWindow]
  repeat' first
    | (with_reducible first | assumption | apply foldl_keeps | apply forFin_keeps | apply ratioOr_keeps
                            | apply modHost_keeps | apply HostAcc.mse_keeps | apply draw_keeps
                            | apply hostEnterUp_keeps | apply dbField_keeps)
    | simp only [Keeps_mk, Keeps_mk']
    | split

theorem hostUnlock_keeps (h : Keeps a s) : Keeps a (hostUnlock x1 s) := by
  simp only [hostUnlock]
  repeat' first
    | (with_reducible first | assumption | apply foldl_keeps | apply forFin_keeps | apply hostHold_keeps
                            | apply hostResume_keeps | apply modHost_keeps | apply raise_keeps)
    | simp only [Keeps_mk, Keeps_mk']
    | split

theorem hostRetry_keeps (h : Keeps a s) : Keeps a (hostRetry x1 s) := by
  simp +contextual only [hostRetry, Keeps_ite, hostTiming_keeps, raise_keeps, h, implies_true, and_self]

theorem dcgStep_keeps (h : Keeps a s) : Keeps a (dcgStep x1 x2 s) := by
  simp +contextual only [dcgStep, modHost_keeps, h]

theorem hostCount_keeps (h : Keeps a s) : Keeps a (hostCount x1 x2 s) := by
  simp only [hostCount]
  repeat' first
    | (with_reducible first | assumption | apply foldl_keeps | apply forFin_keeps | apply countHost_keeps)
    | simp only [Keeps_mk']
    | split
    | dsimp only
    | (with_reducible first | refine keeps_snd (by assumption) ?_ | refine keeps_fst (by assumption) ?_)
    | intro

theorem hostSamples_keeps (h : Keeps a s) : Keeps a (hostSamples x1 x2 s) := by
  simp only [hostSamples]
  repeat' first
    | (with_reducible first | assumption | apply foldl_keeps | apply forFin_keeps | apply modHost_keeps
                            | apply hostCount_keeps | apply hostForward_keeps)
    | simp only [Keeps_mk, Keeps_mk']
    | split
    | dsimp only
    | (with_reducible first | refine keeps_snd (by assumption) ?_ | refine keeps_fst (by assumption) ?_)
    | intro

theorem hostLoop_keeps (h : Keeps a s) : Keeps a (hostLoop x1 x2 x3 s) := by
  simp +contextual only [hostLoop, Keeps_ite, hostSamples_keeps, modHost_keeps, h, implies_true, and_self]

theorem hostCapture_keeps (h : Keeps a s) : Keeps a (hostCapture x1 s) := by
  simp only [hostCapture]
  repeat' first
    | (with_reducible first | assumption | apply foldl_keeps | apply forFin_keeps | apply modHost_keeps)
    | split
    | dsimp only
    | (with_reducible first | refine keeps_snd (by assumption) ?_ | refine keeps_fst (by assumption) ?_)
    | intro

theorem prbsLock_keeps (h : Keeps a s) : Keeps a (prbsLock x1 s) := by
  simp +contextual only [prbsLock, Keeps_ite, modHost_keeps, raise_keeps, h, implies_true, and_self]

theorem prbsLost_keeps (h : Keeps a s) : Keeps a (prbsLost x1 s) := by
  simp only [prbsLost]
  repeat' first
    | (with_reducible first | assumption | apply foldl_keeps | apply forFin_keeps | apply modHost_keeps
                            | apply raise_keeps)
    | simp only [Keeps_mk, Keeps_mk']
    | split

end Sys2Proof.Machine
end

