-- ==== Sys2Proof/Laws/KeepsService.lean ====
section
/-! SUPPORT. `Keeps` for every operation of converters, calibration, captures, integrity, power, banks, swaps and block tests. -/

-- One proof after another: the package is compiled as one text, where proofs side by side take too much memory.
set_option Elab.async false

namespace Sys2Proof.Machine

open Sys2Proof

/-! ### Convert -/

theorem modConv_keeps (h : Keeps a s) : Keeps a (modConv x1 x2 s) := by
  simp only [modConv]
  repeat' first
    | (with_reducible first | assumption | apply foldl_keeps | apply forFin_keeps | apply modTx_keeps
                            | apply modHost_keeps | apply modRx_keeps)
    | simp only [Keeps_mk, Keeps_mk']
    | split

theorem storeSlice_keeps (h : Keeps a s) : Keeps a (storeSlice x1 x2 x3 s) := by
  simp only [storeSlice]
  repeat' first
    | (with_reducible first | assumption | apply foldl_keeps | apply forFin_keeps | apply modConv_keeps
                            | apply modCal_keeps)
    | simp only [Keeps_mk, Keeps_mk']
    | split

theorem convApply_keeps (h : Keeps a s) : Keeps a (convApply x1 s) := by
  simp only [convApply]
  repeat' first
    | (with_reducible first | assumption | apply foldl_keeps | apply forFin_keeps | apply modConv_keeps)
    | simp only [Keeps_mk, Keeps_mk']
    | split

theorem spareGone_keeps (h : Keeps a s) : Keeps a (spareGone x1 s) := by
  simp +contextual only [spareGone, raise_keeps, h]

theorem capSubst_keeps (h : Keeps a s) : Keeps a (capSubst x1 s) := by
  simp only [capSubst]
  repeat' first
    | (with_reducible first | assumption | apply foldl_keeps | apply forFin_keeps | apply draw_keeps
                            | apply arbEnd_keeps)
    | simp only [Keeps_mk']
    | split

theorem failAct_keeps (h : Keeps a s) : Keeps a (failAct x1 x2 s) := by
  simp only [failAct]
  repeat' first
    | (with_reducible first | assumption | apply foldl_keeps | apply forFin_keeps | apply spareGone_keeps
                            | apply convApply_keeps | apply modConv_keeps | apply capSubst_keeps
                            | apply raise_keeps)
    | simp only [Keeps_mk, Keeps_mk']
    | split

theorem convFail_keeps (h : Keeps a s) : Keeps a (convFail x1 x2 s) := by
  simp only [convFail]
  repeat' first
    | (with_reducible first | assumption | apply foldl_keeps | apply forFin_keeps | apply failAct_keeps
                            | apply modConv_keeps)
    | simp only [Keeps_mk, Keeps_mk']
    | split

theorem countSwap_keeps (h : Keeps a s) : Keeps a (countSwap x1 s) := by
  simp only [countSwap]
  repeat' first
    | (with_reducible first | assumption | apply foldl_keeps | apply forFin_keeps | apply countHost_keeps
                            | apply countLine_keeps)
    | simp only [Keeps_mk, Keeps_mk']
    | split

/-! ### Reed -/

theorem calDueAll_keeps (h : Keeps a s) : Keeps a (calDueAll s) := by
  simp +contextual only [calDueAll, modCal_keeps, h]

theorem calDueOne_keeps (h : Keeps a s) : Keeps a (calDueOne x1 s) := by
  simp +contextual only [calDueOne, modCal_keeps, h]

theorem calPrune_keeps (h : Keeps a s) : Keeps a (calPrune s) := by
  simp only [calPrune]
  repeat' first
    | (with_reducible first | assumption | apply foldl_keeps | apply forFin_keeps | apply modCal_keeps
                            | apply refuse_keeps)
    | simp only [Keeps_mk, Keeps_mk']
    | split
    | dsimp only
    | (with_reducible first | refine keeps_snd (by assumption) ?_ | refine keeps_fst (by assumption) ?_)
    | intro

theorem sessionBegin_keeps (h : Keeps a s) : Keeps a (sessionBegin x1 s) := by
  simp only [sessionBegin]
  repeat' first
    | (with_reducible first | assumption | apply foldl_keeps | apply forFin_keeps | apply monStop_keeps
                            | apply modCal_keeps | apply modMon_keeps)
    | simp only [Keeps_mk, Keeps_mk']
    | split

theorem sessionTry_keeps {a : State} : ∀ {l : List (Fin 49)} {s : State}, Keeps a s → Keeps a (sessionTry l s)
  | [], _, h => h
  | t :: l, s, h => by
    have hr := arbPresent_keeps (x1 := 1) (x2 := calArb (calTgt t)) h
    simp only [sessionTry, Keeps_ite]
    exact ⟨fun _ => ⟨fun _ => sessionBegin_keeps hr, fun _ => sessionTry_keeps hr⟩, fun _ => sessionTry_keeps h⟩

theorem sessionStart_keeps (h : Keeps a s) : Keeps a (sessionStart s) := by
  simp +contextual only [sessionStart, Keeps_ite, sessionTry_keeps, h, implies_true, and_self]

theorem starveForce_keeps (h : Keeps a s) : Keeps a (starveForce s) := by
  simp +contextual only [starveForce, modCal_keeps, h]

theorem sessionCount_keeps (h : Keeps a s) : Keeps a (sessionCount x1 x2 s) := by
  simp only [sessionCount]
  repeat' first
    | (with_reducible first | assumption | apply foldl_keeps | apply forFin_keeps | apply modCal_keeps
                            | apply starveForce_keeps | apply countDev_keeps)
    | split
    | dsimp only
    | (with_reducible first | refine keeps_snd (by assumption) ?_ | refine keeps_fst (by assumption) ?_)
    | intro

theorem reedAnswer_keeps (h : Keeps a s) : Keeps a (reedAnswer x1 s) := by
  simp only [reedAnswer]
  repeat' first
    | (with_reducible first | assumption | apply foldl_keeps | apply forFin_keeps | apply done_keeps)
    | simp only [Keeps_mk, Keeps_mk']
    | split

theorem sessionReject_keeps (h : Keeps a s) : Keeps a (sessionReject x1 s) := by
  simp only [sessionReject]
  repeat' first
    | (with_reducible first | assumption | apply foldl_keeps | apply forFin_keeps | apply calDueOne_keeps
                            | apply modCal_keeps | apply sessionCount_keeps | apply countDev_keeps
                            | apply raiseLimited_keeps)

theorem selfCheck_keeps (h : Keeps a s) : Keeps a (selfCheck x1 x2 s) := by
  simp only [selfCheck]
  repeat' first
    | (with_reducible first | assumption | apply foldl_keeps | apply forFin_keeps | apply modCal_keeps
                            | apply raise_keeps | apply sessionCount_keeps | apply refuse_keeps
                            | apply reedAnswer_keeps)
    | simp only [Keeps_mk, Keeps_mk']
    | split
    | dsimp only
    | (with_reducible first | refine keeps_snd (by assumption) ?_ | refine keeps_fst (by assumption) ?_)
    | intro

theorem owedNext_keeps (h : Keeps a s) : Keeps a (owedNext x1 s) := by
  simp +contextual only [owedNext, Keeps_ite, Keeps_mk, Keeps_mk', forFin_keeps, foldl_keeps, modConv_keeps, modCal_keeps,
    h, implies_true, and_self]

theorem convSession_keeps (h : Keeps a s) : Keeps a (convSession x1 x2 x3 s) := by
  simp only [convSession]
  repeat' first
    | (with_reducible first | assumption | apply foldl_keeps | apply forFin_keeps | apply sessionReject_keeps
                            | apply calDueOne_keeps | apply modConv_keeps | apply modCal_keeps
                            | apply storeSlice_keeps | apply owedNext_keeps | apply sessionCount_keeps
                            | apply reedAnswer_keeps | apply arbEnd_keeps)
    | simp only [Keeps_mk, Keeps_mk']
    | split

theorem sessionDone_keeps (h : Keeps a s) : Keeps a (sessionDone x1 s) := by
  simp only [sessionDone]
  repeat' first
    | (with_reducible first | assumption | apply foldl_keeps | apply forFin_keeps | apply convSession_keeps
                            | apply modCal_keeps | apply selfCheck_keeps | apply arbEnd_keeps)
    | simp only [Keeps_mk, Keeps_mk']
    | split

theorem segmentDone_keeps (h : Keeps a s) : Keeps a (segmentDone x1 s) := by
  simp only [segmentDone]
  repeat' first
    | (with_reducible first | assumption | apply foldl_keeps | apply forFin_keeps | apply monNext_keeps
                            | apply sessionReject_keeps | apply calDueOne_keeps | apply modCal_keeps
                            | apply modMon_keeps | apply sessionCount_keeps | apply reedAnswer_keeps
                            | apply monRestart_keeps | apply arbEnd_keeps)
    | simp only [Keeps_mk, Keeps_mk']
    | split

theorem swapDone_keeps (h : Keeps a s) : Keeps a (swapDone x1 x2 s) := by
  simp only [swapDone]
  repeat' first
    | (with_reducible first | assumption | apply foldl_keeps | apply forFin_keeps | apply spareGone_keeps
                            | apply failAct_keeps | apply calDueOne_keeps | apply modConv_keeps
                            | apply modCal_keeps | apply calPrune_keeps | apply countSwap_keeps
                            | apply raise_keeps | apply arbEnd_keeps)
    | simp only [Keeps_mk, Keeps_mk']
    | split
    | dsimp only
    | (with_reducible first | refine keeps_snd (by assumption) ?_ | refine keeps_fst (by assumption) ?_)
    | intro

theorem reedIdle_keeps (h : Keeps a s) : Keeps a (reedIdle s) := by
  simp only [reedIdle]
  repeat' first
    | (with_reducible first | assumption | apply foldl_keeps | apply forFin_keeps | apply modCal_keeps
                            | apply raise_keeps)
    | simp only [Keeps_mk, Keeps_mk']
    | split

theorem requestTimeout_keeps (h : Keeps a s) : Keeps a (requestTimeout x1 s) := by
  simp only [requestTimeout]
  repeat' first
    | (with_reducible first | assumption | apply foldl_keeps | apply forFin_keeps | apply modCal_keeps
                            | apply refuse_keeps)
    | simp only [Keeps_mk, Keeps_mk']
    | split

theorem reedAbort_keeps (h : Keeps a s) : Keeps a (reedAbort s) := by
  simp only [reedAbort]
  repeat' first
    | (with_reducible first | assumption | apply foldl_keeps | apply forFin_keeps | apply monNext_keeps
                            | apply modCal_keeps | apply modMon_keeps | apply monRestart_keeps
                            | apply arbEnd_keeps)
    | simp only [Keeps_mk, Keeps_mk']
    | split

theorem calRound_keeps (h : Keeps a s) : Keeps a (calRound s) := by
  simp only [calRound]
  repeat' first
    | (with_reducible first | assumption | apply foldl_keeps | apply forFin_keeps | apply convApply_keeps
                            | apply modCal_keeps | apply calPrune_keeps | apply calDueAll_keeps
                            | apply starveForce_keeps)
    | simp only [Keeps_mk, Keeps_mk']
    | split
    | dsimp only
    | (with_reducible first | refine keeps_snd (by assumption) ?_ | refine keeps_fst (by assumption) ?_)
    | intro

theorem actCalConfig_keeps (h : Keeps a s) : Keeps a (actCalConfig x1 s) := by
  simp +contextual only [actCalConfig, done_keeps, modCal_keeps, h]

theorem actCalRequest_keeps (h : Keeps a s) : Keeps a (actCalRequest x1 s) := by
  simp only [actCalRequest]
  repeat' first
    | (with_reducible first | assumption | apply foldl_keeps | apply forFin_keeps | apply modCal_keeps
                            | apply refuse_keeps)
    | simp only [Keeps_mk, Keeps_mk']
    | split

/-! ### Captures -/

theorem doneO_keeps (h : Keeps a s) : Keeps a (doneO x1 x2 s) := by
  simp only [doneO]
  repeat' first
    | (with_reducible first | assumption | apply foldl_keeps | apply forFin_keeps | apply done_keeps)
    | simp only [Keeps_mk, Keeps_mk']
    | split

theorem refuseO_keeps (h : Keeps a s) : Keeps a (refuseO x1 x2 s) := by
  simp only [refuseO]
  repeat' first
    | (with_reducible first | assumption | apply foldl_keeps | apply forFin_keeps | apply refuse_keeps)
    | simp only [Keeps_mk, Keeps_mk']
    | split

theorem clearLine_keeps (h : Keeps a s) : Keeps a (clearLine x1 x2 s) := by
  simp +contextual only [clearLine, Keeps_ite, Keeps_mk, Keeps_mk', forFin_keeps, foldl_keeps, h, implies_true, and_self]

theorem clearHost_keeps (h : Keeps a s) : Keeps a (clearHost x1 x2 s) := by
  simp +contextual only [clearHost, Keeps_ite, Keeps_mk, Keeps_mk', forFin_keeps, foldl_keeps, h, implies_true, and_self]

theorem clearPort_keeps (h : Keeps a s) : Keeps a (clearPort x1 x2 s) := by
  simp +contextual only [clearPort, Keeps_ite, Keeps_mk, Keeps_mk', forFin_keeps, foldl_keeps, h, implies_true, and_self]

theorem clearDev_keeps (h : Keeps a s) : Keeps a (clearDev x1 s) := by
  simp +contextual only [clearDev, Keeps_ite, Keeps_mk, Keeps_mk', forFin_keeps, foldl_keeps, h, implies_true, and_self]

theorem clearLineCtr_keeps (h : Keeps a s) : Keeps a (clearLineCtr x1 s) := by
  simp +contextual only [clearLineCtr, Keeps_mk', clearLine_keeps, h]

theorem clearHostCtr_keeps (h : Keeps a s) : Keeps a (clearHostCtr x1 s) := by
  simp +contextual only [clearHostCtr, Keeps_mk', clearHost_keeps, h]

theorem clearPortCtrs_keeps (h : Keeps a s) : Keeps a (clearPortCtrs s) := by
  simp only [clearPortCtrs]
  repeat' first
    | (with_reducible first | assumption | apply foldl_keeps | apply forFin_keeps | apply clearPort_keeps
                            | apply forFin_keeps)
    | simp only [Keeps_mk']
    | split
    | dsimp only
    | (with_reducible first | refine keeps_snd (by assumption) ?_ | refine keeps_fst (by assumption) ?_)
    | intro

theorem clearDataCtrs_keeps (h : Keeps a s) : Keeps a (clearDataCtrs s) := by
  simp only [clearDataCtrs]
  repeat' first
    | (with_reducible first | assumption | apply foldl_keeps | apply forFin_keeps | apply clearPort_keeps
                            | apply clearHost_keeps | apply clearLine_keeps | apply forFin_keeps)
    | simp only [Keeps_mk']
    | split
    | dsimp only
    | (with_reducible first | refine keeps_snd (by assumption) ?_ | refine keeps_fst (by assumption) ?_)
    | intro

theorem ctrOn_keeps (hl : ∀ i x, Keeps a x → Keeps a (x2 i x)) (hh : ∀ i x, Keeps a x → Keeps a (x3 i x))
    (hp : ∀ i x, Keeps a x → Keeps a (x4 i x)) (hd : ∀ x, Keeps a x → Keeps a (x5 x)) (h : Keeps a s) :
    Keeps a (ctrOn x1 x2 x3 x4 x5 x6 s) := by
  unfold ctrOn
  split
  · exact hl _ _ h
  · exact forFin_keeps _ _ hl h
  · exact hh _ _ h
  · exact forFin_keeps _ _ hh h
  · exact hp _ _ h
  · exact forFin_keeps _ _ hp h
  · split
    · exact hd _ h
    · exact forFin_keeps _ _ hp (forFin_keeps _ _ hh (forFin_keeps _ _ hl (hd _ h)))
  · exact h

theorem actCounterClear_keeps (h : Keeps a s) : Keeps a (actCounterClear x1 s) := by
  unfold actCounterClear
  exact done_keeps (ctrOn_keeps (fun _ _ hx => clearLine_keeps hx) (fun _ _ hx => clearHost_keeps hx)
    (fun _ _ hx => clearPort_keeps hx) (fun _ hx => clearDev_keeps hx) h)

theorem actCounterSelect_keeps (h : Keeps a s) : Keeps a (actCounterSelect x1 s) := by
  unfold actCounterSelect
  exact done_keeps (ctrOn_keeps (fun _ _ hx => by simp only [Keeps_mk', hx]) (fun _ _ hx => by simp only [Keeps_mk', hx])
    (fun _ _ hx => by simp only [Keeps_mk', hx]) (fun _ hx => by simp only [Keeps_mk', hx]) h)

theorem snapForm_keeps (h : Keeps a s) : Keeps a (snapForm x1 x2 x3 s) := by
  simp +contextual only [snapForm, tlmForm_keeps, h]

theorem snapRecords_keeps (h : Keeps a s) : Keeps a (snapRecords s) := by
  simp only [snapRecords]
  repeat' first
    | (with_reducible first | assumption | apply foldl_keeps | apply forFin_keeps | apply snapForm_keeps
                            | apply forFin_keeps)
    | simp only [Keeps_mk, Keeps_mk']
    | split
    | dsimp only
    | (with_reducible first | refine keeps_snd (by assumption) ?_ | refine keeps_fst (by assumption) ?_)
    | intro

theorem freeze_keeps (h : Keeps a s) : Keeps a (freeze s) := by
  simp +contextual only [freeze, Keeps_ite, Keeps_mk', snapRecords_keeps, raise_keeps, h, implies_true, and_self]

theorem actFreeze_keeps (h : Keeps a s) : Keeps a (actFreeze x1 s) := by
  simp +contextual only [actFreeze, Keeps_ite, refuseO_keeps, doneO_keeps, freeze_keeps, h, implies_true, and_self]

theorem capStart_keeps (h : Keeps a s) : Keeps a (capStart x1 x2 x3 s).1 := by
  simp only [capStart]
  repeat' first
    | (with_reducible first | assumption | apply foldl_keeps | apply forFin_keeps | apply refuseO_keeps
                            | apply arbPresent_keeps | apply arbRefuse_keeps)
    | simp only [Keeps_mk']
    | split

theorem tlmFormId_keeps (h : Keeps a s) : Keeps a (tlmFormId x1 x2 x3 x4 x5 x6 x7 s).1 := by
  simp only [tlmFormId]
  repeat' first
    | (with_reducible first | assumption | apply foldl_keeps | apply forFin_keeps | apply draw_keeps
                            | apply tlmForm_keeps)
    | simp only [Keeps_mk, Keeps_mk']
    | split

theorem capRecords_keeps (h : Keeps a s) : Keeps a (capRecords x1 x2 s).1 := by
  unfold capRecords
  exact foldl_fst_keeps _ _ (fun i z hz => by exact tlmFormId_keeps hz) (by exact h)

theorem capDone_keeps (h : Keeps a s) : Keeps a (capDone x1 s) := by
  simp only [capDone]
  repeat' first
    | (with_reducible first | assumption | apply foldl_keeps | apply forFin_keeps | apply doneO_keeps
                            | apply capRecords_keeps | apply arbEnd_keeps)
    | simp only [Keeps_mk']
    | split

theorem scanDone_keeps (h : Keeps a s) : Keeps a (scanDone x1 x2 s) := by
  simp only [scanDone]
  repeat' first
    | (with_reducible first | assumption | apply foldl_keeps | apply forFin_keeps | apply doneO_keeps
                            | apply tlmFormId_keeps | apply arbEnd_keeps)
    | simp only [Keeps_mk']
    | split

theorem capDrop_keeps (h : Keeps a s) : Keeps a (capDrop x1 x2 s) := by
  simp only [capDrop]
  repeat' first
    | (with_reducible first | assumption | apply foldl_keeps | apply forFin_keeps | apply refuseO_keeps
                            | apply arbEnd_keeps)
    | simp only [Keeps_mk']
    | split
    | dsimp only
    | (with_reducible first | refine keeps_snd (by assumption) ?_ | refine keeps_fst (by assumption) ?_)
    | intro

theorem tlmDiscard_keeps (h : Keeps a s) : Keeps a (tlmDiscard s) := by
  simp +contextual only [tlmDiscard, Keeps_mk', capDrop_keeps, raise_keeps, h]

/-! ### Integrity -/

theorem chkStart_keeps (h : Keeps a s) : Keeps a (chkStart x1 x2 s) := by
  simp +contextual only [chkStart, modChk_keeps, h]

theorem actCheckRun_keeps (h : Keeps a s) : Keeps a (actCheckRun x1 s) := by
  simp only [actCheckRun]
  repeat' first
    | (with_reducible first | assumption | apply foldl_keeps | apply forFin_keeps | apply answer_keeps
                            | apply chkStart_keeps | apply refuse_keeps | apply modChk_keeps)
    | simp only [Keeps_mk, Keeps_mk']
    | split

theorem chkPurge_keeps (h : Keeps a s) : Keeps a (chkPurge s) := by
  simp +contextual only [chkPurge, Keeps_ite, Keeps_mk, Keeps_mk', forFin_keeps, foldl_keeps, refuse_keeps, modChk_keeps, h,
    implies_true, and_self]

theorem chkNext_keeps (h : Keeps a s) : Keeps a (chkNext x1 s) := by
  simp only [chkNext]
  repeat' first
    | (with_reducible first | assumption | apply foldl_keeps | apply forFin_keeps | apply chkPurge_keeps
                            | apply chkStart_keeps | apply modChk_keeps)
    | simp only [Keeps_mk, Keeps_mk']
    | split

theorem recordInvalid_keeps (h : Keeps a s) : Keeps a (recordInvalid s) := by
  simp only [recordInvalid]
  repeat' first
    | (with_reducible first | assumption | apply foldl_keeps | apply forFin_keeps | apply modEq_keeps
                            | apply modTx_keeps | apply modConv_keeps | apply modCal_keeps
                            | apply draw_keeps)
    | simp only [Keeps_mk, Keeps_mk']
    | split

theorem eccNote_keeps (h : Keeps a s) : Keeps a (eccNote x1 x2 s) := by
  simp +contextual only [eccNote, raise_keeps, modChk_keeps, h]

theorem eccCorr_keeps (h : Keeps a s) : Keeps a (eccCorr x1 x2 s) := by
  simp only [eccCorr]
  repeat' first
    | (with_reducible first | assumption | apply foldl_keeps | apply forFin_keeps | apply countDev_keeps
                            | apply raiseLimited_keeps | apply modChk_keeps)

theorem tlmWordLost_keeps (h : Keeps a s) : Keeps a (tlmWordLost s) := by
  simp only [tlmWordLost]
  repeat' first
    | (with_reducible first | assumption | apply foldl_keeps | apply forFin_keeps | apply draw_keeps
                            | apply raise_keeps)
    | simp only [Keeps_mk']
    | split

theorem ringWordLost_keeps (h : Keeps a s) : Keeps a (ringWordLost x1 s) :=
  lmem_keeps (draw_keeps h) (Memory.wf_write _ _)

theorem eccUnc_keeps (h : Keeps a s) : Keeps a (eccUnc x1 x2 s) := by
  simp only [eccUnc]
  repeat' first
    | (with_reducible first | assumption | apply foldl_keeps | apply forFin_keeps | apply ringWordLost_keeps
                            | apply recordInvalid_keeps | apply tlmWordLost_keeps | apply eccNote_keeps)
    | simp only [Keeps_mk, Keeps_mk']
    | split

theorem chkDone_keeps (h : Keeps a s) : Keeps a (chkDone x1 x2 s) := by
  simp only [chkDone]
  repeat' first
    | (with_reducible first | assumption | apply foldl_keeps | apply forFin_keeps | apply done_keeps
                            | apply chkNext_keeps | apply eccUnc_keeps | apply answer_keeps
                            | apply aerNote_keeps | apply raise_keeps | apply modChk_keeps)
    | simp only [Keeps_mk, Keeps_mk']
    | split

theorem chkPowerOff_keeps (h : Keeps a s) : Keeps a (chkPowerOff s) := by
  simp only [chkPowerOff]
  repeat' first
    | (with_reducible first | assumption | apply foldl_keeps | apply forFin_keeps | apply chkNext_keeps
                            | apply answer_keeps | apply draw_keeps | apply forFin_keeps
                            | apply modChk_keeps)
    | simp only [Keeps_mk, Keeps_mk']
    | split
    | dsimp only
    | (with_reducible first | refine keeps_snd (by assumption) ?_ | refine keeps_fst (by assumption) ?_)
    | intro

theorem chkAbandon_keeps (h : Keeps a s) : Keeps a (chkAbandon x1 s) := by
  simp +contextual only [chkAbandon, modChk_keeps, h]

theorem chkAnswer_keeps (h : Keeps a s) : Keeps a (chkAnswer s) := by
  simp +contextual only [chkAnswer, foldl_keeps, answer_keeps, modChk_keeps, h, implies_true]

theorem scrubTry_keeps (h : Keeps a s) : Keeps a (scrubTry s) := by
  simp +contextual only [scrubTry, Keeps_ite, Keeps_mk, Keeps_mk', forFin_keeps, foldl_keeps, arbAdmit_keeps, modChk_keeps,
    h, implies_true, and_self]

theorem scrubBlock_keeps (h : Keeps a s) : Keeps a (scrubBlock x1 x2 s) := by
  simp only [scrubBlock]
  repeat' first
    | (with_reducible first | assumption | apply foldl_keeps | apply forFin_keeps | apply eccCorr_keeps
                            | apply eccUnc_keeps | apply recordInvalid_keeps | apply modChk_keeps
                            | apply arbEnd_keeps)
    | simp only [Keeps_mk, Keeps_mk']
    | split

theorem scrubOverdue_keeps (h : Keeps a s) : Keeps a (scrubOverdue s) := by
  simp +contextual only [scrubOverdue, Keeps_ite, raise_keeps, modChk_keeps, h, implies_true, and_self]

theorem storeRefresh_keeps (h : Keeps a s) : Keeps a (storeRefresh x1 s) := by
  simp only [storeRefresh]
  repeat' first
    | (with_reducible first | assumption | apply foldl_keeps | apply forFin_keeps | apply recordInvalid_keeps)
    | simp only [Keeps_mk, Keeps_mk']
    | split

theorem fieldRestore_keeps (h : Keeps a s) (hs : setupOk s = true) : Keeps a (fieldRestore x1 s) := by
  unfold fieldRestore
  exact foldl_keeps _ _ (fun i x hx => raise_keeps hx) (modChk_keeps (regSet_keeps h fun _ => shadowReg_reservedOk hs _))

/-- A pass of the shadow compare writes back only what the shadow copies hold. -/
theorem shadowPass_keeps (h : Keeps a s) (hs : setupOk s = true) : Keeps a (shadowPass s) := by
  unfold shadowPass
  split
  · exact h
  · refine h.trans (foldl_keeps (a := s) _ _ (fun i x hx => ?_) (Keeps.refl s))
    split
    · exact hx
    · exact fieldRestore_keeps hx (hx.setup hs)

/-- An upset of a field leaves the reserved bits as they are: it writes one register and no shadow copy. -/
theorem fieldUpset_setupOk (off : Nat) (flip : Word) (h : setupOk s = true) : setupOk (fieldUpset off flip s) = true := by
  obtain ⟨h1, h2⟩ := setupOk_iff.1 h
  unfold fieldUpset
  split
  · exact h
  · rename_i rw rwl r e
    have hr : reservedOk off (reg s off ^^^ (flip &&& (rw ||| rwl))) = true := by
      refine reservedOk_mask (reg_reservedOk h off) fun p hp => ?_
      rw [e] at hp; cases hp
      apply BitVec.eq_of_getLsbD_eq
      intro i hi
      simp only [BitVec.getLsbD_and, BitVec.getLsbD_or, BitVec.getLsbD_not, BitVec.getLsbD_xor, hi, decide_true, Bool.true_and]
      cases rw.getLsbD i <;> cases rwl.getLsbD i <;> simp
    refine setupOk_iff.2 ?_
    dsimp only
    split
    · exact ⟨assocDel_reservedOk h1, h2⟩
    · exact ⟨assocSet_reservedOk h1 hr, h2⟩

/-- An upset changes set-up registers only. -/
theorem fieldUpset_eq (off : Nat) (flip : Word) (s : State) : ∃ l, fieldUpset off flip s = { s with setup := l } := by
  unfold fieldUpset
  split
  · exact ⟨_, rfl⟩
  · exact ⟨_, rfl⟩

/-! ### Power -/

theorem domSet_keeps (h : Keeps a s) : Keeps a (domSet x1 x2 s) := by
  simp +contextual only [domSet, modRst_keeps, h]

theorem ocpDrop_keeps (h : Keeps a s) : Keeps a (ocpDrop s) := by
  simp only [ocpDrop]
  repeat' first
    | (with_reducible first | assumption | apply foldl_keeps | apply forFin_keeps | apply ocpDropped_keeps
                            | apply refuse_keeps | apply forFin_keeps | apply drvSettled_keeps)
    | simp only [Keeps_mk']
    | split
    | dsimp only
    | (with_reducible first | refine keeps_snd (by assumption) ?_ | refine keeps_fst (by assumption) ?_)
    | intro

theorem outerClear_keeps (h : Keeps a s) : Keeps a (outerClear s) := by
  simp +contextual only [outerClear, Keeps_mk', h]

theorem domOffEffects_keeps (h : Keeps a s) : Keeps a (domOffEffects x1 s) := by
  simp only [domOffEffects]
  repeat' first
    | (with_reducible first | assumption | apply foldl_keeps | apply forFin_keeps | apply modTx_keeps
                            | apply capDrop_keeps | apply outerClear_keeps | apply lineTxOff_keeps
                            | apply hostOff_keeps | apply trnDrop_keeps | apply calPrune_keeps
                            | apply drainStop_keeps | apply chkPowerOff_keeps | apply tlmDiscard_keeps
                            | apply linePathOff_keeps | apply frmClear_keeps | apply ocpDrop_keeps)
    | simp only [Keeps_mk, Keeps_mk']
    | split

theorem mapLoad_keeps (h : Keeps a s) : Keeps a (mapLoad x1 s) := by
  simp +contextual only [mapLoad, Keeps_ite, Keeps_mk, Keeps_mk', forFin_keeps, foldl_keeps, modConv_keeps, modCal_keeps, h,
    implies_true, and_self]

theorem drainAgain_keeps (h : Keeps a s) : Keeps a (drainAgain s) := by
  simp +contextual only [drainAgain, Keeps_ite, Keeps_mk, Keeps_mk', forFin_keeps, foldl_keeps, drainAll_keeps, h,
    implies_true, and_self]

theorem domOnEffects_keeps (h : Keeps a s) : Keeps a (domOnEffects x1 s) := by
  simp only [domOnEffects]
  repeat' first
    | (with_reducible first | assumption | apply foldl_keeps | apply forFin_keeps | apply drainAgain_keeps
                            | apply mapLoad_keeps | apply txUpdate_keeps | apply hostMayLeave_keeps
                            | apply rxMayLeave_keeps)
    | split
    | dsimp only
    | (with_reducible first | refine keeps_snd (by assumption) ?_ | refine keeps_fst (by assumption) ?_)
    | intro

theorem domOff_keeps (h : Keeps a s) : Keeps a (domOff x1 s) := by
  simp +contextual only [domOff, Keeps_ite, Keeps_mk', domSet_keeps, domOffEffects_keeps, h, implies_true, and_self]

theorem domOffLate_keeps (h : Keeps a s) : Keeps a (domOffLate x1 s) := by
  simp +contextual only [domOffLate, Keeps_ite, Keeps_mk', domSet_keeps, domOffEffects_keeps, h, implies_true, and_self]

theorem seqRun_keeps {a : State} : ∀ {l : List Transition} {s : State}, Keeps a s → Keeps a (seqRun l s)
  | [], _, h => modRst_keeps h
  | t :: l, s, h => by
    simp only [seqRun, Keeps_ite]
    exact ⟨fun _ => seqRun_keeps (doneO_keeps h), fun _ => ⟨fun _ => seqRun_keeps (refuseO_keeps h),
      fun _ => ⟨fun _ => modRst_keeps h, fun _ => domOff_keeps (modRst_keeps h)⟩⟩⟩

theorem seqNext_keeps (h : Keeps a s) : Keeps a (seqNext s) := by
  simp +contextual only [seqNext, Keeps_ite, seqRun_keeps, h, implies_true, and_self]

theorem seqPush_keeps (h : Keeps a s) : Keeps a (seqPush x1 s) := by
  simp +contextual only [seqPush, seqNext_keeps, modRst_keeps, h]

theorem domDone_keeps (h : Keeps a s) : Keeps a (domDone s) := by
  simp only [domDone]
  repeat' first
    | (with_reducible first | assumption | apply foldl_keeps | apply forFin_keeps | apply seqNext_keeps
                            | apply domSet_keeps | apply doneO_keeps | apply modRst_keeps
                            | apply domOffLate_keeps | apply domOnEffects_keeps)
    | simp only [Keeps_mk, Keeps_mk']
    | split

theorem domFailed_keeps (h : Keeps a s) : Keeps a (domFailed s) := by
  simp only [domFailed]
  repeat' first
    | (with_reducible first | assumption | apply foldl_keeps | apply forFin_keeps | apply seqNext_keeps
                            | apply refuseO_keeps | apply modRst_keeps | apply raise_keeps)
    | simp only [Keeps_mk, Keeps_mk']
    | split

theorem seqCancel_keeps (h : Keeps a s) : Keeps a (seqCancel x1 x2 s) := by
  simp only [seqCancel]
  repeat' first
    | (with_reducible first | assumption | apply foldl_keeps | apply forFin_keeps | apply refuseO_keeps
                            | apply modRst_keeps | apply raise_keeps)
    | simp only [Keeps_mk, Keeps_mk']
    | split
    | dsimp only
    | (with_reducible first | refine keeps_snd (by assumption) ?_ | refine keeps_fst (by assumption) ?_)
    | intro

theorem actPower_keeps (h : Keeps a s) : Keeps a (actPower x1 s) := by
  simp +contextual only [actPower, Keeps_ite, modTherm_keeps, seqPush_keeps, h, implies_true, and_self]

/-! ### Banks -/

theorem shadowPut_keeps (h : Keeps a s) : Keeps a (shadowPut x1 x2 x3 s) := by
  simp only [shadowPut]
  repeat' first
    | (with_reducible first | assumption | apply foldl_keeps | apply forFin_keeps | apply modPort_keeps
                            | apply modLine_keeps | apply modHost_keeps)
    | simp only [Keeps_mk, Keeps_mk']
    | split

theorem actBankWrite_keeps (h : Keeps a s) : Keeps a (actBankWrite x1 s) := by
  simp only [actBankWrite]
  repeat' first
    | (with_reducible first | assumption | apply foldl_keeps | apply forFin_keeps | apply done_keeps
                            | apply shadowPut_keeps)
    | simp only [Keeps_mk, Keeps_mk']
    | split
    | dsimp only
    | (with_reducible first | refine keeps_snd (by assumption) ?_ | refine keeps_fst (by assumption) ?_)
    | intro

theorem bankCopy_keeps (h : Keeps a s) : Keeps a (bankCopy x1 s) := by
  simp only [bankCopy]
  repeat' first
    | (with_reducible first | assumption | apply foldl_keeps | apply forFin_keeps | apply modPort_keeps
                            | apply modLine_keeps | apply modHost_keeps)
    | simp only [Keeps_mk, Keeps_mk']
    | split

theorem actBankCopy_keeps (h : Keeps a s) : Keeps a (actBankCopy x1 s) := by
  simp only [actBankCopy]
  repeat' first
    | (with_reducible first | assumption | apply foldl_keeps | apply forFin_keeps | apply done_keeps
                            | apply bankCopy_keeps)
    | simp only [Keeps_mk, Keeps_mk']
    | split
    | dsimp only
    | (with_reducible first | refine keeps_snd (by assumption) ?_ | refine keeps_fst (by assumption) ?_)
    | intro

theorem actBankRead_keeps (h : Keeps a s) : Keeps a (actBankRead x1 s) := by
  simp only [actBankRead]
  repeat' first
    | (with_reducible first | assumption | apply foldl_keeps | apply forFin_keeps | apply done_keeps)
    | simp only [Keeps_mk, Keeps_mk']
    | split

theorem actCoefLoad_keeps (h : Keeps a s) : Keeps a (actCoefLoad x1 s) := by
  simp only [actCoefLoad]
  repeat' first
    | (with_reducible first | assumption | apply foldl_keeps | apply forFin_keeps | apply done_keeps
                            | apply modLine_keeps)
    | simp only [Keeps_mk, Keeps_mk']
    | split

theorem fillShadow_keeps (h : Keeps a s) : Keeps a (fillShadow x1 x2 x3 s) := by
  simp +contextual only [fillShadow, Keeps_mk', h]

theorem actSetMode_keeps (h : Keeps a s) : Keeps a (actSetMode x1 s) := by
  simp +contextual only [actSetMode, done_keeps, fillShadow_keeps, h]

/-! ### Swap -/

theorem lineCold_keeps (h : Keeps a s) : Keeps a (lineCold x1 s) := by
  simp only [lineCold]
  repeat' first
    | (with_reducible first | assumption | apply foldl_keeps | apply forFin_keeps | apply modEq_keeps
                            | apply enterGain_keeps | apply outageStart_keeps)
    | simp only [Keeps_mk, Keeps_mk']
    | split

theorem hostCold_keeps (h : Keeps a s) : Keeps a (hostCold x1 s) := by
  simp only [hostCold]
  repeat' first
    | (with_reducible first | assumption | apply foldl_keeps | apply forFin_keeps | apply hostHold_keeps
                            | apply modHost_keeps | apply hostTiming_keeps)
    | simp only [Keeps_mk, Keeps_mk']
    | split

theorem loopsRestart_keeps (h : Keeps a s) : Keeps a (loopsRestart x1 x2 s) := by
  simp +contextual only [loopsRestart, Keeps_ite, modLine_keeps, h, implies_true, and_self]

theorem lineSwapped_keeps (h : Keeps a s) : Keeps a (lineSwapped x1 x2 s) := by
  simp only [lineSwapped]
  repeat' first
    | (with_reducible first | assumption | apply foldl_keeps | apply forFin_keeps | apply modEq_keeps
                            | apply modTx_keeps | apply trnStop_keeps | apply losCheck_keeps
                            | apply txUpdate_keeps | apply eqNote_keeps | apply modRx_keeps
                            | apply loopsRestart_keeps | apply drvWrite_keeps)
    | simp only [Keeps_mk, Keeps_mk']
    | split

theorem hostSwapped_keeps (h : Keeps a s) : Keeps a (hostSwapped x1 x2 s) := by
  unfold hostSwapped
  extract_lets +onlyGivenNames b restart peak dcg s1 s2 s3 s4 s5 s6
  have h1 : Keeps a s1 := by simp only [s1, Keeps_ite, modHost_keeps, h, implies_true, and_self]
  have h2 : Keeps a s2 := by simp only [s2, Keeps_ite, modHost_keeps, h1, implies_true, and_self]
  have h3 : Keeps a s3 := by simp only [s3, Keeps_ite, modHost_keeps, h2, implies_true, and_self]
  have h4 : Keeps a s4 := by simp only [s4, Keeps_ite, modHost_keeps, h3, implies_true, and_self]
  have h5 : Keeps a s5 := modHost_keeps h4
  clear_value s5
  have h6 : Keeps a s6 := by
    simp only [s6]
    split <;> (try simp only [Keeps_ite, modHost_keeps, hostTiming_keeps, hostHold_keeps, h5, implies_true, and_self])
  simp only [Keeps_ite, modHost_keeps, h6, implies_true, and_self]

theorem txPlain_keeps (h : Keeps a s) : Keeps a (txPlain x1 s) := by
  simp +contextual only [txPlain, Keeps_ite, modLine_keeps, h, implies_true, and_self]

theorem modeChanged_keeps (h : Keeps a s) : Keeps a (modeChanged s) := by
  simp only [modeChanged]
  repeat' first
    | (with_reducible first | assumption | apply foldl_keeps | apply forFin_keeps | apply modTx_keeps
                            | apply trnStop_keeps | apply txPlain_keeps | apply msgAbandon_keeps
                            | apply lineTxOff_keeps | apply hostOff_keeps | apply trnDrop_keeps
                            | apply linePathOff_keeps | apply modTherm_keeps | apply seqPush_keeps
                            | apply raise_keeps | apply forFin_keeps | apply clearPortCtrs_keeps)
    | simp only [Keeps_mk, Keeps_mk']
    | split
    | dsimp only
    | (with_reducible first | refine keeps_snd (by assumption) ?_ | refine keeps_fst (by assumption) ?_)
    | intro

theorem portPlain_keeps (h : Keeps a s) : Keeps a (portPlain x1 s) := by
  simp +contextual only [portPlain, modPort_keeps, h]

theorem portsSwapped_keeps (h : Keeps a s) : Keeps a (portsSwapped x1 s) := by
  simp only [portsSwapped]
  repeat' first
    | (with_reducible first | assumption | apply foldl_keeps | apply forFin_keeps | apply modPort_keeps
                            | apply portPlain_keeps | apply buffersSet_keeps
                            | apply lanesMayLeave_keeps | apply modeChanged_keeps
                            | apply hostCold_keeps | apply forFin_keeps | apply lineCold_keeps)
    | simp only [Keeps_mk, Keeps_mk']
    | split
    | dsimp only
    | (with_reducible first | refine keeps_snd (by assumption) ?_ | refine keeps_fst (by assumption) ?_)
    | intro

theorem testsCleared_keeps (h : Keeps a s) : Keeps a (testsCleared x1 s) := by
  simp +contextual only [testsCleared, Keeps_ite, forFin_keeps, modPort_keeps, forFin_keeps, h, implies_true, and_self]

theorem exchange_keeps (h : Keeps a s) : Keeps a (exchange x1 s) := by
  simp only [exchange]
  repeat' first
    | (with_reducible first | assumption | apply foldl_keeps | apply forFin_keeps | apply modPort_keeps
                            | apply modLine_keeps | apply modHost_keeps)
    | simp only [Keeps_mk, Keeps_mk']
    | split

theorem swapDo_keeps (h : Keeps a s) : Keeps a (swapDo x1 s) := by
  unfold swapDo
  extract_lets +onlyGivenNames s1 s2 s3
  have h1 : Keeps a s1 := foldl_keeps _ _ (fun i x hx => exchange_keeps hx) h
  clear_value s1
  have h2 : Keeps a s2 := by
    simp only [s2, Keeps_ite, portsSwapped_keeps, h1, implies_true, and_self]
  clear_value s2
  have h3 : Keeps a s3 := by
    refine foldl_keeps _ _ (fun i x hx => ?_) h2
    cases i <;> simp only [lineSwapped_keeps, hostSwapped_keeps, hx]
  clear_value s3
  exact testsCleared_keeps h3

theorem swapStart_keeps (h : Keeps a s) : Keeps a (swapStart x1 x2 x3 x4 s).1 := by
  simp only [swapStart]
  repeat' first
    | (with_reducible first | assumption | apply foldl_keeps | apply forFin_keeps | apply refuseO_keeps
                            | apply swapDo_keeps | apply doneO_keeps | apply arbAdmitOf_keeps
                            | apply answer_keeps | apply arbRefuse_keeps | apply raise_keeps)
    | split
    | dsimp only
    | (with_reducible first | refine keeps_snd (by assumption) ?_ | refine keeps_fst (by assumption) ?_)
    | intro

/-! ### BlkTest -/

theorem testEnter_keeps (h : Keeps a s) : Keeps a (testEnter x1 s) := by
  simp only [testEnter]
  repeat' first
    | (with_reducible first | assumption | apply foldl_keeps | apply forFin_keeps | apply modPort_keeps
                            | apply modHost_keeps | apply monStop_keeps | apply rxHalt_keeps
                            | apply modRx_keeps | apply modMon_keeps | apply trnAbandon_keeps
                            | apply txHalt_keeps | apply hostHalt_keeps)
    | simp only [Keeps_mk, Keeps_mk']
    | split

theorem testLeave_keeps (h : Keeps a s) : Keeps a (testLeave x1 s) := by
  simp only [testLeave]
  repeat' first
    | (with_reducible first | assumption | apply foldl_keeps | apply forFin_keeps | apply modPort_keeps
                            | apply modHost_keeps | apply txUpdate_keeps | apply hostMayLeave_keeps
                            | apply modRx_keeps | apply modMon_keeps | apply monRestart_keeps
                            | apply rxMayLeave_keeps)
    | simp only [Keeps_mk, Keeps_mk']
    | split

theorem testBegin_keeps (h : Keeps a s) : Keeps a (testBegin x1 s) := by
  simp +contextual only [testBegin, modTst_keeps, testEnter_keeps, h]

theorem testStart_keeps (h : Keeps a s) : Keeps a (testStart x1 x2 x3 x4 s).1 := by
  simp only [testStart]
  repeat' first
    | (with_reducible first | assumption | apply foldl_keeps | apply forFin_keeps | apply refuseO_keeps
                            | apply answer_keeps | apply arbPresent_keeps | apply testBegin_keeps
                            | apply modTst_keeps)
    | split

theorem testNext_keeps (h : Keeps a s) : Keeps a (testNext s) := by
  simp only [testNext]
  repeat' first
    | (with_reducible first | assumption | apply foldl_keeps | apply forFin_keeps | apply testBegin_keeps
                            | apply modTst_keeps)
    | simp only [Keeps_mk, Keeps_mk']
    | split

theorem testDone_keeps (h : Keeps a s) : Keeps a (testDone x1 s) := by
  simp only [testDone]
  repeat' first
    | (with_reducible first | assumption | apply foldl_keeps | apply forFin_keeps | apply doneO_keeps
                            | apply testNext_keeps | apply testLeave_keeps | apply raise_keeps
                            | apply modTst_keeps | apply arbEnd_keeps)
    | simp only [Keeps_mk, Keeps_mk']
    | split

theorem testsEnd_keeps (h : Keeps a s) : Keeps a (testsEnd x1 s) := by
  simp only [testsEnd]
  repeat' first
    | (with_reducible first | assumption | apply foldl_keeps | apply forFin_keeps | apply refuseO_keeps
                            | apply testNext_keeps | apply testLeave_keeps | apply modTst_keeps
                            | apply arbEnd_keeps)
    | simp only [Keeps_mk, Keeps_mk']
    | split
    | dsimp only
    | (with_reducible first | refine keeps_snd (by assumption) ?_ | refine keeps_fst (by assumption) ?_)
    | intro

end Sys2Proof.Machine
end

