-- ==== Sys2Proof/Laws/KeepsReset.lean ====
section
/-! SUPPORT. `Keeps` for every operation of resets, boot, thermal policy, the secure store, clocks and register accesses. -/

-- One proof after another: the package is compiled as one text, where proofs side by side take too much memory.
set_option Elab.async false

namespace Sys2Proof.Machine

open Sys2Proof

/-! ### Reset -/

theorem laneClear_keeps (h : Keeps a s) : Keeps a (laneClear x1 s) := by
  simp only [laneClear]
  repeat' first
    | (with_reducible first | assumption | apply foldl_keeps | apply forFin_keeps | apply capDrop_keeps
                            | apply testsEnd_keeps | apply clearHostCtr_keeps | apply hostOff_keeps
                            | apply lineClear_keeps | apply clearLineCtr_keeps)
    | simp only [Keeps_mk, Keeps_mk']
    | split

theorem framerClear_keeps (h : Keeps a s) : Keeps a (framerClear x1 s) := by
  simp +contextual only [framerClear, Keeps_ite, Keeps_mk, Keeps_mk', forFin_keeps, foldl_keeps, modFr_keeps, h,
    implies_true, and_self]

theorem dataClear_keeps (h : Keeps a s) : Keeps a (dataClear s) := by
  simp only [dataClear]
  repeat' first
    | (with_reducible first | assumption | apply foldl_keeps | apply forFin_keeps | apply framerClear_keeps
                            | apply capDrop_keeps | apply testsEnd_keeps | apply hostOff_keeps
                            | apply lineClear_keeps | apply clearDataCtrs_keeps | apply forFin_keeps)
    | simp only [Keeps_mk']
    | split
    | dsimp only
    | (with_reducible first | refine keeps_snd (by assumption) ?_ | refine keeps_fst (by assumption) ?_)
    | intro

theorem controlClear_keeps (h : Keeps a s) : Keeps a (controlClear x1 s) := by
  have key : ∀ {u t : State}, Keeps a u → t.pending = u.pending → t.clk = u.clk → t.sub = u.sub → t.lmem = [] → t.evt = u.evt →
      t.free = u.free → t.out = u.out → t.setup = (u.setup.filter fun e => !ctrlSetup e.1) →
      t.shadow = (u.shadow.filter fun e => !ctrlSetup e.1) → Keeps a t := by
    intro u t h e1 e2 e9 e3 e4 e5 e6 e7 e8
    obtain ⟨h1, h2, h3, h4, h5, h6, h7, h8, h9⟩ := h
    refine ⟨e1.trans h1, e2.trans h2, fun _ => by rw [memoryOk, e3]; rfl, fun hl => ?_, e5 ▸ h5, e6 ▸ h6, fun hs => ?_, e9.trans h8,
      fun hs => by rw [e7, e8, h9 hs]⟩
    · rw [logOk_iff, e4]; exact logOk_iff.1 (h4 hl)
    · obtain ⟨q1, q2⟩ := setupOk_iff.1 (h7 hs)
      exact setupOk_iff.2 ⟨fun y hy => q1 y (List.mem_filter.1 (e7 ▸ hy)).1, fun y hy => q2 y (List.mem_filter.1 (e8 ▸ hy)).1⟩
  unfold controlClear
  extract_lets s0 s1 s2
  have h0 : Keeps a s0 := drainStop_keeps (drainStop_keeps h)
  clear_value s0
  split
  · exact key h0 rfl rfl rfl rfl rfl rfl rfl rfl rfl
  · exact key h0 rfl rfl rfl rfl rfl rfl rfl rfl rfl

theorem ocpForget_keeps (h : Keeps a s) : Keeps a (ocpForget s) := by
  simp only [ocpForget]
  split
  · exact h
  · exact foldl_keeps _ _ (fun i x hx => ocpDropped_keeps hx) (by simp only [Keeps_mk', h])

theorem mgmtClear_keeps (h : Keeps a s) : Keeps a (mgmtClear x1 s) := by
  unfold mgmtClear
  extract_lets s1 s2 s3 s4
  have h2 : Keeps a s2 := ocpForget_keeps (modRst_keeps h)
  clear_value s2
  have h3 : Keeps a s3 := modChk_keeps (by simp only [Keeps_ite, arbEnd_keeps, h2, implies_true, and_self])
  clear_value s3
  exact modTst_keeps (chkAbandon_keeps (testsEnd_keeps (capDrop_keeps (reedAbort_keeps h3))))

theorem swapTorn_keeps (h : Keeps a s) : Keeps a (swapTorn x1 s) := by
  simp only [swapTorn]
  repeat' first
    | (with_reducible first | assumption | apply foldl_keeps | apply forFin_keeps | apply modConv_keeps
                            | apply draw_keeps)
    | simp only [Keeps_mk, Keeps_mk']
    | split

theorem coldClear_keeps (h : Keeps a s) : Keeps a (coldClear x1 s) := by
  have key : ∀ l : List (Nat × Word), (∀ e ∈ l, reservedOk e.1 e.2 = true) →
      ∀ y ∈ (if x1 = true then l.filter fun e => e.1 == 0x24 || e.1 == 0x1020
        else (l.filter fun e => e.1 == 0x24 || e.1 == 0x1020).filterMap fun e =>
          let v := if e.1 = 0x1020 then e.2 &&& 0x7FFFFFFF else e.2
          if v = setupReset e.1 then none else some (e.1, v)), reservedOk y.1 y.2 = true := by
    intro l q2 y hy
    dsimp only at hy
    split at hy
    · exact q2 y (List.mem_filter.1 hy).1
    · obtain ⟨e, he, hv⟩ := List.mem_filterMap.1 hy
      have hr := q2 e (List.mem_filter.1 he).1
      by_cases e1 : e.1 = 0x1020
      · simp only [e1, if_true] at hv
        split at hv
        · cases hv
        · cases hv
          rw [e1] at hr
          refine reservedOk_mask hr fun p hp => word_and _ _ _ ?_
          have e2 : setupSpec 0x1020 = some (0x8000FFFF, 0, 0) := by decide
          rw [e2] at hp; cases hp; decide
      · simp only [e1, if_false] at hv
        split at hv
        · cases hv
        · cases hv
          exact hr
  obtain ⟨h1, h2, h3, h4, h5, h6, h7, h8, h9⟩ := h
  refine ⟨h1, h2, fun _ => rfl, fun hl => ?_, h5, h6, fun hs => ?_, h8, fun hs => ?_⟩
  · have := logOk_iff.1 (h4 hl)
    rw [logOk_iff]
    unfold coldClear
    dsimp only
    split
    · exact this
    · exact this
  · obtain ⟨q1, q2⟩ := setupOk_iff.1 (h7 hs)
    exact setupOk_iff.2 ⟨key _ q1, key _ q2⟩
  · unfold coldClear
    dsimp only
    rw [h9 hs]

theorem porClear_keeps (h : Keeps a s) : Keeps a (porClear s) where
  pending := h.1
  clk := h.2
  mem := fun _ => rfl
  log := fun _ => logOk_iff.2 (Nat.zero_le _)
  free := h.5
  out := h.6
  sub := h.8
  setup := fun _ => setupOk_iff.2 ⟨fun _ hy => (nomatch hy), fun _ hy => (nomatch hy)⟩
  eq := fun _ => rfl

theorem laneReach_keeps (h : Keeps a s) : Keeps a (laneReach x1 s) := by
  simp +contextual only [laneReach, Keeps_ite, foldl_keeps, dataClear_keeps, laneClear_keeps, h, implies_true, and_self]

theorem sleepEnter_keeps (h : Keeps a s) : Keeps a (sleepEnter s) := by
  simp +contextual only [sleepEnter, Keeps_mk', seqCancel_keeps, coldClear_keeps, h]

theorem lateDo_keeps (h : Keeps a s) : Keeps a (lateDo x1 s) := by
  simp only [lateDo]
  repeat' first
    | (with_reducible first | assumption | apply foldl_keeps | apply forFin_keeps | apply laneReach_keeps
                            | apply coldClear_keeps | apply lanesMayLeave_keeps | apply modRst_keeps
                            | apply domOffLate_keeps | apply sleepEnter_keeps)
    | simp only [Keeps_mk, Keeps_mk']
    | split

theorem lateFlush_keeps (h : Keeps a s) : Keeps a (lateFlush s) := by
  simp only [lateFlush]
  repeat' first
    | (with_reducible first | assumption | apply foldl_keeps | apply forFin_keeps | apply lateDo_keeps)
    | simp only [Keeps_mk']
    | split
    | dsimp only
    | (with_reducible first | refine keeps_snd (by assumption) ?_ | refine keeps_fst (by assumption) ?_)
    | intro

theorem reachApply_keeps (h : Keeps a s) : Keeps a (reachApply x1 x2 s) := by
  simp only [reachApply]
  repeat' first
    | (with_reducible first | assumption | apply foldl_keeps | apply forFin_keeps | apply seqCancel_keeps
                            | apply laneReach_keeps | apply coldClear_keeps | apply porClear_keeps
                            | apply swapTorn_keeps | apply mgmtClear_keeps | apply controlClear_keeps)
    | simp only [Keeps_mk']
    | split
    | dsimp only
    | (with_reducible first | refine keeps_snd (by assumption) ?_ | refine keeps_fst (by assumption) ?_)
    | intro

theorem sleepBreak_keeps (h : Keeps a s) : Keeps a (sleepBreak x1 s) := by
  simp only [sleepBreak]
  repeat' first
    | (with_reducible first | assumption | apply foldl_keeps | apply forFin_keeps)
    | simp only [Keeps_mk']
    | split

theorem assertOne_keeps (h : Keeps a s) : Keeps a (assertOne x1 s) := by
  unfold assertOne
  extract_lets +onlyGivenNames r s1 s2
  have h1 : Keeps a s1 := by simp only [s1, Keeps_ite, sleepBreak_keeps, h, implies_true, and_self]
  clear_value s1
  have h2 : Keeps a s2 := modRst_keeps h1
  clear_value s2
  split
  · exact h2
  split
  · exact h2
  extract_lets hits counted taken again trim restarts held reach first widened sources e s3 s4 s5
  have h3 : Keeps a s3 := modRst_keeps h2
  clear_value s3
  have h4 : Keeps a s4 := by simp only [s4, Keeps_ite, reachApply_keeps, h3, implies_true, and_self]
  clear_value s4
  have h5 : Keeps a s5 := by simp only [s5, Keeps_ite, modRst_keeps, h4, implies_true, and_self]
  clear_value s5
  simp only [Keeps_ite, modRst_keeps, h5, implies_true, and_self]

theorem sleepPins_keeps (h : Keeps a s) : Keeps a (sleepPins s) := by
  simp only [sleepPins]
  repeat' first
    | (with_reducible first | assumption | apply foldl_keeps | apply forFin_keeps | apply assertOne_keeps)
    | simp only [Keeps_mk, Keeps_mk']
    | split
    | dsimp only
    | (with_reducible first | refine keeps_snd (by assumption) ?_ | refine keeps_fst (by assumption) ?_)
    | intro

theorem assertReset_keeps (h : Keeps a s) : Keeps a (assertReset x1 s) := by
  simp +contextual only [assertReset, Keeps_ite, Keeps_mk, Keeps_mk', forFin_keeps, foldl_keeps, sleepPins_keeps,
    assertOne_keeps, h, implies_true, and_self]

theorem episodeEnd_keeps (h : Keeps a s) : Keeps a (episodeEnd x1 s) := by
  simp only [episodeEnd]
  repeat' first
    | (with_reducible first | assumption | apply foldl_keeps | apply forFin_keeps | apply lanesMayLeave_keeps
                            | apply modRst_keeps)
    | simp only [Keeps_mk, Keeps_mk']
    | split

theorem releaseReset_keeps (h : Keeps a s) : Keeps a (releaseReset x1 s) := by
  simp only [releaseReset]
  repeat' first
    | (with_reducible first | assumption | apply foldl_keeps | apply forFin_keeps | apply modRst_keeps
                            | apply episodeEnd_keeps | apply lateFlush_keeps)
    | simp only [Keeps_mk, Keeps_mk']
    | split

theorem sourceRelease_keeps (h : Keeps a s) : Keeps a (sourceRelease x1 s) := by
  simp +contextual only [sourceRelease, Keeps_ite, releaseReset_keeps, h, implies_true, and_self]

theorem ctrlLeaves_keeps (h : Keeps a s) : Keeps a (ctrlLeaves s) := by
  simp +contextual only [ctrlLeaves, Keeps_ite, modRst_keeps, h, implies_true, and_self]

theorem wakeUp_keeps (h : Keeps a s) : Keeps a (wakeUp x1 s) := by
  unfold wakeUp
  extract_lets +onlyGivenNames s1 s2 s3
  have h1 : Keeps a s1 := regSet_keeps h fun hs => reservedOk_mask (reg_reservedOk hs _) fun p hp => word_and _ _ _ (by
    have e : setupSpec 0x1020 = some (0x8000FFFF, 0, 0) := by decide
    rw [e] at hp; cases hp; decide)
  clear_value s1
  have h2 : Keeps a s2 := modRst_keeps h1
  clear_value s2
  have h3 : Keeps a s3 := by simp only [s3, Keeps_ite, assertOne_keeps, h2, implies_true, and_self]
  clear_value s3
  exact modRst_keeps h3

theorem sleepRelease_keeps (h : Keeps a s) : Keeps a (sleepRelease s) := by
  simp only [sleepRelease]
  repeat' first
    | (with_reducible first | assumption | apply foldl_keeps | apply forFin_keeps | apply releaseReset_keeps
                            | apply modRst_keeps | apply wakeUp_keeps | apply assertReset_keeps
                            | apply sleepBreak_keeps)
    | simp only [Keeps_mk, Keeps_mk']
    | split

theorem longHold_keeps (h : Keeps a s) : Keeps a (longHold s) := by
  simp only [longHold]
  repeat' first
    | (with_reducible first | assumption | apply foldl_keeps | apply forFin_keeps | apply modRst_keeps)
    | simp only [Keeps_mk, Keeps_mk']
    | split

theorem wakeTimer_keeps (h : Keeps a s) : Keeps a (wakeTimer s) := by
  simp only [wakeTimer]
  repeat' first
    | (with_reducible first | assumption | apply foldl_keeps | apply forFin_keeps | apply sleepPins_keeps
                            | apply wakeUp_keeps)
    | simp only [Keeps_mk, Keeps_mk']
    | split

theorem pulseAccepted_keeps (h : Keeps a s) : Keeps a (pulseAccepted x1 s).2 := by
  simp only [pulseAccepted]
  repeat' first
    | (with_reducible first | assumption | apply foldl_keeps | apply forFin_keeps | apply draw_keeps)
    | simp only [Keeps_mk, Keeps_mk']
    | split

theorem sleepPulse_keeps (h : Keeps a s) : Keeps a (sleepPulse s) := by
  simp +contextual only [sleepPulse, modRst_keeps, h]

theorem resetPinLow_keeps (h : Keeps a s) : Keeps a (resetPinLow x1 s) := by
  simp only [resetPinLow]
  repeat' first
    | (with_reducible first | assumption | apply foldl_keeps | apply forFin_keeps | apply pulseAccepted_keeps
                            | apply modRst_keeps | apply sleepPulse_keeps | apply assertReset_keeps
                            | apply sleepEnter_keeps)
    | simp only [Keeps_mk, Keeps_mk']
    | split

theorem resetPinHigh_keeps (h : Keeps a s) : Keeps a (resetPinHigh s) := by
  simp only [resetPinHigh]
  repeat' first
    | (with_reducible first | assumption | apply foldl_keeps | apply forFin_keeps | apply sleepRelease_keeps
                            | apply releaseReset_keeps | apply modRst_keeps)
    | simp only [Keeps_mk, Keeps_mk']
    | split

theorem perstPinLow_keeps (h : Keeps a s) : Keeps a (perstPinLow x1 s) := by
  simp only [perstPinLow]
  repeat' first
    | (with_reducible first | assumption | apply foldl_keeps | apply forFin_keeps | apply pulseAccepted_keeps
                            | apply modRst_keeps | apply assertReset_keeps)
    | simp only [Keeps_mk, Keeps_mk']
    | split

theorem perstPinHigh_keeps (h : Keeps a s) : Keeps a (perstPinHigh s) := by
  simp +contextual only [perstPinHigh, Keeps_ite, releaseReset_keeps, modRst_keeps, h, implies_true, and_self]

theorem vioLost_keeps (h : Keeps a s) : Keeps a (vioLost s) := by
  simp only [vioLost]
  repeat' first
    | (with_reducible first | assumption | apply foldl_keeps | apply forFin_keeps | apply modRst_keeps
                            | apply sleepPulse_keeps | apply assertReset_keeps)
    | simp only [Keeps_mk, Keeps_mk']
    | split

theorem vioBack_keeps (h : Keeps a s) : Keeps a (vioBack s) := by
  simp only [vioBack]
  repeat' first
    | (with_reducible first | assumption | apply foldl_keeps | apply forFin_keeps | apply sleepRelease_keeps
                            | apply releaseReset_keeps | apply modRst_keeps)
    | simp only [Keeps_mk, Keeps_mk']
    | split

theorem vinWarn_keeps (h : Keeps a s) : Keeps a (vinWarn x1 s) := by
  simp +contextual only [vinWarn, raiseLimited_keeps, h]

theorem escalate_keeps (h : Keeps a s) : Keeps a (escalate x1 s) := by
  simp +contextual only [escalate, assertReset_keeps, raise_keeps, h]

theorem mgmtFault_keeps (h : Keeps a s) : Keeps a (mgmtFault x1 s) := by
  simp only [mgmtFault]
  repeat' first
    | (with_reducible first | assumption | apply foldl_keeps | apply forFin_keeps | apply escalate_keeps
                            | apply assertReset_keeps | apply modChk_keeps)
    | simp only [Keeps_mk, Keeps_mk']
    | split

/-! ### Boot -/

theorem exitStep_keeps (h : Keeps a s) : Keeps a (exitStep x1 s) := by
  simp +contextual only [exitStep, modRst_keeps, h]

theorem strapSample_keeps (h : Keeps a s) : Keeps a (strapSample x1 x2 s) := by
  simp +contextual only [strapSample, Keeps_mk', h]

theorem bankLoad_keeps (h : Keeps a s) : Keeps a (bankLoad x1 s) := by
  simp only [bankLoad]
  repeat' first
    | (with_reducible first | assumption | apply foldl_keeps | apply forFin_keeps)
    | simp only [Keeps_mk']
    | split

theorem trimAttempt_keeps (h : Keeps a s) : Keeps a (trimAttempt x1 x2 s) := by
  simp only [trimAttempt]
  repeat' first
    | (with_reducible first | assumption | apply foldl_keeps | apply forFin_keeps | apply exitStep_keeps
                            | apply modRst_keeps | apply strapSample_keeps | apply seqPush_keeps
                            | apply bankLoad_keeps)
    | simp only [Keeps_mk']
    | split

theorem groupStart_keeps (h : Keeps a s) : Keeps a (groupStart x1 s) := by
  simp only [groupStart]
  repeat' first
    | (with_reducible first | assumption | apply foldl_keeps | apply forFin_keeps | apply exitStep_keeps
                            | apply seqPush_keeps | apply modTst_keeps)
    | simp only [Keeps_mk, Keeps_mk']
    | split
    | dsimp only
    | (with_reducible first | refine keeps_snd (by assumption) ?_ | refine keeps_fst (by assumption) ?_)
    | intro

theorem seqFinish_keeps (h : Keeps a s) : Keeps a (seqFinish s) := by
  simp only [seqFinish]
  repeat' first
    | (with_reducible first | assumption | apply foldl_keeps | apply forFin_keeps | apply domDone_keeps)
    | simp only [Keeps_mk, Keeps_mk']
    | split
    | dsimp only
    | (with_reducible first | refine keeps_snd (by assumption) ?_ | refine keeps_fst (by assumption) ?_)
    | intro

theorem bandsChoose_keeps (h : Keeps a s) : Keeps a (bandsChoose s) := by
  simp +contextual only [bandsChoose, Keeps_ite, Keeps_mk, Keeps_mk', forFin_keeps, foldl_keeps, draw_keeps, modTherm_keeps,
    h, implies_true, and_self]

theorem freeBeatStart_keeps (h : Keeps a s) : Keeps a (freeBeatStart s) := by
  simp +contextual only [freeBeatStart, Keeps_ite, firstBeat_keeps, modCad_keeps, h, implies_true, and_self]

theorem pllStep_keeps (h : Keeps a s) : Keeps a (pllStep x1 s) := by
  simp only [pllStep]
  repeat' first
    | (with_reducible first | assumption | apply foldl_keeps | apply forFin_keeps | apply groupStart_keeps
                            | apply modRst_keeps | apply freeBeatStart_keeps | apply bandsChoose_keeps
                            | apply seqFinish_keeps | apply raise_keeps)
    | simp only [Keeps_mk']
    | split

theorem pllLock_keeps (h : Keeps a s) : Keeps a (pllLock s) := by
  simp +contextual only [pllLock, pllStep_keeps, h]

theorem firstSets_keeps (h : Keeps a s) : Keeps a (firstSets x1 x2 s) := by
  simp only [firstSets]
  repeat' first
    | (with_reducible first | assumption | apply foldl_keeps | apply forFin_keeps | apply modConv_keeps
                            | apply modCal_keeps | apply draw_keeps)
    | simp only [Keeps_mk, Keeps_mk']
    | split

theorem restSets_keeps (h : Keeps a s) : Keeps a (restSets s) := by
  simp +contextual only [restSets, Keeps_ite, Keeps_mk, Keeps_mk', forFin_keeps, foldl_keeps, firstSets_keeps, h,
    implies_true, and_self]

theorem selfTestEnd_keeps (h : Keeps a s) : Keeps a (selfTestEnd s) := by
  simp only [selfTestEnd]
  repeat' first
    | (with_reducible first | assumption | apply foldl_keeps | apply forFin_keeps | apply monSync_keeps
                            | apply exitStep_keeps | apply modTst_keeps)

theorem groupDone_keeps (h : Keeps a s) : Keeps a (groupDone x1 x2 x3 s) := by
  simp only [groupDone]
  repeat' first
    | (with_reducible first | assumption | apply foldl_keeps | apply forFin_keeps | apply ringStart_keeps
                            | apply groupStart_keeps | apply failAct_keeps | apply exitStep_keeps
                            | apply firstSets_keeps | apply selfTestEnd_keeps | apply seqFinish_keeps
                            | apply modTst_keeps | apply restSets_keeps | apply modRings_keeps)
    | simp only [Keeps_mk, Keeps_mk']
    | split
    | dsimp only
    | (with_reducible first | refine keeps_snd (by assumption) ?_ | refine keeps_fst (by assumption) ?_)
    | intro

theorem bootPatch_keeps (h : Keeps a s) : Keeps a (bootPatch x1 s) := by
  simp only [bootPatch]
  repeat' first
    | (with_reducible first | assumption | apply foldl_keeps | apply forFin_keeps | apply raise_keeps
                            | apply modTst_keeps)
    | simp only [Keeps_mk, Keeps_mk']
    | split

theorem firmwareBoot_keeps (h : Keeps a s) : Keeps a (firmwareBoot x1 s) := by
  unfold firmwareBoot
  split
  · exact h
  rename_i e _
  extract_lets +onlyGivenNames s1 b s2 s3 s4
  have h1 : Keeps a s1 := modRst_keeps h
  clear_value s1
  have h2 : Keeps a s2 := by simp only [s2, Keeps_mk', h1]
  clear_value s2
  have h4 : Keeps a s4 := modTherm_keeps (bootWindow_keeps (bootPatch_keeps h2))
  clear_value s4
  extract_lets +onlyGivenNames s5 s6 s7 s8
  have k1 : Keeps a s5 := modCal_keeps h4
  clear_value s5
  have k2 : Keeps a s6 := by simp only [s6, Keeps_ite, raise_keeps, modRst_keeps, k1, implies_true, and_self]
  clear_value s6
  have k3 : Keeps a s7 := foldl_keeps _ _ (fun i x hx => by simp only [Keeps_ite, raise_keeps, hx, implies_true, and_self]) k2
  clear_value s7
  have h5 : Keeps a s8 := by simp only [s8, Keeps_ite, raise_keeps, modTherm_keeps, k3, h4, implies_true, and_self]
  clear_value s8
  extract_lets +onlyGivenNames s9 s10 s11
  have h6 : Keeps a s9 := raise_keeps h5
  clear_value s9
  have h7 : Keeps a s10 := by simp only [s10, Keeps_ite, raise_keeps, modRst_keeps, h6, implies_true, and_self]
  clear_value s10
  have h8 : Keeps a s11 := trnBoot_keeps (chkAnswer_keeps h7)
  clear_value s11
  simp only [Keeps_ite, lanesMayLeave_keeps, h8, implies_true, and_self]

theorem scanEnable_keeps (h : Keeps a s) : Keeps a (scanEnable s) := by
  simp +contextual only [scanEnable, raise_keeps, modTst_keeps, h]

theorem testPortAccess_keeps (h : Keeps a s) : Keeps a (testPortAccess x1 s) := by
  simp +contextual only [testPortAccess, raise_keeps, h]

/-! ### Thermal -/

theorem sensFlag_keeps (h : Keeps a s) : Keeps a (sensFlag x1 x2 s) := by
  simp +contextual only [sensFlag, raise_keeps, modSens_keeps, h]

theorem sensCheck_keeps (h : Keeps a s) : Keeps a (sensCheck x1 x2 x3 s) := by
  simp +contextual only [sensCheck, Keeps_ite, sensFlag_keeps, modSens_keeps, h, implies_true, and_self]

theorem setStage_keeps (h : Keeps a s) : Keeps a (setStage x1 s) := by
  simp +contextual only [setStage, modTherm_keeps, h]

theorem mutePass_keeps (h : Keeps a s) : Keeps a (mutePass s) := by
  simp only [mutePass]
  repeat' first
    | (with_reducible first | assumption | apply foldl_keeps | apply forFin_keeps | apply muteEnter_keeps
                            | apply forFin_keeps | apply arbOffer_keeps)
    | simp only [Keeps_mk, Keeps_mk']
    | split
    | dsimp only
    | (with_reducible first | refine keeps_snd (by assumption) ?_ | refine keeps_fst (by assumption) ?_)
    | intro

theorem enterMute_keeps (h : Keeps a s) : Keeps a (enterMute s) := by
  simp only [enterMute]
  repeat' first
    | (with_reducible first | assumption | apply foldl_keeps | apply forFin_keeps | apply setStage_keeps
                            | apply mutePass_keeps | apply raise_keeps)

theorem shedNow_keeps (h : Keeps a s) : Keeps a (shedNow x1 s) := by
  simp only [shedNow]
  repeat' first
    | (with_reducible first | assumption | apply foldl_keeps | apply forFin_keeps | apply setStage_keeps
                            | apply modTherm_keeps | apply seqPush_keeps | apply raise_keeps)

theorem shedStep_keeps (h : Keeps a s) : Keeps a (shedStep s) := by
  simp only [shedStep]
  repeat' first
    | (with_reducible first | assumption | apply foldl_keeps | apply forFin_keeps | apply shedNow_keeps
                            | apply modTherm_keeps | apply raise_keeps)
    | simp only [Keeps_mk, Keeps_mk']
    | split

theorem shedWaited_keeps (h : Keeps a s) : Keeps a (shedWaited s) := by
  simp +contextual only [shedWaited, Keeps_ite, foldl_keeps, shedNow_keeps, modTherm_keeps, h, implies_true, and_self]

theorem liftOver_keeps (h : Keeps a s) : Keeps a (liftOver s) := by
  simp +contextual only [liftOver, Keeps_ite, setStage_keeps, h, implies_true, and_self]

theorem liftStep_keeps (h : Keeps a s) : Keeps a (liftStep s) := by
  simp only [liftStep]
  repeat' first
    | (with_reducible first | assumption | apply foldl_keeps | apply forFin_keeps | apply liftOver_keeps
                            | apply muteLeave_keeps | apply modTherm_keeps | apply seqPush_keeps
                            | apply arbOffer_keeps)
    | simp only [Keeps_mk, Keeps_mk']
    | split

theorem timerDue_keeps (h : Keeps a s) : Keeps a (timerDue x1 s) := by
  simp only [timerDue]
  repeat' first
    | (with_reducible first | assumption | apply foldl_keeps | apply forFin_keeps | apply enterMute_keeps
                            | apply liftStep_keeps | apply setStage_keeps | apply shedStep_keeps)
    | simp only [Keeps_mk, Keeps_mk']
    | split

theorem timerEnd_keeps (h : Keeps a s) : Keeps a (timerEnd x1 s) := by
  simp +contextual only [timerEnd, Keeps_ite, modTherm_keeps, timerDue_keeps, h, implies_true, and_self]

theorem stageRound_keeps (h : Keeps a s) : Keeps a (stageRound x1 s) := by
  simp only [stageRound]
  repeat' first
    | (with_reducible first | assumption | apply foldl_keeps | apply forFin_keeps | apply liftOver_keeps
                            | apply enterMute_keeps | apply setStage_keeps | apply mutePass_keeps
                            | apply modTherm_keeps | apply raise_keeps)
    | simp only [Keeps_mk, Keeps_mk']
    | split

theorem compensate_keeps (h : Keeps a s) : Keeps a (compensate s) := by
  simp only [compensate]
  repeat' first
    | (with_reducible first | assumption | apply foldl_keeps | apply forFin_keeps | apply modTherm_keeps
                            | apply raise_keeps)
    | simp only [Keeps_mk, Keeps_mk']
    | split
    | dsimp only
    | (with_reducible first | refine keeps_snd (by assumption) ?_ | refine keeps_fst (by assumption) ?_)
    | intro

theorem thermalRound_keeps (h : Keeps a s) : Keeps a (thermalRound x1 s) := by
  simp only [thermalRound]
  repeat' first
    | (with_reducible first | assumption | apply foldl_keeps | apply forFin_keeps | apply stageRound_keeps
                            | apply shedWaited_keeps | apply compensate_keeps | apply modTherm_keeps
                            | apply sensCheck_keeps | apply raise_keeps | apply timerDue_keeps
                            | apply forFin_keeps)
    | simp only [Keeps_mk, Keeps_mk']
    | split
    | dsimp only
    | (with_reducible first | refine keeps_snd (by assumption) ?_ | refine keeps_fst (by assumption) ?_)
    | intro

theorem roundEnd_keeps (h : Keeps a s) : Keeps a (roundEnd x1 x2 s) := by
  simp only [roundEnd]
  repeat' first
    | (with_reducible first | assumption | apply foldl_keeps | apply forFin_keeps | apply thermalRound_keeps
                            | apply calRound_keeps | apply sensFlag_keeps | apply roundFinish_keeps
                            | apply forFin_keeps)
    | simp only [Keeps_mk, Keeps_mk']
    | split
    | dsimp only
    | (with_reducible first | refine keeps_snd (by assumption) ?_ | refine keeps_fst (by assumption) ?_)
    | intro

theorem tripEval_keeps (h : Keeps a s) : Keeps a (tripEval x1 s) := by
  simp only [tripEval]
  repeat' first
    | (with_reducible first | assumption | apply foldl_keeps | apply forFin_keeps | apply modTx_keeps
                            | apply releaseReset_keeps | apply draw_keeps | apply assertReset_keeps
                            | apply modTherm_keeps | apply forFin_keeps)
    | simp only [Keeps_mk, Keeps_mk']
    | split
    | dsimp only
    | (with_reducible first | refine keeps_snd (by assumption) ?_ | refine keeps_fst (by assumption) ?_)
    | intro

theorem actThermConfig_keeps (h : Keeps a s) : Keeps a (actThermConfig x1 s) := by
  simp only [actThermConfig]
  repeat' first
    | (with_reducible first | assumption | apply foldl_keeps | apply forFin_keeps | apply done_keeps
                            | apply modTherm_keeps)
    | simp only [Keeps_mk, Keeps_mk']
    | split

theorem actShedOrder_keeps (h : Keeps a s) : Keeps a (actShedOrder x1 s) := by
  simp +contextual only [actShedOrder, done_keeps, modTherm_keeps, h]

/-! ### Secure -/

theorem resetNow_keeps (h : Keeps a s) : Keeps a (resetNow x1 s) := by
  simp +contextual only [resetNow, Keeps_ite, assertReset_keeps, modTst_keeps, h, implies_true, and_self]

theorem afterCheck_keeps (h : Keeps a s) : Keeps a (afterCheck s) := by
  simp +contextual only [afterCheck, foldl_keeps, modRst_keeps, resetNow_keeps, h, implies_true]

theorem resetAfter_keeps (h : Keeps a s) : Keeps a (resetAfter x1 x2 s) := by
  simp only [resetAfter]
  repeat' first
    | (with_reducible first | assumption | apply foldl_keeps | apply forFin_keeps | apply afterCheck_keeps
                            | apply done_keeps | apply modRst_keeps)

theorem actReset_keeps (h : Keeps a s) : Keeps a (actReset x1 s) := by
  simp only [actReset]
  repeat' first
    | (with_reducible first | assumption | apply foldl_keeps | apply forFin_keeps | apply done_keeps
                            | apply assertReset_keeps | apply resetAfter_keeps)
    | simp only [Keeps_mk, Keeps_mk']
    | split

theorem resetTimed_keeps (h : Keeps a s) : Keeps a (resetTimed x1 s) := by
  simp only [resetTimed]
  repeat' first
    | (with_reducible first | assumption | apply foldl_keeps | apply forFin_keeps | apply resetNow_keeps
                            | apply resetAfter_keeps)
    | simp only [Keeps_mk, Keeps_mk']
    | split

theorem actPatchStage_keeps (h : Keeps a s) : Keeps a (actPatchStage x1 s) := by
  simp +contextual only [actPatchStage, Keeps_ite, done_keeps, raise_keeps, modTst_keeps, refuse_keeps, h, implies_true,
    and_self]

theorem patchStart_keeps (h : Keeps a s) : Keeps a (patchStart x1 s).1 := by
  simp only [patchStart]
  repeat' first
    | (with_reducible first | assumption | apply foldl_keeps | apply forFin_keeps | apply refuseO_keeps
                            | apply resetNow_keeps | apply arbPresent_keeps | apply resetAfter_keeps)
    | simp only [Keeps_mk, Keeps_mk']
    | split

theorem actOwnerKey_keeps (h : Keeps a s) : Keeps a (actOwnerKey x1 s) := by
  simp only [actOwnerKey]
  repeat' first
    | (with_reducible first | assumption | apply foldl_keeps | apply forFin_keeps | apply done_keeps
                            | apply raise_keeps | apply modTst_keeps | apply refuse_keeps)
    | simp only [Keeps_mk, Keeps_mk']
    | split

theorem actAttest_keeps (h : Keeps a s) : Keeps a (actAttest x1 s) := by
  simp only [actAttest]
  repeat' first
    | (with_reducible first | assumption | apply foldl_keeps | apply forFin_keeps | apply done_keeps
                            | apply tlmFormId_keeps | apply draw_keeps | apply raise_keeps
                            | apply refuse_keeps)
    | simp only [Keeps_mk, Keeps_mk']
    | split

theorem bankWordLost_keeps (h : Keeps a s) : Keeps a (bankWordLost s) := by
  simp only [bankWordLost]
  repeat' first
    | (with_reducible first | assumption | apply foldl_keeps | apply forFin_keeps | apply modPort_keeps
                            | apply modLine_keeps | apply modHost_keeps | apply draw_keeps)
    | simp only [Keeps_mk, Keeps_mk']
    | split

theorem cadenceWordLost_keeps (h : Keeps a s) : Keeps a (cadenceWordLost x1 s) := by
  simp +contextual only [cadenceWordLost, Keeps_ite, freeSlot_keeps, treeLost_keeps, h, implies_true, and_self]

theorem eventWordLost_keeps (h : Keeps a s) : Keeps a (eventWordLost s) := by
  have hd : Keeps a (draw s).2 := draw_keeps h
  refine ⟨hd.1, hd.2, hd.3, fun hl => ?_, hd.5, hd.6, hd.7, hd.8, hd.9⟩
  have := logOk_iff.1 (hd.4 hl)
  rw [logOk_iff]
  unfold eventWordLost
  dsimp only
  split
  · exact this
  · exact Nat.le_trans (List.length_eraseIdx_le _ _) this

theorem secureWordLost_keeps (h : Keeps a s) : Keeps a (secureWordLost s) := by
  simp only [secureWordLost]
  repeat' first
    | (with_reducible first | assumption | apply foldl_keeps | apply forFin_keeps | apply draw_keeps
                            | apply raise_keeps | apply modTst_keeps)

theorem hardScrub_keeps (h : Keeps a s) : Keeps a (hardScrub x1 x2 x3 s) := by
  unfold hardScrub
  split
  · exact h
  split
  · exact h
  · exact h
  · exact eccCorr_keeps h
  · split
    · exact escalate_keeps (eccNote_keeps h)
    · exact bankWordLost_keeps (eccNote_keeps h)
    · exact cadenceWordLost_keeps (eccNote_keeps h)
    · exact eventWordLost_keeps (eccNote_keeps h)
    · exact secureWordLost_keeps (eccNote_keeps h)
    · exact regSet_keeps (eccNote_keeps h) fun hs => reg_reservedOk hs _
    · exact eccUnc_keeps h

/-! ### Clocks -/

theorem txRefLost_keeps (h : Keeps a s) : Keeps a (txRefLost x1 s) := by
  simp +contextual only [txRefLost, modTx_keeps, h]

theorem rxRefLost_keeps (h : Keeps a s) : Keeps a (rxRefLost x1 s) := by
  simp +contextual only [rxRefLost, Keeps_ite, enterDark_keeps, h, implies_true, and_self]

theorem hostRefLost_keeps (h : Keeps a s) : Keeps a (hostRefLost x1 s) := by
  simp +contextual only [hostRefLost, Keeps_ite, hostIdle_keeps, h, implies_true, and_self]

theorem cadRefLost_keeps (h : Keeps a s) : Keeps a (cadRefLost s) := by
  simp +contextual only [cadRefLost, Keeps_ite, modCad_keeps, enterHoldover_keeps, h, implies_true, and_self]

theorem refclkLost_keeps (h : Keeps a s) : Keeps a (refclkLost s) := by
  simp only [refclkLost]
  repeat' first
    | (with_reducible first | assumption | apply foldl_keeps | apply forFin_keeps | apply pllStep_keeps
                            | apply hostRefLost_keeps | apply rxRefLost_keeps | apply raise_keeps
                            | apply forFin_keeps | apply txRefLost_keeps | apply cadRefLost_keeps)
    | simp only [Keeps_mk']
    | split
    | dsimp only
    | (with_reducible first | refine keeps_snd (by assumption) ?_ | refine keeps_fst (by assumption) ?_)
    | intro

theorem rxRefBack_keeps (h : Keeps a s) : Keeps a (rxRefBack x1 s) := by
  simp +contextual only [rxRefBack, Keeps_ite, outageStart_keeps, leaveDark_keeps, h, implies_true, and_self]

theorem hostRefBack_keeps (h : Keeps a s) : Keeps a (hostRefBack x1 s) := by
  simp +contextual only [hostRefBack, Keeps_ite, hostLeaveIdle_keeps, h, implies_true, and_self]

theorem refclkRestored_keeps (h : Keeps a s) : Keeps a (refclkRestored s) := by
  simp only [refclkRestored]
  repeat' first
    | (with_reducible first | assumption | apply foldl_keeps | apply forFin_keeps | apply lanesMayLeave_keeps
                            | apply freeBeatStart_keeps | apply bandsChoose_keeps
                            | apply rxRefBack_keeps | apply raise_keeps | apply hostRefBack_keeps
                            | apply forFin_keeps)
    | simp only [Keeps_mk']
    | split
    | dsimp only
    | (with_reducible first | refine keeps_snd (by assumption) ?_ | refine keeps_fst (by assumption) ?_)
    | intro

/-! ### RegDev -/

theorem setLatches_keeps (h : Keeps a s) : Keeps a (setLatches x1 x2 s) := by
  simp only [setLatches]
  repeat' first
    | (with_reducible first | assumption | apply foldl_keeps | apply forFin_keeps)
    | simp only [Keeps_mk']
    | split

theorem rdataRead_keeps (h : Keeps a s) : Keeps a (rdataRead x1 s).2 := by
  unfold rdataRead
  extract_lets +onlyGivenNames b next
  have hn : ∀ {x : State}, Keeps a x → Keeps a (next x) := fun hx => regSet_keeps hx fun _ => raddr_reserved _ _
  split
  · exact hn h
  split
  · exact hn h
  · exact hn (draw_keeps h)

theorem readWord_keeps (h : Keeps a s) : Keeps a (readWord x1 x2 s).2 := by
  simp only [readWord]
  repeat' first
    | (with_reducible first | assumption | apply foldl_keeps | apply forFin_keeps | apply rdataRead_keeps
                            | apply setLatches_keeps)
    | split

/-! ### Access -/

theorem lockWrite_keeps (h : Keeps a s) : Keeps a (lockWrite x1 s) := by
  unfold lockWrite
  split
  · exact regSet_keeps h fun _ => by decide
  · exact h

theorem histW1c_keeps (h : Keeps a s) : Keeps a (histW1c x1 x2 x3 s) := by
  simp +contextual only [histW1c, modPort_keeps, h]

theorem actionWrite_keeps (h : Keeps a s) : Keeps a (actionWrite x1 x2 s) := by
  simp only [actionWrite]
  repeat' first
    | (with_reducible first | assumption | apply foldl_keeps | apply forFin_keeps | apply lineCapture_keeps
                            | apply modRst_keeps | apply histW1c_keeps | apply hostCapture_keeps)
    | simp only [Keeps_mk']
    | split

theorem writeWord_keeps (h : Keeps a s) : Keeps a (writeWord x1 x2 s) := by
  simp only [writeWord]
  repeat' first
    | (with_reducible first | assumption | apply foldl_keeps | apply forFin_keeps | apply msixFlush_keeps
                            | apply lockWrite_keeps | apply tlmOffer_keeps | apply actionWrite_keeps
                            | apply writeRingCfg_keeps | apply writeSetup_keeps)
    | simp only [Keeps_mk, Keeps_mk']
    | split

theorem hostWriteReg_keeps (h : Keeps a s) : Keeps a (hostWriteReg x1 x2 x3 x4 s) := by
  simp +contextual only [hostWriteReg, Keeps_ite, writeWord_keeps, h, implies_true, and_self]

theorem hostReadReg_keeps (h : Keeps a s) : Keeps a (hostReadReg x1 x2 s) := by
  simp +contextual only [hostReadReg, Keeps_ite, readWord_keeps, emit_keeps, h, implies_true, and_self]

theorem wireError_keeps (h : Keeps a s) : Keeps a (wireError x1 s) := by
  simp +contextual only [wireError, raise_keeps, h]

theorem wireWriteFrom_keeps {a : State} : ∀ {b : Nat} {l : List Byte} {s : State}, Keeps a s → Keeps a (wireWriteFrom b l s)
  | _, [], _, h => h
  | b, b0 :: t, s, h => by
    rw [wireWriteFrom.eq_def]
    dsimp only
    split
    · exact wireWriteFrom_keeps h
    · refine wireWriteFrom_keeps ?_
      split
      · exact h
      · exact lmem_keeps h (Memory.wf_set _ _)
    · split
      · refine wireWriteFrom_keeps ?_
        split
        · exact writeWord_keeps h
        · exact doorbellWrite_keeps h
      · exact wireError_keeps h

theorem wireWrite_keeps (h : Keeps a s) : Keeps a (wireWrite x1 x2 s) := by
  simp only [wireWrite]
  repeat' first
    | (with_reducible first | assumption | apply foldl_keeps | apply forFin_keeps | apply wireWriteFrom_keeps
                            | apply wireError_keeps)
    | simp only [Keeps_mk, Keeps_mk']
    | split

theorem wireReadFrom_keeps {a : State} : ∀ {f b n : Nat} {s : State}, Keeps a s → Keeps a (wireReadFrom f b n s).2
  | 0, _, _, _, h => h
  | f + 1, b, n, s, h => by
    rw [wireReadFrom]
    split
    · exact h
    split
    · exact wireReadFrom_keeps h
    · exact wireReadFrom_keeps h
    · split
      · exact wireError_keeps h
      · refine wireReadFrom_keeps ?_
        split
        · exact readWord_keeps h
        · exact h

theorem wireRead_keeps (h : Keeps a s) : Keeps a (wireRead x1 x2 s) := by
  simp only [wireRead]
  repeat' first
    | (with_reducible first | assumption | apply foldl_keeps | apply forFin_keeps | apply wireError_keeps
                            | apply wireReadFrom_keeps | apply emit_keeps)
    | simp only [Keeps_mk, Keeps_mk']
    | split

/-! ### Attach -/

theorem linkLost_keeps (h : Keeps a s) : Keeps a (linkLost s) := by
  simp +contextual only [linkLost, Keeps_mk', h]

theorem linkBack_keeps (h : Keeps a s) : Keeps a (linkBack x1 s) := by
  simp +contextual only [linkBack, Keeps_ite, Keeps_mk', msixFlush_keeps, h, implies_true, and_self]

theorem configWrite_keeps (h : Keeps a s) : Keeps a (configWrite x1 x2 x3 x4 x5 s) := by
  simp +contextual only [configWrite, Keeps_ite, Keeps_mk', msixFlush_keeps, h, implies_true, and_self]

end Sys2Proof.Machine
end

