-- ==== Sys2Proof/Laws/KeepsCommands.lean ====
section
/-! SUPPORT. `Keeps` for every operation of control commands, the scheduler and the tick. -/

-- One proof after another: the package is compiled as one text, where proofs side by side take too much memory.
set_option Elab.async false

namespace Sys2Proof.Machine

open Sys2Proof

/-! ### CmdService -/

theorem actQueryCmd_keeps (h : Keeps a s) : Keeps a (actQueryCmd x1 s) := by
  simp only [actQueryCmd]
  repeat' first
    | (with_reducible first | assumption | apply foldl_keeps | apply forFin_keeps | apply done_keeps
                            | apply refuse_keeps)
    | simp only [Keeps_mk, Keeps_mk']
    | split

theorem actTelemRefetch_keeps (h : Keeps a s) : Keeps a (actTelemRefetch x1 s) := by
  simp +contextual only [actTelemRefetch, Keeps_mk', done_keeps, h]

theorem actEventMask_keeps (h : Keeps a s) : Keeps a (actEventMask x1 s) := by
  simp only [actEventMask]
  repeat' first
    | (with_reducible first | assumption | apply foldl_keeps | apply forFin_keeps | apply done_keeps)
    | simp only [Keeps_mk]
    | split

theorem actEventLogRead_keeps (h : Keeps a s) : Keeps a (actEventLogRead x1 s) := by
  unfold actEventLogRead
  split
  · exact refuse_keeps h
  · simp only [Keeps_ite]
    exact ⟨fun _ => done_keeps (lmem_keeps h (Memory.wf_write _ _)), fun _ => ⟨fun _ => done_keeps (emit_keeps h), fun _ => refuse_keeps h⟩⟩

theorem actOcpXfer_keeps (h : Keeps a s) : Keeps a (actOcpXfer x1 s) := by
  simp +contextual only [actOcpXfer, ocpPush_keeps, h]

/-! ### CmdCadence -/

theorem actSchedInstall_keeps (h : Keeps a s) : Keeps a (actSchedInstall x1 s) := by
  simp only [actSchedInstall]
  generalize slotFirst s _ = y
  cases y with
  | none => exact refuse_keeps h
  | some y =>
    dsimp only [Option.elim]
    split
    · exact refuse_keeps h
    · exact answer_keeps (putSlot_keeps h)

theorem actSchedFree_keeps (h : Keeps a s) : Keeps a (actSchedFree x1 s) := by
  simp only [actSchedFree]
  repeat' first
    | (with_reducible first | assumption | apply foldl_keeps | apply forFin_keeps | apply done_keeps
                            | apply freeSlot_keeps | apply draw_keeps)
    | simp only [Keeps_mk, Keeps_mk']
    | split
    | dsimp only
    | (with_reducible first | refine keeps_snd (by assumption) ?_ | refine keeps_fst (by assumption) ?_)
    | intro

theorem actDomSchedule_keeps (h : Keeps a s) : Keeps a (actDomSchedule x1 s) := by
  simp only [actDomSchedule]
  repeat' first
    | (with_reducible first | assumption | apply foldl_keeps | apply forFin_keeps | apply answer_keeps
                            | apply domTake_keeps | apply broadcast_keeps | apply refuse_keeps)
    | simp only [Keeps_mk, Keeps_mk']
    | split

theorem actDomCancel_keeps (h : Keeps a s) : Keeps a (actDomCancel x1 s) := by
  simp only [actDomCancel]
  repeat' first
    | (with_reducible first | assumption | apply foldl_keeps | apply forFin_keeps | apply done_keeps
                            | apply domFree_keeps | apply broadcast_keeps)

theorem actEnumerate_keeps (h : Keeps a s) : Keeps a (actEnumerate x1 s) := by
  simp +contextual only [actEnumerate, startEnum_keeps, h]

theorem timedInstall_keeps (h : Keeps a s) : Keeps a (timedInstall x1 x2 s) := by
  simp only [timedInstall]
  generalize slotFirst s _ = y
  cases y with
  | none => exact refuse_keeps h
  | some y =>
    dsimp only [Option.elim]
    split
    · exact refuse_keeps h
    · exact answer_keeps (putSlot_keeps h)

/-! ### CmdLane -/

theorem actLaneAcquire_keeps (h : Keeps a s) : Keeps a (actLaneAcquire x1 s) := by
  simp only [actLaneAcquire]
  repeat' first
    | (with_reducible first | assumption | apply foldl_keeps | apply forFin_keeps | apply done_keeps
                            | apply hostCold_keeps | apply lineCold_keeps)
    | simp only [Keeps_mk, Keeps_mk']
    | split

theorem trainStart_keeps (h : Keeps a s) : Keeps a (trainStart x1 x2 s).1 := by
  simp only [trainStart]
  repeat' first
    | (with_reducible first | assumption | apply foldl_keeps | apply forFin_keeps | apply modTx_keeps
                            | apply refuseO_keeps | apply answer_keeps | apply trnBegin_keeps
                            | apply arbRefuse_keeps)
    | split

theorem actTrainStart_keeps (h : Keeps a s) : Keeps a (actTrainStart x1 s).1 := by
  simp only [actTrainStart]
  repeat' first
    | (with_reducible first | assumption | apply foldl_keeps | apply forFin_keeps | apply trainStart_keeps)
    | simp only [Keeps_mk, Keeps_mk']
    | split

theorem actLatMeasure_keeps (h : Keeps a s) : Keeps a (actLatMeasure x1 s) := by
  simp only [actLatMeasure]
  repeat' first
    | (with_reducible first | assumption | apply foldl_keeps | apply forFin_keeps | apply modPort_keeps
                            | apply modFr_keeps | apply latDone_keeps)
    | simp only [Keeps_mk, Keeps_mk']
    | split
    | dsimp only
    | (with_reducible first | refine keeps_snd (by assumption) ?_ | refine keeps_fst (by assumption) ?_)
    | intro

theorem actHostMsg_keeps (h : Keeps a s) : Keeps a (actHostMsg x1 s) := by
  simp only [actHostMsg]
  repeat' first
    | (with_reducible first | assumption | apply foldl_keeps | apply forFin_keeps | apply sendNext_keeps
                            | apply modFr_keeps | apply refuse_keeps)
    | simp only [Keeps_mk, Keeps_mk']
    | split

/-! ### Commands -/

theorem orConflict_keeps {r : State × Bool} (h : Keeps a r.1) : Keeps a (orConflict c r) := by
  unfold orConflict
  split
  · exact refuse_keeps h
  · exact h

theorem hostOffer_keeps (h : Keeps a s) (hr : Keeps a x3.1) : Keeps a (hostOffer x1 x2 s x3) := by
  unfold hostOffer
  split
  · exact refuse_keeps (arbRefuse_keeps h)
  · exact orConflict_keeps hr

theorem opAct_keeps (h : Keeps a s) : Keeps a (opAct x1 s) := by
  simp only [opAct]
  repeat' first
    | (with_reducible first | assumption | apply foldl_keeps | apply forFin_keeps | apply done_keeps
                            | apply actCheckRun_keeps | apply actLatMeasure_keeps
                            | apply actCalConfig_keeps | apply actCalRequest_keeps
                            | apply actTrainStart_keeps | apply actSchedInstall_keeps
                            | apply actSetMode_keeps | apply actMonSync_keeps
                            | apply actSchedFree_keeps | apply patchStart_keeps
                            | apply actMonThreshold_keeps | apply actMonConfig_keeps
                            | apply actOwnerKey_keeps | apply actBankWrite_keeps
                            | apply actEventLogRead_keeps | apply capStart_keeps | apply actPower_keeps
                            | apply swapStart_keeps | apply hostOffer_keeps
                            | apply actLaneAcquire_keeps | apply actAttest_keeps
                            | apply actBankRead_keeps | apply actCoefLoad_keeps | apply testStart_keeps
                            | apply actEnumerate_keeps | apply actCounterSelect_keeps
                            | apply actTelemRefetch_keeps | apply actThermConfig_keeps
                            | apply actPatchStage_keeps | apply actQueryCmd_keeps
                            | apply actCounterClear_keeps | apply actOcpXfer_keeps
                            | apply actDomCancel_keeps | apply actHostMsg_keeps
                            | apply actBankCopy_keeps | apply actEventMask_keeps | apply actReset_keeps
                            | apply actDomSchedule_keeps | apply actFreeze_keeps
                            | apply actShedOrder_keeps)
    | simp only [Keeps_mk, Keeps_mk']
    | split
    | dsimp only
    | (with_reducible first | refine keeps_snd (by assumption) ?_ | refine keeps_fst (by assumption) ?_)
    | intro

theorem cmdStart_keeps (h : Keeps a s) : Keeps a (cmdStart x1 s) := by
  simp only [cmdStart]
  repeat' first
    | (with_reducible first | assumption | apply foldl_keeps | apply forFin_keeps | apply timedInstall_keeps
                            | apply opAct_keeps)
    | simp only [Keeps_mk, Keeps_mk']
    | split

theorem releaseUpTo_keeps {a : State} : ∀ {k : Nat} {s : State}, Keeps a s → Keeps a (releaseUpTo k s)
  | 0, _, h => h
  | k + 1, s, h => by
    rw [releaseUpTo]
    split
    · exact h
    · exact releaseUpTo_keeps (cmdStart_keeps (modRings_keeps h))

theorem releaseHeld_keeps (h : Keeps a s) : Keeps a (releaseHeld s) := by
  simp +contextual only [releaseHeld, releaseUpTo_keeps, h]

theorem cmdAccept_keeps (h : Keeps a s) : Keeps a (cmdAccept x1 s) := by
  simp +contextual only [cmdAccept, Keeps_ite, cmdStart_keeps, modRings_keeps, h, implies_true, and_self]

theorem cmdCheck_keeps (h : Keeps a s) : Keeps a (cmdCheck x1 s) := by
  simp +contextual only [cmdCheck, Keeps_ite, cmdAccept_keeps, answer_keeps, refuse_keeps, h, implies_true, and_self]

theorem cmdOpen_keeps (h : Keeps a s) : Keeps a (cmdOpen x1 s) := by
  simp +contextual only [cmdOpen, modRings_keeps, h]

theorem submit_keeps (h : Keeps a s) : Keeps a (submit x1 x2 x3 s) := by
  simp only [submit]
  repeat' first
    | (with_reducible first | assumption | apply foldl_keeps | apply forFin_keeps | apply cmdOpen_keeps
                            | apply cmdCheck_keeps | apply releaseHeld_keeps)
    | simp only [Keeps_mk, Keeps_mk']
    | split

theorem imageDraw_keeps (h : Keeps a s) : Keeps a (imageDraw x1 s).2 := by
  simp only [imageDraw]
  repeat' first
    | (with_reducible first | assumption | apply foldl_keeps | apply forFin_keeps | apply draw_keeps)
    | simp only [Keeps_mk, Keeps_mk']
    | split

theorem fetch_keeps (h : Keeps a s) : Keeps a (fetch x1 x2 s) := by
  simp only [fetch]
  repeat' first
    | (with_reducible first | assumption | apply foldl_keeps | apply forFin_keeps | apply submit_keeps
                            | apply cmdOpen_keeps | apply modRing_keeps | apply imageDraw_keeps
                            | apply countDev_keeps | apply refuse_keeps | apply raiseLimited_keeps
                            | apply modRings_keeps)
    | simp only [Keeps_mk, Keeps_mk']
    | split

theorem recordWrite_keeps (h : Keeps a s) : Keeps a (recordWrite x1 s) := by
  simp only [recordWrite]
  repeat' first
    | (with_reducible first | assumption | apply foldl_keeps | apply forFin_keeps | apply afterCheck_keeps
                            | apply cplWrite_keeps | apply releaseHeld_keeps)

/-! ### Schedule -/

theorem trainSlot_keeps (h : Keeps a s) : Keeps a (trainSlot x1 s).1 := by
  simp only [trainSlot]
  repeat' first
    | (with_reducible first | assumption | apply foldl_keeps | apply forFin_keeps | apply refuseO_keeps
                            | apply trainStart_keeps)
    | simp only [Keeps_mk, Keeps_mk']
    | split
    | dsimp only
    | (with_reducible first | refine keeps_snd (by assumption) ?_ | refine keeps_fst (by assumption) ?_)
    | intro

theorem syncSlot_keeps (h : Keeps a s) : Keeps a (syncSlot x1 s) := by
  simp only [syncSlot]
  repeat' first
    | (with_reducible first | assumption | apply foldl_keeps | apply forFin_keeps | apply refuseO_keeps
                            | apply doneO_keeps | apply syncMons_keeps | apply answer_keeps)
    | simp only [Keeps_mk, Keeps_mk']
    | split

theorem beatPulse_keeps (h : Keeps a s) : Keeps a (beatPulse s) := by
  simp +contextual only [beatPulse, emit_keeps, h]

theorem slotAct_keeps (h : Keeps a s) : Keeps a (slotAct x1 s).1 := by
  simp only [slotAct]
  repeat' first
    | (with_reducible first | assumption | apply foldl_keeps | apply forFin_keeps | apply patchStart_keeps
                            | apply doneO_keeps | apply capStart_keeps | apply swapStart_keeps
                            | apply trainSlot_keeps | apply beatPulse_keeps | apply testStart_keeps
                            | apply syncSlot_keeps | apply resetTimed_keeps | apply actFreeze_keeps)
    | simp only [Keeps_mk, Keeps_mk']
    | split

theorem slotPresent_keeps (h : Keeps a s) : Keeps a (slotPresent x1 s) := by
  simp only [slotPresent]
  repeat' first
    | (with_reducible first | assumption | apply foldl_keeps | apply forFin_keeps | apply slotAct_keeps
                            | apply modSlot_keeps | apply arbRefuse_keeps | apply slotAdvance_keeps)
    | split
    | dsimp only
    | (with_reducible first | refine keeps_snd (by assumption) ?_ | refine keeps_fst (by assumption) ?_)
    | intro

theorem pointSlot_keeps (h : Keeps a s) : Keeps a (pointSlot x1 s) := by
  simp +contextual only [pointSlot, Keeps_ite, modSlot_keeps, slotPresent_keeps, h, implies_true, and_self]

theorem pointAction_keeps (h : Keeps a s) : Keeps a (pointAction x1 s) := by
  simp only [pointAction]
  repeat' first
    | (with_reducible first | assumption | apply foldl_keeps | apply forFin_keeps | apply pointSlot_keeps
                            | apply forFin_keeps)
    | split
    | dsimp only
    | (with_reducible first | refine keeps_snd (by assumption) ?_ | refine keeps_fst (by assumption) ?_)
    | intro

theorem represent_keeps (h : Keeps a s) : Keeps a (represent x1 s) := by
  simp +contextual only [represent, Keeps_ite, Keeps_mk', slotPresent_keeps, h, implies_true, and_self]

theorem windowOpen_keeps (h : Keeps a s) : Keeps a (windowOpen x1 s) := by
  simp only [windowOpen]
  repeat' first
    | (with_reducible first | assumption | apply foldl_keeps | apply forFin_keeps | apply tiaIssue_keeps
                            | apply modSlot_keeps | apply forFin_keeps | apply represent_keeps)
    | simp only [Keeps_mk, Keeps_mk']
    | split
    | dsimp only
    | (with_reducible first | refine keeps_snd (by assumption) ?_ | refine keeps_fst (by assumption) ?_)
    | intro

theorem windowClose_keeps (h : Keeps a s) : Keeps a (windowClose x1 s) := by
  simp only [windowClose]
  repeat' first
    | (with_reducible first | assumption | apply foldl_keeps | apply forFin_keeps | apply slotAdvance_keeps)
    | simp only [Keeps_mk, Keeps_mk']
    | split

theorem deferralDropped_keeps (h : Keeps a s) : Keeps a (deferralDropped x1 s) := by
  simp only [deferralDropped]
  repeat' first
    | (with_reducible first | assumption | apply foldl_keeps | apply forFin_keeps | apply refuseO_keeps
                            | apply slotAdvance_keeps | apply raise_keeps)
    | simp only [Keeps_mk, Keeps_mk']
    | split

theorem heldActions_keeps (h : Keeps a s) : Keeps a (heldActions s) := by
  simp only [heldActions]
  repeat' first
    | (with_reducible first | assumption | apply foldl_keeps | apply forFin_keeps | apply slotPresent_keeps
                            | apply forFin_keeps)
    | simp only [Keeps_mk, Keeps_mk']
    | split
    | dsimp only
    | (with_reducible first | refine keeps_snd (by assumption) ?_ | refine keeps_fst (by assumption) ?_)
    | intro

/-! ### Tick -/

theorem cadenceTick_keeps (h : Keeps a s) : Keeps a (cadenceTick s) := by
  simp only [cadenceTick]
  repeat' first
    | (with_reducible first | assumption | apply foldl_keeps | apply forFin_keeps | apply droneRoll_keeps
                            | apply treeRoll_keeps | apply modCad_keeps)
    | split

theorem lineTick_keeps (h : Keeps a s) : Keeps a (lineTick x1 s) := by
  simp +contextual only [lineTick, Keeps_ite, countLine_keeps, h, implies_true, and_self]

theorem hostTick_keeps (h : Keeps a s) : Keeps a (hostTick x1 s) := by
  simp only [hostTick]
  repeat' first
    | (with_reducible first | assumption | apply foldl_keeps | apply forFin_keeps | apply hostGenerate_keeps
                            | apply hostSilent_keeps | apply countHost_keeps)
    | simp only [Keeps_mk']
    | split

theorem portTick_keeps (h : Keeps a s) : Keeps a (portTick x1 s) := by
  simp +contextual only [portTick, Keeps_ite, countPort_keeps, h, implies_true, and_self]

theorem devTick_keeps (h : Keeps a s) : Keeps a (devTick s) := by
  simp +contextual only [devTick, Keeps_ite, Keeps_mk', countDev_keeps, h, implies_true, and_self]

/-- One tick: the clock goes on by one; the rest keeps. -/
theorem tick_keeps {a s : State} {c : Nat} (h : Keeps { a with clk := c } s) : Keeps { a with clk := c + 1 } (tick s) := by
  have h0 : Keeps { a with clk := c + 1 } { s with clk := s.clk + 1 } :=
    ⟨h.1, by simp [h.2], h.3, h.4, h.5, h.6, h.7, h.8, h.9⟩
  unfold tick
  extract_lets +onlyGivenNames s1 s2
  have h1 : Keeps { a with clk := c + 1 } s1 := devTick_keeps
    (forFin_keeps _ _ (fun i x hx => portTick_keeps hx) (forFin_keeps _ _ (fun i x hx => hostTick_keeps hx)
      (forFin_keeps _ _ (fun i x hx => lineTick_keeps hx) (arbTick_keeps h0))))
  clear_value s1
  have h2 : Keeps { a with clk := c + 1 } s2 := by simp only [s2, Keeps_ite, keepAlives_keeps, h1, implies_true, and_self]
  clear_value s2
  exact scrubTry_keeps (heldActions_keeps (releaseHeld_keeps (forFin_keeps _ _ (fun i x hx => framePass_keeps hx)
    (forFin_keeps _ _ (fun i x hx => offTimeout_keeps hx) h2))))

/-- The outputs of one sub-tick are put in order; those before it stay. -/
theorem rankOut_keeps (h : Keeps a s) (k : x1 = a.out.length) : Keeps a (rankOut x1 s) := by
  obtain ⟨o, ho⟩ := h.out
  refine ⟨h.1, h.2, h.3, h.4, h.5, ⟨(s.out.drop x1).foldr rankPut [], ?_⟩, h.7, h.8, h.9⟩
  simp only [rankOut]
  rw [ho, k, List.take_left]

/-- One sub-tick: time goes on by one sub-tick; the rest keeps. -/
theorem subTick_keeps (s : State) :
    Keeps { s with clk := if s.sub < 7 then s.clk else s.clk + 1, sub := if s.sub < 7 then s.sub + 1 else 0 } (subTick s) := by
  have h : Keeps s (cadenceTick s) := cadenceTick_keeps (Keeps.refl s)
  unfold subTick
  extract_lets +onlyGivenNames k s1
  have h : Keeps s s1 := h
  clear_value s1
  refine rankOut_keeps ?_ rfl
  have e := h.8
  by_cases hs : s.sub < 7
  · rw [if_pos hs, if_pos hs, if_pos (e ▸ hs)]
    exact ⟨h.1, h.2, h.3, h.4, h.5, h.6, h.7, by simp [e], h.9⟩
  · rw [if_neg hs, if_neg hs, if_neg (e ▸ hs)]
    have := tick_keeps (a := { s with sub := 0 }) (c := s.clk) (s := { s1 with sub := 0 })
      ⟨h.1, h.2, h.3, h.4, h.5, h.6, h.7, rfl, h.9⟩
    exact this

end Sys2Proof.Machine
end

