-- ==== Sys2Proof/Laws/Loops.lean ====
section
/-! SUPPORT. Loops over instances: what an operation on every instance in turn leaves of one component of the state. -/

-- One proof after another: the package is compiled as one text, where proofs side by side take too much memory.
set_option Elab.async false

namespace Sys2Proof.Machine

open Sys2Proof

theorem foldl_same {α β} (l : List β) (f : State → β → State) (π : State → α) (C : State → Prop) (hC : ∀ j s, C s → C (f s j))
  (h : ∀ j ∈ l, ∀ s, C s → π (f s j) = π s) : ∀ s, C s → π (l.foldl f s) = π s ∧ C (l.foldl f s) := by
  induction l with
  | nil => intro s hs; exact ⟨rfl, hs⟩
  | cons x t ih =>
    intro s hs
    have := ih (fun j hj => h j (List.mem_cons_of_mem _ hj)) (f s x) (hC x s hs)
    rw [List.foldl_cons]
    exact ⟨this.1.trans (h x (List.mem_cons_self ..) s hs), this.2⟩

theorem forFin_at {n} {α} (f : Fin n → State → State) (π : State → α) (i : Fin n) (C : State → Prop) (hC : ∀ j s, C s → C (f j s))
  (hne : ∀ j s, C s → j ≠ i → π (f j s) = π s) (P : α → α → Prop) (hi : ∀ s, C s → P (π s) (π (f i s))) (s : State) (hs : C s) :
  P (π s) (π (forFin n f s)) := by
  unfold forFin
  obtain ⟨l1, l2, e⟩ := List.append_of_mem (List.mem_finRange i)
  have nd : (l1 ++ i :: l2).Nodup := e ▸ List.nodup_finRange n
  rw [e, List.foldl_append, List.foldl_cons]
  have a := foldl_same l1 (fun s i => f i s) π C (fun j s => hC j s) (fun j hj s hs => hne j s hs (by
    rintro rfl; exact (List.nodup_append.1 nd).2.2 j hj j (List.mem_cons_self ..) rfl)) s hs
  have b := foldl_same l2 (fun s i => f i s) π C (fun j s => hC j s) (fun j hj s hs => hne j s hs (by
    rintro rfl; exact (List.nodup_cons.1 (List.nodup_append.1 nd).2.1).1 hj)) (f i (l1.foldl (fun s i => f i s) s)) (hC _ _ a.2)
  rw [b.1, ← a.1]
  exact hi _ a.2

theorem forFin_same {n} {α} (f : Fin n → State → State) (π : State → α) (h : ∀ j s, π (f j s) = π s) (s : State) : π (forFin n f s) = π s :=
  (foldl_same _ _ π (fun _ => True) (fun _ _ _ => trivial) (fun j _ s _ => h j s) s trivial).1

theorem forFin_keep {n} (f : Fin n → State → State) (C : State → Prop) (hC : ∀ j s, C s → C (f j s)) (s : State) (hs : C s) : C (forFin n f s) :=
  (foldl_same (List.finRange n) (fun s i => f i s) (fun _ => ()) C (fun j s => hC j s) (fun _ _ _ _ => rfl) s hs).2

end Sys2Proof.Machine
end

