-- ==== Sys2Proof/Laws/Only.lean ====
section
/-! SUPPORT. `Only ps a b`: nothing but the parts ps differs. What holds for updates, loops and reports; one lemma per
operation of the machine follows in the Only files, with the parts that the operation may write as its hypotheses. -/

-- One proof after another: the package is compiled as one text, where proofs side by side take too much memory.
set_option Elab.async false

namespace Sys2Proof.Machine

open Sys2Proof

/-- Nothing but the named parts changes: `OnlyChanges` as a structure, so that no tactic opens it. -/
structure Only (ps : List Part) (a b : State) : Prop where
  only : OnlyChanges ps a b

theorem Only.refl (ps : List Part) (a : State) : Only ps a a := ⟨OnlyChanges.refl ps a⟩

theorem Only.of {ps qs : List Part} {a s t : State} (h : Only ps a s) (k : OnlyChanges qs s t) (w : ∀ p ∈ qs, p ∈ ps) :
    Only ps a t := ⟨OnlyChanges.trans h.only (OnlyChanges.mono k w)⟩

theorem Only.mono {ps qs : List Part} {a b : State} (h : Only ps a b) (w : ∀ p ∈ ps, p ∈ qs) : Only qs a b :=
  ⟨OnlyChanges.mono h.only w⟩

theorem Only_ite {ps : List Part} {a b d : State} (c : Prop) [Decidable c] :
    Only ps a (if c then b else d) ↔ (c → Only ps a b) ∧ (¬c → Only ps a d) := by split <;> simp [*]

theorem OnlyChanges.symm {ps : List Part} {a b : State} (h : OnlyChanges ps a b) : OnlyChanges ps b a := by
  intro p hp
  have k := h p hp
  cases p <;> simp only [Part.same] at *
  case cad => rw [← k]
  all_goals simp only [k, and_self]

/-- An update of fields whose parts are named. -/
theorem only_mk {ps : List Part} {a s : State}
    (h2 : x2 = s.free ∨ Part.free ∈ ps) (h5 : x5 = s.out ∨ Part.out ∈ ps) (h6 : x6 = s.setup ∨ Part.setup ∈ ps)
    (h7 : x7 = s.shadow ∨ Part.setup ∈ ps) (h8 : x8 = s.viol ∨ Part.viol ∈ ps) (h9 : x9 = s.hiPcie ∨ Part.latches ∈ ps)
    (h10 : x10 = s.hiWire ∨ Part.latches ∈ ps) (h11 : x11 = s.straps ∨ Part.straps ∈ ps)
    (h12 : x12 = s.pcie ∨ Part.pcie ∈ ps) (h13 : x13 = s.refOk ∨ Part.refClock ∈ ps)
    (h14 : x14 = s.hkoOk ∨ Part.hkClock ∈ ps) (h15 : x15 = s.refLostAt ∨ Part.refClock ∈ ps)
    (h16 : x16 = s.pllAt ∨ Part.refClock ∈ ps) (h17 : x17 = s.rings ∨ Part.rings ∈ ps) (h18 : x18 = s.evt ∨ Part.evt ∈ ps)
    (h19 : x19 = s.tlm ∨ Part.tlm ∈ ps) (h20 : x20 = s.lmem ∨ Part.lmem ∈ ps)
    (h21 : x21 = s.cad ∨ Part.cad ∈ ps ∧ Part.own ∈ ps) (h22 : x22 = s.lines ∨ Part.lines ∈ ps)
    (h23 : x23 = s.hosts ∨ Part.hosts ∈ ps) (h24 : x24 = s.ports ∨ Part.ports ∈ ps)
    (h25 : x25 = s.lineCtr ∨ Part.counters ∈ ps) (h26 : x26 = s.hostCtr ∨ Part.counters ∈ ps)
    (h27 : x27 = s.portCtr ∨ Part.counters ∈ ps) (h28 : x28 = s.pmc ∨ Part.counters ∈ ps)
    (h29 : x29 = s.mon ∨ Part.mon ∈ ps) (h30 : x30 = s.comp ∨ Part.comp ∈ ps) (h31 : x31 = s.thr ∨ Part.thr ∈ ps)
    (h32 : x32 = s.therm ∨ Part.therm ∈ ps) (h33 : x33 = s.cal ∨ Part.cal ∈ ps) (h34 : x34 = s.arb ∨ Part.arb ∈ ps)
    (h35 : x35 = s.chk ∨ Part.chk ∈ ps) (h36 : x36 = s.tst ∨ Part.tst ∈ ps) (h37 : x37 = s.rst ∨ Part.rst ∈ ps)
    (h38 : x38 = s.saved ∨ Part.saved ∈ ps) (h39 : x39 = s.ocp ∨ Part.ocp ∈ ps) (h40 : x40 = s.late ∨ Part.rst ∈ ps)
    (h41 : x41 = s.cap ∨ Part.captures ∈ ps) (h42 : x42 = s.scans ∨ Part.captures ∈ ps) :
    Only ps a (State.mk s.pending x2 s.clk s.sub x5 x6 x7 x8 x9 x10 x11 x12 x13 x14 x15 x16 x17 x18 x19 x20 x21 x22 x23 x24 x25 x26
      x27 x28 x29 x30 x31 x32 x33 x34 x35 x36 x37 x38 x39 x40 x41 x42) ↔ Only ps a s := by
  have k : OnlyChanges ps s (State.mk s.pending x2 s.clk s.sub x5 x6 x7 x8 x9 x10 x11 x12 x13 x14 x15 x16 x17 x18 x19 x20 x21 x22 x23 x24 x25 x26
      x27 x28 x29 x30 x31 x32 x33 x34 x35 x36 x37 x38 x39 x40 x41 x42) := by
    intro p hp
    cases p <;> simp_all [Part.same]
  exact ⟨fun h => ⟨OnlyChanges.trans h.only (OnlyChanges.symm k)⟩, fun h => ⟨OnlyChanges.trans h.only k⟩⟩

theorem only_snd {ps : List Part} {a : State} {α : Type} {p : α × State} {x : α} {t : State} (e : p = (x, t)) (h : Only ps a p.2) :
    Only ps a t := by subst e; exact h

theorem only_fst {ps : List Part} {a : State} {α : Type} {p : State × α} {x : α} {t : State} (e : p = (t, x)) (h : Only ps a p.1) :
    Only ps a t := by subst e; exact h

theorem foldl_only {ps : List Part} {a s : State} {α : Type} (l : List α) (f : State → α → State)
    (hf : ∀ i x, Only ps a x → Only ps a (f x i)) (h : Only ps a s) : Only ps a (l.foldl f s) := by
  induction l generalizing s with
  | nil => exact h
  | cons i l ih => exact ih (hf i s h)

theorem foldl_fst_only {ps : List Part} {a : State} {α β : Type} (l : List α) (f : State × β → α → State × β)
    (hf : ∀ i x, Only ps a x.1 → Only ps a (f x i).1) {z : State × β} (h : Only ps a z.1) : Only ps a (l.foldl f z).1 := by
  induction l generalizing z with
  | nil => exact h
  | cons i l ih => exact ih (hf i z h)

theorem foldl_snd_only {ps : List Part} {a : State} {α β : Type} (l : List α) (f : β × State → α → β × State)
    (hf : ∀ i x, Only ps a x.2 → Only ps a (f x i).2) {z : β × State} (h : Only ps a z.2) : Only ps a (l.foldl f z).2 := by
  induction l generalizing z with
  | nil => exact h
  | cons i l ih => exact ih (hf i z h)

theorem forFin_only {ps : List Part} {a s : State} (n : Nat) (f : Fin n → State → State)
    (hf : ∀ i x, Only ps a x → Only ps a (f i x)) (h : Only ps a s) : Only ps a (forFin n f s) := by
  unfold forFin; exact foldl_only _ _ hf h

theorem regSet_only (h : Only ps a s) (p1 : Part.setup ∈ ps := by assumption) : Only ps a (regSet x1 x2 s) := by
  refine h.of (qs := [.setup]) (Machine.regSet_changes x1 x2 s) (by simpa using p1)

theorem reports_only {ps : List Part} {a s t : State} (h : Only ps a s) (k : Reports s t) (p1 : Part.evt ∈ ps) (p2 : Part.own ∈ ps)
    (p3 : Part.counters ∈ ps) : Only ps a t :=
  h.of k.onlyChanges (by simp [reports, p1, p2, p3])

theorem noteOwn_only (h : Only ps a s) (p1 : Part.own ∈ ps := by assumption) : Only ps a (noteOwn x1 x2 s) := by
  refine h.of (qs := [.own]) (fun p hp => ?_) (by simpa using p1)
  unfold noteOwn modCad
  cases p <;> simp_all [Part.same]

theorem raise_only (h : Only ps a s) (p1 : Part.evt ∈ ps := by assumption) (p2 : Part.own ∈ ps := by assumption)
    (p3 : Part.counters ∈ ps := by assumption) : Only ps a (raise x1 x2 s) := reports_only h (raise_reports _ _ _) p1 p2 p3

theorem raiseLimited_only (h : Only ps a s) (p1 : Part.evt ∈ ps := by assumption) (p2 : Part.own ∈ ps := by assumption)
    (p3 : Part.counters ∈ ps := by assumption) : Only ps a (raiseLimited x1 x2 x3 s) :=
  reports_only h (raiseLimited_reports _ _ _ _) p1 p2 p3

theorem lmem_only (h : Only ps a s) (p1 : Part.lmem ∈ ps := by assumption) : Only ps a { s with lmem := m } := by
  simp only [only_mk, h, true_or, or_true, and_self, p1]

end Sys2Proof.Machine
end

