-- ==== Sys2Proof/Laws/OnlyOps.lean ====
section
/-! SUPPORT. `Only` for every operation of shared operations, rings, slots, monitors that does not reach every part. -/

-- One proof after another: the package is compiled as one text, where proofs side by side take too much memory.
set_option Elab.async false

namespace Sys2Proof.Machine

open Sys2Proof

/-! ### Ops -/

theorem emit_only (h : Only ps a s) (p1 : Part.out ∈ ps := by assumption) : Only ps a (emit x1 s) := by
  simp +contextual only [emit, only_mk, h, true_or, or_true, p1]

theorem draw_only (h : Only ps a s) (p1 : Part.free ∈ ps := by assumption) : Only ps a (draw s).2 := by
  simp +contextual only [draw, only_mk, h, true_or, or_true, p1]

theorem modLine_only (h : Only ps a s) (p1 : Part.lines ∈ ps := by assumption) : Only ps a (modLine x1 x2 s) := by
  simp +contextual only [modLine, only_mk, h, true_or, or_true, p1]

theorem modHost_only (h : Only ps a s) (p1 : Part.hosts ∈ ps := by assumption) : Only ps a (modHost x1 x2 s) := by
  simp +contextual only [modHost, only_mk, h, true_or, or_true, p1]

theorem modPort_only (h : Only ps a s) (p1 : Part.ports ∈ ps := by assumption) : Only ps a (modPort x1 x2 s) := by
  simp +contextual only [modPort, only_mk, h, true_or, or_true, p1]

theorem modMon_only (h : Only ps a s) (p1 : Part.mon ∈ ps := by assumption) : Only ps a (modMon x1 x2 s) := by
  simp +contextual only [modMon, only_mk, h, true_or, or_true, p1]

theorem modRx_only (h : Only ps a s) (p1 : Part.lines ∈ ps := by assumption) : Only ps a (modRx x1 x2 s) := by
  simp +contextual only [modRx, modLine_only, h, p1]

theorem modEq_only (h : Only ps a s) (p1 : Part.lines ∈ ps := by assumption) : Only ps a (modEq x1 x2 s) := by
  simp +contextual only [modEq, modLine_only, h, p1]

theorem modTx_only (h : Only ps a s) (p1 : Part.lines ∈ ps := by assumption) : Only ps a (modTx x1 x2 s) := by
  simp +contextual only [modTx, modLine_only, h, p1]

theorem modFr_only (h : Only ps a s) (p1 : Part.lines ∈ ps := by assumption) : Only ps a (modFr x1 x2 s) := by
  simp +contextual only [modFr, modLine_only, h, p1]

theorem modCad_only (h : Only ps a s) (p1 : Part.cad ∈ ps := by assumption) (p2 : Part.own ∈ ps := by assumption) : Only ps
    a (modCad x1 s) := by
  simp +contextual only [modCad, only_mk, h, true_or, or_true, and_self, p1, p2]

theorem modRst_only (h : Only ps a s) (p1 : Part.rst ∈ ps := by assumption) : Only ps a (modRst x1 s) := by
  simp +contextual only [modRst, only_mk, h, true_or, or_true, p1]

theorem modTst_only (h : Only ps a s) (p1 : Part.tst ∈ ps := by assumption) : Only ps a (modTst x1 s) := by
  simp +contextual only [modTst, only_mk, h, true_or, or_true, p1]

theorem modCal_only (h : Only ps a s) (p1 : Part.cal ∈ ps := by assumption) : Only ps a (modCal x1 s) := by
  simp +contextual only [modCal, only_mk, h, true_or, or_true, p1]

theorem modChk_only (h : Only ps a s) (p1 : Part.chk ∈ ps := by assumption) : Only ps a (modChk x1 s) := by
  simp +contextual only [modChk, only_mk, h, true_or, or_true, p1]

theorem modTherm_only (h : Only ps a s) (p1 : Part.therm ∈ ps := by assumption) : Only ps a (modTherm x1 s) := by
  simp +contextual only [modTherm, only_mk, h, true_or, or_true, p1]

theorem modRings_only (h : Only ps a s) (p1 : Part.rings ∈ ps := by assumption) : Only ps a (modRings x1 s) := by
  simp +contextual only [modRings, only_mk, h, true_or, or_true, p1]

theorem modLink_only (h : Only ps a s) (p1 : Part.cad ∈ ps := by assumption) (p2 : Part.own ∈ ps := by assumption) : Only ps
    a (modLink x1 x2 s) := by
  simp +contextual only [modLink, modCad_only, h, p1, p2]

theorem modSlot_only (h : Only ps a s) (p1 : Part.cad ∈ ps := by assumption) (p2 : Part.own ∈ ps := by assumption) : Only ps
    a (modSlot x1 x2 s) := by
  simp +contextual only [modSlot, modCad_only, h, p1, p2]

theorem modSens_only (h : Only ps a s) (p1 : Part.therm ∈ ps := by assumption) : Only ps a (modSens x1 x2 s) := by
  simp +contextual only [modSens, modTherm_only, h, p1]

theorem modRing_only (h : Only ps a s) (p1 : Part.rings ∈ ps := by assumption) : Only ps a (modRing x1 x2 s) := by
  simp only [modRing]
  repeat' first
    | (with_reducible first | assumption | apply foldl_only | apply forFin_only | apply modRings_only)
    | simp only [only_mk, true_or, or_true, and_self, p1]
    | split

theorem countLine_only (h : Only ps a s) (p1 : Part.counters ∈ ps := by assumption) : Only ps a (countLine x1 x2 x3 s) := by
  simp +contextual only [countLine, Only_ite, only_mk, h, implies_true, true_or, or_true, and_self, p1]

theorem countHost_only (h : Only ps a s) (p1 : Part.counters ∈ ps := by assumption) : Only ps a (countHost x1 x2 x3 s) := by
  simp +contextual only [countHost, Only_ite, only_mk, h, implies_true, true_or, or_true, and_self, p1]

theorem countPort_only (h : Only ps a s) (p1 : Part.counters ∈ ps := by assumption) : Only ps a (countPort x1 x2 x3 s) := by
  simp +contextual only [countPort, Only_ite, only_mk, h, implies_true, true_or, or_true, and_self, p1]

theorem countDev_only (h : Only ps a s) (p1 : Part.counters ∈ ps := by assumption) : Only ps a (countDev x1 x2 s) := by
  simp only [countDev]
  repeat' first
    | (with_reducible first | assumption | apply foldl_only | apply forFin_only)
    | simp only [only_mk, true_or, or_true, p1]
    | split
    | dsimp only
    | (with_reducible first | refine only_snd (by assumption) ?_ | refine only_fst (by assumption) ?_)
    | intro

theorem noteLine_only (h : Only ps a s) (p1 : Part.counters ∈ ps := by assumption) : Only ps a (noteLine x1 s) := by
  simp +contextual only [noteLine, Only_ite, only_mk, forFin_only, foldl_only, h, implies_true, true_or, or_true, and_self,
    p1]

theorem notePort_only (h : Only ps a s) (p1 : Part.counters ∈ ps := by assumption) : Only ps a (notePort x1 s) := by
  simp +contextual only [notePort, Only_ite, only_mk, forFin_only, foldl_only, h, implies_true, true_or, or_true, and_self,
    p1]

theorem logEvent_only (h : Only ps a s) (p1 : Part.evt ∈ ps := by assumption) : Only ps a (logEvent x1 x2 x3 s) := by
  simp +contextual only [logEvent, only_mk, h, true_or, or_true, p1]

theorem countSource_only (h : Only ps a s) (p1 : Part.counters ∈ ps := by assumption) : Only ps a (countSource x1 s) := by
  simp +contextual only [countSource, Only_ite, countHost_only, countLine_only, countDev_only, h, implies_true, and_self,
    p1]

theorem tlmTrim_only (h : Only ps a s) (p1 : Part.evt ∈ ps := by assumption) (p2 : Part.tlm ∈ ps := by assumption) (p3 :
    Part.own ∈ ps := by assumption) (p4 : Part.counters ∈ ps := by assumption) : Only ps a (tlmTrim s) := by
  simp +contextual only [tlmTrim, Only_ite, only_mk, raise_only, h, implies_true, true_or, or_true, and_self, p1, p2, p3,
    p4]

theorem tlmForm_only (h : Only ps a s) (p1 : Part.rings ∈ ps := by assumption) (p2 : Part.evt ∈ ps := by assumption) (p3 :
    Part.tlm ∈ ps := by assumption) (p4 : Part.own ∈ ps := by assumption) (p5 : Part.counters ∈ ps := by assumption) : Only ps a
    (tlmForm x1 x2 x3 x4 x5 x6 x7 s).1 := by
  simp only [tlmForm]
  repeat' first
    | (with_reducible first | assumption | apply foldl_only | apply forFin_only | apply modRing_only
                            | apply tlmTrim_only | apply raise_only)
    | simp only [only_mk, true_or, or_true, p1, p2, p3, p4, p5]
    | split

theorem outcome_only (h : Only ps a s) (p1 : Part.rings ∈ ps := by assumption) : Only ps a (outcome x1 x2 x3 x4 x5 s) := by
  simp +contextual only [outcome, modRings_only, h, p1]

theorem cplLimit_only (h : Only ps a s) (p1 : Part.rings ∈ ps := by assumption) (p2 : Part.evt ∈ ps := by assumption) (p3 :
    Part.own ∈ ps := by assumption) (p4 : Part.counters ∈ ps := by assumption) : Only ps a (cplLimit s) := by
  simp only [cplLimit]
  repeat' first
    | (with_reducible first | assumption | apply foldl_only | apply forFin_only | apply raise_only
                            | apply modRings_only)
    | simp only [only_mk, true_or, or_true, and_self, p1, p2, p3, p4]
    | split

theorem answer_only (h : Only ps a s) (p1 : Part.rings ∈ ps := by assumption) (p2 : Part.evt ∈ ps := by assumption) (p3 :
    Part.own ∈ ps := by assumption) (p4 : Part.counters ∈ ps := by assumption) : Only ps a (answer x1 x2 x3 x4 x5 s) := by
  simp only [answer]
  repeat' first
    | (with_reducible first | assumption | apply foldl_only | apply forFin_only | apply cplLimit_only
                            | apply outcome_only | apply modRings_only)
    | simp only [only_mk, true_or, or_true, and_self, p1, p2, p3, p4]
    | split

theorem done_only (h : Only ps a s) (p1 : Part.rings ∈ ps := by assumption) (p2 : Part.evt ∈ ps := by assumption) (p3 :
    Part.own ∈ ps := by assumption) (p4 : Part.counters ∈ ps := by assumption) : Only ps a (done x1 x2 s) := by
  simp +contextual only [done, answer_only, h, p1, p2, p3, p4]

theorem refuse_only (h : Only ps a s) (p1 : Part.rings ∈ ps := by assumption) (p2 : Part.evt ∈ ps := by assumption) (p3 :
    Part.own ∈ ps := by assumption) (p4 : Part.counters ∈ ps := by assumption) : Only ps a (refuse x1 x2 s) := by
  simp +contextual only [refuse, answer_only, h, p1, p2, p3, p4]

theorem aerNote_only (h : Only ps a s) (p1 : Part.pcie ∈ ps := by assumption) : Only ps a (aerNote x1 s) := by
  simp +contextual only [aerNote, Only_ite, only_mk, forFin_only, foldl_only, h, implies_true, true_or, or_true, and_self,
    p1]

/-! ### Operands -/

theorem arbRefuse_only (h : Only ps a s) (p1 : Part.evt ∈ ps := by assumption) (p2 : Part.own ∈ ps := by assumption) (p3 :
    Part.counters ∈ ps := by assumption) (p4 : Part.arb ∈ ps := by assumption) : Only ps a (arbRefuse x1 x2 s) := by
  simp only [arbRefuse]
  repeat' first
    | (with_reducible first | assumption | apply foldl_only | apply forFin_only | apply countDev_only
                            | apply raiseLimited_only)
    | simp only [only_mk, true_or, or_true, p1, p2, p3, p4]

theorem arbAdmitOf_only (h : Only ps a s) (p1 : Part.arb ∈ ps := by assumption) : Only ps a (arbAdmitOf x1 x2 x3 s) := by
  simp +contextual only [arbAdmitOf, Only_ite, only_mk, forFin_only, foldl_only, h, implies_true, true_or, or_true,
    and_self, p1]

theorem arbAdmit_only (h : Only ps a s) (p1 : Part.arb ∈ ps := by assumption) : Only ps a (arbAdmit x1 x2 s) := by
  simp +contextual only [arbAdmit, only_mk, arbAdmitOf_only, h, true_or, or_true, p1]

theorem arbTick_only (h : Only ps a s) (p1 : Part.arb ∈ ps := by assumption) : Only ps a (arbTick s) := by
  simp +contextual only [arbTick, only_mk, h, true_or, or_true, p1]

theorem arbPresentOf_only (h : Only ps a s) (p1 : Part.evt ∈ ps := by assumption) (p2 : Part.own ∈ ps := by assumption) (p3
    : Part.counters ∈ ps := by assumption) (p4 : Part.arb ∈ ps := by assumption) : Only ps a (arbPresentOf x1 x2 x3 s).1 := by
  simp only [arbPresentOf]
  repeat' first
    | (with_reducible first | assumption | apply foldl_only | apply forFin_only | apply arbAdmitOf_only
                            | apply arbRefuse_only)
    | simp only [only_mk, true_or, or_true, and_self, p1, p2, p3, p4]
    | split
    | dsimp only
    | (with_reducible first | refine only_snd (by assumption) ?_ | refine only_fst (by assumption) ?_)
    | intro

theorem arbPresent_only (h : Only ps a s) (p1 : Part.evt ∈ ps := by assumption) (p2 : Part.own ∈ ps := by assumption) (p3 :
    Part.counters ∈ ps := by assumption) (p4 : Part.arb ∈ ps := by assumption) : Only ps a (arbPresent x1 x2 s).1 := by
  simp +contextual only [arbPresent, Only_ite, only_mk, forFin_only, foldl_only, arbPresentOf_only, h, implies_true,
    true_or, or_true, p1, p2, p3, p4]

theorem arbOffer_only (h : Only ps a s) (p1 : Part.evt ∈ ps := by assumption) (p2 : Part.own ∈ ps := by assumption) (p3 :
    Part.counters ∈ ps := by assumption) (p4 : Part.arb ∈ ps := by assumption) : Only ps a (arbOffer x1 x2 x3 s).1 := by
  simp only [arbOffer]
  repeat' first
    | (with_reducible first | assumption | apply foldl_only | apply forFin_only | apply arbPresentOf_only
                            | apply arbRefuse_only)
    | simp only [only_mk, true_or, or_true, and_self, p1, p2, p3, p4]
    | split
    | dsimp only
    | (with_reducible first | refine only_snd (by assumption) ?_ | refine only_fst (by assumption) ?_)
    | intro

theorem arbEnd_only (h : Only ps a s) (p1 : Part.arb ∈ ps := by assumption) : Only ps a (arbEnd x1 x2 s) := by
  simp +contextual only [arbEnd, only_mk, h, true_or, or_true, p1]

/-! ### Rings -/

theorem tlmOffer_only (h : Only ps a s) (p1 : Part.rings ∈ ps := by assumption) (p2 : Part.tlm ∈ ps := by assumption) : Only
    ps a (tlmOffer s) := by
  simp only [tlmOffer]
  repeat' first
    | (with_reducible first | assumption | apply foldl_only | apply forFin_only | apply modRing_only)
    | simp only [only_mk, true_or, or_true, p1, p2]
    | split
    | dsimp only
    | (with_reducible first | refine only_snd (by assumption) ?_ | refine only_fst (by assumption) ?_)
    | intro

theorem drainStop_only (h : Only ps a s) (p1 : Part.tlm ∈ ps := by assumption) (p2 : Part.mon ∈ ps := by assumption) : Only
    ps a (drainStop x1 s) := by
  simp +contextual only [drainStop, Only_ite, only_mk, forFin_only, foldl_only, modMon_only, h, implies_true, true_or,
    or_true, and_self, p1, p2]

theorem drainAll_only (h : Only ps a s) (p1 : Part.mon ∈ ps := by assumption) : Only ps a (drainAll s) := by
  simp +contextual only [drainAll, Only_ite, only_mk, forFin_only, foldl_only, h, implies_true, true_or, or_true, and_self,
    p1]

theorem ringStart_only (h : Only ps a s) (p1 : Part.setup ∈ ps := by assumption) (p2 : Part.rings ∈ ps := by assumption) (p3
    : Part.evt ∈ ps := by assumption) (p4 : Part.tlm ∈ ps := by assumption) (p5 : Part.own ∈ ps := by assumption) (p6 :
    Part.counters ∈ ps := by assumption) (p7 : Part.mon ∈ ps := by assumption) : Only ps a (ringStart x1 s) := by
  simp only [ringStart]
  repeat' first
    | (with_reducible first | assumption | apply foldl_only | apply forFin_only | apply drainAll_only
                            | apply tlmOffer_only | apply modRing_only | apply regSet_only
                            | apply raise_only)
    | simp only [only_mk, true_or, or_true, and_self, p1, p2, p3, p4, p5, p6, p7]
    | split
    | dsimp only
    | (with_reducible first | refine only_snd (by assumption) ?_ | refine only_fst (by assumption) ?_)
    | intro

theorem ringStop_only (h : Only ps a s) (p1 : Part.setup ∈ ps := by assumption) (p2 : Part.rings ∈ ps := by assumption) (p3
    : Part.tlm ∈ ps := by assumption) (p4 : Part.mon ∈ ps := by assumption) : Only ps a (ringStop x1 s) := by
  simp only [ringStop]
  repeat' first
    | (with_reducible first | assumption | apply foldl_only | apply forFin_only | apply tlmOffer_only
                            | apply modRing_only | apply regSet_only | apply drainStop_only)
    | simp only [only_mk, true_or, or_true, p1, p2, p3, p4]
    | split
    | dsimp only
    | (with_reducible first | refine only_snd (by assumption) ?_ | refine only_fst (by assumption) ?_)
    | intro

theorem violation_only (h : Only ps a s) (p1 : Part.viol ∈ ps := by assumption) (p2 : Part.evt ∈ ps := by assumption) (p3 :
    Part.own ∈ ps := by assumption) (p4 : Part.counters ∈ ps := by assumption) : Only ps a (violation x1 s) := by
  simp +contextual only [violation, only_mk, raise_only, h, true_or, or_true, p1, p2, p3, p4]

theorem writeSetup_only (h : Only ps a s) (p1 : Part.setup ∈ ps := by assumption) (p2 : Part.viol ∈ ps := by assumption) (p3
    : Part.evt ∈ ps := by assumption) (p4 : Part.own ∈ ps := by assumption) (p5 : Part.counters ∈ ps := by assumption) : Only ps
    a (writeSetup x1 x2 s) := by
  unfold writeSetup
  split
  · exact h
  simp only [Only_ite]
  exact ⟨fun _ => violation_only (regSet_only h), fun _ => regSet_only h⟩

theorem writeRingCfg_only (h : Only ps a s) (p1 : Part.setup ∈ ps := by assumption) (p2 : Part.viol ∈ ps := by assumption)
    (p3 : Part.rings ∈ ps := by assumption) (p4 : Part.evt ∈ ps := by assumption) (p5 : Part.tlm ∈ ps := by assumption) (p6 :
    Part.own ∈ ps := by assumption) (p7 : Part.counters ∈ ps := by assumption) (p8 : Part.mon ∈ ps := by assumption) : Only ps a
    (writeRingCfg x1 x2 s) := by
  simp +contextual only [writeRingCfg, Only_ite, ringStart_only, ringStop_only, writeSetup_only, modRings_only, h,
    implies_true, and_self, p1, p2, p3, p4, p5, p6, p7, p8]

theorem doorbellBad_only (h : Only ps a s) (p1 : Part.evt ∈ ps := by assumption) (p2 : Part.own ∈ ps := by assumption) (p3 :
    Part.counters ∈ ps := by assumption) : Only ps a (doorbellBad x1 x2 s) := by
  simp +contextual only [doorbellBad, raise_only, h, p1, p2, p3]

theorem ringCmdDb_only (h : Only ps a s) (p1 : Part.rings ∈ ps := by assumption) (p2 : Part.evt ∈ ps := by assumption) (p3 :
    Part.own ∈ ps := by assumption) (p4 : Part.counters ∈ ps := by assumption) : Only ps a (ringCmdDb x1 x2 s) := by
  simp +contextual only [ringCmdDb, Only_ite, modRing_only, countDev_only, doorbellBad_only, h, implies_true, and_self, p1,
    p2, p3, p4]

theorem ringConsDb_only (h : Only ps a s) (p1 : Part.rings ∈ ps := by assumption) (p2 : Part.evt ∈ ps := by assumption) (p3
    : Part.own ∈ ps := by assumption) (p4 : Part.counters ∈ ps := by assumption) : Only ps a (ringConsDb x1 x2 s) := by
  simp +contextual only [ringConsDb, Only_ite, modRing_only, countDev_only, doorbellBad_only, h, implies_true, and_self, p1,
    p2, p3, p4]

theorem ringTlmAck_only (h : Only ps a s) (p1 : Part.rings ∈ ps := by assumption) (p2 : Part.evt ∈ ps := by assumption) (p3
    : Part.tlm ∈ ps := by assumption) (p4 : Part.own ∈ ps := by assumption) (p5 : Part.counters ∈ ps := by assumption) : Only ps
    a (ringTlmAck x1 x2 s) := by
  simp +contextual only [ringTlmAck, Only_ite, only_mk, modRing_only, countDev_only, doorbellBad_only, h, implies_true,
    true_or, or_true, and_self, p1, p2, p3, p4, p5]

theorem doorbellWrite_only (h : Only ps a s) (p1 : Part.rings ∈ ps := by assumption) (p2 : Part.evt ∈ ps := by assumption)
    (p3 : Part.tlm ∈ ps := by assumption) (p4 : Part.own ∈ ps := by assumption) (p5 : Part.counters ∈ ps := by assumption) :
    Only ps a (doorbellWrite x1 x2 s) := by
  simp only [doorbellWrite]
  repeat' first
    | (with_reducible first | assumption | apply foldl_only | apply forFin_only | apply ringCmdDb_only
                            | apply ringTlmAck_only | apply ringConsDb_only)
    | simp only [only_mk, true_or, or_true, and_self, p1, p2, p3, p4, p5]
    | split

theorem ringWrite_only (h : Only ps a s) (p1 : Part.out ∈ ps := by assumption) (p2 : Part.lmem ∈ ps := by assumption) : Only
    ps a (ringWrite x1 x2 x3 s) := by
  simp +contextual only [ringWrite, Only_ite, only_mk, emit_only, h, implies_true, true_or, or_true, and_self, p1, p2]

theorem msix_only (h : Only ps a s) (p1 : Part.out ∈ ps := by assumption) (p2 : Part.pcie ∈ ps := by assumption) : Only ps a
    (msix x1 s) := by
  simp +contextual only [msix, Only_ite, only_mk, emit_only, h, implies_true, true_or, or_true, and_self, p1, p2]

theorem msixFlush_only (h : Only ps a s) (p1 : Part.out ∈ ps := by assumption) (p2 : Part.pcie ∈ ps := by assumption) : Only
    ps a (msixFlush s) := by
  simp only [msixFlush]
  repeat' first
    | (with_reducible first | assumption | apply foldl_only | apply forFin_only | apply msix_only)
    | simp only [only_mk, true_or, or_true, p1, p2]
    | split
    | dsimp only
    | (with_reducible first | refine only_snd (by assumption) ?_ | refine only_fst (by assumption) ?_)
    | intro

theorem ringSignal_only (h : Only ps a s) (p1 : Part.out ∈ ps := by assumption) (p2 : Part.pcie ∈ ps := by assumption) (p3 :
    Part.rings ∈ ps := by assumption) : Only ps a (ringSignal x1 s) := by
  simp only [ringSignal]
  repeat' first
    | (with_reducible first | assumption | apply foldl_only | apply forFin_only | apply modRing_only
                            | apply msix_only)
    | simp only [only_mk, true_or, or_true, and_self, p1, p2, p3]
    | split

theorem ringTally_only (h : Only ps a s) (p1 : Part.out ∈ ps := by assumption) (p2 : Part.pcie ∈ ps := by assumption) (p3 :
    Part.rings ∈ ps := by assumption) : Only ps a (ringTally x1 s) := by
  simp +contextual only [ringTally, Only_ite, ringSignal_only, h, implies_true, and_self, p1, p2, p3]

theorem ringEntry_only (h : Only ps a s) (p1 : Part.rings ∈ ps := by assumption) : Only ps a (ringEntry x1 x2 s) := by
  simp +contextual only [ringEntry, Only_ite, only_mk, forFin_only, foldl_only, modRing_only, h, implies_true, true_or,
    or_true, and_self, p1]

theorem ringTimer_only (h : Only ps a s) (p1 : Part.out ∈ ps := by assumption) (p2 : Part.pcie ∈ ps := by assumption) (p3 :
    Part.rings ∈ ps := by assumption) : Only ps a (ringTimer x1 s) := by
  simp +contextual only [ringTimer, Only_ite, only_mk, forFin_only, foldl_only, ringSignal_only, h, implies_true, true_or,
    or_true, and_self, p1, p2, p3]

theorem cplWrite_only (h : Only ps a s) (p1 : Part.out ∈ ps := by assumption) (p2 : Part.pcie ∈ ps := by assumption) (p3 :
    Part.rings ∈ ps := by assumption) (p4 : Part.lmem ∈ ps := by assumption) (p5 : Part.counters ∈ ps := by assumption) : Only
    ps a (cplWrite x1 s).1 := by
  simp only [cplWrite]
  repeat' first
    | (with_reducible first | assumption | apply foldl_only | apply forFin_only | apply ringTally_only
                            | apply ringEntry_only | apply ringWrite_only | apply countDev_only
                            | apply modRings_only)
    | simp only [only_mk, true_or, or_true, and_self, p1, p2, p3, p4, p5]
    | split

theorem evtWrite_only (h : Only ps a s) (p1 : Part.out ∈ ps := by assumption) (p2 : Part.pcie ∈ ps := by assumption) (p3 :
    Part.rings ∈ ps := by assumption) (p4 : Part.evt ∈ ps := by assumption) (p5 : Part.lmem ∈ ps := by assumption) (p6 :
    Part.counters ∈ ps := by assumption) : Only ps a (evtWrite x1 s) := by
  simp only [evtWrite]
  repeat' first
    | (with_reducible first | assumption | apply foldl_only | apply forFin_only | apply ringTally_only
                            | apply ringEntry_only | apply ringWrite_only | apply countDev_only
                            | apply msix_only)
    | simp only [only_mk, true_or, or_true, p1, p2, p3, p4, p5, p6]
    | split

theorem tlmPut_only (h : Only ps a s) (p1 : Part.out ∈ ps := by assumption) (p2 : Part.rings ∈ ps := by assumption) (p3 :
    Part.lmem ∈ ps := by assumption) (p4 : Part.counters ∈ ps := by assumption) : Only ps a (tlmPut x1 x2 x3 s) := by
  simp only [tlmPut]
  repeat' first
    | (with_reducible first | assumption | apply foldl_only | apply forFin_only | apply ringEntry_only
                            | apply ringWrite_only | apply countDev_only)

theorem monRecord_only (h : Only ps a s) (p1 : Part.rings ∈ ps := by assumption) (p2 : Part.evt ∈ ps := by assumption) (p3 :
    Part.tlm ∈ ps := by assumption) (p4 : Part.own ∈ ps := by assumption) (p5 : Part.counters ∈ ps := by assumption) : Only ps a
    (monRecord x1 x2 s) := by
  simp only [monRecord]
  repeat' first
    | (with_reducible first | assumption | apply foldl_only | apply forFin_only | apply tlmForm_only)
    | simp only [only_mk, true_or, or_true, and_self, p1, p2, p3, p4, p5]
    | split

theorem drainStep_only (h : Only ps a s) (p1 : Part.rings ∈ ps := by assumption) (p2 : Part.evt ∈ ps := by assumption) (p3 :
    Part.tlm ∈ ps := by assumption) (p4 : Part.own ∈ ps := by assumption) (p5 : Part.counters ∈ ps := by assumption) (p6 :
    Part.mon ∈ ps := by assumption) : Only ps a (drainStep x1 s) := by
  simp +contextual only [drainStep, Only_ite, modMon_only, monRecord_only, h, implies_true, and_self, p1, p2, p3, p4, p5,
    p6]

theorem drainDone_only (h : Only ps a s) (p1 : Part.mon ∈ ps := by assumption) : Only ps a (drainDone x1 s) := by
  simp +contextual only [drainDone, Only_ite, only_mk, forFin_only, foldl_only, modMon_only, forFin_only, h, implies_true,
    true_or, or_true, and_self, p1]

theorem msgForm_only (h : Only ps a s) (p1 : Part.rings ∈ ps := by assumption) (p2 : Part.evt ∈ ps := by assumption) (p3 :
    Part.tlm ∈ ps := by assumption) (p4 : Part.own ∈ ps := by assumption) (p5 : Part.counters ∈ ps := by assumption) : Only ps a
    (msgForm x1 x2 s) := by
  simp +contextual only [msgForm, tlmForm_only, h, p1, p2, p3, p4, p5]

theorem msgDrain_only (h : Only ps a s) (p1 : Part.rings ∈ ps := by assumption) (p2 : Part.evt ∈ ps := by assumption) (p3 :
    Part.tlm ∈ ps := by assumption) (p4 : Part.own ∈ ps := by assumption) (p5 : Part.lines ∈ ps := by assumption) (p6 :
    Part.counters ∈ ps := by assumption) : Only ps a (msgDrain s) := by
  simp only [msgDrain]
  repeat' first
    | (with_reducible first | assumption | apply foldl_only | apply forFin_only | apply modFr_only
                            | apply msgForm_only | apply forFin_only)
    | simp only [only_mk, true_or, or_true, and_self, p1, p2, p3, p4, p5, p6]
    | split
    | dsimp only
    | (with_reducible first | refine only_snd (by assumption) ?_ | refine only_fst (by assumption) ?_)
    | intro

theorem tlmGather_only (h : Only ps a s) (p1 : Part.rings ∈ ps := by assumption) (p2 : Part.evt ∈ ps := by assumption) (p3 :
    Part.tlm ∈ ps := by assumption) (p4 : Part.own ∈ ps := by assumption) (p5 : Part.lines ∈ ps := by assumption) (p6 :
    Part.counters ∈ ps := by assumption) (p7 : Part.mon ∈ ps := by assumption) : Only ps a (tlmGather x1 s) := by
  simp only [tlmGather]
  repeat' first
    | (with_reducible first | assumption | apply foldl_only | apply forFin_only | apply msgDrain_only
                            | apply drainStep_only)
    | simp only [only_mk, true_or, or_true, and_self, p1, p2, p3, p4, p5, p6, p7]
    | split
    | dsimp only
    | (with_reducible first | refine only_snd (by assumption) ?_ | refine only_fst (by assumption) ?_)
    | intro

theorem tlmWrite_only (h : Only ps a s) (p1 : Part.out ∈ ps := by assumption) (p2 : Part.pcie ∈ ps := by assumption) (p3 :
    Part.rings ∈ ps := by assumption) (p4 : Part.evt ∈ ps := by assumption) (p5 : Part.tlm ∈ ps := by assumption) (p6 :
    Part.lmem ∈ ps := by assumption) (p7 : Part.own ∈ ps := by assumption) (p8 : Part.lines ∈ ps := by assumption) (p9 :
    Part.counters ∈ ps := by assumption) (p10 : Part.mon ∈ ps := by assumption) : Only ps a (tlmWrite x1 s) := by
  simp only [tlmWrite]
  repeat' first
    | (with_reducible first | assumption | apply foldl_only | apply forFin_only | apply drainDone_only
                            | apply ringTally_only | apply modRing_only | apply tlmGather_only
                            | apply tlmPut_only)
    | simp only [only_mk, true_or, or_true, p1, p2, p3, p4, p5, p6, p7, p8, p9, p10]
    | split

theorem ringAccessFail_only (h : Only ps a s) (p1 : Part.pcie ∈ ps := by assumption) (p2 : Part.rings ∈ ps := by assumption)
    (p3 : Part.evt ∈ ps := by assumption) (p4 : Part.own ∈ ps := by assumption) (p5 : Part.counters ∈ ps := by assumption) :
    Only ps a (ringAccessFail x1 x2 s) := by
  simp only [ringAccessFail]
  repeat' first
    | (with_reducible first | assumption | apply foldl_only | apply forFin_only | apply modRing_only
                            | apply aerNote_only | apply raise_only)
    | simp only [and_self, p1, p2, p3, p4, p5]
    | split
    | dsimp only
    | (with_reducible first | refine only_snd (by assumption) ?_ | refine only_fst (by assumption) ?_)
    | intro

/-! ### Slots -/

theorem putSlot_only (h : Only ps a s) (p1 : Part.cad ∈ ps := by assumption) (p2 : Part.own ∈ ps := by assumption) : Only ps
    a (putSlot x1 x2 s) := by
  simp +contextual only [putSlot, modSlot_only, h, p1, p2]

theorem clearSlot_only (h : Only ps a s) (p1 : Part.cad ∈ ps := by assumption) (p2 : Part.own ∈ ps := by assumption) : Only
    ps a (clearSlot x1 s) := by
  simp +contextual only [clearSlot, modSlot_only, h, p1, p2]

theorem freeSlot_only (h : Only ps a s) (p1 : Part.rings ∈ ps := by assumption) (p2 : Part.evt ∈ ps := by assumption) (p3 :
    Part.cad ∈ ps := by assumption) (p4 : Part.own ∈ ps := by assumption) (p5 : Part.counters ∈ ps := by assumption) : Only ps a
    (freeSlot x1 s) := by
  simp only [freeSlot]
  repeat' first
    | (with_reducible first | assumption | apply foldl_only | apply forFin_only | apply clearSlot_only
                            | apply refuse_only)
    | simp only [only_mk, true_or, or_true, and_self, p1, p2, p3, p4, p5]
    | split

theorem slotAdvance_only (h : Only ps a s) (p1 : Part.cad ∈ ps := by assumption) (p2 : Part.own ∈ ps := by assumption) :
    Only ps a (slotAdvance x1 s) := by
  simp +contextual only [slotAdvance, Only_ite, clearSlot_only, modSlot_only, h, implies_true, and_self, p1, p2]

theorem skipOcc_only (h : Only ps a s) (p1 : Part.cad ∈ ps := by assumption) (p2 : Part.own ∈ ps := by assumption) : Only ps
    a (skipOcc x1 x2 s).1 := by
  simp only [skipOcc]
  repeat' first
    | (with_reducible first | assumption | apply foldl_only | apply forFin_only | apply clearSlot_only
                            | apply modSlot_only)
    | simp only [only_mk, true_or, or_true, and_self, p1, p2]
    | split

theorem skipPoint_only (h : Only ps a s) (p1 : Part.cad ∈ ps := by assumption) (p2 : Part.own ∈ ps := by assumption) : Only
    ps a (skipPoint x1 x2 s) := by
  simp +contextual only [skipPoint, Only_ite, modSlot_only, h, implies_true, and_self, p1, p2]

theorem skipAll_only (h : Only ps a s) (p1 : Part.cad ∈ ps := by assumption) (p2 : Part.own ∈ ps := by assumption) : Only ps
    a (skipAll x1 s).1 := by
  unfold skipAll
  exact foldl_fst_only _ _ (fun i z hz => by
    refine skipOcc_only (skipPoint_only ?_)
    simp only [Only_ite, slotAdvance_only, hz, implies_true, and_self, p1, p2]) h

theorem skipNote_only (h : Only ps a s) (p1 : Part.evt ∈ ps := by assumption) (p2 : Part.cad ∈ ps := by assumption) (p3 :
    Part.own ∈ ps := by assumption) (p4 : Part.counters ∈ ps := by assumption) : Only ps a (skipNote x1 x2 s) := by
  simp only [skipNote]
  repeat' first
    | (with_reducible first | assumption | apply foldl_only | apply forFin_only | apply modCad_only
                            | apply raise_only)
    | simp only [only_mk, true_or, or_true, and_self, p1, p2, p3, p4]
    | split

theorem skipWindows_only (h : Only ps a s) (p1 : Part.evt ∈ ps := by assumption) (p2 : Part.cad ∈ ps := by assumption) (p3 :
    Part.own ∈ ps := by assumption) (p4 : Part.counters ∈ ps := by assumption) : Only ps a (skipWindows x1 s) := by
  simp +contextual only [skipWindows, Only_ite, skipAll_only, skipNote_only, h, implies_true, and_self, p1, p2, p3, p4]

theorem dropDefault_only (h : Only ps a s) (p1 : Part.cad ∈ ps := by assumption) (p2 : Part.own ∈ ps := by assumption) :
    Only ps a (dropDefault s) := by
  simp +contextual only [dropDefault, Only_ite, only_mk, forFin_only, foldl_only, clearSlot_only, h, implies_true, true_or,
    or_true, and_self, p1, p2]

theorem bootWindow_only (h : Only ps a s) (p1 : Part.cad ∈ ps := by assumption) (p2 : Part.own ∈ ps := by assumption) : Only
    ps a (bootWindow x1 s) := by
  simp +contextual only [bootWindow, Only_ite, only_mk, forFin_only, foldl_only, putSlot_only, dropDefault_only, h,
    implies_true, true_or, or_true, and_self, p1, p2]

theorem domInstall_only (h : Only ps a s) (p1 : Part.evt ∈ ps := by assumption) (p2 : Part.cad ∈ ps := by assumption) (p3 :
    Part.own ∈ ps := by assumption) (p4 : Part.counters ∈ ps := by assumption) : Only ps a (domInstall x1 x2 s) := by
  simp only [domInstall]
  generalize (if earlier (occTime s _ 0) (now s) = true then slotFirst s _ else _) = y
  cases y with
  | none =>
    dsimp only [Option.elim]
    exact raise_only (modCad_only h)
  | some y =>
    dsimp only [Option.elim]
    split
    · exact raise_only h
    · simp only [Only_ite, dropDefault_only, putSlot_only, h, implies_true, true_or, or_true, and_self, p1, p2, p3, p4]

/-! ### Monitor -/

theorem bufPut_only (h : Only ps a s) (p1 : Part.evt ∈ ps := by assumption) (p2 : Part.own ∈ ps := by assumption) (p3 :
    Part.counters ∈ ps := by assumption) (p4 : Part.mon ∈ ps := by assumption) : Only ps a (bufPut x1 x2 s) := by
  simp +contextual only [bufPut, Only_ite, modMon_only, raiseLimited_only, h, implies_true, and_self, p1, p2, p3, p4]

theorem thrCompare_only (h : Only ps a s) (p1 : Part.evt ∈ ps := by assumption) (p2 : Part.own ∈ ps := by assumption) (p3 :
    Part.counters ∈ ps := by assumption) (p4 : Part.thr ∈ ps := by assumption) : Only ps a (thrCompare x1 x2 s) := by
  simp only [thrCompare]
  repeat' first
    | (with_reducible first | assumption | apply foldl_only | apply forFin_only | apply raise_only)
    | simp only [only_mk, true_or, or_true, p1, p2, p3, p4]
    | split

theorem deliver_only (h : Only ps a s) (p1 : Part.rings ∈ ps := by assumption) (p2 : Part.evt ∈ ps := by assumption) (p3 :
    Part.tlm ∈ ps := by assumption) (p4 : Part.own ∈ ps := by assumption) (p5 : Part.counters ∈ ps := by assumption) (p6 :
    Part.mon ∈ ps := by assumption) (p7 : Part.thr ∈ ps := by assumption) : Only ps a (deliver x1 x2 x3 x4 x5 x6 x7 x8 s) := by
  simp only [deliver]
  repeat' first
    | (with_reducible first | assumption | apply foldl_only | apply forFin_only | apply thrCompare_only
                            | apply bufPut_only | apply modMon_only | apply monRecord_only
                            | apply raiseLimited_only)
    | simp only [only_mk, true_or, or_true, and_self, p1, p2, p3, p4, p5, p6, p7]
    | split
    | dsimp only
    | (with_reducible first | refine only_snd (by assumption) ?_ | refine only_fst (by assumption) ?_)
    | intro

theorem monSkip_only (h : Only ps a s) (p1 : Part.evt ∈ ps := by assumption) (p2 : Part.own ∈ ps := by assumption) (p3 :
    Part.counters ∈ ps := by assumption) (p4 : Part.mon ∈ ps := by assumption) : Only ps a (monSkip x1 x2 x3 s) := by
  simp +contextual only [monSkip, Only_ite, only_mk, forFin_only, foldl_only, modMon_only, raiseLimited_only, h,
    implies_true, true_or, or_true, and_self, p1, p2, p3, p4]

theorem monStop_only (h : Only ps a s) (p1 : Part.mon ∈ ps := by assumption) : Only ps a (monStop x1 s) := by
  simp +contextual only [monStop, Only_ite, only_mk, forFin_only, foldl_only, modMon_only, h, implies_true, true_or,
    or_true, and_self, p1]

theorem monRestart_only (h : Only ps a s) (p1 : Part.evt ∈ ps := by assumption) (p2 : Part.own ∈ ps := by assumption) (p3 :
    Part.counters ∈ ps := by assumption) (p4 : Part.mon ∈ ps := by assumption) : Only ps a (monRestart x1 s) := by
  simp only [monRestart]
  repeat' first
    | (with_reducible first | assumption | apply foldl_only | apply forFin_only | apply monSkip_only
                            | apply modMon_only)
    | simp only [and_self, p1, p2, p3, p4]
    | split
    | dsimp only
    | (with_reducible first | refine only_snd (by assumption) ?_ | refine only_fst (by assumption) ?_)
    | intro

theorem monEarly_only (h : Only ps a s) (p1 : Part.evt ∈ ps := by assumption) (p2 : Part.own ∈ ps := by assumption) (p3 :
    Part.counters ∈ ps := by assumption) (p4 : Part.mon ∈ ps := by assumption) : Only ps a (monEarly x1 x2 x3 s) := by
  simp +contextual only [monEarly, Only_ite, monSkip_only, h, implies_true, and_self, p1, p2, p3, p4]

theorem monSync_only (h : Only ps a s) (p1 : Part.mon ∈ ps := by assumption) : Only ps a (monSync x1 x2 s) := by
  simp +contextual only [monSync, modMon_only, h, p1]

theorem roundBegin_only (h : Only ps a s) (p1 : Part.mon ∈ ps := by assumption) (p2 : Part.therm ∈ ps := by assumption) :
    Only ps a (roundBegin s) := by
  simp only [roundBegin]
  repeat' first
    | (with_reducible first | assumption | apply foldl_only | apply forFin_only | apply monStop_only
                            | apply modTherm_only | apply modMon_only)
    | simp only [only_mk, true_or, or_true, and_self, p1, p2]
    | split
    | dsimp only
    | (with_reducible first | refine only_snd (by assumption) ?_ | refine only_fst (by assumption) ?_)
    | intro

theorem monNext_only (h : Only ps a s) (p1 : Part.mon ∈ ps := by assumption) (p2 : Part.therm ∈ ps := by assumption) : Only
    ps a (monNext x1 s) := by
  simp +contextual only [monNext, Only_ite, roundBegin_only, modMon_only, h, implies_true, and_self, p1, p2]

theorem monOutput_only (h : Only ps a s) (p1 : Part.rings ∈ ps := by assumption) (p2 : Part.evt ∈ ps := by assumption) (p3 :
    Part.tlm ∈ ps := by assumption) (p4 : Part.own ∈ ps := by assumption) (p5 : Part.counters ∈ ps := by assumption) (p6 :
    Part.mon ∈ ps := by assumption) (p7 : Part.thr ∈ ps := by assumption) : Only ps a (monOutput x1 x2 x3 s) := by
  simp only [monOutput]
  repeat' first
    | (with_reducible first | assumption | apply foldl_only | apply forFin_only | apply modMon_only
                            | apply deliver_only | apply raiseLimited_only)
    | simp only [only_mk, true_or, or_true, and_self, p1, p2, p3, p4, p5, p6, p7]
    | split

theorem monFlush_only (h : Only ps a s) (p1 : Part.rings ∈ ps := by assumption) (p2 : Part.evt ∈ ps := by assumption) (p3 :
    Part.tlm ∈ ps := by assumption) (p4 : Part.own ∈ ps := by assumption) (p5 : Part.counters ∈ ps := by assumption) (p6 :
    Part.mon ∈ ps := by assumption) : Only ps a (monFlush x1 s) := by
  simp +contextual only [monFlush, Only_ite, foldl_only, bufPut_only, modMon_only, monRecord_only, h, implies_true,
    and_self, p1, p2, p3, p4, p5, p6]

theorem monPass_only (h : Only ps a s) (p1 : Part.evt ∈ ps := by assumption) (p2 : Part.own ∈ ps := by assumption) (p3 :
    Part.counters ∈ ps := by assumption) (p4 : Part.mon ∈ ps := by assumption) (p5 : Part.therm ∈ ps := by assumption) : Only ps
    a (monPass x1 s) := by
  simp only [monPass]
  repeat' first
    | (with_reducible first | assumption | apply foldl_only | apply forFin_only | apply monNext_only
                            | apply modMon_only | apply raiseLimited_only)
    | simp only [only_mk, true_or, or_true, and_self, p1, p2, p3, p4, p5]
    | split

theorem monScanDone_only (h : Only ps a s) (p1 : Part.rings ∈ ps := by assumption) (p2 : Part.evt ∈ ps := by assumption) (p3
    : Part.tlm ∈ ps := by assumption) (p4 : Part.own ∈ ps := by assumption) (p5 : Part.counters ∈ ps := by assumption) (p6 :
    Part.mon ∈ ps := by assumption) (p7 : Part.thr ∈ ps := by assumption) (p8 : Part.therm ∈ ps := by assumption) : Only ps a
    (monScanDone x1 x2 x3 s) := by
  simp only [monScanDone]
  repeat' first
    | (with_reducible first | assumption | apply foldl_only | apply forFin_only | apply monNext_only
                            | apply modMon_only | apply deliver_only)
    | simp only [only_mk, true_or, or_true, and_self, p1, p2, p3, p4, p5, p6, p7, p8]
    | split

theorem compCross_only (h : Only ps a s) (p1 : Part.evt ∈ ps := by assumption) (p2 : Part.own ∈ ps := by assumption) (p3 :
    Part.counters ∈ ps := by assumption) (p4 : Part.mon ∈ ps := by assumption) (p5 : Part.comp ∈ ps := by assumption) : Only ps
    a (compCross x1 x2 s) := by
  simp only [compCross]
  repeat' first
    | (with_reducible first | assumption | apply foldl_only | apply forFin_only | apply raise_only
                            | apply modMon_only)
    | simp only [only_mk, true_or, or_true, p1, p2, p3, p4, p5]
    | split

theorem roundStart_only (h : Only ps a s) (p1 : Part.mon ∈ ps := by assumption) (p2 : Part.therm ∈ ps := by assumption) :
    Only ps a (roundStart s) := by
  simp only [roundStart]
  repeat' first
    | (with_reducible first | assumption | apply foldl_only | apply forFin_only | apply modTherm_only
                            | apply roundBegin_only | apply modMon_only)
    | simp only [only_mk, true_or, or_true, and_self, p1, p2]
    | split

theorem roundFinish_only (h : Only ps a s) (p1 : Part.rings ∈ ps := by assumption) (p2 : Part.evt ∈ ps := by assumption) (p3
    : Part.tlm ∈ ps := by assumption) (p4 : Part.own ∈ ps := by assumption) (p5 : Part.counters ∈ ps := by assumption) (p6 :
    Part.mon ∈ ps := by assumption) (p7 : Part.thr ∈ ps := by assumption) (p8 : Part.therm ∈ ps := by assumption) : Only ps a
    (roundFinish x1 x2 s) := by
  simp only [roundFinish]
  repeat' first
    | (with_reducible first | assumption | apply foldl_only | apply forFin_only | apply monNext_only
                            | apply modTherm_only | apply deliver_only | apply monRestart_only)
    | simp only [only_mk, true_or, or_true, and_self, p1, p2, p3, p4, p5, p6, p7, p8]
    | split
    | dsimp only
    | (with_reducible first | refine only_snd (by assumption) ?_ | refine only_fst (by assumption) ?_)
    | intro

theorem actMonConfig_only (h : Only ps a s) (p1 : Part.rings ∈ ps := by assumption) (p2 : Part.evt ∈ ps := by assumption)
    (p3 : Part.own ∈ ps := by assumption) (p4 : Part.counters ∈ ps := by assumption) (p5 : Part.mon ∈ ps := by assumption) :
    Only ps a (actMonConfig x1 s) := by
  simp only [actMonConfig]
  repeat' first
    | (with_reducible first | assumption | apply foldl_only | apply forFin_only | apply done_only
                            | apply monSync_only | apply modMon_only)
    | simp only [only_mk, true_or, or_true, and_self, p1, p2, p3, p4, p5]
    | split
    | dsimp only
    | (with_reducible first | refine only_snd (by assumption) ?_ | refine only_fst (by assumption) ?_)
    | intro

theorem syncMons_only (h : Only ps a s) (p1 : Part.mon ∈ ps := by assumption) : Only ps a (syncMons x1 x2 s) := by
  simp +contextual only [syncMons, foldl_only, monSync_only, h, implies_true, p1]

theorem actMonSync_only (h : Only ps a s) (p1 : Part.rings ∈ ps := by assumption) (p2 : Part.evt ∈ ps := by assumption) (p3
    : Part.own ∈ ps := by assumption) (p4 : Part.counters ∈ ps := by assumption) (p5 : Part.mon ∈ ps := by assumption) : Only ps
    a (actMonSync x1 s) := by
  simp only [actMonSync]
  repeat' first
    | (with_reducible first | assumption | apply foldl_only | apply forFin_only | apply done_only
                            | apply syncMons_only)
    | simp only [only_mk, true_or, or_true, and_self, p1, p2, p3, p4, p5]
    | split

theorem actMonThreshold_only (h : Only ps a s) (p1 : Part.rings ∈ ps := by assumption) (p2 : Part.evt ∈ ps := by assumption)
    (p3 : Part.own ∈ ps := by assumption) (p4 : Part.counters ∈ ps := by assumption) (p5 : Part.comp ∈ ps := by assumption) (p6
    : Part.thr ∈ ps := by assumption) : Only ps a (actMonThreshold x1 s) := by
  simp +contextual only [actMonThreshold, Only_ite, only_mk, done_only, h, implies_true, true_or, or_true, and_self, p1, p2,
    p3, p4, p5, p6]

theorem monRateCheck_only (h : Only ps a s) (p1 : Part.evt ∈ ps := by assumption) (p2 : Part.own ∈ ps := by assumption) (p3
    : Part.counters ∈ ps := by assumption) (p4 : Part.mon ∈ ps := by assumption) : Only ps a (monRateCheck x1 s) := by
  simp +contextual only [monRateCheck, Only_ite, raise_only, modMon_only, h, implies_true, and_self, p1, p2, p3, p4]

end Sys2Proof.Machine
end

