-- ==== Sys2Proof/Laws/OnlyCadence.lean ====
section
/-! SUPPORT. `Only` for every operation of the cadence, enumeration and the links that does not reach every part. -/

-- One proof after another: the package is compiled as one text, where proofs side by side take too much memory.
set_option Elab.async false

namespace Sys2Proof.Machine

open Sys2Proof

/-! ### Cadence -/

theorem modTree_only (h : Only ps a s) (p1 : Part.cad ∈ ps := by assumption) (p2 : Part.own ∈ ps := by assumption) : Only ps
    a (modTree x1 x2 s) := by
  simp only [modTree]
  repeat' first
    | (with_reducible first | assumption | apply foldl_only | apply forFin_only | apply modCad_only)
    | simp only [only_mk, true_or, or_true, and_self, p1, p2]
    | split

theorem post_only (h : Only ps a s) (p1 : Part.out ∈ ps := by assumption) : Only ps a (post x1 x2 x3 s) := by
  simp +contextual only [post, emit_only, h, p1]

theorem linkErr_only (h : Only ps a s) (p1 : Part.cad ∈ ps := by assumption) (p2 : Part.own ∈ ps := by assumption) : Only ps
    a (linkErr x1 s) := by
  simp +contextual only [linkErr, Only_ite, only_mk, forFin_only, foldl_only, modLink_only, h, implies_true, true_or,
    or_true, and_self, p1, p2]

theorem linkError_only (h : Only ps a s) (p1 : Part.evt ∈ ps := by assumption) (p2 : Part.cad ∈ ps := by assumption) (p3 :
    Part.own ∈ ps := by assumption) (p4 : Part.counters ∈ ps := by assumption) : Only ps a (linkError x1 s) := by
  simp only [linkError]
  repeat' first
    | (with_reducible first | assumption | apply foldl_only | apply forFin_only | apply modLink_only
                            | apply linkErr_only | apply raiseLimited_only)
    | simp only [and_self, p1, p2, p3, p4]
    | split
    | dsimp only
    | (with_reducible first | refine only_snd (by assumption) ?_ | refine only_fst (by assumption) ?_)
    | intro

theorem received_only (hf : ∀ x, Only ps a x → Only ps a (x5 x)) (h : Only ps a s) (p1 : Part.cad ∈ ps := by assumption)
    (p2 : Part.own ∈ ps := by assumption) : Only ps a (received x1 x2 x3 x4 x5 s) := by
  simp +contextual only [received, Only_ite, linkErr_only, hf, h, implies_true, and_self, p1, p2]

theorem keepAlives_only (h : Only ps a s) (p1 : Part.out ∈ ps := by assumption) : Only ps a (keepAlives s) := by
  simp +contextual only [keepAlives, Only_ite, forFin_only, emit_only, forFin_only, h, implies_true, and_self, p1]

theorem sendMarks_only (h : Only ps a s) (p1 : Part.free ∈ ps := by assumption) (p2 : Part.out ∈ ps := by assumption) : Only
    ps a (sendMarks x1 x2 x3 s) := by
  simp only [sendMarks]
  repeat' first
    | (with_reducible first | assumption | apply foldl_only | apply forFin_only | apply draw_only
                            | apply emit_only | apply post_only)
    | simp only [only_mk, true_or, or_true, and_self, p1, p2]
    | split
    | dsimp only
    | (with_reducible first | refine only_snd (by assumption) ?_ | refine only_fst (by assumption) ?_)
    | intro

theorem sendSummaries_only (h : Only ps a s) (p1 : Part.out ∈ ps := by assumption) (p2 : Part.cad ∈ ps := by assumption) (p3
    : Part.own ∈ ps := by assumption) : Only ps a (sendSummaries s) := by
  simp only [sendSummaries]
  repeat' first
    | (with_reducible first | assumption | apply foldl_only | apply forFin_only | apply modCad_only
                            | apply post_only)
    | simp only [only_mk, true_or, or_true, and_self, p1, p2, p3]
    | split
    | dsimp only
    | (with_reducible first | refine only_snd (by assumption) ?_ | refine only_fst (by assumption) ?_)
    | intro

theorem summaryJudge_only (h : Only ps a s) (p1 : Part.rings ∈ ps := by assumption) (p2 : Part.evt ∈ ps := by assumption)
    (p3 : Part.tlm ∈ ps := by assumption) (p4 : Part.cad ∈ ps := by assumption) (p5 : Part.own ∈ ps := by assumption) (p6 :
    Part.counters ∈ ps := by assumption) : Only ps a (summaryJudge x1 s) := by
  simp only [summaryJudge]
  repeat' first
    | (with_reducible first | assumption | apply foldl_only | apply forFin_only | apply modCad_only
                            | apply tlmForm_only | apply raise_only)
    | simp only [only_mk, true_or, or_true, and_self, p1, p2, p3, p4, p5, p6]
    | split
    | dsimp only
    | (with_reducible first | refine only_snd (by assumption) ?_ | refine only_fst (by assumption) ?_)
    | intro

theorem chanterSummary_only (h : Only ps a s) (p1 : Part.rings ∈ ps := by assumption) (p2 : Part.evt ∈ ps := by assumption)
    (p3 : Part.tlm ∈ ps := by assumption) (p4 : Part.cad ∈ ps := by assumption) (p5 : Part.own ∈ ps := by assumption) (p6 :
    Part.counters ∈ ps := by assumption) : Only ps a (chanterSummary s) := by
  simp only [chanterSummary]
  repeat' first
    | (with_reducible first | assumption | apply foldl_only | apply forFin_only | apply summaryJudge_only
                            | apply modCad_only)
    | simp only [only_mk, true_or, or_true, and_self, p1, p2, p3, p4, p5, p6]
    | split

theorem offsetTake_only (h : Only ps a s) (p1 : Part.cad ∈ ps := by assumption) (p2 : Part.own ∈ ps := by assumption) : Only
    ps a (offsetTake s) := by
  simp only [offsetTake]
  repeat' first
    | (with_reducible first | assumption | apply foldl_only | apply forFin_only | apply modCad_only)
    | simp only [only_mk, true_or, or_true, and_self, p1, p2]
    | split

theorem atBeat_only (h : Only ps a s) (p1 : Part.out ∈ ps := by assumption) (p2 : Part.rings ∈ ps := by assumption) (p3 :
    Part.evt ∈ ps := by assumption) (p4 : Part.tlm ∈ ps := by assumption) (p5 : Part.cad ∈ ps := by assumption) (p6 : Part.own ∈
    ps := by assumption) (p7 : Part.counters ∈ ps := by assumption) (p8 : Part.mon ∈ ps := by assumption) : Only ps a (atBeat s)
    := by
  simp only [atBeat]
  repeat' first
    | (with_reducible first | assumption | apply foldl_only | apply forFin_only | apply sendSummaries_only
                            | apply offsetTake_only | apply emit_only | apply modCad_only
                            | apply chanterSummary_only | apply countDev_only | apply monRateCheck_only)
    | simp only [only_mk, true_or, or_true, and_self, p1, p2, p3, p4, p5, p6, p7, p8]
    | split

theorem openBeat_only (h : Only ps a s) (p1 : Part.out ∈ ps := by assumption) (p2 : Part.rings ∈ ps := by assumption) (p3 :
    Part.evt ∈ ps := by assumption) (p4 : Part.tlm ∈ ps := by assumption) (p5 : Part.cad ∈ ps := by assumption) (p6 : Part.own ∈
    ps := by assumption) (p7 : Part.counters ∈ ps := by assumption) (p8 : Part.mon ∈ ps := by assumption) : Only ps a (openBeat
    x1 x2 x3 s) := by
  simp only [openBeat]
  repeat' first
    | (with_reducible first | assumption | apply foldl_only | apply forFin_only | apply modCad_only
                            | apply monEarly_only | apply atBeat_only | apply monRestart_only
                            | apply skipWindows_only)
    | simp only [only_mk, true_or, or_true, and_self, p1, p2, p3, p4, p5, p6, p7, p8]
    | split

theorem alignBeat_only (h : Only ps a s) (p1 : Part.evt ∈ ps := by assumption) (p2 : Part.cad ∈ ps := by assumption) (p3 :
    Part.own ∈ ps := by assumption) (p4 : Part.counters ∈ ps := by assumption) (p5 : Part.mon ∈ ps := by assumption) : Only ps a
    (alignBeat x1 x2 s) := by
  simp only [alignBeat]
  repeat' first
    | (with_reducible first | assumption | apply foldl_only | apply forFin_only | apply modCad_only
                            | apply monEarly_only | apply monRestart_only | apply skipWindows_only)
    | simp only [only_mk, true_or, or_true, and_self, p1, p2, p3, p4, p5]
    | split

theorem startBeat_only (h : Only ps a s) (p1 : Part.out ∈ ps := by assumption) (p2 : Part.rings ∈ ps := by assumption) (p3 :
    Part.evt ∈ ps := by assumption) (p4 : Part.tlm ∈ ps := by assumption) (p5 : Part.cad ∈ ps := by assumption) (p6 : Part.own ∈
    ps := by assumption) (p7 : Part.counters ∈ ps := by assumption) (p8 : Part.mon ∈ ps := by assumption) : Only ps a (startBeat
    x1 x2 x3 s) := by
  simp +contextual only [startBeat, Only_ite, alignBeat_only, openBeat_only, h, implies_true, and_self, p1, p2, p3, p4, p5,
    p6, p7, p8]

theorem firstBeat_only (h : Only ps a s) (p1 : Part.out ∈ ps := by assumption) (p2 : Part.rings ∈ ps := by assumption) (p3 :
    Part.evt ∈ ps := by assumption) (p4 : Part.tlm ∈ ps := by assumption) (p5 : Part.cad ∈ ps := by assumption) (p6 : Part.own ∈
    ps := by assumption) (p7 : Part.counters ∈ ps := by assumption) (p8 : Part.mon ∈ ps := by assumption) : Only ps a (firstBeat
    x1 x2 s) := by
  simp +contextual only [firstBeat, modCad_only, atBeat_only, h, p1, p2, p3, p4, p5, p6, p7, p8]

theorem freeBeat_only (h : Only ps a s) (p1 : Part.out ∈ ps := by assumption) (p2 : Part.rings ∈ ps := by assumption) (p3 :
    Part.evt ∈ ps := by assumption) (p4 : Part.tlm ∈ ps := by assumption) (p5 : Part.cad ∈ ps := by assumption) (p6 : Part.own ∈
    ps := by assumption) (p7 : Part.counters ∈ ps := by assumption) (p8 : Part.mon ∈ ps := by assumption) : Only ps a (freeBeat
    s) := by
  simp +contextual only [freeBeat, Only_ite, startBeat_only, h, implies_true, and_self, p1, p2, p3, p4, p5, p6, p7, p8]

theorem chanterBeat_only (h : Only ps a s) (p1 : Part.free ∈ ps := by assumption) (p2 : Part.out ∈ ps := by assumption) (p3
    : Part.rings ∈ ps := by assumption) (p4 : Part.evt ∈ ps := by assumption) (p5 : Part.tlm ∈ ps := by assumption) (p6 :
    Part.cad ∈ ps := by assumption) (p7 : Part.own ∈ ps := by assumption) (p8 : Part.counters ∈ ps := by assumption) (p9 :
    Part.mon ∈ ps := by assumption) : Only ps a (chanterBeat x1 x2 x3 s) := by
  simp +contextual only [chanterBeat, sendMarks_only, startBeat_only, h, p1, p2, p3, p4, p5, p6, p7, p8, p9]

theorem chanterFirst_only (h : Only ps a s) (p1 : Part.free ∈ ps := by assumption) (p2 : Part.out ∈ ps := by assumption) (p3
    : Part.rings ∈ ps := by assumption) (p4 : Part.evt ∈ ps := by assumption) (p5 : Part.tlm ∈ ps := by assumption) (p6 :
    Part.cad ∈ ps := by assumption) (p7 : Part.own ∈ ps := by assumption) (p8 : Part.counters ∈ ps := by assumption) (p9 :
    Part.mon ∈ ps := by assumption) : Only ps a (chanterFirst x1 x2 s) := by
  simp only [chanterFirst]
  repeat' first
    | (with_reducible first | assumption | apply foldl_only | apply forFin_only | apply firstBeat_only
                            | apply modCad_only | apply sendMarks_only)

theorem holdNote_only (h : Only ps a s) (p1 : Part.ports ∈ ps := by assumption) : Only ps a (holdNote s) := by
  simp +contextual only [holdNote, only_mk, h, true_or, or_true, p1]

theorem inheritHoldover_only (h : Only ps a s) (p1 : Part.cad ∈ ps := by assumption) (p2 : Part.own ∈ ps := by assumption)
    (p3 : Part.ports ∈ ps := by assumption) : Only ps a (inheritHoldover x1 s) := by
  simp +contextual only [inheritHoldover, forFin_only, foldl_only, modCad_only, holdNote_only, h, implies_true, true_or,
    or_true, and_self, p1, p2, p3]

theorem leaveHoldover_only (h : Only ps a s) (p1 : Part.evt ∈ ps := by assumption) (p2 : Part.cad ∈ ps := by assumption) (p3
    : Part.own ∈ ps := by assumption) (p4 : Part.counters ∈ ps := by assumption) : Only ps a (leaveHoldover x1 s) := by
  simp +contextual only [leaveHoldover, modCad_only, raise_only, h, p1, p2, p3, p4]

theorem enterHoldover_only (h : Only ps a s) (p1 : Part.evt ∈ ps := by assumption) (p2 : Part.cad ∈ ps := by assumption) (p3
    : Part.own ∈ ps := by assumption) (p4 : Part.ports ∈ ps := by assumption) (p5 : Part.counters ∈ ps := by assumption) : Only
    ps a (enterHoldover x1 s) := by
  simp only [enterHoldover]
  repeat' first
    | (with_reducible first | assumption | apply foldl_only | apply forFin_only | apply modCad_only
                            | apply raise_only | apply holdNote_only)
    | simp only [and_self, p1, p2, p3, p4, p5]
    | split
    | dsimp only
    | (with_reducible first | refine only_snd (by assumption) ?_ | refine only_fst (by assumption) ?_)
    | intro

theorem beatInEdge_only (h : Only ps a s) (p1 : Part.free ∈ ps := by assumption) (p2 : Part.out ∈ ps := by assumption) (p3 :
    Part.rings ∈ ps := by assumption) (p4 : Part.evt ∈ ps := by assumption) (p5 : Part.tlm ∈ ps := by assumption) (p6 : Part.cad
    ∈ ps := by assumption) (p7 : Part.own ∈ ps := by assumption) (p8 : Part.counters ∈ ps := by assumption) (p9 : Part.mon ∈ ps
    := by assumption) : Only ps a (beatInEdge x1 s) := by
  unfold beatInEdge
  split
  · exact h
  split
  · exact h
  split
  · extract_lets +onlyGivenNames l
    simp only [Only_ite, chanterFirst_only, modCad_only, h, implies_true, true_or, or_true, and_self, p1, p2, p3, p4, p5, p6, p7, p8, p9]
  extract_lets +onlyGivenNames p dly d since
  split
  · exact h
  split
  · extract_lets +onlyGivenNames was s1 s2
    have h1 : Only ps a s1 := modCad_only h
    have h2 : Only ps a s2 := by simp only [s2, Only_ite, leaveHoldover_only, h1, implies_true, true_or, or_true, and_self, p1, p2, p3, p4, p5, p6, p7, p8, p9]
    exact chanterBeat_only h2
  refine (Only_ite _).2 ⟨fun _ => ?_, fun _ => ?_⟩
  · extract_lets +onlyGivenNames ofs l was s1 s2
    have h1 : Only ps a s1 := modCad_only h
    have h2 : Only ps a s2 := by simp only [s2, Only_ite, leaveHoldover_only, h1, implies_true, true_or, or_true, and_self, p1, p2, p3, p4, p5, p6, p7, p8, p9]
    exact chanterBeat_only h2
  extract_lets +onlyGivenNames l s1 s2
  have h2 : Only ps a s2 := raiseLimited_only (modCad_only h)
  clear_value s2
  split
  · extract_lets +onlyGivenNames was q late lead ofs s3 s4
    have h3 : Only ps a s3 := modCad_only h2
    have h4 : Only ps a s4 := by simp only [s4, Only_ite, leaveHoldover_only, modCad_only, h3, implies_true, true_or, or_true, and_self, p1, p2, p3, p4, p5, p6, p7, p8, p9]
    simp only [Only_ite, chanterBeat_only, modCad_only, h4, implies_true, true_or, or_true, and_self, p1, p2, p3, p4, p5, p6, p7, p8, p9]
  · exact h2

theorem ownMark_only (h : Only ps a s) (p1 : Part.free ∈ ps := by assumption) (p2 : Part.out ∈ ps := by assumption) (p3 :
    Part.rings ∈ ps := by assumption) (p4 : Part.evt ∈ ps := by assumption) (p5 : Part.tlm ∈ ps := by assumption) (p6 : Part.cad
    ∈ ps := by assumption) (p7 : Part.own ∈ ps := by assumption) (p8 : Part.ports ∈ ps := by assumption) (p9 : Part.counters ∈
    ps := by assumption) (p10 : Part.mon ∈ ps := by assumption) : Only ps a (ownMark s) := by
  simp only [ownMark]
  repeat' first
    | (with_reducible first | assumption | apply foldl_only | apply forFin_only | apply modCad_only
                            | apply enterHoldover_only | apply chanterBeat_only)
    | simp only [only_mk, true_or, or_true, and_self, p1, p2, p3, p4, p5, p6, p7, p8, p9, p10]
    | split

theorem variableHoldover_only (h : Only ps a s) (p1 : Part.evt ∈ ps := by assumption) (p2 : Part.cad ∈ ps := by assumption)
    (p3 : Part.own ∈ ps := by assumption) (p4 : Part.ports ∈ ps := by assumption) (p5 : Part.counters ∈ ps := by assumption) :
    Only ps a (variableHoldover s) := by
  simp +contextual only [variableHoldover, Only_ite, enterHoldover_only, h, implies_true, and_self, p1, p2, p3, p4, p5]

theorem acquiringTimeout_only (h : Only ps a s) (p1 : Part.evt ∈ ps := by assumption) (p2 : Part.cad ∈ ps := by assumption)
    (p3 : Part.own ∈ ps := by assumption) (p4 : Part.counters ∈ ps := by assumption) : Only ps a (acquiringTimeout s) := by
  simp +contextual only [acquiringTimeout, Only_ite, modCad_only, raise_only, h, implies_true, and_self, p1, p2, p3, p4]

theorem takeTree_only (h : Only ps a s) (p1 : Part.cad ∈ ps := by assumption) (p2 : Part.own ∈ ps := by assumption) : Only
    ps a (takeTree x1 s) := by
  simp +contextual only [takeTree, modCad_only, h, p1, p2]

theorem followTree_only (h : Only ps a s) (p1 : Part.out ∈ ps := by assumption) (p2 : Part.rings ∈ ps := by assumption) (p3
    : Part.evt ∈ ps := by assumption) (p4 : Part.tlm ∈ ps := by assumption) (p5 : Part.cad ∈ ps := by assumption) (p6 : Part.own
    ∈ ps := by assumption) (p7 : Part.counters ∈ ps := by assumption) (p8 : Part.mon ∈ ps := by assumption) : Only ps a
    (followTree x1 x2 s) := by
  simp +contextual only [followTree, takeTree_only, startBeat_only, h, p1, p2, p3, p4, p5, p6, p7, p8]

theorem firstFollow_only (h : Only ps a s) (p1 : Part.out ∈ ps := by assumption) (p2 : Part.rings ∈ ps := by assumption) (p3
    : Part.evt ∈ ps := by assumption) (p4 : Part.tlm ∈ ps := by assumption) (p5 : Part.cad ∈ ps := by assumption) (p6 : Part.own
    ∈ ps := by assumption) (p7 : Part.ports ∈ ps := by assumption) (p8 : Part.counters ∈ ps := by assumption) (p9 : Part.mon ∈
    ps := by assumption) : Only ps a (firstFollow x1 s) := by
  unfold firstFollow
  extract_lets +onlyGivenNames y s1 s2
  have h1 : Only ps a s1 := modCad_only h
  clear_value s1
  have h2 : Only ps a s2 := by simp only [s2, Only_ite, inheritHoldover_only, h1, implies_true, and_self, p1, p2, p3, p4, p5, p6, p7, p8, p9]
  exact firstBeat_only (takeTree_only h2)

theorem treeLost_only (h : Only ps a s) (p1 : Part.evt ∈ ps := by assumption) (p2 : Part.cad ∈ ps := by assumption) (p3 :
    Part.own ∈ ps := by assumption) (p4 : Part.ports ∈ ps := by assumption) (p5 : Part.counters ∈ ps := by assumption) : Only ps
    a (treeLost x1 x2 s) := by
  simp +contextual only [treeLost, Only_ite, inheritHoldover_only, modCad_only, enterHoldover_only, h, implies_true,
    and_self, p1, p2, p3, p4, p5]

theorem droneMark_only (h : Only ps a s) (p1 : Part.out ∈ ps := by assumption) (p2 : Part.rings ∈ ps := by assumption) (p3 :
    Part.evt ∈ ps := by assumption) (p4 : Part.tlm ∈ ps := by assumption) (p5 : Part.cad ∈ ps := by assumption) (p6 : Part.own ∈
    ps := by assumption) (p7 : Part.ports ∈ ps := by assumption) (p8 : Part.counters ∈ ps := by assumption) (p9 : Part.mon ∈ ps
    := by assumption) : Only ps a (droneMark x1 s) := by
  simp only [droneMark]
  repeat' first
    | (with_reducible first | assumption | apply foldl_only | apply forFin_only | apply leaveHoldover_only
                            | apply inheritHoldover_only | apply firstFollow_only | apply modCad_only
                            | apply treeLost_only | apply raise_only | apply followTree_only)
    | simp only [only_mk, true_or, or_true, and_self, p1, p2, p3, p4, p5, p6, p7, p8, p9]
    | split

theorem linkDown_only (h : Only ps a s) (p1 : Part.evt ∈ ps := by assumption) (p2 : Part.cad ∈ ps := by assumption) (p3 :
    Part.own ∈ ps := by assumption) (p4 : Part.ports ∈ ps := by assumption) (p5 : Part.counters ∈ ps := by assumption) : Only ps
    a (linkDown x1 s) := by
  simp only [linkDown]
  repeat' first
    | (with_reducible first | assumption | apply foldl_only | apply forFin_only | apply modTree_only
                            | apply modLink_only | apply modCad_only | apply treeLost_only
                            | apply raise_only)
    | simp only [only_mk, true_or, or_true, and_self, p1, p2, p3, p4, p5]
    | split

theorem markArrives_only (h : Only ps a s) (p1 : Part.cad ∈ ps := by assumption) (p2 : Part.own ∈ ps := by assumption) :
    Only ps a (markArrives x1 s) := by
  simp +contextual only [markArrives, Only_ite, modTree_only, h, implies_true, and_self, p1, p2]

theorem beatMessage_only (h : Only ps a s) (p1 : Part.free ∈ ps := by assumption) (p2 : Part.out ∈ ps := by assumption) (p3
    : Part.rings ∈ ps := by assumption) (p4 : Part.evt ∈ ps := by assumption) (p5 : Part.tlm ∈ ps := by assumption) (p6 :
    Part.cad ∈ ps := by assumption) (p7 : Part.own ∈ ps := by assumption) (p8 : Part.ports ∈ ps := by assumption) (p9 :
    Part.counters ∈ ps := by assumption) (p10 : Part.mon ∈ ps := by assumption) : Only ps a (beatMessage x1 x2 s) := by
  simp only [beatMessage]
  repeat' first
    | (with_reducible first | assumption | apply foldl_only | apply forFin_only | apply linkDown_only
                            | apply modTree_only | apply modLink_only | apply droneMark_only
                            | apply sendMarks_only)
    | simp only [only_mk, true_or, or_true, and_self, p1, p2, p3, p4, p5, p6, p7, p8, p9, p10]
    | split
    | dsimp only
    | (with_reducible first | refine only_snd (by assumption) ?_ | refine only_fst (by assumption) ?_)
    | intro

theorem treeRoll_only (h : Only ps a s) (p1 : Part.free ∈ ps := by assumption) (p2 : Part.out ∈ ps := by assumption) (p3 :
    Part.cad ∈ ps := by assumption) (p4 : Part.own ∈ ps := by assumption) : Only ps a (treeRoll x1 s) := by
  simp +contextual only [treeRoll, Only_ite, only_mk, forFin_only, foldl_only, modTree_only, sendMarks_only, h,
    implies_true, true_or, or_true, and_self, p1, p2, p3, p4]

theorem markMissing_only (h : Only ps a s) (p1 : Part.free ∈ ps := by assumption) (p2 : Part.out ∈ ps := by assumption) (p3
    : Part.evt ∈ ps := by assumption) (p4 : Part.cad ∈ ps := by assumption) (p5 : Part.own ∈ ps := by assumption) (p6 :
    Part.ports ∈ ps := by assumption) (p7 : Part.counters ∈ ps := by assumption) : Only ps a (markMissing x1 s) := by
  simp only [markMissing]
  repeat' first
    | (with_reducible first | assumption | apply foldl_only | apply forFin_only | apply modTree_only
                            | apply treeRoll_only | apply treeLost_only)
    | simp only [only_mk, true_or, or_true, and_self, p1, p2, p3, p4, p5, p6, p7]
    | split

theorem droneRoll_only (h : Only ps a s) (p1 : Part.out ∈ ps := by assumption) (p2 : Part.rings ∈ ps := by assumption) (p3 :
    Part.evt ∈ ps := by assumption) (p4 : Part.tlm ∈ ps := by assumption) (p5 : Part.cad ∈ ps := by assumption) (p6 : Part.own ∈
    ps := by assumption) (p7 : Part.counters ∈ ps := by assumption) (p8 : Part.mon ∈ ps := by assumption) : Only ps a (droneRoll
    s) := by
  simp +contextual only [droneRoll, Only_ite, only_mk, forFin_only, foldl_only, startBeat_only, h, implies_true, true_or,
    or_true, and_self, p1, p2, p3, p4, p5, p6, p7, p8]

theorem spreadCorrection_only (h : Only ps a s) (p1 : Part.cad ∈ ps := by assumption) (p2 : Part.own ∈ ps := by assumption)
    : Only ps a (spreadCorrection x1 s) := by
  simp +contextual only [spreadCorrection, Only_ite, modCad_only, h, implies_true, and_self, p1, p2]

theorem summaryArrives_only (h : Only ps a s) (p1 : Part.rings ∈ ps := by assumption) (p2 : Part.evt ∈ ps := by assumption)
    (p3 : Part.tlm ∈ ps := by assumption) (p4 : Part.cad ∈ ps := by assumption) (p5 : Part.own ∈ ps := by assumption) (p6 :
    Part.counters ∈ ps := by assumption) : Only ps a (summaryArrives x1 x2 s) := by
  simp +contextual only [summaryArrives, Only_ite, modLink_only, summaryJudge_only, h, implies_true, and_self, p1, p2, p3,
    p4, p5, p6]

theorem extraSummary_only (h : Only ps a s) (p1 : Part.out ∈ ps := by assumption) (p2 : Part.cad ∈ ps := by assumption) (p3
    : Part.own ∈ ps := by assumption) : Only ps a (extraSummary s) := by
  simp +contextual only [extraSummary, Only_ite, sendSummaries_only, modCad_only, h, implies_true, and_self, p1, p2, p3]

/-! ### Enumeration -/

theorem setRun_only (h : Only ps a s) (p1 : Part.cad ∈ ps := by assumption) (p2 : Part.own ∈ ps := by assumption) : Only ps
    a (setRun x1 x2 s) := by
  simp only [setRun]
  repeat' first
    | (with_reducible first | assumption | apply foldl_only | apply forFin_only | apply modCad_only)
    | simp only [only_mk, true_or, or_true, and_self, p1, p2]
    | split

theorem setEpoch_only (h : Only ps a s) (p1 : Part.cad ∈ ps := by assumption) (p2 : Part.own ∈ ps := by assumption) : Only
    ps a (setEpoch x1 x2 s) := by
  simp only [setEpoch]
  repeat' first
    | (with_reducible first | assumption | apply foldl_only | apply forFin_only | apply modCad_only)
    | simp only [only_mk, true_or, or_true, and_self, p1, p2]
    | split
    | dsimp only
    | (with_reducible first | refine only_snd (by assumption) ?_ | refine only_fst (by assumption) ?_)
    | intro

theorem setIndex_only (h : Only ps a s) (p1 : Part.evt ∈ ps := by assumption) (p2 : Part.cad ∈ ps := by assumption) (p3 :
    Part.own ∈ ps := by assumption) (p4 : Part.counters ∈ ps := by assumption) : Only ps a (setIndex x1 x2 s) := by
  simp only [setIndex]
  repeat' first
    | (with_reducible first | assumption | apply foldl_only | apply forFin_only | apply modCad_only
                            | apply raise_only)
    | simp only [only_mk, true_or, or_true, and_self, p1, p2, p3, p4]
    | split

theorem applyAssign_only (h : Only ps a s) (p1 : Part.out ∈ ps := by assumption) (p2 : Part.evt ∈ ps := by assumption) (p3 :
    Part.cad ∈ ps := by assumption) (p4 : Part.own ∈ ps := by assumption) (p5 : Part.counters ∈ ps := by assumption) : Only ps a
    (applyAssign x1 x2 x3 x4 x5 x6 x7 s) := by
  unfold applyAssign
  extract_lets +onlyGivenNames run claim free ix s1 next
  have h1 : Only ps a s1 := setIndex_only h
  clear_value s1
  refine foldl_fst_only _ _ (fun i z hz => ?_) h1
  dsimp only
  split
  · exact hz
  · exact emit_only hz

theorem beginRun_only (h : Only ps a s) (p1 : Part.out ∈ ps := by assumption) (p2 : Part.cad ∈ ps := by assumption) (p3 :
    Part.own ∈ ps := by assumption) : Only ps a (beginRun x1 x2 x3 x4 x5 x6 x7 s) := by
  simp only [beginRun]
  repeat' first
    | (with_reducible first | assumption | apply foldl_only | apply forFin_only | apply modLink_only
                            | apply setRun_only | apply modCad_only | apply post_only)
    | simp only [only_mk, true_or, or_true, and_self, p1, p2, p3]
    | split
    | dsimp only
    | (with_reducible first | refine only_snd (by assumption) ?_ | refine only_fst (by assumption) ?_)
    | intro

theorem joinNext_only (h : Only ps a s) (p1 : Part.out ∈ ps := by assumption) (p2 : Part.cad ∈ ps := by assumption) (p3 :
    Part.own ∈ ps := by assumption) : Only ps a (joinNext x1 s) := by
  simp only [joinNext]
  repeat' first
    | (with_reducible first | assumption | apply foldl_only | apply forFin_only | apply beginRun_only)
    | simp only [only_mk, true_or, or_true, and_self, p1, p2, p3]
    | split
    | dsimp only
    | (with_reducible first | refine only_snd (by assumption) ?_ | refine only_fst (by assumption) ?_)
    | intro

theorem chanterFinish_only (h : Only ps a s) (p1 : Part.out ∈ ps := by assumption) (p2 : Part.rings ∈ ps := by assumption)
    (p3 : Part.evt ∈ ps := by assumption) (p4 : Part.cad ∈ ps := by assumption) (p5 : Part.own ∈ ps := by assumption) (p6 :
    Part.counters ∈ ps := by assumption) : Only ps a (chanterFinish x1 x2 s) := by
  simp only [chanterFinish]
  repeat' first
    | (with_reducible first | assumption | apply foldl_only | apply forFin_only | apply done_only
                            | apply applyAssign_only | apply setRun_only | apply modCad_only
                            | apply joinNext_only | apply raise_only | apply beginRun_only)
    | simp only [only_mk, true_or, or_true, and_self, p1, p2, p3, p4, p5, p6]
    | split
    | dsimp only
    | (with_reducible first | refine only_snd (by assumption) ?_ | refine only_fst (by assumption) ?_)
    | intro

theorem reservedFor_only (h : Only ps a s) (p1 : Part.free ∈ ps := by assumption) : Only ps a (reservedFor x1 x2 s).2 := by
  simp only [reservedFor]
  repeat' first
    | (with_reducible first | assumption | apply foldl_only | apply forFin_only | apply draw_only)
    | simp only [only_mk, true_or, or_true, and_self, p1]
    | split
    | dsimp only
    | (with_reducible first | refine only_snd (by assumption) ?_ | refine only_fst (by assumption) ?_)
    | intro

theorem grantJoin_only (h : Only ps a s) (p1 : Part.free ∈ ps := by assumption) (p2 : Part.out ∈ ps := by assumption) (p3 :
    Part.cad ∈ ps := by assumption) (p4 : Part.own ∈ ps := by assumption) : Only ps a (grantJoin x1 x2 x3 x4 x5 x6 s) := by
  simp only [grantJoin]
  repeat' first
    | (with_reducible first | assumption | apply foldl_only | apply forFin_only | apply reservedFor_only
                            | apply modCad_only | apply post_only)
    | simp only [p1, p2, p3, p4]
    | split
    | dsimp only
    | (with_reducible first | refine only_snd (by assumption) ?_ | refine only_fst (by assumption) ?_)
    | intro

theorem finishRun_only (h : Only ps a s) (p1 : Part.free ∈ ps := by assumption) (p2 : Part.out ∈ ps := by assumption) (p3 :
    Part.rings ∈ ps := by assumption) (p4 : Part.evt ∈ ps := by assumption) (p5 : Part.cad ∈ ps := by assumption) (p6 : Part.own
    ∈ ps := by assumption) (p7 : Part.counters ∈ ps := by assumption) : Only ps a (finishRun x1 s) := by
  simp only [finishRun]
  repeat' first
    | (with_reducible first | assumption | apply foldl_only | apply forFin_only | apply setRun_only
                            | apply post_only | apply joinNext_only | apply grantJoin_only
                            | apply chanterFinish_only)
    | simp only [only_mk, true_or, or_true, and_self, p1, p2, p3, p4, p5, p6, p7]
    | split

theorem startEnum_only (h : Only ps a s) (p1 : Part.free ∈ ps := by assumption) (p2 : Part.out ∈ ps := by assumption) (p3 :
    Part.rings ∈ ps := by assumption) (p4 : Part.evt ∈ ps := by assumption) (p5 : Part.cad ∈ ps := by assumption) (p6 : Part.own
    ∈ ps := by assumption) (p7 : Part.counters ∈ ps := by assumption) : Only ps a (startEnum x1 s) := by
  simp only [startEnum]
  repeat' first
    | (with_reducible first | assumption | apply foldl_only | apply forFin_only | apply setEpoch_only
                            | apply modCad_only | apply finishRun_only | apply beginRun_only)
    | simp only [only_mk, true_or, or_true, and_self, p1, p2, p3, p4, p5, p6, p7]
    | split

theorem enumTimer_only (h : Only ps a s) (p1 : Part.free ∈ ps := by assumption) (p2 : Part.out ∈ ps := by assumption) (p3 :
    Part.rings ∈ ps := by assumption) (p4 : Part.evt ∈ ps := by assumption) (p5 : Part.cad ∈ ps := by assumption) (p6 : Part.own
    ∈ ps := by assumption) (p7 : Part.counters ∈ ps := by assumption) : Only ps a (enumTimer s) := by
  simp +contextual only [enumTimer, Only_ite, only_mk, forFin_only, foldl_only, startEnum_only, h, implies_true, true_or,
    or_true, and_self, p1, p2, p3, p4, p5, p6, p7]

theorem beatTake_only (h : Only ps a s) (p1 : Part.free ∈ ps := by assumption) (p2 : Part.out ∈ ps := by assumption) (p3 :
    Part.rings ∈ ps := by assumption) (p4 : Part.evt ∈ ps := by assumption) (p5 : Part.tlm ∈ ps := by assumption) (p6 : Part.cad
    ∈ ps := by assumption) (p7 : Part.own ∈ ps := by assumption) (p8 : Part.ports ∈ ps := by assumption) (p9 : Part.counters ∈
    ps := by assumption) (p10 : Part.mon ∈ ps := by assumption) : Only ps a (beatTake x1 x2 s) := by
  simp only [beatTake]
  repeat' first
    | (with_reducible first | assumption | apply foldl_only | apply forFin_only | apply startEnum_only
                            | apply joinNext_only | apply beatMessage_only)
    | simp only [only_mk, true_or, or_true, and_self, p1, p2, p3, p4, p5, p6, p7, p8, p9, p10]
    | split
    | dsimp only
    | (with_reducible first | refine only_snd (by assumption) ?_ | refine only_fst (by assumption) ?_)
    | intro

theorem enumOrder_only (h : Only ps a s) (p1 : Part.free ∈ ps := by assumption) (p2 : Part.out ∈ ps := by assumption) (p3 :
    Part.rings ∈ ps := by assumption) (p4 : Part.evt ∈ ps := by assumption) (p5 : Part.cad ∈ ps := by assumption) (p6 : Part.own
    ∈ ps := by assumption) (p7 : Part.counters ∈ ps := by assumption) : Only ps a (enumOrder x1 x2 s) := by
  simp only [enumOrder]
  repeat' first
    | (with_reducible first | assumption | apply foldl_only | apply forFin_only | apply setEpoch_only
                            | apply finishRun_only | apply beginRun_only)
    | simp only [only_mk, true_or, or_true, and_self, p1, p2, p3, p4, p5, p6, p7]
    | split

theorem enumReport_only (h : Only ps a s) (p1 : Part.free ∈ ps := by assumption) (p2 : Part.out ∈ ps := by assumption) (p3 :
    Part.rings ∈ ps := by assumption) (p4 : Part.evt ∈ ps := by assumption) (p5 : Part.cad ∈ ps := by assumption) (p6 : Part.own
    ∈ ps := by assumption) (p7 : Part.counters ∈ ps := by assumption) : Only ps a (enumReport x1 x2 s) := by
  simp only [enumReport]
  repeat' first
    | (with_reducible first | assumption | apply foldl_only | apply forFin_only | apply modLink_only
                            | apply setRun_only | apply finishRun_only)
    | simp only [only_mk, true_or, or_true, and_self, p1, p2, p3, p4, p5, p6, p7]
    | split

theorem enumTimeout_only (h : Only ps a s) (p1 : Part.free ∈ ps := by assumption) (p2 : Part.out ∈ ps := by assumption) (p3
    : Part.rings ∈ ps := by assumption) (p4 : Part.evt ∈ ps := by assumption) (p5 : Part.cad ∈ ps := by assumption) (p6 :
    Part.own ∈ ps := by assumption) (p7 : Part.counters ∈ ps := by assumption) : Only ps a (enumTimeout x1 s) := by
  simp only [enumTimeout]
  repeat' first
    | (with_reducible first | assumption | apply foldl_only | apply forFin_only | apply setRun_only
                            | apply modCad_only | apply finishRun_only)
    | simp only [only_mk, true_or, or_true, and_self, p1, p2, p3, p4, p5, p6, p7]
    | split

theorem enumAssign_only (h : Only ps a s) (p1 : Part.out ∈ ps := by assumption) (p2 : Part.evt ∈ ps := by assumption) (p3 :
    Part.cad ∈ ps := by assumption) (p4 : Part.own ∈ ps := by assumption) (p5 : Part.counters ∈ ps := by assumption) : Only ps a
    (enumAssign x1 x2 s) := by
  simp only [enumAssign]
  repeat' first
    | (with_reducible first | assumption | apply foldl_only | apply forFin_only | apply applyAssign_only
                            | apply setRun_only | apply joinNext_only)
    | simp only [only_mk, true_or, or_true, and_self, p1, p2, p3, p4, p5]
    | split

theorem joinReq_only (h : Only ps a s) (p1 : Part.free ∈ ps := by assumption) (p2 : Part.out ∈ ps := by assumption) (p3 :
    Part.cad ∈ ps := by assumption) (p4 : Part.own ∈ ps := by assumption) : Only ps a (joinReq x1 x2 s) := by
  simp +contextual only [joinReq, Only_ite, modCad_only, post_only, grantJoin_only, h, implies_true, and_self, p1, p2, p3,
    p4]

theorem joinGrant_only (h : Only ps a s) (p1 : Part.out ∈ ps := by assumption) (p2 : Part.evt ∈ ps := by assumption) (p3 :
    Part.cad ∈ ps := by assumption) (p4 : Part.own ∈ ps := by assumption) (p5 : Part.counters ∈ ps := by assumption) : Only ps a
    (joinGrant x1 x2 s) := by
  simp only [joinGrant]
  repeat' first
    | (with_reducible first | assumption | apply foldl_only | apply forFin_only | apply applyAssign_only
                            | apply setRun_only | apply post_only | apply joinNext_only)
    | simp only [only_mk, true_or, or_true, and_self, p1, p2, p3, p4, p5]
    | split

/-! ### Links -/

theorem linkCheckUp_only (h : Only ps a s) (p1 : Part.out ∈ ps := by assumption) (p2 : Part.evt ∈ ps := by assumption) (p3 :
    Part.cad ∈ ps := by assumption) (p4 : Part.own ∈ ps := by assumption) (p5 : Part.counters ∈ ps := by assumption) : Only ps a
    (linkCheckUp x1 s) := by
  simp only [linkCheckUp]
  repeat' first
    | (with_reducible first | assumption | apply foldl_only | apply forFin_only | apply modLink_only
                            | apply modCad_only | apply joinNext_only | apply raise_only)
    | simp only [only_mk, true_or, or_true, and_self, p1, p2, p3, p4, p5]
    | split

theorem commaAlign_only (h : Only ps a s) (p1 : Part.cad ∈ ps := by assumption) (p2 : Part.own ∈ ps := by assumption) : Only
    ps a (commaAlign x1 s) := by
  simp +contextual only [commaAlign, Only_ite, modLink_only, h, implies_true, and_self, p1, p2]

theorem keepAlive_only (h : Only ps a s) (p1 : Part.out ∈ ps := by assumption) (p2 : Part.evt ∈ ps := by assumption) (p3 :
    Part.cad ∈ ps := by assumption) (p4 : Part.own ∈ ps := by assumption) (p5 : Part.counters ∈ ps := by assumption) : Only ps a
    (keepAlive x1 x2 x3 s) := by
  simp only [keepAlive]
  repeat' first
    | (with_reducible first | assumption | apply foldl_only | apply forFin_only | apply modLink_only
                            | apply linkCheckUp_only | apply linkError_only)
    | simp only [and_self, p1, p2, p3, p4, p5]
    | split
    | dsimp only
    | (with_reducible first | refine only_snd (by assumption) ?_ | refine only_fst (by assumption) ?_)
    | intro

theorem probeInterval_only (h : Only ps a s) (p1 : Part.out ∈ ps := by assumption) (p2 : Part.cad ∈ ps := by assumption) (p3
    : Part.own ∈ ps := by assumption) : Only ps a (probeInterval x1 s) := by
  simp +contextual only [probeInterval, Only_ite, modLink_only, emit_only, h, implies_true, and_self, p1, p2, p3]

theorem probeArrives_only (h : Only ps a s) (p1 : Part.free ∈ ps := by assumption) (p2 : Part.out ∈ ps := by assumption) (p3
    : Part.evt ∈ ps := by assumption) (p4 : Part.cad ∈ ps := by assumption) (p5 : Part.own ∈ ps := by assumption) (p6 :
    Part.counters ∈ ps := by assumption) : Only ps a (probeArrives x1 s) := by
  simp only [probeArrives]
  repeat' first
    | (with_reducible first | assumption | apply foldl_only | apply forFin_only | apply modLink_only
                            | apply linkCheckUp_only | apply draw_only | apply emit_only
                            | apply post_only)
    | simp only [only_mk, true_or, or_true, and_self, p1, p2, p3, p4, p5, p6]
    | split

theorem probeEchoArrives_only (h : Only ps a s) (p1 : Part.cad ∈ ps := by assumption) (p2 : Part.own ∈ ps := by assumption)
    : Only ps a (probeEchoArrives x1 x2 s) := by
  simp +contextual only [probeEchoArrives, Only_ite, modLink_only, h, implies_true, and_self, p1, p2]

theorem probeTurn_only (h : Only ps a s) (p1 : Part.out ∈ ps := by assumption) (p2 : Part.evt ∈ ps := by assumption) (p3 :
    Part.cad ∈ ps := by assumption) (p4 : Part.own ∈ ps := by assumption) (p5 : Part.ports ∈ ps := by assumption) (p6 :
    Part.counters ∈ ps := by assumption) : Only ps a (probeTurn x1 x2 s) := by
  simp only [probeTurn]
  repeat' first
    | (with_reducible first | assumption | apply foldl_only | apply forFin_only | apply linkDown_only
                            | apply modLink_only | apply linkCheckUp_only | apply post_only)
    | simp only [only_mk, true_or, or_true, and_self, p1, p2, p3, p4, p5, p6]
    | split

theorem linkDelay_only (h : Only ps a s) (p1 : Part.evt ∈ ps := by assumption) (p2 : Part.cad ∈ ps := by assumption) (p3 :
    Part.own ∈ ps := by assumption) (p4 : Part.ports ∈ ps := by assumption) (p5 : Part.counters ∈ ps := by assumption) : Only ps
    a (linkDelay x1 x2 s) := by
  simp only [linkDelay]
  repeat' first
    | (with_reducible first | assumption | apply foldl_only | apply forFin_only | apply linkDown_only
                            | apply modLink_only)
    | simp only [only_mk, true_or, or_true, and_self, p1, p2, p3, p4, p5]
    | split

theorem abortArrives_only (h : Only ps a s) : Only ps a (abortArrives x1 s) := by
  simp +contextual only [abortArrives, Only_ite, h, implies_true, and_self]

theorem broadcast_only (h : Only ps a s) (p1 : Part.out ∈ ps := by assumption) : Only ps a (broadcast x1 x2 x3 s) := by
  simp +contextual only [broadcast, foldl_only, post_only, h, implies_true, p1]

theorem domFree_only (h : Only ps a s) (p1 : Part.cad ∈ ps := by assumption) (p2 : Part.own ∈ ps := by assumption) : Only ps
    a (domFree x1 s) := by
  simp only [domFree]
  repeat' first
    | (with_reducible first | assumption | apply foldl_only | apply forFin_only | apply clearSlot_only
                            | apply modCad_only | apply forFin_only)
    | simp only [only_mk, true_or, or_true, and_self, p1, p2]
    | split
    | dsimp only
    | (with_reducible first | refine only_snd (by assumption) ?_ | refine only_fst (by assumption) ?_)
    | intro

theorem domTake_only (h : Only ps a s) (p1 : Part.evt ∈ ps := by assumption) (p2 : Part.cad ∈ ps := by assumption) (p3 :
    Part.own ∈ ps := by assumption) (p4 : Part.counters ∈ ps := by assumption) : Only ps a (domTake x1 x2 s) := by
  simp +contextual only [domTake, Only_ite, domInstall_only, modCad_only, h, implies_true, and_self, p1, p2, p3, p4]

theorem relay_only (h : Only ps a s) (p1 : Part.out ∈ ps := by assumption) : Only ps a (relay x1 x2 x3 s) := by
  simp +contextual only [relay, Only_ite, broadcast_only, h, implies_true, and_self, p1]

theorem domEntry_only (h : Only ps a s) (p1 : Part.out ∈ ps := by assumption) (p2 : Part.evt ∈ ps := by assumption) (p3 :
    Part.cad ∈ ps := by assumption) (p4 : Part.own ∈ ps := by assumption) (p5 : Part.counters ∈ ps := by assumption) : Only ps a
    (domEntry x1 x2 s) := by
  simp +contextual only [domEntry, Only_ite, domTake_only, relay_only, h, implies_true, and_self, p1, p2, p3, p4, p5]

theorem domCancelMsg_only (h : Only ps a s) (p1 : Part.out ∈ ps := by assumption) (p2 : Part.cad ∈ ps := by assumption) (p3
    : Part.own ∈ ps := by assumption) : Only ps a (domCancelMsg x1 x2 s) := by
  simp +contextual only [domCancelMsg, Only_ite, domFree_only, relay_only, h, implies_true, and_self, p1, p2, p3]

end Sys2Proof.Machine
end

