-- ==== Sys2Proof/Laws/OnlyLane.lean ====
section
/-! SUPPORT. `Only` for every operation of the lanes, training, latency, codes, frames and host lanes that does not reach every part. -/

-- One proof after another: the package is compiled as one text, where proofs side by side take too much memory.
set_option Elab.async false

namespace Sys2Proof.Machine

open Sys2Proof

/-! ### Lane -/

theorem ocpDropped_only (h : Only ps a s) (p1 : Part.lines ∈ ps := by assumption) : Only ps a (ocpDropped x1 s) := by
  simp only [ocpDropped]
  repeat' first
    | (with_reducible first | assumption | apply foldl_only | apply forFin_only | apply modRx_only)
    | simp only [only_mk, true_or, or_true, and_self, p1]
    | split
    | dsimp only
    | (with_reducible first | refine only_snd (by assumption) ?_ | refine only_fst (by assumption) ?_)
    | intro

theorem ocpStart_only (h : Only ps a s) (p1 : Part.out ∈ ps := by assumption) (p2 : Part.lines ∈ ps := by assumption) (p3 :
    Part.ocp ∈ ps := by assumption) : Only ps a (ocpStart s) := by
  unfold ocpStart
  extract_lets s1
  have h1 : Only ps a s1 := foldl_only _ _ (fun i x hx => ocpDropped_only hx) (by simp only [only_mk, h, true_or, or_true,
      and_self, p1, p2, p3])
  clear_value s1
  split
  · exact h1
  · exact emit_only (by simp only [only_mk, h1, true_or, or_true, and_self, p1, p2, p3])

theorem ocpPush_only (h : Only ps a s) (p1 : Part.out ∈ ps := by assumption) (p2 : Part.lines ∈ ps := by assumption) (p3 :
    Part.ocp ∈ ps := by assumption) : Only ps a (ocpPush x1 s) := by
  simp only [ocpPush]
  repeat' first
    | (with_reducible first | assumption | apply foldl_only | apply forFin_only | apply ocpStart_only)
    | simp only [only_mk, true_or, or_true, p1, p2, p3]
    | split

theorem tiaWrite_only (h : Only ps a s) (p1 : Part.out ∈ ps := by assumption) (p2 : Part.lines ∈ ps := by assumption) (p3 :
    Part.ocp ∈ ps := by assumption) : Only ps a (tiaWrite x1 x2 x3 s) := by
  simp +contextual only [tiaWrite, Only_ite, ocpPush_only, h, implies_true, and_self, p1, p2, p3]

theorem drvWrite_only (h : Only ps a s) (p1 : Part.out ∈ ps := by assumption) (p2 : Part.lines ∈ ps := by assumption) (p3 :
    Part.ocp ∈ ps := by assumption) : Only ps a (drvWrite x1 x2 x3 s) := by
  simp +contextual only [drvWrite, Only_ite, ocpPush_only, h, implies_true, and_self, p1, p2, p3]

theorem txStart_only (h : Only ps a s) (p1 : Part.out ∈ ps := by assumption) (p2 : Part.lines ∈ ps := by assumption) (p3 :
    Part.ocp ∈ ps := by assumption) : Only ps a (txStart x1 s) := by
  simp +contextual only [txStart, Only_ite, modLine_only, drvWrite_only, h, implies_true, and_self, p1, p2, p3]

theorem txPlainSet_only (h : Only ps a s) (p1 : Part.lines ∈ ps := by assumption) : Only ps a (txPlainSet x1 s) := by
  simp +contextual only [txPlainSet, Only_ite, only_mk, forFin_only, foldl_only, modLine_only, h, implies_true, true_or,
    or_true, and_self, p1]

theorem txUpdate_only (h : Only ps a s) (p1 : Part.out ∈ ps := by assumption) (p2 : Part.lines ∈ ps := by assumption) (p3 :
    Part.ocp ∈ ps := by assumption) : Only ps a (txUpdate x1 s) := by
  simp only [txUpdate]
  repeat' first
    | (with_reducible first | assumption | apply foldl_only | apply forFin_only | apply modTx_only
                            | apply modLine_only | apply txStart_only | apply txPlainSet_only)
    | simp only [and_self, p1, p2, p3]
    | split
    | dsimp only
    | (with_reducible first | refine only_snd (by assumption) ?_ | refine only_fst (by assumption) ?_)
    | intro

theorem txUpdateAll_only (h : Only ps a s) (p1 : Part.out ∈ ps := by assumption) (p2 : Part.lines ∈ ps := by assumption) (p3
    : Part.ocp ∈ ps := by assumption) : Only ps a (txUpdateAll s) := by
  simp +contextual only [txUpdateAll, forFin_only, txUpdate_only, forFin_only, h, implies_true, p1, p2, p3]

theorem txClear_only (h : Only ps a s) (p1 : Part.lines ∈ ps := by assumption) : Only ps a (txClear x1 s) := by
  simp +contextual only [txClear, modTx_only, h, p1]

theorem eqNote_only (h : Only ps a s) (p1 : Part.lines ∈ ps := by assumption) : Only ps a (eqNote x1 s) := by
  simp +contextual only [eqNote, Only_ite, only_mk, forFin_only, foldl_only, modEq_only, h, implies_true, true_or, or_true,
    and_self, p1]

theorem squelch_only (h : Only ps a s) (p1 : Part.evt ∈ ps := by assumption) (p2 : Part.own ∈ ps := by assumption) (p3 :
    Part.lines ∈ ps := by assumption) (p4 : Part.counters ∈ ps := by assumption) : Only ps a (squelch x1 x2 s) := by
  simp only [squelch]
  repeat' first
    | (with_reducible first | assumption | apply foldl_only | apply forFin_only | apply modRx_only
                            | apply raise_only)
    | simp only [only_mk, true_or, or_true, and_self, p1, p2, p3, p4]
    | split

theorem outageStart_only (h : Only ps a s) (p1 : Part.evt ∈ ps := by assumption) (p2 : Part.own ∈ ps := by assumption) (p3 :
    Part.lines ∈ ps := by assumption) (p4 : Part.counters ∈ ps := by assumption) : Only ps a (outageStart x1 s) := by
  simp +contextual only [outageStart, Only_ite, modRx_only, squelch_only, h, implies_true, and_self, p1, p2, p3, p4]

theorem outageFromOff_only (h : Only ps a s) (p1 : Part.evt ∈ ps := by assumption) (p2 : Part.own ∈ ps := by assumption) (p3
    : Part.lines ∈ ps := by assumption) (p4 : Part.counters ∈ ps := by assumption) : Only ps a (outageFromOff x1 s) := by
  simp +contextual only [outageFromOff, modRx_only, squelch_only, h, p1, p2, p3, p4]

theorem enterGain_only (h : Only ps a s) (p1 : Part.lines ∈ ps := by assumption) : Only ps a (enterGain x1 x2 s) := by
  simp only [enterGain]
  repeat' first
    | (with_reducible first | assumption | apply foldl_only | apply forFin_only | apply modLine_only
                            | apply eqNote_only | apply modRx_only)

theorem enterRelock_only (h : Only ps a s) (p1 : Part.out ∈ ps := by assumption) (p2 : Part.lines ∈ ps := by assumption) (p3
    : Part.ocp ∈ ps := by assumption) : Only ps a (enterRelock x1 s) := by
  simp only [enterRelock]
  repeat' first
    | (with_reducible first | assumption | apply foldl_only | apply forFin_only | apply modLine_only
                            | apply modFr_only | apply tiaWrite_only | apply eqNote_only
                            | apply modRx_only)
    | simp only [only_mk, true_or, or_true, and_self, p1, p2, p3]
    | split

theorem trnDrop_only (h : Only ps a s) (p1 : Part.lines ∈ ps := by assumption) (p2 : Part.arb ∈ ps := by assumption) : Only
    ps a (trnDrop x1 s) := by
  simp +contextual only [trnDrop, Only_ite, modTx_only, arbEnd_only, h, implies_true, and_self, p1, p2]

theorem trnStop_only (h : Only ps a s) (p1 : Part.lines ∈ ps := by assumption) : Only ps a (trnStop x1 s) := by
  simp +contextual only [trnStop, Only_ite, only_mk, forFin_only, foldl_only, modTx_only, h, implies_true, true_or, or_true,
    and_self, p1]

theorem trnAbandon_only (h : Only ps a s) (p1 : Part.evt ∈ ps := by assumption) (p2 : Part.own ∈ ps := by assumption) (p3 :
    Part.lines ∈ ps := by assumption) (p4 : Part.counters ∈ ps := by assumption) (p5 : Part.arb ∈ ps := by assumption) : Only ps
    a (trnAbandon x1 x2 s) := by
  simp only [trnAbandon]
  repeat' first
    | (with_reducible first | assumption | apply foldl_only | apply forFin_only | apply modTx_only
                            | apply trnDrop_only | apply raise_only)
    | simp only [only_mk, true_or, or_true, and_self, p1, p2, p3, p4, p5]
    | split

theorem enterDark_only (h : Only ps a s) (p1 : Part.evt ∈ ps := by assumption) (p2 : Part.own ∈ ps := by assumption) (p3 :
    Part.lines ∈ ps := by assumption) (p4 : Part.counters ∈ ps := by assumption) (p5 : Part.arb ∈ ps := by assumption) : Only ps
    a (enterDark x1 x2 s) := by
  simp only [enterDark]
  repeat' first
    | (with_reducible first | assumption | apply foldl_only | apply forFin_only | apply modLine_only
                            | apply outageStart_only | apply raise_only | apply trnAbandon_only)
    | simp only [only_mk, true_or, or_true, and_self, p1, p2, p3, p4, p5]
    | split

theorem rxOff_only (h : Only ps a s) (p1 : Part.lines ∈ ps := by assumption) : Only ps a (rxOff x1 s) := by
  simp +contextual only [rxOff, modLine_only, h, p1]

theorem rxHalt_only (h : Only ps a s) (p1 : Part.lines ∈ ps := by assumption) : Only ps a (rxHalt x1 s) := by
  simp +contextual only [rxHalt, modLine_only, h, p1]

theorem frmClear_only (h : Only ps a s) (p1 : Part.lines ∈ ps := by assumption) : Only ps a (frmClear x1 s) := by
  simp +contextual only [frmClear, modFr_only, h, p1]

theorem rxMayLeave_only (h : Only ps a s) (p1 : Part.lines ∈ ps := by assumption) : Only ps a (rxMayLeave x1 s) := by
  simp +contextual only [rxMayLeave, Only_ite, modRx_only, h, implies_true, and_self, p1]

theorem msgAbandon_only (h : Only ps a s) (p1 : Part.rings ∈ ps := by assumption) (p2 : Part.evt ∈ ps := by assumption) (p3
    : Part.own ∈ ps := by assumption) (p4 : Part.lines ∈ ps := by assumption) (p5 : Part.counters ∈ ps := by assumption) : Only
    ps a (msgAbandon x1 s) := by
  simp +contextual only [msgAbandon, foldl_only, done_only, modFr_only, h, implies_true, p1, p2, p3, p4, p5]

theorem hostHold_only (h : Only ps a s) (p1 : Part.hosts ∈ ps := by assumption) : Only ps a (hostHold x1 s) := by
  simp +contextual only [hostHold, modHost_only, h, p1]

theorem hostTiming_only (h : Only ps a s) (p1 : Part.hosts ∈ ps := by assumption) : Only ps a (hostTiming x1 x2 s) := by
  simp +contextual only [hostTiming, modHost_only, h, p1]

theorem hostResume_only (h : Only ps a s) (p1 : Part.hosts ∈ ps := by assumption) : Only ps a (hostResume x1 s) := by
  simp +contextual only [hostResume, modHost_only, h, p1]

theorem hostIdle_only (h : Only ps a s) (p1 : Part.hosts ∈ ps := by assumption) : Only ps a (hostIdle x1 s) := by
  simp +contextual only [hostIdle, Only_ite, hostHold_only, modHost_only, h, implies_true, and_self, p1]

theorem hostOff_only (h : Only ps a s) (p1 : Part.hosts ∈ ps := by assumption) : Only ps a (hostOff x1 s) := by
  simp +contextual only [hostOff, modHost_only, h, p1]

theorem hostHalt_only (h : Only ps a s) (p1 : Part.hosts ∈ ps := by assumption) : Only ps a (hostHalt x1 s) := by
  simp +contextual only [hostHalt, Only_ite, hostHold_only, modHost_only, h, implies_true, and_self, p1]

theorem hostMayLeave_only (h : Only ps a s) (p1 : Part.hosts ∈ ps := by assumption) : Only ps a (hostMayLeave x1 s) := by
  simp +contextual only [hostMayLeave, Only_ite, hostIdle_only, h, implies_true, and_self, p1]

theorem linePathOff_only (h : Only ps a s) (p1 : Part.lines ∈ ps := by assumption) : Only ps a (linePathOff x1 s) := by
  simp +contextual only [linePathOff, frmClear_only, rxOff_only, h, p1]

theorem lineTxOff_only (h : Only ps a s) (p1 : Part.rings ∈ ps := by assumption) (p2 : Part.evt ∈ ps := by assumption) (p3 :
    Part.own ∈ ps := by assumption) (p4 : Part.lines ∈ ps := by assumption) (p5 : Part.counters ∈ ps := by assumption) (p6 :
    Part.arb ∈ ps := by assumption) : Only ps a (lineTxOff x1 s) := by
  simp only [lineTxOff]
  repeat' first
    | (with_reducible first | assumption | apply foldl_only | apply forFin_only | apply msgAbandon_only
                            | apply trnDrop_only | apply txClear_only)

theorem lineClear_only (h : Only ps a s) (p1 : Part.rings ∈ ps := by assumption) (p2 : Part.evt ∈ ps := by assumption) (p3 :
    Part.own ∈ ps := by assumption) (p4 : Part.lines ∈ ps := by assumption) (p5 : Part.counters ∈ ps := by assumption) (p6 :
    Part.arb ∈ ps := by assumption) : Only ps a (lineClear x1 s) := by
  simp only [lineClear]
  repeat' first
    | (with_reducible first | assumption | apply foldl_only | apply forFin_only | apply modTx_only
                            | apply lineTxOff_only | apply linePathOff_only | apply trnAbandon_only)

theorem txHalt_only (h : Only ps a s) (p1 : Part.lines ∈ ps := by assumption) (p2 : Part.arb ∈ ps := by assumption) : Only
    ps a (txHalt x1 s) := by
  simp +contextual only [txHalt, modTx_only, trnDrop_only, h, and_self, p1, p2]

theorem lanesMayLeave_only (h : Only ps a s) (p1 : Part.out ∈ ps := by assumption) (p2 : Part.lines ∈ ps := by assumption)
    (p3 : Part.hosts ∈ ps := by assumption) (p4 : Part.ocp ∈ ps := by assumption) : Only ps a (lanesMayLeave s) := by
  simp only [lanesMayLeave]
  repeat' first
    | (with_reducible first | assumption | apply foldl_only | apply forFin_only | apply hostMayLeave_only
                            | apply txUpdateAll_only | apply forFin_only | apply rxMayLeave_only)
    | simp only [only_mk, true_or, or_true, and_self, p1, p2, p3, p4]
    | split
    | dsimp only
    | (with_reducible first | refine only_snd (by assumption) ?_ | refine only_fst (by assumption) ?_)
    | intro

/-! ### Training -/

theorem scQueue_only (h : Only ps a s) (p1 : Part.lines ∈ ps := by assumption) : Only ps a (scQueue x1 x2 s) := by
  simp +contextual only [scQueue, modFr_only, h, p1]

theorem trnAnswer_only (h : Only ps a s) (p1 : Part.lines ∈ ps := by assumption) : Only ps a (trnAnswer x1 x2 x3 x4 x5 s) :=
    by
  simp +contextual only [trnAnswer, scQueue_only, modTx_only, h, p1]

theorem trnMismatch_only (h : Only ps a s) (p1 : Part.evt ∈ ps := by assumption) (p2 : Part.own ∈ ps := by assumption) (p3 :
    Part.lines ∈ ps := by assumption) (p4 : Part.counters ∈ ps := by assumption) : Only ps a (trnMismatch x1 x2 s) := by
  simp +contextual only [trnMismatch, Only_ite, modTx_only, raise_only, h, implies_true, and_self, p1, p2, p3, p4]

theorem trnSend_only (h : Only ps a s) (p1 : Part.lines ∈ ps := by assumption) : Only ps a (trnSend x1 x2 x3 s) := by
  simp +contextual only [trnSend, scQueue_only, modTx_only, h, p1]

theorem trnAskFir_only (h : Only ps a s) (p1 : Part.lines ∈ ps := by assumption) : Only ps a (trnAskFir x1 x2 x3 x4 s) := by
  simp +contextual only [trnAskFir, trnSend_only, h, p1]

theorem trnFinish_only (h : Only ps a s) (p1 : Part.evt ∈ ps := by assumption) (p2 : Part.own ∈ ps := by assumption) (p3 :
    Part.lines ∈ ps := by assumption) (p4 : Part.counters ∈ ps := by assumption) : Only ps a (trnFinish x1 s) := by
  simp only [trnFinish]
  repeat' first
    | (with_reducible first | assumption | apply foldl_only | apply forFin_only | apply scQueue_only
                            | apply modTx_only | apply raise_only)

theorem trnContext_only (h : Only ps a s) (p1 : Part.evt ∈ ps := by assumption) (p2 : Part.own ∈ ps := by assumption) (p3 :
    Part.lines ∈ ps := by assumption) (p4 : Part.counters ∈ ps := by assumption) : Only ps a (trnContext x1 x2 x3 s) := by
  simp +contextual only [trnContext, Only_ite, trnFinish_only, modTx_only, h, implies_true, and_self, p1, p2, p3, p4]

theorem trnBase_only (h : Only ps a s) (p1 : Part.lines ∈ ps := by assumption) : Only ps a (trnBase x1 x2 s) := by
  simp +contextual only [trnBase, modTx_only, h, p1]

theorem trnNextOffset_only (h : Only ps a s) (p1 : Part.evt ∈ ps := by assumption) (p2 : Part.own ∈ ps := by assumption) (p3
    : Part.lines ∈ ps := by assumption) (p4 : Part.counters ∈ ps := by assumption) : Only ps a (trnNextOffset x1 x2 s) := by
  simp +contextual only [trnNextOffset, Only_ite, trnBase_only, trnContext_only, h, implies_true, and_self, p1, p2, p3, p4]

theorem trnNextTrial_only (h : Only ps a s) (p1 : Part.evt ∈ ps := by assumption) (p2 : Part.own ∈ ps := by assumption) (p3
    : Part.lines ∈ ps := by assumption) (p4 : Part.counters ∈ ps := by assumption) : Only ps a (trnNextTrial x1 x2 s) := by
  simp +contextual only [trnNextTrial, Only_ite, trnNextOffset_only, trnBase_only, h, implies_true, and_self, p1, p2, p3,
    p4]

theorem trnBegin_only (h : Only ps a s) (p1 : Part.rings ∈ ps := by assumption) (p2 : Part.evt ∈ ps := by assumption) (p3 :
    Part.own ∈ ps := by assumption) (p4 : Part.lines ∈ ps := by assumption) (p5 : Part.counters ∈ ps := by assumption) : Only ps
    a (trnBegin x1 s) := by
  simp +contextual only [trnBegin, foldl_only, done_only, modLine_only, h, implies_true, p1, p2, p3, p4, p5]

theorem trnAtUp_only (h : Only ps a s) (p1 : Part.rings ∈ ps := by assumption) (p2 : Part.evt ∈ ps := by assumption) (p3 :
    Part.own ∈ ps := by assumption) (p4 : Part.lines ∈ ps := by assumption) (p5 : Part.counters ∈ ps := by assumption) : Only ps
    a (trnAtUp x1 x2 s) := by
  simp +contextual only [trnAtUp, Only_ite, modTx_only, trnBegin_only, h, implies_true, and_self, p1, p2, p3, p4, p5]

theorem trnHeard_only (h : Only ps a s) (p1 : Part.rings ∈ ps := by assumption) (p2 : Part.evt ∈ ps := by assumption) (p3 :
    Part.own ∈ ps := by assumption) (p4 : Part.lines ∈ ps := by assumption) (p5 : Part.counters ∈ ps := by assumption) : Only ps
    a (trnHeard x1 s) := by
  simp +contextual only [trnHeard, Only_ite, trnBegin_only, h, implies_true, and_self, p1, p2, p3, p4, p5]

theorem trnRequest_only (h : Only ps a s) (p1 : Part.rings ∈ ps := by assumption) (p2 : Part.evt ∈ ps := by assumption) (p3
    : Part.own ∈ ps := by assumption) (p4 : Part.lines ∈ ps := by assumption) (p5 : Part.counters ∈ ps := by assumption) (p6 :
    Part.arb ∈ ps := by assumption) : Only ps a (trnRequest x1 x2 s) := by
  simp only [trnRequest]
  repeat' first
    | (with_reducible first | assumption | apply foldl_only | apply forFin_only | apply scQueue_only
                            | apply modTx_only | apply trnMismatch_only | apply trnAnswer_only
                            | apply trnHeard_only | apply countLine_only | apply arbOffer_only)
    | simp only [only_mk, true_or, or_true, and_self, p1, p2, p3, p4, p5, p6]
    | split
    | dsimp only
    | (with_reducible first | refine only_snd (by assumption) ?_ | refine only_fst (by assumption) ?_)

theorem trnApply_only (h : Only ps a s) (p1 : Part.lines ∈ ps := by assumption) (p2 : Part.arb ∈ ps := by assumption) : Only
    ps a (trnApply x1 s) := by
  simp only [trnApply]
  repeat' first
    | (with_reducible first | assumption | apply foldl_only | apply forFin_only | apply modLine_only
                            | apply arbEnd_only)
    | simp only [only_mk, true_or, or_true, and_self, p1, p2]
    | split

theorem trnDone_only (h : Only ps a s) (p1 : Part.rings ∈ ps := by assumption) (p2 : Part.evt ∈ ps := by assumption) (p3 :
    Part.own ∈ ps := by assumption) (p4 : Part.lines ∈ ps := by assumption) (p5 : Part.counters ∈ ps := by assumption) : Only ps
    a (trnDone x1 x2 s) := by
  simp only [trnDone]
  repeat' first
    | (with_reducible first | assumption | apply foldl_only | apply forFin_only | apply scQueue_only
                            | apply modTx_only | apply trnMismatch_only | apply trnAnswer_only
                            | apply trnHeard_only | apply countLine_only)
    | simp only [only_mk, true_or, or_true, and_self, p1, p2, p3, p4, p5]
    | split

theorem trnResponse_only (h : Only ps a s) (p1 : Part.rings ∈ ps := by assumption) (p2 : Part.evt ∈ ps := by assumption) (p3
    : Part.own ∈ ps := by assumption) (p4 : Part.lines ∈ ps := by assumption) (p5 : Part.counters ∈ ps := by assumption) : Only
    ps a (trnResponse x1 x2 s) := by
  unfold trnResponse
  refine (Only_ite _).2 ⟨fun _ => h, fun _ => ?_⟩
  extract_lets +onlyGivenNames s1
  have h1 : Only ps a s1 := countLine_only h
  clear_value s1
  refine (Only_ite _).2 ⟨fun _ => h1, fun _ => (Only_ite _).2 ⟨fun _ => trnMismatch_only h1, fun _ =>
    (Only_ite _).2 ⟨fun _ => trnHeard_only h1, fun _ => (Only_ite _).2 ⟨fun _ => h1, fun _ => ?_⟩⟩⟩⟩
  cases s1.lines[x1].tx.proc with
  | none => exact h1
  | some p =>
    refine (Only_ite _).2 ⟨fun _ => h1, fun _ => ?_⟩
    extract_lets +onlyGivenNames status applied
    clear_value status applied
    cases p.step <;> repeat' first
      | (with_reducible first | exact h1 | exact modTx_only h1 | exact trnBase_only h1 | exact trnContext_only h1
                              | exact trnNextTrial_only h1 | refine (Only_ite _).2 ⟨fun _ => ?_, fun _ => ?_⟩)
      | (extract_lets +onlyGivenNames f; clear_value f)

theorem contextMean_only (h : Only ps a s) (p1 : Part.free ∈ ps := by assumption) : Only ps a (contextMean x1 x2 s).2 := by
  simp only [contextMean]
  repeat' first
    | (with_reducible first | assumption | apply foldl_only | apply forFin_only | apply draw_only)
    | simp only [only_mk, true_or, or_true, and_self, p1]
    | split
    | dsimp only
    | (with_reducible first | refine only_snd (by assumption) ?_ | refine only_fst (by assumption) ?_)
    | intro

theorem trnWindow_only (h : Only ps a s) (p1 : Part.free ∈ ps := by assumption) (p2 : Part.evt ∈ ps := by assumption) (p3 :
    Part.own ∈ ps := by assumption) (p4 : Part.lines ∈ ps := by assumption) (p5 : Part.counters ∈ ps := by assumption) : Only ps
    a (trnWindow x1 s) := by
  simp only [trnWindow]
  repeat' first
    | (with_reducible first | assumption | apply foldl_only | apply forFin_only | apply trnNextOffset_only
                            | apply modTx_only | apply trnContext_only | apply contextMean_only
                            | apply trnSend_only | apply trnAskFir_only)
    | simp only [only_mk, true_or, or_true, and_self, p1, p2, p3, p4, p5]
    | split

theorem trnFrameSeen_only (h : Only ps a s) (p1 : Part.lines ∈ ps := by assumption) : Only ps a (trnFrameSeen x1 x2 s) := by
  simp +contextual only [trnFrameSeen, modTx_only, h, p1]

theorem trnRetransmit_only (h : Only ps a s) (p1 : Part.lines ∈ ps := by assumption) : Only ps a (trnRetransmit x1 s) := by
  simp only [trnRetransmit]
  repeat' first
    | (with_reducible first | assumption | apply foldl_only | apply forFin_only | apply scQueue_only
                            | apply modTx_only)
    | simp only [only_mk, true_or, or_true, and_self, p1]
    | split

theorem trnSilent_only (h : Only ps a s) (p1 : Part.evt ∈ ps := by assumption) (p2 : Part.own ∈ ps := by assumption) (p3 :
    Part.lines ∈ ps := by assumption) (p4 : Part.counters ∈ ps := by assumption) (p5 : Part.arb ∈ ps := by assumption) : Only ps
    a (trnSilent x1 s) := by
  simp only [trnSilent]
  repeat' first
    | (with_reducible first | assumption | apply foldl_only | apply forFin_only | apply modLine_only
                            | apply trnDrop_only | apply raise_only)
    | simp only [only_mk, true_or, or_true, and_self, p1, p2, p3, p4, p5]
    | split

theorem trnProbe_only (h : Only ps a s) (p1 : Part.lines ∈ ps := by assumption) : Only ps a (trnProbe x1 s) := by
  simp +contextual only [trnProbe, Only_ite, scQueue_only, modTx_only, h, implies_true, and_self, p1]

theorem trnBoot_only (h : Only ps a s) (p1 : Part.rings ∈ ps := by assumption) (p2 : Part.evt ∈ ps := by assumption) (p3 :
    Part.own ∈ ps := by assumption) (p4 : Part.lines ∈ ps := by assumption) (p5 : Part.counters ∈ ps := by assumption) : Only ps
    a (trnBoot s) := by
  simp only [trnBoot]
  repeat' first
    | (with_reducible first | assumption | apply foldl_only | apply forFin_only | apply scQueue_only
                            | apply modTx_only | apply modFr_only | apply trnBegin_only
                            | apply forFin_only)
    | simp only [only_mk, true_or, or_true, and_self, p1, p2, p3, p4, p5]
    | split
    | dsimp only
    | (with_reducible first | refine only_snd (by assumption) ?_ | refine only_fst (by assumption) ?_)
    | intro

/-! ### Latency -/

theorem latRefresh_only (h : Only ps a s) (p1 : Part.ports ∈ ps := by assumption) : Only ps a (latRefresh x1 s) := by
  simp +contextual only [latRefresh, modPort_only, h, p1]

theorem latDraw_only (h : Only ps a s) (p1 : Part.free ∈ ps := by assumption) : Only ps a (latDraw s).2 := by
  simp only [latDraw]
  repeat' first
    | (with_reducible first | assumption | apply foldl_only | apply forFin_only | apply draw_only)
    | simp only [only_mk, true_or, or_true, and_self, p1]
    | split

theorem setRxBuffer_only (h : Only ps a s) (p1 : Part.free ∈ ps := by assumption) (p2 : Part.lines ∈ ps := by assumption) :
    Only ps a (setRxBuffer x1 s) := by
  simp +contextual only [setRxBuffer, latDraw_only, modRx_only, h, p1, p2]

theorem setTxBuffers_only (h : Only ps a s) (p1 : Part.free ∈ ps := by assumption) (p2 : Part.lines ∈ ps := by assumption) :
    Only ps a (setTxBuffers x1 s) := by
  simp only [setTxBuffers]
  repeat' first
    | (with_reducible first | assumption | apply foldl_only | apply forFin_only | apply latDraw_only
                            | apply modRx_only)
    | simp only [only_mk, true_or, or_true, and_self, p1, p2]
    | split
    | dsimp only
    | (with_reducible first | refine only_snd (by assumption) ?_ | refine only_fst (by assumption) ?_)
    | intro

theorem buffersSet_only (h : Only ps a s) (p1 : Part.free ∈ ps := by assumption) (p2 : Part.lines ∈ ps := by assumption) :
    Only ps a (buffersSet x1 s) := by
  simp only [buffersSet]
  repeat' first
    | (with_reducible first | assumption | apply foldl_only | apply forFin_only | apply setRxBuffer_only
                            | apply latDraw_only | apply modRx_only)
    | simp only [only_mk, true_or, or_true, and_self, p1, p2]
    | split
    | dsimp only
    | (with_reducible first | refine only_snd (by assumption) ?_ | refine only_fst (by assumption) ?_)
    | intro

theorem bufferResetDone_only (h : Only ps a s) (p1 : Part.free ∈ ps := by assumption) (p2 : Part.lines ∈ ps := by
    assumption) (p3 : Part.ports ∈ ps := by assumption) : Only ps a (bufferResetDone x1 s) := by
  simp only [bufferResetDone]
  repeat' first
    | (with_reducible first | assumption | apply foldl_only | apply forFin_only | apply modPort_only
                            | apply buffersSet_only)
    | simp only [p1, p2, p3]
    | split
    | dsimp only
    | (with_reducible first | refine only_snd (by assumption) ?_ | refine only_fst (by assumption) ?_)
    | intro

/-! ### HostPath -/

theorem hostWave_only {a : State} {ps : List Part} {b : HostBank} : ∀ {l : List (Option (Fin 4))} {s : State} (_ : Only ps a s) (p1 : Part.free ∈ ps := by assumption), Only ps a (hostWave b l s).2
  | [], _, h, p1 => h
  | x :: l, s, h, p1 => by
    rw [hostWave]
    extract_lets +onlyGivenNames w
    split
    · extract_lets +onlyGivenNames d r
      refine hostWave_only ?_
      simp only [d]
      split
      · exact h
      · exact draw_only h
    · exact hostWave_only h

theorem hostSend_only (h : Only ps a s) (p1 : Part.free ∈ ps := by assumption) (p2 : Part.out ∈ ps := by assumption) (p3 :
    Part.hosts ∈ ps := by assumption) : Only ps a (hostSend x1 x2 x3 s) := by
  simp only [hostSend]
  repeat' first
    | (with_reducible first | assumption | apply foldl_only | apply forFin_only | apply modHost_only
                            | apply hostWave_only | apply emit_only)
    | simp only [only_mk, true_or, or_true, and_self, p1, p2, p3]
    | split
    | dsimp only
    | (with_reducible first | refine only_snd (by assumption) ?_ | refine only_fst (by assumption) ?_)
    | intro

theorem hostSilent_only (h : Only ps a s) (p1 : Part.hosts ∈ ps := by assumption) : Only ps a (hostSilent x1 s) := by
  simp +contextual only [hostSilent, Only_ite, only_mk, forFin_only, foldl_only, modHost_only, h, implies_true, true_or,
    or_true, and_self, p1]

theorem hostDeliver_only (h : Only ps a s) (p1 : Part.free ∈ ps := by assumption) (p2 : Part.out ∈ ps := by assumption) (p3
    : Part.hosts ∈ ps := by assumption) : Only ps a (hostDeliver x1 x2 s) := by
  simp +contextual only [hostDeliver, Only_ite, only_mk, forFin_only, foldl_only, modHost_only, hostSilent_only,
    hostSend_only, h, implies_true, true_or, or_true, and_self, p1, p2, p3]

theorem hostGenerate_only (h : Only ps a s) (p1 : Part.free ∈ ps := by assumption) (p2 : Part.out ∈ ps := by assumption) (p3
    : Part.hosts ∈ ps := by assumption) : Only ps a (hostGenerate x1 x2 s) := by
  simp +contextual only [hostGenerate, Only_ite, only_mk, forFin_only, foldl_only, modHost_only, hostSend_only, h,
    implies_true, true_or, or_true, and_self, p1, p2, p3]

theorem hostCheck_only (h : Only ps a s) (p1 : Part.hosts ∈ ps := by assumption) (p2 : Part.counters ∈ ps := by assumption)
    : Only ps a (hostCheck x1 x2 s) := by
  simp +contextual only [hostCheck, Only_ite, only_mk, forFin_only, foldl_only, modHost_only, countHost_only, h,
    implies_true, true_or, or_true, and_self, p1, p2]

theorem hostForward_only (h : Only ps a s) (p1 : Part.free ∈ ps := by assumption) (p2 : Part.out ∈ ps := by assumption) (p3
    : Part.hosts ∈ ps := by assumption) (p4 : Part.counters ∈ ps := by assumption) : Only ps a (hostForward x1 x2 s) := by
  simp only [hostForward]
  repeat' first
    | (with_reducible first | assumption | apply foldl_only | apply forFin_only | apply modHost_only
                            | apply hostCheck_only | apply hostSend_only)
    | simp only [only_mk, true_or, or_true, and_self, p1, p2, p3, p4]
    | split
    | dsimp only
    | (with_reducible first | refine only_snd (by assumption) ?_ | refine only_fst (by assumption) ?_)
    | intro

/-! ### LineRx -/

theorem enterUp_only (h : Only ps a s) (p1 : Part.free ∈ ps := by assumption) (p2 : Part.rings ∈ ps := by assumption) (p3 :
    Part.evt ∈ ps := by assumption) (p4 : Part.own ∈ ps := by assumption) (p5 : Part.lines ∈ ps := by assumption) (p6 :
    Part.counters ∈ ps := by assumption) : Only ps a (enterUp x1 s) := by
  simp only [enterUp]
  repeat' first
    | (with_reducible first | assumption | apply foldl_only | apply forFin_only | apply setRxBuffer_only
                            | apply trnAtUp_only | apply modRx_only | apply raise_only)

theorem frameCheck_only (h : Only ps a s) (p1 : Part.free ∈ ps := by assumption) (p2 : Part.rings ∈ ps := by assumption) (p3
    : Part.evt ∈ ps := by assumption) (p4 : Part.own ∈ ps := by assumption) (p5 : Part.lines ∈ ps := by assumption) (p6 :
    Part.counters ∈ ps := by assumption) : Only ps a (frameCheck x1 s) := by
  simp +contextual only [frameCheck, Only_ite, enterUp_only, h, implies_true, and_self, p1, p2, p3, p4, p5, p6]

theorem framePass_only (h : Only ps a s) (p1 : Part.free ∈ ps := by assumption) (p2 : Part.rings ∈ ps := by assumption) (p3
    : Part.evt ∈ ps := by assumption) (p4 : Part.own ∈ ps := by assumption) (p5 : Part.lines ∈ ps := by assumption) (p6 :
    Part.counters ∈ ps := by assumption) : Only ps a (framePass x1 s) := by
  simp +contextual only [framePass, Only_ite, only_mk, forFin_only, foldl_only, enterUp_only, h, implies_true, true_or,
    or_true, and_self, p1, p2, p3, p4, p5, p6]

theorem loseLock_only (h : Only ps a s) (p1 : Part.out ∈ ps := by assumption) (p2 : Part.evt ∈ ps := by assumption) (p3 :
    Part.own ∈ ps := by assumption) (p4 : Part.lines ∈ ps := by assumption) (p5 : Part.counters ∈ ps := by assumption) (p6 :
    Part.ocp ∈ ps := by assumption) : Only ps a (loseLock x1 x2 s) := by
  simp only [loseLock]
  repeat' first
    | (with_reducible first | assumption | apply foldl_only | apply forFin_only | apply enterRelock_only
                            | apply outageStart_only | apply raise_only)
    | simp only [only_mk, true_or, or_true, and_self, p1, p2, p3, p4, p5, p6]
    | split

theorem signalLoss_only (h : Only ps a s) (p1 : Part.evt ∈ ps := by assumption) (p2 : Part.own ∈ ps := by assumption) (p3 :
    Part.lines ∈ ps := by assumption) (p4 : Part.counters ∈ ps := by assumption) (p5 : Part.arb ∈ ps := by assumption) : Only ps
    a (signalLoss x1 s) := by
  simp +contextual only [signalLoss, Only_ite, modRx_only, enterDark_only, h, implies_true, and_self, p1, p2, p3, p4, p5]

theorem darkLiveSet_only (h : Only ps a s) (p1 : Part.lines ∈ ps := by assumption) : Only ps a (darkLiveSet x1 s) := by
  simp +contextual only [darkLiveSet, modLine_only, h, p1]

theorem leaveDark_only (h : Only ps a s) (p1 : Part.out ∈ ps := by assumption) (p2 : Part.evt ∈ ps := by assumption) (p3 :
    Part.own ∈ ps := by assumption) (p4 : Part.lines ∈ ps := by assumption) (p5 : Part.counters ∈ ps := by assumption) (p6 :
    Part.ocp ∈ ps := by assumption) : Only ps a (leaveDark x1 s) := by
  simp only [leaveDark]
  repeat' first
    | (with_reducible first | assumption | apply foldl_only | apply forFin_only | apply enterGain_only
                            | apply enterRelock_only | apply modRx_only | apply darkLiveSet_only
                            | apply raise_only)
    | simp only [only_mk, true_or, or_true, and_self, p1, p2, p3, p4, p5, p6]
    | split

theorem lightCheck_only (h : Only ps a s) (p1 : Part.out ∈ ps := by assumption) (p2 : Part.evt ∈ ps := by assumption) (p3 :
    Part.own ∈ ps := by assumption) (p4 : Part.lines ∈ ps := by assumption) (p5 : Part.counters ∈ ps := by assumption) (p6 :
    Part.ocp ∈ ps := by assumption) : Only ps a (lightCheck x1 s) := by
  simp only [lightCheck]
  repeat' first
    | (with_reducible first | assumption | apply foldl_only | apply forFin_only | apply enterGain_only
                            | apply outageFromOff_only | apply leaveDark_only)
    | simp only [only_mk, true_or, or_true, and_self, p1, p2, p3, p4, p5, p6]
    | split

theorem lightOn_only (h : Only ps a s) (p1 : Part.out ∈ ps := by assumption) (p2 : Part.evt ∈ ps := by assumption) (p3 :
    Part.own ∈ ps := by assumption) (p4 : Part.lines ∈ ps := by assumption) (p5 : Part.counters ∈ ps := by assumption) (p6 :
    Part.ocp ∈ ps := by assumption) : Only ps a (lightOn x1 s) := by
  simp +contextual only [lightOn, Only_ite, modRx_only, lightCheck_only, h, implies_true, and_self, p1, p2, p3, p4, p5, p6]

theorem losCheck_only (h : Only ps a s) (p1 : Part.out ∈ ps := by assumption) (p2 : Part.evt ∈ ps := by assumption) (p3 :
    Part.own ∈ ps := by assumption) (p4 : Part.lines ∈ ps := by assumption) (p5 : Part.counters ∈ ps := by assumption) (p6 :
    Part.arb ∈ ps := by assumption) (p7 : Part.ocp ∈ ps := by assumption) : Only ps a (losCheck x1 s) := by
  simp +contextual only [losCheck, Only_ite, enterDark_only, lightCheck_only, h, implies_true, and_self, p1, p2, p3, p4, p5,
    p6, p7]

theorem offTimeout_only (h : Only ps a s) (p1 : Part.evt ∈ ps := by assumption) (p2 : Part.own ∈ ps := by assumption) (p3 :
    Part.lines ∈ ps := by assumption) (p4 : Part.counters ∈ ps := by assumption) (p5 : Part.arb ∈ ps := by assumption) : Only ps
    a (offTimeout x1 s) := by
  simp +contextual only [offTimeout, Only_ite, enterDark_only, outageFromOff_only, h, implies_true, and_self, p1, p2, p3,
    p4, p5]

theorem gainDone_only (h : Only ps a s) (p1 : Part.lines ∈ ps := by assumption) : Only ps a (gainDone x1 s) := by
  simp +contextual only [gainDone, Only_ite, modRx_only, h, implies_true, and_self, p1]

theorem enterTrain_only (h : Only ps a s) (p1 : Part.lines ∈ ps := by assumption) : Only ps a (enterTrain x1 s) := by
  simp +contextual only [enterTrain, modLine_only, eqNote_only, h, p1]

theorem timingDone_only (h : Only ps a s) (p1 : Part.lines ∈ ps := by assumption) : Only ps a (timingDone x1 s) := by
  simp +contextual only [timingDone, Only_ite, enterTrain_only, h, implies_true, and_self, p1]

theorem acqRetry_only (h : Only ps a s) (p1 : Part.evt ∈ ps := by assumption) (p2 : Part.own ∈ ps := by assumption) (p3 :
    Part.lines ∈ ps := by assumption) (p4 : Part.counters ∈ ps := by assumption) : Only ps a (acqRetry x1 s) := by
  simp +contextual only [acqRetry, Only_ite, enterGain_only, raise_only, h, implies_true, and_self, p1, p2, p3, p4]

theorem relockFallback_only (h : Only ps a s) (p1 : Part.evt ∈ ps := by assumption) (p2 : Part.own ∈ ps := by assumption)
    (p3 : Part.lines ∈ ps := by assumption) (p4 : Part.counters ∈ ps := by assumption) : Only ps a (relockFallback x1 s) := by
  simp only [relockFallback]
  repeat' first
    | (with_reducible first | assumption | apply foldl_only | apply forFin_only | apply enterGain_only
                            | apply modRx_only | apply raise_only)
    | simp only [only_mk, true_or, or_true, and_self, p1, p2, p3, p4]
    | split

theorem cdrUnlock_only (h : Only ps a s) (p1 : Part.out ∈ ps := by assumption) (p2 : Part.evt ∈ ps := by assumption) (p3 :
    Part.own ∈ ps := by assumption) (p4 : Part.lines ∈ ps := by assumption) (p5 : Part.counters ∈ ps := by assumption) (p6 :
    Part.ocp ∈ ps := by assumption) : Only ps a (cdrUnlock x1 s) := by
  simp +contextual only [cdrUnlock, loseLock_only, modRx_only, h, p1, p2, p3, p4, p5, p6]

theorem outagePoint_only (h : Only ps a s) (p1 : Part.evt ∈ ps := by assumption) (p2 : Part.own ∈ ps := by assumption) (p3 :
    Part.lines ∈ ps := by assumption) (p4 : Part.counters ∈ ps := by assumption) : Only ps a (outagePoint x1 s) := by
  simp +contextual only [outagePoint, Only_ite, modRx_only, squelch_only, h, implies_true, and_self, p1, p2, p3, p4]

theorem portResume_only (h : Only ps a s) (p1 : Part.lines ∈ ps := by assumption) : Only ps a (portResume x1 s) := by
  simp +contextual only [portResume, Only_ite, foldl_only, modRx_only, h, implies_true, and_self, p1]

theorem outageEnd_only (h : Only ps a s) (p1 : Part.lines ∈ ps := by assumption) : Only ps a (outageEnd x1 s) := by
  simp +contextual only [outageEnd, Only_ite, modRx_only, h, implies_true, and_self, p1]

theorem codewordLock_only (h : Only ps a s) (p1 : Part.free ∈ ps := by assumption) (p2 : Part.rings ∈ ps := by assumption)
    (p3 : Part.evt ∈ ps := by assumption) (p4 : Part.own ∈ ps := by assumption) (p5 : Part.lines ∈ ps := by assumption) (p6 :
    Part.counters ∈ ps := by assumption) : Only ps a (codewordLock x1 s) := by
  simp +contextual only [codewordLock, Only_ite, frameCheck_only, modRx_only, h, implies_true, and_self, p1, p2, p3, p4, p5,
    p6]

theorem codewordLockLost_only (h : Only ps a s) (p1 : Part.out ∈ ps := by assumption) (p2 : Part.evt ∈ ps := by assumption)
    (p3 : Part.own ∈ ps := by assumption) (p4 : Part.lines ∈ ps := by assumption) (p5 : Part.counters ∈ ps := by assumption) (p6
    : Part.ocp ∈ ps := by assumption) : Only ps a (codewordLockLost x1 s) := by
  simp +contextual only [codewordLockLost, Only_ite, loseLock_only, modRx_only, h, implies_true, and_self, p1, p2, p3, p4,
    p5, p6]

theorem tiaFirst_only (h : Only ps a s) (p1 : Part.out ∈ ps := by assumption) (p2 : Part.lines ∈ ps := by assumption) (p3 :
    Part.ocp ∈ ps := by assumption) : Only ps a (tiaFirst x1 s) := by
  simp +contextual only [tiaFirst, Only_ite, only_mk, forFin_only, foldl_only, tiaWrite_only, modRx_only, h, implies_true,
    true_or, or_true, and_self, p1, p2, p3]

theorem vgaStep_only (h : Only ps a s) (p1 : Part.out ∈ ps := by assumption) (p2 : Part.lines ∈ ps := by assumption) (p3 :
    Part.ocp ∈ ps := by assumption) : Only ps a (vgaStep x1 x2 s) := by
  simp only [vgaStep]
  repeat' first
    | (with_reducible first | assumption | apply foldl_only | apply forFin_only | apply modRx_only
                            | apply tiaFirst_only)
    | simp only [p1, p2, p3]
    | split
    | dsimp only
    | (with_reducible first | refine only_snd (by assumption) ?_ | refine only_fst (by assumption) ?_)
    | intro

theorem tiaLimit_only (h : Only ps a s) (p1 : Part.lines ∈ ps := by assumption) : Only ps a (tiaLimit x1 s) := by
  simp +contextual only [tiaLimit, Only_ite, modRx_only, h, implies_true, and_self, p1]

theorem tiaIssue_only (h : Only ps a s) (p1 : Part.out ∈ ps := by assumption) (p2 : Part.evt ∈ ps := by assumption) (p3 :
    Part.own ∈ ps := by assumption) (p4 : Part.lines ∈ ps := by assumption) (p5 : Part.counters ∈ ps := by assumption) (p6 :
    Part.arb ∈ ps := by assumption) (p7 : Part.ocp ∈ ps := by assumption) : Only ps a (tiaIssue x1 s) := by
  simp only [tiaIssue]
  repeat' first
    | (with_reducible first | assumption | apply foldl_only | apply forFin_only | apply tiaWrite_only
                            | apply modRx_only | apply arbOffer_only)
    | simp only [only_mk, true_or, or_true, and_self, p1, p2, p3, p4, p5, p6, p7]
    | split
    | dsimp only
    | (with_reducible first | refine only_snd (by assumption) ?_ | refine only_fst (by assumption) ?_)

theorem vgaTiaStep_only (h : Only ps a s) (p1 : Part.lines ∈ ps := by assumption) : Only ps a (vgaTiaStep x1 s) := by
  simp only [vgaTiaStep]
  repeat' first
    | (with_reducible first | assumption | apply foldl_only | apply forFin_only | apply modRx_only)
    | simp only [p1]
    | split
    | dsimp only
    | (with_reducible first | refine only_snd (by assumption) ?_ | refine only_fst (by assumption) ?_)
    | intro

theorem countLevels_only (h : Only ps a s) (p1 : Part.counters ∈ ps := by assumption) : Only ps a (countLevels x1 x2 s) :=
    by
  simp only [countLevels]
  repeat' first
    | (with_reducible first | assumption | apply foldl_only | apply forFin_only | apply countLine_only)
    | simp only [only_mk, true_or, or_true, p1]
    | split
    | dsimp only
    | (with_reducible first | refine only_snd (by assumption) ?_ | refine only_fst (by assumption) ?_)
    | intro

theorem softTake_only (h : Only ps a s) (p1 : Part.lines ∈ ps := by assumption) : Only ps a (softTake x1 x2 x3 s) := by
  simp +contextual only [softTake, Only_ite, only_mk, forFin_only, foldl_only, modFr_only, h, implies_true, true_or,
    or_true, and_self, p1]

theorem samplesIn_only (h : Only ps a s) (p1 : Part.out ∈ ps := by assumption) (p2 : Part.lines ∈ ps := by assumption) (p3 :
    Part.counters ∈ ps := by assumption) : Only ps a (samplesIn x1 x2 s) := by
  simp only [samplesIn]
  repeat' first
    | (with_reducible first | assumption | apply foldl_only | apply forFin_only | apply modEq_only
                            | apply modTx_only | apply eqNote_only | apply emit_only
                            | apply softTake_only | apply countLevels_only | apply countLine_only)
    | simp only [only_mk, true_or, or_true, and_self, p1, p2, p3]
    | split
    | dsimp only
    | (with_reducible first | refine only_snd (by assumption) ?_ | refine only_fst (by assumption) ?_)
    | intro

theorem rotatorStep_only (h : Only ps a s) (p1 : Part.evt ∈ ps := by assumption) (p2 : Part.own ∈ ps := by assumption) (p3 :
    Part.lines ∈ ps := by assumption) (p4 : Part.counters ∈ ps := by assumption) : Only ps a (rotatorStep x1 x2 x3 s) := by
  simp +contextual only [rotatorStep, Only_ite, only_mk, forFin_only, foldl_only, modRx_only, raise_only, h, implies_true,
    true_or, or_true, and_self, p1, p2, p3, p4]

theorem loopUpdate_only (h : Only ps a s) (p1 : Part.out ∈ ps := by assumption) (p2 : Part.evt ∈ ps := by assumption) (p3 :
    Part.own ∈ ps := by assumption) (p4 : Part.lines ∈ ps := by assumption) (p5 : Part.counters ∈ ps := by assumption) : Only ps
    a (loopUpdate x1 x2 x3 s) := by
  simp +contextual only [loopUpdate, Only_ite, only_mk, forFin_only, foldl_only, rotatorStep_only, samplesIn_only, h,
    implies_true, true_or, or_true, and_self, p1, p2, p3, p4, p5]

theorem pick_only (h : Only ps a s) (p1 : Part.free ∈ ps := by assumption) : Only ps a (pick x1 s).2 := by
  simp only [pick]
  repeat' first
    | (with_reducible first | assumption | apply foldl_only | apply forFin_only | apply draw_only)
    | simp only [only_mk, true_or, or_true, and_self, p1]
    | split

theorem placeNext_only (h : Only ps a s) (p1 : Part.free ∈ ps := by assumption) : Only ps a (placeNext x1 x2 x3 x4 x5 s).2
    := by
  simp only [placeNext]
  repeat' first
    | (with_reducible first | assumption | apply foldl_only | apply forFin_only | apply pick_only)
    | simp only [only_mk, true_or, or_true, and_self, p1]
    | split

theorem placeGroups_only {b : LineBank} {thr : Nat} {main : Rat} {a : State} {ps : List Part} : ∀ {k : Nat} {left : List
    (Int × Rat)} {acc : List Int} {s : State} (_ : Only ps a s) (p1 : Part.free ∈ ps := by assumption), Only ps a (placeGroups
    b thr
    main k left acc s).2
  | 0, _, _, _, h, p1 => h
  | k + 1, left, acc, s, h, p1 => by
    rw [placeGroups]
    split
    · rename_i e; exact only_snd e (placeNext_only h)
    · rename_i e; exact placeGroups_only (only_snd e (placeNext_only h))

theorem sweepBlock_only (h : Only ps a s) (p1 : Part.free ∈ ps := by assumption) (p2 : Part.evt ∈ ps := by assumption) (p3 :
    Part.own ∈ ps := by assumption) (p4 : Part.lines ∈ ps := by assumption) (p5 : Part.counters ∈ ps := by assumption) : Only ps
    a (sweepBlock x1 s) := by
  simp only [sweepBlock]
  repeat' first
    | (with_reducible first | assumption | apply foldl_only | apply forFin_only | apply modEq_only
                            | apply placeGroups_only | apply eqNote_only | apply raise_only)
    | simp only [only_mk, true_or, or_true, and_self, p1, p2, p3, p4, p5]
    | split

theorem blindEnd_only (h : Only ps a s) (p1 : Part.lines ∈ ps := by assumption) : Only ps a (blindEnd x1 s) := by
  simp +contextual only [blindEnd, modLine_only, h, p1]

theorem trackingEntry_only (h : Only ps a s) (p1 : Part.lines ∈ ps := by assumption) : Only ps a (trackingEntry x1 s) := by
  simp +contextual only [trackingEntry, modLine_only, h, p1]

theorem fieldOr_only (h : Only ps a s) (p1 : Part.free ∈ ps := by assumption) : Only ps a (fieldOr x1 x2 x3 s).2 := by
  simp only [fieldOr]
  repeat' first
    | (with_reducible first | assumption | apply foldl_only | apply forFin_only | apply draw_only)
    | simp only [only_mk, true_or, or_true, and_self, p1]
    | split

theorem ratioOr_only (h : Only ps a s) (p1 : Part.free ∈ ps := by assumption) : Only ps a (ratioOr x1 s).2 := by
  simp only [ratioOr]
  repeat' first
    | (with_reducible first | assumption | apply foldl_only | apply forFin_only | apply draw_only)
    | simp only [only_mk, true_or, or_true, and_self, p1]
    | split
    | dsimp only
    | (with_reducible first | refine only_snd (by assumption) ?_ | refine only_fst (by assumption) ?_)
    | intro

theorem dbField_only (h : Only ps a s) (p1 : Part.free ∈ ps := by assumption) : Only ps a (dbField x1 s).2 := by
  simp +contextual only [dbField, Only_ite, only_mk, forFin_only, foldl_only, fieldOr_only, h, implies_true, true_or,
    or_true, and_self, p1]

theorem marginLow_only (h : Only ps a s) (p1 : Part.evt ∈ ps := by assumption) (p2 : Part.own ∈ ps := by assumption) (p3 :
    Part.lines ∈ ps := by assumption) (p4 : Part.counters ∈ ps := by assumption) : Only ps a (marginLow x1 s) := by
  simp +contextual only [marginLow, Only_ite, modEq_only, raise_only, h, implies_true, and_self, p1, p2, p3, p4]

theorem marginField_only (h : Only ps a s) (p1 : Part.free ∈ ps := by assumption) : Only ps a (marginField x1 x2 s).2 := by
  simp only [marginField]
  repeat' first
    | (with_reducible first | assumption | apply foldl_only | apply forFin_only | apply fieldOr_only)
    | simp only [only_mk, true_or, or_true, and_self, p1]
    | split
    | dsimp only
    | (with_reducible first | refine only_snd (by assumption) ?_ | refine only_fst (by assumption) ?_)
    | intro

theorem muteField_only (h : Only ps a s) (p1 : Part.free ∈ ps := by assumption) : Only ps a (muteField x1 x2 s).2 := by
  simp only [muteField]
  repeat' first
    | (with_reducible first | assumption | apply foldl_only | apply forFin_only | apply fieldOr_only)
    | simp only [only_mk, true_or, or_true, and_self, p1]
    | split
    | dsimp only
    | (with_reducible first | refine only_snd (by assumption) ?_ | refine only_fst (by assumption) ?_)
    | intro

theorem figuresOf_only (h : Only ps a s) (p1 : Part.free ∈ ps := by assumption) : Only ps a (figuresOf x1 x2 s).2 := by
  unfold figuresOf
  extract_lets +onlyGivenNames p
  split
  rename_i s1 e1
  have h1 : Only ps a s1 := only_snd e1 (ratioOr_only h)
  split
  rename_i s2 e2
  have h2 : Only ps a s2 := only_snd e2 (ratioOr_only h1)
  split
  rename_i s3 e3
  have h3 : Only ps a s3 := only_snd e3 (dbField_only h2)
  split
  rename_i s4 e4
  have h4 : Only ps a s4 := by
    refine only_snd e4 ?_
    split
    · exact h3
    · exact draw_only h3
  extract_lets +onlyGivenNames pre
  split
  rename_i s5 e5
  have h5 : Only ps a s5 := by
    refine only_snd e5 ?_
    split
    · exact h4
    · exact draw_only h4
  split
  rename_i s6 e6
  have h6 : Only ps a s6 := only_snd e6 (marginField_only h5)
  split
  rename_i s7 e7
  exact only_snd e7 (muteField_only h6)

theorem skewRefresh_only (h : Only ps a s) (p1 : Part.lines ∈ ps := by assumption) : Only ps a (skewRefresh x1 x2 s) := by
  simp +contextual only [skewRefresh, Only_ite, only_mk, forFin_only, foldl_only, modRx_only, h, implies_true, true_or,
    or_true, and_self, p1]

theorem qualityWindow_only (h : Only ps a s) (p1 : Part.free ∈ ps := by assumption) (p2 : Part.rings ∈ ps := by assumption)
    (p3 : Part.evt ∈ ps := by assumption) (p4 : Part.own ∈ ps := by assumption) (p5 : Part.lines ∈ ps := by assumption) (p6 :
    Part.counters ∈ ps := by assumption) : Only ps a (qualityWindow x1 x2 s) := by
  unfold qualityWindow
  extract_lets +onlyGivenNames l
  split
  · exact h
  extract_lets +onlyGivenNames code r f conv s1
  have h1 : Only ps a s1 := modEq_only (skewRefresh_only (figuresOf_only h))
  clear_value s1
  extract_lets +onlyGivenNames s2
  have h2 : Only ps a s2 := by simp only [s2, Only_ite, blindEnd_only, h1, implies_true, and_self, p1, p2, p3, p4, p5, p6]
  clear_value s2
  extract_lets +onlyGivenNames s3
  have h3 : Only ps a s3 := by simp only [s3, Only_ite, frameCheck_only, modLine_only, h2, implies_true, and_self, p1, p2, p3, p4, p5, p6]
  exact trnWindow_only (marginLow_only h3)

theorem coefSaturated_only (h : Only ps a s) (p1 : Part.evt ∈ ps := by assumption) (p2 : Part.own ∈ ps := by assumption) (p3
    : Part.lines ∈ ps := by assumption) (p4 : Part.counters ∈ ps := by assumption) : Only ps a (coefSaturated x1 x2 s) := by
  simp +contextual only [coefSaturated, Only_ite, modEq_only, raise_only, h, implies_true, and_self, p1, p2, p3, p4]

theorem lineCapture_only (h : Only ps a s) (p1 : Part.lines ∈ ps := by assumption) : Only ps a (lineCapture x1 s) := by
  simp only [lineCapture]
  repeat' first
    | (with_reducible first | assumption | apply foldl_only | apply forFin_only | apply modEq_only)
    | simp only [p1]
    | split
    | dsimp only
    | (with_reducible first | refine only_snd (by assumption) ?_ | refine only_fst (by assumption) ?_)
    | intro

theorem storedSave_only (h : Only ps a s) (p1 : Part.lines ∈ ps := by assumption) : Only ps a (storedSave x1 s) := by
  simp only [storedSave]
  repeat' first
    | (with_reducible first | assumption | apply foldl_only | apply forFin_only | apply modLine_only)
    | simp only [p1]
    | split
    | dsimp only
    | (with_reducible first | refine only_snd (by assumption) ?_ | refine only_fst (by assumption) ?_)
    | intro

theorem mutePhase_only (h : Only ps a s) (p1 : Part.lines ∈ ps := by assumption) : Only ps a (mutePhase x1 s) := by
  simp +contextual only [mutePhase, Only_ite, only_mk, forFin_only, foldl_only, modLine_only, h, implies_true, true_or,
    or_true, and_self, p1]

theorem muteEnter_only (h : Only ps a s) (p1 : Part.evt ∈ ps := by assumption) (p2 : Part.own ∈ ps := by assumption) (p3 :
    Part.lines ∈ ps := by assumption) (p4 : Part.counters ∈ ps := by assumption) : Only ps a (muteEnter x1 s) := by
  simp only [muteEnter]
  repeat' first
    | (with_reducible first | assumption | apply foldl_only | apply forFin_only | apply modLine_only
                            | apply eqNote_only | apply mutePhase_only | apply raise_only)
    | simp only [and_self, p1, p2, p3, p4]
    | split
    | dsimp only
    | (with_reducible first | refine only_snd (by assumption) ?_ | refine only_fst (by assumption) ?_)
    | intro

theorem muteLeave_only (h : Only ps a s) (p1 : Part.evt ∈ ps := by assumption) (p2 : Part.own ∈ ps := by assumption) (p3 :
    Part.lines ∈ ps := by assumption) (p4 : Part.counters ∈ ps := by assumption) : Only ps a (muteLeave x1 s) := by
  simp only [muteLeave]
  repeat' first
    | (with_reducible first | assumption | apply foldl_only | apply forFin_only | apply modLine_only
                            | apply eqNote_only | apply mutePhase_only | apply raise_only)
    | simp only [and_self, p1, p2, p3, p4]
    | split
    | dsimp only
    | (with_reducible first | refine only_snd (by assumption) ?_ | refine only_fst (by assumption) ?_)
    | intro

theorem compLevel_only (h : Only ps a s) (p1 : Part.out ∈ ps := by assumption) (p2 : Part.evt ∈ ps := by assumption) (p3 :
    Part.own ∈ ps := by assumption) (p4 : Part.lines ∈ ps := by assumption) (p5 : Part.counters ∈ ps := by assumption) (p6 :
    Part.mon ∈ ps := by assumption) (p7 : Part.comp ∈ ps := by assumption) (p8 : Part.arb ∈ ps := by assumption) (p9 : Part.ocp
    ∈ ps := by assumption) : Only ps a (compLevel x1 x2 s) := by
  simp only [compLevel]
  repeat' first
    | (with_reducible first | assumption | apply foldl_only | apply forFin_only | apply losCheck_only
                            | apply compCross_only)
    | simp only [only_mk, true_or, or_true, and_self, p1, p2, p3, p4, p5, p6, p7, p8, p9]
    | split

theorem compLevels_only (h : Only ps a s) (p1 : Part.out ∈ ps := by assumption) (p2 : Part.evt ∈ ps := by assumption) (p3 :
    Part.own ∈ ps := by assumption) (p4 : Part.lines ∈ ps := by assumption) (p5 : Part.counters ∈ ps := by assumption) (p6 :
    Part.mon ∈ ps := by assumption) (p7 : Part.comp ∈ ps := by assumption) (p8 : Part.arb ∈ ps := by assumption) (p9 : Part.ocp
    ∈ ps := by assumption) : Only ps a (compLevels x1 s) := by
  simp only [compLevels]
  repeat' first
    | (with_reducible first | assumption | apply foldl_only | apply forFin_only | apply forFin_only
                            | apply compLevel_only)
    | simp only [only_mk, true_or, or_true, and_self, p1, p2, p3, p4, p5, p6, p7, p8, p9]
    | split
    | dsimp only
    | (with_reducible first | refine only_snd (by assumption) ?_ | refine only_fst (by assumption) ?_)
    | intro

/-! ### LineTx -/

theorem txDisRelease_only (h : Only ps a s) (p1 : Part.lines ∈ ps := by assumption) : Only ps a (txDisRelease x1 s) := by
  simp +contextual only [txDisRelease, Only_ite, modTx_only, h, implies_true, and_self, p1]

theorem dacIdle_only (h : Only ps a s) (p1 : Part.lines ∈ ps := by assumption) : Only ps a (dacIdle x1 s) := by
  simp +contextual only [dacIdle, Only_ite, modTx_only, h, implies_true, and_self, p1]

theorem txClipping_only (h : Only ps a s) (p1 : Part.evt ∈ ps := by assumption) (p2 : Part.own ∈ ps := by assumption) (p3 :
    Part.lines ∈ ps := by assumption) (p4 : Part.counters ∈ ps := by assumption) : Only ps a (txClipping x1 s) := by
  simp +contextual only [txClipping, Only_ite, modTx_only, raiseLimited_only, h, implies_true, and_self, p1, p2, p3, p4]

theorem skewStep_only (h : Only ps a s) (p1 : Part.lines ∈ ps := by assumption) : Only ps a (skewStep x1 s) := by
  simp +contextual only [skewStep, modLine_only, h, p1]

theorem ocpFirst_only (h : Only ps a s) (p1 : Part.ocp ∈ ps := by assumption) : Only ps a (ocpFirst x1 s) := by
  simp +contextual only [ocpFirst, only_mk, h, true_or, or_true, p1]

theorem drvSettled_only (h : Only ps a s) (p1 : Part.lines ∈ ps := by assumption) : Only ps a (drvSettled x1 s) := by
  simp +contextual only [drvSettled, modTx_only, h, p1]

theorem ocpResult_only (h : Only ps a s) (p1 : Part.rings ∈ ps := by assumption) (p2 : Part.evt ∈ ps := by assumption) (p3 :
    Part.own ∈ ps := by assumption) (p4 : Part.lines ∈ ps := by assumption) (p5 : Part.counters ∈ ps := by assumption) (p6 :
    Part.ocp ∈ ps := by assumption) : Only ps a (ocpResult x1 x2 s) := by
  simp only [ocpResult]
  repeat' first
    | (with_reducible first | assumption | apply foldl_only | apply forFin_only | apply ocpFirst_only
                            | apply done_only | apply modRx_only | apply raise_only
                            | apply drvSettled_only)
    | simp only [only_mk, true_or, or_true, and_self, p1, p2, p3, p4, p5, p6]
    | split

theorem ocpDone_only (h : Only ps a s) (p1 : Part.out ∈ ps := by assumption) (p2 : Part.rings ∈ ps := by assumption) (p3 :
    Part.evt ∈ ps := by assumption) (p4 : Part.own ∈ ps := by assumption) (p5 : Part.lines ∈ ps := by assumption) (p6 :
    Part.counters ∈ ps := by assumption) (p7 : Part.ocp ∈ ps := by assumption) : Only ps a (ocpDone x1 s) := by
  simp only [ocpDone]
  repeat' first
    | (with_reducible first | assumption | apply foldl_only | apply forFin_only | apply ocpStart_only
                            | apply ocpResult_only)
    | simp only [only_mk, true_or, or_true, p1, p2, p3, p4, p5, p6, p7]
    | split

/-! ### Codes -/

theorem corrAdd_only (h : Only ps a s) (p1 : Part.lines ∈ ps := by assumption) : Only ps a (corrAdd x1 x2 x3 s) := by
  simp +contextual only [corrAdd, modEq_only, h, p1]

theorem innerCount_only (h : Only ps a s) (p1 : Part.lines ∈ ps := by assumption) (p2 : Part.counters ∈ ps := by assumption)
    : Only ps a (innerCount x1 x2 x3 x4 s) := by
  simp only [innerCount]
  repeat' first
    | (with_reducible first | assumption | apply foldl_only | apply forFin_only | apply corrAdd_only
                            | apply modFr_only | apply noteLine_only | apply countLine_only)
    | simp only [only_mk, true_or, or_true, p1, p2]
    | split

theorem dataForward_only (h : Only ps a s) (p1 : Part.free ∈ ps := by assumption) (p2 : Part.out ∈ ps := by assumption) (p3
    : Part.lines ∈ ps := by assumption) (p4 : Part.hosts ∈ ps := by assumption) (p5 : Part.ports ∈ ps := by assumption) : Only
    ps a (dataForward x1 x2 s) := by
  simp only [dataForward]
  repeat' first
    | (with_reducible first | assumption | apply foldl_only | apply forFin_only | apply modPort_only
                            | apply modFr_only | apply hostDeliver_only)
    | simp only [only_mk, true_or, or_true, and_self, p1, p2, p3, p4, p5]
    | split
    | dsimp only
    | (with_reducible first | refine only_snd (by assumption) ?_ | refine only_fst (by assumption) ?_)
    | intro

theorem freeSyms_only (h : Only ps a s) (p1 : Part.free ∈ ps := by assumption) : Only ps a (freeSyms x1 s).2 := by
  simp +contextual only [freeSyms, Only_ite, only_mk, forFin_only, foldl_only, draw_only, h, implies_true, true_or, or_true,
    and_self, p1]

theorem recentre_only (h : Only ps a s) (p1 : Part.free ∈ ps := by assumption) (p2 : Part.hosts ∈ ps := by assumption) :
    Only ps a (recentre x1 x2 s) := by
  simp only [recentre]
  repeat' first
    | (with_reducible first | assumption | apply foldl_only | apply forFin_only | apply modHost_only
                            | apply freeSyms_only)
    | simp only [only_mk, true_or, or_true, and_self, p1, p2]
    | split
    | dsimp only
    | (with_reducible first | refine only_snd (by assumption) ?_ | refine only_fst (by assumption) ?_)
    | intro

theorem loopSlip_only (h : Only ps a s) (p1 : Part.free ∈ ps := by assumption) (p2 : Part.evt ∈ ps := by assumption) (p3 :
    Part.own ∈ ps := by assumption) (p4 : Part.hosts ∈ ps := by assumption) (p5 : Part.counters ∈ ps := by assumption) : Only ps
    a (loopSlip x1 x2 s) := by
  simp only [loopSlip]
  repeat' first
    | (with_reducible first | assumption | apply foldl_only | apply forFin_only | apply modHost_only
                            | apply recentre_only | apply countHost_only | apply raiseLimited_only)
    | simp only [only_mk, true_or, or_true, and_self, p1, p2, p3, p4, p5]
    | split

theorem innerCodeword_only (h : Only ps a s) (p1 : Part.free ∈ ps := by assumption) (p2 : Part.out ∈ ps := by assumption)
    (p3 : Part.lines ∈ ps := by assumption) (p4 : Part.hosts ∈ ps := by assumption) (p5 : Part.ports ∈ ps := by assumption) (p6
    : Part.counters ∈ ps := by assumption) : Only ps a (innerCodeword x1 x2 s) := by
  simp only [innerCodeword]
  repeat' first
    | (with_reducible first | assumption | apply foldl_only | apply forFin_only | apply dataForward_only
                            | apply modFr_only | apply innerCount_only | apply emit_only
                            | apply countLine_only)
    | simp only [only_mk, true_or, or_true, p1, p2, p3, p4, p5, p6]
    | split

theorem innerInterval_only (h : Only ps a s) (p1 : Part.evt ∈ ps := by assumption) (p2 : Part.own ∈ ps := by assumption) (p3
    : Part.lines ∈ ps := by assumption) (p4 : Part.counters ∈ ps := by assumption) : Only ps a (innerInterval x1 s) := by
  simp +contextual only [innerInterval, Only_ite, modFr_only, raiseLimited_only, h, implies_true, and_self, p1, p2, p3, p4]

theorem rawDrop_only (h : Only ps a s) (p1 : Part.ports ∈ ps := by assumption) : Only ps a (rawDrop s x1 x2) := by
  simp +contextual only [rawDrop, Only_ite, only_mk, forFin_only, foldl_only, modPort_only, h, implies_true, true_or,
    or_true, and_self, p1]

theorem rawForward_only (h : Only ps a s) (p1 : Part.free ∈ ps := by assumption) (p2 : Part.out ∈ ps := by assumption) (p3 :
    Part.hosts ∈ ps := by assumption) (p4 : Part.ports ∈ ps := by assumption) : Only ps a (rawForward x1 x2 s) := by
  simp +contextual only [rawForward, Only_ite, only_mk, forFin_only, foldl_only, hostDeliver_only, rawDrop_only, h,
    implies_true, true_or, or_true, and_self, p1, p2, p3, p4]

theorem markerLock_only (h : Only ps a s) (p1 : Part.ports ∈ ps := by assumption) : Only ps a (markerLock x1 x2 s) := by
  simp +contextual only [markerLock, Only_ite, modPort_only, h, implies_true, and_self, p1]

theorem markerLost_only (h : Only ps a s) (p1 : Part.free ∈ ps := by assumption) (p2 : Part.out ∈ ps := by assumption) (p3 :
    Part.evt ∈ ps := by assumption) (p4 : Part.own ∈ ps := by assumption) (p5 : Part.hosts ∈ ps := by assumption) (p6 :
    Part.ports ∈ ps := by assumption) (p7 : Part.counters ∈ ps := by assumption) : Only ps a (markerLost x1 x2 s) := by
  simp only [markerLost]
  repeat' first
    | (with_reducible first | assumption | apply foldl_only | apply forFin_only | apply countPort_only
                            | apply modPort_only | apply rawForward_only | apply raise_only)
    | simp only [only_mk, true_or, or_true, and_self, p1, p2, p3, p4, p5, p6, p7]
    | split

theorem outerForward_only (h : Only ps a s) (p1 : Part.free ∈ ps := by assumption) (p2 : Part.out ∈ ps := by assumption) (p3
    : Part.hosts ∈ ps := by assumption) : Only ps a (outerForward x1 x2 x3 s) := by
  simp +contextual only [outerForward, Only_ite, only_mk, forFin_only, foldl_only, hostDeliver_only, h, implies_true,
    true_or, or_true, and_self, p1, p2, p3]

theorem outerRun_only (h : Only ps a s) (p1 : Part.free ∈ ps := by assumption) (p2 : Part.out ∈ ps := by assumption) (p3 :
    Part.evt ∈ ps := by assumption) (p4 : Part.own ∈ ps := by assumption) (p5 : Part.hosts ∈ ps := by assumption) (p6 :
    Part.ports ∈ ps := by assumption) (p7 : Part.counters ∈ ps := by assumption) : Only ps a (outerRun x1 x2 x3 s) := by
  simp +contextual only [outerRun, Only_ite, only_mk, forFin_only, foldl_only, modPort_only, markerLost_only, h,
    implies_true, true_or, or_true, and_self, p1, p2, p3, p4, p5, p6, p7]

theorem outerCount_only (h : Only ps a s) (p1 : Part.ports ∈ ps := by assumption) (p2 : Part.counters ∈ ps := by assumption)
    : Only ps a (outerCount x1 x2 x3 s) := by
  simp only [outerCount]
  repeat' first
    | (with_reducible first | assumption | apply foldl_only | apply forFin_only | apply countPort_only
                            | apply modPort_only | apply notePort_only)
    | simp only [only_mk, true_or, or_true, and_self, p1, p2]
    | split
    | dsimp only
    | (with_reducible first | refine only_snd (by assumption) ?_ | refine only_fst (by assumption) ?_)
    | intro

theorem outerCodeword_only (h : Only ps a s) (p1 : Part.free ∈ ps := by assumption) (p2 : Part.out ∈ ps := by assumption)
    (p3 : Part.evt ∈ ps := by assumption) (p4 : Part.own ∈ ps := by assumption) (p5 : Part.hosts ∈ ps := by assumption) (p6 :
    Part.ports ∈ ps := by assumption) (p7 : Part.counters ∈ ps := by assumption) : Only ps a (outerCodeword x1 x2 x3 x4 s) := by
  simp only [outerCodeword]
  repeat' first
    | (with_reducible first | assumption | apply foldl_only | apply forFin_only | apply outerRun_only
                            | apply outerCount_only | apply outerForward_only | apply rawForward_only
                            | apply emit_only | apply rawDrop_only)
    | simp only [only_mk, and_self, p5, p6, p7]
    | split
    | dsimp only
    | (with_reducible first | refine only_snd (by assumption) ?_ | refine only_fst (by assumption) ?_)
    | intro

theorem outerInterval_only (h : Only ps a s) (p1 : Part.evt ∈ ps := by assumption) (p2 : Part.own ∈ ps := by assumption) (p3
    : Part.ports ∈ ps := by assumption) (p4 : Part.counters ∈ ps := by assumption) : Only ps a (outerInterval x1 s) := by
  simp +contextual only [outerInterval, Only_ite, modPort_only, raiseLimited_only, h, implies_true, and_self, p1, p2, p3,
    p4]

theorem winRecord_only (h : Only ps a s) (p1 : Part.rings ∈ ps := by assumption) (p2 : Part.evt ∈ ps := by assumption) (p3 :
    Part.tlm ∈ ps := by assumption) (p4 : Part.own ∈ ps := by assumption) (p5 : Part.counters ∈ ps := by assumption) : Only ps a
    (winRecord x1 x2 x3 x4 x5 s) := by
  simp +contextual only [winRecord, tlmForm_only, h, p1, p2, p3, p4, p5]

theorem serWindow_only (h : Only ps a s) (p1 : Part.rings ∈ ps := by assumption) (p2 : Part.evt ∈ ps := by assumption) (p3 :
    Part.tlm ∈ ps := by assumption) (p4 : Part.own ∈ ps := by assumption) (p5 : Part.ports ∈ ps := by assumption) (p6 :
    Part.counters ∈ ps := by assumption) : Only ps a (serWindow x1 s) := by
  simp only [serWindow]
  repeat' first
    | (with_reducible first | assumption | apply foldl_only | apply forFin_only | apply modPort_only
                            | apply winRecord_only | apply raise_only)
    | simp only [only_mk, true_or, or_true, and_self, p1, p2, p3, p4, p5, p6]
    | split

/-! ### Frame -/

theorem sendNext_only (h : Only ps a s) (p1 : Part.lines ∈ ps := by assumption) : Only ps a (sendNext x1 s) := by
  simp +contextual only [sendNext, modFr_only, h, p1]

theorem scNext_only (h : Only ps a s) (p1 : Part.lines ∈ ps := by assumption) : Only ps a (scNext x1 s).2 := by
  simp only [scNext]
  repeat' first
    | (with_reducible first | assumption | apply foldl_only | apply forFin_only | apply modFr_only)
    | simp only [only_mk, true_or, or_true, and_self, p1]
    | split

theorem setLineData_only (h : Only ps a s) (p1 : Part.hosts ∈ ps := by assumption) : Only ps a (setLineData x1 x2 s) := by
  simp +contextual only [setLineData, Only_ite, only_mk, forFin_only, foldl_only, modHost_only, h, implies_true, true_or,
    or_true, and_self, p1]

theorem takeBlocks_only {a : State} {ps : List Part} : ∀ {k : Nat} {l : List (Fin 4)} {s : State} (_ : Only ps a s) (p1 : Part.free ∈ ps := by assumption), Only ps a (takeBlocks k l s).2.2
  | 0, _, _, h, p1 => h
  | k + 1, l, s, h, p1 => by
    rw [takeBlocks]
    extract_lets +onlyGivenNames b
    split
    · exact takeBlocks_only h
    · exact takeBlocks_only (draw_only h)

theorem fillPos_only (h : Only ps a s) (p1 : Part.free ∈ ps := by assumption) (p2 : Part.lines ∈ ps := by assumption) : Only
    ps a (fillPos x1 x2 x3 s).2 := by
  simp only [fillPos]
  repeat' first
    | (with_reducible first | assumption | apply foldl_only | apply forFin_only | apply modTx_only
                            | apply draw_only)
    | simp only [only_mk, true_or, or_true, and_self, p1, p2]
    | split
    | dsimp only
    | (with_reducible first | refine only_snd (by assumption) ?_ | refine only_fst (by assumption) ?_)
    | intro

theorem farJudge_only (h : Only ps a s) (p1 : Part.free ∈ ps := by assumption) (p2 : Part.evt ∈ ps := by assumption) (p3 :
    Part.own ∈ ps := by assumption) (p4 : Part.hosts ∈ ps := by assumption) (p5 : Part.counters ∈ ps := by assumption) : Only ps
    a (farJudge x1 x2 s) := by
  simp +contextual only [farJudge, Only_ite, only_mk, forFin_only, foldl_only, loopSlip_only, h, implies_true, true_or,
    or_true, and_self, p1, p2, p3, p4, p5]

theorem posBlocks_only (h : Only ps a s) (p1 : Part.free ∈ ps := by assumption) (p2 : Part.evt ∈ ps := by assumption) (p3 :
    Part.own ∈ ps := by assumption) (p4 : Part.lines ∈ ps := by assumption) (p5 : Part.hosts ∈ ps := by assumption) (p6 :
    Part.counters ∈ ps := by assumption) : Only ps a (posBlocks x1 x2 x3 x4 s).2 := by
  simp only [posBlocks]
  repeat' first
    | (with_reducible first | assumption | apply foldl_only | apply forFin_only | apply modTx_only
                            | apply farJudge_only | apply takeBlocks_only | apply setLineData_only
                            | apply fillPos_only)
    | simp only [only_mk, true_or, or_true, and_self, p1, p2, p3, p4, p5, p6]
    | split
    | dsimp only
    | (with_reducible first | refine only_snd (by assumption) ?_ | refine only_fst (by assumption) ?_)
    | intro

theorem frameBlocks_only (h : Only ps a s) (p1 : Part.free ∈ ps := by assumption) (p2 : Part.evt ∈ ps := by assumption) (p3
    : Part.own ∈ ps := by assumption) (p4 : Part.lines ∈ ps := by assumption) (p5 : Part.hosts ∈ ps := by assumption) (p6 :
    Part.counters ∈ ps := by assumption) : Only ps a (frameBlocks x1 x2 x3 s).2 := by
  simp +contextual only [frameBlocks, Only_ite, only_mk, forFin_only, foldl_only, posBlocks_only, h, implies_true, true_or,
    or_true, and_self, p1, p2, p3, p4, p5, p6]

theorem dacCodes_only {l : Line} {a : State} {ps : List Part} : ∀ {k : Nat} {w : List (Option (Fin 4))} {s : State} (_ :
    Only ps a s) (p1 : Part.free ∈ ps := by assumption), Only ps a (dacCodes l k w s).2.2
  | 0, _, _, h, p1 => h
  | k + 1, w, s, h, p1 => by
    rw [dacCodes]
    split
    · exact dacCodes_only h
    · exact dacCodes_only (draw_only h)

theorem countFill_only (h : Only ps a s) (p1 : Part.counters ∈ ps := by assumption) : Only ps a (countFill x1 x2 s) := by
  simp only [countFill]
  repeat' first
    | (with_reducible first | assumption | apply foldl_only | apply forFin_only | apply countHost_only)
    | simp only [only_mk, true_or, or_true, and_self, p1]
    | split
    | dsimp only
    | (with_reducible first | refine only_snd (by assumption) ?_ | refine only_fst (by assumption) ?_)
    | intro

theorem dacSend_only (h : Only ps a s) (p1 : Part.free ∈ ps := by assumption) (p2 : Part.out ∈ ps := by assumption) (p3 :
    Part.lines ∈ ps := by assumption) (p4 : Part.counters ∈ ps := by assumption) : Only ps a (dacSend x1 x2 s) := by
  simp only [dacSend]
  repeat' first
    | (with_reducible first | assumption | apply foldl_only | apply forFin_only | apply modTx_only
                            | apply emit_only | apply countLine_only | apply dacCodes_only)
    | simp only [only_mk, true_or, or_true, and_self, p1, p2, p3, p4]
    | split
    | dsimp only
    | (with_reducible first | refine only_snd (by assumption) ?_ | refine only_fst (by assumption) ?_)
    | intro

theorem dacSilent_only (h : Only ps a s) (p1 : Part.lines ∈ ps := by assumption) : Only ps a (dacSilent x1 s) := by
  simp +contextual only [dacSilent, Only_ite, only_mk, forFin_only, foldl_only, modTx_only, h, implies_true, true_or,
    or_true, and_self, p1]

theorem frameSend_only (h : Only ps a s) (p1 : Part.free ∈ ps := by assumption) (p2 : Part.out ∈ ps := by assumption) (p3 :
    Part.evt ∈ ps := by assumption) (p4 : Part.own ∈ ps := by assumption) (p5 : Part.lines ∈ ps := by assumption) (p6 :
    Part.hosts ∈ ps := by assumption) (p7 : Part.counters ∈ ps := by assumption) : Only ps a (frameSend x1 x2 x3 s) := by
  simp only [frameSend]
  repeat' first
    | (with_reducible first | assumption | apply foldl_only | apply forFin_only | apply sendNext_only
                            | apply scNext_only | apply modFr_only | apply frameBlocks_only
                            | apply emit_only | apply countFill_only | apply countLine_only
                            | apply dacSend_only)
    | simp only [only_mk, true_or, or_true, and_self, p1, p2, p3, p4, p5, p6, p7]
    | split

theorem frameLoose_only (h : Only ps a s) (p1 : Part.free ∈ ps := by assumption) (p2 : Part.out ∈ ps := by assumption) (p3 :
    Part.lines ∈ ps := by assumption) (p4 : Part.counters ∈ ps := by assumption) : Only ps a (frameLoose x1 x2 s) := by
  simp only [frameLoose]
  repeat' first
    | (with_reducible first | assumption | apply foldl_only | apply forFin_only | apply emit_only
                            | apply fillPos_only | apply dacSend_only)
    | simp only [only_mk, true_or, or_true, and_self, p1, p2, p3, p4]
    | split
    | dsimp only
    | (with_reducible first | refine only_snd (by assumption) ?_ | refine only_fst (by assumption) ?_)
    | intro

theorem plainSend_only (h : Only ps a s) (p1 : Part.free ∈ ps := by assumption) (p2 : Part.out ∈ ps := by assumption) (p3 :
    Part.lines ∈ ps := by assumption) (p4 : Part.hosts ∈ ps := by assumption) (p5 : Part.counters ∈ ps := by assumption) : Only
    ps a (plainSend x1 x2 s) := by
  simp only [plainSend]
  repeat' first
    | (with_reducible first | assumption | apply foldl_only | apply forFin_only | apply modTx_only
                            | apply takeBlocks_only | apply setLineData_only | apply dacSilent_only
                            | apply dacSend_only)
    | simp only [only_mk, true_or, or_true, and_self, p1, p2, p3, p4, p5]
    | split
    | dsimp only
    | (with_reducible first | refine only_snd (by assumption) ?_ | refine only_fst (by assumption) ?_)
    | intro

theorem farOlder_only (h : Only ps a s) (p1 : Part.lines ∈ ps := by assumption) : Only ps a (farOlder x1 s) := by
  simp +contextual only [farOlder, Only_ite, only_mk, forFin_only, foldl_only, modFr_only, h, implies_true, true_or,
    or_true, and_self, p1]

theorem frameOut_only (h : Only ps a s) (p1 : Part.free ∈ ps := by assumption) (p2 : Part.out ∈ ps := by assumption) (p3 :
    Part.evt ∈ ps := by assumption) (p4 : Part.own ∈ ps := by assumption) (p5 : Part.lines ∈ ps := by assumption) (p6 :
    Part.hosts ∈ ps := by assumption) (p7 : Part.counters ∈ ps := by assumption) : Only ps a (frameOut x1 x2 x3 s) := by
  simp +contextual only [frameOut, Only_ite, only_mk, forFin_only, foldl_only, frameSend_only, plainSend_only,
    dacSilent_only, h, implies_true, true_or, or_true, and_self, p1, p2, p3, p4, p5, p6, p7]

theorem frameStart_only (h : Only ps a s) (p1 : Part.free ∈ ps := by assumption) (p2 : Part.out ∈ ps := by assumption) (p3 :
    Part.evt ∈ ps := by assumption) (p4 : Part.own ∈ ps := by assumption) (p5 : Part.lines ∈ ps := by assumption) (p6 :
    Part.hosts ∈ ps := by assumption) (p7 : Part.ports ∈ ps := by assumption) (p8 : Part.counters ∈ ps := by assumption) : Only
    ps a (frameStart x1 s) := by
  simp only [frameStart]
  repeat' first
    | (with_reducible first | assumption | apply foldl_only | apply forFin_only | apply modTx_only
                            | apply farOlder_only | apply modFr_only | apply frameOut_only
                            | apply frameLoose_only | apply latRefresh_only)
    | simp only [only_mk, true_or, or_true, and_self, p1, p2, p3, p4, p5, p6, p7, p8]
    | split

theorem syncStep_only (h : Only ps a s) (p1 : Part.free ∈ ps := by assumption) (p2 : Part.out ∈ ps := by assumption) (p3 :
    Part.rings ∈ ps := by assumption) (p4 : Part.evt ∈ ps := by assumption) (p5 : Part.own ∈ ps := by assumption) (p6 :
    Part.lines ∈ ps := by assumption) (p7 : Part.counters ∈ ps := by assumption) (p8 : Part.ocp ∈ ps := by assumption) : Only ps
    a (syncStep x1 x2 s) := by
  simp only [syncStep]
  repeat' first
    | (with_reducible first | assumption | apply foldl_only | apply forFin_only | apply frameCheck_only
                            | apply loseLock_only | apply modRx_only)
    | simp only [only_mk, true_or, or_true, and_self, p1, p2, p3, p4, p5, p6, p7, p8]
    | split

theorem idJudge_only (h : Only ps a s) (p1 : Part.evt ∈ ps := by assumption) (p2 : Part.own ∈ ps := by assumption) (p3 :
    Part.lines ∈ ps := by assumption) (p4 : Part.ports ∈ ps := by assumption) (p5 : Part.counters ∈ ps := by assumption) : Only
    ps a (idJudge x1 x2 s) := by
  simp only [idJudge]
  repeat' first
    | (with_reducible first | assumption | apply foldl_only | apply forFin_only | apply countPort_only
                            | apply modPort_only | apply modFr_only | apply raise_only)
    | simp only [only_mk, true_or, or_true, and_self, p1, p2, p3, p4, p5]
    | split
    | dsimp only
    | (with_reducible first | refine only_snd (by assumption) ?_ | refine only_fst (by assumption) ?_)
    | intro

theorem deskewJudge_only (h : Only ps a s) (p1 : Part.evt ∈ ps := by assumption) (p2 : Part.own ∈ ps := by assumption) (p3 :
    Part.ports ∈ ps := by assumption) (p4 : Part.counters ∈ ps := by assumption) : Only ps a (deskewJudge x1 s) := by
  simp only [deskewJudge]
  repeat' first
    | (with_reducible first | assumption | apply foldl_only | apply forFin_only | apply countPort_only
                            | apply modPort_only | apply raise_only)
    | simp only [only_mk, true_or, or_true, and_self, p1, p2, p3, p4]
    | split

theorem hdrTake_only (h : Only ps a s) (p1 : Part.evt ∈ ps := by assumption) (p2 : Part.own ∈ ps := by assumption) (p3 :
    Part.lines ∈ ps := by assumption) (p4 : Part.ports ∈ ps := by assumption) (p5 : Part.counters ∈ ps := by assumption) : Only
    ps a (hdrTake x1 x2 x3 s) := by
  simp only [hdrTake]
  repeat' first
    | (with_reducible first | assumption | apply foldl_only | apply forFin_only | apply trnFrameSeen_only
                            | apply scQueue_only | apply modFr_only | apply idJudge_only)
    | simp only [only_mk, true_or, or_true, and_self, p1, p2, p3, p4, p5]
    | split

theorem frameHeader_only (h : Only ps a s) (p1 : Part.free ∈ ps := by assumption) (p2 : Part.out ∈ ps := by assumption) (p3
    : Part.rings ∈ ps := by assumption) (p4 : Part.evt ∈ ps := by assumption) (p5 : Part.own ∈ ps := by assumption) (p6 :
    Part.lines ∈ ps := by assumption) (p7 : Part.ports ∈ ps := by assumption) (p8 : Part.counters ∈ ps := by assumption) (p9 :
    Part.ocp ∈ ps := by assumption) : Only ps a (frameHeader x1 x2 x3 s) := by
  simp only [frameHeader]
  repeat' first
    | (with_reducible first | assumption | apply foldl_only | apply forFin_only | apply hdrTake_only
                            | apply modFr_only | apply syncStep_only | apply countLine_only
                            | apply deskewJudge_only)
    | simp only [only_mk, true_or, or_true, and_self, p1, p2, p3, p4, p5, p6, p7, p8, p9]
    | split

theorem headerErrors_only (h : Only ps a s) (p1 : Part.evt ∈ ps := by assumption) (p2 : Part.own ∈ ps := by assumption) (p3
    : Part.lines ∈ ps := by assumption) (p4 : Part.counters ∈ ps := by assumption) : Only ps a (headerErrors x1 s) := by
  simp +contextual only [headerErrors, Only_ite, modFr_only, raiseLimited_only, h, implies_true, and_self, p1, p2, p3, p4]

theorem idleStatus_only (h : Only ps a s) (p1 : Part.lines ∈ ps := by assumption) : Only ps a (idleStatus x1 x2 s) := by
  simp +contextual only [idleStatus, Only_ite, modFr_only, h, implies_true, and_self, p1]

theorem echoBeats_only (h : Only ps a s) (p1 : Part.free ∈ ps := by assumption) : Only ps a (echoBeats x1 x2 s).2 := by
  simp only [echoBeats]
  repeat' first
    | (with_reducible first | assumption | apply foldl_only | apply forFin_only | apply draw_only)
    | simp only [only_mk, true_or, or_true, and_self, p1]
    | split

theorem echoTake_only (h : Only ps a s) (p1 : Part.free ∈ ps := by assumption) (p2 : Part.lines ∈ ps := by assumption) (p3 :
    Part.counters ∈ ps := by assumption) : Only ps a (echoTake x1 x2 s) := by
  simp only [echoTake]
  repeat' first
    | (with_reducible first | assumption | apply foldl_only | apply forFin_only | apply countPort_only
                            | apply modFr_only | apply echoBeats_only | apply countLine_only)
    | simp only [only_mk, true_or, or_true, and_self, p1, p2, p3]
    | split

theorem echoDrop_only (h : Only ps a s) (p1 : Part.lines ∈ ps := by assumption) : Only ps a (echoDrop x1 s) := by
  simp +contextual only [echoDrop, modFr_only, h, p1]

theorem latDone_only (h : Only ps a s) (p1 : Part.free ∈ ps := by assumption) (p2 : Part.rings ∈ ps := by assumption) (p3 :
    Part.evt ∈ ps := by assumption) (p4 : Part.own ∈ ps := by assumption) (p5 : Part.ports ∈ ps := by assumption) (p6 :
    Part.counters ∈ ps := by assumption) : Only ps a (latDone x1 s) := by
  simp only [latDone]
  repeat' first
    | (with_reducible first | assumption | apply foldl_only | apply forFin_only | apply done_only
                            | apply modPort_only | apply draw_only)
    | simp only [only_mk, true_or, or_true, and_self, p1, p2, p3, p4, p5, p6]
    | split

theorem msgComplete_only (h : Only ps a s) (p1 : Part.rings ∈ ps := by assumption) (p2 : Part.evt ∈ ps := by assumption) (p3
    : Part.tlm ∈ ps := by assumption) (p4 : Part.own ∈ ps := by assumption) (p5 : Part.lines ∈ ps := by assumption) (p6 :
    Part.counters ∈ ps := by assumption) : Only ps a (msgComplete x1 x2 x3 s) := by
  simp only [msgComplete]
  repeat' first
    | (with_reducible first | assumption | apply foldl_only | apply forFin_only | apply scQueue_only
                            | apply countPort_only | apply modFr_only | apply raise_only
                            | apply msgForm_only)
    | simp only [only_mk, true_or, or_true, and_self, p1, p2, p3, p4, p5, p6]
    | split

theorem hostFrag_only (h : Only ps a s) (p1 : Part.rings ∈ ps := by assumption) (p2 : Part.evt ∈ ps := by assumption) (p3 :
    Part.tlm ∈ ps := by assumption) (p4 : Part.own ∈ ps := by assumption) (p5 : Part.lines ∈ ps := by assumption) (p6 :
    Part.counters ∈ ps := by assumption) : Only ps a (hostFrag x1 x2 s) := by
  simp only [hostFrag]
  repeat' first
    | (with_reducible first | assumption | apply foldl_only | apply forFin_only | apply modFr_only
                            | apply msgComplete_only | apply countLine_only)
    | simp only [only_mk, true_or, or_true, and_self, p1, p2, p3, p4, p5, p6]
    | split

theorem msgSettle_only (h : Only ps a s) (p1 : Part.rings ∈ ps := by assumption) (p2 : Part.evt ∈ ps := by assumption) (p3 :
    Part.own ∈ ps := by assumption) (p4 : Part.lines ∈ ps := by assumption) (p5 : Part.counters ∈ ps := by assumption) : Only ps
    a (msgSettle x1 x2 s) := by
  simp only [msgSettle]
  repeat' first
    | (with_reducible first | assumption | apply foldl_only | apply forFin_only | apply done_only
                            | apply modFr_only)
    | simp only [only_mk, true_or, or_true, and_self, p1, p2, p3, p4, p5]
    | split

theorem msgAgain_only (h : Only ps a s) (p1 : Part.rings ∈ ps := by assumption) (p2 : Part.evt ∈ ps := by assumption) (p3 :
    Part.own ∈ ps := by assumption) (p4 : Part.lines ∈ ps := by assumption) (p5 : Part.counters ∈ ps := by assumption) : Only ps
    a (msgAgain x1 x2 s) := by
  simp only [msgAgain]
  repeat' first
    | (with_reducible first | assumption | apply foldl_only | apply forFin_only | apply modFr_only
                            | apply msgSettle_only)
    | simp only [only_mk, true_or, or_true, and_self, p1, p2, p3, p4, p5]
    | split

theorem hostAck_only (h : Only ps a s) (p1 : Part.rings ∈ ps := by assumption) (p2 : Part.evt ∈ ps := by assumption) (p3 :
    Part.own ∈ ps := by assumption) (p4 : Part.lines ∈ ps := by assumption) (p5 : Part.counters ∈ ps := by assumption) : Only ps
    a (hostAck x1 x2 s) := by
  simp only [hostAck]
  repeat' first
    | (with_reducible first | assumption | apply foldl_only | apply forFin_only | apply countPort_only
                            | apply msgSettle_only | apply countLine_only | apply msgAgain_only)
    | simp only [only_mk, true_or, or_true, and_self, p1, p2, p3, p4, p5]
    | split

theorem msgTimeout_only (h : Only ps a s) (p1 : Part.rings ∈ ps := by assumption) (p2 : Part.evt ∈ ps := by assumption) (p3
    : Part.own ∈ ps := by assumption) (p4 : Part.lines ∈ ps := by assumption) (p5 : Part.counters ∈ ps := by assumption) : Only
    ps a (msgTimeout x1 s) := by
  simp only [msgTimeout]
  repeat' first
    | (with_reducible first | assumption | apply foldl_only | apply forFin_only | apply msgAgain_only)
    | simp only [only_mk, true_or, or_true, and_self, p1, p2, p3, p4, p5]
    | split

theorem msgGiveUp_only (h : Only ps a s) (p1 : Part.rings ∈ ps := by assumption) (p2 : Part.evt ∈ ps := by assumption) (p3 :
    Part.own ∈ ps := by assumption) (p4 : Part.lines ∈ ps := by assumption) (p5 : Part.counters ∈ ps := by assumption) : Only ps
    a (msgGiveUp x1 s) := by
  simp +contextual only [msgGiveUp, Only_ite, msgAbandon_only, h, implies_true, and_self, p1, p2, p3, p4, p5]

/-! ### HostLanes -/

theorem hostDrop_only (h : Only ps a s) (p1 : Part.evt ∈ ps := by assumption) (p2 : Part.own ∈ ps := by assumption) (p3 :
    Part.hosts ∈ ps := by assumption) (p4 : Part.counters ∈ ps := by assumption) : Only ps a (hostDrop x1 s) := by
  simp only [hostDrop]
  repeat' first
    | (with_reducible first | assumption | apply foldl_only | apply forFin_only | apply modHost_only
                            | apply hostIdle_only | apply raise_only)
    | simp only [only_mk, true_or, or_true, and_self, p1, p2, p3, p4]
    | split

theorem hostLeaveIdle_only (h : Only ps a s) (p1 : Part.hosts ∈ ps := by assumption) : Only ps a (hostLeaveIdle x1 s) := by
  simp +contextual only [hostLeaveIdle, Only_ite, hostResume_only, hostTiming_only, h, implies_true, and_self, p1]

theorem hostSignalOn_only (h : Only ps a s) (p1 : Part.hosts ∈ ps := by assumption) : Only ps a (hostSignalOn x1 s) := by
  simp +contextual only [hostSignalOn, Only_ite, modHost_only, hostLeaveIdle_only, h, implies_true, and_self, p1]

theorem hostTimed_only (h : Only ps a s) (p1 : Part.hosts ∈ ps := by assumption) : Only ps a (hostTimed x1 s) := by
  simp +contextual only [hostTimed, modHost_only, h, p1]

theorem HostAcc.mse_only (h : Only ps a s) (p1 : Part.free ∈ ps := by assumption) : Only ps a (HostAcc.mse x1 s).2 := by
  simp only [HostAcc.mse]
  repeat' first
    | (with_reducible first | assumption | apply foldl_only | apply forFin_only | apply draw_only)
    | simp only [only_mk, true_or, or_true, and_self, p1]
    | split
    | dsimp only
    | (with_reducible first | refine only_snd (by assumption) ?_ | refine only_fst (by assumption) ?_)
    | intro

theorem ctleTrial_only (h : Only ps a s) (p1 : Part.free ∈ ps := by assumption) (p2 : Part.hosts ∈ ps := by assumption) :
    Only ps a (ctleTrial x1 s) := by
  simp only [ctleTrial]
  repeat' first
    | (with_reducible first | assumption | apply foldl_only | apply forFin_only | apply modHost_only
                            | apply HostAcc.mse_only)
    | simp only [p1, p2]
    | split
    | dsimp only
    | (with_reducible first | refine only_snd (by assumption) ?_ | refine only_fst (by assumption) ?_)
    | intro

theorem hostEnterUp_only (h : Only ps a s) (p1 : Part.free ∈ ps := by assumption) (p2 : Part.evt ∈ ps := by assumption) (p3
    : Part.own ∈ ps := by assumption) (p4 : Part.lines ∈ ps := by assumption) (p5 : Part.hosts ∈ ps := by assumption) (p6 :
    Part.counters ∈ ps := by assumption) : Only ps a (hostEnterUp x1 s) := by
  simp only [hostEnterUp]
  repeat' first
    | (with_reducible first | assumption | apply foldl_only | apply forFin_only | apply setTxBuffers_only
                            | apply modHost_only | apply raise_only)
    | simp only [only_mk, true_or, or_true, and_self, p1, p2, p3, p4, p5, p6]
    | split
    | dsimp only
    | (with_reducible first | refine only_snd (by assumption) ?_ | refine only_fst (by assumption) ?_)
    | intro

theorem hostWindow_only (h : Only ps a s) (p1 : Part.free ∈ ps := by assumption) (p2 : Part.evt ∈ ps := by assumption) (p3 :
    Part.own ∈ ps := by assumption) (p4 : Part.lines ∈ ps := by assumption) (p5 : Part.hosts ∈ ps := by assumption) (p6 :
    Part.counters ∈ ps := by assumption) : Only ps a (hostWindow x1 s) := by
  simp only [hostWindow]
  repeat' first
    | (with_reducible first | assumption | apply foldl_only | apply forFin_only | apply ratioOr_only
                            | apply modHost_only | apply HostAcc.mse_only | apply draw_only
                            | apply hostEnterUp_only | apply dbField_only)
    | simp only [only_mk, true_or, or_true, and_self, p1, p2, p3, p4, p5, p6]
    | split

theorem hostUnlock_only (h : Only ps a s) (p1 : Part.evt ∈ ps := by assumption) (p2 : Part.own ∈ ps := by assumption) (p3 :
    Part.hosts ∈ ps := by assumption) (p4 : Part.counters ∈ ps := by assumption) : Only ps a (hostUnlock x1 s) := by
  simp only [hostUnlock]
  repeat' first
    | (with_reducible first | assumption | apply foldl_only | apply forFin_only | apply hostHold_only
                            | apply hostResume_only | apply modHost_only | apply raise_only)
    | simp only [only_mk, true_or, or_true, and_self, p1, p2, p3, p4]
    | split

theorem hostRetry_only (h : Only ps a s) (p1 : Part.evt ∈ ps := by assumption) (p2 : Part.own ∈ ps := by assumption) (p3 :
    Part.hosts ∈ ps := by assumption) (p4 : Part.counters ∈ ps := by assumption) : Only ps a (hostRetry x1 s) := by
  simp +contextual only [hostRetry, Only_ite, hostTiming_only, raise_only, h, implies_true, and_self, p1, p2, p3, p4]

theorem dcgStep_only (h : Only ps a s) (p1 : Part.hosts ∈ ps := by assumption) : Only ps a (dcgStep x1 x2 s) := by
  simp +contextual only [dcgStep, modHost_only, h, p1]

theorem hostCount_only (h : Only ps a s) (p1 : Part.counters ∈ ps := by assumption) : Only ps a (hostCount x1 x2 s) := by
  simp only [hostCount]
  repeat' first
    | (with_reducible first | assumption | apply foldl_only | apply forFin_only | apply countHost_only)
    | simp only [only_mk, true_or, or_true, p1]
    | split
    | dsimp only
    | (with_reducible first | refine only_snd (by assumption) ?_ | refine only_fst (by assumption) ?_)
    | intro

theorem hostSamples_only (h : Only ps a s) (p1 : Part.free ∈ ps := by assumption) (p2 : Part.out ∈ ps := by assumption) (p3
    : Part.hosts ∈ ps := by assumption) (p4 : Part.counters ∈ ps := by assumption) : Only ps a (hostSamples x1 x2 s) := by
  simp only [hostSamples]
  repeat' first
    | (with_reducible first | assumption | apply foldl_only | apply forFin_only | apply modHost_only
                            | apply hostCount_only | apply hostForward_only)
    | simp only [only_mk, true_or, or_true, and_self, p1, p2, p3, p4]
    | split
    | dsimp only
    | (with_reducible first | refine only_snd (by assumption) ?_ | refine only_fst (by assumption) ?_)
    | intro

theorem hostLoop_only (h : Only ps a s) (p1 : Part.free ∈ ps := by assumption) (p2 : Part.out ∈ ps := by assumption) (p3 :
    Part.hosts ∈ ps := by assumption) (p4 : Part.counters ∈ ps := by assumption) : Only ps a (hostLoop x1 x2 x3 s) := by
  simp +contextual only [hostLoop, Only_ite, hostSamples_only, modHost_only, h, implies_true, and_self, p1, p2, p3, p4]

theorem hostCapture_only (h : Only ps a s) (p1 : Part.hosts ∈ ps := by assumption) : Only ps a (hostCapture x1 s) := by
  simp only [hostCapture]
  repeat' first
    | (with_reducible first | assumption | apply foldl_only | apply forFin_only | apply modHost_only)
    | simp only [p1]
    | split
    | dsimp only
    | (with_reducible first | refine only_snd (by assumption) ?_ | refine only_fst (by assumption) ?_)
    | intro

theorem prbsLock_only (h : Only ps a s) (p1 : Part.evt ∈ ps := by assumption) (p2 : Part.own ∈ ps := by assumption) (p3 :
    Part.hosts ∈ ps := by assumption) (p4 : Part.counters ∈ ps := by assumption) : Only ps a (prbsLock x1 s) := by
  simp +contextual only [prbsLock, Only_ite, modHost_only, raise_only, h, implies_true, and_self, p1, p2, p3, p4]

theorem prbsLost_only (h : Only ps a s) (p1 : Part.evt ∈ ps := by assumption) (p2 : Part.own ∈ ps := by assumption) (p3 :
    Part.hosts ∈ ps := by assumption) (p4 : Part.counters ∈ ps := by assumption) : Only ps a (prbsLost x1 s) := by
  simp only [prbsLost]
  repeat' first
    | (with_reducible first | assumption | apply foldl_only | apply forFin_only | apply modHost_only
                            | apply raise_only)
    | simp only [only_mk, true_or, or_true, and_self, p1, p2, p3, p4]
    | split

end Sys2Proof.Machine
end

