-- ==== Sys2Proof/Laws/OnlyService.lean ====
section
/-! SUPPORT. `Only` for every operation of converters, calibration, captures, integrity, power, banks, swaps and block tests that does not reach every part. -/

-- One proof after another: the package is compiled as one text, where proofs side by side take too much memory.
set_option Elab.async false

namespace Sys2Proof.Machine

open Sys2Proof

/-! ### Convert -/

theorem modConv_only (h : Only ps a s) (p1 : Part.lines ∈ ps := by assumption) (p2 : Part.hosts ∈ ps := by assumption) :
    Only ps a (modConv x1 x2 s) := by
  simp only [modConv]
  repeat' first
    | (with_reducible first | assumption | apply foldl_only | apply forFin_only | apply modTx_only
                            | apply modHost_only | apply modRx_only)
    | simp only [only_mk, true_or, or_true, and_self, p1, p2]
    | split

theorem storeSlice_only (h : Only ps a s) (p1 : Part.lines ∈ ps := by assumption) (p2 : Part.hosts ∈ ps := by assumption)
    (p3 : Part.cal ∈ ps := by assumption) : Only ps a (storeSlice x1 x2 x3 s) := by
  simp only [storeSlice]
  repeat' first
    | (with_reducible first | assumption | apply foldl_only | apply forFin_only | apply modConv_only
                            | apply modCal_only)
    | simp only [only_mk, true_or, or_true, and_self, p1, p2, p3]
    | split

theorem convApply_only (h : Only ps a s) (p1 : Part.lines ∈ ps := by assumption) (p2 : Part.hosts ∈ ps := by assumption) :
    Only ps a (convApply x1 s) := by
  simp only [convApply]
  repeat' first
    | (with_reducible first | assumption | apply foldl_only | apply forFin_only | apply modConv_only)
    | simp only [only_mk, true_or, or_true, and_self, p1, p2]
    | split

theorem spareGone_only (h : Only ps a s) (p1 : Part.evt ∈ ps := by assumption) (p2 : Part.own ∈ ps := by assumption) (p3 :
    Part.counters ∈ ps := by assumption) : Only ps a (spareGone x1 s) := by
  simp +contextual only [spareGone, raise_only, h, p1, p2, p3]

theorem capSubst_only (h : Only ps a s) (p1 : Part.free ∈ ps := by assumption) (p2 : Part.arb ∈ ps := by assumption) (p3 :
    Part.captures ∈ ps := by assumption) : Only ps a (capSubst x1 s) := by
  simp only [capSubst]
  repeat' first
    | (with_reducible first | assumption | apply foldl_only | apply forFin_only | apply draw_only
                            | apply arbEnd_only)
    | simp only [only_mk, true_or, or_true, p1, p2, p3]
    | split

theorem failAct_only (h : Only ps a s) (p1 : Part.free ∈ ps := by assumption) (p2 : Part.evt ∈ ps := by assumption) (p3 :
    Part.own ∈ ps := by assumption) (p4 : Part.lines ∈ ps := by assumption) (p5 : Part.hosts ∈ ps := by assumption) (p6 :
    Part.counters ∈ ps := by assumption) (p7 : Part.arb ∈ ps := by assumption) (p8 : Part.captures ∈ ps := by assumption) : Only
    ps a (failAct x1 x2 s) := by
  simp only [failAct]
  repeat' first
    | (with_reducible first | assumption | apply foldl_only | apply forFin_only | apply spareGone_only
                            | apply convApply_only | apply modConv_only | apply capSubst_only
                            | apply raise_only)
    | simp only [only_mk, true_or, or_true, and_self, p1, p2, p3, p4, p5, p6, p7, p8]
    | split

theorem convFail_only (h : Only ps a s) (p1 : Part.free ∈ ps := by assumption) (p2 : Part.evt ∈ ps := by assumption) (p3 :
    Part.own ∈ ps := by assumption) (p4 : Part.lines ∈ ps := by assumption) (p5 : Part.hosts ∈ ps := by assumption) (p6 :
    Part.counters ∈ ps := by assumption) (p7 : Part.arb ∈ ps := by assumption) (p8 : Part.captures ∈ ps := by assumption) : Only
    ps a (convFail x1 x2 s) := by
  simp only [convFail]
  repeat' first
    | (with_reducible first | assumption | apply foldl_only | apply forFin_only | apply failAct_only
                            | apply modConv_only)
    | simp only [only_mk, true_or, or_true, and_self, p1, p2, p3, p4, p5, p6, p7, p8]
    | split

theorem countSwap_only (h : Only ps a s) (p1 : Part.counters ∈ ps := by assumption) : Only ps a (countSwap x1 s) := by
  simp only [countSwap]
  repeat' first
    | (with_reducible first | assumption | apply foldl_only | apply forFin_only | apply countHost_only
                            | apply countLine_only)
    | simp only [only_mk, true_or, or_true, and_self, p1]
    | split

/-! ### Reed -/

theorem calDueAll_only (h : Only ps a s) (p1 : Part.cal ∈ ps := by assumption) : Only ps a (calDueAll s) := by
  simp +contextual only [calDueAll, modCal_only, h, p1]

theorem calDueOne_only (h : Only ps a s) (p1 : Part.cal ∈ ps := by assumption) : Only ps a (calDueOne x1 s) := by
  simp +contextual only [calDueOne, modCal_only, h, p1]

theorem calPrune_only (h : Only ps a s) (p1 : Part.rings ∈ ps := by assumption) (p2 : Part.evt ∈ ps := by assumption) (p3 :
    Part.own ∈ ps := by assumption) (p4 : Part.counters ∈ ps := by assumption) (p5 : Part.cal ∈ ps := by assumption) : Only ps a
    (calPrune s) := by
  simp only [calPrune]
  repeat' first
    | (with_reducible first | assumption | apply foldl_only | apply forFin_only | apply modCal_only
                            | apply refuse_only)
    | simp only [only_mk, true_or, or_true, and_self, p1, p2, p3, p4, p5]
    | split
    | dsimp only
    | (with_reducible first | refine only_snd (by assumption) ?_ | refine only_fst (by assumption) ?_)
    | intro

theorem sessionBegin_only (h : Only ps a s) (p1 : Part.mon ∈ ps := by assumption) (p2 : Part.cal ∈ ps := by assumption) :
    Only ps a (sessionBegin x1 s) := by
  simp only [sessionBegin]
  repeat' first
    | (with_reducible first | assumption | apply foldl_only | apply forFin_only | apply monStop_only
                            | apply modCal_only | apply modMon_only)
    | simp only [only_mk, true_or, or_true, and_self, p1, p2]
    | split

theorem sessionTry_only {a : State} {ps : List Part} : ∀ {l : List (Fin 49)} {s : State} (_ : Only ps a s) (p1 : Part.evt
    ∈ ps := by assumption) (p2 : Part.own ∈ ps := by assumption) (p3 : Part.counters ∈ ps := by assumption) (p4 : Part.mon ∈
    ps := by assumption) (p5 : Part.cal ∈ ps := by assumption) (p6 : Part.arb ∈ ps := by assumption), Only ps a (sessionTry l
    s)
  | [], _, h, p1, p2, p3, p4, p5, p6 => h
  | t :: l, s, h, p1, p2, p3, p4, p5, p6 => by
    have hr : Only ps a (arbPresent 1 (calArb (calTgt t)) s).1 := arbPresent_only h
    simp only [sessionTry, Only_ite]
    exact ⟨fun _ => ⟨fun _ => sessionBegin_only hr, fun _ => sessionTry_only hr⟩, fun _ => sessionTry_only h⟩

theorem sessionStart_only (h : Only ps a s) (p1 : Part.evt ∈ ps := by assumption) (p2 : Part.own ∈ ps := by assumption) (p3
    : Part.counters ∈ ps := by assumption) (p4 : Part.mon ∈ ps := by assumption) (p5 : Part.cal ∈ ps := by assumption) (p6 :
    Part.arb ∈ ps := by assumption) : Only ps a (sessionStart s) := by
  simp +contextual only [sessionStart, Only_ite, sessionTry_only, h, implies_true, and_self, p1, p2, p3, p4, p5, p6]

theorem starveForce_only (h : Only ps a s) (p1 : Part.cal ∈ ps := by assumption) : Only ps a (starveForce s) := by
  simp +contextual only [starveForce, modCal_only, h, p1]

theorem sessionCount_only (h : Only ps a s) (p1 : Part.counters ∈ ps := by assumption) (p2 : Part.cal ∈ ps := by assumption)
    : Only ps a (sessionCount x1 x2 s) := by
  simp only [sessionCount]
  repeat' first
    | (with_reducible first | assumption | apply foldl_only | apply forFin_only | apply modCal_only
                            | apply starveForce_only | apply countDev_only)
    | simp only [p1, p2]
    | split
    | dsimp only
    | (with_reducible first | refine only_snd (by assumption) ?_ | refine only_fst (by assumption) ?_)
    | intro

theorem reedAnswer_only (h : Only ps a s) (p1 : Part.rings ∈ ps := by assumption) (p2 : Part.evt ∈ ps := by assumption) (p3
    : Part.own ∈ ps := by assumption) (p4 : Part.counters ∈ ps := by assumption) : Only ps a (reedAnswer x1 s) := by
  simp only [reedAnswer]
  repeat' first
    | (with_reducible first | assumption | apply foldl_only | apply forFin_only | apply done_only)
    | simp only [only_mk, true_or, or_true, and_self, p1, p2, p3, p4]
    | split

theorem sessionReject_only (h : Only ps a s) (p1 : Part.evt ∈ ps := by assumption) (p2 : Part.own ∈ ps := by assumption) (p3
    : Part.counters ∈ ps := by assumption) (p4 : Part.cal ∈ ps := by assumption) : Only ps a (sessionReject x1 s) := by
  simp only [sessionReject]
  repeat' first
    | (with_reducible first | assumption | apply foldl_only | apply forFin_only | apply calDueOne_only
                            | apply modCal_only | apply sessionCount_only | apply countDev_only
                            | apply raiseLimited_only)

theorem selfCheck_only (h : Only ps a s) (p1 : Part.rings ∈ ps := by assumption) (p2 : Part.evt ∈ ps := by assumption) (p3 :
    Part.own ∈ ps := by assumption) (p4 : Part.counters ∈ ps := by assumption) (p5 : Part.cal ∈ ps := by assumption) : Only ps a
    (selfCheck x1 x2 s) := by
  simp only [selfCheck]
  repeat' first
    | (with_reducible first | assumption | apply foldl_only | apply forFin_only | apply modCal_only
                            | apply raise_only | apply sessionCount_only | apply refuse_only
                            | apply reedAnswer_only)
    | simp only [only_mk, true_or, or_true, and_self, p1, p2, p3, p4, p5]
    | split
    | dsimp only
    | (with_reducible first | refine only_snd (by assumption) ?_ | refine only_fst (by assumption) ?_)
    | intro

theorem owedNext_only (h : Only ps a s) (p1 : Part.lines ∈ ps := by assumption) (p2 : Part.hosts ∈ ps := by assumption) (p3
    : Part.cal ∈ ps := by assumption) : Only ps a (owedNext x1 s) := by
  simp +contextual only [owedNext, Only_ite, only_mk, forFin_only, foldl_only, modConv_only, modCal_only, h, implies_true,
    true_or, or_true, and_self, p1, p2, p3]

theorem convSession_only (h : Only ps a s) (p1 : Part.rings ∈ ps := by assumption) (p2 : Part.evt ∈ ps := by assumption) (p3
    : Part.own ∈ ps := by assumption) (p4 : Part.lines ∈ ps := by assumption) (p5 : Part.hosts ∈ ps := by assumption) (p6 :
    Part.counters ∈ ps := by assumption) (p7 : Part.cal ∈ ps := by assumption) (p8 : Part.arb ∈ ps := by assumption) : Only ps a
    (convSession x1 x2 x3 s) := by
  simp only [convSession]
  repeat' first
    | (with_reducible first | assumption | apply foldl_only | apply forFin_only | apply sessionReject_only
                            | apply calDueOne_only | apply modConv_only | apply modCal_only
                            | apply storeSlice_only | apply owedNext_only | apply sessionCount_only
                            | apply reedAnswer_only | apply arbEnd_only)
    | simp only [only_mk, true_or, or_true, and_self, p1, p2, p3, p4, p5, p6, p7, p8]
    | split

theorem sessionDone_only (h : Only ps a s) (p1 : Part.rings ∈ ps := by assumption) (p2 : Part.evt ∈ ps := by assumption) (p3
    : Part.own ∈ ps := by assumption) (p4 : Part.lines ∈ ps := by assumption) (p5 : Part.hosts ∈ ps := by assumption) (p6 :
    Part.counters ∈ ps := by assumption) (p7 : Part.cal ∈ ps := by assumption) (p8 : Part.arb ∈ ps := by assumption) : Only ps a
    (sessionDone x1 s) := by
  simp only [sessionDone]
  repeat' first
    | (with_reducible first | assumption | apply foldl_only | apply forFin_only | apply convSession_only
                            | apply modCal_only | apply selfCheck_only | apply arbEnd_only)
    | simp only [only_mk, true_or, or_true, and_self, p1, p2, p3, p4, p5, p6, p7, p8]
    | split

theorem segmentDone_only (h : Only ps a s) (p1 : Part.rings ∈ ps := by assumption) (p2 : Part.evt ∈ ps := by assumption) (p3
    : Part.own ∈ ps := by assumption) (p4 : Part.counters ∈ ps := by assumption) (p5 : Part.mon ∈ ps := by assumption) (p6 :
    Part.therm ∈ ps := by assumption) (p7 : Part.cal ∈ ps := by assumption) (p8 : Part.arb ∈ ps := by assumption) : Only ps a
    (segmentDone x1 s) := by
  simp only [segmentDone]
  repeat' first
    | (with_reducible first | assumption | apply foldl_only | apply forFin_only | apply monNext_only
                            | apply sessionReject_only | apply calDueOne_only | apply modCal_only
                            | apply modMon_only | apply sessionCount_only | apply reedAnswer_only
                            | apply monRestart_only | apply arbEnd_only)
    | simp only [only_mk, true_or, or_true, and_self, p1, p2, p3, p4, p5, p6, p7, p8]
    | split

theorem swapDone_only (h : Only ps a s) (p1 : Part.free ∈ ps := by assumption) (p2 : Part.rings ∈ ps := by assumption) (p3 :
    Part.evt ∈ ps := by assumption) (p4 : Part.own ∈ ps := by assumption) (p5 : Part.lines ∈ ps := by assumption) (p6 :
    Part.hosts ∈ ps := by assumption) (p7 : Part.counters ∈ ps := by assumption) (p8 : Part.cal ∈ ps := by assumption) (p9 :
    Part.arb ∈ ps := by assumption) (p10 : Part.captures ∈ ps := by assumption) : Only ps a (swapDone x1 x2 s) := by
  simp only [swapDone]
  repeat' first
    | (with_reducible first | assumption | apply foldl_only | apply forFin_only | apply spareGone_only
                            | apply failAct_only | apply calDueOne_only | apply modConv_only
                            | apply modCal_only | apply calPrune_only | apply countSwap_only
                            | apply raise_only | apply arbEnd_only)
    | simp only [only_mk, true_or, or_true, and_self, p1, p2, p3, p4, p5, p6, p7, p8, p9, p10]
    | split
    | dsimp only
    | (with_reducible first | refine only_snd (by assumption) ?_ | refine only_fst (by assumption) ?_)
    | intro

theorem reedIdle_only (h : Only ps a s) (p1 : Part.evt ∈ ps := by assumption) (p2 : Part.own ∈ ps := by assumption) (p3 :
    Part.counters ∈ ps := by assumption) (p4 : Part.cal ∈ ps := by assumption) : Only ps a (reedIdle s) := by
  simp only [reedIdle]
  repeat' first
    | (with_reducible first | assumption | apply foldl_only | apply forFin_only | apply modCal_only
                            | apply raise_only)
    | simp only [only_mk, true_or, or_true, and_self, p1, p2, p3, p4]
    | split

theorem requestTimeout_only (h : Only ps a s) (p1 : Part.rings ∈ ps := by assumption) (p2 : Part.evt ∈ ps := by assumption)
    (p3 : Part.own ∈ ps := by assumption) (p4 : Part.counters ∈ ps := by assumption) (p5 : Part.cal ∈ ps := by assumption) :
    Only ps a (requestTimeout x1 s) := by
  simp only [requestTimeout]
  repeat' first
    | (with_reducible first | assumption | apply foldl_only | apply forFin_only | apply modCal_only
                            | apply refuse_only)
    | simp only [only_mk, true_or, or_true, and_self, p1, p2, p3, p4, p5]
    | split

theorem reedAbort_only (h : Only ps a s) (p1 : Part.evt ∈ ps := by assumption) (p2 : Part.own ∈ ps := by assumption) (p3 :
    Part.counters ∈ ps := by assumption) (p4 : Part.mon ∈ ps := by assumption) (p5 : Part.therm ∈ ps := by assumption) (p6 :
    Part.cal ∈ ps := by assumption) (p7 : Part.arb ∈ ps := by assumption) : Only ps a (reedAbort s) := by
  simp only [reedAbort]
  repeat' first
    | (with_reducible first | assumption | apply foldl_only | apply forFin_only | apply monNext_only
                            | apply modCal_only | apply modMon_only | apply monRestart_only
                            | apply arbEnd_only)
    | simp only [only_mk, true_or, or_true, and_self, p1, p2, p3, p4, p5, p6, p7]
    | split

theorem calRound_only (h : Only ps a s) (p1 : Part.rings ∈ ps := by assumption) (p2 : Part.evt ∈ ps := by assumption) (p3 :
    Part.own ∈ ps := by assumption) (p4 : Part.lines ∈ ps := by assumption) (p5 : Part.hosts ∈ ps := by assumption) (p6 :
    Part.counters ∈ ps := by assumption) (p7 : Part.cal ∈ ps := by assumption) : Only ps a (calRound s) := by
  simp only [calRound]
  repeat' first
    | (with_reducible first | assumption | apply foldl_only | apply forFin_only | apply convApply_only
                            | apply modCal_only | apply calPrune_only | apply calDueAll_only
                            | apply starveForce_only)
    | simp only [only_mk, true_or, or_true, and_self, p1, p2, p3, p4, p5, p6, p7]
    | split
    | dsimp only
    | (with_reducible first | refine only_snd (by assumption) ?_ | refine only_fst (by assumption) ?_)
    | intro

theorem actCalConfig_only (h : Only ps a s) (p1 : Part.rings ∈ ps := by assumption) (p2 : Part.evt ∈ ps := by assumption)
    (p3 : Part.own ∈ ps := by assumption) (p4 : Part.counters ∈ ps := by assumption) (p5 : Part.cal ∈ ps := by assumption) :
    Only ps a (actCalConfig x1 s) := by
  simp +contextual only [actCalConfig, done_only, modCal_only, h, p1, p2, p3, p4, p5]

theorem actCalRequest_only (h : Only ps a s) (p1 : Part.rings ∈ ps := by assumption) (p2 : Part.evt ∈ ps := by assumption)
    (p3 : Part.own ∈ ps := by assumption) (p4 : Part.counters ∈ ps := by assumption) (p5 : Part.cal ∈ ps := by assumption) :
    Only ps a (actCalRequest x1 s) := by
  simp only [actCalRequest]
  repeat' first
    | (with_reducible first | assumption | apply foldl_only | apply forFin_only | apply modCal_only
                            | apply refuse_only)
    | simp only [only_mk, true_or, or_true, and_self, p1, p2, p3, p4, p5]
    | split

/-! ### Captures -/

theorem doneO_only (h : Only ps a s) (p1 : Part.rings ∈ ps := by assumption) (p2 : Part.evt ∈ ps := by assumption) (p3 :
    Part.own ∈ ps := by assumption) (p4 : Part.counters ∈ ps := by assumption) : Only ps a (doneO x1 x2 s) := by
  simp only [doneO]
  repeat' first
    | (with_reducible first | assumption | apply foldl_only | apply forFin_only | apply done_only)
    | simp only [only_mk, true_or, or_true, and_self, p1, p2, p3, p4]
    | split

theorem refuseO_only (h : Only ps a s) (p1 : Part.rings ∈ ps := by assumption) (p2 : Part.evt ∈ ps := by assumption) (p3 :
    Part.own ∈ ps := by assumption) (p4 : Part.counters ∈ ps := by assumption) : Only ps a (refuseO x1 x2 s) := by
  simp only [refuseO]
  repeat' first
    | (with_reducible first | assumption | apply foldl_only | apply forFin_only | apply refuse_only)
    | simp only [only_mk, true_or, or_true, and_self, p1, p2, p3, p4]
    | split

theorem clearLine_only (h : Only ps a s) (p1 : Part.counters ∈ ps := by assumption) : Only ps a (clearLine x1 x2 s) := by
  simp +contextual only [clearLine, Only_ite, only_mk, forFin_only, foldl_only, h, implies_true, true_or, or_true, and_self,
    p1]

theorem clearHost_only (h : Only ps a s) (p1 : Part.counters ∈ ps := by assumption) : Only ps a (clearHost x1 x2 s) := by
  simp +contextual only [clearHost, Only_ite, only_mk, forFin_only, foldl_only, h, implies_true, true_or, or_true, and_self,
    p1]

theorem clearPort_only (h : Only ps a s) (p1 : Part.ports ∈ ps := by assumption) (p2 : Part.counters ∈ ps := by assumption)
    : Only ps a (clearPort x1 x2 s) := by
  simp +contextual only [clearPort, Only_ite, only_mk, forFin_only, foldl_only, h, implies_true, true_or, or_true, and_self,
    p1, p2]

theorem clearDev_only (h : Only ps a s) (p1 : Part.counters ∈ ps := by assumption) : Only ps a (clearDev x1 s) := by
  simp +contextual only [clearDev, Only_ite, only_mk, forFin_only, foldl_only, h, implies_true, true_or, or_true, and_self,
    p1]

theorem clearLineCtr_only (h : Only ps a s) (p1 : Part.counters ∈ ps := by assumption) : Only ps a (clearLineCtr x1 s) := by
  simp +contextual only [clearLineCtr, only_mk, clearLine_only, h, true_or, or_true, p1]

theorem clearHostCtr_only (h : Only ps a s) (p1 : Part.counters ∈ ps := by assumption) : Only ps a (clearHostCtr x1 s) := by
  simp +contextual only [clearHostCtr, only_mk, clearHost_only, h, true_or, or_true, p1]

theorem clearPortCtrs_only (h : Only ps a s) (p1 : Part.ports ∈ ps := by assumption) (p2 : Part.counters ∈ ps := by
    assumption) : Only ps a (clearPortCtrs s) := by
  simp only [clearPortCtrs]
  repeat' first
    | (with_reducible first | assumption | apply foldl_only | apply forFin_only | apply clearPort_only
                            | apply forFin_only)
    | simp only [only_mk, true_or, or_true, p1, p2]
    | split
    | dsimp only
    | (with_reducible first | refine only_snd (by assumption) ?_ | refine only_fst (by assumption) ?_)
    | intro

theorem clearDataCtrs_only (h : Only ps a s) (p1 : Part.ports ∈ ps := by assumption) (p2 : Part.counters ∈ ps := by
    assumption) : Only ps a (clearDataCtrs s) := by
  simp only [clearDataCtrs]
  repeat' first
    | (with_reducible first | assumption | apply foldl_only | apply forFin_only | apply clearPort_only
                            | apply clearHost_only | apply clearLine_only | apply forFin_only)
    | simp only [only_mk, true_or, or_true, p1, p2]
    | split
    | dsimp only
    | (with_reducible first | refine only_snd (by assumption) ?_ | refine only_fst (by assumption) ?_)
    | intro

theorem ctrOn_only (hl : ∀ i x, Only ps a x → Only ps a (x2 i x)) (hh : ∀ i x, Only ps a x → Only ps a (x3 i x))
    (hp : ∀ i x, Only ps a x → Only ps a (x4 i x)) (hd : ∀ x, Only ps a x → Only ps a (x5 x)) (h : Only ps a s) :
    Only ps a (ctrOn x1 x2 x3 x4 x5 x6 s) := by
  unfold ctrOn
  split
  · exact hl _ _ h
  · exact forFin_only _ _ hl h
  · exact hh _ _ h
  · exact forFin_only _ _ hh h
  · exact hp _ _ h
  · exact forFin_only _ _ hp h
  · split
    · exact hd _ h
    · exact forFin_only _ _ hp (forFin_only _ _ hh (forFin_only _ _ hl (hd _ h)))
  · exact h

theorem actCounterClear_only (h : Only ps a s) (p1 : Part.rings ∈ ps := by assumption) (p2 : Part.evt ∈ ps := by assumption)
    (p3 : Part.own ∈ ps := by assumption) (p4 : Part.ports ∈ ps := by assumption) (p5 : Part.counters ∈ ps := by assumption) :
    Only ps a (actCounterClear x1 s) := by
  unfold actCounterClear
  exact done_only (ctrOn_only (fun _ _ hx => clearLine_only hx) (fun _ _ hx => clearHost_only hx)
    (fun _ _ hx => clearPort_only hx) (fun _ hx => clearDev_only hx) h)

theorem actCounterSelect_only (h : Only ps a s) (p1 : Part.rings ∈ ps := by assumption) (p2 : Part.evt ∈ ps := by
    assumption) (p3 : Part.own ∈ ps := by assumption) (p4 : Part.counters ∈ ps := by assumption) : Only ps a (actCounterSelect
    x1 s) := by
  unfold actCounterSelect
  exact done_only (ctrOn_only (fun _ _ hx => by simp only [only_mk, hx, true_or, or_true, and_self, p1, p2, p3, p4]) (fun
      _ _ hx => by simp only [only_mk, hx, true_or, or_true, and_self, p1, p2, p3, p4])
    (fun _ _ hx => by simp only [only_mk, hx, true_or, or_true, and_self, p1, p2, p3, p4]) (fun _ hx => by simp only
        [only_mk, hx, true_or, or_true, and_self, p1, p2, p3, p4]) h)

theorem snapForm_only (h : Only ps a s) (p1 : Part.rings ∈ ps := by assumption) (p2 : Part.evt ∈ ps := by assumption) (p3 :
    Part.tlm ∈ ps := by assumption) (p4 : Part.own ∈ ps := by assumption) (p5 : Part.counters ∈ ps := by assumption) : Only ps a
    (snapForm x1 x2 x3 s) := by
  simp +contextual only [snapForm, tlmForm_only, h, p1, p2, p3, p4, p5]

theorem snapRecords_only (h : Only ps a s) (p1 : Part.rings ∈ ps := by assumption) (p2 : Part.evt ∈ ps := by assumption) (p3
    : Part.tlm ∈ ps := by assumption) (p4 : Part.own ∈ ps := by assumption) (p5 : Part.counters ∈ ps := by assumption) : Only ps
    a (snapRecords s) := by
  simp only [snapRecords]
  repeat' first
    | (with_reducible first | assumption | apply foldl_only | apply forFin_only | apply snapForm_only
                            | apply forFin_only)
    | simp only [only_mk, true_or, or_true, and_self, p1, p2, p3, p4, p5]
    | split
    | dsimp only
    | (with_reducible first | refine only_snd (by assumption) ?_ | refine only_fst (by assumption) ?_)
    | intro

theorem freeze_only (h : Only ps a s) (p1 : Part.rings ∈ ps := by assumption) (p2 : Part.evt ∈ ps := by assumption) (p3 :
    Part.tlm ∈ ps := by assumption) (p4 : Part.own ∈ ps := by assumption) (p5 : Part.counters ∈ ps := by assumption) : Only ps a
    (freeze s) := by
  simp +contextual only [freeze, Only_ite, only_mk, snapRecords_only, raise_only, h, implies_true, true_or, or_true,
    and_self, p1, p2, p3, p4, p5]

theorem actFreeze_only (h : Only ps a s) (p1 : Part.rings ∈ ps := by assumption) (p2 : Part.evt ∈ ps := by assumption) (p3 :
    Part.tlm ∈ ps := by assumption) (p4 : Part.own ∈ ps := by assumption) (p5 : Part.counters ∈ ps := by assumption) : Only ps a
    (actFreeze x1 s) := by
  simp +contextual only [actFreeze, Only_ite, refuseO_only, doneO_only, freeze_only, h, implies_true, and_self, p1, p2, p3,
    p4, p5]

theorem capStart_only (h : Only ps a s) (p1 : Part.rings ∈ ps := by assumption) (p2 : Part.evt ∈ ps := by assumption) (p3 :
    Part.own ∈ ps := by assumption) (p4 : Part.counters ∈ ps := by assumption) (p5 : Part.arb ∈ ps := by assumption) (p6 :
    Part.captures ∈ ps := by assumption) : Only ps a (capStart x1 x2 x3 s).1 := by
  simp only [capStart]
  repeat' first
    | (with_reducible first | assumption | apply foldl_only | apply forFin_only | apply refuseO_only
                            | apply arbPresent_only | apply arbRefuse_only)
    | simp only [only_mk, true_or, or_true, p1, p2, p3, p4, p5, p6]
    | split

theorem tlmFormId_only (h : Only ps a s) (p1 : Part.free ∈ ps := by assumption) (p2 : Part.rings ∈ ps := by assumption) (p3
    : Part.evt ∈ ps := by assumption) (p4 : Part.tlm ∈ ps := by assumption) (p5 : Part.own ∈ ps := by assumption) (p6 :
    Part.counters ∈ ps := by assumption) : Only ps a (tlmFormId x1 x2 x3 x4 x5 x6 x7 s).1 := by
  simp only [tlmFormId]
  repeat' first
    | (with_reducible first | assumption | apply foldl_only | apply forFin_only | apply draw_only
                            | apply tlmForm_only)
    | simp only [only_mk, true_or, or_true, and_self, p1, p2, p3, p4, p5, p6]
    | split

theorem capRecords_only (h : Only ps a s) (p1 : Part.free ∈ ps := by assumption) (p2 : Part.rings ∈ ps := by assumption) (p3
    : Part.evt ∈ ps := by assumption) (p4 : Part.tlm ∈ ps := by assumption) (p5 : Part.own ∈ ps := by assumption) (p6 :
    Part.counters ∈ ps := by assumption) : Only ps a (capRecords x1 x2 s).1 := by
  unfold capRecords
  exact foldl_fst_only _ _ (fun i z hz => by exact tlmFormId_only hz) (by exact h)

theorem capDone_only (h : Only ps a s) (p1 : Part.free ∈ ps := by assumption) (p2 : Part.rings ∈ ps := by assumption) (p3 :
    Part.evt ∈ ps := by assumption) (p4 : Part.tlm ∈ ps := by assumption) (p5 : Part.own ∈ ps := by assumption) (p6 :
    Part.counters ∈ ps := by assumption) (p7 : Part.arb ∈ ps := by assumption) (p8 : Part.captures ∈ ps := by assumption) : Only
    ps a (capDone x1 s) := by
  simp only [capDone]
  repeat' first
    | (with_reducible first | assumption | apply foldl_only | apply forFin_only | apply doneO_only
                            | apply capRecords_only | apply arbEnd_only)
    | simp only [only_mk, true_or, or_true, p1, p2, p3, p4, p5, p6, p7, p8]
    | split

theorem scanDone_only (h : Only ps a s) (p1 : Part.free ∈ ps := by assumption) (p2 : Part.rings ∈ ps := by assumption) (p3 :
    Part.evt ∈ ps := by assumption) (p4 : Part.tlm ∈ ps := by assumption) (p5 : Part.own ∈ ps := by assumption) (p6 :
    Part.counters ∈ ps := by assumption) (p7 : Part.arb ∈ ps := by assumption) (p8 : Part.captures ∈ ps := by assumption) : Only
    ps a (scanDone x1 x2 s) := by
  simp only [scanDone]
  repeat' first
    | (with_reducible first | assumption | apply foldl_only | apply forFin_only | apply doneO_only
                            | apply tlmFormId_only | apply arbEnd_only)
    | simp only [only_mk, true_or, or_true, p1, p2, p3, p4, p5, p6, p7, p8]
    | split

theorem capDrop_only (h : Only ps a s) (p1 : Part.rings ∈ ps := by assumption) (p2 : Part.evt ∈ ps := by assumption) (p3 :
    Part.own ∈ ps := by assumption) (p4 : Part.counters ∈ ps := by assumption) (p5 : Part.arb ∈ ps := by assumption) (p6 :
    Part.captures ∈ ps := by assumption) : Only ps a (capDrop x1 x2 s) := by
  simp only [capDrop]
  repeat' first
    | (with_reducible first | assumption | apply foldl_only | apply forFin_only | apply refuseO_only
                            | apply arbEnd_only)
    | simp only [only_mk, true_or, or_true, p1, p2, p3, p4, p5, p6]
    | split
    | dsimp only
    | (with_reducible first | refine only_snd (by assumption) ?_ | refine only_fst (by assumption) ?_)
    | intro

theorem tlmDiscard_only (h : Only ps a s) (p1 : Part.rings ∈ ps := by assumption) (p2 : Part.evt ∈ ps := by assumption) (p3
    : Part.tlm ∈ ps := by assumption) (p4 : Part.own ∈ ps := by assumption) (p5 : Part.counters ∈ ps := by assumption) (p6 :
    Part.arb ∈ ps := by assumption) (p7 : Part.captures ∈ ps := by assumption) : Only ps a (tlmDiscard s) := by
  simp +contextual only [tlmDiscard, only_mk, capDrop_only, raise_only, h, true_or, or_true, p1, p2, p3, p4, p5, p6, p7]

/-! ### Integrity -/

theorem chkStart_only (h : Only ps a s) (p1 : Part.chk ∈ ps := by assumption) : Only ps a (chkStart x1 x2 s) := by
  simp +contextual only [chkStart, modChk_only, h, p1]

theorem actCheckRun_only (h : Only ps a s) (p1 : Part.rings ∈ ps := by assumption) (p2 : Part.evt ∈ ps := by assumption) (p3
    : Part.own ∈ ps := by assumption) (p4 : Part.counters ∈ ps := by assumption) (p5 : Part.chk ∈ ps := by assumption) : Only ps
    a (actCheckRun x1 s) := by
  simp only [actCheckRun]
  repeat' first
    | (with_reducible first | assumption | apply foldl_only | apply forFin_only | apply answer_only
                            | apply chkStart_only | apply refuse_only | apply modChk_only)
    | simp only [only_mk, true_or, or_true, and_self, p1, p2, p3, p4, p5]
    | split

theorem chkPurge_only (h : Only ps a s) (p1 : Part.rings ∈ ps := by assumption) (p2 : Part.evt ∈ ps := by assumption) (p3 :
    Part.own ∈ ps := by assumption) (p4 : Part.counters ∈ ps := by assumption) (p5 : Part.chk ∈ ps := by assumption) : Only ps a
    (chkPurge s) := by
  simp +contextual only [chkPurge, Only_ite, only_mk, forFin_only, foldl_only, refuse_only, modChk_only, h, implies_true,
    true_or, or_true, and_self, p1, p2, p3, p4, p5]

theorem chkNext_only (h : Only ps a s) (p1 : Part.rings ∈ ps := by assumption) (p2 : Part.evt ∈ ps := by assumption) (p3 :
    Part.own ∈ ps := by assumption) (p4 : Part.counters ∈ ps := by assumption) (p5 : Part.chk ∈ ps := by assumption) : Only ps a
    (chkNext x1 s) := by
  simp only [chkNext]
  repeat' first
    | (with_reducible first | assumption | apply foldl_only | apply forFin_only | apply chkPurge_only
                            | apply chkStart_only | apply modChk_only)
    | simp only [only_mk, true_or, or_true, and_self, p1, p2, p3, p4, p5]
    | split

theorem recordInvalid_only (h : Only ps a s) (p1 : Part.free ∈ ps := by assumption) (p2 : Part.lines ∈ ps := by assumption)
    (p3 : Part.hosts ∈ ps := by assumption) (p4 : Part.cal ∈ ps := by assumption) : Only ps a (recordInvalid s) := by
  simp only [recordInvalid]
  repeat' first
    | (with_reducible first | assumption | apply foldl_only | apply forFin_only | apply modEq_only
                            | apply modTx_only | apply modConv_only | apply modCal_only
                            | apply draw_only)
    | simp only [only_mk, true_or, or_true, and_self, p1, p2, p3, p4]
    | split

theorem eccNote_only (h : Only ps a s) (p1 : Part.evt ∈ ps := by assumption) (p2 : Part.own ∈ ps := by assumption) (p3 :
    Part.counters ∈ ps := by assumption) (p4 : Part.chk ∈ ps := by assumption) : Only ps a (eccNote x1 x2 s) := by
  simp +contextual only [eccNote, raise_only, modChk_only, h, p1, p2, p3, p4]

theorem eccCorr_only (h : Only ps a s) (p1 : Part.evt ∈ ps := by assumption) (p2 : Part.own ∈ ps := by assumption) (p3 :
    Part.counters ∈ ps := by assumption) (p4 : Part.chk ∈ ps := by assumption) : Only ps a (eccCorr x1 x2 s) := by
  simp only [eccCorr]
  repeat' first
    | (with_reducible first | assumption | apply foldl_only | apply forFin_only | apply countDev_only
                            | apply raiseLimited_only | apply modChk_only)

theorem tlmWordLost_only (h : Only ps a s) (p1 : Part.free ∈ ps := by assumption) (p2 : Part.evt ∈ ps := by assumption) (p3
    : Part.tlm ∈ ps := by assumption) (p4 : Part.own ∈ ps := by assumption) (p5 : Part.counters ∈ ps := by assumption) (p6 :
    Part.captures ∈ ps := by assumption) : Only ps a (tlmWordLost s) := by
  simp only [tlmWordLost]
  repeat' first
    | (with_reducible first | assumption | apply foldl_only | apply forFin_only | apply draw_only
                            | apply raise_only)
    | simp only [only_mk, true_or, or_true, p1, p2, p3, p4, p5, p6]
    | split

theorem ringWordLost_only (h : Only ps a s) (p1 : Part.free ∈ ps := by assumption) (p2 : Part.lmem ∈ ps := by assumption) :
    Only ps a (ringWordLost x1 s) := by
  simp +contextual only [ringWordLost, only_mk, draw_only, h, true_or, or_true, p1, p2]

theorem eccUnc_only (h : Only ps a s) (p1 : Part.free ∈ ps := by assumption) (p2 : Part.evt ∈ ps := by assumption) (p3 :
    Part.tlm ∈ ps := by assumption) (p4 : Part.lmem ∈ ps := by assumption) (p5 : Part.own ∈ ps := by assumption) (p6 :
    Part.lines ∈ ps := by assumption) (p7 : Part.hosts ∈ ps := by assumption) (p8 : Part.counters ∈ ps := by assumption) (p9 :
    Part.cal ∈ ps := by assumption) (p10 : Part.chk ∈ ps := by assumption) (p11 : Part.captures ∈ ps := by assumption) : Only ps
    a (eccUnc x1 x2 s) := by
  simp only [eccUnc]
  repeat' first
    | (with_reducible first | assumption | apply foldl_only | apply forFin_only | apply ringWordLost_only
                            | apply recordInvalid_only | apply tlmWordLost_only | apply eccNote_only)
    | simp only [only_mk, true_or, or_true, and_self, p1, p2, p3, p4, p5, p6, p7, p8, p9, p10, p11]
    | split

theorem chkDone_only (h : Only ps a s) (p1 : Part.free ∈ ps := by assumption) (p2 : Part.pcie ∈ ps := by assumption) (p3 :
    Part.rings ∈ ps := by assumption) (p4 : Part.evt ∈ ps := by assumption) (p5 : Part.tlm ∈ ps := by assumption) (p6 :
    Part.lmem ∈ ps := by assumption) (p7 : Part.own ∈ ps := by assumption) (p8 : Part.lines ∈ ps := by assumption) (p9 :
    Part.hosts ∈ ps := by assumption) (p10 : Part.counters ∈ ps := by assumption) (p11 : Part.cal ∈ ps := by assumption) (p12 :
    Part.chk ∈ ps := by assumption) (p13 : Part.captures ∈ ps := by assumption) : Only ps a (chkDone x1 x2 s) := by
  simp only [chkDone]
  repeat' first
    | (with_reducible first | assumption | apply foldl_only | apply forFin_only | apply done_only
                            | apply chkNext_only | apply eccUnc_only | apply answer_only
                            | apply aerNote_only | apply raise_only | apply modChk_only)
    | simp only [only_mk, true_or, or_true, and_self, p1, p2, p3, p4, p5, p6, p7, p8, p9, p10, p11, p12, p13]
    | split

theorem chkPowerOff_only (h : Only ps a s) (p1 : Part.free ∈ ps := by assumption) (p2 : Part.rings ∈ ps := by assumption)
    (p3 : Part.evt ∈ ps := by assumption) (p4 : Part.own ∈ ps := by assumption) (p5 : Part.counters ∈ ps := by assumption) (p6 :
    Part.chk ∈ ps := by assumption) : Only ps a (chkPowerOff s) := by
  simp only [chkPowerOff]
  repeat' first
    | (with_reducible first | assumption | apply foldl_only | apply forFin_only | apply chkNext_only
                            | apply answer_only | apply draw_only | apply forFin_only
                            | apply modChk_only)
    | simp only [only_mk, true_or, or_true, and_self, p1, p2, p3, p4, p5, p6]
    | split
    | dsimp only
    | (with_reducible first | refine only_snd (by assumption) ?_ | refine only_fst (by assumption) ?_)
    | intro

theorem chkAbandon_only (h : Only ps a s) (p1 : Part.chk ∈ ps := by assumption) : Only ps a (chkAbandon x1 s) := by
  simp +contextual only [chkAbandon, modChk_only, h, p1]

theorem chkAnswer_only (h : Only ps a s) (p1 : Part.rings ∈ ps := by assumption) (p2 : Part.evt ∈ ps := by assumption) (p3 :
    Part.own ∈ ps := by assumption) (p4 : Part.counters ∈ ps := by assumption) (p5 : Part.chk ∈ ps := by assumption) : Only ps a
    (chkAnswer s) := by
  simp +contextual only [chkAnswer, foldl_only, answer_only, modChk_only, h, implies_true, p1, p2, p3, p4, p5]

theorem scrubTry_only (h : Only ps a s) (p1 : Part.arb ∈ ps := by assumption) (p2 : Part.chk ∈ ps := by assumption) : Only
    ps a (scrubTry s) := by
  simp +contextual only [scrubTry, Only_ite, only_mk, forFin_only, foldl_only, arbAdmit_only, modChk_only, h, implies_true,
    true_or, or_true, and_self, p1, p2]

theorem scrubBlock_only (h : Only ps a s) (p1 : Part.free ∈ ps := by assumption) (p2 : Part.evt ∈ ps := by assumption) (p3 :
    Part.tlm ∈ ps := by assumption) (p4 : Part.lmem ∈ ps := by assumption) (p5 : Part.own ∈ ps := by assumption) (p6 :
    Part.lines ∈ ps := by assumption) (p7 : Part.hosts ∈ ps := by assumption) (p8 : Part.counters ∈ ps := by assumption) (p9 :
    Part.cal ∈ ps := by assumption) (p10 : Part.arb ∈ ps := by assumption) (p11 : Part.chk ∈ ps := by assumption) (p12 :
    Part.captures ∈ ps := by assumption) : Only ps a (scrubBlock x1 x2 s) := by
  simp only [scrubBlock]
  repeat' first
    | (with_reducible first | assumption | apply foldl_only | apply forFin_only | apply eccCorr_only
                            | apply eccUnc_only | apply recordInvalid_only | apply modChk_only
                            | apply arbEnd_only)
    | simp only [only_mk, true_or, or_true, and_self, p1, p2, p3, p4, p5, p6, p7, p8, p9, p10, p11, p12]
    | split

theorem scrubOverdue_only (h : Only ps a s) (p1 : Part.evt ∈ ps := by assumption) (p2 : Part.own ∈ ps := by assumption) (p3
    : Part.counters ∈ ps := by assumption) (p4 : Part.chk ∈ ps := by assumption) : Only ps a (scrubOverdue s) := by
  simp +contextual only [scrubOverdue, Only_ite, raise_only, modChk_only, h, implies_true, and_self, p1, p2, p3, p4]

theorem storeRefresh_only (h : Only ps a s) (p1 : Part.free ∈ ps := by assumption) (p2 : Part.lines ∈ ps := by assumption)
    (p3 : Part.hosts ∈ ps := by assumption) (p4 : Part.cal ∈ ps := by assumption) : Only ps a (storeRefresh x1 s) := by
  simp only [storeRefresh]
  repeat' first
    | (with_reducible first | assumption | apply foldl_only | apply forFin_only | apply recordInvalid_only)
    | simp only [only_mk, true_or, or_true, and_self, p1, p2, p3, p4]
    | split

theorem fieldUpset_only (h : Only ps a s) (p1 : Part.setup ∈ ps := by assumption) : Only ps a (fieldUpset x1 x2 s) := by
  simp only [fieldUpset]
  repeat' first
    | (with_reducible first | assumption | apply foldl_only | apply forFin_only)
    | simp only [only_mk, true_or, or_true, and_self, p1]
    | split
    | dsimp only
    | (with_reducible first | refine only_snd (by assumption) ?_ | refine only_fst (by assumption) ?_)
    | intro

theorem fieldRestore_only (h : Only ps a s) (p1 : Part.setup ∈ ps := by assumption) (p2 : Part.evt ∈ ps := by assumption)
    (p3 : Part.own ∈ ps := by assumption) (p4 : Part.counters ∈ ps := by assumption) (p5 : Part.chk ∈ ps := by assumption) :
    Only ps a (fieldRestore x1 s) := by
  simp only [fieldRestore]
  repeat' first
    | (with_reducible first | assumption | apply foldl_only | apply forFin_only | apply regSet_only
                            | apply raise_only | apply modChk_only)
    | simp only [only_mk, true_or, or_true, and_self, p1, p2, p3, p4, p5]
    | split
    | dsimp only
    | (with_reducible first | refine only_snd (by assumption) ?_ | refine only_fst (by assumption) ?_)
    | intro

theorem shadowPass_only (h : Only ps a s) (p1 : Part.setup ∈ ps := by assumption) (p2 : Part.evt ∈ ps := by assumption) (p3
    : Part.own ∈ ps := by assumption) (p4 : Part.counters ∈ ps := by assumption) (p5 : Part.chk ∈ ps := by assumption) : Only ps
    a (shadowPass s) := by
  simp +contextual only [shadowPass, Only_ite, only_mk, forFin_only, foldl_only, fieldRestore_only, h, implies_true,
    true_or, or_true, and_self, p1, p2, p3, p4, p5]

theorem shadowCompare_only (h : Only ps a s) (p1 : Part.setup ∈ ps := by assumption) (p2 : Part.evt ∈ ps := by assumption)
    (p3 : Part.own ∈ ps := by assumption) (p4 : Part.counters ∈ ps := by assumption) (p5 : Part.chk ∈ ps := by assumption) :
    Only ps a (shadowCompare x1 s) := by
  simp only [shadowCompare]
  repeat' first
    | (with_reducible first | assumption | apply foldl_only | apply forFin_only | apply fieldUpset_only
                            | apply shadowPass_only)
    | simp only [only_mk, true_or, or_true, and_self, p1, p2, p3, p4, p5]
    | split
    | dsimp only
    | (with_reducible first | refine only_snd (by assumption) ?_ | refine only_fst (by assumption) ?_)
    | intro

/-! ### Power -/

theorem domSet_only (h : Only ps a s) (p1 : Part.rst ∈ ps := by assumption) : Only ps a (domSet x1 x2 s) := by
  simp +contextual only [domSet, modRst_only, h, p1]

theorem ocpDrop_only (h : Only ps a s) (p1 : Part.rings ∈ ps := by assumption) (p2 : Part.evt ∈ ps := by assumption) (p3 :
    Part.own ∈ ps := by assumption) (p4 : Part.lines ∈ ps := by assumption) (p5 : Part.counters ∈ ps := by assumption) (p6 :
    Part.ocp ∈ ps := by assumption) : Only ps a (ocpDrop s) := by
  simp only [ocpDrop]
  repeat' first
    | (with_reducible first | assumption | apply foldl_only | apply forFin_only | apply ocpDropped_only
                            | apply refuse_only | apply forFin_only | apply drvSettled_only)
    | simp only [only_mk, true_or, or_true, p1, p2, p3, p4, p5, p6]
    | split
    | dsimp only
    | (with_reducible first | refine only_snd (by assumption) ?_ | refine only_fst (by assumption) ?_)
    | intro

theorem outerClear_only (h : Only ps a s) (p1 : Part.ports ∈ ps := by assumption) : Only ps a (outerClear s) := by
  simp +contextual only [outerClear, only_mk, h, true_or, or_true, p1]

theorem domOffEffects_only (h : Only ps a s) (p1 : Part.free ∈ ps := by assumption) (p2 : Part.rings ∈ ps := by assumption)
    (p3 : Part.evt ∈ ps := by assumption) (p4 : Part.tlm ∈ ps := by assumption) (p5 : Part.own ∈ ps := by assumption) (p6 :
    Part.lines ∈ ps := by assumption) (p7 : Part.hosts ∈ ps := by assumption) (p8 : Part.ports ∈ ps := by assumption) (p9 :
    Part.counters ∈ ps := by assumption) (p10 : Part.mon ∈ ps := by assumption) (p11 : Part.cal ∈ ps := by assumption) (p12 :
    Part.arb ∈ ps := by assumption) (p13 : Part.chk ∈ ps := by assumption) (p14 : Part.ocp ∈ ps := by assumption) (p15 :
    Part.captures ∈ ps := by assumption) : Only ps a (domOffEffects x1 s) := by
  simp only [domOffEffects]
  repeat' first
    | (with_reducible first | assumption | apply foldl_only | apply forFin_only | apply modTx_only
                            | apply capDrop_only | apply outerClear_only | apply lineTxOff_only
                            | apply hostOff_only | apply trnDrop_only | apply calPrune_only
                            | apply drainStop_only | apply chkPowerOff_only | apply tlmDiscard_only
                            | apply linePathOff_only | apply frmClear_only | apply ocpDrop_only)
    | simp only [only_mk, true_or, or_true, and_self, p1, p2, p3, p4, p5, p6, p7, p8, p9, p10, p11, p12, p13, p14, p15]
    | split

theorem mapLoad_only (h : Only ps a s) (p1 : Part.lines ∈ ps := by assumption) (p2 : Part.hosts ∈ ps := by assumption) (p3 :
    Part.cal ∈ ps := by assumption) : Only ps a (mapLoad x1 s) := by
  simp +contextual only [mapLoad, Only_ite, only_mk, forFin_only, foldl_only, modConv_only, modCal_only, h, implies_true,
    true_or, or_true, and_self, p1, p2, p3]

theorem drainAgain_only (h : Only ps a s) (p1 : Part.mon ∈ ps := by assumption) : Only ps a (drainAgain s) := by
  simp +contextual only [drainAgain, Only_ite, only_mk, forFin_only, foldl_only, drainAll_only, h, implies_true, true_or,
    or_true, and_self, p1]

theorem domOnEffects_only (h : Only ps a s) (p1 : Part.out ∈ ps := by assumption) (p2 : Part.lines ∈ ps := by assumption)
    (p3 : Part.hosts ∈ ps := by assumption) (p4 : Part.mon ∈ ps := by assumption) (p5 : Part.cal ∈ ps := by assumption) (p6 :
    Part.ocp ∈ ps := by assumption) : Only ps a (domOnEffects x1 s) := by
  simp only [domOnEffects]
  repeat' first
    | (with_reducible first | assumption | apply foldl_only | apply forFin_only | apply drainAgain_only
                            | apply mapLoad_only | apply txUpdate_only | apply hostMayLeave_only
                            | apply rxMayLeave_only)
    | simp only [and_self, p1, p2, p3, p4, p5, p6]
    | split
    | dsimp only
    | (with_reducible first | refine only_snd (by assumption) ?_ | refine only_fst (by assumption) ?_)
    | intro

theorem domOff_only (h : Only ps a s) (p1 : Part.free ∈ ps := by assumption) (p2 : Part.rings ∈ ps := by assumption) (p3 :
    Part.evt ∈ ps := by assumption) (p4 : Part.tlm ∈ ps := by assumption) (p5 : Part.own ∈ ps := by assumption) (p6 : Part.lines
    ∈ ps := by assumption) (p7 : Part.hosts ∈ ps := by assumption) (p8 : Part.ports ∈ ps := by assumption) (p9 : Part.counters ∈
    ps := by assumption) (p10 : Part.mon ∈ ps := by assumption) (p11 : Part.cal ∈ ps := by assumption) (p12 : Part.arb ∈ ps :=
    by assumption) (p13 : Part.chk ∈ ps := by assumption) (p14 : Part.rst ∈ ps := by assumption) (p15 : Part.ocp ∈ ps := by
    assumption) (p16 : Part.captures ∈ ps := by assumption) : Only ps a (domOff x1 s) := by
  simp +contextual only [domOff, Only_ite, only_mk, domSet_only, domOffEffects_only, h, implies_true, true_or, or_true,
    and_self, p1, p2, p3, p4, p5, p6, p7, p8, p9, p10, p11, p12, p13, p14, p15, p16]

theorem domOffLate_only (h : Only ps a s) (p1 : Part.free ∈ ps := by assumption) (p2 : Part.rings ∈ ps := by assumption) (p3
    : Part.evt ∈ ps := by assumption) (p4 : Part.tlm ∈ ps := by assumption) (p5 : Part.own ∈ ps := by assumption) (p6 :
    Part.lines ∈ ps := by assumption) (p7 : Part.hosts ∈ ps := by assumption) (p8 : Part.ports ∈ ps := by assumption) (p9 :
    Part.counters ∈ ps := by assumption) (p10 : Part.mon ∈ ps := by assumption) (p11 : Part.cal ∈ ps := by assumption) (p12 :
    Part.arb ∈ ps := by assumption) (p13 : Part.chk ∈ ps := by assumption) (p14 : Part.rst ∈ ps := by assumption) (p15 :
    Part.ocp ∈ ps := by assumption) (p16 : Part.captures ∈ ps := by assumption) : Only ps a (domOffLate x1 s) := by
  simp only [domOffLate]
  repeat' first
    | (with_reducible first | assumption | apply foldl_only | apply forFin_only | apply domSet_only
                            | apply domOffEffects_only)
    | simp only [only_mk, true_or, or_true, p1, p2, p3, p4, p5, p6, p7, p8, p9, p10, p11, p12, p13, p14, p15, p16]
    | split

theorem seqRun_only {a : State} {ps : List Part} : ∀ {l : List Transition} {s : State} (_ : Only ps a s) (p1 : Part.free ∈
    ps := by assumption) (p2 : Part.rings ∈ ps := by assumption) (p3 : Part.evt ∈ ps := by assumption) (p4 : Part.tlm ∈ ps :=
    by assumption) (p5 : Part.own ∈ ps := by assumption) (p6 : Part.lines ∈ ps := by assumption) (p7 : Part.hosts ∈ ps := by
    assumption) (p8 : Part.ports ∈ ps := by assumption) (p9 : Part.counters ∈ ps := by assumption) (p10 : Part.mon ∈ ps := by
    assumption) (p11 : Part.cal ∈ ps := by assumption) (p12 : Part.arb ∈ ps := by assumption) (p13 : Part.chk ∈ ps := by
    assumption) (p14 : Part.rst ∈ ps := by assumption) (p15 : Part.ocp ∈ ps := by assumption) (p16 : Part.captures ∈ ps := by
    assumption), Only ps a
    (seqRun l s)
  | [], _, h, p1, p2, p3, p4, p5, p6, p7, p8, p9, p10, p11, p12, p13, p14, p15, p16 => modRst_only h
  | t :: l, s, h, p1, p2, p3, p4, p5, p6, p7, p8, p9, p10, p11, p12, p13, p14, p15, p16 => by
    simp only [seqRun, Only_ite]
    exact ⟨fun _ => seqRun_only (doneO_only h), fun _ => ⟨fun _ => seqRun_only (refuseO_only h),
      fun _ => ⟨fun _ => modRst_only h, fun _ => domOff_only (modRst_only h)⟩⟩⟩

theorem seqNext_only (h : Only ps a s) (p1 : Part.free ∈ ps := by assumption) (p2 : Part.rings ∈ ps := by assumption) (p3 :
    Part.evt ∈ ps := by assumption) (p4 : Part.tlm ∈ ps := by assumption) (p5 : Part.own ∈ ps := by assumption) (p6 : Part.lines
    ∈ ps := by assumption) (p7 : Part.hosts ∈ ps := by assumption) (p8 : Part.ports ∈ ps := by assumption) (p9 : Part.counters ∈
    ps := by assumption) (p10 : Part.mon ∈ ps := by assumption) (p11 : Part.cal ∈ ps := by assumption) (p12 : Part.arb ∈ ps :=
    by assumption) (p13 : Part.chk ∈ ps := by assumption) (p14 : Part.rst ∈ ps := by assumption) (p15 : Part.ocp ∈ ps := by
    assumption) (p16 : Part.captures ∈ ps := by assumption) : Only ps a (seqNext s) := by
  simp +contextual only [seqNext, Only_ite, seqRun_only, h, implies_true, and_self, p1, p2, p3, p4, p5, p6, p7, p8, p9, p10,
    p11, p12, p13, p14, p15, p16]

theorem seqPush_only (h : Only ps a s) (p1 : Part.free ∈ ps := by assumption) (p2 : Part.rings ∈ ps := by assumption) (p3 :
    Part.evt ∈ ps := by assumption) (p4 : Part.tlm ∈ ps := by assumption) (p5 : Part.own ∈ ps := by assumption) (p6 : Part.lines
    ∈ ps := by assumption) (p7 : Part.hosts ∈ ps := by assumption) (p8 : Part.ports ∈ ps := by assumption) (p9 : Part.counters ∈
    ps := by assumption) (p10 : Part.mon ∈ ps := by assumption) (p11 : Part.cal ∈ ps := by assumption) (p12 : Part.arb ∈ ps :=
    by assumption) (p13 : Part.chk ∈ ps := by assumption) (p14 : Part.rst ∈ ps := by assumption) (p15 : Part.ocp ∈ ps := by
    assumption) (p16 : Part.captures ∈ ps := by assumption) : Only ps a (seqPush x1 s) := by
  simp +contextual only [seqPush, seqNext_only, modRst_only, h, p1, p2, p3, p4, p5, p6, p7, p8, p9, p10, p11, p12, p13, p14,
    p15, p16]

theorem domDone_only (h : Only ps a s) (p1 : Part.free ∈ ps := by assumption) (p2 : Part.out ∈ ps := by assumption) (p3 :
    Part.rings ∈ ps := by assumption) (p4 : Part.evt ∈ ps := by assumption) (p5 : Part.tlm ∈ ps := by assumption) (p6 : Part.own
    ∈ ps := by assumption) (p7 : Part.lines ∈ ps := by assumption) (p8 : Part.hosts ∈ ps := by assumption) (p9 : Part.ports ∈ ps
    := by assumption) (p10 : Part.counters ∈ ps := by assumption) (p11 : Part.mon ∈ ps := by assumption) (p12 : Part.cal ∈ ps :=
    by assumption) (p13 : Part.arb ∈ ps := by assumption) (p14 : Part.chk ∈ ps := by assumption) (p15 : Part.rst ∈ ps := by
    assumption) (p16 : Part.ocp ∈ ps := by assumption) (p17 : Part.captures ∈ ps := by assumption) : Only ps a (domDone s) := by
  simp only [domDone]
  repeat' first
    | (with_reducible first | assumption | apply foldl_only | apply forFin_only | apply seqNext_only
                            | apply domSet_only | apply doneO_only | apply modRst_only
                            | apply domOffLate_only | apply domOnEffects_only)
    | simp only [only_mk, true_or, or_true, and_self, p1, p2, p3, p4, p5, p6, p7, p8, p9, p10, p11, p12, p13, p14, p15, p16, p17]
    | split

theorem domFailed_only (h : Only ps a s) (p1 : Part.free ∈ ps := by assumption) (p2 : Part.rings ∈ ps := by assumption) (p3
    : Part.evt ∈ ps := by assumption) (p4 : Part.tlm ∈ ps := by assumption) (p5 : Part.own ∈ ps := by assumption) (p6 :
    Part.lines ∈ ps := by assumption) (p7 : Part.hosts ∈ ps := by assumption) (p8 : Part.ports ∈ ps := by assumption) (p9 :
    Part.counters ∈ ps := by assumption) (p10 : Part.mon ∈ ps := by assumption) (p11 : Part.cal ∈ ps := by assumption) (p12 :
    Part.arb ∈ ps := by assumption) (p13 : Part.chk ∈ ps := by assumption) (p14 : Part.rst ∈ ps := by assumption) (p15 :
    Part.ocp ∈ ps := by assumption) (p16 : Part.captures ∈ ps := by assumption) : Only ps a (domFailed s) := by
  simp only [domFailed]
  repeat' first
    | (with_reducible first | assumption | apply foldl_only | apply forFin_only | apply seqNext_only
                            | apply refuseO_only | apply modRst_only | apply raise_only)
    | simp only [only_mk, true_or, or_true, and_self, p1, p2, p3, p4, p5, p6, p7, p8, p9, p10, p11, p12, p13, p14, p15, p16]
    | split

theorem seqCancel_only (h : Only ps a s) (p1 : Part.rings ∈ ps := by assumption) (p2 : Part.evt ∈ ps := by assumption) (p3 :
    Part.own ∈ ps := by assumption) (p4 : Part.counters ∈ ps := by assumption) (p5 : Part.rst ∈ ps := by assumption) : Only ps a
    (seqCancel x1 x2 s) := by
  simp only [seqCancel]
  repeat' first
    | (with_reducible first | assumption | apply foldl_only | apply forFin_only | apply refuseO_only
                            | apply modRst_only | apply raise_only)
    | simp only [only_mk, true_or, or_true, and_self, p1, p2, p3, p4, p5]
    | split
    | dsimp only
    | (with_reducible first | refine only_snd (by assumption) ?_ | refine only_fst (by assumption) ?_)
    | intro

theorem actPower_only (h : Only ps a s) (p1 : Part.free ∈ ps := by assumption) (p2 : Part.rings ∈ ps := by assumption) (p3 :
    Part.evt ∈ ps := by assumption) (p4 : Part.tlm ∈ ps := by assumption) (p5 : Part.own ∈ ps := by assumption) (p6 : Part.lines
    ∈ ps := by assumption) (p7 : Part.hosts ∈ ps := by assumption) (p8 : Part.ports ∈ ps := by assumption) (p9 : Part.counters ∈
    ps := by assumption) (p10 : Part.mon ∈ ps := by assumption) (p11 : Part.therm ∈ ps := by assumption) (p12 : Part.cal ∈ ps :=
    by assumption) (p13 : Part.arb ∈ ps := by assumption) (p14 : Part.chk ∈ ps := by assumption) (p15 : Part.rst ∈ ps := by
    assumption) (p16 : Part.ocp ∈ ps := by assumption) (p17 : Part.captures ∈ ps := by assumption) : Only ps a (actPower x1 s)
    := by
  simp +contextual only [actPower, Only_ite, modTherm_only, seqPush_only, h, implies_true, and_self, p1, p2, p3, p4, p5, p6,
    p7, p8, p9, p10, p11, p12, p13, p14, p15, p16, p17]

/-! ### Banks -/

theorem shadowPut_only (h : Only ps a s) (p1 : Part.lines ∈ ps := by assumption) (p2 : Part.hosts ∈ ps := by assumption) (p3
    : Part.ports ∈ ps := by assumption) : Only ps a (shadowPut x1 x2 x3 s) := by
  simp only [shadowPut]
  repeat' first
    | (with_reducible first | assumption | apply foldl_only | apply forFin_only | apply modPort_only
                            | apply modLine_only | apply modHost_only)
    | simp only [only_mk, true_or, or_true, and_self, p1, p2, p3]
    | split

theorem actBankWrite_only (h : Only ps a s) (p1 : Part.rings ∈ ps := by assumption) (p2 : Part.evt ∈ ps := by assumption)
    (p3 : Part.own ∈ ps := by assumption) (p4 : Part.lines ∈ ps := by assumption) (p5 : Part.hosts ∈ ps := by assumption) (p6 :
    Part.ports ∈ ps := by assumption) (p7 : Part.counters ∈ ps := by assumption) : Only ps a (actBankWrite x1 s) := by
  simp only [actBankWrite]
  repeat' first
    | (with_reducible first | assumption | apply foldl_only | apply forFin_only | apply done_only
                            | apply shadowPut_only)
    | simp only [only_mk, true_or, or_true, and_self, p1, p2, p3, p4, p5, p6, p7]
    | split
    | dsimp only
    | (with_reducible first | refine only_snd (by assumption) ?_ | refine only_fst (by assumption) ?_)
    | intro

theorem bankCopy_only (h : Only ps a s) (p1 : Part.lines ∈ ps := by assumption) (p2 : Part.hosts ∈ ps := by assumption) (p3
    : Part.ports ∈ ps := by assumption) : Only ps a (bankCopy x1 s) := by
  simp only [bankCopy]
  repeat' first
    | (with_reducible first | assumption | apply foldl_only | apply forFin_only | apply modPort_only
                            | apply modLine_only | apply modHost_only)
    | simp only [only_mk, true_or, or_true, and_self, p1, p2, p3]
    | split

theorem actBankCopy_only (h : Only ps a s) (p1 : Part.rings ∈ ps := by assumption) (p2 : Part.evt ∈ ps := by assumption) (p3
    : Part.own ∈ ps := by assumption) (p4 : Part.lines ∈ ps := by assumption) (p5 : Part.hosts ∈ ps := by assumption) (p6 :
    Part.ports ∈ ps := by assumption) (p7 : Part.counters ∈ ps := by assumption) : Only ps a (actBankCopy x1 s) := by
  simp only [actBankCopy]
  repeat' first
    | (with_reducible first | assumption | apply foldl_only | apply forFin_only | apply done_only
                            | apply bankCopy_only)
    | simp only [only_mk, true_or, or_true, and_self, p1, p2, p3, p4, p5, p6, p7]
    | split
    | dsimp only
    | (with_reducible first | refine only_snd (by assumption) ?_ | refine only_fst (by assumption) ?_)
    | intro

theorem actBankRead_only (h : Only ps a s) (p1 : Part.rings ∈ ps := by assumption) (p2 : Part.evt ∈ ps := by assumption) (p3
    : Part.own ∈ ps := by assumption) (p4 : Part.counters ∈ ps := by assumption) : Only ps a (actBankRead x1 s) := by
  simp only [actBankRead]
  repeat' first
    | (with_reducible first | assumption | apply foldl_only | apply forFin_only | apply done_only)
    | simp only [only_mk, true_or, or_true, and_self, p1, p2, p3, p4]
    | split

theorem actCoefLoad_only (h : Only ps a s) (p1 : Part.rings ∈ ps := by assumption) (p2 : Part.evt ∈ ps := by assumption) (p3
    : Part.own ∈ ps := by assumption) (p4 : Part.lines ∈ ps := by assumption) (p5 : Part.counters ∈ ps := by assumption) : Only
    ps a (actCoefLoad x1 s) := by
  simp only [actCoefLoad]
  repeat' first
    | (with_reducible first | assumption | apply foldl_only | apply forFin_only | apply done_only
                            | apply modLine_only)
    | simp only [only_mk, true_or, or_true, and_self, p1, p2, p3, p4, p5]
    | split

theorem fillShadow_only (h : Only ps a s) (p1 : Part.lines ∈ ps := by assumption) (p2 : Part.hosts ∈ ps := by assumption)
    (p3 : Part.ports ∈ ps := by assumption) : Only ps a (fillShadow x1 x2 x3 s) := by
  simp +contextual only [fillShadow, only_mk, h, true_or, or_true, p1, p2, p3]

theorem actSetMode_only (h : Only ps a s) (p1 : Part.rings ∈ ps := by assumption) (p2 : Part.evt ∈ ps := by assumption) (p3
    : Part.own ∈ ps := by assumption) (p4 : Part.lines ∈ ps := by assumption) (p5 : Part.hosts ∈ ps := by assumption) (p6 :
    Part.ports ∈ ps := by assumption) (p7 : Part.counters ∈ ps := by assumption) : Only ps a (actSetMode x1 s) := by
  simp +contextual only [actSetMode, done_only, fillShadow_only, h, p1, p2, p3, p4, p5, p6, p7]

/-! ### Swap -/

theorem lineCold_only (h : Only ps a s) (p1 : Part.evt ∈ ps := by assumption) (p2 : Part.own ∈ ps := by assumption) (p3 :
    Part.lines ∈ ps := by assumption) (p4 : Part.counters ∈ ps := by assumption) : Only ps a (lineCold x1 s) := by
  simp only [lineCold]
  repeat' first
    | (with_reducible first | assumption | apply foldl_only | apply forFin_only | apply modEq_only
                            | apply enterGain_only | apply outageStart_only)
    | simp only [only_mk, true_or, or_true, and_self, p1, p2, p3, p4]
    | split

theorem hostCold_only (h : Only ps a s) (p1 : Part.hosts ∈ ps := by assumption) : Only ps a (hostCold x1 s) := by
  simp only [hostCold]
  repeat' first
    | (with_reducible first | assumption | apply foldl_only | apply forFin_only | apply hostHold_only
                            | apply modHost_only | apply hostTiming_only)
    | simp only [only_mk, true_or, or_true, and_self, p1]
    | split

theorem loopsRestart_only (h : Only ps a s) (p1 : Part.lines ∈ ps := by assumption) : Only ps a (loopsRestart x1 x2 s) := by
  simp +contextual only [loopsRestart, Only_ite, modLine_only, h, implies_true, and_self, p1]

theorem lineSwapped_only (h : Only ps a s) (p1 : Part.out ∈ ps := by assumption) (p2 : Part.evt ∈ ps := by assumption) (p3 :
    Part.own ∈ ps := by assumption) (p4 : Part.lines ∈ ps := by assumption) (p5 : Part.counters ∈ ps := by assumption) (p6 :
    Part.arb ∈ ps := by assumption) (p7 : Part.ocp ∈ ps := by assumption) : Only ps a (lineSwapped x1 x2 s) := by
  simp only [lineSwapped]
  repeat' first
    | (with_reducible first | assumption | apply foldl_only | apply forFin_only | apply modEq_only
                            | apply modTx_only | apply trnStop_only | apply losCheck_only
                            | apply txUpdate_only | apply eqNote_only | apply modRx_only
                            | apply loopsRestart_only | apply drvWrite_only)
    | simp only [only_mk, true_or, or_true, and_self, p1, p2, p3, p4, p5, p6, p7]
    | split

theorem hostSwapped_only (h : Only ps a s) (p1 : Part.hosts ∈ ps := by assumption) : Only ps a (hostSwapped x1 x2 s) := by
  unfold hostSwapped
  extract_lets +onlyGivenNames b restart peak dcg s1 s2 s3 s4 s5 s6
  have h1 : Only ps a s1 := by simp only [s1, Only_ite, modHost_only, h, implies_true, true_or, or_true, and_self, p1]
  have h2 : Only ps a s2 := by simp only [s2, Only_ite, modHost_only, h1, implies_true, true_or, or_true, and_self, p1]
  have h3 : Only ps a s3 := by simp only [s3, Only_ite, modHost_only, h2, implies_true, true_or, or_true, and_self, p1]
  have h4 : Only ps a s4 := by simp only [s4, Only_ite, modHost_only, h3, implies_true, true_or, or_true, and_self, p1]
  have h5 : Only ps a s5 := modHost_only h4
  clear_value s5
  have h6 : Only ps a s6 := by
    simp only [s6]
    split <;> (try simp only [Only_ite, modHost_only, hostTiming_only, hostHold_only, h5, implies_true, true_or, or_true, and_self, p1])
  simp only [Only_ite, modHost_only, h6, implies_true, true_or, or_true, and_self, p1]

theorem txPlain_only (h : Only ps a s) (p1 : Part.lines ∈ ps := by assumption) : Only ps a (txPlain x1 s) := by
  simp +contextual only [txPlain, Only_ite, only_mk, forFin_only, foldl_only, modLine_only, h, implies_true, true_or,
    or_true, and_self, p1]

theorem modeChanged_only (h : Only ps a s) (p1 : Part.free ∈ ps := by assumption) (p2 : Part.rings ∈ ps := by assumption)
    (p3 : Part.evt ∈ ps := by assumption) (p4 : Part.tlm ∈ ps := by assumption) (p5 : Part.own ∈ ps := by assumption) (p6 :
    Part.lines ∈ ps := by assumption) (p7 : Part.hosts ∈ ps := by assumption) (p8 : Part.ports ∈ ps := by assumption) (p9 :
    Part.counters ∈ ps := by assumption) (p10 : Part.mon ∈ ps := by assumption) (p11 : Part.therm ∈ ps := by assumption) (p12 :
    Part.cal ∈ ps := by assumption) (p13 : Part.arb ∈ ps := by assumption) (p14 : Part.chk ∈ ps := by assumption) (p15 :
    Part.rst ∈ ps := by assumption) (p16 : Part.ocp ∈ ps := by assumption) (p17 : Part.captures ∈ ps := by assumption) : Only ps
    a (modeChanged s) := by
  simp only [modeChanged]
  repeat' first
    | (with_reducible first | assumption | apply foldl_only | apply forFin_only | apply modTx_only
                            | apply trnStop_only | apply txPlain_only | apply msgAbandon_only
                            | apply lineTxOff_only | apply hostOff_only | apply trnDrop_only
                            | apply linePathOff_only | apply modTherm_only | apply seqPush_only
                            | apply raise_only | apply forFin_only | apply clearPortCtrs_only)
    | simp only [only_mk, true_or, or_true, and_self, p1, p2, p3, p4, p5, p6, p7, p8, p9, p10, p11, p12, p13, p14, p15, p16, p17]
    | split
    | dsimp only
    | (with_reducible first | refine only_snd (by assumption) ?_ | refine only_fst (by assumption) ?_)
    | intro

theorem portPlain_only (h : Only ps a s) (p1 : Part.ports ∈ ps := by assumption) : Only ps a (portPlain x1 s) := by
  simp +contextual only [portPlain, Only_ite, only_mk, forFin_only, foldl_only, modPort_only, h, implies_true, true_or,
    or_true, and_self, p1]

theorem portsSwapped_only (h : Only ps a s) (p1 : Part.free ∈ ps := by assumption) (p2 : Part.out ∈ ps := by assumption) (p3
    : Part.rings ∈ ps := by assumption) (p4 : Part.evt ∈ ps := by assumption) (p5 : Part.tlm ∈ ps := by assumption) (p6 :
    Part.own ∈ ps := by assumption) (p7 : Part.lines ∈ ps := by assumption) (p8 : Part.hosts ∈ ps := by assumption) (p9 :
    Part.ports ∈ ps := by assumption) (p10 : Part.counters ∈ ps := by assumption) (p11 : Part.mon ∈ ps := by assumption) (p12 :
    Part.therm ∈ ps := by assumption) (p13 : Part.cal ∈ ps := by assumption) (p14 : Part.arb ∈ ps := by assumption) (p15 :
    Part.chk ∈ ps := by assumption) (p16 : Part.rst ∈ ps := by assumption) (p17 : Part.ocp ∈ ps := by assumption) (p18 :
    Part.captures ∈ ps := by assumption) : Only ps a (portsSwapped x1 s) := by
  simp only [portsSwapped]
  repeat' first
    | (with_reducible first | assumption | apply foldl_only | apply forFin_only | apply modPort_only
                            | apply portPlain_only | apply buffersSet_only | apply lanesMayLeave_only
                            | apply modeChanged_only | apply hostCold_only | apply forFin_only
                            | apply lineCold_only)
    | simp only [only_mk, true_or, or_true, and_self, p1, p2, p3, p4, p5, p6, p7, p8, p9, p10, p11, p12, p13, p14, p15, p16, p17, p18]
    | split
    | dsimp only
    | (with_reducible first | refine only_snd (by assumption) ?_ | refine only_fst (by assumption) ?_)
    | intro

theorem testsCleared_only (h : Only ps a s) (p1 : Part.ports ∈ ps := by assumption) : Only ps a (testsCleared x1 s) := by
  simp +contextual only [testsCleared, Only_ite, forFin_only, modPort_only, forFin_only, h, implies_true, and_self, p1]

theorem exchange_only (h : Only ps a s) (p1 : Part.lines ∈ ps := by assumption) (p2 : Part.hosts ∈ ps := by assumption) (p3
    : Part.ports ∈ ps := by assumption) : Only ps a (exchange x1 s) := by
  simp only [exchange]
  repeat' first
    | (with_reducible first | assumption | apply foldl_only | apply forFin_only | apply modPort_only
                            | apply modLine_only | apply modHost_only)
    | simp only [only_mk, true_or, or_true, and_self, p1, p2, p3]
    | split

theorem swapDo_only (h : Only ps a s) (p1 : Part.free ∈ ps := by assumption) (p2 : Part.out ∈ ps := by assumption) (p3 :
    Part.rings ∈ ps := by assumption) (p4 : Part.evt ∈ ps := by assumption) (p5 : Part.tlm ∈ ps := by assumption) (p6 : Part.own
    ∈ ps := by assumption) (p7 : Part.lines ∈ ps := by assumption) (p8 : Part.hosts ∈ ps := by assumption) (p9 : Part.ports ∈ ps
    := by assumption) (p10 : Part.counters ∈ ps := by assumption) (p11 : Part.mon ∈ ps := by assumption) (p12 : Part.therm ∈ ps
    := by assumption) (p13 : Part.cal ∈ ps := by assumption) (p14 : Part.arb ∈ ps := by assumption) (p15 : Part.chk ∈ ps := by
    assumption) (p16 : Part.rst ∈ ps := by assumption) (p17 : Part.ocp ∈ ps := by assumption) (p18 : Part.captures ∈ ps := by
    assumption) : Only ps a (swapDo x1 s) := by
  simp only [swapDo]
  repeat' first
    | (with_reducible first | assumption | apply foldl_only | apply forFin_only | apply hostSwapped_only
                            | apply portsSwapped_only | apply lineSwapped_only | apply exchange_only
                            | apply testsCleared_only)
    | simp only [only_mk, and_self, p2, p4, p6, p7, p8, p10, p13, p16, p18]
    | split
    | dsimp only
    | (with_reducible first | refine only_snd (by assumption) ?_ | refine only_fst (by assumption) ?_)
    | intro

theorem swapStart_only (h : Only ps a s) (p1 : Part.free ∈ ps := by assumption) (p2 : Part.out ∈ ps := by assumption) (p3 :
    Part.rings ∈ ps := by assumption) (p4 : Part.evt ∈ ps := by assumption) (p5 : Part.tlm ∈ ps := by assumption) (p6 : Part.own
    ∈ ps := by assumption) (p7 : Part.lines ∈ ps := by assumption) (p8 : Part.hosts ∈ ps := by assumption) (p9 : Part.ports ∈ ps
    := by assumption) (p10 : Part.counters ∈ ps := by assumption) (p11 : Part.mon ∈ ps := by assumption) (p12 : Part.therm ∈ ps
    := by assumption) (p13 : Part.cal ∈ ps := by assumption) (p14 : Part.arb ∈ ps := by assumption) (p15 : Part.chk ∈ ps := by
    assumption) (p16 : Part.rst ∈ ps := by assumption) (p17 : Part.ocp ∈ ps := by assumption) (p18 : Part.captures ∈ ps := by
    assumption) : Only ps a (swapStart x1 x2 x3 x4 s).1 := by
  simp only [swapStart]
  repeat' first
    | (with_reducible first | assumption | apply foldl_only | apply forFin_only | apply refuseO_only
                            | apply swapDo_only | apply doneO_only | apply arbAdmitOf_only
                            | apply answer_only | apply arbRefuse_only | apply raise_only)
    | simp only [p18]
    | split
    | dsimp only
    | (with_reducible first | refine only_snd (by assumption) ?_ | refine only_fst (by assumption) ?_)
    | intro

/-! ### BlkTest -/

theorem testEnter_only (h : Only ps a s) (p1 : Part.evt ∈ ps := by assumption) (p2 : Part.own ∈ ps := by assumption) (p3 :
    Part.lines ∈ ps := by assumption) (p4 : Part.hosts ∈ ps := by assumption) (p5 : Part.ports ∈ ps := by assumption) (p6 :
    Part.counters ∈ ps := by assumption) (p7 : Part.mon ∈ ps := by assumption) (p8 : Part.arb ∈ ps := by assumption) : Only ps a
    (testEnter x1 s) := by
  simp only [testEnter]
  repeat' first
    | (with_reducible first | assumption | apply foldl_only | apply forFin_only | apply modPort_only
                            | apply modHost_only | apply monStop_only | apply rxHalt_only
                            | apply modRx_only | apply modMon_only | apply trnAbandon_only
                            | apply txHalt_only | apply hostHalt_only)
    | simp only [only_mk, true_or, or_true, and_self, p1, p2, p3, p4, p5, p6, p7, p8]
    | split

theorem testLeave_only (h : Only ps a s) (p1 : Part.out ∈ ps := by assumption) (p2 : Part.evt ∈ ps := by assumption) (p3 :
    Part.own ∈ ps := by assumption) (p4 : Part.lines ∈ ps := by assumption) (p5 : Part.hosts ∈ ps := by assumption) (p6 :
    Part.ports ∈ ps := by assumption) (p7 : Part.counters ∈ ps := by assumption) (p8 : Part.mon ∈ ps := by assumption) (p9 :
    Part.ocp ∈ ps := by assumption) : Only ps a (testLeave x1 s) := by
  simp only [testLeave]
  repeat' first
    | (with_reducible first | assumption | apply foldl_only | apply forFin_only | apply modPort_only
                            | apply modHost_only | apply txUpdate_only | apply hostMayLeave_only
                            | apply modRx_only | apply modMon_only | apply monRestart_only
                            | apply rxMayLeave_only)
    | simp only [only_mk, true_or, or_true, and_self, p1, p2, p3, p4, p5, p6, p7, p8, p9]
    | split

theorem testBegin_only (h : Only ps a s) (p1 : Part.evt ∈ ps := by assumption) (p2 : Part.own ∈ ps := by assumption) (p3 :
    Part.lines ∈ ps := by assumption) (p4 : Part.hosts ∈ ps := by assumption) (p5 : Part.ports ∈ ps := by assumption) (p6 :
    Part.counters ∈ ps := by assumption) (p7 : Part.mon ∈ ps := by assumption) (p8 : Part.arb ∈ ps := by assumption) (p9 :
    Part.tst ∈ ps := by assumption) : Only ps a (testBegin x1 s) := by
  simp +contextual only [testBegin, modTst_only, testEnter_only, h, p1, p2, p3, p4, p5, p6, p7, p8, p9]

theorem testStart_only (h : Only ps a s) (p1 : Part.rings ∈ ps := by assumption) (p2 : Part.evt ∈ ps := by assumption) (p3 :
    Part.own ∈ ps := by assumption) (p4 : Part.lines ∈ ps := by assumption) (p5 : Part.hosts ∈ ps := by assumption) (p6 :
    Part.ports ∈ ps := by assumption) (p7 : Part.counters ∈ ps := by assumption) (p8 : Part.mon ∈ ps := by assumption) (p9 :
    Part.arb ∈ ps := by assumption) (p10 : Part.tst ∈ ps := by assumption) : Only ps a (testStart x1 x2 x3 x4 s).1 := by
  simp only [testStart]
  repeat' first
    | (with_reducible first | assumption | apply foldl_only | apply forFin_only | apply refuseO_only
                            | apply answer_only | apply arbPresent_only | apply testBegin_only
                            | apply modTst_only)
    | simp only []
    | split

theorem testNext_only (h : Only ps a s) (p1 : Part.evt ∈ ps := by assumption) (p2 : Part.own ∈ ps := by assumption) (p3 :
    Part.lines ∈ ps := by assumption) (p4 : Part.hosts ∈ ps := by assumption) (p5 : Part.ports ∈ ps := by assumption) (p6 :
    Part.counters ∈ ps := by assumption) (p7 : Part.mon ∈ ps := by assumption) (p8 : Part.arb ∈ ps := by assumption) (p9 :
    Part.tst ∈ ps := by assumption) : Only ps a (testNext s) := by
  simp only [testNext]
  repeat' first
    | (with_reducible first | assumption | apply foldl_only | apply forFin_only | apply testBegin_only
                            | apply modTst_only)
    | simp only [only_mk, true_or, or_true, and_self, p1, p2, p3, p4, p5, p6, p7, p8, p9]
    | split

theorem testDone_only (h : Only ps a s) (p1 : Part.out ∈ ps := by assumption) (p2 : Part.rings ∈ ps := by assumption) (p3 :
    Part.evt ∈ ps := by assumption) (p4 : Part.own ∈ ps := by assumption) (p5 : Part.lines ∈ ps := by assumption) (p6 :
    Part.hosts ∈ ps := by assumption) (p7 : Part.ports ∈ ps := by assumption) (p8 : Part.counters ∈ ps := by assumption) (p9 :
    Part.mon ∈ ps := by assumption) (p10 : Part.arb ∈ ps := by assumption) (p11 : Part.tst ∈ ps := by assumption) (p12 :
    Part.ocp ∈ ps := by assumption) : Only ps a (testDone x1 s) := by
  simp only [testDone]
  repeat' first
    | (with_reducible first | assumption | apply foldl_only | apply forFin_only | apply doneO_only
                            | apply testNext_only | apply testLeave_only | apply raise_only
                            | apply modTst_only | apply arbEnd_only)
    | simp only [only_mk, true_or, or_true, and_self, p1, p2, p3, p4, p5, p6, p7, p8, p9, p10, p11, p12]
    | split

theorem testsEnd_only (h : Only ps a s) (p1 : Part.out ∈ ps := by assumption) (p2 : Part.rings ∈ ps := by assumption) (p3 :
    Part.evt ∈ ps := by assumption) (p4 : Part.own ∈ ps := by assumption) (p5 : Part.lines ∈ ps := by assumption) (p6 :
    Part.hosts ∈ ps := by assumption) (p7 : Part.ports ∈ ps := by assumption) (p8 : Part.counters ∈ ps := by assumption) (p9 :
    Part.mon ∈ ps := by assumption) (p10 : Part.arb ∈ ps := by assumption) (p11 : Part.tst ∈ ps := by assumption) (p12 :
    Part.ocp ∈ ps := by assumption) : Only ps a (testsEnd x1 s) := by
  simp only [testsEnd]
  repeat' first
    | (with_reducible first | assumption | apply foldl_only | apply forFin_only | apply refuseO_only
                            | apply testNext_only | apply testLeave_only | apply modTst_only
                            | apply arbEnd_only)
    | simp only [only_mk, true_or, or_true, and_self, p1, p2, p3, p4, p5, p6, p7, p8, p9, p10, p11, p12]
    | split
    | dsimp only
    | (with_reducible first | refine only_snd (by assumption) ?_ | refine only_fst (by assumption) ?_)
    | intro

end Sys2Proof.Machine
end

