-- ==== Sys2Proof/Laws/OnlyReset.lean ====
section
/-! SUPPORT. `Only` for every operation of resets, boot, thermal policy, the secure store, clocks and register accesses that does not reach every part. -/

-- One proof after another: the package is compiled as one text, where proofs side by side take too much memory.
set_option Elab.async false

namespace Sys2Proof.Machine

open Sys2Proof

/-! ### Reset -/

theorem laneClear_only (h : Only ps a s) (p1 : Part.out ∈ ps := by assumption) (p2 : Part.rings ∈ ps := by assumption) (p3 :
    Part.evt ∈ ps := by assumption) (p4 : Part.own ∈ ps := by assumption) (p5 : Part.lines ∈ ps := by assumption) (p6 :
    Part.hosts ∈ ps := by assumption) (p7 : Part.ports ∈ ps := by assumption) (p8 : Part.counters ∈ ps := by assumption) (p9 :
    Part.mon ∈ ps := by assumption) (p10 : Part.arb ∈ ps := by assumption) (p11 : Part.tst ∈ ps := by assumption) (p12 :
    Part.ocp ∈ ps := by assumption) (p13 : Part.captures ∈ ps := by assumption) : Only ps a (laneClear x1 s) := by
  simp only [laneClear]
  repeat' first
    | (with_reducible first | assumption | apply foldl_only | apply forFin_only | apply capDrop_only
                            | apply testsEnd_only | apply clearHostCtr_only | apply hostOff_only
                            | apply lineClear_only | apply clearLineCtr_only)
    | simp only [only_mk, true_or, or_true, and_self, p1, p2, p3, p4, p5, p6, p7, p8, p9, p10, p11, p12, p13]
    | split

theorem framerClear_only (h : Only ps a s) (p1 : Part.lines ∈ ps := by assumption) : Only ps a (framerClear x1 s) := by
  simp +contextual only [framerClear, Only_ite, only_mk, forFin_only, foldl_only, modFr_only, h, implies_true, true_or,
    or_true, and_self, p1]

theorem dataClear_only (h : Only ps a s) (p1 : Part.out ∈ ps := by assumption) (p2 : Part.rings ∈ ps := by assumption) (p3 :
    Part.evt ∈ ps := by assumption) (p4 : Part.own ∈ ps := by assumption) (p5 : Part.lines ∈ ps := by assumption) (p6 :
    Part.hosts ∈ ps := by assumption) (p7 : Part.ports ∈ ps := by assumption) (p8 : Part.counters ∈ ps := by assumption) (p9 :
    Part.mon ∈ ps := by assumption) (p10 : Part.arb ∈ ps := by assumption) (p11 : Part.tst ∈ ps := by assumption) (p12 :
    Part.ocp ∈ ps := by assumption) (p13 : Part.captures ∈ ps := by assumption) : Only ps a (dataClear s) := by
  simp only [dataClear]
  repeat' first
    | (with_reducible first | assumption | apply foldl_only | apply forFin_only | apply framerClear_only
                            | apply capDrop_only | apply testsEnd_only | apply hostOff_only
                            | apply lineClear_only | apply clearDataCtrs_only | apply forFin_only)
    | simp only [only_mk, true_or, or_true, p1, p2, p3, p4, p5, p6, p7, p8, p9, p10, p11, p12, p13]
    | split
    | dsimp only
    | (with_reducible first | refine only_snd (by assumption) ?_ | refine only_fst (by assumption) ?_)
    | intro

theorem controlClear_only (h : Only ps a s) (p1 : Part.setup ∈ ps := by assumption) (p2 : Part.viol ∈ ps := by assumption)
    (p3 : Part.latches ∈ ps := by assumption) (p4 : Part.pcie ∈ ps := by assumption) (p5 : Part.rings ∈ ps := by assumption) (p6
    : Part.tlm ∈ ps := by assumption) (p7 : Part.lmem ∈ ps := by assumption) (p8 : Part.mon ∈ ps := by assumption) (p9 :
    Part.rst ∈ ps := by assumption) : Only ps a (controlClear x1 s) := by
  simp only [controlClear]
  repeat' first
    | (with_reducible first | assumption | apply foldl_only | apply forFin_only | apply modRst_only
                            | apply drainStop_only)
    | simp only [only_mk, true_or, or_true, and_self, p1, p2, p3, p4, p5, p6, p7, p8, p9]
    | split
    | dsimp only
    | (with_reducible first | refine only_snd (by assumption) ?_ | refine only_fst (by assumption) ?_)
    | intro

theorem ocpForget_only (h : Only ps a s) (p1 : Part.lines ∈ ps := by assumption) (p2 : Part.ocp ∈ ps := by assumption) :
    Only ps a (ocpForget s) := by
  simp only [ocpForget]
  split
  · exact h
  · exact foldl_only _ _ (fun i x hx => ocpDropped_only hx) (by simp only [only_mk, h, true_or, or_true, and_self, p1, p2])

theorem mgmtClear_only (h : Only ps a s) (p1 : Part.out ∈ ps := by assumption) (p2 : Part.rings ∈ ps := by assumption) (p3 :
    Part.evt ∈ ps := by assumption) (p4 : Part.own ∈ ps := by assumption) (p5 : Part.lines ∈ ps := by assumption) (p6 :
    Part.hosts ∈ ps := by assumption) (p7 : Part.ports ∈ ps := by assumption) (p8 : Part.counters ∈ ps := by assumption) (p9 :
    Part.mon ∈ ps := by assumption) (p10 : Part.therm ∈ ps := by assumption) (p11 : Part.cal ∈ ps := by assumption) (p12 :
    Part.arb ∈ ps := by assumption) (p13 : Part.chk ∈ ps := by assumption) (p14 : Part.tst ∈ ps := by assumption) (p15 :
    Part.rst ∈ ps := by assumption) (p16 : Part.ocp ∈ ps := by assumption) (p17 : Part.captures ∈ ps := by assumption) : Only ps
    a (mgmtClear x1 s) := by
  unfold mgmtClear
  extract_lets s1 s2 s3 s4
  have h2 : Only ps a s2 := ocpForget_only (modRst_only h)
  clear_value s2
  have h3 : Only ps a s3 := modChk_only (by simp only [Only_ite, arbEnd_only, h2, implies_true, true_or, or_true,
      and_self, p1, p2, p3, p4, p5, p6, p7, p8, p9, p10, p11, p12, p13, p14, p15, p16, p17])
  clear_value s3
  exact modTst_only (chkAbandon_only (testsEnd_only (capDrop_only (reedAbort_only h3))))

theorem swapTorn_only (h : Only ps a s) (p1 : Part.free ∈ ps := by assumption) (p2 : Part.lines ∈ ps := by assumption) (p3 :
    Part.hosts ∈ ps := by assumption) : Only ps a (swapTorn x1 s) := by
  simp only [swapTorn]
  repeat' first
    | (with_reducible first | assumption | apply foldl_only | apply forFin_only | apply modConv_only
                            | apply draw_only)
    | simp only [only_mk, true_or, or_true, and_self, p1, p2, p3]
    | split

theorem coldClear_only (h : Only ps a s) (p1 : Part.setup ∈ ps := by assumption) (p2 : Part.viol ∈ ps := by assumption) (p3
    : Part.latches ∈ ps := by assumption) (p4 : Part.pcie ∈ ps := by assumption) (p5 : Part.refClock ∈ ps := by assumption) (p6
    : Part.hkClock ∈ ps := by assumption) (p7 : Part.rings ∈ ps := by assumption) (p8 : Part.evt ∈ ps := by assumption) (p9 :
    Part.tlm ∈ ps := by assumption) (p10 : Part.lmem ∈ ps := by assumption) (p11 : Part.cad ∈ ps := by assumption) (p12 :
    Part.own ∈ ps := by assumption) (p13 : Part.lines ∈ ps := by assumption) (p14 : Part.hosts ∈ ps := by assumption) (p15 :
    Part.ports ∈ ps := by assumption) (p16 : Part.counters ∈ ps := by assumption) (p17 : Part.mon ∈ ps := by assumption) (p18 :
    Part.comp ∈ ps := by assumption) (p19 : Part.thr ∈ ps := by assumption) (p20 : Part.therm ∈ ps := by assumption) (p21 :
    Part.cal ∈ ps := by assumption) (p22 : Part.arb ∈ ps := by assumption) (p23 : Part.chk ∈ ps := by assumption) (p24 :
    Part.tst ∈ ps := by assumption) (p25 : Part.rst ∈ ps := by assumption) (p26 : Part.ocp ∈ ps := by assumption) (p27 :
    Part.captures ∈ ps := by assumption) : Only ps a (coldClear x1 s) := by
  simp +contextual only [coldClear, only_mk, h, true_or, or_true, and_self, p1, p2, p3, p4, p5, p6, p7, p8, p9, p10, p11,
    p12, p13, p14, p15, p16, p17, p18, p19, p20, p21, p22, p23, p24, p25, p26, p27]

theorem porClear_only (h : Only ps a s) (p1 : Part.setup ∈ ps := by assumption) (p2 : Part.viol ∈ ps := by assumption) (p3 :
    Part.latches ∈ ps := by assumption) (p4 : Part.straps ∈ ps := by assumption) (p5 : Part.pcie ∈ ps := by assumption) (p6 :
    Part.refClock ∈ ps := by assumption) (p7 : Part.hkClock ∈ ps := by assumption) (p8 : Part.rings ∈ ps := by assumption) (p9 :
    Part.evt ∈ ps := by assumption) (p10 : Part.tlm ∈ ps := by assumption) (p11 : Part.lmem ∈ ps := by assumption) (p12 :
    Part.cad ∈ ps := by assumption) (p13 : Part.own ∈ ps := by assumption) (p14 : Part.lines ∈ ps := by assumption) (p15 :
    Part.hosts ∈ ps := by assumption) (p16 : Part.ports ∈ ps := by assumption) (p17 : Part.counters ∈ ps := by assumption) (p18
    : Part.mon ∈ ps := by assumption) (p19 : Part.comp ∈ ps := by assumption) (p20 : Part.thr ∈ ps := by assumption) (p21 :
    Part.therm ∈ ps := by assumption) (p22 : Part.cal ∈ ps := by assumption) (p23 : Part.arb ∈ ps := by assumption) (p24 :
    Part.chk ∈ ps := by assumption) (p25 : Part.tst ∈ ps := by assumption) (p26 : Part.rst ∈ ps := by assumption) (p27 :
    Part.saved ∈ ps := by assumption) (p28 : Part.ocp ∈ ps := by assumption) (p29 : Part.captures ∈ ps := by assumption) : Only
    ps a (porClear s) := by
  simp +contextual only [porClear, only_mk, h, true_or, or_true, and_self, p1, p2, p3, p4, p5, p6, p7, p8, p9, p10, p11,
    p12, p13, p14, p15, p16, p17, p18, p19, p20, p21, p22, p23, p24, p25, p26, p27, p28, p29]

theorem laneReach_only (h : Only ps a s) (p1 : Part.out ∈ ps := by assumption) (p2 : Part.rings ∈ ps := by assumption) (p3 :
    Part.evt ∈ ps := by assumption) (p4 : Part.own ∈ ps := by assumption) (p5 : Part.lines ∈ ps := by assumption) (p6 :
    Part.hosts ∈ ps := by assumption) (p7 : Part.ports ∈ ps := by assumption) (p8 : Part.counters ∈ ps := by assumption) (p9 :
    Part.mon ∈ ps := by assumption) (p10 : Part.arb ∈ ps := by assumption) (p11 : Part.tst ∈ ps := by assumption) (p12 :
    Part.ocp ∈ ps := by assumption) (p13 : Part.captures ∈ ps := by assumption) : Only ps a (laneReach x1 s) := by
  simp +contextual only [laneReach, Only_ite, foldl_only, dataClear_only, laneClear_only, h, implies_true, and_self, p1, p2,
    p3, p4, p5, p6, p7, p8, p9, p10, p11, p12, p13]

theorem sleepEnter_only (h : Only ps a s) (p1 : Part.setup ∈ ps := by assumption) (p2 : Part.viol ∈ ps := by assumption) (p3
    : Part.latches ∈ ps := by assumption) (p4 : Part.pcie ∈ ps := by assumption) (p5 : Part.refClock ∈ ps := by assumption) (p6
    : Part.hkClock ∈ ps := by assumption) (p7 : Part.rings ∈ ps := by assumption) (p8 : Part.evt ∈ ps := by assumption) (p9 :
    Part.tlm ∈ ps := by assumption) (p10 : Part.lmem ∈ ps := by assumption) (p11 : Part.cad ∈ ps := by assumption) (p12 :
    Part.own ∈ ps := by assumption) (p13 : Part.lines ∈ ps := by assumption) (p14 : Part.hosts ∈ ps := by assumption) (p15 :
    Part.ports ∈ ps := by assumption) (p16 : Part.counters ∈ ps := by assumption) (p17 : Part.mon ∈ ps := by assumption) (p18 :
    Part.comp ∈ ps := by assumption) (p19 : Part.thr ∈ ps := by assumption) (p20 : Part.therm ∈ ps := by assumption) (p21 :
    Part.cal ∈ ps := by assumption) (p22 : Part.arb ∈ ps := by assumption) (p23 : Part.chk ∈ ps := by assumption) (p24 :
    Part.tst ∈ ps := by assumption) (p25 : Part.rst ∈ ps := by assumption) (p26 : Part.saved ∈ ps := by assumption) (p27 :
    Part.ocp ∈ ps := by assumption) (p28 : Part.captures ∈ ps := by assumption) : Only ps a (sleepEnter s) := by
  simp +contextual only [sleepEnter, only_mk, seqCancel_only, coldClear_only, h, true_or, or_true, and_self, p1, p2, p3, p4,
    p5, p6, p7, p8, p9, p10, p11, p12, p13, p14, p15, p16, p17, p18, p19, p20, p21, p22, p23, p24, p25, p26, p27, p28]

theorem lateDo_only (h : Only ps a s) (p1 : Part.free ∈ ps := by assumption) (p2 : Part.out ∈ ps := by assumption) (p3 :
    Part.setup ∈ ps := by assumption) (p4 : Part.viol ∈ ps := by assumption) (p5 : Part.latches ∈ ps := by assumption) (p6 :
    Part.pcie ∈ ps := by assumption) (p7 : Part.refClock ∈ ps := by assumption) (p8 : Part.hkClock ∈ ps := by assumption) (p9 :
    Part.rings ∈ ps := by assumption) (p10 : Part.evt ∈ ps := by assumption) (p11 : Part.tlm ∈ ps := by assumption) (p12 :
    Part.lmem ∈ ps := by assumption) (p13 : Part.cad ∈ ps := by assumption) (p14 : Part.own ∈ ps := by assumption) (p15 :
    Part.lines ∈ ps := by assumption) (p16 : Part.hosts ∈ ps := by assumption) (p17 : Part.ports ∈ ps := by assumption) (p18 :
    Part.counters ∈ ps := by assumption) (p19 : Part.mon ∈ ps := by assumption) (p20 : Part.comp ∈ ps := by assumption) (p21 :
    Part.thr ∈ ps := by assumption) (p22 : Part.therm ∈ ps := by assumption) (p23 : Part.cal ∈ ps := by assumption) (p24 :
    Part.arb ∈ ps := by assumption) (p25 : Part.chk ∈ ps := by assumption) (p26 : Part.tst ∈ ps := by assumption) (p27 :
    Part.rst ∈ ps := by assumption) (p28 : Part.saved ∈ ps := by assumption) (p29 : Part.ocp ∈ ps := by assumption) (p30 :
    Part.captures ∈ ps := by assumption) : Only ps a (lateDo x1 s) := by
  simp only [lateDo]
  repeat' first
    | (with_reducible first | assumption | apply foldl_only | apply forFin_only | apply laneReach_only
                            | apply coldClear_only | apply lanesMayLeave_only | apply modRst_only
                            | apply domOffLate_only | apply sleepEnter_only)
    | simp only [only_mk, true_or, or_true, and_self, p1, p2, p3, p4, p5, p6, p7, p8, p9, p10, p11, p12, p13, p14, p15, p16, p17, p18, p19, p20, p21, p22, p23, p24, p25, p26, p27, p28, p29, p30]
    | split

theorem lateFlush_only (h : Only ps a s) (p1 : Part.free ∈ ps := by assumption) (p2 : Part.out ∈ ps := by assumption) (p3 :
    Part.setup ∈ ps := by assumption) (p4 : Part.viol ∈ ps := by assumption) (p5 : Part.latches ∈ ps := by assumption) (p6 :
    Part.pcie ∈ ps := by assumption) (p7 : Part.refClock ∈ ps := by assumption) (p8 : Part.hkClock ∈ ps := by assumption) (p9 :
    Part.rings ∈ ps := by assumption) (p10 : Part.evt ∈ ps := by assumption) (p11 : Part.tlm ∈ ps := by assumption) (p12 :
    Part.lmem ∈ ps := by assumption) (p13 : Part.cad ∈ ps := by assumption) (p14 : Part.own ∈ ps := by assumption) (p15 :
    Part.lines ∈ ps := by assumption) (p16 : Part.hosts ∈ ps := by assumption) (p17 : Part.ports ∈ ps := by assumption) (p18 :
    Part.counters ∈ ps := by assumption) (p19 : Part.mon ∈ ps := by assumption) (p20 : Part.comp ∈ ps := by assumption) (p21 :
    Part.thr ∈ ps := by assumption) (p22 : Part.therm ∈ ps := by assumption) (p23 : Part.cal ∈ ps := by assumption) (p24 :
    Part.arb ∈ ps := by assumption) (p25 : Part.chk ∈ ps := by assumption) (p26 : Part.tst ∈ ps := by assumption) (p27 :
    Part.rst ∈ ps := by assumption) (p28 : Part.saved ∈ ps := by assumption) (p29 : Part.ocp ∈ ps := by assumption) (p30 :
    Part.captures ∈ ps := by assumption) : Only ps a (lateFlush s) := by
  simp only [lateFlush]
  repeat' first
    | (with_reducible first | assumption | apply foldl_only | apply forFin_only | apply lateDo_only)
    | simp only [only_mk, true_or, or_true, and_self, p1, p2, p3, p4, p5, p6, p7, p8, p9, p10, p11, p12, p13, p14, p15, p16, p17, p18, p19, p20, p21, p22, p23, p24, p25, p26, p27, p28, p29, p30]
    | split
    | dsimp only
    | (with_reducible first | refine only_snd (by assumption) ?_ | refine only_fst (by assumption) ?_)
    | intro

theorem sleepBreak_only (h : Only ps a s) (p1 : Part.rst ∈ ps := by assumption) (p2 : Part.saved ∈ ps := by assumption) :
    Only ps a (sleepBreak x1 s) := by
  simp only [sleepBreak]
  repeat' first
    | (with_reducible first | assumption | apply foldl_only | apply forFin_only)
    | simp only [only_mk, true_or, or_true, p1, p2]
    | split

theorem episodeEnd_only (h : Only ps a s) (p1 : Part.out ∈ ps := by assumption) (p2 : Part.lines ∈ ps := by assumption) (p3
    : Part.hosts ∈ ps := by assumption) (p4 : Part.rst ∈ ps := by assumption) (p5 : Part.ocp ∈ ps := by assumption) : Only ps a
    (episodeEnd x1 s) := by
  simp only [episodeEnd]
  repeat' first
    | (with_reducible first | assumption | apply foldl_only | apply forFin_only | apply lanesMayLeave_only
                            | apply modRst_only)
    | simp only [only_mk, true_or, or_true, and_self, p1, p2, p3, p4, p5]
    | split

theorem releaseReset_only (h : Only ps a s) (p1 : Part.out ∈ ps := by assumption) (p2 : Part.lines ∈ ps := by assumption)
    (p3 : Part.hosts ∈ ps := by assumption) (p4 : Part.rst ∈ ps := by assumption) (p5 : Part.ocp ∈ ps := by assumption) : Only
    ps a (releaseReset x1 s) := by
  simp only [releaseReset]
  repeat' first
    | (with_reducible first | assumption | apply foldl_only | apply forFin_only | apply modRst_only
                            | apply episodeEnd_only)
    | simp only [only_mk, true_or, or_true, and_self, p1, p2, p3, p4, p5]
    | split

theorem sourceRelease_only (h : Only ps a s) (p1 : Part.out ∈ ps := by assumption) (p2 : Part.lines ∈ ps := by assumption)
    (p3 : Part.hosts ∈ ps := by assumption) (p4 : Part.rst ∈ ps := by assumption) (p5 : Part.ocp ∈ ps := by assumption) : Only
    ps a (sourceRelease x1 s) := by
  simp +contextual only [sourceRelease, Only_ite, releaseReset_only, h, implies_true, and_self, p1, p2, p3, p4, p5]

theorem ctrlLeaves_only (h : Only ps a s) (p1 : Part.rst ∈ ps := by assumption) : Only ps a (ctrlLeaves s) := by
  simp +contextual only [ctrlLeaves, Only_ite, modRst_only, h, implies_true, and_self, p1]

theorem longHold_only (h : Only ps a s) (p1 : Part.rst ∈ ps := by assumption) : Only ps a (longHold s) := by
  simp only [longHold]
  repeat' first
    | (with_reducible first | assumption | apply foldl_only | apply forFin_only | apply modRst_only)
    | simp only [only_mk, true_or, or_true, and_self, p1]
    | split

theorem pulseAccepted_only (h : Only ps a s) (p1 : Part.free ∈ ps := by assumption) : Only ps a (pulseAccepted x1 s).2 := by
  simp only [pulseAccepted]
  repeat' first
    | (with_reducible first | assumption | apply foldl_only | apply forFin_only | apply draw_only)
    | simp only [only_mk, true_or, or_true, and_self, p1]
    | split

theorem sleepPulse_only (h : Only ps a s) (p1 : Part.rst ∈ ps := by assumption) : Only ps a (sleepPulse s) := by
  simp +contextual only [sleepPulse, modRst_only, h, p1]

theorem perstPinHigh_only (h : Only ps a s) (p1 : Part.out ∈ ps := by assumption) (p2 : Part.lines ∈ ps := by assumption)
    (p3 : Part.hosts ∈ ps := by assumption) (p4 : Part.rst ∈ ps := by assumption) (p5 : Part.ocp ∈ ps := by assumption) : Only
    ps a (perstPinHigh s) := by
  simp +contextual only [perstPinHigh, Only_ite, releaseReset_only, modRst_only, h, implies_true, and_self, p1, p2, p3, p4,
    p5]

theorem vinWarn_only (h : Only ps a s) (p1 : Part.evt ∈ ps := by assumption) (p2 : Part.own ∈ ps := by assumption) (p3 :
    Part.counters ∈ ps := by assumption) : Only ps a (vinWarn x1 s) := by
  simp +contextual only [vinWarn, raiseLimited_only, h, p1, p2, p3]

/-! ### Boot -/

theorem exitStep_only (h : Only ps a s) (p1 : Part.rst ∈ ps := by assumption) : Only ps a (exitStep x1 s) := by
  simp +contextual only [exitStep, modRst_only, h, p1]

theorem strapSample_only (h : Only ps a s) (p1 : Part.straps ∈ ps := by assumption) : Only ps a (strapSample x1 x2 s) := by
  simp +contextual only [strapSample, only_mk, h, true_or, or_true, p1]

theorem bankLoad_only (h : Only ps a s) (p1 : Part.lines ∈ ps := by assumption) (p2 : Part.hosts ∈ ps := by assumption) (p3
    : Part.ports ∈ ps := by assumption) (p4 : Part.mon ∈ ps := by assumption) (p5 : Part.comp ∈ ps := by assumption) (p6 :
    Part.thr ∈ ps := by assumption) (p7 : Part.saved ∈ ps := by assumption) : Only ps a (bankLoad x1 s) := by
  simp only [bankLoad]
  repeat' first
    | (with_reducible first | assumption | apply foldl_only | apply forFin_only)
    | simp only [only_mk, true_or, or_true, p1, p2, p3, p4, p5, p6, p7]
    | split

theorem trimAttempt_only (h : Only ps a s) (p1 : Part.free ∈ ps := by assumption) (p2 : Part.straps ∈ ps := by assumption)
    (p3 : Part.rings ∈ ps := by assumption) (p4 : Part.evt ∈ ps := by assumption) (p5 : Part.tlm ∈ ps := by assumption) (p6 :
    Part.cad ∈ ps := by assumption) (p7 : Part.own ∈ ps := by assumption) (p8 : Part.lines ∈ ps := by assumption) (p9 :
    Part.hosts ∈ ps := by assumption) (p10 : Part.ports ∈ ps := by assumption) (p11 : Part.counters ∈ ps := by assumption) (p12
    : Part.mon ∈ ps := by assumption) (p13 : Part.comp ∈ ps := by assumption) (p14 : Part.thr ∈ ps := by assumption) (p15 :
    Part.cal ∈ ps := by assumption) (p16 : Part.arb ∈ ps := by assumption) (p17 : Part.chk ∈ ps := by assumption) (p18 :
    Part.rst ∈ ps := by assumption) (p19 : Part.saved ∈ ps := by assumption) (p20 : Part.ocp ∈ ps := by assumption) (p21 :
    Part.captures ∈ ps := by assumption) : Only ps a (trimAttempt x1 x2 s) := by
  simp only [trimAttempt]
  repeat' first
    | (with_reducible first | assumption | apply foldl_only | apply forFin_only | apply exitStep_only
                            | apply modRst_only | apply strapSample_only | apply seqPush_only
                            | apply bankLoad_only)
    | simp only [only_mk, true_or, or_true, and_self, p1, p2, p3, p4, p5, p6, p7, p8, p9, p10, p11, p12, p13, p14, p15, p16, p17, p18, p19, p20, p21]
    | split

theorem groupStart_only (h : Only ps a s) (p1 : Part.free ∈ ps := by assumption) (p2 : Part.rings ∈ ps := by assumption) (p3
    : Part.evt ∈ ps := by assumption) (p4 : Part.tlm ∈ ps := by assumption) (p5 : Part.own ∈ ps := by assumption) (p6 :
    Part.lines ∈ ps := by assumption) (p7 : Part.hosts ∈ ps := by assumption) (p8 : Part.ports ∈ ps := by assumption) (p9 :
    Part.counters ∈ ps := by assumption) (p10 : Part.mon ∈ ps := by assumption) (p11 : Part.cal ∈ ps := by assumption) (p12 :
    Part.arb ∈ ps := by assumption) (p13 : Part.chk ∈ ps := by assumption) (p14 : Part.tst ∈ ps := by assumption) (p15 :
    Part.rst ∈ ps := by assumption) (p16 : Part.ocp ∈ ps := by assumption) (p17 : Part.captures ∈ ps := by assumption) : Only ps
    a (groupStart x1 s) := by
  simp only [groupStart]
  repeat' first
    | (with_reducible first | assumption | apply foldl_only | apply forFin_only | apply exitStep_only
                            | apply seqPush_only | apply modTst_only)
    | simp only [only_mk, true_or, or_true, and_self, p1, p2, p3, p4, p5, p6, p7, p8, p9, p10, p11, p12, p13, p14, p15, p16, p17]
    | split
    | dsimp only
    | (with_reducible first | refine only_snd (by assumption) ?_ | refine only_fst (by assumption) ?_)
    | intro

theorem seqFinish_only (h : Only ps a s) (p1 : Part.free ∈ ps := by assumption) (p2 : Part.out ∈ ps := by assumption) (p3 :
    Part.rings ∈ ps := by assumption) (p4 : Part.evt ∈ ps := by assumption) (p5 : Part.tlm ∈ ps := by assumption) (p6 : Part.own
    ∈ ps := by assumption) (p7 : Part.lines ∈ ps := by assumption) (p8 : Part.hosts ∈ ps := by assumption) (p9 : Part.ports ∈ ps
    := by assumption) (p10 : Part.counters ∈ ps := by assumption) (p11 : Part.mon ∈ ps := by assumption) (p12 : Part.cal ∈ ps :=
    by assumption) (p13 : Part.arb ∈ ps := by assumption) (p14 : Part.chk ∈ ps := by assumption) (p15 : Part.rst ∈ ps := by
    assumption) (p16 : Part.ocp ∈ ps := by assumption) (p17 : Part.captures ∈ ps := by assumption) : Only ps a (seqFinish s) :=
    by
  simp only [seqFinish]
  repeat' first
    | (with_reducible first | assumption | apply foldl_only | apply forFin_only | apply domDone_only)
    | simp only [only_mk, true_or, or_true, and_self, p1, p2, p3, p4, p5, p6, p7, p8, p9, p10, p11, p12, p13, p14, p15, p16, p17]
    | split
    | dsimp only
    | (with_reducible first | refine only_snd (by assumption) ?_ | refine only_fst (by assumption) ?_)
    | intro

theorem bandsChoose_only (h : Only ps a s) (p1 : Part.free ∈ ps := by assumption) (p2 : Part.therm ∈ ps := by assumption) :
    Only ps a (bandsChoose s) := by
  simp +contextual only [bandsChoose, Only_ite, only_mk, forFin_only, foldl_only, draw_only, modTherm_only, h, implies_true,
    true_or, or_true, and_self, p1, p2]

theorem freeBeatStart_only (h : Only ps a s) (p1 : Part.out ∈ ps := by assumption) (p2 : Part.rings ∈ ps := by assumption)
    (p3 : Part.evt ∈ ps := by assumption) (p4 : Part.tlm ∈ ps := by assumption) (p5 : Part.cad ∈ ps := by assumption) (p6 :
    Part.own ∈ ps := by assumption) (p7 : Part.counters ∈ ps := by assumption) (p8 : Part.mon ∈ ps := by assumption) : Only ps a
    (freeBeatStart s) := by
  simp +contextual only [freeBeatStart, Only_ite, firstBeat_only, modCad_only, h, implies_true, and_self, p1, p2, p3, p4,
    p5, p6, p7, p8]

theorem pllStep_only (h : Only ps a s) (p1 : Part.free ∈ ps := by assumption) (p2 : Part.out ∈ ps := by assumption) (p3 :
    Part.refClock ∈ ps := by assumption) (p4 : Part.rings ∈ ps := by assumption) (p5 : Part.evt ∈ ps := by assumption) (p6 :
    Part.tlm ∈ ps := by assumption) (p7 : Part.cad ∈ ps := by assumption) (p8 : Part.own ∈ ps := by assumption) (p9 : Part.lines
    ∈ ps := by assumption) (p10 : Part.hosts ∈ ps := by assumption) (p11 : Part.ports ∈ ps := by assumption) (p12 :
    Part.counters ∈ ps := by assumption) (p13 : Part.mon ∈ ps := by assumption) (p14 : Part.therm ∈ ps := by assumption) (p15 :
    Part.cal ∈ ps := by assumption) (p16 : Part.arb ∈ ps := by assumption) (p17 : Part.chk ∈ ps := by assumption) (p18 :
    Part.tst ∈ ps := by assumption) (p19 : Part.rst ∈ ps := by assumption) (p20 : Part.ocp ∈ ps := by assumption) (p21 :
    Part.captures ∈ ps := by assumption) : Only ps a (pllStep x1 s) := by
  simp only [pllStep]
  repeat' first
    | (with_reducible first | assumption | apply foldl_only | apply forFin_only | apply groupStart_only
                            | apply modRst_only | apply freeBeatStart_only | apply bandsChoose_only
                            | apply seqFinish_only | apply raise_only)
    | simp only [only_mk, true_or, or_true, and_self, p1, p2, p3, p4, p5, p6, p7, p8, p9, p10, p11, p12, p13, p14, p15, p16, p17, p18, p19, p20, p21]
    | split

theorem pllLock_only (h : Only ps a s) (p1 : Part.free ∈ ps := by assumption) (p2 : Part.out ∈ ps := by assumption) (p3 :
    Part.refClock ∈ ps := by assumption) (p4 : Part.rings ∈ ps := by assumption) (p5 : Part.evt ∈ ps := by assumption) (p6 :
    Part.tlm ∈ ps := by assumption) (p7 : Part.cad ∈ ps := by assumption) (p8 : Part.own ∈ ps := by assumption) (p9 : Part.lines
    ∈ ps := by assumption) (p10 : Part.hosts ∈ ps := by assumption) (p11 : Part.ports ∈ ps := by assumption) (p12 :
    Part.counters ∈ ps := by assumption) (p13 : Part.mon ∈ ps := by assumption) (p14 : Part.therm ∈ ps := by assumption) (p15 :
    Part.cal ∈ ps := by assumption) (p16 : Part.arb ∈ ps := by assumption) (p17 : Part.chk ∈ ps := by assumption) (p18 :
    Part.tst ∈ ps := by assumption) (p19 : Part.rst ∈ ps := by assumption) (p20 : Part.ocp ∈ ps := by assumption) (p21 :
    Part.captures ∈ ps := by assumption) : Only ps a (pllLock s) := by
  simp +contextual only [pllLock, pllStep_only, h, p1, p2, p3, p4, p5, p6, p7, p8, p9, p10, p11, p12, p13, p14, p15, p16,
    p17, p18, p19, p20, p21]

theorem firstSets_only (h : Only ps a s) (p1 : Part.free ∈ ps := by assumption) (p2 : Part.lines ∈ ps := by assumption) (p3
    : Part.hosts ∈ ps := by assumption) (p4 : Part.cal ∈ ps := by assumption) : Only ps a (firstSets x1 x2 s) := by
  simp only [firstSets]
  repeat' first
    | (with_reducible first | assumption | apply foldl_only | apply forFin_only | apply modConv_only
                            | apply modCal_only | apply draw_only)
    | simp only [only_mk, true_or, or_true, and_self, p1, p2, p3, p4]
    | split

theorem restSets_only (h : Only ps a s) (p1 : Part.free ∈ ps := by assumption) (p2 : Part.lines ∈ ps := by assumption) (p3 :
    Part.hosts ∈ ps := by assumption) (p4 : Part.cal ∈ ps := by assumption) : Only ps a (restSets s) := by
  simp +contextual only [restSets, Only_ite, only_mk, forFin_only, foldl_only, firstSets_only, h, implies_true, true_or,
    or_true, and_self, p1, p2, p3, p4]

theorem selfTestEnd_only (h : Only ps a s) (p1 : Part.mon ∈ ps := by assumption) (p2 : Part.tst ∈ ps := by assumption) (p3 :
    Part.rst ∈ ps := by assumption) : Only ps a (selfTestEnd s) := by
  simp only [selfTestEnd]
  repeat' first
    | (with_reducible first | assumption | apply foldl_only | apply forFin_only | apply monSync_only
                            | apply exitStep_only | apply modTst_only)

theorem groupDone_only (h : Only ps a s) (p1 : Part.free ∈ ps := by assumption) (p2 : Part.out ∈ ps := by assumption) (p3 :
    Part.setup ∈ ps := by assumption) (p4 : Part.rings ∈ ps := by assumption) (p5 : Part.evt ∈ ps := by assumption) (p6 :
    Part.tlm ∈ ps := by assumption) (p7 : Part.own ∈ ps := by assumption) (p8 : Part.lines ∈ ps := by assumption) (p9 :
    Part.hosts ∈ ps := by assumption) (p10 : Part.ports ∈ ps := by assumption) (p11 : Part.counters ∈ ps := by assumption) (p12
    : Part.mon ∈ ps := by assumption) (p13 : Part.cal ∈ ps := by assumption) (p14 : Part.arb ∈ ps := by assumption) (p15 :
    Part.chk ∈ ps := by assumption) (p16 : Part.tst ∈ ps := by assumption) (p17 : Part.rst ∈ ps := by assumption) (p18 :
    Part.ocp ∈ ps := by assumption) (p19 : Part.captures ∈ ps := by assumption) : Only ps a (groupDone x1 x2 x3 s) := by
  simp only [groupDone]
  repeat' first
    | (with_reducible first | assumption | apply foldl_only | apply forFin_only | apply ringStart_only
                            | apply groupStart_only | apply failAct_only | apply exitStep_only
                            | apply firstSets_only | apply selfTestEnd_only | apply seqFinish_only
                            | apply modTst_only | apply restSets_only | apply modRings_only)
    | simp only [only_mk, true_or, or_true, and_self, p1, p2, p3, p4, p5, p6, p7, p8, p9, p10, p11, p12, p13, p14, p15, p16, p17, p18, p19]
    | split
    | dsimp only
    | (with_reducible first | refine only_snd (by assumption) ?_ | refine only_fst (by assumption) ?_)
    | intro

theorem bootPatch_only (h : Only ps a s) (p1 : Part.evt ∈ ps := by assumption) (p2 : Part.own ∈ ps := by assumption) (p3 :
    Part.counters ∈ ps := by assumption) (p4 : Part.tst ∈ ps := by assumption) : Only ps a (bootPatch x1 s) := by
  simp only [bootPatch]
  repeat' first
    | (with_reducible first | assumption | apply foldl_only | apply forFin_only | apply raise_only
                            | apply modTst_only)
    | simp only [only_mk, true_or, or_true, and_self, p1, p2, p3, p4]
    | split

theorem firmwareBoot_only (h : Only ps a s) (p1 : Part.out ∈ ps := by assumption) (p2 : Part.rings ∈ ps := by assumption)
    (p3 : Part.evt ∈ ps := by assumption) (p4 : Part.cad ∈ ps := by assumption) (p5 : Part.own ∈ ps := by assumption) (p6 :
    Part.lines ∈ ps := by assumption) (p7 : Part.hosts ∈ ps := by assumption) (p8 : Part.counters ∈ ps := by assumption) (p9 :
    Part.therm ∈ ps := by assumption) (p10 : Part.cal ∈ ps := by assumption) (p11 : Part.arb ∈ ps := by assumption) (p12 :
    Part.chk ∈ ps := by assumption) (p13 : Part.tst ∈ ps := by assumption) (p14 : Part.rst ∈ ps := by assumption) (p15 :
    Part.ocp ∈ ps := by assumption) : Only ps a (firmwareBoot x1 s) := by
  unfold firmwareBoot
  split
  · exact h
  rename_i e _
  extract_lets +onlyGivenNames s1 b s2 s3 s4
  have h1 : Only ps a s1 := modRst_only h
  clear_value s1
  have h2 : Only ps a s2 := by simp only [s2, only_mk, h1, true_or, or_true, and_self, p1, p2, p3, p4, p5, p6, p7, p8, p9,
      p10, p11, p12, p13, p14, p15]
  clear_value s2
  have h4 : Only ps a s4 := modTherm_only (bootWindow_only (bootPatch_only h2))
  clear_value s4
  extract_lets +onlyGivenNames s5 s6 s7 s8
  have k1 : Only ps a s5 := modCal_only h4
  clear_value s5
  have k2 : Only ps a s6 := by simp only [s6, Only_ite, raise_only, modRst_only, k1, implies_true, true_or, or_true,
      and_self, p1, p2, p3, p4, p5, p6, p7, p8, p9, p10, p11, p12, p13, p14, p15]
  clear_value s6
  have k3 : Only ps a s7 := foldl_only _ _ (fun i x hx => by simp only [Only_ite, raise_only, hx, implies_true, true_or,
      or_true, and_self, p1, p2, p3, p4, p5, p6, p7, p8, p9, p10, p11, p12, p13, p14, p15]) k2
  clear_value s7
  have h5 : Only ps a s8 := by simp only [s8, Only_ite, raise_only, modTherm_only, k3, h4, implies_true, true_or, or_true,
      and_self, p1, p2, p3, p4, p5, p6, p7, p8, p9, p10, p11, p12, p13, p14, p15]
  clear_value s8
  extract_lets +onlyGivenNames s9 s10 s11
  have h6 : Only ps a s9 := raise_only h5
  clear_value s9
  have h7 : Only ps a s10 := by simp only [s10, Only_ite, raise_only, modRst_only, h6, implies_true, true_or, or_true,
      and_self, p1, p2, p3, p4, p5, p6, p7, p8, p9, p10, p11, p12, p13, p14, p15]
  clear_value s10
  have h8 : Only ps a s11 := trnBoot_only (chkAnswer_only h7)
  clear_value s11
  simp only [Only_ite, lanesMayLeave_only, h8, implies_true, true_or, or_true, and_self, p1, p2, p3, p4, p5, p6, p7, p8,
      p9, p10, p11, p12, p13, p14, p15]

theorem scanEnable_only (h : Only ps a s) (p1 : Part.evt ∈ ps := by assumption) (p2 : Part.own ∈ ps := by assumption) (p3 :
    Part.counters ∈ ps := by assumption) (p4 : Part.tst ∈ ps := by assumption) : Only ps a (scanEnable s) := by
  simp +contextual only [scanEnable, raise_only, modTst_only, h, p1, p2, p3, p4]

theorem testPortAccess_only (h : Only ps a s) (p1 : Part.evt ∈ ps := by assumption) (p2 : Part.own ∈ ps := by assumption)
    (p3 : Part.counters ∈ ps := by assumption) : Only ps a (testPortAccess x1 s) := by
  simp +contextual only [testPortAccess, raise_only, h, p1, p2, p3]

/-! ### Thermal -/

theorem sensFlag_only (h : Only ps a s) (p1 : Part.evt ∈ ps := by assumption) (p2 : Part.own ∈ ps := by assumption) (p3 :
    Part.counters ∈ ps := by assumption) (p4 : Part.therm ∈ ps := by assumption) : Only ps a (sensFlag x1 x2 s) := by
  simp +contextual only [sensFlag, raise_only, modSens_only, h, p1, p2, p3, p4]

theorem sensCheck_only (h : Only ps a s) (p1 : Part.evt ∈ ps := by assumption) (p2 : Part.own ∈ ps := by assumption) (p3 :
    Part.counters ∈ ps := by assumption) (p4 : Part.therm ∈ ps := by assumption) : Only ps a (sensCheck x1 x2 x3 s) := by
  simp +contextual only [sensCheck, Only_ite, sensFlag_only, modSens_only, h, implies_true, and_self, p1, p2, p3, p4]

theorem setStage_only (h : Only ps a s) (p1 : Part.therm ∈ ps := by assumption) : Only ps a (setStage x1 s) := by
  simp +contextual only [setStage, modTherm_only, h, p1]

theorem mutePass_only (h : Only ps a s) (p1 : Part.evt ∈ ps := by assumption) (p2 : Part.own ∈ ps := by assumption) (p3 :
    Part.lines ∈ ps := by assumption) (p4 : Part.counters ∈ ps := by assumption) (p5 : Part.arb ∈ ps := by assumption) : Only ps
    a (mutePass s) := by
  simp only [mutePass]
  repeat' first
    | (with_reducible first | assumption | apply foldl_only | apply forFin_only | apply muteEnter_only
                            | apply forFin_only | apply arbOffer_only)
    | simp only [only_mk, true_or, or_true, and_self, p1, p2, p3, p4, p5]
    | split
    | dsimp only
    | (with_reducible first | refine only_snd (by assumption) ?_ | refine only_fst (by assumption) ?_)
    | intro

theorem enterMute_only (h : Only ps a s) (p1 : Part.evt ∈ ps := by assumption) (p2 : Part.own ∈ ps := by assumption) (p3 :
    Part.lines ∈ ps := by assumption) (p4 : Part.counters ∈ ps := by assumption) (p5 : Part.therm ∈ ps := by assumption) (p6 :
    Part.arb ∈ ps := by assumption) : Only ps a (enterMute s) := by
  simp only [enterMute]
  repeat' first
    | (with_reducible first | assumption | apply foldl_only | apply forFin_only | apply setStage_only
                            | apply mutePass_only | apply raise_only)

theorem shedNow_only (h : Only ps a s) (p1 : Part.free ∈ ps := by assumption) (p2 : Part.rings ∈ ps := by assumption) (p3 :
    Part.evt ∈ ps := by assumption) (p4 : Part.tlm ∈ ps := by assumption) (p5 : Part.own ∈ ps := by assumption) (p6 : Part.lines
    ∈ ps := by assumption) (p7 : Part.hosts ∈ ps := by assumption) (p8 : Part.ports ∈ ps := by assumption) (p9 : Part.counters ∈
    ps := by assumption) (p10 : Part.mon ∈ ps := by assumption) (p11 : Part.therm ∈ ps := by assumption) (p12 : Part.cal ∈ ps :=
    by assumption) (p13 : Part.arb ∈ ps := by assumption) (p14 : Part.chk ∈ ps := by assumption) (p15 : Part.rst ∈ ps := by
    assumption) (p16 : Part.ocp ∈ ps := by assumption) (p17 : Part.captures ∈ ps := by assumption) : Only ps a (shedNow x1 s) :=
    by
  simp only [shedNow]
  repeat' first
    | (with_reducible first | assumption | apply foldl_only | apply forFin_only | apply setStage_only
                            | apply modTherm_only | apply seqPush_only | apply raise_only)

theorem shedStep_only (h : Only ps a s) (p1 : Part.free ∈ ps := by assumption) (p2 : Part.rings ∈ ps := by assumption) (p3 :
    Part.evt ∈ ps := by assumption) (p4 : Part.tlm ∈ ps := by assumption) (p5 : Part.own ∈ ps := by assumption) (p6 : Part.lines
    ∈ ps := by assumption) (p7 : Part.hosts ∈ ps := by assumption) (p8 : Part.ports ∈ ps := by assumption) (p9 : Part.counters ∈
    ps := by assumption) (p10 : Part.mon ∈ ps := by assumption) (p11 : Part.therm ∈ ps := by assumption) (p12 : Part.cal ∈ ps :=
    by assumption) (p13 : Part.arb ∈ ps := by assumption) (p14 : Part.chk ∈ ps := by assumption) (p15 : Part.rst ∈ ps := by
    assumption) (p16 : Part.ocp ∈ ps := by assumption) (p17 : Part.captures ∈ ps := by assumption) : Only ps a (shedStep s) :=
    by
  simp only [shedStep]
  repeat' first
    | (with_reducible first | assumption | apply foldl_only | apply forFin_only | apply shedNow_only
                            | apply modTherm_only | apply raise_only)
    | simp only [only_mk, true_or, or_true, and_self, p1, p2, p3, p4, p5, p6, p7, p8, p9, p10, p11, p12, p13, p14, p15, p16, p17]
    | split

theorem shedWaited_only (h : Only ps a s) (p1 : Part.free ∈ ps := by assumption) (p2 : Part.rings ∈ ps := by assumption) (p3
    : Part.evt ∈ ps := by assumption) (p4 : Part.tlm ∈ ps := by assumption) (p5 : Part.own ∈ ps := by assumption) (p6 :
    Part.lines ∈ ps := by assumption) (p7 : Part.hosts ∈ ps := by assumption) (p8 : Part.ports ∈ ps := by assumption) (p9 :
    Part.counters ∈ ps := by assumption) (p10 : Part.mon ∈ ps := by assumption) (p11 : Part.therm ∈ ps := by assumption) (p12 :
    Part.cal ∈ ps := by assumption) (p13 : Part.arb ∈ ps := by assumption) (p14 : Part.chk ∈ ps := by assumption) (p15 :
    Part.rst ∈ ps := by assumption) (p16 : Part.ocp ∈ ps := by assumption) (p17 : Part.captures ∈ ps := by assumption) : Only ps
    a (shedWaited s) := by
  simp +contextual only [shedWaited, Only_ite, foldl_only, shedNow_only, modTherm_only, h, implies_true, and_self, p1, p2,
    p3, p4, p5, p6, p7, p8, p9, p10, p11, p12, p13, p14, p15, p16, p17]

theorem liftOver_only (h : Only ps a s) (p1 : Part.therm ∈ ps := by assumption) : Only ps a (liftOver s) := by
  simp +contextual only [liftOver, Only_ite, setStage_only, h, implies_true, and_self, p1]

theorem liftStep_only (h : Only ps a s) (p1 : Part.free ∈ ps := by assumption) (p2 : Part.rings ∈ ps := by assumption) (p3 :
    Part.evt ∈ ps := by assumption) (p4 : Part.tlm ∈ ps := by assumption) (p5 : Part.own ∈ ps := by assumption) (p6 : Part.lines
    ∈ ps := by assumption) (p7 : Part.hosts ∈ ps := by assumption) (p8 : Part.ports ∈ ps := by assumption) (p9 : Part.counters ∈
    ps := by assumption) (p10 : Part.mon ∈ ps := by assumption) (p11 : Part.therm ∈ ps := by assumption) (p12 : Part.cal ∈ ps :=
    by assumption) (p13 : Part.arb ∈ ps := by assumption) (p14 : Part.chk ∈ ps := by assumption) (p15 : Part.rst ∈ ps := by
    assumption) (p16 : Part.ocp ∈ ps := by assumption) (p17 : Part.captures ∈ ps := by assumption) : Only ps a (liftStep s) :=
    by
  simp only [liftStep]
  repeat' first
    | (with_reducible first | assumption | apply foldl_only | apply forFin_only | apply liftOver_only
                            | apply muteLeave_only | apply modTherm_only | apply seqPush_only
                            | apply arbOffer_only)
    | simp only [only_mk, true_or, or_true, and_self, p1, p2, p3, p4, p5, p6, p7, p8, p9, p10, p11, p12, p13, p14, p15, p16, p17]
    | split

theorem timerDue_only (h : Only ps a s) (p1 : Part.free ∈ ps := by assumption) (p2 : Part.rings ∈ ps := by assumption) (p3 :
    Part.evt ∈ ps := by assumption) (p4 : Part.tlm ∈ ps := by assumption) (p5 : Part.own ∈ ps := by assumption) (p6 : Part.lines
    ∈ ps := by assumption) (p7 : Part.hosts ∈ ps := by assumption) (p8 : Part.ports ∈ ps := by assumption) (p9 : Part.counters ∈
    ps := by assumption) (p10 : Part.mon ∈ ps := by assumption) (p11 : Part.therm ∈ ps := by assumption) (p12 : Part.cal ∈ ps :=
    by assumption) (p13 : Part.arb ∈ ps := by assumption) (p14 : Part.chk ∈ ps := by assumption) (p15 : Part.rst ∈ ps := by
    assumption) (p16 : Part.ocp ∈ ps := by assumption) (p17 : Part.captures ∈ ps := by assumption) : Only ps a (timerDue x1 s)
    := by
  simp only [timerDue]
  repeat' first
    | (with_reducible first | assumption | apply foldl_only | apply forFin_only | apply enterMute_only
                            | apply liftStep_only | apply setStage_only | apply shedStep_only)
    | simp only [only_mk, true_or, or_true, and_self, p1, p2, p3, p4, p5, p6, p7, p8, p9, p10, p11, p12, p13, p14, p15, p16, p17]
    | split

theorem timerEnd_only (h : Only ps a s) (p1 : Part.free ∈ ps := by assumption) (p2 : Part.rings ∈ ps := by assumption) (p3 :
    Part.evt ∈ ps := by assumption) (p4 : Part.tlm ∈ ps := by assumption) (p5 : Part.own ∈ ps := by assumption) (p6 : Part.lines
    ∈ ps := by assumption) (p7 : Part.hosts ∈ ps := by assumption) (p8 : Part.ports ∈ ps := by assumption) (p9 : Part.counters ∈
    ps := by assumption) (p10 : Part.mon ∈ ps := by assumption) (p11 : Part.therm ∈ ps := by assumption) (p12 : Part.cal ∈ ps :=
    by assumption) (p13 : Part.arb ∈ ps := by assumption) (p14 : Part.chk ∈ ps := by assumption) (p15 : Part.rst ∈ ps := by
    assumption) (p16 : Part.ocp ∈ ps := by assumption) (p17 : Part.captures ∈ ps := by assumption) : Only ps a (timerEnd x1 s)
    := by
  simp +contextual only [timerEnd, Only_ite, modTherm_only, timerDue_only, h, implies_true, and_self, p1, p2, p3, p4, p5,
    p6, p7, p8, p9, p10, p11, p12, p13, p14, p15, p16, p17]

theorem stageRound_only (h : Only ps a s) (p1 : Part.evt ∈ ps := by assumption) (p2 : Part.own ∈ ps := by assumption) (p3 :
    Part.lines ∈ ps := by assumption) (p4 : Part.counters ∈ ps := by assumption) (p5 : Part.therm ∈ ps := by assumption) (p6 :
    Part.arb ∈ ps := by assumption) : Only ps a (stageRound x1 s) := by
  simp only [stageRound]
  repeat' first
    | (with_reducible first | assumption | apply foldl_only | apply forFin_only | apply liftOver_only
                            | apply enterMute_only | apply setStage_only | apply mutePass_only
                            | apply modTherm_only | apply raise_only)
    | simp only [only_mk, true_or, or_true, and_self, p1, p2, p3, p4, p5, p6]
    | split

theorem compensate_only (h : Only ps a s) (p1 : Part.evt ∈ ps := by assumption) (p2 : Part.own ∈ ps := by assumption) (p3 :
    Part.counters ∈ ps := by assumption) (p4 : Part.therm ∈ ps := by assumption) : Only ps a (compensate s) := by
  simp only [compensate]
  repeat' first
    | (with_reducible first | assumption | apply foldl_only | apply forFin_only | apply modTherm_only
                            | apply raise_only)
    | simp only [only_mk, true_or, or_true, and_self, p1, p2, p3, p4]
    | split
    | dsimp only
    | (with_reducible first | refine only_snd (by assumption) ?_ | refine only_fst (by assumption) ?_)
    | intro

theorem thermalRound_only (h : Only ps a s) (p1 : Part.free ∈ ps := by assumption) (p2 : Part.rings ∈ ps := by assumption)
    (p3 : Part.evt ∈ ps := by assumption) (p4 : Part.tlm ∈ ps := by assumption) (p5 : Part.own ∈ ps := by assumption) (p6 :
    Part.lines ∈ ps := by assumption) (p7 : Part.hosts ∈ ps := by assumption) (p8 : Part.ports ∈ ps := by assumption) (p9 :
    Part.counters ∈ ps := by assumption) (p10 : Part.mon ∈ ps := by assumption) (p11 : Part.therm ∈ ps := by assumption) (p12 :
    Part.cal ∈ ps := by assumption) (p13 : Part.arb ∈ ps := by assumption) (p14 : Part.chk ∈ ps := by assumption) (p15 :
    Part.rst ∈ ps := by assumption) (p16 : Part.ocp ∈ ps := by assumption) (p17 : Part.captures ∈ ps := by assumption) : Only ps
    a (thermalRound x1 s) := by
  simp only [thermalRound]
  repeat' first
    | (with_reducible first | assumption | apply foldl_only | apply forFin_only | apply stageRound_only
                            | apply shedWaited_only | apply compensate_only | apply modTherm_only
                            | apply sensCheck_only | apply raise_only | apply timerDue_only
                            | apply forFin_only)
    | simp only [only_mk, true_or, or_true, and_self, p3, p5, p9, p17]
    | split
    | dsimp only
    | (with_reducible first | refine only_snd (by assumption) ?_ | refine only_fst (by assumption) ?_)
    | intro

theorem roundEnd_only (h : Only ps a s) (p1 : Part.free ∈ ps := by assumption) (p2 : Part.rings ∈ ps := by assumption) (p3 :
    Part.evt ∈ ps := by assumption) (p4 : Part.tlm ∈ ps := by assumption) (p5 : Part.own ∈ ps := by assumption) (p6 : Part.lines
    ∈ ps := by assumption) (p7 : Part.hosts ∈ ps := by assumption) (p8 : Part.ports ∈ ps := by assumption) (p9 : Part.counters ∈
    ps := by assumption) (p10 : Part.mon ∈ ps := by assumption) (p11 : Part.thr ∈ ps := by assumption) (p12 : Part.therm ∈ ps :=
    by assumption) (p13 : Part.cal ∈ ps := by assumption) (p14 : Part.arb ∈ ps := by assumption) (p15 : Part.chk ∈ ps := by
    assumption) (p16 : Part.rst ∈ ps := by assumption) (p17 : Part.ocp ∈ ps := by assumption) (p18 : Part.captures ∈ ps := by
    assumption) : Only ps a (roundEnd x1 x2 s) := by
  simp only [roundEnd]
  repeat' first
    | (with_reducible first | assumption | apply foldl_only | apply forFin_only | apply thermalRound_only
                            | apply calRound_only | apply sensFlag_only | apply roundFinish_only
                            | apply forFin_only)
    | simp only [only_mk, true_or, or_true, and_self, p1, p2, p3, p4, p5, p6, p7, p8, p9, p10, p11, p12, p13, p14, p15, p16, p17, p18]
    | split
    | dsimp only
    | (with_reducible first | refine only_snd (by assumption) ?_ | refine only_fst (by assumption) ?_)
    | intro

theorem actThermConfig_only (h : Only ps a s) (p1 : Part.rings ∈ ps := by assumption) (p2 : Part.evt ∈ ps := by assumption)
    (p3 : Part.own ∈ ps := by assumption) (p4 : Part.counters ∈ ps := by assumption) (p5 : Part.therm ∈ ps := by assumption) :
    Only ps a (actThermConfig x1 s) := by
  simp only [actThermConfig]
  repeat' first
    | (with_reducible first | assumption | apply foldl_only | apply forFin_only | apply done_only
                            | apply modTherm_only)
    | simp only [only_mk, true_or, or_true, and_self, p1, p2, p3, p4, p5]
    | split

theorem actShedOrder_only (h : Only ps a s) (p1 : Part.rings ∈ ps := by assumption) (p2 : Part.evt ∈ ps := by assumption)
    (p3 : Part.own ∈ ps := by assumption) (p4 : Part.counters ∈ ps := by assumption) (p5 : Part.therm ∈ ps := by assumption) :
    Only ps a (actShedOrder x1 s) := by
  simp +contextual only [actShedOrder, done_only, modTherm_only, h, p1, p2, p3, p4, p5]

/-! ### Secure -/

theorem actPatchStage_only (h : Only ps a s) (p1 : Part.rings ∈ ps := by assumption) (p2 : Part.evt ∈ ps := by assumption)
    (p3 : Part.own ∈ ps := by assumption) (p4 : Part.counters ∈ ps := by assumption) (p5 : Part.tst ∈ ps := by assumption) :
    Only ps a (actPatchStage x1 s) := by
  simp +contextual only [actPatchStage, Only_ite, done_only, raise_only, modTst_only, refuse_only, h, implies_true,
    and_self, p1, p2, p3, p4, p5]

theorem actOwnerKey_only (h : Only ps a s) (p1 : Part.rings ∈ ps := by assumption) (p2 : Part.evt ∈ ps := by assumption) (p3
    : Part.own ∈ ps := by assumption) (p4 : Part.counters ∈ ps := by assumption) (p5 : Part.tst ∈ ps := by assumption) : Only ps
    a (actOwnerKey x1 s) := by
  simp only [actOwnerKey]
  repeat' first
    | (with_reducible first | assumption | apply foldl_only | apply forFin_only | apply done_only
                            | apply raise_only | apply modTst_only | apply refuse_only)
    | simp only [only_mk, true_or, or_true, and_self, p1, p2, p3, p4, p5]
    | split

theorem actAttest_only (h : Only ps a s) (p1 : Part.free ∈ ps := by assumption) (p2 : Part.rings ∈ ps := by assumption) (p3
    : Part.evt ∈ ps := by assumption) (p4 : Part.tlm ∈ ps := by assumption) (p5 : Part.own ∈ ps := by assumption) (p6 :
    Part.counters ∈ ps := by assumption) : Only ps a (actAttest x1 s) := by
  simp only [actAttest]
  repeat' first
    | (with_reducible first | assumption | apply foldl_only | apply forFin_only | apply done_only
                            | apply tlmFormId_only | apply draw_only | apply raise_only
                            | apply refuse_only)
    | simp only [only_mk, true_or, or_true, and_self, p1, p2, p3, p4, p5, p6]
    | split

theorem bankWordLost_only (h : Only ps a s) (p1 : Part.free ∈ ps := by assumption) (p2 : Part.lines ∈ ps := by assumption)
    (p3 : Part.hosts ∈ ps := by assumption) (p4 : Part.ports ∈ ps := by assumption) : Only ps a (bankWordLost s) := by
  simp only [bankWordLost]
  repeat' first
    | (with_reducible first | assumption | apply foldl_only | apply forFin_only | apply modPort_only
                            | apply modLine_only | apply modHost_only | apply draw_only)
    | simp only [only_mk, true_or, or_true, and_self, p1, p2, p3, p4]
    | split

theorem cadenceWordLost_only (h : Only ps a s) (p1 : Part.rings ∈ ps := by assumption) (p2 : Part.evt ∈ ps := by assumption)
    (p3 : Part.cad ∈ ps := by assumption) (p4 : Part.own ∈ ps := by assumption) (p5 : Part.ports ∈ ps := by assumption) (p6 :
    Part.counters ∈ ps := by assumption) : Only ps a (cadenceWordLost x1 s) := by
  simp +contextual only [cadenceWordLost, Only_ite, freeSlot_only, treeLost_only, h, implies_true, and_self, p1, p2, p3, p4,
    p5, p6]

theorem eventWordLost_only (h : Only ps a s) (p1 : Part.free ∈ ps := by assumption) (p2 : Part.evt ∈ ps := by assumption) :
    Only ps a (eventWordLost s) := by
  simp +contextual only [eventWordLost, only_mk, draw_only, h, true_or, or_true, p1, p2]

theorem secureWordLost_only (h : Only ps a s) (p1 : Part.free ∈ ps := by assumption) (p2 : Part.evt ∈ ps := by assumption)
    (p3 : Part.own ∈ ps := by assumption) (p4 : Part.counters ∈ ps := by assumption) (p5 : Part.tst ∈ ps := by assumption) :
    Only ps a (secureWordLost s) := by
  simp only [secureWordLost]
  repeat' first
    | (with_reducible first | assumption | apply foldl_only | apply forFin_only | apply draw_only
                            | apply raise_only | apply modTst_only)

/-! ### Clocks -/

theorem txRefLost_only (h : Only ps a s) (p1 : Part.lines ∈ ps := by assumption) : Only ps a (txRefLost x1 s) := by
  simp +contextual only [txRefLost, modTx_only, h, p1]

theorem rxRefLost_only (h : Only ps a s) (p1 : Part.evt ∈ ps := by assumption) (p2 : Part.own ∈ ps := by assumption) (p3 :
    Part.lines ∈ ps := by assumption) (p4 : Part.counters ∈ ps := by assumption) (p5 : Part.arb ∈ ps := by assumption) : Only ps
    a (rxRefLost x1 s) := by
  simp +contextual only [rxRefLost, Only_ite, enterDark_only, h, implies_true, and_self, p1, p2, p3, p4, p5]

theorem hostRefLost_only (h : Only ps a s) (p1 : Part.hosts ∈ ps := by assumption) : Only ps a (hostRefLost x1 s) := by
  simp +contextual only [hostRefLost, Only_ite, hostIdle_only, h, implies_true, and_self, p1]

theorem cadRefLost_only (h : Only ps a s) (p1 : Part.evt ∈ ps := by assumption) (p2 : Part.cad ∈ ps := by assumption) (p3 :
    Part.own ∈ ps := by assumption) (p4 : Part.ports ∈ ps := by assumption) (p5 : Part.counters ∈ ps := by assumption) : Only ps
    a (cadRefLost s) := by
  simp +contextual only [cadRefLost, Only_ite, modCad_only, enterHoldover_only, h, implies_true, and_self, p1, p2, p3, p4,
    p5]

theorem refclkLost_only (h : Only ps a s) (p1 : Part.free ∈ ps := by assumption) (p2 : Part.out ∈ ps := by assumption) (p3 :
    Part.refClock ∈ ps := by assumption) (p4 : Part.rings ∈ ps := by assumption) (p5 : Part.evt ∈ ps := by assumption) (p6 :
    Part.tlm ∈ ps := by assumption) (p7 : Part.cad ∈ ps := by assumption) (p8 : Part.own ∈ ps := by assumption) (p9 : Part.lines
    ∈ ps := by assumption) (p10 : Part.hosts ∈ ps := by assumption) (p11 : Part.ports ∈ ps := by assumption) (p12 :
    Part.counters ∈ ps := by assumption) (p13 : Part.mon ∈ ps := by assumption) (p14 : Part.therm ∈ ps := by assumption) (p15 :
    Part.cal ∈ ps := by assumption) (p16 : Part.arb ∈ ps := by assumption) (p17 : Part.chk ∈ ps := by assumption) (p18 :
    Part.tst ∈ ps := by assumption) (p19 : Part.rst ∈ ps := by assumption) (p20 : Part.ocp ∈ ps := by assumption) (p21 :
    Part.captures ∈ ps := by assumption) : Only ps a (refclkLost s) := by
  simp only [refclkLost]
  repeat' first
    | (with_reducible first | assumption | apply foldl_only | apply forFin_only | apply pllStep_only
                            | apply hostRefLost_only | apply rxRefLost_only | apply raise_only
                            | apply forFin_only | apply txRefLost_only | apply cadRefLost_only)
    | simp only [only_mk, true_or, or_true, and_self, p1, p2, p3, p4, p5, p6, p7, p8, p9, p10, p11, p12, p13, p14, p15, p16, p17, p18, p19, p20, p21]
    | split
    | dsimp only
    | (with_reducible first | refine only_snd (by assumption) ?_ | refine only_fst (by assumption) ?_)
    | intro

theorem rxRefBack_only (h : Only ps a s) (p1 : Part.out ∈ ps := by assumption) (p2 : Part.evt ∈ ps := by assumption) (p3 :
    Part.own ∈ ps := by assumption) (p4 : Part.lines ∈ ps := by assumption) (p5 : Part.counters ∈ ps := by assumption) (p6 :
    Part.ocp ∈ ps := by assumption) : Only ps a (rxRefBack x1 s) := by
  simp +contextual only [rxRefBack, Only_ite, outageStart_only, leaveDark_only, h, implies_true, and_self, p1, p2, p3, p4,
    p5, p6]

theorem hostRefBack_only (h : Only ps a s) (p1 : Part.hosts ∈ ps := by assumption) : Only ps a (hostRefBack x1 s) := by
  simp +contextual only [hostRefBack, Only_ite, hostLeaveIdle_only, h, implies_true, and_self, p1]

theorem refclkRestored_only (h : Only ps a s) (p1 : Part.free ∈ ps := by assumption) (p2 : Part.out ∈ ps := by assumption)
    (p3 : Part.refClock ∈ ps := by assumption) (p4 : Part.rings ∈ ps := by assumption) (p5 : Part.evt ∈ ps := by assumption) (p6
    : Part.tlm ∈ ps := by assumption) (p7 : Part.cad ∈ ps := by assumption) (p8 : Part.own ∈ ps := by assumption) (p9 :
    Part.lines ∈ ps := by assumption) (p10 : Part.hosts ∈ ps := by assumption) (p11 : Part.counters ∈ ps := by assumption) (p12
    : Part.mon ∈ ps := by assumption) (p13 : Part.therm ∈ ps := by assumption) (p14 : Part.ocp ∈ ps := by assumption) : Only ps
    a (refclkRestored s) := by
  simp only [refclkRestored]
  repeat' first
    | (with_reducible first | assumption | apply foldl_only | apply forFin_only | apply lanesMayLeave_only
                            | apply freeBeatStart_only | apply bandsChoose_only | apply rxRefBack_only
                            | apply raise_only | apply hostRefBack_only | apply forFin_only)
    | simp only [only_mk, true_or, or_true, and_self, p1, p2, p3, p4, p5, p6, p7, p8, p9, p10, p11, p12, p13, p14]
    | split
    | dsimp only
    | (with_reducible first | refine only_snd (by assumption) ?_ | refine only_fst (by assumption) ?_)
    | intro

/-! ### RegDev -/

theorem setLatches_only (h : Only ps a s) (p1 : Part.latches ∈ ps := by assumption) : Only ps a (setLatches x1 x2 s) := by
  simp only [setLatches]
  repeat' first
    | (with_reducible first | assumption | apply foldl_only | apply forFin_only)
    | simp only [only_mk, true_or, or_true, p1]
    | split

theorem rdataRead_only (h : Only ps a s) (p1 : Part.free ∈ ps := by assumption) (p2 : Part.setup ∈ ps := by assumption) :
    Only ps a (rdataRead x1 s).2 := by
  unfold rdataRead
  extract_lets +onlyGivenNames b next
  have hn : ∀ {x : State}, Only ps a x → Only ps a (next x) := fun hx => regSet_only hx
  split
  · exact hn h
  split
  · exact hn h
  · exact hn (draw_only h)

theorem readWord_only (h : Only ps a s) (p1 : Part.free ∈ ps := by assumption) (p2 : Part.setup ∈ ps := by assumption) (p3 :
    Part.latches ∈ ps := by assumption) : Only ps a (readWord x1 x2 s).2 := by
  simp only [readWord]
  repeat' first
    | (with_reducible first | assumption | apply foldl_only | apply forFin_only | apply rdataRead_only
                            | apply setLatches_only)
    | simp only []
    | split

/-! ### Access -/

theorem lockWrite_only (h : Only ps a s) (p1 : Part.setup ∈ ps := by assumption) : Only ps a (lockWrite x1 s) := by
  simp +contextual only [lockWrite, Only_ite, regSet_only, h, implies_true, and_self, p1]

theorem histW1c_only (h : Only ps a s) (p1 : Part.ports ∈ ps := by assumption) : Only ps a (histW1c x1 x2 x3 s) := by
  simp +contextual only [histW1c, modPort_only, h, p1]

theorem actionWrite_only (h : Only ps a s) (p1 : Part.lines ∈ ps := by assumption) (p2 : Part.hosts ∈ ps := by assumption)
    (p3 : Part.ports ∈ ps := by assumption) (p4 : Part.counters ∈ ps := by assumption) (p5 : Part.rst ∈ ps := by assumption) :
    Only ps a (actionWrite x1 x2 s) := by
  simp only [actionWrite]
  repeat' first
    | (with_reducible first | assumption | apply foldl_only | apply forFin_only | apply lineCapture_only
                            | apply modRst_only | apply histW1c_only | apply hostCapture_only)
    | simp only [only_mk, true_or, or_true, p1, p2, p3, p4, p5]
    | split

theorem writeWord_only (h : Only ps a s) (p1 : Part.out ∈ ps := by assumption) (p2 : Part.setup ∈ ps := by assumption) (p3 :
    Part.viol ∈ ps := by assumption) (p4 : Part.pcie ∈ ps := by assumption) (p5 : Part.rings ∈ ps := by assumption) (p6 :
    Part.evt ∈ ps := by assumption) (p7 : Part.tlm ∈ ps := by assumption) (p8 : Part.own ∈ ps := by assumption) (p9 : Part.lines
    ∈ ps := by assumption) (p10 : Part.hosts ∈ ps := by assumption) (p11 : Part.ports ∈ ps := by assumption) (p12 :
    Part.counters ∈ ps := by assumption) (p13 : Part.mon ∈ ps := by assumption) (p14 : Part.rst ∈ ps := by assumption) : Only ps
    a (writeWord x1 x2 s) := by
  simp only [writeWord]
  repeat' first
    | (with_reducible first | assumption | apply foldl_only | apply forFin_only | apply msixFlush_only
                            | apply lockWrite_only | apply tlmOffer_only | apply actionWrite_only
                            | apply writeRingCfg_only | apply writeSetup_only)
    | simp only [only_mk, true_or, or_true, and_self, p1, p2, p3, p4, p5, p6, p7, p8, p9, p10, p11, p12, p13, p14]
    | split

theorem hostWriteReg_only (h : Only ps a s) (p1 : Part.out ∈ ps := by assumption) (p2 : Part.setup ∈ ps := by assumption)
    (p3 : Part.viol ∈ ps := by assumption) (p4 : Part.pcie ∈ ps := by assumption) (p5 : Part.rings ∈ ps := by assumption) (p6 :
    Part.evt ∈ ps := by assumption) (p7 : Part.tlm ∈ ps := by assumption) (p8 : Part.own ∈ ps := by assumption) (p9 : Part.lines
    ∈ ps := by assumption) (p10 : Part.hosts ∈ ps := by assumption) (p11 : Part.ports ∈ ps := by assumption) (p12 :
    Part.counters ∈ ps := by assumption) (p13 : Part.mon ∈ ps := by assumption) (p14 : Part.rst ∈ ps := by assumption) : Only ps
    a (hostWriteReg x1 x2 x3 x4 s) := by
  simp +contextual only [hostWriteReg, Only_ite, writeWord_only, h, implies_true, and_self, p1, p2, p3, p4, p5, p6, p7, p8,
    p9, p10, p11, p12, p13, p14]

theorem hostReadReg_only (h : Only ps a s) (p1 : Part.free ∈ ps := by assumption) (p2 : Part.out ∈ ps := by assumption) (p3
    : Part.setup ∈ ps := by assumption) (p4 : Part.latches ∈ ps := by assumption) : Only ps a (hostReadReg x1 x2 s) := by
  simp +contextual only [hostReadReg, Only_ite, readWord_only, emit_only, h, implies_true, and_self, p1, p2, p3, p4]

theorem wireError_only (h : Only ps a s) (p1 : Part.evt ∈ ps := by assumption) (p2 : Part.own ∈ ps := by assumption) (p3 :
    Part.counters ∈ ps := by assumption) : Only ps a (wireError x1 s) := by
  simp +contextual only [wireError, raise_only, h, p1, p2, p3]

theorem wireWriteFrom_only {a : State} {ps : List Part} : ∀ {b : Nat} {l : List Byte} {s : State} (_ : Only ps a s) (p1 :
    Part.out ∈ ps := by assumption) (p2 : Part.setup ∈ ps := by assumption) (p3 : Part.viol ∈ ps := by assumption) (p4 :
    Part.pcie ∈ ps := by assumption) (p5 : Part.rings ∈ ps := by assumption) (p6 : Part.evt ∈ ps := by assumption) (p7 :
    Part.tlm ∈ ps := by assumption) (p8 : Part.lmem ∈ ps := by assumption) (p9 : Part.own ∈ ps := by assumption) (p10 :
    Part.lines ∈ ps := by assumption) (p11 : Part.hosts ∈ ps := by assumption) (p12 : Part.ports ∈ ps := by assumption) (p13 :
    Part.counters ∈ ps := by assumption) (p14 : Part.mon ∈ ps := by assumption) (p15 : Part.rst ∈ ps := by assumption), Only
    ps a (wireWriteFrom b l s)
  | _, [], _, h, p1, p2, p3, p4, p5, p6, p7, p8, p9, p10, p11, p12, p13, p14, p15 => h
  | b, b0 :: t, s, h, p1, p2, p3, p4, p5, p6, p7, p8, p9, p10, p11, p12, p13, p14, p15 => by
    rw [wireWriteFrom.eq_def]
    dsimp only
    split
    · exact wireWriteFrom_only h
    · refine wireWriteFrom_only ?_
      split
      · exact h
      · exact lmem_only h
    · split
      · refine wireWriteFrom_only ?_
        split
        · exact writeWord_only h
        · exact doorbellWrite_only h
      · exact wireError_only h

theorem wireWrite_only (h : Only ps a s) (p1 : Part.out ∈ ps := by assumption) (p2 : Part.setup ∈ ps := by assumption) (p3 :
    Part.viol ∈ ps := by assumption) (p4 : Part.pcie ∈ ps := by assumption) (p5 : Part.rings ∈ ps := by assumption) (p6 :
    Part.evt ∈ ps := by assumption) (p7 : Part.tlm ∈ ps := by assumption) (p8 : Part.lmem ∈ ps := by assumption) (p9 : Part.own
    ∈ ps := by assumption) (p10 : Part.lines ∈ ps := by assumption) (p11 : Part.hosts ∈ ps := by assumption) (p12 : Part.ports ∈
    ps := by assumption) (p13 : Part.counters ∈ ps := by assumption) (p14 : Part.mon ∈ ps := by assumption) (p15 : Part.rst ∈ ps
    := by assumption) : Only ps a (wireWrite x1 x2 s) := by
  simp only [wireWrite]
  repeat' first
    | (with_reducible first | assumption | apply foldl_only | apply forFin_only | apply wireWriteFrom_only
                            | apply wireError_only)
    | simp only [only_mk, true_or, or_true, and_self, p1, p2, p3, p4, p5, p6, p7, p8, p9, p10, p11, p12, p13, p14, p15]
    | split

theorem wireReadFrom_only {a : State} {ps : List Part} : ∀ {f b n : Nat} {s : State} (_ : Only ps a s) (p1 : Part.free ∈
    ps := by assumption) (p2 : Part.setup ∈ ps := by assumption) (p3 : Part.latches ∈ ps := by assumption) (p4 : Part.evt ∈ ps
    := by assumption) (p5 : Part.own ∈ ps := by assumption) (p6 : Part.counters ∈ ps := by assumption), Only ps a
    (wireReadFrom f b n s).2
  | 0, _, _, _, h, p1, p2, p3, p4, p5, p6 => h
  | f + 1, b, n, s, h, p1, p2, p3, p4, p5, p6 => by
    rw [wireReadFrom]
    split
    · exact h
    split
    · exact wireReadFrom_only h
    · exact wireReadFrom_only h
    · split
      · exact wireError_only h
      · refine wireReadFrom_only ?_
        split
        · exact readWord_only h
        · exact h

theorem wireRead_only (h : Only ps a s) (p1 : Part.free ∈ ps := by assumption) (p2 : Part.out ∈ ps := by assumption) (p3 :
    Part.setup ∈ ps := by assumption) (p4 : Part.latches ∈ ps := by assumption) (p5 : Part.evt ∈ ps := by assumption) (p6 :
    Part.own ∈ ps := by assumption) (p7 : Part.counters ∈ ps := by assumption) : Only ps a (wireRead x1 x2 s) := by
  simp only [wireRead]
  repeat' first
    | (with_reducible first | assumption | apply foldl_only | apply forFin_only | apply wireError_only
                            | apply wireReadFrom_only | apply emit_only)
    | simp only [only_mk, true_or, or_true, and_self, p1, p2, p3, p4, p5, p6, p7]
    | split

/-! ### Attach -/

theorem linkLost_only (h : Only ps a s) (p1 : Part.pcie ∈ ps := by assumption) : Only ps a (linkLost s) := by
  simp +contextual only [linkLost, only_mk, h, true_or, or_true, p1]

theorem linkBack_only (h : Only ps a s) (p1 : Part.out ∈ ps := by assumption) (p2 : Part.pcie ∈ ps := by assumption) : Only
    ps a (linkBack x1 s) := by
  simp +contextual only [linkBack, Only_ite, only_mk, msixFlush_only, h, implies_true, true_or, or_true, and_self, p1, p2]

theorem configWrite_only (h : Only ps a s) (p1 : Part.out ∈ ps := by assumption) (p2 : Part.pcie ∈ ps := by assumption) :
    Only ps a (configWrite x1 x2 x3 x4 x5 s) := by
  simp +contextual only [configWrite, Only_ite, only_mk, msixFlush_only, h, implies_true, true_or, or_true, and_self, p1,
    p2]

end Sys2Proof.Machine
end

