-- ==== Sys2Proof/Laws/OnlyCommands.lean ====
section
/-! SUPPORT. `Only` for every operation of control commands, the scheduler and the tick that does not reach every part. -/

-- One proof after another: the package is compiled as one text, where proofs side by side take too much memory.
set_option Elab.async false

namespace Sys2Proof.Machine

open Sys2Proof

/-! ### CmdService -/

theorem actQueryCmd_only (h : Only ps a s) (p1 : Part.rings ∈ ps := by assumption) (p2 : Part.evt ∈ ps := by assumption) (p3
    : Part.own ∈ ps := by assumption) (p4 : Part.counters ∈ ps := by assumption) : Only ps a (actQueryCmd x1 s) := by
  simp only [actQueryCmd]
  repeat' first
    | (with_reducible first | assumption | apply foldl_only | apply forFin_only | apply done_only
                            | apply refuse_only)
    | simp only [only_mk, true_or, or_true, and_self, p1, p2, p3, p4]
    | split

theorem actTelemRefetch_only (h : Only ps a s) (p1 : Part.rings ∈ ps := by assumption) (p2 : Part.evt ∈ ps := by assumption)
    (p3 : Part.tlm ∈ ps := by assumption) (p4 : Part.own ∈ ps := by assumption) (p5 : Part.counters ∈ ps := by assumption) :
    Only ps a (actTelemRefetch x1 s) := by
  simp +contextual only [actTelemRefetch, only_mk, done_only, h, true_or, or_true, p1, p2, p3, p4, p5]

theorem actEventMask_only (h : Only ps a s) (p1 : Part.rings ∈ ps := by assumption) (p2 : Part.evt ∈ ps := by assumption)
    (p3 : Part.own ∈ ps := by assumption) (p4 : Part.counters ∈ ps := by assumption) : Only ps a (actEventMask x1 s) := by
  simp +contextual only [actEventMask, only_mk, done_only, h, true_or, or_true, p1, p2, p3, p4]

theorem actEventLogRead_only (h : Only ps a s) (p1 : Part.out ∈ ps := by assumption) (p2 : Part.rings ∈ ps := by assumption)
    (p3 : Part.evt ∈ ps := by assumption) (p4 : Part.lmem ∈ ps := by assumption) (p5 : Part.own ∈ ps := by assumption) (p6 :
    Part.counters ∈ ps := by assumption) : Only ps a (actEventLogRead x1 s) := by
  unfold actEventLogRead
  split
  · exact refuse_only h
  · simp only [Only_ite]
    exact ⟨fun _ => done_only (lmem_only h), fun _ => ⟨fun _ => done_only (emit_only h), fun _ => refuse_only h⟩⟩

theorem actOcpXfer_only (h : Only ps a s) (p1 : Part.out ∈ ps := by assumption) (p2 : Part.lines ∈ ps := by assumption) (p3
    : Part.ocp ∈ ps := by assumption) : Only ps a (actOcpXfer x1 s) := by
  simp +contextual only [actOcpXfer, ocpPush_only, h, p1, p2, p3]

/-! ### CmdCadence -/

theorem actSchedInstall_only (h : Only ps a s) (p1 : Part.rings ∈ ps := by assumption) (p2 : Part.evt ∈ ps := by assumption)
    (p3 : Part.cad ∈ ps := by assumption) (p4 : Part.own ∈ ps := by assumption) (p5 : Part.counters ∈ ps := by assumption) :
    Only ps a (actSchedInstall x1 s) := by
  simp only [actSchedInstall]
  generalize slotFirst s _ = y
  cases y with
  | none => exact refuse_only h
  | some y =>
    dsimp only [Option.elim]
    split
    · exact refuse_only h
    · exact answer_only (putSlot_only h)

theorem actSchedFree_only (h : Only ps a s) (p1 : Part.free ∈ ps := by assumption) (p2 : Part.rings ∈ ps := by assumption)
    (p3 : Part.evt ∈ ps := by assumption) (p4 : Part.cad ∈ ps := by assumption) (p5 : Part.own ∈ ps := by assumption) (p6 :
    Part.counters ∈ ps := by assumption) : Only ps a (actSchedFree x1 s) := by
  simp only [actSchedFree]
  repeat' first
    | (with_reducible first | assumption | apply foldl_only | apply forFin_only | apply done_only
                            | apply freeSlot_only | apply draw_only)
    | simp only [only_mk, true_or, or_true, and_self, p1, p2, p3, p4, p5, p6]
    | split
    | dsimp only
    | (with_reducible first | refine only_snd (by assumption) ?_ | refine only_fst (by assumption) ?_)
    | intro

theorem actDomSchedule_only (h : Only ps a s) (p1 : Part.out ∈ ps := by assumption) (p2 : Part.rings ∈ ps := by assumption)
    (p3 : Part.evt ∈ ps := by assumption) (p4 : Part.cad ∈ ps := by assumption) (p5 : Part.own ∈ ps := by assumption) (p6 :
    Part.counters ∈ ps := by assumption) : Only ps a (actDomSchedule x1 s) := by
  simp only [actDomSchedule]
  repeat' first
    | (with_reducible first | assumption | apply foldl_only | apply forFin_only | apply answer_only
                            | apply domTake_only | apply broadcast_only | apply refuse_only)
    | simp only [only_mk, true_or, or_true, and_self, p1, p2, p3, p4, p5, p6]
    | split

theorem actDomCancel_only (h : Only ps a s) (p1 : Part.out ∈ ps := by assumption) (p2 : Part.rings ∈ ps := by assumption)
    (p3 : Part.evt ∈ ps := by assumption) (p4 : Part.cad ∈ ps := by assumption) (p5 : Part.own ∈ ps := by assumption) (p6 :
    Part.counters ∈ ps := by assumption) : Only ps a (actDomCancel x1 s) := by
  simp only [actDomCancel]
  repeat' first
    | (with_reducible first | assumption | apply foldl_only | apply forFin_only | apply done_only
                            | apply domFree_only | apply broadcast_only)

theorem actEnumerate_only (h : Only ps a s) (p1 : Part.free ∈ ps := by assumption) (p2 : Part.out ∈ ps := by assumption) (p3
    : Part.rings ∈ ps := by assumption) (p4 : Part.evt ∈ ps := by assumption) (p5 : Part.cad ∈ ps := by assumption) (p6 :
    Part.own ∈ ps := by assumption) (p7 : Part.counters ∈ ps := by assumption) : Only ps a (actEnumerate x1 s) := by
  simp +contextual only [actEnumerate, startEnum_only, h, p1, p2, p3, p4, p5, p6, p7]

theorem timedInstall_only (h : Only ps a s) (p1 : Part.rings ∈ ps := by assumption) (p2 : Part.evt ∈ ps := by assumption)
    (p3 : Part.cad ∈ ps := by assumption) (p4 : Part.own ∈ ps := by assumption) (p5 : Part.counters ∈ ps := by assumption) :
    Only ps a (timedInstall x1 x2 s) := by
  simp only [timedInstall]
  generalize slotFirst s _ = y
  cases y with
  | none => exact refuse_only h
  | some y =>
    dsimp only [Option.elim]
    split
    · exact refuse_only h
    · exact answer_only (putSlot_only h)

/-! ### CmdLane -/

theorem actLaneAcquire_only (h : Only ps a s) (p1 : Part.rings ∈ ps := by assumption) (p2 : Part.evt ∈ ps := by assumption)
    (p3 : Part.own ∈ ps := by assumption) (p4 : Part.lines ∈ ps := by assumption) (p5 : Part.hosts ∈ ps := by assumption) (p6 :
    Part.counters ∈ ps := by assumption) : Only ps a (actLaneAcquire x1 s) := by
  simp only [actLaneAcquire]
  repeat' first
    | (with_reducible first | assumption | apply foldl_only | apply forFin_only | apply done_only
                            | apply hostCold_only | apply lineCold_only)
    | simp only [only_mk, true_or, or_true, and_self, p1, p2, p3, p4, p5, p6]
    | split

theorem trainStart_only (h : Only ps a s) (p1 : Part.rings ∈ ps := by assumption) (p2 : Part.evt ∈ ps := by assumption) (p3
    : Part.own ∈ ps := by assumption) (p4 : Part.lines ∈ ps := by assumption) (p5 : Part.counters ∈ ps := by assumption) (p6 :
    Part.arb ∈ ps := by assumption) : Only ps a (trainStart x1 x2 s).1 := by
  simp only [trainStart]
  repeat' first
    | (with_reducible first | assumption | apply foldl_only | apply forFin_only | apply modTx_only
                            | apply refuseO_only | apply answer_only | apply trnBegin_only
                            | apply arbRefuse_only)
    | simp only []
    | split

theorem actTrainStart_only (h : Only ps a s) (p1 : Part.rings ∈ ps := by assumption) (p2 : Part.evt ∈ ps := by assumption)
    (p3 : Part.own ∈ ps := by assumption) (p4 : Part.lines ∈ ps := by assumption) (p5 : Part.counters ∈ ps := by assumption) (p6
    : Part.arb ∈ ps := by assumption) : Only ps a (actTrainStart x1 s).1 := by
  simp only [actTrainStart]
  repeat' first
    | (with_reducible first | assumption | apply foldl_only | apply forFin_only | apply trainStart_only)
    | simp only [only_mk, true_or, or_true, and_self, p1, p2, p3, p4, p5, p6]
    | split

theorem actLatMeasure_only (h : Only ps a s) (p1 : Part.free ∈ ps := by assumption) (p2 : Part.rings ∈ ps := by assumption)
    (p3 : Part.evt ∈ ps := by assumption) (p4 : Part.own ∈ ps := by assumption) (p5 : Part.lines ∈ ps := by assumption) (p6 :
    Part.ports ∈ ps := by assumption) (p7 : Part.counters ∈ ps := by assumption) : Only ps a (actLatMeasure x1 s) := by
  simp only [actLatMeasure]
  repeat' first
    | (with_reducible first | assumption | apply foldl_only | apply forFin_only | apply modPort_only
                            | apply modFr_only | apply latDone_only)
    | simp only [only_mk, true_or, or_true, and_self, p1, p2, p3, p4, p5, p6, p7]
    | split
    | dsimp only
    | (with_reducible first | refine only_snd (by assumption) ?_ | refine only_fst (by assumption) ?_)
    | intro

theorem actHostMsg_only (h : Only ps a s) (p1 : Part.rings ∈ ps := by assumption) (p2 : Part.evt ∈ ps := by assumption) (p3
    : Part.own ∈ ps := by assumption) (p4 : Part.lines ∈ ps := by assumption) (p5 : Part.counters ∈ ps := by assumption) : Only
    ps a (actHostMsg x1 s) := by
  simp only [actHostMsg]
  repeat' first
    | (with_reducible first | assumption | apply foldl_only | apply forFin_only | apply sendNext_only
                            | apply modFr_only | apply refuse_only)
    | simp only [only_mk, true_or, or_true, and_self, p1, p2, p3, p4, p5]
    | split

/-! ### Commands -/

theorem orConflict_only {r : State × Bool} (h : Only ps a r.1) (p1 : Part.rings ∈ ps := by assumption) (p2 : Part.evt ∈ ps
    := by assumption) (p3 : Part.own ∈ ps := by assumption) (p4 : Part.counters ∈ ps := by assumption) :
    Only ps a (orConflict c r) := by
  unfold orConflict
  split
  · exact refuse_only h
  · exact h

theorem hostOffer_only (h : Only ps a s) (hr : Only ps a x3.1) (p1 : Part.rings ∈ ps := by assumption) (p2 : Part.evt ∈ ps
    := by assumption) (p3 : Part.own ∈ ps := by assumption) (p4 : Part.counters ∈ ps := by assumption) (p5 : Part.arb ∈ ps :=
    by assumption) :
    Only ps a (hostOffer x1 x2 s x3) := by
  unfold hostOffer
  split
  · exact refuse_only (arbRefuse_only h)
  · exact orConflict_only hr

theorem cmdOpen_only (h : Only ps a s) (p1 : Part.rings ∈ ps := by assumption) : Only ps a (cmdOpen x1 s) := by
  simp +contextual only [cmdOpen, modRings_only, h, p1]

theorem imageDraw_only (h : Only ps a s) (p1 : Part.free ∈ ps := by assumption) : Only ps a (imageDraw x1 s).2 := by
  simp only [imageDraw]
  repeat' first
    | (with_reducible first | assumption | apply foldl_only | apply forFin_only | apply draw_only)
    | simp only [only_mk, true_or, or_true, and_self, p1]
    | split

/-! ### Schedule -/

theorem trainSlot_only (h : Only ps a s) (p1 : Part.rings ∈ ps := by assumption) (p2 : Part.evt ∈ ps := by assumption) (p3 :
    Part.own ∈ ps := by assumption) (p4 : Part.lines ∈ ps := by assumption) (p5 : Part.counters ∈ ps := by assumption) (p6 :
    Part.arb ∈ ps := by assumption) : Only ps a (trainSlot x1 s).1 := by
  simp only [trainSlot]
  repeat' first
    | (with_reducible first | assumption | apply foldl_only | apply forFin_only | apply refuseO_only
                            | apply trainStart_only)
    | simp only [only_mk, true_or, or_true, and_self, p1, p2, p3, p4, p5, p6]
    | split
    | dsimp only
    | (with_reducible first | refine only_snd (by assumption) ?_ | refine only_fst (by assumption) ?_)
    | intro

theorem syncSlot_only (h : Only ps a s) (p1 : Part.rings ∈ ps := by assumption) (p2 : Part.evt ∈ ps := by assumption) (p3 :
    Part.own ∈ ps := by assumption) (p4 : Part.counters ∈ ps := by assumption) (p5 : Part.mon ∈ ps := by assumption) : Only ps a
    (syncSlot x1 s) := by
  simp only [syncSlot]
  repeat' first
    | (with_reducible first | assumption | apply foldl_only | apply forFin_only | apply refuseO_only
                            | apply doneO_only | apply syncMons_only | apply answer_only)
    | simp only [only_mk, true_or, or_true, and_self, p1, p2, p3, p4, p5]
    | split

theorem beatPulse_only (h : Only ps a s) (p1 : Part.out ∈ ps := by assumption) : Only ps a (beatPulse s) := by
  simp +contextual only [beatPulse, emit_only, h, p1]

theorem windowClose_only (h : Only ps a s) (p1 : Part.cad ∈ ps := by assumption) (p2 : Part.own ∈ ps := by assumption) :
    Only ps a (windowClose x1 s) := by
  simp only [windowClose]
  repeat' first
    | (with_reducible first | assumption | apply foldl_only | apply forFin_only | apply slotAdvance_only)
    | simp only [only_mk, true_or, or_true, and_self, p1, p2]
    | split

theorem deferralDropped_only (h : Only ps a s) (p1 : Part.rings ∈ ps := by assumption) (p2 : Part.evt ∈ ps := by assumption)
    (p3 : Part.cad ∈ ps := by assumption) (p4 : Part.own ∈ ps := by assumption) (p5 : Part.counters ∈ ps := by assumption) :
    Only ps a (deferralDropped x1 s) := by
  simp only [deferralDropped]
  repeat' first
    | (with_reducible first | assumption | apply foldl_only | apply forFin_only | apply refuseO_only
                            | apply slotAdvance_only | apply raise_only)
    | simp only [only_mk, true_or, or_true, and_self, p1, p2, p3, p4, p5]
    | split

/-! ### Tick -/

theorem cadenceTick_only (h : Only ps a s) (p1 : Part.free ∈ ps := by assumption) (p2 : Part.out ∈ ps := by assumption) (p3
    : Part.rings ∈ ps := by assumption) (p4 : Part.evt ∈ ps := by assumption) (p5 : Part.tlm ∈ ps := by assumption) (p6 :
    Part.cad ∈ ps := by assumption) (p7 : Part.own ∈ ps := by assumption) (p8 : Part.counters ∈ ps := by assumption) (p9 :
    Part.mon ∈ ps := by assumption) : Only ps a (cadenceTick s) := by
  simp only [cadenceTick]
  repeat' first
    | (with_reducible first | assumption | apply foldl_only | apply forFin_only | apply droneRoll_only
                            | apply treeRoll_only | apply modCad_only)
    | simp only [and_self, p1, p2, p3, p4, p5, p6, p7, p8, p9]
    | split

theorem lineTick_only (h : Only ps a s) (p1 : Part.counters ∈ ps := by assumption) : Only ps a (lineTick x1 s) := by
  simp +contextual only [lineTick, Only_ite, countLine_only, h, implies_true, and_self, p1]

theorem hostTick_only (h : Only ps a s) (p1 : Part.free ∈ ps := by assumption) (p2 : Part.out ∈ ps := by assumption) (p3 :
    Part.hosts ∈ ps := by assumption) (p4 : Part.counters ∈ ps := by assumption) : Only ps a (hostTick x1 s) := by
  simp only [hostTick]
  repeat' first
    | (with_reducible first | assumption | apply foldl_only | apply forFin_only | apply hostGenerate_only
                            | apply hostSilent_only | apply countHost_only)
    | simp only [only_mk, true_or, or_true, p1, p2, p3, p4]
    | split

theorem portTick_only (h : Only ps a s) (p1 : Part.counters ∈ ps := by assumption) : Only ps a (portTick x1 s) := by
  simp +contextual only [portTick, Only_ite, countPort_only, h, implies_true, and_self, p1]

theorem devTick_only (h : Only ps a s) (p1 : Part.counters ∈ ps := by assumption) : Only ps a (devTick s) := by
  simp +contextual only [devTick, Only_ite, only_mk, countDev_only, h, implies_true, true_or, or_true, and_self, p1]

theorem rankOut_only (h : Only ps a s) (p1 : Part.out ∈ ps := by assumption) : Only ps a (rankOut x1 s) := by
  simp +contextual only [rankOut, Only_ite, only_mk, forFin_only, foldl_only, h, implies_true, true_or, or_true, and_self,
    p1]

end Sys2Proof.Machine
end

