-- ==== Sys2Proof/WellFormed.lean ====
section
/-! DEFINITION. Well-formed commands: operands of the shape that the command's rule gives them. A command that is not well
formed has a meaning all the same (a byte that a list does not hold reads 0); statements about formats assume these checks. -/

namespace Sys2Proof

/-- A descriptor carries 44 bytes of PARAM (Table 9.9). -/
def Desc.wf (d : Desc) : Bool := d.param.length == 44

/-- The operand shapes. -/
def Instr.wf : Instr → Bool
  | .registerWrite _ off size _ => decide (off < 0x40000) && decide (size ≤ 8)
  | .lowerWordRead _ off => decide (off < 0x44000) && decide (off % 4 = 0)
  | .descriptorFetch _ b => b.length == 64
  | .nop d | .queryCmd d | .telemRefetch d | .bankWrite d | .bankCopy d | .bankRead d | .coefLoad d | .bankSwap d
  | .setMode d | .schedInstall d | .schedFree d | .domSchedule d | .domCancel d | .enumerate d | .laneAcquire d
  | .trainStart d | .latMeasure d | .hostMsg d | .ocpXfer d | .power d | .reset d | .freeze d | .counterClear d
  | .counterSelect d | .capture d | .eventMask d | .eventLogRead d | .monConfig d | .monSync d | .monThreshold d
  | .thermConfig d | .shedOrder d | .calConfig d | .calRequest d | .checkRun d | .selftest d | .patchActivate d
  | .attest d => d.wf
  | .patchStage d img => d.wf && img.digest.length == 32
  | .ownerKey d _ => d.wf
  | .twoWireWrite a b => decide (a < 2 ^ 24) && decide (b.length ≤ 2 ^ 24)
  | .twoWireRead a n => decide (a < 2 ^ 24) && decide (n ≤ 2 ^ 24)
  | .loopUpdate _ xs cdr => cdr.length == 4 && xs.length == 64 && xs.all fun x => decide (-64 ≤ x) && decide (x ≤ 63)
  | .hostLoopUpdate _ xs cdr => cdr.length == 3 && xs.length == 32 && xs.all fun x => decide (-64 ≤ x) && decide (x ≤ 63)
  | .qualityWindowEnd _ skews => skews.length == 64
  | .innerCodeword _ rest =>
    (rest.length == 64 || rest.length == 68 || rest.length == 72) &&
    rest.all fun x => decide (-511 ≤ x.l1) && decide (x.l1 ≤ 511) && decide (-511 ≤ x.l0) && decide (x.l0 ≤ 511)
  | .outerCodeword _ _ cw fix => cw.length == 544 && (match fix with | some l => decide (l.length ≤ 15) | none => true)
  | .housekeepingRoundEnd r t => r.length == 14 && t.length == 12
  | .comparatorCrossing xs => xs.length == (xs.map (·.1)).eraseDups.length
  | .tripEvaluation r => r.length == 14
  | .beat _ m _ => m.length == 12
  | .linkDelay _ m _ | .probeTurn _ m _ => m.length == 3
  | .enumOrder _ m _ => m.length == 2 || m.length == 514
  | .enumReport _ m _ => m.length == 1039
  | .enumAssign _ m _ => m.length == 527
  | .joinReq _ m _ | .joinGrant _ m _ => m.length == 530
  | .domEntry _ m _ => m.length == 36
  | .domCancelMessage _ m _ => m.length == 4
  | .summary _ m _ => m.length == 30
  | _ => true

end Sys2Proof
end

