-- ==== Sys2Proof/Tests/Slice0.lean ====
section
/-! SUPPORT. Tests: for every statement with hypotheses a state and operands that meet them, clause by clause; ill-formed commands
that the checks refuse; and figures that the spec's examples give. A clause that opens a value (some r) is met where the match of
its witness is true. -/

-- One proof after another: the package is compiled as one text, where proofs side by side take too much memory.
set_option Elab.async false

namespace Sys2Proof.Tests
open Sys2Proof.Machine

/-! ### States for the tests, and commands -/

/-- Past POR: every power domain on, firmware running, clocks locked, mode 0, nothing set up. -/
def live : State :=
  { State.reset with
    clk := 400000000, refOk := true
    rst := { State.reset.rst with on := Vector.replicate 50 true, exits := [], mgmtRun := true, ctrlReset := false } }

/-- Set-up registers written. -/
def setUp (l : List (Nat × Word)) (s : State) : State := { s with setup := l, shadow := l }
/-- Local ring mode. -/
def attached (s : State) : State := { s with straps := { s.straps with eff := { s.straps.eff with attach := true } } }
/-- The PCI Express link is up. -/
def linked (s : State) : State :=
  { s with pcie := { s.pcie with link := true, bme := true, mse := true, refOk := true } }
/-- Rings 0 enabled: command, completion, event and telemetry. -/
def ringsOn (s : State) : State :=
  setUp [(0x2108, 0x80000002), (0x2208, 0x80000002), (0x2308, 0x80000002), (0x2348, 0x80000002)] s
/-- Line lane 3 in a state of acquisition, host lane 3 in one of its own. -/
def rxIn (st : AcqState) (s : State) : State := modRx 3 (fun r => { r with st := st }) s
def hostIn (st : HostState) (s : State) : State := modHost 3 (fun h => { h with st := st }) s
def onEq (f : LineEq → LineEq) (s : State) : State := modEq 3 f s
def onTx (f : LineTx → LineTx) (s : State) : State := modTx 3 f s
def onFr (f : LineFrame → LineFrame) (s : State) : State := modFr 3 f s
/-- A device of cadence role r, its links up. -/
def cadence (r : BitVec 2) (f : Cad → Cad) (s : State) : State :=
  { s with cad := f { Cad.reset r with links := (Cad.reset r).links.map fun l => { l with st := .up } } }
def withRst (f : Rst → Rst) (s : State) : State := { s with rst := f s.rst }
def withChk (f : Chk → Chk) (s : State) : State := { s with chk := f s.chk }
def withTherm (f : Therm → Therm) (s : State) : State := { s with therm := f s.therm }
def withMon (k : Fin 2) (f : Mon → Mon) (s : State) : State := { s with mon := s.mon.set k (f s.mon[k]) }
def withEvt (f : Evt → Evt) (s : State) : State := { s with evt := f s.evt }
def inArb (cls : Nat) (t : Tgt) (s : State) : State := arbAdmit cls t s
def onOcp (w : OcpWhat) (s : State) : State := { s with ocp := [{ what := w, cs := 1, addr := 3, send := [1, 2], rd := 1 }] }
/-- A descriptor of ring 0, without flags. -/
def dsc (t : Tgt) (param : List Byte) : Desc :=
  { ring := 0, seq := 5, flags := 0, target := Tgt.code t, tag := 5, time := 0, param := param ++ List.replicate (44 - param.length) 0 }
def cmdOf (op : Nat) : Cmd := { op := op, d := dsc .device [], era := 0, img := noImage }
def onCad (f : Cad → Cad) (s : State) : State := { s with cad := f s.cad }
def onSlot (x : Slot) (s : State) : State := { s with cad := { s.cad with started := true, slots := s.cad.slots.set 0 x } }
def onPort (f : Port → Port) (s : State) : State := { s with ports := s.ports.set 3 (f s.ports[3]) }
def onHost (f : HostLane → HostLane) (s : State) : State := modHost 3 f s
def onCal (f : Cal → Cal) (s : State) : State := { s with cal := f s.cal }
def onTst (f : Tst → Tst) (s : State) : State := { s with tst := f s.tst }
/-- A reset episode of one source, over everything below it. -/
def episode (l : List ResetSrc) (level : Nat) : Episode := { sources := l, reach := { Reach.all with level := level }, first := 0 }
def coldAt (x : ExitStep) : Exit := { step := x, cold := true, por := false, wake := false, reach := Reach.all }
def theRun : EnumRun :=
  { epoch := 0, round := 1, claim := some 1, await := [4, 5], cnt := [1], map := [], dup := [], cmds := [], join := none, assigned := false }
def theChk : ChkJob :=
  { cmd := cmdOf 0x90, chan := 0, flags := 16, w := 8, space := 1, len := 1, start := 0, poly := 7, init := 0, ctx := 0, expect := 1, ord := 0, began := 0 }
def theBlk : BlkTest := { target := Tgt.code (.line (some 3)), kinds := 1, cmd := some (cmdOf 0x91), until_ := 0 }
def theSwap : SwapRun := { phase := 0, out := 0, spare := 64, failures := [] }
/-- The scrubs enabled. -/
def scrubbed : State := setUp [(0x7080, 0xE0000000)] live

/-! ### The hypotheses Taken, Accepted and AtOnce, as computed -/

def cmdAt (op : Nat) (d : Desc) (img : ImageCheck) (s : State) : Cmd := { op := op, d := d, era := s.rings.era, img := img }

def isTaken (s : State) : Bool := !s.rst.ctrlReset && s.rings.held.isEmpty

def isAccepted (op : Nat) (d : Desc) (img : ImageCheck) (s : State) : Bool :=
  let c := cmdAt op d img s
  let u := cmdOpen c s
  isTaken s && !opForbidden c u && opTgt c u && flagsOk c && opPar c u && !opInTest c u && !opOff c u

def isAtOnce (op : Nat) (d : Desc) (img : ImageCheck) (s : State) : Bool :=
  let c := cmdAt op d img s
  isAccepted op d img s && startable (cmdOpen c s) c && !c.timed

theorem taken_of_isTaken (op : Nat) (d : Desc) (img : ImageCheck) (s : State) (h : isTaken s = true) :
    Taken op d img s (cmdAt op d img s) (cmdOpen (cmdAt op d img s) s) := by
  simp only [isTaken, Bool.and_eq_true, Bool.not_eq_true', List.isEmpty_iff] at h
  exact ⟨h.1, h.2, rfl, rfl⟩

theorem accepted_of_isAccepted (op : Nat) (d : Desc) (img : ImageCheck) (s : State) (h : isAccepted op d img s = true) :
    Accepted op d img s (cmdAt op d img s) (cmdOpen (cmdAt op d img s) s) := by
  simp only [isAccepted, Bool.and_eq_true, Bool.not_eq_true'] at h
  obtain ⟨⟨⟨⟨⟨⟨h1, h2⟩, h3⟩, h4⟩, h5⟩, h6⟩, h7⟩ := h
  exact ⟨taken_of_isTaken op d img s h1, h2, h3, h4, h5, h6, h7⟩

theorem atOnce_of_isAtOnce (op : Nat) (d : Desc) (img : ImageCheck) (s : State) (h : isAtOnce op d img s = true) :
    AtOnce op d img s (cmdAt op d img s) (cmdOpen (cmdAt op d img s) s) := by
  simp only [isAtOnce, Bool.and_eq_true, Bool.not_eq_true'] at h
  exact ⟨accepted_of_isAccepted op d img s h.1.1, h.1.2, h.2⟩

/-! ### Witnesses of the statements -/

theorem witness_StepRunsTheFrontCommand :
    ∃ (c : Instr) (rest : List Instr) (s : State), s.pending = c :: rest :=
  ⟨.nop (dsc .device []), [], { live with pending := [.nop (dsc .device [])] }, by decide +kernel⟩

theorem witness_IdleStepIsOneTick :
    ∃ (s : State), s.pending = [] :=
  ⟨live, by decide +kernel⟩

theorem witness_RaisingLatches :
    (∃ (src : Nat) (cls : Nat) (p : Word) (s : State), evtClass src = some cls ∧ masked s src = false ∧ ((∀ l ∈ s.evt.latches, l.src ≠
      src))) ∧
    (∃ (src : Nat) (cls : Nat) (p : Word) (s : State), evtClass src = some cls ∧ masked s src = false ∧ (∃ l ∈ s.evt.latches, l.src = src))
      ∧
    (∃ (src : Nat) (cls : Nat) (p : Word) (s : State), evtClass src = some cls ∧ masked s src = true) :=
  ⟨⟨0x40, 1, 1, live, by decide +kernel⟩,
    ⟨0x40, 1, 1, withEvt (fun e => { e with latches := [{ src := 0x40, count := 1, payload := 0, time := 0, route := 0 }] }) live, by decide +kernel⟩,
    ⟨0x40, 1, 1, withEvt (fun e => { e with masks := 1 <<< 0x40 }) live, by decide +kernel⟩⟩

theorem witness_AnsweringForms :
    (∃ (c : Cmd) (st : Byte) (fin : Bool) (time : CTime) (res : Nat) (s : State), c.era = s.rings.era ∧ fin = true ∧ st = 0 ∧ bit c.d.flags
      3 = true) ∧
    (∃ (c : Cmd) (st : Byte) (fin : Bool) (time : CTime) (res : Nat) (s : State), (c.era = s.rings.era ∧ ((fin = false ∨ st ≠ 0 ∨ bit
      c.d.flags 3 = false))) ∧ (s.rings.wait.filter (·.final)).length < 1024) :=
  ⟨⟨{ cmdOf 0 with d := { dsc .device [] with flags := 8 } }, 0, true, 0, 0, live, by decide +kernel⟩,
    ⟨cmdOf 0, 0, true, 0, 0, live, by decide +kernel⟩⟩

theorem witness_SetupRegisterWrite :
    ∃ (p : Path) (off : Nat) (v : Word) (s : State) (o : Nat), (decide (pathOk s p = true ∧ s.rst.ctrlReset = false) && (match setupSpec off with | some (rw, rwl, r) => decide ((off ≠ 0x30 ∧ ringAt off = none ∧ (¬(0x2800 ≤ off ∧ off < 0x2A00))) ∧ o ≠ off) | _ => false) : Bool) = true :=
  ⟨.twoWire, 0x50, 1, live, 0, by decide +kernel⟩

theorem witness_RegisterWriteDiscardedOrClearing :
    (∃ (p : Path) (off : Nat) (size : Nat) (v : Word) (s : State), pathOk s p = false ∨ size ≠ 4 ∨ off % 4 ≠ 0 ∨ s.rst.ctrlReset = true) ∧
    (∃ (p : Path) (v : Word) (s : State), pathOk s p = true ∧ s.rst.ctrlReset = false) :=
  ⟨⟨.twoWire, 0, 0, 1, live, by decide +kernel⟩,
    ⟨.twoWire, 1, live, by decide +kernel⟩⟩

theorem witness_LowerWordReadLatches :
    (∃ (p : Path) (off : Nat) (s : State) (q : Path), pathOk s p = true ∧ s.rst.ctrlReset = false ∧ off % 4 = 0 ∧ rdataAt off = none ∧
      isLower off = true ∧ assocGet (latches s p) off = none ∧ q ≠ p) ∧
    (∃ (p : Path) (off : Nat) (s : State) (q : Path), (decide (pathOk s p = true ∧ s.rst.ctrlReset = false ∧ off % 4 = 0 ∧ rdataAt off = none) && (match assocGet (latches s p) off with | some v => decide (q ≠ p) | _ => false) : Bool) = true) :=
  ⟨⟨.twoWire, 0x10, live, .pcie, by decide +kernel⟩,
    ⟨.twoWire, 0x14, { live with hiWire := [(0x14, 5)] }, .pcie, by decide +kernel⟩⟩

theorem witness_SetupLockWrite :
    (∃ (p : Path) (v : Word) (s : State) (o : Nat), pathOk s p = true ∧ s.rst.ctrlReset = false ∧ v = 1 ∧ o ≠ 0x30) ∧
    (∃ (p : Path) (v : Word) (s : State), pathOk s p = true ∧ s.rst.ctrlReset = false ∧ v ≠ 1) :=
  ⟨⟨.twoWire, 1, live, 0, by decide +kernel⟩,
    ⟨.twoWire, 0, live, by decide +kernel⟩⟩

theorem witness_RingEnabling :
    (∃ (p : Path) (r : RingId) (v : Word) (s : State) (q : RingId), (decide (pathOk s p = true ∧ s.rst.ctrlReset = false ∧ locked s = false ∧ ringEn s r = false ∧ bit v 31 = true) && let u := writeSetup (ringBase r + 8) (v &&& 0x7FFFFFFF) s; decide ((inG0 s = false ∧ ringFault u r = none ∧ ((∀ k, r ≠ .tlm k))) ∧ q ≠ r) : Bool) = true) ∧
    (∃ (p : Path) (r : RingId) (v : Word) (s : State), (decide (pathOk s p = true ∧ s.rst.ctrlReset = false ∧ locked s = false ∧ ringEn s r = false ∧ bit v 31 = true) && let u := writeSetup (ringBase r + 8) (v &&& 0x7FFFFFFF) s; decide (inG0 s = false) && (match ringFault u r with | some f => true | _ => false) : Bool) = true) ∧
    (∃ (p : Path) (r : RingId) (v : Word) (s : State), pathOk s p = true ∧ s.rst.ctrlReset = false ∧ locked s = false ∧ ringEn s r = false
      ∧ bit v 31 = true ∧ inG0 s = true) ∧
    (∃ (p : Path) (r : RingId) (v : Word) (s : State) (o : Nat), pathOk s p = true ∧ s.rst.ctrlReset = false ∧ locked s = false ∧ ringEn s
      r = false ∧ bit v 31 = true ∧ o ≠ ringBase r + 8) :=
  ⟨⟨.twoWire, .cmd 0, 0x80000000, live, .cpl 0, by decide +kernel⟩,
    ⟨.twoWire, .cmd 0, 0x80000000, setUp [(0x2100, 64)] live, by decide +kernel⟩,
    ⟨.twoWire, .cmd 0, 0x80000000, withRst (fun r => { r with exits := [{ step := .selfTest 0, cold := true, por := true, wake := false, reach := Reach.all }] }) live, by decide +kernel⟩,
    ⟨.twoWire, .cmd 0, 0x80000000, live, 0, by decide +kernel⟩⟩

theorem witness_RingDisabling :
    (∃ (p : Path) (r : RingId) (v : Word) (s : State) (o : Nat), pathOk s p = true ∧ s.rst.ctrlReset = false ∧ ringEn s r = true ∧ bit v 31
      = false ∧ o ≠ ringBase r + 8) ∧
    (∃ (p : Path) (r : RingId) (v : Word) (s : State), (decide (pathOk s p = true ∧ s.rst.ctrlReset = false ∧ ringEn s r = true ∧ bit v 31 = false) && (match r with | .cmd k => true | _ => false) : Bool) = true) ∧
    (∃ (p : Path) (r : RingId) (v : Word) (s : State), pathOk s p = true ∧ s.rst.ctrlReset = false ∧ ringEn s r = true ∧ bit v 31 = false ∧
      ((∀ k, r ≠ .tlm k))) :=
  ⟨⟨.twoWire, .cmd 0, 1, ringsOn live, 0, by decide +kernel⟩,
    ⟨.twoWire, .cmd 0, 1, ringsOn live, by decide +kernel⟩,
    ⟨.twoWire, .cmd 0, 1, ringsOn live, by decide +kernel⟩⟩

theorem witness_CapturesAndBufferRead :
    (∃ (n : Fin 8) (s : State), domOn s (rxDomain n) = true ∧ laneHeld s (.line n) = false ∧ (((match s.lines[n].eq.prior with | some e => decide (e.1 ≠ s.clk) | none => true) = true))) ∧
    (∃ (n : Fin 8) (s : State), (decide (domOn s (rxDomain n) = true ∧ laneHeld s (.line n) = false) && (match s.lines[n].eq.prior with | some x => decide (x.1 = s.clk) | _ => false) : Bool) = true) ∧
    (∃ (n : Fin 8) (s : State), domOn s (rxDomain n) = false ∨ laneHeld s (.line n) = true) ∧
    (∃ (n : Fin 16) (s : State), domOn s (hostDomain n) = true ∧ laneHeld s (.host n) = false) ∧
    (∃ (n : Fin 16) (s : State), domOn s (hostDomain n) = false ∨ laneHeld s (.host n) = true) ∧
    (∃ (p : Path) (k : Fin 2) (s : State) (o : Nat), (decide (pathOk s p = true ∧ s.rst.ctrlReset = false) && (match bufWord s.mon[k] (bits (reg s (raddrOff k)) 2 12) with | some w => decide (o ≠ raddrOff k) | _ => false) : Bool) = true) :=
  ⟨⟨3, live, by decide +kernel⟩,
    ⟨3, onEq (fun e => { e with prior := some (400000000, live.lines[(3 : Fin 8)].eq.cap) }) live, by decide +kernel⟩,
    ⟨3, withRst (fun r => { r with on := Vector.replicate 50 false }) live, by decide +kernel⟩,
    ⟨3, live, by decide +kernel⟩,
    ⟨3, withRst (fun r => { r with on := Vector.replicate 50 false }) live, by decide +kernel⟩,
    ⟨.twoWire, 0, withMon 0 (fun m => { m with buf := [{ value := 0, flags := 0, channel := 0, conv := 0, seq := 0, time := 0 }], wptr := 1 }) live, 0, by decide +kernel⟩⟩

theorem witness_CommandDoorbell :
    (∃ (k : Fin 16) (v : Word) (s : State) (q : RingId), doorbellOk s = true ∧ ringEn s (.cmd k) = true ∧ (v - s.rings.cmd[k].cons).toNat ≤
      ringN s (.cmd k) ∧ q ≠ .cmd k) ∧
    (∃ (k : Fin 16) (v : Word) (s : State), doorbellOk s = true ∧ (ringEn s (.cmd k) = false ∨ ringN s (.cmd k) < (v -
      s.rings.cmd[k].cons).toNat)) ∧
    (∃ (k : Fin 16) (v : Word) (s : State), doorbellOk s = false) :=
  ⟨⟨0, 1, attached (ringsOn live), .cpl 0, by decide +kernel⟩,
    ⟨0, 1, setUp [(0x2108, 0)] (attached live), by decide +kernel⟩,
    ⟨0, 1, live, by decide +kernel⟩⟩

theorem witness_ConsumerDoorbells :
    (∃ (c : Instr) (r : RingId) (v : Word) (s : State) (q : RingId), ((((((∃ k, c = .cplDb k v ∧ r = .cpl k) ∨ (∃ k, c = .evtDb k v ∧ r =
      .evt k) ∨ (∃ k, c = .tlmCons k v ∧ r = .tlm k)) ∧ doorbellOk s = true) ∧ ringEn s r = true) ∧ (v - (getRing s r).cons).toNat ≤ ringN
      s r) ∧ (v - (getRing s r).cons).toNat ≤ ((getRing s r).prod - (getRing s r).cons).toNat) ∧ q ≠ r) ∧
    (∃ (c : Instr) (r : RingId) (v : Word) (s : State), (((∃ k, c = .cplDb k v ∧ r = .cpl k) ∨ (∃ k, c = .evtDb k v ∧ r = .evt k) ∨ (∃ k, c
      = .tlmCons k v ∧ r = .tlm k)) ∧ doorbellOk s = true) ∧ (ringEn s r = false ∨ ringN s r < (v - (getRing s r).cons).toNat ∨ ((getRing s
      r).prod - (getRing s r).cons).toNat < (v - (getRing s r).cons).toNat)) ∧
    (∃ (c : Instr) (r : RingId) (v : Word) (s : State), ((∃ k, c = .cplDb k v ∧ r = .cpl k) ∨ (∃ k, c = .evtDb k v ∧ r = .evt k) ∨ (∃ k, c
      = .tlmCons k v ∧ r = .tlm k)) ∧ doorbellOk s = false) :=
  ⟨⟨.cplDb 0 1, .cpl 0, 1, modRing (.cpl 0) (fun g => { g with prod := 4 }) (attached (ringsOn live)), .cmd 0, by decide +kernel⟩,
    ⟨.cplDb 0 1, .cpl 0, 1, attached live, by decide +kernel⟩,
    ⟨.cplDb 0 1, .cpl 0, 1, State.reset, by decide +kernel⟩⟩

theorem witness_TelemetryAcknowledgement :
    (∃ (k : Fin 8) (v : Word) (s : State) (n : Nat) (q : RingId), doorbellOk s = true ∧ ringEn s (.tlm k) = true ∧ s.rings.tlm[k].acked ≤ n
      ∧ n ≤ s.rings.tlm[k].written ∧ n < s.rings.tlm[k].acked + 2 ^ 32 ∧ BitVec.ofNat 32 n = v ∧ q ≠ .tlm k) ∧
    (∃ (k : Fin 8) (v : Word) (s : State), doorbellOk s = true ∧ (ringEn s (.tlm k) = false ∨ s.rings.tlm[k].written < s.rings.tlm[k].acked
      + (v - BitVec.ofNat 32 s.rings.tlm[k].acked).toNat)) :=
  ⟨⟨0, 1, modRing (.tlm 0) (fun g => { g with written := 4, acked := 1 }) (attached (ringsOn live)), 1, .cmd 0, by decide +kernel⟩,
    ⟨0, 1, attached live, by decide +kernel⟩⟩

theorem witness_DescriptorFetching :
    (∃ (k : Fin 16) (b : List Byte) (s : State), fetchOk k s = false) ∧
    (∃ (k : Fin 16) (b : List Byte) (s : State), fetchOk k s = true ∧ descOk k s.rings.cmd[k].cons.toNat (ringN s (.cmd k)) (descBytes k b
      s) = false) ∧
    (∃ (k : Fin 16) (b : List Byte) (s : State) (q : RingId), fetchOk k s = true ∧ descOk k s.rings.cmd[k].cons.toNat (ringN s (.cmd k))
      (descBytes k b s) = true ∧ byteAt (descBytes k b s) 0 ≠ 0xA0 ∧ byteAt (descBytes k b s) 0 ≠ 0xA3 ∧ q ≠ .cmd k) :=
  ⟨⟨0, List.replicate 64 0, live, by decide +kernel⟩,
    ⟨0, List.replicate 64 0, modRing (.cmd 0) (fun g => { g with prod := 1 }) (linked (ringsOn live)), by decide +kernel⟩,
    ⟨0, [0, 1] ++ List.replicate 58 0 ++ bytesLE 4 (crc32c 0x01000000 ([0, 1] ++ List.replicate 58 0)), modRing (.cmd 0) (fun g => { g with prod := 1 }) (linked (ringsOn live)), .cpl 0, by decide +kernel⟩⟩

theorem witness_EventRecordWriting :
    (∃ (e : Fin 4) (s : State), latchNext s e = none ∨ ringReady s (.evt e) = false ∨ ringFull s (.evt e) = true) ∧
    (∃ (e : Fin 4) (s : State) (q : RingId), ((match latchNext s e with | some l => decide (ringReady s (.evt e) = true ∧ ringFull s (.evt e) = false ∧ q ≠ .evt e) | _ => false) : Bool) = true) ∧
    (∃ (e : Fin 4) (s : State), ((match latchNext s e with | some l => decide (ringReady s (.evt e) = true ∧ ringFull s (.evt e) = false ∧ localMode s = false) | _ => false) : Bool) = true) ∧
    (∃ (e : Fin 4) (s : State), ((match latchNext s e with | some l => decide (ringReady s (.evt e) = true ∧ ringFull s (.evt e) = false ∧ localMode s = true) | _ => false) : Bool) = true) :=
  ⟨⟨0, live, by decide +kernel⟩,
    ⟨0, withEvt (fun e => { e with latches := [{ src := 0x40, count := 1, payload := 0, time := 0, route := 0 }] }) (linked (ringsOn live)), .cmd 0, by decide +kernel⟩,
    ⟨0, withEvt (fun e => { e with latches := [{ src := 0x40, count := 1, payload := 0, time := 0, route := 0 }] }) (linked (ringsOn live)), by decide +kernel⟩,
    ⟨0, withEvt (fun e => { e with latches := [{ src := 0x40, count := 1, payload := 0, time := 0, route := 0 }] }) (attached (ringsOn live)), by decide +kernel⟩⟩

theorem witness_TelemetryRecordWriting :
    (∃ (t : Fin 8) (s : State), routeOfType s 5 ≠ t ∧ routeOfType s 6 ≠ t) ∧
    (∃ (t : Fin 8) (s : State), (let v := tlmGather t s; let due := v.tlm.recs.find? fun x => x.ring == some t && x.due; decide (due = none ∨ ringReady v (.tlm t) = false) : Bool) = true) ∧
    (∃ (t : Fin 8) (s : State), (let v := tlmGather t s; let g := getRing v (.tlm t); let n := ringN v (.tlm t); let left := n - g.prod.toNat % n; let room := n - (g.prod - g.cons).toNat; let due := v.tlm.recs.find? fun x => x.ring == some t && x.due; (match due with | some x => decide (ringReady v (.tlm t) = true ∧ room < x.units ∧ ((left < x.units → room < left))) | _ => false) : Bool) = true) ∧
    (∃ (t : Fin 8) (s : State), (let v := tlmGather t s; let g := getRing v (.tlm t); let n := ringN v (.tlm t); let left := n - g.prod.toNat % n; let room := n - (g.prod - g.cons).toNat; let due := v.tlm.recs.find? fun x => x.ring == some t && x.due; (match due with | some x => decide (ringReady v (.tlm t) = true ∧ x.units ≤ left ∧ x.units ≤ room ∧ localMode v = false) | _ => false) : Bool) = true) ∧
    (∃ (t : Fin 8) (s : State), (let v := tlmGather t s; let g := getRing v (.tlm t); let n := ringN v (.tlm t); let left := n - g.prod.toNat % n; let room := n - (g.prod - g.cons).toNat; let due := v.tlm.recs.find? fun x => x.ring == some t && x.due; (match due with | some x => decide (ringReady v (.tlm t) = true ∧ x.units ≤ left ∧ x.units ≤ room ∧ localMode v = true) | _ => false) : Bool) = true) ∧
    (∃ (t : Fin 8) (s : State) (q : RingId), (let v := tlmGather t s; let g := getRing v (.tlm t); let n := ringN v (.tlm t); let left := n - g.prod.toNat % n; let room := n - (g.prod - g.cons).toNat; let due := v.tlm.recs.find? fun x => x.ring == some t && x.due; (match due with | some x => decide (ringReady v (.tlm t) = true ∧ x.units ≤ left ∧ x.units ≤ room ∧ q ≠ .tlm t) | _ => false) : Bool) = true) ∧
    (∃ (t : Fin 8) (s : State), (let v := tlmGather t s; let g := getRing v (.tlm t); let n := ringN v (.tlm t); let left := n - g.prod.toNat % n; let room := n - (g.prod - g.cons).toNat; let due := v.tlm.recs.find? fun x => x.ring == some t && x.due; (match due with | some x => decide (ringReady v (.tlm t) = true ∧ x.units ≤ left ∧ x.units ≤ room ∧ x.typ ≠ 5) | _ => false) : Bool) = true) ∧
    (∃ (t : Fin 8) (s : State), (let v := tlmGather t s; let g := getRing v (.tlm t); let n := ringN v (.tlm t); let left := n - g.prod.toNat % n; let room := n - (g.prod - g.cons).toNat; let due := v.tlm.recs.find? fun x => x.ring == some t && x.due; (match due with | some x => decide (ringReady v (.tlm t) = true ∧ left < x.units ∧ left ≤ room ∧ x.units ≤ n ∧ localMode v = false) | _ => false) : Bool) = true) ∧
    (∃ (t : Fin 8) (s : State), (let v := tlmGather t s; let g := getRing v (.tlm t); let n := ringN v (.tlm t); let left := n - g.prod.toNat % n; let room := n - (g.prod - g.cons).toNat; let due := v.tlm.recs.find? fun x => x.ring == some t && x.due; (match due with | some x => decide (ringReady v (.tlm t) = true ∧ left < x.units ∧ left ≤ room ∧ x.units ≤ n ∧ localMode v = true) | _ => false) : Bool) = true) ∧
    (∃ (t : Fin 8) (s : State) (q : RingId), (let v := tlmGather t s; let g := getRing v (.tlm t); let n := ringN v (.tlm t); let left := n - g.prod.toNat % n; let room := n - (g.prod - g.cons).toNat; let due := v.tlm.recs.find? fun x => x.ring == some t && x.due; (match due with | some x => decide (ringReady v (.tlm t) = true ∧ left < x.units ∧ left ≤ room ∧ x.units ≤ n ∧ q ≠ .tlm t) | _ => false) : Bool) = true) ∧
    (∃ (t : Fin 8) (s : State), (let v := tlmGather t s; let g := getRing v (.tlm t); let n := ringN v (.tlm t); let left := n - g.prod.toNat % n; let room := n - (g.prod - g.cons).toNat; let due := v.tlm.recs.find? fun x => x.ring == some t && x.due; (match due with | some x => decide (ringReady v (.tlm t) = true ∧ left < x.units ∧ left ≤ room ∧ x.units ≤ n ∧ room < left + x.units) | _ => false) : Bool) = true) ∧
    (∃ (t : Fin 8) (s : State), (let v := tlmGather t s; let g := getRing v (.tlm t); let n := ringN v (.tlm t); let left := n - g.prod.toNat % n; let room := n - (g.prod - g.cons).toNat; let due := v.tlm.recs.find? fun x => x.ring == some t && x.due; (match due with | some x => decide (ringReady v (.tlm t) = true ∧ left < x.units ∧ left ≤ room ∧ x.units ≤ n ∧ left + x.units ≤ room) | _ => false) : Bool) = true) :=
  ⟨⟨1, live, by decide +kernel⟩,
    ⟨1, live, by decide +kernel⟩,
    ⟨1, linked (modRing (.tlm 1) (fun g => { g with prod := 63, cons := 0xFFFFFFFF }) (setUp [(0x2358, 0x80000002)] ((fun s => { s with tlm := { s.tlm with recs := [{ typ := 1, units := 2, more := false, frag := 0, origin := 0, time := 0, body := [], ring := some 1, id := 1, refetch := false, due := true }] } }) live))), by decide +kernel⟩,
    ⟨1, linked (modRing (.tlm 1) (fun g => { g with prod := 0, cons := 0 }) (setUp [(0x2358, 0x80000002)] ((fun s => { s with tlm := { s.tlm with recs := [{ typ := 1, units := 2, more := false, frag := 0, origin := 0, time := 0, body := [], ring := some 1, id := 1, refetch := false, due := true }] } }) live))), by decide +kernel⟩,
    ⟨1, attached (modRing (.tlm 1) (fun g => { g with prod := 0, cons := 0 }) (setUp [(0x2358, 0x80000002)] ((fun s => { s with tlm := { s.tlm with recs := [{ typ := 1, units := 2, more := false, frag := 0, origin := 0, time := 0, body := [], ring := some 1, id := 1, refetch := false, due := true }] } }) live))), by decide +kernel⟩,
    ⟨1, linked (modRing (.tlm 1) (fun g => { g with prod := 0, cons := 0 }) (setUp [(0x2358, 0x80000002)] ((fun s => { s with tlm := { s.tlm with recs := [{ typ := 1, units := 2, more := false, frag := 0, origin := 0, time := 0, body := [], ring := some 1, id := 1, refetch := false, due := true }] } }) live))), .cmd 0, by decide +kernel⟩,
    ⟨1, linked (modRing (.tlm 1) (fun g => { g with prod := 0, cons := 0 }) (setUp [(0x2358, 0x80000002)] ((fun s => { s with tlm := { s.tlm with recs := [{ typ := 1, units := 2, more := false, frag := 0, origin := 0, time := 0, body := [], ring := some 1, id := 1, refetch := false, due := true }] } }) live))), by decide +kernel⟩,
    ⟨1, linked (modRing (.tlm 1) (fun g => { g with prod := 63, cons := 0 }) (setUp [(0x2358, 0x80000002)] ((fun s => { s with tlm := { s.tlm with recs := [{ typ := 1, units := 2, more := false, frag := 0, origin := 0, time := 0, body := [], ring := some 1, id := 1, refetch := false, due := true }] } }) live))), by decide +kernel⟩,
    ⟨1, attached (modRing (.tlm 1) (fun g => { g with prod := 63, cons := 0 }) (setUp [(0x2358, 0x80000002)] ((fun s => { s with tlm := { s.tlm with recs := [{ typ := 1, units := 2, more := false, frag := 0, origin := 0, time := 0, body := [], ring := some 1, id := 1, refetch := false, due := true }] } }) live))), by decide +kernel⟩,
    ⟨1, linked (modRing (.tlm 1) (fun g => { g with prod := 63, cons := 0 }) (setUp [(0x2358, 0x80000002)] ((fun s => { s with tlm := { s.tlm with recs := [{ typ := 1, units := 2, more := false, frag := 0, origin := 0, time := 0, body := [], ring := some 1, id := 1, refetch := false, due := true }] } }) live))), .cmd 0, by decide +kernel⟩,
    ⟨1, linked (modRing (.tlm 1) (fun g => { g with prod := 63, cons := 0 }) (setUp [(0x2358, 0x80000002)] ((fun s => { s with tlm := { s.tlm with recs := [{ typ := 1, units := 2, more := false, frag := 0, origin := 0, time := 0, body := [], ring := some 1, id := 1, refetch := false, due := true }] } }) live))), by decide +kernel⟩,
    ⟨1, linked (modRing (.tlm 1) (fun g => { g with prod := 63, cons := 62 }) (setUp [(0x2358, 0x80000002)] ((fun s => { s with tlm := { s.tlm with recs := [{ typ := 1, units := 2, more := false, frag := 0, origin := 0, time := 0, body := [], ring := some 1, id := 1, refetch := false, due := true }] } }) live))), by decide +kernel⟩⟩

theorem witness_CompletionRecordWriting :
    (∃ (c : Fin 16) (s : State), ((match (s.rings.wait.find? fun x => x.cpl == c) with | some r => decide (ringReady s (.cpl c) = true ∧ ringFull s (.cpl c) = false ∧ s.rings.held = [] ∧ s.rst.afterRecord = [] ∧ r.final = true) | _ => false) : Bool) = true) ∧
    (∃ (c : Fin 16) (s : State), ((match (s.rings.wait.find? fun x => x.cpl == c) with | some r => decide (ringReady s (.cpl c) = true ∧ ringFull s (.cpl c) = false ∧ s.rings.held = [] ∧ s.rst.afterRecord = [] ∧ r.final = false) | _ => false) : Bool) = true) ∧
    (∃ (c : Fin 16) (s : State) (q : RingId), ((match (s.rings.wait.find? fun x => x.cpl == c) with | some r => decide (ringReady s (.cpl c) = true ∧ ringFull s (.cpl c) = false ∧ s.rings.held = [] ∧ s.rst.afterRecord = [] ∧ q ≠ .cpl c) | _ => false) : Bool) = true) ∧
    (∃ (c : Fin 16) (s : State), ((match (s.rings.wait.find? fun x => x.cpl == c) with | some r => decide (ringReady s (.cpl c) = true ∧ ringFull s (.cpl c) = false ∧ s.rings.held = [] ∧ s.rst.afterRecord = [] ∧ localMode s = false) | _ => false) : Bool) = true) ∧
    (∃ (c : Fin 16) (s : State), ((match (s.rings.wait.find? fun x => x.cpl == c) with | some r => decide (ringReady s (.cpl c) = true ∧ ringFull s (.cpl c) = false ∧ s.rings.held = [] ∧ s.rst.afterRecord = [] ∧ localMode s = true) | _ => false) : Bool) = true) :=
  ⟨⟨0, (fun s => { s with rings := { s.rings with wait := [{ cpl := 0, ring := 0, op := 0, seq := 5, tag := 5, status := 0, final := true, time := 0, result := 0 }] } }) (linked (ringsOn live)), by decide +kernel⟩,
    ⟨0, (fun s => { s with rings := { s.rings with wait := [{ cpl := 0, ring := 0, op := 0, seq := 5, tag := 5, status := 0, final := false, time := 0, result := 0 }] } }) (linked (ringsOn live)), by decide +kernel⟩,
    ⟨0, (fun s => { s with rings := { s.rings with wait := [{ cpl := 0, ring := 0, op := 0, seq := 5, tag := 5, status := 0, final := true, time := 0, result := 0 }] } }) (linked (ringsOn live)), .cmd 0, by decide +kernel⟩,
    ⟨0, (fun s => { s with rings := { s.rings with wait := [{ cpl := 0, ring := 0, op := 0, seq := 5, tag := 5, status := 0, final := true, time := 0, result := 0 }] } }) (linked (ringsOn live)), by decide +kernel⟩,
    ⟨0, (fun s => { s with rings := { s.rings with wait := [{ cpl := 0, ring := 0, op := 0, seq := 5, tag := 5, status := 0, final := true, time := 0, result := 0 }] } }) (attached (ringsOn live)), by decide +kernel⟩⟩

theorem witness_VectorsAndAccessErrors :
    (∃ (r : RingId) (s : State), (decide ((((∀ k, r ≠ .cmd k)) ∧ ringEn s r = true) ∧ (getRing s r).unsig ≠ 0) && let t0 := bits (ringCfg s r) 8 4; let due := t0 ≠ 0 ∧ 625 * 2 ^ t0 ≤ 4 * (s.clk - (getRing s r).first) ∨ 6250 ≤ 4 * (s.clk - (getRing s r).latest); decide (¬due) : Bool) = true) ∧
    (∃ (r : RingId) (s : State) (q : RingId), (decide ((((∀ k, r ≠ .cmd k)) ∧ ringEn s r = true) ∧ (getRing s r).unsig ≠ 0) && let t0 := bits (ringCfg s r) 8 4; let due := t0 ≠ 0 ∧ 625 * 2 ^ t0 ≤ 4 * (s.clk - (getRing s r).first) ∨ 6250 ≤ 4 * (s.clk - (getRing s r).latest); decide (due ∧ q ≠ r) : Bool) = true) ∧
    (∃ (r : RingId) (s : State), (decide ((((∀ k, r ≠ .cmd k)) ∧ ringEn s r = true) ∧ (getRing s r).unsig ≠ 0) && let t0 := bits (ringCfg s r) 8 4; let due := t0 ≠ 0 ∧ 625 * 2 ^ t0 ≤ 4 * (s.clk - (getRing s r).first) ∨ 6250 ≤ 4 * (s.clk - (getRing s r).latest); decide (due ∧ localMode s = true) : Bool) = true) ∧
    (∃ (r : RingId) (s : State), (decide ((((∀ k, r ≠ .cmd k)) ∧ ringEn s r = true) ∧ (getRing s r).unsig ≠ 0) && let t0 := bits (ringCfg s r) 8 4; let due := t0 ≠ 0 ∧ 625 * 2 ^ t0 ≤ 4 * (s.clk - (getRing s r).first) ∨ 6250 ≤ 4 * (s.clk - (getRing s r).latest); decide (due ∧ localMode s = false ∧ bit (reg s (0x280C + 16 * ringVec s r)) 0 = false ∧ busOk s = true) : Bool) = true) ∧
    (∃ (r : RingId) (s : State), (decide ((((∀ k, r ≠ .cmd k)) ∧ ringEn s r = true) ∧ (getRing s r).unsig ≠ 0) && let t0 := bits (ringCfg s r) 8 4; let due := t0 ≠ 0 ∧ 625 * 2 ^ t0 ≤ 4 * (s.clk - (getRing s r).first) ∨ 6250 ≤ 4 * (s.clk - (getRing s r).latest); decide (due ∧ localMode s = false ∧ (bit (reg s (0x280C + 16 * ringVec s r)) 0 = true ∨ busOk s = false)) : Bool) = true) ∧
    (∃ (r : RingId) (status : Nat) (s : State) (q : RingId), ringEn s r = true ∧ localMode s = false ∧ q ≠ r) ∧
    (∃ (r : RingId) (status : Nat) (s : State), ringEn s r = false ∨ localMode s = true) :=
  ⟨⟨.cpl 0, modRing (.cpl 0) (fun g => { g with unsig := 1, first := 400000000, latest := 400000000 }) (ringsOn live), by decide +kernel⟩,
    ⟨.cpl 0, modRing (.cpl 0) (fun g => { g with unsig := 1 }) (attached (ringsOn live)), .cmd 0, by decide +kernel⟩,
    ⟨.cpl 0, modRing (.cpl 0) (fun g => { g with unsig := 1 }) (attached (ringsOn live)), by decide +kernel⟩,
    ⟨.cpl 0, modRing (.cpl 0) (fun g => { g with unsig := 1 }) (linked (setUp [(0x2208, 0x80000002), (0x280C, 0)] live)), by decide +kernel⟩,
    ⟨.cpl 0, modRing (.cpl 0) (fun g => { g with unsig := 1 }) (linked (ringsOn live)), by decide +kernel⟩,
    ⟨.cpl 0, 0, modRing (.cpl 0) (fun g => { g with unsig := 1 }) (linked (ringsOn live)), .cmd 0, by decide +kernel⟩,
    ⟨.cpl 0, 0, modRing (.cpl 0) (fun g => { g with unsig := 1 }) (attached (ringsOn live)), by decide +kernel⟩⟩

theorem witness_TwoWireTransactions :
    (∃ (a : Nat) (b0 : Byte) (b1 : Byte) (b2 : Byte) (b3 : Byte) (s : State), pathOk s .twoWire = true ∧ a % 4 = 0 ∧ a + 4 ≤ 0x40000) ∧
    (∃ (a : Nat) (d : List Byte) (s : State), pathOk s .twoWire = true ∧ localMode s = true ∧ s.rst.ctrlReset = false ∧ Memory.wf s.lmem =
      true ∧ 0x80000 ≤ a ∧ a + d.length ≤ 0x90000) ∧
    (∃ (a : Nat) (n : Nat) (s : State), pathOk s .twoWire = true ∧ localMode s = true ∧ 0x80000 ≤ a ∧ a + n ≤ 0x90000) :=
  ⟨⟨0x50, 0, 0, 0, 0, live, by decide +kernel⟩,
    ⟨0x80000, [1, 2], attached live, by decide +kernel⟩,
    ⟨0x80000, 0, attached live, by decide +kernel⟩⟩

theorem witness_TwoWireErrors :
    (∃ (a : Nat) (d : List Byte) (s : State), pathOk s .twoWire = true ∧ a % 4 = 0 ∧ a < 0x40000 ∧ 0 < d.length ∧ d.length < 4) ∧
    (∃ (a : Nat) (d : List Byte) (s : State), pathOk s .twoWire = true ∧ localMode s = false ∧ 0x80000 ≤ a ∧ a + d.length ≤ 0x90000 ∧ 0 <
      d.length) ∧
    (∃ (a : Nat) (d : List Byte) (s : State), pathOk s .twoWire = false) :=
  ⟨⟨0x50, [1, 2], live, by decide +kernel⟩,
    ⟨0x80000, [1, 2], live, by decide +kernel⟩,
    ⟨0x50, [1, 2], withRst (fun r => { r with on := Vector.replicate 50 false }) live, by decide +kernel⟩⟩

theorem witness_PcieAttachment :
    (∃ (f : LinkForm) (s : State), localMode s = true ∨ s.rst.perstLow = true ∨ s.rst.ctrlReset = true) ∧
    (∃ (f : LinkForm) (s : State), localMode s = false ∧ s.rst.perstLow = false ∧ s.rst.ctrlReset = false ∧ s.pcie.pend = 0) ∧
    (∃ (bme : Bool) (mse : Bool) (d3 : Bool) (ctl : PcieCtl) (w1c : BitVec 32) (s : State), s.pcie.link = false) ∧
    (∃ (bme : Bool) (mse : Bool) (d3 : Bool) (ctl : PcieCtl) (w1c : BitVec 32) (s : State), (s.pcie.link = true ∧ (bme = false ∨ d3 = true
      ∨ s.pcie.pend = 0)) ∧ localMode s = false) :=
  ⟨⟨{ width := .x2, rate := .gt8, reversed := false, inverted := 0 }, attached live, by decide +kernel⟩,
    ⟨{ width := .x2, rate := .gt8, reversed := false, inverted := 0 }, live, by decide +kernel⟩,
    ⟨true, true, true, { payload := 0, readReq := 1, aspmL1 := true }, 1, live, by decide +kernel⟩,
    ⟨true, true, true, { payload := 0, readReq := 1, aspmL1 := true }, 1, linked live, by decide +kernel⟩⟩

theorem witness_ClockLoss :
    (∃ (s : State), s.refOk = true) ∧
    (∃ (s : State) (n : Fin 16), s.refOk = false ∧ domOn s 8 = true ∧ s.hosts[n].st = .idle ∧ s.hosts[n].sigDet = false) :=
  ⟨⟨live, by decide +kernel⟩,
    ⟨hostIn .idle { live with refOk := false }, 3, by decide +kernel⟩⟩

theorem witness_CommandRefusals :
    (∃ (i : Instr) (s : State), ((match opcodeOf i with | some (op, d, img) => decide (s.rst.ctrlReset = true) | _ => false) : Bool) = true) ∧
    (∃ (i : Instr) (s : State), ((match opcodeOf i with | some (op, d, img) => let c := cmdAt op d img s; let u := cmdOpen c s; isTaken s && decide (opForbidden c u = true) | _ => false) : Bool) = true) ∧
    (∃ (i : Instr) (s : State), ((match opcodeOf i with | some (op, d, img) => let c := cmdAt op d img s; let u := cmdOpen c s; isTaken s && decide (opForbidden c u = false ∧ opTgt c u = false) | _ => false) : Bool) = true) ∧
    (∃ (i : Instr) (s : State), ((match opcodeOf i with | some (op, d, img) => let c := cmdAt op d img s; let u := cmdOpen c s; isTaken s && decide (opForbidden c u = false ∧ opTgt c u = true ∧ (flagsOk c && opPar c u) = false) | _ => false) : Bool) = true) ∧
    (∃ (i : Instr) (s : State), ((match opcodeOf i with | some (op, d, img) => let c := cmdAt op d img s; let u := cmdOpen c s; isTaken s && decide (opForbidden c u = false ∧ opTgt c u = true ∧ flagsOk c = true ∧ opPar c u = true ∧ opInTest c u = true) | _ => false) : Bool) = true) ∧
    (∃ (i : Instr) (s : State), ((match opcodeOf i with | some (op, d, img) => let c := cmdAt op d img s; let u := cmdOpen c s; isTaken s && decide (opForbidden c u = false ∧ opTgt c u = true ∧ flagsOk c = true ∧ opPar c u = true ∧ opInTest c u = false ∧ opOff c u = true) | _ => false) : Bool) = true) :=
  ⟨⟨.nop (dsc .device []), State.reset, by decide +kernel⟩,
    ⟨.setMode { dsc .device [1, 0, 2] with ring := 4 }, live, by decide +kernel⟩,
    ⟨.setMode (dsc (.line (some 3)) [1, 0, 2]), live, by decide +kernel⟩,
    ⟨.setMode (dsc .device [9, 0, 2]), live, by decide +kernel⟩,
    ⟨.bankSwap (dsc (.line (some 3)) []), (fun s => { s with tst := { s.tst with blk := some { target := Tgt.code (.line (some 3)), kinds := 1, cmd := none, until_ := 0 } } }) (modRx 3 (fun r => { r with inTest := true }) live), by decide +kernel⟩,
    ⟨.capture (dsc (.line (some 3)) ([0, 0, 0, 0] ++ bytesLE 4 2048)), withRst (fun r => { r with on := Vector.replicate 50 false }) live, by decide +kernel⟩⟩

theorem witness_UnprivilegedRings :
    (∃ (i : Instr) (s : State), ((match opcodeOf i with | some (op, d, img) => let c := cmdAt op d img s; isTaken s && decide (ringPriv s d.ring = false ∧ ((op = 0x00 ∨ (op = 0x01 ∧ c.p 0 = d.ring.val) ∨ op = 0x12 ∨ op = 0x32 ∨ op = 0x33 ∨ op = 0x50 ∨ op = 0x53))) | _ => false) : Bool) = true) ∧
    (∃ (i : Instr) (s : State), ((match opcodeOf i with | some (op, d, img) => let c := cmdAt op d img s; isTaken s && decide (ringPriv s d.ring = false ∧ (¬(op = 0x00 ∨ (op = 0x01 ∧ c.p 0 = d.ring.val) ∨ op = 0x12 ∨ op = 0x32 ∨ op = 0x33 ∨ op = 0x50 ∨ op = 0x53))) | _ => false) : Bool) = true) :=
  ⟨⟨.nop { dsc .device [] with ring := 4 }, live, by decide +kernel⟩,
    ⟨.setMode { dsc .device [1, 0, 2] with ring := 4 }, live, by decide +kernel⟩⟩

theorem witness_WaitingAndTimedCommands :
    (∃ (i : Instr) (s : State), ((match opcodeOf i with | some (op, d, img) => let c := cmdAt op d img s; let u := cmdOpen c s; isAccepted op d img s && decide (startable u c = false) | _ => false) : Bool) = true) ∧
    (∃ (i : Instr) (s : State), ((match opcodeOf i with | some (op, d, img) => let c := cmdAt op d img s; let u := cmdOpen c s; isAccepted op d img s && decide (startable u c = true ∧ c.timed = true) | _ => false) : Bool) = true) :=
  ⟨⟨.thermConfig (dsc .device [0, 5, 10, 0, 3, 1, 1, 1]), withRst (fun r => { r with mgmtRun := false }) live, by decide +kernel⟩,
    ⟨.freeze { dsc .device [] with flags := 2, time := 5000 }, live, by decide +kernel⟩⟩

theorem witness_ReadingCommands :
    (∃ (d : Desc) (s : State), (isAtOnce 0x00 d noImage s : Bool) = true) ∧
    (∃ (d : Desc) (s : State), (isAtOnce 0x01 d noImage s : Bool) = true) ∧
    (∃ (d : Desc) (s : State), (isAtOnce 0x02 d noImage s : Bool) = true) ∧
    (∃ (d : Desc) (s : State), (isAtOnce 0x12 d noImage s : Bool) = true) ∧
    (∃ (d : Desc) (s : State), (isAtOnce 0x61 d noImage s : Bool) = true) :=
  ⟨⟨dsc .device [], live, by decide +kernel⟩,
    ⟨dsc .device [0, 0, 0, 0, 4], (fun s => { s with rings := { s.rings with outcomes := [⟨0, 4, 0, true, 0⟩] } }) live, by decide +kernel⟩,
    ⟨dsc .device [0, 0, 0, 0, 1], (fun s => { s with tlm := { s.tlm with recs := [{ typ := 1, units := 2, more := false, frag := 0, origin := 0, time := 0, body := [], ring := some 0, id := 1, refetch := false, due := false }] } }) live, by decide +kernel⟩,
    ⟨dsc (.line (some 3)) [0x08, 0], live, by decide +kernel⟩,
    ⟨dsc .device [1, 0, 0, 0, 1], withEvt (fun e => { e with log := [{ seq := 1, src := 0x40, masked := false, time := 0, payload := 0 }] }) live, by decide +kernel⟩⟩

theorem witness_EventMasking :
    ∃ (d : Desc) (s : State), (isAtOnce 0x60 d noImage s : Bool) = true :=
  ⟨dsc .device [0, 0, 0, 0, 5], live, by decide +kernel⟩

theorem witness_BankWriting :
    (∃ (d : Desc) (s : State) (i : Nat) (o : Nat) (w : Word) (m : Word) (n : Fin 8), (let c := cmdAt 0x10 d noImage s; let u := cmdOpen c s; isAtOnce 0x10 d noImage s && decide ((bankEntries c)[i]? = some (o, w) ∧ ((bankEntries c).drop (i + 1)).all (fun e => e.1 != o) = true ∧ .line n ∈ bankTargets u c ∧ lineBankMask o = some m ∧ o < 0x410) : Bool) = true) ∧
    (∃ (d : Desc) (s : State) (i : Nat) (o : Nat) (w : Word) (m : Word) (n : Fin 16), (let c := cmdAt 0x10 d noImage s; let u := cmdOpen c s; isAtOnce 0x10 d noImage s && decide ((bankEntries c)[i]? = some (o, w) ∧ ((bankEntries c).drop (i + 1)).all (fun e => e.1 != o) = true ∧ .host n ∈ bankTargets u c ∧ hostBankMask o = some m) : Bool) = true) ∧
    (∃ (d : Desc) (s : State) (i : Nat) (o : Nat) (w : Word) (m : Word) (p : Fin 8), (let c := cmdAt 0x10 d noImage s; let u := cmdOpen c s; isAtOnce 0x10 d noImage s && decide ((bankEntries c)[i]? = some (o, w) ∧ ((bankEntries c).drop (i + 1)).all (fun e => e.1 != o) = true ∧ .port p ∈ bankTargets u c ∧ o = 0x080 ∧ portBankMask o = some m) : Bool) = true) :=
  ⟨⟨dsc (.line (some 3)) ([1, 0] ++ bytesLE 2 0x404 ++ bytesLE 4 0x101000), live, 0, 0x404, 0x101000, (lineBankMask 0x404).getD 0, 3, by decide +kernel⟩,
    ⟨dsc (.host (some 3)) ([1, 0] ++ bytesLE 2 0x8 ++ bytesLE 4 0xa00), live, 0, 0x8, 0xA00, (hostBankMask 8).getD 0, 3, by decide +kernel⟩,
    ⟨dsc (.port (some 3)) ([1, 0] ++ bytesLE 2 0x80 ++ bytesLE 4 0x1001), live, 0, 0x80, 0x1001, (portBankMask 0x80).getD 0, 3, by decide +kernel⟩⟩

theorem witness_BankCopyingAndLoading :
    ∃ (d : Desc) (s : State) (t : Nat), (let c := cmdAt 0x13 d noImage s; isAtOnce 0x13 d noImage s && decide (t < 4 ∧ t ≠ c.p 0) : Bool) = true :=
  ⟨dsc (.line (some 3)) [3, 0, 1, 0, 5, 0], live, 0, by decide +kernel⟩

theorem witness_SettingAMode :
    ∃ (d : Desc) (s : State), (isAtOnce 0x15 d noImage s : Bool) = true :=
  ⟨dsc .device [1, 0, 0], live, by decide +kernel⟩

theorem witness_SwappingABank :
    (∃ (d : Desc) (s : State) (t : Tgt) (b : Block), (let c := cmdAt 0x14 d noImage s; let u := cmdOpen c s; isAtOnce 0x14 d noImage s && decide ((((∃ n, t = .line (some n) ∧ b = .line n) ∨ (∃ n, t = .host (some n) ∧ b = .host n)) ∧ swapTgts c.d.target c.d.param 21 = some [t]) ∧ blockOff u b = false) && (match arbHolderOf .swap u 4 t with | some a => true | _ => false) : Bool) = true) ∧
    (∃ (d : Desc) (s : State) (t : Tgt) (b : Block), (let c := cmdAt 0x14 d noImage s; let u := cmdOpen c s; isAtOnce 0x14 d noImage s && decide (((((∃ n, t = .line (some n) ∧ b = .line n) ∨ (∃ n, t = .host (some n) ∧ b = .host n)) ∧ swapTgts c.d.target c.d.param 21 = some [t]) ∧ blockOff u b = false) ∧ arbHolderOf .swap u 4 t = none) && (match slotClaim u 4 false (c.tgt.getD .device) with | some k => true | _ => false) : Bool) = true) ∧
    (∃ (d : Desc) (s : State) (t : Tgt) (b : Block) (o : Nat), (let c := cmdAt 0x14 d noImage s; let u := cmdOpen c s; isAtOnce 0x14 d noImage s && decide (((((((∃ n, t = .line (some n) ∧ b = .line n) ∨ (∃ n, t = .host (some n) ∧ b = .host n)) ∧ swapTgts c.d.target c.d.param 21 = some [t]) ∧ blockOff u b = false) ∧ arbHolderOf .swap u 4 t = none) ∧ slotClaim u 4 false (c.tgt.getD .device) = none) ∧ blockBroken u [] b = some o) && true : Bool) = true) ∧
    (∃ (d : Desc) (s : State) (t : Tgt) (b : Block), (let c := cmdAt 0x14 d noImage s; let u := cmdOpen c s; isAtOnce 0x14 d noImage s && decide (((((((∃ n, t = .line (some n) ∧ b = .line n) ∨ (∃ n, t = .host (some n) ∧ b = .host n)) ∧ swapTgts c.d.target c.d.param 21 = some [t]) ∧ blockOff u b = false) ∧ arbHolderOf .swap u 4 t = none) ∧ slotClaim u 4 false (c.tgt.getD .device) = none) ∧ blockBroken u [] b = none) : Bool) = true) :=
  ⟨⟨dsc (.line (some 3)) [], inArb 4 (.line (some 3)) live, .line (some 3), .line 3, by decide +kernel⟩,
    ⟨dsc (.line (some 3)) [], onSlot { Slot.empty with valid := true, action := 1, target := Tgt.code (.line (some 3)) } live, .line (some 3), .line 3, by decide +kernel⟩,
    ⟨dsc (.line (some 3)) [], modLine 3 (fun l => { l with shd := { l.shd with fir := l.shd.fir.map fun _ => 0x1FF01FF } }) live, .line (some 3), .line 3, 0x410, by decide +kernel⟩,
    ⟨dsc (.line (some 3)) [], live, .line (some 3), .line 3, by decide +kernel⟩⟩

theorem witness_LineSignal :
    (∃ (n : Fin 8) (s : State), s.lines[n].rx.st = .off) ∧
    (∃ (n : Fin 8) (s : State), s.lines[n].rx.st ≠ .off ∧ s.lines[n].rx.st ≠ .dark) ∧
    (∃ (n : Fin 8) (s : State), s.lines[n].rx.st ≠ .off ∧ s.lines[n].rx.st = .up) :=
  ⟨⟨3, rxIn .off live, by decide +kernel⟩,
    ⟨3, rxIn .gain live, by decide +kernel⟩,
    ⟨3, rxIn .up live, by decide +kernel⟩⟩

theorem witness_LineAcquisition :
    (∃ (n : Fin 8) (s : State), (let r := s.lines[n].rx; decide (r.st ≠ .timing) : Bool) = true) ∧
    (∃ (n : Fin 8) (s : State), (let r := s.lines[n].rx; decide (r.st = .timing) : Bool) = true) ∧
    (∃ (n : Fin 8) (s : State), (let r := s.lines[n].rx; decide (r.st = .gain ∨ r.st = .timing ∨ r.st = .train ∨ r.st = .frame) : Bool) = true) ∧
    (∃ (n : Fin 8) (s : State), (let r := s.lines[n].rx; decide (¬(r.st = .gain ∨ r.st = .timing ∨ r.st = .train ∨ r.st = .frame)) : Bool) = true) ∧
    (∃ (n : Fin 8) (s : State), (let r := s.lines[n].rx; decide (r.st = .relock) : Bool) = true) ∧
    (∃ (n : Fin 8) (s : State), (let r := s.lines[n].rx; decide (r.st ≠ .relock) : Bool) = true) ∧
    (∃ (n : Fin 8) (s : State), (let r := s.lines[n].rx; decide (r.st = .up) && (match s.lines[n].eq.stored with | some k => true | _ => false) : Bool) = true) ∧
    (∃ (n : Fin 8) (s : State), (let r := s.lines[n].rx; decide (r.st ≠ .up) : Bool) = true) :=
  ⟨⟨3, rxIn .off live, by decide +kernel⟩,
    ⟨3, rxIn .timing live, by decide +kernel⟩,
    ⟨3, rxIn .gain live, by decide +kernel⟩,
    ⟨3, rxIn .off live, by decide +kernel⟩,
    ⟨3, rxIn .relock live, by decide +kernel⟩,
    ⟨3, rxIn .off live, by decide +kernel⟩,
    ⟨3, onEq (fun e => { e with stored := some { coefs := EqCoefs.zero, vga := 0, tia := 0, freq := 0 } }) (rxIn .up live), by decide +kernel⟩,
    ⟨3, rxIn .off live, by decide +kernel⟩⟩

theorem witness_LineLocksAndOutage :
    (∃ (n : Fin 8) (s : State), ¬(modeOf s = 4 ∧ lineCode s n = 3)) ∧
    (∃ (n : Fin 8) (s : State), (let r := s.lines[n].rx; decide (modeOf s = 4 ∧ lineCode s n = 3 ∧ (¬(r.st = .frame ∨ r.st = .up ∨ r.st = .relock))) : Bool) = true) ∧
    (∃ (n : Fin 8) (s : State), (let r := s.lines[n].rx; decide ((modeOf s = 4 ∧ lineCode s n = 3 ∧ (r.st = .frame ∨ r.st = .up ∨ r.st = .relock)) ∧ (r.st = .frame ∨ r.st = .relock)) : Bool) = true) ∧
    (∃ (n : Fin 8) (s : State), (let r := s.lines[n].rx; decide (modeOf s = 4 ∧ lineCode s n = 3 ∧ r.st = .up) : Bool) = true) ∧
    (∃ (n : Fin 8) (s : State), (let f := s.lines[n].fr; decide (f.hchkInt = 0 ∧ f.scInt = 0) : Bool) = true) ∧
    (∃ (n : Fin 8) (s : State), (let f := s.lines[n].fr; decide ((¬(f.hchkInt = 0 ∧ f.scInt = 0)) ∧ s.evt.rate.find? (fun e => e.1 == lineSrc n 0x1A && e.2.1 == 0) = none) : Bool) = true) ∧
    (∃ (n : Fin 8) (s : State), (let r := s.lines[n].rx; let reach : Bool := decide (r.outage = true ∧ r.past2ms = false ∧ s.refOk = true ∧ r.st ≠ .up ∧ r.st ≠ .off); decide (¬reach) : Bool) = true) ∧
    (∃ (n : Fin 8) (s : State), (let r := s.lines[n].rx; let reach : Bool := decide (r.outage = true ∧ r.past2ms = false ∧ s.refOk = true ∧ r.st ≠ .up ∧ r.st ≠ .off); decide (reach ∧ r.squelch = false ∧ (portOfLine (modeOf s) n).isSome = true) : Bool) = true) ∧
    (∃ (n : Fin 8) (s : State) (p : Fin 8), (let again : Bool := decide (portEnabled s p = true ∧ (∀ k, portOfLine (modeOf s) k = some p → s.lines[k].rx.st = .up) ∧ s.ports[p].sqDeskew = false); decide (¬again) : Bool) = true) ∧
    (∃ (n : Fin 8) (s : State) (p : Fin 8), (let again : Bool := decide (portEnabled s p = true ∧ (∀ k, portOfLine (modeOf s) k = some p → s.lines[k].rx.st = .up) ∧ s.ports[p].sqDeskew = false); decide (again) : Bool) = true) :=
  ⟨⟨3, rxIn .off live, by decide +kernel⟩,
    ⟨3, (fun s => { s with ports := s.ports.map fun p => { p with act := PortBank.default 4 false 3 0 } }) (rxIn .dark live), by decide +kernel⟩,
    ⟨3, (fun s => { s with ports := s.ports.map fun p => { p with act := PortBank.default 4 false 3 0 } }) (rxIn .frame live), by decide +kernel⟩,
    ⟨3, (fun s => { s with ports := s.ports.map fun p => { p with act := PortBank.default 4 false 3 0 } }) (rxIn .up live), by decide +kernel⟩,
    ⟨3, rxIn .off live, by decide +kernel⟩,
    ⟨3, onFr (fun f => { f with hchkInt := 2 }) live, by decide +kernel⟩,
    ⟨3, rxIn .off live, by decide +kernel⟩,
    ⟨3, modRx 3 (fun r => { r with st := .dark, outage := true }) live, by decide +kernel⟩,
    ⟨3, rxIn .off live, 3, by decide +kernel⟩,
    ⟨3, rxIn .up live, 3, by decide +kernel⟩⟩

theorem witness_LineGainAndPhases :
    (∃ (n : Fin 8) (s : State) (rms : Nat), (let r := s.lines[n].rx; decide (r.st = .off) : Bool) = true) ∧
    (∃ (n : Fin 8) (s : State) (rms : Nat), (let r := s.lines[n].rx; let first : Bool := decide (r.st = .gain ∧ r.tiaPick = true ∧ tiaRuns s n = true); decide (first) : Bool) = true) ∧
    (∃ (n : Fin 8) (s : State) (rms : Nat), (let r := s.lines[n].rx; let first : Bool := decide (r.st = .gain ∧ r.tiaPick = true ∧ tiaRuns s n = true); let held : Bool := decide (r.st = .dark ∨ r.st = .gain ∧ (tiaBusy s n = true ∨ r.vgaStepDue.isSome = true)); decide (((r.st ≠ .off ∧ (¬first)) ∧ held) ∧ r.vga ≤ 80) : Bool) = true) ∧
    (∃ (n : Fin 8) (s : State) (rms : Nat), (let r := s.lines[n].rx; let first : Bool := decide (r.st = .gain ∧ r.tiaPick = true ∧ tiaRuns s n = true); let held : Bool := decide (r.st = .dark ∨ r.st = .gain ∧ (tiaBusy s n = true ∨ r.vgaStepDue.isSome = true)); decide (((r.st ≠ .off ∧ (¬first)) ∧ (¬held)) ∧ r.vga ≤ 80) && true : Bool) = true) ∧
    (∃ (n : Fin 8) (s : State), (let r := s.lines[n].rx; let e := s.lines[n].eq; decide (¬(r.st = .train ∧ e.phase = 1)) : Bool) = true) ∧
    (∃ (n : Fin 8) (s : State), (let r := s.lines[n].rx; let e := s.lines[n].eq; decide (r.st = .train ∧ e.phase = 1) : Bool) = true) ∧
    (∃ (n : Fin 8) (s : State) (loop : Fin 4), (let e := s.lines[n].eq; decide (e.phase = 0 ∨ loopClamped e.live loop.val = false) : Bool) = true) ∧
    (∃ (n : Fin 8) (s : State) (loop : Fin 4), (let e := s.lines[n].eq; decide (e.phase ≠ 0 ∧ loopClamped e.live loop.val = true) : Bool) = true) ∧
    (∃ (n : Fin 8) (s : State), (let r := s.lines[n].rx; decide (r.vgaStepDue = none ∨ tiaWriting s n = true) : Bool) = true) ∧
    (∃ (n : Fin 8) (s : State), (let r := s.lines[n].rx; decide (tiaWriting s n = false) && (match r.vgaStepDue with | some d => true | _ => false) : Bool) = true) :=
  ⟨⟨3, rxIn .off live, 0, by decide +kernel⟩,
    ⟨3, modRx 3 (fun r => { r with st := .gain, tiaPick := true }) (modLine 3 (fun l => { l with act := { l.act with rxfe := l.act.rxfe ||| 0x200 } }) live), 0, by decide +kernel⟩,
    ⟨3, rxIn .dark live, 0, by decide +kernel⟩,
    ⟨3, rxIn .gain live, 0, by decide +kernel⟩,
    ⟨3, rxIn .off live, by decide +kernel⟩,
    ⟨3, onEq (fun e => { e with phase := 1 }) (rxIn .train live), by decide +kernel⟩,
    ⟨3, rxIn .off live, 0, by decide +kernel⟩,
    ⟨3, onEq (fun e => { e with phase := 2, live := { e.live with h1 := 3 / 4 } }) (rxIn .up live), 3, by decide +kernel⟩,
    ⟨3, rxIn .off live, by decide +kernel⟩,
    ⟨3, modRx 3 (fun r => { r with vgaStepDue := some 4 }) (rxIn .up live), by decide +kernel⟩⟩

theorem witness_LineLoops :
    (∃ (n : Fin 8) (xs : List Int) (cdr : List (Int × Int)) (s : State), (let r := s.lines[n].rx; decide (r.st = .off ∨ r.st = .dark ∨ r.st = .gain) : Bool) = true) ∧
    (∃ (n : Fin 8) (xs : List Int) (cdr : List (Int × Int)) (s : State), (let r := s.lines[n].rx; decide (¬(r.st = .off ∨ r.st = .dark ∨ r.st = .gain)) : Bool) = true) :=
  ⟨⟨3, [], [], rxIn .off live, by decide +kernel⟩,
    ⟨3, [], [], rxIn .timing live, by decide +kernel⟩⟩

theorem witness_LineQualityAndStoredBank :
    (∃ (n : Fin 8) (s : State) (skews : List Nat), (let r := s.lines[n].rx; decide (r.st = .off ∨ r.st = .dark ∨ r.st = .gain ∨ r.st = .timing) : Bool) = true) ∧
    (∃ (n : Fin 8) (s : State) (skews : List Nat), (let r := s.lines[n].rx; let e := s.lines[n].eq; decide (¬(r.st = .off ∨ r.st = .dark ∨ r.st = .gain ∨ r.st = .timing)) && (match e.acc.mse with | some m => decide (m ≠ 0) && let p := levelPower e.live / m; decide (0 < p ∧ 0 ≤ cdB p.num.natAbs p.den ∧ cdB p.num.natAbs p.den < 65536) | _ => false) : Bool) = true) ∧
    (∃ (n : Fin 8) (s : State) (skews : List Nat), (let r := s.lines[n].rx; let e := s.lines[n].eq; decide (¬(r.st = .off ∨ r.st = .dark ∨ r.st = .gain ∨ r.st = .timing)) && (match eyeOf e.acc.hist with | some v => true | _ => false) : Bool) = true) ∧
    (∃ (n : Fin 8) (s : State) (skews : List Nat), (let r := s.lines[n].rx; let e := s.lines[n].eq; decide (¬(r.st = .off ∨ r.st = .dark ∨ r.st = .gain ∨ r.st = .timing)) && (match e.acc.errors with | some v => true | _ => false) : Bool) = true) ∧
    (∃ (n : Fin 8) (s : State) (skews : List Nat), (let r := s.lines[n].rx; let e := s.lines[n].eq; decide ((¬(r.st = .off ∨ r.st = .dark ∨ r.st = .gain ∨ r.st = .timing)) ∧ e.muted = true) : Bool) = true) ∧
    (∃ (n : Fin 8) (s : State) (skews : List Nat), (let r := s.lines[n].rx; decide ((¬(r.st = .off ∨ r.st = .dark ∨ r.st = .gain ∨ r.st = .timing)) ∧ r.skewWins < 15) : Bool) = true) ∧
    (∃ (n : Fin 8) (s : State) (skews : List Nat), (let r := s.lines[n].rx; decide ((¬(r.st = .off ∨ r.st = .dark ∨ r.st = .gain ∨ r.st = .timing)) ∧ 15 ≤ r.skewWins) : Bool) = true) ∧
    (∃ (n : Fin 8) (s : State) (skews : List Nat), (let r := s.lines[n].rx; let e := s.lines[n].eq; decide (¬(r.st = .off ∨ r.st = .dark ∨ r.st = .gain ∨ r.st = .timing)) && (match e.acc.tentMse with | some m => decide (m ≠ 0 ∧ r.st = .train ∧ e.phase = 1 ∧ e.conv = false) | _ => false) : Bool) = true) ∧
    (∃ (n : Fin 8) (s : State) (skews : List Nat), (let r := s.lines[n].rx; decide ((¬(r.st = .off ∨ r.st = .dark ∨ r.st = .gain ∨ r.st = .timing)) ∧ r.st = .up) : Bool) = true) ∧
    (∃ (n : Fin 8) (s : State) (skews : List Nat), (let r := s.lines[n].rx; decide ((¬(r.st = .off ∨ r.st = .dark ∨ r.st = .gain ∨ r.st = .timing)) ∧ r.st = .frame) : Bool) = true) ∧
    (∃ (n : Fin 8) (s : State), (let e := s.lines[n].eq; decide (e.sweep = none) : Bool) = true) ∧
    (∃ (n : Fin 8) (s : State), (let e := s.lines[n].eq; let b := s.lines[n].act; (match e.sweep with | some w => decide (bit b.eqCtl 5 = true) | _ => false) : Bool) = true) ∧
    (∃ (n : Fin 8) (s : State), (let e := s.lines[n].eq; let b := s.lines[n].act; (match e.sweep with | some w => decide (bit b.eqCtl 5 = false ∧ w.blocks < 16) | _ => false) : Bool) = true) ∧
    (∃ (n : Fin 8) (s : State), (let e := s.lines[n].eq; let b := s.lines[n].act; (match e.sweep with | some w => decide (bit b.eqCtl 5 = false ∧ 16 ≤ w.blocks) | _ => false) : Bool) = true) ∧
    (∃ (n : Fin 8) (s : State), (let r := s.lines[n].rx; let e := s.lines[n].eq; let alive : Bool := decide (domOn s (rxDomain n) = true ∧ laneHeld s (.line n) = false); let save : Bool := decide (alive ∧ s.rst.mgmtRun = true ∧ r.st = .up ∧ e.conv = true ∧ 0 ≤ e.margin); decide (save) : Bool) = true) ∧
    (∃ (n : Fin 8) (s : State), (let alive : Bool := decide (domOn s (rxDomain n) = true ∧ laneHeld s (.line n) = false); decide (¬alive) : Bool) = true) ∧
    (∃ (n : Fin 8) (s : State), (let r := s.lines[n].rx; let e := s.lines[n].eq; let alive : Bool := decide (domOn s (rxDomain n) = true ∧ laneHeld s (.line n) = false); let save : Bool := decide (alive ∧ s.rst.mgmtRun = true ∧ r.st = .up ∧ e.conv = true ∧ 0 ≤ e.margin); decide (alive ∧ (¬save)) : Bool) = true) :=
  ⟨⟨3, rxIn .off live, [], by decide +kernel⟩,
    ⟨3, onEq (fun e => { e with acc := { e.acc with n := 1, sse := 36, tn := 1, tsse := 36, bits := 2 ^ 90, hist := List.replicate 4 (List.replicate 256 1) }, live := { e.live with ofs := 0, lvl1 := -32, lvl2 := 32 } }) (rxIn .up live), [], by decide +kernel⟩,
    ⟨3, onEq (fun e => { e with acc := { e.acc with n := 1, sse := 36, tn := 1, tsse := 36, bits := 2 ^ 90, hist := List.replicate 4 (List.replicate 256 1) }, live := { e.live with ofs := 0, lvl1 := -32, lvl2 := 32 } }) (rxIn .up live), [], by decide +kernel⟩,
    ⟨3, onEq (fun e => { e with acc := { e.acc with n := 1, sse := 36, tn := 1, tsse := 36, bits := 2 ^ 90, hist := List.replicate 4 (List.replicate 256 1) }, live := { e.live with ofs := 0, lvl1 := -32, lvl2 := 32 } }) (rxIn .up live), [], by decide +kernel⟩,
    ⟨3, onEq (fun e => { e with muted := true }) (rxIn .up live), [], by decide +kernel⟩,
    ⟨3, rxIn .train live, [], by decide +kernel⟩,
    ⟨3, modRx 3 (fun r => { r with st := .up, skewWins := 15 }) live, [], by decide +kernel⟩,
    ⟨3, onEq (fun e => { e with phase := 1, acc := { e.acc with tn := 1, tsse := 36 } }) (rxIn .train live), [], by decide +kernel⟩,
    ⟨3, rxIn .up live, [], by decide +kernel⟩,
    ⟨3, rxIn .frame live, [], by decide +kernel⟩,
    ⟨3, rxIn .off live, by decide +kernel⟩,
    ⟨3, onEq (fun e => { e with sweep := some { blocks := 15, corr := [], cur := [], main := 0 } }) (modLine 3 (fun l => { l with act := { l.act with eqCtl := l.act.eqCtl ||| 0x20 } }) live), by decide +kernel⟩,
    ⟨3, onEq (fun e => { e with sweep := some { blocks := 15, corr := [], cur := [], main := 0 } }) (rxIn .train live), by decide +kernel⟩,
    ⟨3, onEq (fun e => { e with sweep := some { blocks := 16, corr := [], cur := [], main := 0 } }) (rxIn .train live), by decide +kernel⟩,
    ⟨3, onEq (fun e => { e with conv := true }) (rxIn .up live), by decide +kernel⟩,
    ⟨3, withRst (fun r => { r with on := Vector.replicate 50 false }) live, by decide +kernel⟩,
    ⟨3, rxIn .off live, by decide +kernel⟩⟩

theorem witness_LineTransmit :
    (∃ (n : Fin 8) (s : State), (let x := s.lines[n].tx; let g := bits s.lines[n].act.txCfg 24 8; decide (x.skew = g) : Bool) = true) ∧
    (∃ (n : Fin 8) (s : State), (let x := s.lines[n].tx; let g := bits s.lines[n].act.txCfg 24 8; decide (x.skew < g) : Bool) = true) ∧
    (∃ (n : Fin 8) (s : State), (let x := s.lines[n].tx; let g := bits s.lines[n].act.txCfg 24 8; decide (g < x.skew) : Bool) = true) ∧
    (∃ (n : Fin 8) (s : State), (let x := s.lines[n].tx; decide (x.clips = 0) : Bool) = true) ∧
    (∃ (n : Fin 8) (s : State), (let x := s.lines[n].tx; decide (x.clips ≠ 0) && let last := s.evt.rate.find? fun e => e.1 == lineSrc n 0x17 && e.2.1 == 0; (match last with | some e => decide (s.clk < e.2.2 + oneSecond) | _ => false) : Bool) = true) ∧
    (∃ (n : Fin 8) (s : State), (let x := s.lines[n].tx; decide (x.clips ≠ 0) && let last := s.evt.rate.find? fun e => e.1 == lineSrc n 0x17 && e.2.1 == 0; decide (((match last with | some e => decide (e.2.2 + oneSecond ≤ s.clk) | none => true) = true)) : Bool) = true) ∧
    (∃ (n : Fin 8) (s : State) (miso : List Byte), s.ocp = []) ∧
    (∃ (n : Fin 8) (s : State) (miso : List Byte), ((match s.ocp with | a :: l => decide (ocpStale s a = true ∨ a.what = .void) | _ => false) : Bool) = true) ∧
    (∃ (n : Fin 8) (s : State) (miso : List Byte), ((match s.ocp with | a :: l => (match a.what with | .xfer c => true | _ => false) | _ => false) : Bool) = true) ∧
    (∃ (n : Fin 8) (s : State) (miso : List Byte), ((match s.ocp with | a :: l => (match a.what with | .tiaWrite m code k => decide (ocpStale s a = false) | _ => false) | _ => false) : Bool) = true) ∧
    (∃ (n : Fin 8) (s : State) (miso : List Byte), ((match s.ocp with | a :: l => (match a.what with | .drvWrite m code k => true | _ => false) | _ => false) : Bool) = true) ∧
    (∃ (n : Fin 8) (s : State) (miso : List Byte), ((match s.ocp with | a :: l => let back := byteAt miso (miso.length - 1); (match a.what with | .tiaRead m code k => decide (ocpStale s a = false ∧ back = code) | _ => false) | _ => false) : Bool) = true) ∧
    (∃ (n : Fin 8) (s : State) (miso : List Byte), ((match s.ocp with | a :: l => let back := byteAt miso (miso.length - 1); (match a.what with | .tiaRead m code k => decide (ocpStale s a = false ∧ back ≠ code ∧ k < 2) | _ => false) | _ => false) : Bool) = true) ∧
    (∃ (n : Fin 8) (s : State) (miso : List Byte), ((match s.ocp with | a :: l => let back := byteAt miso (miso.length - 1); (match a.what with | .tiaRead m code k => decide (ocpStale s a = false ∧ back ≠ code ∧ 2 ≤ k) | _ => false) | _ => false) : Bool) = true) ∧
    (∃ (n : Fin 8) (s : State) (miso : List Byte), ((match s.ocp with | a :: l => let back := byteAt miso (miso.length - 1); (match a.what with | .drvRead m code k => decide (back ≠ code ∧ k < 2) | _ => false) | _ => false) : Bool) = true) ∧
    (∃ (n : Fin 8) (s : State) (miso : List Byte), ((match s.ocp with | a :: l => let back := byteAt miso (miso.length - 1); (match a.what with | .drvRead m code k => decide (back = code ∨ 2 ≤ k) | _ => false) | _ => false) : Bool) = true) ∧
    (∃ (n : Fin 8) (s : State) (miso : List Byte), ((match s.ocp with | a :: l => let back := byteAt miso (miso.length - 1); (match a.what with | .drvRead m code k => decide (back ≠ code ∧ 2 ≤ k) | _ => false) | _ => false) : Bool) = true) :=
  ⟨⟨3, live, by decide +kernel⟩,
    ⟨3, modLine 3 (fun l => { l with act := { l.act with txCfg := 0x08000000 } }) live, by decide +kernel⟩,
    ⟨3, onTx (fun x => { x with skew := 255 }) live, by decide +kernel⟩,
    ⟨3, live, by decide +kernel⟩,
    ⟨3, withEvt (fun e => { e with rate := [(lineSrc 3 0x17, 0, 400000001 - oneSecond)] }) (onTx (fun x => { x with clips := 5 }) live), by decide +kernel⟩,
    ⟨3, onTx (fun x => { x with clips := 5 }) live, by decide +kernel⟩,
    ⟨3, live, [4], by decide +kernel⟩,
    ⟨3, onOcp (.tiaWrite 3 4 1) (modLine 3 (fun l => { l with act := { l.act with rxfe := l.act.rxfe ||| 0x200 } }) (rxIn .off live)), [4], by decide +kernel⟩,
    ⟨3, onOcp (.xfer (cmdOf 0x34)) (modLine 3 (fun l => { l with act := { l.act with rxfe := l.act.rxfe ||| 0x200 } }) (rxIn .up live)), [4], by decide +kernel⟩,
    ⟨3, onOcp (.tiaWrite 3 4 1) (modLine 3 (fun l => { l with act := { l.act with rxfe := l.act.rxfe ||| 0x200 } }) (rxIn .up live)), [4], by decide +kernel⟩,
    ⟨3, onOcp (.drvWrite 3 4 1) (modLine 3 (fun l => { l with act := { l.act with rxfe := l.act.rxfe ||| 0x200 } }) (rxIn .up live)), [4], by decide +kernel⟩,
    ⟨3, onOcp (.tiaRead 3 4 1) (modLine 3 (fun l => { l with act := { l.act with rxfe := l.act.rxfe ||| 0x200 } }) (rxIn .up live)), [4], by decide +kernel⟩,
    ⟨3, onOcp (.tiaRead 3 4 1) (modLine 3 (fun l => { l with act := { l.act with rxfe := l.act.rxfe ||| 0x200 } }) (rxIn .up live)), [5], by decide +kernel⟩,
    ⟨3, onOcp (.tiaRead 3 4 2) (modLine 3 (fun l => { l with act := { l.act with rxfe := l.act.rxfe ||| 0x200 } }) (rxIn .up live)), [5], by decide +kernel⟩,
    ⟨3, onOcp (.drvRead 3 4 1) (modLine 3 (fun l => { l with act := { l.act with rxfe := l.act.rxfe ||| 0x200 } }) (rxIn .up live)), [5], by decide +kernel⟩,
    ⟨3, onOcp (.drvRead 3 4 1) (modLine 3 (fun l => { l with act := { l.act with rxfe := l.act.rxfe ||| 0x200 } }) (rxIn .up live)), [4], by decide +kernel⟩,
    ⟨3, onOcp (.drvRead 3 4 2) (modLine 3 (fun l => { l with act := { l.act with rxfe := l.act.rxfe ||| 0x200 } }) (rxIn .up live)), [5], by decide +kernel⟩⟩

theorem witness_TrainingResponder :
    (∃ (n : Fin 8) (m : BitVec 64) (s : State), bits m 60 4 ≠ 1) ∧
    (∃ (n : Fin 8) (m : BitVec 64) (s : State), bits m 60 4 ≠ 3) ∧
    (∃ (n : Fin 8) (m : BitVec 64) (s : State), (let runs : Bool := decide (trnRuns s = true ∧ domOn s (txDomain n) = true); decide ((¬runs) ∧ bits m 60 4 = 1) : Bool) = true) ∧
    (∃ (n : Fin 8) (m : BitVec 64) (s : State), (let runs : Bool := decide (trnRuns s = true ∧ domOn s (txDomain n) = true); decide ((¬runs) ∧ bits m 60 4 = 3) : Bool) = true) ∧
    (∃ (n : Fin 8) (m : BitVec 64) (s : State), (let l := s.lines[n]; let x := l.tx; let runs : Bool := decide (trnRuns s = true ∧ domOn s (txDomain n) = true); decide (runs ∧ bits m 57 3 ≠ n.val ∧ bits m 60 4 = 1 ∧ x.mismatchRaised = false) : Bool) = true) ∧
    (∃ (n : Fin 8) (m : BitVec 64) (s : State), (let l := s.lines[n]; let x := l.tx; let runs : Bool := decide (trnRuns s = true ∧ domOn s (txDomain n) = true); decide (runs ∧ bits m 57 3 ≠ n.val ∧ bits m 60 4 = 3 ∧ x.mismatchRaised = false) : Bool) = true) ∧
    (∃ (n : Fin 8) (m : BitVec 64) (s : State) (q : Nat), (let l := s.lines[n]; let x := l.tx; let runs : Bool := decide (trnRuns s = true ∧ domOn s (txDomain n) = true); let quiet : Bool := decide (x.trnState ≠ 4 ∨ l.rx.st ≠ .up ∨ l.act.trnReq = false); decide (runs ∧ bits m 57 3 = n.val ∧ quiet) && (match x.lastAnswer with | some (q, r) => decide (q.toNat = bits m 49 8 ∧ bits m 60 4 = 1) | _ => false) : Bool) = true) ∧
    (∃ (n : Fin 8) (m : BitVec 64) (s : State) (q : Nat), (let l := s.lines[n]; let x := l.tx; let runs : Bool := decide (trnRuns s = true ∧ domOn s (txDomain n) = true); let quiet : Bool := decide (x.trnState ≠ 4 ∨ l.rx.st ≠ .up ∨ l.act.trnReq = false); decide (runs ∧ bits m 57 3 = n.val ∧ quiet) && (match x.lastAnswer with | some (q, r) => decide (q.toNat = bits m 49 8 ∧ bits m 60 4 = 3) | _ => false) : Bool) = true) ∧
    (∃ (n : Fin 8) (m : BitVec 64) (s : State), (let l := s.lines[n]; let x := l.tx; let runs : Bool := decide (trnRuns s = true ∧ domOn s (txDomain n) = true); let quiet : Bool := decide (x.trnState ≠ 4 ∨ l.rx.st ≠ .up ∨ l.act.trnReq = false); let fresh : Bool := match x.lastAnswer with | some (q, _) => decide (q.toNat ≠ bits m 49 8) | none => true; decide (runs ∧ bits m 57 3 = n.val ∧ quiet ∧ fresh ∧ bits m 60 4 = 1) : Bool) = true) ∧
    (∃ (n : Fin 8) (m : BitVec 64) (s : State), (let l := s.lines[n]; let x := l.tx; let runs : Bool := decide (trnRuns s = true ∧ domOn s (txDomain n) = true); let quiet : Bool := decide (x.trnState ≠ 4 ∨ l.rx.st ≠ .up ∨ l.act.trnReq = false); let fresh : Bool := match x.lastAnswer with | some (q, _) => decide (q.toNat ≠ bits m 49 8) | none => true; decide (runs ∧ bits m 57 3 = n.val ∧ quiet ∧ fresh ∧ bits m 60 4 = 3) : Bool) = true) ∧
    (∃ (n : Fin 8) (m : BitVec 64) (s : State), (let l := s.lines[n]; let x := l.tx; decide (x.accepted = none ∨ s.rst.mgmtRun = false ∨ domOn s (txDomain n) = false) : Bool) = true) ∧
    (∃ (n : Fin 8) (m : BitVec 64) (s : State) (q : Nat), (let l := s.lines[n]; let x := l.tx; (match x.accepted with | some (q, f) => decide (s.rst.mgmtRun = true ∧ domOn s (txDomain n) = true ∧ (l.fr.txFc - f).toInt < 0) | _ => false) : Bool) = true) ∧
    (∃ (n : Fin 8) (m : BitVec 64) (s : State) (q : Nat), (let l := s.lines[n]; let x := l.tx; (match x.accepted with | some (q, f) => decide (s.rst.mgmtRun = true ∧ domOn s (txDomain n) = true ∧ 0 ≤ (l.fr.txFc - f).toInt) | _ => false) : Bool) = true) :=
  ⟨⟨3, 0x3600000000000000, live, by decide +kernel⟩,
    ⟨3, 0x1600000000000000, live, by decide +kernel⟩,
    ⟨3, 0x1600000000000000, withRst (fun r => { r with mgmtRun := false }) live, by decide +kernel⟩,
    ⟨3, 0x3600000000000000, withRst (fun r => { r with mgmtRun := false }) live, by decide +kernel⟩,
    ⟨3, 0x1400000000000000, live, by decide +kernel⟩,
    ⟨3, 0x3400000000000000, live, by decide +kernel⟩,
    ⟨3, 0x1600000000000000, onTx (fun x => { x with lastAnswer := some (0, 0) }) live, 0, by decide +kernel⟩,
    ⟨3, 0x3600000000000000, onTx (fun x => { x with lastAnswer := some (0, 0) }) live, 0, by decide +kernel⟩,
    ⟨3, 0x1600000000000000, live, by decide +kernel⟩,
    ⟨3, 0x3600000000000000, live, by decide +kernel⟩,
    ⟨3, 0x1600000000000000, live, by decide +kernel⟩,
    ⟨3, 0x1600000000000000, onTx (fun x => { x with accepted := some (0, 1) }) live, 0, by decide +kernel⟩,
    ⟨3, 0x1600000000000000, onTx (fun x => { x with accepted := some (0, 0) }) live, 0, by decide +kernel⟩⟩

theorem witness_TrainingRequester :
    (∃ (n : Fin 8) (m : BitVec 64) (s : State), bits m 60 4 ≠ 2) ∧
    (∃ (n : Fin 8) (m : BitVec 64) (s : State), (let runs : Bool := decide (trnRuns s = true ∧ domOn s (txDomain n) = true); decide ((¬runs) ∧ bits m 60 4 = 2) : Bool) = true) ∧
    (∃ (n : Fin 8) (m : BitVec 64) (s : State), (let runs : Bool := decide (trnRuns s = true ∧ domOn s (txDomain n) = true); decide (runs ∧ bits m 60 4 = 2 ∧ bits m 57 3 ≠ farLane s n) : Bool) = true) ∧
    (∃ (n : Fin 8) (m : BitVec 64) (s : State), (let l := s.lines[n]; let x := l.tx; let runs : Bool := decide (trnRuns s = true ∧ domOn s (txDomain n) = true); decide (runs ∧ bits m 60 4 = 2 ∧ bits m 57 3 = farLane s n ∧ x.trnState ≠ 4 ∧ l.rx.st = .up) && (match x.proc with | some p => decide (bits m 49 8 ≠ bits p.msg 49 8) | _ => false) : Bool) = true) ∧
    (∃ (n : Fin 8) (m : BitVec 64) (s : State), (let l := s.lines[n]; let x := l.tx; let runs : Bool := decide (trnRuns s = true ∧ domOn s (txDomain n) = true); decide (runs ∧ bits m 60 4 = 2 ∧ bits m 57 3 = farLane s n ∧ x.trnState ≠ 4 ∧ l.rx.st = .up) && (match x.proc with | some p => decide ((bits m 49 8 = bits p.msg 49 8 ∧ (p.step = .asked ∨ p.step = .undoing)) ∧ bits m 46 3 = 3) | _ => false) : Bool) = true) ∧
    (∃ (n : Fin 8) (m : BitVec 64) (s : State), (let l := s.lines[n]; let x := l.tx; let runs : Bool := decide (trnRuns s = true ∧ domOn s (txDomain n) = true); decide (runs ∧ bits m 60 4 = 2 ∧ bits m 57 3 = farLane s n ∧ x.trnState ≠ 4 ∧ l.rx.st = .up) && (match x.proc with | some p => decide ((bits m 49 8 = bits p.msg 49 8 ∧ (p.step = .asked ∨ p.step = .undoing)) ∧ bits m 46 3 = 5) | _ => false) : Bool) = true) ∧
    (∃ (n : Fin 8) (m : BitVec 64) (s : State), (let l := s.lines[n]; let x := l.tx; let runs : Bool := decide (trnRuns s = true ∧ domOn s (txDomain n) = true); decide (runs ∧ bits m 60 4 = 2 ∧ bits m 57 3 = farLane s n ∧ x.trnState ≠ 4 ∧ l.rx.st = .up) && (match x.proc with | some p => decide (((((bits m 49 8 = bits p.msg 49 8 ∧ (p.step = .asked ∨ p.step = .undoing)) ∧ bits m 46 3 ≤ 1) ∧ 0 < bits m 38 8) ∧ p.step = .asked) ∧ x.trnState = 1) | _ => false) : Bool) = true) ∧
    (∃ (n : Fin 8) (m : BitVec 64) (s : State), (let l := s.lines[n]; let x := l.tx; let runs : Bool := decide (trnRuns s = true ∧ domOn s (txDomain n) = true); decide (runs ∧ bits m 60 4 = 2 ∧ bits m 57 3 = farLane s n ∧ x.trnState ≠ 4 ∧ l.rx.st = .up) && (match x.proc with | some p => decide (((((bits m 49 8 = bits p.msg 49 8 ∧ (p.step = .asked ∨ p.step = .undoing)) ∧ bits m 46 3 = 2) ∧ p.step = .asked) ∧ x.trnState = 1) ∧ p.decrease = false) | _ => false) : Bool) = true) ∧
    (∃ (n : Fin 8) (m : BitVec 64) (s : State), (let l := s.lines[n]; let x := l.tx; (match x.proc with | some p => true | _ => false) : Bool) = true) ∧
    (∃ (n : Fin 8) (m : BitVec 64) (s : State), (let l := s.lines[n]; let x := l.tx; let runs : Bool := decide (trnRuns s = true ∧ domOn s (txDomain n) = true); let run : Bool := decide (runs ∧ l.rx.st = .up ∧ x.proc ≠ none); decide (¬run) : Bool) = true) ∧
    (∃ (n : Fin 8) (m : BitVec 64) (s : State), (let l := s.lines[n]; let x := l.tx; let runs : Bool := decide (trnRuns s = true ∧ domOn s (txDomain n) = true); let run : Bool := decide (runs ∧ l.rx.st = .up ∧ x.proc ≠ none); decide (run) : Bool) = true) ∧
    (∃ (n : Fin 8) (m : BitVec 64) (s : State), (let l := s.lines[n]; let x := l.tx; let runs : Bool := decide (trnRuns s = true ∧ domOn s (txDomain n) = true); let quiet : Bool := decide (runs ∧ l.rx.st = .up ∧ x.trnState = 4); decide (¬quiet) : Bool) = true) ∧
    (∃ (n : Fin 8) (m : BitVec 64) (s : State), (let l := s.lines[n]; let x := l.tx; let runs : Bool := decide (trnRuns s = true ∧ domOn s (txDomain n) = true); let quiet : Bool := decide (runs ∧ l.rx.st = .up ∧ x.trnState = 4); decide (quiet) : Bool) = true) :=
  ⟨⟨3, 0, live, by decide +kernel⟩,
    ⟨3, 0x2000000000000000, withRst (fun r => { r with mgmtRun := false }) live, by decide +kernel⟩,
    ⟨3, 0x2600000000000000, live, by decide +kernel⟩,
    ⟨3, 0x2002000000000000, onTx (fun x => { x with trnState := 1, proc := some { offIdx := 0, decrease := false, improved := false, base := 0, applied := 0, step := .asked, ctx := 0, msg := 0, busy := false } }) (rxIn .up live), by decide +kernel⟩,
    ⟨3, 0x2000c00000000000, onTx (fun x => { x with trnState := 1, proc := some { offIdx := 0, decrease := false, improved := false, base := 0, applied := 0, step := .asked, ctx := 0, msg := 0, busy := false } }) (rxIn .up live), by decide +kernel⟩,
    ⟨3, 0x2001400000000000, onTx (fun x => { x with trnState := 1, proc := some { offIdx := 0, decrease := false, improved := false, base := 0, applied := 0, step := .asked, ctx := 0, msg := 0, busy := false } }) (rxIn .up live), by decide +kernel⟩,
    ⟨3, 0x2000004000000000, onTx (fun x => { x with trnState := 1, proc := some { offIdx := 0, decrease := false, improved := false, base := 0, applied := 0, step := .asked, ctx := 0, msg := 0, busy := false } }) (rxIn .up live), by decide +kernel⟩,
    ⟨3, 0x2000800000000000, onTx (fun x => { x with trnState := 1, proc := some { offIdx := 0, decrease := false, improved := false, base := 0, applied := 0, step := .asked, ctx := 0, msg := 0, busy := false } }) (rxIn .up live), by decide +kernel⟩,
    ⟨3, 0, onTx (fun x => { x with trnState := 1, proc := some { offIdx := 0, decrease := false, improved := false, base := 0, applied := 0, step := .asked, ctx := 0, msg := 0, busy := false } }) (rxIn .up live), by decide +kernel⟩,
    ⟨3, 0, live, by decide +kernel⟩,
    ⟨3, 0, onTx (fun x => { x with trnState := 1, proc := some { offIdx := 0, decrease := false, improved := false, base := 0, applied := 0, step := .asked, ctx := 0, msg := 0, busy := false } }) (rxIn .up live), by decide +kernel⟩,
    ⟨3, 0, live, by decide +kernel⟩,
    ⟨3, 0, onTx (fun x => { x with trnState := 4 }) (rxIn .up live), by decide +kernel⟩⟩

theorem witness_ScrubsAndScans :
    (∃ (addr : Nat) (s : State) (ecc : Option EccOutcome), s.chk.scrub = false) ∧
    (∃ (addr : Nat) (s : State), (decide (s.chk.scrub = true) && true : Bool) = true) ∧
    (∃ (addr : Nat) (s : State), (let due := bit (scrubCfg s) 31 = true ∧ s.chk.late = false ∧ s.chk.passAt + 2 * scrubPeriod s ≤ s.clk; decide (¬due) : Bool) = true) ∧
    (∃ (addr : Nat) (s : State), (let due := bit (scrubCfg s) 31 = true ∧ s.chk.late = false ∧ s.chk.passAt + 2 * scrubPeriod s ≤ s.clk; decide (due) : Bool) = true) ∧
    (∃ (addr : Nat) (s : State) (mem : Nat) (ecc : Option EccOutcome), scrubOn s mem addr = false) ∧
    (∃ (addr : Nat) (s : State) (mem : Nat), mem ≠ 3 ∧ scrubOn s mem addr = true ∧ mem ≠ 6) ∧
    (∃ (addr : Nat) (s : State) (mem : Nat), mem ≠ 3 ∧ scrubOn s mem addr = true ∧ mem ≠ 2) ∧
    (∃ (addr : Nat) (s : State) (mem : Nat), mem ≠ 3 ∧ scrubOn s mem addr = true ∧ mem = 2) ∧
    (∃ (addr : Nat) (s : State) (ecc : Option EccOutcome), (∀ a b c, s.rst.sleep ≠ .asleep a b c) ∨ ecc = none ∨ ecc = some .single) ∧
    (∃ (addr : Nat) (s : State), ((match s.rst.sleep with | .asleep a b c => true | _ => false) : Bool) = true) ∧
    (∃ (addr : Nat) (s : State) (k : Fin 4), s.chk.ch[k].job = none) ∧
    (∃ (addr : Nat) (s : State) (k : Fin 4) (bytes : List Byte), ((match s.chk.ch[k].job with | some j => decide (j.space = 0 ∧ busOk s = false) | _ => false) : Bool) = true) ∧
    (∃ (addr : Nat) (s : State) (k : Fin 4) (dn : Nat) (st : Nat), ((match s.chk.ch[k].job with | some j => decide (j.space = 0) | _ => false) : Bool) = true) ∧
    (∃ (addr : Nat) (s : State) (k : Fin 4) (bytes : List Byte), ((match s.chk.ch[k].job with | some j => decide (j.space ≠ 0 ∨ busOk s = true) && let v := chkValue j (if j.space = 1 then Memory.read s.lmem j.start j.len else fit j.len bytes); decide (bit j.flags 4 = true ∧ v ≠ j.expect.toNat) | _ => false) : Bool) = true) ∧
    (∃ (addr : Nat) (s : State) (samples : List Int), s.cap = none) ∧
    (∃ (addr : Nat) (s : State) (samples : List Int), ((match s.cap with | some r => true | _ => false) : Bool) = true) ∧
    (∃ (addr : Nat) (s : State) (lane : LaneId) (bins : List Nat), s.scans.find? (fun r => r.target == laneCode lane) = none) ∧
    (∃ (addr : Nat) (s : State) (lane : LaneId) (bins : List Nat), ((match s.scans.find? (fun r => r.target == laneCode lane) with | some r => decide (r.trunc = true) | _ => false) : Bool) = true) ∧
    (∃ (addr : Nat) (s : State) (lane : LaneId) (bins : List Nat), ((match s.scans.find? (fun r => r.target == laneCode lane) with | some r => decide (r.trunc = false) | _ => false) : Bool) = true) :=
  ⟨⟨0, live, none, by decide +kernel⟩,
    ⟨0, withChk (fun c => { c with scrub := true }) live, by decide +kernel⟩,
    ⟨0, setUp [(0x7080, 0x20000000)] live, by decide +kernel⟩,
    ⟨0, live, by decide +kernel⟩,
    ⟨0, setUp [(0x7080, 0x20000000)] live, 1, none, by decide +kernel⟩,
    ⟨0, live, 1, by decide +kernel⟩,
    ⟨0, live, 1, by decide +kernel⟩,
    ⟨0, live, 2, by decide +kernel⟩,
    ⟨0, live, none, by decide +kernel⟩,
    ⟨0, withRst (fun r => { r with sleep := .asleep false false false }) live, by decide +kernel⟩,
    ⟨0, live, 0, by decide +kernel⟩,
    ⟨0, withChk (fun c => { c with ch := c.ch.map fun x => { x with job := some { theChk with space := 0 } } }) live, 0, [], by decide +kernel⟩,
    ⟨0, withChk (fun c => { c with ch := c.ch.map fun x => { x with job := some { theChk with space := 0 } } }) live, 0, 0, 0, by decide +kernel⟩,
    ⟨0, withChk (fun c => { c with ch := c.ch.map fun x => { x with job := some theChk } }) live, 0, [], by decide +kernel⟩,
    ⟨0, live, [], by decide +kernel⟩,
    ⟨0, { live with cap := some { cmd := none, target := Tgt.code (.line (some 3)), kind := 0, len := 1, dwell := 0, phase := 0, time := 0, subst := 0, trunc := false } }, [], by decide +kernel⟩,
    ⟨0, live, .line 3, [], by decide +kernel⟩,
    ⟨0, { live with scans := [{ cmd := none, target := Tgt.code (.line (some 3)), kind := 2, len := 1, dwell := 0, phase := 0, time := 0, subst := 0, trunc := true }] }, .line 3, [], by decide +kernel⟩,
    ⟨0, { live with scans := [{ cmd := none, target := Tgt.code (.line (some 3)), kind := 2, len := 1, dwell := 0, phase := 0, time := 0, subst := 0, trunc := false }] }, .line 3, [], by decide +kernel⟩⟩

theorem witness_SchedulingAndLaneCommands :
    (∃ (d : Desc) (s : State) (j : Fin 256), (let c := cmdAt 0x20 d noImage s; let u := cmdOpen c s; isAtOnce 0x20 d noImage s && (match slotFirst u (schedSlot c) with | some y => (match (if c.p 29 = 1 then some (Fin.ofNat 256 (c.p 28)) else lowestFree u) with | some i => decide (j ≠ i) | _ => false) | _ => false) : Bool) = true) ∧
    (∃ (d : Desc) (s : State), (let c := cmdAt 0x21 d noImage s; let u := cmdOpen c s; isAtOnce 0x21 d noImage s && decide ((freeTargets c u).length < 256) : Bool) = true) ∧
    (∃ (d : Desc) (s : State), (let c := cmdAt 0x22 d noImage s; let u := cmdOpen c s; isAtOnce 0x22 d noImage s && let x := slotOf ((fit 36 c.d.param).drop 4) 0; decide (earlier x.start (after u (usSub 100)) = false ∧ u.cad.domTags.any (fun e => e.1 == BitVec.ofNat 32 (leAt (fit 36 c.d.param) 32 4) && e.2 != .a) = false) : Bool) = true) ∧
    (∃ (d : Desc) (s : State), (isAtOnce 0x23 d noImage s && true : Bool) = true) ∧
    (∃ (d : Desc) (s : State), (let c := cmdAt 0x24 d noImage s; let u := cmdOpen c s; isAtOnce 0x24 d noImage s && (match chanterOf u with | some t => decide (downUp u t ≠ []) | _ => false) : Bool) = true) ∧
    (∃ (d : Desc) (s : State), (let c := cmdAt 0x30 d noImage s; isAtOnce 0x30 d noImage s && (match c.tgt with | some (.line (some n)) => true | _ => false) : Bool) = true) ∧
    (∃ (d : Desc) (s : State), (let c := cmdAt 0x30 d noImage s; isAtOnce 0x30 d noImage s && (match c.tgt with | some (.host (some n)) => true | _ => false) : Bool) = true) ∧
    (∃ (d : Desc) (s : State), (let c := cmdAt 0x31 d noImage s; let u := cmdOpen c s; isAtOnce 0x31 d noImage s && (match tgtLine c with | some n => decide (modeOf u ≠ 4 ∧ u.lines[n].act.trnReq = true ∧ u.lines[n].rx.inTest = false ∧ domOn u (txDomain n) = true ∧ arbHolder u 8 (.line (some n)) = none) && (match slotClaim u 8 false (.line (some n)) with | some k => true | _ => false) | _ => false) : Bool) = true) ∧
    (∃ (d : Desc) (s : State), (let c := cmdAt 0x31 d noImage s; let u := cmdOpen c s; isAtOnce 0x31 d noImage s && (match tgtLine c with | some n => decide (modeOf u ≠ 4 ∧ u.lines[n].act.trnReq = true ∧ u.lines[n].rx.inTest = false ∧ domOn u (txDomain n) = true ∧ arbHolder u 8 (.line (some n)) = none ∧ slotClaim u 8 false (.line (some n)) = none ∧ u.lines[n].rx.st ≠ .up) | _ => false) : Bool) = true) ∧
    (∃ (d : Desc) (s : State), (let c := cmdAt 0x31 d noImage s; let u := cmdOpen c s; isAtOnce 0x31 d noImage s && (match tgtLine c with | some n => decide (modeOf u ≠ 4 ∧ u.lines[n].act.trnReq = true ∧ u.lines[n].rx.inTest = false ∧ domOn u (txDomain n) = true ∧ arbHolder u 8 (.line (some n)) = none ∧ slotClaim u 8 false (.line (some n)) = none ∧ u.lines[n].rx.st = .up) | _ => false) : Bool) = true) ∧
    (∃ (d : Desc) (s : State), (let c := cmdAt 0x32 d noImage s; let u := cmdOpen c s; isAtOnce 0x32 d noImage s && (match tgtPort c with | some p => decide (u.ports[p].meas = none) | _ => false) : Bool) = true) ∧
    (∃ (d : Desc) (s : State), (let c := cmdAt 0x33 d noImage s; let u := cmdOpen c s; isAtOnce 0x33 d noImage s && (match tgtLine c with | some n => (match u.lines[n].fr.send with | some x => true | _ => false) | _ => false) : Bool) = true) ∧
    (∃ (d : Desc) (s : State), (let c := cmdAt 0x33 d noImage s; let u := cmdOpen c s; isAtOnce 0x33 d noImage s && (match tgtLine c with | some n => decide (u.lines[n].fr.send = none ∧ u.lines[n].fr.waiting = []) | _ => false) : Bool) = true) ∧
    (∃ (d : Desc) (s : State), (isAtOnce 0x34 d noImage s : Bool) = true) ∧
    (∃ (d : Desc) (s : State), (let c := cmdAt 0x50 d noImage s; let u := cmdOpen c s; isAtOnce 0x50 d noImage s && decide (freezeSoon u = false) : Bool) = true) ∧
    (∃ (d : Desc) (s : State) (n : Fin 8) (m : Fin 8), (let c := cmdAt 0x51 d noImage s; isAtOnce 0x51 d noImage s && decide (c.tgt = some (.line (some n)) ∧ m ≠ n) : Bool) = true) ∧
    (∃ (d : Desc) (s : State) (n : Fin 16) (m : Fin 16), (let c := cmdAt 0x51 d noImage s; isAtOnce 0x51 d noImage s && decide (c.tgt = some (.host (some n)) ∧ m ≠ n) : Bool) = true) ∧
    (∃ (d : Desc) (s : State) (n : Fin 8) (m : Fin 8), (let c := cmdAt 0x51 d noImage s; isAtOnce 0x51 d noImage s && decide (c.tgt = some (.port (some n)) ∧ m ≠ n) : Bool) = true) ∧
    (∃ (d : Desc) (s : State) (n : Fin 8), (let c := cmdAt 0x51 d noImage s; isAtOnce 0x51 d noImage s && decide (c.tgt = some (.port (some n)) ∧ c.p 0 / 2 ≠ 1) : Bool) = true) ∧
    (∃ (d : Desc) (s : State), (let c := cmdAt 0x51 d noImage s; isAtOnce 0x51 d noImage s && decide (c.tgt = some .device) : Bool) = true) ∧
    (∃ (d : Desc) (s : State) (n : Fin 8) (m : Fin 8), (let c := cmdAt 0x52 d noImage s; isAtOnce 0x52 d noImage s && decide (c.tgt = some (.line (some n)) ∧ m ≠ n) : Bool) = true) ∧
    (∃ (d : Desc) (s : State) (n : Fin 16) (m : Fin 16), (let c := cmdAt 0x52 d noImage s; isAtOnce 0x52 d noImage s && decide (c.tgt = some (.host (some n)) ∧ m ≠ n) : Bool) = true) ∧
    (∃ (d : Desc) (s : State) (n : Fin 8) (m : Fin 8), (let c := cmdAt 0x52 d noImage s; isAtOnce 0x52 d noImage s && decide (c.tgt = some (.port (some n)) ∧ m ≠ n) : Bool) = true) ∧
    (∃ (d : Desc) (s : State), (let c := cmdAt 0x52 d noImage s; isAtOnce 0x52 d noImage s && decide (c.tgt = some .device) : Bool) = true) ∧
    (∃ (d : Desc) (s : State), (let c := cmdAt 0x53 d noImage s; let u := cmdOpen c s; isAtOnce 0x53 d noImage s && let t := (Tgt.ofCode c.d.target).getD .device; (match capLane t with | some x => decide (domOn u x.1 = true ∧ domOn u 10 = true ∧ arbHolder u 2 t = none) && (match slotClaim u 2 false t with | some k => decide ((if byteAt c.d.param 0 = 2 then (spareSlice (getConv u x.2)).isSome = true else u.cap = none)) | _ => false) | _ => false) : Bool) = true) ∧
    (∃ (d : Desc) (s : State), (let c := cmdAt 0x53 d noImage s; let u := cmdOpen c s; isAtOnce 0x53 d noImage s && let t := (Tgt.ofCode c.d.target).getD .device; (match capLane t with | some x => decide (domOn u x.1 = true ∧ domOn u 10 = true ∧ arbHolder u 2 t = none ∧ slotClaim u 2 false t = none ∧ byteAt c.d.param 0 ≠ 2 ∧ u.cap = none) | _ => false) : Bool) = true) ∧
    (∃ (d : Desc) (s : State), (let c := cmdAt 0x53 d noImage s; let u := cmdOpen c s; isAtOnce 0x53 d noImage s && let t := (Tgt.ofCode c.d.target).getD .device; (match capLane t with | some x => decide (domOn u x.1 = true ∧ domOn u 10 = true ∧ arbHolder u 2 t = none ∧ slotClaim u 2 false t = none ∧ byteAt c.d.param 0 = 2 ∧ (spareSlice (getConv u x.2)).isSome = true) | _ => false) : Bool) = true) :=
  ⟨⟨dsc .device (bytesLE 4 0x0F0000 ++ bytesLE 8 (2000 * 2 ^ 24) ++ bytesLE 4 1000 ++ List.replicate 12 0), live, 1, by decide +kernel⟩,
    ⟨dsc .device [0, 1], live, by decide +kernel⟩,
    ⟨dsc .device ([0, 0] ++ bytesLE 2 4000 ++ bytesLE 4 0x0F0000 ++ bytesLE 8 (2000 * 2 ^ 24) ++ bytesLE 4 1000 ++ List.replicate 12 0 ++ bytesLE 4 7), cadence 2 (fun c => { c with st := 2, started := true, idx := 0, idxValid := true, enumDone := true }) live, by decide +kernel⟩,
    ⟨dsc .device [0, 0, 0, 0, 7], cadence 2 (fun c => { c with st := 2, started := true, idx := 0, idxValid := true, enumDone := true }) live, by decide +kernel⟩,
    ⟨dsc .device [], cadence 2 (fun c => { c with st := 2, started := true, idx := 0, idxValid := true, enumDone := true }) live, by decide +kernel⟩,
    ⟨dsc (.line (some 3)) [], live, by decide +kernel⟩,
    ⟨dsc (.host (some 3)) [], live, by decide +kernel⟩,
    ⟨dsc (.line (some 3)) [], onSlot { Slot.empty with valid := true, action := 4, target := Tgt.code (.line (some 3)) } live, by decide +kernel⟩,
    ⟨dsc (.line (some 3)) [], live, by decide +kernel⟩,
    ⟨dsc (.line (some 3)) [], modLine 3 (fun l => { l with act := { l.act with trnCfg := l.act.trnCfg ||| 0x80000000 } }) (rxIn .up live), by decide +kernel⟩,
    ⟨dsc (.port (some 3)) [5, 0], live, by decide +kernel⟩,
    ⟨{ dsc (.line (some 3)) [0, 0, 0, 0, 1, 2, 3] with time := 3 }, onFr (fun f => { f with send := some { cmd := cmdOf 0x33, msg := 0, data := [1], next := 0, tries := 1 } }) (rxIn .up live), by decide +kernel⟩,
    ⟨{ dsc (.line (some 3)) [0, 0, 0, 0, 1, 2, 3] with time := 3 }, live, by decide +kernel⟩,
    ⟨dsc .device [1, 3, 2, 0, 9, 8, 7], live, by decide +kernel⟩,
    ⟨dsc .device [], live, by decide +kernel⟩,
    ⟨dsc (.line (some 3)) [1, 0xFF], live, 3, 4, by decide +kernel⟩,
    ⟨dsc (.host (some 3)) [1, 3], live, 3, 4, by decide +kernel⟩,
    ⟨dsc (.port (some 3)) [1, 0xFF], live, 3, 4, by decide +kernel⟩,
    ⟨dsc (.port (some 3)) [1, 0xFF], live, 3, by decide +kernel⟩,
    ⟨dsc .device [1, 0xFF], live, by decide +kernel⟩,
    ⟨dsc (.line (some 3)) [2, 0x29, 1], live, 3, 4, by decide +kernel⟩,
    ⟨dsc (.host (some 3)) [1, 3, 0], live, 3, 4, by decide +kernel⟩,
    ⟨dsc (.port (some 3)) [1, 3, 0], live, 3, 4, by decide +kernel⟩,
    ⟨dsc .device [2, 0x84, 0], live, by decide +kernel⟩,
    ⟨dsc (.line (some 3)) ([0, 0, 0, 0] ++ bytesLE 4 2048), onSlot { Slot.empty with valid := true, action := 3, target := Tgt.code (.line (some 3)) } live, by decide +kernel⟩,
    ⟨dsc (.line (some 3)) ([0, 0, 0, 0] ++ bytesLE 4 2048), live, by decide +kernel⟩,
    ⟨dsc (.host (some 3)) [2, 12, 5, 0], live, by decide +kernel⟩⟩

theorem witness_ServiceCommands :
    (∃ (d : Desc) (s : State) (k : Fin 2), (let c := cmdAt 0x70 d noImage s; isAtOnce 0x70 d noImage s && decide (c.tgt = some (.mon (some k)) ∧ c.p 1 / 32 % 2 = 1) : Bool) = true) ∧
    (∃ (d : Desc) (s : State) (k : Fin 2), (let c := cmdAt 0x70 d noImage s; isAtOnce 0x70 d noImage s && decide (c.tgt = some (.mon (some k)) ∧ c.p 1 / 32 % 2 = 0) : Bool) = true) ∧
    (∃ (d : Desc) (s : State) (j : Fin 2), (let c := cmdAt 0x71 d noImage s; isAtOnce 0x71 d noImage s && (match c.tgt with | some (.mon k) => decide (j ∈ monInsts k) | _ => false) : Bool) = true) ∧
    (∃ (d : Desc) (s : State) (j : Fin 2), (let c := cmdAt 0x71 d noImage s; isAtOnce 0x71 d noImage s && (match c.tgt with | some (.mon k) => decide (j ∉ monInsts k) | _ => false) : Bool) = true) ∧
    (∃ (d : Desc) (s : State), (let c := cmdAt 0x72 d noImage s; isAtOnce 0x72 d noImage s && decide (c.p 0 = 0) : Bool) = true) ∧
    (∃ (d : Desc) (s : State), (let c := cmdAt 0x72 d noImage s; isAtOnce 0x72 d noImage s && decide (c.p 0 ≠ 0) : Bool) = true) ∧
    (∃ (d : Desc) (s : State), (let c := cmdAt 0x78 d noImage s; isAtOnce 0x78 d noImage s && decide (c.p 0 = 0) : Bool) = true) ∧
    (∃ (d : Desc) (s : State) (i : Fin 14), (let c := cmdAt 0x78 d noImage s; isAtOnce 0x78 d noImage s && decide (c.p 0 = 1) : Bool) = true) ∧
    (∃ (d : Desc) (s : State), (let c := cmdAt 0x78 d noImage s; isAtOnce 0x78 d noImage s && decide (c.p 0 = 2) : Bool) = true) ∧
    (∃ (d : Desc) (s : State), (isAtOnce 0x79 d noImage s : Bool) = true) ∧
    (∃ (d : Desc) (s : State), (isAtOnce 0x80 d noImage s : Bool) = true) ∧
    (∃ (d : Desc) (s : State), (let c := cmdAt 0x81 d noImage s; let u := cmdOpen c s; isAtOnce 0x81 d noImage s && (match requestTgt c with | some t => decide (((u.cal.frozen = false ∨ t = .reed)) ∧ calSpare u t = true) | _ => false) : Bool) = true) ∧
    (∃ (d : Desc) (s : State), (let c := cmdAt 0x40 d noImage s; let u := cmdOpen c s; isAtOnce 0x40 d noImage s && decide (u.rst.cur = none ∧ u.rst.queue = []) && let k := Fin.ofNat 50 (c.p 0); let on := c.p 1 == 1; decide (domOn u k.val = on) : Bool) = true) ∧
    (∃ (d : Desc) (s : State), (let c := cmdAt 0x40 d noImage s; let u := cmdOpen c s; isAtOnce 0x40 d noImage s && decide (u.rst.cur = none ∧ u.rst.queue = []) && let k := Fin.ofNat 50 (c.p 0); let on := c.p 1 == 1; decide (domOn u k.val = false ∧ on = true ∧ domBreaks (domOn u) k.val true = false) : Bool) = true) ∧
    (∃ (d : Desc) (s : State), (let c := cmdAt 0x40 d noImage s; let u := cmdOpen c s; isAtOnce 0x40 d noImage s && decide (u.rst.cur = none ∧ u.rst.queue = []) && let k := Fin.ofNat 50 (c.p 0); let on := c.p 1 == 1; decide (domOn u k.val = true ∧ on = false ∧ domBreaks (domOn u) k.val false = false ∧ domSwapping u k.val = false) : Bool) = true) ∧
    (∃ (d : Desc) (s : State), (let c := cmdAt 0x41 d noImage s; let u := cmdOpen c s; isAtOnce 0x41 d noImage s && decide (u.rst.episodes = [] ∧ u.rst.exits = [] ∧ (allConvs.all fun x => (getConv u x).run.isNone) = true ∧ c.p 0 = 0) && (match c.tgt with | some (.line (some n)) => true | _ => false) : Bool) = true) ∧
    (∃ (d : Desc) (s : State), (let c := cmdAt 0x41 d noImage s; let u := cmdOpen c s; isAtOnce 0x41 d noImage s && decide (u.rst.episodes = [] ∧ u.rst.exits = [] ∧ (allConvs.all fun x => (getConv u x).run.isNone) = true ∧ c.p 0 = 0) && (match c.tgt with | some (.host (some n)) => true | _ => false) : Bool) = true) ∧
    (∃ (d : Desc) (s : State), (let c := cmdAt 0x41 d noImage s; let u := cmdOpen c s; isAtOnce 0x41 d noImage s && decide (u.rst.episodes = [] ∧ u.rst.exits = [] ∧ (allConvs.all fun x => (getConv u x).run.isNone) = true ∧ c.p 0 = 1 ∧ c.p 1 = 0) : Bool) = true) ∧
    (∃ (d : Desc) (s : State), (let c := cmdAt 0x41 d noImage s; let u := cmdOpen c s; isAtOnce 0x41 d noImage s && decide (u.rst.episodes = [] ∧ u.rst.exits = [] ∧ (allConvs.all fun x => (getConv u x).run.isNone) = true ∧ c.p 0 = 1 ∧ 2 ≤ c.p 1) : Bool) = true) ∧
    (∃ (d : Desc) (s : State), (let c := cmdAt 0x41 d noImage s; let u := cmdOpen c s; isAtOnce 0x41 d noImage s && decide ((((u.rst.episodes = [] ∧ u.rst.exits = [] ∧ (allConvs.all fun x => (getConv u x).run.isNone) = true ∧ (c.p 0 = 1 ∧ c.p 1 = 1 ∨ 2 ≤ c.p 0)) ∧ bit c.d.flags 3 = false) ∧ u.rst.afterRecord = []) ∧ (u.rings.wait.filter (·.final)).length < 1024) : Bool) = true) ∧
    (∃ (d : Desc) (s : State), (let c := cmdAt 0x90 d noImage s; let u := cmdOpen c s; isAtOnce 0x90 d noImage s && let j : ChkJob := { chkJobOf c with ord := u.chk.seq }; decide ((j.space ≠ 2 ∨ domOn u 10 = true) ∧ j.chan < 4) && let k := Fin.ofNat 4 j.chan; decide (u.chk.ch[k].job = none) : Bool) = true) ∧
    (∃ (d : Desc) (s : State), (let c := cmdAt 0x90 d noImage s; let u := cmdOpen c s; isAtOnce 0x90 d noImage s && let j : ChkJob := { chkJobOf c with ord := u.chk.seq }; decide ((j.space ≠ 2 ∨ domOn u 10 = true) ∧ j.chan < 4) && let k := Fin.ofNat 4 j.chan; decide (u.chk.ch[k].job ≠ none ∧ u.chk.ch[k].wait.length < 4) : Bool) = true) ∧
    (∃ (d : Desc) (s : State), (let c := cmdAt 0x90 d noImage s; let u := cmdOpen c s; isAtOnce 0x90 d noImage s && let j : ChkJob := { chkJobOf c with ord := u.chk.seq }; decide ((j.space ≠ 2 ∨ domOn u 10 = true) ∧ j.chan < 4) && let k := Fin.ofNat 4 j.chan; decide (u.chk.ch[k].job ≠ none ∧ 4 ≤ u.chk.ch[k].wait.length) : Bool) = true) ∧
    (∃ (d : Desc) (s : State), (let c := cmdAt 0x91 d noImage s; let u := cmdOpen c s; isAtOnce 0x91 d noImage s && (match testTgt u c.d.target with | some t => decide (testOff u t = false ∧ underTest u t = false ∧ arbHolder u 3 t = none) && (match slotClaim u 3 false (c.tgt.getD .device) with | some k => true | _ => false) | _ => false) : Bool) = true) ∧
    (∃ (d : Desc) (s : State), (let c := cmdAt 0x91 d noImage s; let u := cmdOpen c s; isAtOnce 0x91 d noImage s && (match testTgt u c.d.target with | some t => decide (testOff u t = false ∧ underTest u t = false ∧ arbHolder u 3 t = none ∧ slotClaim u 3 false (c.tgt.getD .device) = none ∧ u.tst.blk = none) | _ => false) : Bool) = true) ∧
    (∃ (d : Desc) (s : State), (let c := cmdAt 0x91 d noImage s; let u := cmdOpen c s; isAtOnce 0x91 d noImage s && (match testTgt u c.d.target with | some t => decide (testOff u t = false ∧ underTest u t = false ∧ arbHolder u 3 t = none ∧ slotClaim u 3 false (c.tgt.getD .device) = none ∧ u.tst.blk ≠ none) | _ => false) : Bool) = true) ∧
    (∃ (d : Desc) (s : State) (img : ImageCheck), (let c := cmdAt 0xA0 d img s; let u := cmdOpen c s; isAtOnce 0xA0 d img s && decide (c.p 4 = 0 ∧ img.vendorOk = true ∧ (u.tst.owner = none ∨ img.ownerOk = true)) : Bool) = true) ∧
    (∃ (d : Desc) (s : State), (let c := cmdAt 0xA1 d noImage s; let u := cmdOpen c s; isAtOnce 0xA1 d noImage s && decide (u.tst.staged ≠ none ∧ arbHolder u 6 .device = none ∧ bit c.d.flags 3 = false ∧ u.rst.afterRecord = [] ∧ (u.rings.wait.filter (·.final)).length < 1024) && (match slotClaim u 6 false (c.tgt.getD .device) with | some k => true | _ => false) : Bool) = true) ∧
    (∃ (d : Desc) (s : State), (let c := cmdAt 0xA1 d noImage s; let u := cmdOpen c s; isAtOnce 0xA1 d noImage s && decide (u.tst.staged ≠ none ∧ arbHolder u 6 .device = none ∧ bit c.d.flags 3 = false ∧ u.rst.afterRecord = [] ∧ (u.rings.wait.filter (·.final)).length < 1024 ∧ slotClaim u 6 false (c.tgt.getD .device) = none) : Bool) = true) ∧
    (∃ (d : Desc) (s : State), (let c := cmdAt 0xA2 d noImage s; let u := cmdOpen c s; isAtOnce 0xA2 d noImage s && decide (domOn u 10 = true ∧ (u.tst.idKeyOk = true ∨ u.tst.scanFlag = true)) : Bool) = true) ∧
    (∃ (d : Desc) (s : State) (sigOk : Bool), (let c := cmdAt 0xA3 d { noImage with ownerOk := sigOk } s; let u := cmdOpen c s; isAtOnce 0xA3 d { noImage with ownerOk := sigOk } s && decide (u.tst.otpSlots.length < 4 ∧ u.tst.scanFlag = false ∧ (u.tst.owner = none ∨ sigOk = true)) : Bool) = true) :=
  ⟨⟨dsc (.mon (some 0)) ([2, 32, 0, 0] ++ bytesLE 2 100 ++ [0, 0, 2, 2, 3, 4] ++ List.replicate 30 0 ++ [16, 5]), live, 0, by decide +kernel⟩,
    ⟨dsc (.mon (some 0)) ([2, 0, 0, 0] ++ bytesLE 2 100 ++ [0, 0, 2, 2, 3, 4] ++ List.replicate 30 0 ++ [16, 5]), live, 0, by decide +kernel⟩,
    ⟨dsc (.mon (some 0)) [], live, 0, by decide +kernel⟩,
    ⟨dsc (.mon (some 0)) [], live, 1, by decide +kernel⟩,
    ⟨dsc (.mon (some 0)) ([0, 3, 3, 0] ++ bytesLE 3 500 ++ [0] ++ bytesLE 3 5 ++ [0] ++ bytesLE 3 9), live, by decide +kernel⟩,
    ⟨dsc (.mon (some 0)) ([1, 17, 5, 0] ++ bytesLE 2 300 ++ [3, 0x12]), live, by decide +kernel⟩,
    ⟨dsc .device [0, 5, 10, 0, 3, 1, 1, 1], live, by decide +kernel⟩,
    ⟨dsc .device [1, 3, 90, 95, 100], live, 2, by decide +kernel⟩,
    ⟨dsc .device ([2, 0] ++ bytesLE 2 16000), live, by decide +kernel⟩,
    ⟨dsc .device ([2, 0, 0, 0] ++ bytesLE 2 0x1001 ++ bytesLE 2 0x2003), live, by decide +kernel⟩,
    ⟨dsc .device [4, 1], live, by decide +kernel⟩,
    ⟨dsc (.line (some 3)) [0], live, by decide +kernel⟩,
    ⟨dsc .device [13, 1], live, by decide +kernel⟩,
    ⟨dsc .device [13, 1], withRst (fun r => { r with on := r.on.set 13 false }) live, by decide +kernel⟩,
    ⟨dsc .device [13, 0], live, by decide +kernel⟩,
    ⟨dsc (.line (some 3)) [0], live, by decide +kernel⟩,
    ⟨dsc (.host (some 3)) [0], live, by decide +kernel⟩,
    ⟨dsc .device [1, 0], live, by decide +kernel⟩,
    ⟨dsc .device [1, 2], live, by decide +kernel⟩,
    ⟨dsc .device [2], live, by decide +kernel⟩,
    ⟨dsc .device ([0, 0, 32, 1] ++ bytesLE 4 16 ++ bytesLE 8 0x4C11DB7 ++ List.replicate 24 0), live, by decide +kernel⟩,
    ⟨dsc .device ([0, 0, 32, 1] ++ bytesLE 4 16 ++ bytesLE 8 0x4C11DB7 ++ List.replicate 24 0), withChk (fun c => { c with ch := c.ch.map fun x => { x with job := some theChk } }) live, by decide +kernel⟩,
    ⟨dsc .device ([0, 0, 32, 1] ++ bytesLE 4 16 ++ bytesLE 8 0x4C11DB7 ++ List.replicate 24 0), withChk (fun c => { c with ch := c.ch.map fun x => { x with job := some theChk, wait := [theChk, theChk, theChk, theChk] } }) (attached live), by decide +kernel⟩,
    ⟨dsc (.line (some 3)) [1], onSlot { Slot.empty with valid := true, action := 4, target := Tgt.code (.line (some 3)) } live, by decide +kernel⟩,
    ⟨dsc (.line (some 3)) [1], live, by decide +kernel⟩,
    ⟨dsc (.line (some 3)) [1], onTst (fun t => { t with blk := some { target := Tgt.code (.line (some 4)), kinds := 1, cmd := none, until_ := 0 } }) live, by decide +kernel⟩,
    ⟨dsc .device (bytesLE 4 3000 ++ [0]), attached live, { vendorOk := true, ownerOk := true, digest := [1] }, by decide +kernel⟩,
    ⟨dsc .device [], onTst (fun t => { t with staged := some { digest := [1], len := 5 } }) (onSlot { Slot.empty with valid := true, action := 4, target := Tgt.code (.line (some 3)) } live), by decide +kernel⟩,
    ⟨dsc .device [], onTst (fun t => { t with staged := some { digest := [1], len := 5 } }) live, by decide +kernel⟩,
    ⟨dsc .device (List.replicate 32 5 ++ [1]), onTst (fun t => { t with idKeyOk := true }) live, by decide +kernel⟩,
    ⟨dsc .device [1, 2, 3], onTst (fun t => { t with scanFlag := false, otpSlots := [], owner := none }) (attached live), true, by decide +kernel⟩⟩

theorem witness_PinsAndSupplies :
    (∃ (s : State) (ns : Nat), (let calm : Bool := decide (s.rst.episodes = [] ∧ s.rst.exits = [] ∧ s.rst.sleep = .awake ∧ (allConvs.all fun x => (getConv s x).run.isNone) = true); decide (2000 ≤ ns ∧ s.rst.resetLow = false ∧ calm ∧ bit (reg s 0x1020) 31 = false) : Bool) = true) ∧
    (∃ (s : State) (ns : Nat), (let calm : Bool := decide (s.rst.episodes = [] ∧ s.rst.exits = [] ∧ s.rst.sleep = .awake ∧ (allConvs.all fun x => (getConv s x).run.isNone) = true); decide (2000 ≤ ns ∧ s.rst.resetLow = false ∧ calm ∧ bit (reg s 0x1020) 31 = true) : Bool) = true) ∧
    (∃ (s : State) (ns : Nat), (decide (2000 ≤ ns ∧ s.rst.resetLow = false) && (match s.rst.sleep with | .asleep a b l => true | _ => false) : Bool) = true) ∧
    (∃ (s : State), (decide (s.rst.resetLow = true ∧ s.rst.exits = [] ∧ s.late = [] ∧ s.rst.sleep = .awake) && (match s.rst.episodes with | [⟨[.resetPin], r, f⟩] => decide (3 ≤ r.level) | _ => false) : Bool) = true) ∧
    (∃ (s : State), ((match s.rst.sleep with | .asleep a b l => decide (a = true ∨ b = true) | _ => false) : Bool) = true) ∧
    (∃ (s : State), ((match s.rst.sleep with | .asleep a b l => decide (bits (reg s 0x1020) 0 16 ≠ 0 ∧ s.rst.resetLow = false ∧ s.rst.vioLow = false) | _ => false) : Bool) = true) ∧
    (∃ (s : State) (ns : Nat), (let calm : Bool := decide (s.rst.episodes = [] ∧ s.rst.exits = [] ∧ s.rst.sleep = .awake ∧ (allConvs.all fun x => (getConv s x).run.isNone) = true); decide (2000 ≤ ns ∧ localMode s = false ∧ s.rst.perstLow = false ∧ calm) : Bool) = true) ∧
    (∃ (s : State), (decide (s.rst.perstLow = true ∧ s.rst.vioLow = false ∧ s.late = []) && (match s.rst.episodes with | [⟨[.perst], rch, f⟩] => decide (rch = srcReach .perst) | _ => false) : Bool) = true) ∧
    (∃ (s : State), ((∀ e ∈ s.rst.episodes, .por ∉ e.sources ∧ e.reach.level < 4)) ∧ (s.rst.sleep = .awake ∨ s.rst.resetLow = false ∧
      s.rst.vioLow = false ∧ s.rst.perstLow = false)) ∧
    (∃ (s : State), (decide (s.rst.exits = [] ∧ s.late = []) && (match s.rst.episodes with | [⟨[.por], r, f⟩] => decide (r.level = 4) | _ => false) : Bool) = true) ∧
    (∃ (s : State), (let calm : Bool := decide (s.rst.episodes = [] ∧ s.rst.exits = [] ∧ s.rst.sleep = .awake ∧ (allConvs.all fun x => (getConv s x).run.isNone) = true); decide (calm) : Bool) = true) ∧
    (∃ (s : State), (decide (s.rst.exits = [] ∧ s.late = []) && (match s.rst.episodes with | [⟨[.brownOut], r, f⟩] => decide (r.level = 3) | _ => false) : Bool) = true) ∧
    (∃ (s : State), s.evt.rate.find? (fun e => e.1 == 0x012 && e.2.1 == 0) = none) ∧
    (∃ (s : State), (let calm : Bool := decide (s.rst.episodes = [] ∧ s.rst.exits = [] ∧ s.rst.sleep = .awake ∧ (allConvs.all fun x => (getConv s x).run.isNone) = true); decide (s.rst.vioLow = false ∧ calm) : Bool) = true) ∧
    (∃ (s : State), (decide (s.rst.exits = [] ∧ s.rst.vioLow = true ∧ s.rst.perstLow = false ∧ s.late = [] ∧ s.rst.sleep = .awake) && (match s.rst.episodes with | [⟨[.vio, .perst], r, f⟩] => decide (r.level = 3) | _ => false) : Bool) = true) ∧
    (∃ (s : State) (src : ResetSrc), (decide (isTimed src = true ∧ s.late = []) && (match s.rst.episodes with | [⟨[src'], r, f⟩] => decide (src' = src) | _ => false) : Bool) = true) ∧
    (∃ (s : State) (ok : Bool), coldHeld s = true ∨ coldLate s = true) ∧
    (∃ (s : State) (ok : Bool), (decide (coldHeld s = false ∧ coldLate s = false) && (match coldExit s with | some e => (match e.step with | .trim n => decide (ok = false ∧ n < 2) | _ => false) | _ => false) : Bool) = true) ∧
    (∃ (s : State) (ok : Bool), (decide (coldHeld s = false ∧ coldLate s = false) && (match coldExit s with | some e => (match e.step with | .trim n => decide (ok = true ∨ 2 ≤ n) | _ => false) | _ => false) : Bool) = true) ∧
    (∃ (s : State), ((match coldExit s with | some e => decide (e.step = .pll) | _ => false) : Bool) = true) :=
  ⟨⟨live, 2000, by decide +kernel⟩,
    ⟨setUp [(0x1020, 0x80000005)] live, 2000, by decide +kernel⟩,
    ⟨setUp [(0x1020, 0x80000005)] (withRst (fun r => { r with sleep := .asleep true false false }) live), 2000, by decide +kernel⟩,
    ⟨withRst (fun r => { r with resetLow := true, episodes := [episode [.resetPin] 3] }) live, by decide +kernel⟩,
    ⟨setUp [(0x1020, 0x80000005)] (withRst (fun r => { r with sleep := .asleep true false false }) live), by decide +kernel⟩,
    ⟨setUp [(0x1020, 0x80000005)] (withRst (fun r => { r with sleep := .asleep true false false }) live), by decide +kernel⟩,
    ⟨live, 2000, by decide +kernel⟩,
    ⟨withRst (fun r => { r with perstLow := true, episodes := [{ sources := [.perst], reach := srcReach .perst, first := 0 }] }) live, by decide +kernel⟩,
    ⟨live, by decide +kernel⟩,
    ⟨withRst (fun r => { r with episodes := [episode [.por] 4] }) live, by decide +kernel⟩,
    ⟨live, by decide +kernel⟩,
    ⟨withRst (fun r => { r with episodes := [episode [.brownOut] 3] }) live, by decide +kernel⟩,
    ⟨live, by decide +kernel⟩,
    ⟨live, by decide +kernel⟩,
    ⟨withRst (fun r => { r with vioLow := true, episodes := [episode [.vio, .perst] 3] }) live, by decide +kernel⟩,
    ⟨withRst (fun r => { r with episodes := [episode [.hostWarm] 2] }) live, .hostWarm, by decide +kernel⟩,
    ⟨withRst (fun r => { r with resetLow := true, episodes := [episode [.resetPin] 3] }) live, true, by decide +kernel⟩,
    ⟨withRst (fun r => { r with exits := [coldAt (.trim 0)] }) live, false, by decide +kernel⟩,
    ⟨withRst (fun r => { r with exits := [coldAt (.trim 0)] }) live, true, by decide +kernel⟩,
    ⟨withRst (fun r => { r with exits := [coldAt .pll] }) live, by decide +kernel⟩⟩

theorem witness_BootAndSupervision :
    (∃ (s : State) (ok : Bool), s.rst.exits.any (fun x => x.step == .boot) = true ∧ s.rings.held = []) ∧
    (∃ (s : State), ((match s.rst.cur with | some x => decide (s.rst.queue = [] ∧ s.rst.exits = [] ∧ s.rst.episodes = [] ∧ s.late = [] ∧ x.on = true) | _ => false) : Bool) = true) ∧
    (∃ (s : State), ((match s.rst.cur with | some x => decide (s.rst.queue = [] ∧ s.rst.exits = [] ∧ s.rst.episodes = [] ∧ s.late = [] ∧ x.on = false ∧ x.cmd = none) | _ => false) : Bool) = true) ∧
    (∃ (s : State), ((match s.rst.cur with | some x => decide (x.on = true ∧ s.rst.queue = []) | _ => false) : Bool) = true) ∧
    (∃ (s : State), (let calm : Bool := decide (s.rst.episodes = [] ∧ s.rst.exits = [] ∧ s.rst.sleep = .awake ∧ (allConvs.all fun x => (getConv s x).run.isNone) = true); decide (calm ∧ s.rst.mgmtRun = true ∧ (s.chk.mgmtResets.filter fun t => decide (s.clk ≤ t + oneSecond)).length < 2) : Bool) = true) ∧
    (∃ (s : State), bit (scrubCfg s) 29 = false) ∧
    (∃ (s : State) (o : Nat), bit (scrubCfg s) 29 = true ∧ domOn s (setupDomain o) = true ∧ reg s o ≠ shadowReg s o) ∧
    (∃ (s : State) (off : Nat) (flip : Word) (o : Nat), o ≠ off) ∧
    (∃ (s : State) (off : Nat) (flip : Word), ((match setupSpec off with | some (rw, rwl, r) => true | _ => false) : Bool) = true) ∧
    (∃ (s : State), (s.rst.episodes.any fun e => e.reach.control) = false ∧ (s.rst.exits.any fun x => x.cold) = false ∧ s.rst.sleep = .awake) :=
  ⟨⟨withRst (fun r => { r with exits := [coldAt .boot] }) live, true, by decide +kernel⟩,
    ⟨withRst (fun r => { r with cur := some { dom := 13, on := true, cmd := none } }) live, by decide +kernel⟩,
    ⟨withRst (fun r => { r with cur := some { dom := 13, on := false, cmd := none } }) live, by decide +kernel⟩,
    ⟨withRst (fun r => { r with cur := some { dom := 13, on := true, cmd := none } }) live, by decide +kernel⟩,
    ⟨live, by decide +kernel⟩,
    ⟨setUp [(0x7080, 0)] live, by decide +kernel⟩,
    ⟨(fun s => { s with shadow := [(0x50, 1)] }) (setUp [(0x7080, 0xE0000000)] live), 0x50, by decide +kernel⟩,
    ⟨live, 0x50, 1, 0x54, by decide +kernel⟩,
    ⟨live, 0x50, 1, by decide +kernel⟩,
    ⟨live, by decide +kernel⟩⟩

theorem witness_FramesAndCodes :
    (∃ (s : State) (n : Fin 8) (p : Fin 8), portOfLine (modeOf s) n = some p ∧ s.refOk = true ∧ frameDue s n = true) ∧
    (∃ (s : State) (n : Fin 8) (p : Fin 8) (hdr : BitVec 128), rxFraming s n = true ∧ portOfLine (modeOf s) n = some p ∧ crc8 (beBytes 4
      (bits hdr 104 32) ++ beBytes 2 (bits hdr 88 16)) = bits hdr 80 8) ∧
    (∃ (s : State) (n : Fin 8) (p : Fin 8) (hdr : BitVec 128), rxFraming s n = true ∧ portOfLine (modeOf s) n = some p ∧ crc8 (beBytes 4
      (bits hdr 104 32) ++ beBytes 2 (bits hdr 88 16)) ≠ bits hdr 80 8) ∧
    (∃ (s : State) (n : Fin 8) (p : Fin 8) (hdr : BitVec 128), rxFraming s n = true ∧ portOfLine (modeOf s) n = some p ∧ crc16 (beBytes 2
      (bits hdr 88 16) ++ beBytes 8 (bits hdr 16 64)) ≠ bits hdr 0 16) ∧
    (∃ (s : State) (n : Fin 8) (p : Fin 8) (m : BitVec 64), rxFraming s n = true ∧ bits m 60 4 = 0) ∧
    (∃ (s : State) (n : Fin 8) (p : Fin 8) (m : BitVec 64), (decide (rxFraming s n = true ∧ bits m 60 4 = 4 ∧ portOfLine (modeOf s) n = some p) && (match s.ports[p].meas with | some r => decide (s.lines[n].fr.echoes.length < r.n) && (match s.lines[n].fr.departs.find? (fun e => e.1 == BitVec.ofNat 16 (bits m 44 16)) with | some e => true | _ => false) | _ => false) : Bool) = true) ∧
    (∃ (s : State) (n : Fin 8) (p : Fin 8) (m : _), s.lines[n].fr.out.find? (fun m => bits m 60 4 == 4) = some m) ∧
    (∃ (s : State) (n : Fin 8) (p : Fin 8) (m : BitVec 64), rxFraming s n = true ∧ bits m 60 4 = 8 ∧ bit m 59 = false ∧ bits m 48 3 = 0) ∧
    (∃ (s : State) (n : Fin 8) (p : Fin 8) (m : BitVec 64), rxFraming s n = true ∧ bits m 60 4 = 8 ∧ bit m 59 = true ∧ bits m 48 3 = 0) ∧
    (∃ (s : State) (n : Fin 8) (p : Fin 8) (m : BitVec 64), (decide (rxFraming s n = true ∧ bits m 60 4 = 9) && (match s.lines[n].fr.send with | some x => decide (x.msg = bits m 51 5) | _ => false) : Bool) = true) ∧
    (∃ (s : State) (n : Fin 8) (p : Fin 8), ((match s.lines[n].fr.send with | some x => decide (s.lines[n].rx.st = .up ∧ fragCount x ≤ x.next) | _ => false) : Bool) = true) ∧
    (∃ (s : State) (n : Fin 8) (p : Fin 8), s.lines[n].rx.st ≠ .up) ∧
    (∃ (s : State) (n : Fin 8) (p : Fin 8) (rest : List SoftSym), (s.lines[n].rx.st = .frame ∨ s.lines[n].rx.st = .up ∨ s.lines[n].rx.st =
      .relock) ∧ lineCode s n = 2) ∧
    (∃ (s : State) (n : Fin 8) (p : Fin 8) (rest : List SoftSym), (decide ((s.lines[n].rx.st = .frame ∨ s.lines[n].rx.st = .up ∨
      s.lines[n].rx.st = .relock) ∧ lineCode s n = 3) && true : Bool) = true) ∧
    (∃ (s : State) (n : Fin 8) (p : Fin 8) (rest : List SoftSym), (decide (s.lines[n].rx.st = .frame ∨ s.lines[n].rx.st = .up ∨ s.lines[n].rx.st = .relock) && let word := cwTaken s n rest; let soft := (softLlrs word).map (llrDeliver (bits s.lines[n].act.eqCtl 18 2)); decide (lineCode s n < 2) && (match chase (lineCode s n == 1) soft with | some c => true | _ => false) : Bool) = true) ∧
    (∃ (s : State) (n : Fin 8) (p : Fin 8) (rest : List SoftSym), (decide (s.lines[n].rx.st = .frame ∨ s.lines[n].rx.st = .up ∨ s.lines[n].rx.st = .relock) && let word := cwTaken s n rest; let soft := (softLlrs word).map (llrDeliver (bits s.lines[n].act.eqCtl 18 2)); decide (lineCode s n < 2 ∧ chase (lineCode s n == 1) soft = none) : Bool) = true) ∧
    (∃ (s : State) (n : Fin 8) (p : Fin 8), s.lines[n].fr.innerInt ≠ 0) ∧
    (∃ (s : State) (n : Fin 8) (p : Fin 8), ((match s.ports[p].meas with | some r => (match linesOfPort (modeOf s) p with | [n2] => decide (s.lines[n2].fr.echoes ≠ []) | _ => false) | _ => false) : Bool) = true) ∧
    (∃ (s : State) (n : Fin 8) (p : Fin 8) (g : Fin 2) (cw : List (BitVec 10)) (fix : Option (List (Fin 544 × BitVec 10))), (decide (portEnabled s p = true ∧ g.val < groupsOf s ∧ amLock s.ports[p] g = true ∧ portSquelched s p = false) && (match fix with | some l => decide (bit s.ports[p].act.cfg 6 = true ∧ l.length ≤ 15) | _ => false) : Bool) = true) ∧
    (∃ (s : State) (n : Fin 8) (p : Fin 8) (g : Fin 2) (cw : List (BitVec 10)) (fix : Option (List (Fin 544 × BitVec 10))), portEnabled s p
      = true ∧ g.val < groupsOf s ∧ amLock s.ports[p] g = true ∧ portSquelched s p = false ∧ fix = none) ∧
    (∃ (s : State) (n : Fin 8) (p : Fin 8), s.ports[p].uncInt ≠ 0 ∧ portEnabled s p = true) ∧
    (∃ (s : State) (n : Fin 8) (p : Fin 8), portEnabled s p = true ∧ s.ports[p].amLock0 = true ∧ s.ports[p].amLock1 = true) ∧
    (∃ (s : State) (n : Fin 8) (p : Fin 8) (g : Fin 2), portEnabled s p = true ∧ g.val < groupsOf s ∧ amLock s.ports[p] g = false) ∧
    (∃ (s : State) (n : Fin 8) (p : Fin 8), s.ports[p].sqBuffers = true) :=
  ⟨⟨{ live with clk := 408000000 }, 3, 3, by decide +kernel⟩,
    ⟨rxIn .up live, 3, 3, 0, by decide +kernel⟩,
    ⟨rxIn .up live, 3, 3, 0x100000000000000000000, by decide +kernel⟩,
    ⟨rxIn .up live, 3, 3, 0, by decide +kernel⟩,
    ⟨rxIn .up live, 3, 3, 0, by decide +kernel⟩,
    ⟨onPort (fun p => { p with meas := some { cmd := cmdOf 0x32, n := 4, hold := false } }) (onFr (fun f => { f with departs := [(0, 0)] }) (rxIn .up live)), 3, 3, 0x4000000000000000, by decide +kernel⟩,
    ⟨onFr (fun f => { f with out := [0x4000000000000000] }) live, 3, 3, 0x4000000000000000, by decide +kernel⟩,
    ⟨rxIn .up live, 3, 3, 0x8000000000000000, by decide +kernel⟩,
    ⟨rxIn .up live, 3, 3, 0x8800000000000000, by decide +kernel⟩,
    ⟨onFr (fun f => { f with send := some { cmd := cmdOf 0x33, msg := 0, data := [1], next := 1, tries := 1 } }) (rxIn .up live), 3, 3, 0x9000000000000000, by decide +kernel⟩,
    ⟨onFr (fun f => { f with send := some { cmd := cmdOf 0x33, msg := 0, data := [1], next := 1, tries := 1 } }) (rxIn .up live), 3, 3, by decide +kernel⟩,
    ⟨live, 3, 3, by decide +kernel⟩,
    ⟨(fun s => { s with ports := s.ports.map fun p => { p with act := PortBank.default 4 false 2 0 } }) (rxIn .up live), 3, 3, [], by decide +kernel⟩,
    ⟨(fun s => { s with ports := s.ports.map fun p => { p with act := PortBank.default 4 false 3 0 } }) (rxIn .up live), 3, 3, [], by decide +kernel⟩,
    ⟨rxIn .up live, 3, 3, [], by decide +kernel⟩,
    ⟨rxIn .up live, 3, 3, List.replicate 60 { sym := 0, l1 := 64, l0 := 64 } ++ List.replicate 2 { sym := 0, l1 := 8, l0 := 8 } ++ List.replicate 2 { sym := 0, l1 := 64, l0 := 64 } ++ List.replicate 2 { sym := 0, l1 := -64, l0 := 64 } ++ List.replicate 2 { sym := 0, l1 := 64, l0 := 64 }, by decide +kernel⟩,
    ⟨onFr (fun f => { f with innerInt := 2 }) live, 3, 3, by decide +kernel⟩,
    ⟨onPort (fun p => { p with meas := some { cmd := cmdOf 0x32, n := 4, hold := false } }) (onFr (fun f => { f with echoes := [5] }) (rxIn .up live)), 3, 3, by decide +kernel⟩,
    ⟨onPort (fun p => { p with amLock0 := true, act := { p.act with cfg := p.act.cfg ||| 0x40 } }) (rxIn .up live), 3, 3, 0, [], some [], by decide +kernel⟩,
    ⟨onPort (fun p => { p with amLock0 := true, amLock1 := true, uncInt := 1 }) (rxIn .up live), 3, 3, 0, [], none, by decide +kernel⟩,
    ⟨onPort (fun p => { p with amLock0 := true, amLock1 := true, uncInt := 1, sqBuffers := true }) (rxIn .up live), 3, 3, by decide +kernel⟩,
    ⟨onPort (fun p => { p with amLock0 := true, amLock1 := true, uncInt := 1, sqBuffers := true }) (rxIn .up live), 3, 3, by decide +kernel⟩,
    ⟨rxIn .up live, 3, 3, 0, by decide +kernel⟩,
    ⟨onPort (fun p => { p with amLock0 := true, amLock1 := true, uncInt := 1, sqBuffers := true }) (rxIn .up live), 3, 3, by decide +kernel⟩⟩

theorem witness_HostAcquisition :
    (∃ (s : State) (n : Fin 16), s.hosts[n].st ≠ .off ∧ s.hosts[n].st ≠ .idle ∧ s.hosts[n].st = .up) ∧
    (∃ (s : State) (n : Fin 16), s.hosts[n].st ≠ .off ∧ s.hosts[n].st ≠ .idle ∧ s.hosts[n].st ≠ .up) ∧
    (∃ (s : State) (n : Fin 16), (decide (s.hosts[n].st = .idle ∧ s.refOk = true) && (match s.hosts[n].heldCoefs with | some k => decide (s.clk ≤ s.hosts[n].idleSince + usTicks 100000) | _ => false) : Bool) = true) ∧
    (∃ (s : State) (n : Fin 16), s.hosts[n].st = .idle ∧ s.refOk = true ∧ (s.hosts[n].heldCoefs = none ∨ s.hosts[n].idleSince + usTicks
      100000 < s.clk)) ∧
    (∃ (s : State) (n : Fin 16), s.hosts[n].st = .timing) ∧
    (∃ (s : State) (n : Fin 16), (decide (s.hosts[n].st = .ctle ∧ 0 < s.hosts[n].acc.n) && let q := s.hosts[n].search; (match (q.todo.drop 1).head? with | some c => true | _ => false) : Bool) = true) ∧
    (∃ (s : State) (n : Fin 16), (decide (s.hosts[n].st = .ctle ∧ 0 < s.hosts[n].acc.n) && let q := s.hosts[n].search; decide (q.todo.drop 1 = [] ∧ q.fine = true) : Bool) = true) ∧
    (∃ (s : State) (n : Fin 16), (decide (hostDecides s n = true ∧ 0 < s.hosts[n].acc.n ∧ 0 < s.hosts[n].acc.sse) && let hist := (5120 / (s.hosts[n].acc.sse / (s.hosts[n].acc.n : Rat)) :: s.hosts[n].snrHist).take 4; decide (settled hist = true ∧ ((∀ v ∈ hist, 10 ^ 7 ≤ v ^ 5))) : Bool) = true) ∧
    (∃ (s : State) (n : Fin 16), (decide (hostDecides s n = true ∧ 0 < s.hosts[n].acc.n ∧ 0 < s.hosts[n].acc.sse) && let hist := (5120 / (s.hosts[n].acc.sse / (s.hosts[n].acc.n : Rat)) :: s.hosts[n].snrHist).take 4; decide (settled hist = false) : Bool) = true) ∧
    (∃ (s : State) (n : Fin 16), s.hosts[n].st = .up) ∧
    (∃ (s : State) (n : Fin 16), s.hosts[n].st ∈ [.timing, .ctle, .adapt, .resume]) ∧
    (∃ (s : State) (n : Fin 16) (rms : Nat), s.hosts[n].st ≠ .off ∧ s.hosts[n].st ≠ .idle ∧ s.hosts[n].st ≠ .up ∧ bit s.hosts[n].act.rxCfg
      14 = true) ∧
    (∃ (s : State) (n : Fin 16) (xs : List Int) (cdr : List (Int × Int)), (decide (s.hosts[n].st ≠ .off ∧ s.hosts[n].st ≠ .idle ∧
      s.hosts[n].st ≠ .timing) && true : Bool) = true) ∧
    (∃ (s : State) (n : Fin 16), s.hosts[n].act.chkPat ≠ 0 ∧ s.hosts[n].chkLock = false ∧ 1024 ≤ s.hosts[n].chk.run) ∧
    (∃ (s : State) (n : Fin 16), s.hosts[n].chkLock = true ∧ 512 < (s.hosts[n].chk.errs.filter id).length) ∧
    (∃ (s : State) (n : Fin 16), bit s.hosts[n].act.test 9 = true) :=
  ⟨⟨hostIn .up live, 3, by decide +kernel⟩,
    ⟨hostIn .timing live, 3, by decide +kernel⟩,
    ⟨onHost (fun h => { h with st := .idle, heldCoefs := some { peak := 7, dcg := 3, coefs := HostCoefs.zero, freq := 0 }, idleSince := 400000000 }) live, 3, by decide +kernel⟩,
    ⟨hostIn .idle live, 3, by decide +kernel⟩,
    ⟨hostIn .timing live, 3, by decide +kernel⟩,
    ⟨onHost (fun h => { h with st := .ctle, acc := { h.acc with n := 1, sse := 1 }, search := { todo := [4, 8], fine := false, tried := [], syms := 0 } }) live, 3, by decide +kernel⟩,
    ⟨onHost (fun h => { h with st := .ctle, acc := { h.acc with n := 1, sse := 1 }, search := { todo := [4], fine := true, tried := [], syms := 0 } }) live, 3, by decide +kernel⟩,
    ⟨onHost (fun h => { h with st := .adapt, acc := { h.acc with n := 1, sse := 1 }, snrHist := [5120, 5120, 5120] }) live, 3, by decide +kernel⟩,
    ⟨onHost (fun h => { h with st := .adapt, acc := { h.acc with n := 1, sse := 1 } }) live, 3, by decide +kernel⟩,
    ⟨hostIn .up live, 3, by decide +kernel⟩,
    ⟨hostIn .timing live, 3, by decide +kernel⟩,
    ⟨hostIn .timing live, 3, 0, by decide +kernel⟩,
    ⟨hostIn .ctle live, 3, [], [], by decide +kernel⟩,
    ⟨onHost (fun h => { h with act := { h.act with test := 0x10 }, chk := { h.chk with run := 1024 } }) live, 3, by decide +kernel⟩,
    ⟨onHost (fun h => { h with chkLock := true, chk := { h.chk with errs := List.replicate 513 true } }) live, 3, by decide +kernel⟩,
    ⟨onHost (fun h => { h with act := { h.act with test := 0x200 } }) live, 3, by decide +kernel⟩⟩

theorem witness_BeatsAndTreeTimes :
    (∃ (s : State) (t : Tree) (d : Nat), (decide (chanterOf s = some t ∧ s.refOk = true ∧ s.cad.st = 2 ∧ varBeat s = false ∧ 1250 ≤ ((d : Int) - beatinDly s - s.cad.slew).toNat) && let iv := ((d : Int) - beatinDly s - s.cad.slew).toNat; decide ((if iv < s.cad.period then s.cad.period - iv else iv - s.cad.period) * beatTol s ≤ s.cad.period) : Bool) = true) ∧
    (∃ (s : State) (t : Tree) (d : Nat), chanterOf s = some t ∧ s.refOk = true ∧ s.cad.st = 1 ∧ varBeat s = true) ∧
    (∃ (s : State) (t : Tree), chanterOf s = some t ∧ s.cad.st ≠ 1 ∧ varBeat s = false ∧ s.cad.st ≠ 4) ∧
    (∃ (s : State) (t : Tree), chanterOf s = some t ∧ s.cad.st ≠ 1 ∧ s.cad.st ≠ 4 ∧ varBeat s = true) ∧
    (∃ (s : State), standalone s = true ∧ s.cad.started = true) ∧
    (∃ (s : State) (t : Tree), chanterOf s = some t ∧ s.cad.st = 1 ∧ s.cad.acqWarned = false) ∧
    (∃ (s : State) (t : Tree), linkUp s (upPort t) = true ∧ chanterOf s ≠ some t ∧ standalone s = false) ∧
    (∃ (s : State) (t : Tree) (b : List Byte), (decide (linkUp s (upPort t) = true) && (match (getTree s t).marked with | some m => true | _ => false) : Bool) = true) ∧
    (∃ (s : State) (t : Tree), (getTree s t).seen = true ∧ (getTree s t).var = false ∧ chanterOf s ≠ some t) ∧
    (∃ (s : State) (d : Nat) (t : Tree), s.cad.st ≠ 1 ∧ standalone s = false ∧ (getTree s t).seen = true) ∧
    (∃ (s : State) (k : Fin 10) (b : List Byte), 2 ≤ k.val ∧ linkUp s k = true ∧ chanterOf s ≠ some (linkTree k)) ∧
    (∃ (s : State) (k : Fin 10) (b : List Byte), 2 ≤ k.val ∧ linkUp s k = true ∧ chanterOf s = some (linkTree k)) ∧
    (∃ (s : State), s.cad.own.up.fault ≠ 0 ∧ s.cad.extraSent = false) :=
  ⟨⟨cadence 2 (fun c => { c with st := 2, started := true, edgeSeen := true }) (live), .a, 1250000, by decide +kernel⟩,
    ⟨cadence 2 (fun c => { c with st := 1 }) (setUp [(0x4000, 0x04000000)] live), .a, 1250000, by decide +kernel⟩,
    ⟨cadence 2 (fun c => { c with st := 2, started := true, edgeSeen := true }) (live), .a, by decide +kernel⟩,
    ⟨cadence 2 (fun c => { c with st := 2, cfg := c.cfg ||| 0x4000000 }) (live), .a, by decide +kernel⟩,
    ⟨cadence 0 (fun c => { c with started := true }) (live), by decide +kernel⟩,
    ⟨cadence 2 (fun c => { c with st := 1, cfg := c.cfg ||| 0x4000000 }) (live), .a, by decide +kernel⟩,
    ⟨cadence 2 (fun c => { c with st := 2, started := true, edgeSeen := true }) (live), .b, by decide +kernel⟩,
    ⟨cadence 1 (fun c => { c with st := 2, treeA := { c.treeA with marked := some 1, seen := true } }) (live), .a, [], by decide +kernel⟩,
    ⟨cadence 1 (fun c => { c with st := 2, treeA := { c.treeA with marked := some 1, seen := true } }) (live), .a, by decide +kernel⟩,
    ⟨cadence 1 (fun c => { c with st := 2, treeA := { c.treeA with marked := some 1, seen := true } }) (live), 1250000, .a, by decide +kernel⟩,
    ⟨cadence 0 (fun c => { c with started := true }) (live), 4, [], by decide +kernel⟩,
    ⟨cadence 2 (fun c => { c with st := 2, started := true, edgeSeen := true }) (live), 4, [], by decide +kernel⟩,
    ⟨cadence 1 (fun c => { c with st := 2, own := { c.own with up := { c.own.up with fault := 1 } } }) (live), by decide +kernel⟩⟩

theorem witness_LinksAndSlots :
    (∃ (s : State) (k : Fin 10), 2 ≤ k.val ∧ linkAlive s k = true) ∧
    (∃ (s : State) (t : Tree), linkAlive s (upPort t) = true) ∧
    (∃ (s : State) (k : Fin 10) (rt : Nat), s.cad.links[k].probeOut = true) ∧
    (∃ (s : State) (k : Fin 10) (b : List Byte) (rt : Nat), (decide (linkAlive s k = true ∧ s.cad.links[k].roundTrip = some rt) && let ds := ((rt - leAt b 0 3) / 2 :: s.cad.links[k].delays).take 16; decide (20000 < meanOf ds) : Bool) = true) ∧
    (∃ (s : State) (k : Fin 10), linkAlive s k = true ∧ s.cad.links[k].st = .align) ∧
    (∃ (s : State) (k : Fin 10), linkAlive s k = true ∧ s.cad.links[k].st = .up) ∧
    (∃ (s : State) (k : Fin 10), s.cad.links[k].st = .down ∧ domOn s 3 = true) ∧
    (∃ (s : State) (t : Tree), (chanterOf s = some t ∧ (t = .a ∨ s.cad.enumBegun = false)) ∧ downUp s t ≠ []) ∧
    (∃ (s : State) (t : Tree) (b : List Byte), chanterOf s ≠ some t ∧ linkUp s (upPort t) = true ∧ downUp s t ≠ []) ∧
    (∃ (s : State) (k : Fin 10) (b : List Byte), (decide (2 ≤ k.val ∧ linkAlive s k = true) && (match getRun s (linkTree k) with | some r => decide (b.getD 0 0 = r.epoch ∧ r.await.contains k = true ∧ (r.await.erase k).isEmpty = false) | _ => false) : Bool) = true) ∧
    (∃ (s : State) (t : Tree), ((match getRun s t with | some r => decide ((r.await ≠ [] ∧ s.cad.joinWait = [] ∧ enumerated s t = false ∧ ((chanterOf s = some t → r.round = 1 → r.dup = []))) ∧ r.join.isSome) | _ => false) : Bool) = true) ∧
    (∃ (s : State) (t : Tree), ((match getRun s t with | some r => decide (((r.await ≠ [] ∧ s.cad.joinWait = [] ∧ enumerated s t = false ∧ ((chanterOf s = some t → r.round = 1 → r.dup = []))) ∧ r.join = none) ∧ chanterOf s ≠ some t) | _ => false) : Bool) = true) ∧
    (∃ (s : State) (t : Tree) (b : List Byte) (i : _), (decide (linkAlive s (upPort t) = true) && (match getRun s t with | some r => decide (b.getD 0 0 = r.epoch ∧ chanterOf s ≠ some t ∧ r.assigned = false ∧ s.cad.joinWait = [] ∧ r.claim = some i) | _ => false) : Bool) = true) ∧
    (∃ (s : State) (k : Fin 10) (b : List Byte), 2 ≤ k.val ∧ linkUp s k = true ∧ chanterOf s ≠ some (linkTree k)) ∧
    (∃ (s : State) (t : Tree) (b : List Byte) (k : _), linkAlive s (upPort t) = true ∧ s.cad.idxValid = true ∧ s.cad.idx = leAt b 0 2 ∧
      (downPorts t)[byteAt b 2]? = some k ∧ linkUp s k = true) ∧
    (∃ (s : State) (t : Tree) (b : List Byte), linkUp s (upPort t) = true ∧ standalone s = false ∧ chanterOf s ≠ some t ∧ (s.cad.domTags.any fun e => e.1 == BitVec.ofNat 32 (leAt b 32 4)) = false) ∧
    (∃ (s : State) (t : Tree) (b : List Byte) (i : Fin 256), linkUp s (upPort t) = true ∧ standalone s = false ∧ chanterOf s ≠ some t ∧
      (s.cad.slots[i].valid && s.cad.slots[i].dom && s.cad.slots[i].tag == BitVec.ofNat 32 (leAt b 0 4)) = true) ∧
    (∃ (s : State) (i : Fin 256) (j : Fin 256), (slotDue i s = true ∧ s.cad.slots[i].action = 0 ∧ ((∀ j : Fin 256, s.cad.slots[j].deferral
      = none))) ∧ j ≠ i) ∧
    (∃ (s : State) (i : Fin 256), ((match s.cad.slots[i].openEnd with | some e => decide (reached s e = true) && let x := s.cad.slots[i]; decide (x.rep = 0 ∨ x.count = 1) | _ => false) : Bool) = true) ∧
    (∃ (s : State) (i : Fin 256), ((match s.cad.slots[i].openEnd with | some e => decide (reached s e = true) && let x := s.cad.slots[i]; decide (x.rep ≠ 0 ∧ x.count ≠ 1) | _ => false) : Bool) = true) ∧
    (∃ (s : State) (i : Fin 256), (((slotDue i s = true ∧ ((∀ j < i, slotDue j s = false ∨ s.cad.slots[j].action = 0))) ∧
      s.cad.slots[i].action = 9) ∧ s.cad.slots[i].cmd = none) ∧ s.cad.slots[i].rep = 0) ∧
    (∃ (s : State) (i : Fin 256), (((slotDue i s = true ∧ ((∀ j < i, slotDue j s = false ∨ s.cad.slots[j].action = 0))) ∧
      s.cad.slots[i].action ≠ 0) ∧ actionFirmware s.cad.slots[i].action = true) ∧ s.rst.mgmtRun = false) ∧
    (∃ (s : State) (i : Fin 256), ((match s.cad.slots[i].deferral with | some d => decide (d.held = false ∧ 16 ≤ d.beats ∧ s.cad.slots[i].rep = 0) | _ => false) : Bool) = true) :=
  ⟨⟨cadence 1 id (live), 4, by decide +kernel⟩,
    ⟨cadence 1 id (live), .a, by decide +kernel⟩,
    ⟨cadence 1 (fun c => { c with links := c.links.map fun l => { l with probeOut := true, roundTrip := some 100000 } }) (live), 4, 0, by decide +kernel⟩,
    ⟨cadence 1 (fun c => { c with links := c.links.map fun l => { l with probeOut := true, roundTrip := some 100000 } }) (live), 4, List.replicate 40 0, 100000, by decide +kernel⟩,
    ⟨cadence 1 (fun c => { c with links := c.links.map fun l => { l with st := .align } }) (live), 4, by decide +kernel⟩,
    ⟨cadence 1 id (live), 4, by decide +kernel⟩,
    ⟨cadence 1 (fun c => { c with links := c.links.map fun l => { l with st := .down } }) (live), 4, by decide +kernel⟩,
    ⟨cadence 2 id (live), .a, by decide +kernel⟩,
    ⟨cadence 1 id (live), .a, List.replicate 40 0, by decide +kernel⟩,
    ⟨cadence 1 (fun c => { c with run := some theRun }) (live), 4, List.replicate 40 0, by decide +kernel⟩,
    ⟨cadence 1 (fun c => { c with run := some { theRun with join := some 4 } }) (live), .a, by decide +kernel⟩,
    ⟨cadence 1 (fun c => { c with run := some theRun }) (live), .a, by decide +kernel⟩,
    ⟨cadence 1 (fun c => { c with run := some theRun }) (live), .a, List.replicate 40 0, 1, by decide +kernel⟩,
    ⟨cadence 1 id (live), 4, List.replicate 40 0, by decide +kernel⟩,
    ⟨cadence 1 (fun c => { c with idx := 0, idxValid := true }) (live), .a, List.replicate 40 0, 2, by decide +kernel⟩,
    ⟨cadence 1 id (live), .a, List.replicate 40 0, by decide +kernel⟩,
    ⟨cadence 1 (fun c => { c with slots := c.slots.set 0 { Slot.empty with valid := true, dom := true } }) live, .a, List.replicate 40 0, 0, by decide +kernel⟩,
    ⟨onSlot { Slot.empty with valid := true } live, 0, 1, by decide +kernel⟩,
    ⟨onSlot { Slot.empty with valid := true, openEnd := some 0 } live, 0, by decide +kernel⟩,
    ⟨onSlot { Slot.empty with valid := true, openEnd := some 0, rep := 1 } live, 0, by decide +kernel⟩,
    ⟨onSlot { Slot.empty with valid := true, action := 9 } live, 0, by decide +kernel⟩,
    ⟨withRst (fun r => { r with mgmtRun := false }) (onSlot { Slot.empty with valid := true, action := 3 } live), 0, by decide +kernel⟩,
    ⟨onSlot { Slot.empty with valid := true, action := 1, deferral := some { beats := 16, held := false, last := 0 } } live, 0, by decide +kernel⟩⟩

theorem witness_MonitoringAndThermalPolicy :
    (∃ (s : State) (k : Fin 2), s.mon[k].cfg.mode = 1 ∧ s.mon[k].busy = .idle ∧ s.mon[k].inTest = false ∧ domOn s 4 = true ∧ (monSettling
      s.mon[k] (gridRef s s.mon[k] (monNextIndex s.mon[k]).1) = true ∨ s.mon[k].cfg.avg = 0)) ∧
    (∃ (s : State) (k : Fin 2), monRing s = false ∧ s.mon[k].gather.length ≤ 1024) ∧
    (∃ (s : State) (k : Fin 2), s.mon[k].cfg.mode = 2 ∧ s.mon[k].inTest = false ∧ domOn s 4 = true ∧ s.mon[k].busy = .idle ∧
      s.mon[k].roundDue = false ∧ 0 < s.mon[k].cfg.list.length) ∧
    (∃ (s : State) (k : Fin 2), ((match s.mon[k].busy with | .scan i => decide (s.mon[k].inTest = false ∧ k = 1 ∧ s.mon[k].roundDue = true) | _ => false) : Bool) = true) ∧
    (∃ (s : State) (k : Fin 2), ((match s.mon[k].busy with | .scan i => decide (s.mon[k].inTest = false ∧ (k = 0 ∨ s.mon[k].roundDue = false)) | _ => false) : Bool) = true) ∧
    (∃ (s : State) (i : Fin 32) (j : Fin 32) (a : Bool) (b : Bool), (decide (i < j) && let c := s.comp[i]; let d := s.comp[j]; let k := Fin.ofNat 2 c.assign; decide (a ≠ c.level ∧ a = c.dir ∧ c.en = true ∧ c.urgEn = true ∧ b ≠ d.level ∧ b = d.dir ∧ d.en = true ∧ d.urgEn = true ∧ d.assign = c.assign ∧ domOn s 4 = true ∧ monConverting s.mon[k] = false) : Bool) = true) ∧
    (∃ (s : State) (i : Fin 32) (level : Bool) (j : Fin 32), j ≠ i) ∧
    (∃ (s : State) (i : Fin 32) (level : Bool), level ≠ s.comp[i].level ∧ level = s.comp[i].dir ∧ s.comp[i].en = true ∧ domOn s 4 = true ∧
      s.comp[i].urgEn = true ∧ monConverting s.mon[Fin.ofNat 2 s.comp[i].assign] = false) ∧
    (∃ (s : State), s.mon[(1 : Fin 2)].inTest = false ∧ domOn s 4 = true ∧ s.mon[(1 : Fin 2)].roundDue = false ∧ s.mon[(1 : Fin 2)].busy =
      .idle) ∧
    (∃ (s : State), (decide (s.mon[(1 : Fin 2)].inTest = false ∧ domOn s 4 = true ∧ s.mon[(1 : Fin 2)].roundDue = false) && (match s.mon[(1 : Fin 2)].busy with | .scan i => true | _ => false) : Bool) = true) ∧
    (∃ (s : State) (r : List SensorReading), (decide (s.mon[(1 : Fin 2)].inTest = false ∧ domOn s 4 = true ∧ s.mon[(1 : Fin 2)].roundDue = false) && (match s.mon[(1 : Fin 2)].busy with | .burst i l r => true | _ => false) : Bool) = true) ∧
    (∃ (s : State) (r : List SensorReading) (i : Fin 14), s.mon[(1 : Fin 2)].busy = .round ∧ s.rst.mgmtRun = true) ∧
    (∃ (s : State) (r : List SensorReading) (i : Fin 14), s.mon[(1 : Fin 2)].busy = .round ∧ s.rst.mgmtRun = false) ∧
    (∃ (s : State) (k : Nat), s.rst.mgmtRun = false ∧ k < 4) ∧
    (∃ (s : State), s.rst.mgmtRun = true ∧ s.therm.stage = 2 ∧ holdsAdvise s = true) ∧
    (∃ (s : State), (decide ((s.rst.mgmtRun = true ∧ (s.therm.stage = 3 ∨ s.therm.stage = 4)) ∧ holdsHot s = true) && (match s.therm.order.find? (fun c => !(s.therm.shed.any fun e => e.1 == c) && !s.therm.shedWait.contains c && !(shedDoms s c).isEmpty) with | some c => decide (shedTested s c = false) | _ => false) : Bool) = true) ∧
    (∃ (s : State), (decide ((s.rst.mgmtRun = true ∧ (s.therm.stage = 3 ∨ s.therm.stage = 4)) ∧ holdsHot s = true) && (match s.therm.order.find? (fun c => !(s.therm.shed.any fun e => e.1 == c) && !s.therm.shedWait.contains c && !(shedDoms s c).isEmpty) with | some c => decide (shedTested s c = true) | _ => false) : Bool) = true) ∧
    (∃ (s : State), ((s.rst.mgmtRun = true ∧ (s.therm.stage = 3 ∨ s.therm.stage = 4)) ∧ holdsAdvise s = false) ∧ s.therm.shed ≠ []) ∧
    (∃ (s : State), s.rst.mgmtRun = true ∧ s.therm.stage = 5 ∧ s.therm.shed ≠ []) ∧
    (∃ (s : State) (r : List SensorReading), s.therm.tripped = false ∧ tripVote s r = none) ∧
    (∃ (s : State) (r : List SensorReading), (decide (s.therm.tripped = false) && (match tripVote s r with | some v => decide (s.therm.votes < 2) | _ => false) : Bool) = true) ∧
    (∃ (s : State) (r : List SensorReading), (decide (s.therm.tripped = false) && (match tripVote s r with | some v => decide (2 ≤ s.therm.votes) | _ => false) : Bool) = true) :=
  ⟨⟨withMon 0 (fun m => { m with cfg := { m.cfg with mode := 1 }, settleTo := 1 }) live, 0, by decide +kernel⟩,
    ⟨live, 0, by decide +kernel⟩,
    ⟨live, 0, by decide +kernel⟩,
    ⟨withMon 1 (fun m => { m with busy := .scan 0, roundDue := true }) live, 1, by decide +kernel⟩,
    ⟨withMon 0 (fun m => { m with busy := .scan 0, roundDue := true }) live, 0, by decide +kernel⟩,
    ⟨(fun s => { s with comp := s.comp.map fun c => { c with en := true, urgEn := true, dir := true, level := false } }) live, 3, 4, true, true, by decide +kernel⟩,
    ⟨live, 3, true, 4, by decide +kernel⟩,
    ⟨(fun s => { s with comp := s.comp.map fun c => { c with en := true, urgEn := true, dir := true, level := false } }) live, 3, true, by decide +kernel⟩,
    ⟨live, by decide +kernel⟩,
    ⟨withMon 1 (fun m => { m with busy := .scan 0 }) live, by decide +kernel⟩,
    ⟨withMon 1 (fun m => { m with busy := .burst 0 1 0 }) live, [], by decide +kernel⟩,
    ⟨withMon 1 (fun m => { m with busy := .round }) live, [], 2, by decide +kernel⟩,
    ⟨withRst (fun r => { r with mgmtRun := false }) (withMon 1 (fun m => { m with busy := .round }) live), [], 2, by decide +kernel⟩,
    ⟨withRst (fun r => { r with mgmtRun := false }) live, 0, by decide +kernel⟩,
    ⟨withTherm (fun t => { t with stage := 2, sens := t.sens.map fun x => { x with muteX := true, advX := true } }) (live), by decide +kernel⟩,
    ⟨withTherm (fun t => { t with stage := 3, sens := t.sens.map fun x => { x with muteX := true, advX := true } }) (live), by decide +kernel⟩,
    ⟨withTherm (fun t => { t with stage := 3, order := [Tgt.code (.line (some 3))], sens := t.sens.map fun x => { x with muteX := true, advX := true } }) (modRx 3 (fun r => { r with inTest := true }) live), by decide +kernel⟩,
    ⟨withTherm (fun t => { t with stage := 3, shed := [(0, [])] }) (live), by decide +kernel⟩,
    ⟨withTherm (fun t => { t with stage := 5, shed := [(0, [])] }) (live), by decide +kernel⟩,
    ⟨live, [], by decide +kernel⟩,
    ⟨live, List.replicate 14 { temp := 130 * 65536, biasOk := true }, by decide +kernel⟩,
    ⟨withTherm (fun t => { t with votes := 2 }) (live), List.replicate 14 { temp := 130 * 65536, biasOk := true }, by decide +kernel⟩⟩

theorem witness_ReedSessions :
    (∃ (s : State), (decide (s.rst.mgmtRun = true ∧ domOn s 5 = true ∧ s.cal.busy = none ∧ swapRuns s = false) && (match (calQueue s).head? with | some q => decide (sessionFits s q = true ∧ (arbPresent 1 (calArb (calTgt q)) s).2 = true) | _ => false) : Bool) = true) ∧
    (∃ (s : State) (r : SessionResult) (c : ConvId), ((match s.cal.busy with | some q => decide (calTgt q.target = .conv c ∧ resultOk (calHeld s (.conv c) q.slice) r = true) && (match regionTemp s (convSensor c) with | some x => decide (q.slice < (getConv s c).cal.length) | _ => false) | _ => false) : Bool) = true) ∧
    (∃ (s : State) (r : SessionResult) (c : ConvId), ((match s.cal.busy with | some q => decide (calTgt q.target = .conv c ∧ resultOk (calHeld s (.conv c) q.slice) r = false) | _ => false) : Bool) = true) ∧
    (∃ (s : State) (r : SessionResult), ((match s.cal.busy with | some q => decide (calTgt q.target = .reed) | _ => false) : Bool) = true) ∧
    (∃ (s : State) (c : ConvId) (run : ParallelRun), ((match (getConv s c).run with | some r => decide (r.failures = [] ∧ s.late = [] ∧ runPasses c run = true) | _ => false) : Bool) = true) ∧
    (∃ (s : State) (c : ConvId) (run : ParallelRun), ((match (getConv s c).run with | some r => decide (r.failures = [] ∧ s.late = [] ∧ runPasses c run = false) | _ => false) : Bool) = true) ∧
    (∃ (s : State) (r : SessionResult), ((match s.cal.busy with | some q => decide (1 < segmentsOf (calTgt q.target)) && (match s.cal.begun.find? (·.target == q.target) with | some b => decide (b.done + 1 < segmentsOf (calTgt q.target)) | _ => false) | _ => false) : Bool) = true) ∧
    (∃ (s : State) (r : SessionResult), ((match s.cal.busy with | some q => decide (1 < segmentsOf (calTgt q.target)) && (match s.cal.begun.find? (·.target == q.target) with | some b => decide (segmentsOf (calTgt q.target) ≤ b.done + 1) | _ => false) | _ => false) : Bool) = true) ∧
    (∃ (s : State), s.cal.dueSince ≠ [] ∧ s.cal.idleRaised = false ∧ s.cal.busy = none) ∧
    (∃ (s : State) (q : _), ((match s.cal.requests.find? (·.1 == q) with | some e => true | _ => false) : Bool) = true) :=
  ⟨⟨onCal (fun c => { c with forced := [3] }) (onSlot { Slot.empty with valid := true, classes := 0xFF, target := Tgt.code .device, openEnd := some 0xFFFFFFFFFFFFFF } live), by decide +kernel⟩,
    ⟨onCal (fun c => { c with busy := some { target := 3, slice := 0, cmd := none, forced := false, due := none, again := false } }) (live), { vals := { offset := 0, gain := 0, timing := 0 }, bandgapOk := true, secondOk := true, timingOk := true }, .lineAdc 3, by decide +kernel⟩,
    ⟨onCal (fun c => { c with busy := some { target := 3, slice := 0, cmd := none, forced := false, due := none, again := false } }) (live), { vals := { offset := 0, gain := 0, timing := 0 }, bandgapOk := false, secondOk := true, timingOk := true }, .lineAdc 3, by decide +kernel⟩,
    ⟨onCal (fun c => { c with busy := some { target := 48, slice := 0, cmd := none, forced := false, due := none, again := false } }) (live), { vals := { offset := 0, gain := 0, timing := 0 }, bandgapOk := true, secondOk := true, timingOk := true }, by decide +kernel⟩,
    ⟨modConv (.lineAdc 3) (fun v => { v with run := some { phase := 0, out := 0, spare := 64, failures := [] } }) live, .lineAdc 3, { sumAbs := 8192, maxAbs := 128 }, by decide +kernel⟩,
    ⟨modConv (.lineAdc 3) (fun v => { v with run := some { phase := 0, out := 0, spare := 64, failures := [] } }) live, .lineAdc 3, { sumAbs := 8193, maxAbs := 128 }, by decide +kernel⟩,
    ⟨onCal (fun c => { c with busy := some { target := 32, slice := 0, cmd := none, forced := false, due := none, again := false }, begun := [{ target := 32, done := 0, cmd := none }] }) (live), { vals := { offset := 0, gain := 0, timing := 0 }, bandgapOk := true, secondOk := true, timingOk := true }, by decide +kernel⟩,
    ⟨onCal (fun c => { c with busy := some { target := 32, slice := 0, cmd := none, forced := false, due := none, again := false }, begun := [{ target := 32, done := 63, cmd := none }] }) (live), { vals := { offset := 0, gain := 0, timing := 0 }, bandgapOk := true, secondOk := true, timingOk := true }, by decide +kernel⟩,
    ⟨onCal (fun c => { c with dueSince := [3] }) (live), by decide +kernel⟩,
    ⟨onCal (fun c => { c with requests := [(3, cmdOf 0x81)] }) (live), 3, by decide +kernel⟩⟩

/-! ### Witnesses written by hand -/

/-- A state other than reset in which what every step keeps holds, the shadow copies among it, and its step. -/
theorem witness_StepKeepsInvariant : ∃ s t : State, Invariant s ∧ shadowsAgree s ∧
    (∀ u rest, s.pending ≠ .shadowCompare (some u) :: rest) ∧ step s = .next t :=
  ⟨setUp [(0x50, 7)] live, _, by unfold Invariant; decide +kernel, by unfold shadowsAgree; decide +kernel, by intro u rest; simp [setUp, live, State.reset], rfl⟩

theorem witness_EveryCommandFrame : ∃ (c : Instr) (s t : State), exec c s = .next t :=
  ⟨.light 3, live, _, rfl⟩

/-- The scrub's correction: no event before, one long enough ago, one too recent. -/
theorem witness_EccCorrected :
    (∃ (s : State) (mem addr : Nat), scrubOn s mem addr = true ∧ s.pmc.sel[(0 : Fin 8)] = 0x8A ∧
      s.evt.rate.find? (fun e => e.1 == 0x1F0 && e.2.1 == 0) = none) ∧
    (∃ (s : State) (mem addr : Nat) (e : Nat × Nat × Nat), scrubOn s mem addr = true ∧
      s.evt.rate.find? (fun e => e.1 == 0x1F0 && e.2.1 == 0) = some e ∧ e.2.2 + oneSecond = s.clk) ∧
    (∃ (s : State) (mem addr : Nat) (e : Nat × Nat × Nat), scrubOn s mem addr = true ∧
      s.evt.rate.find? (fun e => e.1 == 0x1F0 && e.2.1 == 0) = some e ∧ s.clk + 1 = e.2.2 + oneSecond) ∧
    (∃ s : State, s.chk.scrub = true) :=
  ⟨⟨(fun s => { s with pmc := { s.pmc with sel := Vector.replicate 8 0x8A } }) scrubbed, 1, 5, by decide +kernel⟩,
    ⟨withEvt (fun e => { e with rate := [(0x1F0, 0, 400000000 - oneSecond)] }) scrubbed, 1, 5, (0x1F0, 0, 400000000 - oneSecond),
      by decide +kernel⟩,
    ⟨withEvt (fun e => { e with rate := [(0x1F0, 0, 400000001 - oneSecond)] }) scrubbed, 1, 5, (0x1F0, 0, 400000001 - oneSecond),
      by decide +kernel⟩,
    ⟨withChk (fun c => { c with scrub := true }) scrubbed, by decide +kernel⟩⟩

/-- The signature right and wrong, whatever the free value is. -/
theorem witness_BlockTestResult :
    (∃ (sig : BitVec 64) (r : BlkTest) (c : Cmd) (s : State), s.tst.blk = some r ∧ r.cmd = some c ∧
      sig = Config.blockSignature r.target r.kinds) ∧
    (∃ (sig : BitVec 64) (r : BlkTest) (c : Cmd) (s : State), s.tst.blk = some r ∧ r.cmd = some c ∧
      sig ≠ Config.blockSignature r.target r.kinds) :=
  ⟨⟨_, theBlk, cmdOf 0x91, onTst (fun t => { t with blk := some theBlk }) live, rfl, rfl, rfl⟩,
    ⟨Config.blockSignature theBlk.target theBlk.kinds + 1, theBlk, cmdOf 0x91, onTst (fun t => { t with blk := some theBlk }) live,
      rfl, rfl, by simp⟩⟩

theorem witness_BootAndSupervision_signature :
    ∃ (s : State) (e : Exit) (g : Fin 6) (sig : BitVec 64), coldExit s = some e ∧ e.step = .selfTest g.val ∧
      sig ≠ Config.groupSignature g.val :=
  ⟨withRst (fun r => { r with exits := [coldAt (.selfTest 0)] }) live, coldAt (.selfTest 0), 0, Config.groupSignature 0 + 1,
    rfl, rfl, by simp⟩

/-- A judged converter: a slice fails with a spare, with none, and during a parallel run; and one that is not judged. -/
theorem witness_ConverterFailures :
    (∃ (s : State) (n : Fin 8) (k l y : Nat), convJudged s (.lineAdc n) = true ∧ (getConv s (.lineAdc n)).roles[k]? = some (.phase l) ∧
      (getConv s (.lineAdc n)).run = none ∧ spareSlice (getConv s (.lineAdc n)) = some y ∧ masked s (convEvent (.lineAdc n) 0) = false) ∧
    (∃ (s : State) (h : Fin 16) (k l : Nat), convJudged s (.hostAdc h) = true ∧ (getConv s (.hostAdc h)).roles[k]? = some (.phase l) ∧
      (getConv s (.hostAdc h)).run = none ∧ spareSlice (getConv s (.hostAdc h)) = none ∧ masked s (convEvent (.hostAdc h) 0) = false) ∧
    (∃ (s : State) (n : Fin 8) (k l : Nat) (r : SwapRun), convJudged s (.dac n) = true ∧
      (getConv s (.dac n)).roles[k]? = some (.phase l) ∧ (getConv s (.dac n)).run = some r) ∧
    (∃ (s : State) (n : Fin 8), convJudged s (.dac n) = false) :=
  ⟨⟨modConv (.lineAdc 3) (fun v => { v with roles := [.phase 0, .spare] }) (rxIn .up live), 3, 0, 0, 1, by decide +kernel⟩,
    ⟨modConv (.hostAdc 3) (fun v => { v with roles := [.phase 0, .failed] }) (hostIn .up live), 3, 0, 0, by decide +kernel⟩,
    ⟨modConv (.dac 3) (fun v => { v with roles := [.phase 0, .spare], run := some theSwap })
      (onTx (fun x => { x with st := .run }) live), 3, 0, 0, theSwap, by decide +kernel⟩,
    ⟨live, 3, by decide +kernel⟩⟩

/-! ### Ill-formed commands, one for each check of Instr.wf -/

/-- What a recovery loop answers for each code of CDR_BW. -/
def cdr4 : List (Int × Int) := List.replicate 4 (0, 0)
def cdr3 : List (Int × Int) := List.replicate 3 (0, 0)

theorem smoke_registers :
    [Instr.registerWrite .pcie 0x40000 4 0, .registerWrite .pcie 0 9 0, .lowerWordRead .pcie 0x44000, .lowerWordRead .pcie 2,
      .twoWireWrite 0x1000000 [], .twoWireRead 0x1000000 1].all (fun i => !i.wf) = true := by decide +kernel

theorem smoke_descriptors :
    [Instr.descriptorFetch 0 [], .nop { dsc .device [] with param := [] }, .patchStage (dsc .device []) { noImage with digest := [] },
      .patchStage { dsc .device [] with param := [] } { noImage with digest := List.replicate 32 0 },
      .ownerKey { dsc .device [] with param := [] } true].all (fun i => !i.wf) = true := by decide +kernel

theorem smoke_samples :
    [Instr.loopUpdate 0 [] cdr4, .loopUpdate 0 (List.replicate 64 64) cdr4, .loopUpdate 0 (List.replicate 64 (-65)) cdr4,
      .loopUpdate 0 (List.replicate 64 0) [], .hostLoopUpdate 0 (List.replicate 64 0) cdr3, .hostLoopUpdate 0 (List.replicate 32 64) cdr3,
      .hostLoopUpdate 0 (List.replicate 32 0) cdr4, .qualityWindowEnd 0 []].all (fun i => !i.wf) = true := by decide +kernel

theorem smoke_codewords :
    [Instr.innerCodeword 0 [], .innerCodeword 0 (List.replicate 68 { sym := 0, l1 := 512, l0 := 0 }),
      .innerCodeword 0 (List.replicate 68 { sym := 0, l1 := 0, l0 := -512 }), .outerCodeword 0 0 [] none,
      .outerCodeword 0 0 (List.replicate 544 0) (some (List.replicate 16 (0, 1)))].all (fun i => !i.wf) = true := by
  decide +kernel

theorem smoke_rounds :
    [Instr.housekeepingRoundEnd [] (List.replicate 12 0),
      .housekeepingRoundEnd (List.replicate 14 { temp := 0, biasOk := true }) [],
      .comparatorCrossing [(3, true), (3, false)], .tripEvaluation []].all (fun i => !i.wf) = true := by decide +kernel

theorem smoke_messages :
    [Instr.beat .a [] 0, .linkDelay .a [] 0, .probeTurn 2 [] 0, .enumOrder .a [] 0, .enumReport 2 [] 0, .enumAssign .a [] 0,
      .joinReq 2 [] 0, .joinGrant .a [] 0, .domEntry .a [] 0, .domCancelMessage .a [] 0, .summary 2 [] 0].all
      (fun i => !i.wf) = true := by decide +kernel

theorem smoke_well_formed :
    [Instr.registerWrite .pcie 0x50 4 7, .nop (dsc .device []), .beat .a (List.replicate 12 0) 0, .loopUpdate 0 (List.replicate 64 63) cdr4,
      .innerCodeword 0 (List.replicate 68 { sym := 3, l1 := -511, l0 := 511 })].all (·.wf) = true := by decide +kernel

/-! ### Figures that the spec gives -/

/-- The state after one command. -/
def after (i : Instr) (s : State) : State := match exec i s with
  | .next t => t
  | _ => s

/-- Every port's active bank as the straps of a mode give it. -/
def inMode (m : Nat) (s : State) : State :=
  { s with ports := Vector.ofFn fun p => { s.ports[p] with act := PortBank.default m false 0 p.val } }

/-- GLB.ID (Table 18.5). -/
theorem test_identity : (after (.lowerWordRead .twoWire 0) live).out = [.read .twoWire 0x84501F3B] := by decide +kernel

/-- A lane register and a port register that are off read their reset values (Tables 4.22, 6.12). -/
theorem test_reset_values : (readWord .twoWire 0x10204 live).1 = 0x60E020A0 ∧ (readWord .twoWire 0x30080 live).1 = 0x37471801 := by
  decide +kernel

/-- The example of R136: SNR 21.41 dB, PREFEC 0x4E19. -/
theorem test_snr : cdB 5120 37 = 2141 := by decide +kernel
theorem test_prefec : rateOf 10002 10000000000 = 0x4E19 := by decide +kernel

/-- The example of R204: 68,592 errored symbols of 544 × 2²⁴ read 0x47F1. -/
theorem test_ser : rateOf 68592 9126805504 = 0x47F1 := by decide +kernel

/-- The example of R151: at the defaults a symbol of value +3 has the code 112. -/
theorem test_dac_code :
    dacCode { live.lines[(3 : Fin 8)] with act := LineBank.default, tx := { live.lines[(3 : Fin 8)].tx with live := LineBank.default.txSet } }
      (List.replicate 29 (some 3)) = some (112, false) := by decide +kernel

/-- The example of R225: the symbol −3 after +3, +3, with −3 to follow, leaves at −304.7 mV. -/
theorem test_host_output : hostMv HostBank.default [3, 3, 0, 0, 0, 0] = -4875 / 16 := by decide +kernel

/-- The example of R181: a frame starts at tick 1,360,000 and none a tick later. -/
theorem test_frame_due :
    frameDue { live with clk := 1360000, pllAt := 0 } 3 = true ∧ frameDue { live with clk := 1360001, pllAt := 0 } 3 = false := by
  decide +kernel

/-- The example of R73: mode 6 transmits in 54 ns and receives in 130 ns. -/
theorem test_latency : latEntry (inMode 6 live) 0 = (5400, 13000) := by decide +kernel

/-- A deskew of 64 ns is not beyond its range, the next half nanosecond is (R53). -/
theorem test_deskew :
    let lane (k : Nat) : State := modRx 3 (fun r => { r with inFrame := true }) (onFr (fun f => { f with skew := k }) live)
    (deskewJudge 3 (lane 128)).ports[(3 : Fin 8)].sqDeskew = false ∧ (deskewJudge 3 (lane 129)).ports[(3 : Fin 8)].sqDeskew = true := by
  decide +kernel

/-- The example of R408: the ring CRC of the nine characters 1 to 9. -/
theorem test_ring_crc :
    crc 32 0x1EDC6F41 0xFFFFFFFF true true true ([0x31, 0x32, 0x33, 0x34, 0x35, 0x36, 0x37, 0x38, 0x39] : List Byte) = 0xE3069283 := by
  decide +kernel

/-- The standard code corrects one bit, the reach code two (R187, R188). -/
theorem test_standard_code :
    let c := hamEncode (List.replicate 128 true)
    c.length = 136 ∧ hamDecode (flipAt c 5) = some c := by decide +kernel
theorem test_reach_code :
    let c := bchEncode (List.replicate 128 true)
    c.length = 144 ∧ bchDecode (flipAt (flipAt c 5) 77) = some c := by decide +kernel

/-- POR is the cause after reset, and every line transmitter holds TX_DISABLE. -/
theorem test_reset : State.reset.rst.cause = 1 ∧ (State.reset.lines.toList.all fun l => l.tx.txDis) = true := by decide +kernel

/-- The example of R299: entry 1,000 of a ring of 256 lies at place 232. -/
theorem test_ring_place : 1000 % ringN (setUp [(0x2128, 0x82000000)] live) (.cmd 2) = 232 := by decide +kernel

end Sys2Proof.Tests
end

section
/-! SUPPORT. Line transmit (R92, R148, R150, R158, R173, R174): what the raising of an event leaves in the latches, how the optics
control port starts and ends a transaction, and the statement about the two. -/

namespace Sys2Proof.Machine

/-! ### What raising an event leaves in the latches -/

@[simp] theorem countSource_evt (src : Nat) (s : State) : (countSource src s).evt = s.evt := by
  unfold countSource countDev countLine countHost
  repeat' split
  all_goals rfl

@[simp] theorem noteOwn_evt (src cls : Nat) (s : State) : (noteOwn src cls s).evt = s.evt := rfl

@[simp] theorem logEvent_latches (src : Nat) (m : Bool) (p : Word) (s : State) :
    (logEvent src m p s).evt.latches = s.evt.latches := rfl

/-- The event is counted into its own latch. -/
def Latch.again (src : Nat) (l : Latch) : Latch := if l.src = src then { l with count := satU 16 (l.count + 1) } else l

@[simp] theorem Latch.again_src (src : Nat) (l : Latch) : (l.again src).src = l.src := by
  unfold Latch.again; split <;> rfl

/-- A raised event leaves the latches alone where its source is masked, is counted into the latch of its source where there is
one, and is latched with its payload otherwise. -/
theorem raise_latches {src : Nat} (hc : (evtClass src).isSome) (p : Word) (s : State) : ∃ t r, (raise src p s).evt.latches =
    if masked s src = true then s.evt.latches
    else if s.evt.latches.any (fun l => l.src == src) = true then s.evt.latches.map (Latch.again src)
    else s.evt.latches ++ [{ src := src, count := 1, payload := p, time := t, route := r }] := by
  obtain ⟨cls, hcls⟩ := Option.isSome_iff_exists.1 hc
  generalize hu : noteOwn src cls (countSource src s) = u
  have he : u.evt = s.evt := by rw [← hu]; simp
  have hm : masked u src = masked s src := by unfold masked; rw [he]
  refine ⟨now u, routeOf u src, ?_⟩
  simp only [raise, hcls, hu, hm, he]
  by_cases h1 : masked s src = true
  · simp only [h1, if_true, apply_ite State.evt, apply_ite Evt.latches, logEvent_latches, he, ite_self]
  · simp only [if_neg h1]
    split <;> rfl

theorem latched_raise {src : Nat} (hc : (evtClass src).isSome) (p : Word) (s : State) : Latched src s (raise src p s) := by
  intro hm
  obtain ⟨t, r, h⟩ := raise_latches hc p s
  rw [if_neg (by simp [hm])] at h
  rw [h]
  split
  case isTrue ha =>
    obtain ⟨l, hl, hs⟩ := List.any_eq_true.1 ha
    exact ⟨_, List.mem_map_of_mem hl, by simpa using hs⟩
  case isFalse => exact ⟨_, List.mem_append_right _ (List.mem_singleton_self _), rfl⟩

/-- Where no latch of the source waits, the one that waits afterwards carries the payload raised. -/
theorem raise_payload {src : Nat} (hc : (evtClass src).isSome) (p : Word) (s : State) (h : ∀ l ∈ s.evt.latches, l.src ≠ src) :
    ∀ l ∈ (raise src p s).evt.latches, l.src = src → l.payload = p := by
  intro l hl hs
  obtain ⟨t, r, e⟩ := raise_latches hc p s
  have hnone : s.evt.latches.any (fun l => l.src == src) = false := by simpa using h
  rw [e] at hl
  simp only [hnone, Bool.false_eq_true, if_false] at hl
  split at hl
  · exact absurd hs (h l hl)
  · rcases List.mem_append.1 hl with hl | hl
    · exact absurd hs (h l hl)
    · rw [List.mem_singleton.1 hl]

/-- The last raising of a source that is raised at most once per second. -/
def lastRaised (src inst : Nat) (s : State) : Option (Nat × Nat × Nat) :=
  s.evt.rate.find? fun e => e.1 == src && e.2.1 == inst

theorem raiseLimited_recent {src inst : Nat} {s : State} {e : Nat × Nat × Nat} (p : Word) (h : lastRaised src inst s = some e)
    (hlt : s.clk < e.2.2 + oneSecond) : raiseLimited src inst p s = s := by
  unfold lastRaised at h
  simp [raiseLimited, h, Nat.not_le.2 hlt]

theorem raiseLimited_due {src inst : Nat} {s : State} (p : Word)
    (h : ∀ e, lastRaised src inst s = some e → e.2.2 + oneSecond ≤ s.clk) :
    ∃ r, raiseLimited src inst p s = raise src p { s with evt := { s.evt with rate := r } } := by
  unfold lastRaised at h
  refine ⟨(src, inst, s.clk) :: s.evt.rate.filter fun e => !(e.1 == src && e.2.1 == inst), ?_⟩
  unfold raiseLimited
  cases hf : s.evt.rate.find? fun e => e.1 == src && e.2.1 == inst with
  | none => rfl
  | some e => simp [h e hf]

/-- Every offset below 0x20 of a line lane is the source of an event (R175). -/
theorem evtClass_lineSrc_isSome (n : Fin 8) {o : Nat} (ho : o < 0x20) : (evtClass (lineSrc n o)).isSome := by
  have hn := n.isLt
  have hoff : (lineSrc n o - 0x40) % 0x20 = o := by unfold lineSrc; omega
  have hclass : evtClass (lineSrc n o) = lineEvtClass o := by
    unfold evtClass
    rw [if_neg (by unfold lineSrc; omega), if_pos (by unfold lineSrc; omega), hoff]
  rw [hclass]
  unfold lineEvtClass
  simp only [ho, if_true]
  split
  · rfl
  · split
    · rfl
    · rfl

/-! ### Lanes but the one -/

theorem modLine_otherLines (n : Fin 8) (f : Line → Line) (s : State) : OtherLines n s (modLine n f s) :=
  fun _ hm => upd_get_ne _ _ hm

theorem otherLines_refl (n : Fin 8) (s : State) : OtherLines n s s := fun _ _ => rfl

theorem otherLines_of_lines {n : Fin 8} {s t u : State} (h : OtherLines n s t) (e : u.lines = t.lines) : OtherLines n s u :=
  fun m hm => by rw [e]; exact h m hm

theorem line_of_lines {s t : State} (e : t.lines = s.lines) (n : Fin 8) : t.lines[n] = s.lines[n] := by rw [e]

theorem modTx_line (n : Fin 8) (f : LineTx → LineTx) (s : State) :
    (modTx n f s).lines[n] = { s.lines[n] with tx := f s.lines[n].tx } := upd_get_self _ _ _

theorem modRx_line (n : Fin 8) (f : LineRx → LineRx) (s : State) :
    (modRx n f s).lines[n] = { s.lines[n] with rx := f s.lines[n].rx } := upd_get_self _ _ _

theorem modTx_otherLines (n : Fin 8) (f : LineTx → LineTx) (s : State) : OtherLines n s (modTx n f s) := modLine_otherLines n _ s

theorem modRx_otherLines (n : Fin 8) (f : LineRx → LineRx) (s : State) : OtherLines n s (modRx n f s) := modLine_otherLines n _ s

/-! ### Start and stop of a transmitter, SKEW (R150, R158) -/

theorem txDisRelease_otherLines (n : Fin 8) (s : State) : OtherLines n s (txDisRelease n s) := by
  unfold txDisRelease
  dsimp only
  split
  · exact modTx_otherLines n _ s
  · exact otherLines_refl n s

theorem txDisRelease_line (n : Fin 8) (s : State) : (txDisRelease n s).lines[n] =
    { s.lines[n] with tx := if s.lines[n].tx.st = .run ∧ s.lines[n].tx.dacOn = true ∧ s.therm.tripped = false
                            then { s.lines[n].tx with txDis := false } else s.lines[n].tx } := by
  simp only [txDisRelease, Bool.not_eq_true']
  split
  · exact modTx_line n _ s
  · rfl

theorem dacIdle_otherLines (n : Fin 8) (s : State) : OtherLines n s (dacIdle n s) := by
  unfold dacIdle
  split
  · exact otherLines_refl n s
  · exact modTx_otherLines n _ s

theorem dacIdle_line (n : Fin 8) (s : State) : (dacIdle n s).lines[n] =
    { s.lines[n] with tx := if s.lines[n].tx.st = .run then s.lines[n].tx
                            else { s.lines[n].tx with dacOn := false, drain := none } } := by
  unfold dacIdle
  split
  · rfl
  · exact modTx_line n _ s

/-- One step from a delay toward the delay that is set. -/
def skewToward (goal k : Nat) : Nat := if k < goal then k + 1 else if goal < k then k - 1 else k

theorem skewStep_line (n : Fin 8) (s : State) : (skewStep n s).lines[n] =
    { s.lines[n] with tx := { s.lines[n].tx with
        skew := skewToward (bits s.lines[n].act.txCfg 24 8) s.lines[n].tx.skew } } :=
  upd_get_self _ _ _

theorem skewToward_goal (goal k : Nat) : (k = goal → skewToward goal k = goal) ∧ (k < goal → skewToward goal k = k + 1) ∧
    (goal < k → skewToward goal k + 1 = k) := by
  unfold skewToward
  refine ⟨fun h => ?_, fun h => ?_, fun h => ?_⟩
  · rw [if_neg (by omega), if_neg (by omega), h]
  · rw [if_pos h]
  · rw [if_neg (by omega), if_pos h]; omega

/-! ### Clipped symbols (R148) -/

/-- The lane begins a new interval. -/
def clipsCleared (n : Fin 8) (s : State) : State := modTx n (fun x => { x with clips := 0 }) s

theorem txClipping_none {n : Fin 8} {s : State} (h : s.lines[n].tx.clips = 0) : txClipping n s = s := by
  unfold txClipping; exact if_pos h

theorem txClipping_some {n : Fin 8} {s : State} (h : s.lines[n].tx.clips ≠ 0) : txClipping n s =
    raiseLimited (lineSrc n 0x17) 0 (pay1 (min s.lines[n].tx.clips 65535)) (clipsCleared n s) := by
  unfold txClipping; exact if_neg h

theorem txClipping_lines {n : Fin 8} {s : State} (h : s.lines[n].tx.clips ≠ 0) :
    (txClipping n s).lines = (clipsCleared n s).lines := by
  rw [txClipping_some h, raiseLimited_lines]

theorem txClipping_line {n : Fin 8} {s : State} (h : s.lines[n].tx.clips ≠ 0) :
    (txClipping n s).lines[n] = { s.lines[n] with tx := { s.lines[n].tx with clips := 0 } } :=
  (line_of_lines (txClipping_lines h) n).trans (modTx_line n _ s)

theorem txClipping_recent {n : Fin 8} {s : State} (h : s.lines[n].tx.clips ≠ 0) {e : Nat × Nat × Nat}
    (he : lastRaised (lineSrc n 0x17) 0 s = some e) (hlt : s.clk < e.2.2 + oneSecond) : (txClipping n s).evt = s.evt := by
  rw [txClipping_some h, raiseLimited_recent (s := clipsCleared n s) _ he hlt]; rfl

/-- When the last raising lies a second back, the event is raised with the count of the interval. -/
theorem txClipping_due {n : Fin 8} {s : State} (h : s.lines[n].tx.clips ≠ 0)
    (hd : ∀ e, lastRaised (lineSrc n 0x17) 0 s = some e → e.2.2 + oneSecond ≤ s.clk) :
    ∃ u, u.evt.latches = s.evt.latches ∧ u.evt.masks = s.evt.masks ∧
      txClipping n s = raise (lineSrc n 0x17) (pay1 (min s.lines[n].tx.clips 65535)) u := by
  obtain ⟨r, hr⟩ := raiseLimited_due (s := clipsCleared n s) (pay1 (min s.lines[n].tx.clips 65535)) hd
  refine ⟨_, ?_, ?_, (txClipping_some h).trans hr⟩
  · rfl
  · rfl

theorem txClipping_latched {n : Fin 8} {s : State} (h : s.lines[n].tx.clips ≠ 0)
    (hd : ∀ e, lastRaised (lineSrc n 0x17) 0 s = some e → e.2.2 + oneSecond ≤ s.clk) :
    Latched (lineSrc n 0x17) s (txClipping n s) := by
  obtain ⟨u, -, hm, hu⟩ := txClipping_due h hd
  rw [hu]
  intro hmask
  exact latched_raise (evtClass_lineSrc_isSome n (by decide)) _ u (by rw [masked, hm]; exact hmask)

theorem txClipping_payload {n : Fin 8} {s : State} (h : s.lines[n].tx.clips ≠ 0)
    (hd : ∀ e, lastRaised (lineSrc n 0x17) 0 s = some e → e.2.2 + oneSecond ≤ s.clk)
    (hfree : ∀ l ∈ s.evt.latches, l.src ≠ lineSrc n 0x17) :
    ∀ l ∈ (txClipping n s).evt.latches, l.src = lineSrc n 0x17 → l.payload = pay1 (min s.lines[n].tx.clips 65535) := by
  obtain ⟨u, hl, -, hu⟩ := txClipping_due h hd
  rw [hu]
  exact raise_payload (evtClass_lineSrc_isSome n (by decide)) _ u (by rw [hl]; exact hfree)

/-! ### The optics control port: the start of a transaction (R173) -/

@[simp] theorem ocpDropped_ocp (t : OcpTrans) (s : State) : (ocpDropped t s).ocp = s.ocp := by
  unfold ocpDropped; split <;> rfl

@[simp] theorem ocpDropped_out (t : OcpTrans) (s : State) : (ocpDropped t s).out = s.out := by
  unfold ocpDropped; split <;> rfl

@[simp] theorem ocpFresh_what (s : State) (t : OcpTrans) : (ocpFresh s t).what = t.what := by
  unfold ocpFresh; split
  · rename_i h; exact h.symm
  · rename_i h; exact h.symm
  · rfl

/-- The transactions at the head that no longer stand are dropped. -/
def ocpPruned (s : State) : State :=
  (s.ocp.takeWhile (ocpDead s)).foldl (fun s t => ocpDropped t s) { s with ocp := s.ocp.dropWhile (ocpDead s) }

theorem ocpPruned_ocp (s : State) : (ocpPruned s).ocp = s.ocp.dropWhile (ocpDead s) :=
  (foldl_same _ (fun s t => ocpDropped t s) State.ocp (fun _ => True) (fun _ _ _ => trivial)
    (fun t _ u _ => ocpDropped_ocp t u) { s with ocp := s.ocp.dropWhile (ocpDead s) } trivial).1

theorem ocpPruned_out (s : State) : (ocpPruned s).out = s.out :=
  (foldl_same _ (fun s t => ocpDropped t s) State.out (fun _ => True) (fun _ _ _ => trivial)
    (fun t _ u _ => ocpDropped_out t u) { s with ocp := s.ocp.dropWhile (ocpDead s) } trivial).1

theorem ocpStart_idle {s : State} (h : s.ocp.dropWhile (ocpDead s) = []) : ocpStart s = ocpPruned s := by
  have hp : (ocpPruned s).ocp = [] := (ocpPruned_ocp s).trans h
  unfold ocpStart
  dsimp only
  split
  case h_1 => rfl
  case h_2 t l hq => exact absurd (hq.symm.trans hp) (List.cons_ne_nil t l)

theorem ocpStart_next {s : State} {t : OcpTrans} {l : List OcpTrans} (h : s.ocp.dropWhile (ocpDead s) = t :: l) :
    let u := ocpFresh (ocpPruned s) t
    ocpStart s = emit (.spi u.cs u.send) { ocpPruned s with ocp := u :: l } := by
  have hp : (ocpPruned s).ocp = t :: l := (ocpPruned_ocp s).trans h
  unfold ocpStart
  dsimp only
  split
  case h_1 hq => exact absurd (hp.symm.trans hq) (List.cons_ne_nil t l)
  case h_2 t' l' hq =>
    obtain ⟨rfl, rfl⟩ := List.cons.inj (hp.symm.trans hq)
    rfl

/-- What the port begins: of the transactions that still stand the first, with chip select and bytes as they are sent. -/
theorem ocpStart_effect (s : State) :
    (ocpStart s).ocp.map (·.what) = (s.ocp.dropWhile (ocpDead s)).map (·.what) ∧
    OnlyChanges [.ocp, .out, .lines] s (ocpStart s) ∧
    ((ocpStart s).ocp = [] → (ocpStart s).out = s.out) ∧
    ∀ x ∈ (ocpStart s).ocp.head?, (ocpStart s).out = s.out ++ [.spi x.cs x.send] := by
  have honly : OnlyChanges [.ocp, .out, .lines] s (ocpStart s) :=
    (ocpStart_only (Only.refl _ s) (by decide) (by decide) (by decide)).only
  cases h : s.ocp.dropWhile (ocpDead s) with
  | nil =>
    have hocp : (ocpStart s).ocp = [] := by rw [ocpStart_idle h, ocpPruned_ocp, h]
    have hout : (ocpStart s).out = s.out := by rw [ocpStart_idle h, ocpPruned_out]
    exact ⟨by rw [hocp], honly, fun _ => hout, by simp [hocp]⟩
  | cons t l =>
    have hstart := ocpStart_next h
    generalize hu : ocpFresh (ocpPruned s) t = u at hstart
    have hwhat : u.what = t.what := by rw [← hu, ocpFresh_what]
    have hocp : (ocpStart s).ocp = u :: l := by rw [hstart]; rfl
    have hout : (ocpStart s).out = s.out ++ [.spi u.cs u.send] := by
      rw [hstart]; exact congrArg (· ++ [Out.spi u.cs u.send]) (ocpPruned_out s)
    exact ⟨by simp [hocp, hwhat], honly, by simp [hocp], by simpa [hocp] using hout⟩

/-! ### The optics control port: the end of a transaction (R92, R173, R174) -/

/-- The transaction has ended and the next one has not begun: nothing follows from one that no longer stands. -/
def ocpSettled (a : OcpTrans) (miso : List Byte) (s : State) : State := if ocpStale s a then s else ocpResult a miso s

theorem ocpDone_idle {s : State} (miso : List Byte) (h : s.ocp = []) : ocpDone miso s = s := by
  unfold ocpDone; rw [h]

theorem ocpDone_head {s : State} {a : OcpTrans} {l : List OcpTrans} (miso : List Byte) (h : s.ocp = a :: l) :
    ocpDone miso s = ocpStart (ocpSettled a miso { s with ocp := l }) := by
  unfold ocpDone; rw [h]; rfl

section
variable {a : OcpTrans} {miso : List Byte} {s : State} {m : Fin 8} {code k : Nat}

theorem ocpSettled_stale (h : ocpStale s a = true) : ocpSettled a miso s = s := if_pos h

theorem ocpSettled_stands (h : ocpStale s a = false) : ocpSettled a miso s = ocpResult a miso s := if_neg (by simp [h])

theorem ocpSettled_void (h : a.what = .void) : ocpSettled a miso s = s := by
  rw [ocpSettled_stands (by simp [ocpStale, h])]; simp [ocpResult, h]

theorem ocpSettled_xfer {c : Cmd} (h : a.what = .xfer c) :
    ocpSettled a miso s = done c (ofBytesLE (miso.drop (miso.length - a.rd))) s := by
  rw [ocpSettled_stands (by simp [ocpStale, h])]; simp [ocpResult, h]

theorem ocpSettled_tiaWrite (h : a.what = .tiaWrite m code k) (hs : ocpStale s a = false) :
    ocpSettled a miso s = { s with ocp := ocpRead a (.tiaRead m code k) s :: s.ocp } := by
  rw [ocpSettled_stands hs]; simp [ocpResult, h, ocpFirst]

theorem ocpSettled_drvWrite (h : a.what = .drvWrite m code k) :
    ocpSettled a miso s = { s with ocp := ocpRead a (.drvRead m code k) s :: s.ocp } := by
  rw [ocpSettled_stands (by simp [ocpStale, h])]; simp [ocpResult, h, ocpFirst]

theorem ocpSettled_tiaRead_same (h : a.what = .tiaRead m code k) (hs : ocpStale s a = false)
    (hb : byteAt miso (miso.length - 1) = code) :
    ocpSettled a miso s = modRx m (fun r => { r with tiaCode := code }) s := by
  rw [ocpSettled_stands hs]; simp [ocpResult, h, hb]

theorem ocpSettled_tiaRead_again (h : a.what = .tiaRead m code k) (hs : ocpStale s a = false)
    (hb : byteAt miso (miso.length - 1) ≠ code) (hk : k < 2) :
    ocpSettled a miso s = { s with ocp := ocpAgain a (.tiaWrite m code 2) code s :: s.ocp } := by
  rw [ocpSettled_stands hs]; simp [ocpResult, h, hb, hk, ocpFirst]

/-- The second readback differs: writes of the lane stop, and the failure is reported (R92). -/
theorem ocpSettled_tiaRead_failed (h : a.what = .tiaRead m code k) (hs : ocpStale s a = false)
    (hb : byteAt miso (miso.length - 1) ≠ code) (hk : 2 ≤ k) :
    ocpSettled a miso s = raise (lineSrc m 0x0A) (pay2 code (byteAt miso (miso.length - 1)))
      (modRx m (fun r => { r with tiaStopped := true, tiaWanted := none }) s) := by
  rw [ocpSettled_stands hs]; simp [ocpResult, h, hb, Nat.not_lt.2 hk]

theorem ocpSettled_drvRead_same (h : a.what = .drvRead m code k) (hb : byteAt miso (miso.length - 1) = code) :
    ocpSettled a miso s = drvSettled m s := by
  rw [ocpSettled_stands (by simp [ocpStale, h])]; simp [ocpResult, h, hb]

theorem ocpSettled_drvRead_again (h : a.what = .drvRead m code k) (hb : byteAt miso (miso.length - 1) ≠ code) (hk : k < 2) :
    ocpSettled a miso s = { s with ocp := ocpAgain a (.drvWrite m code 2) code s :: s.ocp } := by
  rw [ocpSettled_stands (by simp [ocpStale, h])]; simp [ocpResult, h, hb, hk, ocpFirst]

/-- The second readback differs: the failure is reported, and the start sequence goes on (R158, R174). -/
theorem ocpSettled_drvRead_failed (h : a.what = .drvRead m code k) (hb : byteAt miso (miso.length - 1) ≠ code) (hk : 2 ≤ k) :
    ocpSettled a miso s = drvSettled m (raise (lineSrc m 0x18) (pay2 code (byteAt miso (miso.length - 1))) s) := by
  rw [ocpSettled_stands (by simp [ocpStale, h])]; simp [ocpResult, h, hb, Nat.not_lt.2 hk]

/-- Verified or given up, the driver write is settled, with at most a report before it. -/
theorem ocpSettled_drvRead_end (h : a.what = .drvRead m code k) (hend : byteAt miso (miso.length - 1) = code ∨ 2 ≤ k) :
    ∃ u, Reports s u ∧ ocpSettled a miso s = drvSettled m u := by
  by_cases hb : byteAt miso (miso.length - 1) = code
  · exact ⟨s, Reports.refl s, ocpSettled_drvRead_same h hb⟩
  · exact ⟨_, raise_reports _ _ s, ocpSettled_drvRead_failed h hb (hend.resolve_left hb)⟩

end

theorem drvSettled_after_reports {m : Fin 8} {s u : State} (h : Reports s u) :
    (drvSettled m u).ocp = s.ocp ∧ OtherLines m s (drvSettled m u) ∧ (drvSettled m u).lines[m].tx =
      if s.lines[m].tx.waitDriver = true then { s.lines[m].tx with waitDriver := false, dacOn := s.lines[m].tx.st == .run }
      else s.lines[m].tx := by
  refine ⟨h.ocp, fun j hj => ?_, ?_⟩
  · rw [← h.lines]; exact modTx_otherLines m _ u j hj
  · rw [drvSettled, modTx_lines, upd_get_self, h.lines]

/-- A TIA readback has ended. -/
theorem ocpSettled_tiaRead_effect {a : OcpTrans} {miso : List Byte} {w : State} {m : Fin 8} {code k : Nat}
    (h : a.what = .tiaRead m code k) (hs : ocpStale w a = false) :
    let back := byteAt miso (miso.length - 1); let v := ocpSettled a miso w
    (back = code → v = modRx m (fun r => { r with tiaCode := code }) w) ∧
    (back ≠ code → k < 2 → v = { w with ocp := ocpAgain a (.tiaWrite m code 2) code w :: w.ocp }) ∧
    (back ≠ code → 2 ≤ k → v.ocp = w.ocp ∧ OtherLines m w v ∧
      v.lines[m].rx = { w.lines[m].rx with tiaStopped := true, tiaWanted := none } ∧ Latched (lineSrc m 0x0A) w v) := by
  refine ⟨ocpSettled_tiaRead_same h hs, ocpSettled_tiaRead_again h hs, fun hb hk => ?_⟩
  dsimp only
  rw [ocpSettled_tiaRead_failed h hs hb hk]
  refine ⟨?_, otherLines_of_lines (modRx_otherLines m _ w) (raise_lines _), ?_, ?_⟩
  · rw [raise_ocp, modRx_ocp]
  · rw [raise_lines, modRx_lines, upd_get_self]
  · exact latched_raise (evtClass_lineSrc_isSome m (by decide)) _ (modRx m _ w)

/-- A driver readback has ended. -/
theorem ocpSettled_drvRead_effect {a : OcpTrans} {miso : List Byte} {w : State} {m : Fin 8} {code k : Nat}
    (h : a.what = .drvRead m code k) :
    let back := byteAt miso (miso.length - 1); let v := ocpSettled a miso w; let y := w.lines[m].tx
    (back ≠ code → k < 2 → v = { w with ocp := ocpAgain a (.drvWrite m code 2) code w :: w.ocp }) ∧
    (back = code ∨ 2 ≤ k → v.ocp = w.ocp ∧ OtherLines m w v ∧
      v.lines[m].tx = if y.waitDriver = true then { y with waitDriver := false, dacOn := y.st == .run } else y) ∧
    (back ≠ code → 2 ≤ k → Latched (lineSrc m 0x18) w v) := by
  refine ⟨ocpSettled_drvRead_again h, fun hend => ?_, fun hb hk => ?_⟩
  · obtain ⟨u, hu, e⟩ := ocpSettled_drvRead_end h hend
    rw [e]
    exact drvSettled_after_reports hu
  · rw [ocpSettled_drvRead_failed h hb hk]
    exact latched_raise (evtClass_lineSrc_isSome m (by decide)) _ w

/-! ### The statement -/

theorem exec_txDisableRelease (n : Fin 8) (s : State) : exec (.txDisableRelease n) s = .next (txDisRelease n s) := rfl
theorem exec_dacIdle (n : Fin 8) (s : State) : exec (.dacIdle n) s = .next (dacIdle n s) := rfl
theorem exec_skewStep (n : Fin 8) (s : State) : exec (.skewStep n) s = .next (skewStep n s) := rfl
theorem exec_transmitClipping (n : Fin 8) (s : State) : exec (.transmitClipping n) s = .next (txClipping n s) := rfl
theorem exec_ocpTransactionDone (miso : List Byte) (s : State) :
    exec (.ocpTransactionDone miso) s = .next (ocpDone miso s) := rfl

/-- Settles O45, command by command; at the port, the transaction at the head is settled and the next one starts. -/
theorem lineTransmit : Obligations.LineTransmit := by
  intro n s x
  refine ⟨?release, ?idle, ?skew, ?noClips, ?clips, fun miso => ⟨?portIdle, ?portDone⟩⟩
  case release =>
    exact ⟨_, exec_txDisableRelease n s, txDisRelease_otherLines n s, (txDisRelease_only (Only.refl _ s) (by decide)).only,
      txDisRelease_line n s⟩
  case idle =>
    exact ⟨_, exec_dacIdle n s, dacIdle_otherLines n s, (dacIdle_only (Only.refl _ s) (by decide)).only, dacIdle_line n s⟩
  case skew =>
    have hskew := congrArg (·.tx.skew) (skewStep_line n s)
    refine ⟨_, exec_skewStep n s, modLine_otherLines n _ s, (skewStep_only (Only.refl _ s) (by decide)).only, ?_, ?_⟩
    · rw [hskew]; exact skewStep_line n s
    · dsimp only; rw [hskew]; exact skewToward_goal _ _
  case noClips =>
    intro h
    rw [exec_transmitClipping, txClipping_none h]
  case clips =>
    intro h
    refine ⟨_, exec_transmitClipping n s, ?_, ?_, txClipping_line h, fun e => txClipping_recent h,
      fun hd => ⟨txClipping_latched h hd, txClipping_payload h hd⟩⟩
    · exact (txClipping_only (Only.refl _ s) (by decide) (by decide) (by decide) (by decide)).only
    · exact otherLines_of_lines (modTx_otherLines n _ s) (txClipping_lines h)
  case portIdle =>
    intro h
    rw [exec_ocpTransactionDone, ocpDone_idle miso h]
  case portDone =>
    intro a l h back w
    refine ⟨ocpSettled a miso w, by rw [exec_ocpTransactionDone, ocpDone_head miso h], ocpStart_effect _, ?_,
      fun c => ocpSettled_xfer, fun m code k hw hs => ocpSettled_tiaWrite (s := w) hw hs,
      fun m code k hw => ocpSettled_drvWrite (s := w) hw, fun m code k hr hs => ocpSettled_tiaRead_effect (w := w) hr hs,
      fun m code k hr => ocpSettled_drvRead_effect (w := w) hr⟩
    rintro (hs | hv)
    · exact ocpSettled_stale hs
    · exact ocpSettled_void hv

end Sys2Proof.Machine
end

section
/-! SUPPORT. What an unprivileged command ring accepts (R306, Table 9.5): the check of the opcode on such a ring, the answer of a
command that fails it, the rings' privileges after reset, and the statement. -/

namespace Sys2Proof

open Machine

variable {i : Instr} {op : Nat} {d : Desc} {img : ImageCheck} {s u : State} {c : Cmd}

/-- A command taken alone whose checks end in an answer gives that answer: nothing waits that it could release. -/
theorem exec_answered {st : Byte} {fin : Bool} {t : CTime} {r : Nat} (hi : opcodeOf i = some (op, d, img))
    (h : Taken op d img s c u) (ha : cmdCheck c u = answer c st fin t r u) : exec i s = .next (answer c st fin t r u) := by
  have hheld : (answer c st fin t r u).rings.held = [] := (answer_held c st fin t r u).trans h.held
  rw [exec_opcode hi, submit_taken h, ha, releaseHeld_id _ hheld]

theorem cmdCheck_forbidden (hf : opForbidden c u = true) : cmdCheck c u = refuse c stBadOpcode u := if_pos hf

theorem exec_forbidden (hi : opcodeOf i = some (op, d, img)) (h : Taken op d img s c u) (hf : opForbidden c u = true) :
    exec i s = .next (refuse c stBadOpcode u) :=
  exec_answered hi h (cmdCheck_forbidden hf)

/-- Opening a command changes no set-up register. -/
theorem Taken.ringPriv (h : Taken op d img s c u) (k : Fin 16) : ringPriv u k = ringPriv s k := by
  obtain ⟨_, _, _, rfl⟩ := h
  rfl

theorem opUnpriv_iff (op : Nat) : opUnpriv op = true ↔
    op = 0x00 ∨ op = 0x01 ∨ op = 0x12 ∨ op = 0x32 ∨ op = 0x33 ∨ op = 0x50 ∨ op = 0x53 := by
  simp [opUnpriv]

/-- Every opcode for unprivileged rings stands in Table 9.13. -/
theorem opKnown_of_opUnpriv (h : opUnpriv op = true) : opKnown op = true := by
  rcases (opUnpriv_iff op).1 h with rfl | rfl | rfl | rfl | rfl | rfl | rfl <;> rfl

/-- On an unprivileged ring the check passes the opcodes meant for one, QUERY_CMD only where it asks about its own ring. -/
theorem opForbidden_eq_false_of_unprivileged (hr : ringPriv u c.d.ring = false) :
    opForbidden c u = false ↔ opUnpriv c.op = true ∧ (c.op = 0x01 → c.p 0 = c.d.ring.val) := by
  have hk : opUnpriv c.op = true → opKnown c.op = true := opKnown_of_opUnpriv
  simp only [opForbidden, hr, Bool.or_eq_false_iff, Bool.not_eq_false', Bool.not_false, Bool.true_and, Bool.and_eq_false_imp,
    beq_iff_eq, bne_eq_false_iff_eq]
  exact ⟨fun h => h.2, fun h => ⟨hk h.1, h⟩⟩

/-- The opcodes meant for unprivileged rings as R306 lists them, with its condition on QUERY_CMD. -/
theorem opUnpriv_and_ownRing_iff (op : Nat) (own : Prop) : (opUnpriv op = true ∧ (op = 0x01 → own)) ↔
    (op = 0x00 ∨ (op = 0x01 ∧ own) ∨ op = 0x12 ∨ op = 0x32 ∨ op = 0x33 ∨ op = 0x50 ∨ op = 0x53) := by
  rw [opUnpriv_iff]
  by_cases h : op = 0x01
  · subst h; simp
  · simp [h]

/-- PRIV of Table 9.5 after reset: set in the first four command rings alone. -/
theorem ringPriv_reset : ∀ k : Fin 16, ringPriv State.reset k = decide (k.val < 4) := by decide +kernel

/-- Settles O30: the check of R306 decides on an unprivileged ring, and what it forbids is answered BAD_OPCODE. -/
theorem unprivilegedRings : Obligations.UnprivilegedRings := by
  refine ⟨fun i op d img s c u hi h hr => ?_, ringPriv_reset⟩
  obtain ⟨hop, hd, -⟩ := h.fields
  have hu : ringPriv u c.d.ring = false := by rw [h.ringPriv, hd, hr]
  have hpass := (opForbidden_eq_false_of_unprivileged hu).trans (opUnpriv_and_ownRing_iff c.op _)
  rw [hop, hd] at hpass
  exact ⟨hpass.2, fun hno => exec_forbidden hi h (Bool.eq_true_of_not_eq_false (mt hpass.1 hno))⟩

end Sys2Proof
end

section
/-! SUPPORT. Corrected words (R388, R411): the counters of the device block while its domain is off, the device asleep as a state
in which a scrubber runs beside them, and the statement that such a word always counts. -/

namespace Sys2Proof.Machine

/-! ### The device block's counters while its domain is off -/

theorem countDev_eq_self {s : State} (h : devCounts s = false) (sel k : Nat) : countDev sel k s = s :=
  if_neg (by simp [h])

theorem countSource_pmc {s : State} (h : devCounts s = false) (src : Nat) : (countSource src s).pmc = s.pmc := by
  unfold countSource countLine countHost
  simp only [countDev_eq_self h, apply_ite State.pmc, ite_self]

@[simp] theorem noteOwn_pmc (src cls : Nat) (s : State) : (noteOwn src cls s).pmc = s.pmc := rfl

@[simp] theorem logEvent_pmc (src : Nat) (m : Bool) (p : Word) (s : State) : (logEvent src m p s).pmc = s.pmc := rfl

/-- Counting the event is what could reach these counters; latching and logging write the event unit alone. -/
theorem raise_pmc {s : State} (h : devCounts s = false) (src : Nat) (p : Word) : (raise src p s).pmc = s.pmc := by
  unfold raise
  split
  case h_1 => rfl
  case h_2 cls _ =>
    have hu : (noteOwn src cls (countSource src s)).pmc = s.pmc :=
      (noteOwn_pmc src cls _).trans (countSource_pmc h src)
    generalize noteOwn src cls (countSource src s) = u at hu ⊢
    simp only [apply_ite State.pmc, logEvent_pmc, hu, ite_self]

theorem raiseLimited_pmc {s : State} (h : devCounts s = false) (src inst : Nat) (p : Word) :
    (raiseLimited src inst p s).pmc = s.pmc := by
  by_cases hdue : ∀ e, lastRaised src inst s = some e → e.2.2 + oneSecond ≤ s.clk
  · obtain ⟨r, hr⟩ := raiseLimited_due p hdue
    rw [hr]
    exact raise_pmc (s := { s with evt := { s.evt with rate := r } }) h src p
  · push Not at hdue
    obtain ⟨e, he, hlt⟩ := hdue
    rw [raiseLimited_recent p he hlt]

/-- A corrected word leaves the counters of a device block that is off: these hold their values (R388). -/
theorem eccCorr_pmc {s : State} (h : devCounts s = false) (mem addr : Nat) : (eccCorr mem addr s).pmc = s.pmc := by
  unfold eccCorr
  rw [countDev_eq_self (s := modChk _ s) h]
  exact raiseLimited_pmc (s := modChk _ s) h _ _ _

/-! ### A scrubber in sleep -/

theorem hardScrub_single {s : State} {mem addr : Nat} (h : scrubOn s mem addr = true) :
    hardScrub mem addr (some .single) s = eccCorr mem addr s := by
  simp [hardScrub, h]

/-- In sleep PD_00 alone is on (R439), so that the device block, which lies in PD_01, does not count. -/
theorem sleepEnter_devCounts (s : State) : devCounts (sleepEnter s) = false := by
  simp [sleepEnter, devCounts, domOn]

/-- Awake, every power domain on and firmware running, with all eight counters of the device block on selector 0x8A. -/
def countingCorrected : State :=
  { State.reset with
    clk := 400000000, refOk := true
    pmc := { Ctr.pmc with sel := Vector.replicate 8 0x8A }
    rst := { Rst.reset with on := Vector.replicate 50 true, exits := [], mgmtRun := true, ctrlReset := false } }

/-- The device asleep: the selections survive (R390), and the event memory in PD_00 (code 6) is scrubbed on (Table 14.3). -/
theorem sleepEnter_countingCorrected : let s := sleepEnter countingCorrected;
    s.pmc.sel[(0 : Fin 8)] = 0x8A ∧ scrubOn s 6 0 = true := by decide +kernel

theorem exec_hardwareScrub (mem addr : Nat) (ecc : Option EccOutcome) (s : State) :
    exec (.hardwareScrub mem addr ecc) s = .next (hardScrub mem addr ecc s) := rfl

/-- Refutes O48: in sleep PD_01 is off, so that the device block holds its counters (R388), while the event memory of PD_00 is
scrubbed on. A single-bit error corrected there does not count in the counter of selector 0x8A. -/
theorem not_eccCorrected : ¬ Obligations.EccCorrected := by
  intro h
  obtain ⟨hsel, hon⟩ := sleepEnter_countingCorrected
  obtain ⟨t, ht, -, hcnt, -⟩ := h (.hardwareScrub 6 0 (some .single)) 0 (sleepEnter countingCorrected) (.inl ⟨6, rfl, hon⟩)
  have hscrub : t = eccCorr 6 0 (sleepEnter countingCorrected) := by
    rw [exec_hardwareScrub, hardScrub_single hon] at ht
    exact (Host.Outcome.next.inj ht).symm
  have hheld : t.pmc = (sleepEnter countingCorrected).pmc := hscrub ▸ eccCorr_pmc (sleepEnter_devCounts _) 6 0
  have hstep := hcnt 0 hsel
  rw [hheld] at hstep
  exact absurd hstep (by simp)

end Sys2Proof.Machine
end

section
/-! SUPPORT. What every command keeps and where it writes, command by command (`Keeps`, `Only` of its operation), and the statements on
the queue, completion, the invariant and the footprints. -/

namespace Sys2Proof.Machine

open Sys2Proof

/-- What keeps changes neither the queue nor the clock. -/
theorem Keeps.beyondQueue {a b : State} (h : Keeps a b) : Only beyondQueue a b := by
  refine ⟨fun p hp => ?_⟩
  cases p
  case pending => exact h.pending
  case clk => exact ⟨h.clk, h.sub⟩
  all_goals exact absurd (by decide) hp

/-- Every command but a pass of the shadow compare is an operation that keeps. -/
theorem exec_keeps (c : Instr) (s : State) (hc : ∀ u, c ≠ .shadowCompare u) : ∃ t, exec c s = .next t ∧ Keeps s t := by
  have h := Keeps.refl s
  cases c <;> refine ⟨_, rfl, ?_⟩
  case shadowCompare u => exact absurd rfl (hc u)
  case housekeepingOscillatorLoss | housekeepingOscillatorRestored => exact Keeps_mk'.2 h
  case registerWrite | setupLock | ringEnable | ringDisable => exact hostWriteReg_keeps h
  case lowerWordRead | bufRdataRead => exact hostReadReg_keeps h
  case lineCoefCapture => exact lineCapture_keeps h
  case hostCoefCapture => exact hostCapture_keeps h
  case cmdDb => exact ringCmdDb_keeps h
  case cplDb | evtDb | tlmCons => exact ringConsDb_keeps h
  case tlmAck => exact ringTlmAck_keeps h
  case descriptorFetch => exact fetch_keeps h
  case nop | queryCmd | telemRefetch | bankWrite | bankCopy | bankRead | coefLoad | bankSwap | setMode | schedInstall |
      schedFree | domSchedule | domCancel | enumerate | laneAcquire | trainStart | latMeasure | hostMsg | ocpXfer | power |
      reset | freeze | counterClear | counterSelect | capture | eventMask | eventLogRead | monConfig | monSync |
      monThreshold | thermConfig | shedOrder | calConfig | calRequest | checkRun | selftest | patchStage | patchActivate |
      attest | ownerKey => exact submit_keeps h
  case completionRecordWrite => exact recordWrite_keeps h
  case eventRecordWrite => exact evtWrite_keeps h
  case telemetryRecordWrite => exact tlmWrite_keeps h
  case vectorSignal => exact ringTimer_keeps h
  case ringAccessError => exact ringAccessFail_keeps h
  case twoWireWrite => exact wireWrite_keeps h
  case twoWireRead => exact wireRead_keeps h
  case pcieLinkLoss => exact linkLost_keeps h
  case resetNAssert => exact resetPinLow_keeps h
  case resetNRelease => exact resetPinHigh_keeps h
  case resetNLongHold => exact longHold_keeps h
  case wakeTimer => exact wakeTimer_keeps h
  case perstNAssert => exact perstPinLow_keeps h
  case perstNRelease => exact perstPinHigh_keeps h
  case por | brownOut | testPortReset => exact assertReset_keeps h
  case porRelease | brownOutRelease => exact releaseReset_keeps h
  case vinLow => exact vinWarn_keeps h
  case vioLoss => exact vioLost_keeps h
  case vioReturn => exact vioBack_keeps h
  case resetSourceRelease => exact sourceRelease_keeps h
  case trimLoadAttempt => exact trimAttempt_keeps h
  case pllLock => exact pllLock_keeps h
  case selfTestGroupDone => exact groupDone_keeps h
  case firmwareBootDone => exact releaseHeld_keeps (firmwareBoot_keeps h)
  case domainTransitionDone => exact domDone_keeps h
  case domainFailed => exact domFailed_keeps h
  case watchdogExpiry | lockstepMismatch => exact mgmtFault_keeps h
  case scanEnable => exact scanEnable_keeps h
  case testPortAccess => exact testPortAccess_keeps h
  case refclkLost => exact refclkLost_keeps h
  case refclkRestored => exact refclkRestored_keeps h
  case signalLoss => exact signalLoss_keeps h
  case light => exact lightOn_keeps h
  case gainDone => exact gainDone_keeps h
  case timingDone => exact timingDone_keeps h
  case acquisitionRetry => exact acqRetry_keeps h
  case relockFallback => exact relockFallback_keeps h
  case lockLost => exact cdrUnlock_keeps h
  case portSquelched => exact outagePoint_keeps h
  case portResume => exact portResume_keeps h
  case outageEnd => exact outageEnd_keeps h
  case vgaLoopStep => exact vgaStep_keeps h
  case loopUpdate => exact loopUpdate_keeps h
  case qualityWindowEnd => exact qualityWindow_keeps h
  case blindTimeout => exact blindEnd_keeps h
  case trackingEntry => exact trackingEntry_keeps h
  case coefficientSaturated => exact coefSaturated_keeps h
  case floatingGroupSweepBlock => exact sweepBlock_keeps h
  case storedBankSave => exact storedSave_keeps h
  case sliceFailed | dacSegmentFailed => exact calPrune_keeps (convFail_keeps h)
  case tiaLimitHold => exact tiaLimit_keeps h
  case ocpTransactionDone => exact ocpDone_keeps h
  case vgaTiaStep => exact vgaTiaStep_keeps h
  case reedSessionStart => exact sessionStart_keeps h
  case reedSessionDone => exact sessionDone_keeps h
  case swapParallelRunDone => exact lateFlush_keeps (swapDone_keeps h)
  case segmentDone => exact segmentDone_keeps h
  case reedIdle => exact reedIdle_keeps h
  case calRequestTimeout => exact requestTimeout_keeps h
  case scrubBlockDone => exact scrubBlock_keeps h
  case scrubOverdue => exact scrubOverdue_keeps h
  case txDisableRelease => exact txDisRelease_keeps h
  case dacIdle => exact dacIdle_keeps h
  case transmitClipping => exact txClipping_keeps h
  case skewStep => exact skewStep_keeps h
  case request => exact trnRequest_keeps h
  case trainingApply => exact trnApply_keeps h
  case response => exact trnResponse_keeps h
  case done => exact trnDone_keeps h
  case requestRetransmit => exact trnRetransmit_keeps h
  case trainingSilent => exact trnSilent_keeps h
  case trainingProbe => exact trnProbe_keeps h
  case frameStart => exact frameStart_keeps h
  case frameHeaderReceived => exact frameHeader_keeps h
  case idleStatus => exact idleStatus_keeps h
  case echo => exact echoTake_keeps h
  case echoDrop => exact echoDrop_keeps h
  case latMeasureDone => exact latDone_keeps h
  case hostFragment => exact hostFrag_keeps h
  case hostAcknowledgement => exact hostAck_keeps h
  case hostMsgRetransmit => exact msgTimeout_keeps h
  case hostMsgAbandon => exact msgGiveUp_keeps h
  case innerCodeword => exact innerCodeword_keeps h
  case innerUncorrectable => exact innerInterval_keeps h
  case outerCodeword => exact outerCodeword_keeps h
  case outerUncorrectable => exact outerInterval_keeps h
  case serWindowEnd => exact serWindow_keeps h
  case hostSignalLoss => exact hostDrop_keeps h
  case hostSignal => exact hostSignalOn_keeps h
  case hostTimingDone => exact hostTimed_keeps h
  case ctleTrialDone => exact ctleTrial_keeps h
  case hostQualityWindowEnd => exact hostWindow_keeps h
  case hostLockLost => exact hostUnlock_keeps h
  case hostAcquisitionRetry => exact hostRetry_keeps h
  case dcgLoopStep => exact dcgStep_keeps h
  case hostLoopUpdate => exact hostLoop_keeps h
  case prbsCheckerLock => exact prbsLock_keeps h
  case prbsCheckerLockLoss => exact prbsLost_keeps h
  case loopbackSlip => exact loopSlip_keeps h
  case beatInEdge => exact beatInEdge_keeps h
  case chanterOwnMark => exact ownMark_keeps h
  case variableBeatHoldover => exact variableHoldover_keeps h
  case freeBeat => exact freeBeat_keeps h
  case acquiringTimeout => exact acquiringTimeout_keeps h
  case mark => exact markArrives_keeps h
  case beat => exact received_keeps (fun _ hx => beatTake_keeps hx) h
  case markMissing => exact markMissing_keeps h
  case spreadCorrection => exact spreadCorrection_keeps h
  case probeInterval => exact probeInterval_keeps h
  case probe => exact probeArrives_keeps h
  case probeEcho => exact probeEchoArrives_keeps h
  case probeTurn => exact received_keeps (fun _ hx => probeTurn_keeps hx) h
  case linkDelay => exact received_keeps (fun _ hx => linkDelay_keeps hx) h
  case keepAlive => exact keepAlive_keeps h
  case keepAliveMissing => exact linkDown_keeps h
  case commaAlignment => exact commaAlign_keeps h
  case abort => exact abortArrives_keeps h
  case enumerationStart => exact enumTimer_keeps h
  case enumOrder => exact received_keeps (fun _ hx => enumOrder_keeps hx) h
  case enumReport => exact received_keeps (fun _ hx => enumReport_keeps hx) h
  case enumReportTimeout => exact enumTimeout_keeps h
  case enumAssign => exact received_keeps (fun _ hx => enumAssign_keeps hx) h
  case joinReq => exact received_keeps (fun _ hx => joinReq_keeps hx) h
  case joinGrant => exact received_keeps (fun _ hx => joinGrant_keeps hx) h
  case domEntry => exact received_keeps (fun _ hx => domEntry_keeps hx) h
  case domCancelMessage => exact received_keeps (fun _ hx => domCancelMsg_keeps hx) h
  case summary => exact received_keeps (fun _ hx => summaryArrives_keeps hx) h
  case extraSummary => exact extraSummary_keeps h
  case windowOpen => exact windowOpen_keeps h
  case windowClose => exact windowClose_keeps h
  case pointAction => exact pointAction_keeps h
  case deferralDropped => exact deferralDropped_keeps h
  case monitorOutput => exact monOutput_keeps h
  case recTimeExpiry => exact monFlush_keeps h
  case scanPassStart => exact monPass_keeps h
  case scanConversionDone => exact monScanDone_keeps h
  case comparatorCrossing => exact compLevels_keeps h
  case housekeepingRound => exact roundStart_keeps h
  case housekeepingRoundEnd => exact roundEnd_keeps h
  case graceExpiry | shedDwellExpiry | muteHoldExpiry | liftGapExpiry => exact timerEnd_keeps h
  case tripEvaluation => exact tripEval_keeps h
  case captureDone => exact capDone_keeps h
  case eyeScanDone => exact scanDone_keeps h
  case checkScanDone => exact chkDone_keeps h
  case onDemandTestDone => exact shedWaited_keeps (testDone_keeps h)
  case alignmentMarkerLock => exact markerLock_keeps h
  case codewordLock => exact codewordLock_keeps h
  case codewordLockLost => exact codewordLockLost_keeps h
  case headerCheckErrors => exact headerErrors_keeps h
  case hardwareScrub => exact hardScrub_keeps h
  case calibrationStoreRefresh => exact storeRefresh_keeps h
  case pcieConfigWrite => exact configWrite_keeps h
  case pcieLinkUp => exact linkBack_keeps h
  case latencyBufferResetDone => exact bufferResetDone_keeps h
  case linkAlignmentLost => exact linkDown_keeps (linkError_keeps h)
  case controlPlaneLeavesReset => exact ctrlLeaves_keeps h

/-- The pass and the upset after it write set-up registers, the count of upsets and reports. -/
theorem exec_shadowCompare (u : Option (Nat × Word)) (s : State) : exec (.shadowCompare u) s = .next (shadowCompare u s) := rfl

/-- No command writes outside its footprint. -/
theorem exec_only (c : Instr) (s : State) : ∃ t, exec c s = .next t ∧ Only (footprint c) s t := by
  have h (ps : List Part) : Only ps s s := Only.refl ps s
  have hkeeps := exec_keeps c s
  cases c <;> refine ⟨_, rfl, ?_⟩ <;> dsimp only [footprint]
  case housekeepingOscillatorLoss | housekeepingOscillatorRestored =>
    simp only [only_mk, h, true_or, or_true, List.mem_singleton]
  case shadowCompare => refine shadowCompare_only (h _) ?_ ?_ ?_ ?_ ?_ <;> decide
  case registerWrite | setupLock | ringEnable | ringDisable =>
    refine hostWriteReg_only (h _) ?_ ?_ ?_ ?_ ?_ ?_ ?_ ?_ ?_ ?_ ?_ ?_ ?_ ?_ <;> decide
  case lowerWordRead | bufRdataRead => refine hostReadReg_only (h _) ?_ ?_ ?_ ?_ <;> decide
  case lineCoefCapture => exact lineCapture_only (h _) (by decide)
  case hostCoefCapture => exact hostCapture_only (h _) (by decide)
  case cmdDb => refine ringCmdDb_only (h _) ?_ ?_ ?_ ?_ <;> decide
  case cplDb | evtDb | tlmCons => refine ringConsDb_only (h _) ?_ ?_ ?_ ?_ <;> decide
  case tlmAck => refine ringTlmAck_only (h _) ?_ ?_ ?_ ?_ ?_ <;> decide
  case eventRecordWrite => refine evtWrite_only (h _) ?_ ?_ ?_ ?_ ?_ ?_ <;> decide
  case telemetryRecordWrite => refine tlmWrite_only (h _) ?_ ?_ ?_ ?_ ?_ ?_ ?_ ?_ ?_ ?_ <;> decide
  case vectorSignal => refine ringTimer_only (h _) ?_ ?_ ?_ <;> decide
  case ringAccessError => refine ringAccessFail_only (h _) ?_ ?_ ?_ ?_ ?_ <;> decide
  case twoWireWrite => refine wireWrite_only (h _) ?_ ?_ ?_ ?_ ?_ ?_ ?_ ?_ ?_ ?_ ?_ ?_ ?_ ?_ ?_ <;> decide
  case twoWireRead => refine wireRead_only (h _) ?_ ?_ ?_ ?_ ?_ ?_ ?_ <;> decide
  case pcieLinkLoss => exact linkLost_only (h _) (by decide)
  case resetNLongHold => exact longHold_only (h _) (by decide)
  case perstNRelease => refine perstPinHigh_only (h _) ?_ ?_ ?_ ?_ ?_ <;> decide
  case porRelease | brownOutRelease => refine releaseReset_only (h _) ?_ ?_ ?_ ?_ ?_ <;> decide
  case vinLow => refine vinWarn_only (h _) ?_ ?_ ?_ <;> decide
  case resetSourceRelease => refine sourceRelease_only (h _) ?_ ?_ ?_ ?_ ?_ <;> decide
  case trimLoadAttempt => refine trimAttempt_only (h _) ?_ ?_ ?_ ?_ ?_ ?_ ?_ ?_ ?_ ?_ ?_ ?_ ?_ ?_ ?_ ?_ ?_ ?_ ?_ ?_ ?_ <;> decide
  case pllLock => refine pllLock_only (h _) ?_ ?_ ?_ ?_ ?_ ?_ ?_ ?_ ?_ ?_ ?_ ?_ ?_ ?_ ?_ ?_ ?_ ?_ ?_ ?_ ?_ <;> decide
  case selfTestGroupDone => refine groupDone_only (h _) ?_ ?_ ?_ ?_ ?_ ?_ ?_ ?_ ?_ ?_ ?_ ?_ ?_ ?_ ?_ ?_ ?_ ?_ ?_ <;> decide
  case domainTransitionDone => refine domDone_only (h _) ?_ ?_ ?_ ?_ ?_ ?_ ?_ ?_ ?_ ?_ ?_ ?_ ?_ ?_ ?_ ?_ ?_ <;> decide
  case domainFailed => refine domFailed_only (h _) ?_ ?_ ?_ ?_ ?_ ?_ ?_ ?_ ?_ ?_ ?_ ?_ ?_ ?_ ?_ ?_ <;> decide
  case scanEnable => refine scanEnable_only (h _) ?_ ?_ ?_ ?_ <;> decide
  case testPortAccess => refine testPortAccess_only (h _) ?_ ?_ ?_ <;> decide
  case refclkLost => refine refclkLost_only (h _) ?_ ?_ ?_ ?_ ?_ ?_ ?_ ?_ ?_ ?_ ?_ ?_ ?_ ?_ ?_ ?_ ?_ ?_ ?_ ?_ ?_ <;> decide
  case refclkRestored => refine refclkRestored_only (h _) ?_ ?_ ?_ ?_ ?_ ?_ ?_ ?_ ?_ ?_ ?_ ?_ ?_ ?_ <;> decide
  case signalLoss => refine signalLoss_only (h _) ?_ ?_ ?_ ?_ ?_ <;> decide
  case light => refine lightOn_only (h _) ?_ ?_ ?_ ?_ ?_ ?_ <;> decide
  case gainDone => exact gainDone_only (h _) (by decide)
  case timingDone => exact timingDone_only (h _) (by decide)
  case acquisitionRetry => refine acqRetry_only (h _) ?_ ?_ ?_ ?_ <;> decide
  case relockFallback => refine relockFallback_only (h _) ?_ ?_ ?_ ?_ <;> decide
  case lockLost => refine cdrUnlock_only (h _) ?_ ?_ ?_ ?_ ?_ ?_ <;> decide
  case portSquelched => refine outagePoint_only (h _) ?_ ?_ ?_ ?_ <;> decide
  case portResume => exact portResume_only (h _) (by decide)
  case outageEnd => exact outageEnd_only (h _) (by decide)
  case vgaLoopStep => refine vgaStep_only (h _) ?_ ?_ ?_ <;> decide
  case loopUpdate => refine loopUpdate_only (h _) ?_ ?_ ?_ ?_ ?_ <;> decide
  case qualityWindowEnd => refine qualityWindow_only (h _) ?_ ?_ ?_ ?_ ?_ ?_ <;> decide
  case blindTimeout => exact blindEnd_only (h _) (by decide)
  case trackingEntry => exact trackingEntry_only (h _) (by decide)
  case coefficientSaturated => refine coefSaturated_only (h _) ?_ ?_ ?_ ?_ <;> decide
  case floatingGroupSweepBlock => refine sweepBlock_only (h _) ?_ ?_ ?_ ?_ ?_ <;> decide
  case storedBankSave => exact storedSave_only (h _) (by decide)
  case sliceFailed | dacSegmentFailed => refine calPrune_only (convFail_only (h _) ?_ ?_ ?_ ?_ ?_ ?_ ?_ ?_) ?_ ?_ ?_ ?_ ?_ <;> decide
  case tiaLimitHold => exact tiaLimit_only (h _) (by decide)
  case ocpTransactionDone => refine ocpDone_only (h _) ?_ ?_ ?_ ?_ ?_ ?_ ?_ <;> decide
  case vgaTiaStep => exact vgaTiaStep_only (h _) (by decide)
  case reedSessionStart => refine sessionStart_only (h _) ?_ ?_ ?_ ?_ ?_ ?_ <;> decide
  case reedSessionDone => refine sessionDone_only (h _) ?_ ?_ ?_ ?_ ?_ ?_ ?_ ?_ <;> decide
  case swapParallelRunDone =>
    refine lateFlush_only (swapDone_only (h _) ?_ ?_ ?_ ?_ ?_ ?_ ?_ ?_ ?_ ?_) ?_ ?_ ?_ ?_ ?_ ?_ ?_ ?_ ?_ ?_ ?_ ?_ ?_ ?_ ?_ ?_ ?_ ?_ ?_ ?_ ?_ ?_ ?_ ?_ ?_ ?_ ?_ ?_ ?_ ?_ <;> decide
  case segmentDone => refine segmentDone_only (h _) ?_ ?_ ?_ ?_ ?_ ?_ ?_ ?_ <;> decide
  case reedIdle => refine reedIdle_only (h _) ?_ ?_ ?_ ?_ <;> decide
  case calRequestTimeout => refine requestTimeout_only (h _) ?_ ?_ ?_ ?_ ?_ <;> decide
  case scrubBlockDone => refine scrubBlock_only (h _) ?_ ?_ ?_ ?_ ?_ ?_ ?_ ?_ ?_ ?_ ?_ ?_ <;> decide
  case scrubOverdue => refine scrubOverdue_only (h _) ?_ ?_ ?_ ?_ <;> decide
  case txDisableRelease => exact txDisRelease_only (h _) (by decide)
  case dacIdle => exact dacIdle_only (h _) (by decide)
  case transmitClipping => refine txClipping_only (h _) ?_ ?_ ?_ ?_ <;> decide
  case skewStep => exact skewStep_only (h _) (by decide)
  case request => refine trnRequest_only (h _) ?_ ?_ ?_ ?_ ?_ ?_ <;> decide
  case trainingApply => refine trnApply_only (h _) ?_ ?_ <;> decide
  case response => refine trnResponse_only (h _) ?_ ?_ ?_ ?_ ?_ <;> decide
  case done => refine trnDone_only (h _) ?_ ?_ ?_ ?_ ?_ <;> decide
  case requestRetransmit => exact trnRetransmit_only (h _) (by decide)
  case trainingSilent => refine trnSilent_only (h _) ?_ ?_ ?_ ?_ ?_ <;> decide
  case trainingProbe => exact trnProbe_only (h _) (by decide)
  case frameStart => refine frameStart_only (h _) ?_ ?_ ?_ ?_ ?_ ?_ ?_ ?_ <;> decide
  case frameHeaderReceived => refine frameHeader_only (h _) ?_ ?_ ?_ ?_ ?_ ?_ ?_ ?_ ?_ <;> decide
  case idleStatus => exact idleStatus_only (h _) (by decide)
  case echo => refine echoTake_only (h _) ?_ ?_ ?_ <;> decide
  case echoDrop => exact echoDrop_only (h _) (by decide)
  case latMeasureDone => refine latDone_only (h _) ?_ ?_ ?_ ?_ ?_ ?_ <;> decide
  case hostFragment => refine hostFrag_only (h _) ?_ ?_ ?_ ?_ ?_ ?_ <;> decide
  case hostAcknowledgement => refine hostAck_only (h _) ?_ ?_ ?_ ?_ ?_ <;> decide
  case hostMsgRetransmit => refine msgTimeout_only (h _) ?_ ?_ ?_ ?_ ?_ <;> decide
  case hostMsgAbandon => refine msgGiveUp_only (h _) ?_ ?_ ?_ ?_ ?_ <;> decide
  case innerCodeword => refine innerCodeword_only (h _) ?_ ?_ ?_ ?_ ?_ ?_ <;> decide
  case innerUncorrectable => refine innerInterval_only (h _) ?_ ?_ ?_ ?_ <;> decide
  case outerCodeword => refine outerCodeword_only (h _) ?_ ?_ ?_ ?_ ?_ ?_ ?_ <;> decide
  case outerUncorrectable => refine outerInterval_only (h _) ?_ ?_ ?_ ?_ <;> decide
  case serWindowEnd => refine serWindow_only (h _) ?_ ?_ ?_ ?_ ?_ ?_ <;> decide
  case hostSignalLoss => refine hostDrop_only (h _) ?_ ?_ ?_ ?_ <;> decide
  case hostSignal => exact hostSignalOn_only (h _) (by decide)
  case hostTimingDone => exact hostTimed_only (h _) (by decide)
  case ctleTrialDone => refine ctleTrial_only (h _) ?_ ?_ <;> decide
  case hostQualityWindowEnd => refine hostWindow_only (h _) ?_ ?_ ?_ ?_ ?_ ?_ <;> decide
  case hostLockLost => refine hostUnlock_only (h _) ?_ ?_ ?_ ?_ <;> decide
  case hostAcquisitionRetry => refine hostRetry_only (h _) ?_ ?_ ?_ ?_ <;> decide
  case dcgLoopStep => exact dcgStep_only (h _) (by decide)
  case hostLoopUpdate => refine hostLoop_only (h _) ?_ ?_ ?_ ?_ <;> decide
  case prbsCheckerLock => refine prbsLock_only (h _) ?_ ?_ ?_ ?_ <;> decide
  case prbsCheckerLockLoss => refine prbsLost_only (h _) ?_ ?_ ?_ ?_ <;> decide
  case loopbackSlip => refine loopSlip_only (h _) ?_ ?_ ?_ ?_ ?_ <;> decide
  case beatInEdge => refine beatInEdge_only (h _) ?_ ?_ ?_ ?_ ?_ ?_ ?_ ?_ ?_ <;> decide
  case chanterOwnMark => refine ownMark_only (h _) ?_ ?_ ?_ ?_ ?_ ?_ ?_ ?_ ?_ ?_ <;> decide
  case variableBeatHoldover => refine variableHoldover_only (h _) ?_ ?_ ?_ ?_ ?_ <;> decide
  case freeBeat => refine freeBeat_only (h _) ?_ ?_ ?_ ?_ ?_ ?_ ?_ ?_ <;> decide
  case acquiringTimeout => refine acquiringTimeout_only (h _) ?_ ?_ ?_ ?_ <;> decide
  case mark => refine markArrives_only (h _) ?_ ?_ <;> decide
  case beat => refine received_only (fun _ hx => beatTake_only hx ?_ ?_ ?_ ?_ ?_ ?_ ?_ ?_ ?_ ?_) (h _) ?_ ?_ <;> decide
  case markMissing => refine markMissing_only (h _) ?_ ?_ ?_ ?_ ?_ ?_ ?_ <;> decide
  case spreadCorrection => refine spreadCorrection_only (h _) ?_ ?_ <;> decide
  case probeInterval => refine probeInterval_only (h _) ?_ ?_ ?_ <;> decide
  case probe => refine probeArrives_only (h _) ?_ ?_ ?_ ?_ ?_ ?_ <;> decide
  case probeEcho => refine probeEchoArrives_only (h _) ?_ ?_ <;> decide
  case probeTurn => refine received_only (fun _ hx => probeTurn_only hx ?_ ?_ ?_ ?_ ?_ ?_) (h _) ?_ ?_ <;> decide
  case linkDelay => refine received_only (fun _ hx => linkDelay_only hx ?_ ?_ ?_ ?_ ?_) (h _) ?_ ?_ <;> decide
  case keepAlive => refine keepAlive_only (h _) ?_ ?_ ?_ ?_ ?_ <;> decide
  case keepAliveMissing => refine linkDown_only (h _) ?_ ?_ ?_ ?_ ?_ <;> decide
  case commaAlignment => refine commaAlign_only (h _) ?_ ?_ <;> decide
  case abort => exact abortArrives_only (h _)
  case enumerationStart => refine enumTimer_only (h _) ?_ ?_ ?_ ?_ ?_ ?_ ?_ <;> decide
  case enumOrder => refine received_only (fun _ hx => enumOrder_only hx ?_ ?_ ?_ ?_ ?_ ?_ ?_) (h _) ?_ ?_ <;> decide
  case enumReport => refine received_only (fun _ hx => enumReport_only hx ?_ ?_ ?_ ?_ ?_ ?_ ?_) (h _) ?_ ?_ <;> decide
  case enumReportTimeout => refine enumTimeout_only (h _) ?_ ?_ ?_ ?_ ?_ ?_ ?_ <;> decide
  case enumAssign => refine received_only (fun _ hx => enumAssign_only hx ?_ ?_ ?_ ?_ ?_) (h _) ?_ ?_ <;> decide
  case joinReq => refine received_only (fun _ hx => joinReq_only hx ?_ ?_ ?_ ?_) (h _) ?_ ?_ <;> decide
  case joinGrant => refine received_only (fun _ hx => joinGrant_only hx ?_ ?_ ?_ ?_ ?_) (h _) ?_ ?_ <;> decide
  case domEntry => refine received_only (fun _ hx => domEntry_only hx ?_ ?_ ?_ ?_ ?_) (h _) ?_ ?_ <;> decide
  case domCancelMessage => refine received_only (fun _ hx => domCancelMsg_only hx ?_ ?_ ?_) (h _) ?_ ?_ <;> decide
  case summary => refine received_only (fun _ hx => summaryArrives_only hx ?_ ?_ ?_ ?_ ?_ ?_) (h _) ?_ ?_ <;> decide
  case extraSummary => refine extraSummary_only (h _) ?_ ?_ ?_ <;> decide
  case windowClose => refine windowClose_only (h _) ?_ ?_ <;> decide
  case deferralDropped => refine deferralDropped_only (h _) ?_ ?_ ?_ ?_ ?_ <;> decide
  case monitorOutput => refine monOutput_only (h _) ?_ ?_ ?_ ?_ ?_ ?_ ?_ <;> decide
  case recTimeExpiry => refine monFlush_only (h _) ?_ ?_ ?_ ?_ ?_ ?_ <;> decide
  case scanPassStart => refine monPass_only (h _) ?_ ?_ ?_ ?_ ?_ <;> decide
  case scanConversionDone => refine monScanDone_only (h _) ?_ ?_ ?_ ?_ ?_ ?_ ?_ ?_ <;> decide
  case comparatorCrossing => refine compLevels_only (h _) ?_ ?_ ?_ ?_ ?_ ?_ ?_ ?_ ?_ <;> decide
  case housekeepingRound => refine roundStart_only (h _) ?_ ?_ <;> decide
  case housekeepingRoundEnd => refine roundEnd_only (h _) ?_ ?_ ?_ ?_ ?_ ?_ ?_ ?_ ?_ ?_ ?_ ?_ ?_ ?_ ?_ ?_ ?_ ?_ <;> decide
  case graceExpiry | shedDwellExpiry | muteHoldExpiry | liftGapExpiry =>
    refine timerEnd_only (h _) ?_ ?_ ?_ ?_ ?_ ?_ ?_ ?_ ?_ ?_ ?_ ?_ ?_ ?_ ?_ ?_ ?_ <;> decide
  case captureDone => refine capDone_only (h _) ?_ ?_ ?_ ?_ ?_ ?_ ?_ ?_ <;> decide
  case eyeScanDone => refine scanDone_only (h _) ?_ ?_ ?_ ?_ ?_ ?_ ?_ ?_ <;> decide
  case checkScanDone => refine chkDone_only (h _) ?_ ?_ ?_ ?_ ?_ ?_ ?_ ?_ ?_ ?_ ?_ ?_ ?_ <;> decide
  case onDemandTestDone =>
    refine shedWaited_only (testDone_only (h _) ?_ ?_ ?_ ?_ ?_ ?_ ?_ ?_ ?_ ?_ ?_ ?_) ?_ ?_ ?_ ?_ ?_ ?_ ?_ ?_ ?_ ?_ ?_ ?_ ?_ ?_ ?_ ?_ ?_ <;> decide
  case alignmentMarkerLock => exact markerLock_only (h _) (by decide)
  case codewordLock => refine codewordLock_only (h _) ?_ ?_ ?_ ?_ ?_ ?_ <;> decide
  case codewordLockLost => refine codewordLockLost_only (h _) ?_ ?_ ?_ ?_ ?_ ?_ <;> decide
  case headerCheckErrors => refine headerErrors_only (h _) ?_ ?_ ?_ ?_ <;> decide
  case calibrationStoreRefresh => refine storeRefresh_only (h _) ?_ ?_ ?_ ?_ <;> decide
  case pcieConfigWrite => refine configWrite_only (h _) ?_ ?_ <;> decide
  case pcieLinkUp => refine linkBack_only (h _) ?_ ?_ <;> decide
  case latencyBufferResetDone => refine bufferResetDone_only (h _) ?_ ?_ ?_ <;> decide
  case linkAlignmentLost => refine linkDown_only (linkError_only (h _) ?_ ?_ ?_ ?_) ?_ ?_ ?_ ?_ ?_ <;> decide
  case controlPlaneLeavesReset => exact ctrlLeaves_only (h _) (by decide)
  all_goals
    obtain ⟨t, ht, hk⟩ := hkeeps (fun _ => nofun)
    obtain rfl := Host.Outcome.next.inj ht
    exact hk.beyondQueue

/-! ### A pass of the shadow compare -/

theorem shadowPass_eq_self {s : State} (h : shadowsAgree s) : shadowPass s = s := by
  have hreg (off : Nat) : reg s off = shadowReg s off := by
    unfold reg shadowReg
    rw [h]
  have hpass (l : List Nat) : l.foldl (fun (s : State) off =>
      if reg s off = shadowReg s off || !domOn s (setupDomain off) then s else fieldRestore off s) s = s := by
    induction l with
    | nil => rfl
    | cons off l ih => rw [List.foldl_cons, if_pos (by simp [hreg]), ih]
  unfold shadowPass
  rw [hpass, ite_self]

theorem shadowCompare_invariant (u : Option (Nat × Word)) {s : State} (h : Invariant s) : Invariant (shadowCompare u s) := by
  obtain ⟨hmem, hlog, hset⟩ := h
  have hk := shadowPass_keeps (Keeps.refl s) hset
  have hpass : Invariant (shadowPass s) := ⟨hk.mem hmem, hk.log hlog, hk.setup hset⟩
  cases u with
  | none => exact hpass
  | some u =>
    obtain ⟨off, flip⟩ := u
    obtain ⟨l, hl⟩ := fieldUpset_eq off flip (shadowPass s)
    obtain ⟨hmem', hlog', hset'⟩ := hpass
    refine ⟨?_, ?_, fieldUpset_setupOk off flip hset'⟩
    · show memoryOk (fieldUpset off flip (shadowPass s)) = true
      rw [hl]; exact hmem'
    · show logOk (fieldUpset off flip (shadowPass s)) = true
      rw [hl]; exact hlog'

/-! ### The statements -/

theorem Keeps.invariant {a b : State} (h : Keeps a b) (hi : Invariant a) : Invariant b :=
  ⟨h.mem hi.1, h.log hi.2.1, h.setup hi.2.2⟩

theorem exec_invariant {c : Instr} {s t : State} (h : Invariant s) (ht : exec c s = .next t) : Invariant t := by
  by_cases hc : ∃ u, c = .shadowCompare u
  · obtain ⟨u, rfl⟩ := hc
    obtain rfl := Host.Outcome.next.inj ht
    exact shadowCompare_invariant u h
  · obtain ⟨t', ht', hk⟩ := exec_keeps c s fun u hu => hc ⟨u, hu⟩
    obtain rfl := Host.Outcome.next.inj (ht'.symm.trans ht)
    exact hk.invariant h

theorem exec_shadowsAgree {c : Instr} {s t : State} (h : shadowsAgree s) (hc : ∀ u, c ≠ .shadowCompare (some u))
    (ht : exec c s = .next t) : shadowsAgree t := by
  by_cases hn : c = .shadowCompare none
  · subst hn
    obtain rfl := Host.Outcome.next.inj ht
    show shadowsAgree (shadowPass s)
    rwa [shadowPass_eq_self h]
  · obtain ⟨t', ht', hk⟩ := exec_keeps c s fun u => by
      cases u with
      | none => exact hn
      | some u => exact hc u
    obtain rfl := Host.Outcome.next.inj (ht'.symm.trans ht)
    exact hk.eq h

/-- Settles O1: by the definition of a step. -/
theorem stepRunsTheFrontCommand : Obligations.StepRunsTheFrontCommand := by
  intro c rest s h
  simp only [step, h]

theorem step_idle {s : State} (h : s.pending = []) : step s = .next (subTick s) := by
  simp only [step, h]

/-- Settles O2: a sub-tick keeps, but for the time that it lets pass. -/
theorem idleStepIsOneTick : Obligations.IdleStepIsOneTick := by
  intro s h
  have hk := subTick_keeps s
  refine ⟨_, step_idle h, hk.pending.trans h, ?_, hk.free, hk.out⟩
  rw [hk.clk, hk.sub]
  dsimp only
  split <;> rfl

/-- Settles O3: an operation that keeps does all this; the pass of the shadow compare touches no queue, clock, draw or output. -/
theorem everyCommandCompletes : Obligations.EveryCommandCompletes := by
  intro c s
  by_cases hc : ∃ u, c = .shadowCompare u
  · obtain ⟨u, rfl⟩ := hc
    obtain ⟨t, ht, ho⟩ := exec_only (.shadowCompare u) s
    obtain ⟨hclk, hsub⟩ := ho.only .clk (by simp [footprint])
    exact ⟨t, ht, ho.only .pending (by simp [footprint]), hclk, hsub, (ho.only .free (by simp [footprint])).ge,
      [], by rw [List.append_nil]; exact ho.only .out (by simp [footprint])⟩
  · obtain ⟨t, ht, hk⟩ := exec_keeps c s fun u hu => hc ⟨u, hu⟩
    exact ⟨t, ht, hk.pending, hk.clk, hk.sub, hk.free, hk.out⟩

/-- Settles O4: the state after reset has no cell, no log entry and no set-up register off its reset value. -/
theorem invariantAtReset : Obligations.InvariantAtReset := ⟨⟨rfl, rfl, rfl⟩, rfl⟩

theorem step_invariant {s t : State} (h : Invariant s) (hstep : step s = .next t) : Invariant t := by
  cases hp : s.pending with
  | nil =>
    obtain rfl := Host.Outcome.next.inj ((step_idle hp).symm.trans hstep)
    exact (subTick_keeps s).invariant h
  | cons c rest =>
    exact exec_invariant (s := { s with pending := rest }) h ((stepRunsTheFrontCommand c rest s hp).symm.trans hstep)

theorem step_shadowsAgree {s t : State} (h : shadowsAgree s) (hc : ∀ u rest, s.pending ≠ .shadowCompare (some u) :: rest)
    (hstep : step s = .next t) : shadowsAgree t := by
  cases hp : s.pending with
  | nil =>
    obtain rfl := Host.Outcome.next.inj ((step_idle hp).symm.trans hstep)
    exact (subTick_keeps s).eq h
  | cons c rest =>
    exact exec_shadowsAgree (s := { s with pending := rest }) h (fun u hu => hc u rest (hu ▸ hp))
      ((stepRunsTheFrontCommand c rest s hp).symm.trans hstep)

/-- Settles O5: a command keeps by `exec_keeps`, a sub-tick by `subTick_keeps`; the pass of the shadow compare keeps in a state
that meets the invariant and does nothing where the shadow copies agree. -/
theorem stepKeepsInvariant : Obligations.StepKeepsInvariant :=
  ⟨fun _ _ => step_invariant, fun _ _ => step_shadowsAgree⟩

/-- Settles O9: each operation writes the parts of its footprint alone. -/
theorem everyCommandFrame : Obligations.EveryCommandFrame := by
  intro c s t ht
  obtain ⟨t', ht', ho⟩ := exec_only c s
  obtain rfl := Host.Outcome.next.inj (ht'.symm.trans ht)
  exact ho.only

theorem setupReset_ringCfg_en (r : RingId) : bit (setupReset (ringBase r + 8)) 31 = false := by
  cases r with
  | cmd k => revert k; decide +kernel
  | cpl k => revert k; decide +kernel
  | evt k => revert k; decide +kernel
  | tlm k => revert k; decide +kernel

/-- Settles O6, clause by clause of the state after reset. -/
theorem resetLeaves : Obligations.ResetLeaves := by
  refine ⟨rfl, rfl, rfl, ?lines, ?hosts, rfl, rfl, rfl, fun _ => rfl, ?locked, fun r => ?rings, rfl, rfl, rfl, ?sens, rfl, rfl⟩
  case lines => decide +kernel
  case hosts => decide +kernel
  case locked => decide +kernel
  case rings => exact setupReset_ringCfg_en r
  case sens => decide +kernel

end Sys2Proof.Machine
end

section
/-! SUPPORT. Events and answers: what raising an event leaves in the event unit by the state of its source, what answering a command
leaves in the rings, and the statements about the two. -/

namespace Sys2Proof.Machine

open Sys2Proof

/-! ### Raising an event -/

@[simp] theorem countSource_cad (src : Nat) (s : State) : (countSource src s).cad = s.cad := by
  unfold countSource countDev countLine countHost
  repeat' split
  all_goals rfl

/-- The counters of an event and its note for the SUMMARY. -/
def counted (src cls : Nat) (s : State) : State := noteOwn src cls (countSource src s)

@[simp] theorem counted_evt (src cls : Nat) (s : State) : (counted src cls s).evt = s.evt := by simp [counted]

@[simp] theorem counted_now (src cls : Nat) (s : State) : now (counted src cls s) = now s := by
  simp [now, counted, noteOwn, modCad]

theorem counted_masked (src cls k : Nat) (s : State) : masked (counted src cls s) k = masked s k := by simp [masked]

/-- An unmasked source without a latch is latched, and the first occurrence is logged. -/
theorem raise_unlatched {src cls : Nat} {p : Word} {s : State} (hc : evtClass src = some cls) (hm : masked s src = false)
    (hl : ∀ l ∈ s.evt.latches, l.src ≠ src) :
    raise src p s = logEvent src false p { counted src cls s with
      evt := { s.evt with latches := s.evt.latches ++ [{ src := src, count := 1, payload := p, time := now s, route := routeOf s src }] } } := by
  have hany : s.evt.latches.any (fun l => l.src == src) = false := by simpa using hl
  have hroute : routeOf (counted src cls s) src = routeOf s src := by simp [routeOf]
  have hmask := (counted_masked src cls src s).trans hm
  have hevt := counted_evt src cls s
  have hnow := counted_now src cls s
  simp only [raise, hc]
  generalize hu : counted src cls s = u at *
  rw [show noteOwn src cls (countSource src s) = u from hu]
  simp only [hmask, hevt, hany, hnow, hroute, Bool.false_eq_true, if_false]

/-- An unmasked source with a latch is counted into it. -/
theorem raise_latchedAgain {src cls : Nat} {p : Word} {s : State} (hc : evtClass src = some cls) (hm : masked s src = false)
    (hl : ∃ l ∈ s.evt.latches, l.src = src) :
    raise src p s = { counted src cls s with evt := { s.evt with latches := s.evt.latches.map (Latch.again src) } } := by
  have hany : s.evt.latches.any (fun l => l.src == src) = true := by simpa using hl
  have hmask := (counted_masked src cls src s).trans hm
  have hevt := counted_evt src cls s
  simp only [raise, hc]
  generalize hu : counted src cls s = u at *
  rw [show noteOwn src cls (countSource src s) = u from hu]
  simp only [hmask, hevt, hany, Bool.false_eq_true, if_false, if_true]
  rfl

theorem Latch.again_eq (src : Nat) (l : Latch) :
    l.again src = if l.src = src then { l with count := min (l.count + 1) 65535 } else l := rfl

/-- Settles O7: the three cases of `raise` by mask and latch. -/
theorem raisingLatches : Obligations.RaisingLatches := by
  intro src cls p s hc
  refine ⟨(raise_reports src p s).onlyChanges, fun hm hl => ?_, fun hm hl => ?_, fun hm => ?_⟩
  · rw [raise_unlatched hc hm hl]
    refine ⟨rfl, ?_, rfl⟩
    have hnow : now { counted src cls s with evt := { s.evt with latches := s.evt.latches ++
        [{ src := src, count := 1, payload := p, time := now s, route := routeOf s src }] } } = now s := counted_now src cls s
    simp only [logEvent, hnow]
  · rw [raise_latchedAgain hc hm hl]
    exact ⟨List.map_congr_left fun l _ => Latch.again_eq src l, rfl⟩
  · obtain ⟨t, r, h⟩ := raise_latches (src := src) (by simp [hc]) p s
    rw [h, if_pos hm]

/-! ### Answers -/

/-- The limit on blocked final records drops none while fewer than 1,025 final records wait. -/
theorem cplLimit_eq_self {s : State} (h : (s.rings.wait.filter (·.final)).length ≤ 1024) : cplLimit s = s := by
  have hle : (s.rings.wait.filter (cplBlocked s)).length ≤ (s.rings.wait.filter (·.final)).length :=
    (List.monotone_filter_right _ (fun r hr => by simp_all [cplBlocked])).length_le
  exact if_pos (hle.trans h)

@[simp] theorem cplLimit_outcomes (s : State) : (cplLimit s).rings.outcomes = s.rings.outcomes := by
  unfold cplLimit
  split
  · rfl
  · split
    · rfl
    · rw [raise_rings]; rfl

/-- The outcome as QUERY_CMD finds it. -/
def Cmd.outcome (c : Cmd) (st : Byte) (fin : Bool) (res : Nat) : CmdOutcome :=
  { ring := c.d.ring, seq := c.d.seq, status := st, final := fin, result := BitVec.ofNat 32 (res % 2 ^ 32) }

/-- The completion record of an answer. -/
def Cmd.record (c : Cmd) (st : Byte) (fin : Bool) (time : CTime) (res : Nat) (s : State) : CplRec :=
  { cpl := ringCpl s c.d.ring, ring := c.d.ring, op := c.op, seq := c.d.seq, tag := c.d.tag, status := st, final := fin
    time := time, result := BitVec.ofNat 64 res }

section
variable {c : Cmd} {st : Byte} {fin : Bool} {s : State} (time : CTime) (res : Nat)

/-- A final OK with QUIET closes the command without a record. -/
theorem answer_quiet (he : c.era = s.rings.era) (hf : fin = true) (hs : st = 0) (hq : bit c.d.flags 3 = true) :
    answer c st fin time res s = modRings (fun r => { r with opened := r.opened.filter fun o => o != (c.d.ring, c.d.seq) })
      (Machine.outcome c.d.ring c.d.seq st fin (res % 2 ^ 32) s) := by
  unfold answer
  rw [if_neg (by simp [he])]
  simp [hf, hs, hq]

/-- Any other answer waits as a record. -/
theorem answer_recorded (he : c.era = s.rings.era) (h : fin = false ∨ st ≠ 0 ∨ bit c.d.flags 3 = false) :
    answer c st fin time res s = cplLimit (modRings (fun r => { r with wait := r.wait ++ [c.record st fin time res s] })
      (Machine.outcome c.d.ring c.d.seq st fin (res % 2 ^ 32) s)) := by
  unfold answer
  rw [if_neg (by simp [he])]
  dsimp only
  rw [if_neg (by simp only [Bool.and_eq_true, beq_iff_eq]; rintro ⟨⟨h1, h2⟩, h3⟩; simp [h1, h2, h3] at h)]
  rfl

theorem answer_outcomes (he : c.era = s.rings.era) :
    (answer c st fin time res s).rings.outcomes.head? = some (c.outcome st fin res) := by
  by_cases h : fin = true ∧ st = 0 ∧ bit c.d.flags 3 = true
  · rw [answer_quiet time res he h.1 h.2.1 h.2.2]; rfl
  · rw [answer_recorded time res he, cplLimit_outcomes]; · rfl
    simpa [imp_iff_not_or] using h

theorem answer_wait (he : c.era = s.rings.era) (h : fin = false ∨ st ≠ 0 ∨ bit c.d.flags 3 = false)
    (hw : (s.rings.wait.filter (·.final)).length < 1024) :
    (answer c st fin time res s).rings.wait = s.rings.wait ++ [c.record st fin time res s] := by
  have hlen (x : CplRec) : (([x] : List CplRec).filter (·.final)).length ≤ 1 := List.length_filter_le _ _
  rw [answer_recorded time res he h, cplLimit_eq_self]
  · rfl
  · show ((s.rings.wait ++ [c.record st fin time res s]).filter (·.final)).length ≤ 1024
    rw [List.filter_append, List.length_append]
    have := hlen (c.record st fin time res s)
    omega

end

theorem answer_onlyChanges (c : Cmd) (st : Byte) (fin : Bool) (time : CTime) (res : Nat) (s : State) :
    OnlyChanges (.rings :: reports) s (answer c st fin time res s) :=
  (answer_only (Only.refl _ s) (by decide) (by decide) (by decide) (by decide)).only

/-- Settles O8: an answer of the running era notes its outcome and forms a record unless it is a quiet OK. -/
theorem answeringForms : Obligations.AnsweringForms := by
  intro c st fin time res s he
  refine ⟨answer_onlyChanges c st fin time res s, answer_outcomes time res he, fun hf hs hq => ?_, fun h hw => ?_⟩
  · rw [answer_quiet time res he hf hs hq]; rfl
  · exact answer_wait time res he h hw

end Sys2Proof.Machine
end

section
/-! SUPPORT. Register accesses: the ring registers among the set-up registers, writes under the access codes, what enabling and
disabling a ring does, reads with side effects, captures; and the statements about them. -/

namespace Sys2Proof.Machine

open Sys2Proof

/-! ### Bits of a merged word -/

theorem bit_merge (m old v : Word) {i : Nat} (hi : i < 32) :
    bit ((old &&& ~~~m) ||| (v &&& m)) i = if bit m i then bit v i else bit old i := by
  simp only [bit, BitVec.getLsbD_or, BitVec.getLsbD_and, BitVec.getLsbD_not, hi, decide_true, Bool.true_and]
  by_cases hm : m.getLsbD i = true
  · simp [hm]
  · simp [Bool.eq_false_iff.2 hm]

theorem bit_or (a b : Word) (i : Nat) : bit (a ||| b) i = (bit a i || bit b i) := BitVec.getLsbD_or

theorem bit_and (a b : Word) (i : Nat) : bit (a &&& b) i = (bit a i && bit b i) := BitVec.getLsbD_and

/-- EN of a ring's CFG, and the bits beside it. -/
theorem bit_enMask : ∀ i < 32, bit (0x80000000 : Word) i = decide (i = 31) := by decide

theorem bit_restMask : ∀ i < 32, bit (0x7FFFFFFF : Word) i = decide (i < 31) := by decide

/-- Where two words agree under a mask, they agree at each of its bits. -/
theorem bit_eq_of_xor_and {a b m : Word} (h : (a ^^^ b) &&& m = 0) {i : Nat} (hm : bit m i = true) : bit a i = bit b i := by
  have hbit := congrArg (fun w : Word => w.getLsbD i) h
  simp only [bit] at hm ⊢
  simp only [BitVec.getLsbD_and, BitVec.getLsbD_xor, hm, Bool.and_true] at hbit
  simpa using hbit

/-! ### Registers under a frame -/

theorem reg_congr {s t : State} (h : t.setup = s.setup) (o : Nat) : reg t o = reg s o := by unfold reg; rw [h]

theorem OnlyChanges.reg {ps : List Part} {s t : State} (h : OnlyChanges ps s t) (hp : Part.setup ∉ ps) (o : Nat) :
    reg t o = reg s o := reg_congr (h .setup hp).1 o

theorem Only.reg {ps : List Part} {s t : State} (h : Only ps s t) (hp : Part.setup ∉ ps) (o : Nat) : reg t o = reg s o :=
  OnlyChanges.reg h.only hp o

theorem tlm_only {ps : List Part} {a s : State} (h : Only ps a s) (p1 : Part.tlm ∈ ps) (x : Tlm) :
    Only ps a { s with tlm := x } := by
  simp only [only_mk, h, p1, true_or, or_true, and_self]

theorem regSet_only' (off : Nat) (v : Word) (s : State) : Only [.setup] s (regSet off v s) := ⟨regSet_changes off v s⟩

/-! ### The registers of a ring -/

theorem ringAt_cfg (r : RingId) : ringAt (ringBase r + 8) = some (r, 2) := by
  cases r with
  | cmd k => revert k; decide +kernel
  | cpl k => revert k; decide +kernel
  | evt k => revert k; decide +kernel
  | tlm k => revert k; decide +kernel

theorem setupSpec_cfg (r : RingId) : ∃ rwl v, setupSpec (ringBase r + 8) = some (0x80000000, rwl, v) := by
  have h : (setupSpec (ringBase r + 8)).any (fun x => x.1 == 0x80000000) = true := by
    cases r with
    | cmd k => revert k; decide +kernel
    | cpl k => revert k; decide +kernel
    | evt k => revert k; decide +kernel
    | tlm k => revert k; decide +kernel
  obtain ⟨⟨rw, rwl, v⟩, hspec, hrw⟩ := (Option.any_eq_true _ _).1 h
  exact ⟨rwl, v, by rw [hspec]; simpa using hrw⟩

theorem ringCfg_ne_lock (r : RingId) : ringBase r + 8 ≠ 0x30 := by cases r <;> simp [ringBase] <;> omega

theorem ringCfg_aligned (r : RingId) : (ringBase r + 8) % 4 = 0 := by cases r <;> simp [ringBase] <;> omega

@[simp] theorem getRing_modRing_same (r : RingId) (f : Ring → Ring) (s : State) :
    getRing (modRing r f s) r = f (getRing s r) := by
  cases r <;> exact upd_get_self _ _ _

theorem getRing_modRing_ne {r q : RingId} (h : q ≠ r) (f : Ring → Ring) (s : State) :
    getRing (modRing r f s) q = getRing s q := by
  cases r <;> cases q <;> first | rfl | exact upd_get_ne _ _ (fun e => h (by rw [e]))

@[simp] theorem modRing_setup (r : RingId) (f : Ring → Ring) (s : State) : (modRing r f s).setup = s.setup := by
  cases r <;> rfl

@[simp] theorem reg_modRing (r : RingId) (f : Ring → Ring) (s : State) (o : Nat) : reg (modRing r f s) o = reg s o :=
  reg_congr (modRing_setup r f s) o

theorem getRing_congr {s t : State} (h : t.rings = s.rings) (q : RingId) : getRing t q = getRing s q := by
  cases q <;> simp only [getRing, h]

/-! ### Writes of set-up registers -/

/-- A write of an aligned word over a path that reaches BAR0. -/
theorem hostWriteReg_word {p : Path} {off : Nat} {s : State} (v : Word) (hp : pathOk s p = true) (ho : off % 4 = 0) :
    hostWriteReg p off 4 v s = writeWord off v s := if_pos (by simp [hp, ho])

/-- A write that no RWL field hinders takes every RW and RWL field. -/
theorem writeSetup_taken {off : Nat} {rw rwl r : Word} {s : State} {v : Word} (hspec : setupSpec off = some (rw, rwl, r))
    (h : locked s = false ∨ (reg s off ^^^ v) &&& rwl = 0) :
    writeSetup off v s = regSet off ((reg s off &&& ~~~(rw ||| rwl)) ||| (v &&& (rw ||| rwl))) s := by
  unfold writeSetup
  rw [hspec]
  exact if_neg (by rcases h with h | h <;> simp [h])

/-! ### A locked write of TLM_ROUTE -/

/-- Awake, every power domain on and firmware running. -/
def awake : State :=
  { State.reset with
    clk := 400000000, refOk := true
    rst := { Rst.reset with on := Vector.replicate 50 true, exits := [], mgmtRun := true, ctrlReset := false } }

/-- A record of type 1 that waits for its ring to be enabled. -/
def recordHeld : TlmRec :=
  { typ := 1, units := 1, more := false, frag := 0, origin := 0, time := 0, body := [], ring := none, id := 0, refetch := false
    due := true }

/-- Locked, telemetry ring 0 enabled, a record of its type retained. -/
def lockedWithRecord : State :=
  { awake with setup := [(0x30, 1), (0x2348, 0x80140001)], shadow := [(0x30, 1), (0x2348, 0x80140001)]
               tlm := { awake.tlm with recs := [recordHeld] } }

/-- The locked write of TLM_ROUTE is a violation, and the retained record is offered to its ring nevertheless. -/
theorem lockedWithRecord_offered : let s := lockedWithRecord;
    pathOk s .twoWire = true ∧ s.rst.ctrlReset = false ∧ (locked s = true ∧ (reg s 0x8070 ^^^ 1) &&& 0x77777777 ≠ 0) ∧
    (hostWriteReg .twoWire 0x8070 4 1 s).tlm.recs.head?.map (·.ring) ≠ s.tlm.recs.head?.map (·.ring) := by
  decide +kernel

/-- Refutes O10: a write of TLM_ROUTE that the set-up lock turns away still offers the retained records, which the statement's clause
on violations excludes. -/
theorem not_setupRegisterWrite : ¬ Obligations.SetupRegisterWrite := by
  intro h
  obtain ⟨hp, hc, hv, hne⟩ := lockedWithRecord_offered
  obtain ⟨t, u, ht, -, -, hu, hviol⟩ :=
    h .twoWire 0x8070 1 0 0x77777777 0 lockedWithRecord hp hc (by decide) (by decide) (by decide) (by decide)
  rw [if_pos hv] at hviol
  obtain rfl := Host.Outcome.next.inj ht
  have htlm : (hostWriteReg .twoWire 0x8070 4 1 lockedWithRecord).tlm = lockedWithRecord.tlm := by
    rw [hviol.1, raise_tlm]
    exact hu .tlm (by decide)
  exact hne (by rw [htlm])

/-! ### Discarded writes, RST.CAUSE, the set-up lock -/

/-- Settles O11: nothing but an aligned word over a path that reaches BAR0 is taken, and 0x1000 is RST.CAUSE. -/
theorem registerWriteDiscardedOrClearing : Obligations.RegisterWriteDiscardedOrClearing := by
  refine ⟨fun p off size v s h => congrArg Host.Outcome.next ?_, fun p v s hp hc => ?_⟩
  · show hostWriteReg p off size v s = s
    unfold hostWriteReg
    split
    case isFalse => rfl
    case isTrue hok =>
      simp only [Bool.and_eq_true, beq_iff_eq] at hok
      obtain ⟨⟨hpath, hsize⟩, hoff⟩ := hok
      have hreset : s.rst.ctrlReset = true := by simpa [hpath, hsize, hoff] using h
      unfold writeWord
      rw [if_pos hreset]
  · have hw : hostWriteReg p 0x1000 4 v s = modRst (fun r => { r with cause := r.cause &&& ~~~(v.setWidth 13) }) s := by
      rw [hostWriteReg_word v hp (by decide)]
      simp [writeWord, hc, ringAt, writeSetup, setupSpec, actionWrite]
    exact ⟨_, congrArg Host.Outcome.next hw, rfl, (modRst_only (Only.refl _ s) (by decide)).only⟩

/-- Settles O13: at 0x30 stands the lock, and `lockWrite` takes a 1 alone. -/
theorem setupLockWrite : Obligations.SetupLockWrite := by
  intro p v s hp hc
  have hw : hostWriteReg p 0x30 4 v s = lockWrite v s := by
    rw [hostWriteReg_word v hp (by decide)]
    simp [writeWord, hc]
  refine ⟨fun hv => ⟨regSet 0x30 1 s, ?_, ?_, fun o ho => ?_, regSet_changes 0x30 1 s⟩, fun hv => ?_⟩
  · exact congrArg Host.Outcome.next (hw.trans (if_pos hv))
  · unfold locked
    rw [reg_regSet, if_pos rfl]
    rfl
  · rw [reg_regSet, if_neg ho]
  · exact congrArg Host.Outcome.next (hw.trans (if_neg hv))

/-! ### A latch at a doorbell's offset -/

/-- A latch of the two-wire path at the offset of a doorbell. -/
def latchAtDoorbell : State := { awake with hiWire := [(0x40000, 1)] }

/-- Refutes O12: the two-wire target answers 0 for a doorbell with PCI Express attachment, whatever a latch at its offset holds, and
the statement's second clause admits a latch there. -/
theorem not_lowerWordReadLatches : ¬ Obligations.LowerWordReadLatches := by
  intro h
  obtain ⟨t, ht, hout, -⟩ := (h .twoWire 0x40000 latchAtDoorbell (by decide +kernel) rfl (by decide) (by decide)).2 1 rfl
  obtain rfl := Host.Outcome.next.inj ht
  have hzero : (hostReadReg .twoWire 0x40000 latchAtDoorbell).out = [.read .twoWire 0] := by decide +kernel
  rw [hzero] at hout
  exact absurd hout (by decide +kernel)

/-! ### Telemetry rings take up what is retained -/

/-- The rings are the same but for how many records each has been given. -/
def SameButFormed (s t : State) : Prop := ∀ q, getRing t q = { getRing s q with formed := (getRing t q).formed }

theorem SameButFormed.refl (s : State) : SameButFormed s s := fun _ => rfl

theorem SameButFormed.trans {a b c : State} (h : SameButFormed a b) (k : SameButFormed b c) : SameButFormed a c := fun q => by
  rw [k q, h q]

theorem SameButFormed.of_rings {s t : State} (h : t.rings = s.rings) : SameButFormed s t := fun q => by rw [getRing_congr h]

theorem modRing_sameButFormed (r : RingId) (n : Nat) (s : State) :
    SameButFormed s (modRing r (fun g => { g with formed := n + g.formed }) s) := by
  intro q
  by_cases h : q = r
  · subst h; rw [getRing_modRing_same]
  · rw [getRing_modRing_ne h]

theorem foldl_sameButFormed {α : Type} (f : State → α → State) (hf : ∀ s x, SameButFormed s (f s x)) (l : List α) (s : State) :
    SameButFormed s (l.foldl f s) := by
  induction l generalizing s with
  | nil => exact SameButFormed.refl s
  | cons x l ih => exact (hf s x).trans (ih (f s x))

theorem tlmOffer_sameButFormed (s : State) : SameButFormed s (tlmOffer s) := by
  unfold tlmOffer
  refine SameButFormed.trans (SameButFormed.of_rings rfl) (foldl_sameButFormed _ (fun u x => ?_) _ _)
  dsimp only
  split
  · intro q
    by_cases h : q = .tlm (routeOfType u x.typ)
    · subst h; rw [getRing_modRing_same]; rfl
    · rw [getRing_modRing_ne h]; cases q <;> rfl
  · exact SameButFormed.of_rings rfl

/-! ### Enabling a ring -/

/-- EN set and the counts cleared. -/
def ringOpened (r : RingId) (s : State) : State :=
  modRing r (fun g => { g with prod := 0, cons := 0, db := 0, err := false, unsig := 0, formed := 0, written := 0, acked := 0 })
    (regSet (ringBase r + 8) (ringCfg s r ||| 0x80000000) s)

/-- What a telemetry ring takes up as it is enabled. -/
def ringTakesUp (r : RingId) (s : State) : State := match r with
  | .tlm k => let s := tlmOffer s; if routeOfType s 5 = k && domOn s 10 then drainAll s else s
  | _ => s

theorem ringStart_valid {r : RingId} {s : State} (h : ringFault s r = none) :
    ringStart r s = ringTakesUp r (ringOpened r s) := by
  unfold ringStart
  rw [h]
  rfl

theorem ringStart_invalid {r : RingId} {s : State} {f : Nat} (h : ringFault s r = some f) :
    ringStart r s = raise 0x021 (pay2 (ringCode r) f) s := by
  unfold ringStart
  rw [h]

theorem ringTakesUp_of_ne {r : RingId} (h : ∀ k, r ≠ .tlm k) (s : State) : ringTakesUp r s = s := by
  cases r with
  | tlm k => exact absurd rfl (h k)
  | cmd k => rfl
  | cpl k => rfl
  | evt k => rfl

theorem ringTakesUp_only (r : RingId) (s : State) : Only [.rings, .tlm, .mon] s (ringTakesUp r s) := by
  have h := Only.refl [.rings, .tlm, .mon] s
  cases r with
  | tlm k =>
    have hoffer := tlmOffer_only h (by decide) (by decide)
    unfold ringTakesUp
    dsimp only
    split
    · exact drainAll_only hoffer (by decide)
    · exact hoffer
  | cmd k => exact h
  | cpl k => exact h
  | evt k => exact h

theorem ringTakesUp_sameButFormed (r : RingId) (s : State) : SameButFormed s (ringTakesUp r s) := by
  cases r with
  | tlm k =>
    unfold ringTakesUp
    dsimp only
    split
    · exact (tlmOffer_sameButFormed s).trans (SameButFormed.of_rings rfl)
    · exact tlmOffer_sameButFormed s
  | cmd k => exact SameButFormed.refl s
  | cpl k => exact SameButFormed.refl s
  | evt k => exact SameButFormed.refl s

theorem ringOpened_only (r : RingId) (s : State) : Only [.setup, .rings] s (ringOpened r s) :=
  modRing_only (regSet_only (Only.refl _ s) (by decide)) (by decide)

theorem ringOpened_cfg (r : RingId) (s : State) : ringCfg (ringOpened r s) r = ringCfg s r ||| 0x80000000 := by
  unfold ringOpened
  rw [ringCfg, reg_modRing, reg_regSet, if_pos rfl]

/-- A ring's CFG is written while EN is 0. -/
theorem writeWord_cfg {r : RingId} {v : Word} {s : State} (hc : s.rst.ctrlReset = false) :
    writeWord (ringBase r + 8) v s = writeRingCfg r v s := by
  unfold writeWord
  rw [if_neg (by simp [hc]), if_neg (ringCfg_ne_lock r), ringAt_cfg]
  rfl

section
variable {r : RingId} {v : Word} {s : State}

/-- The fields of CFG without EN, with the set-up lock open. -/
theorem writeSetup_cfg (hl : locked s = false) : ∃ w : Word,
    writeSetup (ringBase r + 8) (v &&& 0x7FFFFFFF) s = regSet (ringBase r + 8) w s ∧ bit w 31 = false := by
  obtain ⟨rwl, d, hspec⟩ := setupSpec_cfg r
  refine ⟨_, writeSetup_taken hspec (.inl hl), ?_⟩
  rw [bit_merge _ _ _ (by decide), bit_or, bit_and, bit_enMask 31 (by decide), bit_restMask 31 (by decide)]
  simp

end

theorem exec_ringEnable {p : Path} {r : RingId} {v : Word} {s : State} (hp : pathOk s p = true) (hc : s.rst.ctrlReset = false) :
    exec (.ringEnable p r v) s = .next (writeRingCfg r v s) :=
  congrArg Host.Outcome.next ((hostWriteReg_word v hp (ringCfg_aligned r)).trans (writeWord_cfg hc))

theorem exec_ringDisable {p : Path} {r : RingId} {v : Word} {s : State} (hp : pathOk s p = true) (hc : s.rst.ctrlReset = false) :
    exec (.ringDisable p r v) s = .next (writeRingCfg r v s) := exec_ringEnable hp hc

/-- Settles O14: the fields are taken by `writeSetup`; a valid set-up is opened and takes up what is retained. -/
theorem ringEnabling : Obligations.RingEnabling := by
  intro p r v s hp hc hl hen hv u
  obtain ⟨w, hw, hw31⟩ := writeSetup_cfg (r := r) (v := v) hl
  have hu : u = regSet (ringBase r + 8) w s := hw
  have hreg (o : Nat) : reg u o = if o = ringBase r + 8 then w else reg s o := by rw [hu, reg_regSet]
  have honly : Only [.setup] s u := hu ▸ regSet_only' _ w s
  have henU : ringEn u r = false := by rw [ringEn, ringCfg, hreg, if_pos rfl, hw31]
  have hg0 : inG0 u = inG0 s := by unfold inG0; rw [(honly.only .rst (by decide)).1]
  have hexec : exec (.ringEnable p r v) s = .next (if inG0 s then
      modRings (fun x => { x with enWait := (x.enWait.filter fun y => y != r) ++ [r] }) u else ringStart r u) := by
    rw [exec_ringEnable hp hc]
    unfold writeRingCfg
    rw [if_neg (by simp [hen])]
    show Host.Outcome.next (if !bit v 31 then _ else if inG0 u then _ else ringStart r u) = _
    rw [hv, hg0]
    rfl
  refine ⟨fun hg hf => ?valid, fun hg f hf => ?invalid, fun hg => ?waits, honly.only, henU, fun o ho => by rw [hreg, if_neg ho]⟩
  case valid =>
    rw [hg, if_neg (by decide), ringStart_valid hf] at hexec
    have hopen := ringOpened_only r u
    have htakes := ringTakesUp_only r (ringOpened r u)
    have hcfg : ringCfg (ringTakesUp r (ringOpened r u)) r = ringCfg u r ||| 0x80000000 :=
      (htakes.reg (by decide) _).trans (ringOpened_cfg r u)
    have hring := ringTakesUp_sameButFormed r (ringOpened r u) r
    rw [show getRing (ringOpened r u) r = _ from getRing_modRing_same r _ _] at hring
    refine ⟨_, hexec, ?_, fun i hi => ?_, by rw [hring], by rw [hring], by rw [hring], by rw [hring], by rw [hring], by rw [hring],
      ?_, fun hne => ⟨fun q hq => ?_, ?_⟩⟩
    · rw [ringEn, hcfg, bit_or, bit_enMask 31 (by decide)]
      simp
    · rw [hcfg, bit_or, bit_enMask i (by omega)]
      simp [Nat.ne_of_lt hi]
    · exact ((honly.mono (by decide)).of hopen.only (by decide) |>.of htakes.only (by decide)).only
    · rw [ringTakesUp_of_ne hne]
      exact (getRing_modRing_ne hq _ _).trans (getRing_congr ((regSet_only' _ _ u).only .rings (by decide) |>.trans
        (honly.only .rings (by decide))) q)
    · rw [ringTakesUp_of_ne hne]
      exact ((honly.mono (by decide)).of hopen.only (by decide)).only
  case invalid =>
    rw [hexec, hg, if_neg (by decide), ringStart_invalid hf]
  case waits =>
    rw [hg, if_pos rfl] at hexec
    refine ⟨_, hexec, List.mem_append_right _ (List.mem_singleton_self r), henU, ?_⟩
    exact (modRings_only (honly.mono (by decide)) (by decide)).only

/-! ### Disabling a ring -/

/-- EN cleared. -/
def ringClosed (r : RingId) (s : State) : State := regSet (ringBase r + 8) (ringCfg s r &&& 0x7FFFFFFF) s

/-- What a ring gives up as it is disabled. -/
def ringGivesUp (r : RingId) (s : State) : State := match r with
  | .cmd k => modRing (.cmd k) (fun g => { g with prod := g.cons }) s
  | .tlm k =>
    let s := if routeOfType s 5 = k then drainStop 1 (drainStop 0 s) else s
    tlmOffer { s with tlm := { s.tlm with recs := (s.tlm.recs.map fun (x : TlmRec) =>
      if x.ring = some k then { x with ring := none, due := true, refetch := true } else x) } }
  | _ => s

theorem ringStop_eq (r : RingId) (s : State) : ringStop r s = ringGivesUp r (ringClosed r s) := rfl

theorem ringGivesUp_only (r : RingId) (s : State) : Only [.rings, .tlm, .mon] s (ringGivesUp r s) := by
  have h := Only.refl [.rings, .tlm, .mon] s
  cases r with
  | cmd k => exact modRing_only (x1 := .cmd k) h (by decide)
  | tlm k =>
    unfold ringGivesUp
    refine tlmOffer_only (tlm_only ?_ (by decide) _) (by decide) (by decide)
    split
    · exact drainStop_only (drainStop_only h (by decide) (by decide)) (by decide) (by decide)
    · exact h
  | cpl k => exact h
  | evt k => exact h

theorem ringGivesUp_of_ne {r : RingId} (h : ∀ k, r ≠ .tlm k) (s : State) : Only [.rings] s (ringGivesUp r s) := by
  cases r with
  | tlm k => exact absurd rfl (h k)
  | cmd k => exact modRing_only (x1 := .cmd k) (Only.refl [.rings] s) (by decide)
  | cpl k => exact Only.refl _ s
  | evt k => exact Only.refl _ s

/-- Settles O15: `ringStop` clears EN alone in CFG and gives up what the ring's kind holds. -/
theorem ringDisabling : Obligations.RingDisabling := by
  intro p r v s hp hc hen hv
  have hexec : exec (.ringDisable p r v) s = .next (ringGivesUp r (ringClosed r s)) := by
    rw [exec_ringDisable hp hc, ← ringStop_eq]
    unfold writeRingCfg
    rw [if_pos hen, if_neg (by simp [hv])]
  have hgives := ringGivesUp_only r (ringClosed r s)
  have hreg (o : Nat) : reg (ringGivesUp r (ringClosed r s)) o =
      if o = ringBase r + 8 then ringCfg s r &&& 0x7FFFFFFF else reg s o :=
    (hgives.reg (by decide) o).trans (reg_regSet _ _ s o)
  have hcfg : ringCfg (ringGivesUp r (ringClosed r s)) r = ringCfg s r &&& 0x7FFFFFFF := (hreg _).trans (if_pos rfl)
  have hclosed : Only [.setup] s (ringClosed r s) := regSet_only' _ _ s
  refine ⟨_, hexec, ?_, fun i hi => ?_, fun o ho => by rw [hreg, if_neg ho], ?_, ?_, fun hne => ?_⟩
  · rw [ringEn, hcfg, bit_and, bit_restMask 31 (by decide)]
    simp
  · rw [hcfg, bit_and, bit_restMask i (by omega)]
    simp [hi]
  · rintro k rfl
    show (getRing (modRing (.cmd k) _ (ringClosed (.cmd k) s)) (.cmd k)).prod = _
    rw [getRing_modRing_same]
    exact congrArg (·.cons) (getRing_congr (hclosed.only .rings (by decide)) _)
  · exact ((hclosed.mono (by decide)).of hgives.only (by decide)).only
  · exact ((hclosed.mono (by decide)).of (ringGivesUp_of_ne hne _).only (by decide)).only

/-! ### Captures and the buffer read -/

theorem lineCapture_on {n : Fin 8} {s : State} (hd : domOn s (rxDomain n) = true) (hh : laneHeld s (.line n) = false) :
    lineCapture n s = modEq n (fun e => { e with
      cap := (match e.prior with | some x => if x.1 = s.clk then x.2 else e.inForce | none => e.inForce), capValid := true }) s :=
  if_neg (by simp [hd, hh])

theorem modEq_congr {n : Fin 8} {f g : LineEq → LineEq} {s : State} (h : f s.lines[n].eq = g s.lines[n].eq) :
    modEq n f s = modEq n g s := by
  unfold modEq modLine upd
  dsimp only
  rw [h]

theorem bufRdata_at (k : Fin 2) : rdataAt (0x5018 + 0x80 * k.val) = some k ∧ isDoorbell (0x5018 + 0x80 * k.val) = false ∧
    (0x5018 + 0x80 * k.val) % 4 = 0 := by
  revert k; decide

/-- Settles O16: `lineCapture` by what was noted on this tick, `hostCapture`, and `rdataRead` on a held word. -/
theorem capturesAndBufferRead : Obligations.CapturesAndBufferRead := by
  refine ⟨fun n s => ⟨fun hd hh => ⟨fun hp => ?_, fun x hx hc => ?_⟩, fun h => ?_⟩, fun n s => ⟨fun hd hh => ?_, fun h => ?_⟩,
    fun p k w s hp hc hw => ?_⟩
  · refine congrArg Host.Outcome.next ((lineCapture_on hd hh).trans (modEq_congr ?_))
    cases hprior : s.lines[n].eq.prior with
    | none => rfl
    | some x => simp only [if_neg (hp x hprior)]; rfl
  · refine congrArg Host.Outcome.next ((lineCapture_on hd hh).trans (modEq_congr ?_))
    simp only [hx, if_pos hc]
  · exact congrArg Host.Outcome.next (if_pos (by rcases h with h | h <;> simp [h]))
  · exact congrArg Host.Outcome.next (if_neg (by simp [hd, hh]))
  · exact congrArg Host.Outcome.next (if_pos (by rcases h with h | h <;> simp [h]))
  · obtain ⟨hat, hdb, ho⟩ := bufRdata_at k
    have hread : readWord p (0x5018 + 0x80 * k.val) s = rdataRead k s := by
      unfold readWord
      rw [if_neg (by simp [hc]), hat]
    have hr : rdataRead k s =
        (w, regSet (raddrOff k) (BitVec.ofNat 32 ((bits (reg s (raddrOff k)) 2 12 + 1) % 4096 * 4)) s) := by
      unfold rdataRead
      simp only [hw]
    have hexec : exec (.bufRdataRead p k) s = .next (emit (.read p w)
        (regSet (raddrOff k) (BitVec.ofNat 32 ((bits (reg s (raddrOff k)) 2 12 + 1) % 4096 * 4)) s)) := by
      refine congrArg Host.Outcome.next ?_
      unfold hostReadReg
      rw [if_pos hp, hdb, if_neg (by decide), if_pos ho, hread, hr]
    have hset := regSet_only' (raddrOff k) (BitVec.ofNat 32 ((bits (reg s (raddrOff k)) 2 12 + 1) % 4096 * 4)) s
    refine ⟨_, hexec, ?_, ?_, fun o ho => ?_, (emit_only (hset.mono (by decide)) (by decide)).only⟩
    · exact congrArg (· ++ [Out.read p w]) (hset.only .out (by decide))
    · exact (reg_regSet _ _ s _).trans (if_pos rfl)
    · exact (reg_regSet _ _ s _).trans (if_neg ho)

end Sys2Proof.Machine
end

section
/-! SUPPORT. Doorbells, descriptors and the records of the completion and event rings: what a doorbell leaves, what one entry written
and tallied leaves in its ring, and the statements about them. -/

namespace Sys2Proof.Machine

open Sys2Proof

/-! ### Doorbells -/

theorem countDev_only' (sel k : Nat) (s : State) : Only [.counters] s (countDev sel k s) := countDev_only (Only.refl _ s) (by decide)

@[simp] theorem modRing_clk (r : RingId) (f : Ring → Ring) (s : State) : (modRing r f s).clk = s.clk := by cases r <;> rfl

/-- A count taken at a doorbell: the ring's counts change and the doorbell is counted. -/
theorem doorbell_taken (r : RingId) (f : Ring → Ring) (s : State) :
    getRing (countDev 0x89 1 (modRing r f s)) r = f (getRing s r) ∧
    (∀ q, q ≠ r → getRing (countDev 0x89 1 (modRing r f s)) q = getRing s q) ∧
    OnlyChanges [.rings, .counters] s (countDev 0x89 1 (modRing r f s)) := by
  have hc (q : RingId) : getRing (countDev 0x89 1 (modRing r f s)) q = getRing (modRing r f s) q := getRing_congr (countDev_rings _) q
  refine ⟨by rw [hc, getRing_modRing_same], fun q hq => by rw [hc, getRing_modRing_ne hq], ?_⟩
  exact (countDev_only (modRing_only (Only.refl _ s) (by decide)) (by decide)).only

/-- Settles O17, by the branches of `ringCmdDb`. -/
theorem commandDoorbell : Obligations.CommandDoorbell := by
  intro k v s
  refine ⟨fun hok hen hle => ?_, fun hok hbad => ?_, fun hok => congrArg Host.Outcome.next (if_pos (by simp [hok]))⟩
  · have h : ringCmdDb k v s = countDev 0x89 1 (modRing (.cmd k) (fun g => { g with prod := v, db := v }) s) := by
      unfold ringCmdDb
      dsimp only
      rw [if_neg (by simp [hok]), if_pos (by simpa [hen] using hle)]
    exact ⟨_, congrArg Host.Outcome.next h, doorbell_taken (.cmd k) (fun g => { g with prod := v, db := v }) s⟩
  · refine congrArg Host.Outcome.next ?_
    unfold ringCmdDb
    dsimp only
    rw [if_neg (by simp [hok]), if_neg]
    · rfl
    · simp only [Bool.and_eq_true, decide_eq_true_eq]
      rintro ⟨h1, h2⟩
      rcases hbad with h | h
      · simp [h1] at h
      · omega

theorem ringConsDb_taken {r : RingId} {v : Word} {s : State} (hok : doorbellOk s = true) (hen : ringEn s r = true)
    (hn : (v - (getRing s r).cons).toNat ≤ ringN s r)
    (hp : (v - (getRing s r).cons).toNat ≤ ((getRing s r).prod - (getRing s r).cons).toNat) :
    ringConsDb r v s = countDev 0x89 1 (modRing r (fun g => { g with cons := v }) s) := by
  unfold ringConsDb
  dsimp only
  rw [if_neg (by simp [hok]), if_pos (by simp only [hen, hn, hp, decide_true, Bool.and_self])]

theorem ringConsDb_bad {r : RingId} {v : Word} {s : State} (hok : doorbellOk s = true)
    (h : ringEn s r = false ∨ ringN s r < (v - (getRing s r).cons).toNat ∨
      ((getRing s r).prod - (getRing s r).cons).toNat < (v - (getRing s r).cons).toNat) :
    ringConsDb r v s = raise 0x020 (pay2 (ringCode r) v.toNat) s := by
  unfold ringConsDb
  dsimp only
  rw [if_neg (by simp [hok]), if_neg (by
    simp only [Bool.and_eq_true, decide_eq_true_eq]
    rintro ⟨⟨h1, h2⟩, h3⟩
    rcases h with h | h | h
    · simp [h1] at h
    · omega
    · omega)]
  rfl

theorem ringConsDb_off {r : RingId} {v : Word} {s : State} (hok : doorbellOk s = false) : ringConsDb r v s = s :=
  if_pos (by simp [hok])

/-- Settles O18: the three doorbells are `ringConsDb` on their rings. -/
theorem consumerDoorbells : Obligations.ConsumerDoorbells := by
  intro c r v s hc
  have hexec : exec c s = .next (ringConsDb r v s) := by
    rcases hc with ⟨k, rfl, rfl⟩ | ⟨k, rfl, rfl⟩ | ⟨k, rfl, rfl⟩ <;> rfl
  rw [hexec]
  refine ⟨fun hok hen hn hp => ⟨_, rfl, ?_⟩, fun hok h => by rw [ringConsDb_bad hok h], fun hok => by rw [ringConsDb_off hok]⟩
  rw [ringConsDb_taken hok hen hn hp]
  exact doorbell_taken r (fun g => { g with cons := v }) s

/-- The count that an acknowledgement stands for: the first at or above the last one that equals it modulo 2^32. -/
theorem ackCount_eq {g : Ring} {v : Word} {n : Nat} (hlo : g.acked ≤ n) (hhi : n < g.acked + 2 ^ 32) (hv : BitVec.ofNat 32 n = v) :
    ackCount g v = n := by
  subst hv
  unfold ackCount
  rw [BitVec.toNat_sub, BitVec.toNat_ofNat, BitVec.toNat_ofNat]
  omega

/-- The records of a ring below n are freed. -/
def ackFreed (k : Fin 8) (n : Nat) (s : State) : State :=
  { s with tlm := { s.tlm with recs := (s.tlm.recs.filter fun (x : TlmRec) => !(x.ring == some k && decide (x.id < n))) } }

theorem mem_ackFreed {k : Fin 8} {n : Nat} {s : State} {x : TlmRec} :
    x ∈ (ackFreed k n s).tlm.recs ↔ x ∈ s.tlm.recs ∧ ¬(x.ring = some k ∧ x.id < n) := by
  simp [ackFreed, imp_iff_not_or]

/-- Settles O19: the acknowledgement that stands for n frees what lies below n. -/
theorem telemetryAcknowledgement : Obligations.TelemetryAcknowledgement := by
  intro k v s hok
  refine ⟨fun hen n hlo hw hhi hv => ?_, fun hbad => ?_⟩
  · have hn : ackCount s.rings.tlm[k] v = n := ackCount_eq hlo hhi hv
    have h : ringTlmAck k v s = countDev 0x89 1 (ackFreed k n (modRing (.tlm k) (fun g => { g with acked := n }) s)) := by
      unfold ringTlmAck
      simp only [hn]
      rw [if_neg (by simp [hok]), if_pos (by simpa [hen] using hw)]
      rfl
    have hr (q : RingId) : getRing (ringTlmAck k v s) q = getRing (modRing (.tlm k) (fun g => { g with acked := n }) s) q := by
      rw [h]; exact getRing_congr (countDev_rings _) q
    refine ⟨_, rfl, (hr _).trans (getRing_modRing_same _ _ s), fun x => ?_, fun q hq => (hr q).trans (getRing_modRing_ne hq _ s), ?_⟩
    · rw [h, countDev_tlm]; exact mem_ackFreed
    · rw [h]
      exact (countDev_only (tlm_only (modRing_only (Only.refl _ s) (by decide)) (by decide) _) (by decide)).only
  · refine congrArg Host.Outcome.next ?_
    unfold ringTlmAck
    dsimp only
    rw [if_neg (by simp [hok]), if_neg (by
      simp only [Bool.and_eq_true, decide_eq_true_eq, ackCount]
      rintro ⟨h1, h2⟩
      rcases hbad with h | h
      · simp [h1] at h
      · exact absurd (of_decide_eq_true h2) (Nat.not_le.2 h))]
    rfl

/-! ### Fetching a descriptor -/

@[simp] theorem countDev_rings' (sel k : Nat) (s : State) (q : RingId) : getRing (countDev sel k s) q = getRing s q :=
  getRing_congr (countDev_rings s) q

/-- A descriptor is taken off its ring, whose turn it then was. -/
def fetched (k : Fin 16) (s : State) : State :=
  modRings (fun r => { r with turn := k }) (countDev 0x84 1 (modRing (.cmd k) (fun g => { g with cons := g.cons + 1 }) s))

theorem getRing_fetched (k : Fin 16) (s : State) (q : RingId) :
    getRing (fetched k s) q = getRing (modRing (.cmd k) (fun g => { g with cons := g.cons + 1 }) s) q :=
  (show getRing (fetched k s) q = getRing (countDev 0x84 1 _) q by cases q <;> rfl).trans (countDev_rings' _ _ _ _)

theorem fetched_only (k : Fin 16) (s : State) : Only [.rings, .counters] s (fetched k s) :=
  modRings_only (countDev_only (modRing_only (Only.refl _ s) (by decide)) (by decide)) (by decide)

/-- The command rings are not what an answer writes. -/
theorem answer_cmdRing (c : Cmd) (st : Byte) (fin : Bool) (time : CTime) (res : Nat) (s : State) (k : Fin 16) :
    getRing (answer c st fin time res s) (.cmd k) = getRing s (.cmd k) := by
  have hlimit (u : State) : getRing (cplLimit u) (.cmd k) = getRing u (.cmd k) := by
    unfold cplLimit
    split
    · rfl
    · split
      · rfl
      · exact getRing_congr (raise_rings _) _
  unfold answer
  split
  · rfl
  · dsimp only
    split
    · rfl
    · rw [hlimit]; rfl

/-- A descriptor that fails its check, as the state in which it is answered. -/
def checkFailed (k : Fin 16) (seq : Word) (s : State) : State :=
  raiseLimited 0x024 k.val (pay2 k.val seq.toNat) (modRing (.cmd k) (fun g => { g with chkFail := satU 8 (g.chkFail + 1) }) s)

theorem fetch_bad {k : Fin 16} {b : List Byte} {s : State} (hok : fetchOk k s = true)
    (hbad : descOk k s.rings.cmd[k].cons.toNat (ringN s (.cmd k)) (descBytes k b s) = false) :
    ∃ c : Cmd, c.d.ring = k ∧ c.d.seq = s.rings.cmd[k].cons ∧ c.era = s.rings.era ∧
      fetch k b s = refuse c stCheckFail (cmdOpen c (checkFailed k s.rings.cmd[k].cons (fetched k s))) := by
  refine ⟨{ op := byteAt (descBytes k b s) 0, d := descOf k s.rings.cmd[k].cons (descBytes k b s), era := (fetched k s).rings.era
            img := noImage }, rfl, rfl, ?_, ?_⟩
  · show (countDev 0x84 1 _).rings.era = _
    rw [countDev_rings]; rfl
  · unfold fetch
    rw [if_neg (by simp [hok])]
    dsimp only
    rw [if_neg (by rw [hbad]; decide)]
    rfl

theorem fetch_good {k : Fin 16} {b : List Byte} {s : State} (hok : fetchOk k s = true)
    (hgood : descOk k s.rings.cmd[k].cons.toNat (ringN s (.cmd k)) (descBytes k b s) = true)
    (h0 : byteAt (descBytes k b s) 0 ≠ 0xA0) (h3 : byteAt (descBytes k b s) 0 ≠ 0xA3) :
    fetch k b s = submit (byteAt (descBytes k b s) 0) (descOf k s.rings.cmd[k].cons (descBytes k b s)) noImage (fetched k s) := by
  have himg (u : State) : imageDraw (byteAt (descBytes k b s) 0) u = (noImage, u) := if_neg (by simp [h0, h3])
  unfold fetch
  rw [if_neg (by simp [hok])]
  dsimp only
  rw [if_pos hgood, himg]
  rfl

/-- Settles O20, by the branches of `fetch`. -/
theorem descriptorFetching : Obligations.DescriptorFetching := by
  intro k b s
  refine ⟨fun hno => congrArg Host.Outcome.next (if_pos (by simp [hno])), fun hok hbad => ?_, fun hok hgood h0 h3 => ⟨?_, ?_, ?_⟩⟩
  · obtain ⟨c, hk, hseq, hera, hf⟩ := fetch_bad hok hbad
    have hring : getRing (fetch k b s) (.cmd k) =
        { getRing s (.cmd k) with cons := s.rings.cmd[k].cons + 1, chkFail := min (s.rings.cmd[k].chkFail + 1) 255 } := by
      rw [hf, refuse, answer_cmdRing]
      show getRing (checkFailed k s.rings.cmd[k].cons (fetched k s)) (.cmd k) = _
      rw [checkFailed, getRing_congr (raiseLimited_rings _), getRing_modRing_same, getRing_fetched, getRing_modRing_same]
      rfl
    have hopen : (cmdOpen c (checkFailed k s.rings.cmd[k].cons (fetched k s))).rings.era = s.rings.era := by
      show (checkFailed k s.rings.cmd[k].cons (fetched k s)).rings.era = _
      rw [checkFailed, raiseLimited_rings]
      show (countDev 0x84 1 _).rings.era = _
      rw [countDev_rings]; rfl
    refine ⟨_, rfl, by rw [hring], by rw [hring], ?_, ?_⟩
    · rw [hf, refuse, answer_outcomes _ _ (hera.trans hopen.symm)]
      unfold Cmd.outcome
      rw [hk, hseq]; rfl
    · rw [hf]
      have hfetch : Only (.rings :: reports) s (fetched k s) := (fetched_only k s).mono (by decide)
      have hfail : Only (.rings :: reports) s (checkFailed k s.rings.cmd[k].cons (fetched k s)) :=
        raiseLimited_only (modRing_only hfetch (by decide)) (by decide) (by decide) (by decide)
      exact (refuse_only (modRings_only hfail (by decide)) (by decide) (by decide) (by decide) (by decide)).only
  · exact congrArg Host.Outcome.next (fetch_good hok hgood h0 h3)
  · exact (fetched_only k s).only
  · exact fun q hq => (getRing_fetched k s q).trans (getRing_modRing_ne hq _ s)

/-! ### One entry of a ring -/

@[simp] theorem localMode_emit (o : Out) (s : State) : localMode (emit o s) = localMode s := rfl

theorem localMode_congr {s t : State} (h : t.straps = s.straps) : localMode t = localMode s := by unfold localMode; rw [h]

theorem Only.localMode {ps : List Part} {s t : State} (h : Only ps s t) (hp : Part.straps ∉ ps) : localMode t = localMode s :=
  localMode_congr (h.only .straps hp)

theorem msix_local {s : State} (h : localMode s = true) (v : Nat) : msix v s = s := if_pos h

theorem msix_only' (v : Nat) (s : State) : Only [.out, .pcie] s (msix v s) := msix_only (Only.refl _ s) (by decide) (by decide)

theorem ringSignal_enabled {r : RingId} {s : State} (hr : ∀ k, r ≠ .cmd k) (hen : ringEn s r = true) (hu : (getRing s r).unsig ≠ 0) :
    ringSignal r s = msix (ringVec s r) (modRing r (fun g => { g with unsig := 0 }) s) := by
  cases r with
  | cmd k => exact absurd rfl (hr k)
  | cpl k => exact if_neg (by simp [hu, hen])
  | evt k => exact if_neg (by simp [hu, hen])
  | tlm k => exact if_neg (by simp [hu, hen])

/-- One entry of n places is written, counted, and signalled where MOD_CNT entries have come. -/
def entryWritten (r : RingId) (n sel k : Nat) (s : State) : State := ringTally r (countDev sel k (ringEntry r n s))

/-- The ring after an entry of n places. -/
def Ring.afterEntry (clk md n : Nat) (g : Ring) : Ring :=
  { g with prod := g.prod + BitVec.ofNat 32 n, unsig := if md ≤ g.unsig + 1 then 0 else g.unsig + 1
           first := if g.unsig = 0 then clk else g.first, latest := clk }

section
variable {r : RingId} {s : State} (n sel k : Nat)

theorem entryCounted_ring : getRing (countDev sel k (ringEntry r n s)) r =
    { getRing s r with
      prod := (getRing s r).prod + BitVec.ofNat 32 n, unsig := (getRing s r).unsig + 1
      first := if (getRing s r).unsig = 0 then s.clk else (getRing s r).first, latest := s.clk } := by
  rw [countDev_rings', ringEntry, getRing_modRing_same]

theorem entryCounted_only : Only [.rings, .counters] s (countDev sel k (ringEntry r n s)) :=
  countDev_only (modRing_only (Only.refl _ s) (by decide)) (by decide)

/-- With MOD_CNT entries the ring signals; with fewer it waits. -/
theorem entryWritten_eq (hr : ∀ k, r ≠ .cmd k) (hen : ringEn s r = true) :
    entryWritten r n sel k s = if ringMod s r ≤ (getRing s r).unsig + 1
      then msix (ringVec s r) (modRing r (fun g => { g with unsig := 0 }) (countDev sel k (ringEntry r n s)))
      else countDev sel k (ringEntry r n s) := by
  have hreg (o : Nat) := (entryCounted_only (r := r) (s := s) n sel k).reg (by decide) o
  have hring := entryCounted_ring (r := r) (s := s) n sel k
  unfold entryWritten ringTally
  rw [hring, show ringMod (countDev sel k (ringEntry r n s)) r = ringMod s r by simp only [ringMod, ringCfg, hreg]]
  dsimp only
  by_cases hm : ringMod s r ≤ (getRing s r).unsig + 1
  · rw [if_pos hm, if_pos hm, ringSignal_enabled hr (by simp only [ringEn, ringCfg, hreg]; exact hen) (by rw [hring]; simp)]
    simp only [ringVec, ringCfg, hreg]
  · rw [if_neg hm, if_neg hm]

theorem entryWritten_ring (hr : ∀ k, r ≠ .cmd k) (hen : ringEn s r = true) :
    getRing (entryWritten r n sel k s) r = (getRing s r).afterEntry s.clk (ringMod s r) n := by
  rw [entryWritten_eq n sel k hr hen]
  unfold Ring.afterEntry
  split
  · rw [getRing_congr ((msix_only' _ _).only .rings (by decide)), getRing_modRing_same, entryCounted_ring]
  · rw [entryCounted_ring]

theorem entryWritten_ne (hr : ∀ k, r ≠ .cmd k) (hen : ringEn s r = true) {q : RingId} (hq : q ≠ r) :
    getRing (entryWritten r n sel k s) q = getRing s q := by
  have hcount : getRing (countDev sel k (ringEntry r n s)) q = getRing s q :=
    (countDev_rings' _ _ _ _).trans (getRing_modRing_ne hq _ s)
  rw [entryWritten_eq n sel k hr hen]
  split
  · rw [getRing_congr ((msix_only' _ _).only .rings (by decide)), getRing_modRing_ne hq, hcount]
  · exact hcount

theorem entryWritten_only : Only [.out, .pcie, .rings, .counters] s (entryWritten r n sel k s) :=
  ringTally_only ((entryCounted_only n sel k).mono (by decide)) (by decide) (by decide) (by decide)

/-- In local ring mode there is no message. -/
theorem entryWritten_local (hl : localMode s = true) : (entryWritten r n sel k s).out = s.out ∧
    (entryWritten r n sel k s).pcie = s.pcie := by
  have hc := entryCounted_only (r := r) (s := s) n sel k
  have hl' : localMode (countDev sel k (ringEntry r n s)) = true := (hc.localMode (by decide)).trans hl
  have hsame : Only [.rings, .counters] s (entryWritten r n sel k s) := by
    unfold entryWritten ringTally
    split
    · unfold ringSignal
      split
      · exact hc
      · split
        · exact hc
        · rw [msix_local ((localMode_congr (by cases r <;> rfl)).trans hl')]
          exact modRing_only hc (by decide)
    · exact hc
  exact ⟨hsame.only .out (by decide), hsame.only .pcie (by decide)⟩

theorem entryWritten_out : ∃ o, (entryWritten r n sel k s).out = s.out ++ o :=
  (ringTally_keeps (countDev_keeps (ringEntry_keeps (Keeps.refl s)))).out

end

/-! ### Writes into a ring's area -/

theorem ringWrite_local {s : State} (h : localMode s = true) (r : RingId) (off : Nat) (b : List Byte) :
    ringWrite r off b s = { s with lmem := Memory.write s.lmem (ringAddr s r + off) b } := if_pos h

theorem ringWrite_host {s : State} (h : localMode s = false) (r : RingId) (off : Nat) (b : List Byte) :
    ringWrite r off b s = emit (.hostWrite (ringAddr s r + off) b) s := if_neg (by simp [h])

theorem ringWrite_only' (r : RingId) (off : Nat) (b : List Byte) (s : State) : Only [.out, .lmem] s (ringWrite r off b s) :=
  ringWrite_only (Only.refl _ s) (by decide) (by decide)

end Sys2Proof.Machine
end

section
/-! SUPPORT. Event records, completion records, vectors and failed accesses: the statements about them. -/

namespace Sys2Proof.Machine

open Sys2Proof

/-! ### An entry written in a state that differs from an earlier one beside the rings -/

section
variable {ps : List Part} {r : RingId} {s u : State} (n sel k : Nat)

theorem Only.ringEn (h : Only ps s u) (hp : Part.setup ∉ ps) (q : RingId) : ringEn u q = ringEn s q := by
  simp only [Machine.ringEn, ringCfg, h.reg hp]

theorem Only.ringN (h : Only ps s u) (hp : Part.setup ∉ ps) (q : RingId) : ringN u q = ringN s q := by
  simp only [Machine.ringN, ringCfg, h.reg hp]

theorem Only.ringMod (h : Only ps s u) (hp : Part.setup ∉ ps) (q : RingId) : ringMod u q = ringMod s q := by
  simp only [Machine.ringMod, ringCfg, h.reg hp]

theorem Only.ringAddr (h : Only ps s u) (hp : Part.setup ∉ ps) (q : RingId) : ringAddr u q = ringAddr s q := by
  simp only [Machine.ringAddr, h.reg hp]

theorem Only.getRing (h : Only ps s u) (hp : Part.rings ∉ ps) (q : RingId) : getRing u q = getRing s q :=
  getRing_congr (h.only .rings hp) q

theorem Only.clk (h : Only ps s u) (hp : Part.clk ∉ ps) : u.clk = s.clk := (h.only .clk hp).1

/-- The ring's entry and the other rings, for a state before that has the same rings, registers and clock. -/
theorem entryWritten_after (h : Only ps s u) (hrings : Part.rings ∉ ps) (hset : Part.setup ∉ ps) (hclk : Part.clk ∉ ps)
    (hr : ∀ k, r ≠ .cmd k) (hen : Machine.ringEn s r = true) :
    Machine.getRing (entryWritten r n sel k u) r = (Machine.getRing s r).afterEntry s.clk (Machine.ringMod s r) n ∧
    ∀ q, q ≠ r → Machine.getRing (entryWritten r n sel k u) q = Machine.getRing s q := by
  have henU : Machine.ringEn u r = true := (h.ringEn hset r).trans hen
  refine ⟨?_, fun q hq => (entryWritten_ne n sel k hr henU hq).trans (h.getRing hrings q)⟩
  rw [entryWritten_ring n sel k hr henU, h.getRing hrings, h.ringMod hset, h.clk hclk]

end

theorem ringReady_en {s : State} {r : RingId} (h : ringReady s r = true) : ringEn s r = true := by
  unfold ringReady at h
  simp only [Bool.and_eq_true] at h
  exact h.1.1.1.1

/-! ### Event records -/

/-- The latch is unlatched and its source held off for its class. -/
def unlatched (l : Latch) (s : State) : State :=
  { s with evt := { s.evt with latches := s.evt.latches.erase l
                               holdoff := assocSet s.evt.holdoff l.src (s.clk + holdoffTicks s ((evtClass l.src).getD 0)) } }

/-- A fault record may signal FAULT_VEC. -/
def faultSignal (l : Latch) (s : State) : State :=
  if (evtClass l.src).getD 0 = 2 ∧ bit (reg s 0x3000) 31 then msix (bits (reg s 0x3000) 24 5) s else s

/-- The latch's record stands at the ring's place. -/
def evtPlaced (e : Fin 4) (l : Latch) (s : State) : State :=
  ringWrite (.evt e) (16 * ((getRing s (.evt e)).prod.toNat % ringN s (.evt e))) (evtBytes s e l (getRing s (.evt e)).prod.toNat) s

theorem evtWrite_some {e : Fin 4} {s : State} {l : Latch} (hl : latchNext s e = some l) (hr : ringReady s (.evt e) = true)
    (hf : ringFull s (.evt e) = false) :
    evtWrite e s = faultSignal l (entryWritten (.evt e) 1 0x86 1 (unlatched l (evtPlaced e l s))) := by
  unfold evtWrite
  rw [hl]
  dsimp only
  rw [if_pos (by simp [hr, hf])]
  rfl

theorem evtWrite_idle {e : Fin 4} {s : State}
    (h : latchNext s e = none ∨ ringReady s (.evt e) = false ∨ ringFull s (.evt e) = true) : evtWrite e s = s := by
  unfold evtWrite
  split
  · rfl
  case h_2 l hl =>
    rw [hl] at h
    exact if_neg (by rcases h with h | h | h <;> simp_all)

theorem unlatched_only (l : Latch) (s : State) : Only [.evt] s (unlatched l s) := by
  simp [unlatched, only_mk, Only.refl]

theorem faultSignal_only (l : Latch) (s : State) : Only [.out, .pcie] s (faultSignal l s) := by
  unfold faultSignal
  split
  · exact msix_only' _ s
  · exact Only.refl _ s

theorem faultSignal_local {l : Latch} {s : State} (h : localMode s = true) : faultSignal l s = s := by
  unfold faultSignal
  rw [msix_local h, ite_self]

theorem faultSignal_out (l : Latch) (s : State) : ∃ o, (faultSignal l s).out = s.out ++ o := by
  unfold faultSignal
  split
  · exact (msix_keeps (Keeps.refl s)).out
  · exact ⟨[], by simp⟩

theorem holdoff_unlatched (l : Latch) (s : State) :
    assocGet (unlatched l s).evt.holdoff l.src = some (s.clk + holdoffTicks s ((evtClass l.src).getD 0)) := by
  unfold unlatched
  rw [assocGet_set, if_pos rfl]

/-- Settles O21: the record is placed, the latch given up, the entry tallied. -/
theorem eventRecordWriting : Obligations.EventRecordWriting := by
  refine fun e s => ⟨fun h => congrArg Host.Outcome.next (evtWrite_idle h), fun l hl hr hf => ?_⟩
  have hplaced : Only [.out, .lmem] s (evtPlaced e l s) := ringWrite_only' _ _ _ s
  have hun : Only [.out, .lmem, .evt] s (unlatched l (evtPlaced e l s)) :=
    (hplaced.mono (by decide)).of (unlatched_only l _).only (by decide)
  generalize hu : unlatched l (evtPlaced e l s) = u at hun
  generalize hw : entryWritten (.evt e) 1 0x86 1 u = w
  have hent : Only [.out, .pcie, .rings, .counters] u w := hw ▸ entryWritten_only 1 0x86 1
  have hfault := faultSignal_only l w
  have hexec : exec (.eventRecordWrite e) s = .next (faultSignal l w) := by
    rw [← hw, ← hu]; exact congrArg Host.Outcome.next (evtWrite_some hl hr hf)
  obtain ⟨hring, hothers⟩ := hw ▸ entryWritten_after 1 0x86 1 hun (by decide) (by decide) (by decide) (by simp) (ringReady_en hr)
  have hevt : (faultSignal l w).evt = u.evt := (hfault.only .evt (by decide)).trans (hent.only .evt (by decide))
  have hrings (q : RingId) : getRing (faultSignal l w) q = getRing w q := hfault.getRing (by decide) q
  have hlmem : (faultSignal l w).lmem = (evtPlaced e l s).lmem := (hfault.only .lmem (by decide)).trans
    ((hent.only .lmem (by decide)).trans (by rw [← hu]; rfl))
  have hmode : localMode u = localMode s := hun.localMode (by decide)
  refine ⟨_, hexec, ?_, ?_, (hrings _).trans hring, fun q hq => (hrings q).trans (hothers q hq), fun hloc => ⟨?_, ?_⟩,
    fun hloc => ⟨?_, ?_⟩, ?_⟩
  · rw [hevt, ← hu]
    exact congrArg (List.erase · l) (congrArg Evt.latches (hplaced.only .evt (by decide)))
  · rw [hevt, ← hu, holdoff_unlatched, hplaced.clk (by decide)]
    simp only [holdoffTicks, hplaced.reg (by decide)]
  · obtain ⟨o1, h1⟩ := faultSignal_out l w
    obtain ⟨o2, h2⟩ := hw ▸ entryWritten_out (r := .evt e) (s := u) 1 0x86 1
    have h3 : u.out = (evtPlaced e l s).out := by rw [← hu]; rfl
    rw [h1, h2, h3, evtPlaced, ringWrite_host hloc]
    simp [emit]
  · rw [hlmem, evtPlaced, ringWrite_host hloc]; rfl
  · have hlw : localMode w = true := (hent.localMode (by decide)).trans (hmode.trans hloc)
    rw [faultSignal_local hlw, ← hw, (entryWritten_local 1 0x86 1 (hmode.trans hloc)).1, ← hu]
    show (evtPlaced e l s).out = _
    rw [evtPlaced, ringWrite_local hloc]
  · rw [hlmem, evtPlaced, ringWrite_local hloc]
  · exact (((hun.mono (by decide)).of hent.only (by decide)).of hfault.only (by decide)).only

/-! ### Completion records -/

/-- The record stands at the ring's place. -/
def cplPlaced (c : Fin 16) (r : CplRec) (s : State) : State :=
  ringWrite (.cpl c) (32 * ((getRing s (.cpl c)).prod.toNat % ringN s (.cpl c))) (cplBytes s r (getRing s (.cpl c)).prod.toNat) s

/-- The record waits no more, and a final one closes its command. -/
def cplClosed (r : CplRec) (s : State) : State :=
  modRings (fun x => { x with
    wait := x.wait.erase r, opened := if r.final then x.opened.filter fun o => o != (r.ring, r.seq) else x.opened }) s

theorem cplWrite_some {c : Fin 16} {r : CplRec} {s : State} (hf : (s.rings.wait.find? fun x => x.cpl == c) = some r)
    (hr : ringReady s (.cpl c) = true) (hn : ringFull s (.cpl c) = false) :
    cplWrite c s = (entryWritten (.cpl c) 1 0x85 1 (cplClosed r (cplPlaced c r s)), some r) := by
  unfold cplWrite
  rw [hf]
  dsimp only
  rw [if_pos (by simp [hr, hn])]
  rfl

theorem modRst_eq_self {f : Rst → Rst} {s : State} (h : f s.rst = s.rst) : modRst f s = s := by
  unfold modRst
  rw [h]

/-- No reset waits for a record. -/
theorem afterCheck_id {s : State} (h : s.rst.afterRecord = []) : afterCheck s = s := by
  unfold afterCheck
  rw [h]
  refine modRst_eq_self ?_
  rw [h]
  exact congrArg (fun l => { s.rst with afterRecord := l }) h.symm

theorem cplClosed_rings (r : CplRec) (s : State) : (cplClosed r s).rings = { s.rings with
    wait := s.rings.wait.erase r
    opened := if r.final then s.rings.opened.filter fun o => o != (r.ring, r.seq) else s.rings.opened } := rfl

theorem getRing_cplClosed (r : CplRec) (s : State) (q : RingId) : getRing (cplClosed r s) q = getRing s q := by
  cases q <;> rfl

theorem cplClosed_only (r : CplRec) (s : State) : Only [.rings] s (cplClosed r s) := modRings_only (Only.refl _ s) (by decide)

/-- What else the rings hold stays as an entry is written. -/
theorem modRing_rest (r : RingId) (f : Ring → Ring) (s : State) : (modRing r f s).rings.wait = s.rings.wait ∧
    (modRing r f s).rings.opened = s.rings.opened ∧ (modRing r f s).rings.held = s.rings.held := by
  cases r <;> exact ⟨rfl, rfl, rfl⟩

theorem entryWritten_rest (r : RingId) (n sel k : Nat) (s : State) : (entryWritten r n sel k s).rings.wait = s.rings.wait ∧
    (entryWritten r n sel k s).rings.opened = s.rings.opened ∧ (entryWritten r n sel k s).rings.held = s.rings.held := by
  have hcount : (countDev sel k (ringEntry r n s)).rings = (ringEntry r n s).rings := countDev_rings _
  have hentry := modRing_rest r (fun g => { g with
    prod := g.prod + BitVec.ofNat 32 n, unsig := g.unsig + 1
    first := if g.unsig = 0 then s.clk else g.first, latest := s.clk }) s
  change (ringEntry r n s).rings.wait = _ ∧ (ringEntry r n s).rings.opened = _ ∧ (ringEntry r n s).rings.held = _ at hentry
  rw [← hcount] at hentry
  unfold entryWritten
  generalize countDev sel k (ringEntry r n s) = u at hentry ⊢
  have hsig : (ringTally r u).rings = u.rings ∨ (ringTally r u).rings = (modRing r (fun g => { g with unsig := 0 }) u).rings := by
    unfold ringTally ringSignal
    split
    · split
      · exact .inl rfl
      · split
        · exact .inl rfl
        · exact .inr ((msix_only' _ _).only .rings (by decide))
    · exact .inl rfl
  rcases hsig with h | h
  · rw [h]; exact hentry
  · obtain ⟨h1, h2, h3⟩ := modRing_rest r (fun g => { g with unsig := 0 }) u
    rw [h, h1, h2, h3]; exact hentry

theorem find?_wait_cpl {c : Fin 16} {r : CplRec} {l : List CplRec} (h : (l.find? fun x => x.cpl == c) = some r) : r.cpl = c := by
  simpa using List.find?_some h

/-- Settles O23: the record is placed and closed, the entry tallied; nothing waits for it. -/
theorem completionRecordWriting : Obligations.CompletionRecordWriting := by
  intro c r s hfind hr hf hheld hafter b a
  have hplaced : Only [.out, .lmem] s (cplPlaced c r s) := ringWrite_only' _ _ _ s
  have hclosed := cplClosed_only r (cplPlaced c r s)
  generalize hu : cplClosed r (cplPlaced c r s) = u at hclosed
  have hrings (q : RingId) : getRing u q = getRing s q := by
    rw [← hu, getRing_cplClosed]; exact hplaced.getRing (by decide) q
  have honly : Only [.out, .lmem, .rings] s u := (hplaced.mono (by decide)).of hclosed.only (by decide)
  generalize hw : entryWritten (.cpl c) 1 0x85 1 u = w
  have hent : Only [.out, .pcie, .rings, .counters] u w := hw ▸ entryWritten_only 1 0x85 1
  have hen : ringEn u (.cpl c) = true := (honly.ringEn (by decide) _).trans (ringReady_en hr)
  obtain ⟨hwait, hopened, hheldW⟩ := hw ▸ entryWritten_rest (.cpl c) 1 0x85 1 u
  have hur : u.rings = (cplClosed r s).rings := by
    rw [← hu, cplClosed_rings, hplaced.only .rings (by decide)]
    rfl
  have hexec : exec (.completionRecordWrite c) s = .next w := by
    refine congrArg Host.Outcome.next ?_
    have hrst : w.rst.afterRecord = [] := by
      rw [(hent.only .rst (by decide)).1, (honly.only .rst (by decide)).1, hafter]
    unfold recordWrite
    rw [cplWrite_some hfind hr hf, hu, hw, afterCheck_id hrst, releaseHeld_id]
    rw [hheldW, hur]; exact hheld
  have hlmem : w.lmem = (cplPlaced c r s).lmem := (hent.only .lmem (by decide)).trans (hclosed.only .lmem (by decide))
  have houtU : u.out = (cplPlaced c r s).out := hclosed.only .out (by decide)
  have hmode : localMode u = localMode s := honly.localMode (by decide)
  refine ⟨w, hexec, ?_, fun hfin o => ?_, fun hfin => ?_, ?_, fun q hq => ?_, fun hloc => ⟨?_, ?_⟩, fun hloc => ⟨?_, ?_⟩, ?_⟩
  · rw [hwait, hur]; rfl
  · rw [hopened, hur]
    simp [cplClosed, modRings, hfin]
  · rw [hopened, hur]
    simp [cplClosed, modRings, hfin]
  · rw [← hw, entryWritten_ring 1 0x85 1 (by simp) hen, hrings, honly.ringMod (by decide), honly.clk (by decide)]
    rfl
  · rw [← hw, entryWritten_ne 1 0x85 1 (by simp) hen hq, hrings]
  · obtain ⟨o, ho⟩ := hw ▸ entryWritten_out (r := .cpl c) (s := u) 1 0x85 1
    rw [ho, houtU, cplPlaced, ringWrite_host hloc]
    show List.take (s.out.length + 1) (s.out ++ [_] ++ o) = s.out ++ [_]
    rw [List.take_left' (by simp)]
  · rw [hlmem, cplPlaced, ringWrite_host hloc]; rfl
  · rw [← hw, (entryWritten_local 1 0x85 1 (hmode.trans hloc)).1, houtU, cplPlaced, ringWrite_local hloc]
  · rw [hlmem, cplPlaced, ringWrite_local hloc]
  · exact ((honly.mono (by decide)).of hent.only (by decide)).only

/-! ### Vectors and failed accesses -/

theorem msix_sent {s : State} {v : Nat} (hl : localMode s = false) (hm : bit (reg s (0x280C + 16 * v)) 0 = false)
    (hb : busOk s = true) : msix v s = emit (.msix v
      ((reg s (0x2800 + 16 * v)).toNat + 2 ^ 32 * (reg s (0x2804 + 16 * v)).toNat) (reg s (0x2808 + 16 * v))) s := by
  unfold msix
  rw [if_neg (by simp [hl]), if_neg (by simp [hm, hb])]

theorem msix_pending {s : State} {v : Nat} (hl : localMode s = false)
    (h : bit (reg s (0x280C + 16 * v)) 0 = true ∨ busOk s = false) :
    msix v s = { s with pcie := { s.pcie with pend := s.pcie.pend ||| BitVec.ofNat 32 (2 ^ v) } } := by
  unfold msix
  rw [if_neg (by simp [hl]), if_pos (by rcases h with h | h <;> simp [h])]

theorem ringDue_iff (s : State) (r : RingId) : ringDue s r = true ↔
    bits (ringCfg s r) 8 4 ≠ 0 ∧ 625 * 2 ^ bits (ringCfg s r) 8 4 ≤ 4 * (s.clk - (getRing s r).first) ∨
      6250 ≤ 4 * (s.clk - (getRing s r).latest) := by
  simp [ringDue]

@[simp] theorem modRing_pcie (r : RingId) (f : Ring → Ring) (s : State) : (modRing r f s).pcie = s.pcie := by cases r <;> rfl
@[simp] theorem modRing_straps (r : RingId) (f : Ring → Ring) (s : State) : (modRing r f s).straps = s.straps := by cases r <;> rfl
@[simp] theorem modRing_out (r : RingId) (f : Ring → Ring) (s : State) : (modRing r f s).out = s.out := by cases r <;> rfl

theorem busOk_congr {s t : State} (h : t.straps = s.straps) (k : t.pcie = s.pcie) : busOk t = busOk s := by
  unfold busOk localMode; rw [h, k]

theorem modRing_only' (r : RingId) (f : Ring → Ring) (s : State) : Only [.rings] s (modRing r f s) :=
  modRing_only (Only.refl _ s) (by decide)

theorem aerNote_bit (status : Nat) (s : State) : ∃ i, i < 32 ∧
    aerNote status s = { s with pcie := { s.pcie with aer := s.pcie.aer ||| BitVec.ofNat 32 (2 ^ i) } } := by
  refine ⟨_, ?_, rfl⟩
  split
  · decide
  · split <;> decide

theorem ringAccessFail_taken {r : RingId} {status : Nat} {s : State} (hen : ringEn s r = true) (hl : localMode s = false) :
    ringAccessFail r status s =
      aerNote status (raise 0x022 (pay2 (ringCode r) status) (modRing r (fun g => { g with err := true }) s)) :=
  if_pos (by simp [hen, hl])

/-- Settles O24: a due timer signals the vector, whose message the mask and the bus decide; a failed access stops its ring. -/
theorem vectorsAndAccessErrors : Obligations.VectorsAndAccessErrors := by
  refine ⟨?timer, fun r status s hen hl => ?_, fun r status s h => ?_⟩
  case timer =>
    intro r s hr hen hu t0 due
    refine ⟨fun hno => congrArg Host.Outcome.next (if_neg (mt (ringDue_iff s r).1 hno)), fun hdue => ?_⟩
    have hexec : exec (.vectorSignal r) s = .next (msix (ringVec s r) (modRing r (fun g => { g with unsig := 0 }) s)) :=
      congrArg Host.Outcome.next ((if_pos ((ringDue_iff s r).2 hdue)).trans (ringSignal_enabled hr hen hu))
    have hmod := modRing_only' r (fun g => { g with unsig := 0 }) s
    have hmode : localMode (modRing r (fun g => { g with unsig := 0 }) s) = localMode s := hmod.localMode (by decide)
    have hbus : busOk (modRing r (fun g => { g with unsig := 0 }) s) = busOk s :=
      busOk_congr (modRing_straps _ _ _) (modRing_pcie _ _ _)
    have hring (q : RingId) : getRing (msix (ringVec s r) (modRing r (fun g => { g with unsig := 0 }) s)) q =
        getRing (modRing r (fun g => { g with unsig := 0 }) s) q := (msix_only' _ _).getRing (by decide) q
    refine ⟨_, hexec, (hring r).trans (getRing_modRing_same r _ s), fun q hq => (hring q).trans (getRing_modRing_ne hq _ s),
      fun hl => ?_, fun hl hm hb => ?_, fun hl h => ?_, ?_⟩
    · rw [msix_local (hmode.trans hl), modRing_out, modRing_pcie]
      exact ⟨rfl, rfl⟩
    · rw [msix_sent (hmode.trans hl) (by rw [reg_modRing]; exact hm) (hbus.trans hb)]
      simp only [emit, reg_modRing, modRing_pcie, modRing_out, and_self]
    · rw [msix_pending (hmode.trans hl) (by rw [reg_modRing, hbus]; exact h)]
      simp only [modRing_pcie, modRing_out, and_self]
    · exact ((hmod.mono (by decide)).of (msix_only' _ _).only (by decide)).only
  · obtain ⟨i, hi, haer⟩ := aerNote_bit status (raise 0x022 (pay2 (ringCode r) status) (modRing r (fun g => { g with err := true }) s))
    have hring (q : RingId) : getRing (ringAccessFail r status s) q = getRing (modRing r (fun g => { g with err := true }) s) q := by
      rw [ringAccessFail_taken hen hl, haer]
      exact getRing_congr (raise_rings _) q
    refine ⟨ringAccessFail r status s, modRing r (fun g => { g with err := true }) s, rfl, ?_, ⟨i, hi, ?_⟩,
      (hring r).trans (getRing_modRing_same r _ s), fun q hq => (hring q).trans (getRing_modRing_ne hq _ s), (modRing_only' r _ s).only⟩
    · rw [ringAccessFail_taken hen hl, haer]
    · rw [ringAccessFail_taken hen hl, haer]
      simp only [raise_pcie, modRing_pcie]
  · exact congrArg Host.Outcome.next (if_neg (by rcases h with h | h <;> simp [h]))

end Sys2Proof.Machine
end

section
/-! SUPPORT. Telemetry records: what the bytes of one record and its tally leave, the arithmetic of the PAD record at the ring's end,
and the statement. -/

namespace Sys2Proof.Machine

open Sys2Proof

/-! ### One record -/

theorem ringWrite_local_out {s : State} (h : localMode s = true) (r : RingId) (off : Nat) (b : List Byte) :
    (ringWrite r off b s).out = s.out := by rw [ringWrite_local h]

theorem ringWrite_local_lmem {s : State} (h : localMode s = true) (r : RingId) (off : Nat) (b : List Byte) :
    (ringWrite r off b s).lmem = Memory.write s.lmem (ringAddr s r + off) b := by rw [ringWrite_local h]

/-- The record's bytes stand in the ring: the rest first, header bytes 0 to 15 last (R285). -/
def tlmPlaced (t : Fin 8) (x : TlmRec) (id : Nat) (s : State) : State :=
  let pos := (getRing s (.tlm t)).prod.toNat
  let off := 64 * (pos % ringN s (.tlm t))
  let b := tlmBytes s t x id pos
  ringWrite (.tlm t) off (b.take 16) (ringWrite (.tlm t) (off + 16) (b.drop 16) s)

/-- One record is written, counted and tallied. -/
def tlmOut (t : Fin 8) (x : TlmRec) (id : Nat) (s : State) : State :=
  entryWritten (.tlm t) x.units 0x87 x.units (tlmPlaced t x id s)

theorem tlmOut_eq (t : Fin 8) (x : TlmRec) (id : Nat) (s : State) : tlmOut t x id s = ringTally (.tlm t) (tlmPut t x id s) := rfl

section
variable {t : Fin 8} {x : TlmRec} {id : Nat} {s : State}

theorem tlmPlaced_only : Only [.out, .lmem] s (tlmPlaced t x id s) :=
  ringWrite_only (ringWrite_only' _ _ _ s) (by decide) (by decide)

theorem tlmOut_only : Only [.out, .pcie, .rings, .lmem, .counters] s (tlmOut t x id s) :=
  (tlmPlaced_only.mono (by decide)).of (entryWritten_only _ _ _).only (by decide)

theorem tlmOut_rings (hen : ringEn s (.tlm t) = true) :
    getRing (tlmOut t x id s) (.tlm t) = (getRing s (.tlm t)).afterEntry s.clk (ringMod s (.tlm t)) x.units ∧
    ∀ q, q ≠ .tlm t → getRing (tlmOut t x id s) q = getRing s q :=
  entryWritten_after _ _ _ tlmPlaced_only (by decide) (by decide) (by decide) (by simp) hen

/-- The place of the next unit. -/
def tlmAddr (s : State) (t : Fin 8) : Nat :=
  ringAddr s (.tlm t) + 64 * ((getRing s (.tlm t)).prod.toNat % ringN s (.tlm t))

theorem tlmOut_host (hl : localMode s = false) : let b := tlmBytes s t x id (getRing s (.tlm t)).prod.toNat;
    (tlmOut t x id s).lmem = s.lmem ∧ ∃ o, (tlmOut t x id s).out =
      s.out ++ [.hostWrite (tlmAddr s t + 16) (b.drop 16), .hostWrite (tlmAddr s t) (b.take 16)] ++ o := by
  intro b
  have hplaced : tlmPlaced t x id s = emit (.hostWrite (tlmAddr s t) (b.take 16)) (emit (.hostWrite (tlmAddr s t + 16) (b.drop 16)) s) := by
    unfold tlmPlaced
    dsimp only
    rw [ringWrite_host hl, ringWrite_host (by rw [localMode_emit]; exact hl)]
    rfl
  obtain ⟨o, ho⟩ := entryWritten_out (r := .tlm t) (s := tlmPlaced t x id s) x.units 0x87 x.units
  refine ⟨?_, o, ?_⟩
  · rw [tlmOut, (entryWritten_only _ _ _).only .lmem (by decide), hplaced]; rfl
  · rw [tlmOut, ho, hplaced]; simp [emit]

theorem tlmOut_local (hl : localMode s = true) : let b := tlmBytes s t x id (getRing s (.tlm t)).prod.toNat;
    (tlmOut t x id s).out = s.out ∧
    (tlmOut t x id s).lmem = Memory.write (Memory.write s.lmem (tlmAddr s t + 16) (b.drop 16)) (tlmAddr s t) (b.take 16) := by
  intro b
  have hfirst := ringWrite_only' (.tlm t) (64 * ((getRing s (.tlm t)).prod.toNat % ringN s (.tlm t)) + 16) (b.drop 16) s
  have hmode1 := (hfirst.localMode (by decide)).trans hl
  have hmode : localMode (tlmPlaced t x id s) = true := (tlmPlaced_only.localMode (by decide)).trans hl
  refine ⟨?_, ?_⟩
  · rw [tlmOut, (entryWritten_local _ _ _ hmode).1]
    exact (ringWrite_local_out hmode1 _ _ _).trans (ringWrite_local_out hl _ _ _)
  · rw [tlmOut, (entryWritten_only _ _ _).only .lmem (by decide)]
    refine (ringWrite_local_lmem hmode1 _ _ _).trans ?_
    rw [ringWrite_local_lmem hl, hfirst.ringAddr (by decide)]
    rfl

end

/-! ### The next due record -/

/-- Units before the ring's end. -/
def tlmLeft (s : State) (t : Fin 8) : Nat := ringN s (.tlm t) - (getRing s (.tlm t)).prod.toNat % ringN s (.tlm t)

/-- A PAD record goes out where the next record does not fit before the ring's end and the PAD has room. -/
def tlmPadded (t : Fin 8) (x : TlmRec) (v : State) : State :=
  if tlmLeft v t < x.units ∧ tlmLeft v t ≤ tlmRoom v t then tlmOut t (padRec v (tlmLeft v t)) x.id v else v

/-- A record that has gone out waits for its acknowledgement. -/
def tlmSent (x : TlmRec) (s : State) : State :=
  { s with tlm := { s.tlm with recs := s.tlm.recs.map fun y => if y = x then { y with due := false, wrote := true } else y } }

/-- The record goes out. -/
def tlmGone (t : Fin 8) (x : TlmRec) (w : State) : State :=
  drainDone x (tlmSent x (modRing (.tlm t) (fun g => { g with written := max g.written (x.id + 1) }) (tlmOut t x x.id w)))

/-- The record that ring t writes next. -/
def tlmDue (t : Fin 8) (v : State) : Option TlmRec := v.tlm.recs.find? fun x => x.ring == some t && x.due

section
variable {t : Fin 8} {s : State}

theorem tlmWrite_idle (h : tlmDue t (tlmGather t s) = none ∨ ringReady (tlmGather t s) (.tlm t) = false) :
    tlmWrite t s = tlmGather t s := by
  unfold tlmWrite
  dsimp only
  split
  · rfl
  case h_2 x hx =>
    refine if_pos ?_
    rcases h with h | h
    · exact absurd (hx.symm.trans h) (by simp)
    · simp [h]

theorem ringN_tlmPadded (x : TlmRec) (v : State) : ringN (tlmPadded t x v) (.tlm t) = ringN v (.tlm t) := by
  unfold tlmPadded
  split
  · exact tlmOut_only.ringN (by decide) _
  · rfl

theorem tlmWrite_due {x : TlmRec} (hx : tlmDue t (tlmGather t s) = some x) (hr : ringReady (tlmGather t s) (.tlm t) = true) :
    let w := tlmPadded t x (tlmGather t s)
    tlmWrite t s = if x.units ≤ tlmLeft w t ∧ x.units ≤ tlmRoom w t then tlmGone t x w else w := by
  intro w
  unfold tlmWrite
  dsimp only
  unfold tlmDue at hx
  rw [hx]
  dsimp only
  rw [if_neg (by simp [hr])]
  have hn : tlmLeft w t = ringN (tlmGather t s) (.tlm t) - w.rings.tlm[t].prod.toNat % ringN (tlmGather t s) (.tlm t) := by
    rw [tlmLeft, ringN_tlmPadded]; rfl
  rw [hn]
  rfl

end

/-! ### What the record that goes out leaves -/

section
variable {t : Fin 8} {x : TlmRec} {w : State}

theorem drainDone_other (h : x.typ ≠ 5) (s : State) : drainDone x s = s := if_pos h

theorem tlmGone_parts : Only [.rings, .tlm, .mon] (tlmOut t x x.id w) (tlmGone t x w) :=
  drainDone_only (tlm_only (modRing_only (Only.refl _ _) (by decide)) (by decide) _) (by decide)

theorem tlmGone_only : Only [.out, .pcie, .rings, .tlm, .lmem, .counters, .mon] w (tlmGone t x w) :=
  (tlmOut_only.mono (by decide)).of tlmGone_parts.only (by decide)

theorem tlmGone_rings (q : RingId) : getRing (tlmGone t x w) q =
    getRing (modRing (.tlm t) (fun g => { g with written := max g.written (x.id + 1) }) (tlmOut t x x.id w)) q :=
  ((drainDone_only (Only.refl [.mon] _) (by decide)).getRing (by decide) q).trans (by cases q <;> rfl)

theorem tlmGone_ring (hen : ringEn w (.tlm t) = true) : getRing (tlmGone t x w) (.tlm t) =
    { (getRing w (.tlm t)).afterEntry w.clk (ringMod w (.tlm t)) x.units with
      written := max (getRing w (.tlm t)).written (x.id + 1) } := by
  rw [tlmGone_rings, getRing_modRing_same, (tlmOut_rings hen).1]
  rfl

theorem tlmGone_others (hen : ringEn w (.tlm t) = true) {q : RingId} (hq : q ≠ .tlm t) :
    getRing (tlmGone t x w) q = getRing w q := by
  rw [tlmGone_rings, getRing_modRing_ne hq, (tlmOut_rings hen).2 q hq]

theorem tlmGone_recs : (tlmGone t x w).tlm.recs =
    w.tlm.recs.map (fun y => if y = x then { y with due := false, wrote := true } else y) := by
  have hdrain : (tlmGone t x w).tlm = _ := (drainDone_only (Only.refl [.mon] _) (by decide)).only .tlm (by decide)
  rw [hdrain]
  exact congrArg (fun l : Tlm => l.recs.map _) (tlmOut_only.only .tlm (by decide))

theorem tlmGone_mon (h : x.typ ≠ 5) : (tlmGone t x w).mon = w.mon := by
  unfold tlmGone
  rw [drainDone_other h]
  exact tlmOut_only.only .mon (by decide)

theorem tlmGone_out : (tlmGone t x w).out = (tlmOut t x x.id w).out := tlmGone_parts.only .out (by decide)

theorem tlmGone_lmem : (tlmGone t x w).lmem = (tlmOut t x x.id w).lmem := tlmGone_parts.only .lmem (by decide)

end

/-! ### The ring's end -/

theorem ringN_pos (s : State) (r : RingId) : 0 < ringN s r := Nat.two_pow_pos _

theorem ringN_dvd (s : State) (r : RingId) : ringN s r ∣ 2 ^ 32 := by
  have h : bits (ringCfg s r) 24 4 < 16 := Nat.mod_lt _ (by decide)
  exact Nat.pow_dvd_pow 2 (by omega)

theorem ringN_lt (s : State) (r : RingId) : ringN s r < 2 ^ 32 := by
  have h : bits (ringCfg s r) 24 4 < 16 := Nat.mod_lt _ (by decide)
  exact Nat.pow_lt_pow_right (by decide) (by omega)

theorem add_left_mod {n : Nat} (hn : 0 < n) (a : Nat) : (a + (n - a % n)) % n = 0 := by
  have hlt := Nat.mod_lt a hn
  have h : a + (n - a % n) = n * (a / n + 1) := by
    have := Nat.div_add_mod a n
    rw [Nat.mul_add, Nat.mul_one]
    omega
  rw [h, Nat.mul_mod_right]

/-- After the units left, the next place is the ring's first. -/
theorem prod_after_left {n : Nat} (hn : 0 < n) (hd : n ∣ 2 ^ 32) (p : Word) :
    (p + BitVec.ofNat 32 (n - p.toNat % n)).toNat % n = 0 := by
  rw [BitVec.toNat_add, BitVec.toNat_ofNat, Nat.add_mod_mod, Nat.mod_mod_of_dvd _ hd, add_left_mod hn]

/-- The units in use grow by those written while they stay below 2^32. -/
theorem used_after {p c : Word} {k : Nat} (h : (p - c).toNat + k < 2 ^ 32) :
    (p + BitVec.ofNat 32 k - c).toNat = (p - c).toNat + k := by
  have hk : k < 2 ^ 32 := by omega
  have hcomm : p + BitVec.ofNat 32 k - c = (p - c) + BitVec.ofNat 32 k := by
    rw [BitVec.sub_eq_add_neg, BitVec.sub_eq_add_neg, BitVec.add_assoc, BitVec.add_assoc, BitVec.add_comm (BitVec.ofNat 32 k)]
  rw [hcomm, BitVec.toNat_add, BitVec.toNat_ofNat, Nat.mod_eq_of_lt hk, Nat.mod_eq_of_lt h]

section
variable {t : Fin 8} {v w : State}

/-- Behind a PAD record over the units left, the whole ring lies before the next place and its room has shrunk by them. -/
theorem room_after_pad (hprod : (getRing w (.tlm t)).prod = (getRing v (.tlm t)).prod + BitVec.ofNat 32 (tlmLeft v t))
    (hcons : (getRing w (.tlm t)).cons = (getRing v (.tlm t)).cons) (hN : ringN w (.tlm t) = ringN v (.tlm t))
    (hroom : tlmLeft v t ≤ tlmRoom v t) :
    tlmLeft w t = ringN v (.tlm t) ∧ tlmRoom w t = tlmRoom v t - tlmLeft v t := by
  have hpos := ringN_pos v (.tlm t)
  have hlt := ringN_lt v (.tlm t)
  have hleft : 0 < tlmLeft v t := Nat.sub_pos_of_lt (Nat.mod_lt _ hpos)
  have hroom' : tlmRoom v t = ringN v (.tlm t) - ((getRing v (.tlm t)).prod - (getRing v (.tlm t)).cons).toNat := rfl
  have hroomW : tlmRoom w t = ringN w (.tlm t) - ((getRing w (.tlm t)).prod - (getRing w (.tlm t)).cons).toNat := rfl
  refine ⟨?_, ?_⟩
  · unfold tlmLeft at hprod ⊢
    rw [hN, hprod, prod_after_left hpos (ringN_dvd _ _), Nat.sub_zero]
  · rw [hroomW, hN, hprod, hcons, used_after (by omega)]
    omega

end

/-! ### The statement -/

theorem tlmGather_frame (t : Fin 8) (s : State) :
    Only [.out, .pcie, .rings, .tlm, .lmem, .lines, .mon, .evt, .counters, .own] s (tlmGather t s) :=
  tlmGather_only (Only.refl _ s) (by decide) (by decide) (by decide) (by decide) (by decide) (by decide) (by decide)

theorem tlmGather_other {t : Fin 8} {s : State} (h5 : routeOfType s 5 ≠ t) (h6 : routeOfType s 6 ≠ t) : tlmGather t s = s := by
  unfold tlmGather
  rw [if_neg h5]
  exact if_neg fun h => h6 h.1

theorem exec_telemetryRecordWrite (t : Fin 8) (s : State) : exec (.telemetryRecordWrite t) s = .next (tlmWrite t s) := rfl

theorem take_two {α : Type} (l o : List α) (a b : α) : (l ++ [a, b] ++ o).take (l.length + 2) = l ++ [a, b] :=
  List.take_left' (by simp)

/-- Settles O22: `tlmWrite` by room and units left, with `room_after_pad` behind a PAD record. -/
theorem telemetryRecordWriting : Obligations.TelemetryRecordWriting := by
  intro t s v g n left room due addr unsig
  have hv : v = tlmGather t s := rfl
  clear_value v
  rw [exec_telemetryRecordWrite]
  refine ⟨⟨_, rfl, ?_⟩, fun h5 h6 => hv.trans (tlmGather_other h5 h6), fun h => ?_, fun x hx hr => ?_⟩
  · exact (tlmWrite_only (Only.refl _ s) (by decide) (by decide) (by decide) (by decide) (by decide) (by decide) (by decide)
      (by decide) (by decide) (by decide)).only
  · rw [tlmWrite_idle (by rw [← hv]; exact h), ← hv]
  have hdue := tlmWrite_due (t := t) (s := s) (x := x) (by rw [← hv]; exact hx) (by rw [← hv]; exact hr)
  dsimp only at hdue
  rw [← hv] at hdue
  have hen := ringReady_en hr
  refine ⟨fun hroom hpad => ?_, ?fits, ?behindPad⟩
  · have hno : tlmPadded t x v = v := if_neg fun h => Nat.not_lt.2 h.2 (hpad h.1)
    rw [hdue, hno, if_neg fun h => Nat.not_le.2 hroom h.2]
  case fits =>
    intro hleft hroom b
    have hno : tlmPadded t x v = v := if_neg fun h => Nat.not_lt.2 hleft h.1
    rw [hno, if_pos ⟨hleft, hroom⟩] at hdue
    refine ⟨tlmGone t x v, by rw [hdue], fun hl => ?_, fun hl => ?_, tlmGone_ring hen, fun q hq => tlmGone_others hen hq,
      tlmGone_recs, tlmGone_mon, tlmGone_only.only⟩
    · obtain ⟨hmem, o, ho⟩ := tlmOut_host (t := t) (x := x) (id := x.id) hl
      rw [tlmGone_lmem, tlmGone_out, hmem, ho]
      exact ⟨rfl, take_two _ _ _ _⟩
    · obtain ⟨ho, hmem⟩ := tlmOut_local (t := t) (x := x) (id := x.id) hl
      rw [tlmGone_lmem, tlmGone_out, hmem, ho]
      exact ⟨rfl, rfl⟩
  case behindPad =>
    intro hleft hroom hn pad
    have hpadded : tlmPadded t x v = tlmOut t (padRec v left) x.id v := if_pos ⟨hleft, hroom⟩
    rw [hpadded] at hdue
    have hrings := tlmOut_rings (t := t) (x := padRec v left) (id := x.id) hen
    have honly := tlmOut_only (t := t) (x := padRec v left) (id := x.id) (s := v)
    have hhost := fun hl => tlmOut_host (t := t) (x := padRec v left) (id := x.id) (s := v) hl
    have hlocal := fun hl => tlmOut_local (t := t) (x := padRec v left) (id := x.id) (s := v) hl
    generalize tlmOut t (padRec v left) x.id v = w at hdue hrings honly hhost hlocal
    obtain ⟨hring, hothers⟩ := hrings
    obtain ⟨hleftW, hroomW⟩ := room_after_pad (t := t) (v := v) (w := w) (by rw [hring]; rfl) (by rw [hring]; rfl)
      (honly.ringN (by decide) _) hroom
    have henW : ringEn w (.tlm t) = true := (honly.ringEn (by decide) _).trans hen
    have hfits : x.units ≤ tlmLeft w t ∧ x.units ≤ tlmRoom w t ↔ left + x.units ≤ room := by
      rw [hleftW, hroomW]
      change x.units ≤ n ∧ x.units ≤ room - left ↔ _
      omega
    by_cases hfit : left + x.units ≤ room
    · rw [if_pos (hfits.2 hfit)] at hdue
      have hgone := tlmGone_ring (x := x) henW
      rw [hring, honly.clk (by decide), honly.ringMod (by decide)] at hgone
      refine ⟨tlmGone t x w, by rw [hdue], fun hl => ?_, fun hl => ?_, fun q hq => (tlmGone_others henW hq).trans (hothers q hq),
        fun h => absurd hfit (Nat.not_le.2 h), fun _ => ⟨?_, ?_, ?_, ?_⟩, ?_⟩
      · obtain ⟨hmem, o, ho⟩ := hhost hl
        obtain ⟨hmem2, o2, ho2⟩ := tlmOut_host (t := t) (x := x) (id := x.id) ((honly.localMode (by decide)).trans hl)
        rw [tlmGone_lmem, tlmGone_out, hmem2, hmem, ho2, ho, List.append_assoc, List.append_assoc]
        exact ⟨rfl, take_two _ _ _ _⟩
      · rw [tlmGone_out, (tlmOut_local ((honly.localMode (by decide)).trans hl)).1, (hlocal hl).1]
      · rw [hgone]
        show g.prod + BitVec.ofNat 32 left + BitVec.ofNat 32 x.units = _
        rw [BitVec.add_assoc, BitVec.ofNat_add]
      · rw [hgone]; rfl
      · rw [hgone]; rfl
      · rw [tlmGone_recs, honly.only .tlm (by decide)]
      · exact ((honly.mono (by decide)).of tlmGone_only.only (by decide)).only
    · rw [if_neg (mt hfits.1 hfit)] at hdue
      refine ⟨w, by rw [hdue], fun hl => ?_, fun hl => (hlocal hl).1, hothers, fun _ => ⟨honly.only .tlm (by decide), hring⟩,
        fun h => absurd h hfit, (honly.mono (by decide)).only⟩
      obtain ⟨hmem, o, ho⟩ := hhost hl
      rw [hmem, ho]
      exact ⟨rfl, take_two _ _ _ _⟩

end Sys2Proof.Machine
end

section
/-! SUPPORT. The two-wire target, the PCI Express attachment and the clocks: transactions by the place that they address, pending
vectors that go out, lanes at the loss and the return of the reference clock; and the statements about them. -/

namespace Sys2Proof.Machine

open Sys2Proof

/-! ### The two-wire target -/

theorem wireAt_bar0 (s : State) {a : Nat} (ha : a < 0x40000) : wireAt s a = .bar0 := by
  have hplace : wirePlace a = .bar0 := if_pos ha
  simp [wireAt, wireHidden, hplace]

theorem wirePlace_memory {a : Nat} (h1 : 0x80000 ≤ a) (h2 : a < 0x90000) : wirePlace a = .memory := by
  unfold wirePlace
  rw [if_neg (by omega), if_neg (by omega), if_pos ⟨h1, h2⟩]

theorem wireAt_memory {s : State} {a : Nat} (hl : localMode s = true) (h1 : 0x80000 ≤ a) (h2 : a < 0x90000) :
    wireAt s a = .memory := by
  simp [wireAt, wireHidden, wirePlace_memory h1 h2, hl]

theorem wireAt_hidden {s : State} {a : Nat} (hl : localMode s = false) (h1 : 0x80000 ≤ a) (h2 : a < 0x90000) :
    wireAt s a = .none := by
  simp [wireAt, wireHidden, wirePlace_memory h1 h2, hl]

/-- A transaction within BAR0 meets no hidden place. -/
theorem wireMeetsHidden_bar0 (s : State) {a len : Nat} (h : a + len ≤ 0x40000) : wireMeetsHidden s a len = false := by
  have h1 : ¬ 0x40000 < a + len := by omega
  have h2 : ¬ 0x80000 < a + len := by omega
  simp [wireMeetsHidden, h1, h2]

theorem wireMeetsHidden_local {s : State} (hl : localMode s = true) (a len : Nat) : wireMeetsHidden s a len = false := by
  simp [wireMeetsHidden, hl]

theorem wireMeetsHidden_memory {s : State} {a len : Nat} (hl : localMode s = false) (h1 : 0x80000 ≤ a) (h2 : a + len ≤ 0x90000)
    (h3 : 0 < len) : wireMeetsHidden s a len = true := by
  have h4 : a < 0x90000 := by omega
  have h5 : 0x80000 < a + len := by omega
  simp [wireMeetsHidden, hl, h3, h4, h5]

theorem wireHead_aligned (s : State) {a : Nat} (ha : a % 4 = 0) (len : Nat) : wireHead s a len = 0 := by
  unfold wireHead
  rw [ha]
  split
  · simp
  · rfl

theorem wireHead_bytes {s : State} {a : Nat} (h : wireAt s a = .memory ∨ wireAt s a = .none) (len : Nat) : wireHead s a len = 0 := by
  unfold wireHead
  exact if_neg (by rcases h with h | h <;> simp [h])

theorem wireWrite_plain {a : Nat} {d : List Byte} {s : State} (hp : pathOk s .twoWire = true)
    (hm : wireMeetsHidden s a d.length = false) (hh : wireHead s a d.length = 0) : wireWrite a d s = wireWriteFrom a d s := by
  unfold wireWrite
  rw [if_neg (by simp [hp])]
  simp [hm, hh]

theorem wireRead_plain {a len : Nat} {s : State} (hp : pathOk s .twoWire = true)
    (hm : wireMeetsHidden s a len = false) (hh : wireHead s a len = 0) :
    wireRead a len s = emit (.readBytes (wireReadFrom len a len s).1) (wireReadFrom len a len s).2 := by
  unfold wireRead
  rw [if_neg (by simp [hp])]
  simp [hm, hh, zeros]

theorem wireWrite_hidden {a : Nat} {d : List Byte} {s : State} (hp : pathOk s .twoWire = true)
    (hm : wireMeetsHidden s a d.length = true) (hh : wireHead (wireError 1 s) a d.length = 0) :
    wireWrite a d s = wireWriteFrom a d (wireError 1 s) := by
  unfold wireWrite
  rw [if_neg (by simp [hp])]
  simp [hm, hh]

theorem wireRead_hidden {a len : Nat} {s : State} (hp : pathOk s .twoWire = true)
    (hm : wireMeetsHidden s a len = true) (hh : wireHead (wireError 1 s) a len = 0) :
    wireRead a len s = emit (.readBytes (wireReadFrom len a len (wireError 1 s)).1) (wireReadFrom len a len (wireError 1 s)).2 := by
  unfold wireRead
  rw [if_neg (by simp [hp])]
  simp [hm, hh, zeros]

/-- Bytes of the ring memory, one after another. -/
theorem wireWriteFrom_memory {a c : Nat} {d : List Byte} {s : State} (hl : localMode s = true) (hc : s.rst.ctrlReset = false)
    (ha : a = c + 0x80000) (h2 : a + d.length ≤ 0x90000) : wireWriteFrom a d s = { s with lmem := Memory.write s.lmem c d } := by
  induction d generalizing a c s with
  | nil => unfold wireWriteFrom; rfl
  | cons b d ih =>
    have hlen : a + (d.length + 1) ≤ 0x90000 := h2
    unfold wireWriteFrom
    rw [wireAt_memory hl (by omega) (by omega)]
    dsimp only
    rw [if_neg (by simp [hc]), Nat.sub_eq_of_eq_add ha]
    exact ih (c := c + 1) (s := { s with lmem := Memory.set s.lmem c b }) hl hc (by omega) (by omega)

theorem wireReadFrom_memory {a c n : Nat} {s : State} (hl : localMode s = true) (ha : a = c + 0x80000) (h2 : a + n ≤ 0x90000) :
    wireReadFrom n a n s = ((List.range n).map fun i => Memory.get s.lmem (c + i), s) := by
  induction n generalizing a c with
  | zero => rfl
  | succ n ih =>
    unfold wireReadFrom
    rw [if_neg (Nat.succ_ne_zero n), wireAt_memory hl (by omega) (by omega)]
    dsimp only
    rw [Nat.add_sub_cancel, ih (c := c + 1) (by omega) (by omega), List.range_succ_eq_map, List.map_cons, List.map_map,
      Nat.sub_eq_of_eq_add ha]
    simp only [Function.comp_def, Nat.add_zero, Nat.succ_eq_add_one, Nat.add_assoc, Nat.add_comm 1]

theorem wireWriteFrom_hidden {a : Nat} {d : List Byte} {s : State} (hl : localMode s = false) (h1 : 0x80000 ≤ a)
    (h2 : a + d.length ≤ 0x90000) : wireWriteFrom a d s = s := by
  induction d generalizing a with
  | nil => unfold wireWriteFrom; rfl
  | cons b d ih =>
    have hlen : a + (d.length + 1) ≤ 0x90000 := h2
    unfold wireWriteFrom
    rw [wireAt_hidden hl h1 (by omega)]
    exact ih (by omega) (by omega)

theorem wireReadFrom_hidden {a n : Nat} {s : State} (hl : localMode s = false) (h1 : 0x80000 ≤ a) (h2 : a + n ≤ 0x90000) :
    wireReadFrom n a n s = (zeros n, s) := by
  induction n generalizing a with
  | zero => rfl
  | succ n ih =>
    unfold wireReadFrom
    rw [if_neg (by omega), wireAt_hidden hl h1 (by omega)]
    dsimp only
    rw [Nat.add_sub_cancel, ih (by omega) (by omega)]
    rfl

/-- One word within BAR0. -/
theorem wireWriteFrom_word {a : Nat} {b0 b1 b2 b3 : Byte} {s : State} (ha : a < 0x40000) :
    wireWriteFrom a [b0, b1, b2, b3] s = writeWord a (BitVec.ofNat 32 (ofBytesLE [b0, b1, b2, b3])) s := by
  unfold wireWriteFrom
  rw [wireAt_bar0 s ha]
  dsimp only
  rw [if_pos rfl]
  unfold wireWriteFrom
  rfl

/-- Settles O25, by the place addressed. -/
theorem twoWireTransactions : Obligations.TwoWireTransactions := by
  refine ⟨fun a b0 b1 b2 b3 s hp ha hlen => ?_, fun a d s hp hl hc hwf h1 h2 => ?_, fun a n s hp hl h1 h2 => ?_⟩
  · refine congrArg Host.Outcome.next ?_
    change wireWrite a _ s = hostWriteReg .twoWire a 4 _ s
    rw [hostWriteReg_word _ hp ha, wireWrite_plain hp (wireMeetsHidden_bar0 s hlen) (wireHead_aligned s ha _)]
    exact wireWriteFrom_word (by omega)
  · obtain ⟨c, hca⟩ : ∃ c, a = c + 0x80000 := ⟨_, (Nat.sub_add_cancel h1).symm⟩
    have hw : wireWrite a d s = { s with lmem := Memory.write s.lmem c d } := by
      rw [wireWrite_plain hp (wireMeetsHidden_local hl _ _), wireWriteFrom_memory hl hc hca h2]
      cases d with
      | nil => simp [wireHead]
      | cons b d =>
        have hlen : a + (d.length + 1) ≤ 0x90000 := h2
        exact wireHead_bytes (.inl (wireAt_memory hl h1 (by omega))) _
    rw [Nat.sub_eq_of_eq_add hca]
    refine ⟨_, congrArg Host.Outcome.next hw, fun i hi => ?_, fun b hb => ?_, (lmem_only (Only.refl _ s) (by decide)).only⟩
    · exact Memory.get_write_inside hwf _ d i hi
    · exact Memory.get_write_outside hwf _ d b hb
  · obtain ⟨c, hca⟩ : ∃ c, a = c + 0x80000 := ⟨_, (Nat.sub_add_cancel h1).symm⟩
    have hr : wireRead a n s = emit (.readBytes ((List.range n).map fun i => Memory.get s.lmem (c + i))) s := by
      rw [wireRead_plain hp (wireMeetsHidden_local hl _ _), wireReadFrom_memory hl hca h2]
      cases n with
      | zero => simp [wireHead]
      | succ n => exact wireHead_bytes (.inl (wireAt_memory hl h1 (by omega))) _
    rw [Nat.sub_eq_of_eq_add hca]
    exact ⟨_, congrArg Host.Outcome.next hr, rfl, (emit_only (Only.refl _ s) (by decide)).only⟩

/-- Settles O26: a partial word ends in cause 0, hidden ring memory in cause 1, and an unpowered target does nothing. -/
theorem twoWireErrors : Obligations.TwoWireErrors := by
  refine fun a d s => ⟨fun hp ha h1 h2 h3 => ⟨?_, ?_⟩, fun hp hl h1 h2 h3 => ?_, fun hp => ⟨?_, ?_⟩⟩
  · refine congrArg Host.Outcome.next ((wireWrite_plain hp (wireMeetsHidden_bar0 s (by omega)) (wireHead_aligned s ha _)).trans ?_)
    rcases d with _ | ⟨b0, _ | ⟨b1, _ | ⟨b2, _ | ⟨b3, d⟩⟩⟩⟩
    · simp at h2
    · unfold wireWriteFrom; rw [wireAt_bar0 s h1]; rfl
    · unfold wireWriteFrom; rw [wireAt_bar0 s h1]; rfl
    · unfold wireWriteFrom; rw [wireAt_bar0 s h1]; rfl
    · simp at h3; omega
  · refine congrArg Host.Outcome.next ((wireRead_plain hp (wireMeetsHidden_bar0 s (by omega)) (wireHead_aligned s ha _)).trans ?_)
    have hread : wireReadFrom d.length a d.length s = (zeros d.length, wireError 0 s) := by
      obtain ⟨k, hk⟩ := Nat.exists_eq_succ_of_ne_zero (Nat.pos_iff_ne_zero.1 h2)
      rw [hk] at h3 ⊢
      unfold wireReadFrom
      rw [if_neg (by omega), wireAt_bar0 s h1]
      exact if_pos h3
    rw [hread]
    rfl
  · have hl' : localMode (wireError 1 s) = false := (localMode_congr (raise_straps _)).trans hl
    have hhead : wireHead (wireError 1 s) a d.length = 0 := wireHead_bytes (.inr (wireAt_hidden hl' h1 (by omega))) _
    have hmeets := wireMeetsHidden_memory hl h1 h2 h3
    refine ⟨congrArg Host.Outcome.next ((wireWrite_hidden hp hmeets hhead).trans (wireWriteFrom_hidden hl' h1 h2)), ?_⟩
    refine congrArg Host.Outcome.next ((wireRead_hidden hp hmeets hhead).trans ?_)
    rw [wireReadFrom_hidden hl' h1 h2]
    rfl
  · exact congrArg Host.Outcome.next (if_pos (by simp [hp]))
  · exact congrArg Host.Outcome.next (if_pos (by simp [hp]))

/-! ### Pending vectors -/

/-- A vector that is pending and may go out. -/
def msixGoes (s : State) (v : Nat) : Bool :=
  bit s.pcie.pend v && !bit (reg s (0x280C + 16 * v)) 0 && busOk s && !localMode s

theorem msixFlush_eq_self {s : State} (h : ∀ v, msixGoes s v = false) : msixFlush s = s := by
  unfold msixFlush
  induction List.range 32 with
  | nil => rfl
  | cons v l ih =>
    rw [List.foldl_cons, if_neg (by rw [← msixGoes, h v]; decide)]
    exact ih

/-- A pending vector that goes out leaves everything of the function but its pending bit. -/
theorem msix_pcie (v : Nat) (s : State) : ∃ p, (msix v s).pcie = { s.pcie with pend := p } := by
  unfold msix
  split
  · exact ⟨_, rfl⟩
  · split
    · exact ⟨_, rfl⟩
    · exact ⟨_, rfl⟩

theorem msixFlush_pcie (s : State) : (msixFlush s).pcie = { s.pcie with pend := (msixFlush s).pcie.pend } := by
  have h : ∃ p, (msixFlush s).pcie = { s.pcie with pend := p } := by
    unfold msixFlush
    induction List.range 32 generalizing s with
    | nil => exact ⟨_, rfl⟩
    | cons v l ih =>
      rw [List.foldl_cons]
      split
      · obtain ⟨p, hp⟩ := ih (msix v { s with pcie := { s.pcie with pend := s.pcie.pend &&& ~~~(BitVec.ofNat 32 (2 ^ v)) } })
        obtain ⟨q, hq⟩ := msix_pcie v { s with pcie := { s.pcie with pend := s.pcie.pend &&& ~~~(BitVec.ofNat 32 (2 ^ v)) } }
        exact ⟨p, by rw [hp, hq]⟩
      · exact ih s
  obtain ⟨p, hp⟩ := h
  rw [hp]

theorem pcie_only {ps : List Part} {a s : State} (h : Only ps a s) (p1 : Part.pcie ∈ ps) (x : Pcie) :
    Only ps a { s with pcie := x } := by
  simp only [only_mk, h, p1, true_or, or_true, and_self]

theorem msixGoes_none {s : State} (h : s.pcie.pend = 0 ∨ busOk s = false ∨ localMode s = true) (v : Nat) : msixGoes s v = false := by
  unfold msixGoes
  rcases h with h | h | h
  · simp [h, bit]
  · simp [h]
  · simp [h]

/-- The link trained to a form. -/
def linkTrained (f : LinkForm) (s : State) : State :=
  { s with pcie := { s.pcie with link := true, refOk := true, form := f } }

/-- The bits that a configuration write sets and the error status that it clears. -/
def configured (bme mse d3 : Bool) (ctl : PcieCtl) (w1c : Word) (s : State) : State :=
  { s with pcie := { s.pcie with bme := bme, mse := mse, d3hot := d3, ctl := ctl, aer := s.pcie.aer &&& ~~~w1c } }

/-- Settles O27: the link and the configuration bits are taken, and `msixFlush` sends what may go out. -/
theorem pcieAttachment : Obligations.PcieAttachment := by
  refine ⟨fun s => rfl, fun f s => ⟨fun h => ?_, fun hl hp hc => ?_⟩, fun bme mse d3 ctl w1c s => ⟨fun h => ?_, fun h => ?_⟩⟩
  · exact congrArg Host.Outcome.next (if_pos (by rcases h with h | h | h <;> simp [h]))
  · have hexec : exec (.pcieLinkUp f) s = .next (msixFlush (linkTrained f s)) :=
      congrArg Host.Outcome.next (if_neg (by simp [hl, hp, hc]))
    refine ⟨_, hexec, msixFlush_pcie _, fun hz => ?_, ?_⟩
    · have hself := msixFlush_eq_self (msixGoes_none (s := linkTrained f s) (.inl hz))
      rw [hself]
      exact ⟨hz, rfl⟩
    · exact (msixFlush_only (pcie_only (Only.refl _ s) (by decide) _) (by decide) (by decide)).only
  · exact congrArg Host.Outcome.next (if_neg (by simp [h]))
  · have hexec : exec (.pcieConfigWrite bme mse d3 ctl w1c) s = .next (msixFlush (configured bme mse d3 ctl w1c s)) :=
      congrArg Host.Outcome.next (if_pos h)
    refine ⟨_, hexec, msixFlush_pcie _, fun hz => ?_, ?_⟩
    · by_cases hl : localMode s = true
      · have hself := msixFlush_eq_self (msixGoes_none (s := configured bme mse d3 ctl w1c s) (.inr (.inr hl)))
        rw [hself]
        exact ⟨rfl, fun _ => rfl⟩
      · have hl' : s.straps.eff.attach = false := by simpa [localMode] using hl
        have hself : msixFlush (configured bme mse d3 ctl w1c s) = configured bme mse d3 ctl w1c s := by
          refine msixFlush_eq_self (msixGoes_none ?_)
          rcases hz with hz | hz | hz
          · exact .inr (.inl (by simp [busOk, configured, localMode, hl', hz]))
          · exact .inr (.inl (by simp [busOk, configured, localMode, hl', hz]))
          · exact .inl hz
        rw [hself]
        exact ⟨rfl, fun _ => rfl⟩
    · exact (msixFlush_only (pcie_only (Only.refl _ s) (by decide) _) (by decide) (by decide)).only

end Sys2Proof.Machine
end

section
/-! SUPPORT. One lane at a time: what an operation of a lane leaves of that lane, of the other lanes and of the latched events; the loss
and the return of the reference clock. -/

namespace Sys2Proof.Machine

open Sys2Proof

/-! ### Latched events stay -/

/-- No source is masked or unmasked, and every source that was latched is latched. -/
structure LatchesStay (s t : State) : Prop where
  masks : t.evt.masks = s.evt.masks
  latched : ∀ src, (∃ l ∈ s.evt.latches, l.src = src) → ∃ l ∈ t.evt.latches, l.src = src

theorem LatchesStay.refl (s : State) : LatchesStay s s := ⟨rfl, fun _ h => h⟩

theorem LatchesStay.trans {s t u : State} (h : LatchesStay s t) (k : LatchesStay t u) : LatchesStay s u :=
  ⟨k.masks.trans h.masks, fun src hs => k.latched src (h.latched src hs)⟩

theorem LatchesStay.of_evt {s t : State} (h : t.evt = s.evt) : LatchesStay s t := ⟨by rw [h], fun _ hs => by rw [h]; exact hs⟩

theorem LatchesStay.of_only {ps : List Part} {s t : State} (h : Only ps s t) (hp : Part.evt ∉ ps) : LatchesStay s t :=
  .of_evt (h.only .evt hp)

theorem LatchesStay.masked {s t : State} (h : LatchesStay s t) (src : Nat) : masked t src = masked s src := by
  unfold Machine.masked; rw [h.masks]

theorem raise_masks (src : Nat) (p : Word) (s : State) : (raise src p s).evt.masks = s.evt.masks := by
  unfold raise
  split
  · rfl
  · dsimp only
    split
    · simp [logEvent, apply_ite State.evt, apply_ite Evt.masks]
    · split <;> simp [logEvent]

theorem raise_latchesStay (src : Nat) (p : Word) (s : State) : LatchesStay s (raise src p s) := by
  refine ⟨raise_masks src p s, fun q ⟨l, hl, hs⟩ => ?_⟩
  cases hc : evtClass src with
  | none =>
    have hself : raise src p s = s := by unfold raise; rw [hc]
    exact ⟨l, by rw [hself]; exact hl, hs⟩
  | some cls =>
    obtain ⟨t, r, h⟩ := raise_latches (by rw [hc]; rfl : (evtClass src).isSome) p s
    rw [h]
    split
    · exact ⟨l, hl, hs⟩
    · split
      · exact ⟨_, List.mem_map_of_mem hl, by simpa using hs⟩
      · exact ⟨l, List.mem_append_left _ hl, hs⟩

theorem raiseLimited_latchesStay (src inst : Nat) (p : Word) (s : State) : LatchesStay s (raiseLimited src inst p s) := by
  have hrate : ∀ r, LatchesStay s { s with evt := { s.evt with rate := r } } := fun r => ⟨rfl, fun _ h => h⟩
  by_cases h : ∃ e, lastRaised src inst s = some e ∧ s.clk < e.2.2 + oneSecond
  · obtain ⟨e, he, hlt⟩ := h
    rw [raiseLimited_recent p he hlt]
    exact .refl s
  · obtain ⟨r, hr⟩ := raiseLimited_due p fun e he => Nat.not_lt.1 fun hlt => h ⟨e, he, hlt⟩
    rw [hr]
    exact (hrate r).trans (raise_latchesStay src p _)

/-- An event latched on the way is latched at the end. -/
theorem Latched.stays {src : Nat} {s u v t : State} (h : Latched src u v) (hu : LatchesStay s u) (hv : LatchesStay v t) :
    Latched src s t := fun hm => hv.latched src (h ((hu.masked src).trans hm))

theorem latched_lineSrc (n : Fin 8) {o : Nat} (ho : o < 0x20) (p : Word) (s : State) : Latched (lineSrc n o) s (raise (lineSrc n o) p s) :=
  latched_raise (evtClass_lineSrc_isSome n ho) p s

/-! ### One line lane -/

/-- The parts that operations of line lanes write on their way. -/
def laneParts : List Part := [.free, .out, .rings, .evt, .tlm, .own, .lines, .counters, .arb, .ocp]

/-- From s to t line lane n becomes l, no other line lane changes, what was latched stays latched, and nothing changes but parts that
operations of line lanes write. -/
structure LineStep (n : Fin 8) (s t : State) (l : Line) : Prop where
  line : t.lines[n] = l
  others : OtherLines n s t
  latches : LatchesStay s t
  only : Only laneParts s t

section
variable {n : Fin 8} {s t u : State} {l m : Line}

theorem LineStep.refl (n : Fin 8) (s : State) : LineStep n s s s.lines[n] := ⟨rfl, fun _ _ => rfl, .refl s, .refl _ s⟩

theorem LineStep.trans (h : LineStep n s t l) (k : LineStep n t u m) : LineStep n s u m :=
  ⟨k.line, fun i hi => (k.others i hi).trans (h.others i hi), h.latches.trans k.latches, h.only.of k.only.only fun _ hp => hp⟩

theorem LineStep.congr (h : LineStep n s t l) (e : l = m) : LineStep n s t m := e ▸ h

theorem LineStep.clk (h : LineStep n s t l) : t.clk = s.clk := h.only.clk (by decide)

theorem LineStep.of_only {ps : List Part} (h : LineStep n s t l) (k : Only ps t u)
    (w : Part.lines ∉ ps ∧ Part.evt ∉ ps ∧ ∀ p ∈ ps, p ∈ laneParts) : LineStep n s u l :=
  ⟨(line_of_lines (k.only .lines w.1) n).trans h.line, otherLines_of_lines h.others (k.only .lines w.1),
    h.latches.trans (.of_only k w.2.1), h.only.of k.only w.2.2⟩

theorem LineStep.raise (h : LineStep n s t l) (src : Nat) (p : Word) : LineStep n s (raise src p t) l :=
  ⟨(line_of_lines (raise_lines t) n).trans h.line, otherLines_of_lines h.others (raise_lines t),
    h.latches.trans (raise_latchesStay src p t), raise_only h.only (by decide) (by decide) (by decide)⟩

theorem LineStep.modLine (h : LineStep n s t l) (f : Line → Line) : LineStep n s (modLine n f t) (f l) :=
  h.trans ⟨(upd_get_self _ _ _).trans (congrArg f h.line), modLine_otherLines n f t, .of_evt rfl,
    modLine_only (Only.refl _ t) (by decide)⟩

theorem LineStep.modRx (h : LineStep n s t l) (f : LineRx → LineRx) : LineStep n s (modRx n f t) { l with rx := f l.rx } := h.modLine _
theorem LineStep.modEq (h : LineStep n s t l) (f : LineEq → LineEq) : LineStep n s (modEq n f t) { l with eq := f l.eq } := h.modLine _
theorem LineStep.modTx (h : LineStep n s t l) (f : LineTx → LineTx) : LineStep n s (modTx n f t) { l with tx := f l.tx } := h.modLine _
theorem LineStep.modFr (h : LineStep n s t l) (f : LineFrame → LineFrame) : LineStep n s (modFr n f t) { l with fr := f l.fr } :=
  h.modLine _

end

/-- The exchange of a lane dropped: the requester's procedure and the accepted REQUEST are gone. -/
def LineTx.dropped (x : LineTx) : LineTx := { x with proc := none, accepted := none }

/-- The exchange of a lane abandoned: one that ran in the requester is marked. -/
def LineTx.abandoned (cause : Nat) (x : LineTx) : LineTx :=
  if x.proc.isSome then { x.dropped with trnState := 5, restartAtUp := decide (cause = 0) } else x.dropped

theorem LineTx.abandoned_sends (cause : Nat) (x : LineTx) : (x.abandoned cause).st = x.st ∧ (x.abandoned cause).dacOn = x.dacOn ∧
    (x.abandoned cause).txDis = x.txDis := by
  unfold LineTx.abandoned
  split
  · exact ⟨rfl, rfl, rfl⟩
  · exact ⟨rfl, rfl, rfl⟩

theorem trnDrop_step (n : Fin 8) (s : State) : LineStep n s (trnDrop n s) { s.lines[n] with tx := s.lines[n].tx.dropped } := by
  unfold trnDrop
  have h : LineStep n s (if s.lines[n].tx.accepted.isSome then arbEnd 8 (.line (some n)) s else s) s.lines[n] := by
    split
    · exact (LineStep.refl n s).of_only (arbEnd_only (ps := [.arb]) (Only.refl _ s) (by decide)) (by decide)
    · exact .refl n s
  exact h.modTx _

theorem trnAbandon_step (n : Fin 8) (cause : Nat) (s : State) :
    LineStep n s (trnAbandon n cause s) { s.lines[n] with tx := s.lines[n].tx.abandoned cause } := by
  unfold trnAbandon exchangeRuns LineTx.abandoned
  split
  · exact ((trnDrop_step n s).modTx _).raise _ _
  · exact trnDrop_step n s

/-- The receiver of a lane in DARK from an instant on. -/
def LineRx.darkened (clk : Nat) (quiet : Bool) (r : LineRx) : LineRx :=
  { r with st := .dark, vga := 80, skewWins := 0, vgaStepDue := none, tiaWanted := none, tiaPick := false, inFrame := false, goodHdr := 0
           badHdr := 0, cdrLock := false, darkSince := clk, darkByRefclk := quiet }

/-- An outage that begins, or goes on, at an instant. -/
def LineRx.outageFrom (clk : Nat) (r : LineRx) : LineRx :=
  if r.outage then { r with outSince := clk } else { r with outage := true, outTicks := 0, outSince := clk, past2ms := false }

theorem LineRx.outageFrom_outage (clk : Nat) (r : LineRx) : (r.outageFrom clk).outage = true := by
  unfold LineRx.outageFrom
  split
  · assumption
  · rfl

/-- A lane that squelches, where it has a port to squelch. -/
def LineRx.squelched (port : Bool) (r : LineRx) : LineRx := { r with squelch := r.squelch || port }

theorem LineRx.squelched_self {port : Bool} {r : LineRx} (h : port = false ∨ r.squelch = true) : r.squelched port = r := by
  unfold LineRx.squelched
  rcases h with h | h
  · rw [h, Bool.or_false]
  · rw [h, Bool.true_or, ← h]

theorem squelch_step (n : Fin 8) (loud : Bool) (s : State) : LineStep n s (squelch n loud s)
    { s.lines[n] with rx := s.lines[n].rx.squelched (portOfLine (modeOf s) n).isSome } := by
  unfold squelch
  split
  · next hp =>
    rw [LineRx.squelched_self (.inl (by rw [hp]; rfl))]
    exact LineStep.refl n s
  · next p hp =>
    split
    · next hq =>
      rw [LineRx.squelched_self (.inr hq)]
      exact LineStep.refl n s
    · have hset := (LineStep.refl n s).modRx fun r => { r with squelch := true }
      have hrx : s.lines[n].rx.squelched (portOfLine (modeOf s) n).isSome = { s.lines[n].rx with squelch := true } := by
        rw [LineRx.squelched, hp, Option.isSome_some, Bool.or_true]
      rw [hrx]
      dsimp only
      split
      · exact hset.raise _ _
      · exact hset

theorem outageStart_step (n : Fin 8) (s : State) : ∃ q, LineStep n s (outageStart n s)
    { s.lines[n] with rx := (s.lines[n].rx.outageFrom s.clk).squelched q } := by
  have hset := (LineStep.refl n s).modRx (·.outageFrom s.clk)
  unfold outageStart
  dsimp only
  split
  · have h := hset.trans (squelch_step n true _)
    rw [modRx_line] at h
    exact ⟨_, h⟩
  · refine ⟨false, ?_⟩
    rw [LineRx.squelched_self (.inl rfl)]
    exact hset

/-- What leaving a state for DARK does first: the event unless quiet, and from UP the outage. -/
def darkFront (n : Fin 8) (quiet : Bool) (s : State) : State :=
  let v := if quiet then s else raise (lineSrc n 0x01) (pay1 (acqCode s.lines[n].rx.st)) s
  if s.lines[n].rx.st = .up ∧ !quiet then outageStart n v else v

theorem darkFront_quiet (n : Fin 8) (s : State) : darkFront n true s = s := by simp [darkFront]

theorem darkFront_loud (n : Fin 8) (s : State) : ∃ q, LineStep n s (darkFront n false s)
    { s.lines[n] with rx := if s.lines[n].rx.st = .up then (s.lines[n].rx.outageFrom s.clk).squelched q else s.lines[n].rx } ∧
    Latched (lineSrc n 0x01) s (darkFront n false s) := by
  have hlatch := latched_lineSrc n (o := 0x01) (by decide) (pay1 (acqCode s.lines[n].rx.st)) s
  have hraise := (LineStep.refl n s).raise (lineSrc n 0x01) (pay1 (acqCode s.lines[n].rx.st))
  by_cases hup : s.lines[n].rx.st = .up
  · obtain ⟨q, hq⟩ := outageStart_step n (raise (lineSrc n 0x01) (pay1 (acqCode s.lines[n].rx.st)) s)
    have hfront : darkFront n false s = outageStart n (raise (lineSrc n 0x01) (pay1 (acqCode s.lines[n].rx.st)) s) := if_pos ⟨hup, rfl⟩
    rw [hfront]
    exact ⟨q, (hraise.trans hq).congr (by rw [hraise.clk, raise_lines, if_pos hup]), Latched.stays hlatch (.refl s) hq.latches⟩
  · have hfront : darkFront n false s = raise (lineSrc n 0x01) (pay1 (acqCode s.lines[n].rx.st)) s := if_neg fun h => hup h.1
    rw [hfront]
    exact ⟨false, hraise.congr (by rw [if_neg hup]), hlatch⟩

/-- DARK behind its front: the exchange ends, and receiver, equaliser and messages are as DARK holds them. -/
theorem enterDark_step {n : Fin 8} {quiet : Bool} {s : State} {l : Line} (h : LineStep n s (darkFront n quiet s) l) :
    LineStep n s (enterDark n quiet s)
      { l with rx := l.rx.darkened s.clk quiet, tx := l.tx.abandoned 0
               eq := { l.eq with phase := 0, sweep := none }, fr := { l.fr with soft := [] } } := by
  have ha := h.trans (trnAbandon_step n 0 (darkFront n quiet s))
  have hm := ha.modLine fun l => { l with
    rx := l.rx.darkened (trnAbandon n 0 (darkFront n quiet s)).clk quiet, eq := { l.eq with phase := 0, sweep := none }
    fr := { l.fr with soft := [] } }
  exact hm.congr (by rw [ha.clk, h.line])

theorem enterDark_latched (n : Fin 8) (s : State) : Latched (lineSrc n 0x01) s (enterDark n false s) := by
  obtain ⟨q, -, hl⟩ := darkFront_loud n s
  exact Latched.stays hl (.refl s) ((trnAbandon_step n 0 _).latches.trans (.of_evt rfl))

/-! ### One host lane -/

theorem modHost_otherHosts (n : Fin 16) (f : HostLane → HostLane) (s : State) : OtherHosts n s (modHost n f s) :=
  fun _ hm => upd_get_ne _ _ hm

theorem modHost_host (n : Fin 16) (f : HostLane → HostLane) (s : State) : (modHost n f s).hosts[n] = f s.hosts[n] := upd_get_self _ _ _

theorem otherHosts_trans {n : Fin 16} {s t u : State} (h : OtherHosts n s t) (k : OtherHosts n t u) : OtherHosts n s u :=
  fun m hm => (k m hm).trans (h m hm)

theorem hostIdle_st (n : Fin 16) (s : State) : (hostIdle n s).hosts[n].st = .idle := by
  unfold hostIdle
  exact congrArg HostLane.st (modHost_host n _ _)

theorem hostIdle_otherHosts (n : Fin 16) (s : State) : OtherHosts n s (hostIdle n s) := by
  unfold hostIdle
  dsimp only
  split
  · exact otherHosts_trans (modHost_otherHosts n _ s) (modHost_otherHosts n _ _)
  · exact modHost_otherHosts n _ s

/-! ### The reference clock -/

theorem txRefLost_lane (n : Fin 8) (s : State) : LineStep n s (txRefLost n s) { s.lines[n] with
    tx := { s.lines[n].tx with st := .off, dacOn := false, drain := none, waitDriver := false } } := (LineStep.refl n s).modTx _

theorem rxRefLost_lane (n : Fin 8) (s : State) : ∃ l, LineStep n s (rxRefLost n s) l ∧ l.tx.st = s.lines[n].tx.st ∧
    l.tx.dacOn = s.lines[n].tx.dacOn ∧ l.tx.txDis = s.lines[n].tx.txDis ∧
    l.rx.st = if s.lines[n].rx.st = .off then .off else .dark := by
  unfold rxRefLost
  by_cases hoff : s.lines[n].rx.st = .off
  · rw [if_pos (.inl hoff), if_pos hoff]
    exact ⟨_, .refl n s, rfl, rfl, rfl, hoff⟩
  · rw [if_neg hoff]
    by_cases hdark : s.lines[n].rx.st = .dark
    · rw [if_pos (.inr hdark)]
      exact ⟨_, .refl n s, rfl, rfl, rfl, hdark⟩
    · rw [if_neg (fun h => h.elim hoff hdark)]
      have hfront : LineStep n s (darkFront n true s) s.lines[n] := by rw [darkFront_quiet]; exact .refl n s
      obtain ⟨h1, h2, h3⟩ := s.lines[n].tx.abandoned_sends 0
      exact ⟨_, enterDark_step hfront, h1, h2, h3, rfl⟩

theorem hostRefLost_host (n : Fin 16) (s : State) : OtherHosts n s (hostRefLost n s) ∧
    (hostRefLost n s).hosts[n].st = if s.hosts[n].st = .off then .off else .idle := by
  unfold hostRefLost
  by_cases hoff : s.hosts[n].st = .off
  · rw [if_pos (.inl hoff), if_pos hoff]
    exact ⟨fun _ _ => rfl, hoff⟩
  · rw [if_neg hoff]
    by_cases hidle : s.hosts[n].st = .idle
    · rw [if_pos (.inr hidle)]
      exact ⟨fun _ _ => rfl, hidle⟩
    · rw [if_neg (fun h => h.elim hoff hidle)]
      exact ⟨hostIdle_otherHosts n s, hostIdle_st n s⟩

/-- Every transmitter after the loss. -/
theorem txRefLost_all (s : State) (n : Fin 8) : let l := (forFin 8 txRefLost s).lines[n];
    l.tx.st = .off ∧ l.tx.dacOn = false ∧ l.tx.txDis = s.lines[n].tx.txDis ∧ l.rx.st = s.lines[n].rx.st :=
  forFin_at txRefLost (·.lines[n]) n (fun _ => True) (fun _ _ _ => trivial)
    (fun j s _ hj => (txRefLost_lane j s).others n hj.symm)
    (fun x y => y.tx.st = .off ∧ y.tx.dacOn = false ∧ y.tx.txDis = x.tx.txDis ∧ y.rx.st = x.rx.st)
    (fun s _ => by rw [(txRefLost_lane n s).line]; exact ⟨rfl, rfl, rfl, rfl⟩) s trivial

/-- Every receiver of a line lane after the loss. -/
theorem rxRefLost_all (s : State) (n : Fin 8) : let l := (forFin 8 rxRefLost s).lines[n];
    l.tx.st = s.lines[n].tx.st ∧ l.tx.dacOn = s.lines[n].tx.dacOn ∧ l.tx.txDis = s.lines[n].tx.txDis ∧
    l.rx.st = if s.lines[n].rx.st = .off then .off else .dark :=
  forFin_at rxRefLost (·.lines[n]) n (fun _ => True) (fun _ _ _ => trivial)
    (fun j s _ hj => by obtain ⟨l, hl, -⟩ := rxRefLost_lane j s; exact hl.others n hj.symm)
    (fun x y => y.tx.st = x.tx.st ∧ y.tx.dacOn = x.tx.dacOn ∧ y.tx.txDis = x.tx.txDis ∧ y.rx.st = if x.rx.st = .off then .off else .dark)
    (fun s _ => by obtain ⟨l, hl, h⟩ := rxRefLost_lane n s; rw [hl.line]; exact h) s trivial

theorem hostRefLost_all (s : State) (n : Fin 16) :
    (forFin 16 hostRefLost s).hosts[n].st = if s.hosts[n].st = .off then .off else .idle :=
  forFin_at hostRefLost (·.hosts[n].st) n (fun _ => True) (fun _ _ _ => trivial)
    (fun j s _ hj => by rw [(hostRefLost_host j s).1 n hj.symm]) (fun x y => y = if x = .off then .off else .idle)
    (fun s _ => (hostRefLost_host n s).2) s trivial

/-- Every transmitter and every receiver of a lane stopped by the loss. -/
def lanesStopped (s : State) : State := forFin 16 hostRefLost (forFin 8 rxRefLost (forFin 8 txRefLost s))

theorem lanesStopped_only (s : State) : Only (.hosts :: laneParts) s (lanesStopped s) := by
  have htx : Only [.lines] s (forFin 8 txRefLost s) :=
    forFin_only 8 _ (fun i x hx => txRefLost_only hx (by decide)) (.refl _ s)
  have hrx : Only laneParts (forFin 8 txRefLost s) (forFin 8 rxRefLost (forFin 8 txRefLost s)) :=
    forFin_only 8 _ (fun i x hx => rxRefLost_only hx (by decide) (by decide) (by decide) (by decide) (by decide)) (.refl _ _)
  have hho : Only [.hosts] (forFin 8 rxRefLost (forFin 8 txRefLost s)) (lanesStopped s) :=
    forFin_only 16 _ (fun i x hx => hostRefLost_only hx (by decide)) (.refl _ _)
  exact ((htx.mono (by decide)).of hrx.only (by decide)).of hho.only (by decide)

theorem lanesStopped_line (s : State) (n : Fin 8) : let l := (lanesStopped s).lines[n];
    l.tx.st = .off ∧ l.tx.dacOn = false ∧ l.tx.txDis = s.lines[n].tx.txDis ∧ l.rx.st = if s.lines[n].rx.st = .off then .off else .dark := by
  have hho : Only [.hosts] (forFin 8 rxRefLost (forFin 8 txRefLost s)) (lanesStopped s) :=
    forFin_only 16 _ (fun i x hx => hostRefLost_only hx (by decide)) (.refl _ _)
  obtain ⟨h1, h2, h3, h4⟩ := txRefLost_all s n
  obtain ⟨k1, k2, k3, k4⟩ := rxRefLost_all (forFin 8 txRefLost s) n
  intro l
  have hl : l = (forFin 8 rxRefLost (forFin 8 txRefLost s)).lines[n] := line_of_lines (hho.only .lines (by decide)) n
  rw [hl]
  exact ⟨k1.trans h1, k2.trans h2, k3.trans h3, k4.trans (by rw [h4])⟩

theorem lanesStopped_host (s : State) (n : Fin 16) :
    (lanesStopped s).hosts[n].st = if s.hosts[n].st = .off then .off else .idle := by
  have htx : Only [.lines] s (forFin 8 txRefLost s) :=
    forFin_only 8 _ (fun i x hx => txRefLost_only hx (by decide)) (.refl _ s)
  have hrx : Only laneParts (forFin 8 txRefLost s) (forFin 8 rxRefLost (forFin 8 txRefLost s)) :=
    forFin_only 8 _ (fun i x hx => rxRefLost_only hx (by decide) (by decide) (by decide) (by decide) (by decide)) (.refl _ _)
  have hbefore : (forFin 8 rxRefLost (forFin 8 txRefLost s)).hosts = s.hosts :=
    (hrx.only .hosts (by decide)).trans (htx.only .hosts (by decide))
  exact (hostRefLost_all _ n).trans (by rw [hbefore])

/-- A host receiver that waits in IDLE without a signal. -/
def HostWaits (n : Fin 16) (s : State) : Prop := s.hosts[n].st = .idle ∧ s.hosts[n].sigDet = false

theorem HostWaits.of_hosts {n : Fin 16} {s t : State} (h : HostWaits n s) (e : t.hosts = s.hosts) : HostWaits n t := by
  unfold HostWaits at *
  rw [e]
  exact h

theorem HostWaits.of_other {n j : Fin 16} {s t : State} (h : HostWaits n s) (hj : j ≠ n) (e : OtherHosts j s t) : HostWaits n t := by
  unfold HostWaits at *
  rw [e n hj.symm]
  exact h

theorem hostTiming_otherHosts (n : Fin 16) (again : Bool) (s : State) : OtherHosts n s (hostTiming n again s) := modHost_otherHosts n _ s
theorem hostResume_otherHosts (n : Fin 16) (s : State) : OtherHosts n s (hostResume n s) := modHost_otherHosts n _ s

theorem hostLeaveIdle_otherHosts (n : Fin 16) (s : State) : OtherHosts n s (hostLeaveIdle n s) := by
  unfold hostLeaveIdle
  dsimp only
  split
  · exact hostResume_otherHosts n s
  · exact hostTiming_otherHosts n false s

theorem hostRefBack_waits {n : Fin 16} (j : Fin 16) {s : State} (h : HostWaits n s) : HostWaits n (hostRefBack j s) := by
  unfold hostRefBack
  split
  · next hj =>
    refine h.of_other (fun e => ?_) (hostLeaveIdle_otherHosts j s)
    rw [e, h.2] at hj
    exact absurd hj.2 (by decide)
  · exact h

theorem hostMayLeave_waits {n : Fin 16} (j : Fin 16) {s : State} (h : HostWaits n s) : HostWaits n (hostMayLeave j s) := by
  unfold hostMayLeave
  split
  · next hj =>
    refine h.of_other (fun e => ?_) (hostIdle_otherHosts j s)
    rw [e, h.1] at hj
    simp at hj
  · exact h

theorem lanesMayLeave_waits {n : Fin 16} {s : State} (h : HostWaits n s) : HostWaits n (lanesMayLeave s) := by
  have hrx : Only [.lines] s (forFin 8 rxMayLeave s) := forFin_only 8 _ (fun i x hx => rxMayLeave_only hx (by decide)) (.refl _ s)
  have hho := forFin_keep hostMayLeave (HostWaits n) (fun j s hs => hostMayLeave_waits j hs) _ (h.of_hosts (hrx.only .hosts (by decide)))
  exact hho.of_hosts ((txUpdateAll_only (.refl [.out, .lines, .ocp] _) (by decide) (by decide) (by decide)).only .hosts (by decide))

/-- The state in which the clock is back and the lanes are still to leave. -/
def clockBack (s : State) : State :=
  freeBeatStart (raise 0x001 (pay1 (satU 32 (ticksUs (s.clk - s.refLostAt)))) { bandsChoose s with refOk := true, pllAt := s.clk })

theorem refclkRestored_taken {s : State} (hs : s.refOk = false) (hd : domOn s 8 = true) :
    refclkRestored s = lanesMayLeave (forFin 16 hostRefBack (forFin 8 rxRefBack (clockBack s))) := by
  unfold refclkRestored
  rw [if_neg (by simp [hs, hd])]
  rfl

theorem clockBack_keeps (s : State) : (clockBack s).refOk = true ∧ (clockBack s).refLostAt = s.refLostAt ∧ (clockBack s).hosts = s.hosts := by
  have hbands : Only [.free, .therm] s (bandsChoose s) := bandsChoose_only (.refl _ s) (by decide) (by decide)
  have hbeat : Only [.out, .rings, .evt, .tlm, .cad, .own, .counters, .mon] { bandsChoose s with refOk := true, pllAt := s.clk } (clockBack s) :=
    freeBeatStart_only (raise_only (.refl _ _) (by decide) (by decide) (by decide)) (by decide) (by decide) (by decide) (by decide)
      (by decide) (by decide) (by decide) (by decide)
  obtain ⟨hok, hlost, -⟩ := hbeat.only .refClock (by decide)
  exact ⟨hok, hlost.trans (hbands.only .refClock (by decide)).2.1, (hbeat.only .hosts (by decide)).trans (hbands.only .hosts (by decide))⟩

/-- Settles O28, lane by lane. -/
theorem clockLoss : Obligations.ClockLoss := by
  refine ⟨fun s => rfl, fun s => rfl, fun s hs => ?_, fun s hs hd => ?_⟩
  · obtain ⟨t, ht, hf⟩ := exec_only .refclkLost s
    obtain ⟨u, hu⟩ : ∃ u, u = raise 0x000 0 { s with refOk := false, refLostAt := s.clk } := ⟨_, rfl⟩
    have hexec : t = cadRefLost (lanesStopped u) := by
      rw [hu]
      exact (Host.Outcome.next.inj ht).symm.trans (if_pos hs)
    have hreports : Only reports { s with refOk := false, refLostAt := s.clk } u := by
      rw [hu]
      exact raise_only (.refl _ _) (by decide) (by decide) (by decide)
    have hcad : Only [.evt, .cad, .own, .ports, .counters] (lanesStopped u) t := by
      rw [hexec]
      exact cadRefLost_only (.refl _ _) (by decide) (by decide) (by decide) (by decide) (by decide)
    have hbefore : Only (.hosts :: .cad :: .ports :: laneParts) u t :=
      ((lanesStopped_only u).mono (by decide)).of hcad.only (by decide)
    obtain ⟨hok, hlost, -⟩ := hbefore.only .refClock (by decide)
    obtain ⟨hok1, hlost1, -⟩ := hreports.only .refClock (by decide)
    have hlines : u.lines = s.lines := hreports.only .lines (by decide)
    have hhosts : u.hosts = s.hosts := hreports.only .hosts (by decide)
    refine ⟨t, ht, hok.trans hok1, hlost.trans hlost1, fun n => ?_, fun n => ?_, hf.only⟩
    · obtain ⟨h1, h2, h3, h4⟩ := lanesStopped_line u n
      rw [line_of_lines hlines n] at h3 h4
      have htop : t.lines[n] = (lanesStopped u).lines[n] := line_of_lines (hcad.only .lines (by decide)) n
      rw [htop]
      simp only [h1, h2, h3, h4, and_self]
    · have htop : t.hosts = (lanesStopped u).hosts := hcad.only .hosts (by decide)
      rw [htop, ← hhosts]
      exact lanesStopped_host u n
  · obtain ⟨t, ht, hf⟩ := exec_only .refclkRestored s
    have hexec : t = lanesMayLeave (forFin 16 hostRefBack (forFin 8 rxRefBack (clockBack s))) :=
      (Host.Outcome.next.inj ht).symm.trans (refclkRestored_taken hs hd)
    have hback : Only [.out, .evt, .own, .lines, .counters, .ocp] (clockBack s) (forFin 8 rxRefBack (clockBack s)) :=
      forFin_only 8 _ (fun i x hx => rxRefBack_only hx (by decide) (by decide) (by decide) (by decide) (by decide) (by decide)) (.refl _ _)
    have hhost : Only [.hosts] (forFin 8 rxRefBack (clockBack s)) (forFin 16 hostRefBack (forFin 8 rxRefBack (clockBack s))) :=
      forFin_only 16 _ (fun i x hx => hostRefBack_only hx (by decide)) (.refl _ _)
    have hleave : Only [.out, .lines, .hosts, .ocp] (forFin 16 hostRefBack (forFin 8 rxRefBack (clockBack s))) t := by
      rw [hexec]
      exact lanesMayLeave_only (.refl _ _) (by decide) (by decide) (by decide) (by decide)
    have hafter : Only [.out, .evt, .own, .lines, .counters, .ocp, .hosts] (clockBack s) t :=
      ((hback.mono (by decide)).of hhost.only (by decide)).of hleave.only (by decide)
    obtain ⟨hok, hlost, -⟩ := hafter.only .refClock (by decide)
    obtain ⟨hok1, hlost1, hhosts⟩ := clockBack_keeps s
    refine ⟨t, ht, hok.trans hok1, hlost.trans hlost1, fun n hst hsig => ?_, hf.only⟩
    have hu : HostWaits n (clockBack s) := HostWaits.of_hosts ⟨hst, hsig⟩ hhosts
    have hv := forFin_keep hostRefBack (HostWaits n) (fun j x hx => hostRefBack_waits j hx) _ (hu.of_hosts (hback.only .hosts (by decide)))
    rw [hexec]
    exact (lanesMayLeave_waits hv).1

end Sys2Proof.Machine
end

section
/-! SUPPORT. Commands taken from their descriptors: the checks in their order, commands that wait, TIMED commands. -/

namespace Sys2Proof.Machine

open Sys2Proof

section
variable {i : Instr} {op : Nat} {d : Desc} {img : ImageCheck} {s u : State} {c : Cmd}

/-- A command whose checks end in a state where none waits ends there. -/
theorem exec_checked {v : State} (hi : opcodeOf i = some (op, d, img)) (ht : Taken op d img s c u) (hv : cmdCheck c u = v)
    (hh : v.rings.held = u.rings.held) : exec i s = .next v := by
  rw [exec_opcode hi, submit_taken ht, hv, releaseHeld_id v (hh.trans ht.held)]

theorem cmdCheck_forbidden (h : opForbidden c u = true) : cmdCheck c u = refuse c 0x11 u := if_pos h

theorem cmdCheck_target (h : opForbidden c u = false) (h2 : opTgt c u = false) : cmdCheck c u = refuse c 0x12 u := by
  unfold cmdCheck
  rw [if_neg (by simp [h]), if_pos (by simp [h2])]

theorem cmdCheck_param (h : opForbidden c u = false) (h2 : opTgt c u = true) (h3 : (flagsOk c && opPar c u) = false) :
    cmdCheck c u = refuse c 0x13 u := by
  unfold cmdCheck
  rw [if_neg (by simp [h]), if_neg (by simp [h2]), if_pos (by rw [h3]; rfl)]

theorem cmdCheck_state (h : opForbidden c u = false) (h2 : opTgt c u = true) (h3 : flagsOk c = true) (h4 : opPar c u = true) :
    cmdCheck c u = if opInTest c u then answer c 0x20 true u.tst.blkEnd 0 u else if opOff c u then refuse c 0x22 u else cmdAccept c u := by
  unfold cmdCheck
  rw [if_neg (by simp [h]), if_neg (by simp [h2]), if_neg (by simp [h3, h4])]

/-- Settles O29, check by check. -/
theorem commandRefusals : Obligations.CommandRefusals := by
  refine fun i op d img s hi => ⟨fun hc => ?_, fun c u ht => ⟨fun h => ?_, fun h h2 => ?_, fun h h2 h3 => ?_, fun h h2 h3 h4 h5 => ?_,
    fun h h2 h3 h4 h5 h6 => ?_⟩⟩
  · exact (exec_opcode hi s).trans (congrArg Host.Outcome.next (if_pos hc))
  · exact exec_checked hi ht (cmdCheck_forbidden h) (refuse_held c _ u)
  · exact exec_checked hi ht (cmdCheck_target h h2) (refuse_held c _ u)
  · exact exec_checked hi ht (cmdCheck_param h h2 h3) (refuse_held c _ u)
  · refine exec_checked hi ht ((cmdCheck_state h h2 h3 h4).trans (if_pos h5)) (answer_held c _ _ _ _ u)
  · refine exec_checked hi ht ((cmdCheck_state h h2 h3 h4).trans ((if_neg (by simp [h5])).trans (if_pos h6))) (refuse_held c _ u)

/-! ### Commands that wait -/

/-- The one command that waits cannot start. -/
theorem releaseHeld_stuck (h : s.rings.held = [c]) (hs : startable s c = false) : releaseHeld s = s := by
  have hready : heldReady s = none := by
    unfold heldReady
    rw [h]
    simp [hs]
  unfold releaseHeld
  rw [h]
  show releaseUpTo 1 s = s
  unfold releaseUpTo
  rw [hready]

theorem cmdAccept_waits (hh : u.rings.held = []) (hs : startable u c = false) :
    cmdAccept c u = { u with rings := { u.rings with held := [c] } } := by
  unfold cmdAccept
  rw [if_pos (by simp [hs])]
  show ({ u with rings := { u.rings with held := u.rings.held ++ [c] } } : State) = _
  rw [hh]
  rfl

theorem cmdAccept_starts (hh : u.rings.held = []) (hs : startable u c = true) : cmdAccept c u = cmdStart c u := by
  unfold cmdAccept
  rw [if_neg (by simp [hs, hh, mustWait])]

/-- The slot of a TIMED command. -/
def timedSlot (a : Nat) (c : Cmd) : Slot :=
  { Slot.empty with
    action := a, target := c.d.target, start := c.d.time, tag := c.d.tag, src := .timed, param := fit 44 c.d.param, cmd := some c }

theorem timedInstall_passed {a : Nat} (h : slotFirst u (timedSlot a c) = none) : timedInstall c a u = refuse c 0x31 u := by
  unfold timedSlot at h
  unfold timedInstall
  dsimp only
  rw [h]
  rfl

theorem timedInstall_full {a : Nat} {y : Slot} (h : slotFirst u (timedSlot a c) = some y) (hk : lowestFree u = none) :
    timedInstall c a u = refuse c 0x30 u := by
  unfold timedSlot at h
  unfold timedInstall
  dsimp only
  rw [h, Option.elim_some, hk]

theorem timedInstall_taken {a : Nat} {y : Slot} {k : Fin 256} (h : slotFirst u (timedSlot a c) = some y) (hk : lowestFree u = some k) :
    timedInstall c a u = answer c 0x01 false y.armed 0 (putSlot k y u) := by
  unfold timedSlot at h
  unfold timedInstall
  dsimp only
  rw [h, Option.elim_some, hk]

theorem putSlot_slots (k : Fin 256) (y : Slot) (s : State) : (putSlot k y s).cad.slots[k] = { y with valid := true } ∧
    ∀ j, j ≠ k → (putSlot k y s).cad.slots[j] = s.cad.slots[j] :=
  ⟨upd_get_self _ _ _, fun _ hj => upd_get_ne _ _ hj⟩

theorem Only.cad_alone {a t : State} (h : Only [.cad, .own] a t) (ho : t.cad.own = a.cad.own) : Only [.cad] a t := by
  refine ⟨fun p hp => ?_⟩
  by_cases hown : p = .own
  · rw [hown]
    exact ho
  · exact h.only p (by simp_all)

theorem putSlot_only' (k : Fin 256) (y : Slot) (s : State) : Only [.cad] s (putSlot k y s) :=
  (putSlot_only (.refl [.cad, .own] s) (by decide) (by decide)).cad_alone rfl

/-- Settles O31: a command that may not start is the one that waits, and a TIMED command's slot decides its answer. -/
theorem waitingAndTimedCommands : Obligations.WaitingAndTimedCommands := by
  intro i op d img s c u hi ha
  have hacc := cmdCheck_acc ha
  obtain ⟨ht, -, -, hflags, -⟩ := ha
  refine ⟨fun hs => ?_, fun hs htimed => ?_⟩
  · rw [exec_opcode hi, submit_taken ht, hacc, cmdAccept_waits ht.held hs]
    exact congrArg Host.Outcome.next (releaseHeld_stuck (c := c) rfl hs)
  · obtain ⟨a, haction⟩ : ∃ a, opTimed c = some a := by
      refine Option.isSome_iff_exists.1 ?_
      simpa [flagsOk, htimed] using (Bool.and_eq_true_iff.1 (Bool.and_eq_true_iff.1 hflags).1).2
    have hstart : cmdCheck c u = timedInstall c a u := by
      rw [hacc, cmdAccept_starts ht.held hs, cmdStart, if_pos htimed, haction]
    refine ⟨a, haction, ?_⟩
    intro x
    have hx : x = timedSlot a c := by simp only [x, timedSlot, ht.fields.2.1]
    rw [hx]
    refine ⟨fun hpassed => ?_, fun y hy hfull => ?_, fun y k hy hk => ?_⟩
    · exact exec_checked hi ht (hstart.trans (timedInstall_passed hpassed)) (refuse_held c _ u)
    · exact exec_checked hi ht (hstart.trans (timedInstall_full hy hfull)) (refuse_held c _ u)
    · exact ⟨putSlot k y u, exec_checked hi ht (hstart.trans (timedInstall_taken hy hk)) (answer_held c _ _ _ _ _),
        (putSlot_slots k y u).1, (putSlot_slots k y u).2, (putSlot_only' k y u).only⟩

end

end Sys2Proof.Machine
end

section
/-! SUPPORT. Commands that take effect at once: what their checks have ensured, the commands that read, and EVENT_MASK. -/

namespace Sys2Proof

open Machine

section
variable {i : Instr} {op : Nat} {d : Desc} {img : ImageCheck} {s u : State} {c : Cmd}

theorem AtOnce.op_eq (h : AtOnce op d img s c u) : c.op = op := h.1.1.fields.1
theorem AtOnce.desc_eq (h : AtOnce op d img s c u) : c.d = d := h.1.1.fields.2.1

/-- The parameter check of the opcode has passed. -/
theorem AtOnce.par (h : AtOnce op d img s c u) : opPar c u = true := by
  obtain ⟨⟨-, -, -, -, hpar, -⟩, -⟩ := h
  exact hpar

/-- The TARGET check of the opcode has passed. -/
theorem AtOnce.tgt (h : AtOnce op d img s c u) : opTgt c u = true := by
  obtain ⟨⟨-, -, htgt, -⟩, -⟩ := h
  exact htgt

theorem AtOnce.held (h : AtOnce op d img s c u) : u.rings.held = [] := h.1.1.held

/-- A command whose effect ends in an answer. -/
theorem exec_done {v : State} {r : Nat} (hi : opcodeOf i = some (op, d, img)) (h : AtOnce op d img s c u) (hv : opAct c u = done c r v)
    (hr : v.rings = u.rings) : exec i s = .next (done c r v) :=
  exec_once hi h _ hv ((done_held c r v).trans (by rw [hr]))

theorem exec_refused {v : State} {r : Byte} (hi : opcodeOf i = some (op, d, img)) (h : AtOnce op d img s c u)
    (hv : opAct c u = refuse c r v) (hr : v.rings = u.rings) : exec i s = .next (refuse c r v) :=
  exec_once hi h _ hv ((refuse_held c r v).trans (by rw [hr]))

end

end Sys2Proof

namespace Sys2Proof.Machine

open Sys2Proof

/-! ### NOP and the commands that read -/

/-- What TELEM_REFETCH makes of a record. -/
def refetched (c : Cmd) (x : TlmRec) : TlmRec :=
  if x.ring = some (Fin.ofNat 8 (c.p 0)) ∧ x.id = c.le 4 4 ∧ x.due = false then { x with due := true, refetch := true } else x

theorem actTelemRefetch_eq (c : Cmd) (s : State) :
    actTelemRefetch c s = done c 0 { s with tlm := { s.tlm with recs := s.tlm.recs.map (refetched c) } } := by
  have hrec : ∀ x, (if refetchRec c x && !x.due then { x with due := true, refetch := true } else x : TlmRec) = refetched c x := by
    intro x
    unfold refetched refetchRec
    simp [and_assoc]
  unfold actTelemRefetch
  simp only [hrec]

/-- Where the check has found an entry to begin at, there is one to write. -/
theorem logEntries_cons {c : Cmd} {s : State} (h : parEventLogRead c s = true) : ∃ e l, logEntries c s = e :: l := by
  simp only [parEventLogRead, Bool.and_eq_true, decide_eq_true_eq, List.any_eq_true] at h
  obtain ⟨⟨⟨⟨hlo, hhi⟩, -⟩, x, hx, hseq⟩, -⟩ := h
  refine List.exists_cons_of_ne_nil fun hnil => ?_
  have hmem : x ∈ s.evt.log.filter fun e => decide ((e.seq - BitVec.ofNat 32 (c.le 0 4)).toNat < 2 ^ 31) :=
    List.mem_filter.2 ⟨hx, decide_eq_true (by omega)⟩
  rcases List.take_eq_nil_iff.1 hnil with h0 | h0
  · omega
  · rw [h0] at hmem
    exact absurd hmem List.not_mem_nil

/-- The bytes that EVENT_LOG_READ writes: entries and their check word. -/
def logRead (c : Cmd) (l : List LogEntry) : List Byte :=
  l.flatMap logBytes ++ bytesLE 4 (crc32c c.d.time.toNat (l.flatMap logBytes))

theorem actEventLogRead_cons {c : Cmd} {s : State} {e : LogEntry} {l : List LogEntry} (h : logEntries c s = e :: l) :
    actEventLogRead c s =
      if localMode s then done c (e.seq.toNat + 2 ^ 32 * (l.length + 1)) { s with lmem := Memory.write s.lmem c.d.time.toNat (logRead c (e :: l)) }
      else if busOk s then done c (e.seq.toNat + 2 ^ 32 * (l.length + 1)) (emit (.hostWrite c.d.time.toNat (logRead c (e :: l))) s)
      else refuse c stInternal s := by
  unfold actEventLogRead
  rw [h]
  rfl

/-- Settles O32, command by command. -/
theorem readingCommands : Obligations.ReadingCommands := by
  intro d s c u
  refine ⟨fun h => ?_, fun h => ?_, fun h => ?_, fun h => ?_, fun h => ?_⟩
  · exact exec_done rfl h (by simp only [opAct, h.op_eq]) rfl
  · have hpar := h.par
    simp only [opPar, h.op_eq, parQueryCmd, Bool.and_eq_true] at hpar
    obtain ⟨o, ho⟩ := Option.isSome_iff_exists.1 (List.find?_isSome.2 (List.any_eq_true.1 hpar.2))
    have hnamed := List.find?_some ho
    simp only [Bool.and_eq_true, beq_iff_eq] at hnamed
    exact ⟨o, List.mem_of_find?_eq_some ho, hnamed.1, hnamed.2, exec_done rfl h (by simp only [opAct, h.op_eq, actQueryCmd, ho]) rfl⟩
  · have hact : opAct c u = done c 0 { u with tlm := { u.tlm with recs := u.tlm.recs.map (refetched c) } } := by
      rw [← actTelemRefetch_eq]
      simp only [opAct, h.op_eq]
    exact ⟨_, exec_done rfl h hact rfl, (tlm_only (.refl _ u) (by decide) _).only, rfl⟩
  · have hpar := h.par
    simp only [opPar, h.op_eq, parBankRead, Bool.and_eq_true] at hpar
    split at hpar
    case h_2 => simp at hpar
    case h_1 b hb =>
      exact ⟨b, hb, hpar.2, exec_done rfl h (by simp only [opAct, h.op_eq, actBankRead, hb]) rfl⟩
  · have hpar := h.par
    simp only [opPar, h.op_eq] at hpar
    obtain ⟨e, l, hl⟩ := logEntries_cons hpar
    have hact : opAct c u = actEventLogRead c u := by simp only [opAct, h.op_eq]
    rw [actEventLogRead_cons hl, logRead, h.desc_eq] at hact
    refine ⟨e, l, hl, fun hm hb => ?_, fun hm => ?_⟩
    · exact exec_done rfl h (hact.trans ((if_neg (by simp [hm])).trans (if_pos hb))) rfl
    · exact exec_done rfl h (hact.trans (if_pos hm)) rfl

/-! ### EVENT_MASK -/

/-- Bit j after bits have been set. -/
theorem foldl_setBit (l : List Nat) (m : BitVec 512) {j : Nat} (hj : j < 512) :
    (l.foldl (fun (m : BitVec 512) k => m ||| BitVec.ofNat 512 (2 ^ k)) m).getLsbD j = (m.getLsbD j || decide (j ∈ l)) := by
  induction l generalizing m with
  | nil => simp
  | cons k l ih =>
    rw [List.foldl_cons, ih, BitVec.getLsbD_or, BitVec.getLsbD_ofNat, Nat.testBit_two_pow]
    simp only [hj, decide_true, Bool.true_and, List.mem_cons, eq_comm (a := k)]
    by_cases hk : j = k <;> simp [hk]

/-- Bit j after bits have been cleared. -/
theorem foldl_clearBit (l : List Nat) (m : BitVec 512) {j : Nat} (hj : j < 512) :
    (l.foldl (fun (m : BitVec 512) k => m &&& ~~~(BitVec.ofNat 512 (2 ^ k))) m).getLsbD j = (m.getLsbD j && !decide (j ∈ l)) := by
  induction l generalizing m with
  | nil => simp
  | cons k l ih =>
    rw [List.foldl_cons, ih, BitVec.getLsbD_and, BitVec.getLsbD_not, BitVec.getLsbD_ofNat, Nat.testBit_two_pow]
    simp only [hj, decide_true, Bool.true_and, List.mem_cons, eq_comm (a := k)]
    by_cases hk : j = k <;> simp [hk]

theorem testBit_bits {w : Nat} (v : BitVec w) (lo len i : Nat) : (bits v lo len).testBit i = (decide (i < len) && v.getLsbD (lo + i)) := by
  unfold bits
  rw [Nat.testBit_mod_two_pow, Nat.testBit_div_two_pow, BitVec.testBit_toNat, Nat.add_comm]

/-- One two-bit route set. -/
def routeSet (r k : Nat) (m : BitVec 1024) : BitVec 1024 :=
  (m &&& ~~~(BitVec.ofNat 1024 (3 * 4 ^ k))) ||| BitVec.ofNat 1024 (r * 4 ^ k)

theorem testBit_mul_four_pow (r k i : Nat) : (r * 4 ^ k).testBit i = (decide (2 * k ≤ i) && r.testBit (i - 2 * k)) := by
  rw [show (4 : Nat) ^ k = 2 ^ (2 * k) by rw [Nat.pow_mul], Nat.testBit_mul_two_pow]

theorem bits_routeSet {r j k : Nat} (m : BitVec 1024) (hr : r < 4) (hj : j < 512) :
    bits (routeSet r k m) (2 * j) 2 = if j = k then r else bits m (2 * j) 2 := by
  refine Nat.eq_of_testBit_eq fun i => ?_
  have hout : ∀ x < 4, ∀ e, 2 ≤ e → x.testBit e = false := fun x hx e he =>
    Nat.testBit_lt_two_pow (lt_of_lt_of_le hx (show 4 ≤ 2 ^ e from Nat.pow_le_pow_right (n := 2) (by decide) he))
  rw [testBit_bits]
  by_cases hi : i < 2
  · have hin : 2 * j + i < 1024 := by omega
    simp only [routeSet, BitVec.getLsbD_or, BitVec.getLsbD_and, BitVec.getLsbD_not, BitVec.getLsbD_ofNat, testBit_mul_four_pow, hi, hin,
      decide_true, Bool.true_and]
    by_cases hjk : j = k
    · have hthree : (3 : Nat).testBit i = true := by
        interval_cases i <;> rfl
      rw [if_pos hjk, ← hjk, Nat.add_sub_cancel_left, hthree]
      simp
    · rw [if_neg hjk, testBit_bits]
      by_cases hle : 2 * k ≤ 2 * j + i
      · rw [hout 3 (by decide) _ (by omega), hout r hr _ (by omega)]
        simp [hi]
      · simp [hle, hi]
  · simp only [hi, decide_false, Bool.false_and]
    split
    · rw [hout r hr i (by omega)]
    · rw [testBit_bits]
      simp [hi]

/-- The routes after routes have been set. -/
theorem foldl_routeSet {r j : Nat} (l : List Nat) (m : BitVec 1024) (hr : r < 4) (hj : j < 512) :
    bits (l.foldl (fun m k => routeSet r k m) m) (2 * j) 2 = if j ∈ l then r else bits m (2 * j) 2 := by
  induction l generalizing m with
  | nil => simp
  | cons k l ih =>
    rw [List.foldl_cons, ih, bits_routeSet m hr hj]
    by_cases hk : j = k <;> simp [hk]

theorem mem_srcRange {lo hi k : Nat} (hk : k < 512) : k ∈ srcRange lo hi ↔ (decide (lo ≤ k) && decide (k ≤ hi)) = true := by
  simp [srcRange, hk]

/-- The event unit after EVENT_MASK. -/
def evtMasked (c : Cmd) (e : Evt) : Evt :=
  let l := srcRange (c.le 2 2) (c.le 4 2)
  match c.p 0 with
  | 0 => { e with masks := (l.filter maskable).foldl (fun (m : BitVec 512) k => m ||| BitVec.ofNat 512 (2 ^ k)) e.masks }
  | 1 => { e with masks := l.foldl (fun (m : BitVec 512) k => m &&& ~~~(BitVec.ofNat 512 (2 ^ k))) e.masks }
  | _ => { e with routes := l.foldl (fun m k => routeSet (c.p 6) k m) e.routes }

theorem actEventMask_eq (c : Cmd) (s : State) : actEventMask c s = done c 0 { s with evt := evtMasked c s.evt } := rfl

section
variable (c : Cmd) (e : Evt) {k : Nat} (hk : k < 512)
include hk

theorem evtMasked_masks : (evtMasked c e).masks.getLsbD k =
    (let hit := decide (c.le 2 2 ≤ k) && decide (k ≤ c.le 4 2)
    if c.p 0 = 0 then e.masks.getLsbD k || (hit && maskable k) else if c.p 0 = 1 then e.masks.getLsbD k && !hit else e.masks.getLsbD k) := by
  have hhit := mem_srcRange (lo := c.le 2 2) (hi := c.le 4 2) hk
  unfold evtMasked
  split
  · next h0 =>
    rw [if_pos h0]
    dsimp only
    rw [foldl_setBit _ _ hk, Bool.decide_congr List.mem_filter, Bool.decide_congr (and_congr_left' hhit)]
    simp
  · next h1 =>
    rw [if_neg (by omega), if_pos h1]
    dsimp only
    rw [foldl_clearBit _ _ hk, Bool.decide_congr hhit, Bool.decide_eq_true]
  · next h0 h1 => rw [if_neg h0, if_neg h1]

theorem evtMasked_routes (hr : c.p 6 < 4) (hop : c.p 0 < 3) : bits (evtMasked c e).routes (2 * k) 2 =
    if c.p 0 = 2 ∧ (decide (c.le 2 2 ≤ k) && decide (k ≤ c.le 4 2)) = true then c.p 6 else bits e.routes (2 * k) 2 := by
  have hhit := mem_srcRange (lo := c.le 2 2) (hi := c.le 4 2) hk
  unfold evtMasked
  split
  · next h0 => exact (if_neg (by omega)).symm
  · next h1 => exact (if_neg (by omega)).symm
  · next h0 h1 =>
    dsimp only
    rw [foldl_routeSet _ _ hr hk]
    have h2 : c.p 0 = 2 := by
      have hne0 : c.p 0 ≠ 0 := h0
      have hne1 : c.p 0 ≠ 1 := h1
      omega
    exact if_congr ⟨fun h => ⟨h2, hhit.1 h⟩, fun h => hhit.2 h.2⟩ rfl rfl

end

theorem evtMasked_reports (c : Cmd) (e : Evt) : (evtMasked c e).latches = e.latches ∧ (evtMasked c e).log = e.log := by
  unfold evtMasked
  split
  · exact ⟨rfl, rfl⟩
  · exact ⟨rfl, rfl⟩
  · exact ⟨rfl, rfl⟩

theorem evt_only {ps : List Part} {a s : State} (h : Only ps a s) (p1 : Part.evt ∈ ps) (x : Evt) : Only ps a { s with evt := x } := by
  simp only [only_mk, h, p1, true_or, or_true, and_self]

/-- Settles O33, source by source. -/
theorem eventMasking : Obligations.EventMasking := by
  intro d s c u h
  have hpar := h.par
  simp only [opPar, h.op_eq, parEventMask, Bool.and_eq_true, decide_eq_true_eq] at hpar
  obtain ⟨⟨⟨⟨⟨hop, -⟩, -⟩, hr⟩, -⟩, -⟩ := hpar
  have hact : opAct c u = done c 0 { u with evt := evtMasked c u.evt } := by
    rw [← actEventMask_eq]
    simp only [opAct, h.op_eq]
  refine ⟨_, exec_done rfl h hact rfl, (evt_only (.refl _ u) (by decide) _).only, (evtMasked_reports c _).1, (evtMasked_reports c _).2,
    fun k hk => ?_⟩
  exact ⟨evtMasked_masks c u.evt hk, evtMasked_routes c u.evt hk hr hop⟩

end Sys2Proof.Machine
end

section
/-! SUPPORT. Bank commands: each block of the target in turn, entries of one block, tables of coefficients; the statements about
BANK_WRITE, BANK_COPY, COEF_LOAD and SET_MODE. -/

namespace Sys2Proof.Machine

open Sys2Proof

/-! ### Each block of a target once -/

theorem foldl_block {α : Type} {f : State → Block → State} {π : State → α} {b : Block} {g : α → α}
    (hself : ∀ s, π (f s b) = g (π s)) (hne : ∀ s x, x ≠ b → π (f s x) = π s) {l : List Block} (hl : l.Nodup) (s : State) :
    π (l.foldl f s) = if b ∈ l then g (π s) else π s := by
  induction l generalizing s with
  | nil => rfl
  | cons x l ih =>
    obtain ⟨hx, hl⟩ := List.nodup_cons.1 hl
    rw [List.foldl_cons, ih hl]
    by_cases hxb : x = b
    · have hb : b ∉ l := hxb ▸ hx
      rw [if_neg hb, if_pos (hxb ▸ List.mem_cons_self), hxb, hself]
    · rw [hne s x hxb]
      exact if_congr (by simp [Ne.symm hxb]) rfl rfl

theorem nodup_map_block {n : Nat} {f : Fin n → Block} (hf : ∀ i j, f i = f j → i = j) : ((List.finRange n).map f).Nodup :=
  (List.nodup_finRange n).map hf

theorem blocksOf_nodup (t : Tgt) : (blocksOf t).Nodup := by
  have hlines : ((List.finRange 8).map Block.line).Nodup := nodup_map_block fun i j h => Block.line.inj h
  have hhosts : ((List.finRange 16).map Block.host).Nodup := nodup_map_block fun i j h => Block.host.inj h
  have hports : ((List.finRange 8).map Block.port).Nodup := nodup_map_block fun i j h => Block.port.inj h
  have hdevice : (blocksOf .device).Nodup := by decide
  rcases t with _ | (_ | n) | (_ | n) | (_ | p) | _ | _ | _
  · exact hdevice
  · exact hlines
  · exact List.nodup_singleton _
  · exact hhosts
  · exact List.nodup_singleton _
  · exact hports
  · exact List.nodup_singleton _
  · exact List.nodup_nil
  · exact List.nodup_nil
  · exact List.nodup_nil

theorem bankTargets_nodup (s : State) (c : Cmd) : (bankTargets s c).Nodup := by
  unfold bankTargets
  split
  · exact (blocksOf_nodup _).filter _
  · exact blocksOf_nodup _
  · exact List.nodup_nil

/-! ### BANK_WRITE -/

/-- The words of a bank that stay destroyed behind the entries. -/
def stillBad (es : List (Nat × Word)) (l : List Nat) : List Nat := l.filter fun o => !es.any fun e => e.1 == o

theorem stillBad_nil (l : List Nat) : stillBad [] l = l := List.filter_eq_self.2 fun _ _ => rfl

theorem stillBad_cons (e : Nat × Word) (es : List (Nat × Word)) (l : List Nat) :
    stillBad es (l.filter (· != e.1)) = stillBad (e :: es) l := by
  unfold stillBad
  rw [List.filter_filter]
  refine List.filter_congr fun o _ => ?_
  rw [List.any_cons, Bool.not_or, Bool.and_comm]
  congr 1
  rw [bne, BEq.comm]

section
variable (es : List (Nat × Word)) (s : State)

/-- The lane with entries put into its shadow bank. -/
def Line.put (es : List (Nat × Word)) (l : Line) : Line := { l with
  shd := es.foldl (fun b e => lineBankPut e.1 (e.2 &&& (lineBankMask e.1).getD 0) b) l.shd
  act := { l.act with bad := stillBad es l.act.bad } }
def HostLane.put (es : List (Nat × Word)) (h : HostLane) : HostLane := { h with
  shd := es.foldl (fun b e => hostBankPut e.1 (e.2 &&& (hostBankMask e.1).getD 0) b) h.shd
  act := { h.act with bad := stillBad es h.act.bad } }
def Port.put (es : List (Nat × Word)) (x : Port) : Port := { x with
  shd := es.foldl (fun b e => portBankPut e.1 (e.2 &&& (portBankMask e.1).getD 0) b) x.shd
  act := { x.act with bad := stillBad es x.act.bad } }

/-- Entries put into a block one after another. -/
def entriesPut (es : List (Nat × Word)) (s : State) (b : Block) : State :=
  es.foldl (fun s e => shadowPut b e.1 (e.2 &&& (shadowMask b e.1).getD 0) s) s

theorem entriesPut_line (n : Fin 8) : (entriesPut es s (.line n)).lines[n] = s.lines[n].put es := by
  unfold entriesPut
  induction es generalizing s with
  | nil => rw [Line.put, stillBad_nil]; rfl
  | cons e es ih =>
    have hput : (shadowPut (.line n) e.1 (e.2 &&& (shadowMask (.line n) e.1).getD 0) s).lines[n] = { s.lines[n] with
        shd := lineBankPut e.1 (e.2 &&& (lineBankMask e.1).getD 0) s.lines[n].shd
        act := { s.lines[n].act with bad := s.lines[n].act.bad.filter (· != e.1) } } := upd_get_self _ _ _
    rw [List.foldl_cons, ih, hput, Line.put, Line.put, List.foldl_cons, ← stillBad_cons]

theorem entriesPut_host (n : Fin 16) : (entriesPut es s (.host n)).hosts[n] = s.hosts[n].put es := by
  unfold entriesPut
  induction es generalizing s with
  | nil => rw [HostLane.put, stillBad_nil]; rfl
  | cons e es ih =>
    have hput : (shadowPut (.host n) e.1 (e.2 &&& (shadowMask (.host n) e.1).getD 0) s).hosts[n] = { s.hosts[n] with
        shd := hostBankPut e.1 (e.2 &&& (hostBankMask e.1).getD 0) s.hosts[n].shd
        act := { s.hosts[n].act with bad := s.hosts[n].act.bad.filter (· != e.1) } } := upd_get_self _ _ _
    rw [List.foldl_cons, ih, hput, HostLane.put, HostLane.put, List.foldl_cons, ← stillBad_cons]

theorem entriesPut_port (p : Fin 8) : (entriesPut es s (.port p)).ports[p] = s.ports[p].put es := by
  unfold entriesPut
  induction es generalizing s with
  | nil => rw [Port.put, stillBad_nil]; rfl
  | cons e es ih =>
    have hput : (shadowPut (.port p) e.1 (e.2 &&& (shadowMask (.port p) e.1).getD 0) s).ports[p] = { s.ports[p] with
        shd := portBankPut e.1 (e.2 &&& (portBankMask e.1).getD 0) s.ports[p].shd
        act := { s.ports[p].act with bad := s.ports[p].act.bad.filter (· != e.1) } } := upd_get_self _ _ _
    rw [List.foldl_cons, ih, hput, Port.put, Port.put, List.foldl_cons, ← stillBad_cons]

/-- What an entry put into one block leaves, the entries leave. -/
theorem entriesPut_same {α : Type} (π : State → α) (b : Block) (h : ∀ off v s, π (shadowPut b off v s) = π s) :
    π (entriesPut es s b) = π s := by
  unfold entriesPut
  induction es generalizing s with
  | nil => rfl
  | cons e es ih => rw [List.foldl_cons, ih, h]

theorem entriesPut_only (b : Block) : Only [.lines, .hosts, .ports] s (entriesPut es s b) :=
  foldl_only _ _ (fun _ _ h => shadowPut_only h (by decide) (by decide) (by decide)) (.refl _ s)

end

section
variable (off : Nat) (v : Word) (s : State)

theorem shadowPut_line_ne {n : Fin 8} {b : Block} (h : b ≠ .line n) : (shadowPut b off v s).lines[n] = s.lines[n] := by
  cases b with
  | line m => exact upd_get_ne _ _ fun e => h (by rw [e])
  | host m => rfl
  | port p => rfl

theorem shadowPut_host_ne {n : Fin 16} {b : Block} (h : b ≠ .host n) : (shadowPut b off v s).hosts[n] = s.hosts[n] := by
  cases b with
  | line m => rfl
  | host m => exact upd_get_ne _ _ fun e => h (by rw [e])
  | port p => rfl

theorem shadowPut_port_ne {p : Fin 8} {b : Block} (h : b ≠ .port p) : (shadowPut b off v s).ports[p] = s.ports[p] := by
  cases b with
  | line m => rfl
  | host m => rfl
  | port q => exact upd_get_ne _ _ fun e => h (by rw [e])

end

/-- The offsets of a line bank's single registers. -/
def lineWords : List Nat := [0x004, 0x008, 0x100, 0x104, 0x108, 0x10C, 0x110, 0x400, 0x404, 0x408]

theorem mem_lineWords {o : Nat} {m : Word} (h : lineBankMask o = some m) (ho : o < 0x410) : o ∈ lineWords := by
  unfold lineBankMask at h
  simp only [lineWords, List.mem_cons, List.not_mem_nil, or_false]
  by_contra hn
  simp only [not_or] at hn
  obtain ⟨h1, h2, h3, h4, h5, h6, h7, h8, h9, h10⟩ := hn
  simp only [h1, h2, h3, h4, h5, h6, h7, h8, h9, h10, or_self, if_false] at h
  rw [if_neg (by omega), if_neg (by omega), if_neg (by omega)] at h
  exact absurd h (by simp)

theorem lineBankGet_put {o : Nat} (ho : o ∈ lineWords) (e : Nat) (v : Word) (b : LineBank) :
    lineBankGet (lineBankPut e v b) o = if e = o then v else lineBankGet b o := by
  simp only [lineWords, List.mem_cons, List.not_mem_nil, or_false] at ho
  unfold lineBankPut
  dsimp only
  split
  case h_11 h1 h2 h3 h4 h5 h6 h7 h8 h9 h10 =>
    have hne : e ≠ o := by rcases ho with rfl | rfl | rfl | rfl | rfl | rfl | rfl | rfl | rfl | rfl <;> assumption
    rw [if_neg hne]
    rcases ho with rfl | rfl | rfl | rfl | rfl | rfl | rfl | rfl | rfl | rfl
    all_goals
      split
      all_goals rfl
  all_goals
    rcases ho with rfl | rfl | rfl | rfl | rfl | rfl | rfl | rfl | rfl | rfl
    all_goals rfl

theorem hostBankGet_put {o e : Nat} {m m' : Word} (ho : hostBankMask o = some m) (he : hostBankMask e = some m') (v : Word)
    (b : HostBank) : hostBankGet (hostBankPut e v b) o = if e = o then v else hostBankGet b o := by
  have hmem : ∀ {x : Nat} {y : Word}, hostBankMask x = some y → x ∈ [0x004, 0x008, 0x00C, 0x010, 0x014, 0x018] := by
    intro x y h
    unfold hostBankMask at h
    split at h
    all_goals simp_all
  have ho := hmem ho
  have he := hmem he
  simp only [List.mem_cons, List.not_mem_nil, or_false] at ho he
  rcases he with rfl | rfl | rfl | rfl | rfl | rfl
  all_goals
    rcases ho with rfl | rfl | rfl | rfl | rfl | rfl
    all_goals rfl

theorem portBankGet_put {e : Nat} {m : Word} (he : portBankMask e = some m) (v : Word) (b : PortBank) :
    portBankGet (portBankPut e v b) 0x080 = if e = 0x080 then v else portBankGet b 0x080 := by
  unfold portBankMask at he
  split at he
  · unfold portBankPut
    dsimp only
    cases bit b.cfg 7
    · rfl
    · rfl
  · rfl
  · rfl
  · rfl
  · exact absurd he (by simp)

/-- The value of a word is the one given last. -/
theorem get_foldl_put {β : Type} {get : β → Word} {put : β → Nat × Word → β} {o : Nat} {v w : Word} (es : List (Nat × Word))
    (hself : ∀ b, get (put b (o, w)) = v) (hne : ∀ e ∈ es, e.1 ≠ o → ∀ b, get (put b e) = get b) {i : Nat}
    (hi : es[i]? = some (o, w)) (hlast : (es.drop (i + 1)).all (fun e => e.1 != o) = true) (b : β) : get (es.foldl put b) = v := by
  obtain ⟨hlt, hget⟩ := List.getElem?_eq_some_iff.1 hi
  have hsplit : es = es.take i ++ (o, w) :: es.drop (i + 1) := by
    rw [← hget, List.getElem_cons_drop, List.take_append_drop]
  have hrest : ∀ (l : List (Nat × Word)), (∀ e ∈ l, e ∈ es ∧ e.1 ≠ o) → ∀ b, get (l.foldl put b) = get b := by
    intro l
    induction l with
    | nil => exact fun _ _ => rfl
    | cons e l ih =>
      intro hl b
      obtain ⟨hmem, heq⟩ := hl e List.mem_cons_self
      rw [List.foldl_cons, ih (fun x hx => hl x (List.mem_cons_of_mem _ hx)), hne e hmem heq]
  rw [hsplit, List.foldl_append, List.foldl_cons, hrest _ fun e he => ⟨List.mem_of_mem_drop he, ?_⟩, hself]
  simpa using List.all_eq_true.1 hlast e he

theorem actBankWrite_eq (c : Cmd) (s : State) :
    actBankWrite c s = done c 0 ((bankTargets s c).foldl (fun s b => entriesPut (bankEntries c) s b) s) := rfl

/-- Settles O34, block by block and entry by entry. -/
theorem bankWriting : Obligations.BankWriting := by
  intro d s c u h
  have hpar := h.par
  simp only [opPar, h.op_eq, parBankWrite, Bool.and_eq_true, List.all_eq_true] at hpar
  obtain ⟨-, hok⟩ := hpar
  have hact : opAct c u = done c 0 ((bankTargets u c).foldl (entriesPut (bankEntries c)) u) := by
    simp only [opAct, h.op_eq]
    exact actBankWrite_eq c u
  obtain ⟨v, hv⟩ : ∃ v, v = (bankTargets u c).foldl (entriesPut (bankEntries c)) u := ⟨_, rfl⟩
  rw [← hv] at hact
  have honly : Only [.lines, .hosts, .ports] u v := by
    rw [hv]
    exact foldl_only _ _ (fun b x hx => hx.of (entriesPut_only _ x b).only fun _ hp => hp) (.refl _ u)
  have hnodup := bankTargets_nodup u c
  have hline : ∀ n : Fin 8, v.lines[n] = if .line n ∈ bankTargets u c then u.lines[n].put (bankEntries c) else u.lines[n] := fun n => by
    rw [hv]
    exact foldl_block (π := (·.lines[n])) (g := Line.put (bankEntries c)) (fun s => entriesPut_line _ s n)
      (fun s x hx => entriesPut_same _ s (·.lines[n]) x fun off w s => shadowPut_line_ne off w s hx) hnodup u
  have hhost : ∀ n : Fin 16, v.hosts[n] = if .host n ∈ bankTargets u c then u.hosts[n].put (bankEntries c) else u.hosts[n] := fun n => by
    rw [hv]
    exact foldl_block (π := (·.hosts[n])) (g := HostLane.put (bankEntries c)) (fun s => entriesPut_host _ s n)
      (fun s x hx => entriesPut_same _ s (·.hosts[n]) x fun off w s => shadowPut_host_ne off w s hx) hnodup u
  have hport : ∀ p : Fin 8, v.ports[p] = if .port p ∈ bankTargets u c then u.ports[p].put (bankEntries c) else u.ports[p] := fun p => by
    rw [hv]
    exact foldl_block (π := (·.ports[p])) (g := Port.put (bankEntries c)) (fun s => entriesPut_port _ s p)
      (fun s x hx => entriesPut_same _ s (·.ports[p]) x fun off w s => shadowPut_port_ne off w s hx) hnodup u
  refine ⟨v, exec_done rfl h hact (honly.only .rings (by decide)), honly.only, hline, hhost, hport, fun i o w m hi hlast =>
    ⟨fun n hn hm ho => ?_, fun n hn hm => ?_, fun p hp ho hm => ?_⟩⟩
  · rw [shadowGet, hline n, if_pos hn]
    refine get_foldl_put (get := fun b => lineBankGet b o) (bankEntries c) (fun b => ?_) (fun e _ he b => ?_) hi hlast _
    · rw [lineBankGet_put (mem_lineWords hm ho), if_pos rfl, hm, Option.getD_some]
    · rw [lineBankGet_put (mem_lineWords hm ho), if_neg he]
  · rw [shadowGet, hhost n, if_pos hn]
    refine get_foldl_put (get := fun b => hostBankGet b o) (bankEntries c) (fun b => ?_) (fun e hmem he b => ?_) hi hlast _
    · rw [hostBankGet_put hm hm, if_pos rfl, hm, Option.getD_some]
    · have hvalid := hok _ hn e hmem
      simp only [entryOk, shadowMask] at hvalid
      split at hvalid
      case h_1 m' hm' => rw [hostBankGet_put hm hm', if_neg he]
      case h_2 => exact absurd hvalid (by decide)
  · rw [shadowGet, hport p, if_pos hp, ho]
    rw [ho] at hi hlast hm
    refine get_foldl_put (get := fun b => portBankGet b 0x080) (bankEntries c) (fun b => ?_) (fun e hmem he b => ?_) hi hlast _
    · rw [portBankGet_put hm, if_pos rfl, hm, Option.getD_some]
    · have hvalid := hok _ hp e hmem
      simp only [entryOk, shadowMask] at hvalid
      split at hvalid
      case h_1 m' hm' => rw [portBankGet_put hm', if_neg he]
      case h_2 => exact absurd hvalid (by decide)

/-! ### BANK_COPY, COEF_LOAD, SET_MODE -/

theorem opAct_bankCopy {c : Cmd} {s : State} {b : Block} (hop : c.op = 0x11) (hb : blocksOf (c.tgt.getD .reed) = [b]) :
    opAct c s = done c 0 (bankCopy b s) := by
  simp only [opAct, hop, actBankCopy, hb, List.foldl_cons, List.foldl_nil]

/-- Values put into a table one after another from a place on. -/
def tablePut (c : Cmd) (l : List (BitVec 16)) : List (BitVec 16) :=
  (List.range (c.p 2)).foldl (fun (l : List (BitVec 16)) k => l.set (c.p 1 + k) (BitVec.ofNat 16 (coefValue c k))) l

theorem tablePut_getElem? (c : Cmd) (l : List (BitVec 16)) (i : Nat) : (tablePut c l)[i]? =
    if c.p 1 ≤ i ∧ i < c.p 1 + c.p 2 ∧ i < l.length then some (BitVec.ofNat 16 (c.le (4 + 2 * (i - c.p 1)) 2)) else l[i]? := by
  unfold tablePut
  generalize c.p 2 = n
  have hlen : ∀ n, ((List.range n).foldl (fun (l : List (BitVec 16)) k => l.set (c.p 1 + k) (BitVec.ofNat 16 (coefValue c k))) l).length
      = l.length := by
    intro n
    induction n with
    | zero => rfl
    | succ n ih => rw [List.range_succ, List.foldl_append, List.foldl_cons, List.foldl_nil, List.length_set, ih]
  induction n with
  | zero => exact (if_neg (by omega)).symm
  | succ n ih =>
    rw [List.range_succ, List.foldl_append, List.foldl_cons, List.foldl_nil, List.getElem?_set, hlen, ih]
    by_cases hi : c.p 1 + n = i
    · rw [if_pos hi]
      by_cases hl : c.p 1 + n < l.length
      · rw [if_pos hl, if_pos (by omega), coefValue, ← hi, Nat.add_sub_cancel_left]
      · rw [if_neg hl, if_neg (by omega), List.getElem?_eq_none (by omega)]
    · rw [if_neg hi]
      exact if_congr (by omega) rfl rfl

/-- The shadow bank of a line lane after COEF_LOAD. -/
def coefLoaded (c : Cmd) (b : LineBank) : LineBank := match c.p 0 with
  | 0 => { b with initMain := tablePut c b.initMain }
  | 1 => { b with initFg := tablePut c b.initFg }
  | 2 => { b with initNl := tablePut c b.initNl }
  | _ => { b with initTgt := tablePut c b.initTgt }

theorem opAct_coefLoad {c : Cmd} {s : State} {n : Fin 8} (hop : c.op = 0x13) (hn : tgtLine c = some n) :
    opAct c s = done c 0 (modLine n (fun l => { l with shd := coefLoaded c l.shd }) s) := by
  simp only [opAct, hop, actCoefLoad, hn]
  rfl

section
variable {c : Cmd} (b : LineBank)

theorem coefLoaded_table (h : c.p 0 < 4) : initTable (coefLoaded c b) (c.p 0) = tablePut c (initTable b (c.p 0)) := by
  unfold coefLoaded
  split
  · next h0 => rw [h0]; rfl
  · next h0 => rw [h0]; rfl
  · next h0 => rw [h0]; rfl
  · next h0 h1 h2 =>
    have h3 : c.p 0 = 3 := by
      have hne0 : c.p 0 ≠ 0 := h0
      have hne1 : c.p 0 ≠ 1 := h1
      have hne2 : c.p 0 ≠ 2 := h2
      omega
    rw [h3]
    rfl

theorem coefLoaded_others (h : c.p 0 < 4) {t : Nat} (ht : t < 4) (hne : t ≠ c.p 0) : initTable (coefLoaded c b) t = initTable b t := by
  unfold coefLoaded
  split
  · next h0 =>
    rw [h0] at hne
    interval_cases t
    · exact absurd rfl hne
    · rfl
    · rfl
    · rfl
  · next h0 =>
    rw [h0] at hne
    interval_cases t
    · rfl
    · exact absurd rfl hne
    · rfl
    · rfl
  · next h0 =>
    rw [h0] at hne
    interval_cases t
    · rfl
    · rfl
    · exact absurd rfl hne
    · rfl
  · next h0 h1 h2 =>
    have hne0 : c.p 0 ≠ 0 := h0
    have hne1 : c.p 0 ≠ 1 := h1
    have hne2 : c.p 0 ≠ 2 := h2
    interval_cases t
    · rfl
    · rfl
    · rfl
    · omega

theorem coefLoaded_registers : (coefLoaded c b).rxfe = b.rxfe ∧ (coefLoaded c b).txCfg = b.txCfg := by
  unfold coefLoaded
  split
  · exact ⟨rfl, rfl⟩
  · exact ⟨rfl, rfl⟩
  · exact ⟨rfl, rfl⟩
  · exact ⟨rfl, rfl⟩

end

theorem tgtLine_some {c : Cmd} {n : Fin 8} (h : tgtLine c = some n) : c.tgt = some (.line (some n)) := by
  unfold tgtLine at h
  split at h
  · next m hm => rw [hm, Option.some.inj h]
  · exact absurd h (by simp)

/-- Settles O35, block by block and table by table. -/
theorem bankCopyingAndLoading : Obligations.BankCopyingAndLoading := by
  intro d s c u
  refine ⟨fun h => ?_, fun h => ?_⟩
  · have htgt := h.tgt
    simp only [opTgt, h.op_eq, tgtBank] at htgt
    split at htgt
    · next n hn =>
      have hact := opAct_bankCopy (s := u) (b := .line n) h.op_eq (by rw [hn]; rfl)
      refine ⟨_, exec_done rfl h hact rfl, fun m hm => ?_, fun m hm => ?_, fun m hm => ?_⟩
      · obtain rfl : n = m := by simpa using hn.symm.trans hm
        exact ⟨upd_get_self _ _ _, modLine_otherLines _ _ _, (modLine_only (.refl _ u) (by decide)).only⟩
      · exact absurd (hn.symm.trans hm) (by simp)
      · exact absurd (hn.symm.trans hm) (by simp)
    · next n hn =>
      have hact := opAct_bankCopy (s := u) (b := .host n) h.op_eq (by rw [hn]; rfl)
      refine ⟨_, exec_done rfl h hact rfl, fun m hm => ?_, fun m hm => ?_, fun m hm => ?_⟩
      · exact absurd (hn.symm.trans hm) (by simp)
      · obtain rfl : n = m := by simpa using hn.symm.trans hm
        exact ⟨upd_get_self _ _ _, modHost_otherHosts _ _ _, (modHost_only (.refl _ u) (by decide)).only⟩
      · exact absurd (hn.symm.trans hm) (by simp)
    · next n hn =>
      have hact := opAct_bankCopy (s := u) (b := .port n) h.op_eq (by rw [hn]; rfl)
      refine ⟨_, exec_done rfl h hact rfl, fun m hm => ?_, fun m hm => ?_, fun m hm => ?_⟩
      · exact absurd (hn.symm.trans hm) (by simp)
      · exact absurd (hn.symm.trans hm) (by simp)
      · obtain rfl : n = m := by simpa using hn.symm.trans hm
        exact ⟨upd_get_self _ _ _, fun _ hq => upd_get_ne _ _ hq, (modPort_only (.refl _ u) (by decide)).only⟩
    · exact absurd htgt (by simp)
  · have htgt := h.tgt
    have hpar := h.par
    simp only [opTgt, h.op_eq] at htgt
    simp only [opPar, h.op_eq, parCoefLoad, Bool.and_eq_true, decide_eq_true_eq] at hpar
    obtain ⟨⟨⟨⟨⟨⟨htable, -⟩, -⟩, -⟩, -⟩, -⟩, -⟩ := hpar
    obtain ⟨n, hn⟩ := Option.isSome_iff_exists.1 htgt
    refine ⟨n, coefLoaded c u.lines[n].shd, _, tgtLine_some hn, exec_done rfl h (opAct_coefLoad h.op_eq hn) rfl, upd_get_self _ _ _,
      modLine_otherLines _ _ _, (modLine_only (.refl _ u) (by decide)).only, fun i => ?_, fun t ht hne => ?_,
      (coefLoaded_registers _).1, (coefLoaded_registers _).2⟩
    · rw [coefLoaded_table _ htable]
      exact tablePut_getElem? c _ i
    · exact coefLoaded_others _ htable ht hne

theorem fillShadow_only' (mode : Nat) (fixed : Bool) (code : Nat) (s : State) :
    Only [.lines, .hosts, .ports] s (fillShadow mode fixed code s) := fillShadow_only (.refl _ s) (by decide) (by decide) (by decide)

/-- Settles O36: every shadow bank is filled, and MODE is read from an active bank. -/
theorem settingAMode : Obligations.SettingAMode := by
  intro d s c u h
  have hact : opAct c u = done c 0 (fillShadow (if c.p 0 = 0 ∧ (c.p 1 == 1) = true then 6 else c.p 0) (c.p 1 == 1) (c.p 2) u) := by
    simp only [opAct, h.op_eq]
    rfl
  have hports : ∀ p : Fin 8, (fillShadow (if c.p 0 = 0 ∧ (c.p 1 == 1) = true then 6 else c.p 0) (c.p 1 == 1) (c.p 2) u).ports[p] =
      { u.ports[p] with shd := PortBank.default (if c.p 0 = 0 ∧ c.p 1 = 1 then 6 else c.p 0) (c.p 1 == 1) (c.p 2) p.val } := fun p => by
    simp [fillShadow]
  refine ⟨_, exec_done rfl h hact rfl, (fillShadow_only' _ _ _ u).only, ?_, fun n => ?_, fun n => ?_, hports⟩
  · change bits (fillShadow _ _ _ u).ports[(0 : Fin 8)].act.cfg 0 3 = _
    rw [hports 0]
    rfl
  · exact Vector.getElem_map ..
  · exact Vector.getElem_map ..

end Sys2Proof.Machine
end

section
/-! SUPPORT. The states of line acquisition one by one: what each entry leaves of its lane; the optics control port; banks that stay. -/

namespace Sys2Proof.Machine

open Sys2Proof

theorem ocp_only {ps : List Part} {a s : State} (h : Only ps a s) (p1 : Part.ocp ∈ ps) (x : List OcpTrans) :
    Only ps a { s with ocp := x } := by
  simp only [only_mk, h, p1, true_or, or_true, and_self]

theorem LineStep.ocp {n : Fin 8} {s t : State} {l : Line} (h : LineStep n s t l) (x : List OcpTrans) :
    LineStep n s { t with ocp := x } l := h.of_only (ocp_only (.refl [.ocp] t) (by decide) x) (by decide)

theorem LineStep.emit {n : Fin 8} {s t : State} {l : Line} (h : LineStep n s t l) (o : Out) :
    LineStep n s (emit o t) l := h.of_only (emit_only (.refl [.out] t) (by decide)) (by decide)

/-! ### The optics control port -/

/-- The lane with the VGA step that waits behind a TIA write replaced. -/
def Line.stepDue (l : Line) (v : Option Int) : Line := { l with rx := { l.rx with vgaStepDue := v } }

section
variable {n : Fin 8} {s : State} {t : OcpTrans} (ht : ∀ m code tries, t.what = .tiaWrite m code tries → m = n)
include ht

theorem ocpDropped_step : ∃ v, LineStep n s (ocpDropped t s) (s.lines[n].stepDue v) := by
  unfold ocpDropped
  split
  · next m code tries hw =>
    rw [ht m code tries hw]
    exact ⟨none, (LineStep.refl n s).modRx _⟩
  · exact ⟨_, .refl n s⟩

/-- A transaction of the lane's own that is queued touches no other lane. -/
theorem ocpPush_step : ∃ v, LineStep n s (ocpPush t s) (s.lines[n].stepDue v) := by
  unfold ocpPush
  split
  · unfold ocpStart
    by_cases hdead : ocpDead { s with ocp := [t] } t = true
    · rw [List.takeWhile_cons_of_pos hdead, List.dropWhile_cons_of_pos hdead]
      simp only [List.takeWhile_nil, List.dropWhile_nil, List.foldl_cons, List.foldl_nil]
      obtain ⟨v, hv⟩ := ocpDropped_step ht (s := { s with ocp := [] })
      have hstep := ((LineStep.refl n s).ocp []).trans hv
      split
      · exact ⟨v, hstep⟩
      · exact ⟨v, (hstep.ocp _).emit _⟩
    · rw [List.takeWhile_cons_of_neg hdead, List.dropWhile_cons_of_neg hdead]
      exact ⟨_, (((LineStep.refl n s).ocp [t]).ocp _).emit _⟩
  · split
    · exact ⟨_, (LineStep.refl n s).ocp _⟩
    · exact ⟨_, (LineStep.refl n s).ocp _⟩

end

theorem tiaWrite_step (n : Fin 8) (code tries : Nat) (s : State) : ∃ v, LineStep n s (tiaWrite n code tries s) (s.lines[n].stepDue v) := by
  unfold tiaWrite
  split
  · exact ⟨_, .refl n s⟩
  · exact ocpPush_step fun m _ _ h => (OcpWhat.tiaWrite.inj h).1.symm

theorem drvWrite_step (n : Fin 8) (code tries : Nat) (s : State) : ∃ v, LineStep n s (drvWrite n code tries s) (s.lines[n].stepDue v) := by
  unfold drvWrite
  split
  · exact ⟨_, .refl n s⟩
  · exact ocpPush_step fun m _ _ h => absurd h (by simp [drvTrans])

/-! ### Entries into the states of acquisition -/

/-- The coefficients applied before this tick noted. -/
def LineEq.noted (clk : Nat) (e : LineEq) : LineEq :=
  if e.prior.any fun x => x.1 == clk then e else { e with prior := some (clk, e.inForce) }

theorem LineEq.noted_keeps (clk : Nat) (e : LineEq) : (e.noted clk).stored = e.stored ∧ (e.noted clk).phase = e.phase ∧
    (e.noted clk).muted = e.muted ∧ (e.noted clk).live = e.live := by
  unfold LineEq.noted
  split
  · exact ⟨rfl, rfl, rfl, rfl⟩
  · exact ⟨rfl, rfl, rfl, rfl⟩

theorem eqNote_step (n : Fin 8) (s : State) : LineStep n s (eqNote n s) { s.lines[n] with eq := s.lines[n].eq.noted s.clk } :=
  (LineStep.refl n s).modEq _

/-- A lane in GAIN. -/
def Line.gained (again : Bool) (clk : Nat) (l : Line) : Line := { l with
  rx := { l.rx with
    st := .gain, coldCnt := satU 8 (l.rx.coldCnt + 1), inFrame := false, goodHdr := 0, badHdr := 0, cdrLock := false
    skewWins := 0, tiaPick := true, tiaWanted := none, vgaStepDue := none, acqStart := if again then l.rx.acqStart else clk }
  eq := { l.eq.noted clk with
    phase := 0, again := false, trellis := Trellis.reset, acc := QualAcc.reset, conv := false, stored := none
    voided := [], sweep := none, placed := false
    live := { (l.eq.noted clk).live with pos := [none, none, none, none] }, snrHist := [] }
  fr := { l.fr with idValid := false, soft := [] } }

theorem enterGain_step (n : Fin 8) (again : Bool) (s : State) : LineStep n s (enterGain n again s) (s.lines[n].gained again s.clk) :=
  (((eqNote_step n s).modRx _).modLine _)

/-- The equaliser that a stored bank restores, before loops that it voids restart. -/
def LineEq.loaded (b : LineBank) (k : StoredBank) (e : LineEq) : LineEq :=
  let c := k.coefs
  let e := { e with again := false, trellis := Trellis.reset, acc := QualAcc.reset }
  { e with phase := 2, placed := true, sweep := none
           live := { c with main := maskTaps b e.muted c.main
                            nl := if nlUsed b e.muted then c.nl else List.replicate 15 0
                            h2 := if det16 b e.muted then c.h2 else 0 }
           heldMain := if e.muted then c.main else e.heldMain
           heldNl := if e.muted then c.nl else e.heldNl
           heldH2 := if e.muted then c.h2 else e.heldH2 }

/-- The loops that a stored bank voids restart. -/
def revoided (b : LineBank) (voided : List Bool) (e : LineEq) : LineEq :=
  (List.range 4).foldl (fun (e : LineEq) (j : Nat) => if voided.getD j false then { restartLoop b j e with conv := false } else e) e

/-- A lane that takes up its stored bank, or goes on where it holds none. -/
def Line.restored (l : Line) : Line :=
  match l.eq.stored with
  | none => { l with eq := { l.eq with phase := 2, again := false, trellis := Trellis.reset, acc := QualAcc.reset } }
  | some k => { l with eq := revoided l.act l.eq.voided (l.eq.loaded l.act k), rx := { l.rx with vga := k.vga, freq := k.freq } }

/-- A lane that has entered RELOCK and not yet its stored bank. -/
def Line.relockFront (clk : Nat) (l : Line) : Line := { l with
  rx := { l.rx with
    st := .relock, relockCnt := satU 8 (l.rx.relockCnt + 1), inFrame := false, goodHdr := 0, badHdr := 0
    tiaWanted := none, acqStart := clk }
  eq := l.eq.noted clk, fr := { l.fr with soft := [] } }

/-- A lane in RELOCK. -/
def Line.relocked (clk : Nat) (l : Line) : Line := (l.relockFront clk).restored

theorem restartLoop_stored (b : LineBank) (j : Nat) (e : LineEq) : (restartLoop b j e).stored = e.stored := by
  unfold restartLoop
  split
  · rfl
  · rfl
  · rfl
  · rfl

theorem revoided_stored (b : LineBank) (voided : List Bool) (e : LineEq) : (revoided b voided e).stored = e.stored := by
  unfold revoided
  induction List.range 4 generalizing e with
  | nil => rfl
  | cons j l ih =>
    rw [List.foldl_cons, ih]
    split
    · exact restartLoop_stored b j e
    · rfl

theorem Line.restored_keeps (l : Line) : l.restored.act = l.act ∧ l.restored.shd = l.shd ∧ l.restored.tx = l.tx ∧ l.restored.fr = l.fr ∧
    l.restored.eq.stored = l.eq.stored ∧ l.restored.rx = { l.rx with vga := l.restored.rx.vga, freq := l.restored.rx.freq } := by
  unfold Line.restored
  split
  · exact ⟨rfl, rfl, rfl, rfl, rfl, rfl⟩
  · exact ⟨rfl, rfl, rfl, rfl, revoided_stored .., rfl⟩

theorem Line.restored_rx (l : Line) : l.restored.rx = { l.rx with vga := l.restored.rx.vga, freq := l.restored.rx.freq } := by
  obtain ⟨-, -, -, -, -, h⟩ := l.restored_keeps
  exact h

theorem Line.restored_bank {l : Line} {k : StoredBank} (h : l.eq.stored = some k) :
    l.restored.rx.vga = k.vga ∧ l.restored.rx.freq = k.freq := by
  unfold Line.restored
  rw [h]
  exact ⟨rfl, rfl⟩

theorem enterRelock_step (n : Fin 8) (s : State) : ∃ v, LineStep n s (enterRelock n s) ((s.lines[n].relocked s.clk).stepDue v) := by
  obtain ⟨u, hu⟩ : ∃ u, u = modLine n Line.restored (modRx n (fun r => { r with
      st := .relock, relockCnt := satU 8 (r.relockCnt + 1), inFrame := false, goodHdr := 0, badHdr := 0
      tiaWanted := none, acqStart := (modFr n (fun f => { f with soft := [] }) (eqNote n s)).clk })
      (modFr n (fun f => { f with soft := [] }) (eqNote n s))) := ⟨_, rfl⟩
  have hstep : LineStep n s u (s.lines[n].relocked s.clk) := by
    rw [hu]
    exact (((eqNote_step n s).modFr _).modRx _).modLine _
  have heq : enterRelock n s = match u.lines[n].eq.stored with
      | some k => if u.lines[n].act.tiaEn && u.rst.mgmtRun && !u.lines[n].rx.tiaStopped && tiaInRange u.lines[n].act k.tia != s.lines[n].rx.tiaCode
          then tiaWrite n (tiaInRange u.lines[n].act k.tia) 1 u else u
      | none => u := by
    rw [hu]
    rfl
  have hsame : ∃ v, LineStep n s u ((s.lines[n].relocked s.clk).stepDue v) := ⟨(s.lines[n].relocked s.clk).rx.vgaStepDue, hstep⟩
  rw [heq]
  split
  · next k hk =>
    split
    · obtain ⟨v, hv⟩ := tiaWrite_step n (tiaInRange u.lines[n].act k.tia) 1 u
      exact ⟨v, (hstep.trans hv).congr (by rw [hstep.line])⟩
    · exact hsame
  · exact hsame

/-! ### Answers on the way -/

theorem LatchesStay.after {s t u : State} (k : LatchesStay t u) (h : t.evt = s.evt) : LatchesStay s u := (LatchesStay.of_evt h).trans k

theorem cplLimit_latchesStay (s : State) : LatchesStay s (cplLimit s) := by
  unfold cplLimit
  split
  · exact .refl s
  · split
    · exact .refl s
    · dsimp only
      exact (raise_latchesStay _ _ _).after rfl

theorem answer_latchesStay (c : Cmd) (st : Byte) (fin : Bool) (time : CTime) (res : Nat) (s : State) :
    LatchesStay s (answer c st fin time res s) := by
  unfold answer
  split
  · exact .refl s
  · dsimp only
    split
    · exact .of_evt rfl
    · exact (cplLimit_latchesStay _).after rfl

theorem LineStep.answer {n : Fin 8} {s t : State} {l : Line} (h : LineStep n s t l) (c : Cmd) (st : Byte) (fin : Bool) (time : CTime)
    (res : Nat) : LineStep n s (answer c st fin time res t) l :=
  ⟨(line_of_lines (answer_lines t) n).trans h.line, otherLines_of_lines h.others (answer_lines t),
    h.latches.trans (answer_latchesStay c st fin time res t),
    answer_only h.only (by decide) (by decide) (by decide) (by decide)⟩

theorem LineStep.done {n : Fin 8} {s t : State} {l : Line} (h : LineStep n s t l) (c : Cmd) (res : Nat) :
    LineStep n s (done c res t) l := h.answer c _ _ _ _

theorem LineStep.dones {n : Fin 8} {s t : State} {l : Line} (h : LineStep n s t l) (res : Nat) (cs : List Cmd) :
    LineStep n s (cs.foldl (fun s c => Machine.done c res s) t) l := by
  induction cs generalizing t with
  | nil => exact h
  | cons c cs ih => exact ih (h.done c res)

/-! ### Leaving DARK, OFF, FRAME and RELOCK -/

/-- A requester that begins an exchange. -/
def Line.exchangeBegun (l : Line) : Line := { l with tx := { l.tx with
  trnState := 1, reqCnt := 0, retryCnt := 0, mismatchRaised := false, restartAtUp := false, marginAtStart := l.eq.margin
  trainCmds := []
  proc := some { offIdx := 0, decrease := false, improved := false, base := 0, applied := 0, step := .base 2 0, ctx := 0
                 msg := 0, busy := false } } }

theorem trnBegin_step (n : Fin 8) (s : State) : LineStep n s (trnBegin n s) s.lines[n].exchangeBegun :=
  ((LineStep.refl n s).modLine _).dones 0 _

theorem trnAtUp_step (n : Fin 8) (cold : Bool) (s : State) : ∃ x, LineStep n s (trnAtUp n cold s) { s.lines[n] with tx := x } := by
  unfold trnAtUp
  dsimp only
  split
  · split
    · exact ⟨_, trnBegin_step n s⟩
    · exact ⟨_, (LineStep.refl n s).modTx _⟩
  · exact ⟨_, .refl n s⟩

theorem LineStep.draw {n : Fin 8} {s t : State} {l : Line} (h : LineStep n s t l) : LineStep n s (draw t).2 l :=
  h.of_only (draw_only (.refl [.free] t) (by decide)) (by decide)

theorem setRxBuffer_step (n : Fin 8) (s : State) :
    ∃ d, LineStep n s (setRxBuffer n s) { s.lines[n] with rx := { s.lines[n].rx with rxDelay := d } } := by
  unfold setRxBuffer latDraw
  dsimp only
  split
  · exact ⟨_, (LineStep.refl n s).modRx _⟩
  · exact ⟨_, (LineStep.refl n s).draw.modRx _⟩

/-- The receiver of a lane in UP from an instant on. -/
def LineRx.risen (clk rxDelay txDelay : Nat) (r : LineRx) : LineRx := { r with
  rxDelay := rxDelay, txDelay := txDelay, st := .up, cdrLock := true, fallback := r.fallback && !(r.st == .relock)
  outTicks := r.outTicks + (clk - r.outSince), outSince := clk }

theorem enterUp_step (n : Fin 8) (s : State) : (∃ d e x, LineStep n s (enterUp n s)
    { s.lines[n] with rx := s.lines[n].rx.risen s.clk d e, tx := x }) ∧ Latched (lineSrc n 0x03) s (enterUp n s) := by
  obtain ⟨d, hset⟩ := setRxBuffer_step n s
  obtain ⟨u, hu⟩ : ∃ u, u = modRx n (fun r => { r with
      txDelay := if fixedLat (setRxBuffer n s) then 0 else r.txDelay
      st := .up, cdrLock := true, fallback := r.fallback && !(s.lines[n].rx.st == .relock)
      outTicks := r.outTicks + ((setRxBuffer n s).clk - r.outSince), outSince := (setRxBuffer n s).clk }) (setRxBuffer n s) := ⟨_, rfl⟩
  obtain ⟨p, hp⟩ : ∃ p, p = pay2 (b2n (s.lines[n].rx.st == .relock)) (satU 16 (ticksUs (u.clk - s.lines[n].rx.acqStart))) := ⟨_, rfl⟩
  have heq : enterUp n s = trnAtUp n (!(s.lines[n].rx.st == .relock)) (raise (lineSrc n 0x03) p u) := by
    rw [hp, hu]
    rfl
  have hup : LineStep n s u { s.lines[n] with
      rx := s.lines[n].rx.risen s.clk d (if fixedLat (setRxBuffer n s) then 0 else s.lines[n].rx.txDelay) } := by
    rw [hu]
    exact (hset.modRx _).congr (by rw [hset.clk]; rfl)
  obtain ⟨x, hx⟩ := trnAtUp_step n (!(s.lines[n].rx.st == .relock)) (raise (lineSrc n 0x03) p u)
  rw [heq]
  exact ⟨⟨d, _, x, ((hup.raise _ _).trans hx).congr (by rw [(hup.raise _ _).line])⟩,
    Latched.stays (latched_lineSrc n (by decide) p u) hup.latches hx.latches⟩

theorem outageFromOff_step (n : Fin 8) (s : State) : ∃ q, LineStep n s (outageFromOff n s) { s.lines[n] with
    rx := { s.lines[n].rx with outage := true, outTicks := 0, outSince := s.clk, past2ms := true, squelch := q } } := by
  have hset := (LineStep.refl n s).modRx fun r => { r with outage := true, outTicks := 0, outSince := s.clk, past2ms := true }
  have h := hset.trans (squelch_step n false _)
  rw [modRx_line] at h
  exact ⟨_, h⟩

theorem darkLiveSet_step (n : Fin 8) (s : State) : ∃ x, LineStep n s (darkLiveSet n s) { s.lines[n] with tx := x } := by
  unfold darkLiveSet
  dsimp only
  have h := (LineStep.refl n s).modLine fun l =>
    if l.tx.restartAtUp && l.tx.trnState == 5 then { l with tx := { l.tx with live := txLoad (modeOf s) l } } else l
  by_cases hc : (s.lines[n].tx.restartAtUp && s.lines[n].tx.trnState == 5) = true
  · exact ⟨_, h.congr (if_pos hc)⟩
  · exact ⟨_, h.congr (if_neg hc)⟩

/-- A lane that is about to leave DARK, with its transmitter. -/
def Line.undarkened (x : LineTx) (l : Line) : Line := { l with rx := { l.rx with darkByRefclk := false }, tx := x }

/-- A lane that leaves DARK enters RELOCK with its stored bank, within 1 s, or GAIN. -/
theorem leaveDark_step (n : Fin 8) (s : State) : ∃ x v, LineStep n s (leaveDark n s)
    (if s.lines[n].eq.stored.isSome = true ∧ s.clk - s.lines[n].rx.darkSince ≤ oneSecond
      then ((s.lines[n].undarkened x).relocked s.clk).stepDue v else (s.lines[n].undarkened x).gained false s.clk) := by
  obtain ⟨u, hu⟩ : ∃ u, u = (if s.lines[n].rx.darkByRefclk then s
      else raise (lineSrc n 0x02) (pay1 (satU 32 (ticksUs (s.clk - s.lines[n].rx.darkSince)))) s) := ⟨_, rfl⟩
  have hfirst : LineStep n s u s.lines[n] := by
    rw [hu]
    split
    · exact .refl n s
    · exact (LineStep.refl n s).raise _ _
  obtain ⟨x, hx⟩ := darkLiveSet_step n (modRx n (fun r => { r with darkByRefclk := false }) u)
  have hlive := ((hfirst.modRx fun r => { r with darkByRefclk := false }).trans hx).congr (by rw [modRx_line, hfirst.line])
  have heq : leaveDark n s = if s.lines[n].eq.stored.isSome && decide (s.clk - s.lines[n].rx.darkSince ≤ oneSecond)
      then enterRelock n (darkLiveSet n (modRx n (fun r => { r with darkByRefclk := false }) u))
      else enterGain n false (darkLiveSet n (modRx n (fun r => { r with darkByRefclk := false }) u)) := by
    rw [hu]
    rfl
  rw [heq]
  by_cases hc : s.lines[n].eq.stored.isSome = true ∧ s.clk - s.lines[n].rx.darkSince ≤ oneSecond
  · obtain ⟨v, hv⟩ := enterRelock_step n (darkLiveSet n (modRx n (fun r => { r with darkByRefclk := false }) u))
    refine ⟨x, v, ?_⟩
    rw [if_pos (by simpa using hc), if_pos hc]
    exact (hlive.trans hv).congr (by rw [hlive.line, hlive.clk]; rfl)
  · refine ⟨x, none, ?_⟩
    rw [if_neg (by simpa using hc), if_neg hc]
    exact (hlive.trans (enterGain_step n false _)).congr (by rw [hlive.line, hlive.clk]; rfl)

end Sys2Proof.Machine
end

section
/-! SUPPORT. Signal loss, light, acquisition, locks and outages of a line lane: the statements about them. -/

namespace Sys2Proof.Machine

open Sys2Proof

/-- The receiver keeps its signal detector through DARK and an outage. -/
theorem LineRx.sigDet_keeps (clk : Nat) (q quiet : Bool) (r : LineRx) : ((r.outageFrom clk).squelched q).sigDet = r.sigDet ∧
    (r.darkened clk quiet).sigDet = r.sigDet := by
  refine ⟨?_, rfl⟩
  unfold LineRx.outageFrom
  split
  · rfl
  · rfl

/-- A loss outside OFF and DARK. -/
theorem signalLoss_dark (n : Fin 8) (s : State) (hoff : s.lines[n].rx.st ≠ .off) (hdark : s.lines[n].rx.st ≠ .dark) :
    (∃ l, LineStep n s (signalLoss n s) l ∧ l.rx.st = .dark ∧ l.rx.sigDet = false ∧ l.eq.stored = s.lines[n].eq.stored ∧
      l.rx.vga = 80 ∧ l.rx.darkSince = s.clk ∧ (s.lines[n].rx.st = .up → l.rx.outage = true)) ∧
    Latched (lineSrc n 0x01) s (signalLoss n s) := by
  obtain ⟨u, hu⟩ : ∃ u, u = modRx n (fun r => { r with sigDet := false }) s := ⟨_, rfl⟩
  have hset : LineStep n s u { s.lines[n] with rx := { s.lines[n].rx with sigDet := false } } := by
    rw [hu]
    exact (LineStep.refl n s).modRx _
  have heq : signalLoss n s = enterDark n false u := by
    unfold signalLoss
    rw [hu]
    exact if_neg fun h => h.elim hoff hdark
  obtain ⟨q, hfront, -⟩ := darkFront_loud n u
  have hstep := hset.trans (enterDark_step hfront)
  rw [heq]
  refine ⟨⟨_, hstep, rfl, ?_, ?_, rfl, ?_, fun hup => ?_⟩, Latched.stays (enterDark_latched n u) hset.latches (.refl _)⟩
  · dsimp only
    rw [(LineRx.sigDet_keeps u.clk q false _).2]
    split
    · rw [(LineRx.sigDet_keeps u.clk q false _).1, hset.line]
    · rw [hset.line]
  · dsimp only
    rw [hset.line]
  · exact hset.clk
  · dsimp only
    rw [hset.line, if_pos hup]
    exact LineRx.outageFrom_outage _ _

/-- Light that the comparator hides, or that the lane cannot take, changes no state. -/
theorem lightCheck_unseen {n : Fin 8} {s : State} (h : lightSeen s n = false) : lightCheck n s = s := if_pos (by rw [h]; rfl)

theorem lightCheck_seen {n : Fin 8} {s : State} (h : lightSeen s n = true) : lightCheck n s = match s.lines[n].rx.st with
    | .off => if rxReady s n then enterGain n false (outageFromOff n s) else s
    | .dark => if s.refOk then leaveDark n s else s
    | _ => s := by
  exact if_neg (by simp [h])

/-- The state in which the level reports light. -/
def lit (n : Fin 8) (s : State) : State := modRx n (fun r => { r with sigDet := true }) s

theorem lit_step (n : Fin 8) (s : State) : LineStep n s (lit n s) { s.lines[n] with rx := { s.lines[n].rx with sigDet := true } } :=
  (LineStep.refl n s).modRx _

theorem lightSeen_lit (n : Fin 8) (s : State) : lightSeen (lit n s) n = !compDark s n := by
  have hdark : compDark (lit n s) n = compDark s n := by
    unfold compDark
    rw [(lit_step n s).line]
    rfl
  unfold lightSeen
  rw [hdark, (lit_step n s).line]
  rfl

theorem rxReady_lit (n : Fin 8) (s : State) : rxReady (lit n s) n = rxReady s n := by
  unfold rxReady
  rw [(lit_step n s).line]
  rfl

theorem lightOn_held {n : Fin 8} {s : State} (hoff : s.lines[n].rx.st = .off) (hr : rxReady s n = false) : lightOn n s = s := by
  unfold lightOn
  dsimp only
  rw [if_pos (by rw [hoff, hr]; rfl)]
  by_cases hs : lightSeen s n = true
  · rw [lightCheck_seen hs, hoff, hr]
    rfl
  · exact lightCheck_unseen (by simpa using hs)

theorem lightOn_lit {n : Fin 8} {s : State} (h : ¬(s.lines[n].rx.st = .off ∧ rxReady s n = false)) :
    lightOn n s = lightCheck n (lit n s) := by
  unfold lightOn
  dsimp only
  rw [if_neg (by simpa using h)]
  rfl

/-- The state that light takes a lane to. -/
def litState (n : Fin 8) (s : State) : AcqState :=
  if compDark s n = true then s.lines[n].rx.st
  else if s.lines[n].rx.st = .off ∧ rxReady s n = true then .gain
  else if s.lines[n].rx.st = .dark ∧ s.refOk = true then
    (if s.lines[n].eq.stored.isSome = true ∧ s.clk - s.lines[n].rx.darkSince ≤ oneSecond then .relock else .gain)
  else s.lines[n].rx.st

theorem litState_held {n : Fin 8} {s : State} (hoff : s.lines[n].rx.st = .off) (hr : rxReady s n = false) : litState n s = .off := by
  unfold litState
  rw [hoff, hr]
  simp

theorem litState_still {n : Fin 8} {s : State} (h : compDark s n = true ∨ s.lines[n].rx.st ≠ .off ∧ s.lines[n].rx.st ≠ .dark ∨
    s.lines[n].rx.st = .dark ∧ s.refOk = false) : litState n s = s.lines[n].rx.st := by
  unfold litState
  rcases h with h | h | h
  · exact if_pos h
  · rw [if_neg (c := _ ∧ rxReady s n = true) fun e => h.1 e.1, if_neg (c := _ ∧ s.refOk = true) fun e => h.2 e.1, ite_self]
  · rw [if_neg (c := _ ∧ rxReady s n = true) fun e => absurd (h.1.symm.trans e.1) (by decide),
      if_neg (c := _ ∧ s.refOk = true) fun e => absurd (h.2.symm.trans e.2) (by decide), ite_self]

theorem litState_off {n : Fin 8} {s : State} (hc : compDark s n = false) (hoff : s.lines[n].rx.st = .off) (hr : rxReady s n = true) :
    litState n s = .gain := by
  unfold litState
  rw [if_neg (by rw [hc]; decide), if_pos ⟨hoff, hr⟩]

theorem litState_dark {n : Fin 8} {s : State} (hc : compDark s n = false) (hd : s.lines[n].rx.st = .dark) (hr : s.refOk = true) :
    litState n s = if s.lines[n].eq.stored.isSome = true ∧ s.clk - s.lines[n].rx.darkSince ≤ oneSecond then .relock else .gain := by
  unfold litState
  rw [if_neg (by rw [hc]; decide), if_neg (c := _ ∧ rxReady s n = true) fun e => absurd (hd.symm.trans e.1) (by decide),
    if_pos ⟨hd, hr⟩]

/-- Light, where the lane may take it: the lane's state and its detector. -/
theorem lightCheck_lit (n : Fin 8) (s : State) (h : ¬(s.lines[n].rx.st = .off ∧ rxReady s n = false)) :
    ∃ l, LineStep n s (lightCheck n (lit n s)) l ∧ l.rx.sigDet = true ∧ l.rx.st = litState n s := by
  have hlit := lit_step n s
  have hstate : (lit n s).lines[n].rx.st = s.lines[n].rx.st := by rw [hlit.line]
  have hstill : ∀ hs : litState n s = s.lines[n].rx.st, ∃ l, LineStep n s (lit n s) l ∧ l.rx.sigDet = true ∧ l.rx.st = litState n s :=
    fun hs => ⟨_, hlit, rfl, hs.symm⟩
  cases hdark : compDark s n with
  | true =>
    rw [lightCheck_unseen (by rw [lightSeen_lit, hdark]; rfl)]
    exact hstill (litState_still (.inl hdark))
  | false =>
    rw [lightCheck_seen (by rw [lightSeen_lit, hdark]; rfl), hstate, rxReady_lit]
    split
    · next hoff =>
      have hr : rxReady s n = true := by simpa using fun e => h ⟨hoff, e⟩
      obtain ⟨q, hq⟩ := outageFromOff_step n (lit n s)
      rw [if_pos hr]
      refine ⟨_, (hlit.trans hq).trans (enterGain_step n false _), ?_, ?_⟩
      · rw [hq.line, hlit.line]
        rfl
      · exact (litState_off hdark hoff hr).symm
    · next hin =>
      have hclk : (lit n s).refOk = s.refOk := rfl
      rw [hclk]
      split
      · next href =>
        obtain ⟨x, v, hleave⟩ := leaveDark_step n (lit n s)
        have hstep := hlit.trans hleave
        rw [hlit.line, hlit.clk] at hstep
        refine ⟨_, hstep, ?_, ?_⟩
        · dsimp only
          split
          · exact congrArg (·.sigDet) (Line.restored_rx _)
          · rfl
        · rw [litState_dark hdark hin href]
          dsimp only
          split
          · exact congrArg (·.st) (Line.restored_rx _)
          · rfl
      · next href => exact hstill (litState_still (.inr (.inr ⟨hin, by simpa using href⟩)))
    · next hoff hin => exact hstill (litState_still (.inr (.inl ⟨hoff, hin⟩)))

/-- Settles O38: loss and light, state by state. -/
theorem lineSignal : Obligations.LineSignal := by
  intro n s
  refine ⟨fun hoff => congrArg Host.Outcome.next (if_pos (.inl hoff)), fun hoff => ?_, ?_⟩
  · by_cases hdark : s.lines[n].rx.st = .dark
    · have hstep := (LineStep.refl n s).modRx fun r => { r with sigDet := false }
      refine ⟨_, congrArg Host.Outcome.next (if_pos (.inr hdark)), hstep.others, ?_, ?_, ?_, fun h => absurd hdark h, fun hup => ?_⟩
      · exact (congrArg (·.rx.st) hstep.line).trans hdark
      · exact congrArg (·.rx.sigDet) hstep.line
      · exact congrArg (·.eq.stored) hstep.line
      · exact absurd (hdark.symm.trans hup) (by decide)
    · obtain ⟨⟨l, hl, h1, h2, h3, h4, h5, h6⟩, hlatch⟩ := signalLoss_dark n s hoff hdark
      refine ⟨_, rfl, hl.others, ?_, ?_, ?_, fun _ => ⟨?_, ?_, hlatch⟩, fun hup => ?_⟩
      · rw [hl.line]; exact h1
      · rw [hl.line]; exact h2
      · rw [hl.line]; exact h3
      · rw [hl.line]; exact h4
      · rw [hl.line]; exact h5
      · rw [hl.line]; exact h6 hup
  · by_cases h : s.lines[n].rx.st = .off ∧ rxReady s n = false
    · refine ⟨s, congrArg Host.Outcome.next (lightOn_held h.1 h.2), fun _ _ => rfl, (if_pos h).symm, ?_⟩
      exact h.1.trans (litState_held h.1 h.2).symm
    · obtain ⟨l, hl, hsig, hst⟩ := lightCheck_lit n s h
      refine ⟨_, congrArg Host.Outcome.next (lightOn_lit h), hl.others, ?_, ?_⟩
      · rw [hl.line, if_neg h]
        exact hsig
      · rw [hl.line]
        exact hst

/-! ### Acquisition -/

/-- Lock lost in UP. -/
theorem loseLock_up {n : Fin 8} {cause : Nat} {s : State} (hup : s.lines[n].rx.st = .up) :
    (∃ q v, LineStep n s (loseLock n cause s)
      ((({ s.lines[n] with rx := (s.lines[n].rx.outageFrom s.clk).squelched q } : Line).relocked s.clk).stepDue v)) ∧
    Latched (lineSrc n 0x00) s (loseLock n cause s) := by
  have heq : loseLock n cause s = enterRelock n (outageStart n (raise (lineSrc n 0x00) (pay1 cause) s)) := if_pos hup
  have hraise := (LineStep.refl n s).raise (lineSrc n 0x00) (pay1 cause)
  obtain ⟨q, hq⟩ := outageStart_step n (raise (lineSrc n 0x00) (pay1 cause) s)
  obtain ⟨v, hv⟩ := enterRelock_step n (outageStart n (raise (lineSrc n 0x00) (pay1 cause) s))
  rw [heq]
  refine ⟨⟨q, v, ((hraise.trans hq).trans hv).congr ?_⟩, Latched.stays (latched_lineSrc n (by decide) _ s) (.refl s) (hq.trans hv).latches⟩
  rw [hq.line, hq.clk, hraise.clk, hraise.line]

theorem loseLock_other {n : Fin 8} {cause : Nat} {s : State} (hup : s.lines[n].rx.st ≠ .up) : loseLock n cause s = s := if_neg hup

theorem modRx_only' (n : Fin 8) (f : LineRx → LineRx) (s : State) : Only [.lines] s (modRx n f s) := modRx_only (.refl _ s) (by decide)

/-- A lane in TIMING whose skew figures are a quality window old. -/
def timedLane : State := modRx 0 (fun r => { r with st := .timing, skewWins := 1 }) awake

/-- Refutes O39: the entry into TRAIN begins the count of windows since the skew figures anew, and the statement has it stay. -/
theorem not_lineAcquisition : ¬ Obligations.LineAcquisition := by
  intro h
  obtain ⟨-, -, htrain, -⟩ := h 0 timedLane
  obtain ⟨t, ht, -, -, hrx, -⟩ := htrain (by decide +kernel)
  obtain rfl := Host.Outcome.next.inj ht
  exact absurd (congrArg LineRx.skewWins hrx) (by decide +kernel)

/-! ### Locks and outages -/

theorem LineStep.raiseLimited {n : Fin 8} {s t : State} {l : Line} (h : LineStep n s t l) (src inst : Nat) (p : Word) :
    LineStep n s (raiseLimited src inst p t) l :=
  ⟨(line_of_lines (raiseLimited_lines t) n).trans h.line, otherLines_of_lines h.others (raiseLimited_lines t),
    h.latches.trans (raiseLimited_latchesStay src inst p t), raiseLimited_only h.only (by decide) (by decide) (by decide)⟩

/-- An event that was never raised before is raised. -/
theorem raiseLimited_latched {src inst : Nat} {p : Word} {s : State} (hc : (evtClass src).isSome) (h : lastRaised src inst s = none) :
    Latched src s (raiseLimited src inst p s) := by
  obtain ⟨r, hr⟩ := raiseLimited_due (s := s) p fun e he => absurd (h.symm.trans he) (by simp)
  rw [hr]
  refine Latched.stays (latched_raise hc p _) ?_ (.refl _)
  exact ⟨rfl, fun _ hl => hl⟩

/-- The state with the lane in frame. -/
def framed (n : Fin 8) (b : Bool) (s : State) : State := modRx n (fun r => { r with inFrame := b }) s

theorem framed_step (n : Fin 8) (b : Bool) (s : State) :
    LineStep n s (framed n b s) { s.lines[n] with rx := { s.lines[n].rx with inFrame := b } } := (LineStep.refl n s).modRx _

theorem frameCheck_framed {n : Fin 8} {s : State} : frameCheck n (framed n true s) =
    if s.lines[n].rx.st = .frame ∨ s.lines[n].rx.st = .relock then enterUp n (framed n true s) else framed n true s := by
  unfold frameCheck
  rw [(framed_step n true s).line]
  exact if_congr (by simp) rfl rfl

/-- Codeword lock in a state that frames. -/
theorem codewordLock_step {n : Fin 8} {s : State} (h4 : modeOf s = 4) (h3 : lineCode s n = 3)
    (hst : s.lines[n].rx.st = .frame ∨ s.lines[n].rx.st = .up ∨ s.lines[n].rx.st = .relock) :
    ∃ l, LineStep n s (codewordLock n s) l ∧ l.rx.inFrame = true ∧ l.rx.st = .up ∧
      (s.lines[n].rx.st = .frame ∨ s.lines[n].rx.st = .relock →
        l.rx.outSince = s.clk ∧ Latched (lineSrc n 0x03) s (codewordLock n s)) := by
  have heq : codewordLock n s = frameCheck n (framed n true s) := if_pos ⟨h4, h3, hst⟩
  have hframed := framed_step n true s
  rw [heq, frameCheck_framed]
  by_cases hup : s.lines[n].rx.st = .frame ∨ s.lines[n].rx.st = .relock
  · obtain ⟨⟨d, e, x, hrise⟩, hlatch⟩ := enterUp_step n (framed n true s)
    rw [if_pos hup]
    refine ⟨_, hframed.trans hrise, ?_, rfl, fun _ => ⟨hframed.clk, Latched.stays hlatch hframed.latches (.refl _)⟩⟩
    rw [hframed.line]
    rfl
  · rw [if_neg hup]
    refine ⟨_, hframed, rfl, ?_, fun h => absurd h hup⟩
    exact hst.elim (fun h => absurd (.inl h) hup) fun h => h.elim id fun h => absurd (.inr h) hup

/-- Codeword lock lost. -/
theorem codewordLockLost_step {n : Fin 8} {s : State} (h4 : modeOf s = 4) (h3 : lineCode s n = 3) :
    ∃ l, LineStep n s (codewordLockLost n s) l ∧ l.rx.inFrame = false ∧
      l.rx.st = (if s.lines[n].rx.st = .up then .relock else s.lines[n].rx.st) ∧
      (s.lines[n].rx.st = .up → Latched (lineSrc n 0x00) s (codewordLockLost n s)) := by
  have heq : codewordLockLost n s = loseLock n 2 (framed n false s) := if_pos ⟨h4, h3⟩
  have hframed := framed_step n false s
  rw [heq]
  by_cases hup : s.lines[n].rx.st = .up
  · obtain ⟨⟨q, v, hlost⟩, hlatch⟩ := loseLock_up (n := n) (cause := 2) (s := framed n false s) (by rw [hframed.line]; exact hup)
    rw [if_pos hup]
    refine ⟨_, hframed.trans hlost, ?_, ?_, fun _ => Latched.stays hlatch hframed.latches (.refl _)⟩
    · exact congrArg (·.inFrame) (Line.restored_rx _)
    · exact congrArg (·.st) (Line.restored_rx _)
  · rw [loseLock_other (by rw [hframed.line]; exact hup), if_neg hup]
    exact ⟨_, hframed, rfl, rfl, fun h => absurd h hup⟩

/-- The 2 ms point of an outage, reached. -/
theorem outagePoint_reached {n : Fin 8} {s : State} (h : (s.lines[n].rx.outage && !s.lines[n].rx.past2ms && s.refOk &&
    s.lines[n].rx.st != .up && s.lines[n].rx.st != .off) = true) :
    LineStep n s (outagePoint n s) { s.lines[n] with
      rx := ({ s.lines[n].rx with past2ms := true } : LineRx).squelched (portOfLine (modeOf s) n).isSome } ∧
    (s.lines[n].rx.squelch = false → (portOfLine (modeOf s) n).isSome = true → Latched (lineSrc n 0x06) s (outagePoint n s)) := by
  have heq : outagePoint n s = squelch n true (modRx n (fun r => { r with past2ms := true }) s) := if_pos h
  have hset := (LineStep.refl n s).modRx fun r => { r with past2ms := true }
  rw [heq]
  refine ⟨(hset.trans (squelch_step n true _)).congr (by rw [hset.line]; rfl), fun hq hp => ?_⟩
  obtain ⟨p, hp⟩ := Option.isSome_iff_exists.1 hp
  have hloud : squelch n true (modRx n (fun r => { r with past2ms := true }) s) = raise (lineSrc n 0x06) (pay1 p.val)
      (modRx n (fun r => { r with squelch := true }) (modRx n (fun r => { r with past2ms := true }) s)) := by
    unfold squelch
    have hmode : portOfLine (modeOf (modRx n (fun r => { r with past2ms := true }) s)) n = some p := hp
    rw [hmode]
    dsimp only
    rw [if_neg (by rw [hset.line, hq]; decide), if_pos rfl]
  rw [hloud]
  refine Latched.stays (latched_lineSrc n (by decide) _ _) ?_ (.refl _)
  exact .of_evt rfl

/-- One lane of a port whose squelch is lifted with the others'. -/
theorem foldl_unsquelch (l : List (Fin 8)) (s : State) (k : Fin 8) :
    (l.foldl (fun s n => modRx n (fun r => { r with squelch := false }) s) s).lines[k] =
      if k ∈ l then { s.lines[k] with rx := { s.lines[k].rx with squelch := false } } else s.lines[k] := by
  induction l generalizing s with
  | nil => rfl
  | cons n l ih =>
    rw [List.foldl_cons, ih]
    by_cases hk : k = n
    · rw [hk, modRx_line, if_pos List.mem_cons_self]
      split
      · rfl
      · rfl
    · rw [modRx_otherLines n _ s k hk]
      exact if_congr (by simp [hk]) rfl rfl

/-- The state with a lane's header check failures of the interval cleared. -/
def errorsCleared (n : Fin 8) (s : State) : State := modFr n (fun f => { f with hchkInt := 0, scInt := 0 }) s

theorem errorsCleared_step (n : Fin 8) (s : State) :
    LineStep n s (errorsCleared n s) { s.lines[n] with fr := { s.lines[n].fr with hchkInt := 0, scInt := 0 } } :=
  (LineStep.refl n s).modFr _

/-- Settles O40, event by event. -/
theorem lineLocksAndOutage : Obligations.LineLocksAndOutage := by
  intro n s r f
  refine ⟨?noLock, ?lock, ?noErrors, ?errors, ?point, ?resume, ?ended⟩
  case noLock =>
    exact fun h => ⟨congrArg Host.Outcome.next (if_neg fun k => h ⟨k.1, k.2.1⟩), congrArg Host.Outcome.next (if_neg h)⟩
  case lock =>
    intro h4 h3
    refine ⟨fun h => congrArg Host.Outcome.next (if_neg fun k => h k.2.2), fun h => ?_, ?_⟩
    · obtain ⟨l, hl, hin, hst, hrise⟩ := codewordLock_step h4 h3 h
      refine ⟨_, rfl, hl.others, by rw [hl.line]; exact hin, by rw [hl.line]; exact hst, fun hr => ?_⟩
      obtain ⟨hout, hlatch⟩ := hrise hr
      exact ⟨hlatch, by rw [hl.line]; exact hout⟩
    · obtain ⟨l, hl, hin, hst, hlatch⟩ := codewordLockLost_step h4 h3
      exact ⟨_, rfl, hl.others, by rw [hl.line]; exact hin, by rw [hl.line]; exact hst, hlatch⟩
  case noErrors => exact fun h1 h2 => congrArg Host.Outcome.next (if_pos ⟨h1, h2⟩)
  case errors =>
    intro h
    have hstep := (errorsCleared_step n s).raiseLimited (lineSrc n 0x1A) 0
      (pay2 (satU 16 f.hchkInt) (satU 16 f.scInt))
    refine ⟨_, congrArg Host.Outcome.next (if_neg h), hstep.others, hstep.line, fun hnone => ?_⟩
    have hlatch := raiseLimited_latched (p := pay2 (satU 16 f.hchkInt) (satU 16 f.scInt)) (s := errorsCleared n s)
      (evtClass_lineSrc_isSome n (by decide)) hnone
    exact Latched.stays hlatch (.of_evt rfl) (.refl _)
  case point =>
    intro reach
    have hiff : (r.outage && !r.past2ms && s.refOk && r.st != .up && r.st != .off) = true ↔ reach := by
      simp [reach, and_assoc]
    refine ⟨fun h => congrArg Host.Outcome.next (if_neg fun k => h (hiff.1 k)), fun h => ?_⟩
    obtain ⟨hstep, hlatch⟩ := outagePoint_reached (hiff.2 h)
    exact ⟨_, rfl, hstep.others, by rw [hstep.line]; rfl, hlatch⟩
  case resume =>
    intro p again
    have hmem : ∀ k, k ∈ linesOfPort (modeOf s) p ↔ portOfLine (modeOf s) k = some p := fun k => by
      simp [linesOfPort]
    have hiff : (portEnabled s p && ((linesOfPort (modeOf s) p).all fun n => s.lines[n].rx.st == .up) && !s.ports[p].sqDeskew) = true ↔ again := by
      rw [Bool.and_eq_true, Bool.and_eq_true, List.all_eq_true, and_assoc]
      exact and_congr_right' (and_congr (forall_congr' fun k => by rw [hmem, beq_iff_eq]) (by simp))
    refine ⟨fun h => congrArg Host.Outcome.next (if_neg fun k => h (hiff.1 k)), fun h => ?_⟩
    refine ⟨_, congrArg Host.Outcome.next (if_pos (hiff.2 h)), ?_, fun k => ?_⟩
    · exact (foldl_only _ _ (fun _ _ hx => modRx_only hx (by decide)) (.refl _ s)).only
    · rw [foldl_unsquelch]
      exact if_congr (hmem k) rfl rfl
  case ended =>
    by_cases hup : r.st = .up
    · have h := (LineStep.refl n s).modRx fun r => { r with outage := false, outTicks := 0, past2ms := false }
      exact ⟨_, congrArg Host.Outcome.next (if_pos hup), h.others, (modRx_only' n _ s).only, h.line.trans (if_pos hup).symm⟩
    · exact ⟨s, congrArg Host.Outcome.next (if_neg hup), fun _ _ => rfl, OnlyChanges.refl _ s, (if_neg hup).symm⟩

end Sys2Proof.Machine
end

section
/-! SUPPORT. The gain loop and the adaptation loops of a line lane: the statements about them. -/

namespace Sys2Proof.Machine

open Sys2Proof

/-- A lane in GAIN that is about to pick its TIA code, and whose bank permits none: CODE_MIN 2, CODE_MAX 1. -/
def pickingLane : State :=
  modLine 0 (fun l => { l with act := { l.act with rxfe := 0x00000200, tia := 0x00012000 }, rx := { l.rx with st := .gain, tiaPick := true } })
    awake

/-- Refutes O41: where CODE_MIN exceeds CODE_MAX the write of the code picked is dropped before it begins, and none is queued. -/
theorem not_lineGainAndPhases : ¬ Obligations.LineGainAndPhases := by
  intro h
  obtain ⟨hgain, -⟩ := h 0 pickingLane
  obtain ⟨t, ht, -, -, -, -, -, hfirst, -⟩ := hgain 0
  obtain rfl := Host.Outcome.next.inj ht
  obtain ⟨-, x, hx, -⟩ := hfirst (by decide +kernel)
  have hnone : (vgaStep 0 0 pickingLane).ocp = [] := by decide +kernel
  exact absurd (hnone ▸ hx) List.not_mem_nil

end Sys2Proof.Machine
end

section
/-! SUPPORT. The samples of a block through detector and loops: how many decisions leave, their log-likelihoods, the clamps of the loops;
and the statement about one update of the adaptation loops. -/

namespace Sys2Proof.Machine

open Sys2Proof

/-! ### The detector -/

/-- Two log-likelihoods within ±63.875 nats. -/
def LlrsBounded (l : List Int) : Prop := l.length = 2 ∧ ∀ w ∈ l, -511 ≤ w ∧ w ≤ 511

theorem llrOf_bounded (sigma2 one zero : Rat) : -511 ≤ llrOf sigma2 one zero ∧ llrOf sigma2 one zero ≤ 511 := by
  unfold llrOf
  omega

theorem symLlrs_bounded (sigma2 : Rat) (m : List Rat) : LlrsBounded (symLlrs sigma2 m) := by
  refine ⟨rfl, fun w hw => ?_⟩
  simp only [symLlrs, List.mem_cons, List.not_mem_nil, or_false] at hw
  rcases hw with rfl | rfl
  · exact llrOf_bounded _ _ _
  · exact llrOf_bounded _ _ _

theorem decideRun_bounded (pre : Bool) (c : EqCoefs) (sigma2 : Rat) (ins : List DetIn) (ms : List (List Rat)) (k count look : Nat)
    (before : List (Fin 4)) : (decideRun pre c sigma2 ins ms k count look before).length = count ∧
    ∀ d ∈ decideRun pre c sigma2 ins ms k count look before, LlrsBounded d.llr := by
  unfold decideRun
  induction count with
  | zero => exact ⟨rfl, nofun⟩
  | succ count ih =>
    obtain ⟨hlen, hall⟩ := ih
    rw [List.range_succ, List.foldl_append, List.foldl_cons, List.foldl_nil]
    dsimp only
    refine ⟨by rw [List.length_append, hlen, List.length_singleton], fun d hd => ?_⟩
    rcases List.mem_append.1 hd with hd | hd
    · exact hall d hd
    · rw [List.mem_singleton.1 hd]
      exact symLlrs_bounded _ _

/-- 64 inputs stay in the trellis, and each that was held before leaves as one decision. -/
theorem detect_block (pre : Bool) (b : LineBank) (e : LineEq) (xs : List Int) : (detect pre b e xs).1.ins.length = 64 ∧
    (detect pre b e xs).2.2.length = e.trellis.ins.length ∧ ∀ d ∈ (detect pre b e xs).2.2, LlrsBounded d.llr := by
  obtain ⟨hlen, hall⟩ := decideRun_bounded pre (detCoefs e) (sigma2Of e)
    (e.trellis.ins ++ (List.range 64).map fun j => eqOut b (detCoefs e) xs (63 - j))
    (metricsOf (detCoefs e) e.trellis.metric (e.trellis.ins ++ (List.range 64).map fun j => eqOut b (detCoefs e) xs (63 - j))) 0
    ((e.trellis.ins ++ (List.range 64).map fun j => eqOut b (detCoefs e) xs (63 - j)).length - 64) 64 e.trellis.fin
  refine ⟨?_, hlen.trans ?_, hall⟩
  · simp [detect]
  · simp

theorem acc_addTents (c : EqCoefs) (l : List Decided) (q : QualAcc) : (l.foldl (QualAcc.addTent c) q).n = q.n := by
  induction l generalizing q with
  | nil => rfl
  | cons d l ih => exact ih _

theorem acc_adds (c : EqCoefs) (l : List Decided) (q : QualAcc) : (l.foldl (QualAcc.add c) q).n = q.n + l.length := by
  induction l generalizing q with
  | nil => rfl
  | cons d l ih =>
    rw [List.foldl_cons, ih, List.length_cons]
    show q.n + 1 + l.length = q.n + (l.length + 1)
    omega

/-! ### The loops -/

theorem clampQ_bounds {lo hi : Rat} (h : lo ≤ hi) (v : Rat) : lo ≤ clampQ lo hi v ∧ clampQ lo hi v ≤ hi :=
  ⟨le_max_left _ _, max_le h (min_le_left _ _)⟩

section
variable (b : LineBank) (e : LineEq) (xs : List Int) (blk : List Decided)

theorem eqUpdate_rest : ∃ es, eqUpdate b e xs blk = { e with live := (eqUpdate b e xs blk).live, sweep := e.sweep.map (sweepAdd xs es) } := by
  refine ⟨blk.map fun x => (x, eqErr (detCoefs e) e.phase x), ?_⟩
  unfold eqUpdate
  dsimp only
  split
  · rfl
  · rfl

theorem eqUpdate_pos : (eqUpdate b e xs blk).live.pos = e.live.pos := by
  unfold eqUpdate
  dsimp only
  split
  · rfl
  · split
    · rfl
    · rfl

theorem eqUpdate_blind (h : e.phase = 1) : (eqUpdate b e xs blk).live = { e.live with main := (eqUpdate b e xs blk).live.main } := by
  unfold eqUpdate
  dsimp only
  rw [if_pos h]

theorem eqUpdate_mainFrozen (h : bit b.eqCtl 4 = true) : (eqUpdate b e xs blk).live.main = e.live.main := by
  unfold eqUpdate
  dsimp only
  rw [if_pos h]
  split
  · rfl
  · split
    · rfl
    · rfl

theorem eqUpdate_fgFrozen (h : bit b.eqCtl 5 = true) : (eqUpdate b e xs blk).live.fg = e.live.fg := by
  unfold eqUpdate
  dsimp only
  rw [if_pos h]
  split
  · rfl
  · split
    · rfl
    · rfl

theorem eqUpdate_nlFrozen (h : bit b.eqCtl 6 = true) : (eqUpdate b e xs blk).live.nl = e.live.nl := by
  unfold eqUpdate
  dsimp only
  rw [h, Bool.true_or, if_pos rfl]
  split
  · rfl
  · split
    · rfl
    · rfl

theorem eqUpdate_levelsFrozen (h : bit b.eqCtl 7 = true) : (eqUpdate b e xs blk).live = { (eqUpdate b e xs blk).live with
    h1 := e.live.h1, h2 := e.live.h2, ofs := e.live.ofs, lvl1 := e.live.lvl1, lvl2 := e.live.lvl2 } := by
  unfold eqUpdate
  simp only [h, if_true]
  split
  · rfl
  · rfl

theorem eqUpdate_main (h : bit b.eqCtl 4 = false) : ∃ g : Nat → Rat, (eqUpdate b e xs blk).live.main =
    (List.range 64).map fun i => if tapUsed b e.muted i then clampQ (-8) (8 - 1 / 256) (g i) else 0 := by
  refine ⟨fun i => e.live.main.getD i 0 - (if e.phase = 1 then stepSize (bits b.eqMu 24 4)
    else stepSize (bits b.eqMu (if e.phase = 3 then 4 else 0) 4)) *
    gradOf (blk.map fun x => (x, eqErr (detCoefs e) e.phase x)) fun x => sampleAt xs x.age ((i : Int) - b.mainTap), ?_⟩
  unfold eqUpdate
  simp only [h, Bool.false_eq_true, if_false]
  split
  · rfl
  · split
    · rfl
    · rfl

theorem eqUpdate_mainBounds (h : bit b.eqCtl 4 = false) : ∀ c ∈ (eqUpdate b e xs blk).live.main, -8 ≤ c ∧ c < 8 := by
  obtain ⟨g, hg⟩ := eqUpdate_main b e xs blk h
  intro c hc
  rw [hg] at hc
  obtain ⟨i, -, rfl⟩ := List.mem_map.1 hc
  split
  · obtain ⟨hlo, hhi⟩ := clampQ_bounds (lo := -8) (hi := 8 - 1 / 256) (by norm_num) (g i)
    exact ⟨hlo, lt_of_le_of_lt hhi (by norm_num)⟩
  · norm_num

/-- The levels that adapt are clamped around the adapted offset. -/
theorem eqUpdate_levels (hp : e.phase ≠ 1) (h : bit b.eqCtl 7 = false) : ∃ v0 v1 v2 v3 : Rat,
    let c := (eqUpdate b e xs blk).live
    c.h1 = clampQ (-3 / 4) (3 / 4) v0 ∧ c.ofs = clampQ (-32) 32 v1 ∧ c.lvl1 = clampQ (-56 + c.ofs) (-8 + c.ofs) v2 ∧
    c.lvl2 = clampQ (8 + c.ofs) (56 + c.ofs) v3 := by
  unfold eqUpdate
  simp only [h, Bool.false_eq_true, if_false, if_neg hp]
  exact ⟨_, _, _, _, rfl, rfl, rfl, rfl⟩

theorem eqUpdate_levelBounds (hp : e.phase ≠ 1) (h : bit b.eqCtl 7 = false) : let c := (eqUpdate b e xs blk).live;
    -3 / 4 ≤ c.h1 ∧ c.h1 ≤ 3 / 4 ∧ -32 ≤ c.ofs ∧ c.ofs ≤ 32 ∧ c.ofs - 56 ≤ c.lvl1 ∧ c.lvl1 ≤ c.ofs - 8 ∧
    c.ofs + 8 ≤ c.lvl2 ∧ c.lvl2 ≤ c.ofs + 56 := by
  obtain ⟨v0, v1, v2, v3, h1, hofs, hlvl1, hlvl2⟩ := eqUpdate_levels b e xs blk hp h
  intro c
  obtain ⟨hlo0, hhi0⟩ := clampQ_bounds (lo := -3 / 4) (hi := 3 / 4) (by norm_num) v0
  obtain ⟨hlo1, hhi1⟩ := clampQ_bounds (lo := -32) (hi := 32) (by norm_num) v1
  obtain ⟨hlo2, hhi2⟩ := clampQ_bounds (lo := -56 + c.ofs) (hi := -8 + c.ofs) (by linarith) v2
  obtain ⟨hlo3, hhi3⟩ := clampQ_bounds (lo := 8 + c.ofs) (hi := 56 + c.ofs) (by linarith) v3
  rw [← h1] at hlo0 hhi0
  rw [← hofs] at hlo1 hhi1
  rw [← hlvl1] at hlo2 hhi2
  rw [← hlvl2] at hlo3 hhi3
  refine ⟨hlo0, hhi0, hlo1, hhi1, ?_, ?_, ?_, ?_⟩
  all_goals linarith

end

/-! ### A block through the lane -/

theorem LineStep.of_eq {n : Fin 8} {s t u : State} {l : Line} (h : LineStep n s t l) (e : u = t) : LineStep n s u l := e ▸ h

/-- The samples of a block before those that the lane holds. -/
def LineEq.samples (e : LineEq) (xs : List Int) : List Int := ((xs.map adcClip).reverse ++ e.xs).take 1104

/-- What the detector makes of the block. -/
def blockOf (n : Fin 8) (xs : List Int) (s : State) : Trellis × List Decided × List Decided :=
  detect (decide (modeOf s = 4) && Config.pmdPrecoding (lineCode s n)) s.lines[n].act s.lines[n].eq (s.lines[n].eq.samples xs)

/-- The equaliser that takes in a block, the coefficients applied before this tick being p. -/
def LineEq.fed (e : LineEq) (p : Option (Nat × EqCoefs)) (xs : List Int) (d : Trellis × List Decided × List Decided) : LineEq :=
  { e with prior := p, xs := e.samples xs, trellis := d.1,
           acc := d.2.2.foldl (QualAcc.add (detCoefs e)) (d.2.1.foldl (QualAcc.addTent (detCoefs e)) e.acc) }

theorem LineEq.noted_eq (clk : Nat) (e : LineEq) : e.noted clk = { e with prior := (e.noted clk).prior } := by
  unfold LineEq.noted
  split
  · rfl
  · rfl

section
variable (n : Fin 8) (xs : List Int) (s : State)

theorem samplesIn_idle (h : s.lines[n].eq.phase = 0) :
    samplesIn n xs s = modEq n (fun e => { e with xs := s.lines[n].eq.samples xs }) s := by
  unfold samplesIn
  dsimp only
  rw [if_pos h]
  rfl

theorem softTake_step {t : State} {l : Line} (h : LineStep n s t l) (syms : List (Fin 4)) (ds : List Decided)
    (hlen : syms.length = ds.length) : ∃ soft, LineStep n s (softTake n syms ds t) { l with fr := { l.fr with soft := soft } } ∧
    (framing t n = true → soft.length = l.fr.soft.length + ds.length) := by
  by_cases hf : framing t n = true
  · refine ⟨_, (h.modFr fun f => { f with soft := f.soft ++ (syms.zip ds).map fun x =>
      { sym := x.1, l1 := x.2.llr.getD 0 0, l0 := x.2.llr.getD 1 0 } }).of_eq (by rw [softTake, if_pos hf]), fun _ => ?_⟩
    simp [hlen]
  · exact ⟨l.fr.soft, h.of_eq (by rw [softTake, if_neg hf]), fun k => absurd k hf⟩

/-- The lane after the loops took the block, before what leaves the detector goes on. -/
def samplesTaken : State :=
  modEq n (fun e => eqUpdate s.lines[n].act { e with
    xs := s.lines[n].eq.samples xs, trellis := (blockOf n xs s).1
    acc := (blockOf n xs s).2.2.foldl (QualAcc.add (detCoefs s.lines[n].eq))
      ((blockOf n xs s).2.1.foldl (QualAcc.addTent (detCoefs s.lines[n].eq)) e.acc) }
    (s.lines[n].eq.samples xs) (blockOf n xs s).2.1) (eqNote n s)

/-- The decisions of the block that reach the counters. -/
def samplesCounted (t : State) : State :=
  if lineDecodes t n then
    countLevels n ((blockOf n xs s).2.2.map (·.a0))
      (countLine n 0x2E ((blockOf n xs s).2.2.filter (bigError (detCoefs s.lines[n].eq))).length t)
  else t

/-- The block of a lane in UP is offered to its requester. -/
def samplesOffered (t : State) : State :=
  if s.lines[n].rx.st = .up ∧ t.rst.mgmtRun then
    modTx n (fun x => { x with proc := x.proc.map fun p => contextTake (detCoefs s.lines[n].eq) p (blockOf n xs s).2.2 }) t
  else t

/-- The symbols that the detector delivers. -/
def symsOf : List (Fin 4) := delivered (decide (modeOf s = 4) && Config.pmdPrecoding (lineCode s n)) (blockOf n xs s).2.2

theorem samplesIn_eq (h : s.lines[n].eq.phase ≠ 0) : samplesIn n xs s =
    emit (.detected n (symsOf n xs s) ((blockOf n xs s).2.2.map (·.llr)))
      (samplesOffered n xs s (samplesCounted n xs s (softTake n (symsOf n xs s) (blockOf n xs s).2.2 (samplesTaken n xs s)))) := by
  unfold samplesIn
  dsimp only
  rw [if_neg h]
  rfl

theorem samplesTaken_step : LineStep n s (samplesTaken n xs s) { s.lines[n] with
    eq := eqUpdate s.lines[n].act (s.lines[n].eq.fed (s.lines[n].eq.noted s.clk).prior xs (blockOf n xs s)) (s.lines[n].eq.samples xs)
      (blockOf n xs s).2.1 } := by
  refine ((eqNote_step n s).modEq _).congr ?_
  dsimp only
  rw [s.lines[n].eq.noted_eq s.clk]
  rfl

theorem samplesCounted_only (t : State) : Only [.counters] t (samplesCounted n xs s t) := by
  unfold samplesCounted
  split
  · exact countLevels_only (countLine_only (.refl _ t) (by decide)) (by decide)
  · exact .refl _ t

theorem samplesOffered_step {t : State} {l : Line} (h : LineStep n s t l) :
    ∃ x, LineStep n s (samplesOffered n xs s t) { l with tx := { l.tx with proc := x } } := by
  unfold samplesOffered
  split
  · exact ⟨_, h.modTx _⟩
  · exact ⟨_, h⟩

theorem samplesOffered_only (t : State) : Only [.lines] t (samplesOffered n xs s t) := by
  unfold samplesOffered
  split
  · exact modTx_only (.refl _ t) (by decide)
  · exact .refl _ t

theorem samplesTaken_only : Only [.lines] s (samplesTaken n xs s) := modEq_only (eqNote_only (.refl _ s) (by decide)) (by decide)

theorem samplesIn_step (h : s.lines[n].eq.phase ≠ 0) : ∃ soft x, LineStep n s (samplesIn n xs s) { s.lines[n] with
      eq := eqUpdate s.lines[n].act (s.lines[n].eq.fed (s.lines[n].eq.noted s.clk).prior xs (blockOf n xs s)) (s.lines[n].eq.samples xs)
        (blockOf n xs s).2.1
      fr := { s.lines[n].fr with soft := soft }, tx := { s.lines[n].tx with proc := x } } ∧
    (framing s n = true → soft.length = s.lines[n].fr.soft.length + (blockOf n xs s).2.2.length) ∧
    ∃ syms, syms.length = (blockOf n xs s).2.2.length ∧
      (samplesIn n xs s).out = s.out ++ [.detected n syms ((blockOf n xs s).2.2.map (·.llr))] := by
  have htaken := samplesTaken_step n xs s
  have hframing : framing (samplesTaken n xs s) n = framing s n := by
    unfold framing
    rw [htaken.line]
  obtain ⟨soft, hsoft, hlen⟩ := softTake_step n s htaken (symsOf n xs s) (blockOf n xs s).2.2 (List.length_map _)
  obtain ⟨x, hx⟩ := samplesOffered_step n xs s (hsoft.of_only (samplesCounted_only n xs s _) (by decide))
  rw [samplesIn_eq n xs s h]
  refine ⟨soft, x, hx.emit _, fun hf => hlen (hframing.trans hf), symsOf n xs s, List.length_map _, ?_⟩
  have honly : Only [.lines, .counters] s (samplesOffered n xs s (samplesCounted n xs s
      (softTake n (symsOf n xs s) (blockOf n xs s).2.2 (samplesTaken n xs s)))) :=
    (((softTake_only ((samplesTaken_only n xs s).mono (by decide)) (by decide)).of (samplesCounted_only n xs s _).only (by decide)).of
      (samplesOffered_only n xs s _).only (by decide))
  exact congrArg (· ++ [_]) (honly.only .out (by decide))

end

/-! ### Rotator and frequency integrator -/

/-- The clock recovery after a block's steps. -/
def LineRx.rotated (rot freq : Int) (r : LineRx) : LineRx :=
  { r with rot := (((r.rot : Int) + max (-32) (min 32 rot)) % 128).toNat, freq := max (-28000) (min 28000 freq)
           freqAtLimit := (r.st == .up || r.st == .relock) && decide (28000 ≤ freq ∨ freq ≤ -28000) }

theorem freq_atLimit (freq : Int) : (max (-28000) (min 28000 freq) = 28000 ∨ max (-28000) (min 28000 freq) = -28000) ↔
    (28000 ≤ freq ∨ freq ≤ -28000) := by
  omega

theorem rotatorStep_step {n : Fin 8} {s t : State} {l : Line} (h : LineStep n s t l) (rot freq : Int) :
    LineStep n s (rotatorStep n rot freq t) { l with rx := l.rx.rotated rot freq } := by
  have hmod : LineStep n s (modRx n (fun r => { r with
      rot := (((r.rot : Int) + max (-32) (min 32 rot)) % 128).toNat, freq := max (-28000) (min 28000 freq)
      freqAtLimit := decide (max (-28000) (min 28000 freq) = 28000 ∨ max (-28000) (min 28000 freq) = -28000) && lineDecodes t n }) t)
      { l with rx := l.rx.rotated rot freq } := by
    refine (h.modRx _).congr ?_
    unfold LineRx.rotated lineDecodes
    rw [h.line, decide_eq_decide.2 (freq_atLimit freq), Bool.and_comm]
  unfold rotatorStep
  dsimp only
  split
  · exact hmod.raise _ _
  · exact hmod

/-! ### The statement -/

theorem loopUpdate_rest (n : Fin 8) (xs : List Int) (cdr : List (Int × Int)) (s : State)
    (h : ¬(s.lines[n].rx.st = .off ∨ s.lines[n].rx.st = .dark ∨ s.lines[n].rx.st = .gain)) : loopUpdate n xs cdr s =
    rotatorStep n (cdr.getD s.lines[n].act.cdrBw (0, 0)).1 (cdr.getD s.lines[n].act.cdrBw (0, 0)).2 (samplesIn n xs s) :=
  if_neg h

theorem rotatorStep_out (n : Fin 8) (rot freq : Int) (s : State) : (rotatorStep n rot freq s).out = s.out :=
  (rotatorStep_only (.refl [.evt, .own, .lines, .counters] s) (by decide) (by decide) (by decide) (by decide)).only .out (by decide)

/-- The equaliser after a block: the loops over what the detector took in. -/
theorem fed_eq (e : LineEq) (p : Option (Nat × EqCoefs)) (b : LineBank) (xs : List Int) (d : Trellis × List Decided × List Decided) :
    let q := eqUpdate b (e.fed p xs d) (e.samples xs) d.2.1
    q = { e with live := q.live, xs := e.samples xs, trellis := d.1, acc := q.acc, sweep := q.sweep, prior := p } ∧
    q.acc.n = e.acc.n + d.2.2.length := by
  obtain ⟨es, hes⟩ := eqUpdate_rest b (e.fed p xs d) (e.samples xs) d.2.1
  refine ⟨?_, ?_⟩
  · rw [hes]
    rfl
  · rw [hes]
    exact (acc_adds _ _ _).trans (congrArg (· + _) (acc_addTents _ _ _))

theorem fed_sweep (e : LineEq) (p : Option (Nat × EqCoefs)) (b : LineBank) (xs : List Int) (d : Trellis × List Decided × List Decided) :
    ∃ es, (eqUpdate b (e.fed p xs d) (e.samples xs) d.2.1).sweep = e.sweep.map (sweepAdd (e.samples xs) es) := by
  obtain ⟨es, hes⟩ := eqUpdate_rest b (e.fed p xs d) (e.samples xs) d.2.1
  exact ⟨es, congrArg LineEq.sweep hes⟩

/-- Settles O42: outside OFF, DARK and GAIN the rotator moves over what the loops made of the block; each clamp is that of `clampQ`. -/
theorem lineLoops : Obligations.LineLoops := by
  intro n xs cdr s r e b rot freq
  refine ⟨fun h => congrArg Host.Outcome.next (if_pos h), fun h => ?_⟩
  refine ⟨_, congrArg Host.Outcome.next (loopUpdate_rest n xs cdr s h), ?_⟩
  have hout := rotatorStep_out n rot freq (samplesIn n xs s)
  by_cases hp : e.phase = 0
  · have hstep := rotatorStep_step (((LineStep.refl n s).modEq fun e => { e with xs := s.lines[n].eq.samples xs }).of_eq
      (samplesIn_idle n xs s hp)) rot freq
    refine ⟨hstep.others, ?_⟩
    rw [show (samplesIn n xs s).out = s.out from (congrArg State.out (samplesIn_idle n xs s hp)).trans rfl] at hout
    generalize rotatorStep n _ _ (samplesIn n xs s) = t at hstep hout ⊢
    intro l
    have hl : l = _ := hstep.line
    clear_value l
    subst hl
    refine ⟨rfl, rfl, rfl, rfl, rfl, rfl, fun _ => ⟨rfl, hout, rfl, rfl⟩, rfl, fun k => absurd hp k, id, fun w _ k => absurd hp k,
      fun k => absurd hp k, rfl, fun k => absurd hp k, fun _ => rfl, fun _ => rfl, fun _ => rfl, fun _ => rfl, fun _ => rfl,
      fun k => absurd hp k, fun k => absurd hp k⟩
  · obtain ⟨soft, x, hin, hsoft, syms, hsyms, hdet⟩ := samplesIn_step n xs s hp
    have hstep := rotatorStep_step hin rot freq
    refine ⟨hstep.others, ?_⟩
    rw [hdet] at hout
    obtain ⟨hins, hlen, hllr⟩ := detect_block (decide (modeOf s = 4) && Config.pmdPrecoding (lineCode s n)) b e (e.samples xs)
    obtain ⟨hrest, hacc⟩ := fed_eq e (e.noted s.clk).prior b xs (blockOf n xs s)
    obtain ⟨es, hsweep⟩ := fed_sweep e (e.noted s.clk).prior b xs (blockOf n xs s)
    have hprior : (eqNote n s).lines[n].eq.prior = (e.noted s.clk).prior := congrArg (·.eq.prior) (eqNote_step n s).line
    have hpos := eqUpdate_pos b (e.fed (e.noted s.clk).prior xs (blockOf n xs s)) (e.samples xs) (blockOf n xs s).2.1
    have hblind := eqUpdate_blind b (e.fed (e.noted s.clk).prior xs (blockOf n xs s)) (e.samples xs) (blockOf n xs s).2.1
    have hmain := eqUpdate_mainFrozen b (e.fed (e.noted s.clk).prior xs (blockOf n xs s)) (e.samples xs) (blockOf n xs s).2.1
    have hfg := eqUpdate_fgFrozen b (e.fed (e.noted s.clk).prior xs (blockOf n xs s)) (e.samples xs) (blockOf n xs s).2.1
    have hnl := eqUpdate_nlFrozen b (e.fed (e.noted s.clk).prior xs (blockOf n xs s)) (e.samples xs) (blockOf n xs s).2.1
    have hlevels := eqUpdate_levelsFrozen b (e.fed (e.noted s.clk).prior xs (blockOf n xs s)) (e.samples xs) (blockOf n xs s).2.1
    have hmainIn := eqUpdate_mainBounds b (e.fed (e.noted s.clk).prior xs (blockOf n xs s)) (e.samples xs) (blockOf n xs s).2.1
    have hlevelsIn := eqUpdate_levelBounds b (e.fed (e.noted s.clk).prior xs (blockOf n xs s)) (e.samples xs) (blockOf n xs s).2.1
    generalize eqUpdate _ _ _ _ = q at *
    generalize rotatorStep n _ _ (samplesIn n xs s) = t at hstep hout ⊢
    intro l
    have hl : l = _ := hstep.line
    clear_value l
    subst hl
    refine ⟨rfl, rfl, rfl, rfl, rfl, congrArg LineEq.xs hrest, fun k => absurd k hp, ?eq, fun _ => (congrArg LineEq.prior hrest).trans hprior.symm, fun k => ?idle,
      fun w hw _ => ?sweep, fun _ hf => (hsoft hf).trans (congrArg (_ + ·) hlen), hpos, fun _ => ⟨?ins, ?acc, syms, _, hout, ?syms, ?llr, ?bounds⟩,
      hblind, hmain, hfg, hnl, hlevels, fun _ => hmainIn, fun _ => hlevelsIn⟩
    case eq =>
      rw [hrest]
    case idle => exact hsweep.trans (by rw [k]; rfl)
    case sweep => exact ⟨sweepAdd (e.samples xs) es w, hsweep.trans (by rw [hw]; rfl), rfl, rfl, by simp [sweepAdd]⟩
    case ins => exact (congrArg (·.trellis.ins.length) hrest).trans hins
    case acc => exact hacc.trans (congrArg (_ + ·) hlen)
    case syms => exact hsyms.trans hlen
    case llr => exact (List.length_map _).trans hlen
    case bounds =>
      intro v hv
      obtain ⟨d, hd, rfl⟩ := List.mem_map.1 hv
      exact hllr d hd

end Sys2Proof.Machine
end

section
/-! SUPPORT. Far-end training: the silent requester that R161 does not enable sends no probe, which refutes the statement about the
requester. -/

namespace Sys2Proof.Machine

open Sys2Proof

/-- A powered device whose line lane 0 is in UP and silent, TRN_REQ being 0. -/
def silentLane : State :=
  { awake with lines := awake.lines.set 0 { awake.lines[(0 : Fin 8)] with
      act := { awake.lines[(0 : Fin 8)].act with txCfg := 0x00805270 }
      rx := { awake.lines[(0 : Fin 8)].rx with st := .up }, tx := { awake.lines[(0 : Fin 8)].tx with trnState := 4 } } }

/-- Refutes O47: a silent lane in UP whose TRN_REQ is 0 sends no probe (R161), while the last clause has one sent by every silent
lane in UP. -/
theorem not_trainingRequester : ¬ Obligations.TrainingRequester := by
  intro h
  obtain ⟨-, -, -, -, -, -, -, hprobe⟩ := h 0 0 silentLane
  obtain ⟨t, ht, -, -, htx, -⟩ := hprobe (by decide +kernel)
  obtain rfl := Host.Outcome.next.inj ht
  exact absurd (congrArg LineTx.retryCnt htx) (by decide +kernel)

end Sys2Proof.Machine
end

section
/-! SUPPORT. Pins, supplies and the first steps of an exit: the exit of a level 4 episode whose reach is not the whole device, which
refutes the statement about them. -/

namespace Sys2Proof.Machine

open Sys2Proof

/-- A reach of level 4 without the data plane. -/
def narrowReach : Reach := { Reach.all with data := false }

/-- RESET_N is low and holds an episode of level 4 alone, whose reach is narrower than that of POR. -/
def heldNarrow : State :=
  { awake with rst := { awake.rst with resetLow := true, episodes := [⟨[.resetPin], narrowReach, 1⟩] } }

/-- Refutes O53: the exit of an episode of level 4 has the reach of POR (R426), while the clause on RESET_N gives it the episode's own
reach, whatever that is. -/
theorem not_pinsAndSupplies : ¬ Obligations.PinsAndSupplies := by
  intro h
  obtain ⟨-, hrelease, -⟩ := h heldNarrow
  obtain ⟨t, ht, -, -, hexits⟩ := hrelease narrowReach 1 rfl rfl rfl rfl rfl (by decide)
  obtain rfl := Host.Outcome.next.inj ht
  exact absurd hexits (by decide +kernel)

end Sys2Proof.Machine
end

section
/-! SUPPORT. Self-test, boot and supervision: a difference below the first field of a register, which refutes the statement about
them. -/

namespace Sys2Proof.Machine

open Sys2Proof

/-- The set-up register scrub runs; the low base of command ring 0 differs from its shadow in bit 0, which lies in no field. -/
def upsetBelowFields : State :=
  { awake with setup := [(0x7080, 0x20000000), (0x2100, 1)], shadow := [(0x7080, 0x20000000)] }

/-- Refutes O54: a register that differs from its shadow in bits of no field is restored without an event, there being one for each
field that differs (R415). -/
theorem not_bootAndSupervision : ¬ Obligations.BootAndSupervision := by
  intro h
  obtain ⟨-, -, -, -, -, ⟨-, -, hpass, -⟩, -⟩ := h upsetBelowFields
  obtain ⟨-, -, hlatched⟩ := hpass (by decide +kernel) 0x2100
  exact absurd (hlatched (by decide +kernel) (by decide +kernel) (by decide +kernel)) (by decide +kernel)

end Sys2Proof.Machine
end

section
/-! SUPPORT. The result of a block test: an entry of the shed order that waited for the test, which refutes the statement about it. -/

namespace Sys2Proof.Machine

open Sys2Proof

/-- A command of ring `r`. -/
def cmdOf (r : Fin 16) : Cmd :=
  { d := { ring := r, seq := 1, flags := 0, tag := 0, target := 0, time := 0, param := [] }, op := 0x32, era := 0, img := ⟨false, false, []⟩ }

/-- The test of line lane 0. -/
def lineTest : BlkTest := ⟨Tgt.code (.line (some 0)), 1, some (cmdOf 0), 0⟩

/-- Line lane 0 is under test; in stage 4 the entry of host lane 0 waits to be shed, and a capture runs on host lane 0. -/
def testedWhileShedding : State :=
  { awake with
    tst := { awake.tst with blk := some lineTest, waitTests := [] }
    therm := { awake.therm with stage := 4, order := [Tgt.code (.host (some 0))], shedWait := [Tgt.code (.host (some 0))] }
    cap := some ⟨some (cmdOf 1), Tgt.code (.host (some 0)), 0, 0, 0, 0, 0, 0, true, none⟩ }

/-- Where no command of another era is answered, the outcome of the test's command stands first. -/
theorem done_outcomes {c : Cmd} {s : State} (he : c.era = s.rings.era) (res : Nat) :
    (done c res s).rings.outcomes.head?.map (·.ring) = some c.d.ring := by
  unfold done
  rw [answer_outcomes _ _ he]
  rfl

theorem testBegin_blk (r : BlkTest) (s : State) : (testBegin r s).tst.blk.isSome = true := rfl

/-- The end of a test whose signature is the block's OTP value. -/
def testPassed (r : BlkTest) (res : Nat) (s : State) : State :=
  let t := (Tgt.ofCode r.target).getD .device
  testNext (doneO r.cmd res (raise 0x1F8 (pay2 r.target.toNat 1)
    (testLeave t (modTst (fun x => { x with blk := none, lastFail := false }) (arbEnd 3 t s)))))

theorem testDone_passed {r : BlkTest} {s : State} (h : s.tst.blk = some r) :
    testDone (Config.blockSignature r.target r.kinds) s = testPassed r (Config.blockSignature r.target r.kinds).toNat s := by
  have hb : (Config.blockSignature r.target r.kinds != Config.blockSignature r.target r.kinds) = false := by simp
  simp only [testDone, h, hb, Bool.not_false, Bool.false_eq_true, if_false]
  rfl

theorem testedWhileShedding_after :
    let t := shedWaited (testPassed lineTest (Config.blockSignature lineTest.target lineTest.kinds).toNat testedWhileShedding);
    t.tst.blk.isSome = false ∧ t.rings.outcomes.head?.map (·.ring) = some 1 ∧ t.rings.era = 0 := by
  decide +kernel

/-- Where no test begins after an answered one, the answer's outcome stands first. -/
theorem testNext_done_outcomes {c : Cmd} {u : State} {res : Nat} (hblk : (testNext (done c res u)).tst.blk.isSome = false)
    (hera : (testNext (done c res u)).rings.era = c.era) :
    (testNext (done c res u)).rings.outcomes.head?.map (·.ring) = some c.d.ring := by
  unfold testNext at *
  split at hblk
  · next hw =>
    simp only [hw] at hera ⊢
    refine done_outcomes (Decidable.byContradiction fun he => he ?_) res
    have hu : done c res u = u := if_pos he
    rw [← hera, hu]
  · rw [testBegin_blk] at hblk
    exact absurd hblk (by decide)

/-- Refutes O49: in stage 4 an entry of the shed order that waited for the test is shed at the test's end (R383), and the capture of
its lane is answered after the test. -/
theorem not_blockTestResult : ¬ Obligations.BlockTestResult := by
  intro h
  obtain ⟨t, u, ht, hnext, -⟩ := h (Config.blockSignature lineTest.target lineTest.kinds) lineTest (cmdOf 0) testedWhileShedding rfl rfl
  obtain rfl := Host.Outcome.next.inj ht
  rw [testDone_passed (r := lineTest) rfl] at hnext
  obtain ⟨hblk, hhead, hera⟩ := testedWhileShedding_after
  rw [hnext] at hblk hhead hera
  rw [testNext_done_outcomes hblk hera] at hhead
  exact absurd hhead (by decide)

end Sys2Proof.Machine
end

section
/-! SUPPORT. Sessions of the reed and swaps of converters: what a session, a segment and a parallel run leave in the calibration
state and in the converter. -/

namespace Sys2Proof.Machine

open Sys2Proof

/-! ### Converters -/

section
variable {c : ConvId} {f : Converter → Converter} {s t : State} {ps : List Part}

@[simp] theorem getConv_modConv (c : ConvId) (f : Converter → Converter) (s : State) : getConv (modConv c f s) c = f (getConv s c) := by
  cases c with
  | lineAdc n => exact congrArg (·.rx.adc) (upd_get_self s.lines n _)
  | dac n => exact congrArg (·.tx.dac) (upd_get_self s.lines n _)
  | hostAdc n => exact congrArg (·.adc) (upd_get_self s.hosts n _)

theorem getConv_congr (hl : t.lines = s.lines) (hh : t.hosts = s.hosts) (c : ConvId) : getConv t c = getConv s c := by
  cases c <;> simp only [getConv, hl, hh]

theorem Only.getConv (h : Only ps s t) (hl : Part.lines ∉ ps) (hh : Part.hosts ∉ ps) (c : ConvId) : Machine.getConv t c = Machine.getConv s c :=
  getConv_congr (h.only .lines hl) (h.only .hosts hh) c

@[simp] theorem modConv_cal (c : ConvId) (f : Converter → Converter) (s : State) : (modConv c f s).cal = s.cal := by cases c <;> rfl
@[simp] theorem modConv_therm (c : ConvId) (f : Converter → Converter) (s : State) : (modConv c f s).therm = s.therm := by cases c <;> rfl
@[simp] theorem modConv_evt (c : ConvId) (f : Converter → Converter) (s : State) : (modConv c f s).evt = s.evt := by cases c <;> rfl

@[simp] theorem getConv_modCal (f : Cal → Cal) (c : ConvId) (s : State) : getConv (modCal f s) c = getConv s c := getConv_congr rfl rfl c
@[simp] theorem getConv_arbEnd (cls : Nat) (x : Tgt) (c : ConvId) (s : State) : getConv (arbEnd cls x s) c = getConv s c :=
  getConv_congr rfl rfl c

end

/-! ### Building blocks of a session's end -/

theorem reedAnswer_cal (cmd : Option Cmd) (s : State) : (reedAnswer cmd s).cal = s.cal := by cases cmd <;> simp [reedAnswer]

theorem getConv_reedAnswer (cmd : Option Cmd) (c : ConvId) (s : State) : getConv (reedAnswer cmd s) c = getConv s c :=
  getConv_congr (by cases cmd <;> simp [reedAnswer]) (by cases cmd <;> simp [reedAnswer]) c

theorem sessionCount_cal (t : Fin 49) (own : Bool) (s : State) : ∃ since due starve forced, (sessionCount t own s).cal =
    { s.cal with sess := s.cal.sess + 1, since := since, checkDue := due, starve := starve, forced := forced } :=
  ⟨_, _, _, _, by simp only [sessionCount, starveForce, modCal_cal, countDev_cal]; rfl⟩

theorem getConv_sessionCount (t : Fin 49) (own : Bool) (c : ConvId) (s : State) : getConv (sessionCount t own s) c = getConv s c := by
  simp [sessionCount, starveForce, getConv_congr (s := s) (t := countDev _ _ s)]

theorem calDueOne_cal (t : Fin 49) (s : State) : ∃ due since, (calDueOne t s).cal = { s.cal with due := due, dueSince := since } :=
  ⟨_, _, rfl⟩

theorem getConv_calDueOne (t : Fin 49) (c : ConvId) (s : State) : getConv (calDueOne t s) c = getConv s c := getConv_congr rfl rfl c

theorem owedNext_cal (c : ConvId) (s : State) : ∃ forced, (owedNext c s).cal = { s.cal with forced := forced } := by
  unfold owedNext
  split
  · exact ⟨_, by rw [modConv_cal]⟩
  · exact ⟨_, by simp only [modCal_cal, modConv_cal]; rfl⟩

theorem owedNext_conv (c : ConvId) (s : State) : ∃ owed, getConv (owedNext c s) c = { getConv s c with owed := owed } := by
  unfold owedNext
  split
  · exact ⟨_, getConv_modConv _ _ _⟩
  · exact ⟨_, (getConv_modCal _ _ _).trans (getConv_modConv _ _ _)⟩

theorem storeSlice_cal (c : ConvId) (k : Nat) (v : CalVals) (s : State) : ∃ seq, (storeSlice c k v s).cal = { s.cal with setSeq := seq } := by
  unfold storeSlice
  split
  · exact ⟨_, rfl⟩
  · exact ⟨_, by simp only [modConv_cal, modCal_cal]; rfl⟩

/-- The slice of the session holds the temperature of the session. -/
theorem storeSlice_conv {c : ConvId} {k : Nat} (v : CalVals) {s : State} {x : Int} (hx : regionTemp s (convSensor c) = some x)
    (hk : k < (getConv s c).cal.length) : ((getConv (storeSlice c k v s) c).cal.getD k SliceCal.none).tCal = x := by
  unfold storeSlice
  rw [hx]
  simp only [getConv_modConv, getConv_modCal]
  rw [List.getD_eq_getElem _ _ (by simpa using hk), List.getElem_modify_eq]
  rfl

/-! ### The end of a session -/

/-- Where the spare relieves the phase with the largest drift, the swap's parallel run begins. -/
def swapBegin (q : Session) (c : ConvId) (s : State) : State :=
  match relievePhase s c with
  | some (l, k) =>
    if spareSlice (getConv s c) = some q.slice then
      modConv c (fun x => { x with run := some { phase := l, out := k, spare := q.slice, failures := [] } }) s
    else arbEnd 1 (calArb (.conv c)) s
  | none => arbEnd 1 (calArb (.conv c)) s

theorem swapBegin_cal (q : Session) (c : ConvId) (s : State) : (swapBegin q c s).cal = s.cal := by
  unfold swapBegin
  split
  · split
    · exact modConv_cal _ _ _
    · rfl
  · rfl

theorem swapBegin_conv (q : Session) (c : ConvId) (s : State) : ∃ run, getConv (swapBegin q c s) c = { getConv s c with run := run } := by
  unfold swapBegin
  split
  · split
    · exact ⟨_, getConv_modConv _ _ _⟩
    · exact ⟨_, getConv_arbEnd _ _ _ _⟩
  · exact ⟨_, getConv_arbEnd _ _ _ _⟩

theorem convSession_accepted {q : Session} {c : ConvId} {r : SessionResult} {s : State}
    (h : resultOk (calHeld s (.conv c) q.slice) r = true) : convSession q c r s =
      swapBegin q c (reedAnswer q.cmd (owedNext c (calDueOne q.target (sessionCount q.target true
        (modCal (fun k => { k with rejRun := [] }) (storeSlice c q.slice r.vals s)))))) := by
  unfold convSession
  rw [if_pos h]
  rfl

theorem convSession_rejected {q : Session} {c : ConvId} {r : SessionResult} {s : State}
    (h : resultOk (calHeld s (.conv c) q.slice) r = false) : convSession q c r s =
      arbEnd 1 (calArb (.conv c)) (reedAnswer q.cmd (sessionReject q.target s)) := by
  unfold convSession
  rw [if_neg (by simp [h])]

theorem sessionReject_cal (t : Fin 49) (s : State) : (sessionReject t s).cal.busy = s.cal.busy ∧
    (sessionReject t s).cal.sess = s.cal.sess + 1 ∧ (sessionReject t s).cal.reject = satU 8 (s.cal.reject + 1) ∧
    (sessionReject t s).cal.begun = s.cal.begun := by
  obtain ⟨since, due, starve, forced, hc⟩ := sessionCount_cal t false s
  unfold sessionReject
  rw [(raiseLimited_only (.refl [.evt, .own, .counters] _) (by decide) (by decide) (by decide)).only .cal (by decide), countDev_cal]
  simp only [calDueOne, setDue, modCal_cal, hc, and_self]

theorem getConv_sessionReject (t : Fin 49) (c : ConvId) (s : State) : getConv (sessionReject t s) c = getConv s c :=
  (sessionReject_only (.refl [.evt, .own, .counters, .cal] s) (by decide) (by decide) (by decide) (by decide)).getConv (by decide)
    (by decide) c

/-- The session that runs ends. -/
def sessionOver (s : State) : State := modCal (fun k => { k with busy := none }) s

theorem sessionDone_conv {r : SessionResult} {q : Session} {c : ConvId} {s : State} (hq : s.cal.busy = some q)
    (hc : calTgt q.target = .conv c) : sessionDone r s = convSession q c r (sessionOver s) := by
  simp only [sessionDone, hq, hc]
  rfl

theorem sessionDone_reed {r : SessionResult} {q : Session} {s : State} (hq : s.cal.busy = some q)
    (hc : calTgt q.target = .reed) : sessionDone r s = arbEnd 1 .reed (selfCheck q.cmd r (sessionOver s)) := by
  simp only [sessionDone, hq, hc]
  rfl

theorem calHeld_sessionOver (s : State) (c : ConvId) (k : Nat) : calHeld (sessionOver s) (.conv c) k = calHeld s (.conv c) k := by
  have h : getConv (sessionOver s) c = getConv s c := getConv_modCal _ _ _
  simp only [calHeld, h]
  rfl

/-! ### The self-check -/

/-- The three checks of the reed pass. -/
def checksOk (r : SessionResult) : Bool := r.bandgapOk && r.secondOk && r.timingOk

theorem refuseAll_cal (st : Byte) (l : List (Fin 49 × Cmd)) (s : State) : (l.foldl (fun s e => refuse e.2 st s) s).cal = s.cal := by
  induction l generalizing s with
  | nil => rfl
  | cons e l ih => exact (ih _).trans (refuse_cal _)

theorem selfCheck_passes (cmd : Option Cmd) {r : SessionResult} (hr : checksOk r = true) (s : State) :
    (selfCheck cmd r s).cal.busy = s.cal.busy ∧ (selfCheck cmd r s).cal.reedOk = true ∧ (selfCheck cmd r s).cal.frozen = false := by
  obtain ⟨since, due, starve, forced, hc⟩ := sessionCount_cal 48 true s
  unfold checksOk at hr
  simp only [selfCheck, hr, if_true, reedAnswer_cal]
  split <;> simp only [raise_cal, modCal_cal, hc, and_self]

theorem selfCheck_fails (cmd : Option Cmd) {r : SessionResult} (hr : checksOk r = false) (s : State) :
    (selfCheck cmd r s).cal.busy = s.cal.busy ∧ (selfCheck cmd r s).cal.reedOk = false ∧
      (selfCheck cmd r s).cal.frozen = (s.cal.frozen || decide (2 ≤ s.cal.failRun + 1)) := by
  obtain ⟨since, due, starve, forced, hc⟩ := sessionCount_cal 48 true s
  unfold checksOk at hr
  simp only [selfCheck, hr, Bool.false_eq_true, if_false, reedAnswer_cal]
  split
  · next h =>
    simp only [modCal_cal, hc] at h
    simp only [refuseAll_cal, raise_cal, modCal_cal, hc, h, decide_true, Bool.or_true, and_self]
  · next h =>
    simp only [modCal_cal, hc] at h ⊢
    refine ⟨trivial, trivial, ?_⟩
    cases hf : s.cal.frozen
    · simpa [hf] using h
    · rfl

/-! ### Segments -/

/-- The converter of a segment goes on. -/
def segmentRest (t : CalTgt) (s : State) : State := match t with
  | .mon k => monRestart k (monNext k (modMon k (fun m => { m with busy := .idle }) s))
  | _ => s

theorem segmentRest_cal (t : CalTgt) (s : State) : (segmentRest t s).cal = s.cal := by
  have h : Only [.evt, .own, .counters, .mon, .therm] s (segmentRest t s) := by
    unfold segmentRest
    split
    · exact monRestart_only (monNext_only (modMon_only (.refl _ s) (by decide)) (by decide) (by decide)) (by decide) (by decide)
        (by decide) (by decide)
    · exact .refl _ s
  exact h.only .cal (by decide)

/-- The last segment's values are stored for the target. -/
def singleStore (t : CalTgt) (r : SessionResult) (s : State) : State := match regionTemp s (calSensor t) with
  | some x => modCal (fun c => { c with
      rejRun := [], setSeq := c.setSeq + 1
      single := upd c.single (singleIdx t) (fun y =>
        let z := sliceStore c.dt x r.vals c.setSeq y
        if calKind t = 4 then { z with applied := y.applied } else z) }) s
  | none => s

theorem singleStore_cal (t : CalTgt) (r : SessionResult) (s : State) : (singleStore t r s).cal.busy = s.cal.busy ∧
    (singleStore t r s).cal.sess = s.cal.sess ∧ (singleStore t r s).cal.begun = s.cal.begun := by
  unfold singleStore
  split <;> exact ⟨rfl, rfl, rfl⟩

/-- The state in which a segment has ended. -/
def segmentOver (q : Session) (s : State) : State :=
  segmentRest (calTgt q.target) (arbEnd 1 (calArb (calTgt q.target)) (sessionOver s))

theorem segmentOver_cal (q : Session) (s : State) : (segmentOver q s).cal = { s.cal with busy := none } := segmentRest_cal _ _

/-- A session in segments ends with its last one. -/
def segmentsDone (q : Session) (b : SegRun) (r : SessionResult) (s : State) : State :=
  let t := calTgt q.target
  if resultOk (calHeld s t 0) r then reedAnswer b.cmd (calDueOne q.target (sessionCount q.target true (singleStore t r s)))
  else reedAnswer b.cmd (sessionReject q.target s)

theorem segmentsDone_cal (q : Session) (b : SegRun) (r : SessionResult) (s : State) : (segmentsDone q b r s).cal.busy = s.cal.busy ∧
    (segmentsDone q b r s).cal.sess = s.cal.sess + 1 ∧ (segmentsDone q b r s).cal.begun = s.cal.begun := by
  unfold segmentsDone
  dsimp only
  split
  · obtain ⟨since, due, starve, forced, hc⟩ := sessionCount_cal q.target true (singleStore (calTgt q.target) r s)
    obtain ⟨hbusy, hsess, hbegun⟩ := singleStore_cal (calTgt q.target) r s
    simp only [reedAnswer_cal, calDueOne, setDue, modCal_cal, hc, hbusy, hsess, hbegun, and_self]
  · obtain ⟨hbusy, hsess, -, hbegun⟩ := sessionReject_cal q.target s
    simp only [reedAnswer_cal, hbusy, hsess, hbegun, and_self]

/-- What the segment's end leaves of the session. -/
def segmentNext (q : Session) (r : SessionResult) (s : State) : State := match s.cal.begun.find? (·.target == q.target) with
  | none => s
  | some b =>
    if b.done + 1 < segmentsOf (calTgt q.target) then
      modCal (fun c => { c with begun := c.begun.map fun x => if x.target = q.target then { x with done := x.done + 1 } else x }) s
    else segmentsDone q b r (modCal (fun c => { c with begun := c.begun.filter (·.target != q.target) }) s)

theorem segmentDone_eq {r : SessionResult} {q : Session} {s : State} (hq : s.cal.busy = some q)
    (hk : 1 < segmentsOf (calTgt q.target)) : segmentDone r s = segmentNext q r (segmentOver q s) := by
  simp only [segmentDone, hq, if_neg (Nat.ne_of_gt hk)]
  rfl

theorem segmentDone_cal {r : SessionResult} {q : Session} {b : SegRun} {s : State} (hq : s.cal.busy = some q)
    (hk : 1 < segmentsOf (calTgt q.target)) (hb : s.cal.begun.find? (·.target == q.target) = some b) :
    (segmentDone r s).cal.busy = none ∧
      (b.done + 1 < segmentsOf (calTgt q.target) → (segmentDone r s).cal.sess = s.cal.sess ∧ (segmentDone r s).cal.begun =
        s.cal.begun.map fun x => if x.target = q.target then { x with done := x.done + 1 } else x) ∧
      (segmentsOf (calTgt q.target) ≤ b.done + 1 → (segmentDone r s).cal.sess = s.cal.sess + 1 ∧
        (segmentDone r s).cal.begun = s.cal.begun.filter (·.target != q.target)) := by
  have hcal := segmentOver_cal q s
  have hfind : (segmentOver q s).cal.begun.find? (·.target == q.target) = some b := by rw [hcal]; exact hb
  simp only [segmentDone_eq hq hk, segmentNext, hfind]
  split
  · next hless =>
    simp only [modCal_cal, hcal]
    exact ⟨trivial, fun _ => ⟨trivial, trivial⟩, fun h => absurd hless (Nat.not_lt.mpr h)⟩
  · next hlast =>
    obtain ⟨hbusy, hsess, hbegun⟩ := segmentsDone_cal q b r
      (modCal (fun c => { c with begun := c.begun.filter (·.target != q.target) }) (segmentOver q s))
    simp only [hbusy, hsess, hbegun, modCal_cal, hcal]
    exact ⟨trivial, fun h => absurd h hlast, fun _ => ⟨trivial, trivial⟩⟩

/-! ### The parallel run of a swap -/

/-- A parallel run that passes: the spare takes the phase. -/
def swapPassed (c : ConvId) (r : SwapRun) (s : State) : State :=
  countSwap c (modConv c (fun x => { x with
    roles := (x.roles.set r.out .spare).set r.spare (.phase r.phase), swapCnt := min 4095 (x.swapCnt + 1), abortCnt := 0 }) s)

/-- A parallel run that fails is reported, and the target queued again; the third in a row takes the spare out of service. -/
def swapReported (c : ConvId) (r : SwapRun) (s : State) : State :=
  let s := modConv c (fun x => { x with abortCnt := min 3 (x.abortCnt + 1) }) s
  modCal (fun k => { k with again := k.again ++ [calIdx (.conv c)] }) (raise (convEvent c 2) (pay2 r.spare (getConv s c).abortCnt) s)

def swapFailed (c : ConvId) (r : SwapRun) (s : State) : State :=
  let s := swapReported c r s
  if (getConv s c).abortCnt = 3 then spareGone c (modConv c (fun x => { x with roles := x.roles.set r.spare .failed }) s) else s

/-- The run is over. -/
def runOver (c : ConvId) (s : State) : State := modConv c (fun x => { x with run := none }) s

/-- What follows either outcome. -/
def swapOver (c : ConvId) (s : State) : State := calPrune (calDueOne (calIdx (.conv c)) (arbEnd 1 (calArb (.conv c)) s))

theorem swapDone_eq {c : ConvId} {run : ParallelRun} {r : SwapRun} {s : State} (hr : (getConv s c).run = some r) (hf : r.failures = []) :
    swapDone c run s = swapOver c (if runPasses c run then swapPassed c r (runOver c s) else swapFailed c r (runOver c s)) := by
  simp only [swapDone, hr, hf, List.foldl_nil]
  rfl

theorem getConv_swapOver (c : ConvId) (s : State) : getConv (swapOver c s) c = getConv s c := by
  have h : Only [.rings, .evt, .own, .counters, .cal] (calDueOne (calIdx (.conv c)) (arbEnd 1 (calArb (.conv c)) s)) (swapOver c s) :=
    calPrune_only (.refl _ _) (by decide) (by decide) (by decide) (by decide) (by decide)
  rw [h.getConv (by decide) (by decide), getConv_calDueOne, getConv_arbEnd]

theorem refuse_latchesStay (c : Cmd) (st : Byte) (s : State) : LatchesStay s (refuse c st s) := answer_latchesStay _ _ _ _ _ _

theorem calPrune_latchesStay (s : State) : LatchesStay s (calPrune s) := by
  suffices h : ∀ l s, LatchesStay s (List.foldl _ s l) from h (List.finRange 49) s
  intro l
  induction l with
  | nil => exact .refl
  | cons t l ih =>
    intro s
    refine .trans ?_ (ih _)
    dsimp only
    split
    · exact .refl s
    · split
      · refine .trans ?_ (refuse_latchesStay _ _ _)
        exact .of_evt rfl
      · exact .of_evt rfl

theorem swapOver_latchesStay (c : ConvId) (s : State) : LatchesStay s (swapOver c s) :=
  .trans (t := calDueOne (calIdx (.conv c)) (arbEnd 1 (calArb (.conv c)) s)) (.of_evt rfl) (calPrune_latchesStay _)

theorem swapOver_late (c : ConvId) (s : State) : (swapOver c s).late = s.late :=
  (calPrune_only (.refl [.rings, .evt, .own, .counters, .cal] _) (by decide) (by decide) (by decide) (by decide) (by decide)).only .rst
    (by decide) |>.2

theorem getConv_swapPassed (c : ConvId) (r : SwapRun) (s : State) : getConv (swapPassed c r s) c =
    { getConv s c with roles := ((getConv s c).roles.set r.out .spare).set r.spare (.phase r.phase)
                       swapCnt := min 4095 ((getConv s c).swapCnt + 1), abortCnt := 0 } := by
  unfold swapPassed
  rw [(countSwap_only (.refl [.counters] _) (by decide)).getConv (by decide) (by decide), getConv_modConv]

theorem getConv_swapReported (c : ConvId) (r : SwapRun) (s : State) :
    getConv (swapReported c r s) c = { getConv s c with abortCnt := min 3 ((getConv s c).abortCnt + 1) } := by
  unfold swapReported
  rw [getConv_modCal, getConv_congr (raise_lines _) (raise_hosts _), getConv_modConv]

theorem getConv_swapFailed (c : ConvId) (r : SwapRun) (s : State) : getConv (swapFailed c r s) c =
    { getConv s c with abortCnt := min 3 ((getConv s c).abortCnt + 1)
                       roles := if min 3 ((getConv s c).abortCnt + 1) = 3 then (getConv s c).roles.set r.spare .failed
                         else (getConv s c).roles } := by
  unfold swapFailed
  simp only [getConv_swapReported]
  split
  · unfold spareGone
    rw [getConv_congr (raise_lines _) (raise_hosts _), getConv_modConv, getConv_swapReported]
  · exact getConv_swapReported c r s

theorem convEvent_class (c : ConvId) : (evtClass (convEvent c 2)).isSome = true := by
  cases c with
  | lineAdc n => exact evtClass_lineSrc_isSome n (by decide)
  | dac n => exact evtClass_lineSrc_isSome n (by decide)
  | hostAdc n => revert n; decide

theorem swapFailed_latched (c : ConvId) (r : SwapRun) (s : State) : Latched (convEvent c 2) s (swapFailed c r s) := by
  have hrep : Latched (convEvent c 2) s (swapReported c r s) :=
    Latched.stays (latched_raise (convEvent_class c) _ _) (.of_evt (modConv_evt _ _ _)) (.of_evt rfl)
  unfold swapFailed
  dsimp only
  split
  · exact Latched.stays hrep (.refl s) ((LatchesStay.of_evt (modConv_evt _ _ _)).trans (raise_latchesStay _ _ _))
  · exact hrep

theorem modConv_late (c : ConvId) (f : Converter → Converter) (s : State) : (modConv c f s).late = s.late := by cases c <;> rfl

theorem swapPassed_late (c : ConvId) (r : SwapRun) (s : State) : (swapPassed c r s).late = s.late :=
  ((countSwap_only (.refl [.counters] _) (by decide)).only .rst (by decide)).2.trans (modConv_late _ _ _)

theorem swapFailed_late (c : ConvId) (r : SwapRun) (s : State) : (swapFailed c r s).late = s.late := by
  unfold swapFailed swapReported spareGone
  dsimp only
  split <;> simp only [raise_late, modConv_late, modCal_late]

/-- With nothing that waits for a swap nothing follows its end. -/
theorem lateFlush_nil {s : State} (h : s.late = []) : lateFlush s = s := by
  unfold lateFlush
  rw [h]
  rfl

theorem swapDone_late {c : ConvId} {run : ParallelRun} {r : SwapRun} {s : State} (hr : (getConv s c).run = some r) (hf : r.failures = []) :
    (swapDone c run s).late = s.late := by
  rw [swapDone_eq hr hf, swapOver_late]
  split
  · exact (swapPassed_late _ _ _).trans (modConv_late _ _ _)
  · exact (swapFailed_late _ _ _).trans (modConv_late _ _ _)

/-! ### The start of a session -/

theorem queue_head_stays {α : Type} (f : List α → α → List α) (hf : ∀ a x, f a x = a ∨ f a x = a ++ [x]) (l a : List α) (ha : a ≠ []) :
    (l.foldl f a).head? = a.head? := by
  induction l generalizing a with
  | nil => rfl
  | cons x l ih =>
    rcases hf a x with h | h
    · rw [List.foldl_cons, h]; exact ih a ha
    · rw [List.foldl_cons, h, ih _ (by simp), List.head?_append_of_ne_nil _ ha]

/-- The self-check stands first where it is due and the reed is not frozen. -/
theorem calQueue_checkDue {s : State} (hdue : s.cal.checkDue = true) (hfrozen : s.cal.frozen = false) (hbusy : s.cal.busy = none) :
    (calQueue s).head? = some 48 := by
  unfold calQueue
  simp only [hdue, hfrozen, hbusy, Bool.not_false, Bool.and_self, if_true, List.cons_append, List.nil_append, List.foldl_cons]
  rw [queue_head_stays]
  · simp
  · intro a x; split <;> simp
  · simp

theorem sessionFits_frozen {s : State} {q : Fin 49} (h : sessionFits s q = true) (hfrozen : s.cal.frozen = true) : q = 48 := by
  simp only [sessionFits, hfrozen, Bool.and_eq_true] at h
  obtain ⟨⟨⟨-, h⟩, -⟩, -⟩ := h
  simp at h
  exact h.1

/-- The entry of the queue that fits first is the first of the order, be it the first self-check after a cold reset. -/
theorem sessionOrder_head {s : State} {q : Fin 49} (hbusy : s.cal.busy = none) (hq : (calQueue s).head? = some q)
    (hfits : sessionFits s q = true) : ∃ l, sessionOrder s = q :: l := by
  unfold sessionOrder
  split
  · next hfirst =>
    simp only [Bool.and_eq_true] at hfirst
    have h48 : q = 48 := by
      cases hf : s.cal.frozen
      · rw [calQueue_checkDue hfirst.1 hf hbusy] at hq
        exact (Option.some.inj hq).symm
      · exact sessionFits_frozen hfits hf
    exact ⟨[], by rw [h48]⟩
  · obtain ⟨l, hl⟩ := List.head?_eq_some_iff.mp hq
    exact ⟨l, hl⟩

theorem arbPresent_admitted {cls : Nat} {t : Tgt} {s : State} (h : (arbPresent cls t s).2 = true) :
    (arbPresent cls t s).1 = arbAdmit cls t s := by
  unfold arbPresent arbPresentOf at *
  split at h
  · cases h
  · rename_i hh
    simp only [hh]
    rfl

theorem sessionBegin_arb (t : Fin 49) (s : State) : (sessionBegin t s).arb = s.arb :=
  (sessionBegin_only (.refl [.mon, .cal] s) (by decide) (by decide)).only .arb (by decide)

theorem sessionBegin_cal (t : Fin 49) (s : State) : (sessionBegin t s).cal.lastTarget = t.val ∧
    (sessionBegin t s).cal.busy.map (fun x => (x.target, x.cmd)) = some (t, (s.cal.requests.find? (·.1 == t)).map (·.2)) := by
  unfold sessionBegin
  dsimp only
  split <;>
  · simp only [modMon_cal, monStop, modCal_cal]
    split
    · exact ⟨rfl, rfl⟩
    · split <;> exact ⟨rfl, rfl⟩

theorem sessionStart_head {s : State} {q : Fin 49} (hrun : s.rst.mgmtRun = true) (hdom : domOn s 5 = true) (hbusy : s.cal.busy = none)
    (hswap : swapRuns s = false) (hq : (calQueue s).head? = some q) (hfits : sessionFits s q = true)
    (harb : (arbPresent 1 (calArb (calTgt q)) s).2 = true) : sessionStart s = sessionBegin q (arbAdmit 1 (calArb (calTgt q)) s) := by
  obtain ⟨l, hl⟩ := sessionOrder_head hbusy hq hfits
  unfold sessionStart
  rw [if_neg (by simp [hrun, hdom, hbusy, hswap]), hl]
  simp only [sessionTry, hfits, if_true, harb, arbPresent_admitted harb]

theorem convSession_accepted_cal {q : Session} {c : ConvId} {r : SessionResult} {s : State}
    (h : resultOk (calHeld s (.conv c) q.slice) r = true) : (convSession q c r s).cal.busy = s.cal.busy ∧
    (convSession q c r s).cal.sess = s.cal.sess + 1 ∧ (convSession q c r s).cal.reject = s.cal.reject := by
  rw [convSession_accepted h, swapBegin_cal, reedAnswer_cal]
  obtain ⟨forced, hforced⟩ := owedNext_cal c (calDueOne q.target (sessionCount q.target true
    (modCal (fun k => { k with rejRun := [] }) (storeSlice c q.slice r.vals s))))
  obtain ⟨since, due, starve, forced', hcount⟩ := sessionCount_cal q.target true
    (modCal (fun k => { k with rejRun := [] }) (storeSlice c q.slice r.vals s))
  obtain ⟨seq, hstore⟩ := storeSlice_cal c q.slice r.vals s
  obtain ⟨due', dueSince, hdue⟩ := calDueOne_cal q.target (sessionCount q.target true
    (modCal (fun k => { k with rejRun := [] }) (storeSlice c q.slice r.vals s)))
  rw [hforced, hdue, hcount, modCal_cal, hstore]
  exact ⟨rfl, rfl, rfl⟩

theorem convSession_accepted_conv {q : Session} {c : ConvId} {r : SessionResult} {s : State} {x : Int}
    (h : resultOk (calHeld s (.conv c) q.slice) r = true) (hx : regionTemp s (convSensor c) = some x)
    (hk : q.slice < (getConv s c).cal.length) : ((getConv (convSession q c r s) c).cal.getD q.slice SliceCal.none).tCal = x := by
  rw [convSession_accepted h]
  obtain ⟨run, hrun⟩ := swapBegin_conv q c (reedAnswer q.cmd (owedNext c (calDueOne q.target (sessionCount q.target true
    (modCal (fun k => { k with rejRun := [] }) (storeSlice c q.slice r.vals s))))))
  obtain ⟨owed, howed⟩ := owedNext_conv c (calDueOne q.target (sessionCount q.target true
    (modCal (fun k => { k with rejRun := [] }) (storeSlice c q.slice r.vals s))))
  simp only [hrun, getConv_reedAnswer, howed, getConv_calDueOne, getConv_sessionCount, getConv_modCal]
  exact storeSlice_conv r.vals hx hk

/-- Settles O60: what each event of the reed and of a swap leaves, by the lemmas about a session's start and end, a segment and a
parallel run. -/
theorem reedSessions : Obligations.ReedSessions := by
  intro s
  refine ⟨?start, ?session, ?swap, ?segment, ?idle, ?timeout⟩
  case start =>
    intro hrun hdom hbusy hswap q hq hfits harb
    refine ⟨_, rfl, ?_⟩
    rw [sessionStart_head hrun hdom hbusy hswap hq hfits harb, sessionBegin_arb]
    obtain ⟨hlast, hsession⟩ := sessionBegin_cal q (arbAdmit 1 (calArb (calTgt q)) s)
    exact ⟨hsession, hlast, rfl⟩
  case session =>
    intro r q hq
    refine ⟨fun c hc => ⟨_, rfl, ?_⟩, fun hc => ⟨_, rfl, ?_⟩⟩
    · have hconv : getConv (sessionOver s) c = getConv s c := getConv_modCal _ _ _
      rw [sessionDone_conv hq hc, ← calHeld_sessionOver]
      cases hok : resultOk (calHeld (sessionOver s) (.conv c) q.slice) r
      · rw [convSession_rejected hok, getConv_arbEnd, getConv_reedAnswer, getConv_sessionReject, hconv]
        obtain ⟨hbusy, hsess, hreject, -⟩ := sessionReject_cal q.target (sessionOver s)
        have hcal : (arbEnd 1 (calArb (.conv c)) (reedAnswer q.cmd (sessionReject q.target (sessionOver s)))).cal =
          (sessionReject q.target (sessionOver s)).cal := reedAnswer_cal _ _
        rw [hcal, hbusy, hsess, hreject]
        exact ⟨rfl, rfl, fun h => by simp at h, fun _ => ⟨rfl, rfl⟩⟩
      · obtain ⟨hbusy, hsess, hreject⟩ := convSession_accepted_cal hok
        rw [hbusy, hsess, hreject]
        exact ⟨rfl, rfl, fun _ => ⟨rfl, fun x hx hk => convSession_accepted_conv hok hx (by rw [hconv]; exact hk)⟩, fun h => by simp at h⟩
    · rw [sessionDone_reed hq hc]
      change (selfCheck q.cmd r (sessionOver s)).cal.busy = none ∧ (selfCheck q.cmd r (sessionOver s)).cal.reedOk = checksOk r ∧
        (selfCheck q.cmd r (sessionOver s)).cal.frozen = if checksOk r then false else s.cal.frozen || decide (2 ≤ s.cal.failRun + 1)
      cases hok : checksOk r
      · exact selfCheck_fails q.cmd hok (sessionOver s)
      · exact selfCheck_passes q.cmd hok (sessionOver s)
  case swap =>
    intro c run r hr hf hlate
    have hflush : lateFlush (swapDone c run s) = swapDone c run s := lateFlush_nil ((swapDone_late hr hf).trans hlate)
    have hover : getConv (runOver c s) c = { getConv s c with run := none } := getConv_modConv _ _ _
    refine ⟨_, congrArg Host.Outcome.next hflush, ?_⟩
    rw [swapDone_eq hr hf, getConv_swapOver]
    cases hp : runPasses c run
    · simp only [Bool.false_eq_true, if_false, getConv_swapFailed, hover]
      exact ⟨trivial, fun h => h.elim, fun _ => ⟨trivial, trivial, Latched.stays (swapFailed_latched c r (runOver c s))
        (.of_evt (modConv_evt _ _ _)) (swapOver_latchesStay _ _), trivial⟩⟩
    · simp only [if_true, getConv_swapPassed, hover]
      exact ⟨trivial, fun _ => ⟨trivial, trivial, trivial⟩, fun h => by simp at h⟩
  case segment => exact fun r q hq hk b hb => ⟨_, rfl, segmentDone_cal hq hk hb⟩
  case idle =>
    intro hdue hidle hbusy
    refine ⟨_, rfl, ?_⟩
    unfold reedIdle
    split
    · next h => exact absurd h hdue
    · rw [if_neg (by simp [hidle, hbusy]), raise_cal]
      exact ⟨rfl, Latched.stays (latched_raise (by decide) _ _) (.of_evt (modCal_evt s)) (.refl _)⟩
  case timeout =>
    intro q e he
    refine congrArg Host.Outcome.next ?_
    simp only [requestTimeout, he]
    rfl

end Sys2Proof.Machine
end

section
/-! SUPPORT. Host lanes: what an operation of a host lane leaves of that lane and of the others, and the events of acquisition. -/

namespace Sys2Proof.Machine

open Sys2Proof

/-! ### One host lane at a time -/

/-- From s to t host lane n becomes h, no other host lane changes, and what was latched stays latched. -/
structure HostStep (n : Fin 16) (s t : State) (h : HostLane) : Prop where
  host : t.hosts[n] = h
  others : OtherHosts n s t
  latches : LatchesStay s t

section
variable {n : Fin 16} {s t u : State} {h k : HostLane}

theorem HostStep.refl (n : Fin 16) (s : State) : HostStep n s s s.hosts[n] := ⟨rfl, fun _ _ => rfl, .refl s⟩

theorem HostStep.mod (hs : HostStep n s t h) (f : HostLane → HostLane) : HostStep n s (modHost n f t) (f h) :=
  ⟨(modHost_host n f t).trans (congrArg f hs.host), otherHosts_trans hs.others (modHost_otherHosts n f t), hs.latches.trans (.of_evt rfl)⟩

theorem HostStep.of_hosts (hs : HostStep n s t h) (e : u.hosts = t.hosts) (k : LatchesStay t u) : HostStep n s u h :=
  ⟨by rw [e]; exact hs.host, fun m hm => by rw [e]; exact hs.others m hm, hs.latches.trans k⟩

theorem HostStep.of_only {ps : List Part} (hs : HostStep n s t h) (k : Only ps t u) (hp : Part.hosts ∉ ps) (he : Part.evt ∉ ps) :
    HostStep n s u h := hs.of_hosts (k.only .hosts hp) (.of_only k he)

theorem HostStep.raise (hs : HostStep n s t h) (src : Nat) (p : Word) : HostStep n s (raise src p t) h :=
  hs.of_hosts (raise_hosts t) (raise_latchesStay src p t)

theorem HostStep.trans (hs : HostStep n s t h) (ks : HostStep n t u k) : HostStep n s u k :=
  ⟨ks.host, otherHosts_trans hs.others ks.others, hs.latches.trans ks.latches⟩

theorem HostStep.ite {a b : State} {P : HostLane → Prop} {c : Prop} [Decidable c] (ha : ∃ k, HostStep n s a k ∧ P k)
    (hb : ∃ k, HostStep n s b k ∧ P k) : ∃ k, HostStep n s (if c then a else b) k ∧ P k := by
  split
  · exact ha
  · exact hb

theorem HostStep.congr (hs : HostStep n s t h) (e : h = k) : HostStep n s t k := e ▸ hs

theorem modHost_congr {f g : HostLane → HostLane} (e : f s.hosts[n] = g s.hosts[n]) : modHost n f s = modHost n g s := by
  simp only [modHost, upd, e]

end

theorem latched_hostSrc (n : Fin 16) {o : Nat} (ho : o < 8) (p : Word) (s : State) : Latched (hostSrc n o) s (raise (hostSrc n o) p s) := by
  refine latched_raise ?_ p s
  revert n o
  decide

/-! ### Entering a state -/

/-- The coefficients that a lane holds as it leaves UP. -/
def HostLane.held (h : HostLane) : HostLane :=
  { h with heldCoefs := some { peak := h.peak, dcg := h.dcg, coefs := h.coefs, freq := h.freq } }

/-- The lane idle since an instant. -/
def HostLane.idled (h : HostLane) (clk : Nat) : HostLane :=
  { h with st := .idle, lock := false, idleSince := clk, snrHist := []
           path := { h.path with toLine := [], near := [] }, dcg := if bit h.act.rxCfg 14 then h.dcg else bits h.act.rxCfg 8 5 }

section
variable {n : Fin 16} {s t : State} {h : HostLane}

theorem HostStep.hold (hs : HostStep n s t h) : HostStep n s (hostHold n t) h.held := hs.mod _

theorem HostStep.idle (hs : HostStep n s t h) : HostStep n s (hostIdle n t) ((if h.st = .up then h.held else h).idled t.clk) := by
  unfold hostIdle
  rw [hs.host]
  by_cases hup : h.st = .up
  · rw [if_pos hup, if_pos hup]
    exact hs.hold.mod _
  · rw [if_neg hup, if_neg hup]
    exact hs.mod _

/-- The lane in TIMING. -/
def HostLane.timed (h : HostLane) (again : Bool) (clk : Nat) : HostLane :=
  { h with
    acc := HostAcc.reset, path := { h.path with prev := 0, toLine := [], near := [] }
    st := .timing, coldCnt := satU 8 (h.coldCnt + 1), auto := bit h.act.rxCfg 15, lock := false, snrHist := [], acqResume := false, acqUntil := 0
    acqStart := if again then h.acqStart else clk, dcg := bits h.act.rxCfg 8 5
    coefs := { ffe := (List.range 24).map fun i => if i = bits h.act.eqCfg 0 5 then 4 else 0, d1 := 0 } }

theorem HostStep.timing (hs : HostStep n s t h) (again : Bool) : HostStep n s (hostTiming n again t) (h.timed again t.clk) := hs.mod _

/-- The lane resumes; the held coefficients are taken where it has some. -/
theorem HostStep.resume (hs : HostStep n s t h) : ∃ k, HostStep n s (hostResume n t) k ∧ k.st = .resume ∧ k.sigDet = h.sigDet ∧
    k.lock = h.lock ∧ k.resumeCnt = satU 8 (h.resumeCnt + 1) ∧ k.acqStart = t.clk ∧
    ∀ c, h.heldCoefs = some c → k.coefs.ffe = c.coefs.ffe ∧ k.freq = c.freq := by
  refine ⟨_, hs.mod _, ?_⟩
  dsimp only
  split
  · next hnone =>
    refine ⟨rfl, rfl, rfl, rfl, rfl, fun c hc => ?_⟩
    rw [hc] at hnone
    cases hnone
  · next k hk =>
    refine ⟨rfl, rfl, rfl, rfl, rfl, fun c hc => ?_⟩
    obtain rfl := Option.some.inj (hk.symm.trans hc)
    exact ⟨rfl, rfl⟩

end

/-! ### Signal -/

theorem hostDrop_eq {n : Fin 16} {s : State} (hoff : s.hosts[n].st ≠ .off) (hidle : s.hosts[n].st ≠ .idle) :
    hostDrop n s = hostIdle n (raise (hostSrc n 0) (pay1 1) (modHost n (fun h => { h with sigDet := false }) s)) := by
  unfold hostDrop
  simp only [hoff, hidle, if_false]

theorem hostSignalOn_idle {n : Fin 16} {s : State} (hidle : s.hosts[n].st = .idle) (href : s.refOk = true) :
    hostSignalOn n s = hostLeaveIdle n (modHost n (fun h => { h with sigDet := true }) s) := by
  have hst : (modHost n (fun h => { h with sigDet := true }) s).hosts[n].st = .idle := by rw [modHost_host]; exact hidle
  unfold hostSignalOn
  rw [if_neg (by rw [hidle]; decide)]
  exact if_pos ⟨hst, href⟩

theorem hostLeaveIdle_held {n : Fin 16} {s : State} {k : HostHeld} (hk : s.hosts[n].heldCoefs = some k)
    (hage : s.clk ≤ s.hosts[n].idleSince + usTicks 100000) : hostLeaveIdle n s = hostResume n s := by
  unfold hostLeaveIdle
  exact if_pos (by simp only [hk, Option.isSome_some, Bool.true_and, decide_eq_true_eq]; omega)

theorem hostLeaveIdle_cold {n : Fin 16} {s : State}
    (h : s.hosts[n].heldCoefs = none ∨ s.hosts[n].idleSince + usTicks 100000 < s.clk) : hostLeaveIdle n s = hostTiming n false s := by
  unfold hostLeaveIdle
  refine if_neg fun hheld => ?_
  simp only [Bool.and_eq_true, decide_eq_true_eq] at hheld
  obtain ⟨hsome, hage⟩ := hheld
  rcases h with hnone | hlong
  · rw [hnone] at hsome
    cases hsome
  · omega

/-! ### Quality windows -/

theorem ratioOr_some (r : Rat) (s : State) : ratioOr (some r) s = (r, s) := rfl

theorem HostAcc.mse_counted {q : HostAcc} (h : 0 < q.n) (s : State) : q.mse s = (q.sse / (q.n : Rat), s) := if_neg (Nat.ne_of_gt h)

theorem quot_positive {a v : Rat} (h : 0 < v) : quot a (some v) = some (a / v) := if_neg (ne_of_gt h)

/-- The figures of a window with symbols: their fields, and the state after the values that the window leaves open. -/
theorem hostWindow_figures {n : Fin 16} {s : State} (hdec : hostDecides s n = true) (hn : 0 < s.hosts[n].acc.n)
    (hsse : 0 < s.hosts[n].acc.sse) : ∃ snr eye u, Only [.free] s u ∧
    let hist := (5120 / (s.hosts[n].acc.sse / (s.hosts[n].acc.n : Rat)) :: s.hosts[n].snrHist).take 4;
    let v := modHost n (fun h => { h with snr := snr, eye := eye, snrHist := hist, acc := HostAcc.reset }) u;
    hostWindow n s =
      if s.hosts[n].st ≠ .up ∧ settled hist = true ∧ hist.all (fun v => decide (10 ^ 7 ≤ v ^ 5)) = true then hostEnterUp n v else v := by
  have hmse : 0 < s.hosts[n].acc.sse / (s.hosts[n].acc.n : Rat) := div_pos hsse (by exact_mod_cast hn)
  unfold hostWindow
  rw [if_neg (by simp [hdec])]
  dsimp only
  rw [HostAcc.mse_counted hn, quot_positive hmse]
  dsimp only
  rw [ratioOr_some]
  dsimp only
  have hdb : ∀ r, Only [.free] s (dbField r s).2 := fun r => dbField_only (.refl _ s) (by decide)
  generalize hd : dbField (5120 / (s.hosts[n].acc.sse / (s.hosts[n].acc.n : Rat))) s = d
  have hu : Only [.free] s d.2 := by rw [← hd]; exact hdb _
  generalize 5120 / (s.hosts[n].acc.sse / (s.hosts[n].acc.n : Rat)) = ratio
  cases eyeOf s.hosts[n].acc.hist with
  | some v => exact ⟨d.1, satS 16 v, d.2, hu, rfl⟩
  | none => exact ⟨d.1, ofField 16 ((draw d.2).1 % 65536), (draw d.2).2, draw_only hu (by decide), rfl⟩

/-! ### Samples -/

/-- What the loops of a host lane hold. -/
def HostLane.loops (h : HostLane) : HostCoefs × Int × Nat × List Int := (h.coefs, h.freq, h.rot, h.path.xs)

section
variable {n : Fin 16} {s t : State} {h : HostLane}

theorem HostStep.emit (hs : HostStep n s t h) (o : Out) : HostStep n s (emit o t) h := hs.of_hosts rfl (.of_evt rfl)

theorem HostStep.check (hs : HostStep n s t h) (syms : List (Fin 4)) : ∃ k, HostStep n s (hostCheck n syms t) k ∧ k.loops = h.loops := by
  unfold hostCheck
  exact HostStep.ite ⟨_, hs, rfl⟩ ⟨_, (hs.mod _).of_only (countHost_only (.refl [.counters] _) (by decide)) (by decide) (by decide), rfl⟩

theorem HostStep.send (hs : HostStep n s t h) (src : HostClock) (syms : List (Fin 4)) :
    ∃ k, HostStep n s (hostSend n src syms t) k ∧ k.loops = h.loops := by
  unfold hostSend
  dsimp only
  generalize hw : hostWave _ _ t = w
  have hfree : Only [.free] t w.2 := by rw [← hw]; exact hostWave_only (.refl _ t) (by decide)
  exact ⟨_, ((hs.of_only hfree (by decide) (by decide)).mod _).emit _, rfl⟩

/-- Decided symbols go on without a change of the loops. -/
theorem HostStep.forward (hs : HostStep n s t h) (syms : List (Fin 4)) :
    ∃ k, HostStep n s (hostForward n syms t) k ∧ k.loops = h.loops := by
  unfold hostForward
  dsimp only
  generalize hostSymbolsIn t.hosts[n].act t.hosts[n].path.preRx syms = r
  obtain ⟨c, hcheck, hc⟩ := (hs.mod fun x => { x with path := { x.path with preRx := r.2 } }).check r.1
  generalize hostCheck n r.1 _ = v at hcheck ⊢
  refine HostStep.ite ⟨_, hcheck, hc⟩ (HostStep.ite ?_ ⟨_, hcheck.mod _, hc⟩)
  obtain ⟨k, hsend, hk⟩ := (hcheck.mod _).send .own _
  exact ⟨k, hsend, hk.trans hc⟩

/-- The samples pass the adaptation of the present block. -/
theorem HostStep.samples (hs : HostStep n s t h) (all : List Int) : let blind := trialBlind h;
    ∃ k, HostStep n s (hostSamples n all t) k ∧ k.loops = (hostAdapt h.act (h.st == .up && decide (h.acqUntil ≤ t.clk)) blind h.coefs all
      (hostDecide (hostApplied h.act blind h.coefs) all h.path.prev), h.freq, h.rot, h.path.xs) := by
  unfold hostSamples
  dsimp only
  rw [hs.host]
  generalize hostDecide _ all h.path.prev = blk
  have hclk : (hostCount n blk t).clk = t.clk := ((hostCount_only (.refl [.counters] t) (by decide)).only .clk (by decide)).1
  have hcount : HostStep n s (hostCount n blk t) h :=
    hs.of_only (hostCount_only (.refl [.counters] t) (by decide)) (by decide) (by decide)
  generalize hostCount n blk t = v at hclk hcount ⊢
  rw [hclk]
  refine HostStep.ite ?_ ⟨_, hcount.mod _, rfl⟩
  obtain ⟨k, hk, hl⟩ := (hcount.mod _).forward (blk.map (·.cur))
  exact ⟨k, hk, hl.trans rfl⟩

/-- The CDR's step, and the samples that join the path. -/
def HostLane.moved (h : HostLane) (r : Int × Int) (all : List Int) : HostLane :=
  { h with freq := max (-600) (min 600 r.2), rot := (((h.rot : Int) + max (-4) (min 4 r.1)) % 64).toNat, path := { h.path with xs := all } }

theorem hostLoop_step (xs : List Int) (cdr : List (Int × Int)) (hoff : s.hosts[n].st ≠ .off) (hidle : s.hosts[n].st ≠ .idle) :
    let h := s.hosts[n]; let all := ((xs.map adcClip).reverse ++ h.path.xs).take 64; let m := h.moved (cdr.getD h.act.cdrBw (0, 0)) all;
    ∃ k, HostStep n s (hostLoop n xs cdr s) k ∧ k.loops =
      (if h.st = .timing then h.coefs else hostAdapt h.act (h.st == .up && decide (h.acqUntil ≤ s.clk)) (trialBlind h) h.coefs all
        (hostDecide (hostApplied h.act (trialBlind h) h.coefs) all h.path.prev), m.freq, m.rot, all) := by
  unfold hostLoop
  dsimp only
  rw [if_neg (fun h => h.elim hoff hidle)]
  have hmoved := (HostStep.refl n s).mod fun h => h.moved (cdr.getD s.hosts[n].act.cdrBw (0, 0))
    (((xs.map adcClip).reverse ++ s.hosts[n].path.xs).take 64)
  by_cases htiming : s.hosts[n].st = .timing
  · rw [if_pos htiming, if_pos htiming]
    exact ⟨_, hmoved, rfl⟩
  · rw [if_neg htiming, if_neg htiming]
    obtain ⟨k, hk, hl⟩ := hmoved.samples (((xs.map adcClip).reverse ++ s.hosts[n].path.xs).take 64)
    exact ⟨k, hk, hl⟩

end

/-! ### Windows, trials and retries -/

section
variable {n : Fin 16} {s t : State} {h : HostLane}

theorem HostStep.enterUp (hs : HostStep n s t h) : HostStep n s (hostEnterUp n t) { h with st := .up, lock := true } :=
  ((hs.of_only (setTxBuffers_only (.refl [.free, .lines] t) (by decide) (by decide)) (by decide) (by decide)).mod _).raise _ _

/-- The lane after a window with its figures. -/
def HostLane.windowed (h : HostLane) (snr eye : Int) (hist : List Rat) : HostLane :=
  { h with snr := snr, eye := eye, snrHist := hist, acc := HostAcc.reset }

theorem hostWindow_step (hdec : hostDecides s n = true) (hn : 0 < s.hosts[n].acc.n) (hsse : 0 < s.hosts[n].acc.sse) :
    let hist := (5120 / (s.hosts[n].acc.sse / (s.hosts[n].acc.n : Rat)) :: s.hosts[n].snrHist).take 4;
    ∃ snr eye, let k := s.hosts[n].windowed snr eye hist;
      (s.hosts[n].st ≠ .up ∧ settled hist = true ∧ (∀ v ∈ hist, 10 ^ 7 ≤ v ^ 5) →
        HostStep n s (hostWindow n s) { k with st := .up, lock := true }) ∧
      (¬(s.hosts[n].st ≠ .up ∧ settled hist = true ∧ (∀ v ∈ hist, 10 ^ 7 ≤ v ^ 5)) → HostStep n s (hostWindow n s) k) := by
  obtain ⟨snr, eye, u, hu, hwin⟩ := hostWindow_figures hdec hn hsse
  intro hist
  have hk : HostStep n s (modHost n (fun h => h.windowed snr eye hist) u) (s.hosts[n].windowed snr eye hist) :=
    ((HostStep.refl n s).of_only hu (by decide) (by decide)).mod _
  have hall : hist.all (fun v => decide (10 ^ 7 ≤ v ^ 5)) = true ↔ ∀ v ∈ hist, 10 ^ 7 ≤ v ^ 5 := by simp
  refine ⟨snr, eye, fun hup => ?_, fun hstay => ?_⟩
  · rw [hwin, if_pos ⟨hup.1, hup.2.1, hall.mpr hup.2.2⟩]
    exact hk.enterUp
  · rw [hwin, if_neg fun h => hstay ⟨h.1, h.2.1, hall.mp h.2.2⟩]
    exact hk

theorem hostRetry_eq (hst : s.hosts[n].st ∈ [HostState.timing, .ctle, .adapt, .resume]) : hostRetry n s =
    hostTiming n (decide (s.hosts[n].st ≠ .resume)) (raise (hostSrc n 2) (pay1 (hostCode s.hosts[n].st)) s) := by
  unfold hostRetry
  exact if_pos (by simpa using hst)

theorem hostUnlock_up (hup : s.hosts[n].st = .up) : hostUnlock n s =
    hostResume n (hostHold n (raise (hostSrc n 0) 0 (modHost n (fun h => { h with lock := false }) s))) := by
  unfold hostUnlock
  exact if_pos ((congrArg HostLane.st (modHost_host n _ s)).trans hup)

theorem ctleTrial_counted (hst : s.hosts[n].st = .ctle) (hn : 0 < s.hosts[n].acc.n) :
    ctleTrial n s = modHost n (ctleNext (s.hosts[n].acc.sse / (s.hosts[n].acc.n : Rat))) s := by
  unfold ctleTrial
  rw [if_neg (not_not.mpr hst), HostAcc.mse_counted hn]

/-- The next code of the search. -/
theorem ctleNext_more {mse : Rat} {c : Nat} (hc : (h.search.todo.drop 1).head? = some c) : (ctleNext mse h).st = h.st ∧
    (ctleNext mse h).peak = c ∧ (ctleNext mse h).search.tried = h.search.tried ++ [(h.peak, mse)] := by
  obtain ⟨l, hl⟩ := List.head?_eq_some_iff.mp hc
  simp only [ctleNext, hl, List.isEmpty_cons, Bool.false_and, Bool.false_eq_true, if_false, and_self]

/-- The fine stage is over. -/
theorem ctleNext_over {mse : Rat} (hrest : h.search.todo.drop 1 = []) (hfine : h.search.fine = true) :
    (ctleNext mse h).st = .adapt ∧ (ctleNext mse h).peak = ctleBest (h.search.tried ++ [(h.peak, mse)]) := by
  simp only [ctleNext, hrest, hfine, List.isEmpty_nil, Bool.not_true, Bool.and_false, Bool.false_eq_true, if_false, and_self]

theorem loopSlip_step (hlb : bit s.hosts[n].act.test 9 = true) :
    OtherHosts n s (loopSlip n 0 s) ∧ (loopSlip n 0 s).hosts[n].slipCnt = satU 16 (s.hosts[n].slipCnt + 1) := by
  have hre : ∃ k, HostStep n s (recentre n (0 + 64) s) k ∧ k.slipCnt = s.hosts[n].slipCnt := by
    unfold recentre
    dsimp only
    have hfree : ∀ k, Only [.free] s (freeSyms k s).2 := fun k => freeSyms_only (.refl _ s) (by decide)
    split
    · exact ⟨_, (HostStep.refl n s).mod _, rfl⟩
    · exact ⟨_, ((HostStep.refl n s).of_only (hfree _) (by decide) (by decide)).mod _, rfl⟩
  obtain ⟨k, hk, hslip⟩ := hre
  unfold loopSlip
  rw [if_neg (by rw [hlb]; decide)]
  dsimp only
  have hstep := ((hk.mod fun h => { h with
    slipCnt := satU 16 (h.slipCnt + 1)
    slips := s.clk :: s.hosts[n].slips.filter fun t => decide (s.clk < t + usTicks 1000) }).of_only
      (countHost_only (x1 := n) (x2 := 0x0E) (x3 := 1) (.refl [.counters] _) (by decide)) (by decide) (by decide)).of_hosts
      ((raiseLimited_only (x1 := hostSrc n 7) (x2 := 0)
        (x3 := pay1 (s.clk :: s.hosts[n].slips.filter fun t => decide (s.clk < t + usTicks 1000)).length)
        (.refl [.evt, .own, .counters] _) (by decide) (by decide) (by decide)).only .hosts (by decide))
      (raiseLimited_latchesStay _ _ _ _)
  exact ⟨hstep.others, by rw [hstep.host, ← hslip]⟩

end

/-- Settles O56: what each event of a host lane leaves of the lane, of the others and of the latched events. -/
theorem hostAcquisition : Obligations.HostAcquisition := by
  intro s n
  refine ⟨?loss, ?signal, ?timing, ?ctle, ?window, ?lost, ?retry, ?gain, ?loop, ?lock, ?unlock, ?slip⟩
  case loss =>
    intro hoff hidle
    refine ⟨_, congrArg Host.Outcome.next (hostDrop_eq hoff hidle), ?_⟩
    have hdet := (HostStep.refl n s).mod fun h => { h with sigDet := false }
    have hstep := (hdet.raise (hostSrc n 0) (pay1 1)).idle
    rw [hstep.host]
    refine ⟨rfl, ?_, raise_clk _, hstep.others, ?_, fun hup => ?_, fun hup => ?_⟩
    · split <;> rfl
    · exact Latched.stays (latched_hostSrc n (by decide) _ _) hdet.latches ((HostStep.refl n _).idle).latches
    · exact congrArg HostLane.heldCoefs (congrArg (HostLane.idled · _) (if_pos hup))
    · rw [if_neg hup]; rfl
  case signal =>
    intro hidle href
    have hdet := (HostStep.refl n s).mod fun h => { h with sigDet := true }
    refine ⟨_, congrArg Host.Outcome.next (hostSignalOn_idle hidle href), ?_⟩
    have hheld : (modHost n (fun h => { h with sigDet := true }) s).hosts[n].heldCoefs = s.hosts[n].heldCoefs := by rw [hdet.host]
    have hsince : (modHost n (fun h => { h with sigDet := true }) s).hosts[n].idleSince = s.hosts[n].idleSince := by rw [hdet.host]
    by_cases hcold : s.hosts[n].heldCoefs = none ∨ s.hosts[n].idleSince + usTicks 100000 < s.clk
    · rw [hostLeaveIdle_cold (by rw [hheld, hsince]; exact hcold)]
      have hstep := hdet.timing false
      rw [hstep.host]
      refine ⟨rfl, hstep.others, fun k hk hage => ?_, fun _ => ⟨rfl, rfl, rfl, rfl⟩⟩
      rcases hcold with hnone | hlong
      · rw [hnone] at hk; cases hk
      · omega
    · obtain ⟨hsome, hage⟩ := not_or.mp hcold
      obtain ⟨k, hk⟩ := Option.ne_none_iff_exists'.mp hsome
      rw [hostLeaveIdle_held (hheld.trans hk) (by rw [hsince]; exact Nat.not_lt.mp hage)]
      obtain ⟨m, hstep, hst, hsig, -, hcnt, -, hcoefs⟩ := hdet.resume
      rw [hstep.host]
      refine ⟨hsig, hstep.others, fun c hc _ => ?_, fun h => absurd h hcold⟩
      obtain ⟨hffe, hfreq⟩ := hcoefs c hc
      exact ⟨hst, hffe, hfreq, hcnt⟩
  case timing =>
    intro hst
    refine ⟨_, rfl, ?_⟩
    have heq : (hostTimed n s).hosts[n] = ctleStart s.hosts[n] := (modHost_host n _ s).trans (if_pos hst)
    rw [heq]
    exact ⟨rfl, rfl, modHost_otherHosts n _ s, (modHost_only (.refl [.hosts] s) (by decide)).only, rfl⟩
  case ctle =>
    intro hst hn
    refine ⟨_, congrArg Host.Outcome.next (ctleTrial_counted hst hn), ?_⟩
    rw [modHost_host]
    refine ⟨modHost_otherHosts n _ s, (modHost_only (.refl [.hosts] s) (by decide)).only, fun c hc => ?_, ctleNext_over⟩
    obtain ⟨hsame, hpeak, htried⟩ := ctleNext_more (mse := s.hosts[n].acc.sse / (s.hosts[n].acc.n : Rat)) hc
    exact ⟨hsame.trans hst, hpeak, htried⟩
  case window =>
    intro hdec hn hsse
    refine ⟨_, rfl, ?_⟩
    intro hist
    obtain ⟨snr, eye, hup, hstay⟩ := hostWindow_step hdec hn hsse
    by_cases hc : s.hosts[n].st ≠ .up ∧ settled hist = true ∧ (∀ v ∈ hist, 10 ^ 7 ≤ v ^ 5)
    · have hstep := hup hc
      rw [hstep.host]
      exact ⟨hstep.others, rfl, rfl, fun _ _ => rfl, fun h => by rw [hc.2.1] at h; cases h⟩
    · have hstep := hstay hc
      rw [hstep.host]
      exact ⟨hstep.others, rfl, rfl, fun hset hsnr => Decidable.byContradiction fun h => hc ⟨h, hset, hsnr⟩, fun _ => rfl⟩
  case lost =>
    intro hup
    refine ⟨_, congrArg Host.Outcome.next (hostUnlock_up hup), ?_⟩
    have hlock := (HostStep.refl n s).mod fun h => { h with lock := false }
    obtain ⟨k, hstep, hst, -, hk, hcnt, hstart, -⟩ := (hlock.raise (hostSrc n 0) 0).hold.resume
    obtain ⟨_, hrest, -⟩ := (HostStep.refl n _).hold.resume
    rw [hstep.host]
    exact ⟨hst, hk, hcnt, hstart.trans (raise_clk _), hstep.others,
      Latched.stays (latched_hostSrc n (by decide) _ _) hlock.latches hrest.latches⟩
  case retry =>
    intro hst
    refine ⟨_, congrArg Host.Outcome.next (hostRetry_eq hst), ?_⟩
    have hstep := ((HostStep.refl n s).raise (hostSrc n 2) (pay1 (hostCode s.hosts[n].st))).timing (decide (s.hosts[n].st ≠ .resume))
    rw [hstep.host]
    refine ⟨rfl, rfl, rfl, hstep.others, Latched.stays (latched_hostSrc n (by decide) _ _) (.refl s) (.of_evt rfl), ?_⟩
    by_cases hr : s.hosts[n].st = .resume
    · rw [if_pos hr]
      exact (if_neg (by rw [decide_eq_true_eq]; exact not_not.mpr hr)).trans (raise_clk _)
    · rw [if_neg hr]
      exact if_pos (decide_eq_true hr)
  case gain =>
    intro rms hoff hidle hup hauto
    refine congrArg Host.Outcome.next (modHost_congr ?_)
    exact if_neg fun h => h.elim hoff fun h => h.elim hidle fun h => h.elim (by rw [hauto]; decide) fun h => hup h.1
  case loop =>
    intro xs cdr hoff hidle
    refine ⟨_, rfl, ?_⟩
    obtain ⟨k, hstep, hl⟩ := hostLoop_step xs cdr hoff hidle
    rw [hstep.host]
    obtain ⟨hcoefs, hfreq, hrot, hxs⟩ : k.coefs = _ ∧ k.freq = _ ∧ k.rot = _ ∧ k.path.xs = _ := by
      simpa only [HostLane.loops, Prod.mk.injEq] using hl
    refine ⟨hfreq, ?_, hxs, fun hst => ?_⟩
    · rw [hrot]
      exact Int.toNat_of_nonneg (Int.emod_nonneg _ (by decide))
    · rw [hcoefs, if_neg hst]
  case lock =>
    intro hpat hlock hrun
    refine ⟨_, congrArg Host.Outcome.next (if_neg fun h => h.elim hpat fun h => h.elim (by rw [hlock]; decide) (Nat.not_lt.mpr hrun)), ?_⟩
    have hstep := (HostStep.refl n s).mod fun h => { h with chkLock := true, testErr := 0, chk := { h.chk with errs := [] } }
    rw [(hstep.raise _ _).host]
    exact ⟨rfl, rfl, (hstep.raise _ _).others, Latched.stays (latched_hostSrc n (by decide) _ _) hstep.latches (.refl _)⟩
  case unlock =>
    intro hlock herrs
    refine ⟨_, congrArg Host.Outcome.next (if_neg fun h => h.elim (by rw [hlock]; decide) (Nat.not_le.mpr herrs)), ?_⟩
    have hstep := (HostStep.refl n s).mod fun h => { h with chkLock := false, chk := Checker.reset, lockLoss := satU 8 (h.lockLoss + 1) }
    rw [(hstep.raise _ _).host]
    exact ⟨rfl, rfl, rfl, (hstep.raise _ _).others, Latched.stays (latched_hostSrc n (by decide) _ _) hstep.latches (.refl _)⟩
  case slip =>
    intro hlb
    obtain ⟨hothers, hslip⟩ := loopSlip_step hlb
    exact ⟨_, rfl, hslip, hothers⟩

end Sys2Proof.Machine
end

section
/-! SUPPORT. Failures of slices and DAC segments: what a declared failure leaves of its converter. -/

namespace Sys2Proof.Machine

open Sys2Proof

section
variable {c : ConvId} {k l : Nat} {s : State}

theorem getConv_calPrune (c : ConvId) (s : State) : getConv (calPrune s) c = getConv s c :=
  (calPrune_only (.refl [.rings, .evt, .own, .counters, .cal] s) (by decide) (by decide) (by decide) (by decide) (by decide)).getConv
    (by decide) (by decide) c

theorem convFail_passedOver (h : ¬(convJudged s c = true ∧ isServing ((getConv s c).roles.getD k .failed) = true)) :
    convFail c k s = s := by
  unfold convFail
  exact if_pos (by simpa only [Bool.or_eq_true, Bool.not_eq_true', ← Bool.not_eq_true, ← not_and_or] using h)

theorem convFail_judged (hj : convJudged s c = true) (hl : (getConv s c).roles[k]? = some (.phase l)) :
    (getConv s c).roles.getD k .failed = .phase l ∧ ¬(!convJudged s c || !isServing ((getConv s c).roles.getD k .failed)) = true := by
  have hrole : (getConv s c).roles.getD k .failed = .phase l := by rw [List.getD_eq_getElem?_getD, hl]; rfl
  exact ⟨hrole, by rw [hj, hrole]; exact Bool.false_ne_true⟩

/-- During a swap a failure waits for the swap's end. -/
theorem convFail_swapping (hj : convJudged s c = true) (hl : (getConv s c).roles[k]? = some (.phase l)) {r : SwapRun}
    (hr : (getConv s c).run = some r) :
    convFail c k s = modConv c (fun x => { x with run := some { r with failures := r.failures ++ [k] } }) s := by
  unfold convFail
  rw [if_neg (convFail_judged hj hl).2, hr]

theorem convFail_acts (hj : convJudged s c = true) (hl : (getConv s c).roles[k]? = some (.phase l))
    (hr : (getConv s c).run = none) : convFail c k s = failAct c k s := by
  unfold convFail
  rw [if_neg (convFail_judged hj hl).2, hr]

/-- Without a spare the failure is reported. -/
theorem failAct_noSpare (hrole : (getConv s c).roles.getD k .failed = .phase l) (hs : spareSlice (getConv s c) = none) :
    failAct c k s = raise (convEvent c 0) (pay2 k 0) s := by
  simp only [failAct, hrole, hs]

/-- The spare takes the phase. -/
def spareTakes (c : ConvId) (k y l : Nat) (s : State) : State :=
  modConv c (fun x => { x with roles := (x.roles.set k .failed).set y (.phase l) }) (convApply c s)

theorem failAct_spare (hrole : (getConv s c).roles.getD k .failed = .phase l) {y : Nat} (hs : spareSlice (getConv s c) = some y) :
    failAct c k s = spareGone c (raise (convEvent c 0) (pay2 k 1) (capSubst c (spareTakes c k y l s))) := by
  simp only [failAct, hrole, hs]
  rfl

theorem convApply_roles (c : ConvId) (s : State) : (getConv (convApply c s) c).roles = (getConv s c).roles := by
  unfold convApply
  split
  · rfl
  · rw [getConv_modConv]

theorem spareTakes_roles (c : ConvId) (k y l : Nat) (s : State) :
    (getConv (spareTakes c k y l s) c).roles = ((getConv s c).roles.set k .failed).set y (.phase l) := by
  unfold spareTakes
  rw [getConv_modConv]
  dsimp only
  rw [convApply_roles]

theorem spareTakes_evt (c : ConvId) (k y l : Nat) (s : State) : (spareTakes c k y l s).evt = s.evt := by
  unfold spareTakes convApply
  rw [modConv_evt]
  split
  · rfl
  · exact modConv_evt _ _ _

theorem capSubst_only' (c : ConvId) (s : State) : Only [.free, .arb, .captures] s (capSubst c s) :=
  capSubst_only (.refl _ s) (by decide) (by decide) (by decide)

theorem convEvent_failed (c : ConvId) : (evtClass (convEvent c 0)).isSome = true := by
  cases c with
  | lineAdc n => exact evtClass_lineSrc_isSome n (by decide)
  | dac n => exact evtClass_lineSrc_isSome n (by decide)
  | hostAdc n => revert n; decide

end

/-- A failure of slice k of converter c, with every target whose spare is gone out of the queue. -/
theorem convFail_settles (c : ConvId) (k : Nat) (s : State) :
    (¬(convJudged s c = true ∧ isServing ((getConv s c).roles.getD k .failed) = true) → calPrune (convFail c k s) = calPrune s) ∧
    (convJudged s c = true → ∀ l, (getConv s c).roles[k]? = some (.phase l) →
      (∀ r, (getConv s c).run = some r →
        getConv (calPrune (convFail c k s)) c = { getConv s c with run := some { r with failures := r.failures ++ [k] } }) ∧
      ((getConv s c).run = none → spareSlice (getConv s c) = none → getConv (calPrune (convFail c k s)) c = getConv s c ∧
        Latched (convEvent c 0) s (calPrune (convFail c k s))) ∧
      ((getConv s c).run = none → ∀ y, spareSlice (getConv s c) = some y →
        (getConv (calPrune (convFail c k s)) c).roles = ((getConv s c).roles.set k .failed).set y (.phase l) ∧
        Latched (convEvent c 0) s (calPrune (convFail c k s)))) := by
  refine ⟨fun h => congrArg calPrune (convFail_passedOver h), fun hj l hl => ⟨fun r hr => ?_, fun hr hs => ?_, fun hr y hs => ?_⟩⟩
  · rw [getConv_calPrune, convFail_swapping hj hl hr, getConv_modConv]
  · rw [getConv_calPrune, convFail_acts hj hl hr, failAct_noSpare (convFail_judged hj hl).1 hs,
      getConv_congr (raise_lines _) (raise_hosts _)]
    exact ⟨rfl, Latched.stays (latched_raise (convEvent_failed c) _ _) (.refl s) (calPrune_latchesStay _)⟩
  · have hsubst := capSubst_only' c (spareTakes c k y l s)
    rw [getConv_calPrune, convFail_acts hj hl hr, failAct_spare (convFail_judged hj hl).1 hs]
    unfold spareGone
    rw [getConv_congr (raise_lines _) (raise_hosts _), getConv_congr (raise_lines _) (raise_hosts _),
      hsubst.getConv (by decide) (by decide), spareTakes_roles]
    exact ⟨rfl, Latched.stays (latched_raise (convEvent_failed c) _ _)
      ((LatchesStay.of_evt (spareTakes_evt c k y l s)).trans (.of_only hsubst (by decide)))
      ((raise_latchesStay _ _ _).trans (calPrune_latchesStay _))⟩

/-- What the statement asks of a failure follows from the lemma about its converter. -/
theorem converterFailure {c : ConvId} {k : Nat} {s : State} {i : Instr} (hi : exec i s = .next (calPrune (convFail c k s))) :
    (¬(convJudged s c = true ∧ isServing ((getConv s c).roles.getD k .failed) = true) → exec i s = .next (calPrune s)) ∧
    (convJudged s c = true → ∀ l, (getConv s c).roles[k]? = some (.phase l) →
      (∀ r, (getConv s c).run = some r → ∃ t, exec i s = .next t ∧
        getConv t c = { getConv s c with run := some { r with failures := r.failures ++ [k] } }) ∧
      ((getConv s c).run = none → spareSlice (getConv s c) = none → ∃ t, exec i s = .next t ∧ getConv t c = getConv s c ∧
        (masked s (convEvent c 0) = false → ∃ x ∈ t.evt.latches, x.src = convEvent c 0)) ∧
      ((getConv s c).run = none → ∀ y, spareSlice (getConv s c) = some y → ∃ t, exec i s = .next t ∧
        (getConv t c).roles = ((getConv s c).roles.set k .failed).set y (.phase l) ∧
        (masked s (convEvent c 0) = false → ∃ x ∈ t.evt.latches, x.src = convEvent c 0))) := by
  obtain ⟨hpassed, hacts⟩ := convFail_settles c k s
  refine ⟨fun h => hi.trans (congrArg _ (hpassed h)), fun hj l hl => ?_⟩
  obtain ⟨hswap, hnone, hspare⟩ := hacts hj l hl
  exact ⟨fun r hr => ⟨_, hi, hswap r hr⟩, fun hr hs => ⟨_, hi, hnone hr hs⟩, fun hr y hs => ⟨_, hi, hspare hr y hs⟩⟩

/-- Settles O44: the three kinds of converter by one lemma about a converter's failure. -/
theorem converterFailures : Obligations.ConverterFailures := by
  intro n h k s
  exact ⟨converterFailure rfl, converterFailure rfl, converterFailure rfl⟩

end Sys2Proof.Machine
end

section
/-! SUPPORT. Scrubs, uncorrectable words, and the ends of scans and captures. -/

namespace Sys2Proof.Machine

open Sys2Proof

/-! ### Bytes outside a write -/

/-- A write of one byte leaves every other byte, whatever form the memory has. -/
theorem Memory.get_set_ne {b a : Nat} (h : b ≠ a) (v : Byte) (m : List Host.Cell) : Memory.get (Memory.set m a v) b = Memory.get m b := by
  induction m with
  | nil =>
    unfold Memory.set
    split
    · rfl
    · exact if_neg (Ne.symm h)
  | cons c t ih =>
    unfold Memory.set
    split
    · split
      · rfl
      · exact if_neg (Ne.symm h)
    · split
      · next ha =>
        have hc : c.1 ≠ b := ha ▸ Ne.symm h
        rw [show Memory.get (c :: t) b = Memory.get t b from if_neg hc]
        split
        · rfl
        · exact if_neg (Ne.symm h)
      · exact congrArg (fun x => if c.1 = b then c.2 else x) ih

theorem Memory.get_write_ne {a b : Nat} {l : List Byte} (h : b < a ∨ a + l.length ≤ b) (m : List Host.Cell) :
    Memory.get (Memory.write m a l) b = Memory.get m b := by
  induction l generalizing m a with
  | nil => rfl
  | cons x t ih =>
    rw [List.length_cons] at h
    exact (ih (by omega) _).trans (Memory.get_set_ne (by omega) x m)

/-! ### Scrubs -/

section
variable {addr : Nat} {s : State}

theorem scrubBlock_idle (ecc : Option EccOutcome) (h : s.chk.scrub = false) : scrubBlock ecc addr s = s := if_pos (by rw [h]; rfl)

/-- The check state after a block of the calibration store. -/
def Chk.scrubbed (k : Chk) (period clk : Nat) : Chk :=
  { k with
    scrub := false, calBlock := (k.calBlock + 1) % 32, calPasses := if k.calBlock = 31 then k.calPasses + 1 else k.calPasses
    late := if k.calBlock = 31 then false else k.late
    passAt := if k.calBlock = 31 then max (k.passAt + period) clk else k.passAt }

theorem scrubBlock_good (h : s.chk.scrub = true) :
    scrubBlock none addr s = modChk (fun k => k.scrubbed (scrubPeriod s) s.clk) (arbEnd 7 .device s) := by
  have hperiod : scrubPeriod (arbEnd 7 .device s) = scrubPeriod s := rfl
  have hchk : (arbEnd 7 .device s).chk = s.chk := rfl
  have hclk : (arbEnd 7 .device s).clk = s.clk := rfl
  unfold scrubBlock
  rw [if_neg (by rw [h]; decide)]
  simp only [hperiod, hchk, hclk, modChk, Chk.scrubbed, beq_iff_eq]
  by_cases hlast : s.chk.calBlock = 31
  · simp only [hlast, BEq.rfl, Bool.not_true, Bool.and_false, if_true]
  · simp only [hlast, beq_eq_false_iff_ne.mpr hlast, Bool.not_false, Bool.and_true, if_false]

theorem scrubOverdue_eq (s : State) : scrubOverdue s =
    if bit (scrubCfg s) 31 = true ∧ s.chk.late = false ∧ s.chk.passAt + 2 * scrubPeriod s ≤ s.clk then
      raise 0x1F4 (pay1 s.chk.calBlock) (modChk (fun x => { x with overdue := satU 8 (x.overdue + 1), late := true }) s)
    else s := by
  simp only [scrubOverdue, Bool.and_eq_true, Bool.not_eq_true', decide_eq_true_eq, and_assoc]

theorem storeRefresh_passes {ecc : Option EccOutcome} (h : (∀ a b c, s.rst.sleep ≠ .asleep a b c) ∨ ecc = none ∨ ecc = some .single) :
    storeRefresh ecc s = s := by
  unfold storeRefresh
  split
  · next a b c hs => exact h.elim (fun h => absurd hs (h a b c)) (fun h => h.elim nofun nofun)
  · next a b c hs => exact h.elim (fun h => absurd hs (h a b c)) (fun h => h.elim nofun nofun)
  · rfl

/-! ### Uncorrectable words -/

theorem tlmWordLost_latchesStay (s : State) : LatchesStay s (tlmWordLost s) := by
  unfold tlmWordLost
  dsimp only
  split
  · exact .of_evt rfl
  · split
    · exact .of_evt rfl
    · exact (raise_latchesStay _ _ _).after rfl
  · exact .of_evt rfl

theorem freeSlot_latchesStay (i : Fin 256) (s : State) : LatchesStay s (freeSlot i s) := by
  unfold freeSlot
  split
  · exact (refuse_latchesStay _ _ _).after rfl
  · exact .of_evt rfl

theorem enterHoldover_latchesStay (cause : Nat) (s : State) : LatchesStay s (enterHoldover cause s) := by
  unfold enterHoldover
  split
  · exact .refl s
  · exact (raise_latchesStay _ _ _).after rfl

theorem treeLost_latchesStay (t : Tree) (cause : Option Nat) (s : State) : LatchesStay s (treeLost t cause s) := by
  unfold treeLost
  split
  · exact .refl s
  · split
    · split
      · exact .of_evt rfl
      · split
        · exact .of_evt rfl
        · exact (enterHoldover_latchesStay _ _).after rfl
    · split
      · exact enterHoldover_latchesStay _ _
      · split
        · split
          · exact .of_evt rfl
          · exact (enterHoldover_latchesStay _ _).after rfl
        · exact .refl s

theorem cadenceWordLost_latchesStay (addr : Nat) (s : State) : LatchesStay s (cadenceWordLost addr s) := by
  unfold cadenceWordLost
  split
  · exact freeSlot_latchesStay _ _
  · exact (treeLost_latchesStay _ _ _).trans (treeLost_latchesStay _ _ _)

theorem secureWordLost_latchesStay (s : State) : LatchesStay s (secureWordLost s) := by
  unfold secureWordLost
  dsimp only
  refine .trans ?_ (.of_evt (modTst_evt _))
  exact (raise_latchesStay _ _ _).after rfl

/-- What an uncorrectable word of a memory does beside its count and its event: the parts it may change. -/
structure WordLost (s t : State) : Prop where
  latches : LatchesStay s t
  chk : t.chk = s.chk
  lmem : t.lmem = s.lmem

theorem WordLost.of_only {ps : List Part} {t : State} (h : Only ps s t) (hl : LatchesStay s t) (hc : Part.chk ∉ ps) (hm : Part.lmem ∉ ps) :
    WordLost s t := ⟨hl, h.only .chk hc, h.only .lmem hm⟩

theorem eccNote_latched (mem addr : Nat) (s : State) : Latched 0x1F1 s (eccNote mem addr s) :=
  Latched.stays (latched_raise (by decide) _ _) (.of_evt (modChk_evt s)) (.refl _)

theorem eccNote_chk (mem addr : Nat) (s : State) :
    (eccNote mem addr s).chk = { s.chk with unc := min (s.chk.unc + 1) 255, lastMem := mem } := raise_chk _

theorem eccNote_lmem (mem addr : Nat) (s : State) : (eccNote mem addr s).lmem = s.lmem := raise_lmem _

/-- The word of a memory that is lost, but for the firmware's memory. -/
def lostWord (mem addr : Nat) (s : State) : State := match mem with
  | 0 => recordInvalid s
  | 1 => tlmWordLost s
  | 2 => ringWordLost addr s
  | 4 => bankWordLost s
  | 5 => cadenceWordLost addr s
  | 6 => eventWordLost s
  | 7 => secureWordLost s
  | 8 => regSet addr (reg s addr) s
  | _ => s

theorem hardScrub_double {mem : Nat} (h3 : mem ≠ 3) (hon : scrubOn s mem addr = true) :
    hardScrub mem addr (some .double) s = lostWord mem addr (eccNote mem addr s) := by
  unfold hardScrub
  rw [if_neg (by rw [hon]; decide)]
  dsimp only
  split
  · exact absurd rfl h3
  · rfl
  · rfl
  · rfl
  · rfl
  · rfl
  · next h4 h5 h6 h7 h8 =>
    unfold eccUnc lostWord
    split <;> simp_all

/-- Every memory but the local ring memory and the event memory: its word alone is lost. -/
theorem lostWord_elsewhere {mem : Nat} (h2 : mem ≠ 2) (h6 : mem ≠ 6) (addr : Nat) (s : State) : WordLost s (lostWord mem addr s) := by
  unfold lostWord
  split
  · have h := recordInvalid_only (.refl [.free, .lines, .hosts, .cal] s) (by decide) (by decide) (by decide) (by decide)
    exact .of_only h (.of_only h (by decide)) (by decide) (by decide)
  · exact .of_only (tlmWordLost_only (.refl [.free, .evt, .tlm, .own, .counters, .captures] s) (by decide) (by decide) (by decide)
      (by decide) (by decide) (by decide)) (tlmWordLost_latchesStay s) (by decide) (by decide)
  · exact absurd rfl h2
  · have h := bankWordLost_only (.refl [.free, .lines, .hosts, .ports] s) (by decide) (by decide) (by decide) (by decide)
    exact .of_only h (.of_only h (by decide)) (by decide) (by decide)
  · exact .of_only (cadenceWordLost_only (.refl [.rings, .evt, .cad, .own, .ports, .counters] s) (by decide) (by decide) (by decide)
      (by decide) (by decide) (by decide)) (cadenceWordLost_latchesStay _ s) (by decide) (by decide)
  · exact absurd rfl h6
  · exact .of_only (secureWordLost_only (.refl [.free, .evt, .own, .counters, .tst] s) (by decide) (by decide) (by decide)
      (by decide) (by decide)) (secureWordLost_latchesStay s) (by decide) (by decide)
  · have h := regSet_only (x1 := addr) (x2 := reg s addr) (.refl [.setup] s) (by decide)
    exact .of_only h (.of_only h (by decide)) (by decide) (by decide)
  · exact ⟨.refl s, rfl, rfl⟩

theorem bytesLE_eight (v : Nat) : (bytesLE 8 v).length = 8 := rfl

/-- The count, the event and the memory of an uncorrectable word that a hardware scrubber meets. -/
theorem hardScrub_uncorrectable {mem : Nat} (h3 : mem ≠ 3) (hon : scrubOn s mem addr = true) :
    let t := hardScrub mem addr (some .double) s;
    t.chk = { s.chk with unc := min (s.chk.unc + 1) 255, lastMem := mem } ∧ (mem ≠ 6 → Latched 0x1F1 s t) ∧
      (mem ≠ 2 → t.lmem = s.lmem) ∧ (mem = 2 → OtherBytes (8 * (addr % 8192)) 8 s t) := by
  intro t
  have ht : t = lostWord mem addr (eccNote mem addr s) := hardScrub_double h3 hon
  have hlmem := eccNote_lmem mem addr s
  rw [ht, ← eccNote_chk mem addr s, ← hlmem]
  have hlatched := eccNote_latched mem addr s
  by_cases h2 : mem = 2
  · subst h2
    refine ⟨rfl, fun _ => Latched.stays hlatched (.refl s) (.of_evt rfl), fun h => absurd rfl h, fun _ b hb => ?_⟩
    exact (Memory.get_write_ne (by rw [bytesLE_eight]; exact hb) _).trans (congrArg (Memory.get · b) hlmem)
  · by_cases h6 : mem = 6
    · subst h6
      exact ⟨rfl, fun h => absurd rfl h, fun _ => rfl, fun h => absurd h h2⟩
    · obtain ⟨hstay, hchk, hmem⟩ := lostWord_elsewhere h2 h6 addr (eccNote mem addr s)
      exact ⟨hchk, fun _ => Latched.stays hlatched (.refl s) hstay, fun _ => hmem, fun h => absurd h h2⟩

/-! ### Check scans -/

/-- Cadence time depends on no part but that of the cadence. -/
theorem Only.now {ps : List Part} {s t : State} (h : Only ps s t) (hp : Part.cad ∉ ps) : Machine.now t = Machine.now s := by
  have hcad : { t.cad with own := s.cad.own } = s.cad := h.only .cad hp
  have hbeat : t.cad.beat = s.cad.beat := (congrArg Cad.beat hcad :)
  have hel : t.cad.elapsed = s.cad.elapsed := (congrArg Cad.elapsed hcad :)
  have hper : t.cad.period = s.cad.period := (congrArg Cad.period hcad :)
  simp only [Machine.now, hbeat, hel, hper]

/-- The channel's scan ends with an error, so far done. -/
def ChkCh.stopped (x : ChkCh) (dn : Nat) : ChkCh := { x with job := none, err := true, done := dn }

/-- The channel's scan ends with a value. -/
def ChkCh.ended (x : ChkCh) (j : ChkJob) (v : Nat) : ChkCh :=
  { x with job := none, err := false, mismatch := bit j.flags 4 && v != j.expect.toNat, res := BitVec.ofNat 64 v, done := j.len }

def modCh (k : Fin 4) (f : ChkCh → ChkCh) (s : State) : State := modChk (fun x => { x with ch := upd x.ch k f }) s

theorem modCh_ch (k : Fin 4) (f : ChkCh → ChkCh) (s : State) : (modCh k f s).chk.ch[k] = f s.chk.ch[k] := upd_get_self _ _ _

section
variable {k : Fin 4} {j : ChkJob}

theorem chkDone_idle (r : ScanEnd) (h : s.chk.ch[k].job = none) : chkDone k r s = s := by
  unfold chkDone
  rw [h]

theorem chkDone_waits {bytes : List Byte} (h : s.chk.ch[k].job = some j) (hspace : j.space = 0) (hbus : busOk s = false) :
    chkDone k (.complete bytes) s = s := by
  unfold chkDone
  rw [h]
  exact if_pos ⟨hspace, by rw [hbus]; rfl⟩

theorem chkDone_hostFailed {dn st : Nat} (h : s.chk.ch[k].job = some j) (hspace : j.space = 0) :
    chkDone k (.hostReadFailed dn st) s = chkNext k (answer j.cmd 0x40 true (now s) 2
      (modCh k (·.stopped (min dn j.len)) (aerNote st (raise 0x1F6 (pay2 k.val st) s)))) := by
  have hnow : now (aerNote st (raise 0x1F6 (pay2 k.val st) s)) = now s :=
    Only.now (aerNote_only (raise_only (.refl [.evt, .own, .counters, .pcie] s) (by decide) (by decide) (by decide)) (by decide)) (by decide)
  unfold chkDone
  rw [h]
  dsimp only
  rw [if_pos hspace, hnow]
  rfl

/-- The value of a scan; space 1 is the ring memory. -/
def scanValue (j : ChkJob) (bytes : List Byte) (s : State) : Nat :=
  chkValue j (if j.space = 1 then Memory.read s.lmem j.start j.len else fit j.len bytes)

/-- A value that differs from the expected one is reported. -/
def scanReport (k : Fin 4) (j : ChkJob) (v : Nat) (s : State) : State :=
  if bit j.flags 4 && v != j.expect.toNat then raise 0x1F3 (pay1 k.val) s else s

theorem chkDone_complete {bytes : List Byte} (h : s.chk.ch[k].job = some j) (hgo : j.space ≠ 0 ∨ busOk s = true) :
    chkDone k (.complete bytes) s = chkNext k (done j.cmd (scanValue j bytes s)
      (scanReport k j (scanValue j bytes s) (modCh k (·.ended j (scanValue j bytes s)) s))) := by
  unfold chkDone
  rw [h]
  exact if_neg fun hstop => hgo.elim (fun h => h hstop.1) fun h => by rw [h] at hstop; exact absurd hstop.2 (by decide)

theorem scanReport_chk (v : Nat) : (scanReport k j v s).chk = s.chk := by
  unfold scanReport
  split
  · exact raise_chk s
  · rfl

end

/-! ### Captures and eye scans -/

/-- The target that a capture or an eye scan holds. -/
def CapRun.held (r : CapRun) : Tgt := (Tgt.ofCode r.target).getD .device

theorem capRecords_only' (r : CapRun) (b : List Byte) (s : State) : Only [.free, .rings, .evt, .tlm, .own, .counters] s (capRecords r b s).1 :=
  capRecords_only (.refl _ s) (by decide) (by decide) (by decide) (by decide) (by decide) (by decide)

theorem capDone_idle {samples : List Int} (h : s.cap = none) : capDone samples s = s := by unfold capDone; rw [h]

theorem capDone_run {samples : List Int} {r : CapRun} (h : s.cap = some r) : ∃ u id, capDone samples s = doneO r.cmd id u ∧
    u.cap = none ∧ u.scans = s.scans ∧ u.arb.admitted = s.arb.admitted.erase { cls := 2, target := r.held.code } := by
  have hrec := capRecords_only' r (zeroWord r.lost (sampleList r samples)) (arbEnd 2 r.held { s with cap := none })
  obtain ⟨hcap, hscans⟩ : _ = _ ∧ _ = _ := hrec.only .captures (by decide)
  refine ⟨_, _, by unfold capDone; rw [h]; rfl, hcap, hscans, ?_⟩
  exact congrArg Arb.admitted (hrec.only .arb (by decide))

/-- The state in which an eye scan has ended, but for its record. -/
def scanOver (r : CapRun) (s : State) : State :=
  if r.trunc then { s with scans := s.scans.erase r } else arbEnd 2 r.held { s with scans := s.scans.erase r }

theorem scanDone_idle {lane : LaneId} {bins : List Nat} (h : s.scans.find? (fun r => r.target == laneCode lane) = none) :
    scanDone lane bins s = s := by unfold scanDone; rw [h]

theorem scanDone_run {lane : LaneId} {bins : List Nat} {r : CapRun} (h : s.scans.find? (fun r => r.target == laneCode lane) = some r) :
    ∃ u id, scanDone lane bins s = doneO r.cmd id u ∧ u.cap = s.cap ∧ u.scans = s.scans.erase r ∧
      (r.trunc = true → u.arb.admitted = s.arb.admitted) ∧
      (r.trunc = false → u.arb.admitted = s.arb.admitted.erase { cls := 2, target := r.held.code }) := by
  obtain ⟨t, hdone, hrec⟩ : ∃ x : State × Nat, scanDone lane bins s = doneO r.cmd x.2 x.1 ∧
      Only [.free, .rings, .evt, .tlm, .own, .counters] (scanOver r s) x.1 :=
    ⟨_, by unfold scanDone; rw [h]; rfl,
      tlmFormId_only (.refl _ _) (by decide) (by decide) (by decide) (by decide) (by decide) (by decide)⟩
  obtain ⟨hcap, hscans⟩ : _ = _ ∧ _ = _ := hrec.only .captures (by decide)
  have harb : t.1.arb = (scanOver r s).arb := hrec.only .arb (by decide)
  refine ⟨t.1, t.2, hdone, ?_⟩
  rw [hcap, hscans, harb]
  unfold scanOver
  cases r.trunc
  · exact ⟨rfl, rfl, nofun, fun _ => rfl⟩
  · exact ⟨rfl, rfl, fun _ => rfl, nofun⟩

end

/-- Settles O50: scrubs, uncorrectable words and the ends of scans, each by the lemma about its operation. -/
theorem scrubsAndScans : Obligations.ScrubsAndScans := by
  intro addr s
  refine ⟨⟨fun ecc h => congrArg Host.Outcome.next (scrubBlock_idle ecc h), fun h => ?scrub⟩, ⟨fun h => ?quiet, fun h => ?overdue⟩,
    fun mem => ⟨?none, fun ecc h => ?off, fun h3 hon => ⟨_, rfl, hardScrub_uncorrectable h3 hon⟩⟩,
    fun ecc h => congrArg Host.Outcome.next (storeRefresh_passes h), fun a b c h => ?refresh,
    fun k => ⟨fun r h => congrArg Host.Outcome.next (chkDone_idle r h), fun bytes j h hspace hbus => congrArg Host.Outcome.next (chkDone_waits h hspace hbus),
      fun dn st j h hspace => ?hostFailed, fun bytes j h hgo => ?complete⟩,
    fun samples => ⟨fun h => congrArg Host.Outcome.next (capDone_idle h), fun r h => ?capture⟩,
    fun lane bins => ⟨fun h => congrArg Host.Outcome.next (scanDone_idle h), fun r h => ?scan⟩⟩
  case scrub =>
    refine ⟨_, congrArg Host.Outcome.next (scrubBlock_good h), ?_, rfl, rfl⟩
    exact (modChk_only (arbEnd_only (.refl [.chk, .arb] s) (by decide)) (by decide)).only
  case quiet => exact congrArg Host.Outcome.next ((scrubOverdue_eq s).trans (if_neg h))
  case overdue =>
    refine ⟨_, congrArg Host.Outcome.next ((scrubOverdue_eq s).trans (if_pos h)), raise_chk _, ?_⟩
    exact Latched.stays (latched_raise (by decide) _ _) (.of_evt (modChk_evt s)) (.refl _)
  case none =>
    refine congrArg Host.Outcome.next ?_
    unfold hardScrub
    split <;> rfl
  case off => exact congrArg Host.Outcome.next (if_pos (by rw [h]; rfl))
  case refresh => exact ⟨by simp only [exec, execCalibrationStoreRefresh, storeRefresh, h], by simp only [exec, execCalibrationStoreRefresh, storeRefresh, h]⟩
  case hostFailed =>
    refine ⟨_, congrArg Host.Outcome.next (chkDone_hostFailed h hspace), ?_, ?_⟩
    · exact (modCh_ch _ _ _).trans (congrArg (fun c : Chk => c.ch[k].stopped (min dn j.len)) (raise_chk s))
    · exact Latched.stays (latched_raise (by decide) _ _) (.refl s) (.of_evt rfl)
  case complete =>
    refine ⟨_, congrArg Host.Outcome.next (chkDone_complete h hgo), ?_, fun hcmp hv => ?_⟩
    · rw [scanReport_chk]
      exact modCh_ch _ _ _
    · have hbad : (bit j.flags 4 && scanValue j bytes s != j.expect.toNat) = true := by
        rw [hcmp, Bool.true_and]; exact bne_iff_ne.mpr hv
      unfold scanReport
      rw [if_pos hbad]
      exact Latched.stays (latched_raise (by decide) _ _) (.of_evt (modChk_evt s)) (.refl _)
  case capture =>
    obtain ⟨u, id, hdone, hrest⟩ := capDone_run (samples := samples) h
    exact ⟨u, id, congrArg Host.Outcome.next hdone, hrest⟩
  case scan =>
    obtain ⟨u, id, hdone, hrest⟩ := scanDone_run (bins := bins) h
    exact ⟨u, id, congrArg Host.Outcome.next hdone, hrest⟩

end Sys2Proof.Machine
end

section
/-! SUPPORT. Monitor converters: what an operation of a converter leaves of that converter and of the other, and the events of chapter 11. -/

namespace Sys2Proof.Machine

open Sys2Proof

/-! ### One converter at a time -/

/-- From s to t monitor converter k becomes m and the other one does not change. -/
structure MonStep (k : Fin 2) (s t : State) (m : Mon) : Prop where
  mon : t.mon[k] = m
  others : OtherMons k s t

/-- What of a converter no output changes. -/
structure Mon.Kept (m n : Mon) : Prop where
  cfg : n.cfg = m.cfg
  busy : n.busy = m.busy
  next : n.next = m.next
  settleTo : n.settleTo = m.settleTo
  passAt : n.passAt = m.passAt
  overrun : n.overrun = m.overrun
  roundDue : n.roundDue = m.roundDue
  inTest : n.inTest = m.inTest
  drop : n.drop = m.drop

theorem Mon.Kept.refl (m : Mon) : m.Kept m := ⟨rfl, rfl, rfl, rfl, rfl, rfl, rfl, rfl, rfl⟩

theorem Mon.Kept.trans {m n o : Mon} (h : m.Kept n) (k : n.Kept o) : m.Kept o :=
  ⟨k.cfg.trans h.cfg, k.busy.trans h.busy, k.next.trans h.next, k.settleTo.trans h.settleTo, k.passAt.trans h.passAt,
    k.overrun.trans h.overrun, k.roundDue.trans h.roundDue, k.inTest.trans h.inTest, k.drop.trans h.drop⟩

/-- The circular buffer with an entry more (R360). -/
def Mon.put (x : Sample) (m : Mon) : Mon :=
  { m with buf := (if m.buf.length = 1024 then m.buf.drop 1 else m.buf) ++ [x]
           drainN := if m.buf.length = 1024 then m.drainN - 1 else m.drainN
           wptr := (m.wptr + 1) % 1024, lapped := m.lapped || m.wptr == 1023
           wraps := if m.lapped && m.wptr == 0 then satU 8 (m.wraps + 1) else m.wraps }

theorem Mon.Kept.put {m n : Mon} (h : m.Kept n) (x : Sample) : m.Kept (n.put x) :=
  h.trans ⟨rfl, rfl, rfl, rfl, rfl, rfl, rfl, rfl, rfl⟩

section
variable {k : Fin 2} {s t u : State} {m n : Mon}

theorem MonStep.refl (k : Fin 2) (s : State) : MonStep k s s s.mon[k] := ⟨rfl, fun _ _ => rfl⟩

theorem MonStep.of_mon (h : MonStep k s t m) (e : u.mon = t.mon) : MonStep k s u m :=
  ⟨by rw [e]; exact h.mon, fun j hj => by rw [e]; exact h.others j hj⟩

theorem MonStep.of_only {ps : List Part} (h : MonStep k s t m) (o : Only ps t u) (hp : Part.mon ∉ ps) : MonStep k s u m :=
  h.of_mon (o.only .mon hp)

theorem MonStep.mod (h : MonStep k s t m) (f : Mon → Mon) : MonStep k s (modMon k f t) (f m) :=
  ⟨(upd_get_self _ _ _).trans (congrArg f h.mon), fun j hj => (upd_get_ne _ _ hj).trans (h.others j hj)⟩

theorem MonStep.congr (h : MonStep k s t m) (e : m = n) : MonStep k s t n := e ▸ h

theorem MonStep.raise (h : MonStep k s t m) (src : Nat) (p : Word) : MonStep k s (raise src p t) m := h.of_mon (raise_mon t)

theorem MonStep.raiseLimited (h : MonStep k s t m) (src inst : Nat) (p : Word) : MonStep k s (raiseLimited src inst p t) m :=
  h.of_only (raiseLimited_only (.refl [.evt, .own, .counters] t) (by decide) (by decide) (by decide)) (by decide)

theorem MonStep.modTherm (h : MonStep k s t m) (f : Therm → Therm) : MonStep k s (modTherm f t) m := h.of_mon rfl

theorem MonStep.ite {a b : State} {P : Mon → Prop} {c : Prop} [Decidable c] (ha : ∃ n, MonStep k s a n ∧ P n)
    (hb : ∃ n, MonStep k s b n ∧ P n) : ∃ n, MonStep k s (if c then a else b) n ∧ P n := by
  split
  · exact ha
  · exact hb

theorem MonStep.either {a b : State} {c : Prop} [Decidable c] (ha : MonStep k s a m) (hb : MonStep k s b m) :
    MonStep k s (if c then a else b) m := by
  split
  · exact ha
  · exact hb

theorem MonStep.put (h : MonStep k s t m) (x : Sample) : MonStep k s (bufPut k x t) (m.put x) := by
  obtain rfl := h.mon
  exact MonStep.either (MonStep.raiseLimited (h.mod _) _ _ _) (h.mod _)

theorem MonStep.puts (l : List Sample) : ∀ {t : State} {m : Mon}, MonStep k s t m →
    MonStep k s (l.foldl (fun s x => bufPut k x s) t) (l.foldl (fun m x => m.put x) m) := by
  induction l with
  | nil => exact fun h => h
  | cons x l ih => exact fun h => ih (h.put x)

theorem MonStep.record (h : MonStep k s t m) (l : List Sample) : MonStep k s (monRecord k l t) m :=
  h.of_only (monRecord_only (.refl [.rings, .evt, .tlm, .own, .counters] t) (by decide) (by decide) (by decide) (by decide) (by decide))
    (by decide)

theorem MonStep.compare (h : MonStep k s t m) (ch : Fin 64) (v : BitVec 24) : MonStep k s (thrCompare ch v t) m :=
  h.of_only (thrCompare_only (.refl [.evt, .own, .counters, .thr] t) (by decide) (by decide) (by decide) (by decide)) (by decide)

end

theorem Mon.puts_kept (l : List Sample) : ∀ m : Mon, m.Kept (l.foldl (fun m x => m.put x) m) := by
  induction l with
  | nil => exact .refl
  | cons x l ih => exact fun m => ((Mon.Kept.refl m).put x).trans (ih (m.put x))

theorem Mon.puts_seq (l : List Sample) : ∀ m : Mon, (l.foldl (fun m x => m.put x) m).seq = m.seq := by
  induction l with
  | nil => exact fun _ => rfl
  | cons x l ih => exact fun m => ih (m.put x)

theorem Mon.puts_gather (l : List Sample) : ∀ m : Mon, (l.foldl (fun m x => m.put x) m).gather = m.gather := by
  induction l with
  | nil => exact fun _ => rfl
  | cons x l ih => exact fun m => ih (m.put x)

/-- A delivered output counts one on, and the converter keeps its place. -/
theorem MonStep.deliver {k : Fin 2} {s t : State} {m : Mon} (h : MonStep k s t m) (ch : Nat) (v : Int) (settling ovr urgent scan : Bool)
    (i : CTime) : ∃ n, MonStep k s (deliver k ch v settling ovr urgent scan i t) n ∧ m.Kept n ∧ n.seq = m.seq + 1 := by
  obtain rfl := h.mon
  have hstart := h.mod fun m => { m with seq := m.seq + 1, gap := false, ovr := ovr }
  have hkept : t.mon[k].Kept { t.mon[k] with seq := t.mon[k].seq + 1, gap := false, ovr := ovr } :=
    ⟨rfl, rfl, rfl, rfl, rfl, rfl, rfl, rfl, rfl⟩
  have hgather : ∀ {u : State} {n : Mon} (g : List Sample), MonStep k s u n → t.mon[k].Kept n → n.seq = t.mon[k].seq + 1 →
      MonStep k s (modMon k (fun m => { m with gather := g }) u) { n with gather := g } ∧
      t.mon[k].Kept { n with gather := g } ∧ ({ n with gather := g } : Mon).seq = t.mon[k].seq + 1 := fun g hu hk hs =>
    ⟨hu.mod _, hk.trans ⟨rfl, rfl, rfl, rfl, rfl, rfl, rfl, rfl, rfl⟩, hs⟩
  unfold Machine.deliver
  dsimp only
  generalize hr : (if (ovr && !settling) = true then _ else _) = r
  have hrep : MonStep k s r { t.mon[k] with seq := t.mon[k].seq + 1, gap := false, ovr := ovr } := by
    rw [← hr]
    exact .either (hstart.raiseLimited _ _ _) hstart
  generalize hc : (if settling = true then r else _) = c
  have hcmp : MonStep k s c { t.mon[k] with seq := t.mon[k].seq + 1, gap := false, ovr := ovr } := by
    rw [← hc]
    exact .either hrep (hrep.compare _ _)
  refine MonStep.ite (MonStep.ite ?record ?gather) ?buffer
  case record =>
    obtain ⟨hg, hk, hs⟩ := hgather [] hcmp hkept rfl
    exact ⟨_, hg.record _, hk, hs⟩
  case gather => exact ⟨_, hgather _ hcmp hkept rfl⟩
  case buffer =>
    generalize hb : (if monRing c = true then c else _) = b
    have hbuf : ∃ n, MonStep k s b n ∧ t.mon[k].Kept n ∧ n.seq = t.mon[k].seq + 1 := by
      rw [← hb]
      refine MonStep.ite ⟨_, hcmp, hkept, rfl⟩ ?_
      obtain ⟨hg, hk, hs⟩ := hgather [] hcmp hkept rfl
      exact ⟨_, hg.puts _, hk.trans (Mon.puts_kept _ _), (Mon.puts_seq _ _).trans hs⟩
    obtain ⟨n, hn, hk, hs⟩ := hbuf
    exact ⟨_, hn.put _, hk.put _, hs⟩

/-! ### What follows an output -/

theorem roundBegin_step {s t : State} {m : Mon} (h : MonStep 1 s t m) :
    MonStep 1 s (roundBegin t) { m with stop := m.stop <|> some (refNow t, now t), busy := .round } :=
  ((h.modTherm _).mod _).mod _

/-- What a converter does next. -/
def Mon.nextBusy (k : Fin 2) (m : Mon) : MonBusy :=
  if k = 1 ∧ m.roundDue = true then .round
  else if m.inTest = true then .idle
  else if m.cfg.mode = 2 ∧ m.passAt < m.cfg.list.length then .scan m.passAt else .idle

theorem nextBusy_scan {k : Fin 2} {m : Mon} (hround : m.roundDue = false) (htest : m.inTest = false) (hmode : m.cfg.mode = 2)
    (hlist : m.passAt < m.cfg.list.length) : m.nextBusy k = .scan m.passAt := by
  simp [Mon.nextBusy, hround, htest, hmode, hlist]

theorem MonStep.monNext {k : Fin 2} {s t : State} {m : Mon} (h : MonStep k s t m) : ∃ n, MonStep k s (monNext k t) n ∧
    n.busy = m.nextBusy k ∧ n.seq = m.seq ∧ n.overrun = m.overrun ∧
    (n.busy = .scan m.passAt → n.passAt = m.passAt + 1) := by
  obtain rfl := h.mon
  unfold Machine.monNext Mon.nextBusy
  dsimp only
  split
  · next hr =>
    obtain ⟨rfl, -⟩ := hr
    exact ⟨_, roundBegin_step (h.mod _), rfl, rfl, rfl, fun hb => by cases hb⟩
  split
  · exact ⟨_, h.mod _, rfl, rfl, rfl, fun hb => by cases hb⟩
  split
  · exact ⟨_, h.mod _, rfl, rfl, rfl, fun _ => rfl⟩
  · exact ⟨_, h.mod _, rfl, rfl, rfl, fun hb => by cases hb⟩

/-! ### The circular buffer -/

/-- The last entries put into the buffer stand at its end. -/
theorem Mon.puts_buf (l : List Sample) : ∀ (g : List Sample) (m : Mon), (∃ b, m.buf = b ++ g) → g.length + l.length ≤ 1024 →
    ∃ b, (l.foldl (fun m x => m.put x) m).buf = b ++ (g ++ l) := by
  induction l with
  | nil => exact fun g m hm _ => by simpa using hm
  | cons x l ih =>
    intro g m ⟨b, hb⟩ hlen
    rw [List.length_cons] at hlen
    have hput : ∃ b, (m.put x).buf = b ++ (g ++ [x]) := by
      unfold Mon.put
      dsimp only
      split
      · next hfull =>
        cases b with
        | nil =>
          rw [hb, List.nil_append] at hfull
          omega
        | cons y b => exact ⟨b, by rw [hb]; simp⟩
      · exact ⟨b, by rw [hb]; simp⟩
    obtain ⟨c, hc⟩ := ih (g ++ [x]) (m.put x) hput (by simp; omega)
    exact ⟨c, by rw [List.foldl_cons, hc]; simp⟩

theorem Mon.puts_last {l : List Sample} {m : Mon} (h : l.length ≤ 1024) :
    (l.foldl (fun m x => m.put x) m).buf.reverse.take l.length = l.reverse := by
  obtain ⟨b, hb⟩ := Mon.puts_buf l [] m ⟨m.buf, by simp⟩ (by simpa using h)
  rw [hb, List.nil_append, List.reverse_append, ← List.length_reverse (as := l), List.take_left']
  rfl

/-! ### The events of the converters -/

theorem monOutput_event (k : Fin 2) (v : Int) (ovr : Bool) (s : State) (hmode : s.mon[k].cfg.mode = 1) (hbusy : s.mon[k].busy = .idle)
    (htest : s.mon[k].inTest = false) (hon : domOn s 4 = true) : ∃ t, exec (.monitorOutput k v ovr) s = .next t ∧
      t.mon[k].next = (monNextIndex s.mon[k]).1 + 1 ∧ t.mon[k].settleTo = s.mon[k].settleTo ∧ OtherMons k s t ∧
      (monSettling s.mon[k] (gridRef s s.mon[k] (monNextIndex s.mon[k]).1) = true ∨ s.mon[k].cfg.avg = 0 →
        t.mon[k].seq = s.mon[k].seq + 1) := by
  have hstep : ∃ n, MonStep k s (monOutput k v ovr s) n ∧ n.next = (monNextIndex s.mon[k]).1 + 1 ∧ n.settleTo = s.mon[k].settleTo ∧
      (monSettling s.mon[k] (gridRef s s.mon[k] (monNextIndex s.mon[k]).1) = true ∨ s.mon[k].cfg.avg = 0 →
        n.seq = s.mon[k].seq + 1) := by
    unfold monOutput
    dsimp only
    rw [if_neg (by rw [hmode, hbusy, htest, hon]; decide)]
    have hnext := (MonStep.refl k s).mod fun m => { m with
      next := (monNextIndex s.mon[k]).1 + 1, gap := m.gap || decide (0 < (monNextIndex s.mon[k]).2)
      skips := m.skips.filter fun e => decide ((monNextIndex s.mon[k]).1 < e.2) }
    split
    · obtain ⟨n, hn, hkept, hseq⟩ := (hnext.mod fun m => { m with blockVoid := true }).deliver s.mon[k].cfg.chan v
        (monSettling s.mon[k] (gridRef s s.mon[k] (monNextIndex s.mon[k]).1)) ovr false false (gridTime s s.mon[k] (monNextIndex s.mon[k]).1)
      exact ⟨n, hn, hkept.next, hkept.settleTo, fun _ => hseq⟩
    · next havg =>
      generalize hb : (if ovr = true then _ else _) = b
      have hblock : ∃ n, MonStep k s b n ∧ n.next = (monNextIndex s.mon[k]).1 + 1 ∧ n.settleTo = s.mon[k].settleTo := by
        rw [← hb]
        exact MonStep.ite ⟨_, (hnext.mod _).raiseLimited _ _ _, rfl, rfl⟩ ⟨_, hnext.mod _, rfl, rfl⟩
      obtain ⟨n, hn, hnx, hst⟩ := hblock
      refine MonStep.ite ?_ ⟨n, hn, hnx, hst, fun h => absurd h havg⟩
      obtain ⟨o, ho, hkept, -⟩ := hn.deliver _ _ _ _ _ _ _
      exact ⟨o, ho, hkept.next.trans hnx, hkept.settleTo.trans hst, fun h => absurd h havg⟩
  obtain ⟨n, hn, hnext, hsettle, hseq⟩ := hstep
  obtain rfl := hn.mon
  exact ⟨_, rfl, hnext, hsettle, hn.others, hseq⟩

theorem recTimeExpiry_event (k : Fin 2) (s : State) : ∃ t, exec (.recTimeExpiry k) s = .next t ∧ t.mon[k].gather = [] ∧
    OtherMons k s t ∧ (monRing s = false → s.mon[k].gather.length ≤ 1024 →
      t.mon[k].buf.reverse.take s.mon[k].gather.length = s.mon[k].gather.reverse) := by
  have hclear := (MonStep.refl k s).mod fun m => { m with gather := [] }
  have hring : monRing (modMon k (fun m => { m with gather := [] }) s) = monRing s := rfl
  refine ⟨monFlush k s, rfl, ?_⟩
  unfold monFlush
  dsimp only
  rw [hring]
  cases hr : monRing s with
  | true =>
    have h := hclear.record s.mon[k].gather
    exact ⟨congrArg Mon.gather h.mon, h.others, fun hf => by cases hf⟩
  | false =>
    have h := hclear.puts s.mon[k].gather
    refine ⟨(congrArg Mon.gather h.mon).trans (Mon.puts_gather _ _), h.others, fun _ hlen => ?_⟩
    exact (congrArg (fun m : Mon => m.buf.reverse.take s.mon[k].gather.length) h.mon).trans (Mon.puts_last hlen)

theorem scanPassStart_event (k : Fin 2) (s : State) (hmode : s.mon[k].cfg.mode = 2) (htest : s.mon[k].inTest = false)
    (hon : domOn s 4 = true) (hbusy : s.mon[k].busy = .idle) (hround : s.mon[k].roundDue = false) (hlist : 0 < s.mon[k].cfg.list.length) :
    ∃ t, exec (.scanPassStart k) s = .next t ∧ t.mon[k].busy = .scan 0 ∧ t.mon[k].passAt = 1 ∧ OtherMons k s t ∧
      t.mon[k].overrun = satU 8 (s.mon[k].overrun + (s.mon[k].cfg.list.length - s.mon[k].passAt)) := by
  have hpass : ∃ n, MonStep k s (monPass k s) n ∧ n.busy = .scan 0 ∧ n.passAt = 1 ∧
      n.overrun = satU 8 (s.mon[k].overrun + (s.mon[k].cfg.list.length - s.mon[k].passAt)) := by
    unfold monPass
    dsimp only
    rw [if_neg (by rw [hmode, htest, hon]; decide), if_pos hbusy]
    have hstart := (MonStep.refl k s).mod fun m => { m with
      passAt := 0, overrun := satU 8 (m.overrun + (s.mon[k].cfg.list.length - s.mon[k].passAt)) }
    generalize hr : (if 0 < s.mon[k].cfg.list.length - s.mon[k].passAt then _ else _) = r
    have hrep : MonStep k s r { s.mon[k] with
        passAt := 0, overrun := satU 8 (s.mon[k].overrun + (s.mon[k].cfg.list.length - s.mon[k].passAt)) } := by
      rw [← hr]
      exact .either (hstart.raiseLimited _ _ _) hstart
    obtain ⟨n, hn, hb, -, hover, hat⟩ := hrep.monNext
    have hscan : n.busy = .scan 0 := hb.trans (nextBusy_scan hround htest hmode hlist)
    exact ⟨n, hn, hscan, hat hscan, hover⟩
  obtain ⟨n, hn, hb, hat, hover⟩ := hpass
  obtain rfl := hn.mon
  exact ⟨_, rfl, hb, hat, hn.others, hover⟩

theorem scanConversionDone_event (k : Fin 2) (v : Int) (ovr : Bool) (s : State) (i : Nat) (hbusy : s.mon[k].busy = .scan i)
    (htest : s.mon[k].inTest = false) : ∃ t, exec (.scanConversionDone k v ovr) s = .next t ∧ t.mon[k].seq = s.mon[k].seq + 1 ∧
      OtherMons k s t ∧ (k = 1 → s.mon[k].roundDue = true → t.mon[k].busy = .round) ∧
      (k = 0 ∨ s.mon[k].roundDue = false → t.mon[k].busy =
        if s.mon[k].cfg.mode = 2 ∧ s.mon[k].passAt < s.mon[k].cfg.list.length then .scan s.mon[k].passAt else .idle) := by
  have hdone : ∃ n, MonStep k s (monScanDone k v ovr s) n ∧ n.seq = s.mon[k].seq + 1 ∧ n.busy = s.mon[k].nextBusy k := by
    unfold monScanDone
    dsimp only
    rw [hbusy]
    dsimp only
    generalize (if isDiode _ = true then _ else _) = i
    obtain ⟨m, hm, hkept, hseq⟩ := (MonStep.refl k s).deliver (s.mon[k].cfg.list.getD ‹Nat› 0) v false ovr false true i
    obtain ⟨n, hn, hb, hs, -, -⟩ := hm.monNext
    refine ⟨n, hn, hs.trans hseq, hb.trans ?_⟩
    unfold Mon.nextBusy
    rw [hkept.roundDue, hkept.inTest, hkept.cfg, hkept.passAt]
  obtain ⟨n, hn, hseq, hb⟩ := hdone
  obtain rfl := hn.mon
  refine ⟨_, rfl, hseq, hn.others, fun hk hr => hb.trans (if_pos ⟨hk, hr⟩), fun h => hb.trans ?_⟩
  unfold Mon.nextBusy
  rw [if_neg, if_neg (by rw [htest]; decide)]
  rintro ⟨rfl, hr⟩
  rcases h with h | h
  · cases h
  · rw [hr] at h
    cases h

end Sys2Proof.Machine
end

section
/-! SUPPORT. Comparators: the levels that cross on one reference tick (R354 to R356). -/

namespace Sys2Proof.Machine

open Sys2Proof

/-! ### Of a run over all indices only those that act count -/

theorem foldl_filter_acting {n : Nat} (f : Fin n → State → State) (p : Fin n → Bool) (h : ∀ i s, p i = false → f i s = s)
    (l : List (Fin n)) : ∀ s, l.foldl (fun s i => f i s) s = (l.filter p).foldl (fun s i => f i s) s := by
  induction l with
  | nil => exact fun _ => rfl
  | cons i l ih =>
    intro s
    cases hi : p i with
    | true => rw [List.filter_cons_of_pos hi, List.foldl_cons, List.foldl_cons, ih]
    | false => rw [List.filter_cons_of_neg (by rw [hi]; decide), List.foldl_cons, h i s hi, ih]

theorem forFin_one {n : Nat} {f : Fin n → State → State} {i : Fin n} (h : ∀ j s, j ≠ i → f j s = s) (s : State) :
    forFin n f s = f i s := by
  have hl : (List.finRange n).filter (fun x => x == i) = [i] :=
    ((List.sortedLT_finRange n).pairwise.filter _).sortedLT.eq_of_mem_iff (List.pairwise_singleton _ _).sortedLT (by simp)
  unfold forFin
  rw [foldl_filter_acting f (fun x => x == i) (fun j s hj => h j s (by simpa using hj)), hl]
  rfl

theorem forFin_two {n : Nat} {f : Fin n → State → State} {i j : Fin n} (hij : i < j) (h : ∀ m s, m ≠ i → m ≠ j → f m s = s) (s : State) :
    forFin n f s = f j (f i s) := by
  have hl : (List.finRange n).filter (fun x => x == i || x == j) = [i, j] :=
    ((List.sortedLT_finRange n).pairwise.filter _).sortedLT.eq_of_mem_iff (List.pairwise_pair.2 hij).sortedLT (by simp)
  unfold forFin
  rw [foldl_filter_acting f (fun x => x == i || x == j) (fun m s hm => h m s (by simp_all) (by simp_all)), hl]
  rfl

theorem compLevels_one (i : Fin 32) (level : Bool) (s : State) : compLevels [(i, level)] s = compLevel i level s := by
  have h := forFin_one (f := fun m s => match [(i, level)].find? fun x => x.1 == m with
    | some x => compLevel m x.2 s
    | none => s) (i := i) (fun j s hj => by simp [hj.symm]) s
  exact h.trans (by simp)

theorem compLevels_two {i j : Fin 32} (hij : i < j) (a b : Bool) (s : State) :
    compLevels [(j, b), (i, a)] s = compLevel j b (compLevel i a s) := by
  have hne : (j == i) = false := by simpa using (Fin.ne_of_lt hij).symm
  have h := forFin_two (f := fun m s => match [(j, b), (i, a)].find? fun x => x.1 == m with
    | some x => compLevel m x.2 s
    | none => s) hij (fun m s hi hj => by simp [hi.symm, hj.symm]) s
  exact h.trans (by simp [hne])

/-! ### Signal detection that follows a comparator -/

theorem lightCheck_step (n : Fin 8) (s : State) : ∃ l, LineStep n s (lightCheck n s) l := by
  by_cases h : lightSeen s n = true
  · rw [lightCheck_seen h]
    split
    · split
      · obtain ⟨q, hq⟩ := outageFromOff_step n s
        exact ⟨_, hq.trans (enterGain_step n false _)⟩
      · exact ⟨_, .refl n s⟩
    · split
      · obtain ⟨x, v, hx⟩ := leaveDark_step n s
        exact ⟨_, hx⟩
      · exact ⟨_, .refl n s⟩
    · exact ⟨_, .refl n s⟩
  · rw [lightCheck_unseen (by simpa using h)]
    exact ⟨_, .refl n s⟩

theorem losCheck_step (n : Fin 8) (s : State) : ∃ l, LineStep n s (losCheck n s) l := by
  unfold losCheck
  split
  · exact lightCheck_step n s
  split
  · obtain ⟨q, hq, -⟩ := darkFront_loud n s
    exact ⟨_, enterDark_step hq⟩
  · exact ⟨_, .refl n s⟩

/-- What a comparator's line lane does with the level. -/
theorem lossAfter_kept (i : Fin 32) (s : State) : Only laneParts s (if h : i.val < 8 then losCheck ⟨i.val, h⟩ s else s) ∧
    LatchesStay s (if h : i.val < 8 then losCheck ⟨i.val, h⟩ s else s) := by
  split
  · next h =>
    obtain ⟨l, hl⟩ := losCheck_step ⟨i.val, h⟩ s
    exact ⟨hl.only, hl.latches⟩
  · exact ⟨.refl _ s, .refl s⟩

/-! ### One comparator -/

/-- A comparator's level, and nothing else of the comparators. -/
theorem compCross_comp (i : Fin 32) (level : Bool) (s : State) :
    (compCross i level s).comp = upd s.comp i fun c => { c with level := level } := by
  unfold compCross
  dsimp only
  split
  · rfl
  · rw [raise_comp]
    split
    · rfl
    · split <;> rfl

theorem compLevel_comp (i : Fin 32) (level : Bool) (s : State) : (compLevel i level s).comp[i].level = level ∧
    ∀ j : Fin 32, j ≠ i → (compLevel i level s).comp[j] = s.comp[j] := by
  unfold compLevel
  split
  · next h => exact ⟨h.symm, fun _ _ => rfl⟩
  · have hc : (if h : i.val < 8 then losCheck ⟨i.val, h⟩ (compCross i level s) else compCross i level s).comp =
        upd s.comp i fun c => { c with level := level } :=
      ((lossAfter_kept i _).1.only .comp (by decide)).trans (compCross_comp i level s)
    exact ⟨(congrArg (fun v : Vector Comp 32 => v[i].level) hc).trans (congrArg Comp.level (upd_get_self _ _ _)),
      fun j hj => (congrArg (fun v : Vector Comp 32 => v[j]) hc).trans (upd_get_ne _ _ hj)⟩

/-- A crossing in the comparator's direction: the state with its level. -/
structure Crossing (i : Fin 32) (level : Bool) (s : State) : Prop where
  new : level ≠ s.comp[i].level
  dir : level = s.comp[i].dir
  en : s.comp[i].en = true
  powered : domOn s 4 = true

section
variable {i : Fin 32} {level : Bool} {s : State}

theorem compCross_crossing (h : Crossing i level s) : compCross i level s =
    (let k := Fin.ofNat 2 s.comp[i].assign
    let go := s.comp[i].urgEn && !monConverting s.mon[k]
    let t : State := { s with comp := upd s.comp i fun c => { c with level := level } }
    raise 0x1E8 (pay3 i.val k.val (b2n go))
      (if go then modMon k (fun m => { m with busy := .burst i.val s.comp[i].urgN s.comp[i].urgR }) t
       else if s.comp[i].urgEn then modMon k (fun m => { m with drop := satU 16 (m.drop + 1) }) t else t)) := by
  refine if_neg ?_
  rintro (e | e | e | e)
  · exact h.new e
  · exact e h.dir
  · rw [h.en] at e
    cases e
  · have hon : domOn { s with comp := upd s.comp i fun c => { c with level := level } } 4 = true := h.powered
    rw [hon] at e
    cases e

theorem compCross_latched (h : Crossing i level s) : Latched 0x1E8 s (compCross i level s) := by
  rw [compCross_crossing h]
  refine Latched.stays (latched_raise (by decide) _ _) ?_ (.refl _)
  split
  · exact .of_evt rfl
  · split
    · exact .of_evt rfl
    · exact .of_evt rfl

/-- An idle converter begins the burst. -/
theorem compCross_begun {k : Fin 2} (h : Crossing i level s) (hu : s.comp[i].urgEn = true) (hk : Fin.ofNat 2 s.comp[i].assign = k)
    (hfree : monConverting s.mon[k] = false) :
    (compCross i level s).mon[k] = { s.mon[k] with busy := .burst i.val s.comp[i].urgN s.comp[i].urgR } := by
  subst hk
  rw [compCross_crossing h]
  dsimp only
  rw [raise_mon, if_pos (by rw [hu, hfree]; rfl)]
  exact upd_get_self _ _ _

/-- A converting one drops it. -/
theorem compCross_dropped {k : Fin 2} (h : Crossing i level s) (hu : s.comp[i].urgEn = true) (hk : Fin.ofNat 2 s.comp[i].assign = k)
    (hbusy : monConverting s.mon[k] = true) :
    (compCross i level s).mon[k] = { s.mon[k] with drop := satU 16 (s.mon[k].drop + 1) } := by
  subst hk
  rw [compCross_crossing h]
  dsimp only
  rw [raise_mon, if_neg (by rw [hu, hbusy]; decide), if_pos hu]
  exact upd_get_self _ _ _

theorem compLevel_new (h : level ≠ s.comp[i].level) : compLevel i level s =
    if h : i.val < 8 then losCheck ⟨i.val, h⟩ (compCross i level s) else compCross i level s := if_neg h

theorem compLevel_mon (h : Crossing i level s) : (compLevel i level s).mon = (compCross i level s).mon := by
  rw [compLevel_new h.new]
  exact (lossAfter_kept i _).1.only .mon (by decide)

theorem compLevel_latched (h : Crossing i level s) : Latched 0x1E8 s (compLevel i level s) := by
  rw [compLevel_new h.new]
  exact Latched.stays (compCross_latched h) (.refl s) (lossAfter_kept i _).2

end

theorem compCross_latchesStay (i : Fin 32) (level : Bool) (s : State) : LatchesStay s (compCross i level s) := by
  unfold compCross
  dsimp only
  split
  · exact .of_evt rfl
  · refine .trans ?_ (raise_latchesStay _ _ _)
    split
    · exact .of_evt rfl
    · split
      · exact .of_evt rfl
      · exact .of_evt rfl

theorem compLevel_latchesStay (i : Fin 32) (level : Bool) (s : State) : LatchesStay s (compLevel i level s) := by
  unfold compLevel
  split
  · exact .refl s
  · exact (compCross_latchesStay i level s).trans (lossAfter_kept i _).2

/-! ### The crossings of one tick -/

theorem oneCrossing_event (i : Fin 32) (level : Bool) (s : State) : ∃ t, exec (.comparatorCrossing [(i, level)]) s = .next t ∧
    t.comp[i].level = level ∧ (∀ j : Fin 32, j ≠ i → t.comp[j] = s.comp[j]) ∧
    (level ≠ s.comp[i].level → level = s.comp[i].dir → s.comp[i].en = true → domOn s 4 = true → Latched 0x1E8 s t ∧
      (s.comp[i].urgEn = true → monConverting s.mon[Fin.ofNat 2 s.comp[i].assign] = false →
        t.mon[Fin.ofNat 2 s.comp[i].assign].busy = .burst i.val s.comp[i].urgN s.comp[i].urgR)) := by
  obtain ⟨hlevel, hothers⟩ := compLevel_comp i level s
  refine ⟨_, congrArg Host.Outcome.next (compLevels_one i level s), hlevel, hothers, fun hnew hdir hen hon => ?_⟩
  have hc : Crossing i level s := ⟨hnew, hdir, hen, hon⟩
  refine ⟨compLevel_latched hc, fun hu hfree => ?_⟩
  exact (congrArg (fun v : Vector Mon 2 => v[Fin.ofNat 2 s.comp[i].assign].busy) (compLevel_mon hc)).trans
    (congrArg Mon.busy (compCross_begun hc hu rfl hfree))

/-- Of two requests for one converter the input with the lower number is served. -/
theorem twoCrossings_event {i j : Fin 32} {a b : Bool} {s : State} (hij : i < j) (hi : Crossing i a s) (hui : s.comp[i].urgEn = true)
    (hj : Crossing j b s) (huj : s.comp[j].urgEn = true) (hassign : s.comp[j].assign = s.comp[i].assign)
    (hfree : monConverting s.mon[Fin.ofNat 2 s.comp[i].assign] = false) : ∃ t, exec (.comparatorCrossing [(j, b), (i, a)]) s = .next t ∧
      t.mon[Fin.ofNat 2 s.comp[i].assign].busy = .burst i.val s.comp[i].urgN s.comp[i].urgR ∧
      t.mon[Fin.ofNat 2 s.comp[i].assign].drop = satU 16 (s.mon[Fin.ofNat 2 s.comp[i].assign].drop + 1) ∧ Latched 0x1E8 s t := by
  have hcomp : (compLevel i a s).comp[j] = s.comp[j] := (compLevel_comp i a s).2 j (Fin.ne_of_lt hij).symm
  have hon : domOn (compLevel i a s) 4 = true := by
    have hk : Only [.out, .evt, .own, .lines, .counters, .mon, .comp, .arb, .ocp] s (compLevel i a s) :=
      compLevel_only (.refl _ s) (by decide) (by decide) (by decide) (by decide) (by decide) (by decide) (by decide) (by decide) (by decide)
    have hrst : (compLevel i a s).rst = s.rst := (hk.only .rst (by decide)).1
    unfold domOn
    rw [hrst]
    exact hj.powered
  have hthen : Crossing j b (compLevel i a s) := ⟨by rw [hcomp]; exact hj.new, by rw [hcomp]; exact hj.dir, by rw [hcomp]; exact hj.en, hon⟩
  have hbegun := (congrArg (fun v : Vector Mon 2 => v[Fin.ofNat 2 s.comp[i].assign]) (compLevel_mon hi)).trans (compCross_begun hi hui rfl hfree)
  dsimp only at hbegun
  have hk : Fin.ofNat 2 (compLevel i a s).comp[j].assign = Fin.ofNat 2 s.comp[i].assign := by rw [hcomp, hassign]
  have hdrop := compCross_dropped hthen (by rw [hcomp]; exact huj) hk (by rw [hbegun]; simp [monConverting])
  rw [hbegun] at hdrop
  have hmon := (congrArg (fun v : Vector Mon 2 => v[Fin.ofNat 2 s.comp[i].assign]) (compLevel_mon hthen)).trans hdrop
  dsimp only at hmon
  refine ⟨_, congrArg Host.Outcome.next (compLevels_two hij a b s), ?_, ?_, ?_⟩
  · rw [hmon]
  · rw [hmon]
  · exact Latched.stays (compLevel_latched hthen) (compLevel_latchesStay i a s) (.refl _)

end Sys2Proof.Machine
end

section
/-! SUPPORT. What was latched stays latched while domains are switched, lanes are muted and activities are presented. -/

namespace Sys2Proof.Machine

open Sys2Proof

/-! ### Runs -/

theorem LatchesStay.foldl {α : Type} {f : State → α → State} (h : ∀ s x, LatchesStay s (f s x)) (l : List α) :
    ∀ s, LatchesStay s (l.foldl f s) := by
  induction l with
  | nil => exact .refl
  | cons x l ih => exact fun s => (h s x).trans (ih (f s x))

theorem LatchesStay.forFin {n : Nat} {f : Fin n → State → State} (h : ∀ i s, LatchesStay s (f i s)) (s : State) :
    LatchesStay s (forFin n f s) := LatchesStay.foldl (fun s i => h i s) _ s

theorem LatchesStay.either {s a b : State} {c : Prop} [Decidable c] (ha : LatchesStay s a) (hb : LatchesStay s b) :
    LatchesStay s (if c then a else b) := by
  split
  · exact ha
  · exact hb

theorem doneO_latchesStay (c : Option Cmd) (res : Nat) (s : State) : LatchesStay s (doneO c res s) := by
  unfold doneO
  split
  · exact answer_latchesStay _ _ _ _ _ _
  · exact .refl s

theorem refuseO_latchesStay (c : Option Cmd) (st : Byte) (s : State) : LatchesStay s (refuseO c st s) := by
  unfold refuseO
  split
  · exact refuse_latchesStay _ _ _
  · exact .refl s

theorem dones_latchesStay (res : Nat) (l : List Cmd) : ∀ s, LatchesStay s (l.foldl (fun s c => done c res s) s) :=
  .foldl (fun _ _ => answer_latchesStay _ _ _ _ _ _) l

/-! ### Captures, scans, lanes -/

theorem capDrop_latchesStay (p : CapRun → Bool) (st : Byte) (s : State) : LatchesStay s (capDrop p st s) := by
  unfold capDrop
  dsimp only
  refine (LatchesStay.foldl (fun s r => ?_) _ _).after rfl
  exact .trans (.either (.refl s) (.of_only (arbEnd_only (.refl [.arb] s) (by decide)) (by decide))) (refuseO_latchesStay _ _ _)

theorem tlmDiscard_latchesStay (s : State) : LatchesStay s (tlmDiscard s) := by
  unfold tlmDiscard
  dsimp only
  exact (capDrop_latchesStay _ _ s).trans ((raise_latchesStay _ _ _).after rfl)

theorem msgAbandon_latchesStay (n : Fin 8) (s : State) : LatchesStay s (msgAbandon n s) := by
  unfold msgAbandon
  dsimp only
  exact (dones_latchesStay 3 _ _).after rfl

theorem lineTxOff_latchesStay (n : Fin 8) (s : State) : LatchesStay s (lineTxOff n s) :=
  .trans (.trans (trnDrop_step n s).latches (.of_only (txClear_only (.refl [.lines] _) (by decide)) (by decide)))
    (msgAbandon_latchesStay n _)

/-! ### Check scans -/

theorem chkPurge_latchesStay (s : State) : LatchesStay s (chkPurge s) := by
  unfold chkPurge
  exact .either (.refl s) ((LatchesStay.foldl (fun _ _ => refuse_latchesStay _ _ _) _ _).after rfl)

theorem chkNext_latchesStay (k : Fin 4) (s : State) : LatchesStay s (chkNext k s) := by
  have hgo : ∀ (j : ChkJob) (f : Chk → Chk), LatchesStay s (chkStart k j (modChk f (chkPurge s))) := fun j f =>
    (chkPurge_latchesStay s).trans (.of_evt rfl)
  unfold chkNext
  dsimp only
  split
  · exact chkPurge_latchesStay s
  · exact hgo _ _
  · exact hgo _ _
  · exact .either (hgo _ _) (hgo _ _)

theorem chkPowerOff_latchesStay (s : State) : LatchesStay s (chkPowerOff s) := by
  unfold chkPowerOff
  refine .forFin (fun k s => ?_) s
  split
  · exact .refl s
  · next j hj =>
    refine .either ?_ (.refl s)
    dsimp only
    refine .trans (t := answer j.cmd stInternal true (now s) 4 (modChk (fun x => { x with ch := upd x.ch k fun y =>
      { y with job := none, err := true, done := (draw s).1 % (j.len + 1) } }) (draw s).2)) ?_ (chkNext_latchesStay k _)
    exact (answer_latchesStay _ _ _ _ _ _).after ((draw_only (.refl [.free] s) (by decide)).only .evt (by decide))

/-! ### Domains -/

theorem ocpDrop_latchesStay (s : State) : LatchesStay s (ocpDrop s) := by
  unfold ocpDrop
  dsimp only
  refine .trans (t := List.foldl _ { s with ocp := [] } s.ocp) ((LatchesStay.foldl (fun s t => ?_) s.ocp _).after rfl)
    (LatchesStay.forFin (f := drvSettled) (fun n s => .of_only (drvSettled_only (.refl [.lines] s) (by decide)) (by decide)) _)
  split
  · exact refuse_latchesStay _ _ _
  · exact .of_only (ocpDropped_only (.refl [.lines] s) (by decide)) (by decide)

theorem domOffEffects_latchesStay (k : Nat) (s : State) : LatchesStay s (domOffEffects k s) := by
  unfold domOffEffects
  dsimp only
  refine .trans ?_ (calPrune_latchesStay _)
  refine .either ?rx (.either ?tx (.either ?host (.either ?frame (.either ?outer (.either ?memory (.either ?ocp (.refl s)))))))
  case rx =>
    refine .trans (capDrop_latchesStay (fun r => r.target == Tgt.code (.line (some (Fin.ofNat 8 (k - 12))))) stPoweredOff s) (.trans (trnDrop_step (Fin.ofNat 8 (k - 12)) _).latches ?_)
    exact .of_only (modTx_only (linePathOff_only (.refl [.lines] _) (by decide)) (by decide)) (by decide)
  case tx => exact lineTxOff_latchesStay _ s
  case host => exact (capDrop_latchesStay _ _ s).trans (.of_only (hostOff_only (.refl [.hosts] _) (by decide)) (by decide))
  case frame => exact .of_only (frmClear_only (frmClear_only (.refl [.lines] s) (by decide)) (by decide)) (by decide)
  case outer => exact .of_only (outerClear_only (.refl [.ports] s) (by decide)) (by decide)
  case memory =>
    refine .trans (t := drainStop 1 (drainStop 0 s)) ?_ ((tlmDiscard_latchesStay _).trans (chkPowerOff_latchesStay _))
    exact .of_only (drainStop_only (drainStop_only (.refl [.tlm, .mon] s) (by decide) (by decide)) (by decide) (by decide)) (by decide)
  case ocp => exact ocpDrop_latchesStay s

theorem domOff_latchesStay (k : Fin 50) (s : State) : LatchesStay s (domOff k s) := by
  unfold domOff
  exact .either (.of_evt rfl) ((domOffEffects_latchesStay k.val _).after rfl)

theorem seqRun_latchesStay (l : List Transition) : ∀ s, LatchesStay s (seqRun l s) := by
  induction l with
  | nil => exact fun s => .of_evt rfl
  | cons t l ih =>
    intro s
    unfold seqRun
    refine .either ((doneO_latchesStay _ _ s).trans (ih _)) (.either ((refuseO_latchesStay _ _ s).trans (ih _)) (.either (.of_evt rfl) ?_))
    exact (domOff_latchesStay t.dom _).after rfl

theorem seqNext_latchesStay (s : State) : LatchesStay s (seqNext s) := .either (.refl s) (seqRun_latchesStay _ s)

theorem seqPush_latchesStay (l : List Transition) (s : State) : LatchesStay s (seqPush l s) := (seqNext_latchesStay _).after rfl

/-! ### The mute overlay and the arbiter -/

theorem arbRefuse_latchesStay (cls holder : Nat) (s : State) : LatchesStay s (arbRefuse cls holder s) := by
  unfold arbRefuse
  exact (raiseLimited_latchesStay _ _ _ _).after ((countDev_only (.refl [.counters] _) (by decide)).only .evt (by decide))

theorem arbPresentOf_latchesStay (k : ArbKind) (cls : Nat) (t : Tgt) (s : State) : LatchesStay s (arbPresentOf k cls t s).1 := by
  unfold arbPresentOf
  split
  · exact arbRefuse_latchesStay _ _ s
  · exact .of_evt rfl

theorem arbOffer_latchesStay (k : ArbKind) (cls : Nat) (t : Tgt) (s : State) : LatchesStay s (arbOffer k cls t s).1 := by
  unfold arbOffer
  split
  · exact arbRefuse_latchesStay _ _ s
  · exact arbPresentOf_latchesStay k cls t s

theorem muteEnter_latchesStay (n : Fin 8) (s : State) : LatchesStay s (muteEnter n s) := by
  unfold muteEnter
  exact .either (.refl s) ((raise_latchesStay _ _ _).after rfl)

theorem muteLeave_latchesStay (n : Fin 8) (s : State) : LatchesStay s (muteLeave n s) := by
  unfold muteLeave
  exact .either (.refl s) ((raise_latchesStay _ _ _).after rfl)

theorem mutePass_latchesStay (s : State) : LatchesStay s (mutePass s) := by
  unfold mutePass
  refine .forFin (fun n s => .either ?_ (.refl s)) s
  exact .either ((arbOffer_latchesStay .mute 4 _ s).trans (muteEnter_latchesStay n _)) (arbOffer_latchesStay .mute 4 _ s)

end Sys2Proof.Machine
end

section
/-! SUPPORT. Thermal policy: what a round leaves of the temperatures, and the timers of the stages (chapter 12). -/

namespace Sys2Proof.Machine

open Sys2Proof

/-! ### Other parts leave the policy alone -/

theorem Only.therm {ps : List Part} {s t : State} (h : Only ps s t) (hp : Part.therm ∉ ps) : t.therm = s.therm := h.only .therm hp

theorem mutePass_therm (s : State) : (mutePass s).therm = s.therm :=
  (mutePass_only (.refl [.evt, .own, .lines, .counters, .arb] s) (by decide) (by decide) (by decide) (by decide) (by decide)).therm (by decide)

theorem seqPush_therm (l : List Transition) (s : State) : (seqPush l s).therm = s.therm :=
  (seqPush_only (.refl [.free, .rings, .evt, .tlm, .own, .lines, .hosts, .ports, .counters, .mon, .cal, .arb, .chk, .rst, .ocp, .captures] s)
    (by decide) (by decide) (by decide) (by decide) (by decide) (by decide) (by decide) (by decide) (by decide) (by decide) (by decide)
    (by decide) (by decide) (by decide) (by decide) (by decide)).therm (by decide)

/-! ### The count of rounds and the temperatures -/

/-- The count of rounds and every sensor's temperature stay. -/
structure TempsStay (s t : State) : Prop where
  rounds : t.therm.rounds = s.therm.rounds
  temps : ∀ i : Fin 14, t.therm.sens[i].temp = s.therm.sens[i].temp

theorem TempsStay.of_therm {s t : State} (h : t.therm = s.therm) : TempsStay s t := ⟨by rw [h], fun i => by rw [h]⟩

theorem TempsStay.refl (s : State) : TempsStay s s := .of_therm rfl

theorem TempsStay.trans {s t u : State} (h : TempsStay s t) (k : TempsStay t u) : TempsStay s u :=
  ⟨k.rounds.trans h.rounds, fun i => (k.temps i).trans (h.temps i)⟩

theorem TempsStay.raise {s t : State} (h : TempsStay s t) (src : Nat) (p : Word) : TempsStay s (raise src p t) :=
  h.trans (.of_therm (raise_therm t))

/-- A change of other fields of the policy. -/
theorem TempsStay.mod {s t : State} (h : TempsStay s t) (f : Therm → Therm) (hr : (f t.therm).rounds = t.therm.rounds)
    (hs : (f t.therm).sens = t.therm.sens) : TempsStay s (modTherm f t) :=
  h.trans ⟨hr, fun i => congrArg (fun v : Vector Sensor 14 => v[i].temp) hs⟩

theorem TempsStay.either {s a b : State} {c : Prop} [Decidable c] (ha : TempsStay s a) (hb : TempsStay s b) :
    TempsStay s (if c then a else b) := by
  split
  · exact ha
  · exact hb

theorem TempsStay.foldl {α : Type} {f : State → α → State} (h : ∀ s x, TempsStay s (f s x)) (l : List α) :
    ∀ s, TempsStay s (l.foldl f s) := by
  induction l with
  | nil => exact .refl
  | cons x l ih => exact fun s => (h s x).trans (ih (f s x))

theorem TempsStay.forFin {n : Nat} {f : Fin n → State → State} (h : ∀ i s, TempsStay s (f i s)) (s : State) :
    TempsStay s (forFin n f s) := TempsStay.foldl (fun s i => h i s) _ s

theorem modSens_tempsStay (i : Fin 14) (f : Sensor → Sensor) (hf : ∀ x, (f x).temp = x.temp) (s : State) : TempsStay s (modSens i f s) := by
  refine ⟨rfl, fun j => ?_⟩
  by_cases hj : j = i
  · subst hj
    exact (congrArg Sensor.temp (upd_get_self _ _ _)).trans (hf _)
  · exact congrArg Sensor.temp (upd_get_ne _ _ hj)

theorem sensFlag_tempsStay (i : Fin 14) (cause : Nat) (s : State) : TempsStay s (sensFlag i cause s) := by
  unfold sensFlag
  refine TempsStay.raise ?_ _ _
  refine modSens_tempsStay i _ ?_ s
  exact fun _ => rfl

theorem sensCheck_tempsStay (flags : Fin 14 → Bool) (r : Fin 14 → Int) (i : Fin 14) (s : State) : TempsStay s (sensCheck flags r i s) := by
  unfold sensCheck
  refine .either (.refl s) ?_
  dsimp only
  generalize hm : modSens i _ s = m
  have hruns : TempsStay s m := by
    rw [← hm]
    refine modSens_tempsStay i _ ?_ s
    exact fun _ => rfl
  exact hruns.trans (.either (sensFlag_tempsStay i 1 m) (.either (sensFlag_tempsStay i 2 m) (.refl m)))

theorem setStage_tempsStay (n : Nat) (s : State) : TempsStay s (setStage n s) := (TempsStay.refl s).mod _ rfl rfl

theorem enterMute_tempsStay (s : State) : TempsStay s (enterMute s) := by
  unfold enterMute
  exact ((setStage_tempsStay 3 s).trans (.of_therm (mutePass_therm _))).raise _ _

theorem shedNow_tempsStay (code : BitVec 16) (s : State) : TempsStay s (shedNow code s) := by
  unfold shedNow
  refine TempsStay.raise (.trans ?_ (.of_therm (seqPush_therm _ _))) _ _
  exact .trans ((TempsStay.refl s).mod _ rfl rfl) (setStage_tempsStay 4 _)

theorem shedStep_tempsStay (s : State) : TempsStay s (shedStep s) := by
  unfold shedStep
  split
  · exact .either ((TempsStay.refl s).mod _ rfl rfl) (shedNow_tempsStay _ s)
  · exact .either (.refl s) (((TempsStay.refl s).mod _ rfl rfl).raise _ _)

theorem shedWaited_tempsStay (s : State) : TempsStay s (shedWaited s) := by
  unfold shedWaited
  exact .foldl (fun s c => .either (.refl s) (.either ((TempsStay.refl s).mod _ rfl rfl) (shedNow_tempsStay c s))) _ s

theorem liftOver_tempsStay (s : State) : TempsStay s (liftOver s) := .either (setStage_tempsStay _ s) (.refl s)

theorem muteLeave_therm (n : Fin 8) (s : State) : (muteLeave n s).therm = s.therm :=
  (muteLeave_only (.refl [.evt, .own, .lines, .counters] s) (by decide) (by decide) (by decide) (by decide)).therm (by decide)

theorem arbOffer_therm (k : ArbKind) (cls : Nat) (t : Tgt) (s : State) : (arbOffer k cls t s).1.therm = s.therm :=
  (arbOffer_only (.refl [.evt, .own, .counters, .arb] s) (by decide) (by decide) (by decide) (by decide)).therm (by decide)

theorem liftStep_tempsStay (s : State) : TempsStay s (liftStep s) := by
  unfold liftStep
  refine .either (.refl s) ?_
  split
  · refine .trans (.trans ((TempsStay.refl s).mod _ rfl rfl) (.of_therm (seqPush_therm _ _))) (liftOver_tempsStay _)
  · split
    · exact liftOver_tempsStay s
    · next n _ =>
      have hoffer : TempsStay s (arbOffer .mute 4 (.line (some n)) s).1 := .of_therm (arbOffer_therm _ _ _ s)
      exact .either ((hoffer.trans (.of_therm (muteLeave_therm n _))).trans (liftOver_tempsStay _)) hoffer

theorem timerDue_tempsStay (k : Nat) (s : State) : TempsStay s (timerDue k s) := by
  unfold timerDue
  split
  · exact .either (enterMute_tempsStay s) (.refl s)
  · exact .either (shedStep_tempsStay s) (.refl s)
  · exact .either ((setStage_tempsStay 5 s).trans (liftStep_tempsStay _)) (.refl s)
  · exact liftStep_tempsStay s

theorem stageRound_tempsStay (o s : State) : TempsStay s (stageRound o s) := by
  have hpass : TempsStay s (mutePass s) := .of_therm (mutePass_therm s)
  unfold stageRound
  split
  · exact .either (setStage_tempsStay _ s) (.either (enterMute_tempsStay s) (.refl s))
  · exact hpass
  · exact hpass
  · refine .either (.either (enterMute_tempsStay s) ((setStage_tempsStay 4 s).trans (.of_therm (mutePass_therm _)))) (liftOver_tempsStay s)
  · refine .either ?_ (setStage_tempsStay _ s)
    dsimp only
    have hraise := TempsStay.raise ((TempsStay.refl s).mod (fun t => { t with
      stage := 2, graceEnd := s.clk + s.therm.cfg.grace * oneSecond }) rfl rfl)
    exact .either ((hraise _ _).trans (enterMute_tempsStay _)) (hraise _ _)

theorem compensate_tempsStay (s : State) : TempsStay s (compensate s) := by
  unfold compensate
  split
  · exact .refl s
  · refine .trans ((TempsStay.refl s).mod _ rfl rfl) (.foldl (fun s k => ?_) _ _)
    exact .either ((TempsStay.refl s).raise _ _) (.refl s)

/-! ### The end of a round -/

theorem calRound_therm (s : State) : (calRound s).therm = s.therm :=
  (calRound_only (.refl [.rings, .evt, .own, .lines, .hosts, .counters, .cal] s) (by decide) (by decide) (by decide) (by decide)
    (by decide) (by decide) (by decide)).therm (by decide)

/-- Firmware's part of a round takes the readings as the temperatures. -/
theorem thermalRound_temps (r : Fin 14 → Int) (s : State) : (thermalRound r s).therm.rounds = s.therm.rounds ∧
    ∀ i : Fin 14, (thermalRound r s).therm.sens[i].temp = r i := by
  unfold thermalRound
  dsimp only
  generalize hc : Machine.forFin 14 (sensCheck (fun i => s.therm.sens[i].broken) r) s = c
  have hcheck : TempsStay s c := by
    rw [← hc]
    exact .forFin (sensCheck_tempsStay _ r) s
  generalize hj : modTherm (fun t => { t with sens := Vector.ofFn fun i => sensJudge t.cfg (r i) t.sens[i] }) c = j
  have hjudge : j.therm.rounds = c.therm.rounds ∧ ∀ i : Fin 14, j.therm.sens[i].temp = r i := by
    rw [← hj]
    refine ⟨rfl, fun i => ?_⟩
    exact congrArg Sensor.temp (Vector.getElem_ofFn i.isLt)
  generalize hm : modTherm (fun t : Therm => { t with tmax := _ }) j = m
  have hmax : TempsStay j m := by
    rw [← hm]
    exact (TempsStay.refl j).mod _ rfl rfl
  generalize hw : Machine.forFin 14 _ m = w
  have hwarn : TempsStay m w := by
    rw [← hw]
    exact .forFin (fun i s => .either ((TempsStay.refl s).raise _ _) (.refl s)) m
  generalize hd : shedWaited (stageRound c w) = d
  have hstage : TempsStay w d := by
    rw [← hd]
    exact (stageRound_tempsStay c w).trans (shedWaited_tempsStay _)
  have hrest : TempsStay d (compensate (d.therm.overdue.foldl (fun s k => timerDue k s) (modTherm (fun t => { t with overdue := [] }) d))) :=
    (((TempsStay.refl d).mod _ rfl rfl).trans (.foldl (fun s k => timerDue_tempsStay k s) _ _)).trans (compensate_tempsStay _)
  have hall := ((hmax.trans hwarn).trans hstage).trans hrest
  exact ⟨(hall.rounds.trans hjudge.1).trans hcheck.rounds, fun i => (hall.temps i).trans (hjudge.2 i)⟩

theorem thermTake_rounds (t : Therm) : (thermTake t).rounds = t.rounds := rfl

theorem thermTake_temp (t : Therm) (i : Fin 14) : (thermTake t).sens[i].temp = t.sens[i].temp := by
  unfold thermTake
  dsimp only
  refine (congrArg Sensor.temp (Vector.getElem_map _ i.isLt)).trans ?_
  split
  · split
    · split <;> rfl
    · split <;> rfl
  · split
    · split <;> rfl
    · split <;> rfl

theorem roundBegin_tempsStay (s : State) : TempsStay s (roundBegin s) := ⟨rfl, fun i => thermTake_temp s.therm i⟩

theorem monNext_tempsStay (k : Fin 2) (s : State) : TempsStay s (monNext k s) := by
  unfold monNext
  refine .either ?_ (.either (.of_therm rfl) (.either (.of_therm rfl) (.of_therm rfl)))
  exact .trans (t := modMon k (fun m => { m with roundDue := false }) s) (.of_therm rfl) (roundBegin_tempsStay _)

theorem deliver_therm (k : Fin 2) (ch : Nat) (v : Int) (settling ovr urgent scan : Bool) (t : CTime) (s : State) :
    (deliver k ch v settling ovr urgent scan t s).therm = s.therm :=
  (deliver_only (.refl [.rings, .evt, .tlm, .own, .counters, .mon, .thr] s) (by decide) (by decide) (by decide) (by decide) (by decide)
    (by decide) (by decide)).therm (by decide)

theorem monRestart_therm (k : Fin 2) (s : State) : (monRestart k s).therm = s.therm :=
  (monRestart_only (.refl [.evt, .own, .counters, .mon] s) (by decide) (by decide) (by decide) (by decide)).therm (by decide)

theorem roundFinish_temps (temps taps : List Int) (s : State) : (roundFinish temps taps s).therm.rounds = (s.therm.rounds + 1) % 65536 ∧
    ∀ i : Fin 14, (roundFinish temps taps s).therm.sens[i].temp = s.therm.sens[i].temp := by
  have h : TempsStay (modTherm (fun t => { t with rounds := (t.rounds + 1) % 65536 }) s) (roundFinish temps taps s) := by
    unfold roundFinish
    refine .trans ?_ (.of_therm (monRestart_therm 1 _))
    refine .trans ?_ (monNext_tempsStay 1 _)
    exact .either (.foldl (fun s i => .of_therm (deliver_therm _ _ _ _ _ _ _ _ s)) _ _) (.refl _)
  exact ⟨h.rounds, h.temps⟩

theorem housekeepingRoundEnd_event (r : List SensorReading) (taps : List Int) (s : State) (hbusy : s.mon[(1 : Fin 2)].busy = .round) :
    ∃ t, exec (.housekeepingRoundEnd r taps) s = .next t ∧ t.therm.rounds = (s.therm.rounds + 1) % 65536 ∧
      (s.rst.mgmtRun = true → ∀ i : Fin 14, t.therm.sens[i].temp = roundReading s r i) ∧
      (s.rst.mgmtRun = false → ∀ i : Fin 14, t.therm.sens[i].temp = s.therm.sens[i].temp) := by
  refine ⟨roundEnd r taps s, rfl, ?_⟩
  unfold roundEnd
  rw [if_neg (not_not.2 hbusy)]
  dsimp only
  generalize hb : Machine.forFin 14 _ s = b
  have hbias : TempsStay s b ∧ b.rst.mgmtRun = s.rst.mgmtRun := by
    rw [← hb]
    refine ⟨.forFin (fun i s => .either (sensFlag_tempsStay i 0 s) (.refl s)) s, ?_⟩
    exact forFin_same _ (fun s : State => s.rst.mgmtRun) (fun i s => by split <;> simp [sensFlag, modSens]) s
  obtain ⟨hstay, hrun⟩ := hbias
  rw [hrun]
  cases hmgmt : s.rst.mgmtRun with
  | true =>
    rw [if_pos rfl]
    obtain ⟨hr, ht⟩ := roundFinish_temps ((List.finRange 14).map fun i => roundReading s r i) taps
      (calRound (thermalRound (fun i => roundReading s r i) b))
    obtain ⟨hround, htemps⟩ := thermalRound_temps (fun i => roundReading s r i) b
    refine ⟨?_, fun _ i => ?_, fun h => by cases h⟩
    · rw [hr, calRound_therm, hround, hstay.rounds]
    · rw [ht i, calRound_therm, htemps i]
  | false =>
    rw [if_neg (by decide)]
    obtain ⟨hr, ht⟩ := roundFinish_temps ((List.finRange 14).map fun i => roundReading s r i) taps b
    exact ⟨by rw [hr, hstay.rounds], fun h => (Bool.false_ne_true h).elim, fun _ i => (ht i).trans (hstay.temps i)⟩

/-! ### The start of a round -/

theorem housekeepingRound_event (s : State) (htest : s.mon[(1 : Fin 2)].inTest = false) (hon : domOn s 4 = true) :
    (s.mon[(1 : Fin 2)].busy = .idle → ∃ t, exec .housekeepingRound s = .next t ∧ OtherMons 1 s t ∧ OnlyChanges [.mon, .therm] s t ∧
      t.mon[(1 : Fin 2)].busy = .round ∧ t.therm.roundAt = s.clk ∧ t.therm.cfg = s.therm.pend.getD s.therm.cfg) ∧
    (∀ i, s.mon[(1 : Fin 2)].busy = .scan i → ∃ t, exec .housekeepingRound s = .next t ∧ OtherMons 1 s t ∧
      OnlyChanges [.mon, .therm] s t ∧ t.mon[(1 : Fin 2)].busy = .round ∧ t.therm.roundAt = s.clk) ∧
    (∀ i l r, s.mon[(1 : Fin 2)].busy = .burst i l r → ∃ t, exec .housekeepingRound s = .next t ∧ OtherMons 1 s t ∧
      OnlyChanges [.mon, .therm] s t ∧ t.mon[(1 : Fin 2)].busy = .burst i l r ∧ t.mon[(1 : Fin 2)].roundDue = true ∧
      t.therm.late = satU 8 (s.therm.late + 1)) := by
  have honly : OnlyChanges [.mon, .therm] s (roundStart s) :=
    (roundStart_only (.refl [.mon, .therm] s) (by decide) (by decide)).only
  have hgo : (s.mon[(1 : Fin 2)].inTest || !domOn s 4) = false := by rw [htest, hon]; rfl
  have hbegin : s.mon[(1 : Fin 2)].busy = .idle ∨ (∃ i, s.mon[(1 : Fin 2)].busy = .scan i) → roundStart s = roundBegin s := by
    intro h
    unfold roundStart
    dsimp only
    rw [hgo, if_neg (by decide)]
    rcases h with h | ⟨i, h⟩
    · rw [h]
    · rw [h]
  have hstep := roundBegin_step (MonStep.refl 1 s)
  refine ⟨fun h => ?_, fun i h => ?_, fun i l r h => ?_⟩
  · have he := hbegin (.inl h)
    exact ⟨_, congrArg Host.Outcome.next he, hstep.others, he ▸ honly, congrArg Mon.busy hstep.mon, rfl, rfl⟩
  · have he := hbegin (.inr ⟨i, h⟩)
    exact ⟨_, congrArg Host.Outcome.next he, hstep.others, he ▸ honly, congrArg Mon.busy hstep.mon, rfl⟩
  · have he : roundStart s = modTherm (fun t => { t with late := satU 8 (t.late + 1) }) (modMon 1 (fun m => { m with roundDue := true }) s) := by
      unfold roundStart
      dsimp only
      rw [hgo, if_neg (by decide), h]
    have hdue := ((MonStep.refl 1 s).mod fun m => { m with roundDue := true }).modTherm fun t => { t with late := satU 8 (t.late + 1) }
    exact ⟨_, congrArg Host.Outcome.next he, hdue.others, he ▸ honly, (congrArg Mon.busy hdue.mon).trans h, congrArg Mon.roundDue hdue.mon, rfl⟩

end Sys2Proof.Machine
end

section
/-! SUPPORT. The timers of the thermal stages and the hard-wired trip: what a trip's reset leaves of the trip (R379, R380, R424). -/

namespace Sys2Proof.Machine

open Sys2Proof

/-! ### The timers of the stages -/

theorem timerEnd_running {k : Nat} {s : State} (h : s.rst.mgmtRun = true) : timerEnd k s = timerDue k s := if_pos h

theorem timerEnd_halted {k : Nat} {s : State} (h : s.rst.mgmtRun = false) : timerEnd k s =
    { s with therm := { s.therm with overdue := if k ∈ s.therm.overdue then s.therm.overdue else s.therm.overdue ++ [k] } } := by
  unfold timerEnd
  rw [h]
  simp [modTherm]

/-- The four timers by their numbers. -/
theorem timers_exec (k : Nat) (hk : k < 4) (s : State) :
    exec ([.graceExpiry, .shedDwellExpiry, .muteHoldExpiry, .liftGapExpiry].getD k .graceExpiry) s = .next (timerEnd k s) := by
  match k, hk with
  | 0, _ => rfl
  | 1, _ => rfl
  | 2, _ => rfl
  | 3, _ => rfl

theorem enterMute_entered (s : State) : (enterMute s).therm.stage = 3 ∧ Latched 0x1E2 s (enterMute s) := by
  unfold enterMute
  dsimp only
  refine ⟨?_, ?_⟩
  · rw [raise_therm, mutePass_therm]
    rfl
  · exact Latched.stays (latched_raise (by decide) _ _) (.trans (t := setStage 3 s) (.of_evt rfl) (mutePass_latchesStay _)) (.refl _)

theorem shedNow_shed (c : BitVec 16) (s : State) : (shedNow c s).therm.stage = 4 ∧
    (shedNow c s).therm.shed = s.therm.shed ++ [(c, shedDoms s c)] ∧ Latched 0x1E3 s (shedNow c s) := by
  unfold shedNow
  dsimp only
  refine ⟨?_, ?_, ?_⟩
  · rw [raise_therm, seqPush_therm]
    rfl
  · rw [raise_therm, seqPush_therm]
    rfl
  · generalize hu : setStage 4 _ = u
    have hbefore : LatchesStay s u := by
      rw [← hu]
      exact .of_evt rfl
    exact Latched.stays (latched_raise (by decide) _ _) (hbefore.trans (seqPush_latchesStay _ u)) (.refl _)

theorem shedStep_next {s : State} {c : BitVec 16} (h : s.therm.order.find? (fun c => !(s.therm.shed.any fun e => e.1 == c) &&
    !s.therm.shedWait.contains c && !(shedDoms s c).isEmpty) = some c) :
    shedStep s = if shedTested s c then modTherm (fun t => { t with shedWait := t.shedWait ++ [c] }) s else shedNow c s := by
  unfold shedStep
  rw [h]

theorem liftOver_shed (s : State) : (liftOver s).therm.shed = s.therm.shed := by
  unfold liftOver
  split
  · rfl
  · rfl

/-- A step of stage 5 restores the entry shed last. -/
theorem liftStep_shed {s : State} (hstage : s.therm.stage = 5) (hshed : s.therm.shed ≠ []) :
    (liftStep s).therm.shed = s.therm.shed.dropLast := by
  unfold liftStep
  rw [if_neg (not_not.2 hstage), List.getLast?_eq_getLast_of_ne_nil hshed]
  dsimp only
  rw [liftOver_shed, seqPush_therm]
  rfl

theorem graceExpiry_event {s : State} (hrun : s.rst.mgmtRun = true) (hstage : s.therm.stage = 2) (hadv : holdsAdvise s = true) :
    ∃ t, exec .graceExpiry s = .next t ∧ t.therm.stage = 3 ∧ Latched 0x1E2 s t := by
  have he : timerEnd 0 s = enterMute s := (timerEnd_running hrun).trans (if_pos ⟨hstage, hadv⟩)
  exact ⟨_, congrArg Host.Outcome.next he, enterMute_entered s⟩

theorem shedDwellExpiry_event {s : State} (hrun : s.rst.mgmtRun = true) (hstage : s.therm.stage = 3 ∨ s.therm.stage = 4)
    (hhot : holdsHot s = true) : ∃ t, exec .shedDwellExpiry s = .next t ∧
      ∀ c, s.therm.order.find? (fun c => !(s.therm.shed.any fun e => e.1 == c) && !s.therm.shedWait.contains c && !(shedDoms s c).isEmpty) = some c →
        (shedTested s c = false → t.therm.stage = 4 ∧ t.therm.shed = s.therm.shed ++ [(c, shedDoms s c)] ∧ Latched 0x1E3 s t) ∧
        (shedTested s c = true → t.therm.shedWait = s.therm.shedWait ++ [c]) := by
  have he : timerEnd 1 s = shedStep s := (timerEnd_running hrun).trans (if_pos ⟨hstage, hhot⟩)
  refine ⟨_, congrArg Host.Outcome.next he, fun c hc => ?_⟩
  rw [shedStep_next hc]
  refine ⟨fun h => ?_, fun h => ?_⟩
  · rw [h]
    exact shedNow_shed c s
  · rw [h]
    rfl

theorem muteHoldExpiry_event {s : State} (hrun : s.rst.mgmtRun = true) (hstage : s.therm.stage = 3 ∨ s.therm.stage = 4)
    (hadv : holdsAdvise s = false) (hshed : s.therm.shed ≠ []) :
    ∃ t, exec .muteHoldExpiry s = .next t ∧ t.therm.shed = s.therm.shed.dropLast := by
  have he : timerEnd 2 s = liftStep (setStage 5 s) := (timerEnd_running hrun).trans (if_pos ⟨hstage, by rw [hadv]; rfl⟩)
  exact ⟨_, congrArg Host.Outcome.next he, liftStep_shed (s := setStage 5 s) rfl hshed⟩

theorem liftGapExpiry_event {s : State} (hrun : s.rst.mgmtRun = true) (hstage : s.therm.stage = 5) (hshed : s.therm.shed ≠ []) :
    ∃ t, exec .liftGapExpiry s = .next t ∧ t.therm.shed = s.therm.shed.dropLast :=
  ⟨_, congrArg Host.Outcome.next (timerEnd_running (k := 3) hrun), liftStep_shed hstage hshed⟩

/-! ### The trip through its reset -/

/-- The record of the trip stays, and so does its cause bit. -/
structure TripStays (s t : State) : Prop where
  tripped : t.therm.tripped = s.therm.tripped
  sensor : t.therm.tripSensor = s.therm.tripSensor
  count : t.therm.tripCount = s.therm.tripCount
  cause : bit s.rst.cause 8 = true → bit t.rst.cause 8 = true

theorem TripStays.of_eq {s t : State} (ht : t.therm = s.therm) (hr : t.rst.cause = s.rst.cause) : TripStays s t :=
  ⟨by rw [ht], by rw [ht], by rw [ht], by rw [hr]; exact id⟩

theorem TripStays.refl (s : State) : TripStays s s := .of_eq rfl rfl

theorem TripStays.trans {s t u : State} (h : TripStays s t) (k : TripStays t u) : TripStays s u :=
  ⟨k.tripped.trans h.tripped, k.sensor.trans h.sensor, k.count.trans h.count, fun b => k.cause (h.cause b)⟩

theorem TripStays.either {s a b : State} {c : Prop} [Decidable c] (ha : TripStays s a) (hb : TripStays s b) :
    TripStays s (if c then a else b) := by
  split
  · exact ha
  · exact hb

theorem TripStays.foldl {α : Type} {f : State → α → State} (h : ∀ s x, TripStays s (f s x)) (l : List α) :
    ∀ s, TripStays s (l.foldl f s) := by
  induction l with
  | nil => exact .refl
  | cons x l ih => exact fun s => (h s x).trans (ih (f s x))

theorem seqCancel_tripStays (reach : Nat → Bool) (level : Nat) (s : State) : TripStays s (seqCancel reach level s) := by
  unfold seqCancel
  refine .trans (t := modRst (fun r => { r with queue := r.queue.filter fun t => !reach t.dom.val }) s) (.of_eq rfl rfl)
    (.foldl (fun s t => ?_) _ _)
  unfold refuseO
  split
  · exact .of_eq (by rw [refuse_therm, raise_therm]) (by rw [refuse_rst, raise_rst])
  · exact .of_eq (raise_therm s) (by rw [raise_rst])

theorem coldClear_tripStays (sleep : Bool) (s : State) : TripStays s (coldClear sleep s) := ⟨rfl, rfl, rfl, id⟩

theorem drainStop_rst (k : Fin 2) (s : State) : (drainStop k s).rst = s.rst ∧ (drainStop k s).therm = s.therm := by
  have h : Only [.tlm, .mon] s (drainStop k s) := drainStop_only (.refl _ s) (by decide) (by decide)
  exact ⟨(h.only .rst (by decide)).1, h.therm (by decide)⟩

theorem controlClear_tripStays (link : Bool) (s : State) : TripStays s (controlClear link s) := by
  have hdrain : TripStays s (drainStop 1 (drainStop 0 s)) :=
    .of_eq ((drainStop_rst 1 _).2.trans (drainStop_rst 0 s).2) (by rw [(drainStop_rst 1 _).1, (drainStop_rst 0 s).1])
  unfold controlClear
  generalize drainStop 1 (drainStop 0 s) = d at hdrain
  refine hdrain.trans ?_
  dsimp only
  split
  · exact .of_eq rfl rfl
  · exact .of_eq rfl rfl

theorem laneReach_none {r : Reach} (hd : r.data = false) (hl : r.lanes = []) (s : State) : laneReach r s = s := by
  unfold laneReach
  rw [hd, hl]
  rfl

/-- A cold reset, or one of the control plane alone, leaves the trip. -/
theorem reachApply_tripStays {r : Reach} (h : r.level = 3 ∨ r.level < 3 ∧ r.mgmt = false ∧ r.data = false ∧ r.lanes = []) (s : State) :
    TripStays s (reachApply r false s) := by
  have hcancel := seqCancel_tripStays r.dom r.level s
  have hlate : ∀ t, TripStays t { t with late := t.late ++ [.reach r] } := fun t => .of_eq rfl rfl
  unfold reachApply
  dsimp only
  rcases h with h | ⟨hlevel, hmgmt, hdata, hlanes⟩
  · rw [h, if_neg (by decide), if_pos rfl, if_neg (by decide), ← h]
    exact .either (hcancel.trans (hlate _)) (hcancel.trans (coldClear_tripStays false _))
  · rw [if_neg (by omega), if_neg (by omega)]
    simp only [hmgmt, Bool.false_eq_true, if_false]
    generalize hc : (if r.control = true then _ else _) = c
    have hctrl : TripStays s c := by
      rw [← hc]
      exact .either (hcancel.trans (controlClear_tripStays _ _)) hcancel
    rw [laneReach_none hdata hlanes]
    exact .either (hctrl.trans (hlate c)) hctrl

theorem sleepBreak_tripStays (cause : Nat) (s : State) : TripStays s (sleepBreak cause s) := by
  unfold sleepBreak
  split
  · exact .of_eq rfl rfl
  · exact .of_eq rfl rfl

theorem causeWith_trip (c : BitVec 13) : bit (causeWith .trip c) 8 = true := by
  simp [causeWith, causeBit, bit]

theorem causeWith_keeps {src : ResetSrc} (h : causeBit src ≠ some 0) {c : BitVec 13} {i : Nat} (hb : bit c i = true) :
    bit (causeWith src c) i = true := by
  unfold causeWith
  split
  · next h0 => exact absurd h0 h
  · unfold bit at *
    rw [BitVec.getLsbD_or, hb, Bool.true_or]
  · exact hb

/-- The sources that a trip may assert: its own, and what the pins assert as it ends sleep. -/
structure TripSource (src : ResetSrc) : Prop where
  reach : (srcReach src).level = 3 ∨
    (srcReach src).level < 3 ∧ (srcReach src).mgmt = false ∧ (srcReach src).data = false ∧ (srcReach src).lanes = []
  supply : (src == .brownOut) = false
  bits : causeBit src ≠ some 0

theorem assertOne_tripStays {src : ResetSrc} (h : TripSource src) (s : State) : TripStays s (assertOne src s) ∧
    (src = .trip → bit (assertOne src s).rst.cause 8 = true) := by
  have hlevel : (srcReach src).level ≠ 4 := by
    rcases h.reach with h | h
    · omega
    · omega
  unfold assertOne
  dsimp only
  generalize hb : (if 3 ≤ (srcReach src).level then sleepBreak 3 s else s) = b
  have hbreak : TripStays s b := by
    rw [← hb]
    exact .either (sleepBreak_tripStays 3 s) (.refl s)
  generalize hc : modRst (fun x => { x with cause := causeWith src x.cause }) b = c
  have hcause : TripStays s c := by
    rw [← hc]
    exact hbreak.trans ⟨rfl, rfl, rfl, causeWith_keeps h.bits⟩
  have hrest : ∀ {t}, TripStays c t → TripStays s t ∧ (src = .trip → bit t.rst.cause 8 = true) := by
    intro t ht
    refine ⟨hcause.trans ht, ?_⟩
    rintro rfl
    refine ht.cause ?_
    rw [← hc]
    exact causeWith_trip _
  refine hrest ?_
  refine .either (.refl c) (.either (.refl c) ?_)
  rw [h.supply]
  generalize (_ || !_) = widened
  generalize he : modRst (fun x => { x with episodes := _, exits := _, count := _, level := _, first := _ }) c = e
  have hepisode : TripStays c e := by
    rw [← he]
    exact .of_eq rfl rfl
  generalize hw : (if widened = true then reachApply (srcReach src) false e else e) = w
  have hwide : TripStays c w := by
    rw [← hw]
    exact .either (hepisode.trans (reachApply_tripStays h.reach e)) hepisode
  generalize ha : (if List.isEmpty _ = true then w else modRst _ w) = a
  have hagain : TripStays c a := by
    rw [← ha]
    exact .either hwide (hwide.trans (.of_eq rfl rfl))
  rw [if_neg hlevel]
  exact .either (hagain.trans (.of_eq rfl rfl)) hagain

theorem tripSource_trip : TripSource .trip := ⟨.inl rfl, rfl, by decide⟩
theorem tripSource_resetPin : TripSource .resetPin := ⟨.inl rfl, rfl, by decide⟩
theorem tripSource_vio : TripSource .vio := ⟨.inl rfl, rfl, by decide⟩
theorem tripSource_perst : TripSource .perst := ⟨.inr ⟨by decide, rfl, rfl, rfl⟩, rfl, by decide⟩

theorem sleepPins_tripStays (s : State) : TripStays s (sleepPins s) := by
  have hassert : ∀ {src : ResetSrc} {c : Bool} {u}, TripSource src → TripStays s u → TripStays s (if c then assertOne src u else u) :=
    fun hsrc hu => .either (hu.trans (assertOne_tripStays hsrc _).1) hu
  unfold sleepPins
  exact hassert tripSource_perst (hassert tripSource_vio (hassert tripSource_resetPin (.refl s)))

theorem assertReset_trip (s : State) : TripStays s (assertReset .trip s) ∧ bit (assertReset .trip s).rst.cause 8 = true := by
  obtain ⟨hstay, hbit⟩ := assertOne_tripStays tripSource_trip s
  have hpins := sleepPins_tripStays (assertOne .trip s)
  unfold assertReset
  dsimp only
  split
  · exact ⟨hstay.trans hpins, hpins.cause (hbit rfl)⟩
  · exact ⟨hstay, hbit rfl⟩

/-! ### An evaluation of the trip -/

theorem tripEvaluation_event {r : List SensorReading} {s : State} (hfree : s.therm.tripped = false) :
    (tripVote s r = none → ∃ t, exec (.tripEvaluation r) s = .next t ∧ t.therm.votes = 0 ∧ OnlyChanges [.therm] s t) ∧
    ∀ v, tripVote s r = some v →
      (s.therm.votes < 2 → ∃ t, exec (.tripEvaluation r) s = .next t ∧ t.therm.votes = s.therm.votes + 1 ∧ OnlyChanges [.therm] s t) ∧
      (2 ≤ s.therm.votes → ∃ t, exec (.tripEvaluation r) s = .next t ∧ t.therm.tripped = true ∧ bit t.rst.cause 8 = true ∧
        t.therm.tripSensor = (s.therm.firstVote.getD v).1 ∧ t.therm.tripCount = satU 16 (s.therm.tripCount + 1)) := by
  have honly : ∀ f : Therm → Therm, OnlyChanges [.therm] s (modTherm f s) := fun f => (modTherm_only (.refl [.therm] s) (by decide)).only
  refine ⟨fun hnone => ?_, fun v hv => ⟨fun hfew => ?_, fun hthird => ?_⟩⟩
  · have he : tripEval r s = modTherm (fun t => { t with votes := 0, firstVote := none }) s := by
      unfold tripEval
      rw [hfree, hnone, if_neg (by decide)]
    exact ⟨_, congrArg Host.Outcome.next he, rfl, honly _⟩
  · have he : tripEval r s = modTherm (fun t => { t with votes := t.votes + 1, firstVote := some (s.therm.firstVote.getD v) }) s := by
      unfold tripEval
      rw [hfree, hv, if_neg (by decide)]
      exact if_pos hfew
    exact ⟨_, congrArg Host.Outcome.next he, rfl, honly _⟩
  · refine ⟨tripEval r s, rfl, ?_⟩
    unfold tripEval
    rw [hfree, hv, if_neg (by decide)]
    dsimp only
    rw [if_neg (by omega)]
    generalize hd : (if (s.therm.firstVote.getD v).2.isSome = true then s else (draw s).2) = d
    have hdraw : d.therm = s.therm := by
      rw [← hd]
      split
      · rfl
      · exact draw_therm s
    generalize hm : modTherm (fun t => { t with
      tripped := true, votes := 0, cool := 0, firstVote := none, tripNote := true, tripSensor := (s.therm.firstVote.getD v).1
      tripCorr := _, tripCount := satU 16 (t.tripCount + 1) }) d = m
    have htrip : m.therm.tripped = true ∧ m.therm.tripSensor = (s.therm.firstVote.getD v).1 ∧
        m.therm.tripCount = satU 16 (s.therm.tripCount + 1) := by
      rw [← hm, ← hdraw]
      exact ⟨rfl, rfl, rfl⟩
    obtain ⟨htripped, hsensor, hcount⟩ := htrip
    have htx : (forFin 8 (fun n s => modTx n (fun x => { x with txDis := true }) s) m).therm = m.therm :=
      forFin_same (fun n s => modTx n (fun x => { x with txDis := true }) s) State.therm (fun _ _ => rfl) m
    obtain ⟨hstay, hbit⟩ := assertReset_trip (forFin 8 (fun n s => modTx n (fun x => { x with txDis := true }) s) m)
    exact ⟨by rw [hstay.tripped, htx, htripped], hbit, by rw [hstay.sensor, htx, hsensor], by rw [hstay.count, htx, hcount]⟩

/-- Settles O59, event by event: the converters' outputs, passes and rounds, the comparators, the thermal round and its timers, the
hard-wired trip. -/
theorem monitoringAndThermalPolicy : Obligations.MonitoringAndThermalPolicy := by
  intro s
  refine ⟨?output, ?record, ?pass, ?scan, ?two, ?one, ?round, ?roundEnd, ?halted, ?grace, ?dwell, ?hold, ?lift, ?trip⟩
  case output => exact fun k v ovr => monOutput_event k v ovr s
  case record => exact fun k => recTimeExpiry_event k s
  case pass => exact fun k hmode htest hon hbusy hround hlist => scanPassStart_event k s hmode htest hon hbusy hround hlist
  case scan => exact fun k v ovr i hbusy htest => scanConversionDone_event k v ovr s i hbusy htest
  case two =>
    intro i j a b hij c d k hci hdi heni hui hcj hdj henj huj hassign hon hfree
    exact twoCrossings_event hij ⟨hci, hdi, heni, hon⟩ hui ⟨hcj, hdj, henj, hon⟩ huj hassign hfree
  case one => exact fun i level => oneCrossing_event i level s
  case round => exact fun htest hon _ => housekeepingRound_event s htest hon
  case roundEnd => exact fun r taps hbusy => housekeepingRoundEnd_event r taps s hbusy
  case halted => exact fun hrun k hk => ⟨_, timers_exec k hk s, timerEnd_halted hrun⟩
  case grace => exact fun hrun hstage hadv => graceExpiry_event hrun hstage hadv
  case dwell => exact fun hrun hstage hhot => shedDwellExpiry_event hrun hstage hhot
  case hold => exact fun hrun hstage hadv hshed => muteHoldExpiry_event hrun hstage hadv hshed
  case lift => exact fun hrun hstage hshed => liftGapExpiry_event hrun hstage hshed
  case trip => exact fun r hfree => tripEvaluation_event hfree

end Sys2Proof.Machine
end

section
/-! SUPPORT. Cadence links: what probes, keep-alives and losses leave of a link (R244 to R249). -/

namespace Sys2Proof.Machine

open Sys2Proof

/-! ### Fields of the cadence plane that other parts leave -/

section
variable {ps : List Part} {s t : State}

theorem Only.links (h : Only ps s t) (hp : Part.cad ∉ ps) : t.cad.links = s.cad.links := (congrArg Cad.links (h.only .cad hp) :)
theorem Only.slots (h : Only ps s t) (hp : Part.cad ∉ ps) : t.cad.slots = s.cad.slots := (congrArg Cad.slots (h.only .cad hp) :)
theorem Only.joinWait (h : Only ps s t) (hp : Part.cad ∉ ps) : t.cad.joinWait = s.cad.joinWait := (congrArg Cad.joinWait (h.only .cad hp) :)
theorem Only.domTags (h : Only ps s t) (hp : Part.cad ∉ ps) : t.cad.domTags = s.cad.domTags := (congrArg Cad.domTags (h.only .cad hp) :)

end

/-- Reporting leaves the cadence plane but for the device's own counts. -/
theorem raise_kept (src : Nat) (p : Word) (s : State) : Only [.evt, .own, .counters] s (raise src p s) :=
  raise_only (.refl _ s) (by decide) (by decide) (by decide)

theorem raiseLimited_kept (src inst : Nat) (p : Word) (s : State) : Only [.evt, .own, .counters] s (raiseLimited src inst p s) :=
  raiseLimited_only (.refl _ s) (by decide) (by decide) (by decide)

theorem modLink_link (k : Fin 10) (f : Link → Link) (s : State) : (modLink k f s).cad.links[k] = f s.cad.links[k] := upd_get_self _ _ _

theorem link_of_links {s t : State} (h : t.cad.links = s.cad.links) (k : Fin 10) : t.cad.links[k] = s.cad.links[k] := by rw [h]

/-! ### The loss of a port -/

theorem enterHoldover_links (cause : Nat) (s : State) : (enterHoldover cause s).cad.links = s.cad.links := by
  unfold enterHoldover
  split
  · rfl
  · exact (raise_kept _ _ _).links (by decide)

theorem treeLost_links (t : Tree) (cause : Option Nat) (s : State) : (treeLost t cause s).cad.links = s.cad.links := by
  unfold treeLost
  split
  · rfl
  split
  · split
    · rfl
    · split
      · rfl
      · exact enterHoldover_links _ _
  split
  · exact enterHoldover_links _ _
  split
  · split
    · rfl
    · exact enterHoldover_links _ _
  · rfl

theorem modTree_links (t : Tree) (f : TreeTime → TreeTime) (s : State) : (modTree t f s).cad.links = s.cad.links := by
  cases t <;> rfl

theorem modTree_evt (t : Tree) (f : TreeTime → TreeTime) (s : State) : (modTree t f s).evt = s.evt := by
  cases t <;> rfl

theorem linkAlive_iff {s : State} {k : Fin 10} : linkAlive s k = true ↔ s.cad.links[k].st = .align ∨ s.cad.links[k].st = .up := by
  simp [linkAlive]

theorem linkAlive_running {s : State} {k : Fin 10} (h : linkAlive s k = true) : ¬(s.cad.links[k].st = .down ∨ s.cad.links[k].st = .disabled) := by
  rcases linkAlive_iff.1 h with h | h
  · rw [h]
    decide
  · rw [h]
    decide

/-- What of a link its loss leaves. -/
structure Link.Lost (l m : Link) : Prop where
  st : m.st = .down
  err : m.err = l.err
  delays : m.delays = l.delays
  delay : m.delay = l.delay
  roundTrip : m.roundTrip = none

theorem linkDown_lost {s : State} {k : Fin 10} (h : linkAlive s k = true) : s.cad.links[k].Lost (linkDown k s).cad.links[k] ∧
    (s.cad.links[k].st = .up → Latched (if k.val < 2 then 0x1C3 else 0x1C4) s (linkDown k s)) := by
  obtain ⟨u, hu⟩ : ∃ u, u = modLink k (fun l => { l with
    st := .down, keep := 0, probes := 0, probeOut := false, roundTrip := none, holdRx := false, report := none }) s := ⟨_, rfl⟩
  have hfirst : s.cad.links[k].Lost u.cad.links[k] := by
    rw [hu, modLink_link]
    exact ⟨rfl, rfl, rfl, rfl, rfl⟩
  have hevt : LatchesStay s u := .of_evt (by rw [hu]; rfl)
  unfold linkDown
  dsimp only
  rw [if_neg (linkAlive_running h), ← hu]
  split
  · next hup => exact ⟨hfirst, fun e => absurd e hup⟩
  · split
    · next hk =>
      have hlinks : (treeLost (linkTree k) (some 0) (raise 0x1C3 (pay1 (treeNum (linkTree k)))
          (modTree (linkTree k) (fun x => { x with good := 0, missing := 3, marked := none }) u))).cad.links = u.cad.links := by
        rw [treeLost_links, (raise_kept _ _ _).links (by decide), modTree_links]
      refine ⟨by rw [link_of_links hlinks k]; exact hfirst, fun _ => ?_⟩
      exact Latched.stays (latched_raise (by decide) _ _) (hevt.trans (.of_evt (modTree_evt _ _ u))) (treeLost_latchesStay _ _ _)
    · next hk =>
      generalize hv : modLink k (fun l => { l with lostDev := _, child := none }) _ = v
      have hlink : s.cad.links[k].Lost v.cad.links[k] := by
        rw [← hv, modLink_link]
        exact ⟨hfirst.st, hfirst.err, hfirst.delays, hfirst.delay, hfirst.roundTrip⟩
      have hlatch : LatchesStay s v := hevt.trans (.of_evt (by rw [← hv]; rfl))
      refine ⟨by rw [link_of_links ((raise_kept _ _ v).links (by decide)) k]; exact hlink, fun _ => ?_⟩
      exact Latched.stays (latched_raise (by decide) _ _) hlatch (.refl _)

theorem linkErr_link (k : Fin 10) (s : State) : (linkErr k s).cad.links[k] = { s.cad.links[k] with err := satU 8 (s.cad.links[k].err + 1) } :=
  modLink_link _ _ _

/-- A code violation counts one on, and nothing else of the link changes but its instants. -/
theorem linkError_link (k : Fin 10) (s : State) : ∃ v, (linkError k s).cad.links[k] =
    { s.cad.links[k] with err := satU 8 (s.cad.links[k].err + 1), viol := v } := by
  refine ⟨s.clk :: s.cad.links[k].viol.filter fun t => decide (s.clk < t + 156250), ?_⟩
  have hmod : (modLink k (fun l => { l with viol := s.clk :: s.cad.links[k].viol.filter fun t => decide (s.clk < t + 156250) })
      (linkErr k s)).cad.links[k] = { s.cad.links[k] with
        err := satU 8 (s.cad.links[k].err + 1), viol := s.clk :: s.cad.links[k].viol.filter fun t => decide (s.clk < t + 156250) } := by
    rw [modLink_link, linkErr_link]
  unfold linkError
  dsimp only
  split
  · exact (link_of_links ((raiseLimited_kept _ _ _ _).links (by decide)) k).trans hmod
  · exact hmod

/-! ### A subtree's collection touches only the reports -/

/-- Every link stays, but for the report it holds. -/
def ReportsOnly (s t : State) : Prop := ∀ k : Fin 10, ∃ r, t.cad.links[k] = { s.cad.links[k] with report := r }

theorem ReportsOnly.of_links {s t : State} (h : t.cad.links = s.cad.links) : ReportsOnly s t := fun k => ⟨s.cad.links[k].report, by rw [h]⟩

theorem ReportsOnly.trans {s t u : State} (h : ReportsOnly s t) (k : ReportsOnly t u) : ReportsOnly s u := fun i => by
  obtain ⟨a, ha⟩ := h i
  obtain ⟨b, hb⟩ := k i
  exact ⟨b, by rw [hb, ha]⟩

theorem ReportsOnly.foldl {α : Type} {f : State → α → State} (h : ∀ s x, ReportsOnly s (f s x)) (l : List α) :
    ∀ s, ReportsOnly s (l.foldl f s) := by
  induction l with
  | nil => exact fun s => .of_links rfl
  | cons x l ih => exact fun s => (h s x).trans (ih (f s x))

theorem ReportsOnly.either {s a b : State} {c : Prop} [Decidable c] (ha : ReportsOnly s a) (hb : ReportsOnly s b) :
    ReportsOnly s (if c then a else b) := by
  split
  · exact ha
  · exact hb

theorem clearReport_reportsOnly (k : Fin 10) (s : State) : ReportsOnly s (modLink k (fun l => { l with report := none }) s) := fun i => by
  by_cases hi : i = k
  · subst hi
    exact ⟨none, modLink_link _ _ _⟩
  · exact ⟨s.cad.links[i].report, upd_get_ne _ _ hi⟩

theorem setRun_links (t : Tree) (r : Option EnumRun) (s : State) : (setRun t r s).cad.links = s.cad.links := by
  cases t <;> rfl

theorem beginRun_reportsOnly (t : Tree) (epoch : Byte) (round : Nat) (dup : List Nat) (cmds : List Cmd) (ports : List (Fin 10))
    (join : Option (Fin 10)) (s : State) : ReportsOnly s (beginRun t epoch round dup cmds ports join s) := by
  unfold beginRun
  dsimp only
  refine .trans ?_ (.of_links (setRun_links _ _ _))
  generalize hc : List.foldl _ s (downPorts t) = c
  have hclear : ReportsOnly s c := by
    rw [← hc]
    refine .foldl (fun s k => ?_) (downPorts t) s
    split
    · exact clearReport_reportsOnly k s
    · exact .of_links rfl
  refine hclear.trans ?_
  generalize hw : modCad _ c = w
  have hwait : ReportsOnly c w := .of_links (by rw [← hw]; rfl)
  refine hwait.trans ?_
  generalize (if round = 2 then _ else _) = body
  exact ReportsOnly.foldl (f := fun s k => post k 0x03 body s) (fun _ _ => .of_links rfl) ports w

theorem joinNext_reportsOnly (t : Tree) (s : State) : ReportsOnly s (joinNext t s) := by
  unfold joinNext
  refine .either ?_ (.of_links rfl)
  split
  · exact beginRun_reportsOnly _ _ _ _ _ _ _ s
  · exact .of_links rfl

/-- A link that has probed and kept alive long enough comes up. -/
theorem linkCheckUp_link (k : Fin 10) (s : State) : ∃ r, (linkCheckUp k s).cad.links[k] = { s.cad.links[k] with
    st := if s.cad.links[k].st = .align ∧ 16 ≤ s.cad.links[k].keep ∧ 16 ≤ s.cad.links[k].probes then .up else s.cad.links[k].st
    report := r } := by
  unfold linkCheckUp
  dsimp only
  split
  · generalize hu : raise 0x1C5 (pay1 k.val) _ = u
    have hup : u.cad.links[k] = { s.cad.links[k] with st := .up } := by
      rw [← hu, (raise_kept _ _ _).links (by decide), modLink_link]
    have hthen : ReportsOnly u (if 2 ≤ k.val then joinNext (linkTree k) (modCad (fun c => { c with joinWait := c.joinWait ++ [k] }) u) else u) := by
      split
      · exact (ReportsOnly.of_links rfl).trans (joinNext_reportsOnly _ _)
      · exact .of_links rfl
    obtain ⟨r, hr⟩ := hthen k
    exact ⟨r, by rw [hr, hup]⟩
  · exact ⟨s.cad.links[k].report, rfl⟩

/-! ### The events of a link -/

section
variable {s : State}

theorem received_good {k : Fin 10} {typ : Byte} {b : List Byte} {f : State → State} (h : linkAlive s k = true) :
    received k typ b (linkCrc typ b) f s = f s := by
  unfold received
  rw [h, if_neg (by decide), if_pos rfl]

theorem linkAlive_of_up {k : Fin 10} (h : linkUp s k = true) : linkAlive s k = true := by
  unfold linkUp at h
  unfold linkAlive
  rw [h, Bool.or_true]

/-- The device's upstream ports begin no collection. -/
theorem linkCheckUp_out {k : Fin 10} (h : k.val < 2) (s : State) : (linkCheckUp k s).out = s.out := by
  unfold linkCheckUp
  dsimp only
  split
  · rw [if_neg (by omega), raise_out]
    rfl
  · rfl

theorem upPort_lt (t : Tree) : (upPort t).val < 2 := by
  cases t <;> decide

/-- The turnaround of a probe, measured and reported. -/
def turned (t : Tree) (s : State) : State :=
  post (upPort t) 0x82 (bytesLE 3 (draw (emit (.probeEcho (upPort t)) s)).1) (draw (emit (.probeEcho (upPort t)) s)).2

theorem probe_event (t : Tree) (h : linkAlive s (upPort t) = true) : ∃ u, exec (.probe t) s = .next u ∧
    Out.probeEcho (upPort t) ∈ u.out.drop s.out.length ∧ u.cad.links[upPort t].probes = s.cad.links[upPort t].probes + 1 := by
  have he : probeArrives t s = linkCheckUp (upPort t) (modLink (upPort t) (fun l => { l with probes := l.probes + 1 }) (turned t s)) :=
    if_pos h
  refine ⟨_, congrArg Host.Outcome.next he, ?_, ?_⟩
  · rw [linkCheckUp_out (upPort_lt t)]
    simp [turned, post, emit, draw]
  · obtain ⟨r, hr⟩ := linkCheckUp_link (upPort t) (modLink (upPort t) (fun l => { l with probes := l.probes + 1 }) (turned t s))
    rw [hr, modLink_link]
    rfl

theorem probeTurn_event (k : Fin 10) (b : List Byte) (h : linkAlive s k = true) (rt : Nat) (hrt : s.cad.links[k].roundTrip = some rt) :
    let ds := ((rt - leAt b 0 3) / 2 :: s.cad.links[k].delays).take 16;
    ∃ u, exec (.probeTurn k b (linkCrc 0x82 b)) s = .next u ∧ u.cad.links[k].delays = ds ∧ u.cad.links[k].delay = meanOf ds ∧
      u.cad.links[k].roundTrip = none ∧ (20000 < meanOf ds → u.cad.links[k].st = .disabled) := by
  intro ds
  obtain ⟨v, hv⟩ : ∃ v, v = post k 0x02 (bytesLE 3 (meanOf ds)) (modLink k (fun l => { l with
    roundTrip := none, delays := ds, delay := meanOf ds, probes := l.probes + 1 }) s) := ⟨_, rfl⟩
  have hlink : v.cad.links[k] = { s.cad.links[k] with
      roundTrip := none, delays := ds, delay := meanOf ds, probes := s.cad.links[k].probes + 1 } := by
    rw [hv]
    exact modLink_link _ _ _
  have halive : linkAlive v k = true := by
    unfold linkAlive
    rw [hlink]
    exact h
  have he : received k 0x82 b (linkCrc 0x82 b) (probeTurn k b) s =
      if 20000 < meanOf ds then modLink k (fun l => { l with st := .disabled }) (linkDown k v) else linkCheckUp k v := by
    rw [received_good h]
    unfold probeTurn
    rw [hrt, hv]
  refine ⟨_, congrArg Host.Outcome.next he, ?_⟩
  split
  · obtain ⟨⟨-, -, hdelays, hdelay, hround⟩, -⟩ := linkDown_lost halive
    rw [modLink_link]
    exact ⟨by rw [hdelays, hlink], by rw [hdelay, hlink], hround, fun _ => rfl⟩
  · next hnear =>
    obtain ⟨r, hr⟩ := linkCheckUp_link k v
    rw [hr, hlink]
    exact ⟨rfl, rfl, rfl, fun hfar => absurd hfar hnear⟩

theorem linkDelay_event (t : Tree) (b : List Byte) (h : linkAlive s (upPort t) = true) :
    ∃ u, exec (.linkDelay t b (linkCrc 0x02 b)) s = .next u ∧ u.cad.links[upPort t].delay = leAt b 0 3 ∧
      u.cad.links[upPort t].st = if 20000 < leAt b 0 3 then .disabled else s.cad.links[upPort t].st := by
  obtain ⟨v, hv⟩ : ∃ v, v = modLink (upPort t) (fun l => { l with delay := leAt b 0 3 }) s := ⟨_, rfl⟩
  have hlink : v.cad.links[upPort t] = { s.cad.links[upPort t] with delay := leAt b 0 3 } := by
    rw [hv]
    exact modLink_link _ _ _
  have halive : linkAlive v (upPort t) = true := by
    unfold linkAlive
    rw [hlink]
    exact h
  have he : received (upPort t) 0x02 b (linkCrc 0x02 b) (linkDelay t b) s =
      if 20000 < leAt b 0 3 then modLink (upPort t) (fun l => { l with st := .disabled }) (linkDown (upPort t) v) else v := by
    rw [received_good h, hv]
    exact if_pos h
  refine ⟨_, congrArg Host.Outcome.next he, ?_⟩
  split
  · obtain ⟨⟨-, -, -, hdelay, -⟩, -⟩ := linkDown_lost halive
    rw [modLink_link]
    exact ⟨by rw [hdelay, hlink], rfl⟩
  · rw [hlink]
    exact ⟨rfl, rfl⟩

theorem keepAlive_event (k : Fin 10) (h : linkAlive s k = true) : ∃ u, exec (.keepAlive k 0 0) s = .next u ∧
    u.cad.links[k].keep = s.cad.links[k].keep + 1 ∧ (s.cad.links[k].st = .align → u.cad.links[k].st =
      if 16 ≤ s.cad.links[k].keep + 1 ∧ 16 ≤ s.cad.links[k].probes then .up else .align) := by
  have he : keepAlive k 0 0 s = linkCheckUp k (modLink k (fun l => { l with keep := l.keep + 1 }) s) := by
    have hok : (if k.val < 2 then decide ((0 : Byte).toNat ≤ 1) else (0 : Byte) == 0) = true := by split <;> decide
    have hnone : (if s.cad.links[k].st = .down ∨ s.cad.links[k].st = .disabled then s else
        (List.range 0).foldl (fun s _ => linkError k s) s) = s := by split <;> rfl
    unfold keepAlive
    dsimp only
    rw [hnone, hok, if_neg (linkAlive_running h)]
    rfl
  refine ⟨_, congrArg Host.Outcome.next he, ?_⟩
  obtain ⟨r, hr⟩ := linkCheckUp_link k (modLink k (fun l => { l with keep := l.keep + 1 }) s)
  rw [hr, modLink_link]
  refine ⟨rfl, fun hal => ?_⟩
  dsimp only
  rw [hal]
  simp only [true_and]

theorem linkLoss_events (k : Fin 10) (h : linkAlive s k = true) :
    (∃ u, exec (.keepAliveMissing k) s = .next u ∧ u.cad.links[k].st = .down ∧
      (s.cad.links[k].st = .up → Latched (if k.val < 2 then 0x1C3 else 0x1C4) s u)) ∧
    ∃ u, exec (.linkAlignmentLost k) s = .next u ∧ u.cad.links[k].st = .down ∧ u.cad.links[k].err = satU 8 (s.cad.links[k].err + 1) := by
  obtain ⟨hlost, hlatch⟩ := linkDown_lost h
  obtain ⟨v, hv⟩ := linkError_link k s
  have halive : linkAlive (linkError k s) k = true := by
    unfold linkAlive
    rw [hv]
    exact h
  obtain ⟨hlater, -⟩ := linkDown_lost halive
  exact ⟨⟨_, rfl, hlost.st, hlatch⟩, _, rfl, hlater.st, hlater.err.trans (by rw [hv])⟩

end

end Sys2Proof.Machine
end

section
/-! SUPPORT. Enumeration: collections, assignments and joins as a node sees them (R251 to R254). -/

namespace Sys2Proof.Machine

open Sys2Proof

/-! ### The collection of a tree -/

theorem getRun_setRun (t : Tree) (r : Option EnumRun) (s : State) : getRun (setRun t r s) t = r := by
  cases t <;> rfl

theorem getRun_of_cad {s u : State} (h : u.cad = s.cad) (t : Tree) : getRun u t = getRun s t := by
  cases t <;> simp [getRun, h]

/-- A collection begins: links and waiting ports aside, only the tree's collection is set. -/
theorem beginRun_set (t : Tree) (epoch : Byte) (round : Nat) (dup : List Nat) (cmds : List Cmd) (ports : List (Fin 10))
    (join : Option (Fin 10)) (s : State) : ∃ u l w r, beginRun t epoch round dup cmds ports join s = setRun t (some r) u ∧
      u.cad = { s.cad with links := l, joinWait := w } ∧ r.epoch = epoch ∧ r.round = round ∧ r.await = ports := by
  have hclear : ∀ (d : List (Fin 10)) (x : State), (∃ l w, x.cad = { s.cad with links := l, joinWait := w }) →
      ∃ l w, (d.foldl (fun s k => if join.isNone || ports.contains k then modLink k (fun l => { l with report := none }) s else s) x).cad =
        { s.cad with links := l, joinWait := w } := by
    intro d
    induction d with
    | nil => exact fun x h => h
    | cons k d ih =>
      intro x ⟨l, w, hx⟩
      rw [List.foldl_cons]
      refine ih _ ?_
      by_cases hk : (join.isNone || ports.contains k) = true
      · rw [if_pos hk]
        exact ⟨upd x.cad.links k fun l => { l with report := none }, x.cad.joinWait, by rw [modLink, modCad, hx]⟩
      · rw [if_neg hk]
        exact ⟨l, w, hx⟩
  have hpost : ∀ (body : List Byte) (d : List (Fin 10)) (x : State), (d.foldl (fun s k => post k 0x03 body s) x).cad = x.cad := by
    intro body d
    induction d with
    | nil => exact fun _ => rfl
    | cons k d ih => exact fun x => ih (post k 0x03 body x)
  obtain ⟨l, w, hl⟩ := hclear (downPorts t) s ⟨s.cad.links, s.cad.joinWait, rfl⟩
  unfold beginRun
  dsimp only
  generalize List.foldl _ s (downPorts t) = c at hl
  refine ⟨_, l, w.filter fun k => !ports.contains k, _, rfl, ?_, rfl, rfl, rfl⟩
  rw [hpost, modCad, hl]

/-- While reports are awaited, a collection goes on. -/
theorem finishRun_waits {t : Tree} {s : State} {r : EnumRun} (hr : getRun s t = some r) (ha : r.await ≠ []) : finishRun t s = s := by
  unfold finishRun
  rw [hr]
  exact if_pos ha

theorem finishRun_begun {t : Tree} {epoch : Byte} {round : Nat} {dup : List Nat} {cmds : List Cmd} {ports : List (Fin 10)} {s : State}
    (h : ports ≠ []) : ∃ u l w r, finishRun t (beginRun t epoch round dup cmds ports none s) = setRun t (some r) u ∧
      u.cad = { s.cad with links := l, joinWait := w } ∧ r.epoch = epoch ∧ r.round = round ∧ r.await = ports := by
  obtain ⟨u, l, w, r, hb, hcad, he, hround, hports⟩ := beginRun_set t epoch round dup cmds ports none s
  refine ⟨u, l, w, r, ?_, hcad, he, hround, hports⟩
  rw [hb]
  exact finishRun_waits (getRun_setRun t _ u) (by rw [hports]; exact h)

theorem epochOf_setRun (t : Tree) (r : Option EnumRun) (s : State) : epochOf (setRun t r s) t = epochOf s t := by
  cases t <;> rfl

theorem epochOf_of_cad {s u : State} {l : Vector Link 10} {w : List (Fin 10)} (h : u.cad = { s.cad with links := l, joinWait := w })
    (t : Tree) : epochOf u t = epochOf s t := by
  cases t <;> simp [epochOf, h]

theorem epochOf_setEpoch (t : Tree) (e : Byte) (s : State) : epochOf (setEpoch t e s) t = e := by
  cases t <;> rfl

theorem downUp_setEpoch (t : Tree) (e : Byte) (s : State) : downUp (setEpoch t e s) t = downUp s t := by
  cases t <;> rfl

theorem chanterOf_setEpoch (t : Tree) (e : Byte) (s : State) : chanterOf (setEpoch t e s) = chanterOf s := by
  cases t <;> rfl

section
variable {s : State}

theorem enumerationStart_event {t : Tree} (hc : chanterOf s = some t) (hb : t = .a ∨ s.cad.enumBegun = false) (hd : downUp s t ≠ []) :
    ∃ u, exec .enumerationStart s = .next u ∧ u.cad.enumBegun = true ∧ epochOf u t = epochOf s t + 1 ∧
      (getRun u t).map (fun r => (r.epoch, r.round, r.await)) = some (epochOf s t + 1, 1, downUp s t) := by
  obtain ⟨v, hv⟩ : ∃ v, v = modCad (fun c => { c with enumBegun := true }) (setEpoch t (epochOf s t + 1) s) := ⟨_, rfl⟩
  have hepoch : epochOf v t = epochOf s t + 1 := by
    rw [hv]
    cases t <;> rfl
  have hdown : downUp v t = downUp s t := by
    rw [hv]
    cases t <;> rfl
  have hbegun : v.cad.enumBegun = true := by
    rw [hv]
    rfl
  obtain ⟨cmds, he⟩ : ∃ cmds, enumTimer s = finishRun t (beginRun t (epochOf v t) 1 [] cmds (downUp v t) none v) := by
    unfold enumTimer
    rw [if_neg]
    · unfold startEnum
      rw [hc, hv]
      exact ⟨_, rfl⟩
    · rintro ⟨hb', hbegun'⟩
      obtain rfl := Option.some.inj (hc.symm.trans hb')
      rcases hb with hb | hb
      · cases hb
      · rw [hb] at hbegun'
        cases hbegun'
  obtain ⟨u, l, w, r, hf, hcad, hre, hrr, hra⟩ := finishRun_begun (t := t) (epoch := epochOf v t) (round := 1) (dup := []) (cmds := cmds) (s := v)
    (hdown ▸ hd)
  refine ⟨_, congrArg Host.Outcome.next (he.trans hf), ?_, ?_, ?_⟩
  · cases t
    · exact (congrArg Cad.enumBegun hcad).trans hbegun
    · exact (congrArg Cad.enumBegun hcad).trans hbegun
  · rw [epochOf_setRun, epochOf_of_cad hcad, hepoch]
  · rw [getRun_setRun, Option.map_some, hre, hrr, hra, hepoch, hdown]

theorem enumOrder_event {t : Tree} {b : List Byte} (hc : chanterOf s ≠ some t) (hup : linkUp s (upPort t) = true) (hd : downUp s t ≠ []) :
    ∃ u, exec (.enumOrder t b (linkCrc 0x03 b)) s = .next u ∧ epochOf u t = b.getD 0 0 ∧
      (getRun u t).map (fun r => (r.epoch, r.round, r.await)) = some (b.getD 0 0, byteAt b 1, downUp s t) := by
  obtain ⟨dup, he⟩ : ∃ dup, received (upPort t) 0x03 b (linkCrc 0x03 b) (enumOrder t b) s =
      finishRun t (beginRun t (b.getD 0 0) (byteAt b 1) dup [] (downUp (setEpoch t (b.getD 0 0) s) t) none (setEpoch t (b.getD 0 0) s)) := by
    rw [received_good (linkAlive_of_up hup)]
    exact ⟨_, if_neg (by simp [hc, hup])⟩
  rw [downUp_setEpoch] at he
  obtain ⟨u, l, w, r, hf, hcad, hre, hrr, hra⟩ := finishRun_begun (t := t) (epoch := b.getD 0 0) (round := byteAt b 1) (dup := dup)
    (cmds := []) (s := setEpoch t (b.getD 0 0) s) hd
  refine ⟨_, congrArg Host.Outcome.next (he.trans hf), ?_, ?_⟩
  · rw [epochOf_setRun, epochOf_of_cad hcad, epochOf_setEpoch]
  · rw [getRun_setRun, Option.map_some, hre, hrr, hra]

theorem enumReport_event {k : Fin 10} {b : List Byte} (hk : 2 ≤ k.val) (hl : linkAlive s k = true) {r : EnumRun}
    (hr : getRun s (linkTree k) = some r) (he : b.getD 0 0 = r.epoch) (hin : r.await.contains k = true)
    (hmore : (r.await.erase k).isEmpty = false) : ∃ u, exec (.enumReport k b (linkCrc 0x83 b)) s = .next u ∧
      u.cad.links[k].report = some (cntOf b 1, mapOf b 15) ∧ (getRun u (linkTree k)).map (·.await) = some (r.await.erase k) := by
  obtain ⟨q, hgo, hq⟩ : ∃ q : EnumRun, received k 0x83 b (linkCrc 0x83 b) (enumReport k b) s = finishRun (linkTree k)
      (setRun (linkTree k) (some q) (modLink k (fun l => { l with report := some (cntOf b 1, mapOf b 15) }) s)) ∧
      q.await = r.await.erase k := by
    rw [received_good hl]
    unfold enumReport
    dsimp only
    rw [hr]
    dsimp only
    rw [if_neg (by simp only [not_or]; exact ⟨by omega, not_not.2 he, by rw [hin]; decide⟩)]
    exact ⟨_, rfl, rfl⟩
  have hwait : q.await ≠ [] := by
    rw [hq]
    intro h
    rw [h] at hmore
    cases hmore
  refine ⟨_, congrArg Host.Outcome.next (hgo.trans (finishRun_waits (getRun_setRun _ _ _) hwait)), ?_, ?_⟩
  · rw [link_of_links (setRun_links _ _ _) k, modLink_link]
  · rw [getRun_setRun, Option.map_some, hq]

/-! ### Joins that do not begin -/

theorem joinNext_none {t : Tree} (h : s.cad.joinWait = []) : joinNext t s = s := by
  unfold joinNext
  rw [h]
  exact ite_self s

theorem joinNext_before {t : Tree} (h : enumerated s t = false) : joinNext t s = s := by
  unfold joinNext
  rw [h]
  rfl

theorem reservedFor_cad (parent port : Nat) (s : State) : (reservedFor parent port s).2.cad = s.cad := by
  unfold reservedFor
  split
  · rfl
  · split
    · rfl
    · rfl

/-- A grant changes what the chanter has given, and its message goes out. -/
theorem grantJoin_cad (via : Fin 10) (parent port : Nat) (epoch : Byte) (cnt map : List Nat) (s : State) :
    ∃ used resv, (grantJoin via parent port epoch cnt map s).cad = { s.cad with used := used, resv := resv } := by
  have hcad := reservedFor_cad parent port s
  unfold grantJoin
  dsimp only
  generalize reservedFor parent port s = x at hcad
  rw [← hcad]
  exact ⟨_, _, rfl⟩

/-! ### Reports that do not come -/

/-- A complete collection of a join: it is over, and its request or grant has gone. -/
theorem finishRun_join {t : Tree} {r : EnumRun} {k : Fin 10} (hr : getRun s t = some r) (ha : r.await = []) (hj : r.join = some k)
    (he : enumerated s t = false) : (getRun (finishRun t s) t).map (·.await) = some [] := by
  have hset : ∀ u : State, (∃ used resv, u.cad = { (setRun t (some { r with join := none }) s).cad with used := used, resv := resv }) →
      enumerated u t = false ∧ (getRun u t).map (·.await) = some [] := by
    rintro u ⟨used, resv, hu⟩
    refine ⟨?_, ?_⟩
    · rw [← he]
      unfold enumerated chanterOf getTree
      rw [hu]
      cases t <;> rfl
    · unfold getRun
      rw [hu]
      cases t
      · exact congrArg some ha
      · exact congrArg some ha
  have hend : ∀ u : State, (∃ used resv, u.cad = { (setRun t (some { r with join := none }) s).cad with used := used, resv := resv }) →
      (getRun (joinNext t u) t).map (·.await) = some [] := fun u hu => by
    obtain ⟨hen, hrun⟩ := hset u hu
    rw [joinNext_before hen]
    exact hrun
  unfold finishRun
  rw [hr]
  dsimp only
  rw [if_neg (not_not.2 ha), hj]
  dsimp only
  refine hend _ ?_
  split
  · exact ⟨_, _, rfl⟩
  split
  · exact grantJoin_cad _ _ _ _ _ _ _
  · exact ⟨_, _, rfl⟩

theorem enumReportTimeout_event {t : Tree} {r : EnumRun} (hr : getRun s t = some r) (ha : r.await ≠ []) (hw : s.cad.joinWait = [])
    (he : enumerated s t = false) : ∃ u, exec (.enumReportTimeout t) s = .next u ∧
      (r.join.isSome → (getRun u t).map (·.await) = some []) ∧
      (r.join = none → chanterOf s ≠ some t → (getRun u t).map (·.await) = some [] ∧ u.cad.joinWait = r.await) := by
  obtain ⟨v, hv⟩ : ∃ v, v = setRun t (some { r with await := [] }) (modCad (fun c => { c with
    joinWait := c.joinWait ++ if r.join.isNone then r.await else [] }) s) := ⟨_, rfl⟩
  have hgo : enumTimeout t s = finishRun t v := by
    unfold enumTimeout
    rw [hr]
    dsimp only
    rw [if_neg ha, hv]
  have hrun : getRun v t = some { r with await := [] } := by
    rw [hv]
    exact getRun_setRun _ _ _
  refine ⟨_, congrArg Host.Outcome.next hgo, fun hj => ?_, fun hj hc => ?_⟩
  · obtain ⟨k, hk⟩ := Option.isSome_iff_exists.1 hj
    refine finishRun_join (k := k) hrun rfl hk ?_
    rw [← he, hv]
    cases t <;> rfl
  · have hchanter : chanterOf v ≠ some t := by
      have h : chanterOf v = chanterOf s := by
        rw [hv]
        cases t <;> rfl
      rw [h]
      exact hc
    have hfin : (finishRun t v).cad = v.cad := by
      unfold finishRun
      rw [hrun]
      dsimp only
      rw [if_neg (not_not.2 rfl), hj]
      dsimp only
      rw [if_neg hchanter]
      rfl
    refine ⟨?_, ?_⟩
    · rw [getRun_of_cad hfin, hrun]
      rfl
    · rw [hfin, hv]
      cases t <;> simp [setRun, modCad, hw, hj]

/-! ### Assignments -/

/-- The collections and the waiting ports stay. -/
structure RunsStay (s t : State) : Prop where
  run : t.cad.run = s.cad.run
  runB : t.cad.runB = s.cad.runB
  joinWait : t.cad.joinWait = s.cad.joinWait

theorem RunsStay.trans {s t u : State} (h : RunsStay s t) (k : RunsStay t u) : RunsStay s u :=
  ⟨k.run.trans h.run, k.runB.trans h.runB, k.joinWait.trans h.joinWait⟩

theorem RunsStay.of_only {ps : List Part} {s t : State} (h : Only ps s t) (hp : Part.cad ∉ ps) : RunsStay s t :=
  ⟨(congrArg Cad.run (h.only .cad hp) :), (congrArg Cad.runB (h.only .cad hp) :), h.joinWait hp⟩

theorem RunsStay.getRun {s u : State} (h : RunsStay s u) (t : Tree) : getRun u t = getRun s t := by
  cases t
  · exact h.run
  · exact h.runB

/-- The index that a node has from a tree, noted. -/
def treeIndex (t : Tree) (i : Option Nat) (s : State) : State :=
  modCad (fun c => match t with | .a => { c with idxA := i } | .b => { c with idxB := i }) s

/-- The index in force after one is noted. -/
def indexTaken (t : Tree) (i : Option Nat) (s : State) : State := match i with
  | some k => modCad (fun c => { c with idx := k, idxValid := true }) s
  | none => match (match t with | .a => s.cad.idxB | .b => s.cad.idxA) with
    | some k => modCad (fun c => { c with idx := k, idxValid := true }) s
    | none => modCad (fun c => { c with idx := 0, idxValid := false }) s

theorem setIndex_taken (t : Tree) (i : Option Nat) (s : State) : ∃ p,
    setIndex t i s = indexTaken t i (treeIndex t i s) ∨ setIndex t i s = raise 0x1CF p (indexTaken t i (treeIndex t i s)) := by
  have h : ∃ c : Bool, ∃ p, setIndex t i s = if c then raise 0x1CF p (indexTaken t i (treeIndex t i s)) else indexTaken t i (treeIndex t i s) :=
    ⟨_, _, rfl⟩
  obtain ⟨c, p, h⟩ := h
  cases c
  · exact ⟨p, .inl h⟩
  · exact ⟨p, .inr h⟩

theorem treeIndex_runs (t : Tree) (i : Option Nat) (s : State) : RunsStay s (treeIndex t i s) := by
  cases t
  · exact ⟨rfl, rfl, rfl⟩
  · exact ⟨rfl, rfl, rfl⟩

theorem indexTaken_runs (t : Tree) (i : Option Nat) (s : State) : RunsStay s (indexTaken t i s) := by
  unfold indexTaken
  split
  · exact ⟨rfl, rfl, rfl⟩
  · split
    · exact ⟨rfl, rfl, rfl⟩
    · exact ⟨rfl, rfl, rfl⟩

theorem setIndex_runs (t : Tree) (i : Option Nat) (s : State) : RunsStay s (setIndex t i s) := by
  have htaken := (treeIndex_runs t i s).trans (indexTaken_runs t i _)
  obtain ⟨p, h | h⟩ := setIndex_taken t i s
  · rw [h]
    exact htaken
  · rw [h]
    exact htaken.trans (.of_only (raise_kept _ _ _) (by decide))

theorem setIndex_some (t : Tree) (k : Nat) (s : State) : (setIndex t (some k) s).cad.idx = k ∧ (setIndex t (some k) s).cad.idxValid = true := by
  obtain ⟨p, h | h⟩ := setIndex_taken t (some k) s
  · rw [h]
    exact ⟨rfl, rfl⟩
  · have hcad := (raise_kept 0x1CF p (indexTaken t (some k) (treeIndex t (some k) s))).only .cad (by decide)
    rw [h]
    exact ⟨(congrArg Cad.idx hcad :), (congrArg Cad.idxValid hcad :)⟩

/-- An assignment at a node: its index, and then only messages. -/
theorem applyAssign_cad (t : Tree) (depth : Nat) (typ : Byte) (pre : List Byte) (epoch : Byte) (base map : List Nat) (s : State) :
    ∃ i, (applyAssign t depth typ pre epoch base map s).cad = (setIndex t i s).cad ∧
      ∀ k, (getRun s t).bind (·.claim) = some k → i = some k := by
  have hposts : ∀ (d : List (Fin 10)) (x : State × List Nat), (d.foldl (fun (a : State × List Nat) k =>
      match a.1.cad.links[k].report with
      | none => a
      | some rep =>
        (post k typ (pre ++ [epoch] ++ cntBytes a.2 ++ mapBytes map) a.1,
          (List.range 7).map fun d => a.2.getD d 0 + (if depth < d then rep.1.getD (d - depth - 1) 0 else 0))) x).1.cad = x.1.cad := by
    intro d
    induction d with
    | nil => exact fun _ => rfl
    | cons k d ih =>
      intro x
      rw [List.foldl_cons, ih]
      split
      · rfl
      · rfl
  unfold applyAssign
  dsimp only
  refine ⟨_, hposts _ _, fun k hk => ?_⟩
  rw [hk]

theorem enumAssign_event {t : Tree} {b : List Byte} (hl : linkAlive s (upPort t) = true) {r : EnumRun} (hr : getRun s t = some r)
    (he : b.getD 0 0 = r.epoch) (hc : chanterOf s ≠ some t) (ha : r.assigned = false) (hw : s.cad.joinWait = []) :
    ∃ u, exec (.enumAssign t b (linkCrc 0x04 b)) s = .next u ∧ (getRun u t).map (·.assigned) = some true ∧
      ∀ i, r.claim = some i → u.cad.idx = i ∧ u.cad.idxValid = true := by
  obtain ⟨v, hv⟩ : ∃ v, v = setRun t (some { r with assigned := true }) s := ⟨_, rfl⟩
  have hrun : getRun v t = some { r with assigned := true } := by
    rw [hv]
    exact getRun_setRun _ _ _
  obtain ⟨i, hcad, hclaim⟩ := applyAssign_cad t (depthIn s t) 0x04 [] r.epoch (cntOf b 1) (mapOf b 15) v
  have hruns := setIndex_runs t i v
  have hgo : received (upPort t) 0x04 b (linkCrc 0x04 b) (enumAssign t b) s =
      applyAssign t (depthIn s t) 0x04 [] r.epoch (cntOf b 1) (mapOf b 15) v := by
    rw [received_good hl]
    unfold enumAssign
    rw [hr]
    dsimp only
    rw [if_neg (by simp only [not_or]; exact ⟨not_not.2 he, hc, by rw [ha]; decide⟩), ← hv]
    refine joinNext_none ?_
    rw [hcad, hruns.joinWait, hv]
    cases t
    · exact hw
    · exact hw
  refine ⟨_, congrArg Host.Outcome.next hgo, ?_, fun k hk => ?_⟩
  · rw [getRun_of_cad hcad, hruns.getRun, hrun]
    rfl
  · obtain rfl := hclaim k (by rw [hrun]; exact hk)
    rw [hcad]
    exact setIndex_some t k v

/-! ### Join messages -/

theorem joinReq_event {k : Fin 10} {b : List Byte} (hk : 2 ≤ k.val) (hup : linkUp s k = true) (hc : chanterOf s ≠ some (linkTree k)) :
    exec (.joinReq k b (linkCrc 0x84 b)) s = .next (post (upPort (linkTree k)) 0x84 b
      (modCad (fun c => { c with joinVia := assocSet c.joinVia (leAt b 0 2) k }) s)) := by
  refine congrArg Host.Outcome.next ((received_good (linkAlive_of_up hup)).trans ?_)
  unfold joinReq
  dsimp only
  rw [if_neg (by simp only [not_or]; exact ⟨by omega, by rw [hup]; decide⟩), if_neg hc]

theorem joinGrant_event {t : Tree} {b : List Byte} (hl : linkAlive s (upPort t) = true) (hv : s.cad.idxValid = true)
    (hi : s.cad.idx = leAt b 0 2) {k : Fin 10} (hk : (downPorts t)[byteAt b 2]? = some k) (hup : linkUp s k = true) :
    exec (.joinGrant t b (linkCrc 0x05 b)) s = .next (post k 0x05 b s) := by
  refine congrArg Host.Outcome.next ((received_good hl).trans ?_)
  unfold joinGrant
  dsimp only
  rw [if_pos ⟨hv, hi⟩, hk]
  exact if_pos hup

end

end Sys2Proof.Machine
end

section
/-! SUPPORT. Domain entries and the occurrences of schedule slots (R264 to R268, R270, R271, R333); links, enumeration and slots
together. -/

namespace Sys2Proof.Machine

open Sys2Proof

/-! ### Slots -/

theorem modSlot_slot (i : Fin 256) (f : Slot → Slot) (s : State) : (modSlot i f s).cad.slots[i] = f s.cad.slots[i] := upd_get_self _ _ _

theorem modSlot_other {i j : Fin 256} (h : j ≠ i) (f : Slot → Slot) (s : State) : (modSlot i f s).cad.slots[j] = s.cad.slots[j] := upd_get_ne _ _ h

theorem slot_of_slots {s t : State} (h : t.cad.slots = s.cad.slots) (i : Fin 256) : t.cad.slots[i] = s.cad.slots[i] := by rw [h]

/-- The end of a slot's last occurrence frees it. -/
theorem slotAdvance_last {i : Fin 256} {s : State} (h : s.cad.slots[i].rep = 0 ∨ s.cad.slots[i].count = 1) :
    slotAdvance i s = clearSlot i s := if_pos h

/-- Another occurrence is armed. -/
theorem slotAdvance_next {i : Fin 256} {s : State} (hrep : s.cad.slots[i].rep ≠ 0) (hcount : s.cad.slots[i].count ≠ 1) :
    (slotAdvance i s).cad.slots[i].openEnd = none ∧ (slotAdvance i s).cad.slots[i].m = s.cad.slots[i].m + 1 ∧
    (slotAdvance i s).cad.slots[i].count = (if s.cad.slots[i].count = 0 then 0 else s.cad.slots[i].count - 1) := by
  unfold slotAdvance
  dsimp only
  rw [if_neg (not_or.2 ⟨hrep, hcount⟩), modSlot_slot]
  exact ⟨rfl, rfl, rfl⟩

theorem clearSlot_slot (i : Fin 256) (s : State) : (clearSlot i s).cad.slots[i] = Slot.empty := modSlot_slot i _ s

/-- A run in which nothing acts before an index, and nothing after it. -/
theorem foldl_only_at {n : Nat} {f : Fin n → State → State} {i : Fin n} {s : State} (hbefore : ∀ j < i, f j s = s)
    (hafter : ∀ j, i < j → ∀ t, f j t = t) (l : List (Fin n)) (hl : l.Pairwise (· < ·)) (hi : i ∈ l) :
    l.foldl (fun s j => f j s) s = f i s := by
  induction l with
  | nil => cases hi
  | cons j l ih =>
    obtain ⟨hj, htail⟩ := List.pairwise_cons.1 hl
    rw [List.foldl_cons]
    rcases List.mem_cons.1 hi with rfl | hi
    · have hrest : ∀ (m : List (Fin n)) (t : State), (∀ k ∈ m, i < k) → m.foldl (fun s j => f j s) t = t := by
        intro m
        induction m with
        | nil => exact fun _ _ => rfl
        | cons k m ihm =>
          intro t hm
          rw [List.foldl_cons, hafter k (hm k List.mem_cons_self) t]
          exact ihm t fun x hx => hm x (List.mem_cons_of_mem k hx)
      exact hrest l _ hj
    · rw [hbefore j (hj i hi)]
      exact ih htail hi

theorem forFin_only_at {n : Nat} {f : Fin n → State → State} {i : Fin n} {s : State} (hbefore : ∀ j < i, f j s = s)
    (hafter : ∀ j, i < j → ∀ t, f j t = t) : forFin n f s = f i s :=
  foldl_only_at hbefore hafter _ (List.sortedLT_finRange n).pairwise (List.mem_finRange i)

section
variable {s : State} {i : Fin 256}

/-- What is not due does not act. -/
theorem pointSlot_idle {j : Fin 256} (h : slotDue j s = false ∨ s.cad.slots[j].action = 0) : pointSlot j s = s := by
  refine if_pos ?_
  rcases h with h | h
  · rw [h]
    rfl
  · rw [h, Bool.or_eq_true]
    exact .inr rfl

/-- With nothing to do in lower slots, only the slot itself acts. -/
theorem pointAction_alone (h : ∀ j < i, slotDue j s = false ∨ s.cad.slots[j].action = 0) : pointAction i s = pointSlot i s := by
  have hat := forFin_only_at (f := fun j s => if j ≤ i then pointSlot j s else s) (i := i) (s := s)
    (fun j hj => by rw [if_pos (Fin.le_of_lt hj)]; exact pointSlot_idle (h j hj))
    (fun j hj t => if_neg (Fin.not_le.2 hj))
  exact hat.trans (if_pos (Fin.le_refl i))

theorem beatPulse_event (hdue : slotDue i s = true) (hlower : ∀ j < i, slotDue j s = false ∨ s.cad.slots[j].action = 0)
    (hact : s.cad.slots[i].action = 9) (hcmd : s.cad.slots[i].cmd = none) : ∃ u, exec (.pointAction i) s = .next u ∧
      u.out = s.out ++ [.beatOut (bits (reg s 0x401C) 0 8)] ∧ (s.cad.slots[i].rep = 0 → u.cad.slots[i] = Slot.empty) := by
  have hclaim : slotClaim s (actionClass s.cad.slots[i].action) true ((Tgt.ofCode s.cad.slots[i].target).getD .device) = none := by
    rw [hact]
    refine List.findSome?_eq_none_iff.2 fun j _ => if_neg ?_
    have hnone : ¬ actionClass s.cad.slots[j].action < actionClass 9 := Nat.not_lt_zero _
    simp only [if_true, hnone, decide_false, Bool.and_false, Bool.false_and]
    decide
  have hgo : pointAction i s = slotAdvance i (beatPulse s) := by
    rw [pointAction_alone hlower]
    unfold pointSlot
    rw [hdue, hact, if_neg (by decide), if_neg (by simp [actionFirmware])]
    unfold slotPresent
    dsimp only
    rw [hclaim]
    dsimp only
    unfold slotAct
    rw [hact, hcmd]
    simp [doneO]
  refine ⟨_, congrArg Host.Outcome.next hgo, ?_, fun hrep => ?_⟩
  · unfold slotAdvance
    dsimp only
    split
    · rfl
    · rfl
  · exact (slot_of_slots (congrArg (fun t : State => t.cad.slots) (slotAdvance_last (s := beatPulse s) (.inl hrep))) i).trans
      (clearSlot_slot i _)

theorem heldAction_event (hdue : slotDue i s = true) (hlower : ∀ j < i, slotDue j s = false ∨ s.cad.slots[j].action = 0)
    (hact : s.cad.slots[i].action ≠ 0) (hfirm : actionFirmware s.cad.slots[i].action = true) (hrun : s.rst.mgmtRun = false) :
    exec (.pointAction i) s = .next (modSlot i (fun x => { x with deferral := some { beats := 0, held := true, last := now s } }) s) := by
  refine congrArg Host.Outcome.next ((pointAction_alone hlower).trans ?_)
  unfold pointSlot
  rw [hdue, hfirm, hrun, if_neg (by simpa using hact)]
  exact if_pos rfl

theorem deferralDropped_event {d : Deferral} (hd : s.cad.slots[i].deferral = some d) (hheld : d.held = false) (hbeats : 16 ≤ d.beats) :
    ∃ u, exec (.deferralDropped i) s = .next u ∧ Latched 0x034 s u ∧ (s.cad.slots[i].rep = 0 → u.cad.slots[i] = Slot.empty) := by
  obtain ⟨v, hv⟩ : ∃ v, v = raise 0x034 (pay2 i.val (actionClass s.cad.slots[i].action)) (refuseO s.cad.slots[i].cmd stMaint s) := ⟨_, rfl⟩
  have hgo : deferralDropped i s = slotAdvance i v := by
    unfold deferralDropped
    rw [hd, hv]
    exact if_neg (by rw [hheld, Bool.false_or]; simpa using hbeats)
  have hslots : v.cad.slots = s.cad.slots := by
    have hrefuse : Only [.rings, .evt, .own, .counters] s (refuseO s.cad.slots[i].cmd stMaint s) :=
      refuseO_only (.refl _ s) (by decide) (by decide) (by decide) (by decide)
    rw [hv, (raise_kept _ _ _).slots (by decide), hrefuse.slots (by decide)]
  have hlatch : Latched 0x034 s v := by
    rw [hv]
    exact Latched.stays (latched_raise (by decide) _ _) (refuseO_latchesStay _ _ s) (.refl _)
  have hadvance : Only [.cad, .own] v (slotAdvance i v) := slotAdvance_only (.refl _ v) (by decide) (by decide)
  refine ⟨_, congrArg Host.Outcome.next hgo, Latched.stays hlatch (.refl s) (.of_only hadvance (by decide)), fun hrep => ?_⟩
  have hlast : slotAdvance i v = clearSlot i v := slotAdvance_last (.inl (by rw [slot_of_slots hslots i]; exact hrep))
  rw [hlast]
  exact clearSlot_slot i v

/-! ### Windows -/

theorem windowClose_event {e : CTime} (he : s.cad.slots[i].openEnd = some e) (hr : reached s e = true) : let x := s.cad.slots[i];
    ∃ u, exec (.windowClose i) s = .next u ∧ OnlyChanges [.cad] s u ∧ (x.rep = 0 ∨ x.count = 1 → u.cad.slots[i] = Slot.empty) ∧
      (x.rep ≠ 0 → x.count ≠ 1 → u.cad.slots[i].openEnd = none ∧ u.cad.slots[i].m = x.m + 1 ∧
        u.cad.slots[i].count = (if x.count = 0 then 0 else x.count - 1)) := by
  intro x
  have hgo : windowClose i s = slotAdvance i s := by
    unfold windowClose
    rw [he]
    exact if_pos hr
  have honly : ∀ f : Slot → Slot, OnlyChanges [.cad] s (modSlot i f s) := fun f =>
    ((modSlot_only (.refl [.cad, .own] s) (by decide) (by decide)).cad_alone rfl).only
  refine ⟨_, congrArg Host.Outcome.next hgo, ?_, fun hlast => ?_, fun hrep hcount => slotAdvance_next hrep hcount⟩
  · unfold slotAdvance
    dsimp only
    split
    · exact honly _
    · exact honly _
  · rw [slotAdvance_last hlast]
    exact clearSlot_slot i s

theorem windowOpen_event (hdue : slotDue i s = true) (hact : s.cad.slots[i].action = 0)
    (hnone : ∀ j : Fin 256, s.cad.slots[j].deferral = none) : ∃ u, exec (.windowOpen i) s = .next u ∧
      u.cad.slots[i] = { s.cad.slots[i] with openEnd := some (s.cad.slots[i].armed + s.cad.slots[i].duration.setWidth 64) } ∧
      ∀ j : Fin 256, j ≠ i → u.cad.slots[j] = s.cad.slots[j] := by
  obtain ⟨v, hv⟩ : ∃ v, v = modSlot i (fun x => { x with openEnd := some (x.armed + x.duration.setWidth 64) }) s :=
    ⟨_, rfl⟩
  have hquiet : ∀ j : Fin 256, v.cad.slots[j].deferral = none := fun j => by
    rw [hv]
    by_cases hj : j = i
    · rw [hj, modSlot_slot]
      exact hnone i
    · rw [modSlot_other hj]
      exact hnone j
  have hpresent : ∀ (w : Slot) (j : Fin 256), represents w j v = false := fun w j => by
    unfold represents
    simp only [hquiet j, Bool.and_false, Bool.false_and]
  have hfixed : forFin 256 (fun j t => if represents s.cad.slots[i] j t then represent j t else t) v = v := by
    have h : ∀ l : List (Fin 256),
        l.foldl (fun t j => if represents s.cad.slots[i] j t then represent j t else t) v = v := by
      intro l
      induction l with
      | nil => rfl
      | cons j l ih =>
        rw [List.foldl_cons, hpresent _ j, if_neg (by decide)]
        exact ih
    exact h _
  obtain ⟨u, hu, hslots⟩ : ∃ u, windowOpen i s = u ∧ u.cad.slots = v.cad.slots := by
    refine ⟨_, rfl, ?_⟩
    unfold windowOpen
    rw [hdue, hact, if_neg (by decide)]
    dsimp only
    rw [← hv, hfixed]
    refine Only.slots (ps := [.out, .evt, .own, .lines, .counters, .arb, .ocp]) (forFin_only _ _ (fun n t ht => ?_) (.refl _ v)) (by decide)
    split
    · exact tiaIssue_only ht (by decide) (by decide) (by decide) (by decide) (by decide) (by decide) (by decide)
    · exact ht
  refine ⟨u, congrArg Host.Outcome.next hu, ?_, fun j hj => ?_⟩
  · rw [slot_of_slots hslots i, hv, modSlot_slot]
  · rw [slot_of_slots hslots j, hv, modSlot_other hj]

/-! ### Domain entries -/

theorem cad_of_parts {s t : State} (hc : { t.cad with own := s.cad.own } = s.cad) (ho : t.cad.own = s.cad.own) : t.cad = s.cad := by
  rw [← ho] at hc
  exact hc

theorem relay_cad (t : Tree) (typ : Byte) (b : List Byte) (s : State) : (relay t typ b s).cad = s.cad := by
  have h : Only [.out] s (relay t typ b s) := relay_only (.refl _ s) (by decide)
  exact cad_of_parts (h.only .cad (by decide)) (h.only .own (by decide))

theorem putSlot_tags (i : Fin 256) (x : Slot) (s : State) : (putSlot i x s).cad.domTags = s.cad.domTags := rfl

theorem dropDefault_tags (s : State) : (dropDefault s).cad.domTags = s.cad.domTags := by
  unfold dropDefault
  split
  · rfl
  · rfl

theorem domInstall_tags (b : List Byte) (tag : Word) (s : State) : (domInstall b tag s).cad.domTags = s.cad.domTags := by
  simp only [domInstall]
  generalize (if earlier (occTime s _ 0) (now s) = true then slotFirst s _ else _) = y
  cases y with
  | none =>
    dsimp only [Option.elim]
    exact (raise_kept _ _ _).domTags (by decide)
  | some y =>
    dsimp only [Option.elim]
    split
    · exact (raise_kept _ _ _).domTags (by decide)
    · split
      · exact (dropDefault_tags _).trans (putSlot_tags _ _ _)
      · exact putSlot_tags _ _ _

theorem domEntry_event {t : Tree} {b : List Byte} (hup : linkUp s (upPort t) = true) (hst : standalone s = false)
    (hc : chanterOf s ≠ some t) (hnew : (s.cad.domTags.any fun e => e.1 == BitVec.ofNat 32 (leAt b 32 4)) = false) :
    ∃ u, exec (.domEntry t b (linkCrc 0x06 b)) s = .next u ∧
      u.cad.domTags = s.cad.domTags ++ [(BitVec.ofNat 32 (leAt b 32 4), t)] := by
  have hgo : received (upPort t) 0x06 b (linkCrc 0x06 b) (domEntry t b) s = relay t 0x06 b (domTake t b s) := by
    rw [received_good (linkAlive_of_up hup)]
    exact if_pos ⟨hup, by rw [hst]; rfl, hc⟩
  refine ⟨_, congrArg Host.Outcome.next hgo, ?_⟩
  rw [relay_cad]
  have hother : s.cad.domTags.contains (BitVec.ofNat 32 (leAt b 32 4), otherTree t) = false := by
    simp only [List.any_eq_false, beq_iff_eq] at hnew
    simp only [List.contains_eq_mem, decide_eq_false_iff_not]
    exact fun h => hnew _ h rfl
  unfold domTake
  dsimp only
  rw [hother, if_neg (by decide)]
  split
  · exact domInstall_tags _ _ _
  · rfl

/-- A slot of a cancelled entry is freed. -/
def freeTagged (tag : Word) (i : Fin 256) (s : State) : State :=
  if s.cad.slots[i].valid && s.cad.slots[i].dom && s.cad.slots[i].tag == tag then clearSlot i s else s

theorem freeTagged_eq (tag : Word) : freeTagged tag = fun i s =>
    if s.cad.slots[i].valid && s.cad.slots[i].dom && s.cad.slots[i].tag == tag then clearSlot i s else s := rfl

theorem domFree_slots (tag : Word) (s : State) : (domFree tag s).cad.slots = (forFin 256 (freeTagged tag) s).cad.slots := by
  simp only [domFree, modCad, freeTagged_eq]

theorem freeTagged_frees {tag : Word} {i : Fin 256}
    (h : (s.cad.slots[i].valid && s.cad.slots[i].dom && s.cad.slots[i].tag == tag) = true) :
    (forFin 256 (freeTagged tag) s).cad.slots[i].valid = false := by
  refine forFin_at (freeTagged tag) (fun u : State => u.cad.slots[i]) i (fun _ => True) (fun _ _ _ => trivial) (fun j u _ hj => ?_)
    (fun x y => (x.valid && x.dom && x.tag == tag) = true → y.valid = false) (fun u _ hu => ?_) s trivial h
  · unfold freeTagged
    split
    · exact modSlot_other hj.symm _ u
    · rfl
  · unfold freeTagged
    rw [if_pos hu]
    exact congrArg Slot.valid (clearSlot_slot i u)

theorem domCancel_event {t : Tree} {b : List Byte} (hup : linkUp s (upPort t) = true) (hst : standalone s = false)
    (hc : chanterOf s ≠ some t) : ∃ u, exec (.domCancelMessage t b (linkCrc 0x07 b)) s = .next u ∧
      ∀ i : Fin 256, (s.cad.slots[i].valid && s.cad.slots[i].dom && s.cad.slots[i].tag == BitVec.ofNat 32 (leAt b 0 4)) = true →
        u.cad.slots[i].valid = false := by
  have hgo : received (upPort t) 0x07 b (linkCrc 0x07 b) (domCancelMsg t b) s =
      relay t 0x07 b (domFree (BitVec.ofNat 32 (leAt b 0 4)) s) := by
    rw [received_good (linkAlive_of_up hup)]
    exact if_pos ⟨hup, by rw [hst]; rfl, hc⟩
  refine ⟨_, congrArg Host.Outcome.next hgo, fun i hi => ?_⟩
  rw [relay_cad, slot_of_slots (domFree_slots _ s) i]
  exact freeTagged_frees hi

end

/-- Settles O58, event by event: links, collections and joins, domain entries, windows and point actions. -/
theorem linksAndSlots : Obligations.LinksAndSlots := by
  intro s
  refine ⟨?interval, ?probe, ?echo, ?turn, ?delay, ?keep, ?lost, ?comma, ?abort, ?start, ?order, ?report, ?timeout, ?assign, ?joinReq,
    ?joinGrant, ?entry, ?cancel, ?windowOpen, ?windowClose, ?point, ?dropped⟩
  case interval => exact fun k hk hl => congrArg Host.Outcome.next (if_pos (by rw [hl]; simpa using hk))
  case probe => exact fun t h => probe_event t h
  case echo => exact fun k rt h => congrArg Host.Outcome.next (if_pos h)
  case turn => exact fun k b h rt hrt => probeTurn_event k b h rt hrt
  case delay => exact fun t b h => linkDelay_event t b h
  case keep => exact fun k h => keepAlive_event k h
  case lost => exact fun k h => linkLoss_events k h
  case comma => exact fun k hd hon => congrArg Host.Outcome.next (if_pos ⟨hd, hon⟩)
  case abort => exact fun k => rfl
  case start => exact fun t hc hb hd => enumerationStart_event hc hb hd
  case order => exact fun t b hc hup hd => enumOrder_event hc hup hd
  case report => exact fun k b hk hl r hr he hin hmore => enumReport_event hk hl hr he hin hmore
  case timeout => exact fun t r hr ha hw he _ => enumReportTimeout_event hr ha hw he
  case assign => exact fun t b hl r hr he hc ha hw => enumAssign_event hl hr he hc ha hw
  case joinReq => exact fun k b hk hup hc => joinReq_event hk hup hc
  case joinGrant => exact fun t b hl hv hi k hk hup => joinGrant_event hl hv hi hk hup
  case entry => exact fun t b hup hst hc hnew => domEntry_event hup hst hc hnew
  case cancel => exact fun t b hup hst hc => domCancel_event hup hst hc
  case windowOpen => exact fun i hdue hact hnone => windowOpen_event hdue hact hnone
  case windowClose => exact fun i e he hr => windowClose_event he hr
  case point =>
    exact fun i hdue hlower => ⟨fun hact hcmd => beatPulse_event hdue hlower hact hcmd,
      fun hact hfirm hrun => heldAction_event hdue hlower hact hfirm hrun⟩
  case dropped => exact fun i d hd hheld hbeats => deferralDropped_event hd hheld hbeats

end Sys2Proof.Machine
end

section
/-! SUPPORT. Beats: what a beat instant leaves of the cadence plane, and the beats of a chanter (R235 to R242, R262). -/

namespace Sys2Proof.Machine

open Sys2Proof

/-! ### What follows from a beat leaves the beat's own fields -/

/-- State, beat count, period and tree times stay. -/
structure CadKept (c d : Cad) : Prop where
  st : d.st = c.st
  beat : d.beat = c.beat
  period : d.period = c.period
  intervals : d.intervals = c.intervals
  follow : d.follow = c.follow
  treeA : d.treeA = c.treeA
  treeB : d.treeB = c.treeB

theorem CadKept.refl (c : Cad) : CadKept c c := ⟨rfl, rfl, rfl, rfl, rfl, rfl, rfl⟩

theorem CadKept.trans {c d e : Cad} (h : CadKept c d) (k : CadKept d e) : CadKept c e :=
  ⟨k.st.trans h.st, k.beat.trans h.beat, k.period.trans h.period, k.intervals.trans h.intervals, k.follow.trans h.follow,
    k.treeA.trans h.treeA, k.treeB.trans h.treeB⟩

/-- From s to t the beat's own fields stay, and what was latched stays latched. -/
structure BeatKept (s t : State) : Prop where
  cad : CadKept s.cad t.cad
  latches : LatchesStay s t

section
variable {s t u : State}

theorem BeatKept.refl (s : State) : BeatKept s s := ⟨.refl _, .refl s⟩

theorem BeatKept.trans (h : BeatKept s t) (k : BeatKept t u) : BeatKept s u := ⟨h.cad.trans k.cad, h.latches.trans k.latches⟩

theorem CadKept.of_only {ps : List Part} (h : Only ps s t) (hp : Part.cad ∉ ps) : CadKept s.cad t.cad :=
  have hc := h.only .cad hp
  ⟨(congrArg Cad.st hc :), (congrArg Cad.beat hc :), (congrArg Cad.period hc :), (congrArg Cad.intervals hc :), (congrArg Cad.follow hc :),
    (congrArg Cad.treeA hc :), (congrArg Cad.treeB hc :)⟩

theorem BeatKept.of_only {ps : List Part} (h : Only ps s t) (hp : Part.cad ∉ ps ∧ Part.evt ∉ ps) : BeatKept s t :=
  ⟨.of_only h hp.1, .of_only h hp.2⟩

theorem BeatKept.modCad {f : Cad → Cad} (h : CadKept s.cad (f s.cad)) : BeatKept s (modCad f s) := ⟨h, .of_evt rfl⟩

theorem BeatKept.either {a b : State} {c : Prop} [Decidable c] (ha : BeatKept s a) (hb : BeatKept s b) : BeatKept s (if c then a else b) := by
  split
  · exact ha
  · exact hb

end

theorem BeatKept.foldl {α : Type} {f : State → α → State} (h : ∀ s x, BeatKept s (f s x)) (l : List α) : ∀ s, BeatKept s (l.foldl f s) := by
  induction l with
  | nil => exact .refl
  | cons x l ih => exact fun s => (h s x).trans (ih (f s x))

theorem raise_beatKept (src : Nat) (p : Word) (s : State) : BeatKept s (raise src p s) :=
  ⟨.of_only (raise_kept src p s) (by decide), raise_latchesStay src p s⟩

theorem raiseLimited_beatKept (src inst : Nat) (p : Word) (s : State) : BeatKept s (raiseLimited src inst p s) :=
  ⟨.of_only (raiseLimited_kept src inst p s) (by decide), raiseLimited_latchesStay src inst p s⟩

theorem modSlot_beatKept (i : Fin 256) (f : Slot → Slot) (s : State) : BeatKept s (modSlot i f s) :=
  .modCad ⟨rfl, rfl, rfl, rfl, rfl, rfl, rfl⟩

theorem modMon_beatKept (k : Fin 2) (f : Mon → Mon) (s : State) : BeatKept s (modMon k f s) :=
  .of_only (modMon_only (.refl [.mon] s) (by decide)) (by decide)

/-! ### Windows skipped -/

theorem slotAdvance_beatKept (i : Fin 256) (s : State) : BeatKept s (slotAdvance i s) :=
  .either (modSlot_beatKept i _ s) (modSlot_beatKept i _ s)

theorem skipPoint_beatKept (i : Fin 256) (to_ : CTime) (s : State) : BeatKept s (skipPoint i to_ s) :=
  .either (modSlot_beatKept i _ s) (.refl s)

theorem skipOcc_beatKept (i : Fin 256) (to_ : CTime) (s : State) : BeatKept s (skipOcc i to_ s).1 := by
  unfold skipOcc
  dsimp only
  split
  · split
    · exact modSlot_beatKept i _ s
    · split
      · exact modSlot_beatKept i _ s
      · exact modSlot_beatKept i _ s
  · exact .refl s

theorem BeatKept.foldl_fst {α β : Type} {f : State × β → α → State × β} (h : ∀ a x, BeatKept a.1 (f a x).1) (l : List α) :
    ∀ a, BeatKept a.1 (l.foldl f a).1 := by
  induction l with
  | nil => exact fun a => .refl a.1
  | cons x l ih => exact fun a => (h a x).trans (ih (f a x))

theorem skipAll_beatKept (to_ : CTime) (s : State) : BeatKept s (skipAll to_ s).1 := by
  unfold skipAll
  refine BeatKept.foldl_fst (fun a i => ?_) _ (s, 0, none)
  exact ((BeatKept.either (slotAdvance_beatKept i a.1) (.refl a.1)).trans (skipPoint_beatKept i to_ _)).trans (skipOcc_beatKept i to_ _)

theorem skipNote_beatKept (n : Nat) (first : Option (Fin 256)) (s : State) : BeatKept s (skipNote n first s) := by
  unfold skipNote
  dsimp only
  split
  · refine .trans (t := modCad (fun c => { c with skip := satU 8 (c.skip + n), skipRaised := true }) s)
      (.modCad ⟨rfl, rfl, rfl, rfl, rfl, rfl, rfl⟩) (.either (.refl _) (raise_beatKept _ _ _))
  · exact .refl _

theorem skipWindows_beatKept (to_ : CTime) (s : State) : BeatKept s (skipWindows to_ s) :=
  .either (.refl s) ((skipAll_beatKept to_ s).trans (skipNote_beatKept _ _ _))

/-! ### Monitor converters at a beat -/

theorem monSkip_beatKept (k : Fin 2) (a b : Nat) (s : State) : BeatKept s (monSkip k a b s) :=
  .either ((modMon_beatKept k _ s).trans (raiseLimited_beatKept _ _ _ _)) (.refl s)

theorem monEarly_beatKept (k : Fin 2) (t to_ : CTime) (s : State) : BeatKept s (monEarly k t to_ s) :=
  .either (.refl s) (monSkip_beatKept k _ _ s)

theorem monRestart_beatKept (k : Fin 2) (s : State) : BeatKept s (monRestart k s) := by
  have hstop := modMon_beatKept k (fun m => { m with stop := none }) s
  unfold monRestart
  refine .either hstop ?_
  dsimp only
  generalize hm : modMon k _ (modMon k _ s) = m
  have hset : BeatKept s m := by
    rw [← hm]
    exact hstop.trans (modMon_beatKept k _ _)
  split
  · exact hset
  · exact hset.trans (monSkip_beatKept k _ _ m)

theorem monRateCheck_beatKept (k : Fin 2) (s : State) : BeatKept s (monRateCheck k s) :=
  .either ((modMon_beatKept k _ s).trans (raise_beatKept _ _ _)) (modMon_beatKept k _ s)

/-! ### Summaries -/

theorem tlmTrim_beatKept (s : State) : BeatKept s (tlmTrim s) := by
  unfold tlmTrim
  refine .either (.refl s) (.trans (t := { s with tlm := { s.tlm with recs := s.tlm.recs.drop (tlmExcess s.tlm.recs) } }) ?_
    (raise_beatKept _ _ _))
  exact ⟨.refl _, .of_evt rfl⟩

theorem tlmForm_beatKept (typ units : Nat) (more : Bool) (frag : Nat) (origin : BitVec 16) (time : CTime) (body : List Byte) (s : State) :
    BeatKept s (tlmForm typ units more frag origin time body s).1 := by
  unfold tlmForm
  dsimp only
  split
  · dsimp only
    exact raise_beatKept _ _ s
  · refine .trans ?_ (tlmTrim_beatKept _)
    exact .either ⟨.refl _, .of_evt rfl⟩ ⟨.refl _, .of_evt rfl⟩

theorem summaryJudge_beatKept (m : Summary) (s : State) : BeatKept s (summaryJudge m s) := by
  have hprev : BeatKept s (modCad (fun c => { c with sumPrev := m }) s) := .modCad ⟨rfl, rfl, rfl, rfl, rfl, rfl, rfl⟩
  unfold summaryJudge
  refine .either (hprev.trans ?_) hprev
  refine .trans (t := raise 0x1CD _ (modCad _ _)) (.trans ?_ (raise_beatKept _ _ _)) (tlmForm_beatKept _ _ _ _ _ _ _ _)
  exact .modCad ⟨rfl, rfl, rfl, rfl, rfl, rfl, rfl⟩

theorem chanterSummary_beatKept (s : State) : BeatKept s (chanterSummary s) := by
  unfold chanterSummary
  split
  · exact .refl s
  · refine .trans ?_ (summaryJudge_beatKept _ _)
    exact .modCad ⟨rfl, rfl, rfl, rfl, rfl, rfl, rfl⟩

theorem sendSummaries_beatKept (s : State) : BeatKept s (sendSummaries s) := by
  unfold sendSummaries
  have hposts : ∀ s : State, BeatKept s ([Tree.a, Tree.b].foldl (fun s t =>
      if linkUp s (upPort t) then post (upPort t) 0x81 (summaryBytes (mergedSummary s.cad.own.up s t)) s else s) s) := by
    refine BeatKept.foldl (fun s t => ?_) _
    exact .either ⟨.refl _, .of_evt rfl⟩ (.refl s)
  exact (hposts s).trans (.either (.modCad ⟨rfl, rfl, rfl, rfl, rfl, rfl, rfl⟩) (.refl _))

/-! ### Beat instants -/

theorem offsetTake_beatKept (s : State) : BeatKept s (offsetTake s) := by
  unfold offsetTake
  split
  · exact .modCad ⟨rfl, rfl, rfl, rfl, rfl, rfl, rfl⟩
  · exact .refl s

theorem atBeat_beatKept (s : State) : BeatKept s (atBeat s) := by
  unfold atBeat
  refine .trans ?rest ((monRateCheck_beatKept 0 _).trans (monRateCheck_beatKept 1 _))
  refine .trans ?sums (sendSummaries_beatKept _)
  refine .trans ?slots (chanterSummary_beatKept _)
  refine .trans ?_ (.modCad ⟨rfl, rfl, rfl, rfl, rfl, rfl, rfl⟩)
  have hcount : BeatKept s (countDev 0x80 1 (offsetTake (modCad (fun c => { c with cfg := reg s 0x4000, extraSent := false }) s))) :=
    .trans (.trans (.modCad ⟨rfl, rfl, rfl, rfl, rfl, rfl, rfl⟩) (offsetTake_beatKept _))
      (.of_only (countDev_only (.refl [.counters] _) (by decide)) (by decide))
  exact .either (hcount.trans ⟨.refl _, .of_evt rfl⟩) hcount

/-- A beat that begins: its number, and nothing else of the beat's own fields. -/
theorem openBeat_opened (num : BitVec 40) (past : Int) (step : Bool) (s : State) :
    CadKept { s.cad with beat := num } (openBeat num past step s).cad ∧ LatchesStay s (openBeat num past step s) := by
  unfold openBeat
  dsimp only
  generalize hw : (if (_ || step) = true then _ else _) = w
  have hskip : BeatKept s w := by
    rw [← hw]
    exact .either (.trans (.modCad ⟨rfl, rfl, rfl, rfl, rfl, rfl, rfl⟩) (skipWindows_beatKept _ _)) (.modCad ⟨rfl, rfl, rfl, rfl, rfl, rfl, rfl⟩)
  generalize he : monEarly 1 _ _ (monEarly 0 _ _ w) = e
  have hearly : BeatKept s e := by
    rw [← he]
    exact (hskip.trans (monEarly_beatKept _ _ _ _)).trans (monEarly_beatKept _ _ _ _)
  generalize hb : modCad _ e = b
  have hbeat : CadKept { s.cad with beat := num } b.cad ∧ LatchesStay s b := by
    rw [← hb]
    obtain ⟨hst, -, hper, hiv, hfol, ha, hbb⟩ := hearly.cad
    exact ⟨⟨hst, rfl, hper, hiv, hfol, ha, hbb⟩, hearly.latches.trans (.of_evt rfl)⟩
  have hrest : ∀ r, BeatKept b r → CadKept { s.cad with beat := num } (atBeat r).cad ∧ LatchesStay s (atBeat r) := fun r hr =>
    have hall := hr.trans (atBeat_beatKept r)
    ⟨hbeat.1.trans hall.cad, hbeat.2.trans hall.latches⟩
  exact hrest _ (.either ((monRestart_beatKept 0 b).trans (monRestart_beatKept 1 _)) (.refl b))

theorem beat_after (b : BitVec 40) : ¬ (b + 1 - b).toInt ≤ 0 := by
  have h : b + 1 - b = 1 := by rw [BitVec.add_comm, BitVec.add_sub_cancel]
  rw [h]
  decide

theorem startBeat_next (past : Int) (step : Bool) (s : State) : startBeat (s.cad.beat + 1) past step s = openBeat (s.cad.beat + 1) past step s :=
  if_neg (beat_after _)

theorem sendMarks_kept (t : Tree) (num : BitVec 40) (hold : Bool) (s : State) : BeatKept s (sendMarks t num hold s) :=
  .of_only (sendMarks_only (.refl [.free, .out] s) (by decide) (by decide)) (by decide)

/-- A chanter's beat is the next one. -/
theorem chanterBeat_next (t : Tree) (past : Nat) (step : Bool) (s : State) :
    CadKept { s.cad with beat := s.cad.beat + 1 } (chanterBeat t past step s).cad ∧ LatchesStay s (chanterBeat t past step s) := by
  unfold chanterBeat
  dsimp only
  rw [startBeat_next]
  obtain ⟨hcad, hlatch⟩ := openBeat_opened (s.cad.beat + 1) ((past : Int) + s.cad.slew) step s
  have hmarks := sendMarks_kept t (openBeat (s.cad.beat + 1) ((past : Int) + s.cad.slew) step s).cad.beat
    (decide (3 ≤ (openBeat (s.cad.beat + 1) ((past : Int) + s.cad.slew) step s).cad.st)) (openBeat (s.cad.beat + 1) ((past : Int) + s.cad.slew) step s)
  exact ⟨hcad.trans hmarks.cad, hlatch.trans hmarks.latches⟩

end Sys2Proof.Machine
end

section
/-! SUPPORT. Tree times and summaries: the events of marks and beats, and what they leave of the tree times (R244, R256 to R262, R273,
R274). -/

namespace Sys2Proof.Machine

open Sys2Proof

/-! ### The beats of a chanter -/

section
variable {s : State}

theorem setPeriod_period (p : Nat) (c : Cad) : (setPeriod p c).period = p := by
  unfold setPeriod
  dsimp only
  split
  · next h => exact h.symm
  · rfl

theorem setPeriod_kept (p : Nat) (c : Cad) : (setPeriod p c).st = c.st ∧ (setPeriod p c).beat = c.beat ∧
    (setPeriod p c).intervals = c.intervals ∧ (setPeriod p c).treeA = c.treeA ∧ (setPeriod p c).treeB = c.treeB := by
  unfold setPeriod
  dsimp only
  split
  · exact ⟨rfl, rfl, rfl, rfl, rfl⟩
  · exact ⟨rfl, rfl, rfl, rfl, rfl⟩

/-- An edge within the window is the next beat. -/
theorem beatInEdge_inWindow {t : Tree} {d : Nat} (hc : chanterOf s = some t) (href : s.refOk = true) (hst : s.cad.st = 2)
    (hvar : varBeat s = false) (hmin : 1250 ≤ ((d : Int) - beatinDly s - s.cad.slew).toNat) :
    let iv := ((d : Int) - beatinDly s - s.cad.slew).toNat;
    (if iv < s.cad.period then s.cad.period - iv else iv - s.cad.period) * beatTol s ≤ s.cad.period →
      ∃ u, exec (.beatInEdge d) s = .next u ∧ u.cad.beat = s.cad.beat + 1 ∧ u.cad.st = 2 ∧
        u.cad.intervals = (iv :: s.cad.intervals).take 4 ∧ u.cad.period = nextPeriod false ((iv :: s.cad.intervals).take 4) s.cad.period := by
  intro iv htol
  obtain ⟨v, hv⟩ : ∃ v, v = modCad (fun c => setPeriod (nextPeriod false ((iv :: s.cad.intervals).take 4) c.period)
    { c with intervals := (iv :: s.cad.intervals).take 4, edgeAge := 0, offEdges := none, slew := slewStep c.slew }) s := ⟨_, rfl⟩
  have hgo : beatInEdge d s = chanterBeat t (beatinDly s) false v := by
    unfold beatInEdge
    rw [hc]
    dsimp only
    rw [if_neg (by rw [href]; decide), if_neg (by rw [hst]; decide), if_neg (fun h => absurd h.2 (Nat.not_lt.2 hmin)),
      if_neg (by rw [hvar]; decide), if_pos htol, if_neg (c := s.cad.st = 4) (by rw [hst]; decide), ← hv, hst]
    rfl
  obtain ⟨hcad, -⟩ := chanterBeat_next t (beatinDly s) false v
  obtain ⟨hvst, hvbeat, hvint, -, -⟩ := setPeriod_kept (nextPeriod false ((iv :: s.cad.intervals).take 4) s.cad.period)
    { s.cad with intervals := (iv :: s.cad.intervals).take 4, edgeAge := 0, offEdges := none, slew := slewStep s.cad.slew }
  refine ⟨_, congrArg Host.Outcome.next hgo, ?_, ?_, ?_, ?_⟩
  · rw [hcad.beat, hv]
    exact congrArg (· + 1) hvbeat
  · rw [hcad.st, hv]
    exact hvst.trans hst
  · rw [hcad.intervals, hv]
    exact hvint
  · rw [hcad.period, hv]
    exact setPeriod_period _ _

theorem firstBeat_kept (num : BitVec 40) (past : Int) (s : State) : CadKept { s.cad with beat := num } (firstBeat num past s).cad := by
  have hset : CadKept { s.cad with beat := num } (modCad (fun c => { c with beat := num, elapsed := past.toNat, holdBack := (-past).toNat }) s).cad :=
    ⟨rfl, rfl, rfl, rfl, rfl, rfl, rfl⟩
  exact hset.trans (atBeat_beatKept _).cad

theorem beatInEdge_first {t : Tree} {d : Nat} (hc : chanterOf s = some t) (href : s.refOk = true) (hst : s.cad.st = 1)
    (hvar : varBeat s = true) : ∃ u, exec (.beatInEdge d) s = .next u ∧ u.cad.st = 2 ∧ u.cad.follow = t ∧
      u.cad.beat = if usable s (otherTree t) then (getTree s (otherTree t)).beat else 0 := by
  have hgo : beatInEdge d s = chanterFirst t s.cad.period s := by
    unfold beatInEdge
    rw [hc]
    dsimp only
    rw [if_neg (by rw [href]; decide), if_pos hst, if_pos hvar]
  refine ⟨_, congrArg Host.Outcome.next hgo, ?_⟩
  unfold chanterFirst
  dsimp only
  generalize hm : modCad _ s = m
  have hfirst := firstBeat_kept (if usable s (otherTree t) = true then (getTree s (otherTree t)).beat else 0) (beatinDly s : Nat) m
  generalize firstBeat _ _ m = f at hfirst
  have hmarks := (sendMarks_kept t f.cad.beat false f).cad
  have hall := hfirst.trans hmarks
  refine ⟨hall.st.trans ?_, hall.follow.trans ?_, hall.beat⟩
  · rw [← hm]
    rfl
  · rw [← hm]
    rfl

theorem holdNote_latchesStay (s : State) : LatchesStay s (holdNote s) := .of_evt rfl

theorem enterHoldover_entered {cause : Nat} (h : s.cad.st ≠ 4) : (enterHoldover cause s).cad.st = 4 ∧
    (enterHoldover cause s).cad.holdCause = some cause ∧ Latched 0x1C0 s (enterHoldover cause s) := by
  unfold enterHoldover
  rw [if_neg h]
  have hcad := (raise_kept 0x1C0 (pay1 cause) (holdNote (modCad (fun c => { c with st := 4, holdCause := some cause }) s))).only .cad (by decide)
  exact ⟨(congrArg Cad.st hcad :), (congrArg Cad.holdCause hcad :), Latched.stays (latched_raise (by decide) _ _)
    (.trans (t := modCad (fun c => { c with st := 4, holdCause := some cause }) s) (.of_evt (modCad_evt s)) (holdNote_latchesStay _)) (.refl _)⟩

theorem enterHoldover_beat (cause : Nat) (s : State) : (enterHoldover cause s).cad.beat = s.cad.beat ∧ (enterHoldover cause s).cad.st = 4 := by
  by_cases h : s.cad.st = 4
  · have he : enterHoldover cause s = s := if_pos h
    rw [he]
    exact ⟨rfl, h⟩
  · refine ⟨?_, (enterHoldover_entered h).1⟩
    unfold enterHoldover
    rw [if_neg h]
    exact (CadKept.of_only (raise_kept _ _ _) (by decide)).beat

theorem chanterOwnMark_event {t : Tree} (hc : chanterOf s = some t) (hst : s.cad.st ≠ 1) (hvar : varBeat s = false) :
    ∃ u, exec .chanterOwnMark s = .next u ∧ u.cad.beat = s.cad.beat + 1 ∧ u.cad.st = 4 ∧ (s.cad.st ≠ 4 → Latched 0x1C0 s u) := by
  obtain ⟨v, hv⟩ : ∃ v, v = modCad (fun c => { c with edgeAge := c.edgeAge + c.period, slew := 0 }) (enterHoldover 1 s) := ⟨_, rfl⟩
  have hgo : ownMark s = chanterBeat t (v.cad.elapsed - v.cad.period) false v := by
    unfold ownMark
    rw [hc]
    dsimp only
    rw [if_neg (by rw [hvar]; simpa using hst), hv]
  obtain ⟨hcad, hlatch⟩ := chanterBeat_next t (v.cad.elapsed - v.cad.period) false v
  obtain ⟨hbeat, hfour⟩ := enterHoldover_beat 1 s
  refine ⟨_, congrArg Host.Outcome.next hgo, ?_, ?_, fun h => ?_⟩
  · rw [hcad.beat, hv]
    exact congrArg (· + 1) hbeat
  · rw [hcad.st, hv]
    exact hfour
  · have hentered := (enterHoldover_entered (cause := 1) h).2.2
    exact Latched.stays hentered (.refl s) (.trans (t := v) (.of_evt (by rw [hv, modCad_evt])) hlatch)

theorem variableBeatHoldover_event {t : Tree} (hc : chanterOf s = some t) (hst : s.cad.st ≠ 1) (hfour : s.cad.st ≠ 4)
    (hvar : varBeat s = true) : ∃ u, exec .variableBeatHoldover s = .next u ∧ u.cad.st = 4 ∧ u.cad.holdCause = some 1 ∧ Latched 0x1C0 s u := by
  have hgo : variableHoldover s = enterHoldover 1 s := if_pos (by simp [hc, hst, hvar])
  exact ⟨_, congrArg Host.Outcome.next hgo, enterHoldover_entered hfour⟩

theorem freeBeat_event (hs : standalone s = true) (hrun : s.cad.started = true) :
    ∃ u, exec .freeBeat s = .next u ∧ u.cad.beat = s.cad.beat + 1 := by
  have hgo : freeBeat s = openBeat (s.cad.beat + 1) 0 false s := (if_pos (by rw [hs, hrun]; rfl)).trans (startBeat_next 0 false s)
  exact ⟨_, congrArg Host.Outcome.next hgo, (openBeat_opened _ _ _ s).1.beat⟩

theorem acquiringTimeout_event {t : Tree} (hc : chanterOf s = some t) (hst : s.cad.st = 1) (hwarn : s.cad.acqWarned = false) :
    ∃ u, exec .acquiringTimeout s = .next u ∧ u.cad.acqWarned = true ∧ u.cad.st = 1 ∧ Latched 0x1C0 s u := by
  have hgo : acquiringTimeout s = raise 0x1C0 (pay1 1) (modCad (fun c => { c with acqWarned := true }) s) :=
    if_pos (by simp [hc, hst, hwarn])
  have hcad := (raise_kept 0x1C0 (pay1 1) (modCad (fun c => { c with acqWarned := true }) s)).only .cad (by decide)
  exact ⟨_, congrArg Host.Outcome.next hgo, (congrArg Cad.acqWarned hcad :), (congrArg Cad.st hcad :).trans hst,
    Latched.stays (latched_raise (by decide) _ _) (.of_evt (modCad_evt s)) (.refl _)⟩

/-! ### Tree times stay -/

/-- Both tree times stay. -/
structure TreesStay (s t : State) : Prop where
  a : t.cad.treeA = s.cad.treeA
  b : t.cad.treeB = s.cad.treeB

theorem TreesStay.refl (s : State) : TreesStay s s := ⟨rfl, rfl⟩
theorem TreesStay.trans {s t u : State} (h : TreesStay s t) (k : TreesStay t u) : TreesStay s u := ⟨k.a.trans h.a, k.b.trans h.b⟩
theorem CadKept.trees {s t : State} (h : CadKept s.cad t.cad) : TreesStay s t := ⟨h.treeA, h.treeB⟩
theorem TreesStay.of_only {ps : List Part} {s t : State} (h : Only ps s t) (hp : Part.cad ∉ ps) : TreesStay s t := (CadKept.of_only h hp).trees
theorem TreesStay.of_cad {s t : State} (h : t.cad = s.cad) : TreesStay s t := ⟨by rw [h], by rw [h]⟩

theorem TreesStay.getTree {s u : State} (h : TreesStay s u) (t : Tree) : getTree u t = getTree s t := by
  cases t
  · exact h.a
  · exact h.b

theorem TreesStay.either {s a b : State} {c : Prop} [Decidable c] (ha : TreesStay s a) (hb : TreesStay s b) :
    TreesStay s (if c then a else b) := by
  split
  · exact ha
  · exact hb

theorem TreesStay.foldl {α : Type} {f : State → α → State} (h : ∀ s x, TreesStay s (f s x)) (l : List α) :
    ∀ s, TreesStay s (l.foldl f s) := by
  induction l with
  | nil => exact .refl
  | cons x l ih => exact fun s => (h s x).trans (ih (f s x))

theorem raise_trees (src : Nat) (p : Word) (s : State) : TreesStay s (raise src p s) := .of_only (raise_kept src p s) (by decide)

theorem enterHoldover_trees (cause : Nat) (s : State) : TreesStay s (enterHoldover cause s) :=
  .either (.refl s) (.trans (t := modCad (fun c => { c with st := 4, holdCause := some cause }) s) ⟨rfl, rfl⟩
    (.trans (t := holdNote (modCad (fun c => { c with st := 4, holdCause := some cause }) s)) ⟨rfl, rfl⟩ (raise_trees _ _ _)))

theorem inheritHoldover_trees (t : Tree) (s : State) : TreesStay s (inheritHoldover t s) := ⟨rfl, rfl⟩

theorem treeLost_trees (t : Tree) (cause : Option Nat) (s : State) : TreesStay s (treeLost t cause s) := by
  have horigin : TreesStay s (enterHoldover 0 (modCad (fun c => { c with switchTo := none }) s)) :=
    .trans (t := modCad (fun c => { c with switchTo := none }) s) ⟨rfl, rfl⟩ (enterHoldover_trees 0 _)
  have hheld := TreesStay.either (c := heldMarks s t ∨ heldMarks s (otherTree t)) (inheritHoldover_trees (heldTree s) s) horigin
  unfold treeLost
  exact .either (.refl s) (.either (.either ⟨rfl, rfl⟩ hheld) (.either (enterHoldover_trees 0 s) (.either hheld (.refl s))))

theorem leaveHoldover_trees (ofs : Int) (s : State) : TreesStay s (leaveHoldover ofs s) := by
  unfold leaveHoldover
  exact .trans (t := modCad (fun c => { c with st := 2, holdCause := none, slew := if ofs.natAbs ≤ 125 then -ofs else 0 }) s) ⟨rfl, rfl⟩
    (raise_trees _ _ _)

theorem openBeat_trees (num : BitVec 40) (past : Int) (step : Bool) (s : State) : TreesStay s (openBeat num past step s) :=
  ⟨(openBeat_opened num past step s).1.treeA, (openBeat_opened num past step s).1.treeB⟩

theorem alignBeat_trees (num : BitVec 40) (past : Int) (s : State) : TreesStay s (alignBeat num past s) := by
  have hset : ∀ (e : Nat) (w : State), TreesStay w (modCad (fun c => { c with elapsed := e, holdBack := 0 }) w) := fun e w => ⟨rfl, rfl⟩
  have hskip : ∀ (a b to_ : CTime), TreesStay s (skipWindows to_ (monEarly 1 a b (monEarly 0 a b s))) := fun a b to_ =>
    (((monEarly_beatKept 0 a b s).trans (monEarly_beatKept 1 a b _)).trans (skipWindows_beatKept to_ _)).cad.trees
  unfold alignBeat
  dsimp only
  split
  · exact ⟨rfl, rfl⟩
  · exact ((hskip _ _ _).trans (hset _ _)).trans ((monRestart_beatKept 0 _).trans (monRestart_beatKept 1 _)).cad.trees

theorem startBeat_trees (num : BitVec 40) (past : Int) (step : Bool) (s : State) : TreesStay s (startBeat num past step s) :=
  .either (alignBeat_trees num past s) (openBeat_trees num past step s)

theorem takeTree_trees (t : Tree) (s : State) : TreesStay s (takeTree t s) := by
  obtain ⟨-, -, -, ha, hb⟩ := setPeriod_kept (getTree s t).period
    { s.cad with follow := t, intervals := (getTree s t).intervals, domain := (getTree s t).domain, slew := slewStep s.cad.slew }
  exact ⟨ha, hb⟩

theorem followTree_trees (t : Tree) (step : Bool) (s : State) : TreesStay s (followTree t step s) :=
  (takeTree_trees t s).trans (startBeat_trees _ _ _ _)

theorem firstFollow_trees (t : Tree) (s : State) : TreesStay s (firstFollow t s) := by
  unfold firstFollow
  dsimp only
  generalize hh : (if (getTree s t).hold = true then _ else _) = h
  have hhold : TreesStay s h := by
    rw [← hh]
    exact .either (.trans (t := modCad (fun c => { c with st := 2, slew := 0 }) s) ⟨rfl, rfl⟩ (inheritHoldover_trees t _)) ⟨rfl, rfl⟩
  refine (hhold.trans (takeTree_trees t h)).trans ?_
  have hfirst := firstBeat_kept (getTree s t).beat (getTree s t).elapsed (takeTree t h)
  exact ⟨hfirst.treeA, hfirst.treeB⟩

/-- What a drone does at a mark leaves the tree times. -/
theorem droneMark_trees (t : Tree) (s : State) : TreesStay s (droneMark t s) := by
  have hfollow : ∀ (f : Cad → Cad) (step : Bool), (f s.cad).treeA = s.cad.treeA → (f s.cad).treeB = s.cad.treeB →
      TreesStay s (followTree t step (modCad f s)) := fun f step ha hb =>
    .trans (t := modCad f s) ⟨ha, hb⟩ (followTree_trees t step _)
  unfold droneMark
  refine .either ?acquiring (.either (.refl s) (.either ?switched (.either ?locked (.either ?usable (.either ?held (.refl s))))))
  case acquiring => exact .either (.refl s) (firstFollow_trees t s)
  case switched =>
    refine .trans ?_ (followTree_trees t false _)
    split
    · refine .trans (t := modCad _ s) ?_ (raise_trees _ _ _)
      exact ⟨rfl, rfl⟩
    · exact ⟨rfl, rfl⟩
  case locked =>
    refine .either (.either (hfollow _ false rfl rfl) ((followTree_trees t false s).trans (treeLost_trees t none _))) (.either ?_ ?_)
    · refine .either ?_ (.refl s)
      exact .either ((inheritHoldover_trees _ s).trans (followTree_trees t false _)) (inheritHoldover_trees _ s)
    · exact .either (hfollow _ false rfl rfl) (.either ⟨rfl, rfl⟩ (.refl s))
  case usable => exact (leaveHoldover_trees _ s).trans (followTree_trees t _ _)
  case held =>
    refine .trans (t := inheritHoldover s.cad.follow (modCad (fun c => { c with holdCause := none }) s)) ⟨rfl, rfl⟩ (followTree_trees t false _)

end

end Sys2Proof.Machine
end

section
/-! SUPPORT. A BEAT message with all that follows from it, and the events of beats, marks and summaries together (R244, R251, R257, R273,
R274). -/

namespace Sys2Proof.Machine

open Sys2Proof

/-! ### Enumeration leaves the tree times -/

section
variable {s : State}

theorem setRun_trees (t : Tree) (r : Option EnumRun) (s : State) : TreesStay s (setRun t r s) := by
  cases t
  · exact ⟨rfl, rfl⟩
  · exact ⟨rfl, rfl⟩

theorem setEpoch_trees (t : Tree) (e : Byte) (s : State) : TreesStay s (setEpoch t e s) := by
  cases t
  · exact ⟨rfl, rfl⟩
  · exact ⟨rfl, rfl⟩

theorem beginRun_trees (t : Tree) (epoch : Byte) (round : Nat) (dup : List Nat) (cmds : List Cmd) (ports : List (Fin 10))
    (join : Option (Fin 10)) (s : State) : TreesStay s (beginRun t epoch round dup cmds ports join s) := by
  obtain ⟨u, l, w, r, hb, hcad, -⟩ := beginRun_set t epoch round dup cmds ports join s
  have hu : TreesStay s u := ⟨(congrArg Cad.treeA hcad :), (congrArg Cad.treeB hcad :)⟩
  rw [hb]
  exact hu.trans (setRun_trees t _ u)

theorem joinNext_trees (t : Tree) (s : State) : TreesStay s (joinNext t s) := by
  unfold joinNext
  refine .either ?_ (.refl s)
  split
  · exact beginRun_trees _ _ _ _ _ _ _ s
  · exact .refl s

theorem setIndex_trees (t : Tree) (i : Option Nat) (s : State) : TreesStay s (setIndex t i s) := by
  have htree : TreesStay s (treeIndex t i s) := by
    cases t
    · exact ⟨rfl, rfl⟩
    · exact ⟨rfl, rfl⟩
  have htaken : TreesStay (treeIndex t i s) (indexTaken t i (treeIndex t i s)) := by
    unfold indexTaken
    split
    · exact ⟨rfl, rfl⟩
    · split
      · exact ⟨rfl, rfl⟩
      · exact ⟨rfl, rfl⟩
  obtain ⟨p, h | h⟩ := setIndex_taken t i s
  · rw [h]
    exact htree.trans htaken
  · rw [h]
    exact (htree.trans htaken).trans (raise_trees _ _ _)

theorem applyAssign_trees (t : Tree) (depth : Nat) (typ : Byte) (pre : List Byte) (epoch : Byte) (base map : List Nat) (s : State) :
    TreesStay s (applyAssign t depth typ pre epoch base map s) := by
  obtain ⟨i, hcad, -⟩ := applyAssign_cad t depth typ pre epoch base map s
  exact (setIndex_trees t i s).trans (.of_cad hcad)

theorem chanterFinish_trees (t : Tree) (r : EnumRun) (s : State) : TreesStay s (chanterFinish t r s) := by
  unfold chanterFinish
  refine .either ?again ?assign
  case again => exact .trans (.foldl (fun s i => raise_trees _ _ s) r.dup s) (beginRun_trees _ _ _ _ _ _ _ _)
  case assign =>
    refine .trans ?_ (joinNext_trees t _)
    refine .trans ?_ (setRun_trees t _ _)
    refine .trans ?_ (.foldl (fun s c => .of_only (done_only (.refl [.rings, .evt, .own, .counters] s) (by decide) (by decide) (by decide)
      (by decide)) (by decide)) r.cmds _)
    refine .trans ?_ (raise_trees _ _ _)
    generalize hx : (if 0 < _ - _ then _ else applyAssign _ _ _ _ _ _ _ s) = x
    have hassign : TreesStay s x := by
      rw [← hx]
      exact .either ((applyAssign_trees t 0 0x04 [] r.epoch _ r.map s).trans (raise_trees _ _ _)) (applyAssign_trees t 0 0x04 [] r.epoch _ r.map s)
    exact hassign.trans ⟨rfl, rfl⟩

theorem grantJoin_trees (via : Fin 10) (parent port : Nat) (epoch : Byte) (cnt map : List Nat) (s : State) :
    TreesStay s (grantJoin via parent port epoch cnt map s) := by
  obtain ⟨used, resv, h⟩ := grantJoin_cad via parent port epoch cnt map s
  exact ⟨(congrArg Cad.treeA h :), (congrArg Cad.treeB h :)⟩

theorem post_trees (k : Fin 10) (typ : Byte) (b : List Byte) (s : State) : TreesStay s (post k typ b s) := ⟨rfl, rfl⟩

theorem finishRun_trees (t : Tree) (s : State) : TreesStay s (finishRun t s) := by
  unfold finishRun
  split
  · exact .refl s
  · refine .either (.refl s) ?_
    split
    · refine .trans ?_ (joinNext_trees t _)
      refine .trans (setRun_trees t _ s) (.either (.refl _) (.either (grantJoin_trees _ _ _ _ _ _ _) (post_trees _ _ _ _)))
    · exact .either (chanterFinish_trees t _ s) (post_trees _ _ _ s)

theorem startEnum_trees (cmds : List Cmd) (s : State) : TreesStay s (startEnum cmds s) := by
  unfold startEnum
  split
  · exact .refl s
  · next t _ =>
    refine .trans ?_ (finishRun_trees t _)
    refine .trans ?_ (beginRun_trees _ _ _ _ _ _ _ _)
    exact (setEpoch_trees t (epochOf s t + 1) s).trans ⟨rfl, rfl⟩

/-! ### A BEAT message -/

theorem linkDown_trees {k : Fin 10} (hk : 2 ≤ k.val) (s : State) : TreesStay s (linkDown k s) := by
  unfold linkDown
  refine .either (.refl s) ?_
  refine .either ⟨rfl, rfl⟩ ?_
  rw [if_neg (by omega)]
  refine .trans ?_ (raise_trees _ _ _)
  exact ⟨rfl, rfl⟩

theorem downPorts_ge {t : Tree} {k : Fin 10} (h : k ∈ downPorts t) : 2 ≤ k.val := by
  cases t <;> revert k <;> decide

theorem getTree_modTree (t : Tree) (f : TreeTime → TreeTime) (s : State) : getTree (modTree t f s) t = f (getTree s t) := by
  cases t <;> rfl

theorem getTree_modTree_other (t : Tree) (f : TreeTime → TreeTime) (s : State) : getTree (modTree t f s) (otherTree t) = getTree s (otherTree t) := by
  cases t <;> rfl

theorem modLink_trees (k : Fin 10) (f : Link → Link) (s : State) : TreesStay s (modLink k f s) := ⟨rfl, rfl⟩

/-- The downstream ports of a node too deep to serve them. -/
theorem disabled_trees (l : List (Fin 10)) (hl : ∀ k ∈ l, 2 ≤ k.val) : ∀ s : State,
    TreesStay s (l.foldl (fun s k => modLink k (fun l => { l with st := .disabled }) (linkDown k s)) s) := by
  induction l with
  | nil => exact .refl
  | cons k l ih =>
    intro s
    exact ((linkDown_trees (hl k List.mem_cons_self) s).trans (modLink_trees k _ _)).trans (ih (fun j hj => hl j (List.mem_cons_of_mem k hj)) _)

/-- The tree time that a BEAT message brings stays through all that follows from it. -/
theorem beatMessage_tree {t : Tree} {b : List Byte} {m : Nat} (hm : (getTree s t).marked = some m) :
    let x := getTree (beatMessage t b s) t;
    x.beat = BitVec.ofNat 40 (leAt b 0 5) ∧ x.elapsed = m + (s.cad.links[upPort t].delay + leAt b 5 2) / 8 ∧ x.seen = true ∧
    x.marked = none ∧ x.hold = (byteAt b 7 % 2 == 1) ∧ x.var = (byteAt b 7 / 2 % 2 == 1) ∧ x.domain = BitVec.ofNat 32 (leAt b 8 4) := by
  intro x
  obtain ⟨y, f, hstay, hfields⟩ : ∃ y f, TreesStay (modLink (upPort t) f (modTree t (fun _ => y) s)) (beatMessage t b s) ∧
      y.beat = BitVec.ofNat 40 (leAt b 0 5) ∧ y.elapsed = m + (s.cad.links[upPort t].delay + leAt b 5 2) / 8 ∧ y.seen = true ∧
      y.marked = none ∧ y.hold = (byteAt b 7 % 2 == 1) ∧ y.var = (byteAt b 7 / 2 % 2 == 1) ∧ y.domain = BitVec.ofNat 32 (leAt b 8 4) := by
    unfold beatMessage
    rw [hm]
    dsimp only
    exact ⟨_, _, .trans (.trans (.either (disabled_trees _ (fun _ h => downPorts_ge h) _) (.refl _)) (sendMarks_kept _ _ _ _).cad.trees)
      (.either (.refl _) (droneMark_trees t _)), rfl, rfl, rfl, rfl, rfl, rfl, rfl⟩
  have hx : x = y := (hstay.getTree t).trans (((modLink_trees (upPort t) f _).getTree t).trans (getTree_modTree t _ s))
  rw [hx]
  exact hfields

theorem beat_event {t : Tree} {b : List Byte} (hup : linkUp s (upPort t) = true) {m : Nat} (hm : (getTree s t).marked = some m) :
    ∃ u, exec (.beat t b (linkCrc 0x01 b)) s = .next u ∧ let x := getTree u t;
      x.beat = BitVec.ofNat 40 (leAt b 0 5) ∧ x.elapsed = m + (s.cad.links[upPort t].delay + leAt b 5 2) / 8 ∧ x.seen = true ∧
      x.marked = none ∧ x.hold = bit (b.getD 7 0) 0 ∧ x.var = bit (b.getD 7 0) 1 ∧ x.domain = BitVec.ofNat 32 (leAt b 8 4) := by
  have hgo : received (upPort t) 0x01 b (linkCrc 0x01 b) (beatTake t b) s = beatTake t b s := received_good (linkAlive_of_up hup)
  have hrest : TreesStay (beatMessage t b s) (beatTake t b s) := by
    unfold beatTake
    exact .trans (.either (startEnum_trees [] _) (.refl _)) ((joinNext_trees .a _).trans (joinNext_trees .b _))
  obtain ⟨hbeat, helapsed, hseen, hmarked, hhold, hvar, hdomain⟩ := beatMessage_tree (b := b) hm
  refine ⟨_, congrArg Host.Outcome.next hgo, ?_⟩
  intro x
  have hx : x = getTree (beatMessage t b s) t := hrest.getTree t
  rw [hx]
  refine ⟨hbeat, helapsed, hseen, hmarked, hhold.trans ?_, hvar.trans ?_, hdomain⟩
  · simp [byteAt, bit, BitVec.getLsbD, Nat.testBit_eq_decide_div_mod_eq, beq_eq_decide]
  · simp [byteAt, bit, BitVec.getLsbD, Nat.testBit_eq_decide_div_mod_eq, beq_eq_decide]

/-! ### Marks, corrections, summaries -/

theorem mark_event {t : Tree} (hup : linkUp s (upPort t) = true) (hc : chanterOf s ≠ some t) (hs : standalone s = false) :
    exec (.mark t) s = .next (modTree t (fun x => { x with marked := some 0 }) s) := by
  refine congrArg Host.Outcome.next (if_pos ?_)
  rw [hup, hs]
  simpa using hc

theorem treeRoll_tree (t : Tree) (s : State) : (getTree (treeRoll t s) t).missing = (getTree s t).missing ∧
    (getTree (treeRoll t s) t).good = (getTree s t).good ∧ getTree (treeRoll t s) (otherTree t) = getTree s (otherTree t) := by
  unfold treeRoll
  dsimp only
  split
  · exact ⟨rfl, rfl, rfl⟩
  · rw [(sendMarks_kept _ _ _ _).cad.trees.getTree t, (sendMarks_kept _ _ _ _).cad.trees.getTree (otherTree t), getTree_modTree,
      getTree_modTree_other]
    exact ⟨rfl, rfl, rfl⟩

theorem markMissing_event {t : Tree} (hseen : (getTree s t).seen = true) (hvar : (getTree s t).var = false) (hc : chanterOf s ≠ some t) :
    ∃ u, exec (.markMissing t) s = .next u ∧ (getTree u t).missing = 3 ∧ (getTree u t).good = 0 ∧
      getTree u (otherTree t) = getTree s (otherTree t) := by
  have hgo : markMissing t s = treeLost t (some 1) (treeRoll t (modTree t (fun x => { x with missing := 3, good := 0 }) s)) :=
    if_neg (by rw [hseen, hvar]; simpa using hc)
  obtain ⟨hmissing, hgood, hother⟩ := treeRoll_tree t (modTree t (fun x => { x with missing := 3, good := 0 }) s)
  have hlost := treeLost_trees t (some 1) (treeRoll t (modTree t (fun x => { x with missing := 3, good := 0 }) s))
  refine ⟨_, congrArg Host.Outcome.next hgo, ?_, ?_, ?_⟩
  · rw [hlost.getTree t, hmissing, getTree_modTree]
  · rw [hlost.getTree t, hgood, getTree_modTree]
  · rw [hlost.getTree, hother, getTree_modTree_other]

theorem spreadCorrection_event {d : Int} (hst : s.cad.st ≠ 1) (hs : standalone s = false) :
    ∃ u, exec (.spreadCorrection d) s = .next u ∧ u.cad.elapsed = s.cad.elapsed + d.toNat ∧
      u.cad.holdBack = s.cad.holdBack + (-d).toNat ∧
      ∀ t, (getTree s t).seen = true → (getTree u t).elapsed = (((getTree s t).elapsed : Int) + d).toNat := by
  refine ⟨spreadCorrection d s, rfl, ?_⟩
  unfold spreadCorrection
  dsimp only
  rw [if_neg]
  · refine ⟨rfl, rfl, fun t ht => ?_⟩
    cases t
    · exact congrArg TreeTime.elapsed (if_pos ht)
    · exact congrArg TreeTime.elapsed (if_pos ht)
  · rintro (h | h)
    · exact hst h
    · have hno : standalone s = true := (Bool.and_eq_true_iff.1 h).1
      rw [hs] at hno
      cases hno

theorem summary_event {k : Fin 10} {b : List Byte} (hk : 2 ≤ k.val) (hup : linkUp s k = true) :
    let v := modLink k (fun l => { l with child := some (summaryOf b), lostDev := 0 }) s;
    (chanterOf s ≠ some (linkTree k) → exec (.summary k b (linkCrc 0x81 b)) s = .next v) ∧
    (chanterOf s = some (linkTree k) →
      exec (.summary k b (linkCrc 0x81 b)) s = .next (summaryJudge (mergedSummary s.cad.own.root v (linkTree k)) v)) := by
  intro v
  have hgo : received k 0x81 b (linkCrc 0x81 b) (summaryArrives k b) s =
      if chanterOf v = some (linkTree k) then summaryJudge (mergedSummary v.cad.own.root v (linkTree k)) v else v := by
    rw [received_good (linkAlive_of_up hup)]
    refine if_neg (not_or.2 ⟨by omega, ?_⟩)
    rw [hup]
    decide
  exact ⟨fun h => congrArg Host.Outcome.next (hgo.trans (if_neg h)), fun h => congrArg Host.Outcome.next (hgo.trans (if_pos h))⟩

theorem extraSummary_event (hfault : s.cad.own.up.fault ≠ 0) (hsent : s.cad.extraSent = false) :
    ∃ u, exec .extraSummary s = .next u ∧ u.cad.extraSent = true ∧ u.cad.own =
      (if linkUp s (upPort .a) = true ∨ linkUp s (upPort .b) = true then { s.cad.own with up := Summary.zero } else s.cad.own) := by
  have hgo : extraSummary s = modCad (fun c => { c with extraSent := true }) (sendSummaries s) := by
    refine if_neg (not_or.2 ⟨hfault, ?_⟩)
    rw [hsent]
    decide
  refine ⟨_, congrArg Host.Outcome.next hgo, rfl, ?_⟩
  have hposts : ∀ (l : List Tree) (s : State), (l.foldl (fun s t =>
      if linkUp s (upPort t) then post (upPort t) 0x81 (summaryBytes (mergedSummary s.cad.own.up s t)) s else s) s).cad = s.cad := by
    intro l
    induction l with
    | nil => exact fun _ => rfl
    | cons t l ih =>
      intro s
      rw [List.foldl_cons, ih]
      split
      · rfl
      · rfl
  unfold sendSummaries
  generalize hp : List.foldl _ s _ = p
  have hpost : p.cad = s.cad := by
    rw [← hp]
    exact hposts _ s
  have hup : ∀ k, linkUp p k = linkUp s k := fun k => by
    unfold linkUp
    rw [hpost]
  dsimp only
  rw [hup, hup]
  simp only [Bool.or_eq_true]
  split
  · simp only [modCad, hpost]
  · simp only [modCad, hpost]

end

/-- Settles O57, event by event: the beats of chanters and standalone devices, marks and BEAT messages, corrections and summaries. -/
theorem beatsAndTreeTimes : Obligations.BeatsAndTreeTimes := by
  intro s
  refine ⟨?edge, ?first, ?own, ?var, ?free, ?acquiring, ?mark, ?beat, ?missing, ?spread, ?summary, ?extra⟩
  case edge => exact fun t d hc href hst hvar hmin htol => beatInEdge_inWindow hc href hst hvar hmin htol
  case first => exact fun t d hc href hst hvar => beatInEdge_first hc href hst hvar
  case own => exact fun t hc hst hvar => chanterOwnMark_event hc hst hvar
  case var => exact fun t hc hst hfour hvar => variableBeatHoldover_event hc hst hfour hvar
  case free => exact fun hs hrun => freeBeat_event hs hrun
  case acquiring => exact fun t hc hst hwarn => acquiringTimeout_event hc hst hwarn
  case mark => exact fun t hup hc hs => mark_event hup hc hs
  case beat => exact fun t b hup m hm => beat_event hup hm
  case missing => exact fun t hseen hvar hc => markMissing_event hseen hvar hc
  case spread => exact fun d hst hs => spreadCorrection_event hst hs
  case summary => exact fun k b hk hup => summary_event hk hup
  case extra => exact fun hfault hsent => extraSummary_event hfault hsent

end Sys2Proof.Machine
end

section
/-! SUPPORT. What operations leave of a line lane or of a port; the transmit framer (R68, R179). -/

namespace Sys2Proof.Machine

open Sys2Proof

/-! ### A view of one line lane -/

/-- What φ shows of line lane n is the same in t as in s. -/
def SameLine {α : Type} (n : Fin 8) (φ : Line → α) (s t : State) : Prop := φ t.lines[n] = φ s.lines[n]

section
variable {α β : Type} {n : Fin 8} {φ : Line → α} {s t u : State}

theorem SameLine.refl (s : State) : SameLine n φ s s := rfl

theorem SameLine.trans (h : SameLine n φ s t) (k : SameLine n φ t u) : SameLine n φ s u := Eq.trans k h

theorem SameLine.either {c : Prop} [Decidable c] (h : SameLine n φ s t) (k : SameLine n φ s u) :
    SameLine n φ s (if c then t else u) := by
  split
  · exact h
  · exact k

theorem SameLine.of_lines (e : t.lines = s.lines) : SameLine n φ s t := congrArg φ (line_of_lines e n)

theorem SameLine.of_only {ps : List Part} (k : Only ps s t) (w : Part.lines ∉ ps) : SameLine n φ s t := .of_lines (k.only .lines w)

theorem SameLine.modLine {f : Line → Line} (h : ∀ l, φ (f l) = φ l) (s : State) : SameLine n φ s (modLine n f s) :=
  (congrArg φ (upd_get_self s.lines n f)).trans (h _)

theorem SameLine.modFr {f : LineFrame → LineFrame} (h : ∀ l : Line, φ { l with fr := f l.fr } = φ l) (s : State) :
    SameLine n φ s (modFr n f s) := .modLine h s

theorem SameLine.modTx {f : LineTx → LineTx} (h : ∀ l : Line, φ { l with tx := f l.tx } = φ l) (s : State) :
    SameLine n φ s (modTx n f s) := .modLine h s

theorem SameLine.modRx {f : LineRx → LineRx} (h : ∀ l : Line, φ { l with rx := f l.rx } = φ l) (s : State) :
    SameLine n φ s (modRx n f s) := .modLine h s

theorem SameLine.modEq {f : LineEq → LineEq} (h : ∀ l : Line, φ { l with eq := f l.eq } = φ l) (s : State) :
    SameLine n φ s (modEq n f s) := .modLine h s

theorem SameLine.modLine_ne {m : Fin 8} (h : n ≠ m) (f : Line → Line) (s : State) : SameLine n φ s (Machine.modLine m f s) :=
  congrArg φ (upd_get_ne s.lines f h)

theorem SameLine.foldl {f : State → β → State} (h : ∀ s x, SameLine n φ s (f s x)) (l : List β) :
    ∀ s, SameLine n φ s (l.foldl f s) := by
  induction l with
  | nil => exact SameLine.refl
  | cons x l ih => exact fun s => (h s x).trans (ih _)

end

/-! ### The frame count and the instant of the frame that began (R179) -/

/-- The count of the next frame, and when the present one began. -/
def Line.frameBegun (l : Line) : BitVec 16 × Option Nat := (l.fr.txFc, l.tx.sentAt)

section
variable {n p : Fin 8}

theorem dacSilent_begun (n : Fin 8) (s : State) : SameLine n Line.frameBegun s (dacSilent n s) := .modTx (fun _ => rfl) s

theorem dacSend_begun (n : Fin 8) (syms : List (Fin 4)) (s : State) : SameLine n Line.frameBegun s (dacSend n syms s) := by
  unfold dacSend
  dsimp only
  refine .trans (.trans (.of_only (dacCodes_only (.refl [.free] s) (by decide)) (by decide)) (.modTx (fun _ => rfl) _))
    (.of_lines ((emit_lines _).trans (countLine_lines _)))

theorem sendNext_begun (n : Fin 8) (s : State) : SameLine n Line.frameBegun s (sendNext n s) := by
  refine .modFr (fun l => ?_) s
  split
  · rfl
  · rfl

theorem scNext_begun (n : Fin 8) (s : State) : SameLine n Line.frameBegun s (scNext n s).2 := by
  unfold scNext
  dsimp only
  split
  · exact .modFr (fun _ => rfl) s
  · split
    · split
      · exact .modFr (fun _ => rfl) s
      · exact .modFr (fun _ => rfl) s
    · exact .modFr (fun _ => rfl) s

theorem fillPos_begun (n : Fin 8) (b count : Nat) (s : State) : SameLine n Line.frameBegun s (fillPos n b count s).2 := by
  unfold fillPos
  dsimp only
  split
  · exact .modTx (fun _ => rfl) s
  · exact .trans (.of_only (draw_only (.refl [.free] s) (by decide)) (by decide)) (.modTx (fun _ => rfl) _)

theorem setLineData_begun (n : Fin 8) (h : Fin 16) (l : List (Fin 4)) (s : State) : SameLine n Line.frameBegun s (setLineData h l s) :=
  .of_only (setLineData_only (.refl [.hosts] s) (by decide)) (by decide)

theorem takeBlocks_begun (n : Fin 8) (k : Nat) (l : List (Fin 4)) (s : State) : SameLine n Line.frameBegun s (takeBlocks k l s).2.2 :=
  .of_only (takeBlocks_only (.refl [.free] s) (by decide)) (by decide)

theorem posBlocks_begun (n p : Fin 8) (b count : Nat) (s : State) : SameLine n Line.frameBegun s (posBlocks n p b count s).2 := by
  unfold posBlocks
  dsimp only
  split
  · exact (fillPos_begun n b count s).trans (.either (setLineData_begun n _ _ _) (.refl _))
  · refine .trans (.trans (.trans ?judged (takeBlocks_begun n _ _ _)) (.modTx (fun _ => rfl) _)) (setLineData_begun n _ _ _)
    exact .either (.of_only (farJudge_only (.refl [.free, .evt, .own, .hosts, .counters] s) (by decide) (by decide) (by decide)
      (by decide) (by decide)) (by decide)) (.refl s)

theorem frameBlocks_begun (n p : Fin 8) (count : Nat) (s : State) : SameLine n Line.frameBegun s (frameBlocks n p count s).2 :=
  (posBlocks_begun n p 0 _ s).trans (posBlocks_begun n p 1 _ _)

theorem countFill_begun (n : Fin 8) (count : Nat) (s : State) : SameLine n Line.frameBegun s (countFill n count s) :=
  .of_only (countFill_only (.refl [.counters] s) (by decide)) (by decide)

theorem countLine_same {α : Type} {φ : Line → α} (m : Fin 8) (sel k : Nat) (s : State) : SameLine n φ s (countLine m sel k s) :=
  .of_lines (countLine_lines s)

theorem latRefresh_same {α : Type} {φ : Line → α} (p : Fin 8) (s : State) : SameLine n φ s (latRefresh p s) := .of_lines rfl

theorem frameSend_begun (n p : Fin 8) (fc : BitVec 16) (s : State) : SameLine n Line.frameBegun s (frameSend n p fc s) := by
  unfold frameSend
  dsimp only
  refine .trans (.trans (.trans (.trans ?counted (countFill_begun n _ _)) (frameBlocks_begun n p _ _)) (.of_lines (emit_lines _)))
    (dacSend_begun n _ _)
  refine .trans ?sent (.either (.refl _) (countLine_same n _ _ _))
  refine .trans (.trans (.trans ?marked (sendNext_begun n _)) (scNext_begun n _)) (countLine_same n _ _ _)
  exact .either (.modFr (fun _ => rfl) s) (.refl s)

theorem plainSend_begun (n p : Fin 8) (s : State) : SameLine n Line.frameBegun s (plainSend n p s) := by
  unfold plainSend
  refine .either ((dacSilent_begun n s).trans (setLineData_begun n _ _ _)) ?_
  exact .trans (takeBlocks_begun n _ _ s) (.trans (setLineData_begun n _ _ _) (.trans (.modTx (fun _ => rfl) _) (dacSend_begun n _ _)))

theorem frameOut_begun (n p : Fin 8) (fc : BitVec 16) (s : State) : SameLine n Line.frameBegun s (frameOut n p fc s) :=
  .either (dacSilent_begun n s) (.either (plainSend_begun n p s) (frameSend_begun n p fc s))

theorem farOlder_begun (n : Fin 8) (s : State) : SameLine n Line.frameBegun s (farOlder n s) := .modFr (fun _ => rfl) s

/-- A frame that begins sets the count of the next one and its own instant. -/
theorem frameStart_begun {s : State} (hport : portOfLine (modeOf s) n = some p) (href : s.refOk = true) (hdue : frameDue s n = true) :
    (frameStart n s).lines[n].frameBegun = (frameCount s n + 1, some s.clk) := by
  unfold frameStart
  rw [hport]
  dsimp only
  rw [if_neg (by rw [href]; decide), if_neg (by rw [hdue]; decide)]
  have hset : (modTx n (fun x => { x with sentAt := some s.clk }) (modFr n (fun f => { f with txFc := frameCount s n + 1 }) s)).lines[n].frameBegun
      = (frameCount s n + 1, some s.clk) := by
    rw [modTx_line]
    exact congrArg (fun l : Line => (l.fr.txFc, some s.clk)) (upd_get_self s.lines n _)
  generalize modTx n (fun x => { x with sentAt := some s.clk }) (modFr n (fun f => { f with txFc := frameCount s n + 1 }) s) = u at hset ⊢
  have hout : SameLine n Line.frameBegun u (frameOut n p (frameCount s n) u) := frameOut_begun n p _ u
  exact Eq.trans (hout.trans ((SameLine.either (.refl _) (farOlder_begun n _)).trans (latRefresh_same p _))) hset

end

end Sys2Proof.Machine
end

section
/-! SUPPORT. A received frame header (R98, R181, R184, R205). -/

namespace Sys2Proof.Machine

open Sys2Proof

/-- What a lane keeps of the headers that it has received. -/
structure HeaderNotes where
  skew : Nat
  rxCw : Nat
  rxId : Word
  idValid : Bool
  hchkErr : Nat
  scErr : Nat

def Line.headerNotes (l : Line) : HeaderNotes :=
  { skew := l.fr.skew, rxCw := l.fr.rxCw, rxId := l.fr.rxId, idValid := l.fr.idValid, hchkErr := l.fr.hchkErr, scErr := l.fr.scErr }

theorem SameLine.of_step {α : Type} {n : Fin 8} {φ : Line → α} {s t : State} {l : Line} (h : LineStep n s t l)
    (e : φ l = φ s.lines[n]) : SameLine n φ s t := (congrArg φ h.line).trans e

section
variable {n p : Fin 8}

theorem frameCheck_notes (n : Fin 8) (s : State) : SameLine n Line.headerNotes s (frameCheck n s) := by
  refine .either ?_ (.refl s)
  obtain ⟨⟨d, e, x, hup⟩, -⟩ := enterUp_step n s
  exact .of_step hup rfl

theorem loseLock_notes (n : Fin 8) (cause : Nat) (s : State) : SameLine n Line.headerNotes s (loseLock n cause s) := by
  refine .either ?_ (.refl s)
  have hraise := (LineStep.refl n s).raise (lineSrc n 0x00) (pay1 cause)
  obtain ⟨q, hout⟩ := outageStart_step n (raise (lineSrc n 0x00) (pay1 cause) s)
  obtain ⟨v, hre⟩ := enterRelock_step n (outageStart n (raise (lineSrc n 0x00) (pay1 cause) s))
  refine .trans (.of_step hraise rfl) (.trans (.of_step hout rfl) (.of_step hre ?_))
  unfold Line.relocked Line.restored
  split
  · rfl
  · rfl

theorem syncStep_notes (n : Fin 8) (hdr : BitVec 200) (s : State) : SameLine n Line.headerNotes s (syncStep n hdr s) :=
  .trans (.modRx (fun _ => rfl) s) (.either (.trans (.modRx (fun _ => rfl) _) (frameCheck_notes n _))
    (.either (.trans (.modRx (fun _ => rfl) _) (loseLock_notes n 0 _)) (.refl _)))

theorem raise_same {α : Type} {φ : Line → α} (src : Nat) (w : Word) (s : State) : SameLine n φ s (raise src w s) :=
  .of_lines (raise_lines s)

theorem countPort_same {α : Type} {φ : Line → α} (q : Fin 8) (sel k : Nat) (s : State) : SameLine n φ s (countPort q sel k s) :=
  .of_lines (countPort_lines s)

theorem modPort_same {α : Type} {φ : Line → α} (q : Fin 8) (f : Port → Port) (s : State) : SameLine n φ s (modPort q f s) :=
  .of_lines (modPort_lines s)

theorem idJudge_notes (p n : Fin 8) (s : State) : SameLine n Line.headerNotes s (idJudge p n s) := by
  unfold idJudge
  dsimp only
  have hmarks : ∀ l : List (Fin 8), SameLine n Line.headerNotes s
      (l.foldl (fun t k => modFr k (fun f => { f with idMismatch := idBad s p k }) t) s) := fun l =>
    .foldl (fun t k => by
      by_cases h : n = k
      · subst h; exact .modFr (fun _ => rfl) t
      · exact .modLine_ne h _ t) l s
  refine .trans (.trans (hmarks _) (modPort_same p _ _)) (.either (.trans (countPort_same p _ _ _) (raise_same _ _ _)) (.refl _))

theorem deskewJudge_notes (p : Fin 8) (s : State) : SameLine n Line.headerNotes s (deskewJudge p s) :=
  .trans (modPort_same p _ s) (.either (.trans (countPort_same p _ _ _) (raise_same _ _ _)) (.refl _))

theorem trnFrameSeen_notes (n : Fin 8) (fc : BitVec 16) (s : State) : SameLine n Line.headerNotes s (trnFrameSeen n fc s) :=
  .modTx (fun _ => rfl) s

theorem scQueue_notes (n : Fin 8) (m : BitVec 64) (s : State) : SameLine n Line.headerNotes s (scQueue n m s) :=
  .modFr (fun _ => rfl) s

theorem modFr_line (n : Fin 8) (f : LineFrame → LineFrame) (s : State) :
    (modFr n f s).lines[n] = { s.lines[n] with fr := f s.lines[n].fr } := upd_get_self _ _ _

/-- A good header check: the identity is taken. -/
theorem hdrTake_notes (n p : Fin 8) (hdr : BitVec 200) (s : State) : (hdrTake n p hdr s).lines[n].headerNotes =
    { s.lines[n].headerNotes with rxId := BitVec.ofNat 32 (bits hdr 104 32), idValid := true } := by
  have htaken : (modFr n (fun f =>
      { f with rxId := BitVec.ofNat 32 (bits hdr 104 32), rxFc := BitVec.ofNat 16 (bits hdr 88 16), idValid := true }) s).lines[n].headerNotes =
      { s.lines[n].headerNotes with rxId := BitVec.ofNat 32 (bits hdr 104 32), idValid := true } := by rw [modFr_line]; rfl
  refine Eq.trans ?_ htaken
  exact SameLine.trans (.either (scQueue_notes n _ _) (.refl _)) (.trans (trnFrameSeen_notes n _ _) (idJudge_notes p n _))

/-- A bad header check counts, and nothing of the header is taken. -/
theorem hchkFailed_notes (n : Fin 8) (s : State) :
    (countLine n 0x23 1 (modFr n (fun f => { f with hchkErr := satU 16 (f.hchkErr + 1), hchkInt := f.hchkInt + 1 }) s)).lines[n].headerNotes =
    { s.lines[n].headerNotes with hchkErr := satU 16 (s.lines[n].fr.hchkErr + 1) } := by
  refine Eq.trans (countLine_same n _ _ _) ?_
  rw [modFr_line]
  rfl

theorem scFailed_notes (n : Fin 8) (s : State) :
    (countLine n 0x24 1 (modFr n (fun f => { f with scErr := satU 16 (f.scErr + 1), scInt := f.scInt + 1 }) s)).lines[n].headerNotes =
    { s.lines[n].headerNotes with scErr := satU 16 (s.lines[n].fr.scErr + 1) } := by
  refine Eq.trans (countLine_same n _ _ _) ?_
  rw [modFr_line]
  rfl

/-- The checks of a header, on what the lane keeps. -/
def HeaderNotes.judged (hdr : BitVec 200) (k : HeaderNotes) : HeaderNotes :=
  if crc8 (beBytes 4 (bits hdr 104 32) ++ beBytes 2 (bits hdr 88 16)) = bits hdr 80 8 then
    { k with rxId := BitVec.ofNat 32 (bits hdr 104 32), idValid := true }
  else { k with hchkErr := satU 16 (k.hchkErr + 1) }

def HeaderNotes.side (hdr : BitVec 200) (k : HeaderNotes) : HeaderNotes :=
  if crc16 (beBytes 2 (bits hdr 88 16) ++ beBytes 8 (bits hdr 16 64)) = bits hdr 0 16 then k
  else { k with scErr := satU 16 (k.scErr + 1) }

theorem frameHeader_notes {s : State} (hport : portOfLine (modeOf s) n = some p) (hrx : rxFraming s n = true) (hdr : BitVec 200)
    (skew : Nat) : (frameHeader n hdr skew s).lines[n].headerNotes =
      (({ s.lines[n].headerNotes with skew := satU 8 skew, rxCw := 0 } : HeaderNotes).judged hdr).side hdr := by
  unfold frameHeader
  rw [hport]
  dsimp only
  rw [if_neg (by rw [hrx]; decide)]
  have hsync := syncStep_notes n hdr s
  generalize syncStep n hdr s = u at hsync ⊢
  generalize (if u.lines[n].rx.inFrame = true then u.lines[n].fr.soft.drop (if lineCode u n = 1 then 144 else 136) else []) = soft
  have hset : (modFr n (fun f => { f with skew := satU 8 skew, rxCw := 0, soft := soft }) u).lines[n].headerNotes =
      { s.lines[n].headerNotes with skew := satU 8 skew, rxCw := 0 } := by
    rw [modFr_line]
    exact congrArg (fun k : HeaderNotes => { k with skew := satU 8 skew, rxCw := 0 }) hsync
  generalize modFr n (fun f => { f with skew := satU 8 skew, rxCw := 0, soft := soft }) u = v at hset ⊢
  have hcount : SameLine n Line.headerNotes v (if (v.lines[n].rx.inFrame && lineDecodes v n) = true then countLine n 0x25 1 v else v) :=
    .either (countLine_same n _ _ _) (.refl _)
  generalize (if (v.lines[n].rx.inFrame && lineDecodes v n) = true then countLine n 0x25 1 v else v) = w at hcount ⊢
  have hw : w.lines[n].headerNotes = { s.lines[n].headerNotes with skew := satU 8 skew, rxCw := 0 } := Eq.trans hcount hset
  refine Eq.trans (deskewJudge_notes p _) ?_
  have hjudged : (if crc8 (beBytes 4 (bits hdr 104 32) ++ beBytes 2 (bits hdr 88 16)) = bits hdr 80 8 then hdrTake n p hdr w
      else countLine n 0x23 1 (modFr n (fun f => { f with hchkErr := satU 16 (f.hchkErr + 1), hchkInt := f.hchkInt + 1 }) w)).lines[n].headerNotes =
      HeaderNotes.judged hdr w.lines[n].headerNotes := by
    unfold HeaderNotes.judged
    split
    · exact hdrTake_notes n p hdr w
    · exact hchkFailed_notes n w
  rw [← hw, ← hjudged]
  unfold HeaderNotes.side
  split
  · rfl
  · exact scFailed_notes n _

end

end Sys2Proof.Machine
end

section
/-! SUPPORT. Inner codewords (R107, R117, R189, R190). -/

namespace Sys2Proof.Machine

open Sys2Proof

section
variable {n : Fin 8}

/-- An output put out before operations that only add outputs is among the new ones. -/
theorem emitted_mem {o : Out} {s u t : State} (h : u.out = s.out) (k : Keeps (emit o u) t) : o ∈ t.out.drop s.out.length := by
  obtain ⟨l, hl⟩ := k.out
  have hout : t.out = s.out ++ (o :: l) := by rw [hl, show (emit o u).out = u.out ++ [o] from rfl, h, List.append_assoc]; rfl
  rw [hout, List.drop_left]
  exact List.mem_cons_self

theorem dataForward_fr (n : Fin 8) (data : List Bool) (s : State) :
    (dataForward n data s).lines[n].fr = { s.lines[n].fr with rxCw := s.lines[n].fr.rxCw + 1 } := by
  have hone : (modFr n (fun f => { f with rxCw := f.rxCw + 1 }) s).lines[n].fr = { s.lines[n].fr with rxCw := s.lines[n].fr.rxCw + 1 } := by
    rw [modFr_line]
  unfold dataForward
  dsimp only
  generalize modFr n (fun f => { f with rxCw := f.rxCw + 1 }) s = u at hone ⊢
  split
  · exact hone
  · refine Eq.trans (SameLine.either (φ := Line.fr) (.refl u) (.either (.of_lines (modPort_lines u)) ?_)) hone
    exact .of_only (hostDeliver_only (.refl [.free, .out, .hosts] u) (by decide) (by decide) (by decide)) (by decide)

/-- An uncorrectable codeword counts. -/
def LineFrame.uncorrected (unc : Bool) (f : LineFrame) : LineFrame :=
  if unc then { f with innerUnc := f.innerUnc + 1, innerInt := f.innerInt + 1 } else f

theorem innerCount_fr (n : Fin 8) (corr coded : Nat) (unc : Bool) (s : State) :
    (innerCount n corr coded unc s).lines[n].fr = s.lines[n].fr.uncorrected unc := by
  unfold innerCount
  dsimp only
  have hfix : SameLine n Line.fr s (if lineDecodes s n = true then countLine n fixSel 1 s else s) := .either (countLine_same n _ _ _) (.refl s)
  generalize (if lineDecodes s n = true then countLine n fixSel 1 s else s) = u at hfix ⊢
  have hsel : SameLine n Line.fr u (if lineDecodes u n = true then
      countLine n 0x22 corr (countLine n 0x21 (b2n unc) (countLine n 0x20 (b2n (corr != 0)) u)) else u) :=
    .either (.trans (countLine_same n _ _ _) (.trans (countLine_same n _ _ _) (countLine_same n _ _ _))) (.refl u)
  generalize (if lineDecodes u n = true then
      countLine n 0x22 corr (countLine n 0x21 (b2n unc) (countLine n 0x20 (b2n (corr != 0)) u)) else u) = v at hsel ⊢
  have hcorr : SameLine n Line.fr v (corrAdd n corr coded v) := .modEq (fun _ => rfl) v
  generalize corrAdd n corr coded v = w at hcorr ⊢
  have hall : w.lines[n].fr = s.lines[n].fr := hfix.trans (hsel.trans hcorr)
  rw [← hall]
  cases unc with
  | false => rfl
  | true =>
    rw [if_pos rfl, modFr_line]
    rfl

theorem innerCount_out (n : Fin 8) (corr coded : Nat) (unc : Bool) (s : State) : (innerCount n corr coded unc s).out = s.out :=
  (innerCount_only (.refl [.lines, .counters] s) (by decide) (by decide)).only .out (by decide)

/-- From s to t a codeword of lane n with the bits b was passed on: its symbols taken, the codeword counted, as uncorrectable or not. -/
structure InnerPassed (n : Fin 8) (left : List SoftSym) (b : BitVec 128) (unc : Bool) (s t : State) : Prop where
  rxCw : t.lines[n].fr.rxCw = s.lines[n].fr.rxCw + 1
  soft : t.lines[n].fr.soft = left
  innerUnc : t.lines[n].fr.innerUnc = if unc then s.lines[n].fr.innerUnc + 1 else s.lines[n].fr.innerUnc
  put : Out.inner n b ∈ t.out.drop s.out.length

theorem innerPassed_of {s u : State} {left : List SoftSym} {unc : Bool} (b : BitVec 128) (data : List Bool) (hout : u.out = s.out)
    (hfr : u.lines[n].fr = LineFrame.uncorrected unc { s.lines[n].fr with soft := left }) :
    InnerPassed n left b unc s (dataForward n data (emit (.inner n b) u)) := by
  have hline := dataForward_fr n data (emit (.inner n b) u)
  rw [show (emit (.inner n b) u).lines = u.lines from rfl, hfr] at hline
  cases unc with
  | false => exact ⟨by rw [hline]; rfl, by rw [hline]; rfl, by rw [hline]; rfl, emitted_mem hout (dataForward_keeps (.refl _))⟩
  | true => exact ⟨by rw [hline]; rfl, by rw [hline]; rfl, by rw [hline]; rfl, emitted_mem hout (dataForward_keeps (.refl _))⟩

section
variable {s : State} (hf : framing s n = true) (rest : List SoftSym)
include hf

/-- The state in which the symbols of the codeword have been taken. -/
theorem softTaken_fr (left : List SoftSym) (s : State) :
    (modFr n (fun f => { f with soft := left }) s).lines[n].fr = { s.lines[n].fr with soft := left } := by rw [modFr_line]

theorem innerCodeword_plain (hcode : lineCode s n = 2) :
    InnerPassed n (softLeft (cwWidth s n) (cwLen (lineCode s n) rest) s.lines[n].fr.soft)
      (bitsVec 128 ((cwTaken s n rest).flatMap fun x => symBits x.sym)) false s (innerCodeword n rest s) := by
  unfold innerCodeword
  rw [if_neg (by rw [hf]; decide)]
  dsimp only
  rw [if_pos hcode]
  refine innerPassed_of _ _ ?_ ?_
  · split
    · exact countLine_out _
    · rfl
  · refine Eq.trans (SameLine.either (φ := Line.fr) (countLine_same n _ _ _) (.refl _)) ?_
    rw [modFr_line]
    rfl

theorem innerCodeword_ieee (hcode : lineCode s n = 3) :
    let r := Config.ieeeDecode ((softLlrs (cwTaken s n rest)).map (llrDeliver (bits s.lines[n].act.eqCtl 18 2)))
    InnerPassed n (softLeft (cwWidth s n) (cwLen (lineCode s n) rest) s.lines[n].fr.soft) (bitsVec 128 r.2.2) (!r.1) s
      (innerCodeword n rest s) := by
  intro r
  unfold innerCodeword
  rw [if_neg (by rw [hf]; decide)]
  dsimp only
  rw [if_neg (by rw [hcode]; decide), if_pos hcode, modFr_line]
  refine innerPassed_of _ _ (innerCount_out n _ _ _ _) ?_
  rw [innerCount_fr, modFr_line]

/-- What the Chase decoder makes of a codeword: its bits, and whether it is uncorrectable. -/
def chased (reach : Bool) (llr : List (BitVec 6)) : List Bool × Bool := match chase reach llr with
  | none => (hardBits llr, true)
  | some c => (c, false)

theorem innerCodeword_chase (hcode : lineCode s n < 2) :
    let r := chased (lineCode s n == 1) ((softLlrs (cwTaken s n rest)).map (llrDeliver (bits s.lines[n].act.eqCtl 18 2)))
    InnerPassed n (softLeft (cwWidth s n) (cwLen (lineCode s n) rest) s.lines[n].fr.soft) (bitsVec 128 r.1) r.2 s
      (innerCodeword n rest s) := by
  intro r
  unfold innerCodeword
  rw [if_neg (by rw [hf]; decide)]
  dsimp only
  rw [if_neg (by omega), if_neg (by omega), modFr_line]
  refine innerPassed_of _ _ (innerCount_out n _ _ _ _) ?_
  rw [innerCount_fr, modFr_line]
  rfl

end

end

end Sys2Proof.Machine
end

section
/-! SUPPORT. Outer codewords, their statistics, and the latency of a port (R67, R70, R201 to R204). -/

namespace Sys2Proof.Machine

open Sys2Proof

/-! ### A view of one port -/

/-- What φ shows of port p is the same in t as in s. -/
def SamePort {α : Type} (p : Fin 8) (φ : Port → α) (s t : State) : Prop := φ t.ports[p] = φ s.ports[p]

section
variable {α β : Type} {p : Fin 8} {φ : Port → α} {s t u : State}

theorem SamePort.refl (s : State) : SamePort p φ s s := rfl

theorem SamePort.trans (h : SamePort p φ s t) (k : SamePort p φ t u) : SamePort p φ s u := Eq.trans k h

theorem SamePort.either {c : Prop} [Decidable c] (h : SamePort p φ s t) (k : SamePort p φ s u) :
    SamePort p φ s (if c then t else u) := by
  split
  · exact h
  · exact k

theorem SamePort.of_ports (e : t.ports = s.ports) : SamePort p φ s t := congrArg (fun v : Vector Port 8 => φ v[p]) e

theorem SamePort.of_only {ps : List Part} (k : Only ps s t) (w : Part.ports ∉ ps) : SamePort p φ s t := .of_ports (k.only .ports w)

theorem modPort_port (p : Fin 8) (f : Port → Port) (s : State) : (modPort p f s).ports[p] = f s.ports[p] := upd_get_self _ _ _

theorem SamePort.modPort {f : Port → Port} (h : ∀ x, φ (f x) = φ x) (s : State) : SamePort p φ s (modPort p f s) :=
  (congrArg φ (modPort_port p f s)).trans (h _)

theorem otherPorts_refl (p : Fin 8) (s : State) : OtherPorts p s s := fun _ _ => rfl

theorem modPort_others (p : Fin 8) (f : Port → Port) (s : State) : OtherPorts p s (modPort p f s) := fun _ hq => upd_get_ne _ _ hq

theorem otherPorts_of_ports (h : OtherPorts p s t) (e : u.ports = t.ports) : OtherPorts p s u := fun q hq => by rw [e]; exact h q hq

end

/-! ### Outer codewords -/

section
variable {p : Fin 8} {s : State}

/-- What comes of forwarding a codeword leaves the histogram. -/
theorem rawDrop_hist (s : State) (p : Fin 8) (g : Fin 2) : SamePort p Port.hist s (rawDrop s p g) := by
  unfold rawDrop
  refine .modPort (fun x => ?_) s
  rfl

theorem outerForward_hist (p : Fin 8) (g : Fin 2) (cw : List (BitVec 10)) (s : State) : SamePort p Port.hist s (outerForward p g cw s) :=
  .of_only (outerForward_only (.refl [.free, .out, .hosts] s) (by decide) (by decide) (by decide)) (by decide)

theorem hostDeliver_ports (h : Fin 16) (syms : List (Fin 4)) (s : State) : (hostDeliver h syms s).ports = s.ports :=
  (hostDeliver_only (.refl [.free, .out, .hosts] s) (by decide) (by decide) (by decide)).only .ports (by decide)

theorem rawForward_hist (p : Fin 8) (g : Fin 2) (s : State) : SamePort p Port.hist s (rawForward p g s) := by
  have hfold : ∀ (l : List Nat) (u : State), SamePort p Port.hist u (l.foldl (fun u k =>
      if (s.ports[p].raw.getD k []).isEmpty then u else hostDeliver (mapPos s.ports[p].act k) (s.ports[p].raw.getD k []) u) u) := by
    intro l
    induction l with
    | nil => exact SamePort.refl
    | cons k l ih => exact fun u => .trans (.either (.refl u) (.of_ports (hostDeliver_ports _ _ u))) (ih _)
  exact (rawDrop_hist s p g).trans (hfold _ _)

theorem raise_hist (p : Fin 8) (src : Nat) (w : Word) (s : State) : SamePort p Port.hist s (raise src w s) := .of_ports (raise_ports s)

theorem markerLost_hist (p : Fin 8) (g : Fin 2) (s : State) : SamePort p Port.hist s (markerLost p g s) := by
  refine .either ?_ (.refl s)
  refine .trans (.trans (.trans (.modPort (fun x => ?_) s) (rawForward_hist p g _)) (.of_ports (countPort_ports _))) (raise_hist p _ _ _)
  split
  · rfl
  · rfl

theorem outerRun_hist (p : Fin 8) (g : Fin 2) (k : Nat) (s : State) : SamePort p Port.hist s (outerRun p g k s) := by
  refine .trans (.modPort (fun x => ?_) s) (.either (markerLost_hist p g _) (.refl _))
  split
  · rfl
  · rfl

theorem outerCount_hist (p : Fin 8) (g : Fin 2) (k : Nat) (s : State) :
    (outerCount p g k s).ports[p].hist = binAdd s.ports[p].hist k := by
  unfold outerCount
  dsimp only
  generalize hv : modPort p (fun x => _) (notePort p s) = v
  have hset : v.ports[p].hist = binAdd s.ports[p].hist k := by
    rw [← hv, modPort_port]
    split
    · split
      · rfl
      · rfl
    · split
      · rfl
      · rfl
  have hcount : SamePort p Port.hist v (countPort p (k + 0x20 * g.val) 1 (countPort p fixSel 1 v)) :=
    .trans (.of_ports (countPort_ports v)) (.of_ports (countPort_ports _))
  generalize countPort p (k + 0x20 * g.val) 1 (countPort p fixSel 1 v) = w at hcount ⊢
  have hend : SamePort p Port.hist w (if k < 16 then
      countPort p 0x41 k (if (bit w.ports[p].act.cfg 6 && k != 0) = true then countPort p 0x40 1 w else w) else w) :=
    .either (.trans (.either (.of_ports (countPort_ports w)) (.refl w)) (.of_ports (countPort_ports _))) (.refl w)
  exact Eq.trans (hcount.trans hend) hset

/-- The codeword that goes out: as corrected, where the port corrects, is not squelched, and the decoder corrected at most 15 symbols. -/
def outerOut (s : State) (p : Fin 8) (cw : List (BitVec 10)) (fix : Option (List (Fin 544 × BitVec 10))) : List (BitVec 10) :=
  match fix with
  | some l => if bit s.ports[p].act.cfg 6 && !portSquelched s p && decide (l.length ≤ 15) then outerFix cw l else cw
  | none => cw

theorem outerCodeword_counted {g : Fin 2} (cw : List (BitVec 10)) (fix : Option (List (Fin 544 × BitVec 10)))
    (hon : portEnabled s p = true) (hg : g.val < groupsOf s) (hlock : amLock s.ports[p] g = true) (hsq : portSquelched s p = false) :
    (outerCodeword p g cw fix s).ports[p].hist = binAdd s.ports[p].hist (outerBin fix) ∧
      Out.outer p g (outerOut s p cw fix) ∈ (outerCodeword p g cw fix s).out.drop s.out.length := by
  have heq : outerCodeword p g cw fix s = outerRun p g (outerBin fix)
      (if bit s.ports[p].act.cfg 6 then
        outerForward p g (outerOut s p cw fix) (rawDrop (emit (.outer p g (outerOut s p cw fix)) (outerCount p g (outerBin fix) s)) p g)
      else rawForward p g (emit (.outer p g (outerOut s p cw fix)) (outerCount p g (outerBin fix) s))) := by
    unfold outerCodeword
    rw [if_neg (by rw [hon]; simp; omega), if_neg (by rw [hlock]; decide)]
    dsimp only
    rw [if_neg (c := portSquelched s p = true) (by rw [hsq]; decide)]
    rfl
  have hcount := outerCount_hist p g (outerBin fix) (s := s)
  have hout : (outerCount p g (outerBin fix) s).out = s.out :=
    (outerCount_only (.refl [.ports, .counters] s) (by decide) (by decide)).only .out (by decide)
  rw [heq]
  generalize outerCount p g (outerBin fix) s = u at hcount hout ⊢
  generalize outerOut s p cw fix = o
  refine ⟨Eq.trans (SamePort.trans (t := emit (.outer p g o) u) (.of_ports rfl)
    (.trans (.either ((rawDrop_hist _ p g).trans (outerForward_hist p g o _)) (rawForward_hist p g _)) (outerRun_hist p g _ _))) hcount, ?_⟩
  refine emitted_mem hout (outerRun_keeps ?_)
  split
  · exact outerForward_keeps (rawDrop_keeps (.refl _))
  · exact rawForward_keeps (.refl _)

/-- The interval of uncorrectable codewords begins anew; no other port changes. -/
theorem outerInterval_ends (hcnt : s.ports[p].uncInt ≠ 0) (hon : portEnabled s p = true) :
    (outerInterval p s).ports[p].uncInt = 0 ∧ OtherPorts p s (outerInterval p s) := by
  unfold outerInterval
  dsimp only
  rw [if_neg (by rw [hon]; simpa using hcnt)]
  have hports := raiseLimited_ports (src := lineSrc (lineBase s p) 0x1D) (inst := 0) (p := pay1 (satU 32 s.ports[p].uncInt))
    (modPort p (fun x => { x with uncInt := 0 }) s)
  exact ⟨Eq.trans (SamePort.of_ports (φ := Port.uncInt) hports) (congrArg Port.uncInt (modPort_port p _ s)),
    otherPorts_of_ports (modPort_others p _ s) hports⟩

theorem markerLock_locks {g : Fin 2} (hon : portEnabled s p = true) (hg : g.val < groupsOf s) (hlock : amLock s.ports[p] g = false) :
    amLock (markerLock p g s).ports[p] g = true ∧ OtherPorts p s (markerLock p g s) := by
  unfold markerLock
  rw [if_pos ⟨hon, hg, by rw [hlock]; rfl⟩]
  refine ⟨?_, modPort_others p _ s⟩
  rw [modPort_port]
  unfold amLock
  split
  · rfl
  · rfl

theorem winRecord_same {α : Type} {φ : Port → α} (q : Fin 8) (g win : Nat) (ser : BitVec 16) (bins : List Nat) (s : State) :
    SamePort p φ s (winRecord q g win ser bins s) := .of_ports (tlmForm_ports s)

theorem winRecords_same {α : Type} {φ : Port → α} {c : Prop} [Decidable c] (win : Nat) (ser : BitVec 16) (bins others : List Nat)
    (s : State) : SamePort p φ s (if c then winRecord p 1 win ser others (winRecord p 0 win ser bins s) else winRecord p 0 win ser bins s) :=
  .either ((winRecord_same p _ _ _ _ s).trans (winRecord_same p _ _ _ _ _)) (winRecord_same p _ _ _ _ s)

/-- A window that ends while both groups are in lock gives its figure and begins anew. -/
theorem serWindow_ends (hon : portEnabled s p = true) (h0 : s.ports[p].amLock0 = true) (h1 : s.ports[p].amLock1 = true) :
    ∃ d, (serWindow p s).ports[p] = winClear { s.ports[p] with
      ser := (rateOf ((List.range 17).foldl (fun a k => a + k * (s.ports[p].winBins0.getD k 0 + s.ports[p].winBins1.getD k 0)) 0)
        (544 * 2 ^ bits s.ports[p].act.fec 8 5)).toNat
      degraded := d } := by
  unfold serWindow
  dsimp only
  rw [if_neg (by rw [hon]; decide), if_neg (by rw [h0, h1]; simp)]
  generalize hu : modPort p (fun x => _) s = u
  refine ⟨_, Eq.trans (SamePort.trans (φ := id) (.either (.of_ports (raise_ports u)) (.refl u)) (.either ?records (.refl _)))
    ((congrArg (fun t : State => t.ports[p]) hu.symm).trans (modPort_port p _ s))⟩
  case records => exact winRecords_same _ _ _ _ _

/-! ### Latency -/

theorem buffersSet_ports (p : Fin 8) (s : State) : (buffersSet p s).ports = s.ports :=
  (buffersSet_only (.refl [.free, .lines] s) (by decide) (by decide)).only .ports (by decide)

theorem bufferResetDone_ends (hbuf : s.ports[p].sqBuffers = true) :
    (bufferResetDone p s).ports[p].sqBuffers = false ∧ OtherPorts p s (bufferResetDone p s) := by
  unfold bufferResetDone
  rw [if_pos hbuf]
  have hports := buffersSet_ports p (modPort p (fun x => { x with sqBuffers := false }) s)
  exact ⟨Eq.trans (SamePort.of_ports (φ := Port.sqBuffers) hports) (congrArg Port.sqBuffers (modPort_port p _ s)),
    otherPorts_of_ports (modPort_others p _ s) hports⟩

/-- A measurement that ends is gone. -/
theorem latDone_ends {r : LatRun} (hmeas : s.ports[p].meas = some r) :
    (latDone p s).ports[p].meas = none ∧ OtherPorts p s (latDone p s) := by
  unfold latDone
  rw [hmeas]
  dsimp only
  generalize List.foldl _ _ (linesOfPort (modeOf s) p) = best
  cases best with
  | none => exact ⟨Eq.trans (SamePort.of_ports (φ := Port.meas) (done_ports _)) (congrArg Port.meas (modPort_port p _ _)),
      otherPorts_of_ports (modPort_others p _ s) (done_ports _)⟩
  | some n => exact ⟨Eq.trans (SamePort.of_ports (φ := Port.meas) (done_ports _)) (congrArg Port.meas (modPort_port p _ _)),
      otherPorts_of_ports (modPort_others p _ s) (done_ports _)⟩

/-- Of a port of one lane the figures are that lane's. -/
theorem latDone_one {r : LatRun} {n : Fin 8} (hmeas : s.ports[p].meas = some r) (hone : linesOfPort (modeOf s) p = [n])
    (hech : s.lines[n].fr.echoes ≠ []) : ∃ spread, (latDone p s).ports[p] = { s.ports[p] with
      meas := none, owlMean := roundDiv (intSum s.lines[n].fr.echoes) s.lines[n].fr.echoes.length
      owlCount := s.lines[n].fr.echoes.length, owlForeign := s.lines[n].fr.echoForeign
      owlHold := (onFreeBeat s || r.hold || s.lines[n].fr.echoHold), owlSpread := spread } := by
  unfold latDone
  rw [hmeas]
  dsimp only
  rw [hone]
  have hempty : s.lines[n].fr.echoes.isEmpty = false := by
    cases he : s.lines[n].fr.echoes with
    | nil => exact absurd he hech
    | cons x l => rfl
  simp only [List.foldl_cons, List.foldl_nil, List.any_cons, List.any_nil, Bool.or_false, hempty, Bool.false_eq_true, if_false]
  exact ⟨_, Eq.trans (SamePort.of_ports (φ := id) (done_ports _)) (modPort_port p _ s)⟩

end

end Sys2Proof.Machine
end

section
/-! SUPPORT. Latency echoes and host-to-host messages of a lane (R69, R71, R196 to R199), and the events of frames and codewords together. -/

namespace Sys2Proof.Machine

open Sys2Proof

section
variable {n p : Fin 8} {s : State}

/-! ### Echoes -/

theorem echoTake_paired {m : BitVec 64} (hrx : rxFraming s n = true) (htyp : bits m 60 4 = 4) (hport : portOfLine (modeOf s) n = some p)
    {r : LatRun} (hmeas : s.ports[p].meas = some r) (hroom : s.lines[n].fr.echoes.length < r.n) {e : BitVec 16 × CTime}
    (he : s.lines[n].fr.departs.find? (fun e => e.1 == BitVec.ofNat 16 (bits m 44 16)) = some e) :
    ∃ ps, (echoTake n m s).lines[n].fr.echoes = s.lines[n].fr.echoes ++ [ps] := by
  have hfr : SameLine n Line.fr s (countPort p 0x47 1 (countLine n 0x28 1 s)) := .trans (countLine_same n _ _ s) (countPort_same p _ _ _)
  have hpt : SamePort p Port.meas s (countPort p 0x47 1 (countLine n 0x28 1 s)) :=
    .of_ports ((countPort_ports _).trans (countLine_ports s))
  unfold echoTake
  rw [if_neg (by simp [hrx, htyp]), hport]
  dsimp only
  generalize countPort p 0x47 1 (countLine n 0x28 1 s) = u at hfr hpt ⊢
  have hfr : u.lines[n].fr = s.lines[n].fr := hfr
  have hpt : u.ports[p].meas = s.ports[p].meas := hpt
  rw [hpt, hfr, hmeas, he]
  dsimp only
  rw [if_neg (by omega)]
  have hbeats : (echoBeats (bits e.2 24 40) (bits m 36 8) u).2.lines = u.lines := by
    unfold echoBeats
    dsimp only
    split
    · rfl
    · split
      · rfl
      · rfl
  generalize echoBeats (bits e.2 24 40) (bits m 36 8) u = w at hbeats ⊢
  rw [modFr_line, line_of_lines hbeats, hfr]
  exact ⟨_, rfl⟩

/-! ### HOST fragments -/

theorem msgForm_same {α : Type} {φ : Line → α} (k : Fin 8) (m : HmRecv) (s : State) : SameLine n φ s (msgForm k m s) :=
  .of_lines (tlmForm_lines s)

/-- What a complete message leaves of the fragments, and the message that was last. -/
def Line.lastTaken (l : Line) : Option HmPart × Option Nat := (l.fr.part, l.fr.lastMsg)

/-- A message that is written as a record at once, or takes a place of the receive buffer, changes neither. -/
theorem msgKept_last {c : Prop} [Decidable c] (n : Fin 8) (m : HmRecv) (s : State) :
    SameLine n Line.lastTaken s (if c then msgForm n m s else modFr n (fun f => { f with recv := f.recv ++ [m] }) s) :=
  .either (msgForm_same n m s) (.modFr (fun _ => rfl) s)

theorem msgComplete_last (n : Fin 8) (msg : Nat) (data : List Byte) (s : State) :
    (msgComplete n msg data s).lines[n].lastTaken =
      (s.lines[n].fr.part, if msgHeld s n < 4 then some msg else s.lines[n].fr.lastMsg) := by
  have hqueue : ∀ (m : BitVec 64) (u : State), SameLine n Line.lastTaken u (scQueue n m u) := fun m u => .modFr (fun _ => rfl) u
  unfold msgComplete
  split
  case isTrue hsame =>
    refine Eq.trans (hqueue _ s) ?_
    rw [← hsame, ite_self]
    rfl
  case isFalse hnew =>
    split
    case isTrue hfull =>
      rw [if_neg (c := msgHeld s n < 4) (by omega)]
      exact hqueue _ s
    case isFalse hroom =>
      rw [if_pos (c := msgHeld s n < 4) (by omega)]
      dsimp only
      have hset : (modFr n (fun f => { f with lastMsg := some msg }) s).lines[n].lastTaken = (s.lines[n].fr.part, some msg) := by
        rw [modFr_line]
        rfl
      generalize modFr n (fun f => { f with lastMsg := some msg }) s = u at hset ⊢
      refine Eq.trans (SameLine.trans ?_ (raise_same _ _ _)) hset
      refine SameLine.trans (hqueue (ackMsg msg false) u) ?_
      generalize scQueue n (ackMsg msg false) u = v
      split
      · exact .trans (msgKept_last n _ v) (countPort_same _ _ _ _)
      · exact msgKept_last n _ v

/-- What has come of a message, with the fragment at hand: nothing where the fragment does not follow. -/
def fragData (m : BitVec 64) (part : Option HmPart) : Option (List Byte) :=
  match part with
  | some x => if bits m 48 3 = 0 then some ((beBytes 6 (bits m 0 48)).take (bits m 56 3 + 1))
      else if x.msg = bits m 51 5 ∧ x.next = bits m 48 3 then some (x.data ++ (beBytes 6 (bits m 0 48)).take (bits m 56 3 + 1)) else none
  | none => if bits m 48 3 = 0 then some ((beBytes 6 (bits m 0 48)).take (bits m 56 3 + 1)) else none

theorem fragData_first {m : BitVec 64} (h : bits m 48 3 = 0) (part : Option HmPart) :
    fragData m part = some ((beBytes 6 (bits m 0 48)).take (bits m 56 3 + 1)) := by
  cases part with
  | none => exact if_pos h
  | some x => exact if_pos h

theorem hostFrag_taken {m : BitVec 64} (hrx : rxFraming s n = true) (htyp : bits m 60 4 = 8) : ∃ u, SameLine n Line.fr s u ∧
    msgHeld u n = msgHeld s n ∧ hostFrag n m s = match fragData m s.lines[n].fr.part with
      | none => modFr n (fun f => { f with part := none }) u
      | some l => if bit m 59 then msgComplete n (bits m 51 5) l (modFr n (fun f => { f with part := none }) u)
        else modFr n (fun f => { f with part := some { msg := bits m 51 5, next := bits m 48 3 + 1, data := l } }) u := by
  refine ⟨countLine n 0x28 1 s, countLine_same n _ _ s, ?_, ?_⟩
  · unfold msgHeld
    rw [line_of_lines (countLine_lines s), countLine_tlm]
  · unfold hostFrag
    rw [if_neg (by simp [hrx, htyp])]
    dsimp only
    rw [line_of_lines (countLine_lines s)]
    rfl

/-! ### Acknowledgements and transmissions again -/

theorem msgSettle_send {x : HmSend} (hsend : s.lines[n].fr.send = some x) (res : Nat) : (msgSettle n res s).lines[n].fr.send = none := by
  unfold msgSettle
  rw [hsend]
  dsimp only
  rw [line_of_lines (done_lines _), modFr_line]

theorem msgAgain_send {x : HmSend} (hsend : s.lines[n].fr.send = some x) (res : Nat) : (msgAgain n res s).lines[n].fr.send =
    if x.tries < 5 then some { x with next := 0, tries := x.tries + 1 } else none := by
  unfold msgAgain
  rw [hsend]
  dsimp only
  split
  · rw [if_neg (c := x.tries < 5) (by omega)]
    exact msgSettle_send hsend res
  · rw [if_pos (c := x.tries < 5) (by omega), modFr_line]

theorem hostAck_settles {m : BitVec 64} (hrx : rxFraming s n = true) (htyp : bits m 60 4 = 9) {x : HmSend}
    (hsend : s.lines[n].fr.send = some x) (hmsg : x.msg = bits m 51 5) : (hostAck n m s).lines[n].fr.send =
      if bit m 48 = true ∧ x.tries < 5 then some { x with next := 0, tries := x.tries + 1 } else none := by
  unfold hostAck
  rw [if_neg (by simp [hrx, htyp])]
  dsimp only
  have hcount : (countLine n 0x28 1 s).lines[n].fr.send = some x := by rw [line_of_lines (countLine_lines s), hsend]
  generalize countLine n 0x28 1 s = u at hcount ⊢
  rw [hcount]
  dsimp only
  rw [if_neg (not_not.2 hmsg)]
  split
  case isTrue hfull =>
    rw [msgAgain_send hcount]
    simp [hfull]
  case isFalse hgood =>
    rw [if_neg (c := bit m 48 = true ∧ x.tries < 5) fun h => hgood h.1]
    refine msgSettle_send (x := x) ?_ 0
    split
    · rw [line_of_lines (countPort_lines u), hcount]
    · exact hcount

theorem msgAbandon_settles (n : Fin 8) (s : State) : (msgAbandon n s).lines[n].fr.send = none ∧ (msgAbandon n s).lines[n].fr.waiting = [] := by
  unfold msgAbandon
  dsimp only
  generalize hu : modFr n (fun f => _) s = u
  generalize (_ ++ _ : List Cmd) = cmds
  have hfold : SameLine n Line.fr u (cmds.foldl (fun s c => done c 3 s) u) := .foldl (fun t c => .of_lines (done_lines t)) cmds u
  have hset : (cmds.foldl (fun s c => done c 3 s) u).lines[n].fr = u.lines[n].fr := hfold
  rw [hset, ← hu, modFr_line]
  exact ⟨rfl, rfl⟩

theorem innerInterval_ends (hcnt : s.lines[n].fr.innerInt ≠ 0) :
    (innerInterval n s).lines[n].fr.innerInt = 0 ∧ OtherLines n s (innerInterval n s) := by
  unfold innerInterval
  dsimp only
  rw [if_neg hcnt]
  refine ⟨?_, otherLines_of_lines (modLine_otherLines n _ s) (raiseLimited_lines _)⟩
  rw [line_of_lines (raiseLimited_lines _), modFr_line]

end

end Sys2Proof.Machine
end

section
/-! SUPPORT. The events of frames, side-channel messages and codewords together (R69 to R72, R179 to R206). -/

namespace Sys2Proof.Machine

open Sys2Proof

section
variable {n : Fin 8} {s : State}

theorem modFr_congr {f g : LineFrame → LineFrame} (h : f s.lines[n].fr = g s.lines[n].fr) : modFr n f s = modFr n g s := by
  have hline : ({ s.lines[n] with fr := f s.lines[n].fr } : Line) = { s.lines[n] with fr := g s.lines[n].fr } := by rw [h]
  unfold modFr modLine upd
  exact congrArg (fun x => { s with lines := s.lines.set n x }) hline

/-- The oldest ECHO that waits is dropped (R194). -/
theorem echoDrop_oldest {m : BitVec 64} (hm : s.lines[n].fr.out.find? (fun m => bits m 60 4 == 4) = some m) :
    echoDrop n s = modFr n (fun f => { f with out := f.out.erase m }) s := by
  refine modFr_congr ?_
  rw [hm]

/-- A HOST fragment that arrives (R198). -/
theorem hostFrag_effects {m : BitVec 64} (hrx : rxFraming s n = true) (htyp : bits m 60 4 = 8) :
    (bit m 59 = false → (hostFrag n m s).lines[n].fr.out = s.lines[n].fr.out) ∧
    (bit m 59 = false → bits m 48 3 = 0 → (hostFrag n m s).lines[n].fr.part =
      some { msg := bits m 51 5, next := 1, data := (beBytes 6 (bits m 0 48)).take (bits m 56 3 + 1) }) ∧
    (bit m 59 = true → bits m 48 3 = 0 → (hostFrag n m s).lines[n].fr.part = none ∧ (hostFrag n m s).lines[n].fr.lastMsg =
      if msgHeld s n < 4 then some (bits m 51 5) else s.lines[n].fr.lastMsg) := by
  obtain ⟨u, hfr, hheld, heq⟩ := hostFrag_taken (s := s) (n := n) hrx htyp
  have hfr : u.lines[n].fr = s.lines[n].fr := hfr
  rw [heq]
  refine ⟨fun hmore => ?_, fun hmore hfirst => ?_, fun hlast hfirst => ?_⟩
  · cases fragData m s.lines[n].fr.part with
    | none => dsimp only; rw [modFr_line, hfr]
    | some l =>
      dsimp only
      rw [if_neg (c := bit m 59 = true) (by rw [hmore]; decide), modFr_line, hfr]
  · rw [fragData_first hfirst]
    dsimp only
    rw [if_neg (c := bit m 59 = true) (by rw [hmore]; decide), modFr_line, hfirst]
  · rw [fragData_first hfirst]
    dsimp only
    rw [if_pos hlast]
    have hlastTaken := msgComplete_last n (bits m 51 5) ((beBytes 6 (bits m 0 48)).take (bits m 56 3 + 1))
      (modFr n (fun f => { f with part := none }) u)
    have hheld' : msgHeld (modFr n (fun f => { f with part := none }) u) n = msgHeld s n := by
      rw [← hheld]
      unfold msgHeld
      rw [modFr_line]
      rfl
    rw [hheld', modFr_line, hfr] at hlastTaken
    exact ⟨congrArg Prod.fst hlastTaken, congrArg Prod.snd hlastTaken⟩

theorem HeaderNotes.side_eq (hdr : BitVec 200) (k : HeaderNotes) : ∃ e, k.side hdr = { k with scErr := e } ∧
    (crc16 (beBytes 2 (bits hdr 88 16) ++ beBytes 8 (bits hdr 16 64)) ≠ bits hdr 0 16 → e = satU 16 (k.scErr + 1)) := by
  unfold HeaderNotes.side
  split
  case isTrue hgood => exact ⟨_, rfl, fun hbad => absurd hgood hbad⟩
  case isFalse hbad => exact ⟨_, rfl, fun _ => rfl⟩

/-- A received header (R98, R181, R184, R205). -/
theorem frameHeader_effects {p : Fin 8} (hport : portOfLine (modeOf s) n = some p) (hrx : rxFraming s n = true) (hdr : BitVec 200)
    (skew : Nat) :
    (frameHeader n hdr skew s).lines[n].fr.skew = min 255 skew ∧ (frameHeader n hdr skew s).lines[n].fr.rxCw = 0 ∧
    (crc8 (beBytes 4 (bits hdr 104 32) ++ beBytes 2 (bits hdr 88 16)) = bits hdr 80 8 →
      (frameHeader n hdr skew s).lines[n].fr.rxId = BitVec.ofNat 32 (bits hdr 104 32) ∧ (frameHeader n hdr skew s).lines[n].fr.idValid = true) ∧
    (crc8 (beBytes 4 (bits hdr 104 32) ++ beBytes 2 (bits hdr 88 16)) ≠ bits hdr 80 8 →
      (frameHeader n hdr skew s).lines[n].fr.rxId = s.lines[n].fr.rxId ∧
      (frameHeader n hdr skew s).lines[n].fr.hchkErr = satU 16 (s.lines[n].fr.hchkErr + 1)) ∧
    (crc16 (beBytes 2 (bits hdr 88 16) ++ beBytes 8 (bits hdr 16 64)) ≠ bits hdr 0 16 →
      (frameHeader n hdr skew s).lines[n].fr.scErr = satU 16 (s.lines[n].fr.scErr + 1)) := by
  have hnotes := frameHeader_notes hport hrx hdr skew
  obtain ⟨e, hside, he⟩ := HeaderNotes.side_eq hdr (({ s.lines[n].headerNotes with skew := satU 8 skew, rxCw := 0 } : HeaderNotes).judged hdr)
  rw [hside] at hnotes
  have hskew : satU 8 skew = min 255 skew := Nat.min_comm _ _
  by_cases hgood : crc8 (beBytes 4 (bits hdr 104 32) ++ beBytes 2 (bits hdr 88 16)) = bits hdr 80 8
  · rw [HeaderNotes.judged, if_pos hgood] at hnotes he
    exact ⟨(congrArg HeaderNotes.skew hnotes).trans hskew, congrArg HeaderNotes.rxCw hnotes,
      fun _ => ⟨congrArg HeaderNotes.rxId hnotes, congrArg HeaderNotes.idValid hnotes⟩, fun hbad => absurd hgood hbad,
      fun hbad => (congrArg HeaderNotes.scErr hnotes).trans (he hbad)⟩
  · rw [HeaderNotes.judged, if_neg hgood] at hnotes he
    exact ⟨(congrArg HeaderNotes.skew hnotes).trans hskew, congrArg HeaderNotes.rxCw hnotes, fun h => absurd h hgood,
      fun _ => ⟨congrArg HeaderNotes.rxId hnotes, congrArg HeaderNotes.hchkErr hnotes⟩,
      fun hbad => (congrArg HeaderNotes.scErr hnotes).trans (he hbad)⟩

/-! ### Inner codewords -/

theorem lineCode_lt (s : State) (n : Fin 8) : lineCode s n < 4 := by
  unfold lineCode
  split
  · exact Nat.mod_lt _ (by decide)
  · decide

/-- A codeword that has come in full (R107, R117, R189, R190). -/
theorem innerCodeword_effects (hf : framing s n = true) (rest : List SoftSym) :
    let word := cwTaken s n rest
    let soft := (softLlrs word).map (llrDeliver (bits s.lines[n].act.eqCtl 18 2))
    ∃ t, exec (.innerCodeword n rest) s = .next t ∧ t.lines[n].fr.rxCw = s.lines[n].fr.rxCw + 1 ∧
      t.lines[n].fr.soft = softLeft (cwWidth s n) (cwLen (lineCode s n) rest) s.lines[n].fr.soft ∧
      (lineCode s n = 2 → t.lines[n].fr.innerUnc = s.lines[n].fr.innerUnc ∧
        Out.inner n (bitsVec 128 (word.flatMap fun x => symBits x.sym)) ∈ t.out.drop s.out.length) ∧
      (lineCode s n = 3 → let r := Config.ieeeDecode soft
        t.lines[n].fr.innerUnc = (if r.1 then s.lines[n].fr.innerUnc else s.lines[n].fr.innerUnc + 1) ∧
        Out.inner n (bitsVec 128 r.2.2) ∈ t.out.drop s.out.length) ∧
      (lineCode s n < 2 → (∀ c, chase (lineCode s n == 1) soft = some c →
          t.lines[n].fr.innerUnc = s.lines[n].fr.innerUnc ∧ Out.inner n (bitsVec 128 c) ∈ t.out.drop s.out.length) ∧
        (chase (lineCode s n == 1) soft = none → t.lines[n].fr.innerUnc = s.lines[n].fr.innerUnc + 1 ∧
          Out.inner n (bitsVec 128 (hardBits soft)) ∈ t.out.drop s.out.length)) := by
  intro word soft
  have hlt := lineCode_lt s n
  refine ⟨_, rfl, ?_⟩
  obtain hplain | hieee | hchase : lineCode s n = 2 ∨ lineCode s n = 3 ∨ lineCode s n < 2 := by omega
  · have h := innerCodeword_plain hf rest hplain
    exact ⟨h.rxCw, h.soft, fun _ => ⟨h.innerUnc, h.put⟩, fun _ => by omega, fun _ => by omega⟩
  · have h := innerCodeword_ieee hf rest hieee
    refine ⟨h.rxCw, h.soft, fun _ => by omega, fun _ => ⟨h.innerUnc.trans ?_, h.put⟩, fun _ => by omega⟩
    cases (Config.ieeeDecode soft).1 with
    | false => rfl
    | true => rfl
  · have h := innerCodeword_chase hf rest hchase
    refine ⟨h.rxCw, h.soft, fun _ => by omega, fun _ => by omega, fun _ => ⟨fun c hc => ?_, fun hc => ?_⟩⟩
    · have hr : chased (lineCode s n == 1) soft = (c, false) := by unfold chased; rw [hc]
      rw [hr] at h
      exact ⟨h.innerUnc, h.put⟩
    · have hr : chased (lineCode s n == 1) soft = (hardBits soft, true) := by unfold chased; rw [hc]
      rw [hr] at h
      exact ⟨h.innerUnc, h.put⟩

end

/-- Settles O55. -/
theorem framesAndCodes : Obligations.FramesAndCodes := by
  unfold Obligations.FramesAndCodes
  intro s n p
  refine ⟨fun q hport href hdue => ?start, fun hdr skew q hrx hport => ?header, fun m hrx htyp => ?idle,
    fun m hrx htyp q hport r hmeas hroom e he => ?echo, fun m hm => ?drop, fun m hrx htyp => ⟨_, rfl, hostFrag_effects hrx htyp⟩,
    fun m hrx htyp x hsend hmsg => ⟨_, rfl, hostAck_settles hrx htyp hsend hmsg⟩, fun x hsend hup hcnt => ?again,
    fun hup => ?abandon, fun rest hst => ?inner, fun hcnt => ⟨_, rfl, innerInterval_ends hcnt⟩, fun r hmeas => ?latency,
    fun g cw fix hon hg hlock hsq => ?outer, fun hcnt hon => ⟨_, rfl, outerInterval_ends hcnt hon⟩, fun hon h0 h1 => ?window,
    fun g hon hg hlock => ?marker, fun hbuf => ⟨_, rfl, bufferResetDone_ends hbuf⟩⟩
  case start =>
    have hbegun := frameStart_begun hport href hdue
    exact ⟨_, rfl, congrArg Prod.fst hbegun, congrArg Prod.snd hbegun⟩
  case header =>
    exact ⟨_, rfl, frameHeader_effects hport hrx hdr skew⟩
  case idle =>
    exact congrArg Host.Outcome.next (if_neg (by simp [hrx, htyp]))
  case echo =>
    obtain ⟨ps, hps⟩ := echoTake_paired hrx htyp hport hmeas hroom he
    exact ⟨_, rfl, by rw [hps, List.dropLast_concat], by rw [hps, List.length_append]; rfl⟩
  case drop =>
    exact congrArg Host.Outcome.next (echoDrop_oldest hm)
  case again =>
    refine ⟨_, rfl, ?_⟩
    unfold msgTimeout
    rw [hsend]
    dsimp only
    rw [if_pos (c := _ ∧ _) ⟨hup, hcnt⟩]
    exact msgAgain_send hsend 2
  case abandon =>
    refine ⟨_, rfl, ?_⟩
    unfold msgGiveUp
    rw [if_neg (c := _ = _) hup]
    exact msgAbandon_settles n s
  case inner =>
    have hf : framing s n = true := by
      unfold framing
      obtain h | h | h := hst <;> rw [h] <;> rfl
    exact innerCodeword_effects hf rest
  case latency =>
    obtain ⟨hnone, hothers⟩ := latDone_ends hmeas
    refine ⟨_, rfl, hnone, hothers, fun k hone hech => ?_⟩
    obtain ⟨spread, hport⟩ := latDone_one hmeas hone hech
    rw [hport]
    exact ⟨rfl, rfl, rfl, rfl⟩
  case outer =>
    obtain ⟨hhist, hput⟩ := outerCodeword_counted cw fix hon hg hlock hsq
    refine ⟨_, rfl, fun l hfix hcorrect hlen => ?_, fun hfix => ?_, hhist⟩
    · have hout : outerOut s p cw fix = outerFix cw l := by
        rw [hfix]
        exact if_pos (by rw [hcorrect, hsq]; simpa using hlen)
      rwa [hout] at hput
    · have hout : outerOut s p cw fix = cw := by rw [hfix]; rfl
      rwa [hout] at hput
  case window =>
    obtain ⟨d, hport⟩ := serWindow_ends hon h0 h1
    refine ⟨_, rfl, ?_⟩
    rw [hport]
    exact ⟨rfl, rfl, rfl⟩
  case marker =>
    obtain ⟨hlocks, hothers⟩ := markerLock_locks hon hg hlock
    exact ⟨_, rfl, hlocks, hothers, (markerLock_only (.refl [.ports] s) (by decide)).only⟩

end Sys2Proof.Machine
end

section
/-! SUPPORT. The responder of far-end training (R160, R161, R164 to R166, R176). -/

namespace Sys2Proof.Machine

open Sys2Proof

/-! ### The fields of a RESPONSE -/

/-- A field put below the fields that stand adds its value. -/
theorem or_field {a : BitVec 64} {x : Nat} (ha : a.toNat = x) {lo len : Nat} (hx : 2 ^ (lo + len) ∣ x) (hw : lo + len ≤ 64) (v : Nat) :
    (a ||| BitVec.ofNat 64 (v % 2 ^ len * 2 ^ lo)).toNat = x + v % 2 ^ len * 2 ^ lo := by
  have hlt : v % 2 ^ len * 2 ^ lo < 2 ^ (lo + len) := by
    rw [Nat.pow_add, Nat.mul_comm (2 ^ lo)]
    exact Nat.mul_lt_mul_of_pos_right (Nat.mod_lt _ (Nat.two_pow_pos len)) (Nat.two_pow_pos lo)
  obtain ⟨q, hq⟩ := hx
  rw [BitVec.toNat_or, BitVec.toNat_ofNat, Nat.mod_eq_of_lt (Nat.lt_of_lt_of_le hlt (Nat.pow_le_pow_right (by decide) hw)), ha, hq]
  exact (Nat.two_pow_add_eq_or_of_lt hlt q).symm

/-- A RESPONSE as a number. -/
theorem respMsg_toNat (n : Fin 8) (seq : Byte) (status applied fc : Nat) : (respMsg n seq status applied fc).toNat =
    2 * 2 ^ 60 + n.val * 2 ^ 57 + seq.toNat * 2 ^ 49 + status % 2 ^ 3 * 2 ^ 46 + applied % 2 ^ 8 * 2 ^ 38 + fc % 2 ^ 16 * 2 ^ 22 := by
  have hn := n.isLt
  have hseq := seq.isLt
  have h0 := or_field (a := 0) (x := 0) rfl (lo := 60) (len := 4) (Nat.dvd_zero _) (by decide) 2
  have h1 := or_field h0 (lo := 57) (len := 3) (by omega) (by decide) n.val
  have h2 := or_field h1 (lo := 49) (len := 8) (by omega) (by decide) seq.toNat
  have h3 := or_field h2 (lo := 46) (len := 3) (by omega) (by decide) status
  have h4 := or_field h3 (lo := 38) (len := 8) (by omega) (by decide) applied
  have h5 := or_field h4 (lo := 22) (len := 16) (by omega) (by decide) fc
  exact h5.trans (by omega)

theorem respMsg_fields (n : Fin 8) (seq : Byte) (status applied fc : Nat) :
    bits (respMsg n seq status applied fc) 60 4 = 2 ∧ bits (respMsg n seq status applied fc) 57 3 = n.val ∧
    bits (respMsg n seq status applied fc) 49 8 = seq.toNat ∧ bits (respMsg n seq status applied fc) 46 3 = status % 8 ∧
    bits (respMsg n seq status applied fc) 22 16 = fc % 65536 := by
  have hn := n.isLt
  have hseq := seq.isLt
  have h := respMsg_toNat n seq status applied fc
  unfold bits
  omega

/-! ### What is sent and kept -/

section
variable {n : Fin 8} {m : BitVec 64} {s : State}

/-- From s to t a RESPONSE goes out on lane n and is kept for a repeat; the rest of the transmitter is y. -/
structure Answered (n : Fin 8) (a : BitVec 64) (seq : Byte) (y : LineTx) (s t : State) : Prop where
  line : t.lines[n] = { s.lines[n] with
    tx := { y with lastAnswer := some (seq, a) }, fr := { s.lines[n].fr with out := s.lines[n].fr.out ++ [a] } }
  others : OtherLines n s t

theorem scQueue_line (n : Fin 8) (m : BitVec 64) (s : State) :
    (scQueue n m s).lines[n] = { s.lines[n] with fr := { s.lines[n].fr with out := s.lines[n].fr.out ++ [m] } } := modFr_line n _ s

theorem scQueue_otherLines (n : Fin 8) (m : BitVec 64) (s : State) : OtherLines n s (scQueue n m s) := modLine_otherLines n _ s

/-- A RESPONSE from a state u that differs from s in the lane's transmitter alone. -/
theorem trnAnswer_answered {u : State} {y : LineTx} (hline : u.lines[n] = { s.lines[n] with tx := y }) (hothers : OtherLines n s u)
    (seq : Byte) (status applied fc : Nat) :
    Answered n (respMsg n seq status applied fc) seq y s (trnAnswer n seq status applied fc u) := by
  refine ⟨?_, fun k hk => (scQueue_otherLines n _ _ k hk).trans ((modTx_otherLines n _ u k hk).trans (hothers k hk))⟩
  unfold trnAnswer
  dsimp only
  rw [scQueue_line, modTx_line, hline]

/-- The RESPONSE that is kept for a SEQ. -/
def storedAnswer (x : LineTx) (seq : Byte) : Option (BitVec 64) := match x.lastAnswer with
  | some (q, r) => if q = seq then some r else none
  | none => none

theorem storedAnswer_repeated {x : LineTx} {q : Byte} {r : BitVec 64} (h : x.lastAnswer = some (q, r)) (hq : q.toNat = bits m 49 8) :
    storedAnswer x (BitVec.ofNat 8 (bits m 49 8)) = some r := by
  unfold storedAnswer
  rw [h]
  exact if_pos (by rw [← hq, BitVec.ofNat_toNat, BitVec.setWidth_eq])

theorem storedAnswer_fresh {x : LineTx} (h : ∀ q r, x.lastAnswer = some (q, r) → q.toNat ≠ bits m 49 8) :
    storedAnswer x (BitVec.ofNat 8 (bits m 49 8)) = none := by
  unfold storedAnswer
  cases hx : x.lastAnswer with
  | none => rfl
  | some a =>
    refine if_neg fun hq => h a.1 a.2 hx ?_
    rw [hq, BitVec.toNat_ofNat]
    exact Nat.mod_eq_of_lt (Nat.mod_lt _ (by decide))

/-! ### Messages that reach the training logic -/

theorem trnTakes_counted (sel k typ : Nat) : trnTakes (countLine n sel k s) n m typ = trnTakes s n m typ := by
  unfold countLine
  split
  · rfl
  · rfl

theorem arbHolder_counted (sel k cls : Nat) (t : Tgt) : arbHolder (countLine n sel k s) cls t = arbHolder s cls t := by
  unfold countLine
  split
  · rfl
  · rfl

theorem trnHeard_quiet (h : s.lines[n].tx.trnState ≠ 4 ∨ s.lines[n].rx.st ≠ .up ∨ s.lines[n].act.trnReq = false) : trnHeard n s = s := by
  refine if_neg fun hc => ?_
  obtain ⟨hsilent, hup, hreq⟩ := hc
  rcases h with h | h | h
  · exact h hsilent
  · exact h hup
  · rw [h] at hreq
    cases hreq

end

end Sys2Proof.Machine
end

section
/-! SUPPORT. What the responder of far-end training does with a REQUEST and a DONE, and at the frame of an answer (R164 to R166). -/

namespace Sys2Proof.Machine

open Sys2Proof

section
variable {n : Fin 8} {m : BitVec 64} {s : State}

/-! ### A REQUEST -/

/-- What the responder does with a REQUEST for its lane that has reached it. -/
def requestReply (n : Fin 8) (m : BitVec 64) (s : State) : State :=
  let l := s.lines[n]
  let seq := BitVec.ofNat 8 (bits m 49 8)
  match storedAnswer l.tx seq with
  | some r => scQueue n r s
  | none =>
    if !l.act.trnEn then trnAnswer n seq 4 0 l.fr.txFc.toNat s
    else if l.tx.answerReset then trnAnswer n seq 5 0 l.fr.txFc.toNat (modTx n (fun x => { x with answerReset := false }) s)
    else match trnEffect l m with
      | (st, a, none) => trnAnswer n seq st a l.fr.txFc.toNat s
      | (st, a, some _) =>
        match arbOffer .plain 8 (.line (some n)) s with
        | (s, false) => trnAnswer n seq 3 0 l.fr.txFc.toNat s
        | (s, true) =>
          trnAnswer n seq st a (l.fr.txFc + 4).toNat (modTx n (fun x => { x with accepted := some (m, l.fr.txFc + 4) }) s)

theorem trnRequest_reply (htakes : trnTakes s n m 1 = true) (htyp : bits m 60 4 = 1) (hlane : bits m 57 3 = n.val)
    (hquiet : s.lines[n].tx.trnState ≠ 4 ∨ s.lines[n].rx.st ≠ .up ∨ s.lines[n].act.trnReq = false) :
    trnRequest n m s = requestReply n m (countLine n 0x28 1 s) := by
  have hheard : trnHeard n (countLine n 0x28 1 s) = countLine n 0x28 1 s :=
    trnHeard_quiet (by rw [line_of_lines (countLine_lines s)]; exact hquiet)
  unfold trnRequest
  rw [if_neg (not_not.2 htyp)]
  dsimp only
  rw [if_neg (by rw [trnTakes_counted, htakes]; decide), if_neg (not_not.2 hlane), hheard]
  rfl

/-- What a REQUEST with a new SEQ is answered with, by the responder's own state. -/
structure Reply (l : Line) (m : BitVec 64) (holder : Option Activity) (status fc : Nat) (y : LineTx) : Prop where
  live : y.live = l.tx.live
  accepted : l.tx.accepted ≠ y.accepted → y.accepted = some (m, l.fr.txFc + 4) ∧ fc = (l.fr.txFc + 4).toNat
  disabled : l.act.trnEn = false → status = 4 ∧ y.accepted = l.tx.accepted
  reset : l.act.trnEn = true → l.tx.answerReset = true → status = 5 ∧ y.answerReset = false
  busy : l.act.trnEn = true → l.tx.answerReset = false → (trnEffect l m).2.2.isSome = true → holder.isSome = true →
    status = 3 ∧ y.accepted = l.tx.accepted

theorem arbOffer_lines (k : ArbKind) (cls : Nat) (t : Tgt) (s : State) : (arbOffer k cls t s).1.lines = s.lines :=
  (arbOffer_only (.refl [.evt, .own, .counters, .arb] s) (by decide) (by decide) (by decide) (by decide)).only .lines (by decide)

theorem arbOffer_held {cls : Nat} {t : Tgt} (h : (arbHolder s cls t).isSome = true) : (arbOffer .plain cls t s).2 = false := by
  unfold arbOffer
  split
  · rfl
  · obtain ⟨a, ha⟩ := Option.isSome_iff_exists.1 h
    unfold arbPresentOf
    rw [show arbHolderOf .plain s cls t = some a from ha]

theorem requestReply_fresh (hnew : storedAnswer s.lines[n].tx (BitVec.ofNat 8 (bits m 49 8)) = none) :
    ∃ y status applied fc, Reply s.lines[n] m (arbHolder s 8 (.line (some n))) status fc y ∧
      Answered n (respMsg n (BitVec.ofNat 8 (bits m 49 8)) status applied fc) (BitVec.ofNat 8 (bits m 49 8)) y s (requestReply n m s) := by
  unfold requestReply
  dsimp only
  rw [hnew]
  dsimp only
  have hsame : OtherLines n s s := fun _ _ => rfl
  split
  case isTrue hoff =>
    rw [Bool.not_eq_true'] at hoff
    exact ⟨_, _, _, _, ⟨rfl, fun h => absurd rfl h, fun _ => ⟨rfl, rfl⟩, fun h => absurd (hoff.symm.trans h) Bool.false_ne_true,
        fun h => absurd (hoff.symm.trans h) Bool.false_ne_true⟩,
      trnAnswer_answered rfl hsame _ _ _ _⟩
  case isFalse hon =>
    rw [Bool.not_eq_true', Bool.not_eq_false] at hon
    split
    case isTrue hreset =>
      refine ⟨{ s.lines[n].tx with answerReset := false }, _, _, _,
        ⟨rfl, fun h => absurd rfl h, fun h => absurd (h.symm.trans hon) Bool.false_ne_true, fun _ _ => ⟨rfl, rfl⟩, fun _ h => absurd (h.symm.trans hreset) Bool.false_ne_true⟩,
        trnAnswer_answered ?_ (modTx_otherLines n _ s) _ _ _ _⟩
      rw [modTx_line]
    case isFalse hreset =>
      split
      case h_1 st a heff =>
        exact ⟨_, _, _, _, ⟨rfl, fun h => absurd rfl h, fun h => absurd (h.symm.trans hon) Bool.false_ne_true,
          fun _ h => absurd h hreset, fun _ _ h => absurd h (by rw [heff]; exact Bool.false_ne_true)⟩,
          trnAnswer_answered rfl hsame _ _ _ _⟩
      case h_2 st a set heff =>
        have hlines := arbOffer_lines .plain 8 (.line (some n)) s
        have hheld := arbOffer_held (s := s) (cls := 8) (t := .line (some n))
        generalize arbOffer .plain 8 (.line (some n)) s = o at hlines hheld ⊢
        obtain ⟨u, ok⟩ := o
        have hline : u.lines[n] = s.lines[n] := line_of_lines hlines n
        have hothers : OtherLines n s u := otherLines_of_lines hsame hlines
        cases ok with
        | false =>
          exact ⟨_, _, _, _, ⟨rfl, fun h => absurd rfl h, fun h => absurd (h.symm.trans hon) Bool.false_ne_true,
            fun _ h => absurd h hreset, fun _ _ _ _ => ⟨rfl, rfl⟩⟩,
            trnAnswer_answered hline hothers _ _ _ _⟩
        | true =>
          refine ⟨{ s.lines[n].tx with accepted := some (m, s.lines[n].fr.txFc + 4) }, _, _, _, ⟨rfl, fun _ => ⟨rfl, rfl⟩,
            fun h => absurd (h.symm.trans hon) Bool.false_ne_true, fun _ h => absurd h hreset,
            fun _ _ _ hh => absurd (hheld hh).symm Bool.false_ne_true⟩,
            trnAnswer_answered ?_ (fun k hk => (modTx_otherLines n _ u k hk).trans (hothers k hk)) _ _ _ _⟩
          rw [modTx_line, hline]

/-! ### A DONE -/

/-- What the responder does with a DONE for its lane that has reached it. -/
def doneReply (n : Fin 8) (m : BitVec 64) (s : State) : State :=
  let l := s.lines[n]
  let seq := BitVec.ofNat 8 (bits m 49 8)
  match storedAnswer l.tx seq with
  | some r => scQueue n r s
  | none =>
    if !l.act.trnEn then trnAnswer n seq 4 0 l.fr.txFc.toNat s
    else
      let s := if bit m 48 then modTx n (fun x => { x with lastGood := some x.live }) s else s
      if l.tx.answerReset then
        trnAnswer n seq 5 0 l.fr.txFc.toNat (modTx n (fun x => { x with answerReset := false }) s)
      else trnAnswer n seq 0 0 l.fr.txFc.toNat s

theorem trnDone_reply (htakes : trnTakes s n m 3 = true) (htyp : bits m 60 4 = 3) (hlane : bits m 57 3 = n.val)
    (hquiet : s.lines[n].tx.trnState ≠ 4 ∨ s.lines[n].rx.st ≠ .up ∨ s.lines[n].act.trnReq = false) :
    trnDone n m s = doneReply n m (countLine n 0x28 1 s) := by
  have hheard : trnHeard n (countLine n 0x28 1 s) = countLine n 0x28 1 s :=
    trnHeard_quiet (by rw [line_of_lines (countLine_lines s)]; exact hquiet)
  unfold trnDone
  rw [if_neg (not_not.2 htyp)]
  dsimp only
  rw [if_neg (by rw [trnTakes_counted, htakes]; decide), if_neg (not_not.2 hlane), hheard]
  rfl

theorem doneReply_fresh (hnew : storedAnswer s.lines[n].tx (BitVec.ofNat 8 (bits m 49 8)) = none) :
    OtherLines n s (doneReply n m s) ∧ (doneReply n m s).lines[n].tx.lastGood =
      if s.lines[n].act.trnEn = true ∧ bit m 48 = true then some s.lines[n].tx.live else s.lines[n].tx.lastGood := by
  have hanswer : ∀ {u : State} (seq : Byte) (st ap fc : Nat), OtherLines n s u → OtherLines n s (trnAnswer n seq st ap fc u) ∧
      (trnAnswer n seq st ap fc u).lines[n].tx.lastGood = u.lines[n].tx.lastGood := fun {u} seq st ap fc hu => by
    have h := trnAnswer_answered (s := u) (u := u) (n := n) (y := u.lines[n].tx) rfl (fun _ _ => rfl) seq st ap fc
    exact ⟨fun k hk => (h.others k hk).trans (hu k hk), by rw [h.line]⟩
  unfold doneReply
  dsimp only
  rw [hnew]
  dsimp only
  split
  case isTrue hoff =>
    rw [Bool.not_eq_true'] at hoff
    rw [if_neg (c := _ ∧ _) fun h => absurd (hoff.symm.trans h.1) Bool.false_ne_true]
    exact hanswer _ _ _ _ fun _ _ => rfl
  case isFalse hon =>
    rw [Bool.not_eq_true', Bool.not_eq_false] at hon
    have hstored : OtherLines n s (if bit m 48 = true then modTx n (fun x => { x with lastGood := some x.live }) s else s) ∧
        (if bit m 48 = true then modTx n (fun x => { x with lastGood := some x.live }) s else s).lines[n].tx.lastGood =
          if s.lines[n].act.trnEn = true ∧ bit m 48 = true then some s.lines[n].tx.live else s.lines[n].tx.lastGood := by
      by_cases hgood : bit m 48 = true
      · rw [if_pos hgood, if_pos (c := _ ∧ _) ⟨hon, hgood⟩, modTx_line]
        exact ⟨modTx_otherLines n _ s, rfl⟩
      · rw [if_neg hgood, if_neg (c := _ ∧ _) fun h => hgood h.2]
        exact ⟨fun _ _ => rfl, rfl⟩
    generalize (if bit m 48 = true then modTx n (fun x => { x with lastGood := some x.live }) s else s) = u at hstored ⊢
    obtain ⟨hothers, hgood⟩ := hstored
    split
    · obtain ⟨ho, hl⟩ := hanswer (BitVec.ofNat 8 (bits m 49 8)) 5 0 s.lines[n].fr.txFc.toNat
        (u := modTx n (fun x => { x with answerReset := false }) u) fun k hk => (modTx_otherLines n _ u k hk).trans (hothers k hk)
      refine ⟨ho, hl.trans ?_⟩
      rw [modTx_line]
      exact hgood
    · obtain ⟨ho, hl⟩ := hanswer (BitVec.ofNat 8 (bits m 49 8)) 0 0 s.lines[n].fr.txFc.toNat hothers
      exact ⟨ho, hl.trans hgood⟩

/-! ### Another lane's message -/

theorem trnMismatch_line (n : Fin 8) (lane : Nat) (s : State) : OtherLines n s (trnMismatch n lane s) ∧ (trnMismatch n lane s).lines[n] =
    { s.lines[n] with tx := { s.lines[n].tx with mismatch := true, mismatchRaised := true } } ∧
    (s.lines[n].tx.mismatchRaised = false → Latched (lineSrc n 0x13) s (trnMismatch n lane s)) := by
  unfold trnMismatch
  dsimp only
  have hset := modTx_line n (fun x => { x with mismatch := true, mismatchRaised := true }) s
  have hothers := modTx_otherLines n (fun x => { x with mismatch := true, mismatchRaised := true }) s
  have hevt : LatchesStay s (modTx n (fun x => { x with mismatch := true, mismatchRaised := true }) s) := .of_evt rfl
  generalize modTx n (fun x => { x with mismatch := true, mismatchRaised := true }) s = u at hset hothers hevt ⊢
  split
  · exact ⟨otherLines_of_lines hothers (raise_lines u), (line_of_lines (raise_lines u) n).trans hset,
      fun _ => Latched.stays (latched_lineSrc n (by decide) _ u) hevt (.refl _)⟩
  case isFalse hraised => exact ⟨hothers, hset, fun h => absurd (by rw [h]; rfl) hraised⟩

/-! ### The frame of an answer -/

theorem trnApply_waits {q : BitVec 64} {f : BitVec 16} (hacc : s.lines[n].tx.accepted = some (q, f)) (hwait : (s.lines[n].fr.txFc - f).toInt < 0) :
    trnApply n s = s := by
  unfold trnApply
  rw [hacc]
  have hreached : fcReached s.lines[n].fr.txFc f = false := decide_eq_false (by omega)
  exact if_pos (by rw [hreached]; simp)

theorem trnApply_applies {q : BitVec 64} {f : BitVec 16} (hacc : s.lines[n].tx.accepted = some (q, f)) (hrun : s.rst.mgmtRun = true)
    (hdom : domOn s (txDomain n) = true) (hdue : 0 ≤ (s.lines[n].fr.txFc - f).toInt) : OtherLines n s (trnApply n s) ∧
      (trnApply n s).lines[n].tx = { s.lines[n].tx with accepted := none, live := (trnEffect s.lines[n] q).2.2.getD s.lines[n].tx.live } ∧
      (trnApply n s).arb.admitted = s.arb.admitted.erase { cls := 8, target := Tgt.code (.line (some n)) } := by
  unfold trnApply
  rw [hacc]
  dsimp only
  have hreached : fcReached s.lines[n].fr.txFc f = true := decide_eq_true hdue
  rw [if_neg (by rw [hrun, hdom, hreached]; decide)]
  refine ⟨modLine_otherLines n _ _, ?_, rfl⟩
  refine (congrArg Line.tx (upd_get_self (arbEnd 8 (.line (some n)) s).lines n _)).trans ?_
  rw [show (arbEnd 8 (.line (some n)) s).lines = s.lines from rfl]
  rcases trnEffect s.lines[n] q with ⟨st, a, _ | set⟩
  · rfl
  · rfl

end

end Sys2Proof.Machine
end

section
/-! SUPPORT. The responder of far-end training as a whole (R160, R161, R164 to R166, R176). -/

namespace Sys2Proof.Machine

open Sys2Proof

section
variable {n : Fin 8} {m : BitVec 64} {s : State}

theorem countLine_line (k : Fin 8) (sel c : Nat) (s : State) : (countLine k sel c s).lines[n] = s.lines[n] :=
  line_of_lines (countLine_lines s) n

theorem otherLines_counted {t : State} {k : Fin 8} {sel c : Nat} (h : OtherLines n (countLine k sel c s) t) : OtherLines n s t :=
  fun j hj => (h j hj).trans (line_of_lines (countLine_lines s) j)

/-- A message that does not reach the training logic is counted. -/
theorem trnTakes_not {typ : Nat} (h : ¬(trnRuns s = true ∧ domOn s (txDomain n) = true)) : trnTakes s n m typ = false := by
  unfold trnTakes
  cases hr : trnRuns s with
  | false => rfl
  | true =>
    rw [Bool.eq_false_iff.2 fun hd => h ⟨hr, hd⟩]
    rfl

theorem trnTakes_of {typ : Nat} (h : trnRuns s = true ∧ domOn s (txDomain n) = true) (htyp : bits m 60 4 = typ) :
    trnTakes s n m typ = true := by
  unfold trnTakes
  rw [h.1, h.2, htyp, beq_self_eq_true]
  rfl

theorem trnRequest_turned (h : ¬(trnRuns s = true ∧ domOn s (txDomain n) = true)) (htyp : bits m 60 4 = 1) :
    trnRequest n m s = countLine n 0x28 1 s := by
  unfold trnRequest
  rw [if_neg (not_not.2 htyp)]
  exact if_pos (by rw [trnTakes_counted, trnTakes_not h]; rfl)

theorem trnDone_turned (h : ¬(trnRuns s = true ∧ domOn s (txDomain n) = true)) (htyp : bits m 60 4 = 3) :
    trnDone n m s = countLine n 0x28 1 s := by
  unfold trnDone
  rw [if_neg (not_not.2 htyp)]
  exact if_pos (by rw [trnTakes_counted, trnTakes_not h]; rfl)

theorem trnRequest_mismatch (h : trnRuns s = true ∧ domOn s (txDomain n) = true) (htyp : bits m 60 4 = 1) (hlane : bits m 57 3 ≠ n.val) :
    trnRequest n m s = trnMismatch n (bits m 57 3) (countLine n 0x28 1 s) := by
  unfold trnRequest
  rw [if_neg (not_not.2 htyp)]
  dsimp only
  rw [if_neg (by rw [trnTakes_counted, trnTakes_of h htyp]; decide), if_pos hlane]

theorem trnDone_mismatch (h : trnRuns s = true ∧ domOn s (txDomain n) = true) (htyp : bits m 60 4 = 3) (hlane : bits m 57 3 ≠ n.val) :
    trnDone n m s = trnMismatch n (bits m 57 3) (countLine n 0x28 1 s) := by
  unfold trnDone
  rw [if_neg (not_not.2 htyp)]
  dsimp only
  rw [if_neg (by rw [trnTakes_counted, trnTakes_of h htyp]; decide), if_pos hlane]

/-- A mismatch that is counted as a message too. -/
theorem counted_mismatch (n : Fin 8) (lane : Nat) (s : State) : OtherLines n s (trnMismatch n lane (countLine n 0x28 1 s)) ∧
    (trnMismatch n lane (countLine n 0x28 1 s)).lines[n] =
      { s.lines[n] with tx := { s.lines[n].tx with mismatch := true, mismatchRaised := true } } ∧
    (s.lines[n].tx.mismatchRaised = false → Latched (lineSrc n 0x13) s (trnMismatch n lane (countLine n 0x28 1 s))) := by
  obtain ⟨hothers, hline, hraised⟩ := trnMismatch_line n lane (countLine n 0x28 1 s)
  have hsame := countLine_line (n := n) n 0x28 1 s
  rw [hsame] at hline hraised
  exact ⟨otherLines_counted hothers, hline, fun h => Latched.stays (hraised h)
    (.of_only (countLine_only (.refl [.counters] s) (by decide)) (by decide)) (.refl _)⟩

/-- A repeated SEQ is answered as before. -/
theorem scQueue_counted (r : BitVec 64) : OtherLines n s (scQueue n r (countLine n 0x28 1 s)) ∧
    (scQueue n r (countLine n 0x28 1 s)).lines[n] =
      { s.lines[n] with fr := { s.lines[n].fr with out := s.lines[n].fr.out ++ [r] } } := by
  refine ⟨otherLines_counted (scQueue_otherLines n r _), ?_⟩
  rw [scQueue_line, countLine_line]

/-- A REQUEST with a new SEQ for this lane. -/
theorem trnRequest_fresh (hruns : trnRuns s = true ∧ domOn s (txDomain n) = true) (hlane : bits m 57 3 = n.val)
    (hquiet : s.lines[n].tx.trnState ≠ 4 ∨ s.lines[n].rx.st ≠ .up ∨ s.lines[n].act.trnReq = false)
    (hfresh : ∀ q r, s.lines[n].tx.lastAnswer = some (q, r) → q.toNat ≠ bits m 49 8) (htyp : bits m 60 4 = 1) :
    ∃ y status applied fc, Reply s.lines[n] m (arbHolder s 8 (.line (some n))) status fc y ∧
      Answered n (respMsg n (BitVec.ofNat 8 (bits m 49 8)) status applied fc) (BitVec.ofNat 8 (bits m 49 8)) y s (trnRequest n m s) := by
  have hline := countLine_line (n := n) n 0x28 1 s
  have hstored : storedAnswer (countLine n 0x28 1 s).lines[n].tx (BitVec.ofNat 8 (bits m 49 8)) = none := by
    rw [hline]
    exact storedAnswer_fresh hfresh
  obtain ⟨y, st, ap, fc, hreply, hans⟩ := requestReply_fresh hstored
  rw [hline, arbHolder_counted] at hreply
  rw [trnRequest_reply (trnTakes_of hruns htyp) htyp hlane hquiet]
  exact ⟨y, st, ap, fc, hreply, by rw [hans.line, hline], otherLines_counted hans.others⟩

end

/-- Settles O46. -/
theorem trainingResponder : Obligations.TrainingResponder := by
  unfold Obligations.TrainingResponder
  intro n m s l x runs quiet fresh
  refine ⟨fun htyp => congrArg Host.Outcome.next (if_pos htyp), fun htyp => congrArg Host.Outcome.next (if_pos htyp),
    fun hno => ⟨fun htyp => congrArg Host.Outcome.next (trnRequest_turned hno htyp),
      fun htyp => congrArg Host.Outcome.next (trnDone_turned hno htyp)⟩,
    fun hruns hlane => ⟨fun htyp => ?request_mismatch, fun htyp => ?done_mismatch⟩,
    fun hruns hlane hquiet => ⟨fun q r hq hseq => ⟨fun htyp => ?request_again, fun htyp => ?done_again⟩,
      fun hfresh => ⟨fun htyp => ?request_new, fun htyp => ?done_new⟩⟩, fun hidle => ?idle,
    fun q f hacc hrun hdom => ⟨fun hwait => congrArg Host.Outcome.next (trnApply_waits hacc hwait),
      fun hdue => ⟨_, rfl, trnApply_applies hacc hrun hdom hdue⟩⟩⟩
  case request_mismatch =>
    refine ⟨_, congrArg Host.Outcome.next (trnRequest_mismatch hruns htyp hlane), counted_mismatch n _ s⟩
  case done_mismatch =>
    refine ⟨_, congrArg Host.Outcome.next (trnDone_mismatch hruns htyp hlane), counted_mismatch n _ s⟩
  case request_again =>
    have hstored : requestReply n m (countLine n 0x28 1 s) = scQueue n r (countLine n 0x28 1 s) := by
      unfold requestReply
      dsimp only
      rw [countLine_line, storedAnswer_repeated hq hseq]
    exact ⟨_, congrArg Host.Outcome.next ((trnRequest_reply (trnTakes_of hruns htyp) htyp hlane hquiet).trans hstored), scQueue_counted r⟩
  case done_again =>
    have hstored : doneReply n m (countLine n 0x28 1 s) = scQueue n r (countLine n 0x28 1 s) := by
      unfold doneReply
      dsimp only
      rw [countLine_line, storedAnswer_repeated hq hseq]
    exact ⟨_, congrArg Host.Outcome.next ((trnDone_reply (trnTakes_of hruns htyp) htyp hlane hquiet).trans hstored), scQueue_counted r⟩
  case request_new =>
    obtain ⟨y, st, ap, fc, hreply, hans⟩ := trnRequest_fresh hruns hlane hquiet hfresh htyp
    obtain ⟨htyp', hlane', hseq', hst, hfc⟩ := respMsg_fields n (BitVec.ofNat 8 (bits m 49 8)) st ap fc
    have hseq : (BitVec.ofNat 8 (bits m 49 8)).toNat = bits m 49 8 := Nat.mod_eq_of_lt (Nat.mod_lt _ (by decide))
    refine ⟨_, rfl, hans.others, respMsg n (BitVec.ofNat 8 (bits m 49 8)) st ap fc, ?_, ?_⟩
    · rw [hans.line]
      simp
    · rw [hans.line]
      refine ⟨rfl, rfl, hreply.live, htyp', hlane', hseq'.trans hseq, fun hne => ?_, fun hoff => ?_, fun hon hreset => ?_,
        fun hon hreset heff hheld => ?_⟩
      · obtain ⟨hacc, rfl⟩ := hreply.accepted hne
        exact ⟨hacc, hfc.trans (Nat.mod_eq_of_lt (BitVec.isLt _))⟩
      · obtain ⟨rfl, hacc⟩ := hreply.disabled hoff
        exact ⟨hst, hacc⟩
      · obtain ⟨rfl, hacc⟩ := hreply.reset hon hreset
        exact ⟨hst, hacc⟩
      · obtain ⟨rfl, hacc⟩ := hreply.busy hon hreset heff hheld
        exact ⟨hst, hacc⟩
  case done_new =>
    have hline := countLine_line (n := n) n 0x28 1 s
    have hstored : storedAnswer (countLine n 0x28 1 s).lines[n].tx (BitVec.ofNat 8 (bits m 49 8)) = none := by
      rw [hline]
      exact storedAnswer_fresh hfresh
    obtain ⟨hothers, hgood⟩ := doneReply_fresh hstored
    rw [hline] at hgood
    exact ⟨_, congrArg Host.Outcome.next (trnDone_reply (trnTakes_of hruns htyp) htyp hlane hquiet), otherLines_counted hothers, hgood⟩
  case idle =>
    refine congrArg Host.Outcome.next ?_
    unfold trnApply
    rcases hidle with hnone | hstop | hoff
    · rw [hnone]
    · split
      · rfl
      · exact if_pos (by rw [hstop]; rfl)
    · split
      · rfl
      · exact if_pos (by rw [hoff]; simp)

end Sys2Proof.Machine
end

section
/-! SUPPORT. What the end of a quality window does to training and to the margin (R137, R167). -/

namespace Sys2Proof.Machine

open Sys2Proof

section
variable {n : Fin 8} {s t u : State}

/-! ### The requester's step at a window's end -/

/-- From s to t line lane n changes in its transmitter and in the messages that it sends alone. -/
def TrainStep (n : Fin 8) (s t : State) : Prop :=
  ∃ x o, LineStep n s t { s.lines[n] with tx := x, fr := { s.lines[n].fr with out := o } }

theorem TrainStep.refl (n : Fin 8) (s : State) : TrainStep n s s := ⟨_, _, .refl n s⟩

theorem TrainStep.trans (h : TrainStep n s t) (k : TrainStep n t u) : TrainStep n s u := by
  obtain ⟨x, o, h⟩ := h
  obtain ⟨y, q, k⟩ := k
  rw [h.line] at k
  exact ⟨y, q, h.trans k⟩

theorem TrainStep.either {c : Prop} [Decidable c] (h : TrainStep n s t) (k : TrainStep n s u) : TrainStep n s (if c then t else u) := by
  split
  · exact h
  · exact k

theorem modTx_trainStep (n : Fin 8) (f : LineTx → LineTx) (s : State) : TrainStep n s (modTx n f s) :=
  ⟨_, _, (LineStep.refl n s).modTx f⟩

theorem scQueue_trainStep (n : Fin 8) (m : BitVec 64) (s : State) : TrainStep n s (scQueue n m s) :=
  ⟨_, _, (LineStep.refl n s).modFr _⟩

theorem raise_trainStep (n : Fin 8) (src : Nat) (w : Word) (s : State) : TrainStep n s (raise src w s) :=
  ⟨_, _, (LineStep.refl n s).raise src w⟩

theorem draw_trainStep (n : Fin 8) (s : State) : TrainStep n s (draw s).2 := ⟨_, _, (LineStep.refl n s).draw⟩

theorem trnSend_trainStep (n : Fin 8) (m : BitVec 64) (p : Requester) (s : State) : TrainStep n s (trnSend n m p s) :=
  (modTx_trainStep n _ s).trans (scQueue_trainStep n m _)

theorem trnAskFir_trainStep (n : Fin 8) (down : Bool) (count : Nat) (p : Requester) (s : State) :
    TrainStep n s (trnAskFir n down count p s) := trnSend_trainStep n _ p s

theorem trnFinish_trainStep (n : Fin 8) (s : State) : TrainStep n s (trnFinish n s) :=
  ((modTx_trainStep n _ s).trans (scQueue_trainStep n _ _)).trans (raise_trainStep n _ _ _)

theorem trnContext_trainStep (n : Fin 8) (p : Requester) (c : Nat) (s : State) : TrainStep n s (trnContext n p c s) :=
  .either (trnFinish_trainStep n s) (modTx_trainStep n _ s)

theorem trnBase_trainStep (n : Fin 8) (p : Requester) (s : State) : TrainStep n s (trnBase n p s) := modTx_trainStep n _ s

theorem trnNextOffset_trainStep (n : Fin 8) (p : Requester) (s : State) : TrainStep n s (trnNextOffset n p s) :=
  .either (trnBase_trainStep n _ s) (.either (trnBase_trainStep n _ s) (trnContext_trainStep n _ 0 s))

theorem contextMean_trainStep (n : Fin 8) (sum : Rat) (cnt : Nat) (s : State) : TrainStep n s (contextMean sum cnt s).2 := by
  unfold contextMean
  split
  · exact draw_trainStep n s
  · exact .refl n s

theorem trnWindow_trainStep (n : Fin 8) (s : State) : TrainStep n s (trnWindow n s) := by
  unfold trnWindow
  refine .either (.refl n s) ?_
  split
  case h_1 => exact .refl n s
  case h_2 p hp =>
    split
    case h_1 w sum hstep => exact .either (modTx_trainStep n _ s) (trnAskFir_trainStep n _ _ _ s)
    case h_2 fc seen w sum hstep =>
      exact .either (.refl n s) (.either (modTx_trainStep n _ s) (.either (trnNextOffset_trainStep n _ s) (trnAskFir_trainStep n _ _ _ s)))
    case h_3 w sum cnt last hstep =>
      refine .either (modTx_trainStep n _ s) (.either (modTx_trainStep n _ s) ((contextMean_trainStep n sum cnt s).trans ?_))
      exact .either (trnSend_trainStep n _ _ _) (trnContext_trainStep n _ _ _)
    case h_4 => exact .refl n s

/-! ### The margin -/

/-- The runs of windows with a low and with a high margin. -/
def LineEq.marginRuns (low high : Nat) (raised : Bool) (e : LineEq) : LineEq := { e with lowRun := low, highRun := high, lowRaised := raised }

theorem LineStep.either {c : Prop} [Decidable c] {l : Line} (h : LineStep n s t l) (k : LineStep n s u l) :
    LineStep n s (if c then t else u) l := by
  split
  · exact h
  · exact k

theorem marginLow_step (n : Fin 8) (s : State) : ∃ low high raised, LineStep n s (marginLow n s)
    { s.lines[n] with eq := s.lines[n].eq.marginRuns low high raised } := by
  unfold marginLow
  dsimp only
  split
  · exact ⟨0, 0, s.lines[n].eq.lowRaised, (LineStep.refl n s).modEq _⟩
  · exact ⟨_, _, _, .either (((LineStep.refl n s).modEq _).raise _ _) ((LineStep.refl n s).modEq _)⟩

end

end Sys2Proof.Machine
end

section
/-! SUPPORT. Quality windows, floating groups and the stored bank (R87, R98, R113, R120, R121, R127, R130 to R136, R140, R141). -/

namespace Sys2Proof.Machine

open Sys2Proof

/-! ### The figures of a window -/

section
variable {code : Nat} {e : LineEq} {s : State} {m : Rat}

theorem ratioOr_quot (p : Rat) (hm : m ≠ 0) (s : State) : (ratioOr (quot p (some m)) s).1 = p / m := by
  have hq : quot p (some m) = some (p / m) := if_neg hm
  rw [hq]
  rfl

theorem figuresOf_ratio (h : e.acc.mse = some m) (hm : m ≠ 0) : (figuresOf code e s).1.ratio = levelPower e.live / m := by
  change (ratioOr (quot (levelPower e.live) e.acc.mse) s).1 = _
  rw [h]
  exact ratioOr_quot _ hm s

theorem figuresOf_tent (h : e.acc.tentMse = some m) (hm : m ≠ 0) : (figuresOf code e s).1.tent = levelPower e.live / m := by
  change (ratioOr (quot (levelPower e.live) e.acc.tentMse) (ratioOr (quot (levelPower e.live) e.acc.mse) s).2).1 = _
  rw [h]
  exact ratioOr_quot _ hm _

theorem dbField_held {r : Rat} (hr : 0 < r) (hlo : 0 ≤ cdB r.num.natAbs r.den) (hhi : cdB r.num.natAbs r.den < 65536) (s : State) :
    (dbField r s).1 = cdB r.num.natAbs r.den := by
  unfold dbField
  dsimp only
  rw [if_pos hr, decide_eq_true hr, decide_eq_true hlo, decide_eq_true hhi]
  rfl

theorem figuresOf_snr (h : e.acc.mse = some m) (hm : m ≠ 0) (hpos : 0 < levelPower e.live / m)
    (hlo : 0 ≤ cdB (levelPower e.live / m).num.natAbs (levelPower e.live / m).den)
    (hhi : cdB (levelPower e.live / m).num.natAbs (levelPower e.live / m).den < 65536) :
    (figuresOf code e s).1.snr = cdB (levelPower e.live / m).num.natAbs (levelPower e.live / m).den := by
  have hratio := figuresOf_ratio (code := code) (s := s) h hm
  change (dbField (figuresOf code e s).1.ratio _).1 = _
  rw [hratio]
  exact dbField_held hpos hlo hhi _

theorem figuresOf_eye {v : Int} (h : eyeOf e.acc.hist = some v) : (figuresOf code e s).1.eye = satS 16 v := by
  unfold figuresOf
  dsimp only
  rw [h]

theorem figuresOf_pre {v : Rat} (h : e.acc.errors = some v) : (figuresOf code e s).1.pre = rateOf v.num.natAbs v.den := by
  unfold figuresOf
  dsimp only
  rw [h]

theorem figuresOf_pen (h : e.muted = true) : (figuresOf code e s).1.pen = 0 := by
  unfold figuresOf
  dsimp only
  rw [h]
  rfl

end

end Sys2Proof.Machine
end

section
/-! SUPPORT. The end of a quality window on a lane that adapts (R87, R98, R120, R121, R130 to R136, R140). -/

namespace Sys2Proof.Machine

open Sys2Proof

/-- What the end of a window leaves to be read: the figures, CONV, and the skew estimates. -/
structure WindowView where
  sat : Bool
  acc : QualAcc
  mse : Option Rat
  snr : Int
  eye : Int
  preFec : Nat
  mutePen : Nat
  conv : Bool
  skewWins : Nat
  skews : List Nat

def Line.windowView (l : Line) : WindowView :=
  { sat := l.eq.sat, acc := l.eq.acc, mse := l.eq.mse, snr := l.eq.snr, eye := l.eq.eye, preFec := l.eq.preFec
    mutePen := l.eq.mutePen, conv := l.eq.conv, skewWins := l.rx.skewWins, skews := l.rx.skews }

/-- The state of acquisition and the phase of adaptation. -/
def Line.stage (l : Line) : AcqState × Nat := (l.rx.st, l.eq.phase)

/-- The window's figures are taken and it begins anew. -/
def LineEq.windowed (f : Figures) (conv : Bool) (e : LineEq) : LineEq := { e with
  snr := f.snr, eye := f.eye, preFec := f.pre.toNat, margin := f.margin, mutePen := f.pen.toNat
  mse := match e.acc.mse with | some m => some m | none => e.mse
  snrHist := (f.ratio :: e.snrHist).take 4, sat := false, conv := conv, acc := QualAcc.reset }

/-- One window more toward the next skew estimates, or these. -/
def LineRx.skewed (skews : List Nat) (r : LineRx) : LineRx :=
  if r.skewWins < 15 then { r with skewWins := r.skewWins + 1 } else { r with skewWins := 0, skews := skews.take 64 }

section
variable {n : Fin 8} {s t u : State}

/-- A step of lane n that leaves what a window shows. -/
structure WindowKept (n : Fin 8) (s t : State) : Prop where
  step : ∃ l, LineStep n s t l
  view : SameLine n Line.windowView s t

theorem WindowKept.refl (n : Fin 8) (s : State) : WindowKept n s s := ⟨⟨_, .refl n s⟩, rfl⟩

theorem WindowKept.trans (h : WindowKept n s t) (k : WindowKept n t u) : WindowKept n s u := by
  obtain ⟨l, hl⟩ := h.step
  obtain ⟨m, hm⟩ := k.step
  exact ⟨⟨m, hl.trans hm⟩, h.view.trans k.view⟩

theorem WindowKept.of_step {l : Line} (h : LineStep n s t l) (e : l.windowView = s.lines[n].windowView) : WindowKept n s t :=
  ⟨⟨l, h⟩, .of_step h e⟩

theorem frameCheck_window (n : Fin 8) (s : State) : WindowKept n s (frameCheck n s) ∧ (frameCheck n s).lines[n].eq.phase = s.lines[n].eq.phase ∧
    (s.lines[n].rx.st = .frame → (frameCheck n s).lines[n].rx.st = if s.lines[n].rx.inFrame = true then .up else .frame) := by
  unfold frameCheck
  dsimp only
  obtain ⟨⟨d, e, x, hup⟩, -⟩ := enterUp_step n s
  split
  case isTrue h =>
    refine ⟨.of_step hup rfl, by rw [hup.line], fun hst => ?_⟩
    have hin : s.lines[n].rx.inFrame = true := h.2.resolve_right fun hr => by rw [hst] at hr; cases hr.1
    rw [hup.line, if_pos hin]
    rfl
  case isFalse h =>
    refine ⟨.refl n s, rfl, fun hst => ?_⟩
    rw [if_neg (c := s.lines[n].rx.inFrame = true) fun hin => h ⟨.inl hst, .inl hin⟩, hst]

theorem blindEnd_window (n : Fin 8) (s : State) : WindowKept n s (blindEnd n s) ∧
    (blindEnd n s).lines[n].stage = (s.lines[n].rx.st, if s.lines[n].rx.st = .train ∧ s.lines[n].eq.phase = 1 then 2 else s.lines[n].eq.phase) := by
  have hstep := (LineStep.refl n s).modLine
    fun l => if l.rx.st = .train ∧ l.eq.phase = 1 then { l with eq := eqPhase2 true l.act l.eq } else l
  refine ⟨.of_step hstep ?_, (congrArg Line.stage hstep.line).trans ?_⟩
  · split
    · rfl
    · rfl
  · split
    · rfl
    · rfl

theorem marginLow_window (n : Fin 8) (s : State) : WindowKept n s (marginLow n s) ∧ SameLine n Line.stage s (marginLow n s) := by
  obtain ⟨low, high, raised, h⟩ := marginLow_step n s
  exact ⟨.of_step h rfl, .of_step h rfl⟩

theorem trnWindow_window (n : Fin 8) (s : State) : WindowKept n s (trnWindow n s) ∧ SameLine n Line.stage s (trnWindow n s) := by
  obtain ⟨x, o, h⟩ := trnWindow_trainStep n s
  exact ⟨.of_step h rfl, .of_step h rfl⟩

/-! ### The end of a window -/

/-- The figures of the window and whether the lane has converged. -/
def windowFigures (n : Fin 8) (s : State) : Figures := (figuresOf (lineCode s n) s.lines[n].eq s).1
def windowConv (n : Fin 8) (s : State) : Bool := converged s.lines[n] (lineCode s n) (windowFigures n s)

/-- The state in which the figures of the window have been taken. -/
def windowTaken (n : Fin 8) (skews : List Nat) (s : State) : State :=
  modEq n (·.windowed (windowFigures n s) (windowConv n s)) (skewRefresh n skews (figuresOf (lineCode s n) s.lines[n].eq s).2)

theorem windowTaken_step (n : Fin 8) (skews : List Nat) (s : State) : LineStep n s (windowTaken n skews s) { s.lines[n] with
    rx := s.lines[n].rx.skewed skews, eq := s.lines[n].eq.windowed (windowFigures n s) (windowConv n s) } := by
  have hfig : LineStep n s (figuresOf (lineCode s n) s.lines[n].eq s).2 s.lines[n] :=
    (LineStep.refl n s).of_only (figuresOf_only (.refl [.free] s) (by decide)) (by decide)
  exact (hfig.modRx (·.skewed skews)).modEq _

/-- The blind phase ends at 12 dB; then TRAIN gives way to FRAME once the lane has converged. -/
def windowMoved (n : Fin 8) (s : State) (u : State) : State :=
  let u := if s.lines[n].eq.phase = 1 ∧ 10 ^ 6 ≤ (windowFigures n s).tent ^ 5 then blindEnd n u else u
  if s.lines[n].rx.st = .train ∧ windowConv n s = true then
    frameCheck n (modLine n (fun l => { l with rx := { l.rx with st := .frame }, eq := { l.eq with phase := 3 }
                                               fr := { l.fr with idValid := false } }) u)
  else if s.lines[n].rx.st = .relock ∧ lineCode s n = 2 then frameCheck n u else u

theorem qualityWindow_moves {skews : List Nat} (h : ¬(s.lines[n].rx.st ≠ .train ∧ s.lines[n].rx.st ≠ .frame ∧ s.lines[n].rx.st ≠ .up ∧
    s.lines[n].rx.st ≠ .relock)) :
    qualityWindow n skews s = trnWindow n (marginLow n (windowMoved n s (windowTaken n skews s))) := by
  unfold qualityWindow
  exact if_neg h

theorem windowMoved_window (s u : State) : WindowKept n u (windowMoved n s u) := by
  unfold windowMoved
  dsimp only
  have hblind : WindowKept n u (if s.lines[n].eq.phase = 1 ∧ 10 ^ 6 ≤ (windowFigures n s).tent ^ 5 then blindEnd n u else u) := by
    split
    · exact (blindEnd_window n u).1
    · exact .refl n u
  refine hblind.trans ?_
  generalize (if s.lines[n].eq.phase = 1 ∧ 10 ^ 6 ≤ (windowFigures n s).tent ^ 5 then blindEnd n u else u) = v
  split
  · exact .trans (.of_step ((LineStep.refl n v).modLine _) rfl) (frameCheck_window n _).1
  · split
    · exact (frameCheck_window n v).1
    · exact .refl n v

end

end Sys2Proof.Machine
end

section
/-! SUPPORT. Where a quality window leads, the sweep of the floating groups, and the stored bank (R98, R112, R113, R121, R127, R141). -/

namespace Sys2Proof.Machine

open Sys2Proof

section
variable {n : Fin 8} {s u : State}

/-! ### Where a quality window leads -/

/-- The blind phase at a window's end leaves the receiver; it ends in TRAIN at 12 dB. -/
theorem blindJudged (hst : u.lines[n].rx.st = s.lines[n].rx.st) (hph : u.lines[n].eq.phase = s.lines[n].eq.phase) {c : Prop} [Decidable c] :
    (if s.lines[n].eq.phase = 1 ∧ c then blindEnd n u else u).lines[n].rx = u.lines[n].rx ∧
    (if s.lines[n].eq.phase = 1 ∧ c then blindEnd n u else u).lines[n].eq.phase =
      if (s.lines[n].eq.phase = 1 ∧ c) ∧ s.lines[n].rx.st = .train then 2 else s.lines[n].eq.phase := by
  split
  case isTrue h =>
    have hstage := (blindEnd_window n u).2
    have hrx : SameLine n Line.rx u (blindEnd n u) := .modLine (fun l => by split <;> rfl) u
    refine ⟨hrx, (congrArg Prod.snd hstage).trans ?_⟩
    dsimp only
    rw [hst, hph]
    by_cases htrain : s.lines[n].rx.st = .train
    · rw [if_pos (c := _ ∧ _) ⟨htrain, h.1⟩, if_pos (c := _ ∧ _) ⟨h, htrain⟩]
    · rw [if_neg (c := _ ∧ _) fun hc => htrain hc.1, if_neg (c := _ ∧ _) fun hc => htrain hc.2]
  case isFalse h =>
    rw [if_neg (c := _ ∧ _) fun hc => h hc.1]
    exact ⟨rfl, hph⟩

theorem windowMoved_other (hst : u.lines[n].rx.st = s.lines[n].rx.st) (hph : u.lines[n].eq.phase = s.lines[n].eq.phase)
    (ht : s.lines[n].rx.st ≠ .train) (hr : s.lines[n].rx.st ≠ .relock) : (windowMoved n s u).lines[n].rx.st = s.lines[n].rx.st := by
  unfold windowMoved
  dsimp only
  rw [if_neg (c := s.lines[n].rx.st = .train ∧ _) fun h => ht h.1, if_neg (c := s.lines[n].rx.st = .relock ∧ _) fun h => hr h.1]
  exact (congrArg LineRx.st (blindJudged hst hph).1).trans hst

theorem windowMoved_training (hst : u.lines[n].rx.st = s.lines[n].rx.st) (hph : u.lines[n].eq.phase = s.lines[n].eq.phase)
    (ht : s.lines[n].rx.st = .train) (hconv : windowConv n s = false) : (windowMoved n s u).lines[n].stage =
      (.train, if s.lines[n].eq.phase = 1 ∧ 10 ^ 6 ≤ (windowFigures n s).tent ^ 5 then 2 else s.lines[n].eq.phase) := by
  unfold windowMoved
  dsimp only
  rw [if_neg (c := s.lines[n].rx.st = .train ∧ _) fun h => absurd (hconv.symm.trans h.2) Bool.false_ne_true,
    if_neg (c := s.lines[n].rx.st = .relock ∧ _) fun h => by rw [ht] at h; cases h.1]
  obtain ⟨hrx, hphase⟩ := blindJudged hst hph (c := 10 ^ 6 ≤ (windowFigures n s).tent ^ 5)
  refine Prod.ext ((congrArg LineRx.st hrx).trans (hst.trans ht)) (hphase.trans ?_)
  by_cases hc : s.lines[n].eq.phase = 1 ∧ 10 ^ 6 ≤ (windowFigures n s).tent ^ 5
  · rw [if_pos hc, if_pos (c := _ ∧ _) ⟨hc, ht⟩]
  · rw [if_neg hc, if_neg (c := _ ∧ _) fun h => hc h.1]

theorem windowMoved_converged (hst : u.lines[n].rx.st = s.lines[n].rx.st) (hph : u.lines[n].eq.phase = s.lines[n].eq.phase)
    (ht : s.lines[n].rx.st = .train) (hconv : windowConv n s = true) :
    (windowMoved n s u).lines[n].rx.st = if u.lines[n].rx.inFrame = true then .up else .frame := by
  unfold windowMoved
  dsimp only
  rw [if_pos (c := s.lines[n].rx.st = .train ∧ _) ⟨ht, hconv⟩]
  obtain ⟨hrx, -⟩ := blindJudged hst hph (c := 10 ^ 6 ≤ (windowFigures n s).tent ^ 5)
  generalize (if s.lines[n].eq.phase = 1 ∧ 10 ^ 6 ≤ (windowFigures n s).tent ^ 5 then blindEnd n u else u) = v at hrx ⊢
  have hstep := (LineStep.refl n v).modLine
    fun l => { l with rx := { l.rx with st := .frame }, eq := { l.eq with phase := 3 }, fr := { l.fr with idValid := false } }
  generalize modLine n
    (fun l => { l with rx := { l.rx with st := .frame }, eq := { l.eq with phase := 3 }, fr := { l.fr with idValid := false } }) v = w
    at hstep ⊢
  have hin : w.lines[n].rx.inFrame = u.lines[n].rx.inFrame := by
    have hv : v.lines[n].rx.inFrame = u.lines[n].rx.inFrame := congrArg LineRx.inFrame hrx
    rw [hstep.line]
    exact hv
  rw [← hin]
  exact (frameCheck_window n w).2.2 (congrArg (fun l : Line => l.rx.st) hstep.line)

/-- A window's end on a lane that adapts, up to the figures and where it leads. -/
theorem qualityWindow_effects {skews : List Nat} (h : ¬(s.lines[n].rx.st ≠ .train ∧ s.lines[n].rx.st ≠ .frame ∧ s.lines[n].rx.st ≠ .up ∧
    s.lines[n].rx.st ≠ .relock)) : OtherLines n s (qualityWindow n skews s) ∧
    (qualityWindow n skews s).lines[n].windowView = { s.lines[n] with
      rx := s.lines[n].rx.skewed skews, eq := s.lines[n].eq.windowed (windowFigures n s) (windowConv n s) : Line }.windowView ∧
    (qualityWindow n skews s).lines[n].stage = (windowMoved n s (windowTaken n skews s)).lines[n].stage := by
  have htaken := windowTaken_step n skews s
  rw [qualityWindow_moves h]
  generalize windowTaken n skews s = u at htaken ⊢
  have hmoved := windowMoved_window s u (n := n)
  generalize windowMoved n s u = v at hmoved ⊢
  obtain ⟨hlow, hlowStage⟩ := marginLow_window n v
  obtain ⟨htrn, htrnStage⟩ := trnWindow_window n (marginLow n v)
  have hall := (hmoved.trans hlow).trans htrn
  obtain ⟨l, hl⟩ := hall.step
  exact ⟨(htaken.trans hl).others, Eq.trans hall.view (congrArg Line.windowView htaken.line), hlowStage.trans htrnStage⟩

/-! ### The sweep of the floating groups -/

theorem placeGroups_drawn (b : LineBank) (thr : Nat) (main : Rat) (k : Nat) (left : List (Int × Rat)) (acc : List Int) (s : State) :
    LineStep n s (placeGroups b thr main k left acc s).2 s.lines[n] :=
  (LineStep.refl n s).of_only (placeGroups_only (.refl [.free] s) (by decide)) (by decide)

/-- The groups placed and the sweep over. -/
def LineEq.groupsPlaced (pos : List (Option Int)) (e : LineEq) : LineEq :=
  { e with sweep := none, placed := true, live := { e.live with pos := pos } }

/-- After block 17 the groups are placed. -/
theorem sweepBlock_places {w : FgSweep} (hsweep : s.lines[n].eq.sweep = some w) (hfrozen : bit s.lines[n].act.eqCtl 5 = false)
    (hlast : 16 ≤ w.blocks) : ∃ pos : List (Option Int), pos.length = 4 ∧ LineStep n s (sweepBlock n s)
      { s.lines[n] with eq := (s.lines[n].eq.noted s.clk).groupsPlaced pos } ∧ Latched (lineSrc n 0x0F) s (sweepBlock n s) := by
  unfold sweepBlock
  dsimp only
  rw [hsweep]
  dsimp only
  rw [if_neg (by rw [hfrozen]; decide), if_neg (by omega)]
  have hnote := eqNote_step n s
  have hplace := hnote.trans ((placeGroups_drawn s.lines[n].act (bits s.lines[n].act.eqCtl 20 4) (absQ w.main) 4
    (sweepOffsets s.lines[n].act (w.corr ++ (List.range 64).map fun i => w.cur.getD i 0)) [] (eqNote n s)).congr hnote.line)
  generalize placeGroups s.lines[n].act (bits s.lines[n].act.eqCtl 20 4) (absQ w.main) 4
    (sweepOffsets s.lines[n].act (w.corr ++ (List.range 64).map fun i => w.cur.getD i 0)) [] (eqNote n s) = r at hplace ⊢
  have hset := hplace.modEq (·.groupsPlaced ((List.range 4).map fun j => r.1[j]?))
  refine ⟨(List.range 4).map fun j => r.1[j]?, by rw [List.length_map, List.length_range], hset.raise _ _, ?_⟩
  exact Latched.stays (latched_lineSrc n (by decide) (pay1 r.1.length) _) hset.latches (.refl _)

/-! ### The stored bank -/

/-- What is kept of the coefficients: under the overlay with the held values (R141). -/
def Line.keptCoefs (l : Line) : EqCoefs :=
  if l.eq.muted then
    { l.eq.live with main := (List.range 64).map fun i => if tapUsed l.act true i then l.eq.live.main.getD i 0 else l.eq.heldMain.getD i 0
                     nl := l.eq.heldNl, h2 := l.eq.heldH2 }
  else l.eq.live

/-- The stored bank is saved. -/
def Line.bankSaved (l : Line) : LineEq :=
  { l.eq with stored := some { coefs := l.keptCoefs, vga := l.rx.vga, tia := l.rx.tiaCode, freq := l.rx.freq }, voided := [], bankAge := 0 }

theorem storedSave_idle (h : ¬(domOn s (rxDomain n) = true ∧ laneHeld s (.line n) = false)) : storedSave n s = s := by
  refine if_pos ?_
  cases hd : domOn s (rxDomain n) with
  | false => rfl
  | true =>
    cases hh : laneHeld s (.line n) with
    | true => rfl
    | false => exact absurd ⟨hd, hh⟩ h

theorem storedSave_line (hdom : domOn s (rxDomain n) = true) (hheld : laneHeld s (.line n) = false) :
    (storedSave n s).lines[n] = { s.lines[n] with
      eq := if (s.rst.mgmtRun && s.lines[n].rx.st == .up && s.lines[n].eq.conv && decide (0 ≤ s.lines[n].eq.margin)) = true then
        s.lines[n].bankSaved else { s.lines[n].eq with bankAge := satU 8 (s.lines[n].eq.bankAge + 1) } } := by
  unfold storedSave
  rw [if_neg (by rw [hdom, hheld]; decide)]
  refine (upd_get_self _ _ _).trans ?_
  split
  · rfl
  · rfl

theorem storedSave_others (n : Fin 8) (s : State) : OtherLines n s (storedSave n s) := by
  unfold storedSave
  split
  · exact fun _ _ => rfl
  · exact modLine_otherLines n _ s

end

end Sys2Proof.Machine
end

section
/-! SUPPORT. Quality windows, floating groups and the stored bank together (R87, R98, R113, R120, R121, R127, R130 to R133, R141). -/

namespace Sys2Proof.Machine

open Sys2Proof

section
variable {n : Fin 8} {s : State}

theorem windowTaken_st (skews : List Nat) : (windowTaken n skews s).lines[n].rx.st = s.lines[n].rx.st ∧
    (windowTaken n skews s).lines[n].rx.inFrame = s.lines[n].rx.inFrame ∧ (windowTaken n skews s).lines[n].eq.phase = s.lines[n].eq.phase := by
  rw [(windowTaken_step n skews s).line]
  unfold LineRx.skewed
  split
  · exact ⟨rfl, rfl, rfl⟩
  · exact ⟨rfl, rfl, rfl⟩

theorem skewed_early {r : LineRx} (h : r.skewWins < 15) (skews : List Nat) : r.skewed skews = { r with skewWins := r.skewWins + 1 } := if_pos h

theorem skewed_due {r : LineRx} (h : 15 ≤ r.skewWins) (skews : List Nat) : r.skewed skews = { r with skewWins := 0, skews := skews.take 64 } :=
  if_neg (Nat.not_lt.2 h)

theorem sweepBlock_frozen {w : FgSweep} (hsweep : s.lines[n].eq.sweep = some w) (hfrozen : bit s.lines[n].act.eqCtl 5 = true) :
    LineStep n s (sweepBlock n s) { s.lines[n] with eq := { s.lines[n].eq with sweep := none, placed := true } } := by
  have heq : sweepBlock n s = modEq n (fun e => { e with sweep := none, placed := true }) s := by
    unfold sweepBlock
    dsimp only
    rw [hsweep]
    exact if_pos hfrozen
  rw [heq]
  exact (LineStep.refl n s).modEq _

/-- The correlations of one more block of offsets have been gathered. -/
def FgSweep.next (w : FgSweep) : FgSweep :=
  { blocks := w.blocks + 1, corr := w.corr ++ (List.range 64).map fun i => w.cur.getD i 0, cur := [], main := 0 }

theorem sweepBlock_next {w : FgSweep} (hsweep : s.lines[n].eq.sweep = some w) (hfrozen : bit s.lines[n].act.eqCtl 5 = false)
    (hmore : w.blocks < 16) : LineStep n s (sweepBlock n s) { s.lines[n] with eq := { s.lines[n].eq with sweep := some w.next } } := by
  have heq : sweepBlock n s = modEq n (fun e => { e with sweep := some w.next }) s := by
    unfold sweepBlock
    dsimp only
    rw [hsweep]
    dsimp only
    rw [if_neg (by rw [hfrozen]; decide), if_pos (by omega)]
    rfl
  rw [heq]
  exact (LineStep.refl n s).modEq _

/-- What the conditions of the stored bank come to (R127). -/
theorem saveCondition : (s.rst.mgmtRun && s.lines[n].rx.st == .up && s.lines[n].eq.conv && decide (0 ≤ s.lines[n].eq.margin)) = true ↔
    s.rst.mgmtRun = true ∧ s.lines[n].rx.st = .up ∧ s.lines[n].eq.conv = true ∧ 0 ≤ s.lines[n].eq.margin := by
  rw [Bool.and_eq_true, Bool.and_eq_true, Bool.and_eq_true, beq_iff_eq, decide_eq_true_iff, and_assoc, and_assoc]

theorem keptCoefs_fields (l : Line) : l.keptCoefs.fg = l.eq.live.fg ∧ l.keptCoefs.h1 = l.eq.live.h1 ∧
    l.keptCoefs.h2 = (if l.eq.muted = true then l.eq.heldH2 else l.eq.live.h2) ∧
    l.keptCoefs.nl = (if l.eq.muted = true then l.eq.heldNl else l.eq.live.nl) ∧
    l.keptCoefs.main = (if l.eq.muted = true then (List.range 64).map fun i =>
      if tapUsed l.act true i = true then l.eq.live.main.getD i 0 else l.eq.heldMain.getD i 0 else l.eq.live.main) := by
  unfold Line.keptCoefs
  split
  · exact ⟨rfl, rfl, rfl, rfl, rfl⟩
  · exact ⟨rfl, rfl, rfl, rfl, rfl⟩

end

/-- Settles O43. -/
theorem lineQualityAndStoredBank : Obligations.LineQualityAndStoredBank := by
  unfold Obligations.LineQualityAndStoredBank
  intro n s r e b
  refine ⟨fun skews => ⟨_, rfl, fun hrest => ?rest, fun hruns => ?window⟩, ⟨fun hnone => ?unswept, fun w hsweep => ?sweep⟩, ?save⟩
  case rest =>
    refine if_pos ?_
    rcases hrest with h | h | h | h
    · exact ⟨by rw [h]; decide, by rw [h]; decide, by rw [h]; decide, by rw [h]; decide⟩
    · exact ⟨by rw [h]; decide, by rw [h]; decide, by rw [h]; decide, by rw [h]; decide⟩
    · exact ⟨by rw [h]; decide, by rw [h]; decide, by rw [h]; decide, by rw [h]; decide⟩
    · exact ⟨by rw [h]; decide, by rw [h]; decide, by rw [h]; decide, by rw [h]; decide⟩
  case window =>
    have hst : ¬(s.lines[n].rx.st ≠ .train ∧ s.lines[n].rx.st ≠ .frame ∧ s.lines[n].rx.st ≠ .up ∧ s.lines[n].rx.st ≠ .relock) := by
      intro h
      obtain ⟨htrain, hframe, hup, hrelock⟩ := h
      cases hc : s.lines[n].rx.st with
      | off => exact hruns (.inl hc)
      | dark => exact hruns (.inr (.inl hc))
      | gain => exact hruns (.inr (.inr (.inl hc)))
      | timing => exact hruns (.inr (.inr (.inr hc)))
      | train => exact htrain hc
      | frame => exact hframe hc
      | up => exact hup hc
      | relock => exact hrelock hc
    obtain ⟨hothers, hview, hstage⟩ := qualityWindow_effects (skews := skews) hst
    obtain ⟨htst, htin, htph⟩ := windowTaken_st (n := n) (s := s) skews
    refine ⟨hothers, congrArg WindowView.sat hview, congrArg WindowView.acc hview,
      fun m hm => ⟨(congrArg WindowView.mse hview).trans ?mse, fun hne hpos hlo hhi =>
        (congrArg WindowView.snr hview).trans (figuresOf_snr (code := lineCode s n) hm hne hpos hlo hhi)⟩,
      fun v hv => (congrArg WindowView.eye hview).trans (figuresOf_eye (code := lineCode s n) hv),
      fun v hv => (congrArg WindowView.preFec hview).trans (congrArg BitVec.toNat (figuresOf_pre hv)),
      fun hmuted => (congrArg WindowView.mutePen hview).trans (congrArg Int.toNat (figuresOf_pen hmuted)),
      fun hearly => ?early, fun hdue => ?due,
      fun m hm hne htrain hblind hnot => ?blind, fun hup => ?stays_up, fun htrain hnot => ?stays_train,
      fun htrain hconv => ?leaves_train, fun hframe => ?stays_frame⟩
    case mse =>
      change (match s.lines[n].eq.acc.mse with | some m => some m | none => s.lines[n].eq.mse) = some m
      rw [show s.lines[n].eq.acc.mse = some m from hm]
    case blind =>
      have hconv : windowConv n s = false := by
        unfold windowConv converged
        rw [show s.lines[n].eq.conv = false from hnot, show s.lines[n].eq.phase = 1 from hblind]
        rfl
      refine (congrArg Prod.snd (hstage.trans (windowMoved_training htst htph htrain hconv))).trans ?_
      have htent : (windowFigures n s).tent = levelPower s.lines[n].eq.live / m := figuresOf_tent hm hne
      have hphase : s.lines[n].eq.phase = 1 := hblind
      rw [htent, hphase]
      by_cases hdb : 10 ^ 6 ≤ (levelPower s.lines[n].eq.live / m) ^ 5
      · rw [if_pos (c := _ ∧ _) ⟨rfl, hdb⟩]
        exact (if_pos (by norm_num at hdb ⊢; exact hdb)).symm
      · rw [if_neg (c := _ ∧ _) fun h => hdb h.2]
        exact (if_neg (by norm_num at hdb ⊢; exact hdb)).symm
    case early =>
      have hskewed : s.lines[n].rx.skewed skews = _ := skewed_early hearly skews
      rw [hskewed] at hview
      exact ⟨congrArg WindowView.skewWins hview, congrArg WindowView.skews hview⟩
    case due =>
      have hskewed : s.lines[n].rx.skewed skews = _ := skewed_due hdue skews
      rw [hskewed] at hview
      exact ⟨congrArg WindowView.skewWins hview, congrArg WindowView.skews hview⟩
    case stays_up =>
      have hst : s.lines[n].rx.st = .up := hup
      exact ((congrArg Prod.fst hstage).trans (windowMoved_other htst htph (by rw [hst]; decide) (by rw [hst]; decide))).trans hst
    case stays_train =>
      have hconv : windowConv n s = false := (congrArg WindowView.conv hview).symm.trans hnot
      exact congrArg Prod.fst (hstage.trans (windowMoved_training htst htph htrain hconv))
    case leaves_train =>
      have hconv : windowConv n s = true := (congrArg WindowView.conv hview).symm.trans hconv
      refine ((congrArg Prod.fst hstage).trans (windowMoved_converged htst htph htrain hconv)).trans ?_
      rw [htin]
    case stays_frame =>
      have hst : s.lines[n].rx.st = .frame := hframe
      exact ((congrArg Prod.fst hstage).trans (windowMoved_other htst htph (by rw [hst]; decide) (by rw [hst]; decide))).trans hst
  case unswept =>
    refine congrArg Host.Outcome.next ?_
    unfold sweepBlock
    dsimp only
    rw [show s.lines[n].eq.sweep = none from hnone]
  case sweep =>
    have hsw : s.lines[n].eq.sweep = some w := hsweep
    cases hfrozen : bit s.lines[n].act.eqCtl 5 with
    | true =>
      have hstep := sweepBlock_frozen hsw hfrozen
      exact ⟨_, rfl, hstep.others, SameLine.of_step (φ := Line.rx) hstep rfl, fun _ => congrArg Line.eq hstep.line,
        fun h => absurd h.symm Bool.false_ne_true, fun h => absurd h.symm Bool.false_ne_true⟩
    | false =>
      by_cases hmore : w.blocks < 16
      · have hstep := sweepBlock_next hsw hfrozen hmore
        exact ⟨_, rfl, hstep.others, SameLine.of_step (φ := Line.rx) hstep rfl, fun h => absurd h Bool.false_ne_true,
          fun _ _ => congrArg Line.eq hstep.line, fun _ h => absurd hmore (by omega)⟩
      · obtain ⟨pos, hlen, hstep, hlatched⟩ := sweepBlock_places hsw hfrozen (by omega)
        refine ⟨_, rfl, hstep.others, SameLine.of_step (φ := Line.rx) hstep rfl, fun h => absurd h Bool.false_ne_true,
          fun _ h => absurd h hmore, fun _ _ => ⟨?_, ?_, hlatched⟩⟩
        · rw [hstep.line, (eqNote_step n s).line, LineEq.noted_eq]
          rfl
        · rw [hstep.line]
          exact hlen
  case save =>
    intro alive save
    refine ⟨_, rfl, storedSave_others n s, (storedSave_only (.refl [.lines] s) (by decide)).only, ?_⟩
    by_cases hon : alive
    · have hline := storedSave_line (n := n) (s := s) hon.1 hon.2
      refine ⟨by rw [hline], fun hsave => ?_, fun h => absurd hon h, fun _ hnot => ?_⟩
      · rw [if_pos (saveCondition.2 hsave.2)] at hline
        rw [hline]
        exact ⟨rfl, rfl, _, List.mem_singleton_self _, rfl, rfl, rfl, keptCoefs_fields s.lines[n]⟩
      · rw [if_neg fun h => hnot ⟨hon, saveCondition.1 h⟩] at hline
        exact congrArg Line.eq hline
    · have hidle : storedSave n s = s := storedSave_idle hon
      rw [hidle]
      exact ⟨rfl, fun hsave => absurd hsave.1 hon, fun _ => rfl, fun h => absurd h hon⟩

end Sys2Proof.Machine
end

section
/-! SUPPORT. Commands that set up what firmware and the monitors follow: MON_CONFIG to CAL_REQUEST, CHECK_RUN, the secure store. -/

namespace Sys2Proof.Machine

open Sys2Proof

/-! ### Monitors -/

/-- What MON_SYNC does to a converter, whatever else it sets. -/
theorem monSync_step (k : Fin 2) (t : CTime) (s : State) : ∃ m, MonStep k s (monSync k t s) m ∧
    m.cfg = s.mon[k].staged.getD s.mon[k].cfg ∧ m.staged = none ∧ m.anchor = t :=
  ⟨_, (MonStep.refl k s).mod _, rfl, rfl, rfl⟩

/-- The converter that MON_CONFIG names. -/
def monConfigured (c : Cmd) (k : Fin 2) (s : State) : State :=
  let v := modMon k (fun m => { m with staged := some (monCfgOf c) }) s
  if c.p 1 / 32 % 2 = 1 then v else monSync k (now s) v

theorem actMonConfig_eq {c : Cmd} {k : Fin 2} (h : c.tgt = some (.mon (some k))) (s : State) :
    actMonConfig c s = done c 0 (monConfigured c k s) := by
  unfold actMonConfig
  rw [h]
  rfl

theorem monConfigured_rings (c : Cmd) (k : Fin 2) (s : State) : (monConfigured c k s).rings = s.rings := by
  unfold monConfigured
  dsimp only
  split <;> rfl

section
variable {d : Desc} {s u : State} {c : Cmd}

theorem monConfig_exec (h : AtOnce 0x70 d noImage s c u) {k : Fin 2} (hk : c.tgt = some (.mon (some k))) :
    ∃ v, exec (.monConfig d) s = .next (done c 0 v) ∧ OtherMons k u v ∧
      (c.p 1 / 32 % 2 = 1 → v.mon[k] = { u.mon[k] with staged := some (monCfgOf c) }) ∧
      (c.p 1 / 32 % 2 = 0 → v.mon[k].cfg = monCfgOf c ∧ v.mon[k].staged = none ∧ v.mon[k].anchor = now u) := by
  have hact : opAct c u = done c 0 (monConfigured c k u) := by
    simp only [opAct, h.op_eq]
    exact actMonConfig_eq hk u
  refine ⟨_, exec_done rfl h hact (monConfigured_rings c k u), ?_⟩
  have hstaged : MonStep k u (modMon k (fun m => { m with staged := some (monCfgOf c) }) u) { u.mon[k] with staged := some (monCfgOf c) } :=
    (MonStep.refl k u).mod _
  unfold monConfigured
  dsimp only
  generalize modMon k (fun m => { m with staged := some (monCfgOf c) }) u = w at hstaged
  by_cases hlater : c.p 1 / 32 % 2 = 1
  · rw [if_pos hlater]
    exact ⟨hstaged.others, fun _ => hstaged.mon, fun h0 => absurd (hlater.symm.trans h0) (by decide)⟩
  · rw [if_neg hlater]
    obtain ⟨m, hm, hcfg, hnone, hanchor⟩ := monSync_step k (now u) w
    rw [hstaged.mon] at hcfg
    refine ⟨fun j hj => (hm.others j hj).trans (hstaged.others j hj), fun h1 => absurd h1 hlater, fun _ => ?_⟩
    rw [hm.mon]
    exact ⟨hcfg, hnone, hanchor⟩

/-- What MON_SYNC does to each converter, named or not. -/
def Synced (l : List (Fin 2)) (t : CTime) (s v : State) : Prop :=
  ∀ j : Fin 2, (j ∈ l → v.mon[j].cfg = s.mon[j].staged.getD s.mon[j].cfg ∧ v.mon[j].staged = none ∧ v.mon[j].anchor = t) ∧
    (j ∉ l → v.mon[j] = s.mon[j])

theorem foldl_monSync (t : CTime) : ∀ (l : List (Fin 2)) (s : State), l.Nodup →
    Synced l t s (l.foldl (fun s i => monSync i t s) s) := by
  intro l
  induction l with
  | nil => exact fun s _ j => ⟨fun h => absurd h List.not_mem_nil, fun _ => rfl⟩
  | cons i l ih =>
    intro s hnodup j
    obtain ⟨hi, hl⟩ := List.nodup_cons.1 hnodup
    obtain ⟨m, hm, hcfg, hnone, hanchor⟩ := monSync_step i t s
    obtain ⟨hin, hout⟩ := ih (monSync i t s) hl j
    rw [List.foldl_cons]
    by_cases hj : j = i
    · subst hj
      have hlast := (hout hi).trans hm.mon
      refine ⟨fun _ => ?_, fun hno => absurd List.mem_cons_self hno⟩
      rw [hlast]
      exact ⟨hcfg, hnone, hanchor⟩
    · rw [hm.others j hj] at hin hout
      refine ⟨fun h => hin ((List.mem_cons.1 h).resolve_left hj), fun h => hout fun hk => h (List.mem_cons_of_mem i hk)⟩

theorem monInsts_nodup (k : Option (Fin 2)) : (monInsts k).Nodup := by
  cases k with
  | none => decide
  | some k => exact List.nodup_singleton k

theorem monSync_exec (h : AtOnce 0x71 d noImage s c u) {k : Option (Fin 2)} (hk : c.tgt = some (.mon k)) :
    ∃ v, exec (.monSync d) s = .next (done c 0 v) ∧ Synced (monInsts k) (now u) u v := by
  have hact : opAct c u = done c 0 (syncMons k (now u) u) := by
    simp only [opAct, h.op_eq, actMonSync, hk]
  have hrings : (syncMons k (now u) u).rings = u.rings :=
    (foldl_only (monInsts k) _ (fun _ _ h => monSync_only h (by decide)) (.refl [.mon] u)).only .rings (by decide)
  exact ⟨_, exec_done rfl h hact hrings, foldl_monSync (now u) (monInsts k) u (monInsts_nodup k)⟩

end

end Sys2Proof.Machine
end

section
/-! SUPPORT. Commands on thresholds, thermal policy, calibration, check scans, and the secure store's images and keys. -/

namespace Sys2Proof.Machine

open Sys2Proof

theorem thr_only {ps : List Part} {a s : State} (h : Only ps a s) (p1 : Part.thr ∈ ps) (x : Vector OutThr 64) :
    Only ps a { s with thr := x } := by
  simp only [only_mk, h, p1, true_or, or_true, and_self]

theorem comp_only {ps : List Part} {a s : State} (h : Only ps a s) (p1 : Part.comp ∈ ps) (x : Vector Comp 32) :
    Only ps a { s with comp := x } := by
  simp only [only_mk, h, p1, true_or, or_true, and_self]

section
variable {d : Desc} {s u : State} {c : Cmd}

/-! ### Thresholds and comparators -/

/-- The thresholds of MON_THRESHOLD. -/
def thrSet (c : Cmd) (t : OutThr) : OutThr :=
  { t with hiEn := c.p 2 % 2 == 1, loEn := c.p 2 / 2 == 1, hi := BitVec.ofNat 24 (c.le 4 3)
           lo := BitVec.ofNat 24 (c.le 8 3), hyst := BitVec.ofNat 24 (c.le 12 3) }

/-- The comparator of MON_THRESHOLD. -/
def compSet (c : Cmd) (x : Comp) : Comp :=
  { x with en := c.p 2 % 2 == 1, dir := c.p 2 / 2 % 2 == 1, urgEn := c.p 2 / 4 % 2 == 1, assign := c.p 2 / 8
           thr := c.le 4 2, hys := c.p 6, urgN := c.p 7 % 16, urgR := c.p 7 / 16 }

/-- The device with what MON_THRESHOLD sets. -/
def thresholdSet (c : Cmd) (s : State) : State :=
  if c.p 0 = 0 then { s with thr := upd s.thr (Fin.ofNat 64 (c.p 1)) (thrSet c) }
  else { s with comp := upd s.comp (Fin.ofNat 32 (c.p 1)) (compSet c) }

theorem actMonThreshold_eq (c : Cmd) (s : State) : actMonThreshold c s = done c 0 (thresholdSet c s) := rfl

theorem thresholdSet_only (c : Cmd) (s : State) : Only [.thr, .comp] s (thresholdSet c s) := by
  unfold thresholdSet
  split
  · exact thr_only (.refl _ s) (by decide) _
  · exact comp_only (.refl _ s) (by decide) _

theorem monThreshold_exec (h : AtOnce 0x72 d noImage s c u) : ∃ v, exec (.monThreshold d) s = .next (done c 0 v) ∧
    OnlyChanges [.thr, .comp] u v ∧
    (c.p 0 = 0 → v.comp = u.comp ∧ let t := v.thr[Fin.ofNat 64 (c.p 1)];
      (∀ j : Fin 64, j ≠ Fin.ofNat 64 (c.p 1) → v.thr[j] = u.thr[j]) ∧ t.hiEn = (c.p 2 % 2 == 1) ∧ t.loEn = (c.p 2 / 2 == 1) ∧
      t.hi = BitVec.ofNat 24 (c.le 4 3) ∧ t.lo = BitVec.ofNat 24 (c.le 8 3) ∧ t.hyst = BitVec.ofNat 24 (c.le 12 3)) ∧
    (c.p 0 ≠ 0 → v.thr = u.thr ∧ let x := v.comp[Fin.ofNat 32 (c.p 1)];
      (∀ j : Fin 32, j ≠ Fin.ofNat 32 (c.p 1) → v.comp[j] = u.comp[j]) ∧ x.en = (c.p 2 % 2 == 1) ∧ x.dir = (c.p 2 / 2 % 2 == 1) ∧
      x.thr = c.le 4 2 ∧ x.hys = c.p 6) := by
  have hact : opAct c u = done c 0 (thresholdSet c u) := by
    simp only [opAct, h.op_eq, actMonThreshold_eq]
  refine ⟨_, exec_done rfl h hact ((thresholdSet_only c u).only .rings (by decide)), (thresholdSet_only c u).only, fun h0 => ?_, fun h0 => ?_⟩
  · have hset : (thresholdSet c u).thr[Fin.ofNat 64 (c.p 1)] = thrSet c u.thr[Fin.ofNat 64 (c.p 1)] := by
      unfold thresholdSet
      rw [if_pos h0]
      exact upd_get_self _ _ _
    refine ⟨by unfold thresholdSet; rw [if_pos h0], ?_⟩
    dsimp only
    rw [hset]
    refine ⟨fun j hj => ?_, rfl, rfl, rfl, rfl, rfl⟩
    unfold thresholdSet
    rw [if_pos h0]
    exact upd_get_ne _ _ hj
  · have hset : (thresholdSet c u).comp[Fin.ofNat 32 (c.p 1)] = compSet c u.comp[Fin.ofNat 32 (c.p 1)] := by
      unfold thresholdSet
      rw [if_neg h0]
      exact upd_get_self _ _ _
    refine ⟨by unfold thresholdSet; rw [if_neg h0], ?_⟩
    dsimp only
    rw [hset]
    refine ⟨fun j hj => ?_, rfl, rfl, rfl, rfl⟩
    unfold thresholdSet
    rw [if_neg h0]
    exact upd_get_ne _ _ hj

/-! ### Thermal policy and calibration -/

/-- The thermal policy with what THERM_CONFIG sets, which takes effect with the next round. -/
def thermSet (c : Cmd) (x : Therm) : Therm := match c.p 0 with
  | 0 => { x with
      pend := some { round := c.p 1, grace := c.le 2 2, rateLim := c.p 4, muteHold := c.p 5, shedDwell := c.p 6, liftGap := c.p 7 } }
  | 1 => { x with sens := Vector.ofFn fun i =>
      (if c.p 1 = 0xFF ∨ c.p 1 = i.val then { x.sens[i] with pend := some (ofField 8 (c.p 2), ofField 8 (c.p 3), ofField 8 (c.p 4)) }
       else x.sens[i]) }
  | _ => if c.p 1 = 0 then { x with pend0 := some (c.le 2 2) } else { x with pend1 := some (c.le 2 2) }

theorem actThermConfig_eq (c : Cmd) (s : State) : actThermConfig c s = done c 0 (modTherm (thermSet c) s) := by
  unfold actThermConfig thermSet
  generalize c.p 0 = kind
  rcases kind with _ | _ | kind
  · rfl
  · rfl
  · rfl

theorem thermConfig_exec (h : AtOnce 0x78 d noImage s c u) : ∃ v, exec (.thermConfig d) s = .next (done c 0 v) ∧ OnlyChanges [.therm] u v ∧
    (c.p 0 = 0 → v.therm = { u.therm with pend := some { round := c.p 1, grace := c.le 2 2, rateLim := c.p 4, muteHold := c.p 5
                                                         shedDwell := c.p 6, liftGap := c.p 7 } }) ∧
    (c.p 0 = 1 → ∀ i : Fin 14, v.therm.sens[i] = if c.p 1 = 0xFF ∨ c.p 1 = i.val
      then { u.therm.sens[i] with pend := some (ofField 8 (c.p 2), ofField 8 (c.p 3), ofField 8 (c.p 4)) } else u.therm.sens[i]) ∧
    (c.p 0 = 2 → v.therm = if c.p 1 = 0 then { u.therm with pend0 := some (c.le 2 2) }
      else { u.therm with pend1 := some (c.le 2 2) }) := by
  have hact : opAct c u = done c 0 (modTherm (thermSet c) u) := by
    simp only [opAct, h.op_eq, actThermConfig_eq]
  refine ⟨_, exec_done rfl h hact rfl, (modTherm_only (.refl _ u) (by decide)).only, fun h0 => ?_, fun h1 i => ?_, fun h2 => ?_⟩
  · show thermSet c u.therm = _
    simp only [thermSet, h0]
  · show (thermSet c u.therm).sens[i] = _
    unfold thermSet
    simp only [h1]
    exact Vector.getElem_ofFn i.isLt
  · show thermSet c u.therm = _
    simp only [thermSet, h2]

theorem shedOrder_exec (h : AtOnce 0x79 d noImage s c u) : exec (.shedOrder d) s = .next (done c 0 { u with therm := { u.therm with
    order := orderCodes c, exhausted := false, shedWait := u.therm.shedWait.filter fun w => (orderCodes c).contains w } }) :=
  exec_done rfl h (by simp only [opAct, h.op_eq, actShedOrder, modTherm]) rfl

theorem calConfig_exec (h : AtOnce 0x80 d noImage s c u) : exec (.calConfig d) s =
    .next (done c 0 { u with cal := { u.cal with pendCfg := some (c.p 0, c.p 1 == 1) } }) :=
  exec_done rfl h (by simp only [opAct, h.op_eq, actCalConfig, modCal]) rfl

/-- The check has found no request for the target. -/
theorem parCalRequest_new {t : CalTgt} (h : parCalRequest c u = true) (ht : requestTgt c = some t) :
    u.cal.requests.any (·.1 == calIdx t) = false := by
  unfold parCalRequest at h
  rw [ht] at h
  simp only [Bool.and_eq_true, Bool.not_eq_true'] at h
  exact h.1.1.2

theorem calRequest_exec (h : AtOnce 0x81 d noImage s c u) {t : CalTgt} (ht : requestTgt c = some t)
    (hfree : u.cal.frozen = false ∨ t = .reed) (hspare : calSpare u t = true) :
    exec (.calRequest d) s = .next { u with cal := { u.cal with requests := u.cal.requests ++ [(calIdx t, c)] } } := by
  have hpar := h.par
  simp only [opPar, h.op_eq] at hpar
  have hmay : ((u.cal.frozen && t != .reed) || !calSpare u t) = false := by
    rcases hfree with h0 | rfl
    · simp [h0, hspare]
    · simp [hspare]
  refine exec_once rfl h _ ?_ rfl
  simp only [opAct, h.op_eq, actCalRequest, ht, hmay, parCalRequest_new hpar ht, Bool.false_eq_true, if_false]
  rfl

/-! ### Check scans -/

/-- The device once CHECK_RUN has been numbered. -/
def chkNumbered (s : State) : State := modChk (fun x => { x with seq := x.seq + 1 }) s

theorem chkNumbered_only {a : State} (h : Only [.chk] a s) : Only [.chk] a (chkNumbered s) := modChk_only h (by decide)

theorem actCheckRun_named {j : ChkJob} (hj : j = { chkJobOf c with ord := u.chk.seq }) (hs : j.space ≠ 2 ∨ domOn u 10 = true)
    (hc : j.chan < 4) : actCheckRun c u =
      if u.chk.ch[Fin.ofNat 4 j.chan].job.isNone then chkStart (Fin.ofNat 4 j.chan) j (chkNumbered u)
      else if u.chk.ch[Fin.ofNat 4 j.chan].wait.length < 4 then
        modChk (fun x => { x with ch := upd x.ch (Fin.ofNat 4 j.chan) fun y => { y with wait := y.wait ++ [j] } }) (chkNumbered u)
      else answer c stInternal true (now u) 1 (chkNumbered u) := by
  have hon : ¬ (j.space = 2 ∧ (!domOn (chkNumbered u) 10) = true) := fun ⟨h2, hoff⟩ => by
    rcases hs with h | h
    · exact h h2
    · exact absurd hoff (by rw [show domOn (chkNumbered u) 10 = domOn u 10 from rfl, h]; decide)
  have hnamed : ¬ j.chan = 0xFF := by omega
  subst hj
  unfold actCheckRun
  dsimp only
  exact (if_neg hon).trans (if_neg hnamed)

theorem checkRun_exec (h : AtOnce 0x90 d noImage s c u) {j : ChkJob} (hj : j = { chkJobOf c with ord := u.chk.seq })
    (hs : j.space ≠ 2 ∨ domOn u 10 = true) (hc : j.chan < 4) : let k := Fin.ofNat 4 j.chan;
    (u.chk.ch[k].job = none → ∃ v, exec (.checkRun d) s = .next v ∧ OnlyChanges [.chk] u v ∧
      v.chk = { u.chk with
        seq := u.chk.seq + 1, ch := upd u.chk.ch k fun x => { x with job := some { j with began := u.clk }, done := 0 } }) ∧
    (u.chk.ch[k].job ≠ none → u.chk.ch[k].wait.length < 4 → ∃ v, exec (.checkRun d) s = .next v ∧ OnlyChanges [.chk] u v ∧
      v.chk = { u.chk with seq := u.chk.seq + 1, ch := upd u.chk.ch k fun x => { x with wait := x.wait ++ [j] } }) ∧
    (u.chk.ch[k].job ≠ none → 4 ≤ u.chk.ch[k].wait.length → ∃ v, exec (.checkRun d) s = .next (answer c 0x40 true (now u) 1 v) ∧
      v = { u with chk := { u.chk with seq := u.chk.seq + 1 } }) := by
  intro k
  have hact := actCheckRun_named hj hs hc
  have hop : opAct c u = actCheckRun c u := by simp only [opAct, h.op_eq]
  refine ⟨fun hfree => ?_, fun hbusy hroom => ?_, fun hbusy hfull => ?_⟩
  · refine ⟨_, exec_once rfl h _ (hop.trans (hact.trans (if_pos (Option.isNone_iff_eq_none.2 hfree)))) rfl,
      (chkStart_only (chkNumbered_only (.refl [.chk] u)) (by decide)).only, rfl⟩
  · refine ⟨_, exec_once rfl h _ (hop.trans (hact.trans ((if_neg fun hn => hbusy (Option.isNone_iff_eq_none.1 hn)).trans
      (if_pos hroom)))) rfl, (modChk_only (chkNumbered_only (.refl [.chk] u)) (by decide)).only, rfl⟩
  · refine ⟨_, exec_once rfl h _ (hop.trans (hact.trans ((if_neg fun hn => hbusy (Option.isNone_iff_eq_none.1 hn)).trans
      (if_neg (Nat.not_lt.2 hfull))))) (answer_held _ _ _ _ _ _), rfl⟩

/-! ### The secure store -/

theorem patchStage_exec {img : ImageCheck} (h : AtOnce 0xA0 d img s c u) (hp : c.p 4 = 0) (hv : img.vendorOk = true)
    (ho : u.tst.owner = none ∨ img.ownerOk = true) : exec (.patchStage d img) s =
      .next (done c 0 { u with tst := { u.tst with staged := some { digest := fit 32 img.digest, len := c.le 0 4 } } }) := by
  have himg : c.img = img := by
    obtain ⟨⟨⟨-, -, rfl, -⟩, -⟩, -⟩ := h
    rfl
  have howner : (u.tst.owner.isSome && !img.ownerOk) = false := by
    rcases ho with h0 | h0 <;> simp [h0]
  refine exec_done rfl h ?_ rfl
  simp only [opAct, h.op_eq, actPatchStage, himg, hp, hv, howner]
  rfl

/-- OWNER_KEY burns its key into the next slot. -/
def keyStored (c : Cmd) (s : State) : State :=
  modTst (fun t => { t with otpSlots := t.otpSlots ++ [fit 32 c.d.param], owner := ownerOf (t.otpSlots ++ [fit 32 c.d.param]) }) s

/-- It reports it. -/
def keyReported (c : Cmd) (s : State) : State :=
  raise 0x1FB (pay2 s.tst.otpSlots.length (b2n (keyStored c s).tst.owner.isSome)) (keyStored c s)

theorem ownerKey_exec {sigOk : Bool} (h : AtOnce 0xA3 d { noImage with ownerOk := sigOk } s c u) (hroom : u.tst.otpSlots.length < 4)
    (hscan : u.tst.scanFlag = false) (ho : u.tst.owner = none ∨ sigOk = true) :
    ∃ v, exec (.ownerKey d sigOk) s = .next (done c 0 v) ∧ Latched 0x1FB u v ∧
      v.tst = { u.tst with otpSlots := u.tst.otpSlots ++ [fit 32 c.d.param], owner := ownerOf (u.tst.otpSlots ++ [fit 32 c.d.param]) } := by
  have himg : c.img.ownerOk = sigOk := by
    obtain ⟨⟨⟨-, -, rfl, -⟩, -⟩, -⟩ := h
    rfl
  have howner : (u.tst.owner.isSome && !sigOk) = false := by
    rcases ho with h0 | h0 <;> simp [h0]
  have hmay : (decide (4 ≤ u.tst.otpSlots.length) || u.tst.scanFlag || (u.tst.owner.isSome && !c.img.ownerOk)) = false := by
    rw [himg, howner, hscan, decide_eq_false (by omega)]
    rfl
  have hact : opAct c u = done c 0 (keyReported c u) := by
    simp only [opAct, h.op_eq]
    exact if_neg (by rw [hmay]; decide)
  refine ⟨_, exec_done rfl h hact (raise_rings _), ?_, raise_tst _⟩
  exact Latched.stays (u := keyStored c u) (latched_raise (by decide) _ (keyStored c u)) (.of_evt rfl) (.refl _)

end

end Sys2Proof.Machine
end

section
/-! SUPPORT. The commands that wait go on waiting while domains are switched and while activities are ended and answered. -/

namespace Sys2Proof.Machine

open Sys2Proof

/-- The same commands wait. -/
def HeldStays (s t : State) : Prop := t.rings.held = s.rings.held

theorem HeldStays.refl (s : State) : HeldStays s s := rfl

theorem HeldStays.trans {s t u : State} (h : HeldStays s t) (k : HeldStays t u) : HeldStays s u := Eq.trans k h

theorem HeldStays.of_rings {s t : State} (h : t.rings = s.rings) : HeldStays s t := congrArg Rings.held h

theorem HeldStays.of_only {ps : List Part} {s t : State} (h : Only ps s t) (hp : Part.rings ∉ ps) : HeldStays s t :=
  .of_rings (h.only .rings hp)

theorem HeldStays.after {s u v : State} (h : HeldStays u v) (e : u.rings = s.rings) : HeldStays s v := .trans (.of_rings e) h

theorem HeldStays.foldl {α : Type} {f : State → α → State} (h : ∀ s x, HeldStays s (f s x)) (l : List α) :
    ∀ s, HeldStays s (l.foldl f s) := by
  induction l with
  | nil => exact .refl
  | cons x l ih => exact fun s => (h s x).trans (ih (f s x))

theorem HeldStays.forFin {n : Nat} {f : Fin n → State → State} (h : ∀ i s, HeldStays s (f i s)) (s : State) :
    HeldStays s (forFin n f s) := HeldStays.foldl (fun s i => h i s) _ s

theorem HeldStays.either {s a b : State} {c : Prop} [Decidable c] (ha : HeldStays s a) (hb : HeldStays s b) :
    HeldStays s (if c then a else b) := by
  split
  · exact ha
  · exact hb

/-! ### Answers of activities -/

theorem doneO_heldStays (c : Option Cmd) (res : Nat) (s : State) : HeldStays s (doneO c res s) := by
  unfold doneO
  split
  · exact done_held _ _ s
  · exact .refl s

theorem refuseO_heldStays (c : Option Cmd) (st : Byte) (s : State) : HeldStays s (refuseO c st s) := by
  unfold refuseO
  split
  · exact refuse_held _ _ s
  · exact .refl s

theorem refuse_heldStays (c : Cmd) (st : Byte) (s : State) : HeldStays s (refuse c st s) := refuse_held c st s

theorem capDrop_heldStays (p : CapRun → Bool) (st : Byte) (s : State) : HeldStays s (capDrop p st s) := by
  unfold capDrop
  dsimp only
  refine (HeldStays.foldl (fun s r => ?_) _ _).after rfl
  exact .trans (.either (.refl s) (.of_only (arbEnd_only (.refl [.arb] s) (by decide)) (by decide))) (refuseO_heldStays _ _ _)

theorem tlmDiscard_heldStays (s : State) : HeldStays s (tlmDiscard s) := by
  unfold tlmDiscard
  dsimp only
  exact (capDrop_heldStays _ _ s).trans (.of_rings (raise_rings _))

theorem msgAbandon_heldStays (n : Fin 8) (s : State) : HeldStays s (msgAbandon n s) := by
  unfold msgAbandon
  dsimp only
  exact (HeldStays.foldl (fun s c => done_held c 3 s) _ _).after rfl

theorem lineTxOff_heldStays (n : Fin 8) (s : State) : HeldStays s (lineTxOff n s) :=
  .trans (.of_only (txClear_only (trnDrop_only (.refl [.lines, .arb] s) (by decide) (by decide)) (by decide)) (by decide))
    (msgAbandon_heldStays n _)

/-! ### Check scans and calibration -/

theorem chkPurge_heldStays (s : State) : HeldStays s (chkPurge s) := by
  unfold chkPurge
  exact .either (.refl s) ((HeldStays.foldl (fun _ _ => refuse_heldStays _ _ _) _ _).after rfl)

theorem chkNext_heldStays (k : Fin 4) (s : State) : HeldStays s (chkNext k s) := by
  have hgo : ∀ (j : ChkJob) (f : Chk → Chk), HeldStays s (chkStart k j (modChk f (chkPurge s))) := fun j f =>
    (chkPurge_heldStays s).trans (.of_rings rfl)
  unfold chkNext
  dsimp only
  split
  · exact chkPurge_heldStays s
  · exact hgo _ _
  · exact hgo _ _
  · exact .either (hgo _ _) (hgo _ _)

theorem chkPowerOff_heldStays (s : State) : HeldStays s (chkPowerOff s) := by
  unfold chkPowerOff
  refine .forFin (fun k s => ?_) s
  split
  · exact .refl s
  · next j hj =>
    refine .either ?_ (.refl s)
    dsimp only
    refine .trans (t := answer j.cmd stInternal true (now s) 4 (modChk (fun x => { x with ch := upd x.ch k fun y =>
      { y with job := none, err := true, done := (draw s).1 % (j.len + 1) } }) (draw s).2)) ?_ (chkNext_heldStays k _)
    exact HeldStays.after (answer_held _ _ _ _ _ _) ((draw_only (.refl [.free] s) (by decide)).only .rings (by decide))

theorem calPrune_heldStays (s : State) : HeldStays s (calPrune s) := by
  unfold calPrune
  refine .foldl (fun s t => ?_) _ s
  dsimp only
  refine .either (.refl s) ?_
  split
  · exact HeldStays.after (refuse_held _ _ _) rfl
  · exact .of_rings rfl

/-! ### Domains -/

theorem ocpDrop_heldStays (s : State) : HeldStays s (ocpDrop s) := by
  unfold ocpDrop
  dsimp only
  refine .trans (t := List.foldl _ { s with ocp := [] } s.ocp) ((HeldStays.foldl (fun s t => ?_) s.ocp _).after rfl)
    (HeldStays.forFin (f := drvSettled) (fun n s => .of_only (drvSettled_only (.refl [.lines] s) (by decide)) (by decide)) _)
  split
  · exact refuse_held _ _ _
  · exact .of_only (ocpDropped_only (.refl [.lines] s) (by decide)) (by decide)

theorem domOffEffects_heldStays (k : Nat) (s : State) : HeldStays s (domOffEffects k s) := by
  unfold domOffEffects
  dsimp only
  refine .trans ?_ (calPrune_heldStays _)
  refine .either ?rx (.either ?tx (.either ?host (.either ?frame (.either ?outer (.either ?memory (.either ?ocp (.refl s)))))))
  case rx =>
    refine .trans (capDrop_heldStays (fun r => r.target == Tgt.code (.line (some (Fin.ofNat 8 (k - 12))))) stPoweredOff s) ?_
    exact .of_only (modTx_only (linePathOff_only (trnDrop_only (.refl [.lines, .arb] _) (by decide) (by decide)) (by decide)) (by decide))
      (by decide)
  case tx => exact lineTxOff_heldStays _ s
  case host => exact (capDrop_heldStays _ _ s).trans (.of_only (hostOff_only (.refl [.hosts] _) (by decide)) (by decide))
  case frame => exact .of_only (frmClear_only (frmClear_only (.refl [.lines] s) (by decide)) (by decide)) (by decide)
  case outer => exact .of_only (outerClear_only (.refl [.ports] s) (by decide)) (by decide)
  case memory =>
    refine .trans (t := drainStop 1 (drainStop 0 s)) ?_ ((tlmDiscard_heldStays _).trans (chkPowerOff_heldStays _))
    exact .of_only (drainStop_only (drainStop_only (.refl [.tlm, .mon] s) (by decide) (by decide)) (by decide) (by decide)) (by decide)
  case ocp => exact ocpDrop_heldStays s

/-! ### Tests and lanes -/

theorem testBegin_heldStays (r : BlkTest) (s : State) : HeldStays s (testBegin r s) :=
  .of_only (ps := [.evt, .own, .lines, .hosts, .ports, .counters, .mon, .arb, .tst])
    (testBegin_only (.refl _ s) (by decide) (by decide) (by decide) (by decide) (by decide) (by decide) (by decide) (by decide) (by decide))
    (by decide)

theorem testNext_heldStays (s : State) : HeldStays s (testNext s) :=
  .of_only (ps := [.evt, .own, .lines, .hosts, .ports, .counters, .mon, .arb, .tst])
    (testNext_only (.refl _ s) (by decide) (by decide) (by decide) (by decide) (by decide) (by decide) (by decide) (by decide) (by decide))
    (by decide)

theorem testLeave_heldStays (t : Tgt) (s : State) : HeldStays s (testLeave t s) :=
  .of_only (ps := [.out, .evt, .own, .lines, .hosts, .ports, .counters, .mon, .ocp])
    (testLeave_only (.refl _ s) (by decide) (by decide) (by decide) (by decide) (by decide) (by decide) (by decide) (by decide) (by decide))
    (by decide)

theorem testsEnd_heldStays (p : BlkTest → Bool) (s : State) : HeldStays s (testsEnd p s) := by
  unfold testsEnd
  dsimp only
  generalize hw : List.foldl (β := BlkTest) _ _ _ = w
  have hended : HeldStays s w := by
    rw [← hw]
    refine (HeldStays.foldl (fun s r => ?_) _ _).after rfl
    refine .trans (t := arbEnd 3 ((Tgt.ofCode r.target).getD .device) s) (.of_rings rfl) (.trans ?_ (refuseO_heldStays _ _ _))
    exact .either (testLeave_heldStays _ _) (.refl _)
  exact .either (hended.trans (testNext_heldStays w)) hended

theorem lineClear_heldStays (n : Fin 8) (s : State) : HeldStays s (lineClear n s) := by
  unfold lineClear
  dsimp only
  refine .trans (t := trnAbandon n 1 s) ?_ (.trans (lineTxOff_heldStays n _)
    (.of_only (modTx_only (linePathOff_only (.refl [.lines] _) (by decide)) (by decide)) (by decide)))
  exact .of_only (ps := [.evt, .own, .lines, .counters, .arb])
    (trnAbandon_only (.refl _ s) (by decide) (by decide) (by decide) (by decide) (by decide)) (by decide)

theorem clearLineCtr_heldStays (n : Fin 8) (s : State) : HeldStays s (clearLineCtr n s) :=
  .of_only (clearLineCtr_only (.refl [.counters] s) (by decide)) (by decide)

theorem clearHostCtr_heldStays (n : Fin 16) (s : State) : HeldStays s (clearHostCtr n s) :=
  .of_only (clearHostCtr_only (.refl [.counters] s) (by decide)) (by decide)

theorem hostOff_heldStays (n : Fin 16) (s : State) : HeldStays s (hostOff n s) := .of_rings rfl

theorem laneClear_heldStays (l : LaneId) (s : State) : HeldStays s (laneClear l s) := by
  unfold laneClear
  cases l with
  | line n =>
    exact (testsEnd_heldStays _ s).trans ((capDrop_heldStays _ _ _).trans ((lineClear_heldStays n _).trans (clearLineCtr_heldStays n _)))
  | host n =>
    exact (testsEnd_heldStays _ s).trans ((capDrop_heldStays _ _ _).trans ((hostOff_heldStays n _).trans (clearHostCtr_heldStays n _)))

theorem dataClear_heldStays (s : State) : HeldStays s (dataClear s) := by
  unfold dataClear
  dsimp only
  generalize hw : capDrop (fun _ => true) stInternal _ = w
  have hdropped : HeldStays s w := by
    rw [← hw]
    exact (testsEnd_heldStays _ s).trans (capDrop_heldStays _ _ _)
  refine hdropped.trans (.trans (HeldStays.forFin lineClear_heldStays w) (.trans (HeldStays.forFin hostOff_heldStays _) ?_))
  refine .trans (HeldStays.forFin (f := framerClear) (fun n s => .of_rings rfl) _) ?_
  generalize forFin 8 framerClear _ = v
  exact HeldStays.after (HeldStays.of_only (ps := [.ports, .counters]) (clearDataCtrs_only (.refl _ _) (by decide) (by decide)) (by decide)) rfl

theorem laneReach_heldStays (r : Reach) (s : State) : HeldStays s (laneReach r s) := by
  unfold laneReach
  exact .trans (.either (dataClear_heldStays s) (.refl s)) (.foldl (fun s l => laneClear_heldStays l s) _ _)

theorem mgmtClear_heldStays (control : Bool) (s : State) : HeldStays s (mgmtClear control s) := by
  unfold mgmtClear
  dsimp only
  generalize hf : ocpForget _ = f
  have hforgot : HeldStays s f := by
    rw [← hf]
    exact .trans (t := modRst (fun r => { r with mgmtRun := false }) s) (.of_rings rfl)
      (.of_only (ocpForget_only (.refl [.lines, .ocp] _) (by decide) (by decide)) (by decide))
  generalize hw : modChk (fun x => { x with scrub := false }) _ = w
  have hscrub : HeldStays f w := by
    rw [← hw]
    exact .trans (t := if f.chk.scrub = true then arbEnd 7 .device f else f) (.either (.of_rings rfl) (.refl f)) (.of_rings rfl)
  refine hforgot.trans (hscrub.trans (.trans (t := reedAbort w) ?_ ?_))
  · exact .of_only (ps := [.evt, .own, .counters, .mon, .therm, .cal, .arb])
      (reedAbort_only (.refl _ w) (by decide) (by decide) (by decide) (by decide) (by decide) (by decide) (by decide)) (by decide)
  · generalize reedAbort w = v
    refine .trans (capDrop_heldStays (fun _ => true) stInternal v) (.trans (testsEnd_heldStays (fun _ => true) _) ?_)
    exact .of_only (modTst_only (chkAbandon_only (.refl [.chk, .tst] _) (by decide)) (by decide)) (by decide)

theorem seqCancel_heldStays (reach : Nat → Bool) (level : Nat) (s : State) : HeldStays s (seqCancel reach level s) := by
  unfold seqCancel
  dsimp only
  refine (HeldStays.foldl (fun s t => ?_) _ _).after rfl
  exact .trans (.of_rings (raise_rings s)) (refuseO_heldStays _ _ _)

end Sys2Proof.Machine
end

section
/-! SUPPORT. POWER: the request reaches the sequencer, which meets it at once or starts its transition. -/

namespace Sys2Proof

open Machine

theorem AtOnce.era {op : Nat} {d : Desc} {img : ImageCheck} {s u : State} {c : Cmd} (h : AtOnce op d img s c u) : c.era = u.rings.era := by
  obtain ⟨⟨⟨-, -, rfl, rfl⟩, -⟩, -⟩ := h
  rfl

end Sys2Proof

namespace Sys2Proof.Machine

open Sys2Proof

section
variable {s u : State} {c : Cmd} {d : Desc}

/-- The answer that a final OK leaves to be queried. -/
theorem done_outcome {v : State} (he : c.era = v.rings.era) : (done c 0 v).rings.outcomes.head? =
    some { ring := c.d.ring, seq := c.d.seq, status := 0, final := true, result := 0 } := by
  unfold done
  rw [answer_outcomes _ _ he]
  rfl

theorem domOff_domOn (k : Fin 50) (s : State) : domOn (domSet k false s) k.val = false := by
  unfold domOn domSet modRst
  rw [dif_pos k.isLt]
  exact Vector.getElem_set_self k.isLt

theorem domSwapping_congr {s t : State} (hl : t.lines = s.lines) (hh : t.hosts = s.hosts) (k : Nat) : domSwapping t k = domSwapping s k := by
  unfold domSwapping
  simp only [getConv_congr hl hh]

/-! ### The sequencer with nothing before the request -/

/-- A shed entry whose domain is switched on counts as restored (R375). -/
def powerRestored (c : Cmd) (s : State) : State :=
  if (c.p 1 == 1) && s.therm.shed.any (fun e => e.2.contains (Fin.ofNat 50 (c.p 0))) then
    modTherm (fun t => { t with shed := t.shed.filter fun e => !e.2.contains (Fin.ofNat 50 (c.p 0)), exhausted := false }) s
  else s

/-- The transition that POWER asks for. -/
def powerAsked (c : Cmd) : Transition := { dom := Fin.ofNat 50 (c.p 0), on := c.p 1 == 1, cmd := some c }

theorem actPower_eq (c : Cmd) (s : State) : actPower c s = seqPush [powerAsked c] (powerRestored c s) := rfl

theorem powerRestored_only (c : Cmd) (s : State) : Only [.therm] s (powerRestored c s) := by
  unfold powerRestored
  split
  · exact modTherm_only (.refl _ s) (by decide)
  · exact .refl _ s

/-- The queue holds the request alone. -/
def asked (t : Transition) (s : State) : State := modRst (fun r => { r with queue := [t] }) s

theorem seqPush_idle {w : State} {t : Transition} (hcur : w.rst.cur = none) (hq : w.rst.queue = []) :
    seqPush [t] w = seqRun [t] (asked t w) := by
  have hpush : modRst (fun r => { r with queue := r.queue ++ [t] }) w = asked t w := by
    unfold asked modRst
    simp only [hq, List.nil_append]
  unfold seqPush seqNext
  rw [hpush, if_neg (by show ¬ (w.rst.cur.isSome = true); rw [hcur]; decide)]
  rfl

theorem seqRun_met {w : State} {t : Transition} (h : domOn w t.dom.val = t.on) :
    seqRun [t] w = modRst (fun r => { r with queue := [] }) (doneO t.cmd 0 w) := if_pos h

/-- The transition has begun; a rail that goes off is not yet off. -/
def seqBegun (t : Transition) (s : State) : State :=
  modRst (fun r => { r with cur := some t, queue := [], seqDir := t.on, seqDom := t.dom.val }) s

theorem seqBegun_lanes (t : Transition) (w : State) : (seqBegun t (asked t w)).lines = w.lines ∧ (seqBegun t (asked t w)).hosts = w.hosts :=
  ⟨rfl, rfl⟩

theorem domSet_seqBegun_rings (k : Fin 50) (t : Transition) (w : State) : (domSet k false (seqBegun t (asked t w))).rings = w.rings := rfl

theorem seqRun_starts {w : State} {t : Transition} (h : domOn w t.dom.val ≠ t.on) (hb : domBreaks (domOn w) t.dom.val t.on = false) :
    seqRun [t] w = if t.on then seqBegun t w else domOff t.dom (seqBegun t w) :=
  (if_neg h).trans (if_neg (by rw [hb]; decide))

theorem domOff_now {w : State} {k : Fin 50} (h : domSwapping w k.val = false) :
    domOff k w = domOffEffects k.val (domSet k false w) := if_neg (by rw [h]; decide)

theorem domOffEffects_rst (k : Nat) (s : State) : (domOffEffects k s).rst = s.rst := by
  have h : Only [.free, .rings, .evt, .tlm, .own, .lines, .hosts, .ports, .counters, .mon, .cal, .arb, .chk, .ocp, .captures] s
      (domOffEffects k s) :=
    domOffEffects_only (.refl _ s) (by decide) (by decide) (by decide) (by decide) (by decide) (by decide) (by decide) (by decide)
      (by decide) (by decide) (by decide) (by decide) (by decide) (by decide) (by decide)
  exact (h.only .rst (by decide)).1

theorem power_exec (h : AtOnce 0x40 d noImage s c u) (hcur : u.rst.cur = none) (hq : u.rst.queue = []) :
    let k := Fin.ofNat 50 (c.p 0); let on := c.p 1 == 1;
    (domOn u k.val = on → ∃ v, exec (.power d) s = .next v ∧ v.rst.cur = none ∧ v.rst.queue = [] ∧ v.rst.on = u.rst.on ∧
      v.rings.outcomes.head? = some { ring := d.ring, seq := d.seq, status := 0, final := true, result := 0 }) ∧
    (domOn u k.val = false → on = true → domBreaks (domOn u) k.val true = false → ∃ v, exec (.power d) s = .next v ∧
      v.rst.cur = some { dom := k, on := true, cmd := some c } ∧ v.rst.on = u.rst.on) ∧
    (domOn u k.val = true → on = false → domBreaks (domOn u) k.val false = false → domSwapping u k.val = false →
      ∃ v, exec (.power d) s = .next v ∧ v.rst.cur = some { dom := k, on := false, cmd := some c } ∧ domOn v k.val = false) := by
  intro k on
  have hrest := powerRestored_only c u
  have hact : opAct c u = seqPush [powerAsked c] (powerRestored c u) := by
    simp only [opAct, h.op_eq, actPower_eq]
  generalize powerRestored c u = w at hrest hact
  have hrst : w.rst = u.rst := (hrest.only .rst (by decide)).1
  have hrings : w.rings = u.rings := hrest.only .rings (by decide)
  have hdom : domOn (asked (powerAsked c) w) = domOn u := by
    unfold domOn asked modRst
    rw [hrst]
  rw [seqPush_idle (by rw [hrst, hcur]) (by rw [hrst, hq])] at hact
  have hon : on = (powerAsked c).on := rfl
  refine ⟨fun hmet => ?_, fun hoff hup hfree => ?_, fun hwas hdown hfree hswap => ?_⟩
  · rw [seqRun_met (by rw [hdom]; exact hmet)] at hact
    refine ⟨_, exec_once rfl h _ hact ?_, ?_, rfl, ?_, ?_⟩
    · exact (done_held c 0 _).trans (congrArg Rings.held hrings)
    · exact (congrArg Rst.cur (done_rst _)).trans (by show w.rst.cur = none; rw [hrst, hcur])
    · exact (congrArg Rst.on (done_rst _)).trans (by show w.rst.on = _; rw [hrst])
    · rw [← h.desc_eq]
      exact done_outcome (h.era.trans (congrArg Rings.era hrings).symm)
  · have hasked : (powerAsked c).on = true := hup
    rw [seqRun_starts (by rw [hdom, hasked]; exact fun e => absurd (hoff.symm.trans e) Bool.false_ne_true)
      (by rw [hdom, hasked]; exact hfree), if_pos hasked] at hact
    refine ⟨_, exec_once rfl h _ hact (congrArg Rings.held hrings), ?_, ?_⟩
    · show some (powerAsked c) = _
      unfold powerAsked
      rw [show (c.p 1 == 1) = true from hup]
    · show w.rst.on = _
      rw [hrst]
  · have hasked : (powerAsked c).on = false := hdown
    have hswapped : domSwapping (seqBegun (powerAsked c) (asked (powerAsked c) w)) (powerAsked c).dom.val = false :=
      (domSwapping_congr (seqBegun_lanes _ w).1 (seqBegun_lanes _ w).2 _).trans ((domSwapping_congr (hrest.only .lines (by decide))
        (hrest.only .hosts (by decide)) _).trans hswap)
    rw [seqRun_starts (by rw [hdom, hasked]; exact fun e => absurd (e.symm.trans hwas) Bool.false_ne_true)
      (by rw [hdom, hasked]; exact hfree), if_neg (by rw [hasked]; decide), domOff_now hswapped] at hact
    refine ⟨_, exec_once rfl h _ hact ?_, ?_, ?_⟩
    · exact HeldStays.after (domOffEffects_heldStays _ _) ((domSet_seqBegun_rings _ _ w).trans hrings)
    · rw [domOffEffects_rst]
      show some (powerAsked c) = _
      unfold powerAsked
      rw [show (c.p 1 == 1) = false from hdown]
    · unfold domOn
      rw [domOffEffects_rst]
      exact domOff_domOn _ _

end

end Sys2Proof.Machine
end

section
/-! SUPPORT. RESET where nothing else is in reset: what its reach clears, and the resets that wait for their record. -/

namespace Sys2Proof.Machine

open Sys2Proof

/-! ### A source that asserts alone -/

/-- The device as a source asserts alone: its episode has begun, nothing is cleared yet. -/
structure Asserted (src : ResetSrc) (s t : State) : Prop where
  rings : t.rings = s.rings
  lines : t.lines = s.lines
  hosts : t.hosts = s.hosts
  cause : t.rst.cause = causeWith src s.rst.cause
  level : (srcReach src).level ≠ 0 → t.rst.level = (srcReach src).level

theorem assertOne_alone {src : ResetSrc} {s : State} (he : s.rst.episodes = []) (hx : s.rst.exits = []) (hl : (srcReach src).level < 3) :
    ∃ t, assertOne src s = reachApply (srcReach src) (src == .brownOut) t ∧ Asserted src s t := by
  have habsorbed : ∀ t : State, t.rst.exits = [] → absorbed src t = false := fun t h => by
    unfold absorbed
    rw [h]
    simp
  unfold assertOne
  dsimp only
  generalize hb : (if 3 ≤ (srcReach src).level then sleepBreak 3 s else s) = b
  obtain rfl : s = b := by
    rw [← hb, if_neg (by omega)]
  generalize hc : modRst (fun x => { x with cause := causeWith src x.cause }) s = c
  have hce : c.rst.episodes = [] := by rw [← hc]; exact he
  have hcx : c.rst.exits = [] := by rw [← hc]; exact hx
  rw [habsorbed c hcx]
  simp only [hce, hcx, if_neg (show ¬ (srcReach src).level = 4 by omega), if_neg (show ¬ (srcReach src).level = 3 by omega), List.any_nil,
    List.filter_nil, List.isEmpty_nil, Bool.true_or, Bool.false_eq_true, if_false, if_true, Bool.true_and, List.foldl_nil]
  refine ⟨_, rfl, ?_⟩
  rw [← hc]
  refine ⟨rfl, rfl, rfl, rfl, fun h0 => ?_⟩
  show (if (_ != 0) = true then _ else _) = _
  rw [if_pos (by simpa using h0)]
  exact Nat.max_eq_right (Nat.zero_le _)

/-! ### What its reach clears -/

section
variable {r : Reach} {s t : State} {brown : Bool}

theorem seqCancel_parts (reach : Nat → Bool) (level : Nat) (s : State) :
    Only [.rings, .evt, .own, .counters, .rst] s (seqCancel reach level s) :=
  seqCancel_only (.refl _ s) (by decide) (by decide) (by decide) (by decide) (by decide)

theorem seqCancel_rst (reach : Nat → Bool) (level : Nat) (s : State) :
    (seqCancel reach level s).rst = { s.rst with queue := s.rst.queue.filter fun t => !reach t.dom.val } := by
  have hone : ∀ (l : List Transition) (s : State),
      (l.foldl (fun s t => refuseO t.cmd stInternal (raise 0x014 (pay2 t.dom.val level) s)) s).rst = s.rst := by
    intro l
    induction l with
    | nil => exact fun _ => rfl
    | cons t l ih =>
      intro s
      rw [List.foldl_cons, ih]
      unfold refuseO
      split
      · rw [refuse_rst, raise_rst]
      · rw [raise_rst]
  exact hone _ _

theorem not_swapping (h : ∀ x, (getConv s x).run = none) (hl : t.lines = s.lines) (hh : t.hosts = s.hosts) : r.swapping t = false := by
  unfold Reach.swapping
  refine List.any_eq_false.2 fun c _ => ?_
  rw [getConv_congr hl hh, h c]
  simp

/-- No lane is in the reach, so no swap is waited for. -/
theorem swapping_none (hd : r.data = false) (hl : r.lanes = []) (s : State) : r.swapping s = false := by
  unfold Reach.swapping
  refine List.any_eq_false.2 fun c _ => ?_
  rw [hd, hl]
  simp

theorem reachApply_lanes (hl : r.level < 3) (hc : r.control = false) (hm : r.mgmt = false)
    (hrun : ∀ x, (getConv s x).run = none) : reachApply r brown s = laneReach r (seqCancel r.dom r.level s) := by
  unfold reachApply
  dsimp only
  rw [if_neg (by omega), if_neg (by omega), hc, hm]
  have hk := seqCancel_parts r.dom r.level s
  exact if_neg (by rw [if_neg (by decide), if_neg (by decide), not_swapping hrun (hk.only .lines (by decide)) (hk.only .hosts (by decide))]; decide)

theorem reachApply_mgmt (hl : r.level < 3) (hc : r.control = false) (hm : r.mgmt = true) (hd : r.data = false) (hn : r.lanes = []) :
    reachApply r brown s = mgmtClear false (seqCancel r.dom r.level s) := by
  unfold reachApply
  dsimp only
  rw [if_neg (by omega), if_neg (by omega), hc, hm, laneReach_none hd hn, if_neg (by rw [swapping_none hd hn]; decide)]
  rfl

end

/-! ### A lane that is cleared -/

/-- The lane is off in both directions. -/
def LaneOff (l : Line) : Prop := l.rx.st = .off ∧ l.tx.st = .off ∧ l.tx.txDis = true

section
variable (n : Fin 8) (s : State)

theorem linePathOff_line : (linePathOff n s).lines[n].rx.st = .off ∧ (linePathOff n s).lines[n].tx = s.lines[n].tx := by
  have hoff : (rxOff n s).lines[n].rx.st = .off ∧ (rxOff n s).lines[n].tx = s.lines[n].tx := by
    rw [show (rxOff n s).lines[n] = _ from upd_get_self _ _ _]
    exact ⟨rfl, rfl⟩
  rw [show (linePathOff n s).lines[n] = _ from upd_get_self _ _ _]
  exact hoff

theorem msgAbandon_sameTx : SameLine n (fun l => l.tx) s (msgAbandon n s) := by
  unfold msgAbandon
  dsimp only
  refine .trans ?_ (.foldl (fun s c => .of_lines (done_lines s)) _ _)
  exact .modFr (fun _ => rfl) s

theorem lineTxOff_tx : (lineTxOff n s).lines[n].tx.st = .off ∧ (lineTxOff n s).lines[n].tx.txDis = true := by
  have hsame := msgAbandon_sameTx n (txClear n (trnDrop n s))
  have hclear : (txClear n (trnDrop n s)).lines[n].tx.st = .off ∧ (txClear n (trnDrop n s)).lines[n].tx.txDis = true := by
    rw [show (txClear n (trnDrop n s)).lines[n] = _ from upd_get_self _ _ _]
    exact ⟨rfl, rfl⟩
  have htx : (lineTxOff n s).lines[n].tx = (txClear n (trnDrop n s)).lines[n].tx := hsame
  rw [htx]
  exact hclear

theorem lineClear_off : LaneOff (lineClear n s).lines[n] := by
  obtain ⟨hst, hdis⟩ := lineTxOff_tx n (trnAbandon n 1 s)
  obtain ⟨hrx, htx⟩ := linePathOff_line n (lineTxOff n (trnAbandon n 1 s))
  unfold lineClear
  dsimp only
  generalize linePathOff n (lineTxOff n (trnAbandon n 1 s)) = w at hrx htx
  rw [← htx] at hst hdis
  rw [show (modTx n (fun x => { x with lastGood := none, trnState := 0 }) w).lines[n] = _ from upd_get_self _ _ _]
  exact ⟨hrx, hst, hdis⟩

theorem lineClear_others : OtherLines n s (lineClear n s) := by
  intro m hm
  have hne : ∀ (f : Line → Line) (t : State), SameLine m (fun l => l) t (modLine n f t) := fun f t => .modLine_ne hm f t
  have hdrop : ∀ t, SameLine m (fun l => l) t (trnDrop n t) := fun t => (trnDrop_step n t).others m hm
  have habandon : SameLine m (fun l => l) s (trnAbandon n 1 s) := (trnAbandon_step n 1 s).others m hm
  have hquiet : ∀ t, SameLine m (fun l => l) t (msgAbandon n t) := fun t =>
    .trans (hne _ t) (.foldl (fun s c => .of_lines (done_lines s)) _ _)
  have htx : ∀ t, SameLine m (fun l => l) t (lineTxOff n t) := fun t => (hdrop t).trans (.trans (hne _ _) (hquiet _))
  have hrx : ∀ t, SameLine m (fun l => l) t (linePathOff n t) := fun t => .trans (hne _ t) (hne _ _)
  exact habandon.trans (.trans (htx _) (.trans (hrx _) (hne _ _)))

end

/-! ### The data plane -/

theorem LaneOff.congr {l m : Line} (h : LaneOff l) (hr : m.rx = l.rx) (ht : m.tx = l.tx) : LaneOff m := by
  unfold LaneOff at *
  rw [hr, ht]
  exact h

theorem linesClear_off (s : State) (n : Fin 8) : LaneOff (forFin 8 lineClear s).lines[n] :=
  forFin_at lineClear (fun s => s.lines[n]) n (fun _ => True) (fun _ _ _ => trivial) (fun j s _ hj => lineClear_others j s n (Ne.symm hj))
    (fun _ l => LaneOff l) (fun s _ => lineClear_off n s) s trivial

theorem hostOff_off (n : Fin 16) (s : State) : (hostOff n s).hosts[n].st = .off := by
  rw [show (hostOff n s).hosts[n] = _ from upd_get_self _ _ _]
  rfl

theorem hostsOff_off (s : State) (n : Fin 16) : (forFin 16 hostOff s).hosts[n].st = .off :=
  forFin_at hostOff (fun s => s.hosts[n]) n (fun _ => True) (fun _ _ _ => trivial) (fun j s _ hj => upd_get_ne _ _ (Ne.symm hj))
    (fun _ h => h.st = .off) (fun s _ => hostOff_off n s) s trivial

theorem framersClear_lanes (s : State) (n : Fin 8) : (forFin 8 framerClear s).lines[n].rx = s.lines[n].rx ∧
    (forFin 8 framerClear s).lines[n].tx = s.lines[n].tx := by
  have hrx : ∀ j t, SameLine n (fun l => (l.rx, l.tx)) t (framerClear j t) := by
    intro j t
    by_cases hj : n = j
    · subst hj
      exact .modFr (fun _ => rfl) t
    · exact .modLine_ne hj _ t
  exact Prod.mk.inj (forFin_same framerClear (fun s => (s.lines[n].rx, s.lines[n].tx)) hrx s)

/-- The lanes and framers after a reset of the data plane has ended their activities. -/
def lanesCleared (s : State) : State := forFin 8 framerClear (forFin 16 hostOff (forFin 8 lineClear s))

theorem lanesCleared_off (s : State) : (∀ n : Fin 8, LaneOff (lanesCleared s).lines[n]) ∧
    ∀ n : Fin 16, (lanesCleared s).hosts[n].st = .off := by
  have hlines : ∀ n : Fin 8, (forFin 16 hostOff (forFin 8 lineClear s)).lines[n] = (forFin 8 lineClear s).lines[n] := fun n =>
    forFin_same hostOff (fun s => s.lines[n]) (fun _ _ => rfl) _
  have hhosts : ∀ n : Fin 16, (lanesCleared s).hosts[n] = (forFin 16 hostOff (forFin 8 lineClear s)).hosts[n] := fun n =>
    forFin_same framerClear (fun s => s.hosts[n]) (fun _ _ => rfl) _
  refine ⟨fun n => ?_, fun n => ?_⟩
  · obtain ⟨hrx, htx⟩ := framersClear_lanes (forFin 16 hostOff (forFin 8 lineClear s)) n
    have hoff := linesClear_off s n
    rw [← hlines n] at hoff
    exact hoff.congr hrx htx
  · rw [hhosts n]
    exact hostsOff_off _ n

/-- What follows in a reset of the data plane keeps the lanes. -/
theorem dataClear_lanes (s : State) : ∃ w, (dataClear s).lines = (lanesCleared w).lines ∧ (dataClear s).hosts = (lanesCleared w).hosts := by
  have hcounters : ∀ t : State, Only [.ports, .counters] t (clearDataCtrs t) := fun t => clearDataCtrs_only (.refl _ t) (by decide) (by decide)
  unfold dataClear
  dsimp only
  generalize capDrop (fun _ => true) stInternal _ = w
  exact ⟨w, (hcounters _).only .lines (by decide), (hcounters _).only .hosts (by decide)⟩

theorem dataClear_off (s : State) : (∀ n : Fin 8, LaneOff (dataClear s).lines[n]) ∧ ∀ n : Fin 16, (dataClear s).hosts[n].st = .off := by
  obtain ⟨w, hlines, hhosts⟩ := dataClear_lanes s
  obtain ⟨hl, hh⟩ := lanesCleared_off w
  refine ⟨fun n => ?_, fun n => ?_⟩
  · rw [line_of_lines hlines n]
    exact hl n
  · exact (congrArg (fun h : Vector HostLane 16 => h[n].st) hhosts).trans (hh n)

/-! ### One lane -/

theorem laneClear_line (n : Fin 8) (s : State) : LaneOff (laneClear (.line n) s).lines[n] := by
  obtain ⟨w, hw⟩ : ∃ w, laneClear (.line n) s = clearLineCtr n (lineClear n w) := ⟨_, rfl⟩
  have hkept : Only [.counters] (lineClear n w) (clearLineCtr n (lineClear n w)) := clearLineCtr_only (.refl _ _) (by decide)
  rw [hw, line_of_lines (hkept.only .lines (by decide)) n]
  exact lineClear_off n w

theorem laneClear_host (n : Fin 16) (s : State) : (laneClear (.host n) s).hosts[n].st = .off := by
  obtain ⟨w, hw⟩ : ∃ w, laneClear (.host n) s = clearHostCtr n (hostOff n w) := ⟨_, rfl⟩
  have hkept : Only [.counters] (hostOff n w) (clearHostCtr n (hostOff n w)) := clearHostCtr_only (.refl _ _) (by decide)
  rw [hw]
  exact (congrArg (fun h : Vector HostLane 16 => h[n].st) (hkept.only .hosts (by decide))).trans (hostOff_off n w)

end Sys2Proof.Machine
end

section
/-! SUPPORT. The RESET command. -/

namespace Sys2Proof.Machine

open Sys2Proof

section
variable {s u : State} {c : Cmd} {d : Desc}

theorem mgmtClear_rst (control : Bool) (s : State) : (mgmtClear control s).rst = { s.rst with mgmtRun := false } := by
  unfold mgmtClear
  dsimp only
  generalize hf : ocpForget _ = f
  have hforgot : f.rst = { s.rst with mgmtRun := false } := by
    rw [← hf]
    exact ((ocpForget_only (.refl [.lines, .ocp] (modRst (fun r => { r with mgmtRun := false }) s)) (by decide) (by decide)).only .rst
      (by decide)).1
  generalize hw : modChk (fun x => { x with scrub := false }) _ = w
  have hscrub : w.rst = f.rst := by
    rw [← hw]
    show (if f.chk.scrub = true then arbEnd 7 .device f else f).rst = f.rst
    split
    · rfl
    · rfl
  have hend : Only [.out, .rings, .evt, .own, .lines, .hosts, .ports, .counters, .mon, .therm, .cal, .arb, .chk, .tst, .ocp, .captures] w
      (chkAbandon control (testsEnd (fun _ => true) (capDrop (fun _ => true) stInternal (reedAbort w)))) := by
    refine chkAbandon_only (testsEnd_only (capDrop_only (reedAbort_only (.refl _ w) ?_ ?_ ?_ ?_ ?_ ?_ ?_) ?_ ?_ ?_ ?_ ?_ ?_)
      ?_ ?_ ?_ ?_ ?_ ?_ ?_ ?_ ?_ ?_ ?_ ?_) ?_
    all_goals decide
  exact (hend.only .rst (by decide)).1.trans (hscrub.trans hforgot)

theorem dataClear_rst (s : State) : (dataClear s).rst = s.rst := by
  have h : Only [.out, .rings, .evt, .own, .lines, .hosts, .ports, .counters, .mon, .arb, .tst, .ocp, .captures] s (dataClear s) := by
    refine dataClear_only (.refl _ s) ?_ ?_ ?_ ?_ ?_ ?_ ?_ ?_ ?_ ?_ ?_ ?_ ?_
    all_goals decide
  exact (h.only .rst (by decide)).1

theorem assertReset_now {src : ResetSrc} (h : (srcReach src).level < 3) (s : State) : assertReset src s = assertOne src s := by
  unfold assertReset
  dsimp only
  exact if_neg (by rw [decide_eq_false (by omega)]; simp)

theorem laneReach_lane {r : Reach} {l : LaneId} (hd : r.data = false) (hl : r.lanes = [l]) (t : State) : laneReach r t = laneClear l t := by
  unfold laneReach
  rw [hd, hl, List.foldl_cons, List.foldl_nil, if_neg (by decide)]

theorem laneReach_data {r : Reach} (hd : r.data = true) (hl : r.lanes = []) (t : State) : laneReach r t = dataClear t := by
  unfold laneReach
  rw [hd, hl, List.foldl_nil]
  exact if_pos rfl

/-- The device as it is when RESET asserts its source. -/
structure Calm (u : State) : Prop where
  episodes : u.rst.episodes = []
  exits : u.rst.exits = []
  swaps : ∀ x, (getConv u x).run = none

/-- RESET of lanes, or of the data plane, clears its reach behind the answer. -/
theorem assertReset_lanes {src : ResetSrc} (hcalm : Calm u) (hl : (srcReach src).level < 3) (hc : (srcReach src).control = false)
    (hm : (srcReach src).mgmt = false) : ∃ t, assertReset src (done c 0 u) = laneReach (srcReach src) t ∧ HeldStays u t ∧
      t.rst.cause = causeWith src u.rst.cause ∧ ((srcReach src).level ≠ 0 → t.rst.level = (srcReach src).level) := by
  obtain ⟨t, ht, ha⟩ := assertOne_alone (src := src) (s := done c 0 u) (by rw [done_rst]; exact hcalm.episodes)
    (by rw [done_rst]; exact hcalm.exits) hl
  have hrun : ∀ x, (getConv t x).run = none := fun x => by
    rw [getConv_congr (ha.lines.trans (done_lines u)) (ha.hosts.trans (done_hosts u))]
    exact hcalm.swaps x
  refine ⟨_, (assertReset_now hl _).trans (ht.trans (reachApply_lanes hl hc hm hrun)), ?_, ?_, fun h0 => ?_⟩
  · exact .trans (done_held c 0 u) (.trans (.of_rings ha.rings) (seqCancel_heldStays _ _ t))
  · rw [seqCancel_rst]
    exact ha.cause.trans (by rw [done_rst])
  · rw [seqCancel_rst]
    exact ha.level h0

theorem assertReset_mgmt (hcalm : Calm u) : ∃ t, assertReset .planeMgmt (done c 0 u) = mgmtClear false t ∧ HeldStays u t ∧
    t.rst.cause = causeWith .planeMgmt u.rst.cause ∧ t.rst.level = 1 := by
  obtain ⟨t, ht, ha⟩ := assertOne_alone (src := .planeMgmt) (s := done c 0 u) (by rw [done_rst]; exact hcalm.episodes)
    (by rw [done_rst]; exact hcalm.exits) (by decide)
  refine ⟨_, (assertReset_now (by decide) _).trans (ht.trans (reachApply_mgmt (by decide) rfl rfl rfl rfl)), ?_, ?_, ?_⟩
  · exact .trans (done_held c 0 u) (.trans (.of_rings ha.rings) (seqCancel_heldStays _ _ t))
  · rw [seqCancel_rst]
    exact ha.cause.trans (by rw [done_rst])
  · rw [seqCancel_rst]
    exact ha.level (by decide)

theorem causeWith_plane {src : ResetSrc} (h : causeBit src = some 4) (c : BitVec 13) : bit (causeWith src c) 4 = true := by
  unfold causeWith
  rw [h]
  simp [bit]

/-! ### Resets behind their record -/

/-- Every reset that waits still has its record to wait for. -/
theorem afterCheck_waits {v : State} (h : ∀ e ∈ v.rst.afterRecord, recordWaits v e.1 e.2.1 = true) : afterCheck v = v := by
  have hnone : (v.rst.afterRecord.filter fun e => !recordWaits v e.1 e.2.1) = [] :=
    List.filter_eq_nil_iff.2 fun e he => by rw [h e he]; decide
  unfold afterCheck
  rw [hnone]
  refine modRst_eq_self ?_
  have hall : (v.rst.afterRecord.filter fun e => !([] : List (Fin 16 × Word × ResetSrc)).contains e) = v.rst.afterRecord :=
    List.filter_eq_self.2 fun _ _ => rfl
  rw [hall]

theorem resetAfter_waits {w : State} (src : ResetSrc) (he : c.era = w.rings.era) (hq : bit c.d.flags 3 = false)
    (ha : w.rst.afterRecord = []) (hw : (w.rings.wait.filter (·.final)).length < 1024) :
    resetAfter c src w = modRst (fun r => { r with afterRecord := [(c.d.ring, c.d.seq, src)] }) (done c 0 w) := by
  have hlist : modRst (fun r => { r with afterRecord := r.afterRecord ++ [(c.d.ring, c.d.seq, src)] }) (done c 0 w) =
      modRst (fun r => { r with afterRecord := [(c.d.ring, c.d.seq, src)] }) (done c 0 w) := by
    unfold modRst
    simp only [done_rst, ha, List.nil_append]
  have hwaits : recordWaits (done c 0 w) c.d.ring c.d.seq = true := by
    unfold recordWaits done
    rw [answer_wait _ 0 he (.inr (.inr hq)) hw]
    simp [Cmd.record]
  unfold resetAfter
  rw [hlist]
  refine afterCheck_waits fun e hmem => ?_
  obtain rfl := List.mem_singleton.1 (show e ∈ [(c.d.ring, c.d.seq, src)] from hmem)
  exact hwaits

/-! ### The command -/

theorem actReset_line {n : Fin 8} (h0 : c.p 0 = 0) (ht : c.tgt = some (.line (some n))) (s : State) :
    actReset c s = assertReset (.lineReset n) (done c 0 s) := by
  unfold actReset
  rw [h0, ht]
  rfl

theorem actReset_host {n : Fin 16} (h0 : c.p 0 = 0) (ht : c.tgt = some (.host (some n))) (s : State) :
    actReset c s = assertReset (.hostReset n) (done c 0 s) := by
  unfold actReset
  rw [h0, ht]
  rfl

theorem actReset_data (h0 : c.p 0 = 1) (h1 : c.p 1 = 0) (s : State) : actReset c s = assertReset .planeData (done c 0 s) := by
  unfold actReset
  rw [h0, h1]
  rfl

theorem actReset_mgmt (h0 : c.p 0 = 1) (h1 : 2 ≤ c.p 1) (s : State) : actReset c s = assertReset .planeMgmt (done c 0 s) := by
  obtain ⟨k, hk⟩ := Nat.exists_eq_add_of_le' h1
  unfold actReset
  rw [h0, hk]
  rfl

theorem actReset_after (h : c.p 0 = 1 ∧ c.p 1 = 1 ∨ 2 ≤ c.p 0) (s : State) :
    actReset c s = resetAfter c (if c.p 0 = 1 then .planeControl else .hostWarm) s := by
  rcases h with ⟨h0, h1⟩ | h2
  · unfold actReset
    rw [h0, h1]
    rfl
  · obtain ⟨k, hk⟩ := Nat.exists_eq_add_of_le' h2
    rw [if_neg (by omega)]
    unfold actReset
    rw [hk]
    rfl

theorem reset_exec (h : AtOnce 0x41 d noImage s c u) (he : u.rst.episodes = []) (hx : u.rst.exits = []) (hr : ∀ x, (getConv u x).run = none) :
    (∀ n, c.p 0 = 0 → c.tgt = some (.line (some n)) → ∃ v, exec (.reset d) s = .next v ∧ v.lines[n].rx.st = .off ∧
      v.lines[n].tx.st = .off ∧ v.lines[n].tx.txDis = true) ∧
    (∀ n, c.p 0 = 0 → c.tgt = some (.host (some n)) → ∃ v, exec (.reset d) s = .next v ∧ v.hosts[n].st = .off) ∧
    (c.p 0 = 1 → c.p 1 = 0 → ∃ v, exec (.reset d) s = .next v ∧ bit v.rst.cause 4 = true ∧ v.rst.level = 1 ∧
      (∀ n : Fin 8, v.lines[n].rx.st = .off ∧ v.lines[n].tx.st = .off) ∧ ∀ n : Fin 16, v.hosts[n].st = .off) ∧
    (c.p 0 = 1 → 2 ≤ c.p 1 → ∃ v, exec (.reset d) s = .next v ∧ bit v.rst.cause 4 = true ∧ v.rst.level = 1 ∧ v.rst.mgmtRun = false) ∧
    (c.p 0 = 1 ∧ c.p 1 = 1 ∨ 2 ≤ c.p 0 → bit c.d.flags 3 = false → u.rst.afterRecord = [] →
      (u.rings.wait.filter (·.final)).length < 1024 → ∃ v, exec (.reset d) s = .next v ∧
      v.rst.afterRecord = [(c.d.ring, c.d.seq, if c.p 0 = 1 then .planeControl else .hostWarm)]) := by
  have hcalm : Calm u := ⟨he, hx, hr⟩
  have hop : opAct c u = actReset c u := by simp only [opAct, h.op_eq]
  refine ⟨fun n h0 ht => ?_, fun n h0 ht => ?_, fun h0 h1 => ?_, fun h0 h1 => ?_, fun h2 hq ha hw => ?_⟩
  · obtain ⟨t, hact, hheld, -⟩ := assertReset_lanes (c := c) (src := .lineReset n) hcalm (Nat.zero_lt_succ 2) rfl rfl
    have hlane := hact.trans (laneReach_lane (l := .line n) rfl rfl t)
    have hacts : opAct c u = laneClear (.line n) t := hop.trans ((actReset_line h0 ht u).trans hlane)
    have hheld' : HeldStays u (laneClear (.line n) t) := hheld.trans (laneClear_heldStays (.line n) t)
    refine ⟨laneClear (.line n) t, exec_once rfl h _ hacts hheld', ?_⟩
    have hoff := laneClear_line n t
    generalize laneClear (.line n) t = v at hoff ⊢
    exact hoff
  · obtain ⟨t, hact, hheld, -⟩ := assertReset_lanes (c := c) (src := .hostReset n) hcalm (Nat.zero_lt_succ 2) rfl rfl
    have hlane := hact.trans (laneReach_lane (l := .host n) rfl rfl t)
    have hacts : opAct c u = laneClear (.host n) t := hop.trans ((actReset_host h0 ht u).trans hlane)
    have hheld' : HeldStays u (laneClear (.host n) t) := hheld.trans (laneClear_heldStays (.host n) t)
    exact ⟨laneClear (.host n) t, exec_once rfl h _ hacts hheld', laneClear_host n t⟩
  · obtain ⟨t, hact, hheld, hcause, hlevel⟩ := assertReset_lanes (c := c) (src := .planeData) hcalm (by decide) rfl rfl
    obtain ⟨hlines, hhosts⟩ := dataClear_off t
    have hacts : opAct c u = dataClear t := hop.trans ((actReset_data h0 h1 u).trans (hact.trans (laneReach_data rfl rfl t)))
    have hrst := dataClear_rst t
    have hheld' := hheld.trans (dataClear_heldStays t)
    generalize dataClear t = v at hlines hhosts hacts hrst hheld'
    refine ⟨v, exec_once rfl h _ hacts hheld', ?_, ?_, fun n => ⟨(hlines n).1, (hlines n).2.1⟩, hhosts⟩
    · rw [hrst, hcause]
      exact causeWith_plane rfl _
    · rw [hrst]
      exact hlevel (by decide)
  · obtain ⟨t, hact, hheld, hcause, hlevel⟩ := assertReset_mgmt (c := c) hcalm
    have hacts : opAct c u = mgmtClear false t := hop.trans ((actReset_mgmt h0 h1 u).trans hact)
    have hrst := mgmtClear_rst false t
    have hheld' := hheld.trans (mgmtClear_heldStays false t)
    generalize mgmtClear false t = v at hacts hrst hheld'
    refine ⟨v, exec_once rfl h _ hacts hheld', ?_⟩
    rw [hrst]
    exact ⟨(congrArg (fun b => bit b 4) hcause).trans (causeWith_plane rfl _), hlevel, rfl⟩
  · have hact := hop.trans ((actReset_after h2 u).trans (resetAfter_waits _ h.era hq ha hw))
    exact ⟨_, exec_once rfl h _ hact (done_held c 0 u), rfl⟩

end

end Sys2Proof.Machine
end

section
/-! SUPPORT. SELFTEST, PATCH_ACTIVATE, ATTEST. -/

namespace Sys2Proof.Machine

open Sys2Proof

section
variable {s u : State} {c : Cmd} {d : Desc} {t : Tgt}

/-! ### What the arbiter says -/

theorem arbPresent_admits {cls : Nat} (h : arbHolder u cls t = none) : arbPresent cls t u = (arbAdmit cls t u, true) := by
  unfold arbHolder at h
  unfold arbPresent arbPresentOf
  rw [h]
  rfl

/-- A command whose activity the arbiter has admitted is refused where a slot action goes first. -/
theorem hostOffer_claimed {cls k : Nat} {r : State × Bool} (hlen : r.1.arb.admitted.length ≠ u.arb.admitted.length)
    (hk : slotClaim u cls false (c.tgt.getD .device) = some k) : hostOffer c cls u r = refuse c stMaint (arbRefuse cls k u) := by
  unfold hostOffer
  rw [decide_eq_false hlen, Bool.false_and, if_neg (by decide), hk]

theorem hostOffer_free {cls : Nat} {r : State × Bool} (hk : slotClaim u cls false (c.tgt.getD .device) = none) (hr : r.2 = false) :
    hostOffer c cls u r = r.1 := by
  unfold hostOffer
  rw [hk, ite_self]
  exact if_neg (by rw [hr]; decide)

theorem claimed_exec {i : Instr} {op cls k : Nat} {img : ImageCheck} {r : State × Bool} (hi : opcodeOf i = some (op, d, img))
    (h : AtOnce op d img s c u) (hact : opAct c u = hostOffer c cls u r) (hlen : r.1.arb.admitted.length ≠ u.arb.admitted.length)
    (hk : slotClaim u cls false (c.tgt.getD .device) = some k) : exec i s = .next (refuse c stMaint (arbRefuse cls k u)) := by
  have hrest : Only [.evt, .own, .counters, .arb] u (arbRefuse cls k u) :=
    arbRefuse_only (.refl _ u) (by decide) (by decide) (by decide) (by decide)
  exact exec_refused hi h (hact.trans (hostOffer_claimed hlen hk)) (hrest.only .rings (by decide))

/-! ### Block tests -/

theorem testTgt_ofCode {code : BitVec 16} (h : testTgt u code = some t) : Tgt.ofCode code = some t := by
  unfold testTgt at h
  split at h
  · next hcode => exact hcode.trans h
  · next hcode => exact hcode.trans h
  · next hcode =>
    split at h
    · exact hcode.trans h
    · exact absurd h.symm (Option.some_ne_none t)
  · next hcode => exact hcode.trans h
  · exact absurd h.symm (Option.some_ne_none t)

theorem ofArb_line : ∀ n : Fin 8, Tgt.ofArb (Tgt.code (.line (some n))) = .line (some n) := by decide

/-- A lane that may be tested has no training of its partner admitted. -/
theorem arbHolder_noTraining {n : Fin 8} (h : arbHolder u 3 (.line (some n)) = none) :
    ({ cls := 8, target := Tgt.code (.line (some n)) } : Activity) ∉ u.arb.admitted := by
  intro hmem
  have hnone := List.find?_eq_none.1 h _ hmem
  refine hnone ?_
  dsimp only
  rw [ofArb_line n]
  simp [exclusion, arbTogether, Tgt.meets, optMeets]

theorem trnDrop_admitted {n : Fin 8} (h : ({ cls := 8, target := Tgt.code (.line (some n)) } : Activity) ∉ u.arb.admitted) :
    (trnDrop n u).arb.admitted = u.arb.admitted := by
  unfold trnDrop
  dsimp only
  split
  · exact List.erase_of_not_mem h
  · rfl

theorem trnAbandon_admitted {n : Fin 8} {cause : Nat} (h : ({ cls := 8, target := Tgt.code (.line (some n)) } : Activity) ∉ u.arb.admitted) :
    (trnAbandon n cause u).arb.admitted = u.arb.admitted := by
  unfold trnAbandon
  split
  · rw [raise_arb]
    exact trnDrop_admitted h
  · exact trnDrop_admitted h

theorem testEnter_admitted (h : ∀ n, t = .line (some n) → ({ cls := 8, target := Tgt.code (.line (some n)) } : Activity) ∉ u.arb.admitted) :
    (testEnter t u).arb.admitted = u.arb.admitted := by
  unfold testEnter
  split
  · next n =>
    have hfree := h n rfl
    have hdrop := trnAbandon_admitted (cause := 1) hfree
    refine Eq.trans (?_ : _ = (trnDrop n (trnAbandon n 1 u)).arb.admitted) ((trnDrop_admitted (by rw [hdrop]; exact hfree)).trans hdrop)
    rfl
  · next n =>
    show (hostHalt n u).arb.admitted = _
    unfold hostHalt
    dsimp only
    split
    · rfl
    · rfl
  · rfl
  · rfl
  · rfl

theorem testEnter_underTest (ht : testTgt u c.d.target = some t) (s : State) : underTest (testEnter t s) t = true := by
  unfold testTgt at ht
  split at ht
  · obtain rfl := Option.some.inj ht
    exact congrArg (fun l : Line => l.rx.inTest) (upd_get_self _ _ _)
  · obtain rfl := Option.some.inj ht
    exact congrArg (fun l : HostLane => l.inTest) (upd_get_self _ _ _)
  · split at ht
    · obtain rfl := Option.some.inj ht
      exact congrArg (fun l : Port => l.inTest) (upd_get_self _ _ _)
    · exact absurd ht.symm (Option.some_ne_none t)
  · obtain rfl := Option.some.inj ht
    exact congrArg (fun l : Mon => l.inTest) (upd_get_self _ _ _)
  · exact absurd ht.symm (Option.some_ne_none t)

end

end Sys2Proof.Machine
end

section
/-! SUPPORT. How SELFTEST, PATCH_ACTIVATE and ATTEST end, and what all service commands do. -/

namespace Sys2Proof.Machine

open Sys2Proof

section
variable {s u : State} {c : Cmd} {d : Desc} {t : Tgt}

/-! ### SELFTEST -/

/-- The test that SELFTEST asks for. -/
def testAsked (c : Cmd) : BlkTest := { target := c.d.target, kinds := byteAt c.d.param 0, cmd := some c, until_ := 0 }

/-- The test waits for the one that runs. -/
def testQueued (r : BlkTest) (s : State) : State := modTst (fun y => { y with waitTests := y.waitTests ++ [r] }) s

theorem testStart_admitted (ht : testTgt u c.d.target = some t) (hok : testOk t c.d.param 44 = true) (hon : testOff u t = false)
    (hu : underTest u t = false) (hfree : arbHolder u 3 t = none) : testStart (some c) c.d.target c.d.param 44 u =
      (if u.tst.blk.isSome then testQueued (testAsked c) (arbAdmit 3 t u) else testBegin (testAsked c) (arbAdmit 3 t u), false) := by
  unfold testStart
  rw [ht]
  simp only [hok, hon, hu, arbPresent_admits hfree, Bool.not_true, Bool.false_eq_true, if_false]
  show (if u.tst.blk.isSome = true then _ else _) = _
  split
  · rfl
  · rfl

theorem selftest_exec (h : AtOnce 0x91 d noImage s c u) (ht : testTgt u c.d.target = some t) (hon : testOff u t = false)
    (hu : underTest u t = false) (hfree : arbHolder u 3 t = none) :
    (∀ k, slotClaim u 3 false (c.tgt.getD .device) = some k → exec (.selftest d) s = .next (refuse c 0x21 (arbRefuse 3 k u))) ∧
    (slotClaim u 3 false (c.tgt.getD .device) = none →
      (u.tst.blk = none → ∃ v, exec (.selftest d) s = .next v ∧ underTest v t = true ∧
        ∃ r ∈ v.tst.blk.toList, r.target = c.d.target ∧ r.kinds = byteAt c.d.param 0 ∧ r.cmd = some c) ∧
      (u.tst.blk ≠ none → ∃ v, exec (.selftest d) s = .next v ∧ v.tst.blk = u.tst.blk ∧ v.tst.waitTests.dropLast = u.tst.waitTests ∧
        v.tst.waitTests.getLast?.map (fun x => (x.target, x.kinds, x.cmd)) = some (d.target, byteAt d.param 0, some c))) := by
  have hcode := testTgt_ofCode ht
  have htgt : c.tgt = some t := hcode
  have hok : testOk t c.d.param 44 = true := by
    have hpar := h.par
    simp only [opPar, h.op_eq, htgt, Option.getD_some] at hpar
    exact hpar
  have hstart := testStart_admitted ht hok hon hu hfree
  have hact : opAct c u = hostOffer c 3 u (testStart (some c) c.d.target c.d.param 44 u) := by simp only [opAct, h.op_eq]
  rw [hstart] at hact
  have hbegun : (testBegin (testAsked c) (arbAdmit 3 t u)).arb.admitted = (arbAdmit 3 t u).arb.admitted := by
    show (testEnter ((Tgt.ofCode c.d.target).getD .device) (arbAdmit 3 t u)).arb.admitted = _
    rw [hcode]
    refine testEnter_admitted fun n hn hmem => ?_
    subst hn
    rcases List.mem_append.1 (show _ ∈ u.arb.admitted ++ [_] from hmem) with h0 | h0
    · exact arbHolder_noTraining hfree h0
    · exact absurd (congrArg Activity.cls (List.mem_singleton.1 h0)) (show (8 : Nat) ≠ 3 by decide)
  refine ⟨fun k hk => ?_, fun hk => ⟨fun hidle => ?_, fun hbusy => ?_⟩⟩
  · refine claimed_exec rfl h hact ?_ hk
    have hone : (arbAdmit 3 t u).arb.admitted.length = u.arb.admitted.length + 1 := List.length_append
    dsimp only
    split
    · show (arbAdmit 3 t u).arb.admitted.length ≠ _
      omega
    · rw [hbegun]
      omega
  · rw [hidle, if_neg (by decide)] at hact
    have hheld : HeldStays u (testBegin (testAsked c) (arbAdmit 3 t u)) := HeldStays.after (testBegin_heldStays _ _) rfl
    have hin : underTest (testBegin (testAsked c) (arbAdmit 3 t u)) t = true := by
      have hentered := testEnter_underTest (t := t) ht (arbAdmit 3 t u)
      show underTest (modTst _ (testEnter ((Tgt.ofCode c.d.target).getD .device) (arbAdmit 3 t u))) t = true
      rw [hcode]
      exact hentered
    exact ⟨_, exec_once rfl h _ (hact.trans (hostOffer_free hk rfl)) hheld, hin, _, List.mem_singleton.2 rfl, rfl, rfl, rfl⟩
  · rw [if_pos (Option.isSome_iff_ne_none.2 hbusy)] at hact
    refine ⟨_, exec_once rfl h _ (hact.trans (hostOffer_free hk rfl)) rfl, rfl, List.dropLast_concat, ?_⟩
    rw [← h.desc_eq]
    exact congrArg (Option.map _) List.getLast?_concat

/-! ### PATCH_ACTIVATE -/

theorem patchActivate_exec (h : AtOnce 0xA1 d noImage s c u) (hstaged : u.tst.staged ≠ none) (hfree : arbHolder u 6 .device = none)
    (hq : bit c.d.flags 3 = false) (ha : u.rst.afterRecord = []) (hw : (u.rings.wait.filter (·.final)).length < 1024) :
    (∀ k, slotClaim u 6 false (c.tgt.getD .device) = some k → exec (.patchActivate d) s = .next (refuse c 0x21 (arbRefuse 6 k u))) ∧
    (slotClaim u 6 false (c.tgt.getD .device) = none → ∃ v, exec (.patchActivate d) s = .next v ∧
      v.rst.afterRecord = [(c.d.ring, c.d.seq, .fwReq)] ∧
      v.arb.admitted = u.arb.admitted ++ [{ cls := 6, target := Tgt.code .device }]) := by
  have hstart : patchStart (some c) u = (resetAfter c .fwReq (arbAdmit 6 .device u), false) := by
    unfold patchStart
    rw [if_neg (by simpa using hstaged), arbPresent_admits hfree]
    rfl
  have hreset := resetAfter_waits (c := c) (w := arbAdmit 6 .device u) .fwReq h.era hq ha hw
  have hact : opAct c u = hostOffer c 6 u (patchStart (some c) u) := by simp only [opAct, h.op_eq]
  rw [hstart, hreset] at hact
  have harb : (modRst (fun r => { r with afterRecord := [(c.d.ring, c.d.seq, .fwReq)] }) (done c 0 (arbAdmit 6 .device u))).arb.admitted =
      u.arb.admitted ++ [{ cls := 6, target := Tgt.code .device }] := congrArg Arb.admitted (done_arb (arbAdmit 6 .device u))
  refine ⟨fun k hk => ?_, fun hk => ?_⟩
  · refine claimed_exec rfl h hact ?_ hk
    rw [harb, List.length_append]
    exact Nat.succ_ne_self _
  · exact ⟨_, exec_once rfl h _ (hact.trans (hostOffer_free hk rfl)) (done_held c 0 (arbAdmit 6 .device u)), rfl, harb⟩

/-! ### ATTEST -/

/-- The same commands wait, the rings' era is the same, and what was latched is. -/
structure Formed (s t : State) : Prop where
  held : HeldStays s t
  era : t.rings.era = s.rings.era
  latches : LatchesStay s t

theorem Formed.of_only {ps : List Part} {v : State} (h : Only ps u v) (hr : Part.rings ∉ ps) (he : Part.evt ∉ ps) : Formed u v :=
  ⟨.of_only h hr, congrArg Rings.era (h.only .rings hr), .of_evt (h.only .evt he)⟩

theorem Formed.trans {v w : State} (h : Formed u v) (k : Formed v w) : Formed u w :=
  ⟨h.held.trans k.held, k.era.trans h.era, h.latches.trans k.latches⟩

theorem modRing_era (r : RingId) (f : Ring → Ring) (s : State) : (modRing r f s).rings.era = s.rings.era := by cases r <;> rfl

theorem tlmTrim_rings (s : State) : (tlmTrim s).rings = s.rings := by
  unfold tlmTrim
  dsimp only
  split
  · rfl
  · rw [raise_rings]

theorem tlmForm_formed (typ units : Nat) (more : Bool) (frag : Nat) (origin : BitVec 16) (time : CTime) (body : List Byte) (s : State) :
    Formed s (tlmForm typ units more frag origin time body s).1 := by
  have hrings : HeldStays s (tlmForm typ units more frag origin time body s).1 ∧
      (tlmForm typ units more frag origin time body s).1.rings.era = s.rings.era := by
    unfold tlmForm HeldStays
    dsimp only
    split
    · rw [raise_rings]
      exact ⟨rfl, rfl⟩
    · rw [tlmTrim_rings]
      split
      · obtain ⟨-, -, hheld⟩ := modRing_rest (.tlm (routeOfType s typ)) (fun g => { g with formed := g.formed + 1 }) { s with tlm := _ }
        exact ⟨hheld, modRing_era _ _ _⟩
      · exact ⟨rfl, rfl⟩
  obtain ⟨hheld, hera⟩ := hrings
  exact ⟨hheld, hera, (tlmForm_beatKept typ units more frag origin time body s).latches⟩

theorem draw_formed (s : State) : Formed s (draw s).2 := .of_only (draw_only (.refl [.free] s) (by decide)) (by decide) (by decide)

theorem tlmFormId_formed (typ units : Nat) (more : Bool) (frag : Nat) (origin : BitVec 16) (time : CTime) (body : List Byte) (s : State) :
    Formed s (tlmFormId typ units more frag origin time body s).1 := by
  unfold tlmFormId
  dsimp only
  split
  · exact tlmForm_formed _ _ _ _ _ _ _ s
  · exact (tlmForm_formed _ _ _ _ _ _ _ s).trans (draw_formed _)

theorem Formed.either {a b : State} {p : Prop} [Decidable p] (ha : Formed u a) (hb : Formed u b) : Formed u (if p then a else b) := by
  split
  · exact ha
  · exact hb

/-- ATTEST forms its record, reports it and is answered. -/
theorem actAttest_reports (hon : domOn u 10 = true) (hkey : u.tst.idKeyOk = true ∨ u.tst.scanFlag = true) :
    ∃ (r : Nat) (w : State), actAttest c u = done c r (raise 0x1FD (pay1 r) w) ∧ Formed u w := by
  have hmay : (!u.tst.idKeyOk && !u.tst.scanFlag) = false := by
    rcases hkey with h0 | h0 <;> simp [h0]
  unfold actAttest
  dsimp only
  rw [if_neg (by rw [hon]; decide), if_neg (by rw [hmay]; decide)]
  refine ⟨_, _, rfl, ?_⟩
  exact Formed.trans (.either ((draw_formed u).trans (draw_formed _)) ⟨.refl u, rfl, .refl u⟩) (tlmFormId_formed _ _ _ _ _ _ _ _)

theorem attest_exec (h : AtOnce 0xA2 d noImage s c u) (hon : domOn u 10 = true) (hkey : u.tst.idKeyOk = true ∨ u.tst.scanFlag = true) :
    ∃ v, exec (.attest d) s = .next v ∧ Latched 0x1FD u v ∧ ∃ o ∈ v.rings.outcomes.head?.toList,
      o.ring = d.ring ∧ o.seq = d.seq ∧ o.status = 0 ∧ o.final = true := by
  obtain ⟨r, w, hw, hformed⟩ := actAttest_reports (c := c) hon hkey
  have hact : opAct c u = done c r (raise 0x1FD (pay1 r) w) := by
    simp only [opAct, h.op_eq]
    exact hw
  have hera : c.era = (raise 0x1FD (pay1 r) w).rings.era := by rw [raise_rings, hformed.era, h.era]
  refine ⟨_, exec_once rfl h _ hact ?_, ?_, c.outcome 0 true r, ?_, ?_⟩
  · exact (done_held c r _).trans ((congrArg Rings.held (raise_rings w)).trans hformed.held)
  · exact Latched.stays (u := w) (latched_raise (by decide) (pay1 r) w) hformed.latches (answer_latchesStay _ _ _ _ _ _)
  · unfold done
    rw [answer_outcomes _ r hera]
    exact List.mem_singleton.2 rfl
  · rw [← h.desc_eq]
    exact ⟨rfl, rfl, rfl, rfl⟩

end

/-- Settles O52, command by command. -/
theorem serviceCommands : Obligations.ServiceCommands := by
  intro d s c u
  refine ⟨fun h k hk => monConfig_exec h hk, fun h k hk => monSync_exec h hk, monThreshold_exec, thermConfig_exec, shedOrder_exec, calConfig_exec,
    fun h t ht hfree hspare => calRequest_exec h ht hfree hspare, fun h hcur hq => power_exec h hcur hq, fun h he hx hr => reset_exec h he hx hr,
    fun h hs hc => checkRun_exec h rfl hs hc, fun h t ht hon hu hfree => selftest_exec h ht hon hu hfree,
    fun img h hp hv ho => patchStage_exec h hp hv ho,
    fun h hstaged hfree hq ha hw => patchActivate_exec h hstaged hfree hq ha hw, fun h hon hkey => attest_exec h hon hkey,
    fun sigOk h hroom hscan ho => ownerKey_exec h hroom hscan ho⟩

end Sys2Proof.Machine
end

section
/-! SUPPORT. Commands on schedule slots and on the cadence domain: SCHED_INSTALL, SCHED_FREE, DOM_SCHEDULE, DOM_CANCEL, ENUMERATE. -/

namespace Sys2Proof.Machine

open Sys2Proof

/-! ### Messages down a tree -/

theorem posts_out (typ : Byte) (b : List Byte) : ∀ (l : List (Fin 10)) (s : State),
    (l.foldl (fun s k => post k typ b s) s).out = s.out ++ l.map fun k => .message k (linkFrame typ b) := by
  intro l
  induction l with
  | nil => exact fun s => (List.append_nil s.out).symm
  | cons k l ih =>
    intro s
    rw [List.foldl_cons, ih, List.map_cons, show (post k typ b s).out = s.out ++ [.message k (linkFrame typ b)] from rfl,
      List.append_assoc]
    rfl

theorem posts_mem {typ : Byte} {b : List Byte} {l : List (Fin 10)} {k : Fin 10} (h : k ∈ l) (s : State) :
    .message k (linkFrame typ b) ∈ (l.foldl (fun s k => post k typ b s) s).out := by
  rw [posts_out]
  exact List.mem_append_right _ (List.mem_map_of_mem h)

theorem broadcast_only' (t : Tree) (typ : Byte) (b : List Byte) (s : State) : Only [.out] s (broadcast t typ b s) :=
  broadcast_only (.refl _ s) (by decide)

theorem broadcast_mem {t : Tree} {typ : Byte} {b : List Byte} {s : State} {k : Fin 10} (h : k ∈ downUp s t) :
    .message k (linkFrame typ b) ∈ (broadcast t typ b s).out := posts_mem h s

theorem broadcast_cad (t : Tree) (typ : Byte) (b : List Byte) (s : State) : (broadcast t typ b s).cad = s.cad :=
  cad_of_parts ((broadcast_only' t typ b s).only .cad (by decide)) ((broadcast_only' t typ b s).only .own (by decide))

section
variable {s u : State} {c : Cmd} {d : Desc}

/-! ### Slots -/

theorem schedInstall_exec (h : AtOnce 0x20 d noImage s c u) {y : Slot} {i : Fin 256} (hy : slotFirst u (schedSlot c) = some y)
    (hi : (if c.p 29 = 1 then some (Fin.ofNat 256 (c.p 28)) else lowestFree u) = some i) :
    ∃ v, exec (.schedInstall d) s = .next (answer c 0x01 true y.armed i.val v) ∧ v.cad.slots[i] = { y with valid := true } ∧
      (∀ j, j ≠ i → v.cad.slots[j] = u.cad.slots[j]) ∧ OnlyChanges [.cad] u v := by
  have hact : opAct c u = answer c 0x01 true y.armed i.val (putSlot i y u) := by
    simp only [opAct, h.op_eq, actSchedInstall, hy, Option.elim_some, hi]
  obtain ⟨hself, hothers⟩ := putSlot_slots i y u
  exact ⟨_, exec_once rfl h _ hact (answer_held _ _ _ _ _ _), hself, hothers, (putSlot_only' i y u).only⟩

theorem freeSlot_slots (i j : Fin 256) (s : State) : (freeSlot i s).cad.slots[j] = if j = i then Slot.empty else s.cad.slots[j] := by
  have hclear : (clearSlot i s).cad.slots[j] = if j = i then Slot.empty else s.cad.slots[j] := upd_get _ _ _ _
  unfold freeSlot
  split
  · next cmd _ =>
    have hkept : Only [.rings, .evt, .own, .counters] (clearSlot i s) (refuse cmd stInternal (clearSlot i s)) :=
      refuse_only (.refl _ _) (by decide) (by decide) (by decide) (by decide)
    exact (slot_of_slots (hkept.slots (by decide)) j).trans hclear
  · exact hclear

theorem freeSlots_slots (j : Fin 256) : ∀ (l : List (Fin 256)) (s : State),
    (l.foldl (fun s i => freeSlot i s) s).cad.slots[j] = if j ∈ l then Slot.empty else s.cad.slots[j] := by
  intro l
  induction l with
  | nil => exact fun s => rfl
  | cons i l ih =>
    intro s
    rw [List.foldl_cons, ih, freeSlot_slots]
    by_cases hj : j ∈ l
    · rw [if_pos hj, if_pos (List.mem_cons_of_mem i hj)]
    · rw [if_neg hj]
      by_cases hi : j = i
      · rw [if_pos hi, if_pos (hi ▸ List.mem_cons_self)]
      · rw [if_neg hi, if_neg fun hm => hj ((List.mem_cons.1 hm).resolve_left hi)]

theorem freeSlot_heldStays (i : Fin 256) (s : State) : HeldStays s (freeSlot i s) := by
  unfold freeSlot
  split
  · exact HeldStays.after (refuse_heldStays _ _ _) rfl
  · exact .of_rings rfl

theorem schedFree_exec (h : AtOnce 0x21 d noImage s c u) (hlen : (freeTargets c u).length < 256) :
    ∃ v, exec (.schedFree d) s = .next (done c (freeTargets c u).length v) ∧
      (∀ i, v.cad.slots[i] = if i ∈ freeTargets c u then Slot.empty else u.cad.slots[i]) ∧ OnlyChanges (.cad :: .rings :: reports) u v := by
  have hact : opAct c u = done c (freeTargets c u).length ((freeTargets c u).foldl (fun s i => freeSlot i s) u) := by
    simp only [opAct, h.op_eq]
    exact if_pos hlen
  have hheld : HeldStays u ((freeTargets c u).foldl (fun s i => freeSlot i s) u) := .foldl (fun s i => freeSlot_heldStays i s) _ u
  refine ⟨_, exec_once rfl h _ hact ((done_held _ _ _).trans hheld), fun i => freeSlots_slots i _ u, ?_⟩
  exact (foldl_only _ _ (fun _ _ hk => freeSlot_only hk (by decide) (by decide) (by decide) (by decide) (by decide)) (.refl _ u)).only

/-! ### Domain entries -/

theorem domTake_only' (t : Tree) (b : List Byte) (s : State) : Only [.evt, .cad, .own, .counters] s (domTake t b s) :=
  domTake_only (.refl _ s) (by decide) (by decide) (by decide) (by decide)

theorem domTake_new {t : Tree} {b : List Byte} (h : s.cad.domTags.contains (BitVec.ofNat 32 (leAt b 32 4), otherTree t) = false) :
    (domTake t b s).cad.domTags = s.cad.domTags ++ [(BitVec.ofNat 32 (leAt b 32 4), t)] := by
  unfold domTake
  dsimp only
  rw [h, if_neg (by decide)]
  split
  · exact domInstall_tags _ _ _
  · rfl

theorem domSchedule_exec (h : AtOnce 0x22 d noImage s c u) (hsoon : earlier (slotOf ((fit 36 c.d.param).drop 4) 0).start (after u (usSub 100)) = false) :
    ∃ v, exec (.domSchedule d) s = .next (answer c 0x01 true (occTime u (slotOf ((fit 36 c.d.param).drop 4) 0) 0) 0 v) ∧
      (∀ k ∈ downUp u .a, .message k (linkFrame 0x06 (fit 36 c.d.param)) ∈ v.out) ∧
      (u.cad.domTags.any (fun e => e.1 == BitVec.ofNat 32 (leAt (fit 36 c.d.param) 32 4) && e.2 != .a) = false →
        v.cad.domTags = u.cad.domTags ++ [(BitVec.ofNat 32 (leAt (fit 36 c.d.param) 32 4), .a)]) := by
  have hact : opAct c u = answer c 0x01 true (occTime u (slotOf ((fit 36 c.d.param).drop 4) 0) 0) 0
      (domTake .a (fit 36 c.d.param) (broadcast .a 0x06 (fit 36 c.d.param) u)) := by
    simp only [opAct, h.op_eq]
    exact if_neg (by rw [hsoon]; decide)
  have hcad := broadcast_cad .a 0x06 (fit 36 c.d.param) u
  have hsent : ∀ k ∈ downUp u .a, .message k (linkFrame 0x06 (fit 36 c.d.param)) ∈ (broadcast .a 0x06 (fit 36 c.d.param) u).out := fun k hk => broadcast_mem hk
  have hbro := broadcast_only' .a 0x06 (fit 36 c.d.param) u
  generalize broadcast .a 0x06 (fit 36 c.d.param) u = w at hact hcad hsent hbro
  have htake := domTake_only' .a (fit 36 c.d.param) w
  refine ⟨_, exec_once rfl h _ hact ?_, fun k hk => ?_, fun hnew => ?_⟩
  · exact (answer_held _ _ _ _ _ _).trans (congrArg Rings.held ((htake.only .rings (by decide)).trans (hbro.only .rings (by decide))))
  · rw [htake.only .out (by decide)]
    exact hsent k hk
  · rw [← hcad] at hnew ⊢
    refine domTake_new ?_
    simp only [List.any_eq_false, Bool.and_eq_true, beq_iff_eq, bne_iff_ne] at hnew
    simp only [List.contains_eq_mem, decide_eq_false_iff_not]
    exact fun hmem => hnew _ hmem ⟨rfl, show otherTree Tree.a ≠ Tree.a by decide⟩

theorem freeTagged_slot (tag : Word) (i : Fin 256) (s : State) : (forFin 256 (freeTagged tag) s).cad.slots[i] =
    let x := s.cad.slots[i]; if x.valid = true ∧ x.dom = true ∧ x.tag = tag then Slot.empty else x := by
  refine forFin_at (freeTagged tag) (fun u : State => u.cad.slots[i]) i (fun _ => True) (fun _ _ _ => trivial) (fun j u _ hj => ?_)
    (fun x y => y = if x.valid = true ∧ x.dom = true ∧ x.tag = tag then Slot.empty else x) (fun u _ => ?_) s trivial
  · unfold freeTagged
    split
    · exact modSlot_other hj.symm _ u
    · rfl
  · have hcond : (u.cad.slots[i].valid && u.cad.slots[i].dom && u.cad.slots[i].tag == tag) = true ↔
        u.cad.slots[i].valid = true ∧ u.cad.slots[i].dom = true ∧ u.cad.slots[i].tag = tag := by
      rw [Bool.and_eq_true, Bool.and_eq_true, beq_iff_eq, and_assoc]
    unfold freeTagged
    by_cases hc : u.cad.slots[i].valid = true ∧ u.cad.slots[i].dom = true ∧ u.cad.slots[i].tag = tag
    · rw [if_pos (hcond.2 hc), if_pos hc]
      exact clearSlot_slot i u
    · rw [if_neg (fun hm => hc (hcond.1 hm)), if_neg hc]

theorem domFree_tags (tag : Word) (s : State) : (domFree tag s).cad.domTags = s.cad.domTags.filter fun e => e.1 != tag := by
  have hkept : (forFin 256 (freeTagged tag) s).cad.domTags = s.cad.domTags := by
    refine forFin_same (freeTagged tag) (fun u : State => u.cad.domTags) (fun i u => ?_) s
    unfold freeTagged
    split
    · rfl
    · rfl
  rw [← hkept]
  simp only [domFree, modCad, freeTagged_eq]

theorem domCancel_exec (h : AtOnce 0x23 d noImage s c u) : let tag := BitVec.ofNat 32 (c.le 4 4);
    ∃ v, exec (.domCancel d) s = .next (done c 0 v) ∧
      (∀ k ∈ downUp u .a, .message k (linkFrame 0x07 (bytesLE 4 tag.toNat)) ∈ v.out) ∧
      (∀ i : Fin 256, v.cad.slots[i] = let x := u.cad.slots[i];
        if x.valid = true ∧ x.dom = true ∧ x.tag = tag then Slot.empty else x) ∧
      v.cad.domTags = u.cad.domTags.filter (fun e => e.1 != tag) := by
  intro tag
  have hact : opAct c u = done c 0 (domFree tag (broadcast .a 0x07 (bytesLE 4 tag.toNat) u)) := by
    simp only [opAct, h.op_eq]
    rfl
  have hcad := broadcast_cad .a 0x07 (bytesLE 4 tag.toNat) u
  have hsent : ∀ k ∈ downUp u .a, .message k (linkFrame 0x07 (bytesLE 4 tag.toNat)) ∈ (broadcast .a 0x07 (bytesLE 4 tag.toNat) u).out :=
    fun k hk => broadcast_mem hk
  have hbro := broadcast_only' .a 0x07 (bytesLE 4 tag.toNat) u
  generalize broadcast .a 0x07 (bytesLE 4 tag.toNat) u = w at hact hcad hsent hbro
  have hfree : Only [.cad, .own] w (domFree tag w) := domFree_only (.refl _ w) (by decide) (by decide)
  refine ⟨_, exec_done rfl h hact ((hfree.only .rings (by decide)).trans (hbro.only .rings (by decide))), fun k hk => ?_, fun i => ?_, ?_⟩
  · rw [hfree.only .out (by decide)]
    exact hsent k hk
  · rw [slot_of_slots (domFree_slots tag w) i, ← hcad]
    exact freeTagged_slot tag i w
  · rw [← hcad]
    exact domFree_tags tag w

/-! ### Enumeration -/

/-- A new collection keeps the commands given to it. -/
theorem beginRun_cmds (t : Tree) (epoch : Byte) (round : Nat) (dup : List Nat) (cmds : List Cmd) (ports : List (Fin 10))
    (join : Option (Fin 10)) (s : State) : (getRun (beginRun t epoch round dup cmds ports join s) t).map (·.cmds) = some cmds := by
  unfold beginRun
  dsimp only
  rw [getRun_setRun]
  rfl

theorem setRun_out (t : Tree) (r : Option EnumRun) (s : State) : (setRun t r s).out = s.out := by
  cases t <;> rfl

/-- Its first round goes down every port that it awaits. -/
theorem beginRun_sends {t : Tree} {epoch : Byte} {cmds : List Cmd} {ports : List (Fin 10)} {k : Fin 10} (h : k ∈ ports) (s : State) :
    .message k (linkFrame 0x03 [epoch, 1]) ∈ (beginRun t epoch 1 [] cmds ports none s).out := by
  unfold beginRun
  dsimp only
  rw [setRun_out, if_neg (by decide)]
  exact posts_mem h _

theorem beginRun_rings (t : Tree) (epoch : Byte) (round : Nat) (dup : List Nat) (cmds : List Cmd) (ports : List (Fin 10))
    (join : Option (Fin 10)) (s : State) : (beginRun t epoch round dup cmds ports join s).rings = s.rings :=
  (beginRun_only (ps := [.out, .cad, .own]) (.refl _ s) (by decide) (by decide) (by decide)).only .rings (by decide)

/-- The device as an enumeration begins. -/
def enumBegun (t : Tree) (s : State) : State := modCad (fun c => { c with enumBegun := true }) (setEpoch t (epochOf s t + 1) s)

theorem enumBegun_kept (t : Tree) (s : State) : epochOf (enumBegun t s) t = epochOf s t + 1 ∧ downUp (enumBegun t s) t = downUp s t ∧
    (enumBegun t s).rings = s.rings := by
  cases t <;> exact ⟨rfl, rfl, rfl⟩

theorem startEnum_begins {t : Tree} (hc : chanterOf u = some t) (cmds : List Cmd) : ∃ old : List Cmd, startEnum cmds u =
    finishRun t (beginRun t (epochOf (enumBegun t u) t) 1 [] (old ++ cmds) (downUp (enumBegun t u) t) none (enumBegun t u)) := by
  unfold startEnum
  rw [hc]
  exact ⟨_, rfl⟩

theorem enumerate_exec (h : AtOnce 0x24 d noImage s c u) {t : Tree} (hc : chanterOf u = some t) (hd : downUp u t ≠ []) :
    ∃ v, exec (.enumerate d) s = .next v ∧ epochOf v t = epochOf u t + 1 ∧
      (∀ k ∈ downUp u t, .message k (linkFrame 0x03 [epochOf u t + 1, 1]) ∈ v.out) ∧
      ∃ r ∈ (getRun v t).toList, r.await = downUp u t ∧ r.round = 1 ∧ c ∈ r.cmds := by
  obtain ⟨old, hstart⟩ := startEnum_begins hc [c]
  obtain ⟨hepoch, hdown, hrings⟩ := enumBegun_kept t u
  rw [hepoch, hdown] at hstart
  generalize enumBegun t u = w at hstart hepoch hrings
  have hact : opAct c u = startEnum [c] u := by simp only [opAct, h.op_eq, actEnumerate]
  rw [hstart] at hact
  have hcmds := beginRun_cmds t (epochOf u t + 1) 1 [] (old ++ [c]) (downUp u t) none w
  have hkept := beginRun_rings t (epochOf u t + 1) 1 [] (old ++ [c]) (downUp u t) none w
  have hsent : ∀ k ∈ downUp u t, .message k (linkFrame 0x03 [epochOf u t + 1, 1]) ∈ (beginRun t (epochOf u t + 1) 1 [] (old ++ [c]) (downUp u t) none w).out :=
    fun k hk => beginRun_sends hk w
  obtain ⟨x, l, q, r, hset, hcad, -, hround, hawait⟩ := beginRun_set t (epochOf u t + 1) 1 [] (old ++ [c]) (downUp u t) none w
  rw [hset] at hact hcmds hkept hsent
  have hrun := getRun_setRun t (some r) x
  rw [finishRun_waits hrun (by rw [hawait]; exact hd)] at hact
  rw [hrun] at hcmds
  refine ⟨_, exec_once rfl h _ hact (congrArg Rings.held (hkept.trans hrings)), ?_, hsent, r, ?_, hawait, hround, ?_⟩
  · rw [epochOf_setRun, epochOf_of_cad hcad, hepoch]
  · rw [hrun]
    exact List.mem_singleton.2 rfl
  · rw [show r.cmds = old ++ [c] from Option.some.inj hcmds]
    exact List.mem_append_right _ List.mem_cons_self

end

end Sys2Proof.Machine
end

section
/-! SUPPORT. Commands on lanes and ports: LANE_ACQUIRE, TRAIN_START, LAT_MEASURE, HOST_MSG, OCP_XFER. -/

namespace Sys2Proof.Machine

open Sys2Proof

section
variable {s u : State} {c : Cmd} {d : Desc} {n : Fin 8}

/-! ### LANE_ACQUIRE -/

theorem lineCold_rings (n : Fin 8) (s : State) : (lineCold n s).rings = s.rings :=
  (lineCold_only (ps := [.evt, .own, .lines, .counters]) (.refl _ s) (by decide) (by decide) (by decide) (by decide)).only .rings (by decide)

/-- What a cold acquisition makes of a line lane. -/
theorem lineCold_step (n : Fin 8) (s : State) : ∃ l, LineStep n s (lineCold n s) l ∧ l.eq.stored = none ∧ l.rx.st =
    if s.lines[n].rx.st = .off then .off else if s.lines[n].rx.st = .dark then .dark else .gain := by
  have hgain := enterGain_step n false s
  unfold lineCold
  split
  case h_1 hst =>
    rw [hst]
    exact ⟨_, (LineStep.refl n s).modEq _, rfl, hst⟩
  case h_2 hst =>
    rw [hst]
    exact ⟨_, (LineStep.refl n s).modEq _, rfl, hst⟩
  case h_3 hst =>
    obtain ⟨q, hq⟩ := outageStart_step n s
    rw [hst]
    exact ⟨_, hq.trans (enterGain_step n false _), rfl, rfl⟩
  case h_4 hoff hdark _ =>
    rw [if_neg hoff, if_neg hdark]
    exact ⟨_, hgain, rfl, rfl⟩

/-- What a cold acquisition makes of a host lane. -/
theorem hostCold_step (n : Fin 16) (s : State) : ∃ h, HostStep n s (hostCold n s) h ∧ h.st =
    if s.hosts[n].st = .off then .off else if s.hosts[n].st = .idle then .idle else .timing := by
  unfold hostCold
  split
  case h_1 hst =>
    rw [hst]
    exact ⟨_, .refl n s, hst⟩
  case h_2 hst =>
    rw [hst]
    exact ⟨_, (HostStep.refl n s).mod _, hst⟩
  case h_3 hst =>
    rw [hst]
    exact ⟨_, ((HostStep.refl n s).mod _).timing false, rfl⟩
  case h_4 hoff hidle _ =>
    rw [if_neg hoff, if_neg hidle]
    exact ⟨_, (HostStep.refl n s).timing false, rfl⟩

theorem laneAcquire_exec (h : AtOnce 0x30 d noImage s c u) :
    (∀ n, c.tgt = some (.line (some n)) → ∃ v, exec (.laneAcquire d) s = .next (done c 0 v) ∧ OtherLines n u v ∧
      v.lines[n].eq.stored = none ∧ v.lines[n].rx.st =
        if u.lines[n].rx.st = .off then .off else if u.lines[n].rx.st = .dark then .dark else .gain) ∧
    (∀ n, c.tgt = some (.host (some n)) → ∃ v, exec (.laneAcquire d) s = .next (done c 0 v) ∧ OtherHosts n u v ∧
      v.hosts[n].st = if u.hosts[n].st = .off then .off else if u.hosts[n].st = .idle then .idle else .timing) := by
  refine ⟨fun n ht => ?_, fun n ht => ?_⟩
  · obtain ⟨l, hl, hstored, hst⟩ := lineCold_step n u
    have hact : opAct c u = done c 0 (lineCold n u) := by simp only [opAct, h.op_eq, actLaneAcquire, ht]
    refine ⟨_, exec_done rfl h hact (lineCold_rings n u), hl.others, ?_⟩
    rw [hl.line]
    exact ⟨hstored, hst⟩
  · obtain ⟨k, hk, hst⟩ := hostCold_step n u
    have hact : opAct c u = done c 0 (hostCold n u) := by simp only [opAct, h.op_eq, actLaneAcquire, ht]
    have hrings : (hostCold n u).rings = u.rings := (hostCold_only (ps := [.hosts]) (.refl _ u) (by decide)).only .rings (by decide)
    refine ⟨_, exec_done rfl h hact hrings, hk.others, ?_⟩
    rw [hk.host]
    exact hst

/-! ### TRAIN_START -/

theorem tgtLine_tgt (h : tgtLine c = some n) : c.tgt = some (.line (some n)) := by
  unfold tgtLine at h
  split at h
  · next hm =>
    obtain rfl := Option.some.inj h
    exact hm
  · exact absurd h.symm (Option.some_ne_none n)

/-- The command waits for its lane. -/
def trainAsked (c : Cmd) (n : Fin 8) (s : State) : State :=
  modTx n (fun x => { x with trainCmds := x.trainCmds ++ (some c).toList, restartAtUp := x.restartAtUp || (some c).isNone }) s

theorem trainStart_asked (hm : modeOf u ≠ 4) (hreq : u.lines[n].act.trnReq = true) (hin : u.lines[n].rx.inTest = false)
    (hon : domOn u (txDomain n) = true) (hfree : arbHolder u 8 (.line (some n)) = none) : trainStart (some c) n u =
      (if u.lines[n].rx.st = .up then trnBegin n (trainAsked c n u) else trainAsked c n u, false) := by
  have hasked : LineStep n u (trainAsked c n u) _ := (LineStep.refl n u).modTx _
  have hst : (trainAsked c n u).lines[n].rx = u.lines[n].rx := by rw [hasked.line]
  unfold trainStart
  rw [if_neg hm, if_neg (by rw [hreq]; decide), if_neg (by rw [hin]; decide), if_neg (by rw [hon]; decide), hfree]
  show (if (trainAsked c n u).lines[n].rx.st = .up then _ else _, false) = _
  rw [hst]
  rfl

/-- A training gives way to a slot action whatever the arbiter says. -/
theorem hostOffer_train {k : Nat} {r : State × Bool} (hk : slotClaim u 8 false (c.tgt.getD .device) = some k) :
    hostOffer c 8 u r = refuse c stMaint (arbRefuse 8 k u) := by
  unfold hostOffer
  rw [show ((8 : Nat) != 8) = false from rfl, Bool.and_false, if_neg (by decide), hk]

theorem trainStart_exec (h : AtOnce 0x31 d noImage s c u) (ht : tgtLine c = some n) (hm : modeOf u ≠ 4) (hreq : u.lines[n].act.trnReq = true)
    (hin : u.lines[n].rx.inTest = false) (hon : domOn u (txDomain n) = true) (hfree : arbHolder u 8 (.line (some n)) = none) :
    (∀ k, slotClaim u 8 false (.line (some n)) = some k → exec (.trainStart d) s = .next (refuse c 0x21 (arbRefuse 8 k u))) ∧
    (slotClaim u 8 false (.line (some n)) = none → ∃ v, exec (.trainStart d) s = .next v ∧ OtherLines n u v ∧
      (u.lines[n].rx.st ≠ .up → v.lines[n].tx = { u.lines[n].tx with trainCmds := u.lines[n].tx.trainCmds ++ [c] }) ∧
      (u.lines[n].rx.st = .up → v.lines[n].tx.trnState = 1 ∧ v.lines[n].tx.trainCmds = [] ∧
        ∃ p ∈ v.lines[n].tx.proc.toList, p.step = .base 2 0 ∧ p.offIdx = 0)) := by
  have htgt := tgtLine_tgt ht
  have hact : opAct c u = hostOffer c 8 u (trainStart (some c) n u) := by
    simp only [opAct, h.op_eq, actTrainStart, ht]
  rw [trainStart_asked hm hreq hin hon hfree] at hact
  have hwhere : c.tgt.getD .device = .line (some n) := by rw [htgt]; rfl
  have hasked : LineStep n u (trainAsked c n u) _ := (LineStep.refl n u).modTx _
  refine ⟨fun k hk => ?_, fun hk => ?_⟩
  · have hrest : Only [.evt, .own, .counters, .arb] u (arbRefuse 8 k u) :=
      arbRefuse_only (.refl _ u) (by decide) (by decide) (by decide) (by decide)
    exact exec_refused rfl h (hact.trans (hostOffer_train (by rw [hwhere]; exact hk))) (hrest.only .rings (by decide))
  · rw [hostOffer_free (by rw [hwhere]; exact hk) rfl] at hact
    by_cases hup : u.lines[n].rx.st = .up
    · have hbegun := hasked.trans (trnBegin_step n _)
      have hheld : HeldStays u (trnBegin n (trainAsked c n u)) := by
        unfold trnBegin
        dsimp only
        exact (HeldStays.foldl (fun s c => done_held c 0 s) _ _).after rfl
      rw [if_pos hup] at hact
      refine ⟨_, exec_once rfl h _ hact hheld, hbegun.others, fun h0 => absurd hup h0, fun _ => ?_⟩
      rw [hbegun.line]
      exact ⟨rfl, rfl, _, List.mem_singleton.2 rfl, rfl, rfl⟩
    · rw [if_neg hup] at hact
      refine ⟨_, exec_once rfl h _ hact rfl, hasked.others, fun _ => ?_, fun h0 => absurd h0 hup⟩
      rw [hasked.line]
      simp

/-! ### LAT_MEASURE -/

/-- The echoes of a lane go as a measurement begins. -/
def echoesGone (n : Fin 8) (s : State) : State :=
  modFr n (fun f => { f with departs := [], echoes := [], echoHold := false, echoForeign := false }) s

theorem echoesGone_line (m n : Fin 8) (s : State) (h : m = n ∨ s.lines[m].fr.echoes = [] ∧ s.lines[m].fr.departs = []) :
    (echoesGone n s).lines[m].fr.echoes = [] ∧ (echoesGone n s).lines[m].fr.departs = [] := by
  by_cases hm : m = n
  · subst hm
    have hself : (echoesGone m s).lines[m].fr = { s.lines[m].fr with departs := [], echoes := [], echoHold := false, echoForeign := false } :=
      congrArg Line.fr (modFr_line m (fun f => { f with departs := [], echoes := [], echoHold := false, echoForeign := false }) s)
    rw [hself]
    exact ⟨rfl, rfl⟩
  · have hkept : (echoesGone n s).lines[m] = s.lines[m] := upd_get_ne _ _ hm
    rw [hkept]
    exact h.resolve_left hm

theorem echoesGone_lines (m : Fin 8) : ∀ (l : List (Fin 8)) (s : State), m ∈ l ∨ s.lines[m].fr.echoes = [] ∧ s.lines[m].fr.departs = [] →
    (l.foldl (fun s n => echoesGone n s) s).lines[m].fr.echoes = [] ∧ (l.foldl (fun s n => echoesGone n s) s).lines[m].fr.departs = [] := by
  intro l
  induction l with
  | nil => exact fun s h => h.resolve_left List.not_mem_nil
  | cons n l ih =>
    intro s h
    refine ih _ ?_
    by_cases hm : m ∈ l
    · exact .inl hm
    · refine .inr (echoesGone_line m n s (h.imp (fun hmem => (List.mem_cons.1 hmem).resolve_right hm) id))

theorem tgtPort_measures {p : Fin 8} (ht : tgtPort c = some p) (hm : u.ports[p].meas = none) : actLatMeasure c u =
    modPort p (fun x => { x with meas := some { cmd := c, n := c.le 0 2, hold := onFreeBeat u } })
      ((linesOfPort (modeOf u) p).foldl (fun s n => echoesGone n s) u) := by
  have hidle : latDone p u = u := by
    unfold latDone
    rw [hm]
  have hkept : Only [.lines] u ((linesOfPort (modeOf u) p).foldl (fun s n => echoesGone n s) u) :=
    foldl_only _ _ (fun _ _ hk => modFr_only hk (by decide)) (.refl _ u)
  have hbeat : onFreeBeat ((linesOfPort (modeOf u) p).foldl (fun s n => echoesGone n s) u) = onFreeBeat u := by
    unfold onFreeBeat
    rw [cad_of_parts (hkept.only .cad (by decide)) (hkept.only .own (by decide))]
  rw [← hbeat]
  unfold actLatMeasure
  rw [ht]
  dsimp only
  rw [hidle]
  rfl

theorem latMeasure_exec (h : AtOnce 0x32 d noImage s c u) {p : Fin 8} (ht : tgtPort c = some p) (hm : u.ports[p].meas = none) :
    ∃ v, exec (.latMeasure d) s = .next v ∧ OtherPorts p u v ∧
      v.ports[p] = { u.ports[p] with meas := some { cmd := c, n := c.le 0 2, hold := onFreeBeat u } } ∧
      ∀ n ∈ linesOfPort (modeOf u) p, v.lines[n].fr.echoes = [] ∧ v.lines[n].fr.departs = [] := by
  have hact : opAct c u = actLatMeasure c u := by simp only [opAct, h.op_eq]
  rw [tgtPort_measures ht hm] at hact
  have hgone := fun n (hn : n ∈ linesOfPort (modeOf u) p) => echoesGone_lines n (linesOfPort (modeOf u) p) u (.inl hn)
  have hkept : Only [.lines] u ((linesOfPort (modeOf u) p).foldl (fun s n => echoesGone n s) u) :=
    foldl_only _ _ (fun _ _ hk => modFr_only hk (by decide)) (.refl _ u)
  generalize (linesOfPort (modeOf u) p).foldl (fun s n => echoesGone n s) u = w at hact hgone hkept
  have hports : w.ports = u.ports := hkept.only .ports (by decide)
  refine ⟨_, exec_once rfl h _ hact (congrArg Rings.held (hkept.only .rings (by decide))), fun q hq => ?_, ?_, hgone⟩
  · rw [← hports]
    exact upd_get_ne _ _ hq
  · rw [← hports]
    exact upd_get_self _ _ _

/-! ### HOST_MSG -/

theorem hostMsg_exec (h : AtOnce 0x33 d noImage s c u) (ht : tgtLine c = some n) : ∃ v, exec (.hostMsg d) s = .next v ∧ OtherLines n u v ∧
    (∀ x, u.lines[n].fr.send = some x → v.lines[n].fr = { u.lines[n].fr with waiting := u.lines[n].fr.waiting ++ [(c, msgData c)] }) ∧
    (u.lines[n].fr.send = none → u.lines[n].fr.waiting = [] →
      v.lines[n].fr.send = some { cmd := c, msg := u.lines[n].fr.nextMsg, data := msgData c, next := 0, tries := 1 }) := by
  have hpar := h.par
  simp only [opPar, h.op_eq] at hpar
  have hact : opAct c u = sendNext n (modFr n (fun f => { f with waiting := f.waiting ++ [(c, msgData c)] }) u) := by
    simp only [opAct, h.op_eq, actHostMsg, ht]
    exact if_pos hpar
  have hstep : LineStep n u (sendNext n (modFr n (fun f => { f with waiting := f.waiting ++ [(c, msgData c)] }) u)) _ :=
    ((LineStep.refl n u).modFr _).modFr _
  refine ⟨_, exec_once rfl h _ hact rfl, hstep.others, fun x hx => ?_, fun hsend hwait => ?_⟩
  · rw [hstep.line]
    simp only [hx]
  · rw [hstep.line]
    simp only [hsend, hwait, List.nil_append]

/-! ### OCP_XFER -/

/-- The transaction of OCP_XFER. -/
def xferAsked (c : Cmd) : OcpTrans :=
  { what := .xfer c, cs := c.p 0, addr := 0, send := (List.range (c.p 1)).map fun i => c.d.param.getD (4 + i) 0, rd := c.p 2 }

/-- Raw bytes start at once on an idle port, and wait behind everything on a busy one. -/
theorem ocpPush_xfer (t : OcpTrans) (hx : t.what = .xfer c) (s : State) : ocpPush t s =
    if s.ocp = [] then emit (.spi t.cs t.send) { s with ocp := [t] } else { s with ocp := s.ocp ++ [t] } := by
  have hxfer : isXfer t.what = true := by rw [hx]; rfl
  have hdead : ∀ s, ocpDead s t = false := fun s => by
    unfold ocpDead ocpStale
    rw [hx]
    rfl
  have hfresh : ∀ s, ocpFresh s t = t := fun s => by
    unfold ocpFresh
    rw [hx]
  unfold ocpPush
  split
  · next hnil =>
    rw [if_pos hnil]
    unfold ocpStart
    simp only [List.takeWhile_cons, List.dropWhile_cons, hdead, Bool.false_eq_true, if_false, List.foldl_nil, hfresh]
  · next hd l hcons =>
    rw [if_pos hxfer, if_neg (by rw [hcons]; exact List.cons_ne_nil _ _), hcons]
    rfl

theorem ocpXfer_exec (h : AtOnce 0x34 d noImage s c u) : ∃ v, exec (.ocpXfer d) s = .next v ∧ OnlyChanges [.ocp, .out] u v ∧
    ∃ x ∈ v.ocp.getLast?.toList, x.what = .xfer c ∧ x.cs = c.p 0 ∧ x.rd = c.p 2 := by
  have hact : opAct c u = ocpPush (xferAsked c) u := by
    simp only [opAct, h.op_eq]
    rfl
  rw [ocpPush_xfer (c := c) (xferAsked c) rfl] at hact
  have hocp : ∀ (x : List OcpTrans), Only [.ocp, .out] u { u with ocp := x } := fun x => by
    simp only [only_mk, Only.refl, List.mem_cons, true_or, or_true, and_self]
  by_cases hidle : u.ocp = []
  · rw [if_pos hidle] at hact
    exact ⟨_, exec_once rfl h _ hact rfl, (emit_only (hocp _) (by decide)).only, xferAsked c, List.mem_singleton.2 rfl, rfl, rfl, rfl⟩
  · rw [if_neg hidle] at hact
    refine ⟨_, exec_once rfl h _ hact rfl, (hocp _).only, xferAsked c, ?_, rfl, rfl, rfl⟩
    rw [List.getLast?_concat]
    exact List.mem_singleton.2 rfl

end

end Sys2Proof.Machine
end

section
/-! SUPPORT. FREEZE, COUNTER_CLEAR and COUNTER_SELECT. -/

namespace Sys2Proof.Machine

open Sys2Proof

/-! ### Freezes -/

/-- The snapshot's number and time stay, and so do the commands that wait. -/
structure SnapKept (s t : State) : Prop where
  serial : t.tlm.serial = s.tlm.serial
  time : t.tlm.snapTime = s.tlm.snapTime
  clk : t.tlm.snapClk = s.tlm.snapClk
  held : HeldStays s t

theorem SnapKept.refl (s : State) : SnapKept s s := ⟨rfl, rfl, rfl, .refl s⟩

theorem SnapKept.trans {s t u : State} (h : SnapKept s t) (k : SnapKept t u) : SnapKept s u :=
  ⟨k.serial.trans h.serial, k.time.trans h.time, k.clk.trans h.clk, h.held.trans k.held⟩

theorem SnapKept.either {s a b : State} {p : Prop} [Decidable p] (ha : SnapKept s a) (hb : SnapKept s b) : SnapKept s (if p then a else b) := by
  split
  · exact ha
  · exact hb

theorem SnapKept.forFin {n : Nat} {f : Fin n → State → State} (h : ∀ i s, SnapKept s (f i s)) (s : State) : SnapKept s (forFin n f s) :=
  forFin_keep f (SnapKept s) (fun i _ hk => hk.trans (h i _)) s (.refl s)

theorem tlmTrim_tlm (s : State) : ∃ l, (tlmTrim s).tlm = { s.tlm with recs := l } := by
  unfold tlmTrim
  dsimp only
  split
  · exact ⟨_, rfl⟩
  · rw [raise_tlm]
    exact ⟨_, rfl⟩

theorem tlmForm_tlm (typ units : Nat) (more : Bool) (frag : Nat) (origin : BitVec 16) (time : CTime) (body : List Byte) (s : State) :
    ∃ l, (tlmForm typ units more frag origin time body s).1.tlm = { s.tlm with recs := l } := by
  unfold tlmForm
  dsimp only
  split
  · rw [raise_tlm]
    exact ⟨_, rfl⟩
  · obtain ⟨l, hl⟩ := tlmTrim_tlm (if ringEn s (.tlm (routeOfType s typ)) then
      modRing (.tlm (routeOfType s typ)) (fun g => { g with formed := g.formed + 1 }) { s with tlm := { s.tlm with recs := _ } }
      else { s with tlm := { s.tlm with recs := _ } })
    refine ⟨l, hl.trans ?_⟩
    split
    · rw [(modRing_only' (.tlm (routeOfType s typ)) _ _).only .tlm (by decide)]
    · rfl

theorem snapForm_kept (units : Nat) (t : Tgt) (body : List Byte) (s : State) : SnapKept s (snapForm units t body s) := by
  obtain ⟨l, hl⟩ := tlmForm_tlm 1 units false 0 t.code s.tlm.snapTime body s
  unfold snapForm
  exact ⟨by rw [hl], by rw [hl], by rw [hl], (tlmForm_formed _ _ _ _ _ _ _ s).held⟩

theorem snapRecords_kept (s : State) : SnapKept s (snapRecords s) := by
  unfold snapRecords
  dsimp only
  refine .trans (snapForm_kept _ _ _ s) (.trans (.forFin (fun n t => ?_) _) (.trans (.forFin (fun n t => ?_) _) (.forFin (fun p t => ?_) _)))
  · exact .either (.refl t) (snapForm_kept _ _ _ t)
  · exact .either (.refl t) (snapForm_kept _ _ _ t)
  · exact .either (.refl t) (snapForm_kept _ _ _ t)

theorem freeze_taken {s : State} (h : freezeSoon s = false) : (freeze s).tlm.serial = s.tlm.serial + 1 ∧ (freeze s).tlm.snapTime = now s ∧
    (freeze s).tlm.snapClk = some s.clk ∧ HeldStays s (freeze s) := by
  have hkept := snapRecords_kept { s with tlm := { s.tlm with serial := s.tlm.serial + 1, snapTime := now s, snapClk := some s.clk } }
  unfold freeze
  rw [if_neg (by rw [h]; decide)]
  exact ⟨hkept.serial, hkept.time, hkept.clk, hkept.held⟩

section
variable {s u : State} {c : Cmd} {d : Desc}

theorem freeze_exec (h : AtOnce 0x50 d noImage s c u) (hsoon : freezeSoon u = false) :
    ∃ v, exec (.freeze d) s = .next (done c (u.tlm.serial + 1).toNat v) ∧ v.tlm.serial = u.tlm.serial + 1 ∧
      v.tlm.snapTime = now u ∧ v.tlm.snapClk = some u.clk := by
  have hon : domOn u 10 = true := by
    have hop := h.op_eq
    obtain ⟨⟨-, -, -, -, -, -, hoff⟩, -⟩ := h
    simpa [opOff, hop] using hoff
  obtain ⟨hserial, htime, hclk, hheld⟩ := freeze_taken hsoon
  have hact : opAct c u = done c ((freeze u).tlm.serial.toNat + 2 ^ 32 * b2n (freezeSoon u)) (freeze u) := by
    simp only [opAct, h.op_eq]
    exact if_neg (by simp [hon])
  rw [hsoon, show b2n false = 0 from rfl, Nat.mul_zero, Nat.add_zero, hserial] at hact
  exact ⟨_, exec_once rfl h _ hact ((done_held _ _ _).trans hheld), hserial, htime, hclk⟩

end

/-! ### A set of counters -/

/-- Nothing has changed the set on this tick. -/
def Ctr.still (clk : Nat) (x : Ctr) : Bool := match x.tick with
  | some t => t.clk != clk
  | none => true

/-- The tick of a set that nothing has changed. -/
def Ctr.fresh (clk : Nat) (more : List (Nat × Bool)) (c : Ctr) : CtrTick :=
  { clk := clk, was := c.toCtrVals, base := c.toCtrVals, more := more, moreBase := more, adds := [], sels := [], wiped := false }

section
variable {clk : Nat} {c : Ctr} (more : List (Nat × Bool))

theorem Ctr.begin_still (h : c.still clk = true) : (c.begin clk more).2 = c.fresh clk more := by
  unfold Ctr.still at h
  unfold Ctr.begin
  split
  · next t ht =>
    simp only [ht, bne_iff_ne] at h
    exact if_neg h
  · rfl

theorem Ctr.begin_again {t : CtrTick} (h : c.tick = some t) (hc : t.clk = clk) : (c.begin clk more).2 = t := by
  unfold Ctr.begin
  rw [h]
  exact if_pos hc

/-- A set after a clear: the values and the tick. -/
theorem Ctr.clear_still (z : Ctr) (q : ClearSpec) (hist : Bool) (h : c.still clk = true) :
    (Ctr.clear clk more z q hist c).toCtrVals = CtrVals.clear z.toCtrVals q (hist && q.hist) c.toCtrVals ∧
    ∃ t, (Ctr.clear clk more z q hist c).tick = some t ∧ t.clk = clk ∧ t.adds = [] ∧ t.sels = [] ∧
      t.base = CtrVals.clear z.toCtrVals q (hist && q.hist) c.toCtrVals := by
  unfold Ctr.clear
  rw [Ctr.begin_still more h]
  exact ⟨rfl, _, rfl, rfl, rfl, rfl, rfl⟩

theorem CtrVals.clear_values (z : CtrVals) (q : ClearSpec) (hist : Bool) (x : CtrVals) : (CtrVals.clear z q hist x).fix = (if q.fix then 0 else x.fix) ∧
    ∀ k : Fin 8, (CtrVals.clear z q hist x).cnt[k] = (if q.mask / 2 ^ k.val % 2 = 1 then 0 else x.cnt[k]) ∧
      (CtrVals.clear z q hist x).sel[k] = if (q.sels && q.mask / 2 ^ k.val % 2 == 1) = true then z.sel[k] else x.sel[k] :=
  ⟨rfl, fun k => ⟨Vector.getElem_ofFn k.isLt, Vector.getElem_ofFn k.isLt⟩⟩

/-- A set after a selection. -/
theorem Ctr.select_still (mask sel : Nat) (keep : Bool) (h : c.still clk = true) :
    (Ctr.select clk more mask sel keep c).toCtrVals = CtrVals.pick mask sel (if keep then c.toCtrVals else
      CtrVals.clear c.toCtrVals { fix := false, mask := mask, hist := false, sels := false, rems := false } false c.toCtrVals) := by
  unfold Ctr.select
  cases keep with
  | true =>
    dsimp only
    rw [if_pos rfl, Ctr.begin_still more h]
    rfl
  | false =>
    obtain ⟨hvals, t, htick, hclk, hadds, hsels, hbase⟩ :=
      Ctr.clear_still (c := c) more c { fix := false, mask := mask, hist := false, sels := false, rems := false } false h
    dsimp only
    rw [if_neg (by decide), Ctr.begin_again more htick hclk]
    unfold CtrTick.vals
    dsimp only
    rw [hadds, hsels, hbase]
    rfl

theorem CtrVals.pick_values (mask sel : Nat) (x : CtrVals) : (CtrVals.pick mask sel x).fix = x.fix ∧
    ∀ k : Fin 8, (CtrVals.pick mask sel x).cnt[k] = x.cnt[k] ∧
      (CtrVals.pick mask sel x).sel[k] = if mask / 2 ^ k.val % 2 = 1 then sel else x.sel[k] :=
  ⟨rfl, fun k => ⟨rfl, Vector.getElem_ofFn k.isLt⟩⟩

end

end Sys2Proof.Machine
end

section
/-! SUPPORT. COUNTER_CLEAR, COUNTER_SELECT and CAPTURE on their targets, and what all commands of the family do. -/

namespace Sys2Proof.Machine

open Sys2Proof

/-! ### COUNTER_CLEAR -/

/-- What COUNTER_CLEAR asks for. -/
def clearAsked (c : Cmd) : ClearSpec := { fix := c.p 0 % 2 == 1, mask := c.p 1, hist := c.p 0 / 2 == 1, sels := true, rems := false }

/-- The counters of the mask are cleared, with their selections; what nothing has changed on this tick stands at zero. -/
def Ctr.Wiped (clk : Nat) (c : Cmd) (z x y : Ctr) : Prop := x.still clk = true → y.fix = (if c.p 0 % 2 = 1 then 0 else x.fix) ∧
  ∀ k : Fin 8, y.cnt[k] = (if (c.p 1 / 2 ^ k.val % 2 == 1) = true then 0 else x.cnt[k]) ∧
    y.sel[k] = (if (c.p 1 / 2 ^ k.val % 2 == 1) = true then z.sel[k] else x.sel[k])

theorem Ctr.clear_wiped (clk : Nat) (more : List (Nat × Bool)) (z : Ctr) (c : Cmd) (hist : Bool) (x : Ctr) :
    Ctr.Wiped clk c z x (Ctr.clear clk more z (clearAsked c) hist x) := by
  intro h
  obtain ⟨hvals, -⟩ := Ctr.clear_still (c := x) more z (clearAsked c) hist h
  obtain ⟨hfix, hone⟩ := CtrVals.clear_values z.toCtrVals (clearAsked c) (hist && (clearAsked c).hist) x.toCtrVals
  rw [hvals]
  exact ⟨hfix.trans (if_congr beq_iff_eq rfl rfl), fun k => ⟨(hone k).1.trans (if_congr beq_iff_eq.symm rfl rfl), (hone k).2⟩⟩

section
variable {s u : State} {c : Cmd} {d : Desc}

theorem counters_only {ps : List Part} {a t : State} (h : Only ps a t) (hp : Part.counters ∈ ps) (l : Vector Ctr 8) (g : Vector Ctr 16)
    (p : Vector Ctr 8) (m : Ctr) : Only ps a { t with lineCtr := l, hostCtr := g, portCtr := p, pmc := m } := by
  simp only [only_mk, h, hp, true_or, or_true, and_self]

/-- A bin that has not counted on the tick is cleared to nothing. -/
theorem histWipe_still (clk : Nat) (x : Ctr) (hist : List (Nat × Bool)) (unc : Nat × Bool) (h : x.still clk = true) :
    ∀ e ∈ histWipe (x.begin clk (hist ++ [unc])).2 hist, e = (0, false) := by
  rw [Ctr.begin_still _ h]
  intro e he
  unfold histWipe Ctr.fresh at he
  obtain ⟨i, hi, rfl⟩ := List.mem_mapIdx.1 he
  dsimp only
  rw [List.getD_append _ _ _ _ hi, List.getD_eq_getElem _ _ hi, Nat.add_comm, Nat.add_sub_cancel, Nat.mod_self]

theorem clearPort_ports (q : ClearSpec) (n : Fin 8) (s : State) : OtherPorts n s (clearPort q n s) ∧
    (clearPort q n s).ports[n] = { s.ports[n] with hist := (clearPort q n s).ports[n].hist } ∧
    (q.hist = false → (clearPort q n s).ports[n].hist = s.ports[n].hist) ∧
    (q.hist = true → (clearPort q n s).ports[n].hist = histWipe (s.portCtr[n].begin s.clk (portMore s n)).2 s.ports[n].hist) := by
  cases hq : q.hist with
  | true =>
    have hports : (clearPort q n s).ports = upd s.ports n fun x => { x with hist := histWipe (s.portCtr[n].begin s.clk (portMore s n)).2 x.hist } := by
      unfold clearPort
      exact if_pos hq
    have hself : (clearPort q n s).ports[n] = { s.ports[n] with hist := histWipe (s.portCtr[n].begin s.clk (portMore s n)).2 s.ports[n].hist } :=
      (congrArg (fun v : Vector Port 8 => v[n]) hports).trans (upd_get_self _ _ _)
    refine ⟨fun m hm => (congrArg (fun v : Vector Port 8 => v[m]) hports).trans (upd_get_ne _ _ hm), ?_, fun h => absurd h (by decide), fun _ => ?_⟩
    · rw [hself]
    · rw [hself]
  | false =>
    have hports : (clearPort q n s).ports = s.ports := by
      unfold clearPort
      exact if_neg (by rw [hq]; decide)
    have hself : ∀ m : Fin 8, (clearPort q n s).ports[m] = s.ports[m] := fun m => congrArg (fun v : Vector Port 8 => v[m]) hports
    refine ⟨fun m _ => hself m, ?_, fun _ => by rw [hself n], fun h => absurd h (by decide)⟩
    rw [hself n]

theorem counterClear_exec (h : AtOnce 0x51 d noImage s c u) {v : State}
    (hv : ctrOn (c.tgt.getD .device) (clearLine (clearAsked c)) (clearHost (clearAsked c)) (clearPort (clearAsked c)) (clearDev (clearAsked c))
      false u = v) (hr : v.rings = u.rings) : exec (.counterClear d) s = .next (done c 0 v) := by
  refine exec_done rfl h ?_ hr
  simp only [opAct, h.op_eq]
  exact congrArg (done c 0) hv

theorem counterClear_line (h : AtOnce 0x51 d noImage s c u) {n : Fin 8} (ht : c.tgt = some (.line (some n))) :
    ∃ v, exec (.counterClear d) s = .next (done c 0 v) ∧ OnlyChanges [.counters] u v ∧
      Ctr.Wiped u.clk c Ctr.line u.lineCtr[n] v.lineCtr[n] ∧ (∀ m : Fin 8, m ≠ n → v.lineCtr[m] = u.lineCtr[m]) ∧
      v.hostCtr = u.hostCtr ∧ v.portCtr = u.portCtr ∧ v.pmc = u.pmc := by
  have hv : ctrOn (c.tgt.getD .device) (clearLine (clearAsked c)) (clearHost (clearAsked c)) (clearPort (clearAsked c))
      (clearDev (clearAsked c)) false u = clearLine (clearAsked c) n u := by
    rw [ht]
    rfl
  refine ⟨_, counterClear_exec h hv rfl, (counters_only (.refl [.counters] u) (by decide) _ _ _ _).only, ?_, fun m hm => upd_get_ne _ _ hm,
    rfl, rfl, rfl⟩
  have hself : (clearLine (clearAsked c) n u).lineCtr[n] = _ := upd_get_self _ _ _
  rw [hself]
  exact Ctr.clear_wiped _ _ _ _ _ _

theorem counterClear_host (h : AtOnce 0x51 d noImage s c u) {n : Fin 16} (ht : c.tgt = some (.host (some n))) :
    ∃ v, exec (.counterClear d) s = .next (done c 0 v) ∧ OnlyChanges [.counters] u v ∧
      Ctr.Wiped u.clk c Ctr.host u.hostCtr[n] v.hostCtr[n] ∧ (∀ m : Fin 16, m ≠ n → v.hostCtr[m] = u.hostCtr[m]) ∧
      v.lineCtr = u.lineCtr ∧ v.portCtr = u.portCtr ∧ v.pmc = u.pmc := by
  have hv : ctrOn (c.tgt.getD .device) (clearLine (clearAsked c)) (clearHost (clearAsked c)) (clearPort (clearAsked c))
      (clearDev (clearAsked c)) false u = clearHost (clearAsked c) n u := by
    rw [ht]
    rfl
  refine ⟨_, counterClear_exec h hv rfl, (counters_only (.refl [.counters] u) (by decide) _ _ _ _).only, ?_, fun m hm => upd_get_ne _ _ hm,
    rfl, rfl, rfl⟩
  have hself : (clearHost (clearAsked c) n u).hostCtr[n] = _ := upd_get_self _ _ _
  rw [hself]
  exact Ctr.clear_wiped _ _ _ _ _ _

theorem counterClear_port (h : AtOnce 0x51 d noImage s c u) {n : Fin 8} (ht : c.tgt = some (.port (some n))) :
    ∃ v, exec (.counterClear d) s = .next (done c 0 v) ∧
      OnlyChanges [.counters, .ports] u v ∧ Ctr.Wiped u.clk c Ctr.port u.portCtr[n] v.portCtr[n] ∧ OtherPorts n u v ∧
      (∀ m : Fin 8, m ≠ n → v.portCtr[m] = u.portCtr[m]) ∧ v.lineCtr = u.lineCtr ∧ v.hostCtr = u.hostCtr ∧ v.pmc = u.pmc ∧
      v.ports[n] = { u.ports[n] with hist := v.ports[n].hist } ∧ (c.p 0 / 2 ≠ 1 → v.ports[n].hist = u.ports[n].hist) ∧
      (c.p 0 / 2 = 1 → u.portCtr[n].still u.clk = true → ∀ e ∈ v.ports[n].hist, e = (0, false)) := by
  have hv : ctrOn (c.tgt.getD .device) (clearLine (clearAsked c)) (clearHost (clearAsked c)) (clearPort (clearAsked c))
      (clearDev (clearAsked c)) false u = clearPort (clearAsked c) n u := by
    rw [ht]
    rfl
  obtain ⟨hothers, hself, hkeep, hwipe⟩ := clearPort_ports (clearAsked c) n u
  refine ⟨_, counterClear_exec h hv rfl,
    (clearPort_only (.refl [.counters, .ports] u) (by decide) (by decide)).only, ?_, hothers, fun m hm => upd_get_ne _ _ hm,
    rfl, rfl, rfl, hself, fun h0 => hkeep (by simpa [clearAsked] using h0), fun h1 hstill e he => ?_⟩
  · have hctr : (clearPort (clearAsked c) n u).portCtr[n] = _ := upd_get_self _ _ _
    rw [hctr]
    exact Ctr.clear_wiped _ _ _ _ _ _
  · rw [hwipe (by simpa [clearAsked] using h1)] at he
    exact histWipe_still u.clk _ _ _ hstill e he

/-- The device and every counter set are cleared one after another. -/
def allCleared (c : Cmd) (s : State) : State :=
  forFin 8 (clearPort (clearAsked c)) (forFin 16 (clearHost (clearAsked c)) (forFin 8 (clearLine (clearAsked c)) (clearDev (clearAsked c) s)))

theorem linesCleared_wiped (c : Cmd) (n : Fin 8) (s : State) :
    Ctr.Wiped s.clk c Ctr.line s.lineCtr[n] (forFin 8 (clearLine (clearAsked c)) s).lineCtr[n] := by
  refine forFin_at (clearLine (clearAsked c)) (fun t => t.lineCtr[n]) n (fun t => t.clk = s.clk) (fun _ _ h => h)
    (fun j t _ hj => upd_get_ne _ _ hj.symm) (Ctr.Wiped s.clk c Ctr.line) (fun t ht => ?_) s rfl
  rw [← ht, show (clearLine (clearAsked c) n t).lineCtr[n] = _ from upd_get_self _ _ _]
  exact Ctr.clear_wiped _ _ _ _ _ _

theorem hostsCleared_wiped (c : Cmd) (n : Fin 16) (s : State) :
    Ctr.Wiped s.clk c Ctr.host s.hostCtr[n] (forFin 16 (clearHost (clearAsked c)) s).hostCtr[n] := by
  refine forFin_at (clearHost (clearAsked c)) (fun t => t.hostCtr[n]) n (fun t => t.clk = s.clk) (fun _ _ h => h)
    (fun j t _ hj => upd_get_ne _ _ hj.symm) (Ctr.Wiped s.clk c Ctr.host) (fun t ht => ?_) s rfl
  rw [← ht, show (clearHost (clearAsked c) n t).hostCtr[n] = _ from upd_get_self _ _ _]
  exact Ctr.clear_wiped _ _ _ _ _ _

theorem portsCleared_wiped (c : Cmd) (n : Fin 8) (s : State) :
    Ctr.Wiped s.clk c Ctr.port s.portCtr[n] (forFin 8 (clearPort (clearAsked c)) s).portCtr[n] := by
  refine forFin_at (clearPort (clearAsked c)) (fun t => t.portCtr[n]) n (fun t => t.clk = s.clk) (fun _ _ h => h)
    (fun j t _ hj => upd_get_ne _ _ hj.symm) (Ctr.Wiped s.clk c Ctr.port) (fun t ht => ?_) s rfl
  rw [← ht, show (clearPort (clearAsked c) n t).portCtr[n] = _ from upd_get_self _ _ _]
  exact Ctr.clear_wiped _ _ _ _ _ _

theorem clearDev_wiped (c : Cmd) (s : State) : Ctr.Wiped s.clk c Ctr.pmc s.pmc (clearDev (clearAsked c) s).pmc :=
  Ctr.clear_wiped _ _ _ _ _ _

/-- A clear of other sets leaves a set, and the clock. -/
theorem linesCleared_rest (q : ClearSpec) (s : State) : (forFin 8 (clearLine q) s).hostCtr = s.hostCtr ∧
    (forFin 8 (clearLine q) s).portCtr = s.portCtr ∧ (forFin 8 (clearLine q) s).pmc = s.pmc ∧ (forFin 8 (clearLine q) s).clk = s.clk :=
  ⟨forFin_same (clearLine q) State.hostCtr (fun _ _ => rfl) s, forFin_same (clearLine q) State.portCtr (fun _ _ => rfl) s, forFin_same (clearLine q) State.pmc (fun _ _ => rfl) s,
    forFin_same (clearLine q) State.clk (fun _ _ => rfl) s⟩

theorem hostsCleared_rest (q : ClearSpec) (s : State) : (forFin 16 (clearHost q) s).lineCtr = s.lineCtr ∧
    (forFin 16 (clearHost q) s).portCtr = s.portCtr ∧ (forFin 16 (clearHost q) s).pmc = s.pmc ∧ (forFin 16 (clearHost q) s).clk = s.clk :=
  ⟨forFin_same (clearHost q) State.lineCtr (fun _ _ => rfl) s, forFin_same (clearHost q) State.portCtr (fun _ _ => rfl) s, forFin_same (clearHost q) State.pmc (fun _ _ => rfl) s,
    forFin_same (clearHost q) State.clk (fun _ _ => rfl) s⟩

theorem portsCleared_rest (q : ClearSpec) (s : State) : (forFin 8 (clearPort q) s).lineCtr = s.lineCtr ∧
    (forFin 8 (clearPort q) s).hostCtr = s.hostCtr ∧ (forFin 8 (clearPort q) s).pmc = s.pmc :=
  ⟨forFin_same (clearPort q) State.lineCtr (fun _ _ => rfl) s, forFin_same (clearPort q) State.hostCtr (fun _ _ => rfl) s, forFin_same (clearPort q) State.pmc (fun _ _ => rfl) s⟩

theorem allCleared_wiped (c : Cmd) (s : State) : Ctr.Wiped s.clk c Ctr.pmc s.pmc (allCleared c s).pmc ∧
    (∀ n : Fin 16, Ctr.Wiped s.clk c Ctr.host s.hostCtr[n] (allCleared c s).hostCtr[n]) ∧
    ∀ n : Fin 8, Ctr.Wiped s.clk c Ctr.line s.lineCtr[n] (allCleared c s).lineCtr[n] ∧
      Ctr.Wiped s.clk c Ctr.port s.portCtr[n] (allCleared c s).portCtr[n] := by
  have hpmc := clearDev_wiped c s
  have hline := fun n => linesCleared_wiped c n (clearDev (clearAsked c) s)
  have hhost := fun n => hostsCleared_wiped c n (forFin 8 (clearLine (clearAsked c)) (clearDev (clearAsked c) s))
  have hport := fun n => portsCleared_wiped c n (forFin 16 (clearHost (clearAsked c)) (forFin 8 (clearLine (clearAsked c)) (clearDev (clearAsked c) s)))
  obtain ⟨hlh, hlp, hlm, hlc⟩ := linesCleared_rest (clearAsked c) (clearDev (clearAsked c) s)
  obtain ⟨hhl, hhp, hhm, hhc⟩ := hostsCleared_rest (clearAsked c) (forFin 8 (clearLine (clearAsked c)) (clearDev (clearAsked c) s))
  obtain ⟨hpl, hph, hpm⟩ := portsCleared_rest (clearAsked c)
    (forFin 16 (clearHost (clearAsked c)) (forFin 8 (clearLine (clearAsked c)) (clearDev (clearAsked c) s)))
  unfold allCleared
  simp only [hlh, hlp, hlm, hlc, hhl, hhp, hhm, hhc, hpl, hph, hpm] at *
  exact ⟨hpmc, hhost, fun n => ⟨hline n, hport n⟩⟩

theorem counterClear_device (h : AtOnce 0x51 d noImage s c u) (ht : c.tgt = some .device) :
    ∃ v, exec (.counterClear d) s = .next (done c 0 v) ∧ OnlyChanges [.counters, .ports] u v ∧
      Ctr.Wiped u.clk c Ctr.pmc u.pmc v.pmc ∧ (∀ n : Fin 16, Ctr.Wiped u.clk c Ctr.host u.hostCtr[n] v.hostCtr[n]) ∧
      ∀ n : Fin 8, Ctr.Wiped u.clk c Ctr.line u.lineCtr[n] v.lineCtr[n] ∧ Ctr.Wiped u.clk c Ctr.port u.portCtr[n] v.portCtr[n] := by
  have hv : ctrOn (c.tgt.getD .device) (clearLine (clearAsked c)) (clearHost (clearAsked c)) (clearPort (clearAsked c))
      (clearDev (clearAsked c)) false u = allCleared c u := by
    rw [ht]
    rfl
  have honly : Only [.counters, .ports] u (allCleared c u) := by
    have hdev : Only [.counters, .ports] u (clearDev (clearAsked c) u) := counters_only (.refl _ u) (by decide) _ _ _ _
    have hlines := forFin_only 8 (clearLine (clearAsked c)) (fun i _ hk => clearLine_only hk (by decide)) hdev
    have hhosts := forFin_only 16 (clearHost (clearAsked c)) (fun i _ hk => clearHost_only hk (by decide)) hlines
    exact forFin_only 8 (clearPort (clearAsked c)) (fun i _ hk => clearPort_only hk (by decide) (by decide)) hhosts
  exact ⟨_, counterClear_exec h hv (honly.only .rings (by decide)), honly.only, allCleared_wiped c u⟩

end

end Sys2Proof.Machine
end

section
/-! SUPPORT. COUNTER_SELECT and CAPTURE on their targets, and what all commands on slots, lanes, ports, counters and captures do. -/

namespace Sys2Proof.Machine

open Sys2Proof

/-! ### COUNTER_SELECT -/

/-- The selections of the mask are set, and unless the command keeps them the counts return to zero; what nothing has changed on this
tick stands so at once. -/
def Ctr.Picked (clk : Nat) (c : Cmd) (x y : Ctr) : Prop := x.still clk = true → y.fix = x.fix ∧
  ∀ k : Fin 8, y.cnt[k] = (if (c.p 0 / 2 ^ k.val % 2 == 1 && c.p 2 != 1) = true then 0 else x.cnt[k]) ∧
    y.sel[k] = (if (c.p 0 / 2 ^ k.val % 2 == 1) = true then c.p 1 else x.sel[k])

theorem Ctr.select_picked (clk : Nat) (more : List (Nat × Bool)) (c : Cmd) (x : Ctr) :
    Ctr.Picked clk c x (Ctr.select clk more (c.p 0) (c.p 1) (c.p 2 == 1) x) := by
  intro h
  rw [Ctr.select_still more (c.p 0) (c.p 1) (c.p 2 == 1) h]
  by_cases hkeep : c.p 2 = 1
  · obtain ⟨hfix, hone⟩ := CtrVals.pick_values (c.p 0) (c.p 1) x.toCtrVals
    rw [if_pos (beq_iff_eq.2 hkeep)]
    refine ⟨hfix, fun k => ⟨(hone k).1.trans (if_neg ?_).symm, (hone k).2.trans (if_congr beq_iff_eq.symm rfl rfl)⟩⟩
    simp [hkeep]
  · rw [if_neg (mt beq_iff_eq.1 hkeep)]
    obtain ⟨hfix, hone⟩ := CtrVals.pick_values (c.p 0) (c.p 1) (CtrVals.clear x.toCtrVals
      { fix := false, mask := c.p 0, hist := false, sels := false, rems := false } false x.toCtrVals)
    obtain ⟨hfix', hone'⟩ := CtrVals.clear_values x.toCtrVals
      { fix := false, mask := c.p 0, hist := false, sels := false, rems := false } false x.toCtrVals
    refine ⟨hfix.trans hfix', fun k => ⟨((hone k).1.trans (hone' k).1).trans (if_congr ?_ rfl rfl), ?_⟩⟩
    · simp [hkeep]
    · rw [(hone k).2, (hone' k).2]
      exact if_congr beq_iff_eq.symm rfl rfl

section
variable {s u : State} {c : Cmd} {d : Desc}

theorem counterSelect_exec (h : AtOnce 0x52 d noImage s c u) {v : State} (hv : actCounterSelect c u = done c 0 v) (hr : v.rings = u.rings) :
    exec (.counterSelect d) s = .next (done c 0 v) := by
  refine exec_done rfl h ?_ hr
  simp only [opAct, h.op_eq]
  exact hv

theorem counterSelect_line (h : AtOnce 0x52 d noImage s c u) {n : Fin 8} (ht : c.tgt = some (.line (some n))) :
    ∃ v, exec (.counterSelect d) s = .next (done c 0 v) ∧ Ctr.Picked u.clk c u.lineCtr[n] v.lineCtr[n] ∧
      (∀ m : Fin 8, m ≠ n → v.lineCtr[m] = u.lineCtr[m]) ∧ v.hostCtr = u.hostCtr ∧ v.portCtr = u.portCtr ∧ v.pmc = u.pmc ∧
      OnlyChanges [.counters] u v := by
  let v : State := { u with lineCtr := upd u.lineCtr n (Ctr.select u.clk (lineMore u n) (c.p 0) (c.p 1) (c.p 2 == 1)) }
  have hv : actCounterSelect c u = done c 0 v := by
    unfold actCounterSelect
    rw [ht]
    rfl
  refine ⟨v, counterSelect_exec h hv rfl, ?_, fun m hm => upd_get_ne _ _ hm, rfl, rfl, rfl,
    (counters_only (.refl [.counters] u) (by decide) _ _ _ _).only⟩
  rw [show v.lineCtr[n] = _ from upd_get_self _ _ _]
  exact Ctr.select_picked _ _ _ _

theorem counterSelect_host (h : AtOnce 0x52 d noImage s c u) {n : Fin 16} (ht : c.tgt = some (.host (some n))) :
    ∃ v, exec (.counterSelect d) s = .next (done c 0 v) ∧ Ctr.Picked u.clk c u.hostCtr[n] v.hostCtr[n] ∧
      (∀ m : Fin 16, m ≠ n → v.hostCtr[m] = u.hostCtr[m]) ∧ v.lineCtr = u.lineCtr ∧ v.portCtr = u.portCtr ∧ v.pmc = u.pmc ∧
      OnlyChanges [.counters] u v := by
  let v : State := { u with hostCtr := upd u.hostCtr n (Ctr.select u.clk [] (c.p 0) (c.p 1) (c.p 2 == 1)) }
  have hv : actCounterSelect c u = done c 0 v := by
    unfold actCounterSelect
    rw [ht]
    rfl
  refine ⟨v, counterSelect_exec h hv rfl, ?_, fun m hm => upd_get_ne _ _ hm, rfl, rfl, rfl,
    (counters_only (.refl [.counters] u) (by decide) _ _ _ _).only⟩
  rw [show v.hostCtr[n] = _ from upd_get_self _ _ _]
  exact Ctr.select_picked _ _ _ _

theorem counterSelect_port (h : AtOnce 0x52 d noImage s c u) {n : Fin 8} (ht : c.tgt = some (.port (some n))) :
    ∃ v, exec (.counterSelect d) s = .next (done c 0 v) ∧ Ctr.Picked u.clk c u.portCtr[n] v.portCtr[n] ∧
      (∀ m : Fin 8, m ≠ n → v.portCtr[m] = u.portCtr[m]) ∧ v.lineCtr = u.lineCtr ∧ v.hostCtr = u.hostCtr ∧ v.pmc = u.pmc ∧
      OnlyChanges [.counters] u v := by
  let v : State := { u with portCtr := upd u.portCtr n (Ctr.select u.clk (portMore u n) (c.p 0) (c.p 1) (c.p 2 == 1)) }
  have hv : actCounterSelect c u = done c 0 v := by
    unfold actCounterSelect
    rw [ht]
    rfl
  refine ⟨v, counterSelect_exec h hv rfl, ?_, fun m hm => upd_get_ne _ _ hm, rfl, rfl, rfl,
    (counters_only (.refl [.counters] u) (by decide) _ _ _ _).only⟩
  rw [show v.portCtr[n] = _ from upd_get_self _ _ _]
  exact Ctr.select_picked _ _ _ _

theorem counterSelect_device (h : AtOnce 0x52 d noImage s c u) (ht : c.tgt = some .device) :
    ∃ v, exec (.counterSelect d) s = .next (done c 0 v) ∧ Ctr.Picked u.clk c u.pmc v.pmc ∧ v.lineCtr = u.lineCtr ∧
      v.hostCtr = u.hostCtr ∧ v.portCtr = u.portCtr ∧ OnlyChanges [.counters] u v := by
  have hv : actCounterSelect c u = done c 0 { u with pmc := Ctr.select u.clk [] (c.p 0) (c.p 1) (c.p 2 == 1) u.pmc } := by
    unfold actCounterSelect
    rw [ht]
    rfl
  exact ⟨_, counterSelect_exec h hv rfl, Ctr.select_picked _ _ _ _, rfl, rfl, rfl,
    (counters_only (.refl [.counters] u) (by decide) _ _ _ _).only⟩

/-! ### CAPTURE -/

/-- What a capture or an eye scan keeps while it runs. -/
def capRun (c : Cmd) (u : State) : CapRun :=
  { cmd := some c, target := c.d.target, kind := byteAt c.d.param 0, len := leAt c.d.param 4 4, dwell := byteAt c.d.param 1
    phase := byteAt c.d.param 2, time := now u, subst := 0xFFFFFFFF, trunc := false }

/-- A capture, or an eye scan, that nothing keeps out begins. -/
def capBegun (c : Cmd) (t : Tgt) (u : State) : State :=
  if byteAt c.d.param 0 = 2 then { arbAdmit 2 t u with scans := u.scans ++ [capRun c u] } else { arbAdmit 2 t u with cap := some (capRun c u) }

theorem capStart_begun {x : Nat × ConvId} (hok : capOk (c.tgt.getD .device) c.d.param = true)
    (hlane : capLane (c.tgt.getD .device) = some x) (hrx : domOn u x.1 = true) (hmgmt : domOn u 10 = true)
    (hfree : arbHolder u 2 (c.tgt.getD .device) = none)
    (hroom : if byteAt c.d.param 0 = 2 then (spareSlice (getConv u x.2)).isSome = true else u.cap = none) :
    capStart (some c) c.d.target c.d.param u = (capBegun c (c.tgt.getD .device) u, false) := by
  obtain ⟨dom, conv⟩ := x
  have hadmit := arbPresent_admits (u := u) hfree
  unfold Cmd.tgt at *
  unfold capStart capBegun
  simp only [hlane, hok, hrx, hmgmt, hadmit, Bool.not_true, Bool.or_false, Bool.false_eq_true, if_false]
  by_cases hscan : byteAt c.d.param 0 = 2
  · rw [if_pos hscan] at hroom
    simp only [hscan, if_true, beq_self_eq_true, Bool.true_and, Bool.not_true, Bool.false_and, Bool.false_eq_true, if_false]
    rw [if_neg (by simpa [Option.isNone_iff_eq_none, Option.isSome_iff_ne_none] using hroom)]
    simp only [capRun, hscan]
    rfl
  · rw [if_neg hscan] at hroom
    simp only [hscan, beq_iff_eq, if_false, hroom, beq_eq_false_iff_ne.2 hscan, Bool.false_and, Option.isSome_none, Bool.and_false,
      Bool.false_eq_true]
    rfl

theorem capBegun_rings (c : Cmd) (t : Tgt) (u : State) : (capBegun c t u).rings = u.rings := by
  unfold capBegun
  exact (apply_ite State.rings _ _ _).trans (ite_self _)

theorem capBegun_admitted (c : Cmd) (t : Tgt) (u : State) :
    (capBegun c t u).arb.admitted.length = u.arb.admitted.length + 1 := by
  unfold capBegun
  rw [apply_ite State.arb, ite_self]
  exact List.length_append

theorem capture_exec (h : AtOnce 0x53 d noImage s c u) {x : Nat × ConvId} (hlane : capLane (c.tgt.getD .device) = some x)
    (hrx : domOn u x.1 = true) (hmgmt : domOn u 10 = true) (hfree : arbHolder u 2 (c.tgt.getD .device) = none) :
    (∀ k, slotClaim u 2 false (c.tgt.getD .device) = some k →
      (if byteAt c.d.param 0 = 2 then (spareSlice (getConv u x.2)).isSome = true else u.cap = none) →
      exec (.capture d) s = .next (refuse c 0x21 (arbRefuse 2 k u))) ∧
    (slotClaim u 2 false (c.tgt.getD .device) = none →
      (byteAt c.d.param 0 ≠ 2 → u.cap = none → ∃ v, exec (.capture d) s = .next v ∧ v.scans = u.scans ∧
        ∃ r ∈ v.cap.toList, r.cmd = some c ∧ r.target = c.d.target ∧ r.len = leAt c.d.param 4 4) ∧
      (byteAt c.d.param 0 = 2 → (spareSlice (getConv u x.2)).isSome = true → ∃ v, exec (.capture d) s = .next v ∧ v.cap = u.cap ∧
        v.scans.dropLast = u.scans ∧ ∃ r ∈ v.scans.getLast?.toList, r.cmd = some c ∧ r.target = c.d.target ∧
          r.dwell = byteAt c.d.param 1)) := by
  have hok : capOk (c.tgt.getD .device) c.d.param = true := by
    have hpar := h.par
    rwa [opPar, h.op_eq] at hpar
  have hact : opAct c u = hostOffer c 2 u (capStart (some c) c.d.target c.d.param u) := by
    simp only [opAct, h.op_eq]
  have hfreeExec (hk : slotClaim u 2 false (c.tgt.getD .device) = none)
      (hroom : if byteAt c.d.param 0 = 2 then (spareSlice (getConv u x.2)).isSome = true else u.cap = none) :
      exec (.capture d) s = .next (capBegun c (c.tgt.getD .device) u) := by
    rw [capStart_begun hok hlane hrx hmgmt hfree hroom] at hact
    exact exec_once rfl h _ (hact.trans (hostOffer_free hk rfl)) (by rw [capBegun_rings])
  refine ⟨fun k hk hroom => ?_, fun hk => ⟨fun hkind hcap => ?_, fun hkind hspare => ?_⟩⟩
  · rw [capStart_begun hok hlane hrx hmgmt hfree hroom] at hact
    refine claimed_exec rfl h hact ?_ hk
    rw [capBegun_admitted]
    exact Nat.succ_ne_self _
  · refine ⟨_, hfreeExec hk (by rwa [if_neg hkind]), ?_⟩
    unfold capBegun
    rw [if_neg hkind]
    exact ⟨rfl, _, List.mem_singleton.2 rfl, rfl, rfl, rfl⟩
  · refine ⟨_, hfreeExec hk (by rwa [if_pos hkind]), ?_⟩
    unfold capBegun
    rw [if_pos hkind]
    refine ⟨rfl, List.dropLast_concat, capRun c u, ?_, rfl, rfl, rfl⟩
    exact Option.mem_toList.2 (List.getLast?_concat ..)

end

/-! ### The commands -/

/-- Settles O51: what each command of the family does where it is carried out at once. -/
theorem schedulingAndLaneCommands : Obligations.SchedulingAndLaneCommands := by
  unfold Obligations.SchedulingAndLaneCommands
  intro d s c u
  refine ⟨?install, ?free, ?schedule, ?cancel, ?enumerate, ?acquire, ?train, ?measure, ?msg, ?xfer, ?freeze, ?clear, ?select, ?capture⟩
  case install => exact fun h y i hy hi => schedInstall_exec h hy hi
  case free => exact fun h hlen => schedFree_exec h hlen
  case schedule => exact fun h hlate => domSchedule_exec h hlate
  case cancel => exact fun h => domCancel_exec h
  case enumerate => exact fun h t ht hdown => enumerate_exec h ht hdown
  case acquire => exact fun h => laneAcquire_exec h
  case train => exact fun h n ht hm hreq hin hon hfree => trainStart_exec h ht hm hreq hin hon hfree
  case measure => exact fun h p ht hm => latMeasure_exec h ht hm
  case msg => exact fun h n ht => hostMsg_exec h ht
  case xfer => exact fun h => ocpXfer_exec h
  case freeze => exact fun h hsoon => freeze_exec h hsoon
  case clear =>
    exact fun h => ⟨fun n ht => counterClear_line h ht, fun n ht => counterClear_host h ht, fun n ht => counterClear_port h ht,
      fun ht => counterClear_device h ht⟩
  case select =>
    exact fun h => ⟨fun n ht => counterSelect_line h ht, fun n ht => counterSelect_host h ht, fun n ht => counterSelect_port h ht,
      fun ht => counterSelect_device h ht⟩
  case capture =>
    intro h t x hlane hrx hmgmt hfree
    exact capture_exec h hlane hrx hmgmt hfree

end Sys2Proof.Machine
end

section
/-! SUPPORT. BANK_SWAP of one lane: what the lane's new bank restarts leaves every bank and the admissions. -/

namespace Sys2Proof.Machine

open Sys2Proof

/-! ### A line lane -/

/-- The two banks of a line lane. -/
def Line.banks (l : Line) : LineBank × LineBank := (l.act, l.shd)

/-- No application of the lane's responder is admitted. -/
def Untrained (n : Fin 8) (s : State) : Prop := ({ cls := 8, target := Tgt.code (.line (some n)) } : Activity) ∉ s.arb.admitted

/-- From s to t the banks of a line lane, every other line lane and what the arbiter has admitted stay, the last where the arbiter
holds nothing for the lane's responder. -/
structure BanksStay (n : Fin 8) (s t : State) : Prop where
  banks : t.lines[n].banks = s.lines[n].banks
  others : OtherLines n s t
  admitted : Untrained n s → t.arb.admitted = s.arb.admitted

section
variable {n : Fin 8} {s t u : State} {l : Line}

theorem BanksStay.refl (s : State) : BanksStay n s s := ⟨rfl, fun _ _ => rfl, fun _ => rfl⟩

theorem BanksStay.trans (h : BanksStay n s t) (k : BanksStay n t u) : BanksStay n s u :=
  ⟨k.banks.trans h.banks, fun m hm => (k.others m hm).trans (h.others m hm), fun hn =>
    (k.admitted (by unfold Untrained; rw [h.admitted hn]; exact hn)).trans (h.admitted hn)⟩

theorem BanksStay.either {c : Prop} [Decidable c] (h : BanksStay n s t) (k : BanksStay n s u) : BanksStay n s (if c then t else u) := by
  split
  · exact h
  · exact k

theorem BanksStay.of_step (h : LineStep n s t l) (hb : l.banks = s.lines[n].banks) (ha : t.arb = s.arb) : BanksStay n s t :=
  ⟨(congrArg Line.banks h.line).trans hb, h.others, fun _ => congrArg Arb.admitted ha⟩

theorem BanksStay.modLine {f : Line → Line} (h : ∀ l, (f l).banks = l.banks) (s : State) : BanksStay n s (modLine n f s) :=
  .of_step ((LineStep.refl n s).modLine f) (h _) rfl

theorem BanksStay.raise (src : Nat) (p : Word) (s : State) : BanksStay n s (raise src p s) :=
  .of_step ((LineStep.refl n s).raise src p) rfl (raise_arb s)

end

variable {n : Fin 8}

theorem Line.stepDue_banks (l : Line) (v : Option Int) : (l.stepDue v).banks = l.banks := rfl

theorem drvWrite_banks (n : Fin 8) (code tries : Nat) (s : State) : BanksStay n s (drvWrite n code tries s) := by
  obtain ⟨v, hv⟩ := drvWrite_step n code tries s
  exact .of_step hv rfl ((drvWrite_only (.refl [.out, .lines, .ocp] s) (by decide) (by decide) (by decide)).only .arb (by decide))

theorem enterGain_banks (n : Fin 8) (again : Bool) (s : State) : BanksStay n s (enterGain n again s) :=
  .of_step (enterGain_step n again s) rfl ((enterGain_only (.refl [.lines] s) (by decide)).only .arb (by decide))

theorem outageFromOff_banks (n : Fin 8) (s : State) : BanksStay n s (outageFromOff n s) := by
  obtain ⟨q, hq⟩ := outageFromOff_step n s
  exact .of_step hq rfl ((outageFromOff_only (.refl [.evt, .own, .lines, .counters] s) (by decide) (by decide) (by decide)
    (by decide)).only .arb (by decide))

theorem outageStart_banks (n : Fin 8) (s : State) : BanksStay n s (outageStart n s) := by
  obtain ⟨q, hq⟩ := outageStart_step n s
  exact .of_step hq rfl ((outageStart_only (.refl [.evt, .own, .lines, .counters] s) (by decide) (by decide) (by decide)
    (by decide)).only .arb (by decide))

theorem Line.relocked_banks (clk : Nat) (l : Line) : (l.relocked clk).banks = l.banks := by
  obtain ⟨hact, hshd, -⟩ := (l.relockFront clk).restored_keeps
  exact Prod.ext hact hshd

theorem leaveDark_banks (n : Fin 8) (s : State) : BanksStay n s (leaveDark n s) := by
  obtain ⟨x, v, hx⟩ := leaveDark_step n s
  refine .of_step hx ?_ ((leaveDark_only (.refl [.out, .evt, .own, .lines, .counters, .ocp] s) (by decide) (by decide) (by decide)
    (by decide) (by decide) (by decide)).only .arb (by decide))
  split
  · rw [Line.stepDue_banks, Line.relocked_banks]
    rfl
  · rfl

theorem trnAbandon_banks (n : Fin 8) (cause : Nat) (s : State) : BanksStay n s (trnAbandon n cause s) :=
  have h := trnAbandon_step n cause s
  ⟨(congrArg Line.banks h.line).trans rfl, h.others, fun hn => trnAbandon_admitted hn⟩

theorem enterDark_banks (n : Fin 8) (s : State) : BanksStay n s (enterDark n false s) := by
  have hfront : BanksStay n s (darkFront n false s) :=
    .either ((BanksStay.raise _ _ s).trans (outageStart_banks n _)) (.raise _ _ s)
  exact (hfront.trans (trnAbandon_banks n 0 _)).trans (.modLine (fun _ => by rfl) _)

theorem lightCheck_banks (n : Fin 8) (s : State) : BanksStay n s (lightCheck n s) := by
  by_cases h : lightSeen s n = true
  · rw [lightCheck_seen h]
    split
    · exact .either ((outageFromOff_banks n s).trans (enterGain_banks n false _)) (.refl s)
    · exact .either (leaveDark_banks n s) (.refl s)
    · exact .refl s
  · rw [lightCheck_unseen (by simpa using h)]
    exact .refl s

theorem losCheck_banks (n : Fin 8) (s : State) : BanksStay n s (losCheck n s) :=
  .either (lightCheck_banks n s) (.either (enterDark_banks n s) (.refl s))

theorem txStart_banks (n : Fin 8) (s : State) : BanksStay n s (txStart n s) :=
  (BanksStay.modLine (fun _ => by rfl) s).trans (.either (drvWrite_banks n _ _ _) (.refl _))

theorem txUpdate_banks (n : Fin 8) (s : State) : BanksStay n s (txUpdate n s) := by
  have hplain : BanksStay n s (txPlainSet n s) := .either (.modLine (fun _ => by rfl) s) (.refl s)
  unfold txUpdate
  dsimp only
  refine hplain.trans (.either (.refl _) ?_)
  refine .either (.trans (.either (.modLine (fun _ => by rfl) _) (.refl _)) (txStart_banks n _)) ?_
  exact .trans (.either (.modLine (fun _ => by rfl) _) (.refl _)) (.modLine (fun _ => by rfl) _)

theorem eqNote_banks (n : Fin 8) (s : State) : BanksStay n s (eqNote n s) := .modLine (fun _ => by rfl) s

theorem loopsRestart_banks (n : Fin 8) (loops : List Nat) (s : State) : BanksStay n s (loopsRestart n loops s) := by
  refine .either (.refl s) (.modLine (fun l => ?_) s)
  split
  · exact (apply_ite Line.banks _ _ _).trans (ite_self _)
  · rfl

theorem lineSwapped_banks (n : Fin 8) (a : LineBank) (s : State) : BanksStay n s (lineSwapped n a s) := by
  unfold lineSwapped
  dsimp only
  refine .trans (.trans ?driver (txUpdate_banks n _)) (losCheck_banks n _)
  refine .trans ?stop (.either (drvWrite_banks n _ _ _) (.refl _))
  refine .trans ?live (.either (.refl _) (.modLine (fun _ => by rfl) _))
  refine .trans ?rx (.either (.modLine (fun _ => by rfl) _) (.refl _))
  exact (((eqNote_banks n s).trans (loopsRestart_banks n _ _)).trans (.modLine (fun _ => by rfl) _)).trans (.modLine (fun _ => by rfl) _)

/-! ### A host lane -/

/-- The two banks of a host lane. -/
def HostLane.banks (h : HostLane) : HostBank × HostBank := (h.act, h.shd)

/-- From s to t the banks of a host lane and every other host lane stay. -/
def HostBanksStay (n : Fin 16) (s t : State) : Prop := t.hosts[n].banks = s.hosts[n].banks ∧ OtherHosts n s t

section
variable {n : Fin 16} {s t u : State}

theorem HostBanksStay.refl (s : State) : HostBanksStay n s s := ⟨rfl, fun _ _ => rfl⟩

theorem HostBanksStay.trans (h : HostBanksStay n s t) (k : HostBanksStay n t u) : HostBanksStay n s u :=
  ⟨k.1.trans h.1, otherHosts_trans h.2 k.2⟩

theorem HostBanksStay.either {c : Prop} [Decidable c] (h : HostBanksStay n s t) (k : HostBanksStay n s u) :
    HostBanksStay n s (if c then t else u) := by
  split
  · exact h
  · exact k

theorem HostBanksStay.modHost {f : HostLane → HostLane} (h : ∀ l, (f l).banks = l.banks) (s : State) : HostBanksStay n s (modHost n f s) :=
  ⟨(congrArg HostLane.banks (modHost_host n f s)).trans (h _), modHost_otherHosts n f s⟩

theorem hostTiming_banks (n : Fin 16) (again : Bool) (s : State) : HostBanksStay n s (hostTiming n again s) := .modHost (fun _ => by rfl) s

theorem hostHold_banks (n : Fin 16) (s : State) : HostBanksStay n s (hostHold n s) := .modHost (fun _ => by rfl) s

theorem hostSwapped_banks (n : Fin 16) (a : HostBank) (s : State) : HostBanksStay n s (hostSwapped n a s) := by
  unfold hostSwapped
  extract_lets +onlyGivenNames b restart peak dcg checked generated near far eq moved
  clear_value restart peak dcg b
  have hchecked : HostBanksStay n s checked := .either (.modHost (fun _ => by rfl) s) (.refl s)
  clear_value checked
  have hgenerated : HostBanksStay n s generated := hchecked.trans (.either (.modHost (fun _ => by rfl) _) (.refl _))
  clear_value generated
  have hnear : HostBanksStay n s near := hgenerated.trans (.either (.modHost (fun _ => by rfl) _) (.refl _))
  clear_value near
  have hfar : HostBanksStay n s far := hnear.trans (.either (.modHost (fun _ => by rfl) _) (.refl _))
  clear_value far
  have heq : HostBanksStay n s eq := by
    refine hfar.trans (.modHost (fun l => ?_) far)
    exact (apply_ite HostLane.banks _ _ _).trans (ite_self _)
  clear_value eq
  have hmoved : HostBanksStay n s moved := by
    refine heq.trans ?_
    simp only [moved]
    split
    · exact .either (hostTiming_banks n false _) (.either (.modHost (fun _ => by rfl) _) (.refl _))
    · exact .either (hostTiming_banks n false _) (.either (.modHost (fun _ => by rfl) _) (.refl _))
    · exact .either (hostTiming_banks n false _) (.either (.modHost (fun _ => by rfl) _) (.refl _))
    · exact .either ((hostHold_banks n _).trans (hostTiming_banks n false _)) (.either (.modHost (fun _ => by rfl) _) (.refl _))
    · exact .refl _
  exact hmoved.trans (.either (.modHost (fun _ => by rfl) _) (.refl _))

end

end Sys2Proof.Machine
end

section
/-! SUPPORT. BANK_SWAP of one lane: its targets, its refusals, and the banks after it. -/

namespace Sys2Proof.Machine

open Sys2Proof

section
variable {s u : State} {c : Cmd} {d : Desc} {t : Tgt} {b : Block}

/-! ### The target and the block of a lane -/

/-- A target that is one lane, and the block that is its bank. -/
def LaneBlock (t : Tgt) (b : Block) : Prop := (∃ n, t = .line (some n) ∧ b = .line n) ∨ ∃ n, t = .host (some n) ∧ b = .host n

theorem LaneBlock.facts (h : LaneBlock t b) : blocksOf t = [b] ∧ b.tgt = t ∧ (∀ s, tgtIdle s t = false) ∧ swapPorts [b] = [] := by
  obtain ⟨n, rfl, rfl⟩ | ⟨n, rfl, rfl⟩ := h
  · exact ⟨rfl, rfl, fun _ => rfl, rfl⟩
  · exact ⟨rfl, rfl, fun _ => rfl, rfl⟩

theorem swapTgts_one {code : BitVec 16} {l : List Byte} {room : Nat} (h : swapTgts code l room = some [t]) : Tgt.ofCode code = some t := by
  unfold swapTgts at h
  dsimp only at h
  split at h
  · exact absurd h.symm (Option.some_ne_none _)
  · rw [List.foldr_cons] at h
    split at h
    · exact absurd h.symm (Option.some_ne_none _)
    · next hcode _ =>
      obtain ⟨rfl, -⟩ := List.cons.inj (Option.some.inj h)
      exact hcode
    · exact absurd h.symm (Option.some_ne_none _)

/-! ### The swap of one lane on its tick -/

/-- A swap of one lane: kept out by the arbiter, turned away for its bank, or done. -/
def laneSwap (c : Cmd) (t : Tgt) (b : Block) (u : State) : State × Bool := match arbHolderOf .swap u 4 t with
  | some a => (arbRefuse 4 a.cls u, true)
  | none => match blockBroken u [] b with
    | some o => (refuse c stBadParam (raise 0x002 (pay2 b.code.toNat o) (arbAdmitOf .swap 4 t u)), false)
    | none => (done c 0 (swapDo [b] (arbAdmitOf .swap 4 t u)), false)

theorem blockBroken_arb (ports : List (Fin 8)) (x : Arb) (u : State) : blockBroken { u with arb := x } ports b = blockBroken u ports b := rfl

theorem swapStart_lane (hb : LaneBlock t b) (hts : swapTgts c.d.target c.d.param 21 = some [t]) (htest : underTest u t = false)
    (hoff : blockOff u b = false) : swapStart (some c) c.d.target c.d.param 21 u = laneSwap c t b u := by
  obtain ⟨hblocks, htgt, hidle, hports⟩ := hb.facts
  have hbs : ([t].flatMap blocksOf).eraseDups = [b] := by simp [hblocks, List.eraseDups_cons]
  have hnamed : ([t].filter (· != .device)).flatMap blocksOf = [b] := by
    obtain ⟨n, rfl, rfl⟩ | ⟨n, rfl, rfl⟩ := hb
    · rfl
    · rfl
  have htested : blockTest u b = false := by rw [blockTest, htgt, htest]
  have hbroken : blockBroken (arbAdmitOf .swap 4 t u) [] b = blockBroken u [] b := blockBroken_arb [] _ u
  unfold swapStart laneSwap
  simp only [hts, hbs, hnamed, hports, List.any_cons, List.any_nil, hidle, htested, hoff, Bool.or_false, Bool.and_false, Bool.false_eq_true,
    if_false, List.findSome?_cons, List.findSome?_nil, List.foldl_cons, List.foldl_nil, List.filterMap_cons, List.filterMap_nil, hbroken]
  cases hholder : arbHolderOf .swap u 4 t with
  | some a => rfl
  | none =>
    cases hbad : blockBroken u [] b with
    | some o => rfl
    | none => rfl

/-! ### The banks after the swap -/

/-- From u to v the banks of one lane are exchanged, and those of every other lane stay. -/
def BanksExchanged (b : Block) (u v : State) : Prop :=
  (∀ n : Fin 8, v.lines[n].act = (if b = .line n then u.lines[n].shd else u.lines[n].act) ∧
    v.lines[n].shd = (if b = .line n then u.lines[n].act else u.lines[n].shd)) ∧
  ∀ n : Fin 16, v.hosts[n].act = (if b = .host n then u.hosts[n].shd else u.hosts[n].act) ∧
    v.hosts[n].shd = (if b = .host n then u.hosts[n].act else u.hosts[n].shd)

theorem testsCleared_rest (o w : State) : (testsCleared o w).lines = w.lines ∧ (testsCleared o w).hosts = w.hosts ∧
    (testsCleared o w).rings = w.rings ∧ (testsCleared o w).arb = w.arb :=
  have h : Only [.ports] w (testsCleared o w) := testsCleared_only (.refl _ w) (by decide)
  ⟨h.only .lines (by decide), h.only .hosts (by decide), h.only .rings (by decide), h.only .arb (by decide)⟩

theorem swapDo_line (n : Fin 8) (w : State) : BanksExchanged (.line n) w (swapDo [.line n] w) ∧ (swapDo [.line n] w).rings = w.rings ∧
    (Untrained n w → (swapDo [.line n] w).arb.admitted = w.arb.admitted) := by
  obtain ⟨x, hx⟩ : ∃ x, x = lineSwapped n w.lines[n].act (exchange (.line n) w) := ⟨_, rfl⟩
  have hdo : swapDo [.line n] w = testsCleared w x := by
    rw [hx]
    rfl
  have hself : (exchange (.line n) w).lines[n] = { w.lines[n] with act := w.lines[n].shd, shd := w.lines[n].act } := upd_get_self _ _ _
  have hothers : OtherLines n w (exchange (.line n) w) := fun m hm => upd_get_ne _ _ hm
  have hswap := lineSwapped_banks n w.lines[n].act (exchange (.line n) w)
  have honly : Only [.out, .evt, .own, .lines, .counters, .arb, .ocp] (exchange (.line n) w) x := by
    rw [hx]
    exact lineSwapped_only (.refl _ _) (by decide) (by decide) (by decide) (by decide) (by decide) (by decide) (by decide)
  rw [← hx] at hswap
  obtain ⟨hlines, hhosts, hrings, harb⟩ := testsCleared_rest w x
  rw [hdo]
  refine ⟨⟨fun m => ?_, fun m => ?_⟩, hrings.trans (honly.only .rings (by decide)), fun hn => ?_⟩
  · rw [hlines]
    by_cases hm : m = n
    · subst hm
      have hbanks := hswap.banks
      rw [hself] at hbanks
      rw [if_pos rfl, if_pos rfl]
      exact Prod.mk.inj hbanks
    · have hne : Block.line n ≠ .line m := fun h => hm (Block.line.inj h).symm
      rw [if_neg hne, if_neg hne, hswap.others m hm, hothers m hm]
      exact ⟨rfl, rfl⟩
  · rw [hhosts, honly.only .hosts (by decide), if_neg (by simp), if_neg (by simp)]
    exact ⟨rfl, rfl⟩
  · rw [harb]
    exact hswap.admitted hn

theorem swapDo_host (n : Fin 16) (w : State) : BanksExchanged (.host n) w (swapDo [.host n] w) ∧ (swapDo [.host n] w).rings = w.rings ∧
    (swapDo [.host n] w).arb.admitted = w.arb.admitted := by
  obtain ⟨x, hx⟩ : ∃ x, x = hostSwapped n w.hosts[n].act (exchange (.host n) w) := ⟨_, rfl⟩
  have hdo : swapDo [.host n] w = testsCleared w x := by
    rw [hx]
    rfl
  have hself : (exchange (.host n) w).hosts[n] = { w.hosts[n] with act := w.hosts[n].shd, shd := w.hosts[n].act } := upd_get_self _ _ _
  have hothers : OtherHosts n w (exchange (.host n) w) := fun m hm => upd_get_ne _ _ hm
  obtain ⟨hbanks, hrest⟩ := hostSwapped_banks n w.hosts[n].act (exchange (.host n) w)
  have honly : Only [.hosts] (exchange (.host n) w) x := by
    rw [hx]
    exact hostSwapped_only (.refl _ _) (by decide)
  rw [← hx] at hbanks hrest
  obtain ⟨hlines, hhosts, hrings, harb⟩ := testsCleared_rest w x
  rw [hdo]
  refine ⟨⟨fun m => ?_, fun m => ?_⟩, hrings.trans (honly.only .rings (by decide)),
    (congrArg Arb.admitted harb).trans (congrArg Arb.admitted (honly.only .arb (by decide)))⟩
  · rw [hlines, honly.only .lines (by decide), if_neg (by simp), if_neg (by simp)]
    exact ⟨rfl, rfl⟩
  · rw [hhosts]
    by_cases hm : m = n
    · subst hm
      rw [hself] at hbanks
      rw [if_pos rfl, if_pos rfl]
      exact Prod.mk.inj hbanks
    · have hne : Block.host n ≠ .host m := fun h => hm (Block.host.inj h).symm
      rw [if_neg hne, if_neg hne, hrest m hm, hothers m hm]
      exact ⟨rfl, rfl⟩

/-- A lane whose swap no admitted activity keeps out has no application of its responder admitted. -/
theorem untrained_swap {n : Fin 8} (h : arbHolderOf .swap u 4 (.line (some n)) = none) : Untrained n (arbAdmitOf .swap 4 (.line (some n)) u) := by
  intro hmem
  obtain hold | hnew := List.mem_append.1 hmem
  · refine List.find?_eq_none.1 h _ hold ?_
    dsimp only
    rw [ofArb_line n]
    simp [exclusion, arbTogether, Tgt.meets, optMeets]
  · have hcls : (8 : Nat) = 4 := congrArg Activity.cls (List.mem_singleton.1 hnew)
    exact absurd hcls (by decide)

theorem swapDo_lane (hb : LaneBlock t b) (hfree : arbHolderOf .swap u 4 t = none) :
    BanksExchanged b u (swapDo [b] (arbAdmitOf .swap 4 t u)) ∧ (swapDo [b] (arbAdmitOf .swap 4 t u)).rings = u.rings ∧
      (swapDo [b] (arbAdmitOf .swap 4 t u)).arb.admitted.length = u.arb.admitted.length + 1 := by
  have hlen : (arbAdmitOf .swap 4 t u).arb.admitted.length = u.arb.admitted.length + 1 := List.length_append
  obtain ⟨n, rfl, rfl⟩ | ⟨n, rfl, rfl⟩ := hb
  · obtain ⟨hbanks, hrings, hadmitted⟩ := swapDo_line n (arbAdmitOf .swap 4 (.line (some n)) u)
    exact ⟨hbanks, hrings, (congrArg List.length (hadmitted (untrained_swap hfree))).trans hlen⟩
  · obtain ⟨hbanks, hrings, hadmitted⟩ := swapDo_host n (arbAdmitOf .swap 4 (.host (some n)) u)
    exact ⟨hbanks, hrings, (congrArg List.length hadmitted).trans hlen⟩

/-! ### The command -/

theorem arbRefuse_admitted (cls holder : Nat) (u : State) : (arbRefuse cls holder u).arb.admitted = u.arb.admitted := by
  obtain ⟨w, hw⟩ : ∃ w, w = countDev 0x83 1 { u with arb := { u.arb with conflict := satU 16 (u.arb.conflict + 1) } } := ⟨_, rfl⟩
  have hraise : Only [.evt, .own, .counters] w (arbRefuse cls holder u) := by
    rw [hw]
    exact raiseLimited_only (.refl _ _) (by decide) (by decide) (by decide)
  have hcount : w.arb.admitted = u.arb.admitted := by
    rw [hw, (countDev_only (.refl [.counters] _) (by decide)).only .arb (by decide)]
  rw [hraise.only .arb (by decide), hcount]

section
variable (h : AtOnce 0x14 d noImage s c u) (hb : LaneBlock t b) (hts : swapTgts c.d.target c.d.param 21 = some [t])
  (hoff : blockOff u b = false)
include h hb hts hoff

theorem bankSwap_act : opAct c u = hostOffer c 4 u (laneSwap c t b u) := by
  have htest : underTest u t = false := by
    have hop := h.op_eq
    obtain ⟨⟨-, -, -, -, -, hin, -⟩, -⟩ := h
    have hwhere : c.tgt = some t := swapTgts_one hts
    simpa [opInTest, hop, hwhere] using hin
  simp only [opAct, h.op_eq, swapStart_lane hb hts htest hoff]

theorem bankSwap_held {a : Activity} (ha : arbHolderOf .swap u 4 t = some a) :
    exec (.bankSwap d) s = .next (refuse c 0x21 (arbRefuse 4 a.cls u)) := by
  have hrest : Only [.evt, .own, .counters, .arb] u (arbRefuse 4 a.cls u) :=
    arbRefuse_only (.refl _ u) (by decide) (by decide) (by decide) (by decide)
  have hlane : laneSwap c t b u = (arbRefuse 4 a.cls u, true) := by rw [laneSwap, ha]
  have hoffer : hostOffer c 4 u (arbRefuse 4 a.cls u, true) = refuse c stMaint (arbRefuse 4 a.cls u) := by
    have hsame : (arbRefuse 4 a.cls u).arb.admitted.length = u.arb.admitted.length := congrArg List.length (arbRefuse_admitted 4 a.cls u)
    unfold hostOffer
    rw [decide_eq_true hsame, if_pos (by decide)]
    rfl
  refine exec_refused rfl h ?_ (hrest.only .rings (by decide))
  rw [bankSwap_act h hb hts hoff, hlane, hoffer]

theorem bankSwap_claimed {k : Nat} (hfree : arbHolderOf .swap u 4 t = none) (hk : slotClaim u 4 false (c.tgt.getD .device) = some k) :
    exec (.bankSwap d) s = .next (refuse c 0x21 (arbRefuse 4 k u)) := by
  refine claimed_exec rfl h (bankSwap_act h hb hts hoff) ?_ hk
  have hlen : (laneSwap c t b u).1.arb.admitted.length = u.arb.admitted.length + 1 := by
    unfold laneSwap
    rw [hfree]
    cases blockBroken u [] b with
    | some o =>
      show (refuse c stBadParam (raise 0x002 (pay2 b.code.toNat o) (arbAdmitOf .swap 4 t u))).arb.admitted.length = _
      rw [refuse_arb, raise_arb]
      exact List.length_append
    | none =>
      obtain ⟨-, -, hlen⟩ := swapDo_lane hb hfree
      show (done c 0 (swapDo [b] (arbAdmitOf .swap 4 t u))).arb.admitted.length = _
      rw [done_arb]
      exact hlen
  rw [hlen]
  exact Nat.succ_ne_self _

theorem bankSwap_broken {o : Nat} (hfree : arbHolderOf .swap u 4 t = none) (hk : slotClaim u 4 false (c.tgt.getD .device) = none)
    (ho : blockBroken u [] b = some o) :
    exec (.bankSwap d) s = .next (refuse c 0x13 (raise 0x002 (pay2 b.code.toNat o) (arbAdmitOf .swap 4 t u))) := by
  have hlane : laneSwap c t b u = (refuse c stBadParam (raise 0x002 (pay2 b.code.toNat o) (arbAdmitOf .swap 4 t u)), false) := by
    rw [laneSwap, hfree, ho]
  refine exec_refused rfl h ?_ (raise_rings _)
  rw [bankSwap_act h hb hts hoff, hlane, hostOffer_free hk rfl]

theorem bankSwap_done (hfree : arbHolderOf .swap u 4 t = none) (hk : slotClaim u 4 false (c.tgt.getD .device) = none)
    (ho : blockBroken u [] b = none) : exec (.bankSwap d) s = .next (done c 0 (swapDo [b] (arbAdmitOf .swap 4 t u))) := by
  have hlane : laneSwap c t b u = (done c 0 (swapDo [b] (arbAdmitOf .swap 4 t u)), false) := by rw [laneSwap, hfree, ho]
  obtain ⟨-, hrings, -⟩ := swapDo_lane hb hfree
  refine exec_done rfl h ?_ hrings
  rw [bankSwap_act h hb hts hoff, hlane, hostOffer_free hk rfl]

end

end

/-- Settles O37: a swap of one lane kept out by the arbiter or by a slot, turned away for its bank, or done. -/
theorem swappingABank : Obligations.SwappingABank := by
  unfold Obligations.SwappingABank
  intro d s c u t b h hb hts hoff
  refine ⟨fun a ha => bankSwap_held h hb hts hoff ha, fun hfree k hk => bankSwap_claimed h hb hts hoff hfree hk,
    fun hfree hk => ⟨fun o ho => ?broken, fun ho => ?_⟩⟩
  case broken =>
    intro v
    refine ⟨bankSwap_broken h hb hts hoff hfree hk ho, ?_⟩
    exact (arbAdmitOf_only (.refl [.arb] u) (by decide)).only
  · obtain ⟨⟨hlines, hhosts⟩, -⟩ := swapDo_lane hb hfree
    exact ⟨_, bankSwap_done h hb hts hoff hfree hk ho, hlines, hhosts⟩

end Sys2Proof.Machine
end
